-- ==== Sys2Proof/Word.lean ====
section
/-!
DEFINITION. The words of the machine and the operand types of its commands.
-/
namespace Sys2Proof

/-- One byte. -/
abbrev Byte := BitVec 8
/-- One 32-bit register word (R7). -/
abbrev Word := BitVec 32
/-- One 64-bit uniform register or mask (R92). -/
abbrev DWord := BitVec 64

/-- A table from numbers to things: pairs with strictly rising keys. -/
abbrev Tab (α : Type) := List (Nat × α)

/-- The access paths to the register aperture (R10): the host window and the four guide clusters. -/
inductive Path where
  | host
  | gc (d : Fin 4)
  deriving DecidableEq, Repr

/-- A resident thread group: the physical tile (44 x die + slot, R37) and the group slot 0 to 63 on it (R57). -/
structure GRef where
  tile : Nat
  slot : Nat
  deriving DecidableEq, Repr

/-- What an operation on a line does at its home slice (R220). -/
inductive LineKind where
  /-- read the line -/
  | read
  /-- write the given bytes: (offset in the line, value) -/
  | write (bytes : List (Nat × Nat))
  /-- zero the whole line (R233) -/
  | zero
  /-- one atomic read-modify-write: kind of R109, offset in the line, first operand, second operand -/
  | atomic (kind : Nat) (off : Nat) (a : Nat) (b : Nat)
  deriving DecidableEq, Repr

/-- An operation on a line (R220): its physical line address, the key slot it is made under (R246), what it does, the transaction group it names
(die and slot, R310), if any. -/
structure LineOp where
  pa   : Nat
  slot : Nat
  kind : LineKind
  txg  : Option (Nat × Nat)
  deriving DecidableEq, Repr

/-- A packet of the fabric: the header of R407, the payload and the uncorrectable mark of the line it carries. `data` holds
the 128 bytes of a line, 32 FP32 addends (REDUCE), or for an ATOMIC per lane in order: offset in the line, first and second
operand; for its answer the old values. `first` is the first serial of the run. -/
structure Packet where
  kind    : Nat
  flags   : Nat
  dst     : Nat
  src     : Nat
  space   : Nat
  route   : Nat
  stream  : Nat
  sub     : Nat
  serial  : Nat
  first   : Nat
  addr    : Nat
  txg     : Nat
  operand : Nat
  mask    : Nat
  data    : List Nat
  mark    : Bool
  deriving DecidableEq, Repr

/-- A KEYX flit (R394): its sequence number and acknowledgement, public key, nonce, certificate chain and signature. -/
structure KeyxFlit where
  seq   : Nat
  ack   : Nat
  pub   : Nat
  nonce : Nat
  chain : List Nat
  sig   : List Nat
  deriving DecidableEq, Repr

/-- A DATA flit as it arrives (R387, R389, R395): header fields, and whether FEC, CRC and GCM tag pass. -/
structure DataFlit where
  seq     : Nat
  ack     : Nat
  ackv    : Bool
  kphase  : Nat
  vc      : Nat
  credits : Nat
  cvc     : Nat
  fecOk   : Bool
  crcOk   : Bool
  tagOk   : Bool
  deriving DecidableEq, Repr

/-- A roll call record (R429), with the partner's dead set that R431 copies. -/
structure RollCall where
  dev     : Nat
  port    : Nat
  state   : Nat
  major   : Nat
  minor   : Nat
  epoch   : Nat
  digest  : Nat
  deadSum : Nat
  dead    : List Nat
  deriving DecidableEq, Repr

/-- What a HOLD protects (R376, R379): a resident workgroup of a tile, or a parked workgroup of a queue by its slot. -/
inductive HoldAt where
  | resident (tile wg : Nat)
  | parked (q slot : Nat)
  deriving DecidableEq, Repr

/-- What the pacing controller reads at a period (R458): input power in W, input voltage in units of R472, rail
currents in 0.1 A, shared supply currents. -/
structure PaceMeas where
  watts  : Nat
  volts  : Nat
  amps   : List Nat
  shared : List Nat
  deriving DecidableEq, Repr

/-- Facts of one start (R499 to R506) that the spec leaves to the parts. -/
structure BootFacts where
  /-- MOD_RESET_N is low as MOD_PWR_GOOD rises (R545) -/
  resetHeld : Bool
  /-- steps whose primary method fails (k), or whose alternative fails (16 + k), at each try of this start -/
  failed    : List Nat
  /-- DETAIL of a step that fails or takes its alternative (R504), by step -/
  detail    : Tab Nat
  /-- guide clusters that fail their check in step 2, by die -/
  clusters  : List Nat
  /-- die-to-die edges that fail in step 6 (0 D0-D1, 1 D2-D3, 2 D0-D2, 3 D1-D3) -/
  edges     : List Nat
  /-- stacks that fail for good in step 7 -/
  stackSet  : List Nat
  /-- units that fail their tests in step 10: tiles; cells (tile, physical row and column); L2 ways (slice, way); belay
  entries by die -/
  tiles     : List Nat
  cells     : List (Nat × Nat × Nat)
  ways      : List (Nat × Nat)
  entries   : Tab Nat
  /-- pages of the tiles and copy engines whose noise source fails its retest (R162) -/
  noise     : List Nat
  deriving DecidableEq, Repr

/-- The start of an array command on a tile: `late` lists, by hem cell and K position over all passes, how
many operands reach the cell before the channel value of that position (R119). -/
structure ArrStart where
  tile : Nat
  late : List (Nat × Nat × Nat)
  deriving DecidableEq, Repr

/-- The work of a row command on a tile, with the errors that it meets in the side memory and the working rows: row, kind (R198). -/
structure RowOp where
  tile : Nat
  errs : List (Nat × Nat)
  deriving DecidableEq, Repr

/-- A slice's part of an install, with the staged lines whose code is found bad (R318). -/
structure TxgPart where
  slice : Nat
  bad   : List Nat
  deriving DecidableEq, Repr

/-- An access to the page of a queue in the doorbell aperture: the offset, and the value of a write or none for a read. -/
structure DoorAcc where
  off : Nat
  val : Option Nat
  deriving DecidableEq, Repr

/-- The commit point of a transaction group of a die: its slot, and a staged line whose code is found bad (R318). -/
structure TxgPoint where
  slot : Nat
  bad  : Option Nat
  deriving DecidableEq, Repr

end Sys2Proof
end

