-- ==== Sys2Proof/Syntax.lean ====
section
/-!
DEFINITION. The commands of the GW7: one constructor per row of the opcode table. Each docstring gives the row's own
words and its rule; Machine/ gives the meaning.
-/
namespace Sys2Proof

inductive Instr where
  /-- REG_WRITE (R8): A write to a register that has no row of its own, acting by its access type. -/
  | regWrite (p : Path) (tag : Nat) (off : Nat) (size : Nat) (v : Nat)
  /-- RC_READ (R9): A read of an RC register returns its value and clears it, serialised against other readers. -/
  | rcRead (p : Path) (tag : Nat) (off : Nat) (size : Nat)
  /-- PAIR_LOW_WRITE (R10): A write of the low half of a 64-bit pair stages it. -/
  | pairLowWrite (p : Path) (tag : Nat) (off : Nat) (v : Nat)
  /-- PAIR_HIGH_WRITE (R10): A write of the high half of a 64-bit pair commits both halves at once. -/
  | pairHighWrite (p : Path) (tag : Nat) (off : Nat) (v : Nat)
  /-- PAIR_LOW_READ (R10): A read of the low half of a pair latches the high half for that access path. -/
  | pairLowRead (p : Path) (tag : Nat) (off : Nat)
  /-- BLK_PROG_READ (R52): A read of BLK_PROG latches BLK_PROG_ID for the reading path. -/
  | blkProgRead (p : Path) (tag : Nat) (page : Nat)
  /-- STOP (R44): BLK_CTRL request STOP moves an IDLE or BUSY block to STOPPING with the writer as OWNER. -/
  | stop (p : Path) (tag : Nat) (page : Nat)
  /-- RESTART (R46): BLK_CTRL request RESTART checks the staged set and applies it and enters IDLE, or rejects it as INVALID. -/
  | restart (p : Path) (tag : Nat) (page : Nat)
  /-- DISCARD (R46): BLK_CTRL request DISCARD drops the staged writes and returns the STOPPED block to IDLE. -/
  | discard (p : Path) (tag : Nat) (page : Nat)
  /-- CANCEL_OP (R51): BLK_CTRL request CANCEL_OP ends a running long operation as CANCELLED. -/
  | cancelOp (p : Path) (tag : Nat) (page : Nat)
  /-- TAKE (R49): BLK_CTRL request TAKE lets a guide cluster path become OWNER of an open stop. -/
  | take (p : Path) (tag : Nat) (page : Nat)
  /-- WITHDRAW (R48): BLK_CTRL request WITHDRAW ends a stop in STOPPING and returns the block to IDLE or BUSY. -/
  | withdraw (p : Path) (tag : Nat) (page : Nat)
  /-- BLOCK_STOPPED (R40): A STOPPING block enters STOPPED once its work in hand is finished or parked and its long operation has ended. -/
  | blockStopped (page : Nat)
  /-- BLOCK_FAULT (R42): A fault declared on a block moves it to FAILED, ends any open stop and discards staged writes. -/
  | blockFault (page : Nat)
  /-- LONG_OP_END (R51): A block's long operation ends once with its RESULT. -/
  | longOpEnd (page : Nat) (result : Nat)
  /-- INJ_ARM (R54): A write of BLK_INJ_CTRL.ARM arms injection at the selected detector, refused without PERMIT. -/
  | injArm (p : Path) (tag : Nat) (page : Nat) (v : Nat)
  /-- SNAP_RELEASE (R54): A write of BLK_SNAP_CTRL.RELEASE frees the held snapshot for the next trigger. -/
  | snapRelease (p : Path) (tag : Nat) (page : Nat) (v : Nat)
  /-- RATE_INTERVAL (R28): Every 1,000 µs of its counter a block updates BLK_RATE.MEAS with the mean monitor rate. -/
  | rateInterval (page : Nat) (meas : Nat)
  /-- COUNTER_TRIM (R30): Firmware trims a local interval counter against the module reference and updates RATIO and noise checks. -/
  | counterTrim (page : Nat) (corr : Nat) (temp : Nat)
  /-- TRIM_STALE (R31): A counter not trimmed for 500 ms sets BLK_TRIM.STALE and firmware sends TRIM_LOST. -/
  | trimStale (page : Nat)
  /-- DIE_EDGE_FAIL (R17): A die-to-die edge fails and firmware reroutes its traffic, raises DIE_EDGE_LOST and reports it. -/
  | dieEdgeFail (e : Nat)
  /-- WG_OFFER (R22): A dispatch engine offers a workgroup to its next candidate tile in placement order. -/
  | wgOffer (q : Nat) (serial : Nat)
  /-- ISSUE_ROUND (R60): The thread core chooses and issues the bundles of ready groups in one step. -/
  | issueRound (tile : Nat)
  /-- CODE_FETCH (R112): The thread core fetches the bundle at a group's PC through the L1, faulting on translation or poison. -/
  | codeFetch (g : GRef)
  /-- BRA (R99): Jumps by a signed offset. -/
  | bra (g : GRef) (off : BitVec 22)
  /-- BR_COND (R99): Jumps if a uniform register meets a condition against zero. -/
  | brCond (g : GRef) (sr : BitVec 5) (cond : BitVec 3) (off : BitVec 14)
  /-- BRP_MODE (R99): Jumps if a predicate is set in any, all or no active lane. -/
  | brpMode (g : GRef) (p : BitVec 3) (mode : BitVec 2) (off : BitVec 17)
  /-- CALL (R99): Saves the next bundle address and jumps. -/
  | call (g : GRef) (sd : BitVec 5) (off : BitVec 17)
  /-- JMPR (R99): Jumps to the address in a uniform register, faulting ALIGN if misaligned. -/
  | jmpr (g : GRef) (sr : BitVec 5)
  /-- SPLIT (R63): Pushes a mask stack entry and narrows the active mask to the predicate. -/
  | split (g : GRef) (p : BitVec 3) (els : BitVec 9) (fin : BitVec 10)
  /-- JOIN (R63): Switches to the deferred lanes or pops the entry and rejoins. -/
  | joinM (g : GRef)
  /-- LOOP (R63): Pushes a LOOP entry for a loop with an exit target. -/
  | loopM (g : GRef) (out : BitVec 16)
  /-- BREAK (R63): Removes the predicated lanes from the active mask of a LOOP. -/
  | breakM (g : GRef) (p : BitVec 3)
  /-- EXIT (R63): Removes the active lanes from the live mask and every stack entry. -/
  | exitM (g : GRef)
  /-- BAR (R67): Adds the active lanes to the barrier's arrived set and waits, with a workgroup fence. -/
  | bar (g : GRef)
  /-- TRAP (R99): Faults the group with TRAP. -/
  | trap (g : GRef) (code : BitVec 8)
  /-- WAITLE (R99): Holds the bundle until a dependency counter is at or below a value. -/
  | waitle (g : GRef) (k : BitVec 3) (n : BitVec 6)
  /-- RDLIC (R99): Reads the tile's local interval count into a uniform register. -/
  | rdlic (g : GRef) (sd : BitVec 5)
  /-- RDSTEP (R99): Reads the tile's step count into a uniform register. -/
  | rdstep (g : GRef) (sd : BitVec 5)
  /-- UADD (R99): Uniform 64-bit add. -/
  | uadd (g : GRef) (sd : BitVec 5) (sa : BitVec 5) (sb : BitVec 5)
  /-- USUB (R99): Uniform 64-bit subtract. -/
  | usub (g : GRef) (sd : BitVec 5) (sa : BitVec 5) (sb : BitVec 5)
  /-- UMUL (R99): Uniform 64-bit multiply. -/
  | umul (g : GRef) (sd : BitVec 5) (sa : BitVec 5) (sb : BitVec 5)
  /-- UAND (R99): Uniform bitwise AND. -/
  | uand (g : GRef) (sd : BitVec 5) (sa : BitVec 5) (sb : BitVec 5)
  /-- UOR (R99): Uniform bitwise OR. -/
  | uor (g : GRef) (sd : BitVec 5) (sa : BitVec 5) (sb : BitVec 5)
  /-- UXOR (R99): Uniform bitwise XOR. -/
  | uxor (g : GRef) (sd : BitVec 5) (sa : BitVec 5) (sb : BitVec 5)
  /-- USHL (R99): Uniform shift left. -/
  | ushl (g : GRef) (sd : BitVec 5) (sa : BitVec 5) (sb : BitVec 5)
  /-- USHR (R99): Uniform logical shift right. -/
  | ushr (g : GRef) (sd : BitVec 5) (sa : BitVec 5) (sb : BitVec 5)
  /-- USAR (R99): Uniform arithmetic shift right. -/
  | usar (g : GRef) (sd : BitVec 5) (sa : BitVec 5) (sb : BitVec 5)
  /-- UMIN_S (R99): Uniform signed minimum. -/
  | uminS (g : GRef) (sd : BitVec 5) (sa : BitVec 5) (sb : BitVec 5)
  /-- UMAX_S (R99): Uniform signed maximum. -/
  | umaxS (g : GRef) (sd : BitVec 5) (sa : BitVec 5) (sb : BitVec 5)
  /-- UMIN_U (R99): Uniform unsigned minimum. -/
  | uminU (g : GRef) (sd : BitVec 5) (sa : BitVec 5) (sb : BitVec 5)
  /-- UADDI (R99): Uniform add of a sign-extended immediate. -/
  | uaddi (g : GRef) (sd : BitVec 5) (sa : BitVec 5) (imm : BitVec 12)
  /-- UANDI (R99): Uniform AND with an immediate. -/
  | uandi (g : GRef) (sd : BitVec 5) (sa : BitVec 5) (imm : BitVec 12)
  /-- UORI (R99): Uniform OR with an immediate. -/
  | uori (g : GRef) (sd : BitVec 5) (sa : BitVec 5) (imm : BitVec 12)
  /-- UXORI (R99): Uniform XOR with an immediate. -/
  | uxori (g : GRef) (sd : BitVec 5) (sa : BitVec 5) (imm : BitVec 12)
  /-- USHLI (R99): Uniform shift left by an immediate. -/
  | ushli (g : GRef) (sd : BitVec 5) (sa : BitVec 5) (imm : BitVec 12)
  /-- USHRI (R99): Uniform logical shift right by an immediate. -/
  | ushri (g : GRef) (sd : BitVec 5) (sa : BitVec 5) (imm : BitVec 12)
  /-- USARI (R99): Uniform arithmetic shift right by an immediate. -/
  | usari (g : GRef) (sd : BitVec 5) (sa : BitVec 5) (imm : BitVec 12)
  /-- UMOVI (R99): Moves a sign-extended immediate into a uniform register. -/
  | umovi (g : GRef) (sd : BitVec 5) (imm : BitVec 17)
  /-- MOVL (R90): Moves literal word L0 into a uniform register. -/
  | movl (g : GRef) (sd : BitVec 5) (l0 : BitVec 32)
  /-- MOVL64 (R90): Moves literal words L1:L0 into a uniform register. -/
  | movl64 (g : GRef) (sd : BitVec 5) (l0 : BitVec 32) (l1 : BitVec 32)
  /-- PMOV (R99): Moves a uniform register into a predicate. -/
  | pmov (g : GRef) (p : BitVec 3) (sr : BitVec 5)
  /-- SMOVP (R99): Moves a predicate into a uniform register. -/
  | smovp (g : GRef) (sd : BitVec 5) (p : BitVec 3)
  /-- PAND (R99): Predicate AND. -/
  | pand (g : GRef) (pd : BitVec 3) (pa : BitVec 3) (pb : BitVec 3)
  /-- POR (R99): Predicate OR. -/
  | por (g : GRef) (pd : BitVec 3) (pa : BitVec 3) (pb : BitVec 3)
  /-- PANDN (R99): Predicate AND NOT. -/
  | pandn (g : GRef) (pd : BitVec 3) (pa : BitVec 3) (pb : BitVec 3)
  /-- PNOT (R99): Predicate NOT. -/
  | pnot (g : GRef) (pd : BitVec 3) (pa : BitVec 3)
  /-- FMA_F32 (R101): Lane-wise FP32 fused multiply-add. -/
  | fmaF32 (g : GRef) (d : BitVec 8) (a : BitVec 8) (b : BitVec 8) (lit : BitVec 32)
  /-- FMA_BF2 (R101): Lane-wise paired BF16 fused multiply-add. -/
  | fmaBf2 (g : GRef) (d : BitVec 8) (a : BitVec 8) (b : BitVec 8) (lit : BitVec 32)
  /-- MUL_F32 (R101): Lane-wise FP32 multiply. -/
  | mulF32 (g : GRef) (d : BitVec 8) (a : BitVec 8) (b : BitVec 8) (lit : BitVec 32)
  /-- ADD_F32 (R101): Lane-wise FP32 add. -/
  | addF32 (g : GRef) (d : BitVec 8) (a : BitVec 8) (b : BitVec 8) (lit : BitVec 32)
  /-- SUB_F32 (R101): Lane-wise FP32 subtract. -/
  | subF32 (g : GRef) (d : BitVec 8) (a : BitVec 8) (b : BitVec 8) (lit : BitVec 32)
  /-- ADD_I32 (R101): Lane-wise integer add. -/
  | addI32 (g : GRef) (d : BitVec 8) (a : BitVec 8) (b : BitVec 8) (lit : BitVec 32)
  /-- SUB_I32 (R101): Lane-wise integer subtract. -/
  | subI32 (g : GRef) (d : BitVec 8) (a : BitVec 8) (b : BitVec 8) (lit : BitVec 32)
  /-- MUL_I32 (R101): Lane-wise low 32 bits of an integer product. -/
  | mulI32 (g : GRef) (d : BitVec 8) (a : BitVec 8) (b : BitVec 8) (lit : BitVec 32)
  /-- MIN_F32 (R102): Lane-wise FP32 minimum. -/
  | minF32 (g : GRef) (d : BitVec 8) (a : BitVec 8) (lit : BitVec 32)
  /-- MAX_F32 (R102): Lane-wise FP32 maximum. -/
  | maxF32 (g : GRef) (d : BitVec 8) (a : BitVec 8) (lit : BitVec 32)
  /-- MIN_S32 (R102): Lane-wise signed minimum. -/
  | minS32 (g : GRef) (d : BitVec 8) (a : BitVec 8) (lit : BitVec 32)
  /-- MAX_S32 (R102): Lane-wise signed maximum. -/
  | maxS32 (g : GRef) (d : BitVec 8) (a : BitVec 8) (lit : BitVec 32)
  /-- MIN_U32 (R102): Lane-wise unsigned minimum. -/
  | minU32 (g : GRef) (d : BitVec 8) (a : BitVec 8) (lit : BitVec 32)
  /-- MAX_U32 (R102): Lane-wise unsigned maximum. -/
  | maxU32 (g : GRef) (d : BitVec 8) (a : BitVec 8) (lit : BitVec 32)
  /-- AND (R102): Lane-wise AND. -/
  | andV (g : GRef) (d : BitVec 8) (a : BitVec 8) (lit : BitVec 32)
  /-- OR (R102): Lane-wise OR. -/
  | orV (g : GRef) (d : BitVec 8) (a : BitVec 8) (lit : BitVec 32)
  /-- XOR (R102): Lane-wise XOR. -/
  | xorV (g : GRef) (d : BitVec 8) (a : BitVec 8) (lit : BitVec 32)
  /-- SHL (R102): Lane-wise shift left. -/
  | shlV (g : GRef) (d : BitVec 8) (a : BitVec 8) (lit : BitVec 32)
  /-- SHR (R102): Lane-wise logical shift right. -/
  | shrV (g : GRef) (d : BitVec 8) (a : BitVec 8) (lit : BitVec 32)
  /-- SAR (R102): Lane-wise arithmetic shift right. -/
  | sarV (g : GRef) (d : BitVec 8) (a : BitVec 8) (lit : BitVec 32)
  /-- CMP_EQ_F32 (R102): FP32 equality compare into a predicate. -/
  | cmpEqF32 (g : GRef) (x : BitVec 5) (d : BitVec 8) (a : BitVec 8) (lit : BitVec 32)
  /-- CMP_LT_F32 (R102): FP32 less-than compare into a predicate. -/
  | cmpLtF32 (g : GRef) (x : BitVec 5) (d : BitVec 8) (a : BitVec 8) (lit : BitVec 32)
  /-- CMP_LE_F32 (R102): FP32 less-or-equal compare into a predicate. -/
  | cmpLeF32 (g : GRef) (x : BitVec 5) (d : BitVec 8) (a : BitVec 8) (lit : BitVec 32)
  /-- CMP_NE_F32 (R102): FP32 not-equal compare into a predicate. -/
  | cmpNeF32 (g : GRef) (x : BitVec 5) (d : BitVec 8) (a : BitVec 8) (lit : BitVec 32)
  /-- CMP_EQ_I32 (R102): Integer equality compare into a predicate. -/
  | cmpEqI32 (g : GRef) (x : BitVec 5) (d : BitVec 8) (a : BitVec 8) (lit : BitVec 32)
  /-- CMP_LT_S32 (R102): Signed less-than compare into a predicate. -/
  | cmpLtS32 (g : GRef) (x : BitVec 5) (d : BitVec 8) (a : BitVec 8) (lit : BitVec 32)
  /-- CMP_LE_S32 (R102): Signed less-or-equal compare into a predicate. -/
  | cmpLeS32 (g : GRef) (x : BitVec 5) (d : BitVec 8) (a : BitVec 8) (lit : BitVec 32)
  /-- CMP_NE_I32 (R102): Integer not-equal compare into a predicate. -/
  | cmpNeI32 (g : GRef) (x : BitVec 5) (d : BitVec 8) (a : BitVec 8) (lit : BitVec 32)
  /-- CMP_LT_U32 (R102): Unsigned less-than compare into a predicate. -/
  | cmpLtU32 (g : GRef) (x : BitVec 5) (d : BitVec 8) (a : BitVec 8) (lit : BitVec 32)
  /-- CMP_LE_U32 (R102): Unsigned less-or-equal compare into a predicate. -/
  | cmpLeU32 (g : GRef) (x : BitVec 5) (d : BitVec 8) (a : BitVec 8) (lit : BitVec 32)
  /-- SEL (R102): Selects A into D in lanes whose predicate is set. -/
  | sel (g : GRef) (x : BitVec 5) (d : BitVec 8) (a : BitVec 8) (lit : BitVec 32)
  /-- MOV (R102): Lane-wise register move. -/
  | movV (g : GRef) (d : BitVec 8) (a : BitVec 8) (lit : BitVec 32)
  /-- BCAST (R102): Broadcasts a uniform register into every lane. -/
  | bcast (g : GRef) (d : BitVec 8) (x : BitVec 5)
  /-- READLANE (R102): Reads the lowest active lane into a uniform register. -/
  | readlane (g : GRef) (x : BitVec 5) (a : BitVec 8) (lit : BitVec 32)
  /-- LANE (R102): Writes each lane's index. -/
  | lane (g : GRef) (d : BitVec 8)
  /-- WGLANE (R102): Writes each thread's index within the workgroup. -/
  | wglane (g : GRef) (d : BitVec 8)
  /-- SHFL_IDX (R102): Reads A from the lane named by D. -/
  | shflIdx (g : GRef) (d : BitVec 8) (a : BitVec 8) (lit : BitVec 32)
  /-- SHFL_XOR (R102): Reads A from the lane at lane index xor a uniform value. -/
  | shflXor (g : GRef) (d : BitVec 8) (a : BitVec 8) (x : BitVec 5) (lit : BitVec 32)
  /-- ABS_F32 (R102): FP32 absolute value by sign bit. -/
  | absF32 (g : GRef) (d : BitVec 8) (a : BitVec 8) (lit : BitVec 32)
  /-- NEG_F32 (R102): FP32 negation by sign bit. -/
  | negF32 (g : GRef) (d : BitVec 8) (a : BitVec 8) (lit : BitVec 32)
  /-- CVTN (R158): Converts FP32 to a format, rounding to nearest-even. -/
  | cvtn (g : GRef) (x : BitVec 5) (d : BitVec 8) (a : BitVec 8) (lit : BitVec 32)
  /-- CVTZ (R158): Converts FP32 to a format, rounding toward zero. -/
  | cvtz (g : GRef) (x : BitVec 5) (d : BitVec 8) (a : BitVec 8) (lit : BitVec 32)
  /-- CVTS (R160): Converts FP32 to a format with stochastic rounding from the noise source. -/
  | cvts (g : GRef) (x : BitVec 5) (d : BitVec 8) (a : BitVec 8) (lit : BitVec 32)
  /-- CVTF (R158): Converts a value of a format to FP32. -/
  | cvtf (g : GRef) (x : BitVec 5) (d : BitVec 8) (a : BitVec 8) (lit : BitVec 32)
  /-- EXP2 (R103): Base-2 exponential on the transcendental unit. -/
  | exp2 (g : GRef) (d : BitVec 8) (a : BitVec 8) (lit : BitVec 32)
  /-- LOG2 (R103): Base-2 logarithm on the transcendental unit. -/
  | log2 (g : GRef) (d : BitVec 8) (a : BitVec 8) (lit : BitVec 32)
  /-- RCP (R103): Reciprocal on the transcendental unit. -/
  | rcp (g : GRef) (d : BitVec 8) (a : BitVec 8) (lit : BitVec 32)
  /-- RSQ (R103): Reciprocal square root on the transcendental unit. -/
  | rsq (g : GRef) (d : BitVec 8) (a : BitVec 8) (lit : BitVec 32)
  /-- SQRT (R103): Square root on the transcendental unit. -/
  | sqrtV (g : GRef) (d : BitVec 8) (a : BitVec 8) (lit : BitVec 32)
  /-- SIN (R103): Sine on the transcendental unit. -/
  | sinV (g : GRef) (d : BitVec 8) (a : BitVec 8) (lit : BitVec 32)
  /-- COS (R103): Cosine on the transcendental unit. -/
  | cosV (g : GRef) (d : BitVec 8) (a : BitVec 8) (lit : BitVec 32)
  /-- REDU_ADD_F32 (R104): FP32 sum of active lanes in a fixed tree into a uniform register. -/
  | reduAddF32 (g : GRef) (x : BitVec 5) (a : BitVec 8) (lit : BitVec 32)
  /-- REDU_MAX_F32 (R104): FP32 maximum of active lanes into a uniform register. -/
  | reduMaxF32 (g : GRef) (x : BitVec 5) (a : BitVec 8) (lit : BitVec 32)
  /-- REDU_MIN_F32 (R104): FP32 minimum of active lanes into a uniform register. -/
  | reduMinF32 (g : GRef) (x : BitVec 5) (a : BitVec 8) (lit : BitVec 32)
  /-- REDU_ADD_I32 (R104): Integer sum of active lanes into a uniform register. -/
  | reduAddI32 (g : GRef) (x : BitVec 5) (a : BitVec 8) (lit : BitVec 32)
  /-- LONG_RESULT (R94): A transcendental or reduction writes its destination and completes under W5. -/
  | longResult (g : GRef) (id : Nat)
  /-- LD (R108): Global load into one or more registers. -/
  | ld (g : GRef) (sz : BitVec 3) (d : BitVec 8) (a : BitVec 8) (b : BitVec 5)
  /-- LDW (R108): Workgroup memory load. -/
  | ldw (g : GRef) (sz : BitVec 3) (d : BitVec 8) (a : BitVec 8) (b : BitVec 5)
  /-- ST (R108): Global store through the store buffer. -/
  | st (g : GRef) (sz : BitVec 3) (d : BitVec 8) (a : BitVec 8) (b : BitVec 5)
  /-- STW (R108): Workgroup memory store written at issue. -/
  | stw (g : GRef) (sz : BitVec 3) (d : BitVec 8) (a : BitVec 8) (b : BitVec 5)
  /-- ATOM (R70): Returning global atomic, combined per line and applied in lane order at the home slice. -/
  | atom (g : GRef) (kind : BitVec 4) (d : BitVec 8) (a : BitVec 8) (b : BitVec 5)
  /-- ATOMN (R70): Non-returning global atomic. -/
  | atomn (g : GRef) (kind : BitVec 4) (d : BitVec 8) (a : BitVec 8) (b : BitVec 5)
  /-- ATOMW (R70): Returning workgroup memory atomic. -/
  | atomw (g : GRef) (kind : BitVec 4) (d : BitVec 8) (a : BitVec 8) (b : BitVec 5)
  /-- ATOMWN (R70): Non-returning workgroup memory atomic. -/
  | atomwn (g : GRef) (kind : BitVec 4) (d : BitVec 8) (a : BitVec 8) (b : BitVec 5)
  /-- LDR (R281): Reserved load that sets the group's reservation on a granule. -/
  | ldr (g : GRef) (wide : Bool) (d : BitVec 8) (a : BitVec 8) (b : BitVec 5)
  /-- STC (R282): Conditional store that succeeds only while the reservation stands. -/
  | stc (g : GRef) (wide : Bool) (d : BitVec 8) (a : BitVec 8) (b : BitVec 5)
  /-- FENCE (R278): Fence at a scope, counted under W4. -/
  | fence (g : GRef) (scope : BitVec 3)
  /-- INVL1 (R229): Invalidates the tile's L1. -/
  | invl1 (g : GRef)
  /-- PREF (R108): Fetches lines into the L1, skipping unmapped lines. -/
  | pref (g : GRef) (a : BitVec 8) (b : BitVec 5)
  /-- ZLINE (R233): Zeroes whole lines at their home slice and clears their mark. -/
  | zline (g : GRef) (a : BitVec 8) (b : BitVec 5)
  /-- SIGNAL (R291): Increments a belay counter once for the group. -/
  | signal (g : GRef) (d : BitVec 5) (b : BitVec 5)
  /-- PWAIT (R297): Registers a GROUP watch and parks the workgroup with reason WAIT unless it fires at once. -/
  | pwait (g : GRef) (d : BitVec 5) (b : BitVec 5)
  /-- TXBIND (R312): Directs the group's later stores into a transaction group. -/
  | txbind (g : GRef) (d : BitVec 5)
  /-- TXUNBIND (R312): Ends the group's transaction binding. -/
  | txunbind (g : GRef)
  /-- ARR (R123): Issues a 256-bit array command from four uniform registers for acceptance. -/
  | arr (g : GRef) (sr : BitVec 5)
  /-- ROW (R182): Issues a 128-bit row engine command for acceptance. -/
  | row (g : GRef) (sr : BitVec 5)
  /-- IMPRECISE_FAULT (R75): A poisoned load or register file ECC error faults the group imprecisely. -/
  | impreciseFault (g : GRef) (code : Nat)
  /-- LOAD_RETURN (R94): A load's data arrives and its destination lanes are written, completing under W0. -/
  | loadReturn (g : GRef) (id : Nat)
  /-- STORE_RELEASE (R273): A store buffer entry is released to its target once older entries and loads of its group are done. -/
  | storeRelease (tile : Nat) (id : Nat)
  /-- STORE_PERFORMED (R269): A store reaches the completion point of its region and target and completes under W1. -/
  | storePerformed (tile : Nat) (id : Nat)
  /-- SYNC_COMPLETE (R278): A fence, INVL1, SIGNAL or TXG binding completes at its scope under W4. -/
  | syncComplete (g : GRef) (id : Nat)
  /-- GROUP_END (R98): A finished group's registers are released once all six counters read zero. -/
  | groupEnd (g : GRef)
  /-- WG_PARK (R73): A tile stops a workgroup, drains its work and writes its park image. -/
  | wgPark (tile : Nat) (wg : Nat) (reason : Nat)
  /-- PARK_DONE (R73): The park image is written, resources released and the image reported to the dispatch engine. -/
  | parkDone (tile : Nat) (wg : Nat)
  /-- PARK_SLOT_FREE (R76): A park slot frees and a workgroup waiting for one is parked. -/
  | parkSlotFree (tile : Nat) (wg : Nat)
  /-- WG_ABANDON (R76): Firmware abandons a workgroup stuck on a park write fault and its launch completes GROUP_ABANDONED. -/
  | wgAbandon (tile : Nat) (wg : Nat)
  /-- AUTO_REPLAY (R351): The dispatch engine replays a parked workgroup whose groups carry only automatic reasons. -/
  | autoReplay (q : Nat) (slot : Nat)
  /-- ARR_ACCEPT (R123): The array finishes acceptance of a command, accepting it or refusing it with a precise fault. -/
  | arrAccept (tile : Nat)
  /-- ARR_COMPUTE (R124): An accepted array command begins computing on a bank in acceptance order. -/
  | arrCompute (a : ArrStart)
  /-- ARR_DRAIN (R140): After the last cell finishes the drain moves accumulators, checks the hem sums and converts. -/
  | arrDrain (tile : Nat) (cells : List (Nat × Nat)) (hems : List (Nat × Nat))
  /-- ARR_DELIVERED (R140): The last line of an array result is delivered and the command completes under W2. -/
  | arrDelivered (tile : Nat)
  /-- ARR_RETRY (R146): ARR_CTRL.RETRY recomputes a held command with the map in force. -/
  | arrRetry (p : Path) (tag : Nat) (tile : Nat)
  /-- ARR_POISON (R146): ARR_CTRL.POISON delivers the held result marked uncorrectable and completes it. -/
  | arrPoison (p : Path) (tag : Nat) (tile : Nat)
  /-- HOLD_RESPONSE (R147): Firmware answers an array hold by retiring a position and retrying, or poisoning and replacing the tile. -/
  | holdResponse (tile : Nat)
  /-- HOLD_ESCALATE (R489): A hold unanswered for 500 µs is handled by the next cluster in order. -/
  | holdEscalate (tile : Nat)
  /-- ROW_ACCEPT (R182): The row engine finishes acceptance of a ROW, accepting or refusing it. -/
  | rowAccept (tile : Nat)
  /-- RMSNORM (R189): Row engine operation RMS normalisation writing (ms, r). -/
  | rmsnorm (a : RowOp)
  /-- LAYERNORM (R189): Row engine operation layer normalisation writing (μ, r). -/
  | layernorm (a : RowOp)
  /-- SOFTMAX (R189): Row engine operation soft-maximum writing (m, s). -/
  | softmax (a : RowOp)
  /-- LOGSOFTMAX (R189): Row engine operation log-soft-maximum. -/
  | logsoftmax (a : RowOp)
  /-- STATS (R189): Row engine operation computing row statistics. -/
  | stats (a : RowOp)
  /-- EXPSUM (R189): Row engine operation writing exponentials and statistics. -/
  | expsum (a : RowOp)
  /-- MERGE (R194): Row engine operation combining chunk statistics. -/
  | merge (a : RowOp)
  /-- SAMPLE (R192): Row engine operation filtering and drawing one index per row. -/
  | sample (a : RowOp)
  /-- DROPOUT (R193): Row engine operation applying dropout and writing mask bits. -/
  | dropout (a : RowOp)
  /-- RMSNORM_BWD (R189): Backward RMS normalisation with optional GRAD reduce-writes. -/
  | rmsnormBwd (a : RowOp)
  /-- LAYERNORM_BWD (R189): Backward layer normalisation with optional GRAD reduce-writes. -/
  | layernormBwd (a : RowOp)
  /-- SOFTMAX_BWD (R189): Backward soft-maximum recomputing y from statistics. -/
  | softmaxBwd (a : RowOp)
  /-- LOGSOFTMAX_BWD (R189): Backward log-soft-maximum. -/
  | logsoftmaxBwd (a : RowOp)
  /-- DROPOUT_BWD (R193): Backward dropout from stored mask bits. -/
  | dropoutBwd (a : RowOp)
  /-- SINV (R197): Invalidates every statistics cache line of the tile. -/
  | sinv (tile : Nat)
  /-- ROW_COMPLETE (R183): Every line a ROW writes is performed and it completes under W3. -/
  | rowComplete (tile : Nat)
  /-- NOISE_HEALTH_FAIL (R162): A noise source health test fails and draws switch to the fallback generator. -/
  | noiseHealthFail (page : Nat)
  /-- NOISE_RETEST (R162): Every 100,000 µs in FALLBACK the source retests and clears FALLBACK on a pass. -/
  | noiseRetest (page : Nat) (pass : Bool)
  /-- L2_LINE_ACCESS (R220): An operation on a line is performed at its home slice at one decision point. -/
  | l2LineAccess (op : LineOp)
  /-- REDUCE_WRITE (R234): A reduce-write adds FP32 addends into a line at its home slice. -/
  | reduceWrite (slot : Nat) (pa : Nat) (addends : List Nat)
  /-- HBM_FILL_RETURN (R231): A line filled from HBM4 arrives at the slice after a miss. -/
  | hbmFillReturn (pa : Nat)
  /-- EVICTION_WRITEBACK (R232): A dirty line's write-back to HBM4 completes and leaves the eviction buffer. -/
  | evictionWriteback (pa : Nat)
  /-- WAY_SWAP (R237): A write of L2S_SWAP.WAY retires a way and brings the spare into service set by set. -/
  | waySwap (p : Path) (tag : Nat) (page : Nat) (v : Nat)
  /-- SCRUB_PASS (R240): The patrol scrub reads every line of a stack once per period, correcting or marking. -/
  | scrubPass (p : Path) (stack : Nat) (corrected : List Nat) (uncorrectable : List Nat)
  /-- HBM_ROW_REPAIR (R241): Firmware soft-repairs or remaps a failing DRAM row. -/
  | hbmRowRepair (stack : Nat) (row : Nat) (soft : Bool)
  /-- PCH_LOST (R242): A controller declares a pseudo-channel lost and holds its accesses, or fences it when spare is short. -/
  | pchLost (stack : Nat) (pch : Nat)
  /-- PCH_REDIRECT (R243): Firmware completes the redirect of a lost pseudo-channel and reports HBM_PCH_LOST. -/
  | pchRedirect (stack : Nat) (pch : Nat)
  /-- RANGE_WALK (R261): The die walker finishes a table walk and fills the caches or reports unmapped. -/
  | rangeWalk (die : Nat) (space : Nat) (va : Nat)
  /-- RESERVATION_TIMEOUT (R281): A reservation ends after 16,384 steps of its home slice. -/
  | reservationTimeout (tile : Nat) (slot : Nat)
  /-- LDR_HOLD_TIMEOUT (R283): Held LDRs to a reserved granule are served after 4,096 slice steps. -/
  | ldrHoldTimeout (granule : Nat)
  /-- WARM_RESET (R448): MOD_RESET_N held low starts a warm reset draining stores, ending work and discarding watches. -/
  | warmReset
  /-- SB_DRAIN_EXPIRE (R285): The 1,000 µs warm reset drain budget runs out and remaining entries are dropped. -/
  | sbDrainExpire
  /-- POWER_LOSS (R286): Loss of 52 V loses every volatile store on the module. -/
  | powerLoss
  /-- WATCH_ENTRY_ADMIT (R299): A waiting watch registration is admitted when an entry frees, reading the counter. -/
  | watchEntryAdmit (die : Nat)
  /-- GROUP_WATCH_END (R297): A GROUP watch ends, writing its status and letting the dispatch engine replay the workgroup. -/
  | groupWatchEnd (die : Nat) (id : Nat)
  /-- QUEUE_WATCH_END (R296): A QUEUE watch ends and the held WAIT proceeds or ends WAIT_ENDED. -/
  | queueWatchEnd (die : Nat) (id : Nat)
  /-- ABANDON_MARK (R302): The belay unit marks a range abandoned and ends its watches ABANDONED. -/
  | abandonMark (die : Nat) (base : Nat) (len : Nat)
  /-- WATCH_ENTRY_ERROR (R305): An uncorrectable watch entry ends its watch with WATCH_ERROR and is replaced by a spare. -/
  | watchEntryError (die : Nat) (id : Nat)
  /-- BEL_RETURN_SERVICE (R292): A BEL page returning to service evaluates armed watches and admits waiting registrations. -/
  | belReturnService (die : Nat)
  /-- TXG_OPEN (R307): Queue command opening a transaction group on a die and returning its handle. -/
  | txgOpen (q : Nat) (serial : Nat)
  /-- TXG_COMMIT (R318): Queue command committing a transaction group. -/
  | txgCommit (q : Nat) (serial : Nat)
  /-- TXG_ABORT (R321): Queue command aborting a transaction group. -/
  | txgAbort (q : Nat) (serial : Nat)
  /-- TXG_COMMIT_POINT (R318): When every slice acknowledges, the sequencer records COMMITTED. -/
  | txgCommitPoint (die : Nat) (p : TxgPoint)
  /-- TXG_INSTALL (R318): A slice installs its staged lines and releases held accesses. -/
  | txgInstall (die : Nat) (slot : Nat) (part : TxgPart)
  /-- TXG_EXPIRED (R321): A TXG's lifetime runs out and it aborts with TXG_EXPIRED. -/
  | txgExpired (die : Nat) (slot : Nat)
  /-- DOORBELL_WRITE (R333): A doorbell write stores the produced count in the latch and sets the pending bit. -/
  | doorbellWrite (q : Nat) (tag : Nat) (size : Nat) (a : DoorAcc)
  /-- COMMAND_FETCH (R554): An engine fetches a queue's next ring entry after checking ownership and the latch. -/
  | commandFetch (q : Nat)
  /-- COMMAND_START (R331): An engine with a free execution place chooses a ready queue and starts its command. -/
  | commandStart (e : Nat)
  /-- COMMAND_END (R337): A command's end is decided and its completion record written, applying the error policy. -/
  | commandEnd (q : Nat) (serial : Nat)
  /-- QUEUE_TIMEOUT (R357): A command's queue timeout expires and it is reported or the queue is stopped. -/
  | queueTimeout (q : Nat) (serial : Nat)
  /-- NOP (R343): Queue command that does nothing. -/
  | nop (q : Nat) (serial : Nat)
  /-- WAIT (R344): Queue command registering a QUEUE watch and holding later commands. -/
  | waitCmd (q : Nat) (serial : Nat)
  /-- SIGNAL_CMD (R344): Queue command signalling a counter after earlier commands complete. -/
  | signalCmd (q : Nat) (serial : Nat)
  /-- WATCH (R344): Queue command registering a HOST watch on an event ring. -/
  | watchCmd (q : Nat) (serial : Nat)
  /-- LAUNCH (R346): Dispatch command launching a kernel's workgroups. -/
  | launch (q : Nat) (serial : Nat)
  /-- REPLAY (R351): Dispatch command replaying a park image. -/
  | replay (q : Nat) (serial : Nat)
  /-- COPY (R352): Copy engine command moving bytes. -/
  | copyCmd (q : Nat) (serial : Nat)
  /-- FILL (R352): Copy engine command writing a pattern. -/
  | fillCmd (q : Nat) (serial : Nat)
  /-- CONVERT (R352): Copy engine command converting, quantising or lining a tensor. -/
  | convert (q : Nat) (serial : Nat)
  /-- ADD (R352): Copy engine command reduce-writing source elements into FP32. -/
  | addCmd (q : Nat) (serial : Nat)
  /-- PUT (R354): Fabric command sending a remote write stream, optionally with an anchor. -/
  | put (q : Nat) (serial : Nat)
  /-- RFENCE (R421): Fabric command completing when every earlier packet of its stream is answered. -/
  | rfence (q : Nat) (serial : Nat)
  /-- ALLREDUCE (R425): Fabric command summing an FP32 buffer across pod members. -/
  | allreduce (q : Nat) (serial : Nat)
  /-- SCATTER (R428): Fabric command sending rows by index to destination tables. -/
  | scatter (q : Nat) (serial : Nat)
  /-- QUEUE_CREATE (R356): Management command creating a queue. -/
  | queueCreate (q : Nat) (serial : Nat)
  /-- QUEUE_SET (R356): Management command changing a queue descriptor. -/
  | queueSet (q : Nat) (serial : Nat)
  /-- QUEUE_STOP (R356): Management command stopping a queue. -/
  | queueStop (q : Nat) (serial : Nat)
  /-- QUEUE_START (R356): Management command starting a stopped or errored queue. -/
  | queueStart (q : Nat) (serial : Nat)
  /-- QUEUE_DESTROY (R367): Management command destroying a queue and killing its work on every die. -/
  | queueDestroy (q : Nat) (serial : Nat)
  /-- DESTROY_DIE_ACK (R367): A die acknowledges that the destroyed queue's work there has ended. -/
  | destroyDieAck (q : Nat) (die : Nat)
  /-- OP_ABORT (R364): Management command aborting one command of a queue. -/
  | opAbort (q : Nat) (serial : Nat)
  /-- CTX_BIND (R324): Management command binding a context tag to a space. -/
  | ctxBind (q : Nat) (serial : Nat)
  /-- CTX_UNBIND (R324): Management command unbinding a context tag. -/
  | ctxUnbind (q : Nat) (serial : Nat)
  /-- SPACE_CREATE (R253): Management command making a space ACTIVE. -/
  | spaceCreate (q : Nat) (serial : Nat)
  /-- SPACE_TABLE (R257): Management command switching a space's active table with a shootdown. -/
  | spaceTable (q : Nat) (serial : Nat)
  /-- SPACE_STOP (R253): Management command stopping a space. -/
  | spaceStop (q : Nat) (serial : Nat)
  /-- SPACE_SET (R253): Management command changing a stopped space's descriptor. -/
  | spaceSet (q : Nat) (serial : Nat)
  /-- SPACE_RESTART (R253): Management command restarting a stopped space. -/
  | spaceRestart (q : Nat) (serial : Nat)
  /-- SHOOTDOWN (R265): Management command invalidating a space's translations and waiting for their accesses. -/
  | shootdown (q : Nat) (serial : Nat)
  /-- SPACE_RETIRE (R374): Management command retiring a dead process's space in four stages. -/
  | spaceRetire (q : Nat) (serial : Nat)
  /-- RETIRE_STAGE (R374): A SPACE_RETIRE stage finishes on a die. -/
  | retireStage (space : Nat) (die : Nat)
  /-- HANDLE_FREE (R370): Management command marking a handle DYING and completing when INFLIGHT reaches zero. -/
  | handleFree (q : Nat) (serial : Nat)
  /-- ABANDON_CLEAR (R303): Management command unmarking abandoned frames. -/
  | abandonClear (q : Nat) (serial : Nat)
  /-- PREEMPT (R379): Management command parking an engine's workgroups at or below a class. -/
  | preempt (q : Nat) (serial : Nat)
  /-- PREEMPT_HOLD_EXPIRE (R376): The HOLD protection after replay or a PREEMPT park runs out. -/
  | preemptHoldExpire (at_ : HoldAt)
  /-- SELFTEST (R493): Management command testing a tile during work. -/
  | selftest (q : Nat) (serial : Nat)
  /-- SELFTEST_DEADLINE (R493): A SELFTEST deadline expires before the tile stops, withdrawing the stop. -/
  | selftestDeadline (tile : Nat)
  /-- RECONFIG (R553): Management command running stop-change-restart on a block page. -/
  | reconfig (q : Nat) (serial : Nat)
  /-- KILL (R361): A kill request stops a command's work in every block that holds it. -/
  | kill (q : Nat) (serial : Nat) (cause : Nat)
  /-- KILL_DONE (R362): A kill finishes when every access has been performed and the command ends ABORTED. -/
  | killDone (q : Nat) (serial : Nat)
  /-- DETECT_TIMEOUT (R385): No partner signal within 10,000 µs puts the port DOWN with NO_PARTNER. -/
  | detectTimeout (port : Nat)
  /-- DETECT_RETRY (R385): A DOWN port returns to DETECT after its retry interval. -/
  | detectRetry (port : Nat)
  /-- PARTNER_DETECT (R385): A partner signal appears and the port starts training. -/
  | partnerDetect (port : Nat)
  /-- LANE_LOCK_TIMEOUT (R385): A lane not locked within 50,000 µs goes into the bad mask. -/
  | laneLockTimeout (port : Nat) (lane : Nat)
  /-- INIT_FLIT (R385): An INIT flit resets sequence counters, sets credits and compares ENC. -/
  | initFlit (port : Nat) (enc : Bool) (credits : List Nat) (bad : Nat)
  /-- KEYX_FLIT (R394): A KEYX flit carries key agreement material, verified and used to derive keys. -/
  | keyxFlit (port : Nat) (flit : KeyxFlit)
  /-- KEYX_TIMEOUT (R394): A KEYX not finished within 10,000 µs puts the port DOWN with KEYX_FAIL. -/
  | keyxTimeout (port : Nat)
  /-- LOS (R386): Loss of signal on every lane puts the port DOWN and hands back unacknowledged flits. -/
  | los (port : Nat)
  /-- DATA_FLIT (R389): A sequenced DATA flit is checked, decrypted and delivered in order, or NAKed. -/
  | dataFlit (port : Nat) (flit : DataFlit)
  /-- IDLE_FLIT (R388): An IDLE flit carries credits and acknowledgements. -/
  | idleFlit (port : Nat) (ackv : Bool) (ack : Nat) (cvc : Nat) (credits : Nat)
  /-- IDLE_FLIT_DUE (R388): With nothing else to send a receiver sends an IDLE flit within 32 flit times. -/
  | idleFlitDue (port : Nat)
  /-- NAK (R389): A NAK makes the transmitter replay every flit after ACK. -/
  | nak (port : Nat) (ack : Nat)
  /-- LANE_BAD (R392): Firmware declares a lane bad from lock loss or symbol errors and starts a fast retrain. -/
  | laneBad (port : Nat) (lane : Nat)
  /-- LSYM_WINDOW (R392): The per-lane corrected-symbol window of 1,000,000 µs ends. -/
  | lsymWindow (port : Nat) (counts : List Nat)
  /-- RETRAIN (R392): A fast retrain request retrains changed lanes, keeps state and replays. -/
  | retrain (port : Nat) (bad : Nat)
  /-- RETRAIN_DONE (R392): A fast retrain completes and the port returns to UP, or falls back to full training. -/
  | retrainDone (port : Nat) (ok : Bool)
  /-- REKEY (R396): A transmitter runs a new KEYX after its flit count, time or a REKEY write. -/
  | rekey (port : Nat)
  /-- TRAIN_RETRY (R385): A port DOWN after a training failure retries after 1,000,000 µs. -/
  | trainRetry (port : Nat)
  /-- WRITE_PACKET (R417): An arriving WRITE lands under its landing entry or is refused or answered DUP. -/
  | writePacket (port : Nat) (k : Packet)
  /-- READ_PACKET (R405): An arriving READ is translated in space S and answered with data or refused. -/
  | readPacket (port : Nat) (k : Packet)
  /-- ATOMIC_PACKET (R405): An arriving remote atomic is performed at the home slice. -/
  | atomicPacket (port : Nat) (k : Packet)
  /-- SIGNAL_PACKET (R291): An arriving remote signal is performed at the counter's home slice. -/
  | signalPacket (port : Nat) (k : Packet)
  /-- ANCHOR_PACKET (R422): An arriving anchor waits for its run's earlier serials to land. -/
  | anchorPacket (port : Nat) (k : Packet)
  /-- ANCHOR_RELEASE (R422): Once every earlier serial lands the anchor commits its TXG, signals and is answered. -/
  | anchorRelease (src : Nat) (stream : Nat) (serial : Nat)
  /-- REDUCE_PACKET (R426): An arriving REDUCE reduce-writes addends into the receiver's buffer. -/
  | reducePacket (port : Nat) (k : Packet)
  /-- GATHER_PACKET (R426): An arriving GATHER writes a reduced line over the receiver's buffer. -/
  | gatherPacket (port : Nat) (k : Packet)
  /-- ALLREDUCE_GATHER (R426): When all senders' REDUCE runs have landed a member sends its shard as GATHER. -/
  | allreduceGather (q : Nat) (serial : Nat)
  /-- WATCH_PACKET (R296): An arriving remote watch registration is accepted once at the counter's device. -/
  | watchPacket (port : Nat) (k : Packet)
  /-- NOTIFY_PACKET (R296): An arriving watch notification ends the registering device's own watch. -/
  | notifyPacket (port : Nat) (k : Packet)
  /-- ACK_PACKET (R409): A response arrives and the source completes, resends or ends the access by its status. -/
  | ackPacket (port : Nat) (k : Packet)
  /-- DATA_PACKET (R406): A read response line arrives at the requester. -/
  | dataPacket (port : Nat) (k : Packet)
  /-- BUSY_RESEND (R409): A request answered BUSY is resent at least 10 µs later. -/
  | busyResend (id : Nat)
  /-- PACKET_RESEND (R413): A source resends a handed-back or undeliverable packet with RESENT set. -/
  | packetResend (id : Nat)
  /-- RESEND_DEADLINE (R413): A packet past 1,500,000 µs from first send is not resent and ends REMOTE_LOST. -/
  | resendDeadline (id : Nat)
  /-- LANDING_EXPIRE (R417): A landing entry idle for 2,000,000 µs with no gap is freed. -/
  | landingExpire (src : Nat) (stream : Nat)
  /-- ROUTE_TABLE_UPDATE (R411): Firmware recomputes route alternates and declares unreachable destinations. -/
  | routeTableUpdate (dst : Nat) (alts : List Nat)
  /-- ROLL_CALL (R430): A received roll call record is checked and the port goes UP, QUARANTINED or STALE. -/
  | rollCall (port : Nat) (r : RollCall)
  /-- STALE_RESYNC (R431): A STALE device drains, adopts the partner's epoch and dead set and repeats roll call. -/
  | staleResync (port : Nat)
  /-- LOSS (R432): A LOSS notice adds a device to the dead set and updates the epoch. -/
  | loss (port : Nat) (dev : Nat) (epoch : Nat)
  /-- JOIN_NOTICE (R432): A JOIN notice removes a device from the dead set and updates the epoch. -/
  | joinNotice (port : Nat) (dev : Nat) (epoch : Nat)
  /-- DEPART (R433): A DEPART notice takes the port DOWN with PARTNER_LEFT and declares the neighbour dead. -/
  | depart (port : Nat)
  /-- HEARTBEAT (R433): Every 1,000 µs an UP port sends a heartbeat CTRL flit. -/
  | heartbeat (port : Nat)
  /-- HEARTBEAT_TIMEOUT (R433): No heartbeat for 20,000 µs quarantines the port with reason SILENT. -/
  | heartbeatTimeout (port : Nat)
  /-- NEIGHBOUR_DEAD (R434): Every port to a neighbour out of UP for 10,000 µs declares it dead. -/
  | neighbourDead (dev : Nat)
  /-- MEM_WINDOW_ACCESS (R441): A host memory window access is translated in the window space and performed or refused. -/
  | memWindowAccess (tag : Nat) (off : Nat) (write : Bool) (data : List Nat)
  /-- RING_ENABLE (R443): NHL_RCTL with ENABLE 1 reads the ring table entry and starts the ring at SEQ 1. -/
  | ringEnable (p : Path) (tag : Nat) (v : Nat)
  /-- RING_DISABLE (R443): NHL_RCTL with ENABLE 0 disables an event ring. -/
  | ringDisable (p : Path) (tag : Nat) (v : Nat)
  /-- RCONS_WRITE (R446): A write of NHL_RCONS reports slots consumed and frees ring room. -/
  | rconsWrite (p : Path) (tag : Nat) (v : Nat)
  /-- EVENT_POST (R446): The device writes an event record into its ring or queues it in the pending store. -/
  | eventPost
  /-- NHL_LINK_LOSS (R449): The NHL leaves UP while the device runs and events wait until it returns. -/
  | nhlLinkLoss
  /-- NHL_LINK_RETURN (R449): The NHL returns to UP and the device resumes writing waiting events. -/
  | nhlLinkReturn
  /-- MCTP_CONTROL (R451): An MCTP control message on the sideband is answered. -/
  | mctpControl (code : Nat) (arg : Nat)
  /-- VENDOR_READ_STATUS (R451): A vendor MCTP message reading NHL_STATUS and NHL_ALERT. -/
  | vendorReadStatus
  /-- VENDOR_CLEAR_ALERT (R451): A vendor MCTP message clearing NHL_ALERT bits. -/
  | vendorClearAlert (mask : Nat)
  /-- GET_VERSION (R511): SPDM request for versions. -/
  | getVersion
  /-- GET_CAPABILITIES (R511): SPDM request for capabilities. -/
  | getCapabilities
  /-- NEGOTIATE_ALGORITHMS (R511): SPDM request negotiating algorithms. -/
  | negotiateAlgorithms (offered : List Nat)
  /-- GET_DIGESTS (R511): SPDM request for certificate digests. -/
  | getDigests
  /-- GET_CERTIFICATE (R511): SPDM request for the certificate chain. -/
  | getCertificate (slot : Nat) (off : Nat) (len : Nat)
  /-- CHALLENGE (R511): SPDM challenge signed with the identity key. -/
  | challenge (slot : Nat) (nonce : Nat)
  /-- GET_MEASUREMENTS (R511): SPDM request for measurements. -/
  | getMeasurements (idx : Nat) (nonce : Nat)
  /-- SPDM_UNSUPPORTED (R511): Any other SPDM request is answered with an unsupported-request error. -/
  | spdmUnsupported (code : Nat)
  /-- INPUT_EXCURSION (R454): The 52 V input leaves its operating band, raising INPUT_RANGE and dropping rails as the band requires. -/
  | inputExcursion (mv : Nat)
  /-- INPUT_EXCURSION_TIMEOUT (R454): An excursion in the outer bands lasting 10,000 µs turns every supply off. -/
  | inputExcursionTimeout
  /-- PACING_PERIOD (R458): Every 100 µs the controller reads its registers, updates thermal ceilings and sets rail points. -/
  | pacingPeriod (m : PaceMeas)
  /-- FAST_LIMIT (R462): Input above the maximum averaged over 20 µs drops every rail 5 codes in hardware. -/
  | fastLimit
  /-- PWR_CAP_WRITE (R461): A write of PWR_CAP is clamped and reported. -/
  | pwrCapWrite (p : Path) (tag : Nat) (v : Nat)
  /-- PWR_VCEIL_WRITE (R461): A write of PWR_VCEIL is clamped and reported. -/
  | pwrVceilWrite (p : Path) (tag : Nat) (v : Nat)
  /-- PWR_EST_DIVERGE (R464): Estimate and measurement diverging for 50,000 µs switch the controller to MEASURE. -/
  | pwrEstDiverge
  /-- MEASURE_STEP (R464): Every 1,000 µs in MEASURE the point moves one code toward the target. -/
  | measureStep
  /-- PWR_EST_RECOVER (R465): Agreement for 1,000,000 µs returns the controller to ESTIMATE. -/
  | pwrEstRecover
  /-- RAIL_DROOP (R457): A rail below 0.52 V counts one droop excursion. -/
  | railDroop (rail : Nat) (mv : Nat)
  /-- RAIL_FAULT (R457): A rail below 0.50 V for 1,000 µs or below 0.45 V is turned off and its blocks fail. -/
  | railFault (rail : Nat)
  /-- SENSOR_SAMPLE (R468): Hardware samples a sensor every 10 µs. -/
  | sensorSample (die : Nat) (sensor : Nat) (temp : Nat) (valid : Bool)
  /-- THERMAL_TRIP_OFF (R470): 20 µs after a trip every supply but the I3C endpoint's turns off. -/
  | thermalTripOff
  /-- TILE_HANG (R478): A tile whose step count stalls for 10,000 µs with a ready group triggers abrupt replacement. -/
  | tileHang (tile : Nat)
  /-- TILE_REPLACE_ORDERLY (R479): Firmware brings in a spare, parks the old tile with MIGRATE and moves the logical number. -/
  | tileReplaceOrderly (tile : Nat)
  /-- TILE_REPLACE_ABRUPT (R480): Firmware fails the tile, brings in a spare and abandons its resident workgroups. -/
  | tileReplaceAbrupt (tile : Nat)
  /-- TILE_PLACE (R481): A tile returning to SPARE takes the lowest unplaced logical number. -/
  | tilePlace (tile : Nat)
  /-- SLICE_BYPASS (R483): A slice whose tags fail in both copies fails and serves its lines in bypass. -/
  | sliceBypass (slice : Nat)
  /-- PHASE_LOST (R485): A failed converter phase is turned off and a spare takes its share. -/
  | phaseLost (rail : Nat)
  /-- OSC_COMPARE (R486): Every 1,000 µs firmware compares the oscillators and switches PHYs off a failed one. -/
  | oscCompare (fail0 : Bool) (fail1 : Bool)
  /-- GUIDE_CORE_FAIL (R488): A failing guide core is retired and the spare core takes its duties. -/
  | guideCoreFail (die : Nat) (core : Nat)
  /-- CLUSTER_HEARTBEAT (R489): Every 1,000 µs a cluster writes its heartbeat and checkpoint. -/
  | clusterHeartbeat (die : Nat)
  /-- GUIDE_TAKEOVER (R489): A cluster missing its heartbeat for 5,000 µs is declared failed and the next takes its duties. -/
  | guideTakeover (die : Nat)
  /-- WEAR_JUDGE (R491): Firmware recomputes a tile's minimum code from its ratios and marks it worn or replaces it. -/
  | wearJudge (tile : Nat) (ratios : List Nat)
  /-- PERIODIC_SELFTEST (R494): Firmware starts the self-test of a tile due within each 86,400 s. -/
  | periodicSelftest (tile : Nat)
  /-- FW_UPDATE (R496): Committing GDE_UPD starts a live firmware update cluster by cluster. -/
  | fwUpdate (p : Path) (tag : Nat) (die : Nat) (v : Nat)
  /-- FW_UPDATE_FAIL (R497): A cluster failing during update returns every updated cluster to the old bank. -/
  | fwUpdateFail (die : Nat)
  /-- POWER_UP (R499): Application of 52 V runs the power-up sequence of boot steps. -/
  | powerUp (b : BootFacts)
  /-- MOD_RESET_RELEASE (R545): MOD_RESET_N rising lets a held or abandoned start proceed at step 2. -/
  | modResetRelease (b : BootFacts)
  /-- CARD_WRITE (R507): Firmware writes a route card record after a recorded change. -/
  | cardWrite (kind : Nat) (arg : Nat)
  /-- KEY_LOAD (R513): KEY_OP LOAD writes SEC_KEYDATA into a key slot. -/
  | keyLoad (p : Path) (tag : Nat) (v : Nat)
  /-- KEY_GENERATE (R513): KEY_OP GENERATE fills a key slot from the key generator. -/
  | keyGenerate (p : Path) (tag : Nat) (v : Nat)
  /-- KEY_CLEAR (R513): KEY_OP CLEAR empties a key slot. -/
  | keyClear (p : Path) (tag : Nat) (v : Nat)
  /-- ENTROPY_FAIL (R512): A key generator health test fails and requests are refused. -/
  | entropyFail
  /-- DBG_SUBMIT (R514): SEC_DBG.SUBMIT checks a debug token and grants rights or refuses it. -/
  | dbgSubmit (p : Path) (tag : Nat) (v : Nat)
  /-- DBG_END (R515): SEC_DBG.END ends debug authorisation. -/
  | dbgEnd (p : Path) (tag : Nat) (v : Nat)
  /-- TRIG_IN (R519): A falling edge on TRIG_IN starts a cairn trigger. -/
  | trigIn
  /-- DBG_FIRE (R519): A write of DBG_FIRE.FIRE starts a cairn trigger. -/
  | dbgFire (p : Path) (tag : Nat) (v : Nat)
  /-- WAVEFRONT_ARRIVE (R520): A wavefront reaches a joining block, which latches its snapshot. -/
  | wavefrontArrive (page : Nat)
  /-- ERROR_LOG_WRITE (R523): Firmware turns an error report into an error record and acts on it. -/
  | errorLogWrite
  /-- DBG_HALT (R527): DBG_HALT.GO parks every workgroup of a tile with reason DEBUG. -/
  | dbgHalt (p : Path) (tag : Nat) (v : Nat)
  /-- DBG_MEM_READ (R528): Committing DBG_MADDR reads one line in a space through the DBG page. -/
  | dbgMemRead (p : Path) (tag : Nat) (v : Nat)
  /-- PERF_CLEAR (R531): PERF_CTL.CLEAR zeroes all four tile performance counters. -/
  | perfClear (p : Path) (tag : Nat) (tile : Nat) (v : Nat)
  /-- CABLE_CONNECT (R549): A fabric cable is connected and the link comes up. -/
  | cableConnect (port : Nat)
  /-- CABLE_REMOVE (R549): A fabric cable is removed and the port goes DOWN with LOS. -/
  | cableRemove (port : Nat)
  /-- CABLE_ID_READ (R548): After 100,000 µs of cable power firmware reads the cable identity memory. -/
  | cableIdRead (port : Nat) (ok : Bool) (idw : Nat)
  /-- CABLE_OVERPOWER (R548): Cable power above 3.0 W for 1,000 µs is turned off. -/
  | cableOverpower (port : Nat)
  /-- INPUT_RANGE_RETURN (R454): The 52 V input comes back within 46 V to 58 V, ending the excursion, stopping its 10,000 µs limit and letting the pacing controller raise the rails from code 0. -/
  | inputRangeReturn
  /-- RAIL_VOLTAGE_RETURN (R457): A drooping rail recovers above 0.50 V (and 0.52 V), its handshakes resume and its 1,000 µs rail-fault timing stops. -/
  | railVoltageReturn (rail : Nat)
  /-- KEY_GENERATOR_RETEST (R512): The key generator's entropy source retests after a health test failure and, on a pass, accepts requests again. -/
  | keyGeneratorRetest (pass : Bool)
  deriving DecidableEq, Repr

end Sys2Proof
end

