-- ==== Sys2Proof/Config.lean ====
section
/-!
DEFINITION. What one part fixes and the free values: constants with no body, so no proof can see what they are. Each is
named in a row of notes/assumptions.
-/
namespace Sys2Proof.Config

/-- A fresh free value: the n-th number that the spec leaves open in a run (State.fresh counts them). -/
opaque free : Nat → Nat

/-- The n-th conditioned output of a noise source (R161, R162). -/
opaque noise : Nat → BitVec 16

/-- The 128-bit linear generator of a noise source in fallback (R162): its seed from a conditioned output, its next state, and the
draw that a state gives. -/
opaque noiseSeed : BitVec 16 → BitVec 128
opaque noiseNext : BitVec 128 → BitVec 128
opaque noiseOut : BitVec 128 → BitVec 16

/-- The results of EXP2 and LOG2, taken where they lie within the bound of R103 or the spec states no result. -/
opaque exp2 : Word → Word
opaque log2 : Word → Word
/-- SIN and COS, as EXP2 and LOG2 (R103). -/
opaque sin : Word → Word
opaque cos : Word → Word
/-- Which of the codes within 1 ulp RCP, RSQ and SQRT give (R103), and their results where the spec states none. -/
opaque rcpPick : Word → Nat
opaque rsqPick : Word → Nat
opaque sqrtPick : Word → Nat
opaque rcpOpen : Word → Word
opaque rsqOpen : Word → Word
opaque sqrtOpen : Word → Word
/-- CVT operations on operands for which the spec states no result. -/
opaque cvtOpen : Nat → Word → Word

/-- 1 / sqrt(0) inside the row engine, which the spec does not state: of the FP32 code 0. -/
opaque rowRsqrt : Word → Word
/-- The code that the row engine gives for a quantity, taken where it lies within the bound of R202: the row's inputs and
descriptor, the quantity's number within the row, its exact value rounded to FP32. -/
opaque rowSlack : List Nat → Nat → Word → Word
/-- The dropout factor for a probability that rounds to 1 (R193 divides by 0 there). -/
opaque dropOpen : Word → Word

/-- A byte of memory written or read under a key slot that holds no key, and read under another (R245): the two keys, the byte
address, the 16-byte block as written. -/
opaque garble : Nat → Nat → Nat → Nat → Nat

/-- A byte of a line whose remote read was refused or lost (R406): the request, the offset. -/
opaque lostByte : Nat → Nat → Nat

/-- The SHA-384 digest of bytes, as a number (R429, R510, R511). -/
opaque sha384 : List Nat → Nat
/-- The device's identity signature over bytes (R510, R511). -/
opaque sign : List Nat → List Nat
/-- Does a signature verify under an authority slot's key? slot, signed bytes, signature. -/
opaque verifies : Nat → List Nat → List Nat → Bool
/-- The certificate chain of the device (R510). -/
opaque certChain : List Nat
/-- The n-th output of the key generator (R512). -/
opaque drbg : Nat → Nat
/-- Does a partner's KEYX flit verify (R394): certificate chain, signature, public key, nonce. -/
opaque keyxOk : List Nat → List Nat → Nat → Nat → Bool
/-- The shared secret of two public keys, and one half (0 or 1) of the key material: secret, lower nonce, upper nonce, half
(R394). -/
opaque ecdh : Nat → Nat → Nat
opaque hkdf : Nat → Nat → Nat → Nat → Nat
/-- The answer to an MCTP control message (R451): its command code and argument. -/
opaque mctp : Nat → Nat → List Nat
/-- SHA-384 of the ROM (R511). -/
opaque romHash : Nat
/-- What is fused into the part (R508, R509, R517): 0 key slots revoked as made, 1 slots that carry FW, 2 slots that carry
DEBUG, 3 floor fuses burnt as made. -/
opaque fuses : Nat → Nat
/-- The first 8 bytes of the SHA-384 of the device's identity public key (R514). -/
opaque idHash : Nat
/-- The n-th update image offered, by its facts as the checks of R508 read them: 0 the key area's key hashes to its slot, 1 signature verifies, 2 body hash matches (nonzero: passes); 3 signing slot, 4 line,
5 release, 6 the floor code of its release, 7 RAISE flag, 8 REVOKE bits, 9 whether it can run beside the old release. -/
opaque image : Nat → Nat → Nat
/-- The DRAM row of a line within its pseudo-channel, by line number: the geometry of the stacks is JEDEC's (R238, R241). -/
opaque dramRow : Nat → Nat
/-- The set of the die range cache that an entry takes (R261): space, VBASE. -/
opaque xltSet : Nat → Nat → Nat
/-- Addresses that firmware picks for its own tables, in the firmware frames (R499 step 11, R222), by table. -/
opaque fwTable : Nat → Nat

end Sys2Proof.Config
end

