-- ==== Sys2Proof/Machine/Bits.lean ====
section
/-!
DEFINITION. Bit fields, byte order (R5), sign extension, and tables.
-/
namespace Sys2Proof.Machine

/-- Field [hi:lo] of a number. -/
def bits (n hi lo : Nat) : Nat := (n >>> lo) % 2 ^ (hi + 1 - lo)

/-- `n` with field [hi:lo] replaced by `v`. -/
def setBits (n hi lo v : Nat) : Nat :=
  n % 2 ^ lo + (v % 2 ^ (hi + 1 - lo)) * 2 ^ lo + (n >>> (hi + 1)) * 2 ^ (hi + 1)

/-- Bit `k` of a number. -/
def bitOf (n k : Nat) : Bool := n.testBit k

/-- Field [hi:lo] of a register word. -/
def fld (w : Word) (hi lo : Nat) : Nat := bits w.toNat hi lo

/-- A register word with field [hi:lo] replaced. -/
def putFld (w : Word) (hi lo v : Nat) : Word := BitVec.ofNat 32 (setBits w.toNat hi lo v)

/-- The two's complement value of the low `w` bits. -/
def sext (w n : Nat) : Int :=
  let m := n % 2 ^ w
  if m < 2 ^ (w - 1) then (m : Int) else (m : Int) - (2 ^ w : Nat)

/-- An integer modulo 2^w. -/
def wrap (w : Nat) (i : Int) : Nat := (i % ((2 ^ w : Nat) : Int)).toNat

/-- 48-bit virtual or physical addresses. -/
def addr48 (n : Nat) : Nat := n % 2 ^ 48

/-- The number of bits set among the low `w`. -/
def popcount : Nat → Nat → Nat
  | 0, _ => 0
  | w + 1, n => popcount w n + (if n.testBit w then 1 else 0)

/-- The lowest bit set among bits 0 to w - 1. -/
def lowestBit (w n : Nat) : Option Nat := (List.range w).find? (fun i => n.testBit i)

/-- Little-endian bytes to a number (R5). -/
def ofBytes : List Nat → Nat
  | [] => 0
  | b :: bs => b % 256 + 256 * ofBytes bs

/-- The low `k` bytes of a number, least significant first (R5). -/
def toBytes : Nat → Nat → List Nat
  | 0, _ => []
  | k + 1, n => n % 256 :: toBytes k (n / 256)

/-- A field of `k` bytes at offset `o` of a byte list; bytes past the list read 0. -/
def leAt (bs : List Nat) (o k : Nat) : Nat := ofBytes ((bs.drop o).take k)

def leAt4 (bs : List Nat) (o : Nat) : Nat := leAt bs o 4
def leAt8 (bs : List Nat) (o : Nat) : Nat := leAt bs o 8

/-- Round `n` up to a multiple of `k`. -/
def roundUp (n k : Nat) : Nat := (n + k - 1) / k * k

/-- Saturating addition at `m`. -/
def satAdd (n k m : Nat) : Nat := if n + k > m then m else n + k

/-! Tables: pairs in strictly rising key order. -/

/-- Look a key up. -/
def tget? {α : Type} : Tab α → Nat → Option α
  | [], _ => none
  | (k, v) :: t, x => if k = x then some v else tget? t x

/-- Look a key up, with a default. -/
def tgetD {α : Type} (t : Tab α) (x : Nat) (d : α) : α := (tget? t x).getD d

/-- Set a key, keeping the order. -/
def tput {α : Type} : Tab α → Nat → α → Tab α
  | [], x, a => [(x, a)]
  | (k, v) :: t, x, a =>
    if x < k then (x, a) :: (k, v) :: t
    else if k = x then (x, a) :: t
    else (k, v) :: tput t x a

/-- Remove a key. -/
def tdel {α : Type} : Tab α → Nat → Tab α
  | [], _ => []
  | (k, v) :: t, x => if k = x then tdel t x else (k, v) :: tdel t x

/-- Set a key; the default value is not listed, so equal tables are equal lists. -/
def tputD {α : Type} [DecidableEq α] (t : Tab α) (x : Nat) (a d : α) : Tab α :=
  if a = d then tdel t x else tput t x a

/-- Update the value at a key, with a default. -/
def tmodD {α : Type} (t : Tab α) (x : Nat) (d : α) (f : α → α) : Tab α := tput t x (f (tgetD t x d))

/-- Update the value at a key when the key is listed. -/
def tmod {α : Type} : Tab α → Nat → (α → α) → Tab α
  | [], _, _ => []
  | (k, v) :: t, x, f => if k = x then (k, f v) :: t else (k, v) :: tmod t x f

/-- Does the table list the key? -/
def thas {α : Type} (t : Tab α) (x : Nat) : Bool := (tget? t x).isSome

/-- The lowest number below `n` that the table does not list. -/
def tfree {α : Type} (t : Tab α) (n : Nat) : Option Nat := (List.range n).find? (fun i => !thas t i)

/-- The `i`-th element of a list set to `a`. -/
def lset {α : Type} : List α → Nat → α → List α
  | [], _, _ => []
  | _ :: t, 0, a => a :: t
  | x :: t, i + 1, a => x :: lset t i a

/-- The strictly rising order of a table's keys. -/
def tabOk {α : Type} : Tab α → Bool
  | [] => true
  | [_] => true
  | (k, _) :: (k', v') :: t => decide (k < k') && tabOk ((k', v') :: t)

/-- A function applied from left to right over a list, threading a state. -/
def forEach {σ α : Type} (xs : List α) (s : σ) (f : σ → α → σ) : σ := xs.foldl f s

/-- Every number from `a` to `a + n - 1`. -/
def rangeFrom (a n : Nat) : List Nat := (List.range n).map (· + a)

/-- A flag as a number. -/
def b2n (b : Bool) : Nat := if b then 1 else 0

end Sys2Proof.Machine
end

