-- ==== Sys2Proof/Machine/Float.lean ====
section
/-!
DEFINITION. Number formats, rounding and conversion (R151 to R160), and the FP32 operations of the vector unit, the
atomics and the row engine.
-/
namespace Sys2Proof.Machine

/-- A decoded value: NaN, an infinity, or (-1)^neg x m x 2^e exactly. -/
inductive FV where
  | nan
  | inf (neg : Bool)
  | fin (neg : Bool) (m : Nat) (e : Int)
  deriving DecidableEq, Repr

/-- A floating-point format of R151. -/
structure Fmt where
  ebits   : Nat
  mbits   : Nat
  bias    : Nat
  /-- exponent all ones holds infinities and NaNs (R151) -/
  ieee    : Bool
  /-- E4M3: only the code with every exponent and mantissa bit set is a NaN -/
  e4m3    : Bool
  /-- the code of the largest finite magnitude -/
  maxCode : Nat
  /-- values out of range saturate (R158) instead of becoming infinite -/
  sat     : Bool
  /-- an infinity converts to the largest finite value (R158) -/
  infSat  : Bool
  /-- the canonical NaN (R155); formats without NaN give +0 (R158) -/
  nanCode : Nat
  deriving DecidableEq, Repr

def fp32 : Fmt := ⟨8, 23, 127, true, false, 0x7F7F_FFFF, false, false, 0x7FC0_0000⟩
def bf16 : Fmt := ⟨8, 7, 127, true, false, 0x7F7F, false, false, 0x7FC0⟩
def fp16 : Fmt := ⟨5, 10, 15, true, false, 0x7BFF, false, false, 0x7E00⟩
def e4m3 : Fmt := ⟨4, 3, 7, false, true, 0x7E, true, true, 0x7F⟩
def e5m2 : Fmt := ⟨5, 2, 15, true, false, 0x7B, true, false, 0x7E⟩
def e3m2 : Fmt := ⟨3, 2, 3, false, false, 0x1F, true, true, 0x00⟩
def e2m3 : Fmt := ⟨2, 3, 1, false, false, 0x1F, true, true, 0x00⟩
def e2m1 : Fmt := ⟨2, 1, 1, false, false, 0x7, true, true, 0x0⟩

/-- The floating-point format of a code of R105 and R127. -/
def fmtOf : Nat → Option Fmt
  | 0 => some fp32
  | 1 => some bf16
  | 2 => some fp16
  | 3 => some e4m3
  | 4 => some e5m2
  | 5 => some e3m2
  | 6 => some e2m3
  | 7 => some e2m1
  | _ => none

/-- Bits of the integer format of a code of R105 and R127: INT8, INT4, INT32, INT16. -/
def intBits : Nat → Option Nat
  | 8 => some 8
  | 9 => some 4
  | 10 => some 32
  | 12 => some 16
  | _ => none

/-- Bits a value of a format takes. -/
def fmtBits (x : Nat) : Nat :=
  match fmtOf x with
  | some f => 1 + f.ebits + f.mbits
  | none => (intBits x).getD 0

/-- R152: the value a code stands for. -/
def Fmt.decode (f : Fmt) (code : Nat) : FV :=
  let neg := code.testBit (f.ebits + f.mbits)
  let e := bits code (f.ebits + f.mbits - 1) f.mbits
  let m := code % 2 ^ f.mbits
  let top := 2 ^ f.ebits - 1
  if f.ieee && e == top then (if m = 0 then .inf neg else .nan)
  else if f.e4m3 && e == top && m == 2 ^ f.mbits - 1 then .nan
  else if e = 0 then .fin neg m (1 - (f.bias : Int) - f.mbits)
  else .fin neg (m + 2 ^ f.mbits) ((e : Int) - f.bias - f.mbits)

/-- Rounding modes: nearest-even, toward zero (R159), stochastic with a 16-bit draw (R160). -/
inductive Rnd where
  | ne
  | tz
  | st (r : Nat)
  deriving DecidableEq, Repr

/-- The magnitude m x 2^e rounded to a multiple of 2^u, as that multiple (R159, R160). -/
def roundTo (md : Rnd) (m : Nat) (e u : Int) : Nat :=
  if u ≤ e then m <<< (e - u).toNat
  else
    let sh := (u - e).toNat
    let q := m >>> sh
    let r := m % 2 ^ sh
    match md with
    | .tz => q
    | .ne => if 2 * r > 2 ^ sh || (2 * r == 2 ^ sh && q % 2 == 1) then q + 1 else q
    | .st d => if (r * 65536) >>> sh + d ≥ 65536 then q + 1 else q

/-- Position of the leading bit of m x 2^e (m not 0). -/
def leadExp (m : Nat) (e : Int) : Int := (Nat.log2 m : Int) + e

/-- R158: a value as a code of a floating-point format. -/
def Fmt.encode (f : Fmt) (md : Rnd) (v : FV) : Nat :=
  let sgn (n : Bool) := if n then 2 ^ (f.ebits + f.mbits) else 0
  match v with
  | .nan => f.nanCode
  | .inf n => sgn n + (if f.infSat then f.maxCode else (2 ^ f.ebits - 1) * 2 ^ f.mbits)
  | .fin n m e =>
    if m = 0 then sgn n
    else
      let emin : Int := 1 - f.bias
      let u := max (leadExp m e) emin - f.mbits
      let q := roundTo md m e u
      let code := (u - (emin - f.mbits)).toNat * 2 ^ f.mbits + q
      if code > f.maxCode then
        sgn n + (if f.sat then f.maxCode
                 else if md = .tz then f.maxCode else (2 ^ f.ebits - 1) * 2 ^ f.mbits)
      else sgn n + code

/-- R158: a value as a two's complement integer of `w` bits: the nearer end of the range, NaN gives 0. -/
def encodeInt (w : Nat) (md : Rnd) (v : FV) : Nat :=
  match v with
  | .nan => 0
  | .inf n => if n then 2 ^ (w - 1) else 2 ^ (w - 1) - 1
  | .fin n m e =>
    let q := roundTo md m e 0
    if n then (if q > 2 ^ (w - 1) then 2 ^ (w - 1) else wrap w (-(q : Int)))
    else if q > 2 ^ (w - 1) - 1 then 2 ^ (w - 1) - 1 else q

/-- An integer as a value. -/
def ofInt (i : Int) : FV := .fin (i < 0) i.natAbs 0

/-- Conversion of a value to the format of a code of R105 (R158). -/
def toFmt (x : Nat) (md : Rnd) (v : FV) : Nat :=
  match fmtOf x with
  | some f => f.encode md v
  | none => match intBits x with
    | some w => encodeInt w md v
    | none => 0

/-- The value of a code in the format of a code of R105. -/
def ofFmt (x code : Nat) : FV :=
  match fmtOf x with
  | some f => f.decode code
  | none => match intBits x with
    | some w => ofInt (sext w code)
    | none => .fin false 0 0

/-! Exact arithmetic on values, as IEEE 754 gives signs and special values (R155, R156). -/

def FV.neg : FV → FV
  | .nan => .nan
  | .inf n => .inf (!n)
  | .fin n m e => .fin (!n) m e

def FV.abs : FV → FV
  | .nan => .nan
  | .inf _ => .inf false
  | .fin _ m e => .fin false m e

def FV.isNan : FV → Bool
  | .nan => true
  | _ => false

def FV.isInf : FV → Bool
  | .inf _ => true
  | _ => false

def FV.isZero : FV → Bool
  | .fin _ m _ => m == 0
  | _ => false

def FV.isNeg : FV → Bool
  | .nan => false
  | .inf n => n
  | .fin n _ _ => n

/-- Signed mantissa over the exponent `e'`, at most the value's own exponent. -/
def FV.scaled (neg : Bool) (m : Nat) (e e' : Int) : Int :=
  let k : Int := ((m <<< (e - e').toNat : Nat) : Int)
  if neg then -k else k

/-- Exact sum. A zero sum is negative only when both terms are (R156). -/
def FV.add (a b : FV) : FV :=
  match a, b with
  | .nan, _ => .nan
  | _, .nan => .nan
  | .inf x, .inf y => if x = y then .inf x else .nan
  | .inf x, .fin _ _ _ => .inf x
  | .fin _ _ _, .inf y => .inf y
  | .fin na ma ea, .fin nb mb eb =>
    if ma = 0 && mb = 0 then .fin (na && nb) 0 ea
    else if ma = 0 then .fin nb mb eb
    else if mb = 0 then .fin na ma ea
    else
      let e := min ea eb
      let k := FV.scaled na ma ea e + FV.scaled nb mb eb e
      .fin (decide (k < 0)) k.natAbs e

/-- Exact product. -/
def FV.mul (a b : FV) : FV :=
  match a, b with
  | .nan, _ => .nan
  | _, .nan => .nan
  | .inf x, .inf y => .inf (x != y)
  | .inf x, .fin y m _ => if m = 0 then .nan else .inf (x != y)
  | .fin x m _, .inf y => if m = 0 then .nan else .inf (x != y)
  | .fin na ma ea, .fin nb mb eb => .fin (na != nb) (ma * mb) (ea + eb)

/-- Order of two values; none when a NaN is among them. -/
def FV.cmp (a b : FV) : Option Ordering :=
  match a, b with
  | .nan, _ => none
  | _, .nan => none
  | .inf x, .inf y => some (if x = y then .eq else if x then .lt else .gt)
  | .inf x, .fin _ _ _ => some (if x then .lt else .gt)
  | .fin _ _ _, .inf y => some (if y then .gt else .lt)
  | .fin na ma ea, .fin nb mb eb =>
    let e := min ea eb
    some (compare (FV.scaled na ma ea e) (FV.scaled nb mb eb e))

/-- R157: minimum, with -0 less than +0. -/
def FV.min (a b : FV) : FV :=
  match FV.cmp a b with
  | none => .nan
  | some .lt => a
  | some .gt => b
  | some .eq => if a.isNeg then a else b

/-- R157: maximum. -/
def FV.max (a b : FV) : FV :=
  match FV.cmp a b with
  | none => .nan
  | some .lt => b
  | some .gt => a
  | some .eq => if a.isNeg then b else a

/-! FP32 codes. -/

def f32 (w : Word) : FV := fp32.decode w.toNat
/-- A value rounded to nearest-even as an FP32 code (R159). -/
def toF32 (v : FV) : Word := BitVec.ofNat 32 (fp32.encode .ne v)

def f32Add (a b : Word) : Word := toF32 ((f32 a).add (f32 b))
def f32Sub (a b : Word) : Word := toF32 ((f32 a).add (f32 b).neg)
def f32Mul (a b : Word) : Word := toF32 ((f32 a).mul (f32 b))
/-- R101: one rounding. -/
def f32Fma (a b d : Word) : Word := toF32 (((f32 a).mul (f32 b)).add (f32 d))
def f32Min (a b : Word) : Word := toF32 ((f32 a).min (f32 b))
def f32Max (a b : Word) : Word := toF32 ((f32 a).max (f32 b))

/-- R101: FMA.BF2 on one 16-bit half. -/
def bf16Fma (a b d : Nat) : Nat :=
  bf16.encode .ne (((bf16.decode a).mul (bf16.decode b)).add (bf16.decode d))

/-- R101: FMA.BF2 on both halves of a lane. -/
def bf2Fma (a b d : Word) : Word :=
  let lo := bf16Fma (fld a 15 0) (fld b 15 0) (fld d 15 0)
  let hi := bf16Fma (fld a 31 16) (fld b 31 16) (fld d 31 16)
  BitVec.ofNat 32 (hi * 65536 + lo)

/-- Integer square root: the `k` low result bits, most significant first. -/
def isqrtAux (n : Nat) : Nat → Nat → Nat
  | 0, r => r
  | k + 1, r => let t := r + 2 ^ k; isqrtAux n k (if t * t ≤ n then t else r)

def isqrt (n : Nat) : Nat := isqrtAux n (Nat.log2 n / 2 + 1) 0

/-- Quotient of two positive magnitudes with 80 bits below its leading bit and a sticky last bit, so that rounding it
toward zero is rounding the exact quotient. -/
def quot (ma : Nat) (ea : Int) (mb : Nat) (eb : Int) : Nat × Int :=
  let sh := 80 + Nat.log2 mb
  let n := ma <<< sh
  let q := n / mb
  ((2 * q + if n % mb = 0 then 0 else 1), ea - eb - sh - 1)

/-- Square root of a positive magnitude, as `quot`. -/
def sqrtMag (m : Nat) (e : Int) : Nat × Int :=
  let odd := (e % 2).toNat
  let n := (m * 2 ^ odd) <<< 160
  let r := isqrt n
  ((2 * r + if r * r = n then 0 else 1), (e - odd - 160) / 2 - 1)

/-- The FP32 codes within 1 ulp of the positive exact value m x 2^e. -/
def within1 (m : Nat) (e : Int) : List Nat :=
  let c := fp32.encode .tz (.fin false m e)
  match fp32.decode c with
  | .fin _ m' e' =>
    let exact := FV.cmp (.fin false m e) (.fin false m' e') == some .eq
    if exact then (if c = 0 then [c, c + 1] else [c - 1, c, c + 1]) else [c, c + 1]
  | _ => [c]

def pickFrom (xs : List Nat) (k : Nat) : Nat := xs.getD (k % xs.length) 0

/-- A NaN result is the canonical NaN (R155). -/
def canonNan (w : Word) : Word := if (f32 w).isNan then BitVec.ofNat 32 0x7FC0_0000 else w

/-! Real functions for the bounds of R103 and R202, computed in fixed point with an error below 2^-100 of the value. A
bound is applied as the rule states it, about the value so computed (log 90). -/

def piFix : Nat := 0x3243f6a8885a308d313198a2e03707344a4093822299f31d0
def ln2Fix : Nat := 0xb17217f7d1cf79abc9e3b39803f2f6af40f343267298b62d
def log2eFix : Nat := 0x171547652b82fe1777d0ffda0d23a7d11d6aef551bad2b4b1

/-- A value as an integer multiple of 2^-k, rounded down in magnitude. -/
def toFix (k : Nat) : FV → Int
  | .fin n m e =>
    let a : Nat := if e + k ≥ 0 then m <<< (e + k).toNat else m >>> (-(e + k)).toNat
    if n then -(a : Int) else a
  | _ => 0

def ofFix (k : Nat) (i : Int) : FV := .fin (decide (i < 0)) i.natAbs (-(k : Int))

/-- 2^(2^-i) times 2^192, for i from 1. -/
def exp2Roots : Nat → Nat → List Nat
  | 0, _ => []
  | k + 1, c => let r := isqrt (c <<< 192); r :: exp2Roots k r

def exp2Table : List Nat := exp2Roots 128 (2 ^ 193)

/-- 2^x for x = i x 2^-128; powers below 2^-300 count as 2^-300. -/
def exp2Fix (i : Int) : FV :=
  let n := i / 2 ^ 128
  if n < -300 then .fin false 1 (-300)
  else
    let f := (i % 2 ^ 128).toNat
    let r := (exp2Table.foldl (fun (a : Nat × Nat) c => (if f.testBit (a.2 - 1) then (a.1 * c) >>> 192 else a.1, a.2 - 1)) (2 ^ 192, 128)).1
    .fin false r (n - 192)

def exp2FV (x : FV) : FV := exp2Fix (toFix 128 x)
/-- e^x. -/
def expFV (x : FV) : FV := exp2Fix (toFix 192 x * log2eFix / 2 ^ 256)

/-- The first `k` bits of the logarithm to base 2 of y x 2^-192, for y from 2^192 to 2^193. -/
def log2Bits : Nat → Nat → Nat → Nat
  | 0, _, acc => acc
  | k + 1, y, acc =>
    let z := (y * y) >>> 192
    if z ≥ 2 ^ 193 then log2Bits k (z >>> 1) (2 * acc + 1) else log2Bits k z (2 * acc)

/-- The logarithm to base 2 of a positive value, in units of 2^-128. -/
def log2Fix (m : Nat) (e : Int) : Int :=
  let l := Nat.log2 m
  let y := if l ≤ 192 then m <<< (192 - l) else m >>> (l - 192)
  ((l : Int) + e) * 2 ^ 128 + log2Bits 128 y 0

def log2FV : FV → FV
  | .fin _ m e => if m = 0 then .nan else ofFix 128 (log2Fix m e)
  | _ => .nan
/-- The natural logarithm of a positive value. -/
def lnFV : FV → FV
  | .fin _ m e => if m = 0 then .nan else ofFix 320 (log2Fix m e * ln2Fix)
  | _ => .nan

/-- The series t - t^3/3! + ... (k = 2) or 1 - t^2/2! + ... (k = 1) from a term, in units of 2^-128. -/
def trigSeries : Nat → Nat → Int → Int → Int
  | 0, _, _, _ => 0
  | n + 1, k, t2, term => term + trigSeries n (k + 2) t2 (-(term * t2 / 2 ^ 128) / (k * (k + 1)))

/-- The argument within one turn, in units of 2^-128. -/
def trigArg (x : FV) : Int := (toFix 192 x % (2 * piFix)) / 2 ^ 64

def sinFV (x : FV) : FV := let t := trigArg x; ofFix 128 (trigSeries 40 2 (t * t / 2 ^ 128) t)
def cosFV (x : FV) : FV := let t := trigArg x; ofFix 128 (trigSeries 40 1 (t * t / 2 ^ 128) (2 ^ 128))

/-- 1 / sqrt of a positive value. -/
def rsqrtFV : FV → FV
  | .fin false m e => if m = 0 then .nan else let q := sqrtMag m e; let r := quot 1 0 q.1 q.2; .fin false r.1 r.2
  | _ => .nan

/-- The spacing of FP32 at a value. -/
def ulp32 : FV → FV
  | .fin _ m e => .fin false 1 ((if m = 0 then -126 else max (leadExp m e) (-126)) - 23)
  | _ => .nan

/-- A bound of `n` times a magnitude. -/
def bnd (n : Nat) (v : FV) : FV := v.abs.mul (.fin false n 0)

/-- A code within a bound of an exact value: the free pick where it lies within, else the nearest code. -/
def nearF (exact bound : FV) (pick : Word) : Word :=
  match FV.cmp ((f32 pick).add exact.neg).abs bound with
  | some .gt => toF32 exact
  | none => toF32 exact
  | _ => pick

/-- R103: RCP within 1 ulp; a NaN gives NaN (R155); zero and infinite operands have no stated result. -/
def rcpF32 (a : Word) : Word :=
  match f32 a with
  | .nan => BitVec.ofNat 32 0x7FC0_0000
  | .fin n m e =>
    if m = 0 then canonNan (Config.rcpOpen a)
    else
      let q := quot 1 0 m e
      BitVec.ofNat 32 ((if n then 2 ^ 31 else 0) + pickFrom (within1 q.1 q.2) (Config.rcpPick a))
  | _ => canonNan (Config.rcpOpen a)

/-- R103: SQRT within 1 ulp of a nonnegative finite operand; a NaN gives NaN (R155). -/
def sqrtF32 (a : Word) : Word :=
  match f32 a with
  | .nan => BitVec.ofNat 32 0x7FC0_0000
  | .fin n m e =>
    if m = 0 || n then canonNan (Config.sqrtOpen a)
    else
      let q := sqrtMag m e
      BitVec.ofNat 32 (pickFrom (within1 q.1 q.2) (Config.sqrtPick a))
  | _ => canonNan (Config.sqrtOpen a)

/-- R103: RSQ within 1 ulp of a positive finite operand; a NaN gives NaN (R155). -/
def rsqF32 (a : Word) : Word :=
  match f32 a with
  | .nan => BitVec.ofNat 32 0x7FC0_0000
  | .fin n m e =>
    if m = 0 || n then canonNan (Config.rsqOpen a)
    else
      let q := sqrtMag m e
      let r := quot 1 0 q.1 q.2
      BitVec.ofNat 32 (pickFrom (within1 r.1 r.2) (Config.rsqPick a))
  | _ => canonNan (Config.rsqOpen a)

/-- R103: EXP2 within 2 ulp; free for an infinite operand and where 2^A is beyond the range. -/
def exp2F32 (a : Word) : Word :=
  match f32 a with
  | .nan => BitVec.ofNat 32 0x7FC0_0000
  | .fin n m e =>
    let x := exp2FV (.fin n m e)
    match FV.cmp x (.fin false 1 128) with
    | some .lt => nearF x (bnd 2 (ulp32 x)) (Config.exp2 a)
    | _ => canonNan (Config.exp2 a)
  | _ => canonNan (Config.exp2 a)

/-- R103: LOG2 of a positive operand within 2 ulp, or within 2^-22 for A in [0.5, 2]; free elsewhere. -/
def log2F32 (a : Word) : Word :=
  match f32 a with
  | .nan => BitVec.ofNat 32 0x7FC0_0000
  | .fin n m e =>
    if n || m = 0 then canonNan (Config.log2 a)
    else
      let x := log2FV (.fin n m e)
      let mid := FV.cmp (.fin false m e) (.fin false 1 (-1)) != some .lt && FV.cmp (.fin false m e) (.fin false 1 1) != some .gt
      nearF x (if mid then bnd 1 (.fin false 1 (-22)) else bnd 2 (ulp32 x)) (Config.log2 a)
  | _ => canonNan (Config.log2 a)

/-- A value limited to [-1, 1] (R103: SIN and COS beyond 32,768). -/
def clampUnit (w : Word) : Word :=
  let one : FV := .fin false 1 0
  match FV.cmp (f32 w).abs one with
  | some .gt => if (f32 w).isNeg then BitVec.ofNat 32 0xBF80_0000 else BitVec.ofNat 32 0x3F80_0000
  | none => BitVec.ofNat 32 0
  | _ => w

/-- R103: SIN or COS, whose exact value is `x`: within 2^-21 up to 32,768, in [-1, 1] beyond; free for an infinity. -/
def trigF32 (f : FV → FV) (pick a : Word) : Word :=
  match f32 a with
  | .nan => BitVec.ofNat 32 0x7FC0_0000
  | .fin n m e =>
    if FV.cmp (.fin false m e) (.fin false 1 15) != some .gt then nearF (f (.fin n m e)) (bnd 1 (.fin false 1 (-21))) pick
    else clampUnit pick
  | _ => canonNan pick

/-- The transcendental operations of R102, by VX code 0x28 to 0x2E. -/
def transc (op : Nat) (a : Word) : Word :=
  match op with
  | 0x28 => exp2F32 a
  | 0x29 => log2F32 a
  | 0x2A => rcpF32 a
  | 0x2B => rsqF32 a
  | 0x2C => sqrtF32 a
  | 0x2D => trigF32 sinFV (Config.sin a) a
  | _ => trigF32 cosFV (Config.cos a) a

/-- R104: adjacent pairs combined round by round, `k` rounds. -/
def treeStep {α : Type} (f : α → α → α) : List α → List α
  | a :: b :: t => f a b :: treeStep f t
  | l => l

def treeFold {α : Type} (f : α → α → α) : Nat → List α → List α
  | 0, l => l
  | k + 1, l => treeFold f k (treeStep f l)

/-- R104: REDU.ADD.F32: inactive lanes contribute +0. -/
def reduAddF32 (xs : List (Option Word)) : Word :=
  ((treeFold f32Add 6 (xs.map (·.getD 0))).head?).getD 0

/-- MIN and MAX skip inactive lanes (R104). -/
def skipNone (f : Word → Word → Word) : Option Word → Option Word → Option Word
  | none, b => b
  | a, none => a
  | some a, some b => some (f a b)

def reduSkip (f : Word → Word → Word) (xs : List (Option Word)) : Option Word :=
  match ((treeFold (skipNone f) 6 xs).head?).getD none with
  | some w => some (canonNan w)
  | none => none

def reduAddI32 (xs : List (Option Word)) : Word := xs.foldl (fun a x => a + x.getD 0) 0

/-- The largest of the exact products' leading positions plus one: the smallest t with every nonzero product of the
group below 2^t (R165). -/
def windowTop : List FV → Option Int
  | [] => none
  | .fin _ m e :: t =>
    if m = 0 then windowTop t
    else
      let x := leadExp m e + 1
      match windowTop t with
      | none => some x
      | some y => some (if x < y then y else x)
  | _ :: t => windowTop t

/-- R165: a product truncated toward zero to a multiple of 2^u. -/
def truncTo (u : Int) : FV → FV
  | .fin n m e => .fin n (roundTo .tz m e u) u
  | v => v

/-- R165 to R167: the sum of a group's products; `win` = bits of the window below t, none when the adder is exact. -/
def groupSum (win : Option Nat) (ps : List FV) : FV :=
  let ps' := match win, windowTop ps with
    | some w, some t => ps.map (truncTo (t - w))
    | _, _ => ps
  match ps'.foldl FV.add (.fin false 0 0) with
  | .fin n m e => if m = 0 then .fin false 0 e else .fin n m e
  | v => v

/-- The value of a UE8M0 scale byte (R154). -/
def ue8m0 (x : Nat) : FV := if x = 255 then .nan else .fin false 1 ((x : Int) - 127)

/-- R180: the exponent of the largest normal of an element format. -/
def emaxOf : Nat → Int
  | 3 => 8
  | 4 => 15
  | 5 => 4
  | 6 => 2
  | 7 => 2
  | _ => 0

/-- The value of an element under a scale (R153): integers carry an implicit factor. -/
def ofElem (x code : Nat) (scaled : Bool) : FV :=
  match x, scaled with
  | 8, true => FV.mul (ofFmt 8 code) (.fin false 1 (-6))
  | 9, true => FV.mul (ofFmt 9 code) (.fin false 1 (-2))
  | _, _ => ofFmt x code

/-- A value as an element code under a scale (R180 step 4). -/
def toElem (x : Nat) (md : Rnd) (v : FV) : Nat :=
  match x with
  | 8 => encodeInt 8 md (v.mul (.fin false 1 6))
  | 9 => encodeInt 4 md (v.mul (.fin false 1 2))
  | _ => toFmt x md v

/-- R180: the scale code of a microblock. -/
def mxScale (x : Nat) (vs : List FV) : Nat :=
  if vs.any (fun v => v.isNan || v.isInf) then 255
  else
    match windowTop vs with
    | none => 127
    | some t =>
      let c := t - 1 - emaxOf x + 127
      if c < 0 then 0 else if c > 254 then 254 else c.toNat

/-- R180: the element code of one value `v` of a microblock `vs` under its scale code: 0 in a block with a NaN or an
infinity, +0 in a block of zeros of either sign, else the conversion of step 4. -/
def mxElem (x scale : Nat) (vs : List FV) (md : Rnd) (v : FV) : Nat :=
  if scale = 255 || vs.all FV.isZero then 0 else toElem x md (v.mul (.fin false 1 (127 - (scale : Int))))

end Sys2Proof.Machine
end

