-- ==== Sys2Proof/Machine/Flags.lean ====
section
/-!
DEFINITION. Conditions: branch conditions (R99) and compares into predicates (R102).
-/
namespace Sys2Proof.Machine

/-- BR.cond on a 64-bit value with respect to zero (R99). -/
def brCond (c v : Nat) : Bool :=
  let i := sext 64 v
  match c with
  | 0 => i == 0
  | 1 => i != 0
  | 2 => i < 0
  | 3 => i ≥ 0
  | 4 => i > 0
  | _ => i ≤ 0

/-- BRP.mode over active lanes (R99). -/
def brpCond (m active p : Nat) : Bool :=
  let x := Nat.land active p
  match m with
  | 0 => x != 0
  | 1 => x == active
  | _ => x == 0

/-- CMP (R102): VX codes 0x0C to 0x15. A NaN makes EQ, LT and LE false and NE true. -/
def cmpBit (op : Nat) (d a : Word) : Bool :=
  match op with
  | 0x0C => FV.cmp (f32 d) (f32 a) == some .eq
  | 0x0D => FV.cmp (f32 d) (f32 a) == some .lt
  | 0x0E => FV.cmp (f32 d) (f32 a) == some .lt || FV.cmp (f32 d) (f32 a) == some .eq
  | 0x0F => !(FV.cmp (f32 d) (f32 a) == some .eq)
  | 0x10 => d == a
  | 0x11 => d.slt a
  | 0x12 => d.sle a
  | 0x13 => d != a
  | 0x14 => d.ult a
  | _ => d.ule a

end Sys2Proof.Machine
end

