-- ==== Sys2Proof/Machine/Operands.lean ====
section
/-!
DEFINITION. Imotte bundles (R86 to R111): the operations of the four slots, their operand fields, their encoding and
decoding, and the checks of R89.
-/
namespace Sys2Proof.Machine

/-- Control slot operations (R99). Offsets are in 16 B units. -/
inductive COp where
  | bra (off : Int)
  | brCond (sr cond : Nat) (off : Int)
  | brp (p mode : Nat) (off : Int)
  | call (sd : Nat) (off : Int)
  | jmpr (sr : Nat)
  | split (p els fin : Nat)
  | join
  | loop (out : Nat)
  | brk (p : Nat)
  | exit
  | bar
  | trap (code : Nat)
  | waitle (k n : Nat)
  | rdlic (sd : Nat)
  | rdstep (sd : Nat)
  /-- codes 0x10 to 0x1B -/
  | ualu (op sd sa sb : Nat)
  /-- codes 0x20 to 0x26, imm as its 12 bits -/
  | ualui (op sd sa imm : Nat)
  | umovi (sd imm : Nat)
  | movl (sd : Nat)
  | movl64 (sd : Nat)
  | pmov (p sr : Nat)
  | smovp (sd p : Nat)
  /-- codes 0x2C to 0x2E -/
  | plog (op pd pa pb : Nat)
  | pnot (pd pa : Nat)
  deriving DecidableEq, Repr

/-- Vector slot operations (R100): form VR with D, A, B, or form VX with X, D, A. -/
inductive VOp where
  | vr (op d a b : Nat)
  | vx (op x d a : Nat)
  deriving DecidableEq, Repr

/-- A memory slot operation (R106). -/
structure MOp where
  op : Nat
  d  : Nat
  a  : Nat
  b  : Nat
  deriving DecidableEq, Repr

/-- An array slot operation (R111): OP 1 ARR, 2 ROW. -/
structure AOp where
  op : Nat
  sr : Nat
  deriving DecidableEq, Repr

/-- A decoded bundle: its 128 bits and its literal bundle (R90), header bits and slots. -/
structure Bundle where
  raw   : Nat
  lit   : Nat
  wait  : Nat := 0
  yield : Bool := false
  c     : Option COp := none
  v     : Option VOp := none
  m     : Option MOp := none
  a     : Option AOp := none
  deriving DecidableEq, Repr

/-! Encoding (R86, R99, R100, R106, R111). -/

def encI (w : Nat) (i : Int) : Nat := wrap w i

def encC : COp → Nat
  | .bra o => 0x01 * 2 ^ 22 + encI 22 o
  | .brCond s c o => 0x02 * 2 ^ 22 + s * 2 ^ 17 + c * 2 ^ 14 + encI 14 o
  | .brp p m o => 0x03 * 2 ^ 22 + p * 2 ^ 19 + m * 2 ^ 17 + encI 17 o
  | .call d o => 0x04 * 2 ^ 22 + d * 2 ^ 17 + encI 17 o
  | .jmpr s => 0x05 * 2 ^ 22 + s * 2 ^ 17
  | .split p e f => 0x06 * 2 ^ 22 + p * 2 ^ 19 + e * 2 ^ 10 + f
  | .join => 0x07 * 2 ^ 22
  | .loop x => 0x08 * 2 ^ 22 + x
  | .brk p => 0x09 * 2 ^ 22 + p * 2 ^ 19
  | .exit => 0x0A * 2 ^ 22
  | .bar => 0x0B * 2 ^ 22
  | .trap c => 0x0C * 2 ^ 22 + c
  | .waitle k n => 0x0D * 2 ^ 22 + k * 2 ^ 19 + n
  | .rdlic d => 0x0E * 2 ^ 22 + d * 2 ^ 17
  | .rdstep d => 0x0F * 2 ^ 22 + d * 2 ^ 17
  | .ualu op d a b => op * 2 ^ 22 + d * 2 ^ 17 + a * 2 ^ 12 + b * 2 ^ 7
  | .ualui op d a i => op * 2 ^ 22 + d * 2 ^ 17 + a * 2 ^ 12 + i
  | .umovi d i => 0x27 * 2 ^ 22 + d * 2 ^ 17 + i
  | .movl d => 0x28 * 2 ^ 22 + d * 2 ^ 17
  | .movl64 d => 0x29 * 2 ^ 22 + d * 2 ^ 17
  | .pmov p s => 0x2A * 2 ^ 22 + p * 2 ^ 19 + s * 2 ^ 12
  | .smovp d p => 0x2B * 2 ^ 22 + d * 2 ^ 17 + p
  | .plog op d a b => op * 2 ^ 22 + d * 2 ^ 19 + a * 2 ^ 16 + b * 2 ^ 13
  | .pnot d a => 0x2F * 2 ^ 22 + d * 2 ^ 19 + a * 2 ^ 16

def encV : VOp → Nat
  | .vr op d a b => op * 2 ^ 24 + d * 2 ^ 16 + a * 2 ^ 8 + b
  | .vx op x d a => 2 ^ 27 + op * 2 ^ 21 + x * 2 ^ 16 + d * 2 ^ 8 + a

def encM (m : MOp) : Nat := m.op * 2 ^ 21 + m.d * 2 ^ 13 + m.a * 2 ^ 5 + m.b
def encA (a : AOp) : Nat := a.op * 2 ^ 24 + a.sr * 2 ^ 19

def encBundle (b : Bundle) : Nat :=
  b.wait * 2 ^ 122 + (if b.c.isSome then 2 ^ 121 else 0) + (if b.v.isSome then 2 ^ 120 else 0) +
    (if b.m.isSome then 2 ^ 119 else 0) + (if b.a.isSome then 2 ^ 118 else 0) + (if b.yield then 2 ^ 117 else 0) +
    (b.c.map encC).getD 0 * 2 ^ 84 + (b.v.map encV).getD 0 * 2 ^ 56 + (b.m.map encM).getD 0 * 2 ^ 28 + (b.a.map encA).getD 0

/-! Decoding: none stands for a reserved operation code or a reserved bit (R89). -/

/-- `k` when the fields named are 0. -/
def zeroed {α : Type} (n : Nat) (k : α) : Option α := if n = 0 then some k else none

/-- A C slot (R99): the operation, with every field it does not use 0. -/
def decC (w : Nat) : Option COp :=
  let d := bits w 21 17
  let a := bits w 16 12
  let op := bits w 27 22
  if op = 0x01 then some (.bra (sext 22 w))
  else if op = 0x02 then some (.brCond d (bits w 16 14) (sext 14 w))
  else if op = 0x03 then some (.brp (bits w 21 19) (bits w 18 17) (sext 17 w))
  else if op = 0x04 then some (.call d (sext 17 w))
  else if op = 0x05 then zeroed (bits w 16 0) (.jmpr d)
  else if op = 0x06 then some (.split (bits w 21 19) (bits w 18 10) (bits w 9 0))
  else if op = 0x07 then zeroed (bits w 21 0) .join
  else if op = 0x08 then zeroed (bits w 21 16) (.loop (bits w 15 0))
  else if op = 0x09 then zeroed (bits w 18 0) (.brk (bits w 21 19))
  else if op = 0x0A then zeroed (bits w 21 0) .exit
  else if op = 0x0B then zeroed (bits w 21 0) .bar
  else if op = 0x0C then zeroed (bits w 21 8) (.trap (bits w 7 0))
  else if op = 0x0D then zeroed (bits w 18 6) (.waitle (bits w 21 19) (bits w 5 0))
  else if op = 0x0E then zeroed (bits w 16 0) (.rdlic d)
  else if op = 0x0F then zeroed (bits w 16 0) (.rdstep d)
  else if 0x10 ≤ op && op ≤ 0x1B then zeroed (bits w 6 0) (.ualu op d a (bits w 11 7))
  else if 0x20 ≤ op && op ≤ 0x26 then some (.ualui op d a (bits w 11 0))
  else if op = 0x27 then some (.umovi d (bits w 16 0))
  else if op = 0x28 then zeroed (bits w 16 0) (.movl d)
  else if op = 0x29 then zeroed (bits w 16 0) (.movl64 d)
  else if op = 0x2A then zeroed (bits w 18 17 + bits w 11 0) (.pmov (bits w 21 19) a)
  else if op = 0x2B then zeroed (bits w 16 3) (.smovp d (bits w 2 0))
  else if 0x2C ≤ op && op ≤ 0x2E then zeroed (bits w 12 0) (.plog op (bits w 21 19) (bits w 18 16) (bits w 15 13))
  else if op = 0x2F then zeroed (bits w 15 0) (.pnot (bits w 21 19) (bits w 18 16))
  else none

def decV (w : Nat) : Option VOp :=
  if bits w 27 27 = 0 then some (.vr (bits w 26 24) (bits w 23 16) (bits w 15 8) (bits w 7 0))
  else some (.vx (bits w 26 21) (bits w 20 16) (bits w 15 8) (bits w 7 0))

def decM (w : Nat) : MOp := { op := bits w 27 21, d := bits w 20 13, a := bits w 12 5, b := bits w 4 0 }

def decA (w : Nat) : Option AOp := zeroed (bits w 18 0) { op := bits w 27 24, sr := bits w 23 19 }

/-- A slot that is absent, present, or present and reserved. -/
def slotOf {α : Type} (present : Bool) (d : Option α) : Option (Option α) := if present then d.map some else some none

/-- R86: a bundle of 128 bits with its literal bundle. -/
def decBundle (raw lit : Nat) : Option Bundle :=
  if bits raw 116 112 ≠ 0 then none
  else
    match slotOf (raw.testBit 121) (decC (bits raw 111 84)), slotOf (raw.testBit 120) (decV (bits raw 83 56)),
        slotOf (raw.testBit 119) (some (decM (bits raw 55 28))), slotOf (raw.testBit 118) (decA (bits raw 27 0)) with
    | some c, some v, some m, some a =>
      some { raw := raw, lit := lit, wait := bits raw 127 122, yield := raw.testBit 117, c := c, v := v, m := m, a := a }
    | _, _, _, _ => none

/-! Operand forms of the vector slot (R93, R101, R102). -/

def isCmp (op : Nat) : Bool := 0x0C ≤ op && op ≤ 0x15
def isCvt (op : Nat) : Bool := 0x20 ≤ op && op ≤ 0x23
def isTrans (op : Nat) : Bool := 0x28 ≤ op && op ≤ 0x2E
def isRedu (op : Nat) : Bool := 0x30 ≤ op && op ≤ 0x33

/-- D is written. -/
def VOp.writesD : VOp → Bool
  | .vr _ _ _ _ => true
  | .vx op _ _ _ => !(isCmp op || op = 0x19 || isRedu op)

def VOp.dField : VOp → Nat
  | .vr _ d _ _ => d
  | .vx _ _ d _ => d

/-- The vector fields read as sources. -/
def VOp.srcs : VOp → List Nat
  | .vr op d a b => if op = 0 || op = 1 then [d, a, b] else [a, b]
  | .vx op _ d a =>
    if isCmp op then [d, a]
    else if op = 0x18 || op = 0x1A || op = 0x1B then []
    else if op ≤ 0x0B || op = 0x1C then [d, a]
    else [a]

/-- Vector fields that must name a register of the group (R89: an ignored field is not checked). -/
def VOp.regs (o : VOp) : List Nat := (if o.writesD then [o.dField] else []) ++ o.srcs

/-- A source field of 0xFF takes the slot's literal (R90, R93). -/
def VOp.usesLit (o : VOp) : Bool := o.srcs.any (· == 0xFF)

/-- Reserved codes and field values of the vector slot. SEL keeps D where its predicate bit is clear, so it both reads
and writes D (R89; DEDUCED). -/
def VOp.legal : VOp → Bool
  | .vr op d _ _ => !((op = 0 || op = 1) && d = 0xFF)
  | .vx op x d _ =>
    if op ≤ 0x0B then x = 0 && d ≠ 0xFF
    else if op = 0x16 then x < 8 && d ≠ 0xFF
    else if isCmp op then x < 8
    else if op = 0x17 then x = 0
    else if op = 0x18 || op = 0x19 then true
    else if op = 0x1A || op = 0x1B then x = 0
    else if op = 0x1C then x = 0 && d ≠ 0xFF
    else if op = 0x1D then true
    else if op = 0x1E || op = 0x1F then x = 0
    else if isCvt op then 1 ≤ x && x ≤ 0x0A
    else if isTrans op then x = 0
    else isRedu op

/-- Does the operation use the transcendental unit (R61)? -/
def VOp.usesTx : VOp → Bool
  | .vr _ _ _ _ => false
  | .vx op _ _ _ => isTrans op

/-- Is the operation counted under W5 (R94)? -/
def VOp.long : VOp → Bool
  | .vr _ _ _ _ => false
  | .vx op _ _ _ => isTrans op || isRedu op

/-! Operand forms of the memory slot (R107 to R110). -/

def mLoad (op : Nat) : Bool := op ≤ 0x06
def mLoadW (op : Nat) : Bool := 0x08 ≤ op && op ≤ 0x0E
def mStore (op : Nat) : Bool := 0x10 ≤ op && op ≤ 0x14
def mStoreW (op : Nat) : Bool := 0x18 ≤ op && op ≤ 0x1C
def mAtom (op : Nat) : Bool := 0x20 ≤ op && op ≤ 0x2F
def mAtomN (op : Nat) : Bool := 0x30 ≤ op && op ≤ 0x3F
def mAtomW (op : Nat) : Bool := 0x40 ≤ op && op ≤ 0x4F
def mAtomWN (op : Nat) : Bool := 0x50 ≤ op && op ≤ 0x5F
def mLdr (op : Nat) : Bool := op = 0x60 || op = 0x61
def mStc (op : Nat) : Bool := op = 0x62 || op = 0x63
def mAnyAtom (op : Nat) : Bool := 0x20 ≤ op && op ≤ 0x5F

/-- Bytes a lane moves. -/
def mSize (op : Nat) : Nat :=
  if mLoad op || mLoadW op then (match op % 8 with | 0 => 1 | 1 => 1 | 2 => 2 | 3 => 2 | 4 => 4 | 5 => 8 | _ => 16)
  else if mStore op || mStoreW op then (match op % 8 with | 0 => 1 | 1 => 2 | 2 => 4 | 3 => 8 | _ => 16)
  else if mAnyAtom op then (if op % 16 = 1 || op % 16 = 13 || op % 16 = 15 then 8 else 4)
  else if op = 0x60 || op = 0x62 then 4
  else if op = 0x61 || op = 0x63 then 8
  else 1

/-- Sign extension of a narrow load. -/
def mSigned (op : Nat) : Bool := op % 8 = 1 || op % 8 = 3

/-- Registers an atomic's operand takes (R109). -/
def atomRegs (kind : Nat) : Nat := if kind = 1 || kind = 13 || kind = 14 then 2 else if kind = 15 then 4 else 1

def regsOf (size : Nat) : Nat := if size ≤ 4 then 1 else size / 4

/-- Registers of the D operand (R108, R109): with STC, the status register too. -/
def MOp.dRegs (m : MOp) : Nat :=
  if mLoad m.op || mLoadW m.op || mStore m.op || mStoreW m.op || mLdr m.op then regsOf (mSize m.op)
  else if mAnyAtom m.op then atomRegs (m.op % 16)
  else if mStc m.op then regsOf (mSize m.op) + 1
  else 0

/-- The vector registers written: first and count; none when the result is discarded. -/
def MOp.dst (m : MOp) : Option (Nat × Nat) :=
  if mLoad m.op || mLoadW m.op || mLdr m.op then (if m.d = 0xFF then none else some (m.d, regsOf (mSize m.op)))
  else if mAtom m.op || mAtomW m.op then some (m.d, regsOf (mSize m.op))
  else if mStc m.op then some (m.d + regsOf (mSize m.op), 1)
  else none

/-- Lane-wise operations with a D operand in vector registers. -/
def MOp.usesVD (m : MOp) : Bool := m.dRegs ≠ 0

/-- Operations that address memory lane by lane. -/
def MOp.laneWise (m : MOp) : Bool := m.op ≤ 0x63 || m.op = 0x66 || m.op = 0x67

/-- Reserved codes and field values of the memory slot (R89, R93, R108, R110). -/
def MOp.legal (m : MOp) : Bool :=
  if mLoad m.op || mLoadW m.op || mLdr m.op then true
  else if mStore m.op || mStoreW m.op || mAnyAtom m.op || mStc m.op then m.d ≠ 0xFF
  else if m.op = 0x64 then m.d < 4 && m.a = 0 && m.b = 0
  else if m.op = 0x65 || m.op = 0x6B then m.d = 0 && m.a = 0 && m.b = 0
  else if m.op = 0x66 || m.op = 0x67 then m.d = 0
  else if m.op = 0x68 || m.op = 0x69 then m.d < 32 && m.a = 0
  else if m.op = 0x6A then m.d < 32 && m.a = 0 && m.b = 0
  else false

/-- Vector registers the slot names. -/
def MOp.regs (m : MOp) : List Nat :=
  (if m.usesVD && m.d ≠ 0xFF then rangeFrom m.d m.dRegs else []) ++ (if m.laneWise && m.a ≠ 0xFF then [m.a] else [])

/-! Checks of a whole bundle (R89, R90). -/

/-- Reserved field values of the control slot. -/
def COp.legal : COp → Bool
  | .brCond _ c _ => c < 6
  | .brp _ m _ => m < 3
  | .split _ e f => 1 ≤ e && 1 ≤ f
  | .loop x => 1 ≤ x
  | .waitle k _ => k < 6
  | _ => true

/-- Destination registers by file: 0 vector, 1 uniform, 2 predicate. -/
def COp.dsts : COp → List (Nat × Nat)
  | .call d _ => [(1, d)]
  | .rdlic d => [(1, d)]
  | .rdstep d => [(1, d)]
  | .ualu _ d _ _ => [(1, d)]
  | .ualui _ d _ _ => [(1, d)]
  | .umovi d _ => [(1, d)]
  | .movl d => [(1, d)]
  | .movl64 d => [(1, d)]
  | .pmov p _ => [(2, p)]
  | .smovp d _ => [(1, d)]
  | .plog _ d _ _ => [(2, d)]
  | .pnot d _ => [(2, d)]
  | _ => []

def VOp.dsts (o : VOp) : List (Nat × Nat) :=
  match o with
  | .vr _ d _ _ => if d = 0xFF then [] else [(0, d)]
  | .vx op x d _ =>
    if isCmp op then [(2, x % 8)]
    else if op = 0x19 || isRedu op then [(1, x)]
    else if d = 0xFF then [] else [(0, d)]

def MOp.dsts (m : MOp) : List (Nat × Nat) :=
  (match m.dst with
   | some (d, n) => (rangeFrom d n).map (fun r => (0, r))
   | none => []) ++ (if m.op = 0x69 then [(1, m.d)] else [])

def AOp.legal (a : AOp) : Bool := (a.op = 1 && a.sr + 3 ≤ 31) || (a.op = 2 && a.sr + 1 ≤ 31)

def disjoint (a b : List (Nat × Nat)) : Bool := a.all (fun x => !b.contains x)

def Bundle.usesLitC (b : Bundle) : Bool :=
  match b.c with
  | some (.movl _) => true
  | some (.movl64 _) => true
  | _ => false

def Bundle.usesLitV (b : Bundle) : Bool := (b.v.map VOp.usesLit).getD false

/-- R90: a literal bundle follows. -/
def Bundle.usesLit (b : Bundle) : Bool := b.usesLitC || b.usesLitV

def Bundle.isMovl64 (b : Bundle) : Bool :=
  match b.c with
  | some (.movl64 _) => true
  | _ => false

/-- R89, R90: the bundle is legal. -/
def Bundle.legal (b : Bundle) : Bool :=
  let dc := (b.c.map COp.dsts).getD []
  let dv := (b.v.map VOp.dsts).getD []
  let dm := (b.m.map MOp.dsts).getD []
  (b.c.map COp.legal).getD true && (b.v.map VOp.legal).getD true && (b.m.map MOp.legal).getD true &&
    (b.a.map AOp.legal).getD true && disjoint dc dv && disjoint dc dm && disjoint dv dm &&
    !(b.isMovl64 && b.usesLitV) && (!b.usesLit || b.lit / 2 ^ 64 == 0)

/-- R89: some vector field names a register numbered r or above. -/
def Bundle.regRange (b : Bundle) (r : Nat) : Bool :=
  ((b.v.map VOp.regs).getD []).any (fun x => x ≠ 0xFF && x ≥ r) || ((b.m.map MOp.regs).getD []).any (fun x => x ≥ r)

/-- Literal words (R90): C owns L0, V owns L1. -/
def Bundle.l0 (b : Bundle) : Nat := bits b.lit 31 0
def Bundle.l1 (b : Bundle) : Nat := bits b.lit 63 32

/-- Bytes from the bundle to the next in sequence (R91). -/
def Bundle.bytes (b : Bundle) : Nat := if b.usesLit then 32 else 16

/-- The counters an issue increments (R94). -/
def Bundle.counts (b : Bundle) : List Nat :=
  (match b.m with
   | some m =>
     if mLoad m.op || mLoadW m.op || mLdr m.op then [0]
     else if mAtom m.op || mAtomW m.op then [0, 1]
     else if mStore m.op || mStoreW m.op || mAtomN m.op || mAtomWN m.op || mStc m.op || m.op = 0x67 then [1]
     else if m.op = 0x64 || m.op = 0x65 || m.op = 0x68 || m.op = 0x6A || m.op = 0x6B then [4]
     else []
   | none => []) ++
  (match b.v with
   | some v => if v.long then [5] else []
   | none => []) ++
  (match b.a with
   | some a => if a.op = 1 then [2] else [3]
   | none => [])

end Sys2Proof.Machine
end

