-- ==== Sys2Proof/Machine/Aes.lean ====
section
/-!
DEFINITION. AES-256 and the XTS mode of IEEE 1619, by which the controllers of HBM4 encrypt every line (R245).
-/
namespace Sys2Proof.Machine

/-! The field of AES: bytes as polynomials over GF(2), modulo x^8 + x^4 + x^3 + x + 1. -/

def xtime (b : Nat) : Nat := if b < 128 then 2 * b else Nat.xor (2 * b - 256) 0x1B

/-- The product of two bytes, bit by bit of the second. -/
def gmulBits : Nat → Nat → Nat → Nat
  | 0, _, _ => 0
  | n + 1, a, b => Nat.xor (if b % 2 = 1 then a else 0) (gmulBits n (xtime a) (b / 2))

def gmul (a b : Nat) : Nat := gmulBits 8 a b

/-- The inverse: the 254th power, 0 for 0. -/
def ginv (a : Nat) : Nat :=
  let a2 := gmul a a
  let a4 := gmul a2 a2
  let a8 := gmul a4 a4
  let a16 := gmul a8 a8
  let a32 := gmul a16 a16
  let a64 := gmul a32 a32
  gmul (gmul (gmul a2 a4) (gmul a8 a16)) (gmul (gmul a32 a64) (gmul a64 a64))

/-- A byte rotated left. -/
def rotl8 (b k : Nat) : Nat := (b * 2 ^ k) % 256 + b / 2 ^ (8 - k)

def subByte (b : Nat) : Nat :=
  let x := ginv b
  [rotl8 x 1, rotl8 x 2, rotl8 x 3, rotl8 x 4, 0x63].foldl Nat.xor x

def invSubByte (b : Nat) : Nat := ginv ([rotl8 b 3, rotl8 b 6, 0x05].foldl Nat.xor (rotl8 b 1))

/-! The cipher on 16 bytes, column by column. -/

def xorBytes (a b : List Nat) : List Nat := List.zipWith Nat.xor a b

/-- Rows 1 to 3 move left by their number, or right for the inverse. -/
def shiftRows (x : List Nat) (inv : Bool) : List Nat :=
  (List.range 16).map (fun i => x.getD (i % 4 + 4 * ((i / 4 + (if inv then 4 - i % 4 else i % 4)) % 4)) 0)

/-- Each column times a fixed polynomial, given by the first row of its matrix. -/
def mixColumns (x m : List Nat) : List Nat :=
  (List.range 16).map (fun i =>
    (List.range 4).foldl (fun n j => Nat.xor n (gmul (x.getD (4 * (i / 4) + j) 0) (m.getD ((j + 4 - i % 4) % 4) 0))) 0)

def mixM : List Nat := [2, 3, 1, 1]
def invMixM : List Nat := [14, 11, 13, 9]

/-- The next word of the key schedule from those before it, latest first; `i` is its number. -/
def nextKeyWord (ws : List (List Nat)) (i : Nat) : List Nat :=
  let t := ws.getD 0 []
  let t1 := if i % 8 = 0 then xorBytes ((t.drop 1 ++ t.take 1).map subByte) [2 ^ (i / 8 - 1), 0, 0, 0]
    else if i % 8 = 4 then t.map subByte else t
  xorBytes (ws.getD 7 []) t1

/-- The 15 round keys of a 32-byte key. -/
def roundKeys (key : List Nat) : List (List Nat) :=
  let w0 := ((List.range 8).map (fun i => (key.drop (4 * i)).take 4)).reverse
  let ws := ((rangeFrom 8 52).foldl (fun ws i => nextKeyWord ws i :: ws) w0).reverse
  (List.range 15).map (fun r => ((ws.drop (4 * r)).take 4).flatten)

def aesEnc (rks : List (List Nat)) (x : List Nat) : List Nat :=
  let x1 := ((rks.drop 1).take 13).foldl (fun x k => xorBytes (mixColumns (shiftRows (x.map subByte) false) mixM) k) (xorBytes x (rks.headD []))
  xorBytes (shiftRows (x1.map subByte) false) (rks.getLastD [])

def aesDec (rks : List (List Nat)) (x : List Nat) : List Nat :=
  let unround (x : List Nat) : List Nat := (shiftRows x true).map invSubByte
  let x1 := ((rks.drop 1).take 13).reverse.foldl (fun x k => mixColumns (xorBytes (unround x) k) invMixM) (xorBytes x (rks.getLastD []))
  xorBytes (unround x1) (rks.headD [])

/-! XTS (R245): the data unit is the line, its tweak the line number. -/

/-- The tweak times alpha in GF(2^128), as a little-endian number. -/
def tweakNext (t : Nat) : Nat := if t < 2 ^ 127 then 2 * t else Nat.xor (2 * t - 2 ^ 128) 0x87

def tweakPow : Nat → Nat → Nat
  | 0, t => t
  | n + 1, t => tweakPow n (tweakNext t)

/-- One 16-byte block of a line under a key pair (Key1 in the low 256 bits): block `j` of line `line`. -/
def xtsBlock (dec : Bool) (pair line j : Nat) (x : List Nat) : List Nat :=
  let t0 := ofBytes (aesEnc (roundKeys (toBytes 32 (pair / 2 ^ 256))) (toBytes 16 line))
  let t := toBytes 16 (tweakPow j t0)
  let rks := roundKeys (toBytes 32 (pair % 2 ^ 256))
  xorBytes ((if dec then aesDec rks else aesEnc rks) (xorBytes x t)) t

end Sys2Proof.Machine
end

