-- ==== Sys2Proof/Machine/RegMap.lean ====
section
/-!
DEFINITION. The register map: block types (R38), pages of the aperture (R533 to R535) and the fields of every
block-specific register, with access type and reset value, as the tables of each chapter give them.
-/
namespace Sys2Proof.Machine

/-- Block page types (R38). -/
inductive PT where
  | dev
  | die
  | tile
  | arr
  | row
  | tst
  | l1c
  | l2s
  | hbm
  | xlt
  | bel
  | txg
  | de
  | ce
  | fx
  | me
  | fport
  | nhl
  | pwr
  | thm
  | gde
  | sec
  | boot
  | dbg
  deriving DecidableEq, Repr

/-- Access types (R8). -/
inductive Acc where
  | rw
  | ro
  | w1c
  | w1s
  | wo
  | rc
  | rws
  deriving DecidableEq, Repr

/-- A run of `n` equal fields at offsets off, off + 4, ...: bits [hi:lo], access, reset value, stopped-only (R46). -/
structure FieldSpec where
  off : Nat
  n   : Nat
  hi  : Nat
  lo  : Nat
  acc : Acc
  rst : Nat
  so  : Bool
  deriving DecidableEq, Repr

/-- BLK_ID.TYPE (R38). -/
def PT.code : PT → Nat
  | .dev => 1
  | .die => 2
  | .tile => 3
  | .arr => 4
  | .row => 5
  | .tst => 6
  | .l1c => 7
  | .l2s => 8
  | .hbm => 9
  | .xlt => 10
  | .bel => 11
  | .txg => 12
  | .de => 13
  | .ce => 14
  | .fx => 15
  | .me => 16
  | .fport => 17
  | .nhl => 18
  | .pwr => 19
  | .thm => 20
  | .gde => 21
  | .sec => 22
  | .boot => 23
  | .dbg => 24

/-- The block-specific fields of the DEV page. -/
def fieldsDev : List FieldSpec :=
  [⟨0x100, 1, 11, 0, .ro, 0x0, false⟩,
   ⟨0x100, 1, 31, 31, .ro, 0x0, false⟩,
   ⟨0x104, 1, 7, 0, .ro, 0x1, false⟩,
   ⟨0x104, 1, 15, 8, .ro, 0x3, false⟩,
   ⟨0x104, 1, 23, 16, .ro, 0x1, false⟩,
   ⟨0x108, 1, 31, 0, .ro, 0x0, false⟩,
   ⟨0x10C, 1, 31, 0, .ro, 0x0, false⟩,
   ⟨0x110, 1, 1, 0, .ro, 0x0, false⟩,
   ⟨0x110, 1, 27, 16, .ro, 0x0, false⟩,
   ⟨0x114, 1, 17, 0, .ro, 0x0, false⟩,
   ⟨0x118, 3, 31, 0, .ro, 0x0, false⟩,
   ⟨0x124, 1, 11, 0, .rw, 0x0, false⟩,
   ⟨0x128, 4, 31, 0, .ro, 0x0, false⟩,
   ⟨0x138, 1, 13, 0, .ro, 0x0, false⟩,
   ⟨0x13C, 1, 15, 0, .rc, 0x0, false⟩,
   ⟨0x140, 1, 15, 0, .rc, 0x0, false⟩,
   ⟨0x140, 1, 31, 16, .rc, 0x0, false⟩,
   ⟨0x150, 12, 31, 0, .ro, 0x0, false⟩,
   ⟨0x200, 128, 31, 0, .rw, 0x0, false⟩,
   ⟨0x400, 1, 7, 0, .rw, 0x0, false⟩,
   ⟨0x404, 1, 1, 0, .ro, 0x0, false⟩,
   ⟨0x404, 1, 7, 2, .ro, 0x0, false⟩,
   ⟨0x404, 1, 8, 8, .ro, 0x1, false⟩,
   ⟨0x404, 1, 31, 16, .ro, 0x0, false⟩,
   ⟨0x408, 1, 4, 0, .ro, 0x10, false⟩,
   ⟨0x408, 1, 15, 8, .ro, 0x0, false⟩,
   ⟨0x408, 1, 23, 16, .ro, 0x0, false⟩]

/-- The block-specific fields of the TILE page. -/
def fieldsTile : List FieldSpec :=
  [⟨0x080, 1, 6, 0, .ro, 0x0, false⟩,
   ⟨0x080, 1, 13, 8, .ro, 0x0, false⟩,
   ⟨0x080, 1, 25, 16, .ro, 0x0, false⟩,
   ⟨0x084, 1, 7, 0, .ro, 0x0, false⟩,
   ⟨0x084, 1, 15, 8, .ro, 0x0, false⟩,
   ⟨0x088, 1, 9, 0, .rw, 0x100, false⟩,
   ⟨0x08C, 1, 1, 0, .rw, 0x0, false⟩,
   ⟨0x090, 1, 15, 0, .rc, 0x0, false⟩,
   ⟨0x094, 1, 15, 0, .rc, 0x0, false⟩,
   ⟨0x0F0, 1, 15, 0, .rw, 0x0, false⟩,
   ⟨0x0F0, 1, 16, 16, .rw, 0x0, false⟩,
   ⟨0x0F0, 1, 17, 17, .ro, 0x0, false⟩,
   ⟨0x0F0, 1, 31, 24, .ro, 0x0, false⟩,
   ⟨0x0A0, 1, 4, 0, .ro, 0x0, false⟩,
   ⟨0x0A4, 1, 6, 0, .ro, 0x0, false⟩,
   ⟨0x0A8, 1, 15, 0, .rws, 0x0, false⟩,
   ⟨0x0AC, 1, 15, 0, .rc, 0x0, false⟩,
   ⟨0x0AC, 1, 31, 16, .rc, 0x0, false⟩,
   ⟨0x0B0, 1, 15, 0, .rc, 0x0, false⟩,
   ⟨0x0C0, 1, 4, 0, .ro, 0x0, false⟩,
   ⟨0x0C0, 1, 5, 5, .ro, 0x0, false⟩,
   ⟨0x0C0, 1, 31, 16, .ro, 0x0, false⟩,
   ⟨0x0C4, 1, 1, 0, .ro, 0x0, false⟩,
   ⟨0x0C4, 1, 31, 16, .ro, 0x0, false⟩,
   ⟨0x0C8, 1, 31, 0, .rw, 0x0, false⟩,
   ⟨0x0CC, 1, 0, 0, .rw, 0x0, false⟩,
   ⟨0x0CC, 1, 1, 1, .rw, 0x0, false⟩,
   ⟨0x0CC, 1, 2, 2, .wo, 0x0, false⟩,
   ⟨0x0D0, 8, 31, 0, .ro, 0x0, false⟩]

/-- The block-specific fields of the ARR page. -/
def fieldsArr : List FieldSpec :=
  [⟨0x080, 1, 7, 0, .rws, 0xFF, false⟩,
   ⟨0x080, 1, 15, 8, .rws, 0xFF, false⟩,
   ⟨0x080, 1, 23, 16, .rws, 0xFF, false⟩,
   ⟨0x080, 1, 31, 24, .rws, 0xFF, false⟩,
   ⟨0x084, 1, 7, 0, .rws, 0xFF, false⟩,
   ⟨0x088, 1, 1, 0, .rw, 0x2, true⟩,
   ⟨0x088, 1, 12, 8, .rw, 0x14, true⟩,
   ⟨0x08C, 1, 2, 0, .ro, 0x0, false⟩,
   ⟨0x08C, 1, 3, 3, .ro, 0x0, false⟩,
   ⟨0x08C, 1, 6, 4, .ro, 0x0, false⟩,
   ⟨0x090, 1, 0, 0, .wo, 0x0, false⟩,
   ⟨0x090, 1, 1, 1, .wo, 0x0, false⟩,
   ⟨0x094, 1, 7, 0, .ro, 0x0, false⟩,
   ⟨0x094, 1, 31, 16, .ro, 0x0, false⟩,
   ⟨0x098, 1, 15, 0, .rc, 0x0, false⟩,
   ⟨0x09C, 1, 15, 0, .rc, 0x0, false⟩,
   ⟨0x0A0, 1, 15, 0, .rc, 0x0, false⟩,
   ⟨0x0A4, 1, 7, 0, .ro, 0xFF, false⟩,
   ⟨0x0A4, 1, 15, 8, .ro, 0xFF, false⟩,
   ⟨0x0A4, 1, 23, 16, .ro, 0xFF, false⟩,
   ⟨0x0A4, 1, 31, 24, .ro, 0xFF, false⟩]

/-- The block-specific fields of the ROW page. -/
def fieldsRow : List FieldSpec :=
  [⟨0x080, 1, 2, 0, .ro, 0x0, false⟩,
   ⟨0x080, 1, 3, 3, .ro, 0x0, false⟩,
   ⟨0x084, 1, 7, 0, .ro, 0x0, false⟩,
   ⟨0x084, 1, 31, 16, .ro, 0x0, false⟩,
   ⟨0x088, 1, 15, 0, .rc, 0x0, false⟩,
   ⟨0x08C, 1, 15, 0, .rc, 0x0, false⟩,
   ⟨0x090, 1, 15, 0, .rc, 0x0, false⟩,
   ⟨0x090, 1, 31, 16, .rc, 0x0, false⟩,
   ⟨0x094, 1, 15, 0, .rc, 0x0, false⟩]

/-- The block-specific fields of the TST page. -/
def fieldsTst : List FieldSpec :=
  [⟨0x080, 1, 7, 0, .rw, 0x80, true⟩,
   ⟨0x084, 1, 15, 0, .rc, 0x0, false⟩,
   ⟨0x088, 1, 15, 0, .rc, 0x0, false⟩]

/-- The block-specific fields of the L1C page. -/
def fieldsL1c : List FieldSpec :=
  [⟨0x080, 1, 15, 0, .rc, 0x0, false⟩,
   ⟨0x084, 1, 15, 0, .rc, 0x0, false⟩]

/-- The block-specific fields of the L2S page. -/
def fieldsL2s : List FieldSpec :=
  [⟨0x080, 1, 16, 0, .ro, 0xFFFF, false⟩,
   ⟨0x084, 1, 4, 0, .wo, 0x0, false⟩,
   ⟨0x088, 1, 11, 0, .ro, 0x0, false⟩,
   ⟨0x08C, 1, 15, 0, .rc, 0x0, false⟩,
   ⟨0x090, 1, 15, 0, .rc, 0x0, false⟩]

/-- The block-specific fields of the HBM page. -/
def fieldsHbm : List FieldSpec :=
  [⟨0x080, 1, 15, 0, .rw, 0x5A0, false⟩,
   ⟨0x084, 1, 15, 0, .ro, 0x800, false⟩,
   ⟨0x084, 1, 31, 16, .ro, 0x0, false⟩,
   ⟨0x088, 1, 31, 0, .ro, 0x0, false⟩,
   ⟨0x08C, 1, 31, 0, .ro, 0x0, false⟩,
   ⟨0x090, 1, 15, 0, .rc, 0x0, false⟩,
   ⟨0x094, 1, 15, 0, .rc, 0x0, false⟩,
   ⟨0x094, 1, 31, 16, .ro, 0x0, false⟩]

/-- The block-specific fields of the XLT page. -/
def fieldsXlt : List FieldSpec :=
  [⟨0x080, 1, 31, 0, .rw, 0x0, true⟩,
   ⟨0x084, 1, 31, 0, .rw, 0x0, true⟩,
   ⟨0x088, 1, 16, 0, .ro, 0x0, false⟩,
   ⟨0x08C, 1, 15, 0, .rc, 0x0, false⟩,
   ⟨0x08C, 1, 31, 16, .rc, 0x0, false⟩,
   ⟨0x090, 1, 15, 0, .rc, 0x0, false⟩,
   ⟨0x094, 1, 15, 0, .rc, 0x0, false⟩]

/-- The block-specific fields of the BEL page. -/
def fieldsBel : List FieldSpec :=
  [⟨0x080, 1, 15, 0, .ro, 0x0, false⟩,
   ⟨0x080, 1, 31, 16, .ro, 0x0, false⟩,
   ⟨0x084, 1, 10, 0, .ro, 0x400, false⟩,
   ⟨0x088, 1, 15, 0, .rc, 0x0, false⟩,
   ⟨0x088, 1, 31, 16, .rc, 0x0, false⟩,
   ⟨0x08C, 1, 14, 0, .ro, 0x0, false⟩]

/-- The block-specific fields of the TXG page. -/
def fieldsTxg : List FieldSpec :=
  [⟨0x080, 1, 6, 0, .ro, 0x0, false⟩,
   ⟨0x084, 1, 16, 0, .ro, 0x0, false⟩,
   ⟨0x088, 1, 15, 0, .rc, 0x0, false⟩,
   ⟨0x088, 1, 31, 16, .rc, 0x0, false⟩,
   ⟨0x08C, 1, 15, 0, .rc, 0x0, false⟩]

/-- The block-specific fields of the DE page. -/
def fieldsDe : List FieldSpec :=
  [⟨0x080, 1, 14, 0, .ro, 0x0, false⟩,
   ⟨0x084, 1, 6, 0, .ro, 0x0, false⟩,
   ⟨0x088, 1, 31, 0, .rw, 0x8040201, false⟩,
   ⟨0x08C, 1, 31, 0, .rw, 0x80402010, false⟩,
   ⟨0x090, 1, 7, 0, .rw, 0x80, false⟩,
   ⟨0x094, 1, 15, 0, .rc, 0x0, false⟩,
   ⟨0x098, 1, 15, 0, .rc, 0x0, false⟩,
   ⟨0x098, 1, 31, 16, .rc, 0x0, false⟩,
   ⟨0x0C0, 1, 7, 0, .rw, 0x80, false⟩,
   ⟨0x0C0, 1, 15, 8, .rw, 0xA, false⟩,
   ⟨0x0C4, 1, 15, 0, .rc, 0x0, false⟩]

/-- The block-specific fields of the CE page. -/
def fieldsCe : List FieldSpec :=
  [⟨0x0F0, 1, 15, 0, .rw, 0x0, false⟩,
   ⟨0x0F0, 1, 16, 16, .rw, 0x0, false⟩,
   ⟨0x0F0, 1, 17, 17, .ro, 0x0, false⟩,
   ⟨0x0F0, 1, 31, 24, .ro, 0x0, false⟩,
   ⟨0x080, 1, 14, 0, .ro, 0x0, false⟩,
   ⟨0x084, 1, 6, 0, .ro, 0x0, false⟩,
   ⟨0x088, 1, 31, 0, .rw, 0x8040201, false⟩,
   ⟨0x08C, 1, 31, 0, .rw, 0x80402010, false⟩,
   ⟨0x090, 1, 7, 0, .rw, 0x80, false⟩,
   ⟨0x094, 1, 15, 0, .rc, 0x0, false⟩,
   ⟨0x098, 1, 15, 0, .rc, 0x0, false⟩,
   ⟨0x098, 1, 31, 16, .rc, 0x0, false⟩]

/-- The block-specific fields of the FX page. -/
def fieldsFx : List FieldSpec :=
  [⟨0x080, 1, 14, 0, .ro, 0x0, false⟩,
   ⟨0x084, 1, 6, 0, .ro, 0x0, false⟩,
   ⟨0x088, 1, 31, 0, .rw, 0x8040201, false⟩,
   ⟨0x08C, 1, 31, 0, .rw, 0x80402010, false⟩,
   ⟨0x090, 1, 7, 0, .rw, 0x80, false⟩,
   ⟨0x094, 1, 15, 0, .rc, 0x0, false⟩,
   ⟨0x098, 1, 15, 0, .rc, 0x0, false⟩,
   ⟨0x098, 1, 31, 16, .rc, 0x0, false⟩]

/-- The block-specific fields of the ME page. -/
def fieldsMe : List FieldSpec :=
  [⟨0x080, 1, 14, 0, .ro, 0x0, false⟩,
   ⟨0x084, 1, 6, 0, .ro, 0x0, false⟩,
   ⟨0x088, 1, 31, 0, .rw, 0x8040201, false⟩,
   ⟨0x08C, 1, 31, 0, .rw, 0x80402010, false⟩,
   ⟨0x090, 1, 7, 0, .rw, 0x80, false⟩,
   ⟨0x094, 1, 15, 0, .rc, 0x0, false⟩,
   ⟨0x098, 1, 15, 0, .rc, 0x0, false⟩,
   ⟨0x098, 1, 31, 16, .rc, 0x0, false⟩,
   ⟨0x0A0, 1, 31, 0, .rw, 0x0, true⟩,
   ⟨0x0A4, 1, 31, 0, .rw, 0x0, true⟩,
   ⟨0x0A8, 1, 31, 0, .rw, 0x0, true⟩,
   ⟨0x0AC, 1, 31, 0, .rw, 0x0, true⟩,
   ⟨0x0B0, 1, 31, 0, .ro, 0x0, false⟩,
   ⟨0x0B4, 1, 31, 0, .ro, 0x0, false⟩]

/-- The block-specific fields of the FPORT page. -/
def fieldsFport : List FieldSpec :=
  [⟨0x080, 1, 3, 0, .ro, 0x0, false⟩,
   ⟨0x080, 1, 15, 8, .ro, 0x0, false⟩,
   ⟨0x080, 1, 17, 16, .ro, 0x0, false⟩,
   ⟨0x080, 1, 18, 18, .ro, 0x0, false⟩,
   ⟨0x084, 1, 8, 0, .rw, 0x0, true⟩,
   ⟨0x084, 1, 17, 9, .ro, 0x0, false⟩,
   ⟨0x084, 1, 26, 18, .ro, 0x0, false⟩,
   ⟨0x088, 1, 0, 0, .rw, 0x0, true⟩,
   ⟨0x088, 1, 1, 1, .wo, 0x0, false⟩,
   ⟨0x088, 1, 2, 2, .wo, 0x0, false⟩,
   ⟨0x088, 1, 3, 3, .rw, 0x0, true⟩,
   ⟨0x08C, 1, 31, 0, .rc, 0x0, false⟩,
   ⟨0x090, 1, 15, 0, .rc, 0x0, false⟩,
   ⟨0x094, 1, 15, 0, .rc, 0x0, false⟩,
   ⟨0x094, 1, 31, 16, .rc, 0x0, false⟩,
   ⟨0x098, 1, 15, 0, .rc, 0x0, false⟩,
   ⟨0x098, 1, 31, 16, .rc, 0x0, false⟩,
   ⟨0x09C, 1, 15, 0, .rc, 0x0, false⟩,
   ⟨0x09C, 1, 31, 16, .rc, 0x0, false⟩,
   ⟨0x0A0, 1, 3, 0, .rw, 0x0, false⟩,
   ⟨0x0A4, 1, 31, 0, .ro, 0x0, false⟩]

/-- The block-specific fields of the NHL page. -/
def fieldsNhl : List FieldSpec :=
  [⟨0x080, 1, 3, 0, .ro, 0x0, false⟩,
   ⟨0x080, 1, 15, 8, .ro, 0x0, false⟩,
   ⟨0x080, 1, 17, 16, .ro, 0x0, false⟩,
   ⟨0x080, 1, 18, 18, .ro, 0x0, false⟩,
   ⟨0x084, 1, 8, 0, .rw, 0x0, true⟩,
   ⟨0x084, 1, 17, 9, .ro, 0x0, false⟩,
   ⟨0x084, 1, 26, 18, .ro, 0x0, false⟩,
   ⟨0x088, 1, 0, 0, .rw, 0x0, true⟩,
   ⟨0x088, 1, 1, 1, .wo, 0x0, false⟩,
   ⟨0x088, 1, 2, 2, .wo, 0x0, false⟩,
   ⟨0x088, 1, 3, 3, .rw, 0x0, true⟩,
   ⟨0x08C, 1, 31, 0, .rc, 0x0, false⟩,
   ⟨0x090, 1, 15, 0, .rc, 0x0, false⟩,
   ⟨0x094, 1, 15, 0, .rc, 0x0, false⟩,
   ⟨0x094, 1, 31, 16, .rc, 0x0, false⟩,
   ⟨0x098, 1, 15, 0, .rc, 0x0, false⟩,
   ⟨0x098, 1, 31, 16, .rc, 0x0, false⟩,
   ⟨0x09C, 1, 15, 0, .rc, 0x0, false⟩,
   ⟨0x09C, 1, 31, 16, .rc, 0x0, false⟩,
   ⟨0x0A0, 1, 3, 0, .rw, 0x0, false⟩,
   ⟨0x0A4, 1, 31, 0, .ro, 0x0, false⟩,
   ⟨0x0C0, 1, 31, 21, .rw, 0x0, false⟩,
   ⟨0x0C4, 1, 15, 0, .rw, 0x0, false⟩,
   ⟨0x0C4, 1, 27, 16, .rw, 0x0, false⟩,
   ⟨0x0C4, 1, 31, 31, .rw, 0x0, false⟩,
   ⟨0x0C8, 1, 31, 0, .ro, 0x0, false⟩,
   ⟨0x0CC, 1, 31, 0, .ro, 0x0, false⟩,
   ⟨0x0D0, 1, 7, 0, .wo, 0x0, false⟩,
   ⟨0x0D0, 1, 8, 8, .wo, 0x0, false⟩,
   ⟨0x0D4, 1, 23, 0, .wo, 0x0, false⟩,
   ⟨0x0D4, 1, 31, 24, .wo, 0x0, false⟩,
   ⟨0x0D8, 1, 13, 0, .ro, 0x0, false⟩,
   ⟨0x0DC, 1, 15, 0, .rc, 0x0, false⟩,
   ⟨0x0DC, 1, 31, 16, .rc, 0x0, false⟩,
   ⟨0x0E0, 1, 0, 0, .ro, 0x0, false⟩,
   ⟨0x0E0, 1, 31, 16, .rws, 0x0, false⟩,
   ⟨0x0E4, 1, 0, 0, .w1c, 0x0, false⟩,
   ⟨0x0E4, 1, 1, 1, .w1c, 0x0, false⟩,
   ⟨0x0E4, 1, 2, 2, .w1c, 0x0, false⟩,
   ⟨0x0E4, 1, 10, 8, .rw, 0x0, false⟩]

/-- The block-specific fields of the PWR page. -/
def fieldsPwr : List FieldSpec :=
  [⟨0x080, 1, 8, 0, .rw, 0x118, false⟩,
   ⟨0x080, 1, 16, 16, .ro, 0x0, false⟩,
   ⟨0x084, 1, 5, 0, .rw, 0x1E, false⟩,
   ⟨0x084, 1, 6, 6, .ro, 0x0, false⟩,
   ⟨0x088, 1, 0, 0, .rw, 0x0, false⟩,
   ⟨0x088, 1, 2, 1, .ro, 0x0, false⟩,
   ⟨0x08C, 1, 15, 0, .rw, 0x0, false⟩,
   ⟨0x090, 1, 5, 0, .rw, 0x5, false⟩,
   ⟨0x094, 1, 15, 0, .ro, 0x0, false⟩,
   ⟨0x094, 1, 31, 16, .ro, 0x0, false⟩,
   ⟨0x098, 1, 15, 0, .ro, 0x0, false⟩,
   ⟨0x09C, 1, 4, 0, .ro, 0x0, false⟩,
   ⟨0x09C, 1, 10, 5, .ro, 0x0, false⟩,
   ⟨0x0A0, 1, 31, 0, .ro, 0x0, false⟩,
   ⟨0x0A4, 1, 31, 0, .ro, 0x0, false⟩,
   ⟨0x0A8, 1, 15, 0, .rc, 0x0, false⟩,
   ⟨0x0A8, 1, 31, 16, .rc, 0x0, false⟩,
   ⟨0x0AC, 1, 7, 0, .rw, 0x0, false⟩,
   ⟨0x0B0, 1, 15, 0, .ro, 0x32C8, false⟩,
   ⟨0x0B0, 1, 31, 31, .ro, 0x0, false⟩,
   ⟨0x100, 16, 4, 0, .ro, 0x0, false⟩,
   ⟨0x100, 16, 5, 5, .ro, 0x0, false⟩,
   ⟨0x100, 16, 6, 6, .ro, 0x0, false⟩,
   ⟨0x100, 16, 31, 16, .ro, 0x0, false⟩,
   ⟨0x140, 4, 6, 6, .ro, 0x0, false⟩,
   ⟨0x140, 4, 31, 16, .ro, 0x0, false⟩]

/-- The block-specific fields of the THM page. -/
def fieldsThm : List FieldSpec :=
  [⟨0x080, 1, 7, 0, .ro, 0x0, false⟩,
   ⟨0x080, 1, 15, 8, .ro, 0x0, false⟩,
   ⟨0x080, 1, 17, 16, .ro, 0x0, false⟩,
   ⟨0x084, 1, 7, 0, .rw, 0x0, false⟩,
   ⟨0x088, 1, 7, 0, .ro, 0x0, false⟩,
   ⟨0x088, 1, 8, 8, .ro, 0x0, false⟩,
   ⟨0x08C, 1, 15, 0, .rc, 0x0, false⟩,
   ⟨0x08C, 1, 31, 16, .rc, 0x0, false⟩]

/-- The block-specific fields of the GDE page. -/
def fieldsGde : List FieldSpec :=
  [⟨0x080, 1, 3, 0, .ro, 0x0, false⟩,
   ⟨0x080, 1, 4, 4, .ro, 0x0, false⟩,
   ⟨0x080, 1, 10, 8, .ro, 0x3, false⟩,
   ⟨0x080, 1, 11, 11, .ro, 0x1, false⟩,
   ⟨0x080, 1, 31, 16, .ro, 0x0, false⟩,
   ⟨0x084, 1, 15, 0, .ro, 0x0, false⟩,
   ⟨0x084, 1, 23, 16, .ro, 0x7, false⟩,
   ⟨0x084, 1, 24, 24, .ro, 0x0, false⟩,
   ⟨0x088, 1, 31, 0, .rw, 0x0, false⟩,
   ⟨0x08C, 1, 31, 0, .rw, 0x0, false⟩]

/-- The block-specific fields of the SEC page. -/
def fieldsSec : List FieldSpec :=
  [⟨0x080, 1, 3, 0, .ro, 0x0, false⟩,
   ⟨0x080, 1, 7, 4, .ro, 0x0, false⟩,
   ⟨0x080, 1, 11, 8, .ro, 0x0, false⟩,
   ⟨0x084, 1, 6, 0, .ro, 0x0, false⟩,
   ⟨0x088, 1, 7, 0, .wo, 0x0, false⟩,
   ⟨0x088, 1, 9, 8, .wo, 0x0, false⟩,
   ⟨0x088, 1, 23, 16, .ro, 0x0, false⟩,
   ⟨0x090, 2, 31, 0, .ro, 0x0, false⟩,
   ⟨0x098, 1, 7, 0, .ro, 0x0, false⟩,
   ⟨0x09C, 1, 0, 0, .wo, 0x0, false⟩,
   ⟨0x09C, 1, 1, 1, .wo, 0x0, false⟩,
   ⟨0x09C, 1, 31, 16, .ro, 0x0, false⟩,
   ⟨0x0C0, 16, 31, 0, .wo, 0x0, false⟩,
   ⟨0x100, 8, 31, 0, .ro, 0x1, false⟩,
   ⟨0x140, 32, 31, 0, .wo, 0x0, false⟩]

/-- The block-specific fields of the BOOT page. -/
def fieldsBoot : List FieldSpec :=
  [⟨0x080, 1, 3, 0, .ro, 0x0, false⟩,
   ⟨0x080, 1, 6, 4, .ro, 0x0, false⟩,
   ⟨0x080, 1, 7, 7, .ro, 0x0, false⟩,
   ⟨0x080, 1, 15, 8, .ro, 0x0, false⟩,
   ⟨0x084, 1, 31, 0, .ro, 0x0, false⟩,
   ⟨0x088, 1, 0, 0, .ro, 0x0, false⟩,
   ⟨0x088, 1, 2, 1, .ro, 0x0, false⟩]

/-- The block-specific fields of the DBG page. -/
def fieldsDbg : List FieldSpec :=
  [⟨0x080, 1, 0, 0, .rw, 0x1, false⟩,
   ⟨0x080, 1, 1, 1, .rw, 0x0, false⟩,
   ⟨0x080, 1, 2, 2, .rw, 0x0, false⟩,
   ⟨0x080, 1, 3, 3, .rw, 0x0, false⟩,
   ⟨0x084, 1, 23, 0, .rw, 0x0, false⟩,
   ⟨0x088, 1, 0, 0, .wo, 0x0, false⟩,
   ⟨0x08C, 1, 15, 0, .ro, 0x0, false⟩,
   ⟨0x08C, 1, 17, 16, .ro, 0x0, false⟩,
   ⟨0x08C, 1, 31, 18, .ro, 0x0, false⟩,
   ⟨0x090, 2, 31, 0, .ro, 0x0, false⟩,
   ⟨0x098, 1, 31, 0, .ro, 0x0, false⟩,
   ⟨0x09C, 1, 7, 0, .wo, 0x0, false⟩,
   ⟨0x09C, 1, 8, 8, .wo, 0x0, false⟩,
   ⟨0x0A0, 1, 31, 0, .rw, 0x0, false⟩,
   ⟨0x0A4, 1, 15, 0, .rw, 0x0, false⟩,
   ⟨0x0A4, 1, 27, 16, .rw, 0x0, false⟩,
   ⟨0x0A8, 1, 1, 0, .ro, 0x0, false⟩,
   ⟨0x0A8, 1, 2, 2, .ro, 0x0, false⟩,
   ⟨0x0A8, 1, 3, 3, .ro, 0x0, false⟩,
   ⟨0x100, 32, 31, 0, .ro, 0x0, false⟩]

/-- The block-specific fields of a page type. -/
def PT.fields : PT → List FieldSpec
  | .dev => fieldsDev
  | .die => []
  | .tile => fieldsTile
  | .arr => fieldsArr
  | .row => fieldsRow
  | .tst => fieldsTst
  | .l1c => fieldsL1c
  | .l2s => fieldsL2s
  | .hbm => fieldsHbm
  | .xlt => fieldsXlt
  | .bel => fieldsBel
  | .txg => fieldsTxg
  | .de => fieldsDe
  | .ce => fieldsCe
  | .fx => fieldsFx
  | .me => fieldsMe
  | .fport => fieldsFport
  | .nhl => fieldsNhl
  | .pwr => fieldsPwr
  | .thm => fieldsThm
  | .gde => fieldsGde
  | .sec => fieldsSec
  | .boot => fieldsBoot
  | .dbg => fieldsDbg

/-- The bits of BLK_ERR_STAT that exist in a page type (R53 and the table of each chapter). -/
def PT.errBits : PT → Nat
  | .dev => 0x3F3F
  | .die => 0x13F
  | .tile => 0x3F3F
  | .arr => 0x3F3F
  | .row => 0xF3F
  | .tst => 0x33F
  | .l1c => 0x13F
  | .l2s => 0xF3F
  | .hbm => 0xF3F
  | .xlt => 0x73F
  | .bel => 0x3F3F
  | .txg => 0x73F
  | .de => 0xF3F
  | .ce => 0xF3F
  | .fx => 0xF3F
  | .me => 0xF3F
  | .fport => 0x3F3F
  | .nhl => 0x3F3F
  | .pwr => 0x1F3F
  | .thm => 0xF3F
  | .gde => 0x73F
  | .sec => 0x73F
  | .boot => 0x33F
  | .dbg => 0x3F

/-- Does the page type carry a local interval counter (R34)? -/
def PT.hasLic : PT → Bool
  | .tile => true
  | .de => true
  | .ce => true
  | .fx => true
  | .me => true
  | .fport => true
  | .nhl => true
  | .gde => true
  | _ => false

/-- Pages are named by aperture offset / 4096. -/
def dieBase (d : Nat) : Nat := 0x1000 * (d + 1)

/-- A page: its type, instance within the die and die (R534, R535). -/
structure PageId where
  ty   : PT
  inst : Nat
  die  : Nat
  deriving DecidableEq, Repr

/-- Ports of a die (R14): first port and count. -/
def firstPort (d : Nat) : Nat := match d with | 0 => 0 | 1 => 4 | 2 => 9 | _ => 14
def numPorts (d : Nat) : Nat := match d with | 0 => 4 | 1 => 5 | 2 => 5 | _ => 4

/-- Die of a fabric port (R14). -/
def portDie (p : Nat) : Nat := if p < 4 then 0 else if p < 9 then 1 else if p < 14 then 2 else 3

/-- R534: the page at a page number of the aperture, none where no page lies. -/
def pageAt (pg : Nat) : Option PageId :=
  if pg < 0x1000 then
    match pg with
    | 0 => some ⟨.dev, 0, 0⟩
    | 1 => some ⟨.pwr, 0, 0⟩
    | 2 => some ⟨.sec, 0, 0⟩
    | 3 => some ⟨.boot, 0, 0⟩
    | 4 => some ⟨.dbg, 0, 0⟩
    | 5 => some ⟨.nhl, 0, 0⟩
    | _ => none
  else if pg < 0x5000 then
    let d := pg / 0x1000 - 1
    let o := pg % 0x1000
    if o < 0x10 then
      match o with
      | 0 => some ⟨.die, 0, d⟩
      | 1 => some ⟨.xlt, 0, d⟩
      | 2 => some ⟨.bel, 0, d⟩
      | 3 => some ⟨.txg, 0, d⟩
      | 4 => some ⟨.thm, 0, d⟩
      | 5 => some ⟨.gde, 0, d⟩
      | _ => none
    else if o < 0x14 then some ⟨.de, o - 0x10, d⟩
    else if o < 0x18 then some ⟨.ce, o - 0x14, d⟩
    else if o < 0x1A then some ⟨.fx, o - 0x18, d⟩
    else if o = 0x1A then some ⟨.me, 0, d⟩
    else if o < 0x20 then none
    else if o < 0x20 + numPorts d then some ⟨.fport, o - 0x20, d⟩
    else if o < 0x30 then none
    else if o < 0x33 then some ⟨.hbm, o - 0x30, d⟩
    else if o < 0x40 then none
    else if o < 0x60 then some ⟨.l2s, o - 0x40, d⟩
    else if o < 0x100 then none
    else if o < 0x100 + 0x10 * 44 then
      let t := (o - 0x100) / 0x10
      match o % 0x10 with
      | 0 => some ⟨.tile, t, d⟩
      | 1 => some ⟨.arr, t, d⟩
      | 2 => some ⟨.row, t, d⟩
      | 3 => some ⟨.tst, t, d⟩
      | 4 => some ⟨.l1c, t, d⟩
      | _ => none
    else none
  else none

/-! Page numbers of the units, by their device-wide numbers. -/
def pgDev : Nat := 0
def pgPwr : Nat := 1
def pgSec : Nat := 2
def pgBoot : Nat := 3
def pgDbg : Nat := 4
def pgNhl : Nat := 5
def pgDie (d : Nat) : Nat := dieBase d
def pgXlt (d : Nat) : Nat := dieBase d + 1
def pgBel (d : Nat) : Nat := dieBase d + 2
def pgTxg (d : Nat) : Nat := dieBase d + 3
def pgThm (d : Nat) : Nat := dieBase d + 4
def pgGde (d : Nat) : Nat := dieBase d + 5
/-- Tiles are numbered 44 x die + slot. -/
def pgTile (t : Nat) : Nat := dieBase (t / 44) + 0x100 + 0x10 * (t % 44)
def pgArr (t : Nat) : Nat := pgTile t + 1
def pgRow (t : Nat) : Nat := pgTile t + 2
def pgTst (t : Nat) : Nat := pgTile t + 3
def pgL1c (t : Nat) : Nat := pgTile t + 4
/-- Engines: DE0 to 15 are 0 to 15, CE0 to 15 are 16 to 31, FX0 to 7 are 32 to 39, ME0 to 3 are 40 to 43. -/
def engDie (e : Nat) : Nat :=
  if e < 16 then e / 4 else if e < 32 then (e - 16) / 4 else if e < 40 then (e - 32) / 2 else e - 40
def pgEng (e : Nat) : Nat :=
  if e < 16 then dieBase (e / 4) + 0x10 + e % 4
  else if e < 32 then dieBase ((e - 16) / 4) + 0x14 + (e - 16) % 4
  else if e < 40 then dieBase ((e - 32) / 2) + 0x18 + (e - 32) % 2
  else dieBase (e - 40) + 0x1A
/-- Port 18 is the host link. -/
def pgPort (p : Nat) : Nat := if p = 18 then pgNhl else dieBase (portDie p) + 0x20 + (p - firstPort (portDie p))
def pgHbm (k : Nat) : Nat := dieBase (k / 3) + 0x30 + k % 3
/-- Slices are numbered 32 x die + slice. -/
def pgL2s (s : Nat) : Nat := dieBase (s / 32) + 0x40 + s % 32

/-- The tile number of a TILE, ARR, ROW, TST or L1C page. -/
def PageId.tile (p : PageId) : Nat := 44 * p.die + p.inst
/-- The engine number of an engine page. -/
def PageId.eng (p : PageId) : Nat :=
  match p.ty with
  | .de => 4 * p.die + p.inst
  | .ce => 16 + 4 * p.die + p.inst
  | .fx => 32 + 2 * p.die + p.inst
  | _ => 40 + p.die
/-- The port number of an FPORT or NHL page. -/
def PageId.port (p : PageId) : Nat := if p.ty = .nhl then 18 else firstPort p.die + p.inst

/-- Every page of the aperture (R534). -/
def allPages : List Nat :=
  let die (d : Nat) : List Nat := (List.range 96).map (dieBase d + ·) ++
    ((List.range 44).map (fun t => (List.range 5).map (fun k => dieBase d + 256 + 16 * t + k))).flatten
  ((List.range 6) ++ ((List.range 4).map die).flatten).filter (fun pg => (pageAt pg).isSome)

end Sys2Proof.Machine
end

