-- ==== Sys2Proof/Machine/Parts.lean ====
section
/-!
DEFINITION. The parts of the machine's state: block pages, memory, caches, thread groups and tiles.
-/
namespace Sys2Proof.Machine

/-- Block states (R39). -/
inductive BState where
  | off
  | idle
  | busy
  | stopping
  | stopped
  | failed
  | spare
  | retired
  deriving DecidableEq, Repr

/-- One block page (R37): the common header, the fields of R34, and the block-specific registers that hold their own
value (`regs`, by offset; an unlisted register holds its reset value). -/
structure Blk where
  st         : BState := .off
  prev       : BState := .off
  seq        : Nat := 0
  /-- path that holds the open stop (R44) -/
  owner      : Option Path := none
  /-- BLK_CTRL.RESP per access path -/
  resp       : Tab Nat := []
  /-- stopped-only writes staged in STOPPED (R46), by offset -/
  staged     : Tab Word := []
  /-- the mode of R84, read at STOP -/
  stopMode   : Nat := 0
  progVal    : Nat := 0
  progKind   : Nat := 0
  progRes    : Nat := 0
  progOpc    : Nat := 0
  progSer    : Nat := 0
  /-- a long operation runs (R50): its starter path (none: the device itself) and its argument -/
  opRun      : Bool := false
  opBy       : Option Path := none
  opArg      : Nat := 0
  /-- BLK_PROG_ID latched per path (R52) -/
  progLatch  : Tab Nat := []
  errStat    : Word := 0
  errMask    : Word := 0
  errBit     : Nat := 0
  errValid   : Bool := false
  errCnt     : Nat := 0
  errAddr    : Nat := 0
  injSel     : Nat := 0
  injArm     : Bool := false
  injRepeat  : Bool := false
  injFired   : Bool := false
  /-- status bits that an injection under way will set (R526), and whether a real error met it -/
  injDue     : List (Nat × Bool) := []
  snapJoin   : Bool := true
  snapHeld   : Bool := false
  snapSeq    : Nat := 0
  snapWords  : List Nat := []
  lic        : Nat := 0
  steps      : Nat := 0
  meas       : Nat := 0
  ratio      : Nat := 0
  corr       : Nat := 0
  stale      : Bool := false
  valid      : Bool := false
  /-- firmware has reported the fallback of the block's noise source (R162) -/
  noiseTold  : Bool := false
  /-- state of the fallback generator of the block's noise source (R162) -/
  noiseGen   : BitVec 128 := 0
  regs       : Tab Word := []
  /-- low halves staged (R10, R11), by offset of the low half, plus 4096 for a pair that is not stopped-only -/
  pairStage  : Tab Word := []
  /-- high halves latched per path (R10): key 4096 x path + offset of the high half -/
  pairLatch  : Tab Word := []
  deriving DecidableEq, Repr

/-- Memory behind the home slices: bytes by physical address (an unlisted byte reads 0, R499 step 8), lines that carry
the uncorrectable mark (R221), and the key each line is written under when it is not the plaintext key 0 (R245, R247). -/
structure Ram where
  cells : List Host.Cell := []
  marks : Tab Unit := []
  keys  : Tab Nat := []
  deriving DecidableEq, Repr

/-- One line held in an L2 slice (R231): way and set are the key of the table that holds it. -/
structure L2Line where
  line  : Nat
  dirty : Bool
  slot  : Nat
  /-- under a clean line, the mark of the copy in HBM4 where it differs from the mark that a read of the line finds (R236,
  R240) -/
  below : Option Bool := none
  deriving DecidableEq, Repr

/-- An access that waits at its slice: held (R242, R318), or in need of room in the eviction buffer (R232). A reduce-write
carries (element, addend) pairs (R234); the last is a write of bytes by an agent that waits for nothing. -/
inductive L2Wait where
  | op (o : LineOp)
  | red (slot pa : Nat) (addends : List (Nat × Nat))
  | bytes (slot pa : Nat) (bs : List (Nat × Nat))
  deriving DecidableEq, Repr

/-- One L2 slice: lines by 17 x set + way, the eviction buffer in write-back order (R232), fills in flight with the
operation that waits for each (R231), accesses that wait in arrival order, the way used last by set (R231), and a WAY_SWAP
that has not ended DONE: the way it retires and the sets in which the spare has taken its place (R237). -/
structure L2Slice where
  lines : Tab L2Line := []
  evb   : List Nat := []
  fills : List LineOp := []
  waits : List L2Wait := []
  mru   : Tab Nat := []
  swap  : Option (Nat × Nat) := none
  bypass : Bool := false
  /-- an access was performed since the last pacing period (R458) -/
  used  : Bool := false
  /-- the set that bypass lost: each of its lines reads marked until written whole (R483), and the lines written since -/
  lostSet : Option Nat := none
  cleared : Tab Unit := []
  deriving DecidableEq, Repr

/-- A range entry (R254) as a cache holds it (R261), with the VBASE of the entry that follows it: from there on a lookup finds
another entry (R255). -/
structure XEntry where
  space  : Nat
  vbase  : Nat
  frames : Nat
  attr   : Nat
  target : Nat
  mirror : Nat
  lim    : Nat
  deriving DecidableEq, Repr

/-- One entry of a mask stack (R63, R555). Phase 0 THEN, 1 ELSE, 2 LOOP. -/
structure MEntry where
  saved    : Nat
  deferred : Nat
  t1       : Nat
  t2       : Nat
  phase    : Nat
  deriving DecidableEq, Repr

/-- A global address (R254), and whether its range is ORDERED (R259). -/
structure Glob where
  a   : Nat
  ord : Bool
  deriving DecidableEq, Repr

/-- Where an address leads (R254): a local line, a local line mirrored to a buddy, or another device. -/
inductive Dest where
  | loc (pa : Nat)
  | mir (pa : Nat) (buddy : Glob)
  | rem (g : Glob)
  deriving DecidableEq, Repr

/-- One lane of a memory access: the instruction's number in its group's issue order, lane, virtual address, where it
leads, the bytes a store carries (for an atomic: both operands). -/
structure LaneAcc where
  seq  : Nat
  lane : Nat
  va   : Nat
  dst  : Dest
  data : List Nat
  deriving DecidableEq, Repr

/-- What a store buffer entry does at its target (R273). A ZLINE is a store of 128 zero bytes. -/
inductive SbKind where
  | store
  | atomic (kind : Nat) (ret : Bool)
  | stc
  | signal
  deriving DecidableEq, Repr

/-- One store buffer entry (R273): lanes of one instruction that fall in one line. -/
structure SbEntry where
  id       : Nat
  slot     : Nat
  /-- which of the groups that have held the slot it belongs to -/
  born     : Nat
  /-- instructions whose lanes it holds (several after a merge, R274) -/
  pids     : List Nat
  kind     : SbKind
  space    : Nat
  /-- virtual line address -/
  vline    : Nat
  lanes    : List LaneAcc
  rtype    : Nat
  /-- a ZLINE has written into it -/
  zline    : Bool := false
  /-- destination register of a returning atomic or STC -/
  dreg     : Nat
  txg      : Option Nat
  released : Bool
  /-- its packet has been given to the fabric; the requests for it (R413) -/
  sent     : Bool := false
  reqs     : List Nat := []
  /-- performed at the local home slices; remote parts may be open -/
  localDone : Bool := false
  /-- the lanes of a STRICT instruction that are performed (R268) -/
  laneDone : List Nat := []
  deriving DecidableEq, Repr

/-- A synchronisation operation counted under W4 (R94). -/
inductive SyncKind where
  | fence (scope : Nat)
  | invl1
  | signal (entry : Nat)
  | txbind (handle : Nat)
  | txunbind
  deriving DecidableEq, Repr

/-- What a counted instruction still has to do. -/
inductive PKind where
  /-- load: destination register, registers per lane, access size, sign extension, lanes, region type, requests to other
  devices, reserved load; the lanes of a STRICT load that are performed, with their bytes and marks (R268) -/
  | load (d n size : Nat) (signed : Bool) (lanes : List LaneAcc) (rtype : Nat) (reqs : List Nat) (resv : Bool)
      (got : List (Nat × List Nat × Bool))
  /-- workgroup memory load, its values read at issue: (register, lane, word), lanes that read a marked line and the lowest
  offset among them -/
  | loadW (writes : List (Nat × Nat × Nat)) (bad addr : Nat)
  /-- the returning part of an atomic: completes with its store part -/
  | atomRet (store : Nat)
  /-- store: entries of the store buffer not yet performed -/
  | store (entries : Nat)
  /-- store written at issue (workgroup memory, R94) -/
  | storeW
  | arr (serial : Nat)
  | row (serial : Nat)
  | sync (k : SyncKind)
  /-- transcendental result: (register, lane, word) -/
  | longV (writes : List (Nat × Nat × Nat))
  /-- reduction result: uniform register and value -/
  | longU (sreg value : Nat)
  deriving DecidableEq, Repr

/-- One counted instruction in flight: identity in issue order, its counter W0 to W5 (R94), whether it has completed. -/
structure Pend where
  id   : Nat
  cls  : Nat
  done : Bool
  kind : PKind
  /-- the bundle that issued it (R79) -/
  raw  : Nat := 0
  deriving DecidableEq, Repr

/-- Status of a resident group (R57): running, waiting at the barrier, finished. -/
inductive GStat where
  | run
  | barrier
  | finished
  deriving DecidableEq, Repr

/-- The fault part of a group record (R79). -/
structure FaultRec where
  code      : Nat
  lanes     : Nat
  addr      : Nat
  bundle    : Nat
  imprecise : Bool
  cause     : Nat
  access    : Nat
  last      : Nat
  deriving DecidableEq, Repr

/-- A resident thread group (R55 to R64, R92). -/
structure Group where
  wg      : Nat
  /-- its number among the groups that the tile has admitted -/
  born    : Nat := 0
  idx     : Nat
  width   : Nat
  lset    : Nat
  r       : Nat
  pc      : Nat
  live    : Nat
  active  : Nat
  stack   : List MEntry := []
  /-- vector registers: key 64 x register + lane; unlisted reads 0 (R59) -/
  v       : Tab Word := []
  u       : Tab DWord := []
  p       : Tab DWord := []
  pend    : List Pend := []
  nextId  : Nat := 0
  stat    : GStat := .run
  /-- stopped for parking, or while a park-wait waits for a watch entry (R57, R299) -/
  stopped : Bool := false
  /-- reason of R72 -/
  reason  : Nat := 0
  /-- errors of older remote stores (R280) -/
  remErr  : Nat := 0
  /-- the bundle is at a park-wait: uniform register that takes the status (R297) -/
  pwaitS  : Option Nat := none
  /-- the registration of its park-wait has not been decided: it waits for a watch entry (R299), or is on its way to another
  device (R417) -/
  regWait : Bool := false
  ready   : Nat := 0
  arrived : Nat := 0
  fault   : Option FaultRec := none
  txg     : Option Nat := none
  /-- bundle fetched at an address (R112): address, bundle, literal bundle -/
  fetched : Option (Nat × Nat × Nat) := none
  /-- an ARR or ROW command offered and not yet accepted or refused (R123, R182) -/
  offer   : Option Nat := none
  /-- finished with every counter at zero (R98) -/
  ended   : Bool := false
  deriving DecidableEq, Repr

/-- The launch a workgroup belongs to (R78, R346). -/
structure LaunchKey where
  ctx    : Nat
  queue  : Nat
  serial : Nat
  deriving DecidableEq, Repr

/-- Where a workgroup stands in parking (R73, R76). -/
inductive ParkSt where
  | none
  /-- stopped, draining (R73 step 2) -/
  | draining
  /-- waits for a park slot (R76) -/
  | noSlot
  /-- the image is written, and copies or packets of it are not yet performed -/
  | writing
  /-- an image write faulted (R76) -/
  | writeFault
  /-- being killed (R361): it drains and is released without an image -/
  | killing
  deriving DecidableEq, Repr

/-- A resident workgroup (R57, R78). -/
structure Wg where
  launch  : LaunchKey
  space   : Nat
  kdesc   : Nat
  x       : Nat
  y       : Nat
  z       : Nat
  g       : Nat
  width   : Nat
  r       : Nat
  m       : Nat
  wgm     : Tab Nat := []
  /-- its 16 KiB units of the tile store's workgroup partition (R224), in the order of its own offsets -/
  units   : List Nat := []
  /-- lines of workgroup memory with the uncorrectable mark -/
  wgmMark : Tab Unit := []
  barGen  : Nat := 0
  cls     : Nat := 0
  hold    : Bool := false
  park    : ParkSt := .none
  parkReason : Nat := 0
  /-- a park with reason PREEMPT or MIGRATE waits for bindings to end (R322); 0 for none -/
  asked   : Nat := 0
  parkSlot : Option Nat := none
  /-- the dispatch engine that placed it -/
  eng     : Nat := 0
  /-- fence status word (R280), 0 for none; bits recorded when there is none -/
  fsw     : Nat := 0
  fswBits : Nat := 0
  deriving DecidableEq, Repr

/-- A loaded region entry (R271). -/
structure RgnSlot where
  launch : LaunchKey
  base   : Nat
  pages  : Nat
  typ    : Nat
  deriving DecidableEq, Repr

/-- One line copy in the L1 (R228): space and virtual line, its bytes, its mark. Most recently used first. -/
structure L1Line where
  space : Nat
  vline : Nat
  data  : List Nat
  mark  : Bool
  deriving DecidableEq, Repr

/-- Stage of an array command (R123, R140, R146). -/
inductive ArrStage where
  | offered
  | accepted
  | computing
  | drained
  | held
  | delivering
  deriving DecidableEq, Repr

/-- An operand of an array command as its descriptor gives it, or as its workgroup memory layout does (R132, R135, R136).
Kind 0 none, 1 workgroup memory, 2 global memory. -/
structure ArrOpd where
  kind    : Nat
  base    : Nat
  sbase   : Nat
  listed  : Bool
  list    : List Nat
  listLen : Nat
  qstride : Nat
  bstride : Nat
  trans   : Bool
  saxis   : Bool
  orgR    : Nat
  orgC    : Nat
  extR    : Nat
  extC    : Nat
  deriving DecidableEq, Repr

/-- An array command in hand: the 256-bit command, the group and workgroup that issued it, its pinned output, results. -/
structure ArrCmd where
  serial : Nat
  slot   : Nat
  wg     : Nat
  space  : Nat
  words  : List Nat
  stage  : ArrStage
  /-- operands A, B, C as read during acceptance (R123, R135) -/
  opds   : List ArrOpd := []
  /-- the fusion entry and row descriptor read during acceptance (R199): two words, 128 bytes -/
  fuseW  : List Nat := []
  fuseD  : List Nat := []
  /-- number in the tile's order of A-slot commands (R181); where its lines lead, by virtual line number (R262) -/
  aseq   : Nat := 0
  xl     : Tab Dest := []
  /-- the pinned set (R262): range entries, by base; and the entry of each line that uses none of them, by line number -/
  pins   : List Nat := []
  far    : Tab Nat := []
  /-- element results in the output format, after the drain, in the order of the accumulators -/
  out    : List Nat
  /-- accumulators before conversion, FP32 or INT32 codes: problem by problem, row by row (R140) -/
  acc    : List Nat
  /-- the accumulator bank of the data cells and the hem cells that it computes on (R114) -/
  bank   : Nat := 0
  /-- the accumulators of the hem cells on that bank (R114, R143): checksum and magnitude, by cell (`hemRow`, `hemCol`,
  `hemCorner`); the cells whose check a value that is not finite leaves out (R144) -/
  hem    : Tab (Nat × Nat) := []
  hemNan : List Nat := []
  /-- the hem cells that gave up their check, each with the K positions in its full capture buffer (R119) -/
  gave   : Tab (List Nat) := []
  /-- an accumulator of it held another value than its operands give, where an injection did not put it there -/
  real   : Bool := false
  /-- the line of the drain buffer whose word was found uncorrectable (R227) -/
  badLine : Option Nat := none
  /-- a check of it has been counted as skipped -/
  skipped : Bool := false
  /-- the armed detector that its check takes (R525), 0 for none; the located cell of its last failure: logical row and
  column, physical row and column, 255 for not located -/
  inj    : Nat := 0
  loc    : List Nat := []
  recomp : Nat
  poison : Bool
  marked : Bool
  mapUsed : Nat
  deriving DecidableEq, Repr

/-- A located cell of the hem history (R147): physical row and column. -/
structure HemLoc where
  prow   : Nat
  pcol   : Nat
  deriving DecidableEq, Repr

/-- The matrix array of a tile. -/
structure Arr where
  cmds    : List ArrCmd := []
  nserial : Nat := 0
  done    : Nat := 0
  hist    : List HemLoc := []
  lastMode : Nat := 0
  /-- the bank of the command that began last (R114) -/
  bank    : Nat := 0
  /-- cells located a second time, retired at the next command start (R147): physical row and column -/
  retire  : List (Nat × Nat) := []
  deriving DecidableEq, Repr

/-- Stage of a row engine command. -/
inductive RowStage where
  | offered
  | accepted
  | computed
  deriving DecidableEq, Repr

/-- A row engine command in hand. -/
structure RowCmd where
  serial : Nat
  slot   : Nat
  wg     : Nat
  space  : Nat
  words  : List Nat
  stage  : RowStage
  /-- the row descriptor read during acceptance (R182) and its mark -/
  desc   : List Nat := []
  marked : Bool := false
  aseq   : Nat := 0
  xl     : Tab Dest := []
  /-- the pinned set, and the lines beyond it (R262), as in `ArrCmd` -/
  pins   : List Nat := []
  far    : Tab Nat := []
  deriving DecidableEq, Repr

/-- One line of the statistics cache (R197): space, virtual line, its bytes, which of its 16 rows are valid. -/
structure SLine where
  space : Nat
  vline : Nat
  data  : List Nat
  valid : Nat
  mark  : Bool := false
  deriving DecidableEq, Repr

/-- The row engine of a tile. -/
structure Row where
  cmds    : List RowCmd := []
  nserial : Nat := 0
  /-- statistics cache, most recently used first -/
  scache  : List SLine := []
  /-- items of work begun: consecutive items use the working halves alternately (R195) -/
  items   : Nat := 0
  deriving DecidableEq, Repr

/-- A line that PREF asked for and that waits at its slice (R108, R318): space, virtual line, physical address. -/
structure Pref where
  space : Nat
  vline : Nat
  pa    : Nat
  deriving DecidableEq, Repr

/-- Errors of the remote stores of a group that has ended (R280): launch, space, fence status word, bits. -/
structure Orphan where
  launch : LaunchKey
  space  : Nat
  fsw    : Nat
  born   : Nat
  bits   : Nat
  deriving DecidableEq, Repr

/-- One physical tile: its thread core, store buffer, L1, array, row engine, noise source and counters. -/
structure Tile where
  wgs     : Tab Wg := []
  groups  : Tab Group := []
  /-- resident groups, oldest first (R60) -/
  age     : List Nat := []
  /-- steps for which the transcendental unit is still held (R61) -/
  txBusy  : Nat := 0
  sb      : List SbEntry := []
  /-- stores accepted early by a fabric port or the interconnect and not yet performed (DEV_EA, R269) -/
  posted  : List SbEntry := []
  nextSb  : Nat := 0
  /-- groups admitted so far; the groups that have ended with stores accepted early and not performed -/
  nborn   : Nat := 0
  orphans : List Orphan := []
  rgn     : List RgnSlot := []
  l1      : List L1Line := []
  /-- number of the first request to another device made since the L1 was last invalidated whole -/
  l1Req   : Nat := 0
  prefs   : List Pref := []
  /-- parks asked for after the workgroup's last group had finished: workgroup and reason (NOTHING_TO_PARK, R77) -/
  noPark  : List (Nat × Nat) := []
  arr     : Arr := {}
  row     : Row := {}
  /-- number of the next A-slot command offered (R181) -/
  aNext   : Nat := 0
  perf    : Tab Nat := []
  /-- room made by preemption is kept for this launch's workgroup (R377, R378): queue and serial -/
  room    : Option (Nat × Nat) := none
  deriving DecidableEq, Repr

end Sys2Proof.Machine
end

