-- ==== Sys2Proof/Machine/Parts2.lean ====
section
/-!
DEFINITION. The parts of the machine's state: events, belay watches, transaction groups, HBM stacks, requests to other
devices.
-/
namespace Sys2Proof.Machine

/-- An event on its way to a host event ring (R444, R445): the ring, KIND, TAG, VALUE, INFO, and the continuation record
(R264) when the event has one. -/
structure Ev where
  ring  : Nat
  kind  : Nat
  tag   : Nat := 0
  value : Nat := 0
  info  : Nat := 0
  cont  : Option (List Nat) := none
  deriving DecidableEq, Repr

/-- Whom a watch notifies (R296). -/
inductive WKind where
  /-- a park-wait: launch, workgroup index x, y, z, group index, uniform register that takes the status (R297) -/
  | group (l : LaunchKey) (x y z idx sreg : Nat)
  /-- a WAIT command: queue and serial -/
  | queue (q serial : Nat)
  /-- a WATCH command: ring, tag, owning queue -/
  | host (ring tag q : Nat)
  /-- a registration from another device: device, its registration number -/
  | rem (dev reg : Nat)
  deriving DecidableEq, Repr

/-- A watch (R293): counter's physical address (or, for a REMOTE counter, its global address), target, key slot of the
registering space (R294), the value at the previous evaluation (R292), registration order. -/
structure Watch where
  id     : Nat
  pa     : Nat
  target : Nat
  slot   : Nat
  space  : Nat
  last   : Nat
  kind   : WKind
  deriving DecidableEq, Repr

/-- A watch that has ended and whose notification has not yet taken effect (R293, R306): status and counter value. -/
structure Ended where
  w      : Watch
  status : Nat
  value  : Nat
  deriving DecidableEq, Repr

/-- The belay unit of a die (R289 to R306). -/
structure Bel where
  armed    : List Watch := []
  waitl    : List Watch := []
  ended    : List Ended := []
  /-- watches that have ended while the page was out of service: their notifications are sent when it returns -/
  held     : List Ended := []
  /-- WATCH_FULL has been set and the wait list has not emptied since (R299) -/
  fullTold : Bool := false
  /-- registrations of other devices on the wait list, by watch number: the packets to answer at their admission (R417) -/
  late     : List (Nat × Packet) := []
  /-- registrations on counters of other devices, ended by NOTIFY_PACKET (R296) -/
  remote   : List (Nat × Watch) := []
  /-- abandoned ranges: first frame, number of frames (R303), by first frame -/
  aband    : Tab Nat := []
  nextId   : Nat := 0
  spareUsed : Nat := 0
  /-- entries retired with no spare left (R305) -/
  shrunk   : Nat := 0
  deriving DecidableEq, Repr

/-- States of a transaction group (R308); `free` is a slot whose last TXG is gone. -/
inductive TxSt where
  | free
  | opened
  | committing
  | committed
  | aborted
  deriving DecidableEq, Repr

/-- A staged line (R313): bytes written by offset, mark, key slot it is written under. -/
structure StLine where
  bytes : Tab Nat
  mark  : Bool
  slot  : Nat
  deriving DecidableEq, Repr

/-- One of the 64 slots of a commit sequencer (R307). -/
structure Txg where
  st     : TxSt := .free
  gen    : Nat := 0
  space  : Nat := 0
  queue  : Nat := 0
  /-- the end recorded: committed, or the cause of the abort (R321) -/
  ended  : Option Nat := none
  lines  : Tab StLine := []
  /-- LIFETIME of its TXG_OPEN, coded as TIMEOUT [17:0] (R343) -/
  life   : Nat := 0
  /-- command waiting for the commit point: queue and serial -/
  by_    : Option (Nat × Nat) := none
  /-- an anchor commits it (R422) -/
  anchor : Bool := false
  deriving DecidableEq, Repr

/-- State of an HBM stack that is no register (R240 to R244). -/
structure Stack where
  /-- pseudo-channels declared lost, accesses held until the redirect -/
  heldPch  : List Nat := []
  /-- redirected: every line reads marked until written whole; `rewritten` lists the lines written since -/
  redirPch : List Nat := []
  rewritten : Tab Unit := []
  fenced   : List Nat := []
  /-- rows remapped into the spare pool (a physical address in the row), each with the pseudo-channel whose spare region
  holds it (R241) -/
  remap    : List (Nat × Nat) := []
  /-- remapped rows lost with the spare region that held them (R242) -/
  lostRows : List Nat := []
  deriving DecidableEq, Repr

/-- An event ring (R443, R444): enabled, base, log2 of its slots, slots written since it was enabled, slots the host has
consumed (modulo 2^24), events discarded since the last record. -/
structure Ring where
  on       : Bool := false
  base     : Nat := 0
  size     : Nat := 0
  written  : Nat := 0
  consumed : Nat := 0
  dropped  : Nat := 0
  deriving DecidableEq, Repr

/-- A host access of the memory window that waits for a held line or for another device (R441): offset in the window, space and
virtual address, write or read, its bytes (of a read, as many as it asks for). -/
structure WinAcc where
  off   : Nat
  space : Nat
  va    : Nat
  write : Bool
  data  : List Nat
  deriving DecidableEq, Repr

/-- A host access that waits for older ones of its path (R439): of the memory window, of the page of queue `q` in the doorbell
aperture, of the register aperture; a read has no value. -/
inductive HostAcc where
  /-- one that has begun, under the window's setting of that moment (R441) -/
  | win (a : WinAcc)
  | mem (tag off : Nat) (write : Bool) (data : List Nat)
  | door (q tag off size : Nat) (v : Option Nat)
  | reg (tag off size : Nat) (v : Option Nat)
  deriving DecidableEq, Repr

/-- Who waits for the answer of a request to another device. -/
inductive ReqOwner where
  | sb (tile entry : Nat)
  | load (tile slot pend : Nat)
  | cmd (q serial : Nat)
  | fetch (tile slot : Nat)
  /-- an array or row engine command, by its number in the tile's A-slot order -/
  | aslot (tile n : Nat)
  | watch (die id : Nat)
  | notify (die id : Nat)
  /-- an arriving packet that this device performs by a request of its own: its target range leads on, or is mirrored -/
  | relay (k : Packet)
  /-- a read or an atomic at a virtual address of a space by an agent: the agent of R261, the space, the address -/
  | virt (ag space va : Nat)
  /-- a line that PREF asked for: tile, space, virtual line (R108) -/
  | pref (tile space vline : Nat)
  /-- a part of the park image of a workgroup -/
  | park (tile wg : Nat)
  | none
  deriving DecidableEq, Repr

/-- A request to another device, unanswered or answered and not yet taken by its owner (R409, R413): sent on a port, or
waiting (for a run, R416, a route, R412, or a resync, R431); handed back by its port; answered BUSY; past its resend
deadline; alternates that have failed it; acknowledged early (R420); the result once decided. -/
structure Req where
  id     : Nat
  k      : Packet
  owner  : ReqOwner
  port   : Nat := 18
  sent   : Bool := false
  handed : Bool := false
  busy   : Bool := false
  late   : Bool := false
  tried  : List Nat := []
  early  : Bool := false
  /-- it has taken its serial (R416) -/
  numbered : Bool := false
  /-- the mirror copy of a store: space, base of its range entry, buddy (R260, R495) -/
  mir    : Option (Nat × Nat × Nat) := none
  /-- 0 done, 1 REMOTE_ERR, 2 REMOTE_LOST, 3 TXG_ABORTED -/
  res    : Option Nat := none
  cause  : Nat := 0
  data   : List Nat := []
  marked : Bool := false
  deriving DecidableEq, Repr

/-- What the header of a flit gives back (R387, R388): ACK, CVC, CREDITS. Before the first flit in order ACK is 4,095, which names
none. -/
structure Back where
  ack     : Nat
  cvc     : Nat
  credits : Nat
  deriving DecidableEq, Repr

/-- A flit sent and not acknowledged (R389): its sequence number, type (1 DATA, 4 KEYX), the packet it carries, the number
of the request it belongs to, key phase and count under its key (R395), and what its header gave back when it was first sent. -/
structure TxFlit where
  seq   : Nat
  typ   : Nat
  pkt   : Option Packet
  req   : Option Nat
  phase : Nat
  n     : Nat
  back  : Back
  deriving DecidableEq, Repr

/-- Unsequenced flits that a port sends. -/
inductive Ctrl where
  | idle
  | nak
  | init (enc : Bool) (bad : Nat)
  | rollcall (r : RollCall)
  | loss (dev epoch : Nat)
  | join (dev epoch : Nat)
  | depart
  | heartbeat
  | retrain (bad : Nat)
  deriving DecidableEq, Repr

/-- A fabric port, or the host link (port 18), beyond its registers (R381 to R398). -/
structure Port where
  /-- next sequence number to send, next expected, and whether flits are discarded until the replay (R389) -/
  txSeq   : Nat := 0
  rxSeq   : Nat := 0
  discard : Bool := false
  retry   : List TxFlit := []
  /-- full training follows a failed fast retrain (R392) -/
  refail  : Bool := false
  /-- replays of the oldest unacknowledged flit (R390) -/
  replays : Nat := 0
  /-- credits held per virtual channel, and receive buffers freed and not yet returned (R388) -/
  credits : List Nat := [0, 0, 0, 0]
  freed   : List Nat := [0, 0, 0, 0]
  /-- packets routed to the port that wait for a credit or room, with their requests -/
  waitq   : List (Packet × Option Nat) := []
  /-- keys in use for each direction (key and salt as one number), the previous receive key, key phases and counts -/
  txKey   : Option Nat := none
  rxKey   : Option Nat := none
  oldRx   : Option Nat := none
  nextTx  : Option Nat := none
  txPhase : Nat := 0
  rxPhase : Nat := 0
  txN     : Nat := 0
  rxN     : Nat := 0
  /-- own public key and nonce of a KEYX in progress; a rekey while UP -/
  keyx    : Option (Nat × Nat) := none
  rekey   : Bool := false
  lsym    : List Nat := []
  /-- the partner's minor version in use, once UP -/
  minor   : Nat := 1
  out     : List (Ctrl × Back) := []
  deriving DecidableEq, Repr

/-- A run of a stream to one destination at its source (R416): first serial, next serial, unanswered packets. -/
structure Run where
  first : Nat
  next  : Nat
  open_ : Nat
  deriving DecidableEq, Repr

/-- A landing entry (R417): die, source, stream, the first serial of the run, and the serials landed. -/
structure Landing where
  die    : Nat
  src    : Nat
  stream : Nat
  first  : Nat
  landed : List Nat
  deriving DecidableEq, Repr

end Sys2Proof.Machine
end

