-- ==== Sys2Proof/Machine/Parts3.lean ====
section
/-!
DEFINITION. The parts of the machine's state: queues, engines, commands in hand, launches.
-/
namespace Sys2Proof.Machine

/-- The doorbell logic of a queue (R333): latch, pending bit, published idle, and the latch value its engine last read. -/
structure QLive where
  latch : Nat := 0
  pend  : Bool := false
  idle  : Bool := true
  seen  : Nat := 0
  deriving DecidableEq, Repr

/-- What a command engine keeps between commands: the last queue served in each class (R331 step 3; the highest number before the first), commands started per class since the
set of ready classes last changed (step 2), the slot after the one that last admitted on each die (R22), long operations
started (R50). -/
structure Eng where
  lastQ : Tab Nat := []
  ready : List Nat := []
  begun : Tab Nat := []
  rot   : Tab Nat := []
  ops   : Nat := 0
  /-- the last command started: queue and serial (R522) -/
  last  : Option (Nat × Nat) := none
  deriving DecidableEq, Repr

/-- Where a fetched command stands: fetched and not started, in execution, a WAIT whose watch is armed (R330). -/
inductive CStage where
  | fetched
  | running
  | armed
  deriving DecidableEq, Repr

/-- A long operation of the management engine (R50, R355): operation code, serial, progress value, items. -/
structure OpRec where
  opc   : Nat
  ser   : Nat
  value : Nat
  items : Nat
  deriving DecidableEq, Repr

/-- A command fetched and not ended (R335 to R343). -/
structure Cmd where
  q        : Nat
  serial   : Nat
  eng      : Nat
  space    : Nat
  /-- its 128 bytes -/
  body     : List Nat
  stage    : CStage := .fetched
  /-- addresses its references relocate to, by offset in the body (R341) -/
  refs     : List (Nat × Nat) := []
  /-- handle table entries whose INFLIGHT it holds raised (R342), in the order relocated -/
  inflight : List Nat := []
  /-- TIMEOUT of its queue, read at its start (R357) -/
  tmo      : Nat := 0
  /-- status bits of R337 bits 16 to 20 -/
  flags    : Nat := 0
  /-- its own row has acted -/
  ran      : Bool := false
  /-- a kill request on its way to the command: its cause (R361); the command has expired under STOP (R357) -/
  asked    : Option Nat := none
  expired  : Bool := false
  /-- kill in progress: its cause (R362) -/
  killed   : Option Nat := none
  /-- the end decided: status, INFO, DETAIL (R337) -/
  res      : Option (Nat × Nat × List Nat) := none
  /-- its record has been written and a copy or packet of it is not yet performed (R260, R337): with it goes the status that
  OP_ABORTs waiting for the command end with (R365) -/
  ending   : Option Nat := none
  /-- lines written or sent (R362) -/
  count    : Nat := 0
  /-- requests to other devices not yet answered -/
  reqs     : List Nat := []
  /-- its watch: die and number -/
  watch    : Option (Nat × Nat) := none
  /-- dies that have acknowledged or finished the present stage (R367, R374) -/
  acks     : List Nat := []
  stageNo  : Nat := 0
  op       : Option OpRec := none
  /-- pairs of numbers that the operation keeps: tile and workgroup of its parks, the target it waits for -/
  aux      : List (Nat × Nat) := []
  deriving DecidableEq, Repr

/-- A parked workgroup as its dispatch engine knows it (R73 step 5, R351): index, park slot, image address, whether every
group carries an automatic reason, GROUP watches not ended (R297), replay held after a PREEMPT command (R379). -/
structure Parked where
  x     : Nat
  y     : Nat
  z     : Nat
  slot  : Nat
  image : Nat
  auto  : Bool
  waits : Nat
  held  : Bool
  deriving DecidableEq, Repr

/-- A launch in execution (R346 to R349). -/
structure Launch where
  q      : Nat
  serial : Nat
  ctx    : Nat
  space  : Nat
  eng    : Nat
  prio   : Nat
  kdesc  : Nat
  code   : Nat
  width  : Nat
  g      : Nat
  r      : Nat
  m      : Nat
  /-- region entries: base, pages, type (R270) -/
  rgn    : List (Nat × Nat × Nat)
  wx     : Nat
  wy     : Nat
  wz     : Nat
  phase  : Nat
  dies   : Nat
  args   : List Nat
  fstat  : Nat
  /-- workgroups admitted so far; the tiles that have refused the next one in this pass (R22); the tiles that have admitted one -/
  next   : Nat := 0
  tried  : List Nat := []
  tiles  : List Nat := []
  parked : List Parked := []
  /-- workgroups ended, and of these abandoned -/
  ended  : Nat := 0
  aband  : Nat := 0
  /-- fence status bits of a launch that names no word (R280) -/
  fsBits : Nat := 0
  killed : Bool := false
  deriving DecidableEq, Repr

end Sys2Proof.Machine
end

