-- ==== Sys2Proof/Machine/Parts4.lean ====
section
/-!
DEFINITION. The parts of the machine's state: power and heat, spares and replacements, guide clusters, flash, cables.
-/
namespace Sys2Proof.Machine

/-- A temperature sensor (R468): its last reading in °C, whether it answers, samples in a row at or above its trip
temperature (R470). -/
structure Sensor where
  temp : Nat
  ok   : Bool
  hits : Nat
  deriving DecidableEq, Repr

/-- A phase tag's learned demand (R460): in units of 2^-20 mW, and the periods it has been refined in. -/
structure Demand where
  dem     : Nat
  periods : Nat
  deriving DecidableEq, Repr

/-- The pacing controller, the converter and the sensors (R454 to R470). Supplies: core rail n is n, VS(d) is 16 + d. -/
structure Pwr where
  /-- thermal ceilings by rail (unlisted 30), and periods in a row in which a rail was cool enough to rise (R469) -/
  ceil     : Tab Nat := []
  cool     : Tab Nat := []
  /-- rails at code 0 only because nothing on them worked in the last period (R458, R491) -/
  idle     : List Nat := []
  dems     : Tab Demand := []
  /-- p_fixed in mW and the idle power of each rail in mW, as firmware measured them (R459, R460) -/
  fixed    : Nat := 0
  idleW    : Tab Nat := []
  /-- periods in a row with estimate and measurement more than 15 % of the cap apart, and within 5 % (R464, R465) -/
  apart    : Nat := 0
  close    : Nat := 0
  /-- the estimate of the last period, in mW (R462) -/
  est      : Nat := 0
  /-- codes that the fast limit has taken off the points since the last period (R462) -/
  fastDrop : Nat := 0
  /-- energy in µJ (R467) -/
  energy   : Nat := 0
  /-- sensors by 256 x die + index -/
  sensors  : Tab Sensor := []
  /-- dies whose hottest state is HOT; inlet at or above 40 °C; sensors that have failed (R469) -/
  hot      : List Nat := []
  coolant  : Bool := false
  lost     : List Nat := []
  /-- the input is outside 48 V to 56 V: 1 in the near bands, 2 in the outer bands (R454) -/
  band     : Nat := 0
  /-- supplies in a droop excursion and their voltage in mV (R457) -/
  droops   : Tab Nat := []
  /-- phases lost by supply (R485) -/
  phases   : Tab Nat := []
  tripped  : Bool := false
  /-- PWR_CAP, PWR_VCEIL, PWR_MODE, PWR_RAMP, PWR_DIV as the last period has read them (R458), by offset -/
  read     : Tab Word := []
  deriving DecidableEq, Repr

/-- Where the work on a tile's replacement or self-test stands (R479, R493). -/
inductive ReplSt where
  /-- the tile is stopping -/
  | stopping
  /-- under test -/
  | testing
  deriving DecidableEq, Repr

/-- A replacement or self-test of a physical tile in progress: trigger (R478), logical tile, the spare that takes its work,
whether it is a self-test, and the command that asked for it. -/
structure Repl where
  trig    : Nat
  logical : Nat
  spare   : Option Nat
  test    : Bool
  by_     : Option (Nat × Nat)
  st      : ReplSt
  deriving DecidableEq, Repr

/-- Guide clusters (R20, R488, R489): which cluster runs each die's duties and which the device-wide ones, heartbeats by die,
triggers that wait for a replacement and uncorrectable errors counted, by tile (R478). -/
structure Guide where
  duty    : List Nat := [0, 1, 2, 3]
  dev     : Nat := 0
  beats   : Tab Nat := []
  trigs   : Tab Nat := []
  regUe   : Tab Nat := []
  storeUe : Tab Nat := []
  repls   : Tab Repl := []
  /-- mask of retired guide cores, by die (R488) -/
  coresBad : Tab Nat := []
  /-- oscillator in use, mask of failed ones (R486) -/
  osc     : Nat := 0
  oscBad  : Nat := 0
  /-- failed die-to-die edges (R17): 0 D0-D1, 1 D2-D3, 2 D0-D2, 3 D1-D3 -/
  edges   : List Nat := []
  deriving DecidableEq, Repr

/-- The boot flash (R502, R508): by bank the SEQ and records of the card copy, the firmware release in it; key slots revoked
and usage fuses, floor fuses (R509). It keeps its content at the loss of 52 V. -/
structure Flash where
  copies  : Tab (Nat × Tab Nat) := []
  badBank : Nat := 0
  rels    : Tab Nat := []
  active  : Nat := 0
  revoked : Nat := 0
  floor   : Nat := 0
  deriving DecidableEq, Repr

/-- A fabric connector's port (R547 to R549): a cable is in it, its 3.3 V is on, switched off for overload until the cable
goes, the identity word read, firmware has read or tried to read it. -/
structure Cable where
  present : Bool := false
  power   : Bool := false
  overI   : Bool := false
  ident   : Option Nat := none
  read    : Bool := false
  deriving DecidableEq, Repr

end Sys2Proof.Machine
end

