-- ==== Sys2Proof/Machine/State.lean ====
section
/-!
DEFINITION. The state of the GW7, its faults and refusals, and the state at reset.
-/
namespace Sys2Proof.Machine

/-- Reasons the model stops with a fault. -/
inductive Fault where
  /-- Raised by L2_LINE_ACCESS, REDUCE_WRITE, HBM_FILL_RETURN and EVICTION_WRITEBACK naming a physical line that does not
  exist (R222: frames 95,232 to 131,071 and addresses with a bit above 39 set). Safe: the machine has no such line, and
  every access the device itself makes is refused by the walker before it (R251). -/
  | noSuchLine (pa : Nat)
  deriving DecidableEq, Repr

/-- Reasons the model refuses a command. -/
inductive Refusal where
  /-- Raised by an arm of exec for a command that has no meaning yet. Safe: nothing is proved of it. -/
  | notModelled (mnemonic : String)
  deriving DecidableEq, Repr

/-- An error report on its way to a guide cluster (R53, R523). -/
structure Report where
  page : Nat
  bit  : Nat
  /-- BLK_ERR_STAT, BLK_ERR_ADDR and the local interval count at the report -/
  stat : Nat
  addr : Nat
  lic  : Nat
  /-- the wavefront it started: 65536 + SEQ, none 0 -/
  cairn : Nat
  inj  : Bool
  also : Bool
  deriving DecidableEq, Repr

/-- The whole machine. -/
structure State where
  /-- waiting commands, first in, first out (model's own) -/
  pending : List Instr := []
  /-- counter of the free values taken so far (model's own) -/
  fresh   : Nat := 0
  /-- ordering number GW7-768-E (true) or GW7-768-S (R2) -/
  partE   : Bool := false
  /-- the device has passed the steps of boot that put blocks in service (R499) -/
  booted  : Bool := false
  /-- last value a register or memory window read returned, per path (host 0, clusters 1 to 4) -/
  bus     : Tab Nat := []
  blks    : Tab Blk := []
  reports : List Report := []
  ram     : Ram := {}
  /-- memory of the host that the event rings use (R443) -/
  host    : List Host.Cell := []
  rings   : Tab Ring := []
  /-- the pending store of R446, oldest first -/
  evpend  : List Ev := []
  /-- what the device has answered on the sideband (R451), oldest first -/
  answers : List (List Nat) := []
  /-- MOD_PWR_GOOD; MOD_RESET_N held low; the device has left service (R18, R447) -/
  pwrGood : Bool := false
  resetLow : Bool := false
  leftService : Bool := false
  l2      : Tab L2Slice := []
  /-- range caches (R261): tile t at t, engine e at 1000 + e, die d at 2000 + d, the memory window at 3000 -/
  xcache  : Tab (List XEntry) := []
  tiles   : Tab Tile := []
  /-- KEY changes that SPACE_SET has made and SPACE_RESTART applies (R253): space, key slot left -/
  keyDue  : List (Nat × Nat) := []
  /-- reservations in force (R281): granule, tile, group slot -/
  resvs   : List (Nat × Nat × Nat) := []
  /-- granules whose held LDRs are served although a reservation stands (R283) -/
  served  : List Nat := []
  /-- LDRs held at their slices, in arrival order (R283): granule, tile, group slot, number in the group's issue order -/
  ldrs    : List (Nat × Nat × Nat × Nat) := []
  bels    : Tab Bel := []
  /-- transaction groups by 64 x die + slot -/
  txgs    : Tab Txg := []
  stackTab : Tab Stack := []
  /-- key slots 1 to 255 that hold a key (R245, R499 step 11, R513): Key1 in the low 256 bits, Key2 above -/
  keys    : Tab Nat := []
  /-- step 5 of the start has verified the firmware (R511); the debug nonce shown has served a submission (R514) -/
  verified : Bool := false
  nonceUsed : Bool := false
  /-- key slot of the debug token in force, none 0 (R511, R514); the key generator's health test has failed (R512) -/
  tokenSlot : Nat := 0
  entropyBad : Bool := false
  /-- events that have arisen and not reached the rings or the pending store (R445) -/
  evq     : List Ev := []
  /-- requests to other devices, unanswered -/
  reqs    : List Req := []
  nextReq : Nat := 0
  /-- the wavefront that is spreading (R520): the pages it has reached -/
  wave    : Option (Tab Unit) := none
  /-- pulses driven on TRIG_OUT (R521) -/
  trigOut : Nat := 0
  /-- fabric ports 0 to 17 and the host link 18 -/
  ports   : Tab Port := []
  /-- the route card (R502 to R507) as the running firmware knows it: records by 2^48 x TYPE + unit; and those changed and
  not yet written -/
  card    : Tab Nat := []
  cardDue : Tab Nat := []
  flash   : Flash := {}
  /-- a start holds before step 2 for MOD_RESET_N, or is stopped after 8 failures (R506, R545) -/
  startHeld : Bool := false
  /-- a warm reset drains the store buffers (R285) -/
  draining : Bool := false
  /-- placement of logical tiles that differs from R476's first one: physical tile, 176 unplaced; placement changes (R477) -/
  places  : Tab Nat := []
  moves   : Tab Nat := []
  pwr     : Pwr := {}
  guide   : Guide := {}
  cables  : Tab Cable := []
  /-- error records written since power-up (R523) -/
  records : Nat := 0
  /-- the domain map (R403): device, port and the far device, port -/
  domMap  : List (Nat × Nat × Nat × Nat) := []
  /-- route table (R411): alternates by destination -/
  route   : Tab (List Nat) := []
  /-- last alternate that an ordered packet took, by destination (R412) -/
  lastOrd : Tab Nat := []
  /-- dead set (R432) -/
  dead    : Tab Unit := []
  /-- runs open, by 4096 x stream + destination (R416) -/
  runs    : Tab Run := []
  /-- answers since the last RFENCE of a stream: 1 refused, 2 lost (R420, R421) -/
  strErr  : Tab Nat := []
  landing : List Landing := []
  /-- collectives of ALLREDUCEs that ended in error here: later packets of them are refused (R427) -/
  collGone : List Nat := []
  /-- anchors that wait for earlier serials (R422) -/
  anchors : List Packet := []
  /-- packets that have arrived and wait for a held line (R242, R318), in arrival order: port, packet -/
  heldPkts : List (Nat × Packet) := []
  /-- host accesses that wait, in arrival order (R439, R441) -/
  hostQ   : List HostAcc := []
  /-- the device is STALE (R431): partner's device, epoch and dead set -/
  resync  : Option (Nat × Nat × List Nat) := none
  /-- range entries whose MIRROR_LOST has been sent: space, base, buddy (R495) -/
  mirLost : List (Nat × Nat × Nat) := []
  /-- doorbell logic by queue -/
  queues  : Tab QLive := []
  engs    : Tab Eng := []
  /-- commands fetched and not ended, in the order fetched -/
  cmds    : List Cmd := []
  launches : List Launch := []
  deriving DecidableEq, Repr

/-- The machine with power just applied, before boot (R499): every block OFF, every table empty. R2 names two ordering numbers: the
reset state is a GW7-768-S (`partE` false), and no command makes it a GW7-768-E, whose start is this one with `partE` true
(DESIGN CHOICE). -/
def State.reset : State := {}

end Sys2Proof.Machine
end

