-- ==== Sys2Proof/Machine/Ops.lean ====
section
/-!
DEFINITION. Named operations over block pages, registers, errors, events and free values.
-/
namespace Sys2Proof.Machine

/-- What a command answers. -/
abbrev Out := Host.Outcome State Fault Refusal

/-- Access paths by number: the host window 0, the cluster of die d at d + 1 (R10, OWNER encoding of R44 less one). -/
def pathIx : Path → Nat
  | .host => 0
  | .gc d => d.val + 1

def isGc : Path → Bool
  | .host => false
  | .gc _ => true

/-- BLK_CTRL.OWNER (R44). -/
def ownerCode : Option Path → Nat
  | none => 0
  | some p => pathIx p + 1

/-- BLK_STATE.STATE (R39). -/
def BState.code : BState → Nat
  | .off => 0
  | .idle => 1
  | .busy => 2
  | .stopping => 3
  | .stopped => 4
  | .failed => 5
  | .spare => 6
  | .retired => 7

/-- In service and taking work (R41). -/
def BState.inService : BState → Bool
  | .idle => true
  | .busy => true
  | _ => false

/-- Block-specific registers read 0 and refuse writes (R41). -/
def BState.silent : BState → Bool
  | .off => true
  | .failed => true
  | .spare => true
  | .retired => true
  | _ => false

/-! Free values. -/

/-- The next free value and the state that has taken it. -/
def takeFree (s : State) : Nat × State := (Config.free s.fresh, { s with fresh := s.fresh + 1 })

/-- The advance of a local interval counter that holds `n` (R30): a free amount that leaves it in its interval of 1,000 µs,
whose end is RATE_INTERVAL. -/
def licStep (free n : Nat) : Nat := n + free % (1000000 - n % 1000000)

/-! Pages. -/

/-- Slots that hold the spare tiles of a die after boot (R475). -/
def spareSlots : List Nat := [10, 21, 32, 43]

def PT.perTile : PT → Bool
  | .tile => true
  | .arr => true
  | .row => true
  | .tst => true
  | .l1c => true
  | _ => false

/-- A page that no command has touched: OFF before boot, in service or spare after (R43, R499). -/
def defBlk (booted : Bool) (pg : Nat) : Blk :=
  if booted then
    match pageAt pg with
    | some p => if p.ty.perTile && spareSlots.contains p.inst then { st := .spare, seq := 1 } else { st := .idle, seq := 1 }
    | none => {}
  else {}

def blk (s : State) (pg : Nat) : Blk := tgetD s.blks pg (defBlk s.booted pg)
def setBlk (s : State) (pg : Nat) (b : Blk) : State := { s with blks := tput s.blks pg b }
def modBlk (s : State) (pg : Nat) (f : Blk → Blk) : State := setBlk s pg (f (blk s pg))

/-- R40: a transition sets PREV and increments SEQ. -/
def Blk.enter (b : Blk) (st : BState) : Blk := { b with st := st, prev := b.st, seq := (b.seq + 1) % 65536 }

/-- IDLE and BUSY by work in hand (R40). -/
def Blk.settle (b : Blk) (work : Bool) : Blk :=
  match b.st, work with
  | .idle, true => b.enter .busy
  | .busy, false => b.enter .idle
  | _, _ => b

def settle (s : State) (pg : Nat) (work : Bool) : State := modBlk s pg (·.settle work)

/-- The device admits work: it has not left service (R18), is not held in reset and does not drain for one (R285). -/
def running (s : State) : Bool := !s.leftService && !s.resetLow && !s.draining

/-- The core rail of a tile (R455): its die's rail, eleven tiles each. -/
def railOfTile (t : Nat) : Nat := 4 * (t / 44) + t % 44 / 11

/-- The supply of a page's block (R455): core rail n is n, VS(d) is 16 + d; none of the other supplies takes part. -/
def supplyOf (pg : Nat) : Option Nat :=
  match pageAt pg with
  | none => none
  | some p =>
    if p.ty.perTile then some (railOfTile p.tile)
    else match p.ty with
    | .l2s => some (4 * p.die + p.inst / 8)
    | .de | .ce | .fx | .me | .bel | .txg | .xlt | .fport | .nhl | .die => some (16 + p.die)
    | _ => none

/-- The supply of a block stands below 0.50 V: its handshakes have stopped, and its state is kept (R457). -/
def stalled (s : State) (pg : Nat) : Bool := s.pwr.droops.any (fun d => d.2 < 500 && supplyOf pg == some d.1)

/-- The page's block takes work (R41, R457). -/
def inService (s : State) (pg : Nat) : Bool := (blk s pg).st.inService && running s && !stalled s pg

/-- A local interval counter is read: it has advanced since (R30, R32). -/
def tickLic (s : State) (pg : Nat) : State :=
  let (f, s1) := takeFree s
  modBlk s1 pg (fun b => { b with lic := licStep f b.lic })

/-- Steps of a block's issuing logic (R25, R34). -/
def bumpSteps (s : State) (pg k : Nat) : State := modBlk s pg (fun b => { b with steps := (b.steps + k) % 2 ^ 64 })

/-! Registers. -/

/-- The reset word of a register: its fields at their reset values. PWR_CAP and PWR_VCEIL differ by part (R472). -/
def resetWord (partE : Bool) (ty : PT) (off : Nat) : Word :=
  if ty = .pwr && off = 0x080 then BitVec.ofNat 32 (if partE then 0x0BE else 0x118)
  else if ty = .pwr && off = 0x084 then BitVec.ofNat 32 (if partE then 0x14 else 0x1E)
  else
    (ty.fields).foldl (fun w f =>
      if f.off ≤ off && off < f.off + 4 * f.n && off % 4 == 0 then putFld w f.hi f.lo f.rst else w) 0

/-- The stored word of a block-specific register. -/
def regW (s : State) (pg off : Nat) : Word :=
  match tget? (blk s pg).regs off with
  | some w => w
  | none => match pageAt pg with
    | some p => resetWord s.partE p.ty off
    | none => 0

def setReg (s : State) (pg off : Nat) (w : Word) : State := modBlk s pg (fun b => { b with regs := tput b.regs off w })

/-- A field of a stored register. -/
def regF (s : State) (pg off hi lo : Nat) : Nat := fld (regW s pg off) hi lo

def setRegF (s : State) (pg off hi lo v : Nat) : State := setReg s pg off (putFld (regW s pg off) hi lo v)

/-- A saturating counter field goes up by `k`. -/
def bumpF (s : State) (pg off hi lo k : Nat) : State :=
  setRegF s pg off hi lo (satAdd (regF s pg off hi lo) k (2 ^ (hi + 1 - lo) - 1))

/-- A 64-bit pair of registers. -/
def regPair (s : State) (pg off : Nat) : Nat := (regW s pg off).toNat + 2 ^ 32 * (regW s pg (off + 4)).toNat

def setRegPair (s : State) (pg off v : Nat) : State :=
  setReg (setReg s pg off (BitVec.ofNat 32 v)) pg (off + 4) (BitVec.ofNat 32 (v / 2 ^ 32))

/-! Events to the host (R445). -/

def raise (s : State) (e : Ev) : State := { s with evq := s.evq ++ [e] }

/-! The route card (R503). Records are named by TYPE and a unit number of the model's own: STEP by step; RETIRED and SLICE by
BLK_ID; ARRAY_MAP, WEAR by tile; LANES by port; HBM_ROW by 2^40 x stack + row address; HBM_PCH, HBM_TRAIN by stack; the others
are single. -/

def ctStep : Nat := 1
def ctRetired : Nat := 2
def ctArrayMap : Nat := 3
def ctLanes : Nat := 4
def ctHbmRow : Nat := 5
def ctHbmPch : Nat := 6
def ctHbmTrain : Nat := 7
def ctWear : Nat := 8
def ctEdge : Nat := 9
def ctSlice : Nat := 10
def ctDomain : Nat := 11
def ctDomainMap : Nat := 12
def ctOsc : Nat := 13
def ctBank : Nat := 14

def cardKey (kind unit : Nat) : Nat := 2 ^ 48 * kind + unit

/-- A record to be written (R507): it waits for CARD_WRITE. -/
def cardPut (s : State) (kind unit v : Nat) : State := { s with cardDue := tput s.cardDue (cardKey kind unit) v }
def cardGet (s : State) (kind unit : Nat) : Option Nat := tget? s.card (cardKey kind unit)

/-! Cairn triggers (R519 to R521). -/

/-- A trigger starts a wavefront, or joins the one that is spreading. `info` goes into the CAIRN event. -/
def cairnTrigger (s : State) (src btype : Nat) : State :=
  match s.wave with
  | some _ => s
  | none =>
    let n := (regF s pgDbg 0x08C 15 0 + 1) % 65536
    let s1 := setReg s pgDbg 0x08C (BitVec.ofNat 32 (n + src * 65536))
    raise { s1 with wave := some [], trigOut := s1.trigOut + 1 } { ring := 0, kind := 0xC0, value := n, info := src + 256 * btype }

/-! Tiles. -/

def tile (s : State) (t : Nat) : Tile := tgetD s.tiles t {}
def setTile (s : State) (t : Nat) (x : Tile) : State := { s with tiles := tput s.tiles t x }
def modTile (s : State) (t : Nat) (f : Tile → Tile) : State := setTile s t (f (tile s t))

/-- The four performance counters of a tile that select the event go up while they run (R529). -/
def perfCount (s : State) (t ev k : Nat) : State :=
  let pg := pgTile t
  let frozen := regF s pg 0x0CC 1 1 = 1 && (blk s pg).snapHeld
  if regF s pg 0x0CC 0 0 = 1 && !frozen then
    (List.range 4).foldl (fun s c =>
      if regF s pg 0x0C8 (8 * c + 7) (8 * c) = ev then
        modTile s t (fun x => { x with perf := tput x.perf c ((tgetD x.perf c 0 + k) % 2 ^ 64) })
      else s) s
  else s

/-! Guide clusters (R20). -/

/-- The supplies are on and the device has booted. -/
def powered (s : State) : Bool := s.booted && s.pwrGood && !s.pwr.tripped

/-- Firmware runs: the module is powered and no warm reset is under way. -/
def fwUp (s : State) : Bool := powered s && !s.resetLow && !s.draining

/-- A guide cluster is in service. -/
def clusterUp (s : State) (d : Nat) : Bool := (blk s (pgGde d)).st.inService

/-- The cluster that runs a die's duties. -/
def dutyOf (s : State) (d : Nat) : Nat := s.guide.duty.getD d d

/-- Firmware runs the duties of a die. -/
def dutyUp (s : State) (d : Nat) : Bool := fwUp s && clusterUp s (dutyOf s d)

/-- The device-wide duties run. -/
def devUp (s : State) : Bool := fwUp s && clusterUp s s.guide.dev

/-! Errors (R53). -/

/-- Some unmasked status bit is set. -/
def Blk.unmasked (b : Blk) : Bool := (b.errStat &&& ~~~b.errMask) ≠ 0

/-- VALID returns to 0 when no unmasked status bit remains set (R53). -/
def Blk.errTidy (b : Blk) : Blk := if b.unmasked then b else { b with errValid := false }

/-- R53: an error sets its bit and counts; an unmasked one is recorded when it is the first, and reported. -/
def Blk.err (b : Blk) (bit addr : Nat) : Blk :=
  let first := !b.unmasked && !b.errValid && !b.errMask.getLsbD bit
  { b with
    errStat := b.errStat ||| (1#32 <<< bit)
    errCnt := satAdd b.errCnt 1 0xFFFF
    errBit := if first then bit else b.errBit
    errValid := if first then true else b.errValid
    errAddr := if first then addr else b.errAddr }

def errSet (s : State) (pg bit addr : Nat) : State :=
  let b := blk s pg
  let due := b.injDue.find? (fun x => x.1 == bit)
  let b1 := { b.err bit addr with injDue := b.injDue.filter (fun x => x.1 != bit) }
  let s1 := setBlk s pg b1
  if b.errMask.getLsbD bit then s1
  else
    let ty := ((pageAt pg).map (·.ty.code)).getD 0
    let lic := match pageAt pg with
      | some p => if p.ty.hasLic then b.lic else (blk s (pgGde p.die)).lic
      | none => 0
    let fires := regF s pgDbg 0x080 1 1 = 1 && (regF s pgDbg 0x084 23 0).testBit (ty - 1)
    let s2 := if fires then cairnTrigger s1 2 ty else s1
    let cairn := if fires && s.wave.isNone then 65536 + regF s2 pgDbg 0x08C 15 0 else 0
    let r : Report := ⟨pg, bit, b1.errStat.toNat, b1.errAddr, lic, cairn, due.isSome, (due.map (·.2)).getD false⟩
    { s2 with reports := s2.reports ++ [r] }

/-- A register error: BLK_ERR_ADDR holds the offset within the register aperture (R53). -/
def regErr (s : State) (pg bit off : Nat) : State := errSet s pg bit (4096 * pg + off)

def errRsvd : Nat := 0
def errAccess : Nat := 1
def errReject : Nat := 2
def errState : Nat := 3
def errOpFailed : Nat := 4
def errBlkFailed : Nat := 5

/-! Injection (R54, R526): an armed detector takes the next event of its index. -/

/-- Does detector `det` of the page inject now? -/
def injects (s : State) (pg det : Nat) : Bool := (blk s pg).injArm && (blk s pg).injSel == det

/-- ARM clears after one injection unless REPEAT; FIRED is set. `due` are the status bits that the injected error will set
(R526). -/
def injFire (s : State) (pg : Nat) (due : List Nat) : State :=
  modBlk s pg (fun b => { b with
    injFired := true, injArm := b.injArm && b.injRepeat
    injDue := due.foldl (fun l x => if l.any (fun y => y.1 == x) then l else l ++ [(x, false)]) b.injDue })

/-- A real error meets an injected one that has not been reported yet. -/
def injReal (s : State) (pg bit : Nat) : State :=
  modBlk s pg (fun b => { b with injDue := b.injDue.map (fun x => if x.1 = bit then (bit, true) else x) })

/-- Fabric link state UP, firmware duties and the like are read from their own parts. BLK_ID of a page (R37). -/
def blkId (pg : Nat) : Nat :=
  match pageAt pg with
  | some p => p.ty.code + p.inst * 256 + p.die * 65536
  | none => 0

/-! Long operations (R50, R51). -/

/-- A long operation starts: RUNNING, serial incremented. -/
def Blk.opStart (b : Blk) (opc kind arg : Nat) (who : Option Path) : Blk :=
  { b with opRun := true, opBy := who, opArg := arg, progVal := 0, progKind := kind, progRes := 0, progOpc := opc,
           progSer := (b.progSer + 1) % 65536 }

/-- A long operation ends once with its RESULT. -/
def Blk.opEnd (b : Blk) (res val : Nat) : Blk :=
  { b with opRun := false, progRes := res, progVal := if res = 1 then val else b.progVal }

def opStart (s : State) (pg opc kind arg : Nat) (who : Option Path) : State :=
  modBlk s pg (fun b => (b.opStart opc kind arg who).settle true)

/-- RESULT FAILED and EXPIRED set OP_FAILED. -/
def opEnd (s : State) (pg res val : Nat) : State :=
  let s1 := modBlk s pg (·.opEnd res val)
  if res = 2 || res = 4 then errSet s1 pg errOpFailed 0 else s1

end Sys2Proof.Machine
end

