-- ==== Sys2Proof/Machine/Fab.lean ====
section
/-!
DEFINITION. Sending over the fabric: packets (R407 to R409), ports' transmitters (R387 to R391), routes (R411, R412), runs
(R415, R416), requests and their ends (R409, R413).
-/
namespace Sys2Proof.Machine

/-! Packet kinds (R408), flags, answer statuses (R409). -/
def pkWrite : Nat := 0x01
def pkRead : Nat := 0x02
def pkAtomic : Nat := 0x03
def pkSignal : Nat := 0x04
def pkAnchor : Nat := 0x05
def pkReduce : Nat := 0x06
def pkGather : Nat := 0x07
def pkWatch : Nat := 0x08
def pkNotify : Nat := 0x09
def pkAck : Nat := 0x10
def pkData : Nat := 0x11

def flAnchor : Nat := 1
def flEarly : Nat := 2
def flOrdered : Nat := 4
def flResent : Nat := 8

def stDone : Nat := 0
def stBusy : Nat := 1
def stDup : Nat := 2
def stRefused : Nat := 3
def stRouteFail : Nat := 4
def stTxgAborted : Nat := 5

/-- Results of a request for its owner. -/
def rqDone : Nat := 0
def rqErr : Nat := 1
def rqLost : Nat := 2
def rqTxg : Nat := 3

/-- A packet with nothing in it. -/
def packet0 (kind dst space addr : Nat) : Packet :=
  { kind := kind, flags := 0, dst := dst, src := 0, space := space, route := 0, stream := 0, sub := 0, serial := 0, first := 0,
    addr := addr, txg := 0, operand := 0, mask := 0, data := [], mark := false }

/-- A WRITE of bytes of one line: (offset, value). -/
def pktWrite (dst space addr stream : Nat) (bytes : List (Nat × Nat)) (mark : Bool) : Packet :=
  { packet0 pkWrite dst space addr with
    stream := stream, mark := mark
    mask := (List.range 128).foldl (fun m i => if bytes.any (fun b => b.1 == i) then m + 2 ^ i else m) 0
    data := (List.range 128).map (fun i => (bytes.foldl (fun v b => if b.1 = i then b.2 else v) 0)) }

/-- The bytes a WRITE names. -/
def pktBytes (k : Packet) : List (Nat × Nat) :=
  ((List.range 128).filter (fun i => k.mask.testBit i)).map (fun i => (i, k.data.getD i 0))

/-- The packet changes target memory and belongs to a stream (R415). -/
def pktStreamed (k : Packet) : Bool :=
  k.kind = pkWrite || k.kind = pkAtomic || k.kind = pkSignal || k.kind = pkAnchor || k.kind = pkReduce || k.kind = pkGather ||
    k.kind = pkWatch

/-- Streams (R415). -/
def strGroup (t n : Nat) : Nat := 0x0200 + 64 * t + n
def strAllreduce (e : Nat) : Nat := 0x3E00 + (e - 32)
def strScatter (e : Nat) : Nat := 0x3E08 + (e - 32)
def strPut (e n : Nat) : Nat := 64 * (e - 32) + n
def strCmd (e : Nat) : Nat := 0x3F00 + e

/-! This device. -/

def myDev (s : State) : Nat := regF s pgDev 0x100 11 0
def myEpoch (s : State) : Nat := regPair s pgDev 0x108
def setEpoch (s : State) (e : Nat) : State := setRegPair s pgDev 0x108 (e % 2 ^ 64)
def isDead (s : State) (d : Nat) : Bool := thas s.dead d

/-! Ports. -/

def port (s : State) (p : Nat) : Port := tgetD s.ports p {}
def setPort (s : State) (p : Nat) (x : Port) : State := { s with ports := tput s.ports p x }
def modPort (s : State) (p : Nat) (f : Port → Port) : State := setPort s p (f (port s p))

/-- FPORT_LINK.STATE (R384). -/
def linkState (s : State) (p : Nat) : Nat := regF s (pgPort p) 0x080 3 0
def lkDown : Nat := 0
def lkDetect : Nat := 1
def lkTrain : Nat := 2
def lkKeyx : Nat := 3
def lkRoll : Nat := 4
def lkUp : Nat := 5
def lkRetrain : Nat := 6
def lkQuar : Nat := 7
def setLink (s : State) (p st : Nat) : State := setRegF s (pgPort p) 0x080 3 0 st

/-- READY: the link is UP and NHL_STATUS.READY is 1. -/
def hostReady (s : State) : Bool :=
  s.pwrGood && !s.resetLow && !s.leftService && linkState s 18 = lkUp && regF s pgNhl 0x0E0 0 0 = 1

/-- The port takes packets: UP, or held by a fast retrain, when traffic waits (R384, R392). -/
def linkUp (s : State) (p : Nat) : Bool := linkState s p = lkUp

/-- Every fabric port of the device. -/
def fabricPorts : List Nat := List.range 18

/-- The VC of a packet: hops taken (R410). -/
def pktVc (k : Packet) : Nat := bits k.route 23 22

/-- Has the transmitter credit and room, and does it send new sequenced flits (R388, R389, R400)? -/
def canSend (s : State) (p : Nat) (vc : Nat) : Bool :=
  let x := port s p
  linkUp s p && (blk s (pgPort p)).st.inService && !stalled s (pgPort p) && x.credits.getD vc 0 ≥ 1 && x.retry.length < 2048

/-- The highest sequence number received in order. -/
def lastRx (x : Port) : Nat := (x.rxSeq + 4095) % 4096

/-- What the next flit's header gives back, and the buffers still to be returned after it (R388): of the lowest channel with some, up
to 255. -/
def Port.gives (x : Port) : Back × List Nat :=
  let vc := ((List.range 4).find? (fun v => x.freed.getD v 0 > 0)).getD 0
  let n := min (x.freed.getD vc 0) 255
  (⟨lastRx x, vc, n⟩, lset x.freed vc (x.freed.getD vc 0 - n))

/-- A DATA flit leaves: it stays in the retry buffer until it is acknowledged (R389); it counts under its key (R395). -/
def Port.push (x : Port) (k : Packet) (req : Option Nat) : Port :=
  let vc := (pktVc k)
  { x with
    txSeq := (x.txSeq + 1) % 4096
    retry := x.retry ++ [⟨x.txSeq, 1, some k, req, x.txPhase, x.txN, x.gives.1⟩]
    freed := x.gives.2
    txN := if x.txKey.isSome then x.txN + 1 else x.txN
    credits := lset x.credits vc (x.credits.getD vc 0 - 1) }

/-- A packet is routed to a port: it is sent, or waits for a credit or for room. -/
def sendOn (s : State) (p : Nat) (k : Packet) (req : Option Nat) : State :=
  if canSend s p (pktVc k) && (port s p).waitq.isEmpty then modPort s p (·.push k req)
  else modPort s p (fun x => { x with waitq := x.waitq ++ [(k, req)] })

/-- Waiting packets leave as far as credits and room allow. -/
def pumpPort : Nat → State → Nat → State
  | 0, s, _ => s
  | n + 1, s, p =>
    match (port s p).waitq with
    | [] => s
    | (k, r) :: t =>
      if canSend s p (pktVc k) then pumpPort n (modPort s p (fun x => Port.push { x with waitq := t } k r)) p else s

def pump (s : State) (p : Nat) : State := pumpPort (port s p).waitq.length s p

/-- An unsequenced flit leaves a port. -/
def emit (s : State) (p : Nat) (c : Ctrl) : State := modPort s p (fun x => { x with out := x.out ++ [(c, x.gives.1)], freed := x.gives.2 })

/-! Routes (R411, R412). -/

def altValid (a : Nat) : Bool := a.testBit 31
def altPort (a : Nat) : Nat := bits a 4 0
/-- ROUTE of a packet that takes an alternate: ports and hops, no hop taken (R407). -/
def altRoute (a : Nat) : Nat := bits a 21 0

/-- Usable alternates of a destination with their numbers: VALID, first port UP, not failed for the packet. -/
def usable (s : State) (dst : Nat) (tried : List Nat) : List (Nat × Nat) :=
  ((tgetD s.route dst []).mapIdx (fun i a => (i, a))).filter (fun x => altValid x.2 && linkUp s (altPort x.2) && !tried.contains x.1)

/-- A destination with no VALID alternate in the route table is unreachable (R414). -/
def unreachable (s : State) (dst : Nat) : Bool := !(tgetD s.route dst []).any altValid

/-- Earlier ordered packets to a destination that are unanswered. -/
def openOrdered (s : State) (dst id : Nat) : Bool :=
  s.reqs.any (fun r => r.k.dst == dst && r.id < id && r.sent && r.res.isNone && r.k.flags.testBit 2)

/-- The next of some alternates after the one that failed last, going round (R412). -/
def nextAlt (us : List (Nat × Nat)) (last : Nat) : Option (Nat × Nat) :=
  match us.find? (fun x => x.1 > last) with
  | some x => some x
  | none => us.head?

/-- R412: the alternate a packet takes (REDUCE only a direct port, R426): adaptive, the first port with the most VC0 credits, lowest
on a tie; ordered, the lowest, and another route than the last only when every earlier ordered packet has been answered; after a
ROUTE_FAIL, the next that has not failed it. -/
def chooseAlt (s : State) (k : Packet) (id : Nat) (tried : List Nat) : Option (Nat × Nat) :=
  let us := (usable s k.dst tried).filter (fun x => k.kind ≠ pkReduce || bits x.2 21 20 = 0)
  if k.flags.testBit 2 then
    match (match tried.getLast? with
      | some l => nextAlt us l
      | none => us.head?) with
    | none => none
    | some x => if tget? s.lastOrd k.dst = some x.1 || !openOrdered s k.dst id then some x else none
  else
    let cr (x : Nat × Nat) : Nat := (port s (altPort x.2)).credits.getD 0 0
    match tried.getLast?, us with
    | some l, _ => nextAlt us l
    | none, [] => none
    | none, x :: t => some (t.foldl (fun b y => if cr y > cr b then y else b) x)

/-! Runs (R416). -/

def runKey (stream dst : Nat) : Nat := 4096 * stream + dst

/-- A stream has a place for a packet to a destination: its run is open with room, or fewer than 16 runs are open. -/
def runRoom (s : State) (stream dst : Nat) : Bool :=
  match tget? s.runs (runKey stream dst) with
  | some r => r.open_ < 65536
  | none => (s.runs.filter (fun r => r.1 / 4096 == stream)).length < 16

/-- The serial and first serial of the next packet of a run; a new run takes any serial: a free value. -/
def runTake (s : State) (stream dst : Nat) : Nat × Nat × State :=
  match tget? s.runs (runKey stream dst) with
  | some r =>
    (r.next, r.first, { s with runs := tput s.runs (runKey stream dst) { r with next := (r.next + 1) % 2 ^ 32, open_ := r.open_ + 1 } })
  | none =>
    let (f, s1) := takeFree s
    let f := f % 2 ^ 32
    (f, f, { s1 with runs := tput s1.runs (runKey stream dst) ⟨f, (f + 1) % 2 ^ 32, 1⟩ })

/-- A packet of a run has been answered; the run ends with its last (R416). -/
def runAnswered (s : State) (stream dst : Nat) : State :=
  match tget? s.runs (runKey stream dst) with
  | some r => if r.open_ ≤ 1 then { s with runs := tdel s.runs (runKey stream dst) }
    else { s with runs := tput s.runs (runKey stream dst) { r with open_ := r.open_ - 1 } }
  | none => s

/-! Requests. -/

def req? (s : State) (id : Nat) : Option Req := s.reqs.find? (fun r => r.id == id)
def modReq (s : State) (id : Nat) (f : Req → Req) : State :=
  { s with reqs := s.reqs.map (fun r => if r.id = id then f r else r) }
def delReq (s : State) (id : Nat) : State := { s with reqs := s.reqs.filter (fun r => r.id ≠ id) }

/-- Nobody waits for the answer. -/
def ReqOwner.idle : ReqOwner → Bool
  | .none => true
  | .notify _ _ => true
  | .relay _ => true
  | .pref _ _ _ => true
  | _ => false

/-- A store buffer waits for the answer. -/
def ReqOwner.isSb : ReqOwner → Bool
  | .sb _ _ => true
  | _ => false

/-- A response that no port takes now waits for its router like any other packet; nobody waits for an answer to it. -/
def holdAnswer (s : State) (a : Packet) : State :=
  { s with reqs := s.reqs ++ [{ id := s.nextReq, k := a, owner := .none }], nextReq := s.nextReq + 1 }

/-- An answer goes back to the source of a packet (R409): an adaptive packet on the best route to it. -/
def answer (s : State) (k : Packet) (status operand : Nat) (data : List Nat) (mark isData : Bool) : State :=
  let a := { packet0 (if isData then pkData else pkAck) k.src k.space k.addr with
    src := myDev s, stream := k.stream, serial := k.serial, first := k.first, sub := status, operand := operand, data := data, mark := mark }
  if isDead s k.src then s
  else match chooseAlt s a s.nextReq [] with
  | none => holdAnswer s a
  | some (_, alt) => sendOn s (altPort alt) { a with route := altRoute alt } none

/-- MIRROR_LOST is sent once for each range entry and buddy loss (R495). -/
def mirrorGone (s : State) (m : Nat × Nat × Nat) : State :=
  if s.mirLost.contains m then s
  else raise { s with mirLost := s.mirLost ++ [m] } { ring := 0, kind := 0x6B, tag := m.2.1, value := m.2.2, info := m.1 }

/-- A request made for an arriving packet has ended: the packet is answered (R405, R409). -/
def relayEnd (s : State) (o : ReqOwner) (res cause : Nat) (data : List Nat) (mark : Bool) : State :=
  match o with
  | .relay k =>
    let isData := k.kind = pkRead || (k.kind = pkAtomic && k.operand ≠ 0)
    let status := if res = rqDone then stDone else if res = rqTxg then stTxgAborted else stRefused
    answer s k status cause data (mark || res ≠ rqDone) isData
  | _ => s

/-- The end of a request: its run has one packet less open; a request nobody waits for is gone. An early-acknowledged packet
that failed reports LOST_WRITE (R420). A mirror copy whose buddy is lost leaves the store complete (R260). -/
def endReq (s : State) (id res0 cause : Nat) : State :=
  match req? s id with
  | none => s
  | some r =>
    if r.res.isSome then s
    else
      let gone := r.mir.isSome && res0 = rqLost
      let res := if gone then rqDone else res0
      let s := match r.mir with
        | some m => if gone then mirrorGone s m else s
        | none => s
      let s1 := modReq s id (fun r => { r with res := some res, cause := cause, sent := true })
      let s2 := if r.numbered then runAnswered s1 r.k.stream r.k.dst else s1
      let bit := if res = rqLost then 2 else if res = rqDone then 0 else 1
      let s3 := if bit ≠ 0 && (pktStreamed r.k) then
          { s2 with strErr := tput s2.strErr r.k.stream (Nat.lor (tgetD s2.strErr r.k.stream 0) bit) } else s2
      let s4 := if bit ≠ 0 && r.early then
          errSet (raise s3 { ring := 0, kind := 9, tag := r.k.stream + 2 ^ 32 * r.k.dst, value := r.k.serial }) pgDev 12
            (r.k.stream + 2 ^ 32 * r.k.dst)
        else s3
      let s5 := relayEnd s4 r.owner res cause r.data r.marked
      if r.owner.idle || (r.early && !r.owner.isSb) then delReq s5 id else s5

/-- One unsent request is sent if it may: the device is not STALE (R431), a run has room, an alternate is usable. -/
def trySend (s : State) (id : Nat) : State :=
  match req? s id with
  | none => s
  | some r =>
    if r.sent || r.res.isSome then s
    else if isDead s r.k.dst then endReq s id rqLost 0
    else if s.resync.isSome then s
    else if unreachable s r.k.dst then endReq s id rqLost 0
    else if pktStreamed r.k && !r.numbered && !runRoom s r.k.stream r.k.dst then s
    else match chooseAlt s r.k r.id r.tried with
    | none => s
    | some (i, a) =>
      if r.k.kind = pkAck || r.k.kind = pkData then sendOn (delReq s id) (altPort a) { r.k with route := altRoute a } none
      else
        let (ser, first, s1) :=
          if !pktStreamed r.k then (id % 2 ^ 32, id % 2 ^ 32, s)
          else if r.numbered then (r.k.serial, r.k.first, s)
          else runTake s r.k.stream r.k.dst
        let k := { r.k with serial := ser, first := first, route := altRoute a }
        let s2 := modReq s1 id (fun r => { r with k := k, port := altPort a, sent := true, handed := false, busy := false, numbered := pktStreamed r.k })
        let s3 := if k.flags.testBit 2 then { s2 with lastOrd := tput s2.lastOrd k.dst i } else s2
        let s4 := if k.flags.testBit 3 then bumpF s3 pgDev 0x140 15 0 1 else s3
        sendOn s4 (altPort a) k (some id)

/-- Every request that waits is tried in order. -/
def trySendAll (s : State) : State := (s.reqs.filter (fun r => !r.sent && !r.busy && r.res.isNone)).foldl (fun s r => trySend s r.id) s

/-- A request to another device (R405, R409), as the mirror copy of a store or not. -/
def sendMir (s : State) (k : Packet) (owner : ReqOwner) (mir : Option (Nat × Nat × Nat)) : State :=
  let id := s.nextReq
  let s1 := { s with reqs := s.reqs ++ [{ id := id, k := { k with src := myDev s }, owner := owner, mir := mir }], nextReq := id + 1 }
  trySend s1 id

def sendReq (s : State) (k : Packet) (owner : ReqOwner) : State := sendMir s k owner none

/-- The result of a request, once decided. -/
def reqRes (s : State) (id : Nat) : Option Nat :=
  match req? s id with
  | some r => r.res
  | none => some rqDone

/-- The line that an ended read gives: one refused or lost is a marked line, whose bytes the spec leaves open (R406). -/
def Req.line (r : Req) : List Nat × Bool :=
  if r.res = some rqDone then (r.data, r.marked) else ((List.range 128).map (fun i => Config.lostByte r.id i % 256), true)

/-- Every one of the requests has ended. -/
def reqsDone (s : State) (ids : List Nat) : Bool := ids.all (fun i => (reqRes s i).isSome)

/-- Bits of the fence status word for the results of requests: 1 REMOTE_LOST, 2 REMOTE_ERR (R280). -/
def reqBits (s : State) (ids : List Nat) : Nat :=
  ids.foldl (fun b i => match reqRes s i with
    | some 0 => b
    | some 2 => Nat.lor b 1
    | some _ => Nat.lor b 2
    | none => b) 0

def delReqs (s : State) (ids : List Nat) : State := { s with reqs := s.reqs.filter (fun r => !ids.contains r.id) }

end Sys2Proof.Machine
end

