-- ==== Sys2Proof/Machine/Mem.lean ====
section
/-!
DEFINITION. Memory at the home slices: bytes and keys (R220 to R248), the L2 directory (R231 to R235), watches
(R289 to R295), staged writes (R310 to R317), reservations (R281), atomics (R109).
-/
namespace Sys2Proof.Machine

/-! Placement (R222, R223). -/

def homeDie (pa : Nat) : Nat := bits pa 39 38
def frameOf (pa : Nat) : Nat := bits pa 37 21
def lineInFrame (pa : Nat) : Nat := bits pa 20 7
/-- Frames 0 to 95,231 of each die exist (R222). -/
def lineExists (pa : Nat) : Bool := pa < 2 ^ 40 && frameOf pa < 95232

def chunkOf (pa : Nat) : Nat := lineInFrame pa / 32
/-- Slice within the die (R223). -/
def sliceOf (pa : Nat) : Nat := Nat.xor (Nat.xor (lineInFrame pa % 32) (chunkOf pa % 32)) (frameOf pa % 32)
/-- Device-wide slice number: 32 x die + slice. -/
def gslice (pa : Nat) : Nat := 32 * homeDie pa + sliceOf pa
/-- Stack S0 to S11 (R223). -/
def stackOf (pa : Nat) : Nat := 3 * homeDie pa + (frameOf pa + chunkOf pa) % 3
/-- Pseudo-channel 0 to 63 of the stack (R223, R248). -/
def pchOf (pa : Nat) : Nat := 2 * sliceOf pa + (frameOf pa + chunkOf pa) / 3 % 2
/-- Set of the slice: the one R315 gives for staged lines, used for every line. -/
def setOf (pa : Nat) : Nat := chunkOf pa + 512 * (frameOf pa % 2)

def lineBase (pa : Nat) : Nat := pa / 128 * 128

/-! Keys (R245 to R247). -/

/-- How many key pairs of two 256-bit halves there are (R245). -/
def keyPairs : Nat := 2 ^ 256 * 2 ^ 256

/-- What a key slot holds, as one number: 0 plaintext, else one more than the key pair; an empty slot stands for a key of its
own. -/
def keyId (s : State) (slot : Nat) : Nat :=
  if slot = 0 then 0
  else match tget? s.keys slot with
    | some k => k % keyPairs + 1
    | none => 2 * keyPairs + slot

def cellAt (r : Ram) (a : Nat) : Nat := (tgetD r.cells a 0).toNat

def block16 (r : Ram) (a : Nat) : List Nat := (rangeFrom (a / 16 * 16) 16).map (cellAt r)

/-- A 16-byte block of a line as HBM4 holds it under a key (R245), and as a read under a key finds what is held. -/
def cipherUnder (k a : Nat) (x : List Nat) : List Nat := if k = 0 then x else xtsBlock false (k - 1) (a / 128) (a % 128 / 16) x
def plainUnder (k a : Nat) (x : List Nat) : List Nat := if k = 0 then x else xtsBlock true (k - 1) (a / 128) (a % 128 / 16) x

/-- A byte read under a key: the byte as written when the line was written under that key, else the decryption of what was
encrypted under the other (R247). A slot without a key has no cipher: what it gives is a free value. -/
def byteUnder (r : Ram) (kr a : Nat) : Nat :=
  let kw := tgetD r.keys (a / 128) 0
  if kw = kr then cellAt r a
  else if kw > keyPairs || kr > keyPairs then Config.garble kw kr a (ofBytes (block16 r a)) % 256
  else (plainUnder kr a (cipherUnder kw a (block16 r a))).getD (a % 16) 0 % 256

def readUnder (r : Ram) (kr a n : Nat) : List Nat := (rangeFrom a n).map (byteUnder r kr)

/-- `n` bytes at a physical address, read under a key slot. -/
def readPhys (s : State) (slot a n : Nat) : List Nat := readUnder s.ram (keyId s slot) a n

/-- A little-endian number of `n` bytes (R5). -/
def rdN (s : State) (slot a n : Nat) : Nat := ofBytes (readPhys s slot a n)

/-- Bytes written at consecutive addresses; a byte 0 is not listed. -/
def putCells (cells : List Host.Cell) (a : Nat) : List Nat → List Host.Cell
  | [] => cells
  | b :: bs => putCells (tputD cells a (BitVec.ofNat 8 b) 0) (a + 1) bs

/-- Bytes written at given offsets of a line. -/
def putOffs (cells : List Host.Cell) (base : Nat) : List (Nat × Nat) → List Host.Cell
  | [] => cells
  | (o, b) :: t => putOffs (tputD cells (base + o) (BitVec.ofNat 8 b) 0) base t

/-- The line as it reads under a key, stored under that key (R247: the slice writes it back and refills it). -/
def Ram.rekey (r : Ram) (kr line : Nat) : Ram :=
  if tgetD r.keys line 0 = kr then r
  else { r with cells := putCells r.cells (128 * line) (readUnder r kr (128 * line) 128),
                keys := tputD r.keys line kr 0 }

/-- Bytes of one line written under a key. -/
def Ram.write (r : Ram) (kr line : Nat) (bytes : List (Nat × Nat)) : Ram :=
  let r1 := r.rekey kr line
  { r1 with cells := putOffs r1.cells (128 * line) bytes }

/-- The canonical form of bytes in memory: addresses strictly rising, no byte that an unlisted address reads as. -/
def cellsOk (cs : List Host.Cell) : Bool := tabOk cs && cs.all (fun c => c.2 != 0)

/-- The canonical form of memory. -/
def Ram.wf (r : Ram) : Bool := cellsOk r.cells && tabOk r.marks && tabOk r.keys && r.keys.all (fun k => k.2 != 0)

/-! The uncorrectable mark (R221) and lost pseudo-channels (R242, R244). -/

def stack (s : State) (k : Nat) : Stack := tgetD s.stackTab k {}

def isFenced (s : State) (pa : Nat) : Bool := (stack s (stackOf pa)).fenced.contains (pchOf pa)
def isPchHeld (s : State) (pa : Nat) : Bool := (stack s (stackOf pa)).heldPch.contains (pchOf pa)

/-- Two addresses lie in one DRAM row (R241). -/
def sameRow (a pa : Nat) : Bool :=
  a / 128 == pa / 128 || (stackOf a == stackOf pa && pchOf a == pchOf pa && Config.dramRow (a / 128) == Config.dramRow (pa / 128))

/-- HBM4 holds the line anew, without what it held: its pseudo-channel is redirected, or its remapped row was lost (R242). -/
def Stack.renewed (k : Stack) (pa : Nat) : Bool := k.redirPch.contains (pchOf pa) || k.lostRows.any (fun a => sameRow a pa)

/-- Does the line carry the mark? -/
def isMarked (s : State) (pa : Nat) : Bool :=
  let k := stack s (stackOf pa)
  let x := tgetD s.l2 (gslice pa) {}
  thas s.ram.marks (pa / 128) || isFenced s pa ||
    (k.renewed pa && !thas k.rewritten (pa / 128)) ||
    (x.lostSet == some (setOf pa) && !thas x.cleared (pa / 128))

def setMark (s : State) (pa : Nat) : State := { s with ram := { s.ram with marks := tput s.ram.marks (pa / 128) () } }

/-- A whole-line write clears the mark (R221). -/
def clrMark (s : State) (pa : Nat) : State :=
  let k := stackOf pa
  let st := stack s k
  let g := gslice pa
  let x := tgetD s.l2 g {}
  let s0 := if x.lostSet = some (setOf pa) then { s with l2 := tput s.l2 g { x with cleared := tput x.cleared (pa / 128) () } } else s
  let s1 := { s0 with ram := { s0.ram with marks := tdel s0.ram.marks (pa / 128) } }
  if st.renewed pa then
    { s1 with stackTab := tput s1.stackTab k { st with rewritten := tput st.rewritten (pa / 128) () } }
  else s1

/-! The L2 directory (R231, R232). -/

def slice (s : State) (g : Nat) : L2Slice := tgetD s.l2 g {}
def setSlice (s : State) (g : Nat) (x : L2Slice) : State := { s with l2 := tput s.l2 g x }

/-- Staged lines of the die's open TXGs in one slice and set (R235, R315). -/
def stagedIn (s : State) (g set : Nat) : Nat :=
  (s.txgs.map (fun t => (t.2.lines.filter (fun l => gslice (128 * l.1) = g && setOf (128 * l.1) = set)).length)).sum

/-- Staged lines in one slice (L2S_STAGE.USED). -/
def stagedSlice (s : State) (g : Nat) : Nat :=
  (s.txgs.map (fun t => (t.2.lines.filter (fun l => gslice (128 * l.1) = g)).length)).sum

/-- The way of a set that holds a line. -/
def findWay (x : L2Slice) (set line : Nat) : Option Nat :=
  (List.range 17).find? (fun w => match tget? x.lines (17 * set + w) with
    | some l => l.line == line
    | none => false)

/-- The ways in service in a set: those of L2S_WAYS, but for a set in which a WAY_SWAP that has not ended has put the spare in
place of the named way (R237). -/
def insvcAt (s : State) (g set : Nat) : Nat :=
  let m := regF s (pgL2s g) 0x080 16 0
  match (slice s g).swap with
  | some (w, n) => if set < n then setBits (setBits m w w 0) 16 16 1 else m
  | none => m

/-- The way of a set that its first, or second, staged line takes: 15 and 14, or the spare in place of one (R235, R237). -/
def stagingWay (m k : Nat) : Nat := if m.testBit (15 - k) then 15 - k else 16

/-- The ways of a set that ordinary lines may take (R235, R237). -/
def waysFor (s : State) (g set : Nat) : List Nat :=
  let m := insvcAt s g set
  let k := stagedIn s g set
  (List.range 17).filter (fun w => m.testBit w && !((w == stagingWay m 0 && k ≥ 1) || (w == stagingWay m 1 && k ≥ 2)))

/-- The ways among which replacement takes its victim: pseudo-least-recently-used never takes the way used last (R231). -/
def victims (s : State) (g set : Nat) : List Nat :=
  let ws := waysFor s g set
  let old := ws.filter (fun w => tget? (slice s g).mru set ≠ some w)
  if old.isEmpty then ws else old

/-- A line leaves a way: a dirty line enters the eviction buffer (R232). Where the buffer is full, or holds an older
write-back of the same line, the eviction has waited until a write-back was performed (which one, is a free value). -/
def evict (x : L2Slice) (key free : Nat) : L2Slice :=
  match tget? x.lines key with
  | none => x
  | some l =>
    let evb := if l.dirty then
        let e := x.evb.filter (fun y => y != l.line)
        (if e.length ≥ 32 then e.eraseIdx (free % e.length) else e) ++ [l.line]
      else x.evb
    { x with lines := tdel x.lines key, evb := evb }

/-- A clean line leaves a way: what HBM4 holds under it is what reads find from now on. -/
def dropClean (s : State) (x : L2Slice) (key : Nat) : State :=
  match tget? x.lines key with
  | some l => match l.dirty, l.below with
    | false, some true => setMark s (128 * l.line)
    | false, some false => { s with ram := { s.ram with marks := tdel s.ram.marks l.line } }
    | _, _ => s
  | none => s

/-- The line in a way makes room (R232). -/
def displace (s : State) (g key : Nat) : State :=
  if !thas (slice s g).lines key then s
  else
    let (f, s1) := takeFree s
    let s2 := dropClean s1 (slice s1 g) key
    setSlice s2 g (evict (slice s2 g) key f)

/-- A line is read from its stack (R239): an armed detector of the HBM page corrects the read, or finds it uncorrectable and
marks the line (R525). -/
def hbmRead (s : State) (pa : Nat) : State :=
  let pg := pgHbm (stackOf pa)
  if injects s pg 1 then errSet (bumpF (injFire s pg [8]) pg 0x090 15 0 1) pg 8 (lineBase pa)
  else if injects s pg 2 then errSet (setMark (bumpF (injFire s pg [9]) pg 0x094 15 0 1) pa) pg 9 (lineBase pa)
  else s

/-- An uncorrectable error of the slice's data marks the line it holds; under a clean line HBM4's copy stays as it was (R236). -/
def l2Mark (s : State) (pa : Nat) : State :=
  let g := gslice pa
  let x := slice s g
  let was := thas s.ram.marks (pa / 128)
  setMark (match findWay x (setOf pa) (pa / 128) with
    | some w => setSlice s g { x with lines := tmod x.lines (17 * setOf pa + w) (fun l =>
        if l.dirty then l else { l with below := some (l.below.getD was) }) }
    | none => s) pa

/-- Detectors of an L2S page (R525): the tag code at a lookup, the data code at a read of the data array. -/
def l2Inject (s : State) (pa : Nat) (read : Bool) : State :=
  let pg := pgL2s (gslice pa)
  if injects s pg 3 then errSet (bumpF (injFire s pg [8]) pg 0x090 15 0 1) pg 8 (lineBase pa)
  else if read && injects s pg 1 then errSet (bumpF (injFire s pg [8]) pg 0x090 15 0 1) pg 8 (lineBase pa)
  else if read && injects s pg 2 then errSet (l2Mark (injFire s pg [9]) pa) pg 9 (lineBase pa)
  else s

/-- A line enters a way of its set, which becomes the way used last. -/
def L2Slice.take (x : L2Slice) (set w : Nat) (l : L2Line) : L2Slice :=
  { x with lines := tput x.lines (17 * set + w) l, mru := tput x.mru set w }

/-- A line that the slice does not hold takes a free way of its set, or a victim's (R231). -/
def l2Alloc (s : State) (g set : Nat) (l : L2Line) : State :=
  let ws := waysFor s g set
  if ws.isEmpty then s
  else match ws.find? (fun w => !thas (slice s g).lines (17 * set + w)) with
    | some w => setSlice s g ((slice s g).take set w l)
    | none =>
      let vs := victims s g set
      let (f, s1) := takeFree s
      let w := vs.getD (f % vs.length) 0
      let s2 := displace s1 g (17 * set + w)
      setSlice s2 g ((slice s2 g).take set w l)

/-- An access under a key slot finds the line in a way. Under another slot than the line's, the slice writes it back if it is
dirty and refills it (R247). -/
def l2Hit (s : State) (g set w slot : Nat) (write : Bool) : State :=
  let key := 17 * set + w
  match tget? (slice s g).lines key with
  | none => s
  | some l =>
    if l.slot = slot then
      setSlice s g ((slice s g).take set w { l with dirty := l.dirty || write, below := if write then none else l.below })
    else
      let s1 := dropClean s (slice s g) key
      setSlice s1 g ((slice s1 g).take set w { l with dirty := write, slot := slot, below := none })

/-- An access reaches a line in its slice: hit, taken back from the eviction buffer, or allocated (R231, R232), filled from HBM4
when it needs the old line (`fill`). A slice in bypass reaches HBM4 (R483). -/
def l2Touch (s0 : State) (pa : Nat) (write : Bool) (slot : Nat) (fill : Bool) : State :=
  let g := gslice pa
  let line := pa / 128
  let set := setOf pa
  let x0 := slice s0 g
  let way := findWay x0 set line
  let evb := x0.evb.contains line
  let mine := match way with
    | some w => (tget? x0.lines (17 * set + w)).map (·.slot) == some slot
    | none => false
  let s1 := setSlice s0 g { x0 with used := true }
  let s2 := if x0.bypass then s1 else l2Inject s1 pa ((way.isSome || evb) && fill)
  let s3 := if fill && !(mine || (way.isNone && evb)) then hbmRead s2 pa else s2
  if x0.bypass then s3
  else match way with
  | some w => l2Hit s3 g set w slot write
  | none => l2Alloc (if evb then bumpF s3 (pgL2s g) 0x08C 15 0 1 else s3) g set { line := line, dirty := write, slot := slot }

/-- A read of a line at its home slice. -/
def touchRead (s : State) (slot pa : Nat) : State := l2Touch s pa false slot true

/-- Reads of the local lines that translations lead to. -/
def touchDests (s : State) (slot : Nat) (ds : List Dest) : State :=
  ds.foldl (fun s d => match d with
    | .loc p => touchRead s slot p
    | .mir p _ => touchRead s slot p
    | .rem _ => s) s

/-! Watches (R292 to R295). -/

def bel (s : State) (d : Nat) : Bel := tgetD s.bels d {}
def setBel (s : State) (d : Nat) (b : Bel) : State := { s with bels := tput s.bels d b }

/-- The value of a watch's counter under the slot of its registrant (R294). -/
def counterOf (s : State) (w : Watch) : Nat := rdN s w.slot w.pa 8

/-- Insertion by target, later registrations after earlier ones of equal target (R295). -/
def insertWatch (w : Watch) : List Watch → List Watch
  | [] => [w]
  | x :: t => if w.target < x.target then w :: x :: t else x :: insertWatch w t

def sortWatches (ws : List Watch) : List Watch := ws.foldl (fun acc w => insertWatch w acc) []

/-- The one notification of a watch that has ended (R293, R296). A HOST watch becomes an event, a REMOTE one a message; GROUP
and QUEUE notifications wait for their agent. -/
def sendNotice (s : State) (d : Nat) (e : Ended) : State :=
  match e.w.kind with
  | .host ring tag _ => raise s { ring := ring, kind := 1, tag := tag, value := e.value, info := e.status }
  | .rem dev reg =>
    if isDead s dev then errSet s (pgBel d) 12 dev
    else sendReq s { packet0 pkNotify dev e.w.space e.w.pa with txg := reg, operand := e.value, sub := e.status } (.notify d e.w.id)
  | _ => let b := bel s d; setBel s d { b with ended := b.ended ++ [e] }

/-- A watch has ended with a status (R293). While its page is not IDLE or BUSY the unit sends no notification (R292): it goes when
the page returns. -/
def notifyWatch (s : State) (d : Nat) (w : Watch) (status value : Nat) : State :=
  let s1 := if status = 0 then bumpF s (pgBel d) 0x088 15 0 1 else bumpF s (pgBel d) 0x088 31 16 1
  if inService s1 (pgBel d) && (bel s1 d).held.isEmpty then sendNotice s1 d ⟨w, status, value⟩
  else let b := bel s1 d; setBel s1 d { b with held := b.held ++ [⟨w, status, value⟩] }

/-- The end of a command is decided once (R337): status and INFO. -/
def Cmd.finish (c : Cmd) (status info : Nat) : Cmd :=
  match c.res with
  | some _ => c
  | none => { c with res := some (status, info, []) }

/-- A registration has ended in an error before its device took it: its watch ends with it (R296, R298). A refused
registration ends its WAIT with REMOTE_ERR; a refused PWAIT gets a status of R293 other than REACHED, a free value. -/
def watchFailed (s : State) (r : Req) (res : Nat) : State :=
  match r.owner with
  | .watch d reg =>
    (match (bel s d).remote.find? (fun x => x.1 == reg) with
     | none => s
     | some (_, w) =>
       let b := bel s d
       let s1 := setBel s d { b with remote := b.remote.filter (fun x => x.1 != reg) }
       if res = rqLost then notifyWatch s1 d w 4 0
       else match w.kind with
       | .group _ _ _ _ _ _ => let (f, s2) := takeFree s1; notifyWatch s2 d w (1 + f % 5) 0
       | .queue q n => { s1 with cmds := s1.cmds.map (fun c => if c.q = q && c.serial = n then c.finish 0x18 0 else c) }
       | _ => s1)
  | _ => s

/-- The watches whose registration has ended in an error at once. -/
def watchSweep (s : State) : State :=
  s.reqs.foldl (fun s r => match r.res with
    | some x => if x = rqDone then s else watchFailed s r x
    | none => s) s

/-- Every request that waits is tried; a registration that fails ends its watch. -/
def retryAll (s : State) : State := watchSweep (trySendAll s)

/-- An armed or waiting watch ends (R293). -/
def endWatch (s : State) (d : Nat) (w : Watch) (status : Nat) : State :=
  let b := bel s d
  let s1 := setBel s d { b with
    armed := b.armed.filter (fun x => x.id ≠ w.id), waitl := b.waitl.filter (fun x => x.id ≠ w.id)
    late := b.late.filter (fun x => x.1 ≠ w.id), fullTold := b.fullTold && !(b.waitl.filter (fun x => x.id ≠ w.id)).isEmpty }
  notifyWatch s1 d w status (counterOf s w)

/-- The distinct counters among watches. -/
def countersOf (ws : List Watch) : List Nat := (ws.map (·.pa)).eraseDups

/-- R305: an entry with an uncorrectable error ends its watch, with a notification when its target can still be read (a
free value); a spare takes its place, or the capacity shrinks. Which entry it is, is a free value. -/
def entryError (s : State) (d : Nat) (w : Watch) : State :=
  let (f, s1) := takeFree s
  let (ix, s2) := takeFree s1
  let b := bel s2 d
  let s3 := setBel s2 d { b with
    armed := b.armed.filter (fun x => x.id ≠ w.id)
    spareUsed := if b.spareUsed < 1024 then b.spareUsed + 1 else b.spareUsed
    shrunk := if b.spareUsed < 1024 then b.shrunk else b.shrunk + 1 }
  let s4 := cardPut (errSet s3 (pgBel d) 11 (ix % 33792)) ctRetired (blkId (pgBel d)) ((bel s3 d).spareUsed + (bel s3 d).shrunk)
  if f % 2 = 0 then notifyWatch s4 d w 5 (counterOf s w) else s4

/-- Detectors 1 and 2 of BEL (R525): the next entry read. -/
def belInject (s : State) (d : Nat) (ws : List Watch) : State :=
  match ws with
  | [] => s
  | w :: _ =>
    if injects s (pgBel d) 1 then injFire s (pgBel d) []
    else if injects s (pgBel d) 2 then entryError (injFire s (pgBel d) [11]) d w
    else s

/-- R292, R293, R295: the armed watches selected are evaluated against the present values. -/
def evalWatches (s0 : State) (d : Nat) (sel : Watch → Bool) : State :=
  let s := belInject s0 d ((bel s0 d).armed.filter sel)
  let ws := (bel s d).armed.filter sel
  if ws.isEmpty then s
  else
    let fell := countersOf (ws.filter (fun w => counterOf s w < w.last))
    let s1 := fell.foldl (fun s pa => errSet s (pgBel d) 8 pa) s
    let fire := sortWatches (ws.filter (fun w => counterOf s w ≥ w.target))
    let b := bel s1 d
    let upd := b.armed.map (fun w => if sel w then { w with last := counterOf s w } else w)
    let s2 := setBel s1 d { b with armed := upd }
    fire.foldl (fun st w => endWatch st d w 0) s2

/-- A write was performed at a line: the watches on counters in it are evaluated while the page is in service (R292). -/
def evalLine (s : State) (pa : Nat) : State :=
  let d := homeDie pa
  if inService s (pgBel d) then evalWatches s d (fun w => w.pa / 128 == pa / 128) else s

/-! Reservations (R281). -/

/-- A write to a granule ends the reservations on it, the writer's own STC apart. -/
def endResv (s : State) (pa : Nat) (own : Option (Nat × Nat)) : State :=
  { s with resvs := s.resvs.filter (fun r => r.1 ≠ pa / 256 || some (r.2.1, r.2.2) = own) }

/-! Line operations (R220). -/

/-- Every byte of the line is named. -/
def wholeLine (bytes : List (Nat × Nat)) : Bool := (List.range 128).all (fun i => bytes.any (fun b => b.1 == i))

/-- A write of bytes of one line at its home slice (R220, R221): memory, mark, directory, reservations, watches. `whole`: it
covers the line and does not read it. Lines of a fenced pseudo-channel discard writes (R244). -/
def lineStore (s : State) (slot pa : Nat) (bytes : List (Nat × Nat)) (mark : Bool) (own : Option (Nat × Nat)) (whole : Bool) : State :=
  if isFenced s pa then bumpF s (pgHbm (stackOf pa)) 0x094 15 0 1
  else
    let s1 := { s with ram := s.ram.write (keyId s slot) (pa / 128) bytes }
    let s2 := if whole then clrMark s1 pa else s1
    let s3 := if mark then setMark s2 pa else s2
    let s4 := l2Touch s3 pa true slot (!whole)
    evalLine (endResv s4 pa own) pa

/-- A write of bytes of one line. -/
def lineWrite (s : State) (slot pa : Nat) (bytes : List (Nat × Nat)) (mark : Bool) (own : Option (Nat × Nat)) : State :=
  lineStore s slot pa bytes mark own (wholeLine bytes)

/-- A number of `n` bytes written inside one line. -/
def lineWriteN (s : State) (slot a n v : Nat) : State :=
  lineWrite s slot (lineBase a) ((toBytes n v).mapIdx (fun i b => (a % 128 + i, b))) false none

/-- Bytes written at consecutive physical addresses, line by line. -/
def physWrite (s : State) (slot a : Nat) (bs : List Nat) : State :=
  let idx := bs.mapIdx (fun i b => (a + i, b))
  let lines := (idx.map (fun p => p.1 / 128)).eraseDups
  lines.foldl (fun s l => lineWrite s slot (128 * l) ((idx.filter (fun p => p.1 / 128 == l)).map (fun p => (p.1 % 128, p.2))) false none) s

/-- The bytes 0 to 127 of a line set to zero. -/
def zeroBytes : List (Nat × Nat) := (List.range 128).map (fun i => (i, 0))

/-- R109: operand size in bytes of an atomic kind. -/
def atomSize (kind : Nat) : Nat := if kind = 1 || kind = 13 || kind = 15 then 8 else 4

/-- R109: the new value of a location. -/
def atomApply (kind old a b : Nat) : Nat :=
  let w (n : Nat) : Word := BitVec.ofNat 32 n
  match kind with
  | 0 => (old + a) % 2 ^ 32
  | 1 => (old + a) % 2 ^ 64
  | 2 => (f32Add (w old) (w a)).toNat
  | 3 => if sext 32 a < sext 32 old then a else old
  | 4 => if a < old then a else old
  | 5 => (f32Min (w old) (w a)).toNat
  | 6 => if sext 32 a > sext 32 old then a else old
  | 7 => if a > old then a else old
  | 8 => (f32Max (w old) (w a)).toNat
  | 9 => Nat.land old a
  | 10 => Nat.lor old a
  | 11 => Nat.xor old a
  | 12 => a
  | 13 => a
  | _ => if old = a then b else old

/-- One atomic read-modify-write at the home slice (R70, R109): the old value and the state after. -/
def lineAtomic (s : State) (slot a kind x y : Nat) : Nat × State :=
  let n := atomSize kind
  let old := rdN s slot a n
  (old, lineWriteN s slot a n (atomApply kind old (x % 2 ^ (8 * n)) (y % 2 ^ (8 * n))))

/-- R290: a signal adds to a counter and saturates. -/
def lineSignal (s : State) (slot a amount : Nat) : State :=
  let old := rdN s slot a 8
  let s1 := if old + amount ≥ 2 ^ 64 then errSet s (pgBel (homeDie a)) 9 a else s
  lineWriteN s1 slot a 8 (satAdd old amount (2 ^ 64 - 1))

/-- The elements of a reduce-write with their new values: each addend is added in turn, so an element named twice takes both
(R209). -/
def reduced (s : State) (slot pa : Nat) (addends : List (Nat × Nat)) : List (Nat × Nat) :=
  ((addends.map (·.1)).eraseDups).map (fun e =>
    (e, ((addends.filter (fun a => a.1 == e)).foldl (fun v a => f32Add v (BitVec.ofNat 32 a.2))
      (BitVec.ofNat 32 (rdN s slot (lineBase pa + 4 * e) 4))).toNat))

/-- R209, R234: one reduce-write: FP32 addends by element of the line. It reads the line, whatever its mask; the mark of the
addends marks the line (R211), whose own mark stays (R221). -/
def lineReduce (s : State) (slot pa : Nat) (addends : List (Nat × Nat)) (mark : Bool) : State :=
  lineStore s slot (lineBase pa)
    (((reduced s slot pa addends).map (fun e => (toBytes 4 e.2).mapIdx (fun i b => (4 * e.1 + i, b)))).flatten) mark none false

/-! Transaction groups (R307 to R317). -/

def txgAt (s : State) (i : Nat) : Txg := tgetD s.txgs i {}
def setTxg (s : State) (i : Nat) (t : Txg) : State := { s with txgs := tput s.txgs i t }

/-- Fields of a handle (R307). -/
def hSlot (h : Nat) : Nat := bits h 5 0
def hDie (h : Nat) : Nat := bits h 7 6
def hGen (h : Nat) : Nat := bits h 31 8
def hIx (h : Nat) : Nat := 64 * hDie h + hSlot h
def handleOf (i gen : Nat) : Nat := i % 64 + 64 * (i / 64) + 256 * (gen % 2 ^ 24)

/-- The sequencer aborts an OPEN TXG; a COMMITTING one for REQUESTED, TXG_ERROR and TXG_RESET alone (R318, R321, R323). Its staged
lines are discarded and the slot is free. A commit that waits for it ends ABORTED with the cause (R309). -/
def txgAbort (s : State) (i cause : Nat) : State :=
  let t := txgAt s i
  if t.st = .opened || (t.st = .committing && (cause = 1 || cause = 8 || cause = 9)) then
    let s1 := setTxg s i { t with st := .free, ended := some cause, lines := [], by_ := none, anchor := false }
    let s2 := bumpF s1 (pgTxg (i / 64)) 0x088 31 16 1
    match t.by_ with
    | some (q, n) => { s2 with cmds := s2.cmds.map (fun c => if c.q = q && c.serial = n then c.finish 1 cause else c) }
    | none => s2
  else s

/-- The staged bytes and mark after one more staged write (R313). -/
def StLine.merge (l : StLine) (bytes : List (Nat × Nat)) (mark : Bool) : StLine :=
  { l with bytes := bytes.foldl (fun t b => tput t b.1 b.2) l.bytes,
           mark := if wholeLine bytes then mark else l.mark || mark }

/-- A write that names a TXG (R310, R315 to R317). `kindOk`: NORMAL region of a LOCAL range. -/
def stageWrite (s : State) (h space slot pa : Nat) (bytes : List (Nat × Nat)) (mark kindOk : Bool) : State :=
  let i := hIx h
  let t := txgAt s i
  let d := i / 64
  if t.st ≠ .opened || t.gen ≠ hGen h || t.space ≠ space then
    errSet (bumpF s (pgTxg d) 0x08C 15 0 1) (pgTxg d) 9 (lineBase pa)
  else if !kindOk then txgAbort s i 4
  else if homeDie pa ≠ d then txgAbort s i 3
  else
    let line := pa / 128
    let g := gslice pa
    let set := setOf pa
    if (slice s g).bypass || !thas t.lines line && (t.lines.length ≥ 16384 || stagedIn s g set ≥ 2) then
      errSet (txgAbort s i 2) (pgTxg d) 8 h
    else if thas t.lines line && injects s (pgTxg d) 1 then
      errSet (txgAbort (injFire s (pgTxg d) [10]) i 8) (pgTxg d) 10 (lineBase pa)
    else
      let s1 := if thas t.lines line then s else displace s g (17 * set + stagingWay (insvcAt s g set) (stagedIn s g set))
      let l := tgetD t.lines line ⟨[], false, slot⟩
      setTxg s1 i { t with lines := tput t.lines line (l.merge bytes mark) }

/-- A line whose accesses wait: held by a commit (R318) or by a lost pseudo-channel (R242). -/
def lineHeld (s : State) (pa : Nat) : Bool :=
  isPchHeld s pa ||
  s.txgs.any (fun t => (t.2.st == .committing || t.2.st == .committed) && thas t.2.lines (pa / 128))

/-- A staged line becomes the committed copy in one line operation (R313, R318 step 4). -/
def installLine (s : State) (line : Nat) (l : StLine) : State :=
  let was := isMarked s (128 * line)
  lineWrite s l.slot (128 * line) l.bytes (l.mark || (was && !wholeLine l.bytes)) none

/-- The frame of a counter is marked abandoned (R302). -/
def Bel.abandoned (b : Bel) (pa : Nat) : Bool :=
  let frame := pa / 2 ^ 21
  b.aband.any (fun r => r.1 ≤ frame && frame < r.1 + r.2)

/-- An entry is free for a space (R299). -/
def Bel.entryFree (b : Bel) (space : Nat) : Bool :=
  b.armed.length < 32768 - b.shrunk && (space = 0 || (b.armed.filter (fun x => x.space ≠ 0)).length < 31744 - b.shrunk)

/-- WATCH_FULL: a registration begins to wait for an entry, the first since the wait list was empty (R299). -/
def watchFull (s : State) (d : Nat) : State :=
  let b := bel s d
  if b.fullTold then s else errSet (setBel s d { b with fullTold := true }) (pgBel d) 10 0

/-- A registration is performed (R294): its counter is marked abandoned, at or above the target, or the watch is armed. -/
def decideWatch (s : State) (d : Nat) (w : Watch) : State :=
  let b := bel s d
  let v := counterOf s w
  if b.abandoned w.pa then notifyWatch s d w 1 v
  else if v ≥ w.target then notifyWatch s d w 0 v
  else setBel s d { b with armed := b.armed ++ [{ w with last := v }] }

/-- Register a watch at its counter's home slice (R294, R299, R302): it waits while the page is not IDLE or BUSY, and while no
entry is free for its space or another of its pool waits; a counter marked abandoned needs no entry. -/
def registerWatch (s : State) (d : Nat) (w : Watch) : State :=
  let b := bel s d
  let w := { w with id := b.nextId }
  let s := setBel s d { b with nextId := b.nextId + 1 }
  let b := bel s d
  let wait := setBel s d { b with waitl := b.waitl ++ [w] }
  if !inService s (pgBel d) then wait
  else if b.abandoned w.pa then decideWatch s d w
  else if !b.entryFree w.space then watchFull wait d
  else if b.waitl.any (fun x => (x.space == 0) == (w.space == 0)) then wait
  else decideWatch s d w

end Sys2Proof.Machine
end

