-- ==== Sys2Proof/Machine/Xlate.lean ====
section
/-!
DEFINITION. Address spaces and range translation (R249 to R264).
-/
namespace Sys2Proof.Machine

/-- Kinds of access (R258, ACCESS of R264). -/
inductive Acc4 where
  | read
  | write
  | rmw
  | fetch
  deriving DecidableEq, Repr

def Acc4.code : Acc4 → Nat
  | .read => 0
  | .write => 1
  | .rmw => 2
  | .fetch => 3

/-! Space descriptors (R252), in memory at XLT_SDT under the firmware's key slot. -/

def sdAddr (s : State) (die space : Nat) : Nat := regPair s (pgXlt die) 0x080 + 64 * space
def sdWord (s : State) (die space off n : Nat) : Nat := rdN s 255 (sdAddr s die space + off) n
def spaceState (s : State) (die space : Nat) : Nat := bits (sdWord s die space 0 4) 1 0
/-- The key slot that every access of a space uses (R246). -/
def spaceSlot (s : State) (die space : Nat) : Nat := bits (sdWord s die space 0 4) 15 8

/-- The key slot under which range tables and handle tables are read and written: the driver builds them through the memory
window in AS0 before the space exists, so it is AS0's own (R245, R251). DEDUCED. -/
def tableSlot : Nat := 255

/-! Causes of R264. -/
def cNoRange : Nat := 0
def cInvalid : Nat := 1
def cBadEntry : Nat := 2
def cNoncanon : Nat := 3
def cPermR : Nat := 4
def cPermW : Nat := 5
def cPermX : Nat := 6
def cPermHost : Nat := 7
def cPermMirror : Nat := 8
def cSpaceState : Nat := 9

/-- The order in which R264 names the cause of an access that fails for several. -/
def causeRank (c : Nat) : Nat :=
  match c with
  | 9 => 0
  | 3 => 1
  | 0 => 2
  | 1 => 2
  | 2 => 2
  | 4 => 3
  | 5 => 4
  | 6 => 5
  | 7 => 6
  | _ => 7

/-- Fault code of R80 for a cause. -/
def causeCode (c : Nat) : Nat := if c = 0 || c = 1 || c = 2 || c = 3 || c = 9 then 1 else 2

/-- A range entry in memory (R254). -/
def readEntry (s : State) (slot space pa : Nat) : XEntry :=
  let bs := readPhys s slot pa 32
  { space := space, vbase := leAt8 bs 0, frames := leAt4 bs 8, attr := leAt4 bs 12, target := leAt8 bs 16, mirror := leAt8 bs 24
    lim := 2 ^ 64 }

def XEntry.valid (e : XEntry) : Bool := e.attr.testBit 0
def XEntry.kind (e : XEntry) : Nat := bits e.attr 5 4
def XEntry.stop (e : XEntry) : Nat := e.vbase + e.frames * 2 ^ 21
def XEntry.covers (e : XEntry) (va : Nat) : Bool := e.vbase ≤ va && va < e.stop && va < e.lim

/-- A global address (R254): bit 63 set, [62:60] and [20:0] 0. -/
def globalOk (t : Nat) : Bool := bits t 63 63 == 1 && bits t 62 60 == 0 && bits t 20 0 == 0 && t < 2 ^ 64

/-- The entry holds no reserved value (R254, R255). -/
def entryOk (e : XEntry) : Bool :=
  bits e.vbase 20 0 == 0 && e.vbase < 2 ^ 48 && 1 ≤ e.frames && e.frames < 2 ^ 27 && e.attr < 256 && e.kind ≠ 3 &&
    (if e.kind = 1 then globalOk e.target && e.mirror == 0
     else bits e.target 20 0 == 0 && (if e.kind = 2 then globalOk e.mirror else e.mirror == 0))

/-- Every frame of a local or mirrored range is one of a die in service, none the firmware's but in AS0 (R251, R254). -/
def framesOk (s : State) (die : Nat) (e : XEntry) : Bool :=
  e.kind == 1 || (e.target < 2 ^ 40 && frameOf e.target + e.frames ≤ 95232 && (e.space == 0 || frameOf e.target ≥ regF s (pgXlt die) 0x088 16 0))

/-- Binary search for the last entry whose VBASE is at or below va: entries read, with their index (R255). -/
def searchAux (rd : Nat → XEntry) (va : Nat) : Nat → Nat → Nat → List (Nat × XEntry) → List (Nat × XEntry)
  | 0, _, _, acc => acc
  | k + 1, lo, hi, acc =>
    if hi ≤ lo then acc
    else
      let mid := (lo + hi) / 2
      let e := rd mid
      if e.vbase ≤ va then searchAux rd va k (mid + 1) hi ((mid, e) :: acc)
      else searchAux rd va k lo mid ((mid, e) :: acc)

/-- Entries in index order. -/
def insIx (x : Nat × XEntry) : List (Nat × XEntry) → List (Nat × XEntry)
  | [] => [x]
  | y :: t => if x.1 < y.1 then x :: y :: t else y :: insIx x t

/-- Two entries in index order are out of order, or valid and overlapping. -/
def XEntry.clash (x y : XEntry) : Bool := y.vbase < x.vbase || (x.valid && y.valid && x.stop > y.vbase)

/-- R256: among the entries read, in index order, the first later entry of a pair that breaks the order. -/
def disorder (es : List (Nat × XEntry)) : Option Nat :=
  (es.find? (fun y => es.any (fun x => x.1 < y.1 && x.2.clash y.2))).map (·.1)

/-- A walk of the table in use (R255, R256, R261): a cause, or the entry that maps the address. -/
def walk (s : State) (die space va : Nat) : (Nat ⊕ XEntry) × State :=
  let slot := tableSlot
  let act := bits (sdWord s die space 0 4) 16 16
  let base := sdWord s die space (if act = 0 then 0x08 else 0x18) 8
  let count := bits (sdWord s die space (if act = 0 then 0x04 else 0x10) 4) 16 0
  let s := bumpF s (pgXlt die) 0x08C 15 0 1
  let seen := searchAux (fun i => readEntry s slot space (base + 32 * i)) va 18 0 count []
  match disorder (seen.foldl (fun l x => insIx x l) []) with
  | some i => (.inl cBadEntry, errSet s (pgXlt die) 9 (base + 32 * i))
  | none =>
    match ((seen.foldl (fun l x => insIx x l) []).filter (fun x => x.2.vbase ≤ va)).getLast? with
    | none => (.inl cNoRange, s)
    | some (i, e) =>
      if !entryOk e then (.inl cBadEntry, errSet s (pgXlt die) 8 (base + 32 * i))
      else if !e.covers va then (.inl cNoRange, s)
      else if !e.valid then (.inl cInvalid, s)
      else if !framesOk s die e then (.inl cBadEntry, errSet s (pgXlt die) 8 (base + 32 * i))
      else
        let next := (seen.filter (fun x => va < x.2.vbase)).foldl (fun m x => min m x.2.vbase) (2 ^ 64)
        (.inr { e with lim := next }, s)

/-! Range caches (R261): most recently used first. -/

def agTile (t : Nat) : Nat := t
def agEng (e : Nat) : Nat := 1000 + e
def agDie (d : Nat) : Nat := 2000 + d
def agWin : Nat := 3000

def cacheCap (ag : Nat) : Nat := if ag < 1000 then 64 else if ag < 2000 then 128 else 4096

def cacheFind (s : State) (ag space va : Nat) : Option XEntry :=
  (tgetD s.xcache ag []).find? (fun e => e.space == space && e.covers va)

/-- An entry becomes the most recently used of its cache. A die cache keeps 8 entries of a set. -/
def cachePut (s : State) (ag : Nat) (e : XEntry) : State :=
  let rest := (tgetD s.xcache ag []).filter (fun x => !(x.space == e.space && x.vbase == e.vbase))
  let kept :=
    if ag < 2000 then rest.take (cacheCap ag - 1)
    else
      let inSet (x : XEntry) : Bool := Config.xltSet x.space x.vbase % 512 == Config.xltSet e.space e.vbase % 512
      match (rest.filter inSet)[7]? with
      | some old => rest.filter (fun x => !(x.space == old.space && x.vbase == old.vbase))
      | none => rest
  { s with xcache := tput s.xcache ag (e :: kept) }

/-- An armed parity detector meets a die cache hit (R261, R525): the entry is dropped. -/
def cacheParity (s : State) (die space va : Nat) : State :=
  let pg := pgXlt die
  if injects s pg 1 && (cacheFind s (agDie die) space va).isSome then
    let l := (tgetD s.xcache (agDie die) []).filter (fun e => !(e.space == space && e.covers va))
    errSet (injFire { s with xcache := tput s.xcache (agDie die) l } pg [10]) pg 10 space
  else s

/-- A lookup misses the requester's own cache: a tile counts it when it is asked to (R529). -/
def ownMiss (s : State) (ag : Nat) : State := if ag < 1000 then perfCount s ag 0x0E 1 else s

/-- R261: own cache, then the die's, then the walker; a walk fills both. -/
def lookup (s0 : State) (ag die space va : Nat) : (Nat ⊕ XEntry) × State :=
  let s0 := if ag = agDie die then cacheParity s0 die space va else s0
  match cacheFind s0 ag space va with
  | some e => (.inr e, cachePut s0 ag e)
  | none =>
    let s := if ag = agDie die then s0 else cacheParity (ownMiss s0 ag) die space va
    match cacheFind s (agDie die) space va with
    | some e => (.inr e, cachePut (cachePut s (agDie die) e) ag e)
    | none =>
      let s := bumpF s (pgXlt die) 0x090 15 0 1
      match walk s die space va with
      | (.inr e, s1) => (.inr e, cachePut (cachePut s1 (agDie die) e) ag e)
      | r => r

/-- The permission that is missing (R258, R260), in the order R, W, X, HOSTW, mirror. -/
def permCause (e : XEntry) (a : Acc4) (host : Bool) : Option Nat :=
  let needR := a = .read || a = .rmw
  let needW := a = .write || a = .rmw
  if needR && !e.attr.testBit 1 then some cPermR
  else if needW && !e.attr.testBit 2 then some cPermW
  else if a = .fetch && !e.attr.testBit 3 then some cPermX
  else if host && !e.attr.testBit 6 then some cPermHost
  else if a = .rmw && e.kind = 2 then some cPermMirror
  else none

/-- Where an address of a mapped range leads (R254). -/
def XEntry.dest (e : XEntry) (va : Nat) : Dest :=
  let o := va - e.vbase
  if e.kind = 1 then .rem ⟨e.target + o, e.attr.testBit 7⟩
  else if e.kind = 2 then .mir (e.target + o) ⟨e.mirror + o, false⟩
  else .loc (e.target + o)

/-- Translation and permission of one address: a cause, or where it leads and whether its range is ORDERED. -/
def translate (s : State) (ag die space va : Nat) (a : Acc4) (host : Bool) : (Nat ⊕ (Dest × Bool)) × State :=
  if spaceState s die space ≠ 1 then (.inl cSpaceState, s)
  else if va ≥ 2 ^ 48 then (.inl cNoncanon, s)
  else match lookup s ag die space va with
    | (.inl c, s1) => (.inl c, s1)
    | (.inr e, s1) => match permCause e a host with
      | some c => (.inl c, s1)
      | none => (.inr (e.dest va, e.attr.testBit 7), s1)

/-- The outcome of translating a whole access (R263): each address with where it leads, and the failing ones. -/
structure XOut where
  ok    : List (Nat × Dest × Bool) := []
  fails : List (Nat × Nat) := []
  /-- the highest address of the access, where it is made of byte runs -/
  top   : Nat := 0
  deriving DecidableEq, Repr

def translateEach (s : State) (ag die space : Nat) (a : Acc4) (host : Bool) : List Nat → XOut × State
  | [] => ({}, s)
  | va :: t =>
    match translate s ag die space va a host with
    | (.inl c, s1) => let (o, s2) := translateEach s1 ag die space a host t; ({ o with fails := (va, c) :: o.fails }, s2)
    | (.inr (d, ord), s1) => let (o, s2) := translateEach s1 ag die space a host t; ({ o with ok := (va, d, ord) :: o.ok }, s2)

/-- Of the lookups of one access that found their entry in no cache, those that came while the walk for the same entry was in
flight merged into it (R261): how many is a free value. -/
def mergeWalks (s s1 : State) (ag die space : Nat) (vas : List Nat) : State :=
  let missed := vas.filter (fun va => (cacheFind s ag space va).isNone && (cacheFind s (agDie die) space va).isNone)
  let walked := ((missed.filterMap (cacheFind s1 ag space)).map (·.vbase)).eraseDups
  let most := (missed.filter (fun va => (cacheFind s1 ag space va).isSome)).length - walked.length
  if most = 0 then s1
  else
    let (f, s2) := takeFree s1
    bumpF s2 (pgXlt die) 0x08C 31 16 (f % (most + 1))

/-- Translation of every address of one access. -/
def translateAll (s : State) (ag die space : Nat) (a : Acc4) (host : Bool) (vas : List Nat) : XOut × State :=
  let (o, s1) := translateEach s ag die space a host vas
  (o, mergeWalks s s1 ag die space vas)

/-- R263, R264: lowest failing address and the cause the record names. -/
def XOut.fault (o : XOut) : Option (Nat × Nat) :=
  match o.fails with
  | [] => none
  | f :: t =>
    let lo := t.foldl (fun m x => if x.1 < m then x.1 else m) f.1
    let c := t.foldl (fun m x => if causeRank x.2 < causeRank m then x.2 else m) f.2
    some (lo, c)

/-- A failed translation counts in XLT_FAULTS (R266 table). -/
def countXltFault (s : State) (die : Nat) (o : XOut) : State :=
  if o.fails.isEmpty then s else bumpF s (pgXlt die) 0x094 15 0 1

/-- The 32-byte translation fault record (R264). -/
def faultRecord (addr cause : Nat) (a : Acc4) (space ag last : Nat) : List Nat :=
  toBytes 8 addr ++ toBytes 4 (causeCode cause + 256 * cause + 65536 * a.code) ++ toBytes 4 space ++ toBytes 4 ag ++
    toBytes 4 0 ++ toBytes 8 last

/-- The lines that a run of bytes touches. -/
def linesOf (va n : Nat) : List Nat :=
  if n = 0 then [] else (rangeFrom (va / 128) ((va + n - 1) / 128 + 1 - va / 128)).map (· * 128)

/-- Translation of every line of some byte runs (address, length): a failing line is named by the lowest byte used in it. -/
def translateRuns (s : State) (ag die space : Nat) (a : Acc4) (host : Bool) (runs : List (Nat × Nat)) : XOut × State :=
  let (o, s1) := translateAll s ag die space a host ((runs.map (fun r => linesOf r.1 r.2)).flatten.eraseDups)
  let low (l : Nat) : Nat := runs.foldl (fun m r =>
    let b := if r.1 < l then l else r.1
    if r.2 ≠ 0 && b / 128 == l / 128 && b < r.1 + r.2 && b < m then b else m) (l + 127)
  ({ o with fails := o.fails.map (fun f => (low f.1, f.2)), top := runs.foldl (fun m r => if r.2 ≠ 0 && m < r.1 + r.2 - 1 then r.1 + r.2 - 1 else m) 0 }, s1)

/-- The fabric packet that carries a write to a global address: device, target address (R254, R404). -/
def gDev (g : Nat) : Nat := bits g 59 48
def gAddr (g : Nat) : Nat := bits g 47 0
def Glob.dev (g : Glob) : Nat := gDev g.a
def Glob.addr (g : Glob) : Nat := gAddr g.a
def Glob.line (g : Glob) : Glob := { g with a := g.a / 128 * 128 }

/-- A packet for a global address; an ORDERED range selects ordered routing (R259). -/
def pktTo (k : Packet) (g : Glob) : Packet := { k with dst := g.dev, addr := g.addr, flags := if g.ord then flOrdered else 0 }

/-- Some line that a translated access leads to is held (R242, R318). -/
def xoutHeld (s : State) (o : XOut) : Bool :=
  o.ok.any (fun x => match x.2.1 with
    | .loc p => lineHeld s p
    | .mir p _ => lineHeld s p
    | .rem _ => false)

/-- A read or a write of bytes at a virtual address has to wait: a line of it is held. -/
def virtHeld (s : State) (ag die space va n : Nat) (a : Acc4) : Bool := xoutHeld s (translateRuns s ag die space a false [(va, n)]).1

/-- What a read at a virtual address comes to: a translation fault, a wait for a held line or for another device, or the bytes
and those of their lines that carry the mark. -/
inductive VRead where
  | fault
  | wait
  | got (bs : List Nat) (marks : List Nat)
  deriving DecidableEq, Repr

/-- The answer to a request that an agent has made for a virtual address, where it has come; the request is made when there is
none. -/
def askVirt (s : State) (ag space va : Nat) (k : Packet) : Option Req × State :=
  let o : ReqOwner := .virt ag space va
  let s1 := if s.reqs.any (fun r => r.owner == o) then s else sendReq s k o
  ((s1.reqs.find? (fun r => r.owner == o && r.res.isSome)), s1)

/-- An agent gives up the reads it has asked for by virtual address: answers not taken are gone, and nobody waits for those to
come. Its atomics, whose numbers are no lines, stay. -/
def dropVirt (s : State) (ag : Nat) : State :=
  let mine (r : Req) : Bool := match r.owner with
    | .virt a _ va => a == ag && va < 2 ^ 48
    | _ => false
  { s with reqs := (s.reqs.filter (fun r => !(mine r && r.res.isSome))).map (fun r => if mine r then { r with owner := .none } else r) }

/-- The remote lines of a translated read, each with its answer. -/
def askLines (s : State) (ag space : Nat) : List (Nat × Dest × Bool) → List (Nat × Option Req) × State
  | [] => ([], s)
  | (l, .rem g, _) :: t =>
    let (r, s1) := askVirt s ag space l (pktTo (packet0 pkRead 0 space 0) g.line)
    let (rs, s2) := askLines s1 ag space t
    ((l, r) :: rs, s2)
  | _ :: t => askLines s ag space t

/-- Read `n` bytes at a virtual address of a space, all of it mapped. Remote lines are read over the fabric (R259). -/
def readVirt (s : State) (ag die space va n : Nat) (a : Acc4) : (XOut × VRead) × State :=
  let (o, s1) := translateRuns s ag die space a false [(va, n)]
  let slot := spaceSlot s die space
  if !o.fails.isEmpty then ((o, .fault), countXltFault s1 die o)
  else
    let (rs, s2) := askLines s1 ag space o.ok
    if xoutHeld s2 o || rs.any (fun r => r.2.isNone) then ((o, .wait), s2)
    else
      let s3 := touchDests s2 slot (o.ok.map (·.2.1))
      let lineOf (x : Nat) : List Nat × Bool :=
        match (rs.find? (fun r => r.1 == x)).bind (·.2) with
        | some r => r.line
        | none => ([], false)
      let byteAt (x : Nat) : Nat := match o.ok.find? (fun l => l.1 == x / 128 * 128) with
        | some (_, .loc p, _) => byteUnder s3.ram (keyId s3 slot) (p + x % 128)
        | some (_, .mir p _, _) => byteUnder s3.ram (keyId s3 slot) (p + x % 128)
        | _ => (lineOf (x / 128 * 128)).1.getD (x % 128) 0
      let marks := (o.ok.filter (fun l => match l.2.1 with
        | .loc p => isMarked s3 p
        | .mir p _ => isMarked s3 p
        | .rem _ => (lineOf l.1).2)).map (·.1)
      ((o, .got ((rangeFrom va n).map byteAt) marks), delReqs s3 (rs.filterMap (fun r => r.2.map (·.id))))

/-- The range entry whose mirror holds a buddy address, for the report of R495: space, base, buddy. -/
def mirKey (s : State) (ag space : Nat) (g : Glob) : Nat × Nat × Nat :=
  match (tgetD s.xcache ag []).find? (fun e => e.space == space && e.kind == 2 && e.mirror ≤ g.a && g.a < e.mirror + e.frames * 2 ^ 21) with
  | some e => (space, e.vbase, bits g.a 59 48)
  | none => (space, g.a / 2 ^ 21 * 2 ^ 21, bits g.a 59 48)

/-- Write bytes at a virtual address of a space, all of it mapped: local lines at their home slices, the mirror copies and
remote lines as requests that `owner` waits for. `txg` names a transaction group (R310, R316). -/
def writeVirt (s : State) (ag die space va : Nat) (bs : List Nat) (mark : Bool) (txg : Option Nat) (stream : Nat) (owner : ReqOwner) :
    XOut × State :=
  let (o, s1) := translateRuns s ag die space .write false [(va, bs.length)]
  let slot := spaceSlot s die space
  if !o.fails.isEmpty then (o, countXltFault s1 die o)
  else
    let idx := bs.mapIdx (fun i b => (va + i, b))
    let part (l : Nat) := (idx.filter (fun p => p.1 / 128 * 128 == l)).map (fun p => (p.1 % 128, p.2))
    let remote (s : State) (g : Glob) (l : Nat) (m : Option (Nat × Nat × Nat)) : State :=
      sendMir s (pktTo (pktWrite 0 space 0 stream (part l) mark) g.line) owner m
    (o, o.ok.foldl (fun s x =>
      match txg, x.2.1 with
      | some h, .loc p => stageWrite s h space slot p (part x.1) mark true
      | some h, .mir p _ => stageWrite s h space slot p (part x.1) mark false
      | some h, .rem _ => stageWrite s h space slot 0 (part x.1) mark false
      | none, .loc p => lineWrite s slot (lineBase p) (part x.1) mark none
      | none, .mir p g => remote (lineWrite s slot (lineBase p) (part x.1) mark none) g x.1 (some (mirKey s ag space g))
      | none, .rem g => remote s g x.1 none) s1)

/-- A write of bytes of one line that waits at its slice while the line is held (R242, R318). -/
def lineWriteLate (s : State) (slot pa : Nat) (bytes : List (Nat × Nat)) : State :=
  if lineHeld s pa then
    let x := slice s (gslice pa)
    setSlice s (gslice pa) { x with waits := x.waits ++ [.bytes slot pa bytes] }
  else lineWrite s slot (lineBase pa) bytes false none

/-- Bytes of one line written at a virtual address by an agent that waits for nothing: a held line takes them when it is
released. -/
def writeLate (s : State) (ag die space va : Nat) (bs : List Nat) (stream : Nat) : XOut × State :=
  let (o, s1) := translateRuns s ag die space .write false [(va, bs.length)]
  let slot := spaceSlot s die space
  let bytes := bs.mapIdx (fun i b => (va % 128 + i, b))
  let send (s : State) (g : Glob) (m : Option (Nat × Nat × Nat)) : State :=
    sendMir s (pktTo (pktWrite 0 space 0 stream bytes false) g.line) .none m
  match o.ok with
  | (_, .loc p, _) :: _ => (o, lineWriteLate s1 slot p bytes)
  | (_, .mir p g, _) :: _ => (o, send (lineWriteLate s1 slot p bytes) g (some (mirKey s ag space g)))
  | (_, .rem g, _) :: _ => (o, send s1 g none)
  | [] => (o, countXltFault s1 die o)

/-- The number under which an agent waits for its atomic of a kind and an operand at an address: that of no line. -/
def atomKey (va kind x : Nat) : Nat := va + 1 + 2 ^ 48 * (x + 2 ^ 32 * kind)

/-- One 32-bit atomic of kind R109 at a virtual address of a space by an agent of no command: its old value. In a REMOTE range
the target device performs it. -/
def atomVirt (s : State) (ag die space va kind x stream : Nat) : (XOut × VRead) × State :=
  let (o, s1) := translateAll s ag die space .rmw false [va]
  let slot := spaceSlot s die space
  match o.ok with
  | (_, .rem g, _) :: _ =>
    let k := { pktTo (packet0 pkAtomic 0 space 0) g.line with stream := stream, sub := kind, operand := 1, data := [va % 128, x, 0] }
    (match askVirt s1 ag space (atomKey va kind x) k with
     | (some r, s2) =>
       let bs := if r.res = some rqDone then toBytes 4 (r.data.getD 0 0) else r.line.1.take 4
       ((o, .got bs (if r.line.2 then [lineBase va] else [])), delReqs s2 [r.id])
     | (none, s2) => ((o, .wait), s2))
  | (_, .loc p, _) :: _ =>
    if lineHeld s1 p then ((o, .wait), s1)
    else
      let mark := isMarked s1 p
      let (old, s2) := lineAtomic s1 slot p kind x 0
      ((o, .got (toBytes 4 old) (if mark then [lineBase va] else [])), s2)
  | _ => ((o, .fault), countXltFault s1 die o)

end Sys2Proof.Machine
end

