-- ==== Sys2Proof/Machine/Groups.lean ====
section
/-!
DEFINITION. Thread groups: registers and masks (R92), dependency counters (R94, R95), the mask stack (R63, R64), barriers
(R67 to R69), faults and the start of parking (R72 to R77).
-/
namespace Sys2Proof.Machine

/-! Tiles and groups in the state. -/

def group? (s : State) (t n : Nat) : Option Group := tget? (tile s t).groups n
def wg? (s : State) (t w : Nat) : Option Wg := tget? (tile s t).wgs w

def setGroup (s : State) (t n : Nat) (g : Group) : State :=
  modTile s t (fun x => { x with groups := tput x.groups n g })
def modGroup (s : State) (t n : Nat) (f : Group → Group) : State :=
  modTile s t (fun x => { x with groups := tmod x.groups n f })
def setWg (s : State) (t w : Nat) (g : Wg) : State := modTile s t (fun x => { x with wgs := tput x.wgs w g })
def modWg (s : State) (t w : Nat) (f : Wg → Wg) : State := modTile s t (fun x => { x with wgs := tmod x.wgs w f })

def tileDie (t : Nat) : Nat := t / 44

/-- The groups of a workgroup, with their slots. -/
def Tile.groupsOf (x : Tile) (w : Nat) : List (Nat × Group) := x.groups.filter (fun p => p.2.wg == w)

/-! Registers (R92). A destination of 0xFF discards (R93). -/

def Group.vget (g : Group) (r l : Nat) : Word := tgetD g.v (64 * r + l) 0
def Group.vput (g : Group) (r l : Nat) (w : Word) : Group := { g with v := tputD g.v (64 * r + l) w 0 }
def Group.uget (g : Group) (i : Nat) : Nat := (tgetD g.u i 0).toNat
def Group.uput (g : Group) (i v : Nat) : Group := { g with u := tputD g.u i (BitVec.ofNat 64 v) 0 }
/-- Bits at and above the width read 0 and ignore writes (R92). -/
def Group.pget (g : Group) (i : Nat) : Nat := (tgetD g.p i 0).toNat % 2 ^ g.width
def Group.pput (g : Group) (i v : Nat) : Group := { g with p := tputD g.p i (BitVec.ofNat 64 (v % 2 ^ g.width)) 0 }

/-- Vector writes (register, lane, word). -/
def Group.vputs (g : Group) (ws : List (Nat × Nat × Nat)) : Group :=
  ws.foldl (fun g w => g.vput w.1 w.2.1 (BitVec.ofNat 32 w.2.2)) g

def maskAll (w : Nat) : Nat := 2 ^ w - 1
def andNot (a b : Nat) : Nat := a - Nat.land a b

/-- The active lanes in ascending order. -/
def Group.lanes (g : Group) : List Nat := (List.range g.width).filter (fun l => g.active.testBit l)

/-! Dependency counters (R94, R95). -/

/-- A counter's value: the instructions of its class that do not count as complete. -/
def Group.count (g : Group) (c : Nat) : Nat := (g.pend.filter (fun p => p.cls == c)).length

/-- R95: completed instructions leave only behind every older one of their class. -/
def retireCls (c : Nat) : List Pend → List Pend
  | [] => []
  | p :: t => if p.cls = c then (if p.done then retireCls c t else p :: t) else p :: retireCls c t

def retireAll (ps : List Pend) : List Pend := (List.range 6).foldl (fun l c => retireCls c l) ps

/-- The instruction `id` completes. -/
def Group.complete (g : Group) (id : Nat) : Group :=
  { g with pend := retireAll (g.pend.map (fun p => if p.id = id then { p with done := true } else p)) }

def Group.addPend (g : Group) (cls : Nat) (done : Bool) (k : PKind) : Group :=
  { g with pend := retireAll (g.pend ++ [{ id := g.nextId, cls := cls, done := done, kind := k }]), nextId := g.nextId + 1 }

/-- Every counter reads zero (R98). -/
def Group.idle (g : Group) : Bool := g.pend.isEmpty

/-! The mask stack (R63, R64). -/

/-- JOIN on a stack that is not empty. -/
def Group.joinTop (g : Group) : Group :=
  match g.stack with
  | [] => g
  | e :: t =>
    if e.phase = 0 && e.deferred ≠ 0 then
      { g with stack := { e with phase := 1 } :: t, active := e.deferred, pc := e.t1 }
    else { g with stack := t, active := Nat.land e.saved g.live, pc := e.t2 }

/-- R64: JOIN at once while the active mask is empty and the stack is not. -/
def Group.autoJoin : Nat → Group → Group
  | 0, g => g
  | k + 1, g => if g.active = 0 && !g.stack.isEmpty then Group.autoJoin k g.joinTop else g

/-- R64: a group whose live mask is empty has finished. -/
def Group.settle (g : Group) : Group :=
  let g := Group.autoJoin 80 g
  if g.live = 0 then { g with stat := .finished } else g

/-! Reasons (R72) and fault codes (R80). -/
def rPreempt : Nat := 1
def rMigrate : Nat := 2
def rFault : Nat := 3
def rStranded : Nat := 4
def rDebug : Nat := 5
def rWait : Nat := 6
def rCompanion : Nat := 7

def fXlt : Nat := 1
def fPerm : Nat := 2
def fAlign : Nat := 3
def fBounds : Nat := 4
def fIllegal : Nat := 5
def fOverflow : Nat := 6
def fUnderflow : Nat := 7
def fNesting : Nat := 8
def fRange : Nat := 9
def fPoison : Nat := 10
def fEcc : Nat := 11
def fArray : Nat := 12
def fRow : Nat := 13
def fTrap : Nat := 14

/-! Parking starts (R73 step 1, R77). -/

/-- The reason a group carries for a request (R77): its own fault, its park-wait, else the request's reason for a request
of PREEMPT, MIGRATE or DEBUG, COMPANION otherwise. -/
def groupReason (reason : Nat) (g : Group) : Nat :=
  if g.fault.isSome then rFault
  else if g.pwaitS.isSome then rWait
  else if reason = rStranded then (if g.stat = .barrier then rStranded else rCompanion)
  else if reason = rPreempt || reason = rMigrate || reason = rDebug then reason
  else rCompanion

/-- R322: parks other than PREEMPT and MIGRATE abort the transaction group of each bound group and end the binding. -/
def unbindForPark (s : State) (gs : List (Nat × Group)) : State :=
  gs.foldl (fun s p => match p.2.txg with
    | some h => if (txgAt s (hIx h)).gen = hGen h then txgAbort s (hIx h) 5 else s
    | none => s) s

/-- A cause that meets a workgroup already stopped changes the reason of its own group alone (R77). -/
def regroup (s : State) (t : Nat) (gs : List (Nat × Group)) : State :=
  gs.foldl (fun s p =>
    if p.2.fault.isSome || p.2.pwaitS.isSome then modGroup s t p.1 (fun g => { g with stopped := true, reason := groupReason g.reason g })
    else s) s

/-- Commands that groups have offered and no engine has accepted are withdrawn (R73). -/
def dropOffers (s : State) (t : Nat) (ns : List Nat) : State :=
  modTile s t (fun x =>
    { x with arr := { x.arr with cmds := x.arr.cmds.filter (fun c => !(c.stage == .offered && ns.contains c.slot)) }
             row := { x.row with cmds := x.row.cmds.filter (fun c => !(c.stage == .offered && ns.contains c.slot)) } })

/-- The reservations of groups end (R281). -/
def endResvs (s : State) (t : Nat) (ns : List Nat) : State :=
  { s with resvs := s.resvs.filter (fun r => !(r.2.1 == t && ns.contains r.2.2)) }

/-- Groups stop for a reason of R72; only PREEMPT and MIGRATE keep a binding (R322). -/
def stopGroups (s : State) (t : Nat) (gs : List (Nat × Group)) (reason : Nat) : State :=
  gs.foldl (fun s p => modGroup s t p.1 (fun g =>
    { g with stopped := true, reason := groupReason reason g, offer := none,
             txg := if reason = rPreempt || reason = rMigrate then g.txg else none })) s

/-- A park is asked for by another agent (R72), not caused by a group of the workgroup. -/
def askedReason (reason : Nat) : Bool := reason = rPreempt || reason = rMigrate || reason = rDebug

/-- The last group of the workgroup has finished: a park asked for now is answered NOTHING_TO_PARK (R77). -/
def Tile.wgFinished (x : Tile) (w : Nat) : Bool := (x.groupsOf w).all (fun p => p.2.stat == .finished)

/-- Every group of the workgroup stops at a bundle boundary and takes no steps; reservations end (R281, R284). A park with
reason PREEMPT or MIGRATE waits while a group holds a binding (R322). -/
def stopWg (s : State) (t w reason : Nat) : State :=
  match wg? s t w with
  | none => s
  | some wg =>
    let gs := (tile s t).groupsOf w
    if wg.park = .draining then regroup s t gs
    else if wg.park ≠ .none then s
    else if askedReason reason && (tile s t).wgFinished w then
      modWg (modTile s t (fun x => { x with noPark := x.noPark ++ [(w, reason)] })) t w (fun x => { x with asked := 0 })
    else if (reason = rPreempt || reason = rMigrate) && gs.any (fun p => p.2.txg.isSome) then
      (if wg.asked = 0 then modWg s t w (fun x => { x with asked := reason }) else s)
    else
      let s1 := if reason = rPreempt || reason = rMigrate then s else unbindForPark s gs
      let ns := gs.map (·.1)
      let s3 := endResvs (dropOffers (stopGroups s1 t gs reason) t ns) t ns
      modWg s3 t w (fun x => { x with park := .draining, parkReason := reason, asked := 0 })

/-- A park that waited for bindings starts once no group holds one (R322). -/
def parkAsked (s : State) (t w : Nat) : State :=
  match wg? s t w with
  | none => s
  | some wg =>
    let gs := (tile s t).groupsOf w
    if wg.asked = 0 || gs.any (fun p => p.2.txg.isSome) then s
    else stopWg s t w wg.asked

/-- The fault part of a record that holds one already: a further lane of the same imprecise fault joins it; any other leaves it,
but for IMPRECISE (R75). -/
def FaultRec.join (old new : FaultRec) : FaultRec :=
  if old.imprecise && new.imprecise && old.code = new.code && old.bundle = new.bundle then
    { old with lanes := Nat.lor old.lanes new.lanes, addr := min old.addr new.addr }
  else { old with imprecise := old.imprecise || new.imprecise }

/-- A group faults (R74, R75): its record is kept, its workgroup stops. -/
def groupFault (s : State) (t n : Nat) (f : FaultRec) : State :=
  match group? s t n with
  | none => s
  | some g =>
    let s1 := setGroup s t n { g with fault := some ((g.fault.map (·.join f)).getD f) }
    stopWg (bumpF s1 (pgTile t) 0x094 15 0 1) t g.wg rFault

/-! Barriers (R67 to R69). -/

/-- Some lane of an entry leads to a local home slice. -/
def SbEntry.hasLocal (e : SbEntry) : Bool :=
  e.lanes.any (fun l => match l.dst with
    | .rem _ => false
    | _ => true)

/-- The entry is still to be performed at a local home slice. -/
def SbEntry.localOpen (e : SbEntry) : Bool := !e.localDone && e.hasLocal

/-- The group that an entry belongs to is still the one in its slot. -/
def Tile.owns (x : Tile) (e : SbEntry) : Bool := ((tget? x.groups e.slot).map (·.born)) == some e.born

/-- A store of the workgroup that has not been performed at its local home slice (R68, R279). -/
def Tile.openStores (x : Tile) (w : Nat) : Bool :=
  (x.sb ++ x.posted).any (fun e => ((tget? x.groups e.slot).map (·.wg)) == some w && x.owns e && e.localOpen)

/-- A load of the workgroup that has not returned (R278, R279). -/
def Tile.openLoads (x : Tile) (w : Nat) : Bool := (x.groupsOf w).any (fun p => p.2.pend.any (fun q => q.cls == 0 && !q.done))

/-- R67: arrived lanes plus exited lanes are all lanes: every live lane of the resident groups has arrived. -/
def Tile.barFull (x : Tile) (w : Nat) : Bool :=
  let gs := x.groupsOf w
  gs.any (fun p => p.2.stat == .barrier) && gs.all (fun p => andNot p.2.live p.2.arrived == 0)

/-- R67, R69: the barrier of a workgroup is evaluated. -/
def evalBarrier (s : State) (t w : Nat) : State :=
  let x := tile s t
  let gs := x.groupsOf w
  match wg? s t w with
  | none => s
  | some wg =>
    if wg.park ≠ .none then s
    else if x.barFull w then
      if x.openStores w || x.openLoads w then s
      else
        let s1 := gs.foldl (fun s p => modGroup s t p.1 (fun g =>
          { g with arrived := 0, stat := if g.stat = .barrier then .run else g.stat })) s
        modWg s1 t w (fun g => { g with barGen := (g.barGen + 1) % 2 ^ 32 })
    else if gs.any (fun p => p.2.stat == .barrier) && gs.all (fun p => p.2.stat == .barrier || p.2.stat == .finished) &&
        gs.all (fun p => !p.2.stopped) then
      stopWg (bumpF s (pgTile t) 0x094 15 0 1) t w rStranded
    else s

/-! The L1 (R228 to R230). -/

def l1Set (vline : Nat) : Nat := vline / 128 % 256

def Tile.l1Find (x : Tile) (space vline : Nat) : Option L1Line :=
  x.l1.find? (fun l => l.space == space && l.vline == vline)

/-- A copy becomes the most recently used of its set; the set keeps eight. -/
def Tile.l1Put (x : Tile) (l : L1Line) : Tile :=
  let rest := x.l1.filter (fun y => !(y.space == l.space && y.vline == l.vline))
  let same := rest.filter (fun y => l1Set y.vline == l1Set l.vline)
  let drop := (same.drop 7).map (fun y => (y.space, y.vline))
  { x with l1 := l :: rest.filter (fun y => !drop.contains (y.space, y.vline)) }

def Tile.l1Drop (x : Tile) (space vline : Nat) : Tile :=
  { x with l1 := x.l1.filter (fun y => !(y.space == space && y.vline == vline)) }

/-- The L1 is invalidated whole (R229): no line asked for before is brought in after. -/
def l1Inval (s : State) (t : Nat) : State :=
  bumpF (modTile s t (fun x => { x with l1 := [], prefs := [], l1Req := s.nextReq })) (pgL1c t) 0x080 15 0 1

/-- A line that another device has sent is brought into the L1, unless the L1 has been invalidated since it was asked for. -/
def Tile.l1Fill (x : Tile) (space vline : Nat) (r : Req) : Tile :=
  if r.id < x.l1Req then x else x.l1Put ⟨space, vline, r.line.1, r.line.2⟩

/-- A hit meets an armed parity detector (R230, R525): the copy is dropped and the access becomes a miss. -/
def l1Parity (s : State) (t space vline : Nat) : State :=
  let pg := pgL1c t
  if injects s pg 1 && ((tile s t).l1Find space vline).isSome then
    errSet (bumpF (modTile (injFire s pg [8]) t (fun x => x.l1Drop space vline)) pg 0x084 15 0 1) pg 8 vline
  else s

/-- A line of a NORMAL region read through the L1: the copy, or the home line, which is then allocated. -/
def l1Read (s : State) (t space slot vline pa : Nat) : (List Nat × Bool) × State :=
  match (tile s t).l1Find space vline with
  | some l => ((l.data, l.mark), modTile s t (fun x => x.l1Put l))
  | none =>
    let s1 := touchRead s slot pa
    let data := readPhys s1 slot (lineBase pa) 128
    let mark := isMarked s1 pa
    ((data, mark), modTile s1 t (fun x => x.l1Put ⟨space, vline, data, mark⟩))

/-- Lines that PREF asked for and that are no longer held come into the L1 (R108). -/
def prefSweep (s : State) (t : Nat) : State :=
  let (now, wait) := (tile s t).prefs.partition (fun p => !lineHeld s p.pa)
  if now.isEmpty then s
  else now.foldl (fun s p => (l1Read s t p.space (spaceSlot s (tileDie t) p.space) p.vline p.pa).2)
    (modTile s t (fun x => { x with prefs := wait }))

/-! Regions (R267, R272). -/

/-- The type of one lane: STRICT when entries of different types cover it. -/
def laneType (x : Tile) (l : LaunchKey) (va : Nat) : Nat :=
  let ts := ((x.rgn.filter (fun r => r.launch = l && r.base ≤ va && va < r.base + 4096 * r.pages)).map (·.typ)).eraseDups
  match ts with
  | [] => 0
  | [t] => t
  | _ => 3

/-- The type of an access and whether the fall-back of R272 made it STRICT. -/
def accType (x : Tile) (l : LaunchKey) (vas : List Nat) : Nat × Bool :=
  let multi := vas.any (fun va => ((x.rgn.filter (fun r => r.launch = l && r.base ≤ va && va < r.base + 4096 * r.pages)).map (·.typ)).eraseDups.length > 1)
  match (vas.map (laneType x l)).eraseDups with
  | [] => (0, false)
  | [t] => (t, multi)
  | _ => (3, true)

/-- An access whose type a fall-back of R272 made STRICT is counted. -/
def countStrict (s : State) (t : Nat) (strict : Bool) : State := if strict then bumpF s (pgTile t) 0x0B0 15 0 1 else s

/-! Park-waits (R297, R299). -/

/-- The watch is the one of a group's park-wait. -/
def Watch.ofGroup (x : Watch) (l : LaunchKey) (a b c idx : Nat) : Bool :=
  match x.kind with
  | .group k i j m n _ => k == l && i == a && j == b && m == c && n == idx
  | _ => false

/-- The registration of a group's park-wait is not decided: it waits at a belay unit, or another device has not answered it. -/
def pwaitOpen (s : State) (w : Wg) (g : Group) : Bool :=
  (List.range 4).any (fun d =>
    let b := bel s d
    b.waitl.any (fun x => x.ofGroup w.launch w.x w.y w.z g.idx) ||
      b.remote.any (fun r => r.2.ofGroup w.launch w.x w.y w.z g.idx &&
        s.reqs.any (fun q => q.owner == .watch d r.1 && q.res.isNone)))

/-- The notification of a watch that has taken effect is gone. -/
def takeEnded (s : State) (d id : Nat) : State :=
  let b := bel s d
  setBel s d { b with ended := b.ended.filter (fun e => e.w.id ≠ id) }

/-- The end of a group's watch that its agent has not taken yet: die, watch, status. -/
def pwaitEnd (s : State) (w : Wg) (g : Group) : Option (Nat × Ended) :=
  ((List.range 4).filterMap (fun d =>
    ((bel s d).ended.find? (fun e => e.w.ofGroup w.launch w.x w.y w.z g.idx)).map (fun e => (d, e)))).head?

/-- The registration of a group's park-wait is decided (R297): a watch that fired writes REACHED and the group goes on, unless its
workgroup is stopping for another reason; otherwise the workgroup parks. -/
def pwaitDecide (s : State) (t n : Nat) : State :=
  match group? s t n with
  | none => s
  | some g => match wg? s t g.wg with
    | none => s
    | some w =>
      if !g.regWait || pwaitOpen s w g then s
      else
        let stays := w.park ≠ .none
        match pwaitEnd s w g with
        | some (d, e) =>
          if e.status = 0 then
            let g1 := { g with pwaitS := none, regWait := false, stopped := stays }
            let g2 := { g1 with reason := if stays then groupReason w.parkReason g1 else g.reason }
            setGroup (takeEnded s d e.w.id) t n (g2.uput (g.pwaitS.getD 0) 0)
          else stopWg (setGroup s t n { g with regWait := false }) t g.wg rWait
        | none => stopWg (setGroup s t n { g with regWait := false }) t g.wg rWait

/-- Every park-wait whose registration has been decided takes effect. -/
def settleWaits (s : State) : State :=
  s.tiles.foldl (fun s t => t.2.groups.foldl (fun s p => if p.2.regWait then pwaitDecide s t.1 p.1 else s) s) s

end Sys2Proof.Machine
end

