-- ==== Sys2Proof/Machine/VecOps.lean ====
section
/-!
DEFINITION. What one lane of a vector operation computes (R101 to R105), and the draws of a noise source (R161, R163).
-/
namespace Sys2Proof.Machine

/-- VR operations (R101): D is the old destination. -/
def vrLane (op : Nat) (d a b : Word) : Word :=
  match op with
  | 0 => f32Fma a b d
  | 1 => bf2Fma a b d
  | 2 => f32Mul a b
  | 3 => f32Add a b
  | 4 => f32Sub a b
  | 5 => a + b
  | 6 => a - b
  | _ => a * b

/-- VX operations that compute a lane from D and A alone (R102). -/
def vxLane (op : Nat) (d a : Word) : Word :=
  match op with
  | 0x00 => f32Min d a
  | 0x01 => f32Max d a
  | 0x02 => if d.slt a then d else a
  | 0x03 => if d.slt a then a else d
  | 0x04 => if d.ult a then d else a
  | 0x05 => if d.ult a then a else d
  | 0x06 => d &&& a
  | 0x07 => d ||| a
  | 0x08 => d ^^^ a
  | 0x09 => d <<< (a.toNat % 32)
  | 0x0A => d >>> (a.toNat % 32)
  | 0x0B => d.sshiftRight (a.toNat % 32)
  | 0x17 => a
  | 0x1E => a &&& 0x7FFF_FFFF#32
  | 0x1F => a ^^^ 0x8000_0000#32
  | _ => transc op a

/-- CVTN, CVTZ, CVTS, CVTF (R102, R105, R158): `r` is the draw of a stochastic rounding. -/
def cvtLane (op x : Nat) (a : Word) (r : Nat) : Word :=
  let v := f32 a
  match op with
  | 0x20 => BitVec.ofNat 32 (toFmt x .ne v)
  | 0x21 => BitVec.ofNat 32 (toFmt x .tz v)
  | 0x22 => BitVec.ofNat 32 (toFmt x (.st r) v)
  | _ => toF32 (ofFmt x (a.toNat % 2 ^ fmtBits x))

/-- A health test of a noise source fails: the failure is counted and FALLBACK set; the fallback generator takes its seed from
the last conditioned output (R162). -/
def noiseFail (s : State) (pg : Nat) : State :=
  let s1 :=
    if regF s pg 0x0F0 17 17 = 1 then s
    else modBlk { s with fresh := s.fresh + 1 } pg (fun b => { b with noiseGen := Config.noiseSeed (Config.noise s.fresh) })
  setRegF (bumpF s1 pg 0x0F0 31 24 1) pg 0x0F0 17 17 1

/-- The armed detector of the health test takes the next test window (R525). -/
def noiseWindow (s : State) (pg : Nat) : State := if injects s pg 3 then noiseFail (injFire s pg []) pg else s

/-- One draw of a noise source (R161 to R163): VALUE while FIXED is 1, the fallback generator's while FALLBACK is 1, else a fresh
free value. -/
def drawNoise (s0 : State) (pg : Nat) : Nat × State :=
  let s := noiseWindow s0 pg
  if regF s pg 0x0F0 16 16 = 1 then (regF s pg 0x0F0 15 0, s)
  else if regF s pg 0x0F0 17 17 = 1 then
    ((Config.noiseOut (blk s pg).noiseGen).toNat, modBlk s pg (fun b => { b with noiseGen := Config.noiseNext b.noiseGen }))
  else ((Config.noise s.fresh).toNat, { s with fresh := s.fresh + 1 })

/-- `n` draws. -/
def drawMany (s : State) (pg : Nat) : Nat → List Nat × State
  | 0 => ([], s)
  | n + 1 =>
    let (r, s1) := drawNoise s pg
    let (rs, s2) := drawMany s1 pg n
    (r :: rs, s2)

/-- A vector source: the slot's literal for 0xFF (R93), else the register of the lane. -/
def Group.vsrc (g : Group) (lit r l : Nat) : Word := if r = 0xFF then BitVec.ofNat 32 lit else g.vget r l

/-- What a vector slot does: vector, uniform and predicate writes now, or a counted result (R94). -/
structure VRes where
  v    : List (Nat × Nat × Nat) := []
  u    : List (Nat × Nat) := []
  p    : List (Nat × Nat) := []
  pend : Option PKind := none
  deriving DecidableEq, Repr

/-- Predicate p with the bits of active lanes replaced (R102). -/
def predWrite (old active new : Nat) : Nat := Nat.lor (andNot old active) (Nat.land new active)

/-- The bits of lanes for which `f` holds. -/
def maskOf (ls : List Nat) (f : Nat → Bool) : Nat := ls.foldl (fun m l => if f l then m + 2 ^ l else m) 0

/-- The lanes of a reduction in order, inactive ones empty (R104). -/
def Group.reduArgs (g : Group) (lit a : Nat) : List (Option Word) :=
  (List.range g.width).map (fun l => if g.active.testBit l then some (g.vsrc lit a l) else none)

/-- R101, R102: the vector slot of a bundle reads the group as it stands at issue. -/
def vExec (s : State) (t : Nat) (g : Group) (lit : Nat) (o : VOp) : VRes × State :=
  let ls := g.lanes
  let src := g.vsrc lit
  match o with
  | .vr op d a b =>
    if d = 0xFF then ({}, s)
    else ({ v := ls.map (fun l => (d, l, (vrLane op (g.vget d l) (src a l) (src b l)).toNat)) }, s)
  | .vx op x d a =>
    let vres (f : Nat → Word) : VRes := if d = 0xFF then {} else { v := ls.map (fun l => (d, l, (f l).toNat)) }
    if isCmp op then
      let m := maskOf ls (fun l => cmpBit op (src d l) (src a l))
      ({ p := [(x % 8, predWrite (g.pget (x % 8)) g.active m)] }, s)
    else if op = 0x16 then
      (if d = 0xFF then {} else { v := (ls.filter (fun l => (g.pget (x % 8)).testBit l)).map (fun l => (d, l, (src a l).toNat)) }, s)
    else if op = 0x18 then (vres (fun _ => BitVec.ofNat 32 (g.uget x)), s)
    else if op = 0x19 then
      (match ls with
       | l :: _ => { u := [(x, (src a l).toNat)] }
       | [] => {}, s)
    else if op = 0x1A then (vres (fun l => BitVec.ofNat 32 l), s)
    else if op = 0x1B then (vres (fun l => BitVec.ofNat 32 (g.idx * g.width + l)), s)
    else if op = 0x1C then (vres (fun l => src a ((g.vget d l).toNat % g.width)), s)
    else if op = 0x1D then (vres (fun l => src a (Nat.xor l (g.uget x % g.width))), s)
    else if isCvt op then
      let (rs, s1) := if op = 0x22 then drawMany s (pgTile t) ls.length else ([], s)
      (if d = 0xFF then {} else
        { v := (ls.zip (rs ++ List.replicate ls.length 0)).map (fun p => (d, p.1, (cvtLane op x (src a p.1) p.2).toNat)) }, s1)
    else if isTrans op then
      ({ pend := some (.longV (if d = 0xFF then [] else ls.map (fun l => (d, l, (transc op (src a l)).toNat)))) }, s)
    else if isRedu op then
      let xs := g.reduArgs lit a
      if op = 0x30 then ({ pend := some (.longU x (reduAddF32 xs).toNat) }, s)
      else if op = 0x33 then ({ pend := some (.longU x (reduAddI32 xs).toNat) }, s)
      else match reduSkip (if op = 0x31 then f32Max else f32Min) xs with
        | some w => ({ pend := some (.longU x w.toNat) }, s)
        | none => ({ pend := some (.longU x 0) }, s)
    else (vres (fun l => vxLane op (if d = 0xFF then 0 else g.vget d l) (src a l)), s)

end Sys2Proof.Machine
end

