-- ==== Sys2Proof/Machine/StoreBuf.lean ====
section
/-!
DEFINITION. The tile store's banks (R226) and words (R227), the store buffer (R273 to R275), and when a load may read its
target (R268, R275, R276, R281).
-/
namespace Sys2Proof.Machine

/-! Banks (R226). -/

/-- A request that reaches a bank: its place in the order of precedence (0 drain, 1 A feeder, 2 B feeder, 3 M slot, 4 stream
engine fill, 5 row engine), its bank, the steps it has waited. -/
structure BankReq where
  rank   : Nat
  bank   : Nat
  waited : Nat := 0
  deriving DecidableEq, Repr

def bankOf (o : Nat) : Nat := Nat.xor (bits o 11 7) (bits o 16 12)

/-- One request goes before another: it has waited 4 steps, else by precedence. -/
def BankReq.before (a b : BankReq) : Bool :=
  if a.waited ≥ 4 || b.waited ≥ 4 then a.waited > b.waited else a.rank < b.rank

/-- The request of a bank that proceeds in a step. -/
def bankPick (rs : List BankReq) : Option BankReq :=
  match rs with
  | [] => none
  | r :: t => some (t.foldl (fun b x => if x.before b then x else b) r)

/-- The requests that wait in a step: all but one of each bank. -/
def bankStep (rs : List BankReq) : List BankReq :=
  let picked := (List.range 32).filterMap (fun k => bankPick (rs.filter (fun r => r.bank == k)))
  (picked.foldl (fun l p => l.erase p) rs).map (fun r => { r with waited := r.waited + 1 })

/-- The waits of requests that reach the banks together, until the last has proceeded. -/
def bankWaits : Nat → List BankReq → Nat
  | 0, _ => 0
  | k + 1, rs => if rs.isEmpty then 0 else (bankStep rs).length + bankWaits k (bankStep rs)

/-- Requests of the tile's array, stream engine and row engine in the same steps: how many, and to which banks, is a free value. -/
def bankOthers (x : Tile) (f : Nat) : List BankReq :=
  let ranks := (if x.arr.cmds.isEmpty then [] else [0, 1, 2, 4]) ++ (if x.row.cmds.isEmpty then [] else [5])
  (List.range (f % 33)).map (fun i => ⟨ranks.getD (f / 2 ^ (8 * i + 8) % ranks.length) 5, f / 2 ^ (8 * i + 11) % 32, 0⟩)

/-- Line accesses of one step at byte offsets of the tile store: each wait is counted (R226, R529). In which order the requests
proceed has no other effect in the model. -/
def tstBanks (s : State) (t rank : Nat) (offs : List Nat) : State :=
  let x := tile s t
  let mine := ((offs.map (· / 128)).eraseDups).map (fun l => (⟨rank, bankOf (128 * l), 0⟩ : BankReq))
  if mine.isEmpty then s
  else
    let (others, s1) := if x.arr.cmds.isEmpty && x.row.cmds.isEmpty then ([], s)
      else let (f, s1) := takeFree s; (bankOthers x f, s1)
    let n := bankWaits 200 (mine ++ others)
    if n = 0 then s1 else perfCount (bumpF s1 (pgTst t) 0x084 15 0 n) t 0x0C n

/-! Words of the tile store (R227). -/

/-- The tile store offset of a byte of workgroup memory (R224). -/
def Wg.phys (w : Wg) (o : Nat) : Nat := 16384 * w.units.getD (o / 16384) (o / 16384) + o % 16384

/-- A word at an offset is read: an armed detector corrects it, or finds it uncorrectable (R525). -/
def tstWord (s : State) (t o : Nat) : Bool × State :=
  let pg := pgTst t
  if injects s pg 1 then (false, errSet (bumpF (injFire s pg [8]) pg 0x088 15 0 1) pg 8 (o / 16 * 16))
  else if injects s pg 2 then (true, errSet (injFire s pg [9]) pg 9 (o / 16 * 16))
  else (false, s)

/-- A word of a workgroup's memory is read: an uncorrectable error marks its line (R221, R227). -/
def wgmWord (s : State) (t w : Nat) (wg : Wg) (o : Nat) : State :=
  match tstWord s t (wg.phys o) with
  | (true, s1) => modWg s1 t w (fun x => { x with wgmMark := tput x.wgmMark (o / 128) () })
  | (false, s1) => s1

/-- The words that runs of bytes lie in. -/
def wordsOf (runs : List (Nat × Nat)) : List Nat :=
  ((runs.map (fun r => if r.2 = 0 then [] else (rangeFrom (r.1 / 16) ((r.1 + r.2 - 1) / 16 + 1 - r.1 / 16)).map (16 * ·))).flatten).eraseDups

/-- Words of a workgroup's memory are read, each once. -/
def wgmWords (s : State) (t w : Nat) (wg : Wg) (runs : List (Nat × Nat)) : State :=
  if (blk s (pgTst t)).injArm then (wordsOf runs).foldl (fun s o => wgmWord s t w wg o) s else s

/-- A word of the stream buffers is read, where the operands, the row engine's rows and the drain's results lie (R224): the offset
is a free value. Answers whether it is uncorrectable. -/
def tstBuf (s : State) (t : Nat) : Bool × State :=
  if !(injects s (pgTst t) 1 || injects s (pgTst t) 2) then (false, s)
  else
    let (f, s1) := takeFree s
    let lo := 16384 * regF s (pgTst t) 0x080 7 0
    tstWord s1 t (lo + f % (2 ^ 22 - 65536 - lo))

/-! The store buffer (R273 to R275). -/

/-- Bytes that a lane of an entry covers from its address. -/
def SbEntry.laneLen (e : SbEntry) (l : LaneAcc) : Nat :=
  match e.kind with
  | .atomic k _ => atomSize k
  | _ => l.data.length

/-- The byte that an entry holds at an address: the youngest lane older than `id` that names it. -/
def SbEntry.byteAt (e : SbEntry) (id a : Nat) : Option Nat :=
  e.lanes.foldl (fun r l => if l.seq < id && l.va ≤ a && a < l.va + e.laneLen l then some (l.data.getD (a - l.va) 0) else r) none

/-- The entries of a group that hold bytes for its loads: a staged store does so only until it is released (R314). -/
def Tile.holders (x : Tile) (n : Nat) : List SbEntry :=
  x.sb.filter (fun e => e.slot == n && x.owns e && !(e.txg.isSome && e.released))

/-- R275: the youngest entry that holds any byte of [va, va + size), and whether it holds every byte. -/
def Tile.forward (x : Tile) (n id va size : Nat) : Option (SbEntry × Bool) :=
  match ((x.holders n).filter (fun e => (rangeFrom va size).any (fun a => (e.byteAt id a).isSome))).getLast? with
  | some e => some (e, e.kind = .store && (rangeFrom va size).all (fun a => (e.byteAt id a).isSome))
  | none => none

/-- A lane of a load waits: bytes of it lie in own entries that do not hold all of it (R275). -/
def laneWaits (x : Tile) (n id va size : Nat) : Bool :=
  match x.forward n id va size with
  | some (_, whole) => !whole
  | none => false

/-- A load of the group that has not returned. -/
def Pend.openLoad (p : Pend) : Bool :=
  p.cls == 0 && !p.done && (match p.kind with
    | .load _ _ _ _ _ _ _ _ _ => true
    | _ => false)

/-- A younger load of the group waits until an entry has completed: no store younger than the load may merge into it, or each
would wait for the other (R273, R275; DEDUCED). -/
def loadNeeds (x : Tile) (e : SbEntry) (p : Pend) : Bool :=
  p.openLoad && e.pids.any (fun i => i < p.id) && (match p.kind with
    | .load _ _ size _ lanes rtype _ resv _ =>
      resv || rtype == 3 || (rtype == 0 && lanes.any (fun l => laneWaits x e.slot p.id l.va size))
    | _ => false)

/-- R274: a NORMAL store to a line merges into the youngest entry of its group, when that is a NORMAL store to the line, not
released. -/
def mergesInto (x : Tile) (g : Group) (e0 y : SbEntry) (vline : Nat) : Bool :=
  e0.kind = .store && y.kind = .store && !y.released && e0.rtype = 0 && y.rtype = 0 && y.space = e0.space && y.vline = vline &&
    y.txg = e0.txg && !g.pend.any (loadNeeds x y)

/-- The youngest entry of a group. -/
def Tile.youngest (x : Tile) (n : Nat) : Option SbEntry := (x.sb.filter (fun e => e.slot == n && x.owns e)).getLast?

/-- Entries for one store-class instruction: one per line, merging where R274 allows; the number of entries that hold it. -/
def pushEntries (x : Tile) (g : Group) (e0 : SbEntry) (lanes : List LaneAcc) : Tile × Nat :=
  ((lanes.map (fun l => l.va / 128)).eraseDups).foldl (fun (acc : Tile × Nat) v =>
    let x := acc.1
    let ls := lanes.filter (fun l => l.va / 128 == v)
    let new : Tile := { x with sb := x.sb ++ [{ e0 with id := x.nextSb, vline := 128 * v, lanes := ls }], nextSb := x.nextSb + 1 }
    match x.youngest e0.slot with
    | some y =>
      if mergesInto x g e0 y (128 * v) then
        ({ x with sb := x.sb.map (fun e => if e.id = y.id then
            { e with lanes := e.lanes ++ ls, pids := e.pids ++ e0.pids, zline := e.zline || e0.zline } else e) }, acc.2 + 1)
      else (new, acc.2 + 1)
    | none => (new, acc.2 + 1)) (x, 0)

/-! When a load may read its target (R268, R275, R276, R281). -/

/-- Store buffer entries of a group that are older than one of its instructions; those accepted early and not performed. -/
def Tile.older (x : Tile) (n id : Nat) : List SbEntry :=
  x.sb.filter (fun e => e.slot == n && x.owns e && e.lanes.any (fun l => l.seq < id))
def Tile.olderPosted (x : Tile) (n id : Nat) : List SbEntry :=
  x.posted.filter (fun e => e.slot == n && x.owns e && e.lanes.any (fun l => l.seq < id))

/-- Does a load take bytes from the buffer or the L1 alone for this lane, or a home slice's value? -/
def laneLocal (x : Tile) (n id space rtype va size : Nat) : Bool :=
  (rtype == 0) && ((x.forward n id va size).isSome || (x.l1Find space (va / 128 * 128)).isSome)

/-- May the load read its target now? An LDR is ordered both ways (R275); a STRICT load follows every older access of its group
(R268). -/
def loadMay (s : State) (t n : Nat) (g : Group) (space id size rtype : Nat) (lanes : List LaneAcc) (resv : Bool) : Bool :=
  let x := tile s t
  let older := x.older n id
  let loads := g.pend.filter (fun p => p.id < id && p.openLoad)
  let isLocal (l : LaneAcc) : Bool := !resv && laneLocal x n id space rtype l.va size
  (loads.isEmpty || (lanes.all isLocal && loads.all (fun p => match p.kind with
    | .load _ _ _ _ _ _ _ r _ => !r
    | _ => true))) &&
  older.all (fun e => match e.kind with
    | .atomic _ _ => false
    | .stc => false
    | _ => true) &&
  (!(resv || rtype == 3) || (older.isEmpty && (x.olderPosted n id).isEmpty)) &&
  (rtype == 0 || older.all (fun e => e.rtype == 0)) &&
  (rtype ≠ 0 || lanes.all (fun l => !laneWaits x n id l.va size)) &&
  lanes.all (fun l => isLocal l || (match l.dst with
    | .loc pa => !lineHeld s pa
    | .mir pa _ => !lineHeld s pa
    | .rem _ => true))

/-- The answer of a remote line of a load, if it has come. -/
def lineAnswer (s : State) (rq : List Nat) (a : Glob) : Option Req :=
  s.reqs.find? (fun r => rq.contains r.id && r.k.dst = a.dev && r.k.addr / 128 = a.addr / 128 && r.res.isSome)

/-- A remote line of a load has been asked for. -/
def lineAsked (s : State) (rq : List Nat) (a : Glob) : Bool :=
  s.reqs.any (fun r => rq.contains r.id && r.k.dst = a.dev && r.k.addr / 128 = a.addr / 128)

/-- A lane that has to take its bytes from another device. -/
def laneRemote (x : Tile) (n id space rtype size : Nat) (resv : Bool) (l : LaneAcc) : Option Glob :=
  match l.dst with
  | .rem a => if !resv && laneLocal x n id space rtype l.va size then none else some a.line
  | _ => none

/-- Requests for the remote lines of lanes that have not been asked for (R405). -/
def loadReqs (s : State) (t n pid space rtype size : Nat) (resv : Bool) (rq : List Nat) (lanes : List LaneAcc) : List Nat × State :=
  let gl := (lanes.filterMap (laneRemote (tile s t) n pid space rtype size resv)).eraseDups
  (gl.filter (fun a => !lineAsked s rq a)).foldl (fun (acc : List Nat × State) a =>
    (acc.1 ++ [acc.2.nextReq], sendReq acc.2 (pktTo (packet0 pkRead 0 space 0) a) (.load t n pid))) (rq, s)

/-- The lanes that a load reads next: those of a STRICT load go one at a time in ascending order (R268). -/
def nextLanes (rtype : Nat) (lanes : List LaneAcc) (got : List (Nat × List Nat × Bool)) : List LaneAcc :=
  if rtype = 3 then (lanes.filter (fun l => !got.any (fun x => x.1 == l.lane))).take 1 else lanes

/-- A load that may read now asks other devices for its lines. -/
def loadAsk (s : State) (t n id : Nat) : State :=
  match group? s t n with
  | none => s
  | some g => match g.pend.find? (fun p => p.id == id), wg? s t g.wg with
    | some { kind := .load d k size sg lanes rtype rq resv got, .. }, some w =>
      let ls := nextLanes rtype lanes got
      if !loadMay s t n g w.space id size rtype ls resv then s
      else
        let (ids, s1) := loadReqs s t n id w.space rtype size resv rq ls
        if ids = rq then s1
        else modGroup s1 t n (fun g => { g with pend := g.pend.map (fun p =>
          if p.id = id then { p with kind := .load d k size sg lanes rtype ids resv got } else p) })
    | _, _ => s

end Sys2Proof.Machine
end

