-- ==== Sys2Proof/Machine/Issue.lean ====
section
/-!
DEFINITION. Issue of one bundle (R86 to R98): readiness, the checks of R89, the effects of its slots, precise faults (R74).
-/
namespace Sys2Proof.Machine

/-! The control slot (R99). -/

def aluOp (op a b : Nat) : Nat :=
  let sh := b % 64
  match op with
  | 0x10 => (a + b) % 2 ^ 64
  | 0x11 => wrap 64 ((a : Int) - b)
  | 0x12 => (a * b) % 2 ^ 64
  | 0x13 => Nat.land a b
  | 0x14 => Nat.lor a b
  | 0x15 => Nat.xor a b
  | 0x16 => (a <<< sh) % 2 ^ 64
  | 0x17 => a >>> sh
  | 0x18 => wrap 64 (sext 64 a >>> sh)
  | 0x19 => if sext 64 a < sext 64 b then a else b
  | 0x1A => if sext 64 a < sext 64 b then b else a
  | _ => if a < b then a else b

/-- Codes 0x20 to 0x26 with a 12-bit immediate, sign-extended; shifts use imm[5:0]. -/
def aluImm (op a imm : Nat) : Nat :=
  let i := wrap 64 (sext 12 imm)
  match op with
  | 0x20 => aluOp 0x10 a i
  | 0x21 => aluOp 0x13 a i
  | 0x22 => aluOp 0x14 a i
  | 0x23 => aluOp 0x15 a i
  | 0x24 => aluOp 0x16 a imm
  | 0x25 => aluOp 0x17 a imm
  | _ => aluOp 0x18 a imm

/-- An address `off` units of 16 B from `pc`. -/
def jumpTo (pc : Nat) (off : Int) : Nat := wrap 64 ((pc : Int) + 16 * off)

/-- The fault of the control slot, if it has one (R65, R99). -/
def cFault (g : Group) : COp → Option Nat
  | .trap _ => some fTrap
  | .jmpr s => if g.uget s % 16 ≠ 0 then some fAlign else none
  | .split _ _ _ => if g.stack.length ≥ 32 then some fOverflow else none
  | .loop _ => if g.stack.length ≥ 32 then some fOverflow else none
  | .join => if g.stack.isEmpty then some fUnderflow else none
  | .brk _ => match g.stack with
    | e :: _ => if e.phase = 2 then none else some fNesting
    | [] => some fNesting
  | _ => none

/-- The control slot: sources from `g0`, the group as it stood at issue; `next` is the sequential address. -/
def cExec (lic steps : Nat) (b : Bundle) (g0 g : Group) (next : Nat) (o : COp) : Group :=
  let go (t : Nat) : Group := { g with pc := t }
  let gn := go next
  match o with
  | .bra off => go (jumpTo g0.pc off)
  | .brCond s c off => if brCond c (g0.uget s) then go (jumpTo g0.pc off) else gn
  | .brp p m off => if brpCond m g0.active (g0.pget p) then go (jumpTo g0.pc off) else gn
  | .call sd off => (go (jumpTo g0.pc off)).uput sd next
  | .jmpr s => go (g0.uget s)
  | .split p els fin =>
    let e : MEntry := ⟨g0.active, andNot g0.active (g0.pget p), addr48 (jumpTo g0.pc els), addr48 (jumpTo g0.pc fin), 0⟩
    Group.settle { gn with stack := e :: g0.stack, active := Nat.land g0.active (g0.pget p) }
  | .join => (gn.joinTop).settle
  | .loop out =>
    let x := addr48 (jumpTo g0.pc out)
    { gn with stack := { saved := g0.active, deferred := 0, t1 := x, t2 := x, phase := 2 } :: g0.stack }
  | .brk p => Group.settle { gn with active := andNot g0.active (g0.pget p) }
  | .exit =>
    let out := g0.active
    let st := g0.stack.map (fun e => { e with saved := andNot e.saved out, deferred := andNot e.deferred out })
    Group.settle { gn with live := andNot g0.live out, active := 0, stack := st }
  | .bar => { gn with arrived := Nat.lor g0.arrived g0.active, stat := .barrier }
  | .trap _ => gn
  | .waitle _ _ => gn
  | .rdlic sd => gn.uput sd lic
  | .rdstep sd => gn.uput sd steps
  | .ualu op sd sa sb => gn.uput sd (aluOp op (g0.uget sa) (g0.uget sb))
  | .ualui op sd sa imm => gn.uput sd (aluImm op (g0.uget sa) imm)
  | .umovi sd imm => gn.uput sd (wrap 64 (sext 17 imm))
  | .movl sd => gn.uput sd b.l0
  | .movl64 sd => gn.uput sd (b.l0 + 2 ^ 32 * b.l1)
  | .pmov p s => gn.pput p (g0.uget s)
  | .smovp sd p => gn.uput sd (g0.pget p)
  | .plog op pd pa pb =>
    let a := g0.pget pa
    let c := g0.pget pb
    gn.pput pd (if op = 0x2C then Nat.land a c else if op = 0x2D then Nat.lor a c else andNot a c)
  | .pnot pd pa => gn.pput pd (andNot (maskAll 64) (g0.pget pa))

/-! The memory slot (R106 to R110). -/

/-- What the memory slot of a bundle comes to. -/
inductive MRes where
  | ok (s : State)
  | notReady
  | fault (code lanes addr cause acc last : Nat) (s : State)

/-- The address a lane names (R107). -/
def laneVa (g : Group) (m : MOp) (l : Nat) : Nat :=
  let off := if m.a = 0xFF then l * mSize m.op else (g.vget m.a l).toNat
  (g.uget m.b + off) % 2 ^ 64

/-- The byte offset a lane names in workgroup memory (R107). -/
def laneOff (g : Group) (m : MOp) (l : Nat) : Nat :=
  let off := if m.a = 0xFF then l * mSize m.op else (g.vget m.a l).toNat
  g.uget m.b % 2 ^ 32 + off

/-- The bytes of `n` registers of a lane from register d. -/
def regBytes (g : Group) (d n l : Nat) : List Nat := ((rangeFrom d n).map (fun r => toBytes 4 (g.vget r l).toNat)).flatten

/-- Words of a loaded value: narrow values zero- or sign-extended (R108). -/
def loadWords (size : Nat) (signed : Bool) (bs : List Nat) : List Nat :=
  if size < 4 then
    let v := ofBytes (bs.take size)
    [if signed then wrap 32 (sext (8 * size) v) else v]
  else (List.range (size / 4)).map (fun i => ofBytes ((bs.drop (4 * i)).take 4))

/-- Register writes of loaded words at a lane. -/
def wordWrites (d l : Nat) (ws : List Nat) : List (Nat × Nat × Nat) := ws.mapIdx (fun i w => (d + i, l, w))

/-- Where a lane's address leads, from a translated access. -/
def XOut.dstOf (o : XOut) (va : Nat) : Dest :=
  match o.ok.find? (fun x => x.1 == va) with
  | some (_, d, _) => d
  | none => .loc 0


/-- Bytes of workgroup memory. -/
def wgmRead (w : Wg) (o n : Nat) : List Nat := (rangeFrom o n).map (fun a => tgetD w.wgm a 0)
def wgmWrite (w : Wg) (o : Nat) (bs : List Nat) : Wg :=
  { w with wgm := (bs.mapIdx (fun i b => (o + i, b % 256))).foldl (fun m p => tputD m p.1 p.2 0) w.wgm }

/-- Some line of a run of workgroup memory carries the uncorrectable mark (R221). -/
def Wg.wgmBad (w : Wg) (o n : Nat) : Bool := (linesOf o n).any (fun l => thas w.wgmMark (l / 128))

/-- Marks after the writing of bytes: a line written whole loses its mark (R221). -/
def Wg.wgmClear (w : Wg) (offs : List Nat) : Wg :=
  { w with wgmMark := w.wgmMark.filter (fun m => !(List.range 128).all (fun i => offs.contains (128 * m.1 + i))) }

/-- The access a memory operation makes (R258). -/
def mAcc (op : Nat) : Acc4 :=
  if mLoad op || mLdr op || op = 0x66 || op = 0x69 then .read
  else if mStore op || mStc op || op = 0x67 then .write
  else .rmw

/-- Lowest of a list of numbers. -/
def lowest (l : List Nat) : Nat := match l with
  | [] => 0
  | a :: t => t.foldl (fun m x => if x < m then x else m) a

def highest (l : List Nat) : Nat := l.foldl (fun m x => if x > m then x else m) 0

/-- Workgroup memory operations: performed in the tile store at issue (R66, R70, R275); a load of a marked line faults when it
returns (R221). -/
def mWork (s0 : State) (t n : Nat) (g : Group) (w0 : Wg) (m : MOp) : MRes :=
  let ls := g.lanes
  let sz := mSize m.op
  let bad := ls.filter (fun l => laneOff g m l % sz ≠ 0)
  let out := ls.filter (fun l => laneOff g m l + sz > w0.m)
  let s1 := tstBanks s0 t 3 (ls.map (fun l => w0.phys (laneOff g m l)))
  let s := if mStoreW m.op then s1 else wgmWords s1 t g.wg w0 (ls.map (fun l => (laneOff g m l, sz)))
  let w := (wg? s t g.wg).getD w0
  let mk := ls.filter (fun l => w.wgmBad (laneOff g m l) sz)
  let mkA := lowest (mk.map (laneOff g m))
  if !bad.isEmpty then .fault fAlign (maskOf bad (fun _ => true)) (lowest (bad.map (laneOff g m))) 0 0 0 s0
  else if !out.isEmpty then .fault fBounds (maskOf out (fun _ => true)) (lowest (out.map (laneOff g m))) 0 0 0 s0
  else if mLoadW m.op then
    let ws := if m.d = 0xFF then [] else
      (ls.map (fun l => wordWrites m.d l (loadWords sz (mSigned m.op) (wgmRead w (laneOff g m l) sz)))).flatten
    .ok (setGroup s t n (g.addPend 0 false (.loadW ws (maskOf mk (fun _ => true)) mkA)))
  else if mStoreW m.op then
    let w1 := ls.foldl (fun w l => wgmWrite w (laneOff g m l) ((regBytes g m.d (regsOf sz) l).take sz)) w
    let w1 := w1.wgmClear ((ls.map (fun l => rangeFrom (laneOff g m l) sz)).flatten)
    .ok (setGroup (setWg s t g.wg w1) t n (g.addPend 1 true .storeW))
  else
    let kind := m.op % 16
    let r := ls.foldl (fun (acc : Wg × List (Nat × Nat × Nat)) l =>
      let o := laneOff g m l
      let old := ofBytes (wgmRead acc.1 o sz)
      let x := ofBytes ((regBytes g m.d (atomRegs kind) l).take sz)
      let y := ofBytes (((regBytes g m.d (atomRegs kind) l).drop sz).take sz)
      (wgmWrite acc.1 o (toBytes sz (atomApply kind old x y)), acc.2 ++ wordWrites m.d l (loadWords sz false (toBytes sz old))))
      (w, [])
    let s1 := setWg s t g.wg r.1
    let g1 := g.addPend 1 true .storeW
    .ok (setGroup s1 t n (if mAtomW m.op then g1.addPend 0 false (.loadW r.2 (maskOf mk (fun _ => true)) mkA) else g1))

/-- The watch of a PWAIT (R297). -/
def pwaitWatch (s : State) (t : Nat) (g : Group) (w : Wg) (m : MOp) (pa : Nat) : Watch :=
  { id := 0, pa := pa, target := g.uget m.d, slot := spaceSlot s (tileDie t) w.space, space := w.space, last := 0,
    kind := .group w.launch w.x w.y w.z g.idx m.d }

/-- R297: a PWAIT registers its watch, here or at the counter's device; the group is stopped until that is decided. -/
def pwaitIssue (s : State) (t n : Nat) (g : Group) (w : Wg) (m : MOp) (d : Dest) : State :=
  let s1 := match d with
    | .rem a =>
      let b := bel s (tileDie t)
      let reg := b.nextId
      let wt := pwaitWatch s t g w m a.a
      let s1 := setBel s (tileDie t) { b with nextId := reg + 1, remote := b.remote ++ [(reg, { wt with id := reg })] }
      watchSweep (sendReq s1 { pktTo (packet0 pkWatch 0 w.space 0) a with
        txg := 4 * reg + tileDie t, operand := wt.target, stream := strGroup t n } (.watch (tileDie t) reg))
    | .loc pa => registerWatch s (homeDie pa) (pwaitWatch s t g w m pa)
    | .mir pa _ => registerWatch s (homeDie pa) (pwaitWatch s t g w m pa)
  pwaitDecide (setGroup s1 t n { g with pwaitS := some m.d, regWait := true, stopped := true }) t n

/-! Stores. -/

/-- Operations that take store buffer entries (R273). -/
def mBuffered (op : Nat) : Bool := mStore op || mAtom op || mAtomN op || mStc op || op = 0x67 || op = 0x68

/-- The addresses of a memory operation's access: lane by lane, or once for the group (R110). -/
def mVas (g : Group) (m : MOp) : List Nat := if m.op = 0x68 || m.op = 0x69 then [g.uget m.b] else g.lanes.map (laneVa g m)

/-- The lanes of a store-class operation. A ZLINE names whole lines, each once but in a STRICT region (R233, R268). -/
def storeLanes (g : Group) (m : MOp) (rtype : Nat) (dst : Nat → Dest) : List LaneAcc :=
  let pid := g.nextId
  let sz := mSize m.op
  if m.op = 0x68 then [⟨pid, 0, g.uget m.b, dst (g.uget m.b), toBytes 8 (g.uget m.d)⟩]
  else if m.op = 0x67 then
    let ls := g.lanes.map (fun l => (⟨pid, l, lineBase (laneVa g m l), dst (laneVa g m l), List.replicate 128 0⟩ : LaneAcc))
    if rtype = 3 then ls else ls.foldl (fun acc l => if acc.any (fun x => x.va == l.va) then acc else acc ++ [l]) []
  else
    let data (l : Nat) : List Nat :=
      if mStore m.op then (regBytes g m.d (regsOf sz) l).take sz
      else if mStc m.op then regBytes g m.d (regsOf sz) l
      else regBytes g m.d (atomRegs (m.op % 16)) l
    g.lanes.map (fun l => ⟨pid, l, laneVa g m l, dst (laneVa g m l), data l⟩)

/-- The entry that a store-class operation makes, before its lines are parted. -/
def storeEntry (n : Nat) (g : Group) (space : Nat) (m : MOp) (rtype : Nat) : SbEntry :=
  let kind : SbKind :=
    if mStore m.op || m.op = 0x67 then .store
    else if mStc m.op then .stc
    else if m.op = 0x68 then .signal
    else .atomic (m.op % 16) (mAtom m.op)
  { id := 0, slot := n, born := g.born, pids := [g.nextId], kind := kind, space := space, vline := 0, lanes := [], rtype := rtype,
    zline := m.op = 0x67, dreg := if mStc m.op then m.d + regsOf (mSize m.op) else m.d
    txg := if mStore m.op || m.op = 0x67 then g.txg else none, released := false }

/-- The store buffer entries that the store part of a bundle takes (R273). -/
def storeNeed (s : State) (t n : Nat) (g : Group) (m : MOp) : Nat :=
  if !mBuffered m.op then 0
  else match wg? s t g.wg with
    | none => 0
    | some w =>
      let x := tile s t
      let ty := (accType x w.launch (mVas g m)).1
      (pushEntries x g (storeEntry n g w.space m ty) (storeLanes g m ty (fun _ => .loc 0))).1.sb.length - x.sb.length

/-- PREF (R108): each mapped line of a NORMAL region comes into the L1; one that is held, or on another device, when it may. -/
def prefLines (s : State) (t : Nat) (w : Wg) (vas : List Nat) : State :=
  let die := tileDie t
  vas.foldl (fun s va =>
    let (r, s1) := translate s (agTile t) die w.space va .read false
    let s1 := l1Parity s1 t w.space va
    let home (pa : Nat) : State :=
      if lineHeld s1 pa && ((tile s1 t).l1Find w.space va).isNone then modTile s1 t (fun x => { x with prefs := x.prefs ++ [⟨w.space, va, pa⟩] })
      else (l1Read s1 t w.space (spaceSlot s1 die w.space) va pa).2
    match r with
    | .inl _ => s1
    | .inr (.loc pa, _) => home pa
    | .inr (.mir pa _, _) => home pa
    | .inr (.rem a, _) =>
      match (tile s1 t).l1Find w.space va with
      | some l => modTile s1 t (fun x => x.l1Put l)
      | none =>
        if s1.reqs.any (fun r => r.owner == .pref t w.space va) then s1
        else sendReq s1 (pktTo (packet0 pkRead 0 w.space 0) a.line) (.pref t w.space va)) s

/-- The memory slot of a bundle, on the group as it stands at issue. Where it takes store buffer entries there is room (R273:
`bundleRoom`). -/
def mExec (s : State) (t n : Nat) (g : Group) (m : MOp) : MRes :=
  match wg? s t g.wg with
  | none => .notReady
  | some w =>
    let die := tileDie t
    let ls := g.lanes
    let sz := mSize m.op
    let acc := mAcc m.op
    if mLoadW m.op || mStoreW m.op || mAtomW m.op || mAtomWN m.op then mWork s t n g w m
    else if m.op = 0x64 then .ok (setGroup s t n (g.addPend 4 false (.sync (.fence m.d))))
    else if m.op = 0x65 then .ok (setGroup s t n (g.addPend 4 false (.sync .invl1)))
    else if m.op = 0x6A then
      .ok (setGroup s t n (Group.addPend { g with txg := some (g.uget m.d) } 4 false (.sync (.txbind (g.uget m.d)))))
    else if m.op = 0x6B then .ok (setGroup s t n (Group.addPend { g with txg := none } 4 false (.sync .txunbind)))
    else if m.op = 0x66 then
      let (ty, strict) := accType (tile s t) w.launch (mVas g m)
      let s1 := countStrict s t strict
      .ok (if ty ≠ 0 then s1 else prefLines s1 t w (((mVas g m).map lineBase).eraseDups))
    else
      let vas := mVas g m
      let once := m.op = 0x68 || m.op = 0x69
      let unit := if once then 8 else sz
      let bad := ls.filter (fun l => laneVa g m l % sz ≠ 0)
      if once && g.uget m.b % 8 ≠ 0 then .fault fAlign 0 (g.uget m.b) 0 acc.code (g.uget m.b + 7) s
      else if !once && !bad.isEmpty then
        .fault fAlign (maskOf bad (fun _ => true)) (lowest (bad.map (laneVa g m))) 0 acc.code (highest vas + unit - 1) s
      else
        let (o, s1) := translateAll s (agTile t) die w.space acc false vas.eraseDups
        match o.fault with
        | some (a, c) =>
          let fl := if once then [] else ls.filter (fun l => o.fails.any (fun x => x.1 == laneVa g m l))
          .fault (causeCode c) (maskOf fl (fun _ => true)) a c acc.code (highest vas + unit - 1) (countXltFault s1 die o)
        | none =>
          let (ty, strict) := accType (tile s1 t) w.launch vas
          let s2 := countStrict s1 t strict
          let pid := g.nextId
          if m.op = 0x69 then .ok (pwaitIssue s2 t n g w m (o.dstOf (g.uget m.b)))
          else if mLoad m.op || mLdr m.op then
            let la := ls.map (fun l => (⟨pid, l, laneVa g m l, o.dstOf (laneVa g m l), []⟩ : LaneAcc))
            let k : PKind := .load m.d (regsOf sz) sz (mLoad m.op && mSigned m.op) la ty [] (mLdr m.op) []
            .ok (loadAsk (setGroup s2 t n (g.addPend 0 false k)) t n pid)
          else
            let x := tile s2 t
            let r := pushEntries x g (storeEntry n g w.space m ty) (storeLanes g m ty o.dstOf)
            let s3 := setTile s2 t r.1
            if m.op = 0x68 then .ok (setGroup s3 t n (g.addPend 4 false (.sync (.signal x.nextSb))))
            else
              let g1 := g.addPend 1 (r.2 == 0) (.store r.2)
              .ok (setGroup s3 t n (if mAtom m.op then g1.addPend 0 (r.2 == 0) (.atomRet pid) else g1))

/-! The whole bundle. -/

/-- R123, R182, R184: the array or row engine can take the command of an A slot into acceptance. -/
def aReady (s : State) (t : Nat) (g : Group) (a : AOp) : Bool :=
  let x := tile s t
  if a.op = 1 then
    x.arr.cmds.length < 4 && inService s (pgArr t) && !(bits (g.uget a.sr) 21 20 = 3 && !inService s (pgRow t))
  else x.row.cmds.length < 4 && inService s (pgRow t)

/-- The counter of a park-wait lies in a line that is held (R242, R318): its registration cannot be performed. -/
def pwaitHeld (s : State) (t : Nat) (g : Group) (m : MOp) : Bool :=
  m.op = 0x69 && g.uget m.b % 8 = 0 && (match wg? s t g.wg with
    | none => false
    | some w => match (translate s (agTile t) (tileDie t) w.space (g.uget m.b) .read false).1 with
      | .inr (.loc pa, _) => lineHeld s pa
      | .inr (.mir pa _, _) => lineHeld s pa
      | _ => false)

/-- R60, R96: is the group ready for this bundle, but for the transcendental unit and for store buffer entries? -/
def bundleBase (s : State) (t : Nat) (g : Group) (b : Bundle) : Bool :=
  let st := (blk s (pgTile t)).st
  (st.inService || st = .stopping) && running s && !stalled s (pgTile t) && g.stat = .run && !g.stopped && g.active ≠ 0 && g.offer.isNone &&
    (List.range 6).all (fun k => !b.wait.testBit k || g.count k == 0) &&
    (match b.c with
     | some (.waitle k m) => g.count k ≤ m
     | _ => true) &&
    (List.range 6).all (fun k => g.count k + (b.counts.filter (· == k)).length ≤ 63) &&
    (match b.m with
     | some m => !pwaitHeld s t g m
     | none => true) &&
    (match b.a with
     | some a => !a.legal || aReady s t g a
     | none => true)

/-- The bundle uses the transcendental unit. -/
def usesTxB (b : Bundle) : Bool := (b.v.map VOp.usesTx).getD false

/-- The transcendental unit is free for the bundle (R61, R96). -/
def txFree (s : State) (t : Nat) (b : Bundle) : Bool := !usesTxB b || (tile s t).txBusy == 0

/-- The store buffer has room for the bundle (R273). -/
def bundleRoom (s : State) (t n : Nat) (g : Group) (b : Bundle) : Bool :=
  match b.m with
  | some m => let k := storeNeed s t n g m; k == 0 || (tile s t).sb.length + k ≤ 64
  | none => true

/-- R60, R96, R273: is the group ready for this bundle? (R123 and R182: an A slot waits for acceptance; see `issueBundle`.) -/
def bundleReady (s : State) (t n : Nat) (g : Group) (b : Bundle) : Bool :=
  bundleBase s t g b && txFree s t b && bundleRoom s t n g b

/-- The record of a precise fault (R79). -/
def mkFault (code lanes addr bundle cause acc last : Nat) : FaultRec :=
  { code := code, lanes := lanes, addr := addr, bundle := bundle, imprecise := false, cause := cause, access := acc, last := last }

def faultOf (code : Nat) (b : Bundle) : FaultRec := mkFault code 0 0 b.raw 0 0 0

/-- A bundle that carries YIELD makes its group the youngest (R60). -/
def ageAfter (age : List Nat) (n : Nat) (yield : Bool) : List Nat := if yield then age.filter (· ≠ n) ++ [n] else age

/-- The array or row engine command in four or two uniform registers (R111). -/
def aWords (g : Group) (a : AOp) : List Nat := (rangeFrom a.sr (if a.op = 1 then 4 else 2)).map g.uget

/-- R123, R182: the A slot offers its command; the bundle waits for the answer. -/
def aOffer (s : State) (t n : Nat) (g : Group) (b : Bundle) (a : AOp) : State :=
  let x := tile s t
  let space := ((wg? s t g.wg).map (·.space)).getD 0
  if a.op = 1 then
    if !aReady s t g a then s
    else
      let c : ArrCmd := {
        serial := x.arr.nserial, slot := n, wg := g.wg, space := space, words := aWords g a, stage := .offered, aseq := x.aNext,
        out := [], acc := [], recomp := 0, poison := false, marked := false, mapUsed := 0 }
      let s1 := setTile s t { x with arr := { x.arr with cmds := x.arr.cmds ++ [c], nserial := x.arr.nserial + 1 }, aNext := x.aNext + 1 }
      settle (setGroup s1 t n { g with offer := some x.arr.nserial, fetched := some (g.pc, b.raw, b.lit) }) (pgArr t) true
  else
    if !aReady s t g a then s
    else
      let c : RowCmd := { serial := x.row.nserial, slot := n, wg := g.wg, space := space, words := aWords g a, stage := .offered, aseq := x.aNext }
      let s1 := setTile s t { x with row := { x.row with cmds := x.row.cmds ++ [c], nserial := x.row.nserial + 1 }, aNext := x.aNext + 1 }
      settle (setGroup s1 t n { g with offer := some x.row.nserial, fetched := some (g.pc, b.raw, b.lit) }) (pgRow t) true

/-- The control slot, or the next address in sequence (R91); `s` is the state at issue, `s2` the one the slot acts in. -/
def ctlPart (s s2 : State) (t : Nat) (b : Bundle) (g g1 : Group) : Group :=
  let next := (g.pc + b.bytes) % 2 ^ 64
  match b.c with
  | some c => cExec (licStep (Config.free s2.fresh) (blk s2 (pgTile t)).lic) (blk s (pgTile t)).steps b g g1 next c
  | none => { g1 with pc := next }

/-- RDLIC has read the local interval counter. -/
def ctlTick (s2 : State) (t : Nat) : Option COp → State
  | some (.rdlic _) => tickLic s2 (pgTile t)
  | _ => s2

/-- The vector slot's writes and its counted result. -/
def Group.takeV (g : Group) (vr : VRes) : Group :=
  let g1 := vr.p.foldl (fun g p => g.pput p.1 p.2) (vr.u.foldl (fun g p => g.uput p.1 p.2) (g.vputs vr.v))
  match vr.pend with
  | some k => g1.addPend 5 false k
  | none => g1

/-- The array slot's counted command. -/
def Group.takeA (g : Group) (a : Option AOp) (serial : Nat) : Group :=
  match a with
  | some a => g.addPend (if a.op = 1 then 2 else 3) false (if a.op = 1 then .arr serial else .row serial)
  | none => g

/-- The group after its bundle: what it has issued carries the bundle (R79); `first` is the first number that it issued. -/
def Group.issued (g : Group) (first raw : Nat) : Group :=
  { g with ready := 0, fetched := none, offer := none
           pend := g.pend.map (fun p => if p.id ≥ first then { p with raw := raw } else p) }

/-- The group's record goes back into the tile, with its place in the order of age (R60) and the hold of the transcendental
unit (R61). -/
def placeGroup (s : State) (t n : Nat) (g g' : Group) (b : Bundle) : State :=
  let s1 := setGroup s t n g'
  let busy := match b.v with
    | some v => if v.usesTx then g.width / 16 else (tile s1 t).txBusy
    | none => (tile s1 t).txBusy
  perfCount (modTile s1 t (fun x => { x with age := ageAfter x.age n b.yield, txBusy := busy })) t 0x02 1

/-! Sources that a counted instruction has not yet written (R97). -/

/-- Uniform registers that a control operation reads. -/
def COp.usrcs : COp → List Nat
  | .brCond s _ _ => [s]
  | .jmpr s => [s]
  | .ualu _ _ a b => [a, b]
  | .ualui _ _ a _ => [a]
  | .pmov _ s => [s]
  | _ => []

/-- Vector registers that a bundle reads. -/
def Bundle.vread (b : Bundle) : List Nat :=
  (b.v.map (fun v => v.srcs.filter (· ≠ 0xFF))).getD [] ++
    (match b.m with
     | some m => (if (mStore m.op || mStoreW m.op || mAnyAtom m.op || mStc m.op) then rangeFrom m.d m.dRegs else []) ++
         (if m.laneWise && m.a ≠ 0xFF then [m.a] else [])
     | none => [])

/-- Uniform registers that a bundle reads. -/
def Bundle.uread (b : Bundle) : List Nat :=
  (b.c.map COp.usrcs).getD [] ++
    (match b.v with
     | some (.vx op x _ _) => if op = 0x18 || op = 0x1D then [x] else []
     | _ => []) ++
    (match b.m with
     | some m => (if m.laneWise || m.op = 0x68 || m.op = 0x69 then [m.b] else []) ++ (if m.op = 0x68 || m.op = 0x69 || m.op = 0x6A then [m.d] else [])
     | none => []) ++
    (match b.a with
     | some a => rangeFrom a.sr (if a.op = 1 then 4 else 2)
     | none => [])

/-- Results on their way to registers that a bundle reads. -/
def Group.dueV (g : Group) (b : Bundle) : List (Nat × Nat × Nat) :=
  ((g.pend.map (fun p => if p.done then [] else match p.kind with
    | .loadW ws _ _ => ws
    | .longV ws => ws
    | _ => [])).flatten).filter (fun w => b.vread.contains w.1)
def Group.dueU (g : Group) (b : Bundle) : List (Nat × Nat) :=
  (g.pend.filterMap (fun p => if p.done then none else match p.kind with
    | .longU r v => some (r, v)
    | _ => none)).filter (fun w => b.uread.contains w.1)

/-- R97: each register and lane that the bundle reads before its result is written holds the old or the new value: which, is a
free value. -/
def earlyReads (s : State) (t n : Nat) (g : Group) (b : Bundle) : Group × State :=
  let vs := g.dueV b
  let us := g.dueU b
  if vs.isEmpty && us.isEmpty then (g, s)
  else
    let (f, s1) := takeFree s
    let pick {α : Type} (k : Nat) (l : List α) : List α := ((l.mapIdx (fun i x => (i, x))).filter (fun x => f.testBit (k + x.1))).map (·.2)
    let g1 := (pick vs.length us).foldl (fun g w => g.uput w.1 w.2) (g.vputs (pick 0 vs))
    (g1, setGroup s1 t n g1)

/-- Does the bundle call for the barrier to be evaluated (R67)? -/
def atBarrier (b : Bundle) (g' : Group) : Bool := b.c == some .bar || b.c == some .exit || g'.stat == .finished

/-- The effects of a bundle that no check refuses: memory slot first, then control and vector results, all from the
registers as they stood at issue (R88). -/
def applyBundle (s0 : State) (t n : Nat) (g0 : Group) (b : Bundle) (aSerial : Nat) : State :=
  let (g, s) := earlyReads s0 t n g0 b
  let mres := match b.m with
    | some m => mExec s t n g m
    | none => .ok s
  match mres with
  | .notReady => perfCount s t 0x0D 1
  | .fault code lanes addr cause acc last s1 => groupFault s1 t n (mkFault code lanes addr b.raw cause acc last)
  | .ok s1 =>
    match group? s1 t n with
    | none => s1
    | some g1 =>
      let (vr, s2) := match b.v with
        | some v => vExec s1 t g b.l1 v
        | none => ({}, s1)
      let g' := (((ctlPart s s2 t b g g1).takeV vr).takeA b.a aSerial).issued g.nextId b.raw
      let s3 := placeGroup (ctlTick s2 t b.c) t n g g' b
      if atBarrier b g' then evalBarrier s3 t g.wg else s3

/-- A TRAP with a code from 0xF0 to 0xFF fires a cairn trigger when its source is enabled (R519). -/
def trapTrigger (s : State) (b : Bundle) : State :=
  match b.c with
  | some (.trap code) => if code ≥ 0xF0 && regF s pgDbg 0x080 2 2 = 1 then cairnTrigger s 3 0 else s
  | _ => s

/-- R89, R65, R99: the checks that fault a bundle before any slot takes effect. -/
def bundleFault (g : Group) (b : Bundle) : Option Nat :=
  if !b.legal then some fIllegal
  else if b.regRange g.r then some fRange
  else match b.c with
    | some c => cFault g c
    | none => none

/-- An imprecise fault (R75): the workgroup stops; the record keeps the state as it stands. -/
def impreciseFault (s : State) (t n code lanes addr raw : Nat) : State :=
  groupFault s t n { mkFault code lanes addr raw 0 0 0 with imprecise := true }

/-- A bundle that reads vector registers meets an armed register file detector (R525): TILE 0x01 corrects, 0x02 faults the
group. The row that the read takes is a free value. Answers whether the group faulted. -/
def regfileRead (s : State) (t n : Nat) (b : Bundle) : Bool × State :=
  let reads := (b.v.map (fun v => v.srcs.any (· ≠ 0xFF))).getD false || (b.m.map (fun m => !m.regs.isEmpty)).getD false
  let pg := pgTile t
  if !reads then (false, s)
  else if injects s pg 1 then
    let (row, s1) := takeFree (injFire s pg [12])
    (false, errSet s1 pg 12 (row % 2048))
  else if injects s pg 2 then
    let (row, s1) := takeFree (injFire s pg [13])
    (true, impreciseFault (errSet s1 pg 13 (row % 2048)) t n fEcc 0 0 b.raw)
  else (false, s)

/-- Issue of one ready bundle; one with an A slot is first offered to the array or row engine. -/
def issueBundle (s : State) (t n : Nat) (g : Group) (b : Bundle) : State :=
  match bundleFault g b with
  | some f => groupFault (trapTrigger s b) t n (faultOf f b)
  | none =>
    match regfileRead s t n b with
    | (true, s1) => s1
    | (false, s1) => match b.a with
      | some a => aOffer s1 t n g b a
      | none => parkAsked (applyBundle s1 t n g b 0) t g.wg

/-- The bundle fetched for a group's PC: decoded, or its bits when the encoding is reserved. -/
def nextBundle (g : Group) : Option (Bundle × Bool) :=
  match g.fetched with
  | none => none
  | some (pc, raw, lit) =>
    if pc ≠ g.pc then none
    else match decBundle raw lit with
    | some b => some (b, true)
    | none => some ({ raw := raw, lit := lit, wait := bits raw 127 122 }, false)

/-- A group with the bundle it would issue, and whether that decodes. -/
abbrev Cand := Nat × Group × Bundle × Bool

/-- The groups of a tile whose next bundle meets a condition, oldest first. -/
def candsWith (s : State) (t : Nat) (f : Nat → Group → Bundle → Bool) : List Cand :=
  (tile s t).age.filterMap (fun n => match group? s t n with
    | some g => match nextBundle g with
      | some (b, ok) => if f n g b then some (n, g, b, ok) else none
      | none => none
    | none => none)

/-- The ready groups with their bundles, oldest first. -/
def readyGroups (s : State) (t : Nat) : List Cand := candsWith s t (fun n g b => bundleReady s t n g b)

/-- One step of the thread core (R25): the step count and the hold of the transcendental unit (R61). -/
def roundTick (s : State) (t : Nat) : State :=
  let s1 := modBlk s (pgTile t) (fun b => { b with steps := (b.steps + 1) % 2 ^ 64 })
  perfCount (modTile s1 t (fun x => { x with txBusy := x.txBusy - 1 })) t 0x01 1

/-- The steps in a row that ready groups have waited (R60): a group that is not ready begins anew. -/
def roundWaits (s : State) (t : Nat) (waiting : List Nat) : State :=
  modTile s t (fun x =>
    { x with groups := x.groups.map (fun p => (p.1, { p.2 with ready := if waiting.contains p.1 then p.2.ready + 1 else 0 })) })

/-- The step in which one group issues alone. -/
def roundOne (s : State) (t n : Nat) : State :=
  let s1 := roundTick s t
  roundWaits s1 t (((readyGroups s1 t).map (·.1)).filter (· ≠ n))

/-- A group issues a bundle that holds one instruction alone (the command rows of the bundle set). Nothing happens when the
group is absent or not ready. -/
def issueOne (s : State) (r : GRef) (b : Bundle) : State :=
  let s1 := roundOne s r.tile r.slot
  match group? s1 r.tile r.slot with
  | none => s
  | some g => if bundleReady s1 r.tile r.slot g b then issueBundle s1 r.tile r.slot g b else s

/-- A bundle with the given slots, its encoding and its literal words L0 and L1. -/
def mkBundle (c : Option COp) (v : Option VOp) (m : Option MOp) (a : Option AOp) (l0 l1 : Nat) : Bundle :=
  let b : Bundle := { raw := 0, lit := l0 + 2 ^ 32 * l1, c := c, v := v, m := m, a := a }
  { b with raw := encBundle b }

def issueC (s : State) (r : GRef) (c : COp) (l0 l1 : Nat) : Out := .next (issueOne s r (mkBundle (some c) none none none l0 l1))
def issueV (s : State) (r : GRef) (v : VOp) (lit : Nat) : Out := .next (issueOne s r (mkBundle none (some v) none none 0 lit))
def issueM (s : State) (r : GRef) (m : MOp) : Out := .next (issueOne s r (mkBundle none none (some m) none 0 0))
def issueA (s : State) (r : GRef) (a : AOp) : Out := .next (issueOne s r (mkBundle none none none (some a) 0 0))

end Sys2Proof.Machine
end

