-- ==== Sys2Proof/Machine/Work.lean ====
section
/-!
DEFINITION. Queue descriptors (R327), launches, admission and placement of workgroups (R22, R55 to R59, R271), park images
(R78, R79, R555) and their replay (R81 to R83).
-/
namespace Sys2Proof.Machine

/-! Queue descriptors (R327). -/

def qdAddr (s : State) (q : Nat) : Nat := regPair s (pgEng 40) 0x0A0 + 128 * q
def qdN (s : State) (q off n : Nat) : Nat := rdN s 255 (qdAddr s q + off) n
def setQd (s : State) (q off n v : Nat) : State := lineWriteN s 255 (qdAddr s q + off) n v

def qState (s : State) (q : Nat) : Nat := bits (qdN s q 0 4) 2 0
def qWaiting (s : State) (q : Nat) : Bool := (qdN s q 0 4).testBit 3
def qPrio (s : State) (q : Nat) : Nat := bits (qdN s q 0 4) 6 4
def qCtx (s : State) (q : Nat) : Nat := bits (qdN s q 0 4) 31 16
def qSpace (s : State) (q : Nat) : Nat := bits (qdN s q 4 4) 11 0
def qEvring (s : State) (q : Nat) : Nat := bits (qdN s q 0x1C 4) 15 8
def qPark (s : State) (q : Nat) : Nat := qdN s q 0x20 8

/-- Engine number by ENGINE code (R329): class and engine within the class. -/
def engOfCode (c : Nat) : Option Nat :=
  let n := bits c 5 0
  match bits c 7 6 with
  | 0 => if n < 16 then some n else none
  | 1 => if n < 16 then some (16 + n) else none
  | 2 => if n < 8 then some (32 + n) else none
  | _ => if n < 4 then some (40 + n) else none

/-- The engine a queue is bound to. -/
def qEng (s : State) (q : Nat) : Option Nat := engOfCode (bits (qdN s q 0 4) 15 8)

def setQState (s : State) (q st : Nat) : State := setQd s q 0 4 (setBits (qdN s q 0 4) 2 0 st)
def setQWaiting (s : State) (q : Nat) (w : Bool) : State := setQd s q 0 4 (setBits (qdN s q 0 4) 3 3 (if w then 1 else 0))

def qlive (s : State) (q : Nat) : QLive := tgetD s.queues q {}
def setQlive (s : State) (q : Nat) (x : QLive) : State := { s with queues := tput s.queues q x }

/-! Commands and launches. -/

def cmd? (s : State) (q n : Nat) : Option Cmd := s.cmds.find? (fun c => c.q == q && c.serial == n)
def modCmd (s : State) (q n : Nat) (f : Cmd → Cmd) : State :=
  { s with cmds := s.cmds.map (fun c => if c.q = q && c.serial = n then f c else c) }
def endCmd (s : State) (q n status info : Nat) : State := modCmd s q n (·.finish status info)

def launch? (s : State) (q n : Nat) : Option Launch := s.launches.find? (fun l => l.q == q && l.serial == n)
def modLaunch (s : State) (q n : Nat) (f : Launch → Launch) : State :=
  { s with launches := s.launches.map (fun l => if l.q = q && l.serial = n then f l else l) }

def Launch.key (l : Launch) : LaunchKey := ⟨l.ctx, l.q, l.serial⟩
def Launch.total (l : Launch) : Nat := l.wx * l.wy * l.wz

/-! Occupancy (R57, R58). -/

def allocR (r : Nat) : Nat := 8 * ((r + 7) / 8)
def wgRegBytes (g w r : Nat) : Nat := g * w * 4 * allocR r
def wgmUnits (m : Nat) : Nat := (m + 16383) / 16384

def Tile.regsUsed (x : Tile) : Nat := (x.wgs.map (fun p => wgRegBytes p.2.g p.2.width p.2.r)).sum
def Tile.wgmUsed (x : Tile) : Nat := (x.wgs.map (fun p => wgmUnits p.2.m)).sum
def Tile.groupsUsed (x : Tile) : Nat := (x.wgs.map (fun p => p.2.g)).sum

/-- The workgroup partition in 16 KiB units (R224). -/
def wgmPart (s : State) (t : Nat) : Nat := regF s (pgTst t) 0x080 7 0

/-- R58: the four limits hold after admission. -/
def roomFor (s : State) (t : Nat) (x : Tile) (g w r m : Nat) : Bool :=
  x.groupsUsed + g ≤ 64 && x.wgs.length + 1 ≤ 32 && x.regsUsed + wgRegBytes g w r ≤ 524288 &&
    x.wgmUsed + wgmUnits m ≤ wgmPart s t

/-- R271: the kernel's region entries are loaded, or fit. -/
def rgnFits (x : Tile) (k : LaunchKey) (n : Nat) : Bool :=
  x.wgs.any (fun p => p.2.launch == k) || x.rgn.length + n ≤ 16

/-- The rail's point code. -/
def railCode (s : State) (n : Nat) : Nat := regF s pgPwr (0x100 + 4 * n) 4 0

/-- R491: a worn tile admits work only while its rail's code is at or above its minimum code; on a rail at code 0 for want of
work the uniform point counts. -/
def wearAdmits (s : State) (t : Nat) : Bool :=
  let m := regF s (pgTile t) 0x0C0 4 0
  let n := railOfTile t
  m = 0 || railCode s n ≥ m || (railCode s n = 0 && s.pwr.idle.contains n && regF s pgPwr 0x09C 4 0 ≥ m)

/-- The launch that a tile keeps room for: one that still has a workgroup to place (R377). -/
def keptFor (s : State) (x : Tile) : Option (Nat × Nat) :=
  match x.room with
  | some k => (match launch? s k.1 k.2 with
    | some l => if l.next < l.total || !l.parked.isEmpty then some k else none
    | none => none)
  | none => none

/-- A tile admits the workgroup offered (R22, R41, R58, R271); room made by preemption is kept (R377, R378). -/
def admits (s : State) (t : Nat) (l : Launch) : Bool :=
  let x := tile s t
  let k := keptFor s x
  inService s (pgTile t) && wearAdmits s t && (k == none || k == some (l.q, l.serial)) && roomFor s t x l.g l.width l.r l.m &&
    rgnFits x l.key l.rgn.length

/-- The tiles in the order of R22 for an engine, narrowed by DIES (R346); tiles that are not IDLE or BUSY are passed over. -/
def candidates (s : State) (e dies : Nat) : List Nat :=
  let d := engDie e
  let order := [d, Nat.xor d 1, Nat.xor d 2, Nat.xor d 3].filter (fun x => dies = 0 || dies.testBit x)
  let rot := (tgetD s.engs e {}).rot
  ((order.map (fun x => (List.range 44).map (fun i => 44 * x + (tgetD rot x 0 + i) % 44))).flatten).filter
    (fun t => inService s (pgTile t))

/-- R56: the lane sets of the groups of one workgroup, in rotation from the emptiest. -/
def laneSets (x : Tile) (w n : Nat) : List Nat :=
  let k := 64 / w
  let load (i : Nat) : Nat := (x.groups.filter (fun p => p.2.width == w && p.2.lset == i)).length
  let first := (List.range k).foldl (fun b i => if load i < load b then i else b) 0
  (List.range n).map (fun i => (first + i) % k)

/-- The lowest free group slots of a tile. -/
def freeSlots (x : Tile) (n : Nat) : List Nat := ((List.range 64).filter (fun i => !thas x.groups i)).take n

/-- `n` of the units in a list: which, and in which order, is a free value. -/
def pickUnits : Nat → Nat → List Nat → List Nat
  | 0, _, _ => []
  | n + 1, f, l => if l.isEmpty then [] else l.getD (f % l.length) 0 :: pickUnits n (f / l.length) (l.eraseIdx (f % l.length))

/-- Units of the workgroup partition for `m` bytes, not held by another workgroup of the tile (R224). -/
def takeUnits (s : State) (t m : Nat) : List Nat × State :=
  if m = 0 then ([], s)
  else
    let (f, s1) := takeFree s
    let used := ((tile s t).wgs.map (fun p => p.2.units)).flatten
    (pickUnits (wgmUnits m) f ((List.range (wgmPart s t)).filter (fun u => !used.contains u)), s1)

/-- A workgroup with its groups becomes resident on a tile; before the kernel's first workgroup there the L1 and the statistics
cache are invalidated (R229, R197); its region entries are loaded when no workgroup of it is resident (R271). -/
def place (s0 : State) (t : Nat) (l : Launch) (w0 : Wg) (gs : List Group) : State :=
  let (us, s) := takeUnits s0 t w0.m
  let w := { w0 with units := us }
  let first := !l.tiles.contains t
  let s1 := if first then modLaunch (l1Inval s t) l.q l.serial (fun l => { l with tiles := l.tiles ++ [t] }) else s
  let x := tile s1 t
  let x := if first then { x with row := { x.row with scache := [] } } else x
  let x := if x.wgs.any (fun p => p.2.launch == l.key) then x else { x with rgn := x.rgn ++ l.rgn.map (fun r => ⟨l.key, r.1, r.2.1, r.2.2⟩) }
  let id := (tfree x.wgs 32).getD 0
  let slots := freeSlots x gs.length
  let ls := laneSets x l.width gs.length
  let new := (slots.zip (gs.zip ls)).mapIdx (fun i p => (p.1, { p.2.1 with wg := id, lset := p.2.2, born := x.nborn + i }))
  let groups := new.foldl (fun m p => tput m p.1 p.2) x.groups
  let room := if x.room = some (l.q, l.serial) then none else x.room
  let s2 := setTile s1 t { x with
    wgs := tput x.wgs id w, groups := groups, age := x.age ++ slots, room := room, nborn := x.nborn + gs.length }
  let e := tgetD s2.engs l.eng {}
  let s3 := { s2 with engs := tput s2.engs l.eng { e with rot := tput e.rot (t / 44) ((t % 44 + 1) % 44) } }
  settle s3 (pgTile t) true

/-- The uniform registers at admission (R348). -/
def launchRegs (l : Launch) (x y z i : Nat) : Tab DWord :=
  let vals := [x + 2 ^ 32 * y, z + 2 ^ 32 * i, l.wx + 2 ^ 32 * l.wy, l.wz + 2 ^ 32 * l.serial] ++ l.args ++ [l.fstat]
  (vals.mapIdx (fun k v => (k, BitVec.ofNat 64 v))).filter (fun p => p.2 ≠ 0)

/-- A new workgroup of a launch: index n in the order x, y, z. -/
def newWg (l : Launch) (n : Nat) : Wg × List Group :=
  let x := n % l.wx
  let y := n / l.wx % l.wy
  let z := n / (l.wx * l.wy)
  let w : Wg := {
    launch := l.key, space := l.space, kdesc := l.kdesc, x := x, y := y, z := z, g := l.g, width := l.width,
    r := l.r, m := l.m, cls := l.prio, eng := l.eng, fsw := l.fstat }
  let grp (i : Nat) : Group := {
    wg := 0, idx := i, width := l.width, lset := 0, r := l.r, pc := l.code, live := maskAll l.width,
    active := maskAll l.width, u := launchRegs l x y z i }
  (w, (List.range l.g).map grp)

/-! Park images. -/

def recSize (w r : Nat) : Nat := 1664 + w * 4 * allocR r
def imageSize (g w r m : Nat) : Nat := 256 + g * recSize w r + roundUp m 128
def zeros (n : Nat) : List Nat := List.replicate n 0
/-- Width code of R78 and R345. -/
def widthCode (w : Nat) : Nat := if w = 16 then 0 else if w = 32 then 1 else 2
def widthOf (c : Nat) : Nat := if c = 0 then 16 else if c = 1 then 32 else 64

/-- ACTION that the tile writes (R82). -/
def actionFor (reason : Nat) : Nat := if reason = rPreempt || reason = rMigrate || reason = rWait || reason = rCompanion then 1 else 0

/-- A mask stack entry (R555). -/
def entryBytes (e : MEntry) : List Nat := toBytes 8 e.saved ++ toBytes 8 e.deferred ++ toBytes 8 (addr48 e.t1) ++ toBytes 8 (addr48 e.t2 + e.phase * 2 ^ 48)

/-- A group record (R79). -/
def recBytes (g : Group) : List Nat :=
  let f := g.fault.getD ⟨0, 0, 0, 0, false, 0, 0, 0⟩
  let status := g.idx + 256 * g.reason + 65536 * actionFor g.reason + 2 ^ 24 * g.stack.length +
    (if f.imprecise then 2 ^ 30 else 0) + (if g.stat = .barrier then 2 ^ 31 else 0)
  let fault := f.code + 256 * (lowestBit 64 f.lanes).getD 0
  let head := toBytes 8 g.pc ++ toBytes 4 status ++ toBytes 4 fault ++ toBytes 8 g.live ++ toBytes 8 g.active ++
    toBytes 8 g.arrived ++ toBytes 8 f.lanes ++ toBytes 8 f.addr ++ toBytes 16 f.bundle ++ zeros 184
  let us := ((List.range 32).map (fun i => toBytes 8 (g.uget i))).flatten
  let ps := ((List.range 8).map (fun i => toBytes 8 (g.pget i))).flatten ++ zeros 64
  let st := (g.stack.reverse.map entryBytes).flatten ++ zeros (32 * (32 - g.stack.length))
  let vs := ((List.range (allocR g.r)).map (fun r => ((List.range g.width).map (fun l => toBytes 4 (g.vget r l).toNat)).flatten)).flatten
  head ++ us ++ ps ++ st ++ vs

/-- The park image of a workgroup (R78). -/
def imageBytes (w : Wg) (gs : List Group) : List Nat :=
  let anyFault := gs.any (fun g => g.reason == rFault)
  let anyImp := gs.any (fun g => match g.fault with
    | some f => f.imprecise
    | none => false)
  let head := toBytes 4 1 ++ toBytes 4 (w.g + 32 * widthCode w.width + 128 * w.r) ++ toBytes 8 w.kdesc ++
    toBytes 8 (w.launch.ctx + 2 ^ 16 * w.launch.queue + 2 ^ 32 * w.launch.serial) ++ toBytes 4 w.x ++ toBytes 4 w.y ++
    toBytes 4 w.z ++ toBytes 4 w.m ++ toBytes 4 w.barGen ++
    toBytes 4 ((if anyFault then 1 else 0) + (if anyImp then 2 else 0)) ++ zeros 208
  head ++ (gs.map recBytes).flatten ++ wgmRead w 0 w.m ++ zeros (roundUp w.m 128 - w.m)

/-- Groups of a workgroup by group index. -/
def Tile.byIdx (x : Tile) (w n : Nat) : List (Nat × Group) :=
  (List.range n).filterMap (fun i => (x.groupsOf w).find? (fun p => p.2.idx == i))

/-- What a tile keeps of a group that leaves it: the errors of its remote stores that a FENCE REMOTE has not recorded, while
stores of it accepted early are not performed (R269, R280). -/
def Tile.orphan (x : Tile) (w : Wg) (n : Nat) (g : Group) : List Orphan :=
  if g.remErr ≠ 0 || x.posted.any (fun e => e.slot == n && e.born == g.born) then [⟨w.launch, w.space, w.fsw, g.born, g.remErr⟩] else []

/-- The resources of a workgroup are released (R73 step 5, R98); region slots with the last workgroup of the launch on the
tile (R271). Reservations of its groups end (R281). -/
def releaseWg (s : State) (t w : Nat) : State :=
  let x := tile s t
  match tget? x.wgs w with
  | none => s
  | some wg =>
    let slots := (x.groupsOf w).map (·.1)
    let wgs := tdel x.wgs w
    let last := !wgs.any (fun p => p.2.launch == wg.launch)
    let s1 := setTile s t { x with
      wgs := wgs
      groups := x.groups.filter (fun p => p.2.wg ≠ w)
      age := x.age.filter (fun n => !slots.contains n)
      orphans := x.orphans ++ ((x.groupsOf w).map (fun p => x.orphan wg p.1 p.2)).flatten
      rgn := if last then x.rgn.filter (fun r => r.launch ≠ wg.launch) else x.rgn }
    let s2 := { s1 with resvs := s1.resvs.filter (fun r => !(r.2.1 == t && slots.contains r.2.2)) }
    settle s2 (pgTile t) (!wgs.isEmpty)

/-! The park area (R350). -/

/-- NSLOTS, SLOTSZ and the address of a slot. -/
def slotAddr (park slotsz i : Nat) : Nat := park + 0x280 + i * slotsz

/-- What taking a slot, or clearing its bit, comes to: a fault, a wait, done with the bit's old value. -/
inductive SlotRes where
  | fault
  | wait
  | was (v : Bool)
  deriving DecidableEq, Repr

/-- Bit `i` of the bitmap of a park area is set or cleared by one atomic operation. -/
def setSlotBit (s : State) (ag die space park i stream : Nat) (v : Bool) : SlotRes × State :=
  let bit := 2 ^ (i % 32)
  match atomVirt s ag die space (park + 0x80 + 4 * (i / 32)) (if v then 10 else 9) (if v then bit else 2 ^ 32 - 1 - bit) stream with
  | ((_, .got bs _), s1) => (.was ((ofBytes bs).testBit (i % 32)), s1)
  | ((_, .wait), s1) => (.wait, s1)
  | ((_, .fault), s1) => (.fault, s1)

/-- The word of a slot's bit has to wait: its line is held. -/
def slotHeld (s : State) (ag die space park i : Nat) : Bool := virtHeld s ag die space (park + 0x80 + 4 * (i / 32)) 4 .rmw

/-- A slot's bit is cleared (R350). Nobody waits for the answer of another device. -/
def freeSlot (s : State) (ag die space park i stream : Nat) : State :=
  let s1 := (setSlotBit s ag die space park i stream false).2
  let o : ReqOwner := .virt ag space (atomKey (park + 0x80 + 4 * (i / 32)) 9 (2 ^ 32 - 1 - 2 ^ (i % 32)))
  { s1 with reqs := s1.reqs.map (fun r => if r.owner = o then { r with owner := .none } else r) }

/-- Read the header and the bitmap: NSLOTS, SLOTSZ and the lowest clear bit below NSLOTS. -/
def parkHeader (s : State) (ag die space park : Nat) : VRead × Option (Nat × Nat × Option Nat) × State :=
  match readVirt s ag die space park 0x280 .read with
  | ((_, .got bs m), s1) =>
    let n := leAt4 bs 0
    (.got bs m, some (n, leAt4 bs 4, (List.range n).find? (fun i => !(bs.getD (0x80 + i / 8) 0).testBit (i % 8))), s1)
  | ((_, r), s1) => (r, none, s1)

/-- The registers, masks and stack of one group record (R79), read back for a replay (R83). -/
def readRec (l : Launch) (i : Nat) (bs : List Nat) : Group :=
  let st := leAt4 bs 8
  let depth := bits st 29 24
  let ent (k : Nat) : MEntry :=
    let o := 256 + 256 + 128 + 32 * k
    ⟨leAt8 bs o, leAt8 bs (o + 8), bits (leAt8 bs (o + 16)) 47 0, bits (leAt8 bs (o + 24)) 47 0, bits (leAt8 bs (o + 24)) 49 48⟩
  let us := (List.range 32).filterMap (fun k => let v := leAt8 bs (256 + 8 * k); if v = 0 then none else some (k, BitVec.ofNat 64 v))
  let ps := (List.range 8).filterMap (fun k => let v := leAt8 bs (512 + 8 * k); if v = 0 then none else some (k, BitVec.ofNat 64 v))
  let vs := ((List.range l.r).map (fun r => (List.range l.width).filterMap (fun n =>
    let v := leAt4 bs (1664 + 4 * (r * l.width + n))
    if v = 0 then none else some (64 * r + n, BitVec.ofNat 32 v)))).flatten
  let live := leAt8 bs 0x10
  { wg := 0, idx := i, width := l.width, lset := 0, r := l.r, pc := leAt8 bs 0, live := live, active := leAt8 bs 0x18,
    arrived := leAt8 bs 0x20, u := us, p := ps, v := vs, stack := ((List.range depth).map ent).reverse,
    stat := if live = 0 then .finished else if st.testBit 31 then .barrier else .run }

/-- Reason and ACTION of a group record. -/
def recReason (bs : List Nat) : Nat := bits (leAt4 bs 8) 15 8
def recAction (bs : List Nat) : Nat := bits (leAt4 bs 8) 23 16
def recImprecise (bs : List Nat) : Bool := (leAt4 bs 8).testBit 30

/-- R82: the actions a reason permits. -/
def actionOk (reason action : Nat) (imprecise : Bool) : Bool :=
  if reason = rPreempt || reason = rMigrate || reason = rWait || reason = rCompanion then action = 1
  else if reason = rFault then (if imprecise then action = 3 else action = 1 || action = 2 || action = 3)
  else if reason = rStranded then action = 2 || action = 3
  else if reason = rDebug then action = 1 || action = 2 || action = 3
  else false

/-- Bytes from a bundle to the next: a literal bundle counts with its own (R91). -/
def bundleSpan (raw : Nat) : Nat :=
  match decBundle raw 0 with
  | some b => b.bytes
  | none => 16

/-- A group record whose ACTION moves past the bundle at PC (R81): SKIP of a fault or a debug halt. -/
def recSkips (bs : List Nat) : Bool := recAction bs = 2 && recReason bs ≠ rStranded

/-- The bundle that SKIP moves past: the record's copy of the faulting bundle, or the bundle in memory where it holds none; none
while it is read. -/
def skipBundle (s : State) (die space : Nat) (bs : List Nat) : Option Nat × State :=
  if !recSkips bs || leAt bs 0x38 16 ≠ 0 then (some (leAt bs 0x38 16), s)
  else match readVirt s (agDie die) die space (leAt8 bs 0) 16 .fetch with
    | ((_, .got b _), s1) => (some (ofBytes b), s1)
    | ((_, .wait), s1) => (none, s1)
    | ((_, .fault), s1) => (some 0, s1)

/-- A group as its ACTION leaves it (R81). -/
def applyAction (bs : List Nat) (raw : Nat) (g : Group) : Group :=
  if recSkips bs then { g with pc := (g.pc + bundleSpan raw) % 2 ^ 64 } else g

end Sys2Proof.Machine
end

