-- ==== Sys2Proof/Machine/Thread.lean ====
section
/-!
DEFINITION. What the thread core, its L1 and its store buffer do on their own: issue rounds (R60), fetch (R112), returns of
loads and long results (R94, R95), releases and completions of stores (R267 to R283), fences (R278), the end of a group.
-/
namespace Sys2Proof.Machine

/-! Issue rounds (R60). -/

/-- What one step chooses (R60): the bundles, the candidates skipped for the A slot and for the transcendental unit, and the
free entries of the store buffer. -/
structure Pick where
  chosen : List Cand := []
  skipA  : Nat := 0
  skipTx : Nat := 0
  skipSb : Nat := 0
  free   : Nat := 0
  deriving DecidableEq, Repr

/-- One candidate in its turn: the first issues; groups of the same width on other lane sets join it (R60 steps 2 and 3). -/
def Pick.add (s : State) (t : Nat) (p : Pick) (c : Cand) : Pick :=
  let b := c.2.2.1
  let need := (b.m.map (storeNeed s t c.1 c.2.1)).getD 0
  let take (k : Unit → Pick) : Pick := if need > p.free then { p with skipSb := p.skipSb + 1 } else k ()
  match p.chosen with
  | [] =>
    if !txFree s t b then { p with skipTx := p.skipTx + 1 } else take (fun _ => { p with chosen := [c], free := p.free - need })
  | f :: _ =>
    if f.2.1.width = 64 || c.2.1.width ≠ f.2.1.width || p.chosen.any (fun x => x.2.1.lset == c.2.1.lset) then p
    else if b.a.isSome && p.chosen.any (fun x => x.2.2.1.a.isSome) then { p with skipA := p.skipA + 1 }
    else if usesTxB b && (!txFree s t b || p.chosen.any (fun x => usesTxB x.2.2.1)) then { p with skipTx := p.skipTx + 1 }
    else take (fun _ => { p with chosen := p.chosen ++ [c], free := p.free - need })

/-- The oldest group that has been ready for STARVE steps in a row (R60 step 1). -/
def starved (s : State) (t : Nat) : Option Cand :=
  (readyGroups s t).find? (fun c => c.2.1.ready ≥ regF s (pgTile t) 0x088 9 0)

/-- The bundles chosen in one step (R60). -/
def chooseIssue (s : State) (t : Nat) : Pick :=
  let cs := candsWith s t (fun _ g b => bundleBase s t g b)
  let order := match starved s t with
    | some f => f :: cs.filter (fun c => c.1 ≠ f.1)
    | none => cs
  order.foldl (Pick.add s t) { free := 64 - (tile s t).sb.length }

/-- The counters of R529 that one step's choice moves. -/
def pickCounts (s : State) (t : Nat) (p : Pick) (st : Bool) : State :=
  let c (s : State) (ev k : Nat) : State := if k = 0 then s else perfCount s t ev k
  c (c (c (c s 0x03 p.skipA) 0x04 p.skipTx) 0x05 (if st then 1 else 0)) 0x0D p.skipSb

/-- R60: one step of the thread core. Each chosen bundle reads the group as it stands when its turn comes; groups issued
together are distinct. A bundle with a reserved encoding faults its group (R89). Where nothing can issue and the transcendental
unit holds nothing, no step is taken (R25). -/
def execIssueRound (t : Nat) (s : State) : Out :=
  let s1 := roundTick s t
  let p := chooseIssue s1 t
  let waiting := ((readyGroups s1 t).map (·.1)).filter (fun n => !p.chosen.any (fun c => c.1 == n))
  .next (if p.chosen.isEmpty && (tile s t).txBusy = 0 then s
    else p.chosen.foldl (fun s c =>
      match group? s t c.1 with
      | none => s
      | some g => if c.2.2.2 then issueBundle s t c.1 g c.2.2.1 else groupFault s t c.1 (faultOf fIllegal c.2.2.1))
      (pickCounts (roundWaits s1 t waiting) t p (starved s1 t).isSome))

/-! Fetch (R112, R228). -/

/-- A precise fetch fault: FAULT_ADDR is the fetch address and BUNDLE 0 (R112). -/
def fetchFault (s : State) (t n code addr cause : Nat) : State := groupFault s t n (mkFault code 0 addr 0 cause 3 addr)

/-- The 16 bytes at an address through the L1: bytes and mark; none while a remote line is on its way. -/
def fetch16 (s : State) (t n space va : Nat) : (Option (Nat × Bool) ⊕ (Nat × Nat)) × State :=
  let die := tileDie t
  let vline := va / 128 * 128
  match translate s (agTile t) die space va .fetch false with
  | (.inl c, s1) => (.inr (causeCode c, c), countXltFault s1 die { fails := [(va, c)] })
  | (.inr (d, _), s1) =>
    let s1 := l1Parity s1 t space vline
    let take (r : List Nat × Bool) := ofBytes ((r.1.drop (va % 128)).take 16)
    let loc (pa : Nat) : (Option (Nat × Bool) ⊕ (Nat × Nat)) × State :=
      if lineHeld s1 pa && ((tile s1 t).l1Find space vline).isNone then (.inl none, s1)
      else let (r, s2) := l1Read s1 t space (spaceSlot s1 die space) vline pa; (.inl (some (take r, r.2)), s2)
    match d with
    | .loc pa => loc pa
    | .mir pa _ => loc pa
    | .rem a =>
      match (tile s1 t).l1Find space vline with
      | some l => (.inl (some (take (l.data, l.mark), l.mark)), modTile s1 t (fun x => x.l1Put l))
      | none =>
        match s1.reqs.find? (fun r => r.owner = .fetch t n && r.k.addr = a.addr / 128 * 128 && r.k.dst = a.dev) with
        | none => (.inl none, sendReq s1 (pktTo (packet0 pkRead 0 space 0) a.line) (.fetch t n))
        | some r => match r.res with
          | none => (.inl none, s1)
          | some _ => (.inl (some (take r.line, r.line.2)), modTile (delReq s1 r.id) t (fun x => x.l1Fill space vline r))

/-- CODE_FETCH: the bundle at the group's PC and its literal bundle come through the L1 (R91, R112). -/
def execCodeFetch (g : GRef) (s0 : State) : Out :=
  let t := g.tile
  let n := g.slot
  let s := prefSweep s0 t
  .next (match group? s t n with
  | none => s
  | some gr =>
    if gr.stopped || gr.stat = .finished || gr.offer.isSome then s
    else match wg? s t gr.wg with
    | none => s
    | some w =>
      match fetch16 s t n w.space gr.pc with
      | (.inr (code, c), s1) => fetchFault s1 t n code gr.pc c
      | (.inl none, s1) => s1
      | (.inl (some (raw, mark)), s1) =>
        if mark then fetchFault s1 t n fPoison gr.pc 0
        else match decBundle raw 0 with
        | some b =>
          if b.usesLit then
            match fetch16 s1 t n w.space ((gr.pc + 16) % 2 ^ 64) with
            | (.inr (code, c), s2) => groupFault s2 t n (mkFault code 0 (gr.pc + 16) 0 c 3 (gr.pc + 16))
            | (.inl none, s2) => s2
            | (.inl (some (lit, mark2)), s2) =>
              if mark2 then fetchFault s2 t n fPoison (gr.pc + 16) 0
              else modGroup s2 t n (fun g => { g with fetched := some (gr.pc, raw, lit) })
          else modGroup s1 t n (fun g => { g with fetched := some (gr.pc, raw, 0) })
        | none => modGroup s1 t n (fun g => { g with fetched := some (gr.pc, raw, 0) }))

/-! Long results (R94, R95). -/

/-- LONG_RESULT: a transcendental or reduction writes its destination and completes under W5. -/
def execLongResult (g : GRef) (id : Nat) (s : State) : Out :=
  .next (match group? s g.tile g.slot with
  | none => s
  | some gr => match gr.pend.find? (fun p => p.id == id && !p.done) with
    | some { kind := .longV ws, .. } => setGroup s g.tile g.slot ((gr.vputs ws).complete id)
    | some { kind := .longU r v, .. } => setGroup s g.tile g.slot ((gr.uput r v).complete id)
    | _ => s)

/-! Loads (R275, R276). -/

/-- One lane's bytes and mark, from the buffer, the L1, the home slice or the answer of another device. -/
def laneRead (s : State) (t n space slot id size rtype : Nat) (resv : Bool) (rq : List Nat) (l : LaneAcc) : (List Nat × Bool) × State :=
  let x := tile s t
  let cached := rtype = 0 && !resv
  match (if cached then x.forward n id l.va size else none) with
  | some (e, _) => (((rangeFrom l.va size).map (fun a => (e.byteAt id a).getD 0), false), s)
  | none =>
    let vline := l.va / 128 * 128
    let part (r : List Nat × Bool) : List Nat × Bool := ((r.1.drop (l.va % 128)).take size, r.2)
    let home (pa : Nat) : (List Nat × Bool) × State :=
      if cached then let (r, s1) := l1Read s t space slot vline pa; (part r, s1)
      else let s1 := touchRead s slot pa; ((readPhys s1 slot pa size, isMarked s1 pa), s1)
    match l.dst with
    | .loc pa => home pa
    | .mir pa _ => home pa
    | .rem a =>
      match (if cached then x.l1Find space vline else none) with
      | some c => (part (c.data, c.mark), modTile s t (fun x => x.l1Put c))
      | none => match lineAnswer s rq a with
        | some r => (part r.line, if cached then modTile s t (fun x => x.l1Fill space vline r) else s)
        | none => ((zeros size, true), s)

/-- The slices that hold a granule's reservation (R281): those of its two lines. -/
def granuleSlices (g : Nat) : List Nat := [gslice (256 * g), gslice (256 * g + 128)]

/-- Is an LDR on the list of those held still to be served? -/
def ldrLive (s : State) (r : Nat × Nat × Nat × Nat) : Bool :=
  match group? s r.2.1 r.2.2.1 with
  | some g => g.pend.any (fun p => p.id == r.2.2.2 && p.openLoad)
  | none => false

/-- Capacity and holding of reserved loads (R283): may an LDR set its reservation on the granule now? Held LDRs go in arrival
order. -/
def ldrMay (s : State) (t n id pa : Nat) : Bool :=
  let g := pa / 256
  let others := s.resvs.filter (fun r => !(r.2.1 == t && r.2.2 == n))
  let ahead := ((s.ldrs.filter (fun r => r.1 == g && ldrLive s r)).takeWhile (fun r => r.2 ≠ (t, n, id)))
  (s.served.contains g || !others.any (fun r => r.1 == g)) && ahead.isEmpty &&
    (granuleSlices g).all (fun k => (others.filter (fun r => (granuleSlices r.1).contains k)).length < 64)

/-- An LDR that is held takes its place behind those that came before (R283). -/
def ldrHold (s : State) (t n id pa : Nat) : State :=
  if s.ldrs.contains (pa / 256, t, n, id) then s else { s with ldrs := s.ldrs ++ [(pa / 256, t, n, id)] }

/-- An LDR sets its group's reservation on a granule (R281); one whose lowest lane leads to another device ends the one the group
held and sets none here. -/
def ldrSet (s : State) (t n id : Nat) (pa : Option Nat) : State :=
  let rest := s.resvs.filter (fun x => !(x.2.1 == t && x.2.2 == n))
  match pa with
  | some pa => { s with
      resvs := rest ++ [(pa / 256, t, n)], served := s.served.filter (· ≠ pa / 256)
      ldrs := s.ldrs.filter (fun r => r.2 ≠ (t, n, id)) }
  | none => { s with resvs := rest }

/-- Where the lowest active lane of an access leads, on this device. -/
def firstHome (lanes : List LaneAcc) : Option Nat :=
  match lanes.head? with
  | some { dst := .loc pa, .. } => some pa
  | some { dst := .mir pa _, .. } => some pa
  | _ => none

/-- The lines that a load looks up in the L1, each once. -/
def l1Lines (x : Tile) (n id size rtype : Nat) (resv : Bool) (lanes : List LaneAcc) : List Nat :=
  if rtype ≠ 0 || resv then []
  else ((lanes.filter (fun l => (x.forward n id l.va size).isNone)).map (fun l => l.va / 128 * 128)).eraseDups

/-- Hits and misses of a load's lines are counted (R529). -/
def l1Counts (s : State) (t space : Nat) (lines : List Nat) : State :=
  let h := (lines.filter (fun v => ((tile s t).l1Find space v).isSome)).length
  let s1 := if h = 0 then s else perfCount s t 0x0A h
  if lines.length = h then s1 else perfCount s1 t 0x0B (lines.length - h)

/-- The copies that a load looks up in the L1 meet an armed parity detector (R230, R525). -/
def loadParity (s : State) (t space : Nat) (lines : List Nat) : State := lines.foldl (fun s v => l1Parity s t space v) s

/-- The lanes of a load are read in order: (lane, bytes, mark). -/
def readLanes (s : State) (t n space slot id size rtype : Nat) (resv : Bool) (rq : List Nat) (lanes : List LaneAcc) :
    List (Nat × List Nat × Bool) × State :=
  lanes.foldl (fun acc l =>
    let (b, s1) := laneRead acc.2 t n space slot id size rtype resv rq l
    (acc.1 ++ [(l.lane, b.1, b.2)], s1)) ([], s)

/-- A load has all its lanes: its registers are written, it completes under W0, and marked data faults the group (R75). -/
def loadDone (s : State) (t n wgn id d size raw : Nat) (signed : Bool) (lanes : List LaneAcc) (got : List (Nat × List Nat × Bool)) : State :=
  let ws := if d = 0xFF then [] else (got.map (fun x => wordWrites d x.1 (loadWords size signed x.2.1))).flatten
  let s1 := modGroup s t n (fun g => (g.vputs ws).complete id)
  let bad := lanes.filter (fun l => got.any (fun x => x.1 == l.lane && x.2.2))
  evalBarrier (if bad.isEmpty then s1
    else impreciseFault s1 t n fPoison (maskOf (bad.map (·.lane)) (fun _ => true)) (lowest (bad.map (·.va))) raw) t wgn

/-- LOAD_RETURN: the destination lanes are written and the load completes under W0 (R94); marked data faults the group
imprecisely (R75). An LDR sets the group's reservation (R281). A load that may not read its target yet, or whose lines are on
their way, goes on waiting; one lane of a STRICT load is read at a time (R268). -/
def execLoadReturn (g : GRef) (id : Nat) (s0 : State) : Out :=
  let t := g.tile
  let n := g.slot
  .next (match group? s0 t n with
  | none => s0
  | some gr0 => match gr0.pend.find? (fun p => p.id == id && !p.done), wg? s0 t gr0.wg with
    | some { kind := .loadW ws bad addr, raw := raw, .. }, _ =>
      let s1 := setGroup s0 t n ((gr0.vputs ws).complete id)
      evalBarrier (if bad = 0 then s1 else impreciseFault s1 t n fPoison bad addr raw) t gr0.wg
    | some { kind := .load _ _ _ _ _ _ _ _ _, .. }, some w =>
      let s := loadAsk (prefSweep s0 t) t n id
      (match group? s t n with
       | none => s
       | some gr => match gr.pend.find? (fun p => p.id == id) with
         | some { kind := .load d k size signed lanes rtype rq resv got, raw := raw, .. } =>
           let ls := nextLanes rtype lanes got
           let lines := l1Lines (tile s t) n id size rtype resv ls
           let missing (l : LaneAcc) : Bool := match laneRemote (tile s t) n id w.space rtype size resv l with
             | some a => (lineAnswer s rq a).isNone
             | none => false
           if !loadMay s t n gr w.space id size rtype ls resv || ls.any missing then s
           else if resv && (match firstHome lanes with
               | some pa => !ldrMay s t n id pa
               | none => false) then (match firstHome lanes with
               | some pa => ldrHold s t n id pa
               | none => s)
           else
             let s1 := loadParity (l1Counts s t w.space lines) t w.space lines
             let s2 := if resv then modTile s1 t (fun x => lanes.foldl (fun x l => x.l1Drop w.space (l.va / 128 * 128)) x) else s1
             let r := readLanes s2 t n w.space (spaceSlot s (tileDie t) w.space) id size rtype resv rq ls
             let all := got ++ r.1
             let s3 := delReqs r.2 rq
             if rtype = 3 && all.length < lanes.length then
               modGroup s3 t n (fun g => { g with pend := g.pend.map (fun p =>
                 if p.id = id then { p with kind := .load d k size signed lanes rtype [] resv all } else p) })
             else loadDone (if resv then ldrSet s3 t n id (firstHome lanes) else s3) t n gr.wg id d size raw signed lanes all
         | _ => s)
    | _, _ => s0)

/-- The lanes of a pending load that lie in the line of one of them. -/
def lineLanes (lanes : List LaneAcc) (f : Nat) : List LaneAcc :=
  match lanes[f % lanes.length]? with
  | some l => lanes.filter (fun x => x.va / 128 == l.va / 128)
  | none => []

/-- IMPRECISE_FAULT: a poisoned load or an uncorrectable register file error faults the group (R75, R85). The load is the group's
oldest; which of its lines came marked, and which row of the register file failed, is a free value. -/
def execImpreciseFault (g : GRef) (code : Nat) (s : State) : Out :=
  .next (match group? s g.tile g.slot with
  | none => s
  | some gr =>
    if code = fEcc then
      let (row, s1) := takeFree s
      impreciseFault (errSet s1 (pgTile g.tile) 13 (row % 2048)) g.tile g.slot fEcc 0 0 ((gr.fetched.map (fun x => x.2.1)).getD 0)
    else if code = fPoison then
      (match gr.pend.find? Pend.openLoad with
       | some { kind := .load _ _ _ _ lanes _ _ _ _, raw := raw, .. } =>
         let (f, s1) := takeFree s
         let bad := lineLanes lanes f
         impreciseFault s1 g.tile g.slot fPoison (maskOf (bad.map (·.lane)) (fun _ => true)) (lowest (bad.map (·.va))) raw
       | _ => s)
    else s)

/-! Stores (R267 to R275). -/

/-- Bytes of an entry by line offset, in lane order. -/
def SbEntry.lineBytes (e : SbEntry) : List (Nat × Nat) :=
  (e.lanes.map (fun (l : LaneAcc) => l.data.mapIdx (fun i b => (l.va % 128 + i, b)))).flatten

/-- Where the first lane of an entry leads. -/
def SbEntry.dest (e : SbEntry) : Dest := ((e.lanes.head?).map (·.dst)).getD (.loc 0)

/-- The global line that an entry is sent to: its remote line, or its buddy's (R260). -/
def SbEntry.remote (e : SbEntry) : Option Glob :=
  match e.dest with
  | .rem a => some a.line
  | .mir _ b => some b.line
  | .loc _ => none

def SbEntry.isMir (e : SbEntry) : Bool :=
  match e.dest with
  | .mir _ _ => true
  | _ => false

/-- A store that completes when it is accepted (R269): DEV_EA, to a LOCAL or REMOTE range, outside a transaction group. -/
def SbEntry.early (e : SbEntry) : Bool := e.rtype = 1 && e.kind = .store && !e.isMir && e.txg.isNone

/-- The packet of an entry for another device. -/
def entryPacket (t : Nat) (e : SbEntry) (a : Glob) (own : List (Nat × Nat)) : Packet :=
  let str := strGroup t e.slot
  let k := match e.kind with
    | .atomic kind ret =>
      { packet0 pkAtomic (a.dev) e.space (a.addr) with
        stream := str, sub := kind, operand := if ret then 1 else 0
        data := (e.lanes.map (fun (l : LaneAcc) =>
          let n := atomSize kind
          [l.va % 128, ofBytes (l.data.take n), ofBytes ((l.data.drop n).take n)])).flatten }
    | .signal => { packet0 pkSignal (a.dev) e.space (a.addr + (e.lanes.headD ⟨0, 0, 0, .loc 0, []⟩).va % 128) with
        stream := str, operand := ofBytes ((e.lanes.headD ⟨0, 0, 0, .loc 0, []⟩).data) }
    | _ => pktWrite (a.dev) e.space (a.addr) str own false
  { k with flags := (if a.ord then flOrdered else 0) + (if e.early then flEarly else 0) }

/-- An entry's packet is given to the fabric, where it leads to another device or is mirrored (R259, R260): its request. Staged
writes go nowhere else, and an STC only when it has succeeded (R282, R310). -/
def sendEntry (s : State) (t : Nat) (e : SbEntry) : List Nat × State :=
  match e.remote with
  | none => ([], s)
  | some a =>
    if e.txg.isSome then ([], s)
    else
      ([s.nextReq], sendMir s (entryPacket t e a e.lineBytes) (.sb t e.id) (match e.dest with
        | .mir _ b => some (mirKey s (agTile t) e.space b)
        | _ => none))

/-- The L1 follows an entry when it leaves the buffer and when it is performed: a store updates a copy of a NORMAL region, one
that covers the line clears its mark; ZLINE, atomics and STC drop it (R228). A staged store changes no copy that a read sees
(R314). -/
def l1Follow (x : Tile) (e : SbEntry) : Tile :=
  match e.kind with
  | .store =>
    if e.rtype ≠ 0 || e.txg.isSome then x
    else if e.zline then x.l1Drop e.space e.vline
    else { x with l1 := x.l1.map (fun l => if l.space = e.space && l.vline = e.vline then
        { l with data := e.lineBytes.foldl (fun d b => lset d b.1 b.2) l.data, mark := l.mark && !wholeLine e.lineBytes } else l) }
  | .signal => x
  | _ => x.l1Drop e.space e.vline

/-- Entries of a group that are released together with one (R273): those of the same instructions. -/
def Tile.together (x : Tile) (e : SbEntry) : List SbEntry :=
  x.sb.filter (fun y => y.slot == e.slot && !y.released && y.pids.any (fun p => e.pids.contains p))

/-- R273: every older entry of the group has completed and every load older than any of their stores has returned; a STRICT
access follows every older store that is not performed (R268). -/
def releaseMay (s : State) (t : Nat) (es : List SbEntry) : Bool :=
  let x := tile s t
  match es with
  | [] => false
  | e :: _ =>
    let ids := es.map (·.id)
    let last := highest (es.map (fun y => highest y.pids))
    ((x.sb.filter (fun y => y.slot == e.slot)).takeWhile (fun y => !ids.contains y.id)).isEmpty &&
      (e.rtype ≠ 3 || (x.olderPosted e.slot (lowest e.pids)).isEmpty) &&
      (match group? s t e.slot with
       | none => true
       | some g => g.pend.all (fun p => !(p.id < last && p.openLoad)))

/-- One entry is released: the L1 follows it and its packet leaves; the lanes of a STRICT instruction leave one by one later. -/
def releaseOne (s : State) (t : Nat) (e : SbEntry) : State :=
  let s1 := modTile s t (fun x => l1Follow x e)
  let (rq, s2) := if e.rtype = 3 || e.kind = .stc then ([], s1) else sendEntry s1 t e
  modTile s2 t (fun x => { x with sb := x.sb.map (fun y => if y.id = e.id then { y with released := true, sent := true, reqs := rq } else y) })

/-- STORE_RELEASE: the entry and those of its instructions leave the buffer for their targets (R273); an STC goes only to
its home slice when it is performed (R282). -/
def execStoreRelease (t id : Nat) (s : State) : Out :=
  .next (match (tile s t).sb.find? (fun e => e.id == id && !e.released) with
  | none => s
  | some e =>
    let es := (tile s t).together e
    if !releaseMay s t es then s else es.foldl (fun s e => releaseOne s t e) s)

/-- The lanes of an entry that lead to a local home slice, with their physical addresses. -/
def SbEntry.homes (e : SbEntry) : List (LaneAcc × Nat) :=
  e.lanes.filterMap (fun l => match l.dst with
    | .loc p => some (l, p)
    | .mir p _ => some (l, p)
    | .rem _ => none)

/-- The other entries of an STC's instruction. -/
def Tile.siblings (x : Tile) (e : SbEntry) : List SbEntry :=
  x.sb.filter (fun y => y.id ≠ e.id && y.slot == e.slot && y.born == e.born && y.pids == e.pids)

/-- R282: an STC is decided: the lanes' status, and the state after. An STC counts once, with the first of its entries, and one
whose lanes lie in several lines fails. -/
def stcDecide (s : State) (t : Nat) (e : SbEntry) : List (Nat × Nat × Nat) × State :=
  let slot := spaceSlot s (tileDie t) e.space
  let pas := e.homes
  let p0 := (pas.head?.map (·.2)).getD 0
  let resv := s.resvs.find? (fun r => r.2.1 == t && r.2.2 == e.slot)
  let bound := ((group? s t e.slot).map (fun g => g.txg.isSome)).getD false
  let sibs := (tile s t).siblings e
  let pend := ((group? s t e.slot).map (fun g => g.pend.filter (fun p => e.pids.contains p.id))).getD []
  let whole := pend.any (fun p => p.kind == .store (sibs.length + 1)) && sibs.all (fun y => !y.localDone) && !e.localDone
  let one := sibs.isEmpty && whole && pas.length = e.lanes.length
  let inGran := match resv with
    | some r => pas.all (fun p => p.2 / 256 == r.1)
    | none => true
  let other := e.rtype = 0 && one && inGran && !bound
  let ok := resv.isSome && other
  let s1 := if ok then lineWrite s slot (lineBase p0)
      ((pas.map (fun p => p.1.data.mapIdx (fun i b => (p.2 % 128 + i, b)))).flatten) false (some (t, e.slot))
    else if !whole then s
    else
      let s0 := bumpF s (pgTile t) 0x0AC 15 0 1
      if other then s0 else bumpF s0 (pgTile t) 0x0AC 31 16 1
  (e.lanes.map (fun l => (e.dreg, l.lane, if ok then 1 else 0)),
   { s1 with resvs := s1.resvs.filter (fun r => !(r.2.1 == t && r.2.2 == e.slot)) })

/-- The effect of an entry at its local home slice: old values of a returning atomic or statuses of an STC (register, lane,
word), and the lanes of a returning atomic that read a marked line (R80, R94). -/
def performLocal (s : State) (t : Nat) (e : SbEntry) : List (Nat × Nat × Nat) × Nat × State :=
  let slot := spaceSlot s (tileDie t) e.space
  match e.kind, e.homes with
  | .stc, _ => let (ws, s1) := stcDecide s t e; (ws, 0, s1)
  | _, [] =>
    (match e.txg with
     | some h => ([], 0, stageWrite s h e.space slot 0 e.lineBytes false false)
     | none => ([], 0, s))
  | .store, (_, p0) :: _ =>
    (match e.txg with
     | some h => ([], 0, stageWrite s h e.space slot p0 e.lineBytes false (e.rtype == 0 && !e.isMir))
     | none => ([], 0, lineWrite s slot (lineBase p0) e.lineBytes false none))
  | .atomic kind ret, pas =>
    let n := atomSize kind
    let bad := if ret then maskOf ((pas.filter (fun p => isMarked s p.2)).map (·.1.lane)) (fun _ => true) else 0
    let r := pas.foldl (fun (acc : List (Nat × Nat × Nat) × State) p =>
      let (old, s1) := lineAtomic acc.2 slot p.2 kind (ofBytes (p.1.data.take n)) (ofBytes ((p.1.data.drop n).take n))
      (if ret then acc.1 ++ wordWrites e.dreg p.1.lane (loadWords n false (toBytes n old)) else acc.1, s1)) ([], s)
    (r.1, bad, r.2)
  | .signal, (l, p0) :: _ => ([], 0, lineSignal s slot p0 (ofBytes l.data))

/-- A write that names a TXG which is not OPEN, of another generation or of another space, is discarded at once (R317). -/
def txgClosed (s : State) (h space : Nat) : Bool :=
  let t := txgAt s (hIx h)
  t.st ≠ .opened || t.gen ≠ hGen h || t.space ≠ space

/-- A held line stops an entry's local part (R242, R318), but for a write that is discarded. -/
def entryHeld (s : State) (e : SbEntry) : Bool :=
  !(e.txg.any (fun h => txgClosed s h e.space)) && e.homes.any (fun p => lineHeld s p.2)

/-- Stores of the group accepted earlier are performed first (R276). -/
def afterPosted (x : Tile) (e : SbEntry) : Bool := !(x.olderPosted e.slot (lowest e.pids)).any SbEntry.localOpen

/-- A change to the group that an entry belongs to, while it holds its slot. -/
def modOwner (s : State) (t : Nat) (e : SbEntry) (f : Group → Group) : State :=
  if (tile s t).owns e then modGroup s t e.slot f else s

/-- The instructions of an entry have one entry less open; those with none left complete (R94, R95). -/
def storeDone (g : Group) (e : SbEntry) : Group :=
  e.pids.foldl (fun g p =>
    match g.pend.find? (fun x => x.id == p) with
    | some { kind := .store k, .. } =>
      if k ≤ 1 then g.complete p
      else { g with pend := g.pend.map (fun x => if x.id = p then { x with kind := .store (k - 1) } else x) }
    | _ => g) g

/-- Old values of a returning atomic from another device, in lane order (R406: a marked value), and the lanes marked. -/
def remoteOlds (s : State) (e : SbEntry) : List (Nat × Nat × Nat) × Nat :=
  match e.kind, e.reqs with
  | .atomic kind true, id :: _ =>
    let n := atomSize kind
    (match req? s id with
     | some r =>
       ((e.lanes.mapIdx (fun i l => wordWrites e.dreg l.lane (loadWords n false (toBytes n (if r.res = some rqDone then r.data.getD i 0 else ofBytes ((List.range n).map (fun k => Config.lostByte r.id (n * i + k) % 256))))))).flatten,
        if r.res = some rqDone && !r.marked then 0 else maskOf (e.lanes.map (·.lane)) (fun _ => true))
     | none => ([], 0))
  | _, _ => ([], 0)

/-- Writes of a returning instruction's registers, and the completion of its returning part. -/
def giveBack (g : Group) (e : SbEntry) (ws : List (Nat × Nat × Nat)) : Group :=
  let g1 := g.vputs ws
  let rets := g1.pend.filter (fun p => match p.kind with
    | .atomRet st => e.pids.contains st
    | _ => false)
  let last := e.pids.all (fun p => !(g1.pend.any (fun x => x.id == p && (match x.kind with
    | .store k => k > 1
    | _ => false))))
  if last then rets.foldl (fun g p => g.complete p.id) g1 else g1

/-- Lanes of a returning atomic have taken marked values: the group faults with DATA_POISON (R80, R406). -/
def entryFault (s : State) (t : Nat) (e : SbEntry) (bad raw : Nat) : State :=
  if bad = 0 || !(tile s t).owns e then s
  else impreciseFault s t e.slot fPoison bad (lowest ((e.lanes.filter (fun l => bad.testBit l.lane)).map (·.va))) raw

/-- The bundle that issued an entry's instruction. -/
def entryRaw (s : State) (t : Nat) (e : SbEntry) : Nat :=
  (((group? s t e.slot).bind (fun g => g.pend.find? (fun p => e.pids.contains p.id))).map (·.raw)).getD 0

/-- The error bits of a remote store go to its group, or to what the tile keeps of it (R280); a REMOTE_LOST while a warm reset
drains counts as a drop (R285). -/
def noteErr (s : State) (t : Nat) (e : SbEntry) (bits : Nat) : State :=
  let s1 := if s.draining && bits.testBit 0 then bumpF s (pgTile t) 0x0A8 15 0 1 else s
  if (tile s1 t).owns e then modGroup s1 t e.slot (fun g => { g with remErr := Nat.lor g.remErr bits })
  else modTile s1 t (fun x => { x with orphans := (x.orphans.map (fun o =>
    if o.born = e.born then { o with bits := Nat.lor o.bits bits } else o)).filter (fun o =>
      o.bits ≠ 0 || x.posted.any (fun y => y.born == o.born && y.id ≠ e.id)) })

/-! The drain of a warm reset (R285). -/

/-- A remote target can be reached: its device lives and some port on the way is UP. -/
def reachable (s : State) (dst : Nat) : Bool := !isDead s dst && !(usable s dst []).isEmpty

/-- An entry's target, or the buddy of its MIRRORED range, cannot be reached. -/
def entryLost (s : State) (e : SbEntry) : Bool :=
  e.lanes.any (fun l => match l.dst with
    | .rem g => !reachable s g.dev
    | .mir _ g => !reachable s g.dev
    | .loc _ => false)

/-- An entry leaves the tile. -/
def rmEntry (s : State) (t : Nat) (e : SbEntry) : State :=
  modTile (delReqs s e.reqs) t (fun x => { x with sb := x.sb.filter (fun y => y.id ≠ e.id), posted := x.posted.filter (fun y => y.id ≠ e.id) })

/-- What is left of an entry for its local home slices is performed. -/
def finishLocal (s : State) (t : Nat) (e : SbEntry) : State :=
  if e.localDone || !e.hasLocal then s
  else (performLocal s t { e with lanes := e.lanes.filter (fun l => !e.laneDone.contains l.lane) }).2.2

/-- A warm reset drops an entry and counts it: of a MIRRORED one only the mirror copy; a fence status word will tell of a remote
store. -/
def dropEntry (s : State) (t : Nat) (e : SbEntry) : State :=
  let s1 := finishLocal s t e
  rmEntry (if e.isMir then bumpF s1 (pgTile t) 0x0A8 15 0 1 else noteErr s1 t e 1) t e

/-- The budget of a warm reset's drain has run out: local parts are delivered, answered entries are gone, the others are
dropped. -/
def drainEnd (s : State) (t : Nat) (e : SbEntry) : State :=
  let left := e.lanes.filter (fun l => !e.laneDone.contains l.lane)
  if !(e.isMir || e.remote.isSome) then rmEntry (finishLocal s t e) t e
  else if !e.reqs.isEmpty && reqsDone s e.reqs && (e.rtype ≠ 3 || left.length ≤ 1) then
    rmEntry (noteErr (finishLocal s t e) t e (reqBits s e.reqs)) t e
  else dropEntry s t e

/-- An entry has been performed and answered: it leaves the buffer, its instructions' registers are written and they complete
under W1, and under W0 (R94). -/
def entryDone (s : State) (t : Nat) (e : SbEntry) (bad : Nat) : State :=
  let (rws, rbad) := remoteOlds s e
  let raw := entryRaw s t e
  let s1 := noteErr (delReqs s e.reqs) t e (reqBits s e.reqs)
  let s2 := modTile s1 t (fun x => { l1Follow x e with sb := x.sb.filter (fun y => y.id ≠ e.id) })
  let s3 := modOwner s2 t e (fun g => storeDone (giveBack g e rws) e)
  entryFault s3 t e (Nat.lor bad rbad) raw

/-- The workgroup of an entry. -/
def entryWg (s : State) (t : Nat) (e : SbEntry) : Nat := ((group? s t e.slot).map (·.wg)).getD 0

/-- A successful STC to a MIRRORED range is sent to the buddy (R260). -/
def stcMirror (s : State) (t : Nat) (e : SbEntry) (ws : List (Nat × Nat × Nat)) : List Nat × State :=
  if e.kind = .stc && e.isMir && ws.any (fun w => w.2.2 ≠ 0) then sendEntry s t e else ([], s)

/-- The whole entry is performed at its local home slices, and completes once its packets are answered. -/
def performEntry (s : State) (t : Nat) (e0 : SbEntry) : State :=
  let (ws, bad, s1) := if e0.localDone then ([], 0, s) else performLocal s t e0
  let (rq, s1) := stcMirror s1 t e0 ws
  let e := { e0 with reqs := e0.reqs ++ rq, localDone := true }
  let s2 := modTile s1 t (fun x => { l1Follow x e with sb := x.sb.map (fun y => if y.id = e.id then e else y) })
  let s3 := if ws.isEmpty then s2 else modOwner s2 t e (fun g => g.vputs ws)
  let s4 := entryFault s3 t e bad (entryRaw s3 t e)
  evalBarrier (if reqsDone s4 e.reqs then entryDone s4 t e 0 else s4) t (entryWg s t e)

/-- The lane of a STRICT instruction that is performed next (R268): the lowest of all its entries that is not performed. -/
def strictNext (x : Tile) (e : SbEntry) : Option LaneAcc :=
  let all := ((e :: x.siblings e).map (fun y => y.lanes.filter (fun l => !y.laneDone.contains l.lane))).flatten
  match all with
  | [] => none
  | a :: t =>
    let l := t.foldl (fun m x => if x.lane < m.lane then x else m) a
    if e.lanes.any (fun y => y.lane == l.lane) && !e.laneDone.contains l.lane then some l else none

/-- One lane of a STRICT entry is performed, or its packet sent, or its answer taken (R268). -/
def performLane (s : State) (t : Nat) (e0 : SbEntry) : State :=
  match strictNext (tile s t) e0 with
  | none => s
  | some l =>
    let one := { e0 with lanes := [l] }
    let upd (s : State) (f : SbEntry → SbEntry) : State := modTile s t (fun x => { x with sb := x.sb.map (fun y => if y.id = e0.id then f y else y) })
    let finish (s : State) (one : SbEntry) (bad : Nat) : State :=
      let (rws, rbad) := remoteOlds s one
      let s1 := noteErr (delReqs s one.reqs) t e0 (reqBits s one.reqs)
      let s2 := modOwner (upd s1 (fun y => { y with reqs := [], localDone := false, laneDone := y.laneDone ++ [l.lane] })) t e0 (fun g => g.vputs rws)
      let s3 := entryFault s2 t one (Nat.lor bad rbad) (entryRaw s2 t e0)
      match (tile s3 t).sb.find? (fun y => y.id == e0.id) with
      | some y => if y.lanes.all (fun x => y.laneDone.contains x.lane) then entryDone s3 t { y with localDone := true } 0 else s3
      | none => s3
    if e0.localDone then (if reqsDone s e0.reqs then finish s one 0 else s)
    else if entryHeld s one then s
    else
      let (ws, bad, s1) := performLocal s t one
      let (rq, s2) := sendEntry s1 t one
      let s3 := if ws.isEmpty then s2 else modOwner s2 t e0 (fun g => g.vputs ws)
      let s4 := upd s3 (fun y => { y with reqs := rq, localDone := true })
      evalBarrier (if reqsDone s4 rq then finish s4 { one with reqs := rq } bad else entryFault s4 t one bad (entryRaw s4 t e0)) t (entryWg s t e0)

/-- A store that completes early has been accepted: by the die interconnect, or by a fabric port (R269). -/
def acceptedEarly (s : State) (e : SbEntry) : Bool :=
  e.reqs.all (fun i => match req? s i with
    | some r => r.sent || r.res.isSome
    | none => true)

/-- An accepted store completes under W1 and is performed by a later event. -/
def postEntry (s : State) (t : Nat) (e : SbEntry) : State :=
  let s1 := modTile s t (fun x => { x with sb := x.sb.filter (fun y => y.id ≠ e.id), posted := x.posted ++ [e] })
  let s2 := e.reqs.foldl (fun s i => modReq s i (fun r => { r with early := true })) s1
  modOwner s2 t e (fun g => storeDone g e)

/-- A store accepted early is performed at its home slice, and is gone once its packets are answered. -/
def performPosted (s : State) (t : Nat) (e : SbEntry) : State :=
  let (_, _, s1) := if e.localDone then ([], 0, s) else performLocal s t e
  let wgn := entryWg s t e
  if !reqsDone s1 e.reqs then
    evalBarrier (modTile s1 t (fun x => { x with posted := x.posted.map (fun y => if y.id = e.id then { y with localDone := true } else y) })) t wgn
  else
    let s2 := noteErr (delReqs s1 e.reqs) t e (reqBits s1 e.reqs)
    evalBarrier (modTile s2 t (fun x => { x with posted := x.posted.filter (fun y => y.id ≠ e.id) })) t wgn

/-- STORE_PERFORMED: the entry reaches the completion point of its region and target (R269). A DEV_EA store first completes
when it is accepted, and is performed by a later event; a STRICT instruction is performed lane by lane. -/
def execStorePerformed (t id : Nat) (s : State) : Out :=
  .next (match (tile s t).sb.find? (fun e => e.id == id && e.released) with
  | some e =>
    if s.draining && entryLost s e then dropEntry s t e
    else if e.early then (if acceptedEarly s e then postEntry s t e else s)
    else if !afterPosted (tile s t) e then s
    else if e.rtype = 3 && e.kind ≠ .stc then performLane s t e
    else if !e.localDone && entryHeld s e then s
    else performEntry s t e
  | none =>
    match (tile s t).posted.find? (fun e => e.id == id) with
    | none => s
    | some e =>
      if s.draining && entryLost s e then dropEntry s t e
      else if (!e.localDone && entryHeld s e) || !afterPosted (tile s t) e then s else performPosted s t e)

/-! Synchronisation (R278, R280). -/

/-- R278: every older access has reached the point that the scope names. -/
def fenceMay (x : Tile) (g : Group) (n id scope : Nat) : Bool :=
  let old (l : List SbEntry) := l.filter (fun e => e.slot == n && x.owns e && e.pids.any (fun p => p < id))
  g.pend.all (fun p => !(p.id < id && p.cls == 0 && !p.done)) &&
    (old (x.sb ++ x.posted)).all (fun e => !e.localOpen) &&
    (scope = 0 || ((old x.sb).isEmpty && (scope ≠ 3 || (old x.posted).isEmpty)))

/-- R280: the bits of erroring remote stores go into the fence status word by one atomic operation, or into the launch's
completion where it names no word or the word takes no atomic. Answers whether that is done. -/
def noteFence (s : State) (t : Nat) (l : LaunchKey) (space fsw bits stream : Nat) : Bool × State :=
  let inLaunch (s : State) : Bool × State := (true, modLaunch s l.queue l.serial (fun l => { l with fsBits := Nat.lor l.fsBits bits }))
  if bits = 0 then (true, s)
  else if fsw = 0 then inLaunch s
  else match atomVirt s (agTile t) (tileDie t) space fsw 10 bits stream with
    | ((_, .got _ _), s1) => (true, s1)
    | ((_, .wait), s1) => (false, s1)
    | ((_, .fault), s1) => inLaunch s1

/-- SYNC_COMPLETE: a fence, INVL1, SIGNAL or TXG binding completes under W4. -/
def execSyncComplete (g : GRef) (id : Nat) (s : State) : Out :=
  let t := g.tile
  let n := g.slot
  .next (match group? s t n with
  | none => s
  | some gr => match gr.pend.find? (fun p => p.id == id && !p.done), wg? s t gr.wg with
    | some { kind := .sync k, .. }, some w =>
      (match k with
       | .fence scope =>
         if !fenceMay (tile s t) gr n id scope then s
         else match noteFence s t w.launch w.space w.fsw (if scope = 3 then gr.remErr else 0) (strGroup t n) with
           | (true, s1) => modGroup s1 t n (·.complete id)
           | (false, s1) => s1
       | .invl1 => modGroup (l1Inval s t) t n (·.complete id)
       | .signal e => if (tile s t).sb.any (fun y => y.id == e) then s else modGroup s t n (·.complete id)
       | .txbind _ => modGroup s t n (·.complete id)
       | .txunbind => modGroup s t n (·.complete id))
    | _, _ => s)

/-! Reservations (R281, R283). -/

/-- RESERVATION_TIMEOUT: 16,384 steps of the home slice have passed (R281). -/
def execReservationTimeout (t slot : Nat) (s : State) : Out :=
  .next { s with resvs := s.resvs.filter (fun r => !(r.2.1 == t && r.2.2 == slot)) }

/-- LDR_HOLD_TIMEOUT: the LDRs held on a granule are served although its reservation stands (R283). -/
def execLdrHoldTimeout (granule : Nat) (s : State) : Out :=
  .next (if s.resvs.any (fun r => r.1 == granule) && !s.served.contains granule then { s with served := s.served ++ [granule] } else s)

end Sys2Proof.Machine
end

