-- ==== Sys2Proof/Machine/Park.lean ====
section
/-!
DEFINITION. Offers and admission (R22, R58, R377), the end of groups and launches (R98, R304, R349), parking (R72 to R77,
R350) and replay (R81 to R83, R351).
-/
namespace Sys2Proof.Machine

/-! The end of a launch (R304, R349). -/

/-- Is the watch owned by a launch? -/
def Watch.ofLaunch (w : Watch) (k : LaunchKey) : Bool :=
  match w.kind with
  | .group l _ _ _ _ _ => l == k
  | _ => false

/-- Is the watch owned by a queue? -/
def Watch.ofQueue (w : Watch) (q : Nat) : Bool :=
  match w.kind with
  | .queue q' _ => q' == q
  | .host _ _ q' => q' == q
  | _ => false

/-- Watches of a selection that a die holds end with a status; answers how many. Registrations on other devices end too. -/
def endWatchesOn (s : State) (d : Nat) (sel : Watch → Bool) (status : Nat) : Nat × State :=
  let b := bel s d
  let ws := (b.armed ++ b.waitl).filter sel
  let rs := b.remote.filter (fun r => sel r.2)
  let s1 := ws.foldl (fun s w => endWatch s d w status) s
  let b1 := bel s1 d
  let s2 := setBel s1 d { b1 with remote := b1.remote.filter (fun r => !sel r.2) }
  (ws.length + rs.length, rs.foldl (fun s r => notifyWatch s d r.2 status 0) s2)

/-- As `endWatchesOn`, on every die; park-waits whose registration ended so are decided. -/
def endWatches (s : State) (sel : Watch → Bool) (status : Nat) : Nat × State :=
  let (n, s1) := (List.range 4).foldl (fun acc d => let r := endWatchesOn acc.2 d sel status; (acc.1 + r.1, r.2)) (0, s)
  (n, settleWaits s1)

/-- The notifications of ended watches of a selection that have no agent left. -/
def dropEnded (s : State) (sel : Watch → Bool) : State :=
  (List.range 4).foldl (fun s d => let b := bel s d; setBel s d { b with ended := b.ended.filter (fun e => !sel e.w) }) s

/-- R349: every workgroup has ended. -/
def Launch.allEnded (l : Launch) : Bool := l.ended = l.total

/-- The flags of a launch's record: WATCH_LEFT, REMOTE_LOST, REMOTE_ERR (R337). -/
def launchFlags (l : Launch) (left : Nat) : Nat :=
  (if left > 0 then 2 ^ 16 else 0) + (if l.fsBits.testBit 0 then 2 ^ 18 else 0) + (if l.fsBits.testBit 1 then 2 ^ 19 else 0)

/-- R304, R349: a launch whose every workgroup has ended ends: its watches end WATCH_LEFT, its status is decided. -/
def launchCheck (s : State) (q n : Nat) : State :=
  match launch? s q n with
  | none => s
  | some l =>
    if !l.allEnded || l.killed then s
    else
      let (left, s1) := endWatches s (fun w => w.ofLaunch l.key) 3
      let s2 := dropEnded s1 (fun w => w.ofLaunch l.key)
      let s3 := modCmd s2 q n (fun c => Cmd.finish { c with flags := Nat.lor c.flags (launchFlags l left) } (if l.aband > 0 then 0x0D else 0) l.aband)
      { s3 with launches := s3.launches.filter (fun x => !(x.q == q && x.serial == n)) }

/-- A workgroup of a launch has ended. -/
def wgEnded (s : State) (k : LaunchKey) (abandoned : Bool) : State :=
  let s1 := modLaunch s k.queue k.serial (fun l => { l with ended := l.ended + 1, aband := if abandoned then l.aband + 1 else l.aband })
  launchCheck s1 k.queue k.serial

/-- GROUP_END: a finished group whose counters read zero has ended; with the last the workgroup leaves the tile (R98). Its
reservation and its binding end (R281, R312). -/
def execGroupEnd (g : GRef) (s : State) : Out :=
  let t := g.tile
  let n := g.slot
  .next (match group? s t n with
  | none => s
  | some gr =>
    if gr.stat ≠ .finished || !gr.idle || gr.stopped then s
    else match wg? s t gr.wg with
    | none => s
    | some w =>
      let s1 := setGroup s t n { gr with ended := true, txg := none }
      let s2 := { s1 with resvs := s1.resvs.filter (fun r => !(r.2.1 == t && r.2.2 == n)) }
      let s3 := evalBarrier s2 t gr.wg
      if ((tile s3 t).groupsOf gr.wg).all (fun p => p.2.ended) then wgEnded (releaseWg s3 t gr.wg) w.launch false else parkAsked s3 t gr.wg)

/-! Offers (R22, R377). -/

/-- Resident workgroups that preemption by class `h` may park (R377), lowest class first and, within a class, the most
recently admitted first. -/
def eligible (x : Tile) (h : Nat) : List (Nat × Wg) :=
  let el := x.wgs.filter (fun p => p.2.cls < h && !p.2.hold && p.2.park = .none && !x.wgFinished p.1)
  let ageOf (w : Nat) : Nat := highest (x.age.mapIdx (fun i n => if ((tget? x.groups n).map (·.wg)) = some w then i + 1 else 0))
  ((List.range h).map (fun c =>
    let cs := el.filter (fun p => p.2.cls == c)
    (cs.foldl (fun acc p =>
      (acc.takeWhile (fun q => ageOf q.1 > ageOf p.1)) ++ [p] ++ (acc.dropWhile (fun q => ageOf q.1 > ageOf p.1))) []))).flatten

/-- The tile without some of its workgroups: what it would hold after their parks. -/
def Tile.without (x : Tile) (ws : List Nat) : Tile :=
  let wgs := x.wgs.filter (fun p => !ws.contains p.1)
  { x with wgs := wgs, groups := x.groups.filter (fun p => !ws.contains p.2.wg),
           rgn := x.rgn.filter (fun r => wgs.any (fun p => p.2.launch == r.launch)) }

/-- The fewest eligible workgroups, in order, whose parks make room (R377); none when they do not suffice. -/
def makeRoom (s : State) (t : Nat) (l : Launch) : Option (List Nat) :=
  let x := tile s t
  if (keptFor s x).isSome || !inService s (pgTile t) || !wearAdmits s t then none
  else
    let es := (eligible x l.prio).map (·.1)
    ((List.range (es.length + 1)).map (fun k => es.take k)).find? (fun ws =>
      let y := x.without ws
      !ws.isEmpty && roomFor s t y l.g l.width l.r l.m && rgnFits y l.key l.rgn.length)

/-- R377: the candidates are asked in order to make room; the first that can parks with reason PREEMPT and keeps the room. -/
def preemptFor (s : State) (l : Launch) (cs : List Nat) : State :=
  match cs.find? (fun t => (makeRoom s t l).isSome) with
  | none => s
  | some t =>
    let ws := (makeRoom s t l).getD []
    let s1 := ws.foldl (fun s w => stopWg s t w rPreempt) s
    let s2 := modTile s1 t (fun x => { x with room := some (l.q, l.serial) })
    bumpF s2 (pgEng l.eng) 0x0C4 15 0 ws.length

/-- May the engine of a launch preempt for it (R376)? -/
def mayPreempt (s : State) (l : Launch) : Bool := (regF s (pgEng l.eng) 0x0C0 7 0).testBit l.prio

/-- A tile in service keeps room for this launch already. -/
def roomKept (s : State) (l : Launch) : Bool := s.tiles.any (fun x => x.2.room == some (l.q, l.serial) && inService s (pgTile x.1))

/-- A parked workgroup that its dispatch engine may replay now (R351, R379). -/
def Parked.replayable (p : Parked) : Bool := p.auto && p.waits = 0 && !p.held

/-- R378: a replay that the engine makes on its own goes before new workgroups of its launch's class or any lower class. -/
def replayFirst (s : State) (l : Launch) : Bool :=
  s.launches.any (fun x => x.eng == l.eng && x.prio ≥ l.prio && x.parked.any Parked.replayable)

/-- WG_OFFER: the next workgroup of a launch is offered to its next candidate tile (R22, R58); when every candidate has
refused it, preemption may start (R377) and the offers begin again. A tile that has refused it in this pass is not asked again. -/
def execWgOffer (q serial : Nat) (s : State) : Out :=
  .next (match launch? s q serial with
  | none => s
  | some l =>
    if l.killed || l.next ≥ l.total || !inService s (pgEng l.eng) || replayFirst s l then s
    else
      let cs := candidates s l.eng l.dies
      match cs.find? (fun t => !l.tried.contains t) with
      | none =>
        let s1 := if mayPreempt s l && !roomKept s l then preemptFor s l cs else s
        modLaunch s1 q serial (fun l => { l with tried := [] })
      | some t =>
        let s := bumpSteps s (pgEng l.eng) 2
        if admits s t l then
          let (w, gs) := newWg l l.next
          modLaunch (place s t l w gs) q serial (fun l => { l with next := l.next + 1, tried := [] })
        else modLaunch s q serial (fun l => { l with tried := l.tried ++ [t] }))

/-! Parking (R72 to R77). -/

/-- WG_PARK: a park request reaches a workgroup. PREEMPT and MIGRATE wait for bindings (R322); after the last group has
finished nothing is parked, and the request is answered NOTHING_TO_PARK (R77). -/
def execWgPark (t w reason : Nat) (s : State) : Out := .next (if askedReason reason then stopWg s t w reason else s)

/-- The accepted array and row commands, loads and stores of a stopped workgroup have completed (R73 steps 2 and 3), and no
registration of a park-wait of it is undecided (R297). A workgroup being killed waits for no watch. -/
def drained (x : Tile) (w : Nat) : Bool :=
  let gs := x.groupsOf w
  gs.all (fun p => p.2.idle) && (x.sb ++ x.posted).all (fun e => !(gs.any (fun p => p.1 == e.slot) && x.owns e)) &&
    ((tget? x.wgs w).any (fun v => v.park == .killing) || gs.all (fun p => !p.2.regWait))

/-- The GROUP watches of a workgroup that have not yet taken effect at its dispatch engine (R297). -/
def openWaits (s : State) (w : Wg) : Nat :=
  let mine (x : Watch) : Bool := match x.kind with
    | .group l a b c _ _ => l == w.launch && a == w.x && b == w.y && c == w.z
    | _ => false
  ((List.range 4).map (fun d => let b := bel s d
    (b.armed.filter mine).length + (b.waitl.filter mine).length + (b.ended.filter (fun e => mine e.w)).length +
      (b.remote.filter (fun r => mine r.2)).length)).sum

/-- The event of a fault park (R445): the lowest group that faulted, or that stranded at the barrier. -/
def faultEvent (s : State) (t : Nat) (w : Wg) (gs : List Group) (image : Nat) : State :=
  match gs.find? (fun g => g.reason == rFault || g.reason == rStranded) with
  | none => s
  | some g =>
    let f := g.fault.getD ⟨0, 0, 0, 0, false, 0, 0, 0⟩
    let acc : Acc4 := if f.access = 0 then .read else if f.access = 1 then .write else if f.access = 2 then .rmw else .fetch
    let cont := if f.code = fXlt || f.code = fPerm then some (faultRecord f.addr f.cause acc w.space (blkId (pgTile t)) f.last) else none
    raise s { ring := qEvring s w.launch.queue, kind := 4, tag := w.launch.serial + 2 ^ 32 * w.launch.queue, value := image,
              info := g.reason + 256 * f.code, cont := cont }

/-- A PREEMPT command parked the workgroup, and its replay waits HOLD from the park (R379). -/
def preemptHeld (s : State) (t w : Nat) (wg : Wg) : Bool :=
  s.cmds.any (fun c => c.body.getD 0 0 == 0x91 && c.ran && c.aux.contains (32 * t + w, 1)) && regF s (pgEng wg.eng) 0x0C0 15 8 ≠ 0

/-- A write of the image faults (R76): the workgroup stays, stopped, with its park slot. -/
def parkFault (s : State) (t w addr : Nat) : State :=
  errSet (modWg s t w (fun x => { x with park := .writeFault })) (pgTile t) 11 addr

/-- The fabric stream that carries what the tile writes to a park area on another device: that of the workgroup's first group. -/
def parkStream (s : State) (t w : Nat) : Nat := strGroup t ((((tile s t).groupsOf w).map (·.1)).headD 0)

/-- The image is written: the workgroup leaves the tile, and its dispatch engine has it parked (R73 step 5). -/
def parkImage (s : State) (t w : Nat) (wg : Wg) (i image : Nat) : State :=
  let gs := ((tile s t).byIdx w wg.g).map (·.2)
  let s1 := perfCount (bumpF s (pgTile t) 0x090 15 0 1) t 0x0F 1
  let s2 := if gs.any (fun g => g.reason == rFault) then errSet s1 (pgTile t) 8 image else s1
  let s3 := if gs.any (fun g => g.reason == rStranded) then errSet s2 (pgTile t) 9 image else s2
  let auto := gs.all (fun g => actionFor g.reason == 1)
  let p : Parked := ⟨wg.x, wg.y, wg.z, i, image, auto, openWaits s3 wg, preemptHeld s3 t w wg⟩
  let s4 := modLaunch s3 wg.launch.queue wg.launch.serial (fun l => { l with parked := l.parked ++ [p] })
  faultEvent (releaseWg s4 t w) t wg gs image

/-- The requests that carry a workgroup's image to another device, or its mirror copy. -/
def parkReqs (s : State) (t w : Nat) : List Nat := (s.reqs.filter (fun r => r.owner == .park t w)).map (·.id)

/-- The workgroup is reported once every copy of its image is performed (R260); a write that another device refused or lost is a
write that faults. -/
def parkSettle (s : State) (t w : Nat) (wg : Wg) (i image : Nat) : State :=
  let rs := parkReqs s t w
  if !reqsDone s rs then modWg s t w (fun x => { x with park := .writing })
  else if reqBits s rs ≠ 0 then parkFault (delReqs s rs) t w (image / 128 * 128)
  else parkImage (delReqs s rs) t w wg i image

/-- The bytes of an image go to memory, with the marks of workgroup memory lines (R221). -/
def putImage (s : State) (t w : Nat) (wg : Wg) (image : Nat) (bytes : List Nat) : State :=
  let put (s : State) (n : Nat) (bs : List Nat) (mark : Bool) : State :=
    (writeVirt s (agTile t) (tileDie t) wg.space (image + n) bs mark none (parkStream s t w) (.park t w)).2
  let wm := 256 + wg.g * recSize wg.width wg.r
  (List.range ((wg.m + 127) / 128)).foldl (fun s k =>
    put s (wm + 128 * k) ((bytes.drop (wm + 128 * k)).take 128) (thas wg.wgmMark k)) (put s 0 (bytes.take wm) false)

/-- The image is written into a slot taken. One larger than the slot is a write that faults (R350). -/
def writeImage (s : State) (t w : Nat) (wg : Wg) (sz i : Nat) : State :=
  let ag := agTile t
  let die := tileDie t
  let image := slotAddr (qPark s wg.launch.queue) sz i
  let bytes := imageBytes wg (((tile s t).byIdx w wg.g).map (·.2))
  let (o, s1) := translateRuns s ag die wg.space .write false [(image, bytes.length)]
  if bytes.length > sz then parkFault s t w ((image + sz) / 128 * 128)
  else match o.fault with
  | some (a, _) => parkFault (countXltFault s1 die o) t w (a / 128 * 128)
  | none => parkSettle (putImage s1 t w wg image bytes) t w wg i image

/-- A slot is taken by one atomic operation (R350), and the image written; a slot whose bit another agent has set first is left
to it. -/
def takeSlot (s : State) (t w : Nat) (wg : Wg) (sz i : Nat) : State :=
  let ag := agTile t
  let die := tileDie t
  let park := qPark s wg.launch.queue
  let keep (s : State) (p : Option Nat) : State := modWg s t w (fun x => { x with parkSlot := p, park := .draining })
  if virtHeld s ag die wg.space (slotAddr park sz i) (imageSize wg.g wg.width wg.r wg.m) .write then s
  else match setSlotBit s ag die wg.space park i (parkStream s t w) true with
  | (.wait, s1) => keep s1 (some i)
  | (.fault, s1) => parkFault (keep s1 none) t w (lineBase (park + 0x80 + 4 * (i / 32)))
  | (.was true, s1) => keep s1 none
  | (.was false, s1) => writeImage (keep s1 (some i)) t w wg sz i

/-- A drained workgroup takes a slot and its image is written, or it waits for a slot (R76). -/
def writePark (s : State) (t w : Nat) : State :=
  match wg? s t w with
  | none => s
  | some wg =>
    let park := qPark s wg.launch.queue
    match parkHeader s (agTile t) (tileDie t) wg.space park with
    | (.got _ _, some (_, sz, low), s1) =>
      (match wg.parkSlot.orElse (fun _ => low) with
       | some i => takeSlot s1 t w wg sz i
       | none =>
         let s2 := modWg s1 t w (fun x => { x with park := .noSlot })
         if wg.park = .noSlot then s2 else errSet s2 (pgTile t) 10 0)
    | (.wait, _, s1) => s1
    | (_, _, s1) => parkFault s1 t w (park / 128 * 128)

/-- The answers for an image have come, or are awaited. -/
def parkAnswered (s : State) (t w : Nat) (wg : Wg) : State :=
  match wg.parkSlot with
  | none => s
  | some i => match parkHeader s (agTile t) (tileDie t) wg.space (qPark s wg.launch.queue) with
    | (.got _ _, some (_, sz, _), s1) => parkSettle s1 t w wg i (slotAddr (qPark s wg.launch.queue) sz i)
    | (.wait, _, s1) => s1
    | (_, _, s1) => parkFault s1 t w (qPark s wg.launch.queue / 128 * 128)

/-- PARK_DONE: a stopped workgroup has drained; its image is written and reported (R73). -/
def execParkDone (t w : Nat) (s : State) : Out :=
  .next (match wg? s t w with
  | some wg =>
    if wg.park = .draining && drained (tile s t) w then writePark s t w
    else if wg.park = .writing then parkAnswered s t w wg
    else s
  | none => s)

/-- PARK_SLOT_FREE: a workgroup that waits for a park slot tries again (R76). -/
def execParkSlotFree (t w : Nat) (s : State) : Out :=
  .next (match wg? s t w with
  | some wg => if wg.park = .noSlot then writePark s t w else s
  | none => s)

/-- The park slot that a workgroup holds is given back, when its bit may be written; answers whether it holds none any more. -/
def dropSlot (s : State) (t w : Nat) : Bool × State :=
  match wg? s t w with
  | none => (true, s)
  | some wg => match wg.parkSlot with
    | none => (true, s)
    | some i =>
      let park := qPark s wg.launch.queue
      if slotHeld s (agTile t) (tileDie t) wg.space park i then (false, s)
      else
        let asked : ReqOwner := .virt (agTile t) wg.space (atomKey (park + 0x80 + 4 * (i / 32)) 10 (2 ^ (i % 32)))
        let s1 := { s with reqs := s.reqs.filter (fun r => r.owner ≠ asked) }
        (true, modWg (freeSlot s1 (agTile t) (tileDie t) wg.space park i (parkStream s t w)) t w (fun x => { x with parkSlot := none }))

/-- WG_ABANDON: firmware abandons a workgroup stuck on a park write fault: its resources are released, the park slot bit is
cleared, the workgroup counts as abandoned (R76). -/
def execWgAbandon (t w : Nat) (s : State) : Out :=
  .next (match wg? s t w with
  | some wg =>
    if wg.park ≠ .writeFault then s
    else match dropSlot s t w with
      | (true, s1) => wgEnded (releaseWg s1 t w) wg.launch true
      | (false, _) => s
  | none => s)

/-! Replay (R81 to R83, R351). -/

/-- A park image read back: the workgroup header, the groups' records, workgroup memory and its lines that carry the mark
(R221). -/
structure Image where
  head : List Nat := []
  recs : List (List Nat) := []
  wgm  : List Nat := []
  wgmMark : Tab Unit := []
  deriving DecidableEq, Repr

/-- The parts of an image read at an address, with the virtual lines that came marked. -/
def imageOf (l : Launch) (image : Nat) (bs marks : List Nat) : Image :=
  let rs := recSize l.width l.r
  let wm := image + 256 + l.g * rs
  { head := bs.take 256, recs := (List.range l.g).map (fun i => (bs.drop (256 + i * rs)).take rs)
    wgm := (bs.drop (256 + l.g * rs)).take l.m
    wgmMark := ((List.range ((l.m + 127) / 128)).filter (fun k => marks.contains (wm + 128 * k))).map (fun k => (k, ())) }

/-- The dispatch engine reads a park image. -/
def readImage (s : State) (l : Launch) (image : Nat) : VRead × State :=
  match readVirt s (agEng l.eng) (engDie l.eng) l.space image (imageSize l.g l.width l.r l.m) .read with
  | ((_, r), s1) => (r, s1)

/-- The bundles that the records' SKIPs move past; none while one is read. -/
def skipBundles (s : State) (l : Launch) : List (List Nat) → Option (List Nat) × State
  | [] => (some [], s)
  | r :: t =>
    let (b, s1) := skipBundle s (engDie l.eng) l.space r
    let (bs, s2) := skipBundles s1 l t
    (match b, bs with
     | some b, some bs => some (b :: bs)
     | _, _ => none, s2)

/-- The workgroup that an image restores (R83); a stranded barrier completes under SKIP (R81). -/
def restoreWg (s : State) (l : Launch) (p : Parked) (im : Image) (raws : List Nat) : Wg × List Group :=
  let strand := im.recs.any (fun r => recReason r == rStranded)
  let gen := leAt4 im.head 0x28
  let w : Wg := {
    launch := l.key, space := l.space, kdesc := l.kdesc, x := p.x, y := p.y, z := p.z, g := l.g, width := l.width,
    r := l.r, m := l.m, wgm := (im.wgm.mapIdx (fun i b => (i, b))).filter (fun x => x.2 ≠ 0), wgmMark := im.wgmMark
    barGen := if strand then (gen + 1) % 2 ^ 32 else gen, cls := l.prio,
    hold := regF s (pgEng l.eng) 0x0C0 15 8 ≠ 0, eng := l.eng, fsw := l.fstat }
  let gs := (im.recs.zip raws).mapIdx (fun i r =>
    let g := applyAction r.1 r.2 (readRec l i r.1)
    if strand then { g with arrived := 0, stat := if g.stat = .barrier then .run else g.stat } else g)
  (w, gs)

/-- What an attempt to place a parked workgroup comes to. -/
inductive Placed where
  | yes
  | no
  | wait
  deriving DecidableEq, Repr

/-- A parked workgroup is placed on the first candidate that admits it: the slot bit clears (R350), its launch has it
resident again, and its barrier is evaluated (R67). -/
def replayPlace (s : State) (l : Launch) (p : Parked) (im : Image) : Placed × State :=
  let ag := agEng l.eng
  let die := engDie l.eng
  match skipBundles s l im.recs with
  | (none, s1) => (.wait, s1)
  | (some raws, s1) =>
    if slotHeld s1 ag die l.space (qPark s1 l.q) p.slot then (.wait, s1)
    else match (candidates s1 l.eng l.dies).find? (fun t => admits s1 t l) with
    | none => (.no, s1)
    | some t =>
      let (w, gs) := restoreWg s1 l p im raws
      let id := (tfree (tile s1 t).wgs 32).getD 0
      let s2 := evalBarrier (place s1 t l w gs) t id
      let s3 := freeSlot s2 ag die l.space (qPark s2 l.q) p.slot (strCmd l.eng)
      (.yes, modLaunch s3 l.q l.serial (fun x => { x with parked := x.parked.filter (fun y => y.slot ≠ p.slot) }))

/-- A parked workgroup is abandoned: its slot bit clears and it counts in its launch (R82, R350); none while the bit's line is
held. -/
def abandonParked (s : State) (l : Launch) (p : Parked) : Option State :=
  if slotHeld s (agEng l.eng) (engDie l.eng) l.space (qPark s l.q) p.slot then none
  else
    let s1 := freeSlot s (agEng l.eng) (engDie l.eng) l.space (qPark s l.q) p.slot (strCmd l.eng)
    let s2 := modLaunch s1 l.q l.serial (fun x => { x with parked := x.parked.filter (fun y => y.slot ≠ p.slot) })
    some (wgEnded s2 l.key true)

/-- AUTO_REPLAY: the dispatch engine replays a parked workgroup whose groups carry only automatic reasons and whose watches
have ended (R297, R351); when no candidate admits it preemption may start (R377). -/
def execAutoReplay (q slot : Nat) (s : State) : Out :=
  .next (match s.launches.find? (fun l => l.q == q && l.parked.any (fun p => p.slot == slot)) with
  | none => s
  | some l => match l.parked.find? (fun p => p.slot == slot) with
    | none => s
    | some p =>
      if !p.replayable || l.killed || !inService s (pgEng l.eng) then s
      else match readImage s l p.image with
      | (.got bs marks, s1) =>
        (match replayPlace s1 l p (imageOf l p.image bs marks) with
         | (.no, s2) => if mayPreempt s2 l && !roomKept s2 l then preemptFor s2 l (candidates s2 l.eng l.dies) else s2
         | (_, s2) => s2)
      | (_, s1) => s1)

/-- PREEMPT_HOLD_EXPIRE: the protection after a replay, or the hold of a PREEMPT park, runs out (R376, R379). -/
def execPreemptHoldExpire (a : HoldAt) (s : State) : Out :=
  .next (match a with
  | .resident t w => modWg s t w (fun x => { x with hold := false })
  | .parked q slot => { s with launches := s.launches.map (fun l => if l.q = q then
      { l with parked := l.parked.map (fun p => if p.slot = slot then { p with held := false } else p) } else l) })

end Sys2Proof.Machine
end

