-- ==== Sys2Proof/Machine/Queue.lean ====
section
/-!
DEFINITION. Queues and commands: doorbells (R326, R332 to R334), fetch (R325, R554), start (R330, R331, R335, R341), the
statuses of R338, errors (R358), completion (R337, R342), kills (R361 to R363).
-/
namespace Sys2Proof.Machine

/-! Statuses (R338). -/
def csComplete : Nat := 0x00
def csAborted : Nat := 0x01
def csAlready : Nat := 0x02
def csStale : Nat := 0x03
def csRange : Nat := 0x04
def csOpcode : Nat := 0x05
def csField : Nat := 0x06
def csOwner : Nat := 0x07
def csTimeout : Nat := 0x08
def csDoorbell : Nat := 0x09
def csXlt : Nat := 0x0A
def csPerm : Nat := 0x0B
def csPoison : Nat := 0x0C
def csGroupAb : Nat := 0x0D
def csRegion : Nat := 0x0E
def csKdesc : Nat := 0x0F
def csFit : Nat := 0x10
def csAction : Nat := 0x11
def csRepStale : Nat := 0x12
def csWaitEnded : Nat := 0x13
def csNoSlot : Nat := 0x14
def csTxgStale : Nat := 0x15
def csKeyEmpty : Nat := 0x16
def csLost : Nat := 0x17
def csRemErr : Nat := 0x18
def csBusy : Nat := 0x19
def csReconfig : Nat := 0x1A
def csTableFull : Nat := 0x1B

/-! Fields of a command (R335). -/
def Cmd.opc (c : Cmd) : Nat := c.body.getD 0 0
def Cmd.overlap (c : Cmd) : Bool := (c.body.getD 1 0).testBit 0
def Cmd.tag (c : Cmd) : Nat := leAt4 c.body 4
def Cmd.n4 (c : Cmd) (o : Nat) : Nat := leAt4 c.body o
def Cmd.n8 (c : Cmd) (o : Nat) : Nat := leAt8 c.body o
/-- The address a reference at an offset relocates to; none for a reference of 0. -/
def Cmd.ref (c : Cmd) (o : Nat) : Option Nat := (c.refs.find? (fun r => r.1 == o)).map (·.2)
/-- The completion record's address: relocated, or for ME an AS0 address (R335). -/
def Cmd.compl (c : Cmd) : Option Nat := if c.eng ≥ 40 then (if c.n8 8 = 0 then none else some (c.n8 8)) else c.ref 8

def Cmd.die (c : Cmd) : Nat := engDie c.eng
def Cmd.ag (c : Cmd) : Nat := agEng c.eng

/-- A fault of translation as the end of a command, with its record (R264). -/
def Cmd.xfault (c : Cmd) (o : XOut) (a : Acc4) : Cmd :=
  match o.fault, c.res with
  | some (addr, cause), none =>
    { c with res := some (if causeCode cause = 1 then csXlt else csPerm, 0, faultRecord addr cause a c.space (blkId (pgEng c.eng)) o.top) }
  | _, _ => c

/-! Errors of a queue (R358). -/

/-- LAST_ERR, ERR_SERIAL and the event QUEUE_ERROR when `always` or EVENT asks for it. -/
def noteError (s : State) (q serial status : Nat) (always : Bool) : State :=
  let s1 := setQd (setQd s q 0x28 4 status) q 0x2C 4 serial
  if always || (qdN s1 q 0x1C 4).testBit 1 then
    raise s1 { ring := qEvring s1 q, kind := 2, tag := serial + 2 ^ 32 * q, info := status }
  else s1

/-- The queue enters ERROR before a fetch (R325, R334, R554). -/
def fetchError (s : State) (q status : Nat) : State :=
  let serial := (qdN s q 0x18 4 + 1) % 2 ^ 32
  let s1 := noteError (setQState s q 4) q serial status true
  match qEng s1 q with
  | some e => if status = csOwner || status = csDoorbell then errSet s1 (pgEng e) 11 q else s1
  | none => s1

/-! Doorbells (R326, R332, R333). -/

/-- A write of PRODUCED with a context tag. -/
def doorbell (s : State) (q tag v : Nat) : State :=
  let st := qState s q
  let rejected := st = 0 || st = 5 || (tag ≠ 0 && tag ≠ qCtx s q)
  if rejected then
    let pg := match qEng s q with
      | some e => if st = 0 then pgEng 40 else pgEng e
      | none => pgEng 40
    errSet (bumpF s pg 0x094 15 0 1) pg 10 q
  else setQlive s q { qlive s q with latch := v % 2 ^ 32, pend := true }

/-- A read in the page of a queue: the latch, CONSUMED, 0 elsewhere (R332); a read that is not one aligned word returns a free
value. -/
def doorbellRead (s : State) (q off size : Nat) : State :=
  let (v, s1) := if size = 4 && off % 4 = 0 then ((if off = 0 then (qlive s q).latch else if off = 4 then qdN s q 0x18 4 else 0), s)
    else let (f, s1) := takeFree s; (f % 2 ^ (8 * size), s1)
  { s1 with bus := tput s1.bus (pathIx .host) v }

/-- The fabric stream of what the memory window writes in ranges of other devices. -/
def strWindow : Nat := 0x3FFF

/-- A posted write of the memory window is not yet performed. -/
def hostWrites (s : State) : Bool := s.reqs.any (fun r => r.k.stream == strWindow && pktStreamed r.k && r.res.isNone)

/-- The next host access waits for older ones of its path (R439): for those that wait, and for posted writes not yet performed. -/
def hostBusy (s : State) : Bool := !s.hostQ.isEmpty || hostWrites s

/-- A host access waits behind older ones. -/
def hostHold (s : State) (a : HostAcc) : State := { s with hostQ := s.hostQ ++ [a] }

/-- An access to the page of a queue in the doorbell aperture. A write elsewhere than at PRODUCED, or that is not one aligned word,
has no effect. -/
def doorbellAcc (s : State) (q tag off size : Nat) (v : Option Nat) : State :=
  match v with
  | none => doorbellRead s q off size
  | some v => if size ≠ 4 || off ≠ 0 then s else doorbell s q tag v

/-- DOORBELL_WRITE: an access of the host to the page of a queue in the doorbell aperture, a write or a read. While the
host-side function is not READY no doorbell exists (R447). It waits for older accesses of the host. -/
def execDoorbellWrite (q tag size : Nat) (a : DoorAcc) (s : State) : Out :=
  .next (if q ≥ 16384 || a.off ≥ 4096 || !hostReady s then s
    else if hostBusy s then hostHold s (.door q tag a.off size a.val)
    else doorbellAcc s q tag a.off size a.val)

/-! Fetch (R325, R333, R334, R554). -/

/-- The engine has fetched every command up to the latch value it last read. -/
def caughtUp (s : State) (q : Nat) : Bool := (qlive s q).seen == qdN s q 0x18 4

/-- The engine reads the latch when its pending bit is set, which clears the bit; an engine that has fetched every command up to
the value it last read publishes the queue idle (R333). -/
def readLatch (s : State) (q : Nat) : State :=
  let x := qlive s q
  if x.pend then setQlive s q { x with seen := x.latch, pend := false, idle := false }
  else if caughtUp s q then setQlive s q { x with idle := true }
  else s

/-- The queue has a command to fetch: the latch to be read, or the value last read, differs from CONSUMED. -/
def unfetched (s : State) (q : Nat) : Bool :=
  if (qlive s q).pend then (qlive s q).latch ≠ qdN s q 0x18 4 else !caughtUp s q

/-- The context table entry of a tag (R324). -/
def ctxEntry (s : State) (tag : Nat) : Nat := rdN s 255 (regPair s (pgEng 40) 0x0A8 + 4 * tag) 4
def setCtxEntry (s : State) (tag v : Nat) : State := lineWriteN s 255 (regPair s (pgEng 40) 0x0A8 + 4 * tag) 4 v

/-- COMMAND_FETCH: the engine of a queue reads its next ring entry, over the fabric where it lies on another device (R259). -/
def fetchCmd (s : State) (q : Nat) : State :=
  match qEng s q with
  | none => s
  | some e =>
    if qState s q ≠ 1 || !inService s (pgEng e) then s
    else
      let s1 := readLatch s q
      if caughtUp s1 q then s1
      else
        let consumed := qdN s1 q 0x18 4
        let rsize := bits (qdN s1 q 0x10 4) 4 0
        let space := qSpace s1 q
        let ent := ctxEntry s1 (qCtx s1 q)
        if !ent.testBit 31 || bits ent 11 0 ≠ space then fetchError s1 q csOwner
        else if spaceState s1 (engDie e) space ≠ 1 then s1
        else if ((qlive s1 q).seen + 2 ^ 32 - consumed) % 2 ^ 32 > 2 ^ rsize then fetchError s1 q csDoorbell
        else
          let serial := (consumed + 1) % 2 ^ 32
          let va := qdN s1 q 0x08 8 + 128 * (consumed % 2 ^ rsize)
          match readVirt s1 (agEng e) (engDie e) space va 128 .read with
          | ((_, .wait), s2) => s2
          | ((_, .got bs marks), s2) =>
            if !marks.isEmpty then fetchError s2 q csPoison
            else
              let s3 := setQd s2 q 0x18 4 serial
              bumpSteps { s3 with cmds := s3.cmds ++ [{ q := q, serial := serial, eng := e, space := space, body := bs }] } (pgEng e) 2
          | ((o, .fault), s2) => match o.fault with
            | some (_, c) => fetchError s2 q (if causeCode c = 1 then csXlt else csPerm)
            | none => s2

def execCommandFetch (q : Nat) (s : State) : Out := .next (if q < 16384 then fetchCmd s q else s)

/-! Checks before a command starts (R335, R338, R343). -/

/-- The opcodes of a class: 0 DE, 1 CE, 2 FX, 3 ME. -/
def opcOk (cls opc : Nat) : Bool :=
  if cls = 3 then 0x80 ≤ opc && opc ≤ 0x93
  else opc ≤ 0x06 || (cls = 0 && (opc = 0x10 || opc = 0x11)) || (cls = 1 && 0x20 ≤ opc && opc ≤ 0x23) ||
    (cls = 2 && 0x30 ≤ opc && opc ≤ 0x33)

def engClass (e : Nat) : Nat := if e < 16 then 0 else if e < 32 then 1 else if e < 40 then 2 else 3

def ones (k : Nat) : Nat := 2 ^ k - 1

/-- The body fields of an opcode: offset and mask of the bits that are not reserved. -/
def bodyFields (opc : Nat) : List (Nat × Nat) :=
  match opc with
  | 0x01 => [(0x10, ones 128)]
  | 0x02 => [(0x10, ones 128)]
  | 0x03 => [(0x10, ones 192), (0x28, 0xFF)]
  | 0x04 => [(0x10, 3), (0x14, 0x3FFFF)]
  | 0x05 => [(0x10, ones 64)]
  | 0x06 => [(0x10, ones 64)]
  | 0x10 => [(0x10, ones 160), (0x24, 0xFFFFF), (0x28, ones 576)]
  | 0x11 => [(0x10, ones 64)]
  | 0x20 => [(0x10, ones 384), (0x40, 0x3FFFF), (0x44, ones 64), (0x50, ones 128)]
  | 0x21 => [(0x10, ones 384), (0x40, 0x3FFFF), (0x44, ones 64), (0x50, ones 128)]
  | 0x22 => [(0x10, ones 384), (0x40, 0x3FFFF), (0x44, ones 64), (0x50, ones 128)]
  | 0x23 => [(0x10, ones 384), (0x40, 0x3FFFF), (0x44, ones 64), (0x50, ones 128)]
  | 0x30 => [(0x10, ones 256), (0x30, 0x33F), (0x38, ones 128)]
  | 0x31 => [(0x10, 0x3F)]
  | 0x32 => [(0x10, ones 128), (0x20, 0x1F), (0x28, ones 64)]
  | 0x33 => [(0x10, ones 256)]
  | 0x80 => [(0x10, ones 96), (0x1C, 0xFF), (0x20, 0xF), (0x40, ones 512)]
  | 0x81 => [(0x10, ones 96), (0x1C, 0xFF), (0x40, ones 512)]
  | 0x82 => [(0x10, ones 96)]
  | 0x83 => [(0x10, ones 96), (0x1C, 1)]
  | 0x84 => [(0x10, ones 96)]
  | 0x85 => [(0x10, ones 128)]
  | 0x86 => [(0x10, ones 64), (0x18, 0xFFFF), (0x1C, 0xFFF)]
  | 0x87 => [(0x10, ones 64), (0x18, 0xFFFF), (0x1C, 0xFFF)]
  | 0x88 => [(0x10, ones 96), (0x20, ones 512)]
  | 0x89 => [(0x10, ones 96), (0x1C, 1)]
  | 0x8A => [(0x10, ones 96)]
  | 0x8B => [(0x10, ones 96), (0x20, ones 512)]
  | 0x8C => [(0x10, ones 96)]
  | 0x8D => [(0x10, ones 96), (0x1C, 1), (0x20, ones 128)]
  | 0x8E => [(0x10, ones 96), (0x20, ones 64), (0x28, ones 32)]
  | 0x8F => [(0x10, ones 128)]
  | 0x90 => [(0x10, ones 64), (0x18, 3), (0x1C, ones 64)]
  | 0x91 => [(0x10, ones 64), (0x18, 0xFF), (0x1C, 7)]
  | 0x92 => [(0x10, ones 64), (0x18, 0xFF), (0x1C, 0x3FFFF)]
  | 0x93 => [(0x10, ones 96), (0x20, ones 96)]
  | _ => []

/-- Every reserved bit of the command is 0. -/
def Cmd.reservedClear (c : Cmd) : Bool :=
  let n := ofBytes c.body
  let allow := (((0, 0x1FF) :: (0x04, ones 96) :: bodyFields c.opc).map (fun f => f.2 * 2 ^ (8 * f.1))).sum
  Nat.land n allow == n

/-- The offsets of a command's references (R335, R343), COMPL first. -/
def Cmd.refOffs (c : Cmd) : List Nat :=
  let conv := c.n4 0x40
  let own := match c.opc with
    | 0x01 => [0x10]
    | 0x02 => [0x10]
    | 0x03 => [0x10]
    | 0x10 => [0x10, 0x28] ++ ((List.range 8).filter (fun a => (c.n4 0x24).testBit (8 + a))).map (fun a => 0x30 + 8 * a)
    | 0x11 => [0x10]
    | 0x20 => [0x10, 0x18]
    | 0x21 => [0x18]
    | 0x22 => [0x10, 0x18] ++ (if bits conv 13 12 ≠ 0 then [0x20] else []) ++
        (if conv.testBit 15 || conv.testBit 16 then [0x28] else [])
    | 0x23 => [0x10, 0x18]
    | 0x30 => [0x10]
    | 0x32 => [0x10, 0x28]
    | 0x33 => [0x10, 0x18, 0x20]
    | _ => []
  if c.eng ≥ 40 then [] else 0x08 :: own

/-! Handles (R339 to R342). -/

def htAddr (s : State) (die space idx : Nat) : Nat := sdWord s die space 0x20 8 + 16 * idx
def htCount (s : State) (die space : Nat) : Nat := bits (sdWord s die space 0x28 4) 20 0
def htN (s : State) (die space idx off n : Nat) : Nat := rdN s tableSlot (htAddr s die space idx + off) n
def setUse (s : State) (die space idx v : Nat) : State :=
  lineWriteN s tableSlot (htAddr s die space idx + 12) 4 v

/-- One relocation, checked and counted in one line operation (R341, R372): a status, or the address. -/
def relocate1 (s : State) (die space ref len : Nat) : (Nat ⊕ Nat) × State :=
  let idx := bits ref 19 0
  let gen := bits ref 31 20
  let off := bits ref 63 32
  if idx = 0 then (.inl csField, s)
  else if idx ≥ htCount s die space then (.inl csRange, s)
  else
    let obj := htN s die space idx 0 8
    let size := htN s die space idx 8 4
    let use := htN s die space idx 12 4
    if !obj.testBit 63 || use.testBit 24 || bits obj 59 48 ≠ gen then (.inl csStale, s)
    else if off ≥ size || 16 * off + len > 16 * size || bits use 23 0 = 0xFFFFFF then (.inl csRange, s)
    else (.inr (bits obj 47 0 + 16 * off), setUse s die space idx (use + 1))

/-- The last count is released: VALID and DYING clear in the same operation (R371). -/
def release1 (s : State) (die space idx : Nat) : State :=
  let use := htN s die space idx 12 4
  let n := bits use 23 0 - 1
  if n = 0 && use.testBit 24 then
    let s1 := setUse s die space idx 0
    lineWriteN s1 tableSlot (htAddr s die space idx) 8 (setBits (htN s1 die space idx 0 8) 63 63 0)
  else setUse s die space idx (setBits use 23 0 n)

def releaseAll (s : State) (c : Cmd) : State := c.inflight.foldl (fun s i => release1 s c.die c.space i) s

/-- Relocate the references at some offsets in order; the first failure's status. -/
def relocAll (s : State) (c : Cmd) (len : Nat → Nat) : List Nat → Cmd × Option Nat × State
  | [] => (c, none, s)
  | o :: t =>
    let r := c.n8 o
    if r = 0 then relocAll s c len t
    else match relocate1 s c.die c.space r (len o) with
    | (.inl st, s1) => (c, some st, s1)
    | (.inr a, s1) => relocAll s1 { c with refs := c.refs ++ [(o, a)], inflight := c.inflight ++ [bits r 19 0] } len t

/-! Starting (R330, R331). -/

def inExec (c : Cmd) : Bool := c.stage != .fetched
def usesPlace (c : Cmd) : Bool := c.stage == .running

def engLimit (e : Nat) : Nat := if e < 16 then 32 else if e < 32 then 16 else if e < 40 then 64 else 16

def engCmds (s : State) (e : Nat) : List Cmd := s.cmds.filter (fun c => c.eng == e)
def queueCmds (s : State) (q : Nat) : List Cmd := s.cmds.filter (fun c => c.q == q)
/-- ENG_EXEC.COUNT. -/
def placesUsed (s : State) (e : Nat) : Nat := ((engCmds s e).filter usesPlace).length

/-- The commands of a queue that precede one in its ring. -/
def earlier (s : State) (c : Cmd) : List Cmd := (queueCmds s c.q).takeWhile (fun x => x.serial ≠ c.serial)

/-- R330: may this fetched command start? The previous command has completed or carries OVERLAP; SIGNAL and WATCH wait for
every earlier command. -/
def mayStart (s : State) (c : Cmd) : Bool :=
  let before := earlier s c
  before.all inExec && ((queueCmds s c.q).filter usesPlace).length < 4 &&
    (if c.opc = 0x02 || c.opc = 0x03 then before.isEmpty
     else match before.getLast? with
       | none => true
       | some p => p.overlap)

/-- R331: the queue is ready at its engine. -/
def queueReady (s : State) (q : Nat) : Bool :=
  qState s q = 1 && !qWaiting s q &&
    (match (queueCmds s q).find? (fun c => !inExec c) with
     | some c => mayStart s c
     | none => unfetched s q && ((queueCmds s q).filter usesPlace).length < 4 &&
        (match (queueCmds s q).getLast? with
         | none => true
         | some p => p.overlap))

/-- The queues of an engine that are ready, in ascending order. -/
def readyQueues (s : State) (e : Nat) : List Nat :=
  (s.queues.map (·.1)).filter (fun q => qEng s q = some e && queueReady s q)

def weightOf (s : State) (e c : Nat) : Nat := regF s (pgEng e) (if c < 4 then 0x088 else 0x08C) (8 * (c % 4) + 7) (8 * (c % 4))

/-- R331 steps 1 and 2: the class served next among the ready ones. -/
def pickClass (s : State) (e : Nat) (cs : List Nat) (begun : Nat → Nat) : Nat :=
  let strict := cs.filter (fun c => (regF s (pgEng e) 0x090 7 0).testBit c)
  if !strict.isEmpty then highest strict
  else
    let pos := cs.filter (fun c => weightOf s e c ≠ 0)
    if pos.isEmpty then highest cs
    else
      let due (a b : Nat) : Bool := (begun a + 1) * weightOf s e b < (begun b + 1) * weightOf s e a ||
        ((begun a + 1) * weightOf s e b == (begun b + 1) * weightOf s e a && a > b)
      (pos.drop 1).foldl (fun b c => if due c b then c else b) (pos.headD 0)

/-- R331 step 3: the first ready queue of the class after the last one served. -/
def pickQueue (qs : List Nat) (last : Nat) : Option Nat :=
  match qs.find? (fun q => q > last) with
  | some q => some q
  | none => qs.head?

/-- PROG of a management command is 8 B aligned, or 0 (R355). -/
def Cmd.progOk (c : Cmd) : Bool := c.eng < 40 || c.n8 0x10 % 8 == 0

/-- A fetched command starts: opcode, reserved bits, references (R335, R341, R343); a failed check decides its end. `len` is
the length each reference must cover. -/
def startCmd (s : State) (c : Cmd) (len : Nat → Nat) : State :=
  let put (s : State) (c : Cmd) : State := modCmd (bumpSteps s (pgEng c.eng) (4 * max c.refs.length c.inflight.length)) c.q c.serial (fun _ => c)
  let c1 := { c with stage := .running, tmo := qdN s c.q 0x14 4 }
  let s1 := settle (if c.opc = 0x01 then setQWaiting s c.q true else s) (pgEng c.eng) true
  let refused (st : Nat) : State := match relocAll s1 c1 len (if c.eng ≥ 40 then [] else [0x08]) with
    | (c2, none, s2) => put s2 (c2.finish st 0)
    | (c2, some e, s2) => put s2 (c2.finish e 0)
  if !opcOk (engClass c.eng) c.opc then refused csOpcode
  else if !c.reservedClear || !c.progOk then refused csField
  else match relocAll s1 c1 len c1.refOffs with
  | (c2, none, s2) =>
    let bad : Bool := match c2.compl with
      | some a => a % 64 != 0
      | none => false
    put s2 (if bad then c2.finish csField 0 else c2)
  | (c2, some st, s2) =>
    let s3 := releaseAll s2 c2
    put s3 (Cmd.finish { c2 with inflight := [] } st 0)

/-- Steps of a command beyond its fetch and its relocations (R343), its offers apart; for the management engine a free
amount. -/
def cmdSteps (c : Cmd) (free : Nat) : Nat :=
  if c.eng ≥ 40 then free % 2 ^ 16
  else if !c.ran then 0
  else match c.opc with
    | 0x00 => 1
    | 0x01 => 4
    | 0x02 => 4
    | 0x03 => 4
    | 0x04 => 8
    | 0x05 => 8
    | 0x06 => 8
    | 0x10 => 16
    | 0x11 => 16
    | 0x22 => (c.n4 0x38 * c.n4 0x3C + 31) / 32
    | 0x23 => (c.n4 0x38 * c.n4 0x3C + 31) / 32
    | 0x31 => 4
    | _ => c.count

/-! ALLREDUCE as its command keeps it (R425, R426): by key, 0 COLL, 1 N, 2 own index, 3 elements, 4 buffer, 5 REDUCE lines
received, 6 GATHER lines received, 16 + i member i. -/
def Cmd.ar (c : Cmd) (k : Nat) : Nat := tgetD c.aux k 0
def Cmd.arMembers (c : Cmd) : List Nat := (List.range (c.ar 1)).map (fun i => c.ar (16 + i))
/-- First line of shard j. -/
def Cmd.shard (c : Cmd) (j : Nat) : Nat := c.ar 3 / 32 * j / c.ar 1
def Cmd.shardLen (c : Cmd) (j : Nat) : Nat := c.shard (j + 1) - c.shard j

/-- The end an ALLREDUCE has come to (R426, R427). -/
def arEnd (s : State) (c : Cmd) : Option Nat :=
  if c.stageNo = 0 then none
  else if (reqBits s c.reqs).testBit 0 || c.arMembers.any (isDead s) then some csLost
  else if (reqBits s c.reqs).testBit 1 || s.collGone.contains (c.ar 0) then some csRemErr
  else if c.stageNo = 2 && c.ar 6 = c.ar 3 / 32 - c.shardLen (c.ar 2) && reqsDone s c.reqs then some csComplete
  else none

/-! Completion (R337, R342, R358). -/

/-- The record of an ended command. -/
def recordBytes (c : Cmd) (status info flags : Nat) (detail : List Nat) : List Nat :=
  toBytes 4 (status + 256 * c.opc + flags) ++ toBytes 4 c.tag ++ toBytes 8 (c.serial + 2 ^ 32 * c.q) ++ toBytes 16 info ++
    (detail ++ zeros (32 - detail.length)).take 32

/-- COMPLETE, ABORTED and ALREADY_COMPLETE are no errors (R338). -/
def isError (status : Nat) : Bool := status > 2

/-- A STOPPING queue with no command in execution is STOPPED (R328); a QUEUE_STOP that waits for it ends. -/
def queueIdleCheck (s : State) (q : Nat) : State :=
  if qState s q = 2 && (queueCmds s q).all (fun c => !inExec c) then setQState s q 3 else s

/-- OP_ABORTs that wait for this command end with a status (R365). -/
def answerAborts (s : State) (q serial status : Nat) : State :=
  { s with cmds := s.cmds.map (fun c => if c.opc = 0x85 && c.ran && c.aux = [(q, serial)] then c.finish (if c.stageNo = 1 then csAlready else status) 0 else c) }

/-- Where a command's record goes: its address, while the command's space is ACTIVE (R363). -/
def Cmd.recordAt (s : State) (c : Cmd) : Option Nat :=
  match c.compl with
  | some a => if spaceState s c.die c.space = 1 && a % 64 = 0 then some a else none
  | none => none

/-- The record has to wait: its line is held. -/
def recordHeld (s : State) (c : Cmd) : Bool :=
  match c.recordAt s with
  | some a => virtHeld s c.ag c.die c.space a 64 .write
  | none => false

/-- A command whose record is performed leaves its engine: its counts are released, and OP_ABORTs that wait for it end. -/
def leaveEngine (s : State) (c : Cmd) (status target : Nat) : State :=
  let s1 := releaseAll s c
  let s2 := delReqs { s1 with cmds := s1.cmds.filter (fun x => !(x.q == c.q && x.serial == c.serial)) } c.reqs
  let s3 := if c.opc = 0x01 then setQWaiting s2 c.q false else s2
  let pg := pgEng c.eng
  let (f, s4) := if c.eng ≥ 40 then takeFree s3 else (0, s3)
  let s5 := bumpF (bumpSteps s4 pg (cmdSteps c f)) pg 0x098 15 0 1
  let s6 := if c.opc = 0x32 && c.stageNo ≠ 0 && status ≠ csComplete then { s5 with collGone := c.ar 0 :: s5.collGone.filter (· ≠ c.ar 0) } else s5
  let s7 := answerAborts s6 c.q c.serial target
  settle (queueIdleCheck s7 c.q) pg (!(engCmds s7 c.eng).isEmpty)

/-- An error status is noted, and POLICY STOP stops the queue (R358). -/
def noteEnd (s : State) (c : Cmd) (status : Nat) : State :=
  if isError status then
    let a := noteError (errSet (bumpF s (pgEng c.eng) 0x098 31 16 1) (pgEng c.eng) 8 c.q) c.q c.serial status (status = csTimeout)
    if (qdN a c.q 0x1C 4).testBit 0 && (qState a c.q = 1 || qState a c.q = 2) then setQState a c.q 4 else a
  else s

/-- The end of a command, once decided: its error is noted and its record written; it leaves its engine when every copy of the
record is performed (R260, R337). -/
def finishCmd (s : State) (c : Cmd) (status info : Nat) (detail : List Nat) (target : Nat) : State :=
  let n := s.nextReq
  let s1 := match c.recordAt s with
    | some a => (writeVirt s c.ag c.die c.space a (recordBytes c status info c.flags detail) false none (strCmd c.eng) (.cmd c.q c.serial)).2
    | none => s
  let ids := (s1.reqs.filter (fun r => r.owner == .cmd c.q c.serial && r.id ≥ n)).map (·.id)
  let s2 := noteEnd s1 c status
  if reqsDone s2 ids then leaveEngine (delReqs s2 ids) c status target
  else modCmd (delReqs s2 c.reqs) c.q c.serial (fun c => { c with res := some (status, info, detail), reqs := ids, ending := some target })

/-- A command whose record is on its way leaves once it is performed. -/
def endingDone (s : State) (c : Cmd) (target : Nat) : State :=
  if reqsDone s c.reqs then leaveEngine s c ((c.res.map (·.1)).getD 0) target else s

/-- A watch of a command still waits on the list of a belay unit (R299). -/
def watchListed (s : State) (w : Option (Nat × Nat)) : Bool :=
  match w with
  | some (d, id) => (bel s d).waitl.any (fun x => x.id == id)
  | none => false

/-- The end that a command has come to: its decided result once the requests it waits for have ended; a remote loss or
refusal comes first (R353, R354). The loss of a registration ends the watch, not its WATCH command (R296, R344). -/
def endOf (s : State) (c : Cmd) : Option (Nat × Nat × List Nat) :=
  match c.res with
  | none => if c.opc = 0x32 then (arEnd s c).map (fun st => (st, 0, [])) else none
  | some (st, info, d) =>
    if !reqsDone s c.reqs || watchListed s c.watch then none
    else
      let b := reqBits s c.reqs
      if st = 0 || st = csPoison then
        (if b.testBit 0 && c.opc ≠ 0x03 then some (csLost, info, []) else if b.testBit 1 then some (csRemErr, info, []) else some (st, info, d))
      else some (st, info, d)

/-- COMMAND_END: the command's end is decided at its engine's arbitration point and its record is written; a record on its way is
performed. -/
def execCommandEnd (q serial : Nat) (s : State) : Out :=
  .next (match cmd? s q serial with
  | none => s
  | some c =>
    match c.ending with
    | some target => endingDone s c target
    | none =>
    if c.killed.isSome || !inExec c || recordHeld s c then s
    else match endOf s c with
    | none => s
    | some (st, info, d) => finishCmd s c st info d (if c.opc = 0x92 && st = csAborted && c.asked.isSome then csComplete else csAlready))

/-! Kills (R361 to R363). -/

/-- Commands that run to their end whatever kills them (R361). -/
def runsOut (opc : Nat) : Bool := opc = 0x00 || opc = 0x02 || opc = 0x03 || opc = 0x04 || opc = 0x06

/-- A resident workgroup is killed: its groups stop, what it has offered and its loads in flight are discarded, its
reservations end (R361). -/
def killWg (s : State) (t w : Nat) : State :=
  let gs := (tile s t).groupsOf w
  let ns := gs.map (·.1)
  let s1 := gs.foldl (fun s p => modGroup s t p.1 (fun g =>
    { g with stopped := true, offer := none,
             pend := retireAll (g.pend.map (fun x => match x.kind with
               | .load _ _ _ _ _ _ _ _ _ => { x with done := true }
               | .loadW _ _ _ => { x with done := true }
               | .longV _ => { x with done := true }
               | .longU _ _ => { x with done := true }
               | .sync (.fence _) => { x with done := true }
               | .sync .invl1 => { x with done := true }
               | .sync (.txbind _) => { x with done := true }
               | .sync .txunbind => { x with done := true }
               | _ => x)) })) s
  let s3 := endResvs (dropOffers s1 t ns) t ns
  modWg s3 t w (fun x => { x with park := .killing })

/-- The resident workgroups of a launch: tile and number. -/
def wgsOf (s : State) (k : LaunchKey) : List (Nat × Nat) :=
  (s.tiles.map (fun x => (x.2.wgs.filter (fun p => p.2.launch == k)).map (fun p => (x.1, p.1)))).flatten

/-- Requests of a command that no port has accepted are never sent (R361); they leave its count of lines sent. A mirror copy
belongs to a line already written and stays (R362). -/
def dropUnsent (s : State) (c : Cmd) : State :=
  let un := s.reqs.filter (fun r => c.reqs.contains r.id && !r.sent && !r.handed && !r.numbered && r.res.isNone && r.mir.isNone)
  let n := (un.filter (fun r => r.k.kind = pkWrite || r.k.kind = pkReduce || r.k.kind = pkGather)).length
  modCmd (delReqs s (un.map (·.id))) c.q c.serial (fun c =>
    { c with reqs := c.reqs.filter (fun i => !un.any (fun r => r.id == i)), count := c.count - n })

/-- The kill request acts on the command's work (R361). -/
def startKill (s : State) (c : Cmd) (cause : Nat) : State :=
  if c.killed.isSome || c.ending.isSome || runsOut c.opc || (c.opc = 0x05 && c.res.isSome) ||
    (launch? s c.q c.serial).any (fun l => l.parked.any (fun p => slotHeld s c.ag c.die l.space (qPark s l.q) p.slot)) then s
  else
    let s1 := modCmd s c.q c.serial (fun c => { c with killed := some cause })
    match c.opc with
    | 0x10 =>
      (match launch? s1 c.q c.serial with
       | none => s1
       | some l =>
         let s2 := modLaunch s1 c.q c.serial (fun l => { l with killed := true })
         let s3 := (wgsOf s2 l.key).foldl (fun s p => killWg s p.1 p.2) s2
         let s4 := (endWatches s3 (fun w => w.ofLaunch l.key) 2).2
         let s5 := dropEnded s4 (fun w => w.ofLaunch l.key)
         let s6 := l.parked.foldl (fun s p => freeSlot s c.ag c.die l.space (qPark s l.q) p.slot (strCmd c.eng)) s5
         let s7 := { s6 with tiles := s6.tiles.map (fun x => (x.1, if x.2.room = some (c.q, c.serial) then { x.2 with room := none } else x.2)) }
         modLaunch s7 c.q c.serial (fun l => { l with parked := [] }))
    | 0x01 =>
      let mine (w : Watch) : Bool := match w.kind with
        | .queue q n => q == c.q && n == c.serial
        | _ => false
      dropEnded (endWatches s1 mine 2).2 mine
    | 0x05 =>
      let i := hIx (c.n8 0x10)
      if (txgAt s1 i).by_ = some (c.q, c.serial) then
        let s2 := setTxg s1 i { txgAt s1 i with by_ := none }
        txgAbort s2 i 1
      else s1
    | _ => if (0x20 ≤ c.opc && c.opc ≤ 0x23) || c.opc = 0x30 || c.opc = 0x32 || c.opc = 0x33 then dropUnsent s1 c else s1

/-- What a tile has asked of a park area on another device for a workgroup is answered. -/
def parkQuiet (s : State) (t w : Nat) : Bool :=
  reqsDone s (parkReqs s t w) && ((wg? s t w).all (fun g => g.parkSlot.isNone) || s.reqs.all (fun r => match r.owner with
    | .virt ag _ va => !(ag == agTile t && va ≥ 2 ^ 48) || r.res.isSome
    | _ => true))

/-- A park slot that a workgroup holds may be given back now. -/
def slotFree (s : State) (t w : Nat) : Bool :=
  (wg? s t w).all (fun g => match g.parkSlot with
    | some i => !slotHeld s (agTile t) (tileDie t) g.space (qPark s g.launch.queue) i
    | none => true)

/-- A killed workgroup has drained (R361): its accepted commands and stores are done, and what it had begun to write of an
image (R362). -/
def killDrained (s : State) (k : LaunchKey) : Bool :=
  (wgsOf s k).all (fun p => drained (tile s p.1) p.2 && parkQuiet s p.1 p.2 && slotFree s p.1 p.2)

/-- A killed workgroup leaves its tile; its park slot is given back. -/
def dropWg (s : State) (t w : Nat) : State := releaseWg (delReqs (dropSlot s t w).2 (parkReqs s t w)) t w

/-- KILL_DONE: every access of the killed work has been performed; the command ends ABORTED with its cause and count, the
expired one QERR_TIMEOUT (R357, R362). -/
def execKillDone (q serial : Nat) (s : State) : Out :=
  .next (match cmd? s q serial with
  | none => s
  | some c => match c.killed, c.ending with
    | none, _ => s
    | some _, some target => endingDone s c target
    | some cause, none =>
      let status := if c.expired then csTimeout else csAborted
      let done (s : State) (count : Nat) : State := finishCmd s c status (cause + 2 ^ 32 * count) [] csComplete
      match launch? s q serial with
      | some l =>
        if !killDrained s l.key || recordHeld s c then s
        else
          let s1 := (wgsOf s l.key).foldl (fun s p => dropWg s p.1 p.2) s
          done { s1 with launches := s1.launches.filter (fun x => !(x.q == q && x.serial == serial)) } l.ended
      | none => if reqsDone s c.reqs && !recordHeld s c then done s c.count else s)

/-- Ask every command of a queue in execution to be killed with a cause. -/
def askKills (s : State) (q cause : Nat) : State :=
  { s with cmds := s.cmds.map (fun c => if c.q = q && inExec c && c.asked.isNone then { c with asked := some cause } else c) }

/-- QUEUE_TIMEOUT: the time of a command in execution runs out (R357). -/
def execQueueTimeout (q serial : Nat) (s : State) : Out :=
  .next (match cmd? s q serial with
  | none => s
  | some c =>
    if !inExec c || c.killed.isSome || c.ending.isSome || bits c.tmo 15 0 = 0 then s
    else
      let s1 := errSet s (pgEng c.eng) 9 q
      if c.tmo.testBit 18 then
        let s2 := modCmd s1 q serial (fun c => { c with expired := true })
        let s3 := if qState s2 q = 1 || qState s2 q = 2 then setQState s2 q 4 else s2
        askKills s3 q 0x43
      else if c.flags.testBit 20 then s
      else
        let s2 := modCmd s1 q serial (fun c => { c with flags := c.flags + 2 ^ 20 })
        raise s2 { ring := qEvring s2 q, kind := 3, tag := serial + 2 ^ 32 * q })

end Sys2Proof.Machine
end

