-- ==== Sys2Proof/Machine/Start.lean ====
section
/-!
DEFINITION. Starting commands (R330, R331), reading for a command, and NOP, WAIT, SIGNAL, WATCH (R344), LAUNCH (R345 to
R349), REPLAY (R351).
-/
namespace Sys2Proof.Machine

/-! Tensors of a copy command (R352, R133). -/

/-- CONV fields. -/
def Cmd.sfmt (c : Cmd) : Nat := bits (c.n4 0x40) 4 0
def Cmd.dfmt (c : Cmd) : Nat := bits (c.n4 0x40) 9 5
def Cmd.rnd (c : Cmd) : Nat := bits (c.n4 0x40) 11 10
def Cmd.quant (c : Cmd) : Nat := bits (c.n4 0x40) 13 12
def Cmd.saxis (c : Cmd) : Bool := (c.n4 0x40).testBit 14
def Cmd.linedS (c : Cmd) : Bool := (c.n4 0x40).testBit 15
def Cmd.linedD (c : Cmd) : Bool := (c.n4 0x40).testBit 16
def Cmd.blocked (c : Cmd) : Bool := (c.n4 0x40).testBit 17
def Cmd.rows (c : Cmd) : Nat := c.n4 0x38
def Cmd.cols (c : Cmd) : Nat := c.n4 0x3C
/-- Elements per microblock. -/
def Cmd.micro (c : Cmd) : Nat := if c.quant = 1 then 32 else 16

/-- Bit position of element (r, c) of a tensor of `w`-bit elements: packed, or in blocks of R133. -/
def elemBit (blocked : Bool) (stride cols w r c : Nat) : Nat :=
  if blocked then (r / 32 * stride + c / 32) * (1024 * w) + (r % 32 * 32 + c % 32) * w else (r * cols + c) * w

/-- Bytes from the first to the last element of a tensor. -/
def extent (blocked : Bool) (stride rows cols w : Nat) : Nat :=
  if rows = 0 || cols = 0 then 0 else (elemBit blocked stride cols w (rows - 1) (cols - 1) + w + 7) / 8

/-- Byte offset of the scale of element (r, c) (R133, R352). -/
def scaleOff (blocked saxis : Bool) (stride cols g r c : Nat) : Nat :=
  if blocked then
    let sidx := if saxis then c % 32 else r % 32
    let kpos := if saxis then r % 32 else c % 32
    (r / 32 * stride + c / 32) * (32 * (32 / g)) + sidx * (32 / g) + kpos / g
  else if saxis then r / g * cols + c
  else r * (cols / g) + c / g

def Cmd.srcLen (c : Cmd) : Nat := extent c.blocked (c.n4 0x44) c.rows c.cols (fmtBits c.sfmt)
def Cmd.dstLen (c : Cmd) : Nat := extent c.blocked (c.n4 0x48) c.rows c.cols (fmtBits c.dfmt)
def Cmd.linLen (c : Cmd) : Nat :=
  let s := if c.linedS then extent c.blocked (c.n4 0x44) c.rows c.cols 16 else 0
  let d := if c.linedD then extent c.blocked (c.n4 0x48) c.rows c.cols 16 else 0
  if s > d then s else d
def Cmd.sclLen (c : Cmd) : Nat :=
  if c.quant = 0 || c.rows = 0 || c.cols = 0 then 0
  else scaleOff c.blocked c.saxis (c.n4 0x48) c.cols c.micro (c.rows - 1) (c.cols - 1) + 1

/-- The length that a copy or fabric command uses from each of its references (R341). -/
def Cmd.refLen (c : Cmd) (o : Nat) : Nat :=
  match c.opc with
  | 0x20 => if o = 0x10 || o = 0x18 then c.n8 0x38 else 0
  | 0x21 => if o = 0x18 then c.n8 0x38 else 0
  | 0x22 => if o = 0x10 then c.srcLen else if o = 0x18 then c.dstLen else if o = 0x20 then c.sclLen else if o = 0x28 then c.linLen else 0
  | 0x23 => if o = 0x10 then c.srcLen else if o = 0x18 then c.dstLen else if o = 0x28 then c.linLen else 0
  | 0x30 => if o = 0x10 then c.n8 0x20 else 0
  | 0x32 => if o = 0x10 then 4 * c.n8 0x18 else if o = 0x28 then 48 else 0
  | 0x33 => if o = 0x10 then c.n4 0x28 * c.n4 0x2C else if o = 0x18 then 4 * c.n4 0x28 else if o = 0x20 then 65536 else 0
  | _ => 0

/-! COMMAND_START. -/

/-- A command removed before its start (R364): it performs no access but its record. -/
def startRemoved (s : State) (c : Cmd) : State :=
  let c1 := { c with stage := .running }
  let done (s : State) (c : Cmd) : State := modCmd s c.q c.serial (fun _ => Cmd.finish c csAborted 0x40)
  if c.eng ≥ 40 then done s c1
  else match relocAll s c1 (fun _ => 0) [8] with
  | (c2, none, s1) => done s1 c2
  | (c2, some _, s1) => done s1 c2

/-- COMMAND_START: an engine with a free place chooses a ready queue and starts its next command (R331). -/
def execCommandStart (e : Nat) (s : State) : Out :=
  .next (if e ≥ 44 || !inService s (pgEng e) || placesUsed s e ≥ engLimit e then s
    else
      let qs := readyQueues s e
      let cs := (qs.map (qPrio s)).eraseDups
      if qs.isEmpty then s
      else
        let x := tgetD s.engs e {}
        let set := (List.range 8).filter (fun c => cs.contains c)
        let begun := if x.ready = set then x.begun else []
        let cl := pickClass s e set (fun c => tgetD begun c 0)
        match pickQueue (qs.filter (fun q => qPrio s q = cl)) (tgetD x.lastQ cl 16383) with
        | none => s
        | some q =>
          let s1 := if (queueCmds s q).all inExec then fetchCmd s q else s
          match (queueCmds s1 q).find? (fun c => !inExec c) with
          | none => s1
          | some c =>
            if qState s1 q ≠ 1 || !mayStart s1 c then s1
            else
              let s2 := { s1 with engs := tput s1.engs e { x with lastQ := tput x.lastQ cl q, last := some (q, c.serial), ready := set, begun := tput begun cl (tgetD begun cl 0 + 1) } }
              if c.asked = some 0x40 then startRemoved s2 c else startCmd s2 c c.refLen)

/-! Reading lines for a command. -/

/-- The read request of a command for a remote line. -/
def lineReq (s : State) (c : Cmd) (g : Glob) : Option Req :=
  s.reqs.find? (fun r => c.reqs.contains r.id && r.k.kind == pkRead && r.k.dst == g.dev && r.k.addr == g.addr)

/-- A line as the command reads it, with its mark; a refused or lost read gives a marked line (R406). -/
def lineData (s : State) (slot : Nat) (c : Cmd) (d : Dest) : List Nat × Bool :=
  match d with
  | .loc p => (readPhys s slot p 128, isMarked s p)
  | .mir p _ => (readPhys s slot p 128, isMarked s p)
  | .rem g => match lineReq s c g with
    | some r => r.line
    | none => ([], true)

/-- What reading lines gives: wait, a translation fault, or the lines: virtual address, bytes, mark. -/
inductive Got where
  | wait (s : State)
  | fail (o : XOut) (s : State)
  | got (ls : List (Nat × List Nat × Bool)) (s : State)

/-- Read requests for remote lines are sent for a command (R405, R353). -/
def cmdAsk (s : State) (c : Cmd) (gs : List Glob) : State :=
  gs.foldl (fun s g =>
    let id := s.nextReq
    let s1 := sendReq s { pktTo (packet0 pkRead 0 c.space 0) g with stream := strCmd c.eng } (.cmd c.q c.serial)
    modCmd s1 c.q c.serial (fun c => { c with reqs := c.reqs ++ [id] })) s

/-- Remote lines among destinations. -/
def remLines (o : XOut) : List Glob :=
  o.ok.filterMap (fun x => match x.2.1 with
    | .rem g => some g
    | _ => none)

/-- Lines already translated are read: remote ones are asked for and waited for. -/
def gotLines (s : State) (c : Cmd) (o : XOut) : Got :=
  let rs := remLines o
  let miss := rs.filter (fun g => (lineReq s c g).isNone)
  if xoutHeld s o then .wait s
  else if !miss.isEmpty then .wait (cmdAsk s c miss.eraseDups)
  else if rs.any (fun g => ((lineReq s c g).bind (·.res)).isNone) then .wait s
  else
    let slot := spaceSlot s c.die c.space
    let s := touchDests s slot (o.ok.map (·.2.1))
    .got (o.ok.map (fun x => (x.1, lineData s slot c x.2.1))) s

/-- The lines of byte runs (address, length) are read for a command. -/
def cmdLines (s : State) (c : Cmd) (a : Acc4) (runs : List (Nat × Nat)) : Got :=
  match translateRuns s c.ag c.die c.space a false runs with
  | (o, s1) => if !o.fails.isEmpty then .fail o (countXltFault s1 c.die o) else gotLines s1 c o

/-- Bytes at a virtual address among lines read. -/
def gotBytes (ls : List (Nat × List Nat × Bool)) (va n : Nat) : List Nat :=
  (rangeFrom va n).map (fun x => match ls.find? (fun l => l.1 == x / 128 * 128) with
    | some l => l.2.1.getD (x % 128) 0
    | none => 0)

def gotMark (ls : List (Nat × List Nat × Bool)) : Bool := ls.any (·.2.2)

/-- An engine executes commands: the device runs, its page is in a state that holds work (R39), its supply suffices (R457). -/
def engRuns (s : State) (e : Nat) : Bool := running s && !(blk s (pgEng e)).st.silent && !stalled s (pgEng e)

/-- The row of an opcode acts on a command in execution that it names, once, while its engine runs. -/
def onCmd (q serial opc : Nat) (s : State) (f : Cmd → State) : Out :=
  .next (match cmd? s q serial with
  | none => s
  | some c => if engRuns s c.eng && c.opc = opc && c.stage = .running && !c.ran && c.res.isNone && c.killed.isNone && c.eng < 40 then f c else s)

/-- As `onCmd` for the management engine. -/
def onMe (q serial opc : Nat) (s : State) (f : Cmd → State) : Out :=
  .next (match cmd? s q serial with
  | none => s
  | some c => if engRuns s c.eng && c.opc = opc && c.stage = .running && c.res.isNone && c.killed.isNone && c.eng ≥ 40 then f c else s)

/-- The command's end is decided. -/
def done (s : State) (c : Cmd) (status info : Nat) : State :=
  modCmd s c.q c.serial (fun c => Cmd.finish { c with ran := true } status info)

/-- The command ends with a translation fault. -/
def faulted (s : State) (c : Cmd) (o : XOut) (a : Acc4) : State :=
  modCmd s c.q c.serial (fun c => Cmd.xfault { c with ran := true } o a)

/-! NOP, SIGNAL, WAIT, WATCH (R344). -/

def execNop (q serial : Nat) (s : State) : Out := onCmd q serial 0x00 s (fun c => done s c csComplete 0)

/-- The counter of a command: none when its reference is 0 or its address is not 8 B aligned (R344). -/
def Cmd.ctr (c : Cmd) : Option Nat :=
  match c.ref 0x10 with
  | some a => if a % 8 = 0 then some a else none
  | none => none

/-- Translation of the counter of a command: an access of 8 bytes (R264). -/
def ctrXlate (s : State) (c : Cmd) (va : Nat) (a : Acc4) : XOut × State :=
  let (o, s1) := translateAll s c.ag c.die c.space a false [va]
  ({ o with top := va + 7 }, s1)

/-- SIGNAL (R289, R290). -/
def execSignalCmd (q serial : Nat) (s : State) : Out :=
  onCmd q serial 0x02 s (fun c => match c.ctr with
    | none => done s c csField 0
    | some va =>
      let (o, s1) := ctrXlate s c va .rmw
      if xoutHeld s1 o then s
      else match o.ok with
      | (_, .loc p, _) :: _ => done (lineSignal s1 (spaceSlot s1 c.die c.space) p (c.n8 0x18)) c csComplete 0
      | (_, .mir p _, _) :: _ => done (lineSignal s1 (spaceSlot s1 c.die c.space) p (c.n8 0x18)) c csComplete 0
      | (_, .rem g, _) :: _ =>
        let id := s1.nextReq
        let s2 := sendReq s1 { pktTo (packet0 pkSignal 0 c.space 0) g with stream := strCmd c.eng, operand := c.n8 0x18 } (.cmd q serial)
        done (modCmd s2 q serial (fun c => { c with reqs := c.reqs ++ [id] })) c csComplete 0
      | [] => faulted (countXltFault s1 c.die o) c o .rmw)

/-- The INFO of an ended WAIT (R343): status and counter value. -/
def waitInfo (status value : Nat) : Nat := status + 2 ^ 64 * value

/-- A WAIT ends with its watch (R344). -/
def waitEnds (s : State) (q serial status value : Nat) : State :=
  modCmd s q serial (fun c => Cmd.finish { c with ran := true } (if status = 0 then csComplete else csWaitEnded) (waitInfo status value))

/-- A watch of a command is registered on a local counter (R294) or at the counter's device (R296). -/
def registerFor (s : State) (c : Cmd) (d : Dest) (k : WKind) : State :=
  let w (pa : Nat) : Watch := {
    id := 0, pa := pa, target := c.n8 0x18, slot := spaceSlot s c.die c.space, space := c.space, last := 0, kind := k }
  let loc (pa : Nat) : State :=
    let dd := homeDie pa
    let id := (bel s dd).nextId
    modCmd (registerWatch s dd (w pa)) c.q c.serial (fun c => { c with watch := some (dd, id) })
  match d with
  | .loc pa => loc pa
  | .mir pa _ => loc pa
  | .rem g =>
    let b := bel s c.die
    let reg := b.nextId
    let s1 := setBel s c.die { b with nextId := reg + 1, remote := b.remote ++ [(reg, { w g.a with id := reg })] }
    let id := s1.nextReq
    let s2 := watchSweep (sendReq s1 { pktTo (packet0 pkWatch 0 c.space 0) g with txg := 4 * reg + c.die, operand := c.n8 0x18, stream := strCmd c.eng } (.watch c.die reg))
    modCmd s2 c.q c.serial (fun c => { c with reqs := c.reqs ++ [id] })

/-- WAIT: a QUEUE watch is registered; once it is armed, here or at the counter's device, the command holds no place (R330). -/
def execWaitCmd (q serial : Nat) (s : State) : Out :=
  onCmd q serial 0x01 s (fun c => match c.ctr with
    | none => done s c csField 0
    | some va =>
      let (o, s1) := ctrXlate s c va .read
      if xoutHeld s1 o then s
      else match o.ok with
      | [] => faulted (countXltFault s1 c.die o) c o .read
      | (_, d, _) :: _ =>
        let s2 := registerFor s1 c d (.queue q serial)
        modCmd s2 q serial (fun c => { c with ran := true, stage := if c.watch.isNone || watchListed s2 c.watch then .running else .armed }))

/-- WATCH: a HOST watch is registered, and the command completes with the registration. -/
def execWatchCmd (q serial : Nat) (s : State) : Out :=
  onCmd q serial 0x03 s (fun c => match c.ctr with
    | none => done s c csField 0
    | some va =>
      let (o, s1) := ctrXlate s c va .read
      if xoutHeld s1 o then s
      else match o.ok with
      | [] => faulted (countXltFault s1 c.die o) c o .read
      | (_, d, _) :: _ => done (registerFor s1 c d (.host (bits (c.n4 0x28) 7 0) (c.n8 0x20) q)) c csComplete 0)

/-! LAUNCH (R345 to R349). -/

/-- R345: the kernel descriptor's fields are in range and its reserved bits 0. -/
def kdescOk (bs : List Nat) : Bool :=
  let shape := leAt4 bs 8
  let g := bits shape 6 2
  let r := bits shape 14 7
  leAt8 bs 0 % 16 == 0 && leAt8 bs 0 < 2 ^ 48 && bits shape 1 0 ≠ 3 && 1 ≤ g && g ≤ 16 && 1 ≤ r && r ≤ 255 && shape < 2 ^ 15 &&
    leAt4 bs 0x0C ≤ 1048576 && leAt8 bs 0x10 % 16 == 0 && leAt8 bs 0x10 < 2 ^ 48 && leAt4 bs 0x18 < 32 &&
    (bs.drop 0x1C).all (· == 0)

/-- R270: a region entry. -/
def rgnOk (bs : List Nat) : Bool :=
  leAt8 bs 0 % 4096 == 0 && leAt8 bs 0 < 2 ^ 48 && 1 ≤ leAt4 bs 8 && leAt4 bs 8 < 2 ^ 24 && leAt4 bs 0x0C < 4

/-- R347: some tile in service that placement may use could admit a workgroup with nothing else resident. -/
def launchFits (s : State) (e dies g w r m n : Nat) : Bool :=
  (candidates s e dies).any (fun t => roomFor s t {} g w r m) && n ≤ 16

/-- The launch that a command starts, from its descriptor and region list. -/
def mkLaunch (s : State) (c : Cmd) (kva : Nat) (bs : List Nat) (rgn : List (Nat × Nat × Nat)) : Launch :=
  let shape := leAt4 bs 8
  let ph := c.n4 0x24
  { q := c.q, serial := c.serial, ctx := qCtx s c.q, space := c.space, eng := c.eng, prio := qPrio s c.q, kdesc := kva,
    code := leAt8 bs 0, width := widthOf (bits shape 1 0), g := bits shape 6 2, r := bits shape 14 7, m := leAt4 bs 0x0C, rgn := rgn,
    wx := c.n4 0x18, wy := c.n4 0x1C, wz := c.n4 0x20, phase := bits ph 7 0, dies := bits ph 19 16,
    args := (List.range 8).map (fun a => if ph.testBit (8 + a) then (c.ref (0x30 + 8 * a)).getD 0 else c.n8 (0x30 + 8 * a)),
    fstat := (c.ref 0x28).getD 0 }

/-- LAUNCH: descriptor and region list are read and checked, and the launch's workgroups wait for their offers. -/
def execLaunch (q serial : Nat) (s : State) : Out :=
  onCmd q serial 0x10 s (fun c =>
    let total := c.n4 0x18 * c.n4 0x1C * c.n4 0x20
    if total = 0 || total ≥ 2 ^ 32 || qPark s q = 0 then done s c csField 0
    else match c.ref 0x10 with
    | none => done s c csField 0
    | some kva =>
      if kva % 64 ≠ 0 then done s c csKdesc 0
      else match cmdLines s c .read [(kva, 64)] with
      | .wait s1 => s1
      | .fail o s1 => faulted s1 c o .read
      | .got ls s1 =>
        let bs := gotBytes ls kva 64
        let n := bits (leAt4 bs 0x18) 4 0
        let rva := leAt8 bs 0x10
        if gotMark ls then done s1 c csPoison 0
        else if !kdescOk bs then done s1 c csKdesc 0
        else if n > 16 || (n > 0 && rva = 0) then done s1 c csRegion 0
        else match cmdLines s1 c .read [(rva, 16 * n)] with
        | .wait s2 => s2
        | .fail o s2 => faulted s2 c o .read
        | .got rs s2 =>
          let es := (List.range n).map (fun i => gotBytes rs (rva + 16 * i) 16)
          let l := mkLaunch s2 c kva bs (es.map (fun e => (leAt8 e 0, leAt4 e 8, leAt4 e 0x0C)))
          if gotMark rs then done s2 c csPoison 0
          else if !es.all rgnOk then done s2 c csRegion 0
          else if !launchFits s2 l.eng l.dies l.g l.width l.r l.m n then done s2 c csFit 0
          else modCmd { s2 with launches := s2.launches ++ [l] } q serial (fun c => { c with ran := true }))

/-! REPLAY (R81, R82, R351). -/

/-- REPLAY: the image is read and checked, and its workgroup placed or abandoned; it waits while no candidate admits it. -/
def execReplay (q serial : Nat) (s : State) : Out :=
  onCmd q serial 0x11 s (fun c => match c.ref 0x10 with
    | none => done s c csField 0
    | some va => match cmdLines s c .read [(va, 256)] with
      | .wait s1 => s1
      | .fail o s1 => faulted s1 c o .read
      | .got ls s1 =>
        let h := gotBytes ls va 256
        let key := leAt8 h 0x10
        let lq := bits key 31 16
        match s1.launches.find? (fun l => l.q == lq && l.serial == bits key 63 32 && l.ctx == bits key 15 0) with
        | none => done s1 c csRepStale 0
        | some l =>
          if l.space ≠ c.space then done s1 c csOwner 0
          else match l.parked.find? (fun p => p.x == leAt4 h 0x18 && p.y == leAt4 h 0x1C && p.z == leAt4 h 0x20) with
          | none => done s1 c csRepStale 0
          | some p =>
            if l.killed then done s1 c csRepStale 0
            else match readImage s1 { l with eng := c.eng } va with
            | (.got bs marks, s2) =>
              let im := imageOf l va bs marks
              if !im.recs.all (fun r => actionOk (recReason r) (recAction r) (recImprecise r)) then done s2 c csAction 0
              else if im.recs.any (fun r => recAction r == 3) then
                (match abandonParked s2 l p with
                 | some s3 => done s3 c csComplete 0
                 | none => s2)
              else if p.waits > 0 then s2
              else (match replayPlace s2 l p im with
                | (.yes, s3) => done s3 c csComplete 0
                | (_, s3) => s3)
            | (_, s2) => s2)

end Sys2Proof.Machine
end

