-- ==== Sys2Proof/Machine/WatchEv.lean ====
section
/-!
DEFINITION. Belay events: admission from the wait list (R299), notifications taking effect (R296, R297), abandoned ranges
(R302, R303), entry errors (R305), return to service.
-/
namespace Sys2Proof.Machine

/-! Abandoned ranges (R303): first frame and number of frames, in rising order, adjacent ranges merged. -/

def rangeMerge : Nat → Nat → List (Nat × Nat) → List (Nat × Nat)
  | a, n, [] => [(a, n)]
  | a, n, (b, m) :: t =>
    if b + m < a then (b, m) :: rangeMerge a n t
    else if a + n < b then (a, n) :: (b, m) :: t
    else
      let lo := if a < b then a else b
      let hi := if a + n > b + m then a + n else b + m
      rangeMerge lo (hi - lo) t

/-- The ranges without the frames a to a + n - 1; no frame is named where n is 0. -/
def rangeCut (a n : Nat) (rs : List (Nat × Nat)) : List (Nat × Nat) :=
  if n = 0 then rs
  else (rs.map (fun r =>
    if r.1 + r.2 ≤ a || a + n ≤ r.1 then [r]
    else (if r.1 < a then [(r.1, a - r.1)] else []) ++ (if r.1 + r.2 > a + n then [(a + n, r.1 + r.2 - (a + n))] else []))).flatten

/-! Admission (R299). -/

/-- The registration on the wait list that is admitted next: the oldest for whose space an entry is free, or whose counter is
marked abandoned, which needs none (R302). -/
def nextWaiting (b : Bel) : Option Watch := b.waitl.find? (fun w => b.abandoned w.pa || b.entryFree w.space)

/-- Whom an admission concerns: the command that waits holds its place no more (R330), the device that sent the registration is
answered (R417). -/
def admitted (s : State) (d : Nat) (w : Watch) (k : Option Packet) : State :=
  match w.kind, k with
  | .queue q n, _ => modCmd s q n (fun c => if c.watch = some (d, w.id) then { c with stage := .armed } else c)
  | .rem _ _, some k => answer s k stDone 0 [] false false
  | _, _ => s

/-- The counter is read at admission (R294). -/
def admitOne (s : State) (d : Nat) : State :=
  let b := bel s d
  match nextWaiting b with
  | none => s
  | some w =>
    let rest := b.waitl.filter (fun x => x.id ≠ w.id)
    let s1 := setBel s d { b with
      waitl := rest, late := b.late.filter (fun x => x.1 ≠ w.id), fullTold := b.fullTold && !rest.isEmpty }
    admitted (decideWatch s1 d w) d w ((b.late.find? (fun x => x.1 == w.id)).map (·.2))

/-- WATCH_ENTRY_ADMIT: an entry has freed, or the page is in service again. A park-wait whose registration is admitted is
decided (R297). -/
def execWatchEntryAdmit (d : Nat) (s : State) : Out :=
  .next (if d < 4 && inService s (pgBel d) then settleWaits (admitOne s d) else s)

def admitMany : Nat → State → Nat → State
  | 0, s, _ => s
  | n + 1, s, d => admitMany n (admitOne s d) d

/-- The notifications held while the page was out of service are sent (R292). -/
def sendHeld (s : State) (d : Nat) : State :=
  let b := bel s d
  b.held.foldl (fun s e => sendNotice s d e) (setBel s d { b with held := [] })

/-- BEL_RETURN_SERVICE: the notifications held are sent, every armed watch is evaluated once, then the waiting registrations are
admitted. Those that go on waiting wait for an entry (WATCH_FULL, R299). -/
def execBelReturnService (d : Nat) (s : State) : Out :=
  .next (if d < 4 && inService s (pgBel d) then
      let s1 := evalWatches (sendHeld s d) d (fun _ => true)
      let s2 := admitMany (bel s1 d).waitl.length s1 d
      settleWaits (if (bel s2 d).waitl.isEmpty then s2 else watchFull s2 d)
    else s)

/-! Notifications (R296, R297). -/

/-- GROUP_WATCH_END: a park-wait's watch has ended and its workgroup's image is reported; the status goes into s(D) of the
image, and the workgroup waits for one watch less. -/
def execGroupWatchEnd (d id : Nat) (s : State) : Out :=
  .next (match (bel s d).ended.find? (fun e => e.w.id == id) with
  | none => s
  | some e => match e.w.kind with
    | .group k x y z idx sreg =>
      (match s.launches.find? (fun l => l.key == k) with
       | none => takeEnded s d id
       | some l => match l.parked.find? (fun p => p.x == x && p.y == y && p.z == z) with
         | none => s
         | some p =>
           let va := p.image + 256 + idx * recSize l.width l.r + 256 + 8 * sreg
           if virtHeld s (agEng l.eng) (engDie l.eng) l.space va 8 .write then s
           else
           let s1 := (writeVirt s (agEng l.eng) (engDie l.eng) l.space va (toBytes 8 e.status) false none (strCmd l.eng) .none).2
           takeEnded (modLaunch s1 l.q l.serial (fun l => { l with parked := l.parked.map (fun y =>
             if y.slot = p.slot then { y with waits := y.waits - 1 } else y) })) d id)
    | _ => s)

/-- QUEUE_WATCH_END: a WAIT ends with its watch. -/
def execQueueWatchEnd (d id : Nat) (s : State) : Out :=
  .next (match (bel s d).ended.find? (fun e => e.w.id == id) with
  | none => s
  | some e => match e.w.kind with
    | .queue q n => waitEnds (takeEnded s d id) q n e.status e.value
    | _ => s)

/-! Abandoned counters (R302). -/

/-- A range is marked and the armed watches on counters in it end ABANDONED; a full table leaves all as it is (R303). A range of
no frames marks nothing. -/
def markRange (s : State) (d first n : Nat) : Bool × State :=
  let b := bel s d
  if n = 0 then (true, s)
  else
  let rs := rangeMerge first n b.aband
  if rs.length > 16384 then (false, errSet s (pgBel d) 13 0)
  else
    let s1 := setBel s d { b with aband := rs }
    let hit (w : Watch) : Bool := first ≤ w.pa / 2 ^ 21 && w.pa / 2 ^ 21 < first + n
    (true, ((bel s1 d).armed.filter hit).foldl (fun s w => endWatch s d w 1) s1)

/-- ABANDON_MARK: at stage 2 of a retirement a belay unit marks a listed range homed on its die (R302, R374): first frame of
the device and number of frames. -/
def execAbandonMark (d first n : Nat) (s : State) : Out :=
  .next (match s.cmds.find? (fun c => c.opc == 0x8E && c.stageNo == 2 && c.aux.contains (first, n) && first / 2 ^ 17 == d) with
  | none => s
  | some c => match markRange s d first n with
    | (true, s1) => modCmd s1 c.q c.serial (fun c => { c with aux := c.aux.filter (fun r => r ≠ (first, n)) })
    | (false, s1) => s1)

/-- WATCH_ENTRY_ERROR: an uncorrectable error in a watch entry (R305). -/
def execWatchEntryError (d id : Nat) (s : State) : Out :=
  .next (match (bel s d).armed.find? (fun w => w.id == id) with
  | none => s
  | some w => entryError s d w)

end Sys2Proof.Machine
end

