-- ==== Sys2Proof/Machine/TxgOps.lean ====
section
/-!
DEFINITION. Transaction groups: TXG_OPEN, TXG_COMMIT, TXG_ABORT (R307 to R309, R344), the commit point and the install
(R318), expiry (R321).
-/
namespace Sys2Proof.Machine

/-- A slot that has been opened since power-up carries a generation (R309). -/
def Txg.opened (t : Txg) : Bool := t.st != .free || t.ended.isSome

/-- The checks of a handle in order (R344): reserved bits, generation, space. -/
def handleCheck (s : State) (space h : Nat) : Option Nat :=
  let t := txgAt s (hIx h)
  if bits h 63 32 ≠ 0 then some csField
  else if !t.opened || t.gen ≠ hGen h then some csTxgStale
  else if t.space ≠ space then some csOwner
  else none

/-- The generation of a newly opened slot. The handle 0 names no TXG (R352, R354), so no slot is given it (DEDUCED). -/
def freshGen (ix f : Nat) : Nat := if ix = 0 && f % 2 ^ 24 = 0 then 1 else f % 2 ^ 24

/-- TXG_OPEN: a free slot of the die's sequencer. The first generation of a slot is a free value. -/
def execTxgOpen (q serial : Nat) (s : State) : Out :=
  onCmd q serial 0x04 s (fun c =>
    let d := bits (c.n4 0x10) 1 0
    let life := bits (c.n4 0x14) 17 0
    if bits life 17 16 = 3 then done s c csField 0
    else if !inService s (pgTxg d) then s
    else match (List.range 64).find? (fun i => (txgAt s (64 * d + i)).st == .free) with
    | none => done s c csNoSlot 0
    | some i =>
      let ix := 64 * d + i
      let t := txgAt s ix
      let (f, s1) := if t.opened then (t.gen + 1, s) else takeFree s
      let gen := freshGen ix f
      let s2 := setTxg s1 ix { st := .opened, gen := gen, space := c.space, queue := q, life := life }
      done s2 c csComplete (handleOf ix gen))

/-- The commit point (R318 step 3): COMMITTED is recorded, and a waiting command completes. -/
def commitPoint (s : State) (i : Nat) : State :=
  let t := txgAt s i
  let s1 := setTxg s i { t with st := if t.lines.isEmpty then .free else .committed, ended := some 0, by_ := none }
  let s2 := bumpF s1 (pgTxg (i / 64)) 0x088 15 0 1
  match t.by_ with
  | some (q, n) => modCmd s2 q n (fun c => Cmd.finish c csComplete 0)
  | none => s2

/-- A commit starts (R318 steps 1 and 2); a TXG with no staged line commits at once. -/
def commitStart (s : State) (i : Nat) (who : Option (Nat × Nat)) (anchor : Bool) : State :=
  let s1 := setTxg s i { txgAt s i with st := .committing, by_ := who, anchor := anchor }
  if (txgAt s i).lines.isEmpty then commitPoint s1 i else s1

/-- TXG_COMMIT (R309): behind another commit of the same TXG it waits for the end. -/
def execTxgCommit (q serial : Nat) (s : State) : Out :=
  onCmd q serial 0x05 s (fun c =>
    let h := c.n8 0x10
    match handleCheck s c.space h with
    | some st => done s c st 0
    | none =>
      let t := txgAt s (hIx h)
      match t.ended with
      | some 0 => done s c csAlready 0
      | some cause => done s c csAborted cause
      | none =>
        if t.st = .opened then
          commitStart (modCmd s q serial (fun c => { c with ran := true })) (hIx h) (some (q, serial)) false
        else s)

/-- Detector 1 of TXG: the next staged line checked (R525). -/
def txgInject (s : State) (i : Nat) : Option State :=
  let pg := pgTxg (i / 64)
  match (txgAt s i).lines with
  | [] => none
  | (line, _) :: _ => if injects s pg 1 then some (errSet (txgAbort (injFire s pg [10]) i 8) pg 10 (128 * line)) else none

/-- The check of R318 step 2 finds a staged line uncorrectable: the TXG aborts with TXG_ERROR, before the commit point. -/
def stageBad (s : State) (i line : Nat) : State := errSet (txgAbort s i 8) (pgTxg (i / 64)) 10 (128 * line)

/-- TXG_EXPIRED: the lifetime of an open TXG runs out (R321). -/
def execTxgExpired (d slot : Nat) (s : State) : Out :=
  let i := 64 * d + slot
  .next (if d < 4 && slot < 64 && (txgAt s i).st = .opened && bits (txgAt s i).life 15 0 ≠ 0 then txgAbort s i 7 else s)

end Sys2Proof.Machine
end

