-- ==== Sys2Proof/Machine/Copy.lean ====
section
/-!
DEFINITION. Copy engine commands (R352, R353): COPY, FILL, CONVERT, ADD.
-/
namespace Sys2Proof.Machine

/-- A byte that a command writes: virtual address, value, the bits it writes, whether a marked source reached it. -/
structure WByte where
  va   : Nat
  val  : Nat
  msk  : Nat
  mark : Bool
  deriving DecidableEq, Repr

/-- A value of `w` bits at an absolute bit address. -/
def wbits (bitAddr w v : Nat) (mark : Bool) : List WByte :=
  let sh := bitAddr % 8
  let n := (sh + w + 7) / 8
  let v := (v % 2 ^ w) <<< sh
  let m := (2 ^ w - 1) <<< sh
  (List.range n).map (fun i => ⟨bitAddr / 8 + i, v >>> (8 * i) % 256, m >>> (8 * i) % 256, mark⟩)

/-- `w` bits at a bit address of the lines read. -/
def gotBits (ls : List (Nat × List Nat × Bool)) (bitAddr w : Nat) : Nat :=
  ofBytes (gotBytes ls (bitAddr / 8) ((bitAddr % 8 + w + 7) / 8)) >>> (bitAddr % 8) % 2 ^ w

/-- A marked source line among those that hold `n` bytes at an address. -/
def gotMarkAt (ls : List (Nat × List Nat × Bool)) (va n : Nat) : Bool :=
  ls.any (fun l => l.2.2 && l.1 < va + n && va < l.1 + 128)

/-- The lines of written bytes, in rising order. -/
def wLines (ws : List WByte) : List Nat := (ws.foldl (fun t w => tput t (w.va / 128 * 128) ()) ([] : Tab Unit)).map (·.1)

/-- One line of a command's output: for each byte written its value and bits; the mark. -/
def wLine (ws : List WByte) (l : Nat) : Tab (Nat × Nat) × Bool :=
  (ws.filter (fun w => w.va / 128 * 128 == l)).foldl (fun acc w =>
    let (v, m) := tgetD acc.1 (w.va % 128) (0, 0)
    (tput acc.1 (w.va % 128) (Nat.lor (andNot v w.msk) w.val, Nat.lor m w.msk), acc.2 || w.mark)) ([], false)

/-- The bytes of a line with the bits outside the output kept from the line as it stands (R352). -/
def mergeOld (bs : Tab (Nat × Nat)) (old : Nat → Nat) : List (Nat × Nat) :=
  bs.map (fun b => (b.1, Nat.lor b.2.1 (andNot (old b.1) b.2.2)))

/-- Some byte of the line is written in part. -/
def partial_ (bs : Tab (Nat × Nat)) : Bool := bs.any (fun b => b.2.2 ≠ 255)

/-- One destination line is written: staged under a TXG (R310, R316), local, mirrored (R260) or remote (R353). `old` gives
the bytes of a remote line whose bytes are written in part. -/
def putLine (s : State) (c : Cmd) (txg : Nat) (d : Dest) (bs : Tab (Nat × Nat)) (mark : Bool) : State :=
  let slot := spaceSlot s c.die c.space
  let cur (p : Nat) : List Nat := readPhys s slot p 128
  let send (s : State) (g : Glob) (bytes : List (Nat × Nat)) (m : Option (Nat × Nat × Nat)) : State :=
    let id := s.nextReq
    let s1 := sendMir s (pktTo (pktWrite 0 c.space 0 (strCmd c.eng) bytes mark) g) (.cmd c.q c.serial) m
    modCmd s1 c.q c.serial (fun c => { c with reqs := c.reqs ++ [id] })
  if txg ≠ 0 then
    let staged (p o : Nat) : Nat :=
      let cm := (cur p).getD o 0
      match tget? (txgAt s (hIx txg)).lines (p / 128) with
      | some l => tgetD l.bytes o cm
      | none => cm
    match d with
    | .loc p => stageWrite s txg c.space slot p (mergeOld bs (staged p)) mark true
    | .mir p _ => stageWrite s txg c.space slot p (mergeOld bs (staged p)) mark false
    | .rem _ => stageWrite s txg c.space slot 0 (mergeOld bs (fun _ => 0)) mark false
  else match d with
    | .loc p => lineWrite s slot p (mergeOld bs (fun o => (cur p).getD o 0)) mark none
    | .mir p g =>
      let bytes := mergeOld bs (fun o => (cur p).getD o 0)
      send (lineWrite s slot p bytes mark none) g bytes (some (mirKey s c.ag c.space g))
    | .rem g => send s g (mergeOld bs (fun o => (lineData s slot c (.rem g)).1.getD o 0)) none

/-- The failures of several translations as one (R263), and the access of the failure that is named. -/
def joinFails (os : List (XOut × Acc4)) : Option (XOut × Acc4) :=
  let o : XOut := { fails := (os.map (fun x => x.1.fails)).flatten, top := highest (os.map (·.1.top)) }
  match o.fault with
  | none => none
  | some (_, cz) => some (o, ((os.find? (fun x => x.1.fails.any (fun f => f.2 == cz))).map (·.2)).getD .read)

/-- The lowest address of a marked source (R343). -/
def lowMark (spans : List (Nat × Nat)) (ls : List (Nat × List Nat × Bool)) : Option Nat :=
  let at_ (sp : Nat × Nat) : List Nat := (ls.filter (fun l => l.2.2 && l.1 < sp.1 + sp.2 && sp.1 < l.1 + 128)).map (fun l => if l.1 < sp.1 then sp.1 else l.1)
  match (spans.map at_).flatten with
  | [] => none
  | x :: t => some (t.foldl (fun m y => if y < m then y else m) x)

/-- The row of a copy command acts on it once, also when it is being killed: it then stops at a line boundary (R361). -/
def onCopy (q serial opc : Nat) (s : State) (f : Cmd → State) : Out :=
  .next (match cmd? s q serial with
  | none => s
  | some c => if engRuns s c.eng && c.opc = opc && c.stage = .running && !c.ran && c.res.isNone && c.eng < 40 then f c else s)

/-- Every remote line that a command reads has come back. -/
def readsHere (s : State) (c : Cmd) (o : XOut) : Bool := (remLines o).all (fun g => ((lineReq s c g).bind (·.res)).isSome)

/-- The lines of its output that a command writes: all, or the first few when it is being killed (R361: free). -/
def upToKill (s : State) (c : Cmd) (lines : List Nat) : List Nat × State :=
  if c.killed.isNone then (lines, s)
  else
    let (k, s1) := takeFree s
    (lines.take (k % (lines.length + 1)), s1)

/-- A copy command has written its lines: a killed one only counts them (R362). -/
def copyDone (s : State) (c : Cmd) (lines : Nat) (bad : Option Nat) : State :=
  let s1 := modCmd s c.q c.serial (fun c => { c with count := lines })
  if c.killed.isSome then modCmd s1 c.q c.serial (fun c => { c with ran := true })
  else match bad with
  | some a => done s1 c csPoison a
  | none => done s1 c csComplete 0

/-- A killed command that meets a fault has ended already: nothing more is written. -/
def copyFail (s0 s : State) (c : Cmd) (o : XOut) (a : Acc4) : State := if c.killed.isSome then s0 else faulted s c o a

/-- A copy command reads its sources and writes its output: `reads` are the byte ranges read, `writes` those written, `make`
gives the bytes from the lines read and the state after its draws. Every access is translated before any is made (R263);
remote sources, and remote lines written in part, are read first. -/
def copyRun (s : State) (c : Cmd) (txg : Nat) (reads writes : List (Nat × Nat)) (part : Bool)
    (make : List (Nat × List Nat × Bool) → State → List WByte × State) : State :=
  let (ro, s1) := translateRuns s c.ag c.die c.space .read false reads
  let (wo, s2) := translateRuns s1 c.ag c.die c.space .write false writes
  match joinFails [(ro, .read), (wo, .write)] with
  | some (o, a) => copyFail s (countXltFault s2 c.die o) c o a
  | none =>
    let old : XOut := { ok := if part && txg = 0 then wo.ok.filter (fun x => match x.2.1 with
      | .rem _ => true
      | _ => false) else [] }
    if xoutHeld s2 wo || (c.killed.isSome && !readsHere s2 c { ok := ro.ok ++ old.ok }) then s
    else match gotLines s2 c { ok := ro.ok ++ old.ok } with
    | .wait s3 => s3
    | .fail _ s3 => s3
    | .got all s3 =>
      let ls := all.take ro.ok.length
      let (ws, s4) := make ls s3
      let (lines, s4) := upToKill s4 c (wLines ws)
      let s5 := lines.foldl (fun s l =>
        let (bs, mark) := wLine ws l
        match wo.ok.find? (fun x => x.1 == l) with
        | some (_, d, _) => putLine s c txg d bs mark
        | none => s) s4
      copyDone s5 c lines.length (lowMark reads ls)

/-- COPY (R352): every source byte as it stood before any write (R353). -/
def execCopyCmd (q serial : Nat) (s : State) : Out :=
  onCopy q serial 0x20 s (fun c =>
    let n := c.n8 0x38
    match c.ref 0x10, c.ref 0x18 with
    | some a, some d =>
      copyRun s c (c.n8 0x30) [(a, n)] [(d, n)] false (fun ls s =>
        ((List.range n).map (fun i => ⟨d + i, (gotBytes ls (a + i) 1).getD 0 0, 255, gotMarkAt ls (a + i) 1⟩), s))
    | _, _ => done s c csField 0)

/-- FILL (R352): PATTERN repeated from DST. -/
def execFillCmd (q serial : Nat) (s : State) : Out :=
  onCopy q serial 0x21 s (fun c =>
    let n := c.n8 0x38
    match c.ref 0x18 with
    | some d =>
      copyRun s c (c.n8 0x30) [] [(d, n)] false (fun _ s =>
        ((List.range n).map (fun i => ⟨d + i, c.body.getD (0x50 + i % 16) 0, 255, false⟩), s))
    | none => done s c csField 0)

/-! CONVERT and ADD. -/

/-- R216: the value of a lined pair. -/
def linedDecode (b l : Nat) : FV :=
  match bf16.decode b with
  | .fin n m e =>
    let ex := bits b 14 7
    let ex := if ex = 0 then 1 else ex
    FV.add (.fin n m e) (FV.mul (ofInt (sext 16 l)) (.fin false 1 ((ex : Int) - 150)))
  | v => v

/-- R217: an FP32 value as a lined pair, body and lining. -/
def linedEncode (v : FV) : Nat × Nat :=
  let b := bf16.encode .ne v
  match bf16.decode b with
  | .fin n m e =>
    let ex := bits b 14 7
    let ex := if ex = 0 then 1 else ex
    let d := FV.add v (FV.neg (.fin n m e))
    (b, encodeInt 16 .ne (d.mul (.fin false 1 (150 - (ex : Int)))))
  | _ => (b, 0)

/-- A format code that conversions know. -/
def fmtKnown (x : Nat) : Bool := x ≤ 10 || x = 12
/-- Element formats of quantised tensors (R154, R180). -/
def mxFmt (x : Nat) : Bool := 3 ≤ x && x ≤ 9

def Cmd.noisePage (c : Cmd) : Nat := pgEng c.eng

/-- The rounding of one element; stochastic rounding takes a draw (R161). -/
def Cmd.round (c : Cmd) (s : State) : Rnd × State :=
  match c.rnd with
  | 0 => (.ne, s)
  | 1 => (.tz, s)
  | _ => let (r, s1) := drawNoise s c.noisePage; (.st r, s1)

/-- The source value of element (r, k) and whether a marked line holds it (R218). -/
def Cmd.elem (c : Cmd) (src lin : Nat) (ls : List (Nat × List Nat × Bool)) (r k : Nat) : FV × Bool :=
  let w := fmtBits c.sfmt
  let b := 8 * src + elemBit c.blocked (c.n4 0x44) c.cols w r k
  let m := gotMarkAt ls (b / 8) ((b % 8 + w + 7) / 8)
  if c.linedS then
    let lb := 8 * lin + elemBit c.blocked (c.n4 0x44) c.cols 16 r k
    (linedDecode (gotBits ls b 16) (gotBits ls lb 16), m || gotMarkAt ls (lb / 8) 2)
  else (ofFmt c.sfmt (gotBits ls b w), m)

/-- The destination bit address of element (r, k). -/
def Cmd.dstBit (c : Cmd) (dst w r k : Nat) : Nat := 8 * dst + elemBit c.blocked (c.n4 0x48) c.cols w r k

/-- The elements of a tensor in row order. -/
def cells (rows cols : Nat) : List (Nat × Nat) := ((List.range rows).map (fun r => (List.range cols).map (fun k => (r, k)))).flatten

/-- The microblocks of a tensor along SAXIS (R352). -/
def Cmd.blocks (c : Cmd) : List (List (Nat × Nat)) :=
  let g := c.micro
  if c.saxis then
    ((List.range (c.rows / g)).map (fun j => (List.range c.cols).map (fun k => (List.range g).map (fun i => (g * j + i, k))))).flatten
  else
    ((List.range c.rows).map (fun r => (List.range (c.cols / g)).map (fun j => (List.range g).map (fun i => (r, g * j + i))))).flatten

/-- The output of a quantising CONVERT (R180). -/
def quantOut (c : Cmd) (src dst scl lin : Nat) (ls : List (Nat × List Nat × Bool)) (s : State) : List WByte × State :=
  let w := fmtBits c.dfmt
  c.blocks.foldl (fun acc blk =>
    let vs := blk.map (fun e => (e, c.elem src lin ls e.1 e.2))
    let code := mxScale c.dfmt (vs.map (fun v => v.2.1))
    let (r0, k0) := blk.headD (0, 0)
    let sc := wbits (8 * (scl + scaleOff c.blocked c.saxis (c.n4 0x48) c.cols c.micro r0 k0)) 8 code (vs.any (fun v => v.2.2))
    vs.foldl (fun acc v =>
      let (md, s1) := c.round acc.2
      (acc.1 ++ wbits (c.dstBit dst w v.1.1 v.1.2) w (mxElem c.dfmt code (vs.map (fun v => v.2.1)) md v.2.1) v.2.2, s1)) (acc.1 ++ sc, acc.2)) ([], s)

/-- The output of a CONVERT that does not quantise (R158 to R160, R217). -/
def convOut (c : Cmd) (src dst lin : Nat) (ls : List (Nat × List Nat × Bool)) (s : State) : List WByte × State :=
  let w := fmtBits c.dfmt
  (cells c.rows c.cols).foldl (fun acc e =>
    let (v, m) := c.elem src lin ls e.1 e.2
    if c.linedD then
      let (b, l) := linedEncode (f32 (toF32 v))
      (acc.1 ++ wbits (c.dstBit dst 16 e.1 e.2) 16 b m ++ wbits (c.dstBit lin 16 e.1 e.2) 16 l m, acc.2)
    else
      let (md, s1) := c.round acc.2
      (acc.1 ++ wbits (c.dstBit dst w e.1 e.2) w (toFmt c.dfmt md v) m, s1)) ([], s)

/-- The fields of CONVERT and ADD that are in range (R352, R353). -/
def Cmd.convOk (c : Cmd) (add : Bool) : Bool :=
  fmtKnown c.sfmt && fmtKnown c.dfmt && c.rnd ≠ 3 && c.quant ≠ 3 &&
    (!c.blocked || (c.rows % 32 = 0 && c.cols % 32 = 0)) &&
    (!c.linedS || c.sfmt = 1) && (!c.linedD || (c.dfmt = 1 && c.quant = 0)) &&
    (c.quant = 0 || (mxFmt c.dfmt && (if c.saxis then c.rows else c.cols) % c.micro = 0)) &&
    (!add || (c.dfmt = 0 && c.n8 0x30 = 0 && c.quant = 0 && !c.linedD))

/-- Two byte ranges overlap. -/
def overlaps (a b : Nat × Nat) : Bool := a.1 < b.1 + b.2 && b.1 < a.1 + a.2 && a.2 ≠ 0 && b.2 ≠ 0

def Cmd.readSpans (c : Cmd) (src lin : Nat) : List (Nat × Nat) :=
  [(src, c.srcLen)] ++ (if c.linedS then [(lin, extent c.blocked (c.n4 0x44) c.rows c.cols 16)] else [])
def Cmd.writeSpans (c : Cmd) (dst scl lin : Nat) : List (Nat × Nat) :=
  [(dst, c.dstLen)] ++ (if c.quant ≠ 0 then [(scl, c.sclLen)] else []) ++
    (if c.linedD then [(lin, extent c.blocked (c.n4 0x48) c.rows c.cols 16)] else [])

/-- Every reference that the command needs names something. -/
def Cmd.convRefs (c : Cmd) : Bool :=
  (c.ref 0x10).isSome && (c.ref 0x18).isSome && (c.quant = 0 || (c.ref 0x20).isSome) &&
    (!(c.linedS || c.linedD) || (c.ref 0x28).isSome)

/-- CONVERT. -/
def execConvert (q serial : Nat) (s : State) : Out :=
  onCopy q serial 0x22 s (fun c =>
    let src := (c.ref 0x10).getD 0
    let dst := (c.ref 0x18).getD 0
    let scl := (c.ref 0x20).getD 0
    let lin := (c.ref 0x28).getD 0
    let rs := c.readSpans src lin
    let ws := c.writeSpans dst scl lin
    if !c.convOk false || !c.convRefs || rs.any (fun r => ws.any (overlaps r)) then done s c csField 0
    else copyRun s c (c.n8 0x30) rs ws (fmtBits c.dfmt % 8 ≠ 0) (fun ls s =>
      if c.quant ≠ 0 then quantOut c src dst scl lin ls s else convOut c src dst lin ls s))

/-- ADD: FP32 values reduce-written into a local buffer, line by line (R209, R211, R353). -/
def execAddCmd (q serial : Nat) (s : State) : Out :=
  onCopy q serial 0x23 s (fun c =>
    let src := (c.ref 0x10).getD 0
    let dst := (c.ref 0x18).getD 0
    let lin := (c.ref 0x28).getD 0
    let rs := c.readSpans src lin
    let ws := [(dst, c.dstLen)]
    if !c.convOk true || !c.convRefs || dst % 4 ≠ 0 || rs.any (fun r => ws.any (overlaps r)) then done s c csField 0
    else
      let (ro, s1) := translateRuns s c.ag c.die c.space .read false rs
      let (wo, s2) := translateRuns s1 c.ag c.die c.space .rmw false ws
      match joinFails [(ro, .read), (wo, .rmw)] with
      | some (o, a) => copyFail s (countXltFault s2 c.die o) c o a
      | none =>
        if !(remLines wo).isEmpty then done s2 c csField 0
        else if xoutHeld s2 wo || (c.killed.isSome && !readsHere s2 c ro) then s
        else match gotLines s2 c ro with
        | .wait s3 => s3
        | .fail _ s3 => s3
        | .got ls s3 =>
          let es := (cells c.rows c.cols).map (fun e =>
            let (v, m) := c.elem src lin ls e.1 e.2
            (c.dstBit dst 32 e.1 e.2 / 8, (toF32 v).toNat, m))
          let slot := spaceSlot s3 c.die c.space
          let (lines, s3) := upToKill s3 c ((es.foldl (fun t e => tput t (e.1 / 128 * 128) ()) ([] : Tab Unit)).map (·.1))
          let s4 := lines.foldl (fun s l =>
            let mine := es.filter (fun e => e.1 / 128 * 128 == l)
            match wo.ok.find? (fun x => x.1 == l) with
            | some (_, .loc p, _) => lineReduce s slot p (mine.map (fun e => (e.1 % 128 / 4, e.2.1))) (mine.any (fun e => e.2.2))
            | _ => s) s3
          copyDone s4 c lines.length (lowMark rs ls))

end Sys2Proof.Machine
end

