-- ==== Sys2Proof/Machine/FabCmd.lean ====
section
/-!
DEFINITION. Fabric engine commands (R354): PUT with anchors (R420, R422), RFENCE (R421), ALLREDUCE (R425 to R427),
SCATTER (R428).
-/
namespace Sys2Proof.Machine

/-- The action of a fabric engine row: it may come back until the command's end is decided. -/
def onFx (q serial opc : Nat) (s : State) (f : Cmd → State) : Out :=
  .next (match cmd? s q serial with
  | none => s
  | some c => if engRuns s c.eng && c.opc = opc && c.stage = .running && c.res.isNone && c.killed.isNone && c.eng < 40 then f c else s)

/-- R404: the form of a global address. -/
def gForm (g : Nat) : Bool := bits g 63 60 = 8 && g < 2 ^ 64
/-- A global address names this device. -/
def gHere (s : State) (g : Nat) : Bool := gDev g = myDev s

/-- One request of a command is sent and noted. -/
def sendFor (s : State) (c : Cmd) (k : Packet) : State :=
  let id := s.nextReq
  modCmd (sendReq s k (.cmd c.q c.serial)) c.q c.serial (fun c => { c with reqs := c.reqs ++ [id] })

/-- Bytes for a global address, one WRITE packet a line: `src` gives the bytes and the mark of a run of the source. -/
def sendBytes (s : State) (c : Cmd) (stream txg flags g n : Nat) (src : Nat → Nat → List Nat × Bool) : State :=
  (linesOf (gAddr g) n).foldl (fun s l =>
    let a := if l < gAddr g then gAddr g else l
    let z := if l + 128 > gAddr g + n then gAddr g + n else l + 128
    let (bs, m) := src (a - gAddr g) (z - a)
    sendFor s c { pktWrite (gDev g) c.space l stream (bs.mapIdx (fun i b => (a % 128 + i, b))) m with txg := txg, flags := flags }) s

/-- A local line of a PUT or SCATTER (R404), as a copy engine writes it. -/
def putLocal (s : State) (c : Cmd) (txg : Nat) (wo : XOut) (va n : Nat) (src : Nat → Nat → List Nat × Bool) : State :=
  (linesOf va n).foldl (fun s l =>
    let a := if l < va then va else l
    let z := if l + 128 > va + n then va + n else l + 128
    let (bs, m) := src (a - va) (z - a)
    match wo.ok.find? (fun x => x.1 == l) with
    | some (_, d, _) => putLine s c txg d (bs.mapIdx (fun i b => (a % 128 + i, (b, 255)))) m
    | none => s) s

/-- Every request of a command has been accepted by a port, or has ended. -/
def allSent (s : State) (ids : List Nat) : Bool :=
  ids.all (fun i => match req? s i with
    | some r => r.sent || r.res.isSome
    | none => true)

/-- PUT with EARLY_ACK: the packets are no longer waited for (R420). -/
def letGo (s : State) (c : Cmd) : State :=
  let open_ := c.reqs.filter (fun i => (reqRes s i).isNone)
  modCmd { s with reqs := s.reqs.map (fun r => if open_.contains r.id then { r with early := true } else r) } c.q c.serial
    (fun c => { c with reqs := c.reqs.filter (fun i => !open_.contains i) })

/-- The anchor of a PUT whose DST names this device (R404, R422): the commit, then the signal. -/
def localAnchor (s : State) (c : Cmd) : State :=
  let h := c.n8 0x28
  let t := txgAt s (hIx h)
  let ctr := c.n8 0x38
  let signal (s : State) : State :=
    if ctr = 0 then done s c csComplete 0
    else
      let (o, s1) := ctrXlate s c (gAddr ctr) .rmw
      if xoutHeld s1 o then s
      else match o.ok with
      | (_, .loc p, _) :: _ => done (lineSignal s1 (spaceSlot s1 c.die c.space) p (c.n8 0x40)) c csComplete 0
      | (_, .rem g, _) :: _ =>
        done (sendFor s1 c { pktTo (packet0 pkSignal 0 c.space 0) g with stream := strCmd c.eng, operand := c.n8 0x40 }) c csComplete 0
      | _ => faulted (countXltFault s1 c.die o) c o .rmw
  if h = 0 || c.stageNo = 3 && t.ended = some 0 then signal s
  else if c.stageNo = 3 then (if t.ended.isSome then done s c csRemErr 0 else s)
  else if (handleCheck s c.space h).isSome || t.st ≠ .opened then done s c csRemErr 0
  else modCmd (commitStart s (hIx h) none true) c.q c.serial (fun c => { c with stageNo := 3 })

/-- PUT: data packets first, then the anchor once a port has accepted every one of them. Every address that the command uses on
this device translates before its first access (R263). -/
def execPut (q serial : Nat) (s : State) : Out :=
  onFx q serial 0x30 s (fun c =>
    let g := c.n8 0x18
    let n := c.n8 0x20
    let st := c.n4 0x30
    let ctr := c.n8 0x38
    let stream := strPut c.eng (bits st 5 0)
    let anchor := st.testBit 8
    let early := st.testBit 9
    match c.stageNo with
    | 0 =>
      if !gForm g || (anchor && ctr ≠ 0 && (!gForm ctr || gDev ctr ≠ gDev g || gAddr ctr % 8 ≠ 0)) || gAddr g + n > 2 ^ 48 then done s c csField 0
      else match c.ref 0x10 with
      | none => done s c csField 0
      | some a =>
        let local_ := gHere s g
        let (ro, s0) := translateRuns s c.ag c.die c.space .read false [(a, n)]
        let (wo, s1) := if local_ then translateRuns s0 c.ag c.die c.space .write false [(gAddr g, n)] else ({}, s0)
        let (co, s1) := if local_ && anchor && ctr ≠ 0 then ctrXlate s1 c (gAddr ctr) .rmw else ({}, s1)
        match joinFails [(ro, .read), (wo, .write), (co, .rmw)] with
        | some (o, a) => faulted (countXltFault s1 c.die o) c o a
        | none =>
        if xoutHeld s1 wo then s
        else match gotLines s1 c ro with
        | .wait s2 => s2
        | .fail o s2 => faulted s2 c o .read
        | .got ls s2 =>
          let src (o k : Nat) : List Nat × Bool := (gotBytes ls (a + o) k, gotMarkAt ls (a + o) k)
          let lines := (linesOf (gAddr g) n).length
          let s3 := if local_ then putLocal s2 c (c.n8 0x28) wo (gAddr g) n src
            else sendBytes s2 c stream (c.n8 0x28) (if early then flEarly else 0) g n src
          modCmd s3 q serial (fun c => { c with stageNo := if local_ then 2 else 1, count := lines })
    | 1 =>
      if !allSent s c.reqs then s
      else
        let s1 := if early then letGo s c else s
        if anchor then
          done (sendFor s1 c { packet0 pkAnchor (gDev g) c.space (if ctr = 0 then 0 else gAddr ctr) with
            stream := stream, txg := c.n8 0x28, operand := c.n8 0x40, flags := flAnchor }) c csComplete 0
        else done s1 c csComplete 0
    | _ => if anchor then localAnchor s c else done s c csComplete 0)

/-- RFENCE: every packet sent earlier on the stream has been answered (R421). -/
def execRfence (q serial : Nat) (s : State) : Out :=
  onFx q serial 0x31 s (fun c =>
    let stream := strPut c.eng (bits (c.n4 0x10) 5 0)
    let mark := if c.stageNo = 0 then s.nextReq else tgetD c.aux 0 0
    let s1 := modCmd s q serial (fun c => { c with stageNo := 1, aux := [(0, mark)] })
    if s.reqs.any (fun r => r.k.stream == stream && pktStreamed r.k && r.id < mark && r.res.isNone) then s1
    else
      let e := tgetD s.strErr stream 0
      done { s1 with strErr := tdel s1.strErr stream } c (if e.testBit 1 then csLost else if e.testBit 0 then csRemErr else csComplete) 0)

/-! ALLREDUCE. -/

/-- The member list of R425 is well formed for this device. -/
def listOk (s : State) (bs : List Nat) (lines : Nat) : Bool :=
  let n := leAt4 bs 4
  let ms := (List.range 16).map (fun i => leAt bs (0x10 + 2 * i) 2)
  let act := ms.take n
  2 ≤ n && n ≤ 16 && leAt8 bs 8 == 0 && ms.all (· < 4096) && (ms.drop n).all (· == 0) && n ≤ lines &&
    decide (act.eraseDups.length = n) && act.all (fun d => d / 16 == myDev s / 16) && act.contains (myDev s)

/-- The 32 FP32 elements of a line of the buffer. -/
def bufLine (ls : List (Nat × List Nat × Bool)) (buf i : Nat) : List Nat :=
  (List.range 32).map (fun k => leAt4 (gotBytes ls (buf + 128 * i + 4 * k) 4) 0)

/-- ALLREDUCE starts: its checks, then every shard of another member goes to it as REDUCE (R426 step 1). -/
def execAllreduce (q serial : Nat) (s : State) : Out :=
  onFx q serial 0x32 s (fun c =>
    let cnt := c.n8 0x18
    match c.ref 0x10, c.ref 0x28, c.stageNo with
    | some buf, some lst, 0 =>
      (match cmdLines s c .read [(lst, 48)] with
       | .wait s1 => s1
       | .fail o s1 => faulted s1 c o .read
       | .got ll s1 =>
         let bs := gotBytes ll lst 48
         if bits (c.n4 0x20) 4 0 ≠ 0 || cnt % 32 ≠ 0 || !listOk s1 bs (cnt / 32) then done s1 c csField 0
         else
           let (wo, s2) := translateRuns s1 c.ag c.die c.space .rmw false [(buf, 4 * cnt)]
           if !wo.fails.isEmpty then
             (if (wo.fails.map (·.2)).all (· == cPermMirror) then done s2 c csField 0 else faulted (countXltFault s2 c.die wo) c wo .rmw)
           else if wo.ok.any (fun x => match x.2.1 with
             | .loc _ => false
             | _ => true) then done s2 c csField 0
           else if xoutHeld s2 wo then s
           else match gotLines s2 c wo with
           | .wait s3 => s3
           | .fail _ s3 => s3
           | .got ls s3 =>
             let n := leAt4 bs 4
             let ms := (List.range n).map (fun i => leAt bs (0x10 + 2 * i) 2)
             let me := (ms.findIdx? (· == myDev s)).getD 0
             let aux : Tab Nat := [(0, leAt4 bs 0), (1, n), (2, me), (3, cnt), (4, buf), (5, 0), (6, 0)] ++ ms.mapIdx (fun i d => (16 + i, d))
             let c1 := { c with aux := aux, stageNo := 1 }
             let s4 := modCmd { s3 with collGone := s3.collGone.filter (· ≠ leAt4 bs 0) } q serial (fun _ => c1)
             ((List.range n).filter (· ≠ me)).foldl (fun s j =>
               (rangeFrom (c1.shard j) (c1.shardLen j)).foldl (fun s i =>
                 let s := modCmd s q serial (fun c => { c with count := c.count + 1 })
                 sendFor s c1 { packet0 pkReduce (ms.getD j 0) c.space i with
                   stream := strAllreduce c.eng, txg := leAt4 bs 0 + 2 ^ 32 * cnt, operand := me + 16 * (n % 16)
                   data := bufLine ls buf i, mark := gotMarkAt ls (buf + 128 * i) 128 }) s) s4)
    | _, _, 0 => done s c csField 0
    | _, _, _ => s)

/-- ALLREDUCE_GATHER: every other member's REDUCE lines have landed; the own shard's sums go to every member (R426 step 2). -/
def execAllreduceGather (q serial : Nat) (s : State) : Out :=
  onFx q serial 0x32 s (fun c =>
    let me := c.ar 2
    if c.stageNo ≠ 1 || c.ar 5 < (c.ar 1 - 1) * c.shardLen me then s
    else match cmdLines s c .read [(c.ar 4 + 128 * c.shard me, 128 * c.shardLen me)] with
    | .wait s1 => s1
    | .fail o s1 => faulted s1 c o .read
    | .got ls s1 =>
      let s2 := modCmd s1 q serial (fun c => { c with stageNo := 2 })
      ((List.range (c.ar 1)).filter (· ≠ me)).foldl (fun s j =>
        (rangeFrom (c.shard me) (c.shardLen me)).foldl (fun s i =>
          let s := modCmd s q serial (fun c => { c with count := c.count + 1 })
          sendFor s c { packet0 pkGather (c.ar (16 + j)) c.space i with
            stream := strAllreduce c.eng, txg := c.ar 0 + 2 ^ 32 * c.ar 3, operand := me + 16 * (c.ar 1 % 16)
            mask := 2 ^ 128 - 1, data := gotBytes ls (c.ar 4 + 128 * i) 128, mark := gotMarkAt ls (c.ar 4 + 128 * i) 128 }) s) s2)

/-! SCATTER. -/

/-- Where a row goes: its global address, or none when it is skipped. -/
def rowDest (tls : List (Nat × List Nat × Bool)) (tab ix rb : Nat) : Option Nat :=
  if ix = 0xFFFF_FFFF then none
  else
    let e := gotBytes tls (tab + 16 * bits ix 11 0) 16
    if leAt4 e 12 % 2 = 0 || bits ix 31 12 ≥ leAt4 e 8 then none else some (leAt8 e 0 + bits ix 31 12 * rb)

/-- SCATTER (R428). -/
def execScatter (q serial : Nat) (s : State) : Out :=
  onCmd q serial 0x33 s (fun c =>
    let rows := c.n4 0x28
    let rb := c.n4 0x2C
    if rb % 16 ≠ 0 || rb < 16 || rb > 65536 then done s c csField 0
    else match c.ref 0x10, c.ref 0x18, c.ref 0x20 with
    | some src, some lst, some tab =>
      (match cmdLines s c .read [(lst, 4 * rows)] with
       | .wait s1 => s1
       | .fail o s1 => faulted s1 c o .read
       | .got il s1 =>
         let ixs := (List.range rows).map (fun r => leAt4 (gotBytes il (lst + 4 * r) 4) 0)
         let tl := (((ixs.filter (· ≠ 0xFFFF_FFFF)).map (fun ix => (tab + 16 * bits ix 11 0, 16)))).eraseDups
         match cmdLines s1 c .read tl with
         | .wait s2 => s2
         | .fail o s2 => faulted s2 c o .read
         | .got tls s2 =>
           let ds := ixs.mapIdx (fun r ix => (r, rowDest tls tab ix rb))
           let go := ds.filterMap (fun d => d.2.map (fun g => (d.1, g)))
           if go.any (fun d => !gForm d.2) then done s2 c csField 0
           else match cmdLines s2 c .read (go.map (fun d => (src + d.1 * rb, rb))) with
           | .wait s3 => s3
           | .fail o s3 => faulted s3 c o .read
           | .got ls s3 =>
             let here := go.filter (fun d => gHere s3 d.2)
             let (wo, s4) := translateRuns s3 c.ag c.die c.space .write false (here.map (fun d => (gAddr d.2, rb)))
             if !wo.fails.isEmpty then faulted (countXltFault s4 c.die wo) c wo .write
             else if xoutHeld s4 wo then s
             else
               let s5 := go.foldl (fun s d =>
                 let src (o k : Nat) : List Nat × Bool := (gotBytes ls (src + d.1 * rb + o) k, gotMarkAt ls (src + d.1 * rb + o) k)
                 let s := modCmd s q serial (fun c => { c with count := c.count + (linesOf (gAddr d.2) rb).length })
                 if gHere s d.2 then putLocal s c 0 wo (gAddr d.2) rb src
                 else sendBytes s c (strScatter c.eng) 0 0 d.2 rb src) s4
               done s5 c csComplete (go.length + 2 ^ 32 * (rows - go.length)))
    | _, _, _ => done s c csField 0)

end Sys2Proof.Machine
end

