-- ==== Sys2Proof/Machine/Mgmt.lean ====
section
/-!
DEFINITION. Management commands (R355, R356): queues, aborts (R364 to R366), contexts (R324), spaces (R252, R253),
shootdown (R265, R266), destruction (R367 to R369), retirement (R373 to R375), handles (R370, R371), PREEMPT (R379).
-/
namespace Sys2Proof.Machine

/-! Long operations of the management engine (R50, R51, R355). -/

/-- The word of BLK_PROG for a position. -/
def progWord (value result : Nat) : Nat := value % 2 ^ 24 + 2 * 2 ^ 24 + result * 2 ^ 28

/-- Operations of an engine started since one of serial `ser`. -/
def opAge (s : State) (e ser : Nat) : Nat := ((tgetD s.engs e {}).ops + 65536 - ser) % 65536

/-- The oldest unfinished operation of a management engine: the one started first. -/
def oldestOp (s : State) (e : Nat) : Option OpRec :=
  let os := ((engCmds s e).filter (fun c => c.res.isNone)).filterMap (·.op)
  match os with
  | [] => none
  | o :: t => some (t.foldl (fun b x => if opAge s e x.ser > opAge s e b.ser then x else b) o)

/-- The ME page shows the oldest operation that is unfinished (R50). -/
def meShow (s : State) (e : Nat) : State :=
  match oldestOp s e with
  | some o =>
    modBlk s (pgEng e) (fun b => { b with opRun := true, progVal := o.value, progKind := 2, progRes := 0, progOpc := o.opc, progSer := o.ser })
  | none => s

/-- The progress pair goes to PROG in one line operation, when PROG names an address that translates. -/
def progPair (s : State) (c : Cmd) (o : OpRec) (result : Nat) : State :=
  let p := c.n8 0x10
  if p = 0 then s
  else (writeLate s c.ag c.die 0 p (toBytes 4 (progWord o.value result) ++ toBytes 4 (o.opc + 65536 * o.ser)) (strCmd c.eng)).2

/-- A long operation of `items` items starts. No rule says which path has started an operation that a queue's command begins (R44): the
model's has none, so that a CANCEL_OP of it from the host window reads NOT_PERMITTED (DESIGN CHOICE). -/
def opBegin (s : State) (c : Cmd) (items : Nat) : State :=
  let x := tgetD s.engs c.eng {}
  let ser := (x.ops + 1) % 65536
  let s1 := { s with engs := tput s.engs c.eng { x with ops := ser } }
  meShow (modCmd s1 c.q c.serial (fun c => { c with op := some ⟨c.opc, ser, 0, items⟩, ran := true })) c.eng

/-- An engine that has FAILED runs no operation: its page has ended the one it showed (R39, R51). -/
def engDead (s : State) (e : Nat) : Bool := (blk s (pgEng e)).st.silent

/-- The progress value changes (R355). -/
def opStep (s : State) (q n value : Nat) : State :=
  match cmd? s q n with
  | some c => match c.op with
    | some o =>
      if value ≤ o.value || engDead s c.eng then s
      else
        let o1 := { o with value := value }
        meShow (progPair (modCmd s q n (fun c => { c with op := some o1 })) c o1 0) c.eng
    | none => s
  | none => s

/-- The operation ends once with RESULT, which the pair shows too; INFO [31:0] of the record holds the final BLK_PROG. -/
def opFinish (s : State) (q n status result : Nat) : State :=
  match cmd? s q n with
  | some c => match c.op with
    | some o =>
      if c.res.isSome || engDead s c.eng then s
      else
        let s1 := modCmd (progPair s c o result) q n (fun c => Cmd.finish c status (progWord o.value result))
        let s2 := modBlk s1 (pgEng c.eng) (fun b =>
          { b with opRun := false, progVal := o.value, progKind := 2, progRes := result, progOpc := o.opc, progSer := o.ser })
        let s3 := meShow s2 c.eng
        if result = 2 || result = 4 then errSet s3 (pgEng c.eng) errOpFailed 0 else s3
    | none => endCmd s q n status 0
  | none => s

/-- The present value of the operation. -/
def Cmd.opVal (c : Cmd) : Nat := (c.op.map (·.value)).getD 0

/-! Queues. -/

/-- R327: fields of a descriptor image in range. -/
def qimgOk (img : List Nat) : Bool :=
  let allow : Nat := 0xFFFFFF7F + 2 ^ 32 * 0xFFF + 2 ^ 64 * (2 ^ 64 - 1) + 2 ^ 128 * 0x1F + 2 ^ 160 * 0x7FFFF + 2 ^ 192 * (2 ^ 32 - 1) +
    2 ^ 224 * 0xFF03 + 2 ^ 256 * (2 ^ 64 - 1) + 2 ^ 320 * 0xFF + 2 ^ 352 * (2 ^ 32 - 1)
  let n := ofBytes (img.take 64)
  Nat.land n allow == n && leAt8 img 8 % 4096 == 0 && 4 ≤ leAt4 img 0x10 && leAt4 img 0x10 ≤ 16 && bits (leAt4 img 0x14) 17 16 ≠ 3

/-- Queues bound to an engine (ENG_QUEUES.BOUND). -/
def boundTo (s : State) (e : Nat) : List Nat := (s.queues.map (·.1)).filter (fun q => qState s q ≠ 0 && qEng s q = some e)

/-- ME queues belong to AS0 only (R329). -/
def engAllowed (code space : Nat) : Bool := (engOfCode code).isSome && (bits code 7 6 ≠ 3 || space = 0)

/-- The ENGINE codes of a class on some dies. -/
def codesOf (cls dies : Nat) : List Nat :=
  ((List.range 16).map (fun i => 64 * cls + i)).filter (fun c => match engOfCode c with
    | some e => dies = 0 || dies.testBit (engDie e)
    | none => false)

/-- QUEUE_CREATE: firmware's choices, of a queue and of an engine of the image's class, are free values. -/
def execQueueCreate (q serial : Nat) (s : State) : Out :=
  onMe q serial 0x80 s (fun c =>
    let img := c.body.drop 0x40
    let want := c.n4 0x18
    let st := leAt4 img 0
    let (f, s1) := if want = 0xFFFF_FFFF then takeFree s else (0, s)
    let frees := (List.range 16384).filter (fun x => qState s x = 0)
    let nq := if want = 0xFFFF_FFFF then frees[f % frees.length]? else if want < 16384 && qState s want = 0 then some want else none
    let code0 := bits (c.n4 0x1C) 7 0
    let (h, s2) := if code0 = 0xFF then takeFree s1 else (0, s1)
    let cands := codesOf (bits st 15 14) (bits (c.n4 0x20) 3 0)
    let code := if code0 = 0xFF then cands[h % cands.length]? else some code0
    match nq, code with
    | some n, some code =>
      if !qimgOk img || !engAllowed code (bits (leAt4 img 4) 11 0) then done s c csField 0
      else
        let word0 := 1 + bits st 6 4 * 16 + code * 256 + bits st 31 16 * 65536
        let bs := toBytes 4 word0 ++ (img.drop 4).take 20 ++ zeros 4 ++ (img.drop 0x1C).take 12 ++ zeros 8 ++ zeros 80
        let s3 := physWrite s2 255 (qdAddr s2 n) bs
        done (setQlive s3 n {}) c csComplete n
    | _, _ => done s c csField 0)

/-- QUEUE_SET: the fields of the words of the mask. -/
def execQueueSet (q serial : Nat) (s : State) : Out :=
  onMe q serial 0x81 s (fun c =>
    let n := c.n4 0x18
    let mask := bits (c.n4 0x1C) 7 0
    let img := c.body.drop 0x40
    let st := qState s n
    if n ≥ 16384 || st = 0 || st = 5 || mask ≥ 64 then done s c csField 0
    else
      let cur := readPhys s 255 (qdAddr s n) 64
      let word (k : Nat) : List Nat := if mask.testBit k then (img.drop (8 * k)).take 8 else (cur.drop (8 * k)).take 8
      let new := (word 0 ++ word 1 ++ word 2 ++ (cur.drop 0x18).take 4 ++ (word 3).drop 4 ++ word 4 ++ (cur.drop 0x28).take 24)
      let w0 := leAt4 cur 0
      let n0 := leAt4 new 0
      let code := bits n0 15 8
      let chk := toBytes 4 (setBits (setBits n0 3 0 0) 31 16 (bits n0 31 16)) ++ new.drop 4
      let moved := code ≠ bits w0 15 8 || leAt8 new 8 ≠ leAt8 cur 8 || leAt4 new 0x10 ≠ leAt4 cur 0x10 || leAt8 new 0x20 ≠ leAt8 cur 0x20
      if bits n0 31 16 ≠ bits w0 31 16 || leAt4 new 4 ≠ leAt4 cur 4 || !qimgOk chk || (moved && st ≠ 3) ||
          !engAllowed code (bits (leAt4 cur 4) 11 0) then done s c csField 0
      else
        let out := toBytes 4 (setBits n0 3 0 (bits w0 3 0)) ++ new.drop 4
        let s1 := physWrite s 255 (qdAddr s n) out
        let e := (engOfCode code).getD 0
        let s2 := { s1 with cmds := s1.cmds.map (fun x => if x.q = n && !inExec x then { x with eng := e } else x) }
        done (if moved then dropVirt s2 (agEng ((engOfCode (bits w0 15 8)).getD 0)) else s2) c csComplete 0)

/-- QUEUE_STOP: a long operation until STOPPED (R328, R369). -/
def execQueueStop (q serial : Nat) (s : State) : Out :=
  onMe q serial 0x82 s (fun c =>
    let n := c.n4 0x18
    let st := qState s n
    if c.op.isNone then
      (if n ≥ 16384 || st = 0 || st = 4 || st = 5 then done s c csField 0
       else
         let s1 := opBegin s c 1
         if st = 1 then queueIdleCheck (setQState s1 n 2) n else s1)
    else if st = 3 || st = 4 then opFinish (opStep s q serial 1) q serial csComplete 1
    else if st = 5 || st = 0 then
      modCmd (opFinish s q serial csAborted 3) q serial (fun c => { c with res := some (csAborted, 0x41, []) })
    else s)

/-- QUEUE_START (R328): ACTIVE again; SKIP drops the commands not fetched. -/
def execQueueStart (q serial : Nat) (s : State) : Out :=
  onMe q serial 0x83 s (fun c =>
    let n := c.n4 0x18
    let st := qState s n
    if n ≥ 16384 || (st ≠ 3 && st ≠ 4) then done s c csField 0
    else
      let s1 := setQd (setQState s n 1) n 0x28 4 0
      let s2 := if (c.n4 0x1C).testBit 0 then
          let x := qlive s1 n
          dropVirt (setQlive (setQd s1 n 0x18 4 x.latch) n { x with seen := x.latch, pend := false }) (agEng ((qEng s n).getD 0))
        else s1
      done s2 c csComplete 0)

/-- Fetched commands of a queue that never start are gone, and what its engine had asked for of its ring. -/
def dropFetched (s : State) (n : Nat) : State :=
  let s1 := { s with cmds := s.cmds.filter (fun x => !(x.q == n && !inExec x)) }
  match qEng s n with
  | some e => dropVirt s1 (agEng e)
  | none => s1

/-- QUEUE_DESTROY steps 1 and 2 (R367). -/
def execQueueDestroy (q serial : Nat) (s : State) : Out :=
  onMe q serial 0x84 s (fun c =>
    let n := c.n4 0x18
    let st := qState s n
    if c.op.isSome then s
    else if n ≥ 16384 || n < 4 || st = 0 || st = 5 then done s c csField 0
    else
      let s1 := opBegin (setQState s n 5) c 5
      let s2 := askKills (dropFetched s1 n) n 0x41
      opStep s2 q serial 1)

/-- No tile of the die holds a workgroup, and no engine of it a command, of a selection. -/
def dieQuiet (s : State) (d : Nat) (wgSel : Wg → Bool) (cmdSel : Cmd → Bool) : Bool :=
  s.tiles.all (fun t => tileDie t.1 ≠ d || t.2.wgs.all (fun w => !wgSel w.2)) && s.cmds.all (fun x => x.die ≠ d || !cmdSel x)

/-- The open transaction groups of a selection on a die abort with TXG_LEFT (R304, R321). -/
def leaveTxgs (s : State) (d : Nat) (sel : Txg → Bool) : State :=
  (rangeFrom (64 * d) 64).foldl (fun s i => if sel (txgAt s i) then txgAbort s i 6 else s) s

/-- A transaction group of a selection on a die is committing: its end is not decided. -/
def committing (s : State) (d : Nat) (sel : Txg → Bool) : Bool :=
  (rangeFrom (64 * d) 64).any (fun i => (txgAt s i).st == .committing && sel (txgAt s i))

/-- DESTROY_DIE_ACK: a die has nothing of the queue left; its watches end WATCH_LEFT and its open TXGs abort, which
the flags of the record show (R304, R337). With the last acknowledgement the queue is FREE (R367 steps 3 to 5). -/
def execDestroyDieAck (n d : Nat) (s : State) : Out :=
  .next (match s.cmds.find? (fun c => c.opc == 0x84 && c.op.isSome && c.res.isNone && c.n4 0x18 == n) with
  | none => s
  | some c =>
    if d ≥ 4 || c.acks.contains d || !dieQuiet s d (fun w => w.launch.queue == n) (fun x => x.q == n) || committing s d (fun t => t.queue == n) then s
    else
      let (left, s1) := endWatchesOn s d (fun w => w.ofQueue n) 3
      let open_ := (rangeFrom (64 * d) 64).any (fun i => let t := txgAt s i; t.st == .opened && t.queue == n)
      let fl := (if left > 0 then 2 ^ 16 else 0) + (if open_ then 2 ^ 17 else 0)
      let s2 := leaveTxgs s1 d (fun t => t.queue == n)
      let s3 := modCmd s2 c.q c.serial (fun c => { c with acks := c.acks ++ [d], flags := Nat.lor c.flags fl })
      let s4 := opStep s3 c.q c.serial (c.acks.length + 2)
      if c.acks.length < 3 then s4
      else
        let s5 := dropEnded s4 (fun w => match w.kind with
          | .queue q' _ => q' == n
          | _ => false)
        let s6 := setQd (setQd (setQd (setQState s5 n 0) n 0x18 4 0) n 0x28 4 0) n 0x2C 4 0
        opFinish { s6 with queues := tdel s6.queues n } c.q c.serial csComplete 1)

/-! OP_ABORT (R364 to R366). -/

def execOpAbort (q serial : Nat) (s : State) : Out :=
  onMe q serial 0x85 s (fun c =>
    let n := c.n4 0x18
    let k := c.n4 0x1C
    if c.ran then s
    else if n ≥ 16384 || qState s n = 0 then done s c csField 0
    else if (qdN s n 0x18 4 + 2 ^ 32 - k) % 2 ^ 32 ≥ 2 ^ 31 then done s c csField 0
    else match cmd? s n k with
    | none => if bits (qdN s n 0 4) 15 14 = 3 then done s c csField 0 else done s c csAlready 0
    | some t =>
      if t.eng ≥ 40 && t.opc ≠ 0x92 then done s c csField 0
      else if t.ending.isSome then done s c csAlready 0
      else if t.asked.isSome || t.killed.isSome then
        (if inExec t then modCmd s q serial (fun c => { c with ran := true, aux := [(n, k)], stageNo := 1 }) else done s c csAlready 0)
      else if !inExec t then done (modCmd s n k (fun t => { t with asked := some 0x40 })) c csComplete 0
      else modCmd (modCmd s n k (fun t => { t with asked := some 0x40 })) q serial (fun c => { c with ran := true, aux := [(n, k)] }))

/-! Contexts (R324). -/

def execCtxBind (q serial : Nat) (s : State) : Out :=
  onMe q serial 0x86 s (fun c =>
    let tag := bits (c.n4 0x18) 15 0
    if tag = 0 then done s c csField 0 else done (setCtxEntry s tag (bits (c.n4 0x1C) 11 0 + 2 ^ 31)) c csComplete 0)

def execCtxUnbind (q serial : Nat) (s : State) : Out :=
  onMe q serial 0x87 s (fun c =>
    let tag := bits (c.n4 0x18) 15 0
    let ent := ctxEntry s tag
    if tag = 0 || !ent.testBit 31 || bits ent 11 0 ≠ bits (c.n4 0x1C) 11 0 then done s c csField 0
    else done (setCtxEntry s tag 0) c csComplete 0)

/-! Spaces. -/

/-- R252, R339, R356: a descriptor image; KEY_EMPTY for a slot that holds no key (R246). -/
def simgCheck (s : State) (img : List Nat) : Option Nat :=
  let n := ofBytes (img.take 64)
  let allow : Nat := 0x1FF03 + 2 ^ 32 * 0x1FFFF + 2 ^ 64 * (2 ^ 40 - 1) + 2 ^ 128 * 0x1FFFF + 2 ^ 192 * (2 ^ 40 - 1) +
    2 ^ 256 * (2 ^ 40 - 1) + 2 ^ 320 * 0x1FFFFF
  let key := bits n 15 8
  if Nat.land n allow ≠ n || leAt4 img 4 > 65536 || leAt4 img 0x10 > 65536 || leAt8 img 8 % 128 ≠ 0 || leAt8 img 0x18 % 128 ≠ 0 ||
      leAt8 img 0x20 % 128 ≠ 0 || leAt4 img 0x28 > 1048576 || key = 255 then some csField
  else if key ≠ 0 && !thas s.keys key then some csKeyEmpty
  else none

/-- A space descriptor is written, state and table in use as given. -/
def putSpace (s : State) (c : Cmd) (sp st act : Nat) (img : List Nat) : State :=
  physWrite s 255 (sdAddr s c.die sp) (toBytes 4 (setBits (setBits (leAt4 img 0) 1 0 st) 16 16 act) ++ (img.drop 4).take 60)

def setSpaceState (s : State) (c : Cmd) (sp st : Nat) : State :=
  lineWriteN s 255 (sdAddr s c.die sp) 4 (setBits (sdWord s c.die sp 0 4) 1 0 st)

/-- Lines tagged with a key slot leave the L2; the dirty ones are written back (R247, R248). -/
def l2Flush (s0 : State) (slot : Nat) : State :=
  let s := s0.l2.foldl (fun s x => (x.2.lines.filter (fun l => l.2.slot = slot)).foldl (fun s l => dropClean s x.2 l.1) s) s0
  { s with l2 := s.l2.map (fun x => (x.1, ({ x.2 with lines := x.2.lines.filter (fun l => l.2.slot ≠ slot) } : L2Slice))) }

def execSpaceCreate (q serial : Nat) (s : State) : Out :=
  onMe q serial 0x88 s (fun c =>
    let sp := c.n4 0x18
    let img := (c.body.drop 0x20).take 64
    if sp ≥ 4096 || spaceState s c.die sp ≠ 0 then done s c csField 0
    else match simgCheck s img with
    | some st => done s c st 0
    | none => done (putSpace s c sp 1 (bits (leAt4 img 0) 16 16) img) c csComplete 0)

/-- SPACE_SET: every field but STATE and ACT; KEY changes only in STOPPED, where nothing is translated, and SPACE_RESTART applies
the change (R253). -/
def execSpaceSet (q serial : Nat) (s : State) : Out :=
  onMe q serial 0x8B s (fun c =>
    let sp := c.n4 0x18
    let img := (c.body.drop 0x20).take 64
    let st := spaceState s c.die sp
    if sp ≥ 4096 || (st ≠ 1 && st ≠ 2) then done s c csField 0
    else match simgCheck s img with
    | some e => done s c e 0
    | none =>
      let old := spaceSlot s c.die sp
      if bits (leAt4 img 0) 15 8 ≠ old && st ≠ 2 then done s c csField 0
      else
        let s1 := putSpace s c sp st (bits (sdWord s c.die sp 0 4) 16 16) img
        done (if bits (leAt4 img 0) 15 8 ≠ old then { s1 with keyDue := s1.keyDue ++ [(sp, old)] } else s1) c csComplete 0)

/-- The lines of a key slot that a space has left are written back and invalidated before the change applies (R248, R253). -/
def applyKeys (s : State) (sp : Nat) : State :=
  let s1 := (s.keyDue.filter (fun k => k.1 == sp)).foldl (fun s k => l2Flush s k.2) s
  { s1 with keyDue := s1.keyDue.filter (fun k => k.1 ≠ sp) }

def execSpaceRestart (q serial : Nat) (s : State) : Out :=
  onMe q serial 0x8C s (fun c =>
    let sp := c.n4 0x18
    if sp ≥ 4096 || spaceState s c.die sp ≠ 2 then done s c csField 0 else done (setSpaceState (applyKeys s sp) c sp 1) c csComplete 0)

/-- The queues of a space that exist. -/
def queuesOf (s : State) (sp : Nat) : List Nat := (s.queues.map (·.1)).filter (fun q => qState s q ≠ 0 && qSpace s q = sp)

/-- SPACE_STOP (R253, R328): fetching stops, resident workgroups park with PREEMPT, and the space is STOPPED once no engine
has a command of it in hand. -/
def execSpaceStop (q serial : Nat) (s : State) : Out :=
  onMe q serial 0x8A s (fun c =>
    let sp := c.n4 0x18
    let parkAll (s : State) : State :=
      s.tiles.foldl (fun s t => t.2.wgs.foldl (fun s w =>
        if w.2.space = sp && w.2.park = .none &&
            !(t.2.groupsOf w.1).all (fun p => p.2.stat == .finished) && !c.aux.contains (t.1, w.1) then
          modCmd (stopWg s t.1 w.1 rPreempt) q serial (fun c => { c with aux := c.aux ++ [(t.1, w.1)] })
        else s) s) s
    if c.op.isNone then
      (if sp ≥ 4096 || spaceState s c.die sp ≠ 1 then done s c csField 0
       else parkAll ((queuesOf s sp).foldl (fun s n => if qState s n = 1 then queueIdleCheck (setQState s n 2) n else s) (opBegin s c 1)))
    else if s.cmds.any (fun x => x.space == sp && inExec x && !(x.q == q && x.serial == serial)) then s
    else opFinish (opStep (setSpaceState s c sp 2) q serial 1) q serial csComplete 1)

/-! Shootdown (R265). -/

/-- The entries of a space that cover frames of a range leave every cache of a die; answers the virtual ranges they map. -/
def dropEntries (s : State) (d sp va len : Nat) : List (Nat × Nat) × State :=
  let onDie (ag : Nat) : Bool := if ag < 1000 then tileDie ag = d else if ag < 2000 then engDie (ag - 1000) = d else if ag < 3000 then ag - 2000 = d else d = 0
  let hit (e : XEntry) : Bool := e.space = sp && e.vbase < va + len && va < e.stop
  let gone := (s.xcache.filter (fun c => onDie c.1)).map (fun c => (c.2.filter hit).map (fun e => (e.vbase, e.stop - e.vbase)))
  (gone.flatten.eraseDups, { s with xcache := s.xcache.map (fun c => (c.1, if onDie c.1 then c.2.filter (fun e => !hit e) else c.2)) })

/-- The virtual ranges that a command reads and writes on this device; the whole space where its data decides them. -/
def Cmd.spans (c : Cmd) : List (Nat × Nat) :=
  let r (o : Nat) : Nat := (c.ref o).getD 0
  match c.opc with
  | 0x01 => [(r 0x10, 8)]
  | 0x02 => [(r 0x10, 8)]
  | 0x03 => [(r 0x10, 8)]
  | 0x20 => [(r 0x10, c.n8 0x38), (r 0x18, c.n8 0x38)]
  | 0x21 => [(r 0x18, c.n8 0x38)]
  | 0x22 => c.readSpans (r 0x10) (r 0x28) ++ c.writeSpans (r 0x18) (r 0x20) (r 0x28)
  | 0x23 => c.readSpans (r 0x10) (r 0x28) ++ [(r 0x18, c.dstLen)]
  | 0x30 => [(r 0x10, c.n8 0x20), (gAddr (c.n8 0x18), c.n8 0x20), (gAddr (c.n8 0x38), 8)]
  | 0x32 => [(r 0x10, 4 * c.n8 0x18), (r 0x28, 48)]
  | _ => [(0, 2 ^ 48)]

/-- A command holds range entries: accesses of it are not answered, or it has read and not yet written. -/
def Cmd.holds (s : State) (c : Cmd) : Bool :=
  !reqsDone s c.reqs || (0x20 ≤ c.opc && c.opc < 0x40 && c.stage == .running && c.res.isNone && (!c.reqs.isEmpty || c.stageNo ≠ 0))

/-- A request that none of a tile's or a command's own parts waits for, and that is not answered: a write that its agent has let
go, a read by virtual address, an access of the memory window. -/
def Req.loose (r : Req) : Bool :=
  r.res.isNone && (match r.owner with
    | .none => pktStreamed r.k || r.k.kind = pkRead
    | .virt _ _ _ => true
    | .park _ _ => true
    | .pref _ _ _ => true
    | .fetch _ _ => true
    | .relay _ => true
    | _ => false)

/-- R265 steps 2 and 3: nothing on the die holds or performs an access under the ranges. -/
def shootDone (s : State) (d sp : Nat) (rs : List (Nat × Nat)) : Bool :=
  let hit (va : Nat) : Bool := rs.any (fun r => r.1 ≤ va && va < r.1 + r.2)
  let span (a : Nat × Nat) : Bool := rs.any (fun r => r.1 < a.1 + a.2 && a.1 < r.1 + r.2)
  let lines (xl : Tab Dest) : Bool := xl.any (fun l => hit (128 * l.1))
  s.tiles.all (fun t => tileDie t.1 ≠ d ||
    (t.2.arr.cmds.all (fun a => a.space ≠ sp || a.stage == .offered || !lines a.xl) &&
     t.2.row.cmds.all (fun a => a.space ≠ sp || a.stage == .offered || !lines a.xl) &&
     t.2.prefs.all (fun p => p.space ≠ sp || !hit p.vline) &&
     (t.2.sb ++ t.2.posted).all (fun e => e.space ≠ sp || !(hit e.vline || e.lanes.any (fun l => hit l.va))) &&
     t.2.groups.all (fun g => ((tget? t.2.wgs g.2.wg).map (·.space)) ≠ some sp || g.2.pend.all (fun p => match p.kind with
       | .load _ _ _ _ ls _ _ _ _ => p.done || !ls.any (fun l => hit l.va)
       | _ => true)))) &&
  s.cmds.all (fun c => c.die ≠ d || c.space ≠ sp || !c.holds s || !c.spans.any span) &&
  s.reqs.all (fun r => r.k.space ≠ sp || !r.loose)

/-- R265 step 4 and R197: the L1 and the statistics cache of every tile of the die that holds a group of the space, and the
space's side lines on every tile. -/
def shootL1 (s : State) (d sp : Nat) : State :=
  s.tiles.foldl (fun s t =>
    if tileDie t.1 ≠ d then s
    else if t.2.wgs.any (fun w => w.2.space == sp) then
      modTile (l1Inval s t.1) t.1 (fun x => { x with row := { x.row with scache := [] } })
    else modTile s t.1 (fun x => { x with row := { x.row with scache := x.row.scache.filter (fun l => l.space ≠ sp) } })) s

/-- The first step on every die; the command keeps the ranges that must drain. -/
def shootStart (s : State) (c : Cmd) (sp va len : Nat) : State :=
  (List.range 4).foldl (fun s d =>
    let (rs, s1) := dropEntries s d sp va len
    modCmd s1 c.q c.serial (fun c => { c with aux := (c.aux ++ rs).eraseDups })) (modCmd s c.q c.serial (fun c => { c with aux := [(va, len)] }))

/-- Dies that can finish do, an item each; with the last the operation ends. -/
def shootGo (s0 : State) (c : Cmd) (sp : Nat) : State :=
  let s := s0.tiles.foldl (fun s t => prefSweep s t.1) s0
  let ready := (List.range 4).filter (fun d => !c.acks.contains d && shootDone s d sp c.aux)
  let s1 := ready.foldl (fun s d => shootL1 s d sp) s
  let s2 := modCmd s1 c.q c.serial (fun c => { c with acks := c.acks ++ ready })
  let n := c.acks.length + ready.length
  let s3 := opStep s2 c.q c.serial n
  if n = 4 then opFinish s3 c.q c.serial csComplete 1 else s3

def execShootdown (q serial : Nat) (s : State) : Out :=
  onMe q serial 0x8D s (fun c =>
    let sp := c.n4 0x18
    let (va, len) := if (c.n4 0x1C).testBit 0 then (0, 2 ^ 48) else (c.n8 0x20 * 2 ^ 21, c.n8 0x28 * 2 ^ 21)
    if c.op.isSome then shootGo s c sp
    else if sp ≥ 4096 || va + len > 2 ^ 48 then done s c csField 0
    else shootStart (opBegin s c 4) c sp va len)

/-- SPACE_TABLE: ACT switches, with a shootdown of the whole space (R257, R266). -/
def execSpaceTable (q serial : Nat) (s : State) : Out :=
  onMe q serial 0x89 s (fun c =>
    let sp := c.n4 0x18
    if c.op.isSome then shootGo s c sp
    else if sp ≥ 4096 || (spaceState s c.die sp ≠ 1 && spaceState s c.die sp ≠ 2) then done s c csField 0
    else
      let w := sdWord s c.die sp 0 4
      shootStart (lineWriteN (opBegin s c 4) 255 (sdAddr s c.die sp) 4 (setBits w 16 16 (c.n4 0x1C))) c sp 0 (2 ^ 48))

/-! SPACE_RETIRE (R373, R374). -/

/-- The list of abandoned ranges breaks no rule of R373. -/
def rangesOk (es : List (List Nat)) : Bool :=
  es.all (fun e => leAt8 e 0 % 2 ^ 21 == 0 && leAt8 e 0 < 2 ^ 40 && 1 ≤ leAt4 e 8 && leAt4 e 8 ≤ 95232 &&
    frameOf (leAt8 e 0) + leAt4 e 8 ≤ 95232 && leAt4 e 12 == 0)

/-- SPACE_RETIRE: its checks, then the space is RETIRING and its queues DESTROYING (stage 1). -/
def execSpaceRetire (q serial : Nat) (s : State) : Out :=
  onMe q serial 0x8E s (fun c =>
    let sp := c.n4 0x18
    let n := c.n4 0x28
    let st := spaceState s c.die sp
    if c.op.isSome then s
    else if sp = 0 || sp ≥ 4096 || (st ≠ 1 && st ≠ 2) || n > 16384 then done s c csField 0
    else match cmdLines s c .read [(c.n8 0x20, 16 * n)] with
    | .wait s1 => s1
    | .fail o s1 => faulted s1 c o .read
    | .got ls s1 =>
      let es := (List.range n).map (fun i => gotBytes ls (c.n8 0x20 + 16 * i) 16)
      if !rangesOk es then done s1 c csField 0
      else
        let s2 := setSpaceState (opBegin s1 c 16) c sp 3
        let s3 := (queuesOf s2 sp).foldl (fun s n => askKills (dropFetched (setQState s n 5) n) n 0x42) s2
        modCmd s3 q serial (fun c => { c with stageNo := 1, aux := es.map (fun e => (leAt8 e 0 / 2 ^ 21, leAt4 e 8)) }))

/-- A watch of the space's own queues and launches, not one that another device registered. -/
def Watch.ofSpace (w : Watch) (sp : Nat) : Bool :=
  w.space = sp && (match w.kind with
    | .rem _ _ => false
    | _ => true)

/-- A QUEUE_DESTROY of a queue is under way. -/
def destroying (s : State) (n : Nat) : Bool := s.cmds.any (fun c => c.opc == 0x84 && c.op.isSome && c.res.isNone && c.n4 0x18 == n)

/-- The end of stage 3: whole-space shootdown, every queue of the space FREE (R374). -/
def retireShoot (s : State) (sp : Nat) : Option State :=
  if !(List.range 4).all (fun d => shootDone s d sp [(0, 2 ^ 48)]) then none
  else
    let s1 := (List.range 4).foldl (fun s d => shootL1 (dropEntries s d sp 0 (2 ^ 48)).2 d sp) s
    some ((queuesOf s1 sp).foldl (fun s n =>
      let s := setQd (setQd (setQd (setQState s n 0) n 0x18 4 0) n 0x28 4 0) n 0x2C 4 0
      { s with queues := tdel s.queues n }) s1)

/-- RETIRE_STAGE: a die finishes the present stage of the retirement of a space; the next stage starts with the last die. -/
def execRetireStage (sp d : Nat) (s : State) : Out :=
  .next (match s.cmds.find? (fun c => c.opc == 0x8E && c.op.isSome && c.res.isNone && c.n4 0x18 == sp) with
  | none => s
  | some c =>
    if d ≥ 4 || c.acks.contains d then s
    else
      let ack (s : State) : State :=
        let s1 := opStep s c.q c.serial (c.opVal + 1)
        if c.acks.length < 3 then modCmd s1 c.q c.serial (fun c => { c with acks := c.acks ++ [d] })
        else modCmd s1 c.q c.serial (fun c => { c with acks := [], stageNo := c.stageNo + 1 })
      match c.stageNo with
      | 1 =>
        let s1 := (endWatchesOn s d (fun w => w.ofSpace sp) 2).2
        ack (leaveTxgs (settleWaits s1) d (fun t => t.space == sp))
      | 2 => if c.aux.any (fun r => r.1 / 2 ^ 17 == d) then s else ack s
      | 3 =>
        if !dieQuiet s d (fun w => w.space == sp) (fun x => x.space == sp) then s
        else if c.acks.length < 3 then ack s
        else if (queuesOf s sp).any (destroying s) then s
        else (match retireShoot (dropEnded s (fun w => w.ofSpace sp)) sp with
          | none => s
          | some s1 => ack s1)
      | _ =>
        if c.acks.length < 3 then ack s
        else
          let s1 := setSpaceState (ack s) c sp 0
          let a := sdAddr s1 c.die sp
          let s2 := physWrite (lineWriteN (lineWriteN s1 255 (a + 4) 4 0) 255 (a + 0x10) 4 0) 255 (a + 0x20) (zeros 32)
          opFinish s2 c.q c.serial csComplete 1)

/-! HANDLE_FREE (R370, R371). -/

def execHandleFree (q serial : Nat) (s : State) : Out :=
  onMe q serial 0x8F s (fun c =>
    let sp := c.n4 0x18
    let h := c.n4 0x1C
    let idx := bits h 19 0
    let obj := htN s c.die sp idx 0 8
    let use := htN s c.die sp idx 12 4
    match c.op with
    | none =>
      if sp ≥ 4096 then done s c csField 0
      else if idx ≥ htCount s c.die sp then done s c csRange 0
      else if !obj.testBit 63 || use.testBit 24 || bits obj 59 48 ≠ bits h 31 20 then done s c csStale 0
      else
        let n := bits use 23 0
        let s1 := opBegin s c n
        if n = 0 then
          opFinish (lineWriteN s1 tableSlot (htAddr s1 c.die sp idx) 8 (setBits obj 63 63 0)) q serial csComplete 1
        else setUse s1 c.die sp idx (use + 2 ^ 24)
    | some o =>
      if !use.testBit 24 then opFinish (opStep s q serial o.items) q serial csComplete 1
      else opStep s q serial (o.items - bits use 23 0))

/-! ABANDON_CLEAR (R302, R303). -/

def execAbandonClear (q serial : Nat) (s : State) : Out :=
  onMe q serial 0x90 s (fun c =>
    let d := bits (c.n4 0x18) 1 0
    let first := c.n4 0x1C
    let n := c.n4 0x20
    if first + n > 2 ^ 17 then done s c csField 0
    else
      let b := bel s d
      let rs := rangeCut (d * 2 ^ 17 + first) n b.aband
      if rs.length > 16384 then done s c csTableFull 0 else done (setBel s d { b with aband := rs }) c csComplete 0)

/-! PREEMPT (R379): in `aux`, 32 x tile + workgroup of each workgroup to park, and 1 once it has been stopped. -/

def execPreempt (q serial : Nat) (s : State) : Out :=
  onMe q serial 0x91 s (fun c =>
    let code := bits (c.n4 0x18) 7 0
    let cls := bits (c.n4 0x1C) 2 0
    if code ≥ 16 then done s c csField 0
    else
      let mine (w : Wg) : Bool := w.eng = code && w.cls ≤ cls
      let all : List (Nat × Nat) := (s.tiles.map (fun t => (t.2.wgs.filter (fun w => mine w.2 && w.2.park == .none &&
        !(t.2.groupsOf w.1).all (fun p => p.2.stat == .finished))).map (fun w => (32 * t.1 + w.1, 0)))).flatten
      let c1 := if c.ran then c else { c with ran := true, aux := all }
      let s1 := modCmd s q serial (fun _ => c1)
      let step (s : State) (a : Nat × Nat) : State :=
        let t := a.1 / 32
        let w := a.1 % 32
        match wg? s t w with
        | some g =>
          if a.2 = 0 && mine g && g.park = .none && !((tile s t).groupsOf w).any (fun p => p.2.txg.isSome) then
            modCmd (stopWg s t w rPreempt) q serial (fun c => { c with aux := c.aux.map (fun x => if x.1 = a.1 then (x.1, 1) else x) })
          else s
        | none => s
      let s2 := c1.aux.foldl step s1
      let left (a : Nat × Nat) : Bool := match wg? s2 (a.1 / 32) (a.1 % 32) with
        | some g => mine g && (a.2 = 0 || g.park ≠ .none)
        | none => false
      match cmd? s2 q serial with
      | some c2 => if c2.aux.any left then s2 else done s2 c2 csComplete ((c2.aux.filter (fun a => a.2 = 1)).length)
      | none => s2)

end Sys2Proof.Machine
end

