-- ==== Sys2Proof/Machine/Link.lean ====
section
/-!
DEFINITION. Fabric links (R380 to R401), and the host link as one port of the same kind (R438): training, flits, retry,
lane sparing, encryption.
-/
namespace Sys2Proof.Machine

/-! Reasons for DOWN (R400). -/
def dnNoPartner : Nat := 1
def dnTrain : Nat := 2
def dnLanes : Nat := 3
def dnKeyx : Nat := 4
def dnEnc : Nat := 5
def dnAuth : Nat := 6
def dnLos : Nat := 7
def dnStopped : Nat := 8
def dnLeft : Nat := 9

def linkReason (s : State) (p : Nat) : Nat := regF s (pgPort p) 0x080 15 8
def rxBad (s : State) (p : Nat) : Nat := regF s (pgPort p) 0x084 8 0
def txBad (s : State) (p : Nat) : Nat := regF s (pgPort p) 0x084 17 9
def encCfg (s : State) (p : Nat) : Bool := p ≠ 18 && regF s (pgPort p) 0x088 0 0 = 1
def encOn (s : State) (p : Nat) : Bool := regF s (pgPort p) 0x080 18 18 = 1

/-- A link error of a port (R401); of these the NHL page has LINK_DOWN alone (R450). -/
def portErr (s : State) (p bit addr : Nat) : State :=
  if p = 18 then (if bit = 10 then errSet s pgNhl 11 addr else s) else errSet s (pgPort p) bit addr

/-- The lowest `n` physical lanes outside a bad mask, as a mask. -/
def activeLanes (bad n : Nat) : Nat := (((List.range 9).filter (fun i => !bad.testBit i)).take n).foldl (fun m i => m + 2 ^ i) 0

/-- R381: the width code that both directions allow: 2 full, 1 half, 0 none. -/
def linkWidth (s : State) (p : Nat) : Nat :=
  let r := 9 - popcount 9 (rxBad s p)
  let t := 9 - popcount 9 (txBad s p)
  let half := regF s (pgPort p) 0x088 3 3 = 1
  if r < 4 || t < 4 then 0 else if r ≥ 8 && t ≥ 8 && !half then 2 else 1

/-- The port's registers show a width; half width sets WIDTH_HALF. -/
def setWidth (s : State) (p w : Nat) : State :=
  let s1 := setRegF s (pgPort p) 0x080 17 16 w
  let s2 := setRegF s1 (pgPort p) 0x084 26 18 (activeLanes (rxBad s p) (if w = 2 then 8 else if w = 1 then 4 else 0))
  if w = 1 then portErr s2 p 9 0 else s2

/-- A packet that its router cannot pass on (R391, R413): the source resends it later, a router on its way answers
ROUTE_FAIL. -/
def handBack (s : State) (k : Packet) (req : Option Nat) : State :=
  match req with
  | some id => modReq s id (fun r => { r with handed := true })
  | none =>
    if k.src = myDev s then holdAnswer s { k with flags := Nat.lor k.flags flResent }
    else if k.kind = pkAck && bits k.sub 7 0 = stRouteFail then s
    else answer s k stRouteFail 0 [] false false

/-- Every flit not acknowledged and every packet that waits at the port goes back to the router (R391). -/
def handAll (s : State) (p : Nat) : State :=
  let x := port s p
  let s1 := setPort s p { x with retry := [], waitq := [], replays := 0, discard := false }
  let s2 := x.retry.foldl (fun s f => match f.pkt with
    | some k => handBack s k f.req
    | none => s) s1
  x.waitq.foldl (fun s w => handBack s w.1 w.2) s2

/-- DOM_QUAR and DOM_QREASON of a port. -/
def setQuar (s : State) (p reason : Nat) : State :=
  let s1 := setRegF s pgDev 0x114 p p (if reason = 0 then 0 else 1)
  setRegF s1 pgDev (0x118 + 4 * (p / 8)) (4 * (p % 8) + 3) (4 * (p % 8)) reason

/-- A port enters DOWN with a reason (R384, R391): it is quarantined no more (R436). -/
def linkDown (s : State) (p reason : Nat) : State :=
  let st := linkState s p
  let trained := st = lkKeyx || st = lkRoll || st = lkUp || st = lkRetrain || st = lkQuar
  let s1 := setRegF (setRegF (setRegF (setLink s p lkDown) (pgPort p) 0x080 15 8 reason) (pgPort p) 0x080 18 16 0) (pgPort p) 0x084 26 18 0
  let s2 := modPort s1 p (fun x => { x with keyx := none, rekey := false, txKey := none, rxKey := none, oldRx := none, nextTx := none, refail := false })
  let s3 := if trained then portErr s2 p 10 reason else s2
  handAll (if st = lkQuar || st = lkRoll then setQuar s3 p 0 else s3) p

/-- The port's page is in service. -/
def portOn (s : State) (p : Nat) : Bool := p < 19 && inService s (pgPort p)
/-- The link of a port that is in service or stopping carries flits, until the device leaves service (R18, R433). -/
def portLive (s : State) (p : Nat) : Bool := p < 19 && !s.leftService && !stalled s (pgPort p) && ((blk s (pgPort p)).st.inService || (blk s (pgPort p)).st == .stopping)

/-! Training (R385). -/

/-- Full training starts. -/
def toTrain (s : State) (p : Nat) : State := bumpF (setLink s p lkTrain) (pgPort p) 0x09C 31 16 1

/-- A cable that has power is read before its port enters DETECT (R548). -/
def cableReady (s : State) (p : Nat) : Bool :=
  match tget? s.cables p with
  | some c => !c.present || !c.power || c.read
  | none => true

/-- Too few lanes (R381); in the full training that follows a failed fast retrain, TRAIN_FAIL (R392). -/
def lanesFail (s : State) (p : Nat) : State := linkDown s p (if (port s p).refail then dnTrain else dnLanes)

def execDetectTimeout (p : Nat) (s : State) : Out :=
  .next (if portOn s p && linkState s p = lkDetect then linkDown s p dnNoPartner else s)

/-- DETECT_RETRY: a port that is DOWN for no training failure looks for a partner again. -/
def execDetectRetry (p : Nat) (s : State) : Out :=
  .next (if portOn s p && cableReady s p && linkState s p = lkDown && [0, dnNoPartner, dnLos, dnLeft].contains (linkReason s p) then setLink s p lkDetect else s)

def execPartnerDetect (p : Nat) (s : State) : Out :=
  .next (if portOn s p && linkState s p = lkDetect then toTrain s p else s)

/-- LANE_LOCK_TIMEOUT: the lane goes into the bad mask; too few lanes leave the port DOWN (R381). -/
def execLaneLockTimeout (p lane : Nat) (s : State) : Out :=
  .next (if portOn s p && linkState s p = lkTrain && lane < 9 then
      let s1 := setRegF s (pgPort p) 0x084 8 0 (Nat.lor (rxBad s p) (2 ^ lane))
      if 9 - popcount 9 (rxBad s1 p) < 4 then lanesFail s1 p else s1
    else s)

/-- TRAIN_RETRY: a port DOWN after a failed training starts again, but not after AUTH_FAIL or ENC_MISMATCH (R385, R398). -/
def execTrainRetry (p : Nat) (s : State) : Out :=
  .next (if portOn s p && linkState s p = lkDown && [dnTrain, dnLanes, dnKeyx].contains (linkReason s p) then setLink s p lkDetect else s)

/-- A health test of the key generator fails (R512): every request is refused until a retest passes. -/
def entropyFail (s : State) : State :=
  raise (errSet { s with entropyBad := true } pgSec 10 0) { ring := 0, kind := 0xA4 }

/-- A test window of the key generator passes unless detector 1 of the SEC page is armed (R525). -/
def entropyWindow (s : State) : State := if injects s pgSec 1 then entropyFail (injFire s pgSec [10]) else s

/-- A fresh key pair and nonce go out in a sequenced KEYX flit (R394); the KEYX fails while the key generator refuses (R512). -/
def sendKeyx (s0 : State) (p : Nat) : State :=
  let s := entropyWindow s0
  if s.entropyBad then linkDown s p dnKeyx
  else
  let (f, s1) := takeFree s
  let pub := Config.drbg (2 * f)
  let nonce := Config.drbg (2 * f + 1) % 2 ^ 256
  modPort s1 p (fun x => { x with
    keyx := some (pub, nonce), txSeq := (x.txSeq + 1) % 4096, freed := x.gives.2
    retry := x.retry ++ [⟨x.txSeq, 4, none, none, x.txPhase, 0, x.gives.1⟩] })

/-- DOM_DIGEST. -/
def myDigest (s : State) : Nat := ofBytes (((List.range 12).map (fun i => toBytes 4 (regW s pgDev (0x150 + 4 * i)).toNat)).flatten)

/-- DEADSUM of R429. -/
def deadSum (dead : List Nat) : Nat :=
  Config.sha384 ((List.range 512).map (fun i => ((List.range 8).filter (fun b => dead.contains (8 * i + b))).foldl (fun m b => m + 2 ^ b) 0)) % 2 ^ 64

def myDead (s : State) : List Nat := s.dead.map (·.1)

/-- The roll call record of a port (R429). STATE is STALE while the device resynchronises, MEMBER when some port is UP, else
JOINING (DEDUCED: R429 names the values and not when each is sent). -/
def rollRecord (s : State) (p : Nat) : RollCall :=
  { dev := myDev s, port := p, state := if s.resync.isSome then 2 else if fabricPorts.any (linkUp s) then 1 else 0,
    major := regF s pgDev 0x104 15 8, minor := regF s pgDev 0x104 7 0, epoch := myEpoch s, digest := myDigest s,
    deadSum := deadSum (myDead s), dead := myDead s }

def sendRollcall (s : State) (p : Nat) : State := emit s p (.rollcall (rollRecord s p))

/-- A trained fabric link goes on to roll call (R429); the host link is UP (R438). -/
def toRollcall (s : State) (p : Nat) : State :=
  if p = 18 then setLink s p lkUp else sendRollcall (setLink s p lkRoll) p

/-- INIT_FLIT: the partner's ENC, credits and bad mask (R385 step 2, R393). -/
def execInitFlit (p : Nat) (enc : Bool) (credits : List Nat) (bad : Nat) (s : State) : Out :=
  .next (if !(portOn s p && linkState s p = lkTrain) then s
    else
      let s1 := setRegF s (pgPort p) 0x084 17 9 bad
      let w := linkWidth s1 p
      if w = 0 then lanesFail s1 p
      else if p ≠ 18 && enc ≠ encCfg s1 p then linkDown s1 p dnEnc
      else
        let s2 := modPort s1 p (fun x => { x with
          refail := false, txSeq := 0, rxSeq := 0, discard := false, retry := [], replays := 0, freed := [0, 0, 0, 0]
          credits := (List.range 4).map (fun v => min (credits.getD v 0) 128) })
        let s3 := setWidth (emit s2 p (.init (encCfg s2 p) (rxBad s2 p))) p w
        if encCfg s1 p then sendKeyx (setLink s3 p lkKeyx) p else toRollcall s3 p)

/-! Acknowledgements and credits (R388, R389). -/

/-- Flits up to ACK are acknowledged. -/
def ackFlits (x : Port) (ack : Nat) : Port :=
  match x.retry.find? (fun f => f.seq == ack) with
  | none => x
  | some _ => { x with retry := (x.retry.dropWhile (fun f => f.seq ≠ ack)).drop 1, replays := 0 }

/-- Credits come back for a virtual channel, up to its 128 buffers. -/
def addCredits (x : Port) (vc n : Nat) : Port := { x with credits := lset x.credits vc (min (x.credits.getD vc 0 + n) 128) }

/-- The header of a flit that passes CRC (R387). -/
def takeHeader (s : State) (p : Nat) (ackv : Bool) (ack cvc credits : Nat) : State :=
  pump (modPort s p (fun x => let y := addCredits x (cvc % 4) credits; if ackv then ackFlits y ack else y)) p

/-- The state in which flits of a trained link move. -/
def flowing (s : State) (p : Nat) : Bool :=
  portLive s p && (linkState s p = lkUp || linkState s p = lkKeyx || linkState s p = lkRoll || linkState s p = lkQuar)

/-- A receiver discards flits until the replay begins and sends one NAK (R389), which carries ACK in its header. -/
def sendNak (s : State) (p : Nat) : State :=
  let x := port s p
  if x.discard then s
  else bumpF (emit (setPort s p { x with discard := true }) p .nak) (pgPort p) 0x098 15 0 1

/-- A sequence number ahead of the one expected: a gap. -/
def seqAhead (x : Port) (seq : Nat) : Bool := (seq + 4096 - x.rxSeq) % 4096 ≥ 1 && (seq + 4096 - x.rxSeq) % 4096 < 2048

/-! Key agreement (R393 to R398). -/

/-- Both directions take new keys from the two ends' material (R394, R396). -/
def takeKeys (s : State) (p pub nonce pub' nonce' : Nat) (rekey : Bool) : State :=
  let secret := Config.ecdh pub pub'
  let lo := min nonce nonce'
  let hi := max nonce nonce'
  let k0 := Config.hkdf secret lo hi 0
  let k1 := Config.hkdf secret lo hi 1
  let tx := if nonce ≤ nonce' then k0 else k1
  let rx := if nonce ≤ nonce' then k1 else k0
  let s1 := modPort s p (fun x =>
    if rekey then { x with keyx := none, rekey := false, oldRx := x.rxKey, txKey := some tx, rxKey := some rx, txPhase := 1 - x.txPhase, txN := 0 }
    else { x with keyx := none, rekey := false, oldRx := none, txKey := some tx, rxKey := some rx, txPhase := 0, rxPhase := 0, txN := 0, rxN := 0 })
  setRegF s1 (pgPort p) 0x080 18 18 1

/-- KEYX_FLIT: the partner's material is verified and the keys derived; a rekey that the partner starts is answered. -/
def execKeyxFlit (p : Nat) (f : KeyxFlit) (s : State) : Out :=
  .next (let st := linkState s p
    if !(portLive s p && p < 18 && (st = lkKeyx || (st = lkUp && encOn s p))) then s
    else
      let x := port s p
      if f.seq ≠ x.rxSeq then (if seqAhead x f.seq then sendNak s p else s)
      else if !Config.keyxOk f.chain f.sig f.pub f.nonce then linkDown s p dnKeyx
      else
        let s1 := modPort (takeHeader s p true f.ack 0 0) p (fun x => { x with rxSeq := (x.rxSeq + 1) % 4096, discard := false })
        let s2 := if (port s1 p).keyx.isNone then sendKeyx s1 p else s1
        match (port s2 p).keyx with
        | none => s2
        | some (pub, nonce) =>
          let s3 := takeKeys s2 p pub nonce f.pub f.nonce (st = lkUp)
          if st = lkKeyx then toRollcall s3 p else s3)

def execKeyxTimeout (p : Nat) (s : State) : Out :=
  .next (if portLive s p && p < 18 && (linkState s p = lkKeyx || (linkState s p = lkUp && (port s p).keyx.isSome)) then linkDown s p dnKeyx else s)

/-- REKEY: a new KEYX runs while the link stays UP (R396). -/
def execRekey (p : Nat) (s : State) : Out :=
  .next (if portOn s p && p < 18 && linkState s p = lkUp && encOn s p && (port s p).keyx.isNone then sendKeyx s p else s)

/-! Loss of signal. -/

def execLos (p : Nat) (s : State) : Out :=
  .next (if portLive s p && linkState s p ≠ lkDown && linkState s p ≠ lkDetect then linkDown s p dnLos else s)

/-! Flits (R387 to R390). -/

/-- Detectors 1 to 4 of FPORT and NHL (R525): the next codeword, CRC, tag. -/
def flitInject (s : State) (p : Nat) (f : DataFlit) : DataFlit × State :=
  let pg := pgPort p
  if injects s pg 1 then (f, bumpF (injFire s pg []) pg 0x08C 31 0 1)
  else if injects s pg 2 then ({ f with fecOk := false }, (if f.fecOk then id else (injReal · pg 13)) (injFire s pg [13]))
  else if injects s pg 3 then ({ f with crcOk := false }, injFire s pg [])
  else if injects s pg 4 && p < 18 && encOn s p then ({ f with tagOk := false }, (if f.tagOk then id else (injReal · pg 12)) (injFire s pg [12]))
  else (f, s)

/-- DATA_FLIT: checked, and accepted in order (R389, R395 to R397). What it carries arrives by packet rows. -/
def execDataFlit (p : Nat) (f0 : DataFlit) (s0 : State) : Out :=
  .next (if !(portLive s0 p && linkState s0 p = lkUp) then s0
    else
      let (f, s) := flitInject s0 p f0
      let pg := pgPort p
      if !f.fecOk then sendNak (portErr (bumpF s pg 0x090 15 0 1) p 13 0) p
      else if !f.crcOk then sendNak (bumpF s pg 0x094 15 0 1) p
      else
        let s1 := takeHeader s p f.ackv f.ack f.cvc f.credits
        let x := port s1 p
        if f.seq ≠ x.rxSeq then (if seqAhead x f.seq then sendNak s1 p else s1)
        else if encOn s1 p && !f.tagOk then
          portErr (linkDown (bumpF s1 pg 0x094 31 16 1) p dnAuth) p 12 f.seq
        else modPort s1 p (fun x =>
          let y := { x with rxSeq := (x.rxSeq + 1) % 4096, discard := false, freed := lset x.freed (f.vc % 4) (x.freed.getD (f.vc % 4) 0 + 1) }
          if x.rxKey.isNone then y
          else if x.oldRx.isSome && f.kphase ≠ x.rxPhase then { y with rxPhase := f.kphase, oldRx := none, rxN := 1 }
          else { y with rxN := x.rxN + 1 }))

def execIdleFlit (p : Nat) (ackv : Bool) (ack cvc credits : Nat) (s : State) : Out :=
  .next (if flowing s p then takeHeader s p ackv ack cvc credits else s)

/-- IDLE_FLIT_DUE: acknowledgement and freed buffers of one channel go back. -/
def execIdleFlitDue (p : Nat) (s : State) : Out := .next (if flowing s p then emit s p .idle else s)

/-- A fast retrain starts (R392): a rekey in progress is abandoned and started again later (R396). -/
def startRetrain (s : State) (p : Nat) : State :=
  if linkState s p ≠ lkUp then s
  else
    let s1 := modPort s p (fun x => { x with rekey := x.rekey || x.keyx.isSome, keyx := none })
    bumpF (setLink (emit s1 p (.retrain (rxBad s1 p))) p lkRetrain) (pgPort p) 0x09C 15 0 1

/-- NAK: every flit after ACK is replayed; the eighth replay of one flit starts a fast retrain (R389, R390). -/
def execNak (p ack : Nat) (s : State) : Out :=
  .next (if !flowing s p then s
    else
      let s1 := bumpF (modPort s p (fun x => ackFlits x ack)) (pgPort p) 0x098 31 16 1
      match (port s1 p).retry with
      | [] => pump s1 p
      | f :: _ =>
        let n := (port s1 p).replays + 1
        let s2 := modPort s1 p (fun x => { x with replays := n })
        if n ≥ 8 then startRetrain (portErr (modPort s2 p (fun x => { x with replays := 0 })) p 11 f.seq) p else pump s2 p)

/-! Lane sparing and fast retrain (R392). -/

/-- LANE_BAD: firmware takes a receive lane out of service, notes it in the route card and starts a fast retrain. -/
def execLaneBad (p lane : Nat) (s : State) : Out :=
  .next (if !(portOn s p && lane < 9 && linkState s p = lkUp) then s
    else
      let s1 := setRegF s (pgPort p) 0x084 8 0 (Nat.lor (rxBad s p) (2 ^ lane))
      let s2 := cardPut (portErr s1 p 8 lane) ctLanes p (rxBad s1 p)
      startRetrain s2 p)

/-- LSYM_WINDOW: the corrected symbols of each lane in the last whole window. -/
def execLsymWindow (p : Nat) (counts : List Nat) (s : State) : Out :=
  .next (if p < 19 then modPort s p (fun x => { x with lsym := (List.range 9).map (fun i => min (counts.getD i 0) 0xFFFF_FFFF) }) else s)

/-- RETRAIN: the partner's request, with its bad mask for this end's transmit direction, or a request of this end. -/
def execRetrain (p bad : Nat) (s : State) : Out :=
  .next (if portLive s p && (linkState s p = lkUp || linkState s p = lkRetrain) then
      startRetrain (setRegF s (pgPort p) 0x084 17 9 (Nat.lor (txBad s p) (bad % 512))) p
    else s)

/-- RETRAIN_DONE: the link is UP again and replays, or full training starts with the new masks. -/
def execRetrainDone (p : Nat) (ok : Bool) (s : State) : Out :=
  .next (if !(portLive s p && linkState s p = lkRetrain) then s
    else
      let w := linkWidth s p
      if ok && w ≠ 0 then
        let s1 := pump (setLink (setWidth s p w) p lkUp) p
        if (port s1 p).rekey then sendKeyx s1 p else s1
      else
        let s1 := setRegF s (pgPort p) 0x080 18 16 0
        toTrain (handAll (modPort s1 p (fun x =>
          { x with keyx := none, rekey := false, txKey := none, rxKey := none, oldRx := none, refail := true })) p) p)

end Sys2Proof.Machine
end

