-- ==== Sys2Proof/Machine/Window.lean ====
section
/-!
DEFINITION. The memory window of the host link (R441, R442).
-/
namespace Sys2Proof.Machine

def mwinOn (s : State) : Bool := regF s pgNhl 0x0C4 31 31 = 1
def mwinSpace (s : State) : Nat := regF s pgNhl 0x0C4 27 16
def mwinBase (s : State) : Nat := regF s pgNhl 0x0C0 31 21 * 2 ^ 21 + regF s pgNhl 0x0C4 15 0 * 2 ^ 32

/-- What a host read of the memory window returned: its bytes as a number, and the poisoned-data indication. -/
def windowGives (s : State) (bs : List Nat) (mark : Bool) : State :=
  { s with bus := tput (tput s.bus 16 (ofBytes bs)) 17 (if mark then 1 else 0) }

/-- An access of the window that is not performed: a read returns all bytes 0xFF. -/
def windowRefused (s : State) (off n bit : Nat) (write : Bool) : State :=
  let s1 := errSet (bumpF s pgNhl 0x0DC 31 16 1) pgNhl bit off
  if write then s1 else windowGives s1 (List.replicate n 0xFF) false

/-- An access of the window is made on behalf of the host by D0 (R258): whether it is done, or waits for a held line or another
device. -/
def winDo (s : State) (a : WinAcc) : Bool × State :=
  let n := a.data.length
  let acc : Acc4 := if a.write then .write else .read
  let (o, s1) := translateRuns s (agDie 0) 0 a.space acc true [(a.va, n)]
  if !o.fails.isEmpty then
    let s2 := windowRefused (countXltFault s1 0 o) a.off n 9 a.write
    match o.fault with
    | some (ad, c) => (true, raise s2 { ring := 0, kind := 5, value := a.off, cont := some (faultRecord ad c acc a.space (blkId pgNhl) o.top) })
    | none => (true, s2)
  else if a.write then
    if xoutHeld s1 o then (false, s) else (true, (writeVirt s (agDie 0) 0 a.space a.va a.data false none strWindow .none).2)
  else match readVirt s (agDie 0) 0 a.space a.va n .read with
    | ((_, .got bs marks), s2) => (true, windowGives s2 bs !marks.isEmpty)
    | ((_, .wait), s2) => (false, s2)
    | ((_, .fault), s2) => (true, s2)

/-- An access of the window begins, under the setting in force (R441): it is done, or waits as begun; answers what it waits as. -/
def winBegin (s : State) (tag off : Nat) (write : Bool) (data : List Nat) : Option WinAcc × State :=
  if tag ≠ 0 then (none, windowRefused s off data.length 8 write)
  else if !mwinOn s then (none, windowRefused s off data.length 9 write)
  else
    let a : WinAcc := ⟨off, mwinSpace s, mwinBase s + off, write, data⟩
    match winDo s a with
    | (true, s1) => (none, s1)
    | (false, s1) => (some a, s1)

/-- The host accesses that wait are performed in the order issued (R439), as far as none must wait; one of the register aperture
waits for the next host access of that aperture, or for the idle step. -/
def winGo : Nat → State → State
  | 0, s => s
  | n + 1, s =>
    if hostWrites s then s
    else match s.hostQ with
    | .win a :: t => (match winDo { s with hostQ := t } a with
      | (true, s1) => winGo n s1
      | (false, s1) => { s1 with hostQ := .win a :: s1.hostQ })
    | .mem tag off write data :: t => (match winBegin { s with hostQ := t } tag off write data with
      | (none, s1) => winGo n s1
      | (some a, s1) => { s1 with hostQ := .win a :: s1.hostQ })
    | .door q tag off size v :: t => winGo n (doorbellAcc { s with hostQ := t } q tag off size v)
    | _ => s

def winResume (s : State) : State := winGo s.hostQ.length s

end Sys2Proof.Machine
end

