-- ==== Sys2Proof/Machine/Domain.lean ====
section
/-!
DEFINITION. The Brodram domain (R402 to R437): arriving packets, landing entries, answers and resends, routes, roll call,
epochs, loss of a device.
-/
namespace Sys2Proof.Machine

/-! Arrival (R405, R407, R408, R410). -/

/-- Reserved values of KIND (R408). -/
def kindReserved (k : Nat) : Bool := k = 0 || (0x0A ≤ k && k ≤ 0x0F) || k ≥ 0x12

/-- An arriving packet is refused or discarded (R405, R408). -/
def countRefused (s : State) : State := bumpF s pgDev 0x13C 15 0 1

/-- Ports of a route: hop `k` from 0. -/
def hopPort (route k : Nat) : Nat := bits route (5 * k + 4) (5 * k)

/-- A packet reaches a router (R410, R411, R413): it goes on over the next port it names, or it is for this device. -/
def arrive (p kind : Nat) (k : Packet) (s : State) (f : State → State) : Out :=
  .next (if !(p < 18 && portLive s p && linkState s p = lkUp) then s
    else if kindReserved k.kind then countRefused s
    else if k.kind ≠ kind then s
    else
      let taken := pktVc k + 1
      if taken ≤ bits k.route 21 20 then
        let q := hopPort k.route taken
        if q < 18 && (linkUp s q || linkState s q = lkRetrain) then sendOn s q { k with route := setBits k.route 23 22 taken } none
        else if k.kind = pkAck && bits k.sub 7 0 = stRouteFail then s
        else answer s k stRouteFail 0 [] false false
      else if k.dst ≠ myDev s then countRefused s
      else f s)

/-- DOM_IMPORT accepts a space; AS0 never (R405). -/
def imports (s : State) (space : Nat) : Bool :=
  space ≠ 0 && (regW s pgDev (0x200 + 4 * (space / 32))).getLsbD (space % 32)

/-- The packet is answered REFUSED (R405, R406). -/
def refuse (s : State) (k : Packet) : State :=
  let s1 := errSet (countRefused s) pgDev 11 (k.src + 2 ^ 32 * k.space)
  let isData := k.kind = pkRead || (k.kind = pkAtomic && k.operand ≠ 0)
  answer s1 k stRefused 0 (if isData then (List.range 128).map (fun i => Config.lostByte (k.serial + 2 ^ 32 * k.stream) i % 256) else []) isData isData

/-- A packet whose line is held waits at its slice (R242, R318). -/
def holdPkt (s : State) (p : Nat) (k : Packet) : State := { s with heldPkts := s.heldPkts ++ [(p, k)] }

/-- R405: import, state of the space, translation and permission by the die that receives the packet. -/
def imported (p : Nat) (k : Packet) (va : Nat) (a : Acc4) (s : State) (f : Dest → State → State) : State :=
  if !imports s k.space then refuse s k
  else match translate s (agDie (portDie p)) (portDie p) k.space va a false with
  | (.inl _, s1) => refuse s1 k
  | (.inr (d, _), s1) => f d s1

/-! Landing entries (R417, R418). -/

/-- The die that holds the entry of a source and stream. -/
def landDie (src stream : Nat) : Nat := Nat.xor src stream % 4

def landing? (s : State) (src stream : Nat) : Option Landing := s.landing.find? (fun l => l.src == src && l.stream == stream)

/-- Serials of the run landed, as distances from its first. -/
def Landing.offs (l : Landing) : List Nat := l.landed.map (fun x => (x + 2 ^ 32 - l.first) % 2 ^ 32)

/-- Every serial below a distance has landed. -/
def Landing.below (l : Landing) (n : Nat) : Bool := (List.range n).all (fun i => l.offs.contains i)

/-- No serial is missing below one that has landed. -/
def Landing.noGap (l : Landing) : Bool := l.below (l.offs.foldl (fun m x => if x + 1 > m then x + 1 else m) 0)

/-- Where a packet stands with its entry. -/
inductive LandSt where
  | dup
  | full
  | wait
  | ok
  deriving DecidableEq, Repr

def landSt (s : State) (k : Packet) : LandSt :=
  match landing? s k.src k.stream with
  | some l =>
    if l.first = k.first then (if k.flags.testBit 3 && l.landed.contains k.serial then .dup else .ok)
    else if l.noGap then .ok else .wait
  | none => if (s.landing.filter (fun l => l.die == landDie k.src k.stream)).length ≥ 2048 then .full else .ok

/-- A packet lands (R417). -/
def land (s : State) (k : Packet) : State :=
  match landing? s k.src k.stream with
  | some l =>
    let l1 := if l.first = k.first then { l with landed := if l.landed.contains k.serial then l.landed else l.landed ++ [k.serial] }
      else { l with first := k.first, landed := [k.serial] }
    { s with landing := s.landing.map (fun x => if x.src == k.src && x.stream == k.stream then l1 else x) }
  | none => { s with landing := s.landing ++ [⟨landDie k.src k.stream, k.src, k.stream, k.first, [k.serial]⟩] }

/-- A packet that changes memory against its landing entry: a second copy is answered DUP, one that finds no entry BUSY, one
that would start a run before the last has landed BUSY (R417, R418). -/
def landed (s : State) (k : Packet) (f : State → State) : State :=
  match landSt s k with
  | .dup => answer s k stDup 0 [] false false
  | .full => answer (errSet s pgDev 13 0) k stBusy 0 [] false false
  | .wait => answer s k stBusy 0 [] false false
  | .ok => f s

/-- A packet performed: it lands and is answered DONE. -/
def landDone (s : State) (k : Packet) : State := answer (land s k) k stDone 0 [] false false

/-- A packet whose target range leads on to another device is performed there, and answered with its end. -/
def relayOn (s : State) (k : Packet) (g : Glob) (mir : Option (Nat × Nat × Nat)) : State :=
  sendMir s { pktTo k g with route := 0, serial := 0, first := 0, txg := 0 } (.relay k) mir

/-- A WRITE (R405, R417, R310): one line is written, or staged under the TXG it names. -/
def doWrite (p : Nat) (k : Packet) (s : State) : State :=
  landed s k (fun s => imported p k k.addr .write s (fun d s1 =>
    let slot := spaceSlot s1 (portDie p) k.space
    let bs := pktBytes k
    if k.txg ≠ 0 then
      landDone (match d with
        | .loc pa => stageWrite s1 k.txg k.space slot (lineBase pa) bs k.mark true
        | .mir pa _ => stageWrite s1 k.txg k.space slot (lineBase pa) bs k.mark false
        | .rem _ => stageWrite s1 k.txg k.space slot 0 bs k.mark false) k
    else match d with
    | .loc pa => if lineHeld s1 pa then holdPkt s p k else landDone (lineWrite s1 slot (lineBase pa) bs k.mark none) k
    | .mir pa g =>
      if lineHeld s1 pa then holdPkt s p k
      else relayOn (land (lineWrite s1 slot (lineBase pa) bs k.mark none) k) k g (some (mirKey s1 (agDie (portDie p)) k.space g))
    | .rem g => relayOn (land s1 k) k g none))

/-- A READ (R405, R406): the line at its home slice. -/
def doRead (p : Nat) (k : Packet) (s : State) : State :=
  imported p k k.addr .read s (fun d s1 =>
    let slot := spaceSlot s1 (portDie p) k.space
    let give (pa : Nat) : State :=
      if lineHeld s1 pa then holdPkt s p k
      else
        let s2 := touchRead s1 slot pa
        answer s2 k stDone 0 (readPhys s2 slot (lineBase pa) 128) (isMarked s2 pa) true
    match d with
    | .loc pa => give pa
    | .mir pa _ => give pa
    | .rem g => relayOn s1 k g none)

/-- The lanes of an ATOMIC: offset in the line, first and second operand. -/
def atomLanes : List Nat → List (Nat × Nat × Nat)
  | o :: a :: b :: t => (o % 128, a, b) :: atomLanes t
  | _ => []

/-- An ATOMIC: one atomic per lane in order at the home slice (R70, R109); a returning one is answered with the old values. -/
def doAtomic (p : Nat) (k : Packet) (s : State) : State :=
  landed s k (fun s => imported p k k.addr .rmw s (fun d s1 =>
    let slot := spaceSlot s1 (portDie p) k.space
    let give (pa : Nat) : State :=
      if lineHeld s1 pa then holdPkt s p k
      else
        let mk := isMarked s1 pa
        let (olds, s2) := (atomLanes k.data).foldl (fun (acc : List Nat × State) l =>
          let (o, t) := lineAtomic acc.2 slot (lineBase pa + l.1) (bits k.sub 3 0) l.2.1 l.2.2
          (acc.1 ++ [o], t)) ([], s1)
        let s3 := land s2 k
        if k.operand ≠ 0 then answer s3 k stDone 0 olds mk true else answer s3 k stDone 0 [] false false
    match d with
    | .loc pa => give pa
    | .mir pa _ => give pa
    | .rem g => relayOn (land s1 k) k g none))

/-- A SIGNAL (R290, R291). -/
def doSignal (p : Nat) (k : Packet) (s : State) : State :=
  landed s k (fun s => imported p k k.addr .rmw s (fun d s1 =>
    let slot := spaceSlot s1 (portDie p) k.space
    match d with
    | .loc pa => if lineHeld s1 pa then holdPkt s p k else landDone (lineSignal s1 slot pa k.operand) k
    | .mir pa _ => if lineHeld s1 pa then holdPkt s p k else landDone (lineSignal s1 slot pa k.operand) k
    | .rem g => relayOn (land s1 k) k g none))

/-- ANCHOR_PACKET: the anchor waits at this device (R422 step 1). -/
def execAnchorPacket (p : Nat) (k : Packet) (s : State) : Out :=
  arrive p pkAnchor k s (fun s => landed s k (fun s =>
    if s.anchors.any (fun a => a.src == k.src && a.stream == k.stream && a.serial == k.serial) then s
    else
      let keep (s : State) : State := { s with anchors := s.anchors ++ [{ k with sub := 0, mask := p }] }
      if k.addr ≠ 0 then imported p k k.addr .rmw s (fun _ s1 => keep s1)
      else if !imports s k.space || spaceState s (portDie p) k.space ≠ 1 then refuse s k
      else keep s))

/-- Every serial of the anchor's run below its own has landed. -/
def anchorReady (s : State) (k : Packet) : Bool :=
  let n := (k.serial + 2 ^ 32 - k.first) % 2 ^ 32
  match landing? s k.src k.stream with
  | some l => l.first = k.first && l.below n || (n = 0 && l.noGap)
  | none => n = 0

/-- ANCHOR_RELEASE: the anchor commits its TXG, signals its counter and is answered (R422, R423). It comes back once while
its commit runs. -/
def execAnchorRelease (src stream serial : Nat) (s : State) : Out :=
  .next (match s.anchors.find? (fun a => a.src == src && a.stream == stream && a.serial == serial) with
  | none => s
  | some k =>
    if !anchorReady s k then s
    else
      let p := k.mask
      let drop (s : State) : State := { s with anchors := s.anchors.filter (fun a => !(a.src == src && a.stream == stream && a.serial == serial)) }
      let fin (s : State) : State :=
        if k.addr = 0 then landDone (drop s) k
        else match translate s (agDie (portDie p)) (portDie p) k.space k.addr .rmw false with
        | (.inl _, s1) => refuse (drop s1) k
        | (.inr (d, _), s1) => match d with
          | .rem g => relayOn (land (drop s1) k) { k with kind := pkSignal } g none
          | .loc pa => if lineHeld s1 pa then s else landDone (lineSignal (drop s1) (spaceSlot s1 (portDie p) k.space) pa k.operand) k
          | .mir pa _ => if lineHeld s1 pa then s else landDone (lineSignal (drop s1) (spaceSlot s1 (portDie p) k.space) pa k.operand) k
      let t := txgAt s (hIx k.txg)
      if k.txg = 0 then fin s
      else if k.sub = 1 then
        match t.ended with
        | some 0 => fin s
        | some cause => answer (drop s) k stTxgAborted cause [] false false
        | none => s
      else if (handleCheck s k.space k.txg).isSome || t.st ≠ .opened then
        answer (drop s) k stTxgAborted ((t.ended).getD 0) [] false false
      else
        let s1 := commitStart s (hIx k.txg) none true
        { s1 with anchors := s1.anchors.map (fun a => if a.src == src && a.stream == stream && a.serial == serial then { a with sub := 1 } else a) })

/-! In-network reduction (R426, R427). -/

/-- The ALLREDUCE of a collective that has started here. -/
def collCmd (s : State) (coll space : Nat) : Option Cmd :=
  s.cmds.find? (fun c => c.opc == 0x32 && c.stage == .running && c.stageNo != 0 && c.killed.isNone && c.ar 0 == coll && c.space == space)

/-- A REDUCE or GATHER packet meets its command: BUSY before the start, REFUSED when it disagrees or the collective is over; the
ALLREDUCE that refuses one ends in error too. -/
def collArrive (p : Nat) (k : Packet) (ctr : Nat) (s : State) (f : Nat → Nat → State → State) : State :=
  landed s k (fun s =>
    let coll := bits k.txg 31 0
    if !imports s k.space || spaceState s (portDie p) k.space ≠ 1 then refuse s k
    else match collCmd s coll k.space with
    | none => if s.collGone.contains coll then refuse s k else answer s k stBusy 0 [] false false
    | some c =>
      let i := bits k.operand 3 0
      let gone (s : State) : State := modCmd (refuse s k) c.q c.serial (fun c => if c.res.isNone then Cmd.finish c csRemErr 0 else c)
      if c.ar 1 % 16 ≠ bits k.operand 7 4 || c.ar 3 ≠ bits k.txg 63 32 || i ≥ c.ar 1 || c.ar (16 + i) ≠ k.src || k.addr ≥ c.ar 3 / 32 then
        gone s
      else match translate s (agDie (portDie p)) (portDie p) k.space (c.ar 4 + 128 * k.addr) .rmw false with
      | (.inr (.loc pa, _), s1) =>
        if lineHeld s1 pa then holdPkt s p k
        else
          let s2 := f (spaceSlot s1 (portDie p) k.space) pa s1
          landDone (modCmd s2 c.q c.serial (fun c => { c with aux := tput c.aux ctr (c.ar ctr + 1) })) k
      | (_, s1) => gone s1)

def doReduce (p : Nat) (k : Packet) (s : State) : State :=
  collArrive p k 5 s (fun slot pa s =>
    lineReduce s slot (lineBase pa) ((List.range 32).map (fun i => (i, k.data.getD i 0))) k.mark)

def doGather (p : Nat) (k : Packet) (s : State) : State :=
  collArrive p k 6 s (fun slot pa s =>
    lineWrite s slot (lineBase pa) ((List.range 128).map (fun i => (i, k.data.getD i 0))) k.mark none)

/-! Remote watches (R296). -/

/-- The registration is known here already. -/
def watchKnown (s : State) (k : Packet) : Bool :=
  let is (w : Watch) : Bool := w.kind == .rem k.src k.txg
  s.bels.any (fun b => b.2.armed.any is || b.2.waitl.any is || b.2.ended.any (fun e => is e.w) || b.2.held.any (fun e => is e.w) ||
    b.2.remote.any (fun r => is r.2))

/-- The registration waits for an entry here, and its packet for the answer. -/
def watchLate (s : State) (k : Packet) : Bool := s.bels.any (fun b => b.2.late.any (fun x => x.2.src == k.src && x.2.txg == k.txg))

/-- A registration is made at its counter's belay unit. It lands; while it waits for an entry, its packet waits for the answer
(R299, R417). -/
def watchHere (s : State) (d : Nat) (w : Watch) (k : Packet) : State :=
  let id := (bel s d).nextId
  let s1 := land (registerWatch s d w) k
  if (bel s1 d).waitl.any (fun x => x.id == id) then setBel s1 d { bel s1 d with late := (bel s1 d).late ++ [(id, k)] }
  else answer s1 k stDone 0 [] false false

/-- A WATCH: a registration from another device. A repeated one is accepted as one; one that still waits is answered by its last
copy. -/
def doWatch (p : Nat) (k : Packet) (s : State) : State :=
  if watchLate s k then
    { s with bels := s.bels.map (fun b => (b.1, { b.2 with late := b.2.late.map (fun x =>
      if x.2.src = k.src && x.2.txg = k.txg then (x.1, k) else x) })) }
  else landed s k (fun s => imported p k k.addr .read s (fun d s1 =>
    let w (pa : Nat) : Watch := { id := 0, pa := pa, target := k.operand, slot := spaceSlot s1 (portDie p) k.space, space := k.space, last := 0, kind := .rem k.src k.txg }
    if watchKnown s1 k then landDone s1 k
    else match d with
    | .loc pa => if lineHeld s1 pa then holdPkt s p k else watchHere s1 (homeDie pa) (w pa) k
    | .mir pa _ => if lineHeld s1 pa then holdPkt s p k else watchHere s1 (homeDie pa) (w pa) k
    | .rem g =>
      let dd := portDie p
      let b := bel s1 dd
      let s2 := setBel s1 dd { b with nextId := b.nextId + 1, remote := b.remote ++ [(b.nextId, { w g.a with id := b.nextId })] }
      sendReq (land s2 k) { pktTo k g with route := 0, serial := 0, first := 0, txg := 4 * b.nextId + dd } (.relay k)))

/-- A packet that changes or reads memory of this device is performed, or waits for a held line. -/
def performPkt (p : Nat) (k : Packet) (s : State) : State :=
  if k.kind = pkWrite then doWrite p k s
  else if k.kind = pkRead then doRead p k s
  else if k.kind = pkAtomic then doAtomic p k s
  else if k.kind = pkSignal then doSignal p k s
  else if k.kind = pkReduce then doReduce p k s
  else if k.kind = pkGather then doGather p k s
  else if k.kind = pkWatch then doWatch p k s
  else s

/-- Packets whose lines are no longer held are performed, in arrival order; the others go on waiting. -/
def releasePkts (s : State) : State := s.heldPkts.foldl (fun s x => performPkt x.1 x.2 s) { s with heldPkts := [] }

def execWritePacket (p : Nat) (k : Packet) (s : State) : Out := arrive p pkWrite k s (performPkt p k)
def execReadPacket (p : Nat) (k : Packet) (s : State) : Out := arrive p pkRead k s (performPkt p k)
def execAtomicPacket (p : Nat) (k : Packet) (s : State) : Out := arrive p pkAtomic k s (performPkt p k)
def execSignalPacket (p : Nat) (k : Packet) (s : State) : Out := arrive p pkSignal k s (performPkt p k)
def execReducePacket (p : Nat) (k : Packet) (s : State) : Out := arrive p pkReduce k s (performPkt p k)
def execGatherPacket (p : Nat) (k : Packet) (s : State) : Out := arrive p pkGather k s (performPkt p k)
/-- WATCH_PACKET: a park-wait of this device whose registration it decides takes effect. -/
def execWatchPacket (p : Nat) (k : Packet) (s : State) : Out := arrive p pkWatch k s (performPkt p k)

/-- NOTIFY_PACKET: the registering device ends its own watch with the status carried; a watch that is gone is answered too. -/
def execNotifyPacket (p : Nat) (k : Packet) (s : State) : Out :=
  arrive p pkNotify k s (fun s =>
    let d := k.txg % 4
    let reg := k.txg / 4
    match (bel s d).remote.find? (fun r => r.1 == reg && gDev r.2.pa == k.src) with
    | none => answer s k stDone 0 [] false false
    | some (_, w) =>
      let b := bel s d
      let s1 := setBel s d { b with remote := b.remote.filter (fun r => r.1 != reg) }
      settleWaits (answer (notifyWatch s1 d w (bits k.sub 7 0) k.operand) k stDone 0 [] false false))

/-! Answers at the source (R409). -/

/-- The request that an answer belongs to. -/
def answered (s : State) (k : Packet) : Option Req :=
  s.reqs.find? (fun r => r.res.isNone && r.k.dst == k.src && r.k.stream == k.stream && r.k.serial == k.serial && r.k.first == k.first &&
    r.k.space == k.space && r.k.addr == k.addr && r.k.kind != pkAck && r.k.kind != pkData)

/-- A registration that its device has accepted needs no request any more; a WAIT is armed with it (R330). -/
def watchTaken (s : State) (d reg id : Nat) : State :=
  let s1 := delReq s id
  match (bel s1 d).remote.find? (fun x => x.1 == reg) with
  | some (_, w) => admitted s1 d w none
  | none => s1

/-- A request ends with what it has brought: the line of a PREF goes into the L1, a registration takes effect. What waited for
room in its run goes out, and what waited for the answer goes on. -/
def closeReq (s : State) (r : Req) (res cause : Nat) : State :=
  let s1 := endReq s r.id res cause
  let s2 := match r.owner with
    | .watch d reg => if res = rqDone then watchTaken s1 d reg r.id else watchFailed s1 r res
    | .pref t sp vline => if res = rqDone then modTile s1 t (fun x => x.l1Fill sp vline { r with res := some rqDone }) else s1
    | _ => s1
  winResume (settleWaits (retryAll s2))

/-- The number of the alternate that a request took. -/
def altOf (s : State) (r : Req) : Option Nat :=
  (tgetD s.route r.k.dst []).findIdx? (fun a => altValid a && altRoute a == bits r.k.route 21 0)

/-- The request goes out again with RESENT (R409, R413), or ends when its time is over. -/
def resend (s : State) (r : Req) : State :=
  if r.late then closeReq s r rqLost 0
  else trySend (modReq s r.id (fun r => { r with k := { r.k with flags := Nat.lor r.k.flags flResent }, sent := false, handed := false })) r.id

/-- ACK_PACKET: the source acts on the status (R409, R412). -/
def execAckPacket (p : Nat) (k : Packet) (s : State) : Out :=
  arrive p pkAck k s (fun s => match answered s k with
  | none => s
  | some r =>
    let st := bits k.sub 7 0
    if st = stDone then closeReq s r rqDone 0
    else if st = stBusy then
      bumpF (modReq s r.id (fun r => { r with busy := true, sent := false })) pgDev 0x140 31 16 1
    else if st = stDup then closeReq s r (if r.k.kind = pkAtomic && r.k.operand ≠ 0 then rqErr else rqDone) 0
    else if st = stRefused then closeReq s r rqErr 0
    else if st = stRouteFail then
      resend (modReq s r.id (fun x => { x with tried := match altOf s r with
        | some i => if x.tried.contains i then x.tried else x.tried ++ [i]
        | none => x.tried })) r
    else if st = stTxgAborted then closeReq s r rqTxg (bits k.operand 7 0)
    else s)

/-- DATA_PACKET: the line or the old values come back (R406). -/
def execDataPacket (p : Nat) (k : Packet) (s : State) : Out :=
  arrive p pkData k s (fun s => match answered s k with
  | none => s
  | some r =>
    let s1 := modReq s r.id (fun r => { r with data := k.data, marked := k.mark })
    closeReq s1 { r with data := k.data, marked := k.mark } (if bits k.sub 7 0 = stDone then rqDone else rqErr) 0)

/-- BUSY_RESEND: the request goes out again (R409). -/
def execBusyResend (id : Nat) (s : State) : Out :=
  .next (match req? s id with
  | none => s
  | some r => if r.busy && r.res.isNone then trySend (modReq s id (fun r => { r with busy := false })) id else s)

/-- PACKET_RESEND: a packet handed back to its source goes out again (R413). -/
def execPacketResend (id : Nat) (s : State) : Out :=
  .next (match req? s id with
  | none => s
  | some r => if r.handed && r.res.isNone then resend s r else s)

/-- RESEND_DEADLINE: the time for resends is over; one that is due ends REMOTE_LOST (R413). -/
def execResendDeadline (id : Nat) (s : State) : Out :=
  .next (match req? s id with
  | none => s
  | some r =>
    if r.res.isSome then s
    else if r.handed || (!r.sent && r.k.flags.testBit 3) then closeReq s r rqLost 0
    else modReq s id (fun r => { r with late := true }))

/-- LANDING_EXPIRE: an idle entry with no gap is freed (R417). -/
def execLandingExpire (src stream : Nat) (s : State) : Out :=
  .next (match landing? s src stream with
  | some l => if l.noGap then { s with landing := s.landing.filter (fun x => !(x.src == src && x.stream == stream)) } else s
  | none => s)

/-! Routes (R411, R414). -/

/-- Every unanswered request to a device ends with a result. -/
def endAllTo (s : State) (dev res : Nat) : State :=
  winResume (settleWaits ((s.reqs.filter (fun r => r.k.dst == dev && r.res.isNone)).foldl (fun s r => watchFailed (endReq s r.id res 0) r res) s))

/-- ROUTE_TABLE_UPDATE: the firmware of the device-wide duties (R20) sets the alternates of one destination; with none VALID it is unreachable (R414), and packets that every
alternate has failed go out again (R412). -/
def execRouteTableUpdate (dst : Nat) (alts : List Nat) (s : State) : Out :=
  .next (if dst ≥ 4096 || !devUp s then s
    else
      let as := (List.range 4).map (fun i => alts.getD i 0 % 2 ^ 32)
      let s1 := { s with route := tput s.route dst as, reqs := s.reqs.map (fun (r : Req) => if r.k.dst = dst then { r with tried := [] } else r) }
      if unreachable s1 dst then endAllTo s1 dst rqLost else retryAll s1)

/-! Roll call (R403, R429 to R431). -/

/-- The far end of a port by the domain map. -/
def farEnd (s : State) (p : Nat) : Option (Nat × Nat) :=
  let me := myDev s
  s.domMap.findSome? (fun l =>
    if l.1 = me && l.2.1 = p then some (l.2.2.1, l.2.2.2)
    else if l.2.2.1 = me && l.2.2.2 = p then some (l.1, l.2.1) else none)

/-- A port is quarantined with a reason of R436. -/
def quarantine (s : State) (p reason : Nat) : State := errSet (setQuar (setLink s p lkQuar) p reason) pgDev 9 p

/-- The device becomes STALE (R430). -/
def becomeStale (s : State) (p : Nat) (r : RollCall) : State :=
  let s1 := setQuar (setLink s p lkRoll) p 0
  errSet { s1 with resync := some (r.dev, r.epoch, r.dead) } pgDev 10 r.dev

/-- ROLL_CALL: the checks of R430 in order, by the firmware of the device-wide duties (R20, R410). -/
def execRollCall (p : Nat) (r : RollCall) (s : State) : Out :=
  .next (let st := linkState s p
    if !(p < 18 && devUp s && portLive s p && (st = lkRoll || st = lkQuar || st = lkUp)) then s
    else if r.major ≠ regF s pgDev 0x104 15 8 then quarantine s p 1
    else if r.digest ≠ myDigest s then
      raise (quarantine s p 2) { ring := 0, kind := 0xC, tag := r.dev, info := p + 256 * 2 }
    else match farEnd s p with
    | none => setLink s p lkRoll
    | some (d, q) =>
      if d ≠ r.dev || q ≠ r.port then quarantine s p 3
      else if r.epoch > myEpoch s then becomeStale s p r
      else if r.epoch < myEpoch s then setQuar (setLink s p lkRoll) p 5
      else if r.deadSum ≠ deadSum (myDead s) then
        (if myDev s < r.dev then becomeStale s p r else setQuar (setLink s p lkRoll) p 5)
      else
        let s1 := modPort (setQuar (setLink s p lkUp) p 0) p (fun x => { x with minor := min r.minor (regF s pgDev 0x104 7 0) })
        retryAll (pump s1 p))

/-! Epochs and the dead set (R432). -/

/-- Epoch and dead set change together; they go into the route card. A quarantined port repeats roll call (R430). -/
def setMembership (s : State) (e : Nat) (dead : Tab Unit) : State :=
  let s1 := setEpoch { s with dead := dead } e
  let s1 := if myEpoch s = e % 2 ^ 64 then s1 else (fabricPorts.filter (fun p => linkState s1 p = lkQuar)).foldl sendRollcall s1
  cardPut s1 ctDomain 0 (e % 2 ^ 64 + 2 ^ 64 * (dead.foldl (fun m d => Nat.lor m (2 ^ d.1)) 0))

/-- A notice goes out on every UP port. -/
def flood (s : State) (c : Ctrl) : State := (fabricPorts.filter (fun p => linkUp s p)).foldl (fun s p => emit s p c) s

/-- The event EPOCH. -/
def epochEvent (s : State) : State := raise s { ring := 0, kind := 0xB, value := myEpoch s, info := s.dead.length }

/-- The REMOTE watches of a dead device end (R298): those on its counters, and those that it has registered here. -/
def watchesOfDead (s : State) (x : Nat) : State :=
  let mine (w : Watch) : Bool := match w.kind with
    | .rem d _ => d == x
    | _ => false
  settleWaits ((List.range 4).foldl (fun s d =>
    let b := bel s d
    let away := b.remote.filter (fun r => gDev r.2.pa == x)
    let s4 := setBel s d { b with remote := b.remote.filter (fun r => gDev r.2.pa != x) }
    let s5 := away.foldl (fun s r => notifyWatch s d r.2 4 0) s4
    let b5 := bel s5 d
    ((b5.armed ++ b5.waitl).filter mine).foldl (fun s w => endWatch s d w 4) s5) s)

/-- Every access to a dead device ends, its landing entries and anchors go, watches end (R298, R434). -/
def forgetDead (s : State) (x : Nat) : State :=
  let s2 := endAllTo s x rqLost
  watchesOfDead { s2 with landing := s2.landing.filter (fun l => l.src != x), anchors := s2.anchors.filter (fun a => a.src != x) } x

/-- A device has been declared dead (R434). -/
def declareDead (s : State) (x : Nat) : State :=
  forgetDead (errSet (raise s { ring := 0, kind := 0xA, tag := x, value := myEpoch s }) pgDev 8 x) x

/-- LOSS of a device with an epoch (R432). -/
def actLoss (s : State) (x e : Nat) : State :=
  let cur := myEpoch s
  if isDead s x then
    if e > cur then epochEvent (flood (setMembership s e s.dead) (.loss x e)) else s
  else
    let e1 := max (cur + 1) e
    let s1 := setMembership s e1 (tput s.dead x ())
    declareDead (epochEvent (flood s1 (.loss x (myEpoch s1)))) x

/-- JOIN of a device with an epoch (R432). -/
def actJoin (s : State) (x e : Nat) : State :=
  let cur := myEpoch s
  if isDead s x then
    let s1 := setMembership s (max (cur + 1) e) (tdel s.dead x)
    epochEvent (flood s1 (.join x (myEpoch s1)))
  else if e > cur then epochEvent (flood (setMembership s e s.dead) (.join x e))
  else s

/-- LOSS and JOIN_NOTICE: firmware consumes a notice at the neighbour (R410, R432). -/
def execLoss (p dev epoch : Nat) (s : State) : Out :=
  .next (if p < 18 && devUp s && portLive s p && linkState s p = lkUp && dev < 4096 && epoch < 2 ^ 64 then actLoss s dev epoch else s)

def execJoinNotice (p dev epoch : Nat) (s : State) : Out :=
  .next (if p < 18 && devUp s && portLive s p && linkState s p = lkUp && dev < 4096 && epoch < 2 ^ 64 then actJoin s dev epoch else s)

/-- STALE_RESYNC: the device has drained or waited long enough; its firmware takes the partner's epoch and dead set (devices new in
it are declared dead, R434), repeats roll call and resends what is unanswered (R431). -/
def execStaleResync (_p : Nat) (s : State) : Out :=
  .next (if !devUp s then s else match s.resync with
  | none => s
  | some (_, e, dead) =>
    let old := s.dead
    let s0 := setMembership { s with resync := none } e (dead.foldl (fun t d => tput t (d % 4096) ()) [])
    let s1 := ((myDead s0).filter (fun d => !thas old d && d ≠ myDev s0)).foldl declareDead s0
    let again := s1.reqs.filter (fun r => r.sent && r.res.isNone)
    let s2 := again.foldl (fun s r => resend s r) s1
    let s3 := retryAll s2
    let s4 := (fabricPorts.filter (fun p => linkState s3 p = lkRoll || linkState s3 p = lkUp || linkState s3 p = lkQuar)).foldl
      sendRollcall s3
    if isDead s4 (myDev s4) then actJoin s4 (myDev s4) (myEpoch s4) else s4)

/-! Losing a device (R433, R434). -/

/-- DEPART: the port goes DOWN and the neighbour is dead at once, when the device-wide duties run. -/
def execDepart (p : Nat) (s : State) : Out :=
  .next (if !(p < 18 && portLive s p && (linkState s p = lkUp || linkState s p = lkQuar || linkState s p = lkRetrain || linkState s p = lkRoll)) then s
    else
      let s1 := linkDown s p dnLeft
      match farEnd s p with
      | some (x, _) => if isDead s1 x || !devUp s then s1 else actLoss s1 x (myEpoch s1)
      | none => s1)

/-- HEARTBEAT: an UP port sends its heartbeat. -/
def execHeartbeat (p : Nat) (s : State) : Out :=
  .next (if p < 18 && portLive s p && linkState s p = lkUp then emit s p .heartbeat else s)

/-- HEARTBEAT_TIMEOUT: the partner has been silent. -/
def execHeartbeatTimeout (p : Nat) (s : State) : Out :=
  .next (if p < 18 && devUp s && portLive s p && linkState s p = lkUp then quarantine s p 4 else s)

/-- NEIGHBOUR_DEAD: every port to a neighbour has been out of UP for 10,000 microseconds. -/
def execNeighbourDead (dev : Nat) (s : State) : Out :=
  .next (let ps := fabricPorts.filter (fun p => match farEnd s p with
      | some (d, _) => d == dev
      | none => false)
    if ps.isEmpty || !devUp s || s.leftService || ps.any (fun p => linkState s p = lkUp) || isDead s dev then s
    else actLoss s dev (myEpoch s))

end Sys2Proof.Machine
end

