-- ==== Sys2Proof/Machine/HostLink.lean ====
section
/-!
DEFINITION. The host link (R438 to R453): event rings and their records, the memory window, loss and return of the link, the
sideband.
-/
namespace Sys2Proof.Machine

/-! The host-side function (R447). -/

/-- NHL_ALERT.FAILED, THERMAL, EV_DROP (R450). -/
def setAlert (s : State) (b : Nat) : State := setRegF s pgNhl 0x0E4 b b 1

/-- MOD_ALERT_N is driven low: some unmasked bit is set. -/
def alertLow (s : State) : Bool := (List.range 3).any (fun b => regF s pgNhl 0x0E4 b b = 1 && regF s pgNhl 0x0E4 (8 + b) (8 + b) = 0)

/-! Event rings (R443 to R446). -/

def ring (s : State) (r : Nat) : Ring := tgetD s.rings r {}
def setRing (s : State) (r : Nat) (x : Ring) : State := { s with rings := tput s.rings r x }

def Ev.slots (e : Ev) : Nat := if e.cont.isSome then 2 else 1

/-- The ring has room for an event. -/
def Ring.room (x : Ring) (n : Nat) : Bool := (x.written % 2 ^ 24 + 2 ^ 24 - x.consumed) % 2 ^ 24 + n ≤ 2 ^ x.size

/-- Bytes written into host memory. -/
def hostWrite (s : State) (a : Nat) (bs : List Nat) : State := { s with host := putCells s.host a bs }

/-- The head record (R444). -/
def evHead (e : Ev) (seq dropped : Nat) : List Nat :=
  toBytes 4 seq ++ toBytes 2 e.kind ++ toBytes 1 (if e.cont.isSome then 1 else 0) ++ [0] ++ toBytes 8 e.tag ++ toBytes 8 e.value ++
    toBytes 4 e.info ++ toBytes 4 dropped

/-- One event is written into its ring: the continuation slot first (R446). -/
def writeEvent (s : State) (e : Ev) : State :=
  let x := ring s e.ring
  let slotAt (n : Nat) : Nat := x.base + 32 * (n % 2 ^ x.size)
  let s1 := match e.cont with
    | some bs => hostWrite s (slotAt (x.written + 1)) (bs ++ List.replicate (32 - bs.length) 0)
    | none => s
  let s2 := hostWrite s1 (slotAt x.written) (evHead e ((x.written + 1) % 2 ^ 32) x.dropped)
  setRing s2 e.ring { x with written := x.written + e.slots, dropped := 0 }

/-- The event may be written now. -/
def canPost (s : State) (e : Ev) : Bool := hostReady s && (ring s e.ring).on && (ring s e.ring).room e.slots

/-- An event is discarded and counted (R443, R446). -/
def dropEvent (s : State) (e : Ev) : State :=
  let x := ring s e.ring
  bumpF (setRing s e.ring { x with dropped := satAdd x.dropped 1 0xFFFF_FFFF }) pgNhl 0x0DC 15 0 1

/-- The first event of the pending store that may be written, or whose ring is disabled: none of its ring lies before it. -/
def nextPending (s : State) : List Ev → List Nat → Option Ev
  | [], _ => none
  | e :: t, seen =>
    if !seen.contains e.ring && (canPost s e || !(ring s e.ring).on) then some e else nextPending s t (e.ring :: seen)

/-- EVENT_POST: the oldest waiting event of a ring with room is written; else the next event goes to its ring, to the pending
store, or is lost. -/
def execEventPost (s : State) : Out :=
  .next (match nextPending s s.evpend [] with
  | some e =>
    let s1 := { s with evpend := s.evpend.erase e }
    if (ring s1 e.ring).on then writeEvent s1 e else dropEvent s1 e
  | none =>
    match s.evq with
    | [] => s
    | e :: t =>
      let s1 := { s with evq := t }
      if !(ring s1 e.ring).on then dropEvent s1 e
      else if canPost s1 e && !(s1.evpend.any (fun x => x.ring == e.ring)) then writeEvent s1 e
      else if s1.evpend.length < 8192 then { s1 with evpend := s1.evpend ++ [e] }
      else setAlert (errSet (dropEvent s1 e) pgNhl 10 e.ring) 2)

/-- A write of NHL_RCTL: the ring is enabled from its table entry, at SEQ 1, or disabled. -/
def ringCtl (s : State) (v : Nat) : State :=
  let r := bits v 7 0
  if bits v 8 8 = 0 then setRing s r { ring s r with on := false }
  else
    match readVirt s (agDie 0) 0 0 (regPair s pgNhl 0x0C8 + 16 * r) 16 .read with
    | ((_, .got bs _), s1) =>
      let size := bits (leAt4 bs 8) 4 0
      if 6 ≤ size && size ≤ 20 then setRing s1 r { on := true, base := leAt8 bs 0, size := size } else s1
    | (_, s1) => s1

/-- A write of NHL_RCONS: slots consumed of a ring. -/
def ringCons (s : State) (v : Nat) : State := setRing s (bits v 31 24) { ring s (bits v 31 24) with consumed := bits v 23 0 }

/-! The memory window (R441, R442). -/

/-- MEM_WINDOW_ACCESS: a host access of the memory window; a read names its length by the length of `data`. It waits
for older accesses of the host, then uses the setting of the window in force, and waits for a held line or another device. -/
def execMemWindowAccess (tag off : Nat) (write : Bool) (data : List Nat) (s : State) : Out :=
  let n := data.length
  .next (if !hostReady s || off + n > 2 ^ 36 || n = 0 then s
    else if hostBusy s then hostHold s (.mem tag off write data)
    else match winBegin s tag off write data with
    | (none, s1) => s1
    | (some a, s1) => hostHold s1 (.win a))

/-! Loss and return of the link (R449). -/

/-- NHL_LINK_LOSS: the link leaves UP; the device goes on and events wait. -/
def execNhlLinkLoss (s : State) : Out := .next (if linkState s 18 = lkUp || linkState s 18 = lkRetrain then linkDown s 18 dnLos else s)

/-- NHL_LINK_RETURN: the link has trained again; it starts with empty buffers on both ends (R388). -/
def execNhlLinkReturn (s : State) : Out :=
  .next (if !(portOn s 18) || linkState s 18 = lkUp || linkState s 18 = lkRetrain || linkWidth s 18 = 0 then s
    else
      let s1 := modPort s 18 (fun x => { x with
        txSeq := 0, rxSeq := 0, discard := false, retry := [], replays := 0
        freed := [0, 0, 0, 0], credits := [128, 128, 128, 128] })
      let s2 := if linkState s 18 = lkTrain then s1 else toTrain s1 18
      toRollcall (setWidth (setRegF s2 pgNhl 0x080 15 8 0) 18 (linkWidth s 18)) 18)

/-! The sideband (R451, R511). -/

/-- The device answers on the sideband. -/
def reply (s : State) (a : List Nat) : State := { s with answers := s.answers ++ [a] }

/-- MCTP_CONTROL: answered from the moment MOD_PWR_GOOD rises; what the answer holds is the transport's own standard. -/
def execMctpControl (code arg : Nat) (s : State) : Out := .next (if s.pwrGood then reply s (Config.mctp code arg) else s)

/-- VENDOR_READ_STATUS: NHL_STATUS and NHL_ALERT. -/
def execVendorReadStatus (s : State) : Out :=
  .next (if s.pwrGood then reply s [(regW s pgNhl 0x0E0).toNat, (regW s pgNhl 0x0E4).toNat] else s)

/-- VENDOR_CLEAR_ALERT: the named alert bits clear. -/
def execVendorClearAlert (mask : Nat) (s : State) : Out :=
  .next (if s.pwrGood then setReg s pgNhl 0x0E4 (regW s pgNhl 0x0E4 &&& ~~~(BitVec.ofNat 32 (bits mask 2 0))) else s)

/-! SPDM (R511): the responder is a device-wide duty (R20) that runs once the firmware has been verified. Codes of the answers are SPDM 1.3's. -/

def spdmOn (s : State) : Bool := s.pwrGood && s.verified && devUp s

/-- ERROR, unsupported request. -/
def spdmError (s : State) (code : Nat) : State := reply s [0x7F, 0x07, code]
/-- ERROR, invalid request. -/
def spdmInvalid (s : State) (code : Nat) : State := reply s [0x7F, 0x01, code]

def execGetVersion (s : State) : Out := .next (if spdmOn s then reply s [0x04, 0x13] else s)

/-- GET_CAPABILITIES: certificates, challenge and signed measurements; no session, key exchange or notification. -/
def execGetCapabilities (s : State) : Out := .next (if spdmOn s then reply s [0x61, 0x16] else s)

/-- NEGOTIATE_ALGORITHMS: of the algorithms offered, SHA-384 (numbered 1) and extended ECDSA on brainpoolP384r1 (numbered 2). -/
def execNegotiateAlgorithms (offered : List Nat) (s : State) : Out :=
  .next (if spdmOn s then reply s (0x63 :: [1, 2].filter (fun a => offered.contains a)) else s)

/-- GET_DIGESTS: slot 0 holds the chain of R510. -/
def execGetDigests (s : State) : Out := .next (if spdmOn s then reply s [0x01, 1, Config.sha384 Config.certChain] else s)

def execGetCertificate (slot off len : Nat) (s : State) : Out :=
  .next (if !spdmOn s then s
    else if slot ≠ 0 || off > Config.certChain.length then spdmInvalid s 0x82
    else
      let part := (Config.certChain.drop off).take len
      reply s (0x02 :: slot :: part.length :: (Config.certChain.length - off - part.length) :: part))

/-- CHALLENGE: the chain's digest, the nonce, and the identity key's signature over both. -/
def execChallenge (slot nonce : Nat) (s : State) : Out :=
  .next (if !spdmOn s then s
    else if slot ≠ 0 then spdmInvalid s 0x83
    else
      let d := Config.sha384 Config.certChain
      reply s ([0x03, slot, d, nonce] ++ Config.sign [d, nonce]))

/-- The measurements of R511. -/
def measurement (s : State) (i : Nat) : Nat :=
  match i with
  | 1 => Config.romHash
  | 2 => Config.sha384 [tgetD s.flash.rels s.flash.active 0, s.flash.active]
  | 3 => (regW s pgSec 0x080).toNat + 2 ^ 32 * (regW s pgSec 0x084).toNat
  | 4 => myDigest s
  | _ => regF s pgSec 0x098 7 0 + 256 * s.tokenSlot

/-- GET_MEASUREMENTS: their number, one, or all, signed. -/
def execGetMeasurements (idx nonce : Nat) (s : State) : Out :=
  .next (if !spdmOn s then s
    else if idx = 0 then reply s [0x60, 5]
    else if idx ≤ 5 || idx = 0xFF then
      let body := ((if idx = 0xFF then [1, 2, 3, 4, 5] else [idx]).map (fun i => [i, measurement s i])).flatten
      reply s (0x60 :: body ++ nonce :: Config.sign (body ++ [nonce]))
    else spdmInvalid s 0xE0)

/-- SPDM_UNSUPPORTED: any other request. -/
def execSpdmUnsupported (code : Nat) (s : State) : Out := .next (if spdmOn s then spdmError s code else s)

end Sys2Proof.Machine
end

