-- ==== Sys2Proof/Machine/Release.lean ====
section
/-!
DEFINITION. Accesses at a home slice (R220, R231 to R234), those that wait there (R232, R242, R318), and the commands that
release them: the commit and the abort of a transaction group, a kill.
-/
namespace Sys2Proof.Machine

/-! Line operations (R220). -/

/-- What a read of a line gives its agent: the bytes as a number, the mark. -/
def lineGives (s : State) (bs : List Nat) (mark : Bool) : State :=
  { s with bus := tput (tput s.bus 18 (ofBytes bs)) 19 (if mark then 1 else 0) }

/-- The operation is performed at its decision point. -/
def lineDo (s : State) (o : LineOp) : State :=
  let pa := lineBase o.pa
  let put (bytes : List (Nat × Nat)) : State :=
    match o.txg with
    | some (d, i) =>
      let t := txgAt s (64 * d + i)
      stageWrite s (handleOf (64 * d + i) t.gen) t.space o.slot pa bytes false true
    | none => lineWrite s o.slot pa bytes false none
  match o.kind with
  | .read => let s1 := touchRead s o.slot pa; lineGives s1 (readPhys s1 o.slot pa 128) (isMarked s1 pa)
  | .write bytes => put (bytes.filter (fun b => b.1 < 128))
  | .zero => put zeroBytes
  | .atomic k off a b =>
    if off + atomSize k > 128 then s
    else
      let mark := isMarked s pa
      let (old, s1) := lineAtomic s o.slot (pa + off) k a b
      lineGives s1 (toBytes (atomSize k) old) mark

/-- Does it need the line as HBM4 holds it (R231, R233, R235)? -/
def needsLine (o : LineOp) : Bool :=
  match o.kind with
  | .read => true
  | .write bytes => o.txg.isNone && !wholeLine bytes
  | .zero => false
  | .atomic _ _ _ _ => true

/-- The slice holds the line, or reaches it at once in bypass. -/
def sliceHas (s : State) (pa : Nat) : Bool :=
  let x := slice s (gslice pa)
  x.bypass || (findWay x (setOf pa) (pa / 128)).isSome || x.evb.contains (pa / 128)

/-! Accesses that wait. -/

def L2Wait.pa : L2Wait → Nat
  | .op o => o.pa
  | .red _ pa _ => pa
  | .bytes _ pa _ => pa

/-- The access allocates a line whose set has no free way, with the eviction buffer full, and a way that replacement may take
holds a dirty line (R232). -/
def noRoom (s : State) (pa : Nat) : Bool :=
  let g := gslice pa
  let x := slice s g
  let key (w : Nat) : Nat := 17 * setOf pa + w
  !x.bypass && (findWay x (setOf pa) (pa / 128)).isNone && x.evb.length ≥ 32 &&
    (waysFor s g (setOf pa)).all (fun w => thas x.lines (key w)) &&
    (victims s g (setOf pa)).any (fun w => ((tget? x.lines (key w)).map (·.dirty)) == some true)

/-- An access to a line that exists arrives at its slice: it waits behind others of the line, for a hold to end, for room in the
eviction buffer, or for a fill (R231); else it is performed. -/
def lineArrives (s : State) (w : L2Wait) : State :=
  let pa := w.pa
  let g := gslice pa
  let x := slice s g
  let filling := x.fills.any (fun f => f.pa / 128 == pa / 128)
  let wait := setSlice s g { x with waits := x.waits ++ [w] }
  if lineHeld s pa || x.waits.any (fun y => y.pa / 128 == pa / 128) then wait
  else match w with
  | .op o =>
    if (needsLine o && !sliceHas s pa) || filling then setSlice s g { x with fills := x.fills ++ [o] }
    else if noRoom s pa then wait
    else lineDo s o
  | .red slot _ addends => if filling || noRoom s pa then wait else lineReduce s slot (lineBase pa) addends false
  | .bytes slot _ bs => if filling || noRoom s pa then wait else lineWrite s slot (lineBase pa) bs false none

/-- The accesses that wait at a slice arrive again, in their order. -/
def resumeWaits (s : State) (g : Nat) : State :=
  (slice s g).waits.foldl lineArrives (setSlice s g { slice s g with waits := [] })

/-- The debug read of the line that DBG_MADDR names (R528): at its home slice, where it waits for a held line; DBG_MSTAT and
DBG_MDATA take what it finds. -/
def dbgLine (s : State) : State :=
  let space := regF s pgDbg 0x0A4 27 16
  let va := regF s pgDbg 0x0A0 31 7 * 128 + 2 ^ 32 * regF s pgDbg 0x0A4 15 0
  let stat (s : State) (n : Nat) : State := setReg s pgDbg 0x0A8 (BitVec.ofNat 32 n)
  let give (s : State) (pa : Nat) : State :=
    if lineHeld s pa then stat s 8
    else
      let slot := spaceSlot s 0 space
      let bs := readPhys s slot pa 128
      let mark := isMarked s pa
      let s1 := touchRead s slot pa
      stat ((List.range 32).foldl (fun s k => setReg s pgDbg (0x100 + 4 * k) (BitVec.ofNat 32 (leAt4 bs (4 * k)))) s1) (1 + 4 * b2n mark)
  match lookup s (agDie 0) 0 space va with
  | (.inl _, s1) => stat s1 2
  | (.inr e, s1) => match e.dest va with
    | .loc pa => give s1 (lineBase pa)
    | .mir pa _ => give s1 (lineBase pa)
    | .rem _ => stat s1 3

/-- DBG_MSTAT.BUSY: a debug read waits. -/
def dbgBusy (s : State) : Bool := regF s pgDbg 0x0A8 3 3 = 1

/-- A hold has ended: the accesses that waited for it go on, at the slices, from other devices, from the memory window, and the debug read. -/
def releaseHeld (s : State) : State :=
  let s1 := (s.l2.filter (fun x => !x.2.waits.isEmpty)).foldl (fun s x => resumeWaits s x.1) s
  let s2 := winResume (settleWaits (if s1.heldPkts.isEmpty then s1 else releasePkts s1))
  if dbgBusy s2 then dbgLine s2 else s2

/-- L2_LINE_ACCESS: performed, or waiting. -/
def execL2LineAccess (o : LineOp) (s : State) : Out :=
  if !lineExists o.pa then .fault (.noSuchLine o.pa) else .next (lineArrives s (.op o))

/-- REDUCE_WRITE (R234): element i takes addend i; a number that is no FP32 code stands for an element outside the mask. -/
def execReduceWrite (slot pa : Nat) (addends : List Nat) (s : State) : Out :=
  if !lineExists pa then .fault (.noSuchLine pa)
  else .next (lineArrives s (.red slot pa (((addends.take 32).mapIdx (fun i a => (i, a))).filter (fun e => e.2 < 2 ^ 32))))

/-- HBM_FILL_RETURN: the line arrives, and the operations that wait for it are performed in their order. It waits like them for
a hold and for room. -/
def execHbmFillReturn (pa : Nat) (s : State) : Out :=
  if !lineExists pa then .fault (.noSuchLine pa)
  else .next (
    let g := gslice pa
    let x := slice s g
    let mine := x.fills.filter (fun f => f.pa / 128 == pa / 128)
    if mine.isEmpty || lineHeld s pa || noRoom s pa then s
    else resumeWaits (mine.foldl lineDo (setSlice s g { x with fills := x.fills.filter (fun f => f.pa / 128 != pa / 128) })) g)

/-- EVICTION_WRITEBACK: the write-back is performed, and the line leaves the eviction buffer (R232); what waited for room goes
on. -/
def execEvictionWriteback (pa : Nat) (s : State) : Out :=
  if !lineExists pa then .fault (.noSuchLine pa)
  else .next (
    let g := gslice pa
    let x := slice s g
    if x.evb.contains (pa / 128) then resumeWaits (setSlice s g { x with evb := x.evb.filter (· ≠ pa / 128) }) g else s)

/-! Transaction groups and kills. -/

/-- TXG_ABORT (R309, R321). -/
def execTxgAbort (q serial : Nat) (s : State) : Out :=
  onCmd q serial 0x06 s (fun c => releaseHeld (
    let h := c.n8 0x10
    match handleCheck s c.space h with
    | some st => done s c st 0
    | none =>
      if (txgAt s (hIx h)).ended.isSome then done s c csAlready 0
      else done (txgAbort s (hIx h) 1) c csComplete 0))

/-- TXG_COMMIT_POINT: every slice has checked its staged lines and acknowledged the hold (R318 steps 2 and 3); `bad` names a
staged line whose code fails. -/
def execTxgCommitPoint (d : Nat) (p : TxgPoint) (s : State) : Out :=
  let i := 64 * d + p.slot
  .next (if d < 4 && p.slot < 64 && (txgAt s i).st = .committing then
      releaseHeld (match txgInject s i, p.bad.filter (fun l => thas (txgAt s i).lines l) with
      | some s1, _ => s1
      | none, some line => stageBad s i line
      | none, none => commitPoint s i)
    else s)

/-- TXG_INSTALL: a slice installs its staged lines and releases the accesses held on them (R318 step 4); the slot is free
with the last. Lines of a lost pseudo-channel wait (R242). A line among `bad`, whose code fails since the check, installs with
the mark. -/
def execTxgInstall (d slot : Nat) (p : TxgPart) (s : State) : Out :=
  let i := 64 * d + slot
  .next (if d < 4 && slot < 64 && (txgAt s i).st = .committed then
      let t := txgAt s i
      let (now, rest) := t.lines.partition (fun l => sliceOf (128 * l.1) = p.slice && !isPchHeld s (128 * l.1))
      let s1 := setTxg s i { t with lines := rest, st := if rest.isEmpty then .free else .committed }
      releaseHeld (now.foldl (fun s l => installLine s l.1 { l.2 with mark := l.2.mark || p.bad.contains l.1 }) s1)
    else s)

/-- KILL: a kill request reaches a command in execution (R361). The management engine's own commands are not killed
(R366); a self-test is cancelled by its own row. -/
def execKill (q serial cause : Nat) (s : State) : Out :=
  .next (match cmd? s q serial with
  | none => s
  | some c => if inExec c && 0x40 ≤ cause && cause ≤ 0x43 && c.opc < 0x80 && c.asked = some cause then releaseHeld (startKill s c cause) else s)

end Sys2Proof.Machine
end

