-- ==== Sys2Proof/Machine/ArrData.lean ====
section
/-!
DEFINITION. Array commands: their words (R125 to R131), stream descriptors (R132 to R137), and the exact arithmetic of the
cells (R115, R164 to R174).
-/
namespace Sys2Proof.Machine

/-! Word 0 (R125). -/
def ArrCmd.w0 (c : ArrCmd) : Nat := c.words.getD 0 0
def ArrCmd.opc (c : ArrCmd) : Nat := bits c.w0 3 0
def ArrCmd.mode (c : ArrCmd) : Nat := bits c.w0 6 4
def ArrCmd.fa (c : ArrCmd) : Nat := bits c.w0 11 7
def ArrCmd.fb (c : ArrCmd) : Nat := bits c.w0 16 12
def ArrCmd.scale (c : ArrCmd) : Nat := bits c.w0 18 17
def ArrCmd.load (c : ArrCmd) : Bool := c.w0.testBit 19
def ArrCmd.drain (c : ArrCmd) : Nat := bits c.w0 21 20
def ArrCmd.ofmt (c : ArrCmd) : Nat := bits c.w0 26 22
def ArrCmd.rnd (c : ArrCmd) : Nat := bits c.w0 28 27
def ArrCmd.chk (c : ArrCmd) : Nat := bits c.w0 30 29
def ArrCmd.neg (c : ArrCmd) : Bool := c.w0.testBit 31
def ArrCmd.multi (c : ArrCmd) : Nat := bits c.w0 34 32
def ArrCmd.fuse (c : ArrCmd) : Nat := bits c.w0 38 35
def ArrCmd.kBlk (c : ArrCmd) : Nat := bits c.w0 51 40
def ArrCmd.k (c : ArrCmd) : Nat := 32 * c.kBlk

/-- R121: problems, M, N of a mode. -/
def modeShape (m : Nat) : Nat × Nat × Nat :=
  match m with
  | 0 => (1, 128, 128)
  | 1 => (1, 32, 512)
  | 2 => (1, 8, 2048)
  | 3 => (4, 64, 64)
  | _ => (16, 32, 32)

def ArrCmd.probs (c : ArrCmd) : Nat := (modeShape c.mode).1
def ArrCmd.m (c : ArrCmd) : Nat := (modeShape c.mode).2.1
def ArrCmd.n (c : ArrCmd) : Nat := (modeShape c.mode).2.2
def ArrCmd.quilt (c : ArrCmd) : Bool := c.mode ≥ 3
def ArrCmd.cplx (c : ArrCmd) : Bool := c.multi ≥ 3
/-- Elements per scale (R125), 0 for none. -/
def ArrCmd.group (c : ArrCmd) : Nat := if c.scale = 1 then 32 else if c.scale = 2 then 16 else 0
/-- Copies of an operand at QSTRIDE: problems of a quilt, planes of a complex operand (R132). -/
def ArrCmd.planes (c : ArrCmd) (isC : Bool) : Nat := if c.quilt then c.probs else if c.cplx && !isC then 2 else 1

/-- Rows and columns of an operand tile: 0 A, 1 B, 2 C. -/
def ArrCmd.dims (c : ArrCmd) (o : Nat) : Nat × Nat :=
  match o with
  | 0 => (c.m, c.k)
  | 1 => (c.k, c.n)
  | _ => (c.m, c.n)

/-- Logical array row and column of element (i, j) of problem p (R121). -/
def ArrCmd.place (c : ArrCmd) (p i j : Nat) : Nat × Nat :=
  match c.mode with
  | 0 => (i, j)
  | 1 => (32 * (j / 128) + i, j % 128)
  | 2 => (8 * (j / 128) + i, j % 128)
  | 3 => (64 * (p / 2) + i, 64 * (p % 2) + j)
  | _ => (32 * (p / 4) + i, 32 * (p % 4) + j)

/-! Refusal codes (R131). -/
def arRsvd : Nat := 1
def arFmt : Nat := 2
def arScale : Nat := 3
def arOut : Nat := 4
def arAlign : Nat := 5
def arWgm : Nat := 6
def arKind : Nat := 7
def arMode : Nat := 8

/-- R127: a format value that is not reserved. -/
def arrFmtOk (f : Nat) : Bool := f ≤ 0x0A || f = 0x0C

/-- Reserved bits and values of word 0 (R125, R171). -/
def w0Ok (c : ArrCmd) : Bool :=
  bits c.w0 39 39 = 0 && bits c.w0 63 52 = 0 && c.mode ≤ 4 && c.opc ≤ 6 && c.scale ≠ 3 && c.drain ≠ 0 && c.rnd ≠ 3 && c.chk ≠ 3 &&
    c.multi ≤ 4 && c.kBlk ≠ 0 && arrFmtOk c.fa && arrFmtOk c.fb && arrFmtOk c.ofmt && (c.fuse = 0 || c.drain = 3) &&
    !(c.neg && c.opc ≥ 5)

/-- R130: the reserved bits of an operand word. -/
def operandOk (w : Nat) : Bool :=
  match bits w 1 0 with
  | 0 => w = 0
  | 1 => bits w 6 2 = 0 && bits w 63 27 = 0
  | 2 => bits w 5 2 = 0
  | _ => false

/-- Formats of 8 bits and fewer that are floating-point. -/
def fp8s (f : Nat) : Bool := 3 ≤ f && f ≤ 7
def ints (f : Nat) : Bool := f = 8 || f = 9
/-- The floating-point output formats of MMA. -/
def fpOuts (f : Nat) : Bool := f ≤ 4

/-- R128, R129, R173: the code of a refusal for the formats, or none. -/
def pairRefuse (c : ArrCmd) : Option Nat :=
  let same := c.fa = c.fb
  let deliver (outs : Nat → Bool) : Option Nat :=
    if !outs c.ofmt || (c.drain = 2 && !(c.ofmt = 0 && c.rnd = 0 && !c.load)) || (c.drain = 3 && c.ofmt ≠ 0) ||
      (c.rnd = 2 && c.ofmt = 0x0A) then some arOut else none
  let scaled (ok : Bool) (outs : Nat → Bool) : Option Nat := if c.scale ≠ 0 && !ok then some arScale else deliver outs
  if c.multi ≥ 3 && c.quilt then some arMode
  else if c.multi ≠ 0 && c.opc ≠ 0 then some arFmt
  else if c.multi ≠ 0 && c.scale ≠ 0 then some arScale
  else if c.multi = 1 then (if c.fa = 0 && c.fb = 0 then deliver fpOuts else some arFmt)
  else if c.multi = 2 then (if c.fa = 0x0C && c.fb = 0x0C then deliver (fun f => f = 0x0A) else some arFmt)
  else match c.opc with
  | 0 =>
    if fp8s c.fa && fp8s c.fb then scaled true fpOuts
    else if ints c.fa && ints c.fb then scaled true (fun f => if c.scale = 0 then f = 0x0A else fpOuts f)
    else if same && (c.fa = 1 || c.fa = 2) then scaled false fpOuts
    else some arFmt
  | 1 => if same && 1 ≤ c.fa && c.fa ≤ 4 then scaled false (fun f => f ≤ 2) else some arFmt
  | 2 => if same && 1 ≤ c.fa && c.fa ≤ 4 then scaled false (fun f => f ≤ 2) else some arFmt
  | 3 => if same && (c.fa = 3 || c.fa = 8 || c.fa = 1) then scaled false (fun f => f ≤ 1) else some arFmt
  | 4 => if same && (c.fa = 3 || c.fa = 8 || c.fa = 1) then scaled false (fun f => f ≤ 1) else some arFmt
  | _ => if same && (c.fa = 3 || c.fa = 8 || c.fa = 9) then scaled false (fun f => f = 0x0A) else some arFmt

/-- R130: the kinds of the three operands. -/
def kindsOk (c : ArrCmd) : Bool :=
  let k (i : Nat) : Nat := bits (c.words.getD i 0) 1 0
  (k 1 = 1 || k 1 = 2) && (k 2 = 1 || k 2 = 2) && (c.drain ≠ 2 || k 3 = 2) && (k 3 ≠ 0 || (!c.load && c.drain = 3))

/-! Operands (R132 to R137). -/

/-- A workgroup-memory operand (R136): its tile of `r` by `cl` elements of `w` bits. -/
def wgmOpd (off r cl w g : Nat) (saxis : Bool) : ArrOpd :=
  let rb := (r + 31) / 32
  let cb := (cl + 31) / 32
  let e := rb * cb * 128 * w
  { kind := 1, base := off, sbase := off + e, listed := false, list := [], listLen := 0
    qstride := e + (if g = 0 then 0 else rb * cb * 32 * (32 / g)), bstride := cb, trans := false, saxis := saxis
    orgR := 0, orgC := 0, extR := r, extC := cl }

/-- Bytes of one copy of a workgroup-memory operand. -/
def wgmOpdSize (r cl w g : Nat) : Nat := (wgmOpd 0 r cl w g false).qstride

/-- A descriptor of 64 bytes, with its list. -/
def descOpd (d : List Nat) (list : List Nat) : ArrOpd :=
  let fl := leAt4 d 0x24
  { kind := 2, base := leAt8 d 0, sbase := leAt8 d 8, listed := leAt8 d 0x10 ≠ 0, list := list, listLen := leAt4 d 0x38
    qstride := leAt8 d 0x18, bstride := bits (leAt4 d 0x20) 23 0, trans := fl.testBit 0, saxis := fl.testBit 1
    orgR := leAt4 d 0x28, orgC := leAt4 d 0x2C, extR := leAt4 d 0x30, extC := leAt4 d 0x34 }

/-- R132, R134, R135: the code of a refusal for a descriptor of operand `o` (0 A, 1 B, 2 C), or none. -/
def descRefuse (c : ArrCmd) (o : Nat) (d : List Nat) (list : List Nat) : Option Nat :=
  let x := descOpd d list
  let g := if o = 2 then 0 else c.group
  let (uo, vo) := if x.trans then (x.orgC, x.orgR) else (x.orgR, x.orgC)
  let mu := if o = 0 && c.mode = 2 then 8 else 32
  if bits (leAt4 d 0x20) 31 24 ≠ 0 || (bits (leAt4 d 0x20) 23 0 = 0 && !x.listed) || leAt4 d 0x24 ≥ 4 || leAt4 d 0x3C ≠ 0 ||
      (x.listed && x.base ≠ 0) || list.any (fun e => bits e 6 1 ≠ 0) then some arRsvd
  else if x.base % 128 ≠ 0 || leAt8 d 0x10 % 8 ≠ 0 || x.qstride % 128 ≠ 0 || (g ≠ 0 && x.sbase % (if g = 16 then 64 else 32) ≠ 0) ||
      uo % mu ≠ 0 || vo % 32 ≠ 0 then some arAlign
  else if g ≠ 0 && (x.sbase = 0 || x.saxis ≠ (if o = 0 then x.trans else !x.trans)) then some arScale
  else none

/-- Stored row and column of tile element (u, v) (R132). -/
def ArrOpd.stored (x : ArrOpd) (u v : Nat) : Nat × Nat := if x.trans then (x.orgR + v, x.orgC + u) else (x.orgR + u, x.orgC + v)

/-- R133, R135, R137: byte address, bit position, and scale address of tile element (u, v) of copy p; none where it reads as
zero without an access. `w` bits an element, `g` elements a scale. -/
def ArrOpd.loc (x : ArrOpd) (w g p u v : Nat) : Option (Nat × Nat × Nat) :=
  let (r, cl) := x.stored u v
  if r ≥ x.extR || cl ≥ x.extC then none
  else
    let bitp := (r % 32 * 32 + cl % 32) * w
    let sb := if g = 0 then 0 else 32 * (32 / g)
    let sidx := if x.saxis then cl % 32 else r % 32
    let kpos := if x.saxis then r % 32 else cl % 32
    let so := if g = 0 then 0 else sidx * (32 / g) + kpos / g
    if x.listed then
      if r / 32 ≥ x.listLen then none
      else
        let e := x.list.getD (p * x.listLen + r / 32) 0
        if e.testBit 0 then none
        else
          let b := e / 128 * 128
          some (b + cl / 32 * (128 * w) + bitp / 8, bitp % 8, b + x.sbase + cl / 32 * sb + so)
    else
      let bl := r / 32 * x.bstride + cl / 32
      some (x.base + p * x.qstride + bl * (128 * w) + bitp / 8, bitp % 8, x.sbase + p * x.qstride + bl * sb + so)

/-- Every (copy, u, v) of an operand tile. -/
def ArrCmd.tilePos (c : ArrCmd) (o : Nat) : List (Nat × Nat × Nat) :=
  let (r, cl) := c.dims o
  ((List.range (c.planes (o == 2))).map (fun p => ((List.range r).map (fun u => (List.range cl).map (fun v => (p, u, v)))).flatten)).flatten

/-- Format of an operand. -/
def ArrCmd.fmt (c : ArrCmd) (o : Nat) : Nat := if o = 0 then c.fa else if o = 1 then c.fb else c.ofmt

/-- The lines an operand touches: by line number, the lowest byte address used in it. -/
def ArrCmd.lines (c : ArrCmd) (o : Nat) (x : ArrOpd) : Tab Nat :=
  let w := fmtBits (c.fmt o)
  let g := if o = 2 then 0 else c.group
  let note (t : Tab Nat) (a : Nat) : Tab Nat := tput t (a / 128) (match tget? t (a / 128) with
    | some b => if a < b then a else b
    | none => a)
  (c.tilePos o).foldl (fun t q => match x.loc w g q.1 q.2.1 q.2.2 with
    | none => t
    | some (a, sh, sa) =>
      let t1 := note (note t a) (a + (sh + w - 1) / 8)
      if g = 0 then t1 else note t1 sa) []

/-! Element values. -/

/-- An element code: `w` bits at a byte address and bit position. -/
def codeAt (rd : Nat → Nat) (a sh w : Nat) : Nat :=
  (ofBytes ((rangeFrom a ((sh + w + 7) / 8)).map rd)) / 2 ^ sh % 2 ^ w

/-- The code and scale of an operand's tile element. -/
def ArrCmd.elem (c : ArrCmd) (o : Nat) (x : ArrOpd) (rd : Nat → Nat) (p u v : Nat) : Nat × Nat :=
  let w := fmtBits (c.fmt o)
  let g := if o = 2 then 0 else c.group
  match x.loc w g p u v with
  | none => (0, 127)
  | some (a, sh, sa) => (codeAt rd a sh w, if g = 0 then 127 else rd sa)

/-- Splitting of R172: the 12 leading bits of an FP32 value, and the rest. -/
def hi32 : FV → FV
  | .fin n m e => if m < 2 ^ 12 then .fin n m e else
      let sh := Nat.log2 m - 11
      .fin n (m >>> sh <<< sh) e
  | v => v

def lo32 : FV → FV
  | .fin n m e => (FV.fin n m e).add (hi32 (.fin n m e)).neg
  | _ => .fin false 0 0

/-- R173: the halves of an INT16. -/
def hi16 (x : Nat) : FV := ofInt (Int.fdiv (sext 16 x) 256)
def lo16 (x : Nat) : FV := ofInt (Int.fmod (sext 16 x) 256)

/-- One pass of a command (R129): which plane of A and B, the parts of their elements (0 whole, 1 hi, 2 lo), the shift of the
products, whether they are negated. -/
structure Pass where
  pa    : Nat
  pb    : Nat
  partA : Nat
  partB : Nat
  shift : Nat
  neg   : Bool
  deriving DecidableEq, Repr

def ArrCmd.passes (c : ArrCmd) : List Pass :=
  match c.multi with
  | 0 => [⟨0, 0, 0, 0, 0, false⟩]
  | 1 => [⟨0, 0, 2, 1, 0, false⟩, ⟨0, 0, 1, 2, 0, false⟩, ⟨0, 0, 1, 1, 0, false⟩]
  | 2 => [⟨0, 0, 2, 2, 0, false⟩, ⟨0, 0, 2, 1, 8, false⟩, ⟨0, 0, 1, 2, 8, false⟩, ⟨0, 0, 1, 1, 16, false⟩]
  | 3 => [⟨0, 0, 0, 0, 0, false⟩, ⟨1, 1, 0, 0, 0, true⟩]
  | _ => [⟨0, 1, 0, 0, 0, false⟩, ⟨1, 0, 0, 0, 0, false⟩]

/-- The value of an element as a pass takes it. -/
def elemVal (f part code : Nat) (scaled : Bool) : FV :=
  if f = 0x0C then (if part = 1 then hi16 code else lo16 code)
  else
    let v := ofElem f code scaled
    if part = 1 then hi32 v else if part = 2 then lo32 v else v

/-- The term of one K position (R170), before NEG. A product whose lo factor is zero is +0 (R172). -/
def termOf (opc : Nat) (loA loB : Bool) (a b : FV) : FV :=
  match opc with
  | 0 => if (loA && a.isZero) || (loB && b.isZero) then .fin false 0 0 else a.mul b
  | 1 => f32 (toF32 (a.add b))
  | 2 => f32 (toF32 (a.add b))
  | 3 => let d := a.add b.neg; d.mul d
  | 4 => (a.add b.neg).abs
  | 5 => if FV.cmp a b = some .gt then ofInt 1 else ofInt 0
  | _ => if FV.cmp a b = some .eq then ofInt 1 else ofInt 0

/-- The result lies in an INT32 accumulator (R169, R170). -/
def ArrCmd.intAcc (c : ArrCmd) : Bool := c.opc ≥ 5 || c.multi = 2 || (c.opc = 0 && c.multi ≠ 1 && ints c.fa && ints c.fb && c.scale = 0)

/-- The width of the window below t (R165, R166), or none where the adder is exact. -/
def ArrCmd.window (c : ArrCmd) : Option Nat :=
  if c.multi = 1 || c.fa = 1 || c.fa = 2 then some 79
  else
    let e5 (a b : Nat) : Bool := a = 4 && (b = 4 || b = 3 || b = 5 || b = 6)
    if e5 c.fa c.fb || e5 c.fb c.fa || (c.opc = 3 && c.fa = 3) then some (if c.scale = 2 then 37 else 36) else none

/-- Products of one group (R164, R166). -/
def ArrCmd.groupLen (c : ArrCmd) : Nat := if c.multi = 1 || ((c.multi = 0 || c.multi ≥ 3) && (c.fa = 1 || c.fa = 2)) then 8 else if c.scale = 2 then 16 else 32

/-- R126: the identity an accumulator starts from. -/
def ArrCmd.identity (c : ArrCmd) : Nat := if c.opc = 1 then 0x7F80_0000 else if c.opc = 2 then 0xFF80_0000 else 0

/-- One element of C: the accumulator takes C0, then the group sums of each pass in ascending K (R168, R169, R175). `ea p u v`
and `eb` give the codes and scales of A and B. -/
def ArrCmd.accOf (c : ArrCmd) (ea eb : Nat → Nat → Nat → Nat × Nat) (p i j start : Nat) : Nat :=
  let g := c.groupLen
  let scaled := c.scale ≠ 0
  c.passes.foldl (fun acc (ps : Pass) =>
    let qa := if c.quilt then p else ps.pa
    let qb := if c.quilt then p else ps.pb
    let term (k : Nat) : FV :=
      let a := elemVal c.fa ps.partA (ea qa i k).1 scaled
      let b := elemVal c.fb ps.partB (eb qb k j).1 scaled
      let t := (termOf c.opc (ps.partA = 2) (ps.partB = 2) a b).mul (.fin false 1 ps.shift)
      if c.neg != ps.neg then t.neg else t
    (List.range (c.k / g)).foldl (fun acc gi =>
      let ks := rangeFrom (g * gi) g
      if c.opc = 1 then ks.foldl (fun acc k => (toF32 ((f32 (BitVec.ofNat 32 acc)).min (term k))).toNat) acc
      else if c.opc = 2 then ks.foldl (fun acc k => (toF32 ((f32 (BitVec.ofNat 32 acc)).max (term k))).toNat) acc
      else
        let sum := groupSum (if c.intAcc then none else c.window) (ks.map term)
        if c.intAcc then
          wrap 32 ((acc : Int) + (match sum with
            | .fin n m e => let x : Int := ((m <<< e.toNat : Nat) : Int); if n then -x else x
            | _ => 0))
        else
          let s1 := if scaled then (sum.mul (ue8m0 (ea qa i (g * gi)).2)).mul (ue8m0 (eb qb (g * gi) j).2) else sum
          (toF32 ((f32 (BitVec.ofNat 32 acc)).add s1)).toNat) acc) start

/-- The accumulator's start from a C element under LOAD: read in OUT_FMT, exact in FP32 (R168). -/
def ArrCmd.startOf (c : ArrCmd) (code : Nat) : Nat := if c.ofmt = 0x0A then code else (toF32 (ofFmt c.ofmt code)).toNat

/-- The drain's conversion of an accumulator to OUT_FMT (R158 to R160); `md` is the rounding. -/
def ArrCmd.convert (c : ArrCmd) (md : Rnd) (acc : Nat) : Nat :=
  if c.intAcc then (if c.ofmt = 0x0A then acc else toFmt c.ofmt md (ofInt (sext 32 acc)))
  else toFmt c.ofmt md (f32 (BitVec.ofNat 32 acc))

end Sys2Proof.Machine
end

