-- ==== Sys2Proof/Machine/Hem.lean ====
section
/-!
DEFINITION. Hem checksums of the matrix array: which cells each check covers (R145), the sums of the feeders, the hem cells and
the drain (R143, R159), the threshold (R144), the hem channels and capture buffers (R119).
-/
namespace Sys2Proof.Machine

/-! Hem cells by number: 0 to 127 the hem column's cell of a logical row, 128 to 255 the hem row's cell of a logical column,
256 the corner cell (R113). -/

def hemRow (r : Nat) : Nat := r
def hemCol (l : Nat) : Nat := 128 + l
def hemCorner : Nat := 256

/-- What a check covers: a problem, rows and columns of its C. -/
structure Cover where
  p  : Nat
  is : List Nat
  js : List Nat
  deriving DecidableEq, Repr

/-- The check of a logical row (R145). -/
def rowCover (mode r : Nat) : Cover :=
  match mode with
  | 0 => ⟨0, [r], List.range 128⟩
  | 1 => ⟨0, [r % 32], rangeFrom (128 * (r / 32)) 128⟩
  | 2 => ⟨0, [r % 8], rangeFrom (128 * (r / 8)) 128⟩
  | 3 => ⟨2 * (r / 64) + 1, [r % 64], List.range 64⟩
  | _ => ⟨4 * (r / 32) + 3, [r % 32], List.range 32⟩

/-- The check of a logical column (R145). -/
def colCover (mode l : Nat) : Cover :=
  match mode with
  | 0 => ⟨0, List.range 128, [l]⟩
  | 1 => ⟨0, List.range 32, [384 + l]⟩
  | 2 => ⟨0, List.range 8, [1920 + l]⟩
  | 3 => ⟨2 + l / 64, List.range 64, [l % 64]⟩
  | _ => ⟨12 + l / 32, List.range 32, [l % 32]⟩

/-- The corner check: the rows and columns whose sums meet in the corner cell (R122, R143; DEDUCED). -/
def cornerCover (mode : Nat) : Cover :=
  match mode with
  | 0 => ⟨0, List.range 128, List.range 128⟩
  | 1 => ⟨0, List.range 32, rangeFrom 384 128⟩
  | 2 => ⟨0, List.range 8, rangeFrom 1920 128⟩
  | 3 => ⟨3, List.range 64, List.range 64⟩
  | _ => ⟨15, List.range 32, List.range 32⟩

/-- The rows whose drain sums the corner check adds (R143). -/
def cornerRows (mode : Nat) : List Nat :=
  match mode with
  | 0 => List.range 128
  | 1 => rangeFrom 96 32
  | 2 => rangeFrom 120 8
  | 3 => rangeFrom 64 64
  | _ => rangeFrom 96 32

def hemCover (mode id : Nat) : Cover :=
  if id < 128 then rowCover mode id else if id < 256 then colCover mode (id - 128) else cornerCover mode

/-- The checks of a command: with COL2 in use the hem column computes data, and only column checks are left (R145). -/
def hemCells (col2 : Bool) : List Nat := if col2 then rangeFrom 128 128 else List.range 257

/-! Sums (R143). -/

/-- Exact sum of values. -/
def sumFV (xs : List FV) : FV := xs.foldl FV.add (.fin false 0 0)

/-- The value of an operand element as a pass takes it, after its block scale. -/
def scaledPart (f part : Nat) (sc : Bool) (e : Nat × Nat) : FV :=
  let v := elemVal f part e.1 sc
  if sc then v.mul (ue8m0 e.2) else v

/-- The codes and scales of A and B, and C0 as a value, as a command has read them. -/
structure HemIn where
  ea : Nat → Nat → Nat → Nat × Nat
  eb : Nat → Nat → Nat → Nat × Nat
  c0 : Nat → Nat → Nat → FV

/-- a_hem(k) over the rows `is`, or α(k) with `mag`. -/
def ArrCmd.aHem (c : ArrCmd) (x : HemIn) (mag : Bool) (ps : Pass) (v : Cover) (k : Nat) : FV :=
  sumFV (v.is.map (fun i =>
    let a := scaledPart c.fa ps.partA (c.scale ≠ 0) (x.ea (if c.quilt then v.p else ps.pa) i k)
    if mag then a.abs else a))

/-- b_hem(k) over the columns `js`, or β(k) with `mag`. -/
def ArrCmd.bHem (c : ArrCmd) (x : HemIn) (mag : Bool) (ps : Pass) (v : Cover) (k : Nat) : FV :=
  sumFV (v.js.map (fun j =>
    let b := scaledPart c.fb ps.partB (c.scale ≠ 0) (x.eb (if c.quilt then v.p else ps.pb) k j)
    if mag then b.abs else b))

/-- The product that a hem cell takes for a K position of a pass: the sum of the check's products, or of their magnitudes. -/
def ArrCmd.hemTerm (c : ArrCmd) (x : HemIn) (mag : Bool) (v : Cover) (ps : Pass) (k : Nat) : FV :=
  let a := c.aHem x mag ps v k
  let b := c.bHem x mag ps v k
  let t := (termOf 0 (ps.partA = 2) (ps.partB = 2) a b).mul (.fin false 1 ps.shift)
  if !mag && (c.neg != ps.neg) then t.neg else t

/-- An exact integer sum joins an INT32 accumulator. -/
def wrapAdd (acc : Nat) (v : FV) : Nat :=
  wrap 32 ((acc : Int) + (match v with
    | .fin n m e => let x : Int := ((m <<< e.toNat : Nat) : Int); if n then -x else x
    | _ => 0))

/-- One accumulator of a hem cell: it starts from its sum of C0 and takes the group sums of every pass in ascending K, each
with one rounding to nearest-even (R159), or modulo 2^32. -/
def ArrCmd.hemAcc (c : ArrCmd) (x : HemIn) (mag : Bool) (v : Cover) : Nat :=
  let c0 := sumFV ((v.is.map (fun i => v.js.map (fun j => if mag then (x.c0 v.p i j).abs else x.c0 v.p i j))).flatten)
  let start := if c.intAcc then wrapAdd 0 c0 else (toF32 c0).toNat
  c.passes.foldl (fun acc ps =>
    (List.range (c.k / c.groupLen)).foldl (fun acc gi =>
      let sum := sumFV ((rangeFrom (c.groupLen * gi) c.groupLen).map (c.hemTerm x mag v ps))
      if c.intAcc then wrapAdd acc sum else (toF32 ((f32 (BitVec.ofNat 32 acc)).add sum)).toNat) acc) start

/-- The accumulators of the hem cells of a command. -/
def ArrCmd.hemAll (c : ArrCmd) (x : HemIn) (cells : List Nat) : Tab (Nat × Nat) :=
  cells.foldl (fun t id => tput t id (c.hemAcc x false (hemCover c.mode id), c.hemAcc x true (hemCover c.mode id))) []

def FV.isFin : FV → Bool
  | .fin _ _ _ => true
  | _ => false

/-- The magnitude G of a check. -/
def ArrCmd.hemG (c : ArrCmd) (id : Nat) : FV := f32 (BitVec.ofNat 32 (tgetD c.hem id (0, 0)).2)

/-- R144: a check is skipped when G, and so any operand value in it, is not finite. -/
def ArrCmd.hemOut (c : ArrCmd) (t : Tab (Nat × Nat)) (cells : List Nat) : List Nat :=
  if c.intAcc then [] else cells.filter (fun id => !(f32 (BitVec.ofNat 32 (tgetD t id (0, 0)).2)).isFin)

/-! Drain sums (R143, R159). -/

/-- The cell index of (problem, row, column) among the accumulators. -/
def ArrCmd.cellIx (c : ArrCmd) (p i j : Nat) : Nat := (p * c.m + i) * c.n + j

/-- The drain's sum of accumulators: adjacent pairs round by round in FP32, or modulo 2^32. -/
def drainSum (int : Bool) (xs : List Nat) : Nat :=
  if int then (xs.foldl (· + ·) 0) % 2 ^ 32
  else (((treeFold f32Add 7 (xs.map (BitVec.ofNat 32))).head?).getD 0).toNat

/-- What the drain produces for a check: D, E, or the sum of D over the corner's rows. -/
def ArrCmd.produced (c : ArrCmd) (acc : List Nat) (id : Nat) : Nat :=
  let line (v : Cover) : Nat := drainSum c.intAcc ((v.is.map (fun i => v.js.map (fun j => acc.getD (c.cellIx v.p i j) 0))).flatten)
  if id < 256 then line (hemCover c.mode id) else drainSum c.intAcc ((cornerRows c.mode).map (fun r => line (rowCover c.mode r)))

/-- R144: the accumulator roundings per cell. -/
def ArrCmd.nk (c : ArrCmd) : Nat := c.passes.length * (c.k / c.groupLen)

/-- R144: the threshold of a check, `t` = TSHIFT. -/
def ArrCmd.tau (c : ArrCmd) (t id : Nat) : FV := ((c.hemG id).mul (ofInt (c.nk + 8))).mul (.fin false 1 (-(t : Int)))

/-- R144: the check fails. A difference that is no number fails (DEDUCED). -/
def ArrCmd.checkFails (c : ArrCmd) (t : Nat) (acc : List Nat) (id : Nat) : Bool :=
  let e := (tgetD c.hem id (0, 0)).1
  let p := c.produced acc id
  if c.intAcc then e ≠ p
  else match FV.cmp ((f32 (BitVec.ofNat 32 e)).add (f32 (BitVec.ofNat 32 p)).neg).abs (c.tau t id) with
    | some .lt => false
    | some .eq => false
    | _ => true

/-- The failed row checks, the failed column checks, and whether the corner check failed: the cells that gave up and those
with a value that is not finite are left out. -/
def ArrCmd.hemFails (c : ArrCmd) (t : Nat) (acc : List Nat) : List Nat × List Nat × Bool :=
  let live (id : Nat) : Bool := thas c.hem id && !thas c.gave id && !c.hemNan.contains id && c.checkFails t acc id
  ((List.range 128).filter (fun r => live (hemRow r)), (List.range 128).filter (fun l => live (hemCol l)), live hemCorner)

/-! Hem channels (R119). -/

/-- One hem cell's capture buffer over the K positions of a command: operand `k` reaches it; the values of operands before it
that have arrived by then take theirs from the buffer; an operand whose value has not arrived enters it. `late k` is the
number of operands, itself among them, that reach the cell before its value; values arrive in order. Answers the positions
held when the buffer was full and another had to enter. -/
def capture (late : Nat → Nat) : Nat → Nat → Nat → List (Nat × Nat) → Option (List Nat)
  | 0, _, _, _ => none
  | n + 1, k, last, buf =>
    let arr := max last (k + late k)
    let held := buf.filter (fun e => e.2 > k)
    if arr ≤ k then capture late n (k + 1) arr held
    else if held.length ≥ 32 then some (held.map (·.1))
    else capture late n (k + 1) arr (held ++ [(k, arr)])

/-- The hem cells that give up their check: `late` lists, by cell and K position over all passes, how many operands reach the
cell before the channel value. -/
def ArrCmd.gaveUp (c : ArrCmd) (cells : List Nat) (late : List (Nat × Nat × Nat)) : Tab (List Nat) :=
  cells.foldl (fun t id =>
    let mine := late.filter (fun e => e.1 == id)
    if mine.isEmpty then t
    else match capture (fun k => ((mine.find? (fun e => e.2.1 == k)).map (·.2.2)).getD 0) (c.passes.length * c.k) 0 0 [] with
      | some held => tput t id held
      | none => t) []

end Sys2Proof.Machine
end

