-- ==== Sys2Proof/Machine/TileIo.lean ====
section
/-!
DEFINITION. What the array and the row engine share: translation during acceptance (R123, R182, R262), reading and writing
lines of memory and of workgroup memory, requests to other devices, completion of the bundle (R111).
-/
namespace Sys2Proof.Machine

/-- A command of an A slot as its tile holds it: tile, number in the tile's A-slot order, group slot, workgroup, space, where
its lines lead. -/
structure ASlot where
  t     : Nat
  n     : Nat
  slot  : Nat
  wg    : Nat
  space : Nat
  xl    : Tab Dest
  pins  : List Nat
  far   : Tab Nat
  deriving DecidableEq, Repr

def ArrCmd.at_ (c : ArrCmd) (t : Nat) : ASlot := ⟨t, c.aseq, c.slot, c.wg, c.space, c.xl, c.pins, c.far⟩
def RowCmd.at_ (c : RowCmd) (t : Nat) : ASlot := ⟨t, c.aseq, c.slot, c.wg, c.space, c.xl, c.pins, c.far⟩

def ASlot.die (a : ASlot) : Nat := tileDie a.t
def ASlot.owner (a : ASlot) : ReqOwner := .aslot a.t a.n

/-- The whole line that a destination lies in. -/
def Dest.line : Dest → Dest
  | .loc p => .loc (lineBase p)
  | .mir p g => .mir (lineBase p) g.line
  | .rem g => .rem g.line

/-- Where translated lines lead, by virtual line number. -/
def xlOf (o : XOut) : Tab Dest := o.ok.foldl (fun m x => tput m (x.1 / 128) x.2.1.line) []

def ASlot.dest (a : ASlot) (l : Nat) : Dest := (tget? a.xl l).getD (.loc 0)

/-! Byte ranges: in workgroup memory or in memory, first byte, length. -/

structure Span where
  wgm : Bool
  a   : Nat
  n   : Nat
  deriving DecidableEq, Repr

/-- The lines of memory that byte ranges use, with the lowest byte used in each. -/
def spanLines (xs : List Span) : Tab Nat :=
  (xs.filter (fun x => !x.wgm && x.n ≠ 0)).foldl (fun t x =>
    (linesOf x.a x.n).foldl (fun t l =>
      let b := if l < x.a then x.a else l
      tput t (l / 128) (match tget? t (l / 128) with
        | some c => if b < c then b else c
        | none => b)) t) []

/-- One kind of access that a command makes: by line, the lowest byte used. -/
abbrev Need := Tab Nat × Acc4

/-- The base of the range entry that a translated address uses. -/
def rangeOf (s : State) (t space va : Nat) : Nat := ((cacheFind s (agTile t) space va).map (·.vbase)).getD va

/-- A line's entry joins the pinned set while the set holds fewer than 32; beyond it, the line keeps its entry's base (R262). -/
def ASlot.pin (a : ASlot) (l base : Nat) : ASlot :=
  if a.pins.contains base then a
  else if a.pins.length < 32 then { a with pins := a.pins ++ [base] } else { a with far := tput a.far l base }

/-- Lines are translated one after another, and their entries pinned. -/
def ASlot.lines (a : ASlot) (s : State) (k : Acc4) : List Nat → (XOut × ASlot) × State
  | [] => (({}, a), s)
  | va :: t =>
    match translate s (agTile a.t) a.die a.space va k false with
    | (.inl c, s1) =>
      let ((o, b), s2) := a.lines s1 k t
      (({ o with fails := (va, c) :: o.fails }, b), s2)
    | (.inr (d, ord), s1) =>
      let ((o, b), s2) := (a.pin (va / 128) (rangeOf s1 a.t a.space va)).lines s1 k t
      (({ o with ok := (va, d, ord) :: o.ok }, b), s2)

/-- The accesses of a command are translated in order. -/
def ASlot.eachNeed (a : ASlot) (s : State) : List Need → (List (XOut × Acc4) × ASlot) × State
  | [] => (([], a), s)
  | n :: t =>
    let vas := n.1.map (·.2)
    let ((o, a1), s1) := a.lines s n.2 vas
    let ((os, a2), s2) := a1.eachNeed (mergeWalks s s1 (agTile a.t) a.die a.space vas) t
    (((o, n.2) :: os, a2), s2)

/-- R263: every line of every kind of access is translated: the joint failure, or where the lines lead and which entries they
use (R262). -/
def ASlot.xlate (s : State) (a : ASlot) (needs : List Need) : (Option (XOut × Acc4) × ASlot) × State :=
  let ((os, a1), s1) := a.eachNeed s needs
  match joinFails os with
  | some f => ((some f, a), countXltFault s1 a.die f.1)
  | none => ((none, { a1 with xl := os.foldl (fun m x => x.1.ok.foldl (fun m y => tput m (y.1 / 128) y.2.1.line) m) a.xl }), s1)

/-- R262: each entry beyond the pinned set that lines use is looked up again as the stream comes to it; the lookup never
faults. -/
def ASlot.again (s : State) (a : ASlot) (ls : List Nat) : State :=
  let far := ls.filterMap (fun l => (tget? a.far l).map (fun b => (b, l)))
  (((far.map (·.1)).eraseDups).filterMap (fun b => far.find? (fun x => x.1 == b))).foldl (fun s x =>
    (lookup s (agTile a.t) a.die a.space (128 * x.2)).2) s

/-- A refused translation faults the group precisely (R123, R182): FAULT_LANES 0, the lowest failing address. -/
def ASlot.xfault (s : State) (a : ASlot) (raw last : Nat) (f : XOut × Acc4) : State :=
  match f.1.fault with
  | some (addr, c) => groupFault s a.t a.slot (mkFault (causeCode c) 0 addr raw c f.2.code last)
  | none => s

/-- The highest line that accesses use, as an address. -/
def lastOf (needs : List Need) : Nat := highest ((needs.map (fun n => n.1.map (fun l => 128 * l.1 + 127))).flatten)

/-! Reading. -/

def ASlot.readReq (s : State) (a : ASlot) (g : Glob) : Option Req :=
  s.reqs.find? (fun r => r.owner == a.owner && r.k.kind == pkRead && r.k.dst == g.dev && r.k.addr == g.addr)

/-- A local line among them waits for a commit or a redirect (R242, R318). -/
def ASlot.held (s : State) (a : ASlot) (ls : List Nat) : Bool :=
  ls.any (fun l => match a.dest l with
    | .loc p => lineHeld s p
    | .mir p _ => lineHeld s p
    | .rem _ => false)

/-- Lines that the command is about to read: remote ones are asked for. Answers whether every line can be read now. -/
def ASlot.gather (s : State) (a : ASlot) (ls : List Nat) : Bool × State :=
  let gs := (ls.filterMap (fun l => match a.dest l with
    | .rem g => some g
    | _ => none)).eraseDups
  let miss := gs.filter (fun g => (a.readReq s g).isNone)
  if a.held s ls then (false, s)
  else if !miss.isEmpty then
    (false, miss.foldl (fun s g => sendReq s { pktTo (packet0 pkRead 0 a.space 0) g with stream := strGroup a.t a.slot } a.owner) s)
  else if gs.all (fun g => ((a.readReq s g).bind (·.res)).isSome) then
    (true, touchDests s (spaceSlot s a.die a.space) (ls.map a.dest))
  else (false, s)

/-- One line as the command reads it, with its mark; a refused or lost read gives a marked line (R406). -/
def ASlot.line (s : State) (a : ASlot) (l : Nat) : List Nat × Bool :=
  let slot := spaceSlot s a.die a.space
  match a.dest l with
  | .loc p => (readPhys s slot p 128, isMarked s p)
  | .mir p _ => (readPhys s slot p 128, isMarked s p)
  | .rem g => match a.readReq s g with
    | some r => r.line
    | none => ([], true)

/-- The read requests of the command are done with. -/
def ASlot.dropReads (s : State) (a : ASlot) : State :=
  { s with reqs := s.reqs.filter (fun r => !(r.owner == a.owner && r.k.kind == pkRead)) }

/-- What a command has read: lines of memory, and its workgroup's memory. -/
structure AData where
  lines : Tab (List Nat × Bool)
  wgm   : Tab Nat
  wmark : Tab Unit
  deriving DecidableEq, Repr

def ASlot.load (s : State) (a : ASlot) (ls : List Nat) : AData :=
  let w := wg? s a.t a.wg
  { lines := ls.foldl (fun m l => tput m l (a.line s l)) [], wgm := (w.map (·.wgm)).getD [], wmark := (w.map (·.wgmMark)).getD [] }

def AData.byte (d : AData) (wgm : Bool) (a : Nat) : Nat :=
  if wgm then tgetD d.wgm a 0 else ((tget? d.lines (a / 128)).map (fun l => l.1.getD (a % 128) 0)).getD 0

def AData.num (d : AData) (wgm : Bool) (a n : Nat) : Nat := ofBytes ((rangeFrom a n).map (d.byte wgm))

/-- Some line of a byte range carries the uncorrectable mark. -/
def AData.bad (d : AData) (x : Span) : Bool :=
  (linesOf x.a x.n).any (fun l => if x.wgm then thas d.wmark (l / 128) else ((tget? d.lines (l / 128)).map (·.2)).getD false)

/-- Words of workgroup memory are read (R227). -/
def ASlot.wgmRead (s : State) (a : ASlot) (xs : List Span) : State :=
  match wg? s a.t a.wg with
  | some w => wgmWords s a.t a.wg w ((xs.filter (·.wgm)).map (fun x => (x.a, x.n)))
  | none => s

/-- Requests of the array, the stream engine and the row engine wait for a bank of the tile store: how many is a free value
(R226, R529). -/
def bankFree (s : State) (t : Nat) : State :=
  let (f, s1) := takeFree s
  perfCount (bumpF s1 (pgTst t) 0x084 15 0 (f % 65536)) t 0x0C (f % 65536)

/-! Writing. -/

/-- A byte that a command writes. -/
structure WB where
  wgm  : Bool
  a    : Nat
  v    : Nat
  mark : Bool
  deriving DecidableEq, Repr

/-- Written bytes by line: bytes by offset, and the mark. -/
def wbLines (ws : List WB) : Tab (Tab Nat × Bool) :=
  ws.foldl (fun t w =>
    let (b, m) := tgetD t (w.a / 128) ([], false)
    tput t (w.a / 128) (tput b (w.a % 128) w.v, m || w.mark)) []

/-- One line of memory is written: at its home slice, with its mirror copy, or on another device. -/
def ASlot.put (s : State) (a : ASlot) (l : Nat) (bytes : Tab Nat) (mark : Bool) : State :=
  let slot := spaceSlot s a.die a.space
  let send (s : State) (g : Glob) (m : Option (Nat × Nat × Nat)) : State :=
    sendMir s (pktTo (pktWrite 0 a.space 0 (strGroup a.t a.slot) bytes mark) g) a.owner m
  match a.dest l with
  | .loc p => lineWrite s slot p bytes mark none
  | .mir p g => send (lineWrite s slot p bytes mark none) g (some (mirKey s (agTile a.t) a.space g))
  | .rem g => send s g none

/-- Lines of workgroup memory are written: a line written whole takes the mark of its data, another keeps its own (R221). -/
def ASlot.putW (s : State) (a : ASlot) (ls : Tab (Tab Nat × Bool)) : State :=
  modWg s a.t a.wg (fun w => ls.foldl (fun w l =>
    let w1 := l.2.1.foldl (fun (w : Wg) b => { w with wgm := tputD w.wgm (128 * l.1 + b.1) b.2 0 }) w
    let w2 := w1.wgmClear (l.2.1.map (fun b => 128 * l.1 + b.1))
    if l.2.2 then { w2 with wgmMark := tput w2.wgmMark l.1 () } else w2) w)

/-- Every byte of a command's output is written, each line in one operation (R141, R187). -/
def ASlot.write (s : State) (a : ASlot) (ws : List WB) : State :=
  let s1 := (wbLines (ws.filter (fun w => !w.wgm))).foldl (fun s l => a.put s l.1 l.2.1 l.2.2) s
  a.putW s1 (wbLines (ws.filter (·.wgm)))

/-- A request of the command has not been answered. -/
def ASlot.busy (s : State) (a : ASlot) : Bool := s.reqs.any (fun r => r.owner == a.owner && r.res.isNone)

/-- The command's requests are done with. -/
def ASlot.clear (s : State) (a : ASlot) : State := { s with reqs := s.reqs.filter (fun r => r.owner ≠ a.owner) }

/-! Acceptance. -/

/-- The bundle fetched by the group that offers a command. -/
def offerBundle (g : Group) : Option Bundle :=
  match g.fetched with
  | some (_, raw, lit) => decBundle raw lit
  | none => none

def offerRaw (g : Group) : Nat :=
  match g.fetched with
  | some (_, raw, _) => raw
  | none => 0

/-- The command passed its checks: the rest of its bundle takes effect. Answers the state, and whether the group went on; a
bundle whose memory slot waits or faults leaves it where it is, and so does one that waits for the transcendental unit or for
store buffer entries (R61, R273). -/
def finishOffer (s : State) (t n serial : Nat) : State × Bool :=
  match group? s t n with
  | none => (s, false)
  | some g => match offerBundle g with
    | none => (s, false)
    | some b =>
      if !txFree s t b || !bundleRoom s t n g b then (s, false)
      else
        let s1 := applyBundle s t n g b serial
        match group? s1 t n with
        | some g1 => (s1, g1.offer.isNone && g1.fault.isNone)
        | none => (s1, true)

/-- The instruction of a group that counts a command completes. -/
def completeA (s : State) (t n : Nat) (k : PKind) : State :=
  modGroup s t n (fun g => match g.pend.find? (fun p => p.kind == k && !p.done) with
    | some p => g.complete p.id
    | none => g)

end Sys2Proof.Machine
end

