-- ==== Sys2Proof/Machine/RowData.lean ====
section
/-!
DEFINITION. Row engine commands: their words and descriptors (R185 to R188), checks (R190, R203), addresses (R187), and the
arithmetic of one row (R189, R191 to R194, R202).
-/
namespace Sys2Proof.Machine

/-! FP32 arithmetic of the engine. -/

def FV.div (a b : FV) : FV :=
  match a, b with
  | .nan, _ => .nan
  | _, .nan => .nan
  | .inf _, .inf _ => .nan
  | .inf x, .fin y _ _ => .inf (x != y)
  | .fin x _ _, .inf y => .fin (x != y) 0 0
  | .fin x ma ea, .fin y mb eb =>
    if mb = 0 then (if ma = 0 then .nan else .inf (x != y))
    else if ma = 0 then .fin (x != y) 0 0
    else let q := quot ma ea mb eb; .fin (x != y) q.1 q.2

def f32Div (a b : Word) : Word := toF32 ((f32 a).div (f32 b))

def wNegInf : Word := BitVec.ofNat 32 0xFF80_0000
def wNan : Word := BitVec.ofNat 32 0x7FC0_0000
def wOne : Word := BitVec.ofNat 32 0x3F80_0000
def ofNatF (n : Nat) : Word := toF32 (ofInt n)

/-- A value that is neither a NaN nor infinite. -/
def isFin (w : Word) : Bool :=
  match f32 w with
  | .fin _ _ _ => true
  | _ => false

def isNegInf (w : Word) : Bool := w == wNegInf
def isNanW (w : Word) : Bool := (f32 w).isNan
def isPosInf (w : Word) : Bool := f32 w == .inf false

def rowMax (xs : List Word) : Word := xs.foldl f32Max wNegInf

/-! The command and its descriptor. -/

/-- One item of row engine work: the command's fields, its descriptor, its workgroup's size, whether the drain feeds it. -/
structure RowPar where
  opc   : Nat
  ifmt  : Nat
  ofmt  : Nat
  rnd   : Nat
  cache : Bool
  rows  : Nat
  len   : Nat
  d     : List Nat
  fused : Bool
  /-- problem number times QSTRIDE (R200) -/
  qoff  : Nat := 0
  deriving DecidableEq, Repr

/-- R185: the fields of the two words. -/
def rowParOf (w0 : Nat) (d : List Nat) : RowPar :=
  { opc := bits w0 4 0, ifmt := bits w0 9 5, ofmt := bits w0 14 10, rnd := bits w0 16 15, cache := w0.testBit 17,
    rows := bits w0 27 18, len := 32 * bits w0 39 28, d := d, fused := false }

def RowPar.ref (p : RowPar) (o : Nat) : Nat × Nat :=
  let r := leAt8 p.d o
  match bits r 1 0 with
  | 1 => (1, bits r 26 7 * 128)
  | 2 => (2, bits r 63 7 * 128)
  | k => (k, 0)

def RowPar.has (p : RowPar) (o : Nat) : Bool := (p.ref o).1 ≠ 0
def rIn : Nat := 0x00
def rOut : Nat := 0x08
def rAux : Nat := 0x10
def rAux2 : Nat := 0x18
def RowPar.stats (p : RowPar) : Nat := leAt8 p.d 0x20
def RowPar.grad (p : RowPar) : Nat := leAt8 p.d 0x28
def RowPar.mbits (p : RowPar) : Nat := leAt8 p.d 0x30
def RowPar.xs (p : RowPar) : Nat := bits (leAt4 p.d 0x38) 23 0
def RowPar.blocked (p : RowPar) : Bool := (leAt4 p.d 0x38).testBit 24
def RowPar.ss (p : RowPar) : Nat := bits (leAt4 p.d 0x3C) 23 0
def RowPar.row0 (p : RowPar) : Nat := leAt4 p.d 0x40
def RowPar.col0 (p : RowPar) : Nat := leAt4 p.d 0x44
def RowPar.eps (p : RowPar) : Word := BitVec.ofNat 32 (leAt4 p.d 0x48)
def RowPar.c (p : RowPar) : Word := BitVec.ofNat 32 (leAt4 p.d 0x4C)
def RowPar.topk (p : RowPar) : Nat := bits (leAt4 p.d 0x50) 16 0
def RowPar.topp (p : RowPar) : Word := BitVec.ofNat 32 (leAt4 p.d 0x54)
def RowPar.mask (p : RowPar) : Nat := bits (leAt4 p.d 0x58) 1 0
def RowPar.moff (p : RowPar) : Nat := leAt4 p.d 0x5C
def RowPar.vlen (p : RowPar) : Nat := leAt4 p.d 0x60
def RowPar.gfmt (p : RowPar) : Nat := bits (leAt4 p.d 0x64) 4 0
def RowPar.qstride (p : RowPar) : Nat := leAt8 p.d 0x68

/-! Operation codes (R189). -/
def oRms : Nat := 0x01
def oLayer : Nat := 0x02
def oSoft : Nat := 0x03
def oLog : Nat := 0x04
def oStats : Nat := 0x05
def oExpsum : Nat := 0x06
def oMerge : Nat := 0x07
def oSample : Nat := 0x08
def oDrop : Nat := 0x09
def oRmsB : Nat := 0x0A
def oLayerB : Nat := 0x0B
def oSoftB : Nat := 0x0C
def oLogB : Nat := 0x0D
def oDropB : Nat := 0x0E
def oSinv : Nat := 0x0F

def RowPar.isIn (p : RowPar) (ops : List Nat) : Bool := ops.contains p.opc
def RowPar.fusable (p : RowPar) : Bool := p.isIn [oRms, oLayer, oSoft, oLog, oStats, oExpsum, oDrop]
/-- Operations on z (R189, R190). -/
def RowPar.zOp (p : RowPar) : Bool := p.isIn [oSoft, oLog, oStats, oExpsum, oSample, oSoftB, oLogB]
def RowPar.normF (p : RowPar) : Bool := p.isIn [oRms, oLayer]
def RowPar.normB (p : RowPar) : Bool := p.isIn [oRmsB, oLayerB]
def RowPar.drop (p : RowPar) : Bool := p.isIn [oDrop, oDropB]
/-- AUX is a matrix dy. -/
def RowPar.auxM (p : RowPar) : Bool := p.isIn [oRmsB, oLayerB, oSoftB, oLogB]
/-- The reference that holds γ, if the operation has one. -/
def RowPar.gRef (p : RowPar) : Option Nat := if p.normF then some rAux else if p.normB then some rAux2 else none
def RowPar.writesStats (p : RowPar) : Bool := p.isIn [oRms, oLayer, oSoft, oLog, oStats, oExpsum]
def RowPar.readsStats (p : RowPar) : Bool := p.isIn [oSample, oRmsB, oLayerB, oSoftB, oLogB] && p.stats ≠ 0

/-! Addresses (R187). -/

def RowPar.cell (p : RowPar) (base w r c : Nat) : Nat :=
  if p.blocked then base + (r / 32 * p.xs + c / 32) * (128 * w) + (r % 32 * 32 + c % 32) * w / 8
  else base + r * 128 * p.xs + c * w / 8

/-- Byte ranges of one row of a matrix at a reference. -/
def RowPar.rowSpans (p : RowPar) (ref : Nat × Nat) (off w r : Nat) : List Span :=
  if ref.1 = 0 then []
  else if p.blocked then
    (List.range (p.len / 32)).map (fun b => ⟨ref.1 == 1, p.cell (ref.2 + off) w r (p.col0 + 32 * b), 4 * w⟩)
  else [⟨ref.1 == 1, p.cell (ref.2 + off) w r p.col0, p.len * w / 8⟩]

def RowPar.vecSpan (p : RowPar) (ref : Nat × Nat) : List Span :=
  if ref.1 = 0 then [] else [⟨ref.1 == 1, ref.2 + p.col0 * fmtBits p.gfmt / 8, p.len * fmtBits p.gfmt / 8⟩]

def RowPar.statAt (p : RowPar) (r : Nat) : Nat := p.stats + p.qoff + 8 * p.ss * r
def RowPar.bitAt (p : RowPar) (r : Nat) : Nat := p.mbits + p.qoff + 128 * ((p.len + 1023) / 1024) * r

/-- What the operation reads for stored row `r`, statistics apart. -/
def RowPar.reads (p : RowPar) (r : Nat) : List Span :=
  let w := fmtBits p.ifmt
  (if p.opc = oMerge || p.fused then [] else p.rowSpans (p.ref rIn) 0 w r) ++
  (if p.auxM then p.rowSpans (p.ref rAux) 0 w r else []) ++
  (match p.gRef with
   | some o => p.vecSpan (p.ref o)
   | none => []) ++
  (if p.opc = oLayer then p.vecSpan (p.ref rAux2) else []) ++
  (if p.opc = oDropB then [⟨false, p.bitAt r, p.len / 8⟩] else [])

/-- The statistics pairs it reads for stored row `r`. -/
def RowPar.statReads (p : RowPar) (r : Nat) : List Nat :=
  if p.opc = oMerge then (List.range p.len).map (fun c => p.stats + 8 * (p.ss * r + c))
  else if p.readsStats then [p.statAt r] else []

/-- What it writes for stored row `r`, GRAD apart. -/
def RowPar.writes (p : RowPar) (r : Nat) : List Span :=
  let out := p.ref rOut
  let aux := p.ref rAux
  (if out.1 = 0 then []
   else if p.opc = oSample then [⟨out.1 == 1, out.2 + 4 * r, 4⟩]
   else if p.opc = oMerge then [⟨out.1 == 1, out.2 + 8 * r, 8⟩]
   else p.rowSpans out p.qoff (fmtBits p.ofmt) r) ++
  (if p.opc = oSample && aux.1 ≠ 0 then [⟨aux.1 == 1, aux.2 + 4 * r, 4⟩] else []) ++
  (if p.writesStats && p.stats ≠ 0 then [⟨false, p.statAt r, 8⟩] else []) ++
  (if p.opc = oDrop && p.mbits ≠ 0 then [⟨false, p.bitAt r, p.len / 8⟩] else [])

/-- The gradient sums it adds: dγ, and dβ for LAYERNORM_BWD. -/
def RowPar.gradSpans (p : RowPar) : List Span :=
  if !p.normB || p.grad = 0 then []
  else [⟨false, p.grad + 4 * p.col0, 4 * p.len⟩] ++
    (if p.opc = oLayerB then [⟨false, p.grad + 4 * (p.col0 + p.len) + 4 * p.col0, 4 * p.len⟩] else [])

/-- The stored rows of a command. -/
def RowPar.rowList (p : RowPar) : List Nat := rangeFrom p.row0 p.rows

/-- The accesses of a command: reads, writes, reduce-writes. -/
def RowPar.needs (p : RowPar) : List Need :=
  let rs := p.rowList
  [(spanLines ((rs.map (fun r => p.reads r ++ (p.statReads r).map (fun a => ⟨false, a, 8⟩))).flatten), .read),
   (spanLines ((rs.map p.writes).flatten), .write),
   (spanLines p.gradSpans, .rmw)]

/-! Checks (R185 to R190, R194). -/

def rcRsvd : Nat := 1
def rcFmt : Nat := 2
def rcAlign : Nat := 3
def rcWgm : Nat := 4
def rcKind : Nat := 5
def rcLimit : Nat := 6

/-- Reserved bits and values of the words, but for the low bits of the descriptor's address, which are its alignment (R203). -/
def rowWordOk (w0 w1 : Nat) (fused : Bool) : Bool :=
  let opc := bits w0 4 0
  let rows := bits w0 27 18
  bits w0 63 40 = 0 && 1 ≤ opc && opc ≤ 0x0F && bits w0 16 15 ≠ 3 &&
    (if opc = oSinv then rows = 0 && bits w0 39 28 = 0 && w1 = 0
     else
       (fused || (1 ≤ rows && rows ≤ 512 && bits w0 39 28 ≠ 0)) &&
         (bits w1 1 0 = 2 || (bits w1 1 0 = 1 && bits w1 63 27 = 0)))

/-- R188. -/
def rowFmtOk (p : RowPar) : Bool :=
  p.ifmt ≤ 2 &&
    (if p.opc = oSample then p.ofmt = 0x0A else if p.opc = oMerge || p.opc = oSinv then p.ofmt = 0 else p.ofmt ≤ 4)

/-- Reserved bits and values of the row descriptor (R186). -/
def rowDescRsvd (p : RowPar) : Bool :=
  [rIn, rOut, rAux, rAux2].any (fun o =>
    let r := leAt8 p.d o
    match bits r 1 0 with
    | 0 => r ≠ 0
    | 1 => bits r 63 27 ≠ 0
    | 2 => false
    | _ => true) ||
  bits (leAt4 p.d 0x38) 31 25 ≠ 0 || (p.opc ≠ oMerge && p.xs = 0) || bits (leAt4 p.d 0x3C) 31 24 ≠ 0 ||
  bits (leAt4 p.d 0x50) 31 17 ≠ 0 || bits (leAt4 p.d 0x58) 31 2 ≠ 0 || bits (leAt4 p.d 0x64) 31 5 ≠ 0 ||
  leAt8 p.d 0x70 ≠ 0 || leAt8 p.d 0x78 ≠ 0

def rowDescAlign (p : RowPar) : Bool :=
  [rIn, rOut, rAux, rAux2].any (fun o => bits (leAt8 p.d o) 6 2 ≠ 0) || p.stats % 8 ≠ 0 || p.grad % 128 ≠ 0 ||
    p.mbits % 128 ≠ 0 || p.qstride % 128 ≠ 0 || p.col0 % 32 ≠ 0

/-- A workgroup reference beyond the workgroup's memory; `probs` problems of fused quilt work. -/
def rowWgmBad (p : RowPar) (m probs : Nat) : Bool :=
  (List.range probs).any (fun q =>
    let p := { p with qoff := q * p.qstride }
    p.rowList.any (fun r => (p.reads r ++ p.writes r).any (fun x => x.wgm && x.n ≠ 0 && x.a + x.n > m)))

/-- R190: a field of word 0 that the operation does not use is not 0. -/
def rowWordKind (p : RowPar) : Bool :=
  (p.cache && p.isIn [oDrop, oDropB, oSinv]) || (p.ifmt ≠ 0 && p.isIn [oMerge, oSinv]) ||
    (p.rnd ≠ 0 && p.isIn [oSample, oMerge, oSinv])

/-- R190: presence and absence. -/
def rowKindBad (p : RowPar) (quilt : Bool) : Bool :=
  let non (o : Nat) : Bool := leAt8 p.d o ≠ 0
  let w (o : Nat) : Bool := leAt4 p.d o ≠ 0
  rowWordKind p || (!p.fused && p.opc ≠ oMerge && !p.has rIn) || (p.opc = oMerge && non rIn) || (p.auxM && !p.has rAux) ||
  (!(p.auxM || p.normF || p.opc = oSample) && non rAux) || (!(p.opc = oLayer || p.normB) && non rAux2) ||
  ((p.opc = oMerge || p.auxM) && p.stats = 0) || (p.drop && (p.stats ≠ 0 || w 0x3C)) || (!p.normB && p.grad ≠ 0) ||
  (p.opc = oDropB && p.mbits = 0) || (!p.drop && p.mbits ≠ 0) || (p.opc = oMerge && (w 0x38 || w 0x44)) ||
  (!(p.normF || p.drop) && w 0x48) || (!p.zOp && (w 0x4C || w 0x5C || w 0x60)) || (p.opc ≠ oSample && (w 0x50 || w 0x54)) ||
  (!(p.normF || p.normB) && w 0x64) || (!quilt && p.qstride ≠ 0)

/-- R190, R194: limits. -/
def rowLimitBad (p : RowPar) : Bool :=
  let lt0 (x : Word) : Bool := isNanW x || ((f32 x).isNeg && !(f32 x).isZero)
  (!p.zOp && p.mask ≠ 0) || (p.normF && lt0 p.eps) ||
  (p.drop && (lt0 p.eps || FV.cmp (f32 p.eps) (f32 wOne) ≠ some .lt)) ||
  (p.opc = oSample && (p.topk > p.len || lt0 p.topp || (f32 p.topp).isZero || p.rows > 256)) ||
  (p.stats ≠ 0 && p.ss = 0) || (p.opc = oMerge && p.ss < p.len)

/-- The code of a refusal of a descriptor: the lowest of those that apply. -/
def rowDescCode (p : RowPar) (m probs : Nat) (quilt : Bool) : Option Nat :=
  if rowDescRsvd p then some rcRsvd
  else if (p.normF || p.normB) && p.gfmt > 1 then some rcFmt
  else if rowDescAlign p then some rcAlign
  else if rowWgmBad p m probs then some rcWgm
  else if rowKindBad p quilt then some rcKind
  else if rowLimitBad p then some rcLimit
  else none

/-! One row. -/

/-- What the engine makes of one row: its output elements in FP32, the index of SAMPLE, statistics, mask bits of DROPOUT,
gradient contributions, and the counts of R191 and R192. -/
structure RowRes where
  out   : List Word
  idx   : Nat := 0
  stat  : Option (Word × Word) := none
  keep  : List Bool := []
  dg    : List Word := []
  db    : List Word := []
  nan   : Bool := false
  empty : Bool := false
  deriving DecidableEq, Repr

/-- The inputs of one row. -/
structure RowIn where
  x     : List Word
  dy    : List Word
  g     : List Word
  b     : List Word
  stat  : Word × Word
  bits  : List Bool
  chunk : List (Word × Word)
  deriving DecidableEq, Repr

/-- R191: element at stored column `c` of row `r` is masked. -/
def RowPar.masked (p : RowPar) (r c : Nat) : Bool :=
  (p.mask.testBit 0 && (c : Int) > (r : Int) + sext 32 p.moff) || (p.mask.testBit 1 && c ≥ p.vlen)

/-- z of every element. -/
def RowPar.zs (p : RowPar) (r : Nat) (xs : List Word) : List Word :=
  xs.mapIdx (fun j x => if p.masked r (p.col0 + j) then wNegInf
    else
      let z := f32Mul p.c x
      if p.opc = oSample && (f32 z).isZero then 0 else z)

/-- The inputs on which the engine's roundings depend (R202). -/
def rowKey (p : RowPar) (r : Nat) (i : RowIn) : List Nat :=
  [p.opc, p.len, r] ++ p.d ++ (i.x ++ i.dy ++ i.g ++ i.b ++ [i.stat.1, i.stat.2]).map (·.toNat) ++
    (i.chunk.map (fun c => [c.1.toNat, c.2.toNat])).flatten

/-! Accuracy (R202): a result is any code within its bound of the exact function of the same inputs; which one is a free
value. Sums are the engine's own, in its order; exp, ln and square roots inside it lie within 4 u. -/

/-- `k` x u x a magnitude, u = 2^-24. -/
def rb (k : Nat) (mag : FV) : FV := mag.abs.mul (.fin false k (-24))

/-- Quantity `q` of a row: its exact value, its bound, to the code the engine gives. An exact zero is itself. -/
def within (key : List Nat) (q : Nat) (exact bound : FV) : Word :=
  if exact.isZero then toF32 exact else nearF exact bound (Config.rowSlack key q (toF32 exact))

/-- Exact sum. -/
def fsum (xs : List FV) : FV := xs.foldl FV.add (.fin false 0 0)
def fsumAbs (xs : List FV) : FV := fsum (xs.map FV.abs)

/-- The groups of 32 elements of a pass. -/
def groups32 : Nat → List Word → List (List Word)
  | 0, _ => []
  | _, [] => []
  | k + 1, xs => xs.take 32 :: groups32 k (xs.drop 32)

/-- R202: each group of 32 elements in the pair tree of R104, the groups in ascending order, every addition to nearest-even. -/
def rowSum (xs : List Word) : Word :=
  (groups32 xs.length xs).foldl (fun acc g => f32Add acc (((treeFold f32Add 5 g).head?).getD 0)) 0

/-- A sum whose terms the engine has rounded, held to its bound about the exact sum. -/
def sumWithin (terms : List Word) (exact bound : FV) : Word := nearF exact bound (rowSum terms)

/-- e^x with its limits at the infinities. -/
def expE : FV → FV
  | .nan => .nan
  | .inf n => if n then .fin false 0 0 else .inf false
  | x => expFV x

/-- n of R202. -/
def rowN (p : RowPar) : Nat := (p.len + 31) / 32

/-- The row made NaN (R191). -/
def rowNan (p : RowPar) (i : RowIn) (keep : List Bool) : RowRes :=
  let n := if p.opc = oMerge then 2 else if p.opc = oSample then 1 else p.len
  { out := List.replicate n wNan, stat := some (wNan, wNan), keep := keep, dg := i.x.map (fun _ => wNan), db := i.x.map (fun _ => wNan), nan := true }

/-- exp(z - m) of every element, exactly. -/
def expsE (zs : List Word) (m : Word) : List FV :=
  zs.map (fun z => if isNegInf z then .fin false 0 0 else expE ((f32 z).add (f32 m).neg))

/-- SOFTMAX, LOGSOFTMAX, STATS, EXPSUM. -/
def rowForward (p : RowPar) (key : List Nat) (zs : List Word) : RowRes :=
  if zs.any (fun z => isNanW z || isPosInf z) then rowNan p ⟨zs, [], [], [], (0, 0), [], []⟩ []
  else if zs.all isNegInf then
    { out := zs.map (fun _ => if p.opc = oLog || p.opc = oStats then wNegInf else 0), stat := some (wNegInf, 0) }
  else
    let n := rowN p
    let m := rowMax zs
    let es := expsE zs m
    let s := fsum es
    let terms := es.mapIdx (fun j e => within key (131072 + j) e (rb 4 e))
    let out :=
      if p.opc = oSoft then es.mapIdx (fun j e => let y := e.div s; within key (64 + j) y (rb (12 + n) y))
      else if p.opc = oLog then
        zs.mapIdx (fun j z =>
          if isNegInf z then wNegInf
          else
            let ln := lnFV s
            within key (64 + j) (((f32 z).add (f32 m).neg).add ln.neg)
              (rb (12 + n) (((f32 z).abs.add (f32 m).abs).add ln.abs)))
      else if p.opc = oExpsum then es.mapIdx (fun j e => within key (64 + j) e (rb (12 + n) e))
      else zs
    { out := out, stat := some (m, sumWithin terms s (rb (5 + n) s)) }

/-- RMSNORM and LAYERNORM: the statistics are the engine's sum divided by L, and r. 1 / sqrt(0) has no stated value. -/
def rowNorm (p : RowPar) (key : List Nat) (i : RowIn) : RowRes :=
  if (i.x ++ i.g ++ i.b).any (fun w => !isFin w) then rowNan p i []
  else
    let n := rowN p
    let l := ofInt p.len
    let xs := i.x.map f32
    let mu := if p.opc = oLayer then (fsum xs).div l else .fin false 0 0
    let cs := if p.opc = oLayer then xs.map (fun x => x.add mu.neg) else xs
    let v := (fsum (cs.map (fun c => c.mul c))).div l
    let q := v.add (f32 p.eps)
    let r := if q.isZero then f32 (canonNan (Config.rowRsqrt 0)) else rsqrtFV q
    let y (j : Nat) (x g b : FV) : Word :=
      let c := (x.add mu.neg).mul r
      let t := c.mul g
      within key (64 + j) (if p.opc = oLayer then t.add b else t)
        ((rb (12 + n) (((x.abs.add mu.abs).mul r).mul g)).add (if p.opc = oLayer then rb 1 b else .fin false 0 0))
    let lw := ofNatF p.len
    { out := ((xs.zip (i.g.zip i.b)).mapIdx (fun j a => y j a.1 (f32 a.2.1) (f32 a.2.2)))
      stat := some (if p.opc = oLayer then f32Div (rowSum i.x) lw else f32Div (rowSum (i.x.map (fun x => f32Mul x x))) lw,
                    within key 2 r (rb (8 + n) r)) }

/-- RMSNORM_BWD and LAYERNORM_BWD. -/
def rowNormB (p : RowPar) (key : List Nat) (i : RowIn) : RowRes :=
  if (i.x ++ i.dy ++ i.g).any (fun w => !isFin w) || isNanW i.stat.1 || isNanW i.stat.2 then rowNan p i []
  else
    let k := 16 + 2 * rowN p
    let l := ofInt p.len
    let r := f32 i.stat.2
    let mu : FV := if p.opc = oLayerB then f32 i.stat.1 else .fin false 0 0
    let xs := i.x.map f32
    let dys := i.dy.map f32
    let xh := xs.map (fun x => (x.add mu.neg).mul r)
    let xm := xs.map (fun x => (x.abs.add mu.abs).mul r.abs)
    let g := (dys.zip i.g).map (fun a => a.1.mul (f32 a.2))
    let gx := (fsum ((g.zip xh).map (fun a => a.1.mul a.2))).div l
    let gxm := (fsumAbs ((g.zip xm).map (fun a => a.1.mul a.2))).div l
    let gm : FV := if p.opc = oLayerB then (fsum g).div l else .fin false 0 0
    let gmm : FV := if p.opc = oLayerB then (fsumAbs g).div l else .fin false 0 0
    let dx := (g.zip (xh.zip xm)).mapIdx (fun j a =>
      within key (64 + j) (r.mul ((a.1.add gm.neg).add (a.2.1.mul gx).neg))
        (rb k (r.mul ((a.1.abs.add gmm).add (a.2.2.mul gxm)))))
    { out := dx, dg := (dys.zip (xh.zip xm)).mapIdx (fun j a => within key (8192 + 64 + j) (a.1.mul a.2.1) (rb k (a.1.mul a.2.2))), db := i.dy }

/-- SOFTMAX_BWD and LOGSOFTMAX_BWD. -/
def rowSoftB (p : RowPar) (key : List Nat) (zs : List Word) (i : RowIn) : RowRes :=
  if zs.any (fun z => isNanW z || isPosInf z) || isNanW i.stat.1 || isNanW i.stat.2 then rowNan p i []
  else if zs.all isNegInf then { out := zs.map (fun _ => 0) }
  else
    let k := 16 + 2 * rowN p
    let c := f32 p.c
    let ys := (expsE zs i.stat.1).map (fun e => e.div (f32 i.stat.2))
    let dys := i.dy.map f32
    let ts := if p.opc = oSoftB then (dys.zip ys).map (fun a => a.1.mul a.2) else dys
    let d := fsum ts
    let da := fsumAbs ts
    let dx (j : Nat) (z : Word) (y dy : FV) : Word :=
      if isNegInf z then 0
      else if p.opc = oSoftB then
        within key (64 + j) ((c.mul y).mul (dy.add d.neg)) (rb k ((c.mul y).mul (dy.abs.add da)))
      else within key (64 + j) (c.mul (dy.add (y.mul d).neg)) (rb k (c.mul (dy.abs.add (y.abs.mul da))))
    { out := (zs.zip (ys.zip dys)).mapIdx (fun j a => dx j a.1 a.2.1 a.2.2) }

/-- R193: Q, and f (free where Q is 65,536). -/
def dropQ (q : Word) : Nat :=
  match (f32 q).mul (.fin false 1 16) with
  | .fin _ m e => roundTo .ne m e 0
  | _ => 0

def dropF (q : Word) : Word :=
  let k := dropQ q
  if k ≥ 65536 then Config.dropOpen q else f32Div (ofNatF 65536) (ofNatF (65536 - k))

/-- DROPOUT: `ds` are the draws. -/
def rowDrop (p : RowPar) (i : RowIn) (ds : List Nat) : RowRes :=
  let keep := ds.map (fun d => decide (d ≥ dropQ p.eps))
  if i.x.any (fun w => !isFin w) then { rowNan p i keep with stat := none }
  else { out := (i.x.zip keep).map (fun a => if a.2 then f32Mul a.1 (dropF p.eps) else 0), keep := keep }

/-- DROPOUT_BWD: IN is dy. -/
def rowDropB (p : RowPar) (key : List Nat) (i : RowIn) : RowRes :=
  if i.x.any (fun w => !isFin w) then { rowNan p i [] with stat := none }
  else
    { out := (i.x.zip i.bits).mapIdx (fun j a =>
        if a.2 then let e := (f32 a.1).mul (f32 (dropF p.eps)); within key (64 + j) e (rb (16 + 2 * rowN p) e) else 0) }

/-- MERGE (R194). -/
def rowMerge (p : RowPar) (key : List Nat) (i : RowIn) : RowRes :=
  if i.chunk.any (fun c => isNanW c.1 || isNanW c.2) then rowNan p i []
  else
    let m := rowMax (i.chunk.map (·.1))
    let es := i.chunk.map (fun c => if isNegInf c.1 then FV.fin false 0 0 else expE ((f32 c.1).add (f32 m).neg))
    let s := fsum ((i.chunk.zip es).map (fun a => if isNegInf a.1.1 then .fin false 0 0 else (f32 a.1.2).mul a.2))
    let terms := (i.chunk.zip es).mapIdx (fun j a => if isNegInf a.1.1 then 0 else f32Mul a.1.2 (within key (64 + j) a.2 (rb 4 a.2)))
    { out := [m, sumWithin terms s (rb (5 + rowN p) s)] }

/-- An element of SAMPLE: its place, z, its weight as the engine has it, and exactly. -/
structure SEl where
  j : Nat
  z : Word
  w : Word
  e : FV
  deriving DecidableEq, Repr

/-- Insertion by falling z; equal values keep their order. -/
def insZ (x : SEl) : List SEl → List SEl
  | [] => [x]
  | y :: t => if FV.cmp (f32 x.z) (f32 y.z) = some .gt then x :: y :: t else y :: insZ x t

/-- The elements with z at or above a threshold, and their mass, summed bucket by bucket from the highest down (R192): as the
engine has it, within the bound of a row sum, and exactly. -/
def aboveZ (key : List Nat) (n len : Nat) (sorted : List SEl) (t : Word) : List SEl × Word × FV :=
  let ks := sorted.filter (fun e => FV.cmp (f32 e.z) (f32 t) ≠ some .lt)
  let w := fsum (ks.map (fun e => e.e))
  (ks, within key n w (rb (5 + len / 32) w), w)

/-- SAMPLE (R192): `h` and `l` are the draws; the row is neither empty nor NaN. -/
def rowSample (p : RowPar) (key : List Nat) (zs : List Word) (i : RowIn) (h l : Nat) : RowRes :=
  let m := if p.stats ≠ 0 then i.stat.1 else rowMax zs
  let es := expsE zs m
  let ws := es.mapIdx (fun j e => within key (64 + j) e (rb 4 e))
  let s := fsum es
  let w0 := if p.stats ≠ 0 then i.stat.2 else sumWithin ws s (rb (5 + rowN p) s)
  let els := ((zs.zip (ws.zip es)).mapIdx (fun j a => (⟨j, a.1, a.2.1, a.2.2⟩ : SEl))).filter (fun e => !isNegInf e.z)
  let sorted := els.foldl (fun a e => insZ e a) []
  let (k1, w1, m1) :=
    if p.topk = 0 then (sorted, w0, if p.stats ≠ 0 then f32 w0 else s)
    else aboveZ key 4 p.len sorted ((sorted.getD (p.topk - 1) ⟨0, wNegInf, 0, .fin false 0 0⟩).z)
  let (k2, w2, m2) :=
    if FV.cmp (f32 p.topp) (f32 wOne) ≠ some .lt then (k1, w1, m1)
    else
      let need := f32Mul p.topp w1
      match k1.find? (fun e => FV.cmp (f32 (aboveZ key (131072 + e.j) p.len k1 e.z).2.1) (f32 need) ≠ some .lt) with
      | some e => aboveZ key (131072 + e.j) p.len k1 e.z
      | none => (k1, w1, m1)
  let kept := els.filter (fun e => k2.any (fun k => k.j == e.j))
  let t := toF32 ((FV.fin false (h * 65536 + l) (-32)).mul (f32 w2))
  let pick := (kept.foldl (fun (acc : Word × Option SEl) e =>
    match acc.2 with
    | some _ => acc
    | none =>
      let a := f32Add acc.1 e.w
      (a, if FV.cmp (f32 a) (f32 t) = some .gt then some e else none)) (0, none)).2
  let x := match pick with
    | some x => x
    | none => (kept.getLast?).getD ⟨0, wNegInf, 0, .fin false 0 0⟩
  let q := x.e.div m2
  { out := [within key 6 q (rb (12 + rowN p) q)], idx := (p.col0 + x.j) % 2 ^ 32 }

/-- One row: its inputs to its results, with the draws it takes from the tile's noise source (R161). -/
def rowCompute (s : State) (t : Nat) (p : RowPar) (r : Nat) (i : RowIn) : RowRes × State :=
  let key := rowKey p r i
  let zs := p.zs r i.x
  if p.opc = oSample then
    if zs.all isNegInf then ({ out := [0], idx := 0xFFFF_FFFF, empty := true }, s)
    else if zs.any (fun z => isNanW z || isPosInf z) || (p.stats ≠ 0 && (isNanW i.stat.1 || isNanW i.stat.2)) then (rowNan p i [], s)
    else
      let (h, s1) := drawNoise s (pgTile t)
      let (l, s2) := drawNoise s1 (pgTile t)
      (rowSample p key zs i h l, s2)
  else if p.opc = oDrop then
    let (ds, s1) := drawMany s (pgTile t) i.x.length
    (rowDrop p i ds, s1)
  else
    (if p.opc = oMerge then rowMerge p key i
     else if p.opc = oDropB then rowDropB p key i
     else if p.normF then rowNorm p key i
     else if p.normB then rowNormB p key i
     else if p.opc = oSoftB || p.opc = oLogB then rowSoftB p key zs i
     else rowForward p key zs, s)

/-! Steps (R201). -/

/-- P of R189 and R192: the passes over each row. -/
def RowPar.passes (p : RowPar) : Nat :=
  if p.isIn [oStats, oMerge, oDrop, oDropB] then 1
  else if p.opc = oLayer then 3
  else if p.opc = oSample then
    (if p.stats = 0 then 1 else 0) + (if p.topk ≠ 0 then 4 else 0) +
      (if FV.cmp (f32 p.topp) (f32 wOne) = some .lt then 4 else 0) + 1
  else 2

/-- The steps of one row. -/
def RowPar.rowSteps (p : RowPar) : Nat := p.passes * ((p.len + 31) / 32) + 8

end Sys2Proof.Machine
end

