-- ==== Sys2Proof/Machine/Row.lean ====
section
/-!
DEFINITION. The row engine: acceptance of ROW commands (R182, R203), the statistics cache (R196, R197), items of work in
A-slot order (R181), marks (R198), completion (R183).
-/
namespace Sys2Proof.Machine

/-! The statistics cache (R196). -/

def sSet (vline : Nat) : Nat := vline / 128 % 56

def Row.sFind (x : Row) (space vline : Nat) : Option SLine := x.scache.find? (fun l => l.space == space && l.vline == vline)

/-- A side line becomes the most recently used of its set; the set keeps eight. -/
def Row.sPut (x : Row) (l : SLine) : Row :=
  let rest := x.scache.filter (fun y => !(y.space == l.space && y.vline == l.vline))
  let drop := ((rest.filter (fun y => sSet y.vline == sSet l.vline)).drop 7).map (fun y => (y.space, y.vline))
  { x with scache := l :: rest.filter (fun y => !drop.contains (y.space, y.vline)) }

def modRow (s : State) (t : Nat) (f : Row → Row) : State := modTile s t (fun x => { x with row := f x.row })

/-- A cached side line with a valid row for one of some statistics addresses. -/
def Row.sHas (x : Row) (space addr : Nat) : Bool :=
  match x.sFind space (addr / 128 * 128) with
  | some l => l.valid.testBit (addr % 128 / 8)
  | none => false

/-- An uncorrectable error of a cache row invalidates its side line (R198). -/
def Row.sDrop (x : Row) (space vline : Nat) : Row :=
  { x with scache := x.scache.filter (fun l => !(l.space == space && l.vline == vline)) }

/-- The first of some statistics rows that the cache serves. -/
def Row.sFirst (x : Row) (space : Nat) (ads : List Nat) : Option Nat := (ads.find? (x.sHas space)).map (fun a => a / 128 * 128)

/-- The statistics row at an address is valid in the cache. -/
def sHit (s : State) (t space addr : Nat) : Bool := (tile s t).row.sHas space addr

/-- One statistics pair is read, through the cache or from the memory line: stat0, stat1, mark. -/
def sRead (s : State) (a : ASlot) (d : AData) (cache : Bool) (addr : Nat) : (Word × Word × Bool) × State :=
  let vline := addr / 128 * 128
  let o := addr % 128
  let pair (bs : List Nat) (m : Bool) : Word × Word × Bool := (BitVec.ofNat 32 (leAt4 bs o), BitVec.ofNat 32 (leAt4 bs (o + 4)), m)
  match (tile s a.t).row.sFind a.space vline, sHit s a.t a.space addr with
  | some l, true => (pair l.data l.mark, modRow (bumpF s (pgRow a.t) 0x090 15 0 1) a.t (fun x => x.sPut l))
  | _, _ =>
    let bs := (rangeFrom vline 128).map (d.byte false)
    let m := d.bad ⟨false, vline, 128⟩
    let s1 := bumpF s (pgRow a.t) 0x090 31 16 1
    (pair bs m, if cache then modRow s1 a.t (fun x => x.sPut ⟨a.space, vline, bs, 0xFFFF, m⟩) else s1)

/-- A statistics pair is written: a cached copy of the row is updated; with CACHE a missing line or row is allocated. -/
def sWrite (s : State) (t space : Nat) (cache : Bool) (addr : Nat) (bs : List Nat) (mark : Bool) : State :=
  let vline := addr / 128 * 128
  let i := addr % 128 / 8
  let put (d : List Nat) : List Nat := (bs.mapIdx (fun k b => (addr % 128 + k, b))).foldl (fun d p => lset d p.1 p.2) d
  match (tile s t).row.sFind space vline with
  | some l =>
    if l.valid.testBit i || cache then
      modRow s t (fun x => x.sPut { l with data := put l.data, valid := Nat.lor l.valid (2 ^ i), mark := l.mark || mark })
    else s
  | none => if cache then modRow s t (fun x => x.sPut ⟨space, vline, put (zeros 128), 2 ^ i, mark⟩) else s

/-! Reduce-writes (R209, R234). -/

/-- FP32 addends at addresses, each with its mark: one operation a line, which adds them in their order; a line of another
device takes them as one ATOMIC packet of FP32 adds. -/
def ASlot.reduce (s : State) (a : ASlot) (es : List (Nat × Nat × Bool)) : State :=
  let lines := es.foldl (fun (t : Tab (List (Nat × Nat) × Bool)) e =>
    let l := tgetD t (e.1 / 128) ([], false)
    tput t (e.1 / 128) (l.1 ++ [(e.1 % 128, e.2.1)], l.2 || e.2.2)) []
  lines.foldl (fun s l =>
    let adds := l.2.1.map (fun e => (e.1 / 4, e.2))
    match a.dest l.1 with
    | .loc p => lineReduce s (spaceSlot s a.die a.space) p adds l.2.2
    | .mir p _ => lineReduce s (spaceSlot s a.die a.space) p adds l.2.2
    | .rem g => sendReq s { pktTo (packet0 pkAtomic 0 a.space 0) g with
        stream := strGroup a.t a.slot, sub := 2, mark := l.2.2, data := (l.2.1.map (fun e => [e.1, e.2, 0])).flatten } a.owner) s

/-! One item of work. -/

/-- Errors of the cache rows that row `i` of an item reads: a corrected one is counted, an uncorrectable one drops the side
line, and the read goes to memory (R198). -/
def sideErrs (s : State) (t space : Nat) (errs : List (Nat × Nat)) (i : Nat) (ads : List Nat) : State :=
  let at_ (k : Nat) : Option Nat := if errs.any (fun e => e.1 == i && e.2 == k) then (tile s t).row.sFirst space ads else none
  let s1 := if (at_ 3).isSome then bumpF s (pgRow t) 0x094 15 0 1 else s
  match at_ 4 with
  | some l => modRow s1 t (fun x => x.sDrop space l)
  | none => s1

/-- What the rows of an item have given so far: the state after their draws and cache accesses, bytes to write, gradient sums
and their mark, whether any row was marked, rows made NaN. -/
structure RowAcc where
  st     : State
  ws     : List WB := []
  dg     : List Word
  db     : List Word
  gmark  : Bool := false
  poison : Bool := false
  nan    : Nat := 0

/-- One element is converted to OUT_FMT (R188); stochastic rounding takes a draw, FP32 output takes none (R215). -/
def rowConv (s : State) (t : Nat) (p : RowPar) (w : Word) : Nat × State :=
  if p.ofmt = 0 then (w.toNat, s)
  else match p.rnd with
  | 0 => (toFmt p.ofmt .ne (f32 w), s)
  | 1 => (toFmt p.ofmt .tz (f32 w), s)
  | _ => let (r, s1) := drawNoise s (pgTile t); (toFmt p.ofmt (.st r) (f32 w), s1)

def wbs (wgm : Bool) (a : Nat) (bs : List Nat) (mark : Bool) : List WB := bs.mapIdx (fun i b => ⟨wgm, a + i, b % 256, mark⟩)

/-- The elements of a matrix row. -/
def AData.rowOf (d : AData) (p : RowPar) (ref : Nat × Nat) (r : Nat) : List Word :=
  let w := fmtBits p.ifmt
  (List.range p.len).map (fun j => toF32 (ofFmt p.ifmt (d.num (ref.1 == 1) (p.cell ref.2 w r (p.col0 + j)) (w / 8))))

/-- The elements of γ or β; `dflt` where the reference is NONE. -/
def AData.vecOf (d : AData) (p : RowPar) (ref : Nat × Nat) (dflt : Word) : List Word :=
  let w := fmtBits p.gfmt
  (List.range p.len).map (fun j => if ref.1 = 0 then dflt else toF32 (ofFmt p.gfmt (d.num (ref.1 == 1) (ref.2 + (p.col0 + j) * w / 8) (w / 8))))

/-- The bits of a mask row. -/
def AData.bitsOf (d : AData) (p : RowPar) (r : Nat) : List Bool :=
  (List.range p.len).map (fun j => (d.byte false (p.bitAt r + j / 8)).testBit (j % 8))

/-- The bytes of a mask row. -/
def bitBytes (ks : List Bool) : List Nat :=
  (List.range (ks.length / 8)).map (fun i => ofBits8 ((ks.drop (8 * i)).take 8))
where
  ofBits8 : List Bool → Nat
    | [] => 0
    | b :: t => (if b then 1 else 0) + 2 * ofBits8 t

/-- An error of the side memory that an item meets: the row of the item, and 1 a corrected or 2 an uncorrectable error of its
working row, 3 or 4 of the first cache row that it reads (R198). -/
abbrev SideErr := Nat × Nat

def sideMet (errs : List SideErr) (i k : Nat) : Bool := errs.any (fun e => e.1 == i && e.2 == k)

/-- Row `i` of an item: its inputs are read, its results join those of the rows before it. `fx` gives a fused row. -/
def rowOne (a : ASlot) (p : RowPar) (d : AData) (fx : Option (Nat → List Word × Bool)) (dmark : Bool) (errs : List SideErr) (acc : RowAcc) (i : Nat) : RowAcc :=
  let r := p.row0 + i
  let x := match fx with
    | some f => f i
    | none => (if p.opc = oMerge then [] else d.rowOf p (p.ref rIn) r, false)
  let sideBad := sideMet errs i 2
  let sts := (p.statReads r).foldl (fun (b : List (Word × Word) × Bool × State) ad =>
    let (v, s1) := sRead b.2.2 a d p.cache ad
    (b.1 ++ [(v.1, v.2.1)], b.2.1 || v.2.2, s1)) ([], false, sideErrs acc.st a.t a.space errs i (p.statReads r))
  let inp : RowIn := {
    x := x.1, dy := if p.auxM then d.rowOf p (p.ref rAux) r else [],
    g := (match p.gRef with
      | some o => d.vecOf p (p.ref o) wOne
      | none => []),
    b := if p.opc = oLayer then d.vecOf p (p.ref rAux2) 0 else x.1.map (fun _ => 0),
    stat := (sts.1.head?).getD (0, 0), bits := if p.opc = oDropB then d.bitsOf p r else [], chunk := if p.opc = oMerge then sts.1 else [] }
  let bad := dmark || x.2 || sts.2.1 || (p.reads r).any d.bad
  let outBad := bad || sideBad
  let (res, s1) := rowCompute sts.2.2 a.t p r inp
  let out := p.ref rOut
  let aux := p.ref rAux
  let wg (x : Nat × Nat) : Bool := x.1 == 1
  let (ow, s2) :=
    if out.1 = 0 then ([], s1)
    else if p.opc = oSample then (wbs (wg out) (out.2 + 4 * r) (toBytes 4 res.idx) outBad, s1)
    else if p.opc = oMerge then
      (wbs (wg out) (out.2 + 8 * r) ((res.out.map (fun w => toBytes 4 w.toNat)).flatten) outBad, s1)
    else
      let w := fmtBits p.ofmt
      (List.range p.len).foldl (fun (b : List WB × State) j =>
        let (c, s2) := rowConv b.2 a.t p (res.out.getD j 0)
        (b.1 ++ wbs (wg out) (p.cell (out.2 + p.qoff) w r (p.col0 + j)) (toBytes (w / 8) c) outBad, s2)) ([], s1)
  let aw := if p.opc = oSample && aux.1 ≠ 0 then wbs (wg aux) (aux.2 + 4 * r) (toBytes 4 (res.out.headD 0).toNat) outBad else []
  let (sw, s3) := match res.stat, p.writesStats && p.stats ≠ 0 with
    | some (u, v), true =>
      let bs := toBytes 4 u.toNat ++ toBytes 4 v.toNat
      (wbs false (p.statAt r) bs outBad, sWrite s2 a.t a.space p.cache (p.statAt r) bs outBad)
    | _, _ => ([], s2)
  let kw := if p.opc = oDrop && p.mbits ≠ 0 then wbs false (p.bitAt r) (bitBytes res.keep) outBad else []
  let pg := pgRow a.t
  let s4 := if res.nan then bumpF s3 pg 0x088 15 0 1 else s3
  let s5 := if res.empty then bumpF s4 pg 0x08C 15 0 1 else s4
  let grad := p.normB && p.grad ≠ 0
  let add (u v : List Word) : List Word := if grad then (u.zip v).map (fun e => f32Add e.1 e.2) else u
  { st := s5, ws := acc.ws ++ ow ++ aw ++ sw ++ kw, dg := add acc.dg res.dg, db := add acc.db res.db
    gmark := acc.gmark || bad, poison := acc.poison || outBad, nan := acc.nan + if res.nan then 1 else 0 }

/-- The lines of statistics that an item reads from memory: those that the cache does not serve when their turn comes, with
the lines that it allocates and drops on the way (R196, R198). -/
def sMisses (p : RowPar) (space : Nat) (errs : List SideErr) : List Nat → Row → List Nat
  | [], _ => []
  | i :: is, x0 =>
    let ads := p.statReads (p.row0 + i)
    let x1 := if sideMet errs i 4 then match x0.sFirst space ads with
      | some l => x0.sDrop space l
      | none => x0
      else x0
    let r := ads.foldl (fun (b : List Nat × Row) ad =>
      let vline := ad / 128 * 128
      match b.2.sFind space vline, b.2.sHas space ad with
      | some l, true => (b.1, b.2.sPut l)
      | _, _ => (b.1 ++ [vline], if p.cache then b.2.sPut ⟨space, vline, [], 0xFFFF, false⟩ else b.2)) ([], x1)
    r.1 ++ sMisses p space errs is r.2

/-- The side memory row that holds the working row of row `i` of the item in hand (R195). -/
def workRow (s : State) (t i : Nat) : Nat := 512 * ((tile s t).row.items % 2) + i

/-- Errors of the working rows that an item meets: counted, and an uncorrectable one recorded with its row (R198, R205). -/
def workErrs (s : State) (t : Nat) (errs : List SideErr) : State :=
  errs.foldl (fun s e =>
    if e.2 = 1 then bumpF s (pgRow t) 0x094 15 0 1
    else if e.2 = 2 then errSet s (pgRow t) 11 (workRow s t e.1) else s) s

/-- The errors that an item meets: those that occur in its rows, and that of an armed detector, at its first working row
(R525). -/
def itemErrs (s : State) (t rows : Nat) (errs : List SideErr) : List SideErr × State :=
  let pg := pgRow t
  let own := errs.filter (fun e => e.1 < rows)
  if injects s pg 1 then ((0, 1) :: own, injFire s pg [])
  else if injects s pg 2 then ((0, 2) :: own, injFire s pg [11])
  else (own, s)

/-- An item of work: waits while a line it reads has not come or a line it uses is held; else every row is read, computed and
written. `daddr` locates its descriptor for error records (R205); `errs` are the side memory's errors. Answers whether it is
done. -/
def rowItem (s : State) (a : ASlot) (p : RowPar) (fx : Option (Nat → List Word × Bool)) (dmark : Bool) (daddr : Nat) (errs : List SideErr) : Bool × State :=
  let rs := p.rowList
  let stl := sMisses p a.space errs (List.range p.rows) (tile s a.t).row
  let need := (spanLines ((rs.map p.reads).flatten ++ stl.map (fun l => ⟨false, l, 128⟩))).map (·.1)
  let wl := (spanLines ((rs.map p.writes).flatten ++ p.gradSpans)).map (·.1)
  if a.held s wl then (false, s)
  else match a.gather s need with
  | (false, s1) => (false, s1)
  | (true, s1) =>
    let pg := pgRow a.t
    let s1 := bankFree (a.wgmRead (a.again s1 (need ++ wl)) ((rs.map p.reads).flatten)) a.t
    let (buf, s1) := tstBuf s1 a.t
    let d := a.load s1 need
    let (errs, s2) := itemErrs s1 a.t p.rows errs
    let s2 := workErrs s2 a.t errs
    let z := List.replicate p.len (0 : Word)
    let r := (List.range p.rows).foldl (fun acc i => rowOne a p d fx (dmark || (buf && i == 0)) errs acc i) { st := s2, dg := z, db := z }
    let sc (b : Nat) (ws : List Word) : List (Nat × Nat × Bool) := ws.mapIdx (fun j w => (b + 4 * j, w.toNat, r.gmark))
    let s3 := a.write r.st r.ws
    let s4 :=
      if p.normB && p.grad ≠ 0 then
        let s4 := a.reduce s3 (sc (p.grad + 4 * p.col0) r.dg)
        if p.opc = oLayerB then a.reduce s4 (sc (p.grad + 4 * (p.col0 + p.len) + 4 * p.col0) r.db) else s4
      else s3
    let s5 := if r.nan ≠ 0 then errSet s4 pg 10 daddr else s4
    let s6 := if r.poison then errSet s5 pg 9 daddr else s5
    (true, s6)

/-- An item of work is over: its reads are done with, and the next item uses the other working half (R195). -/
def rowEnd (s : State) (a : ASlot) : State := modRow (a.dropReads s) a.t (fun x => { x with items := x.items + 1 })

/-! The tile's ROW commands. -/

def setRowCmd (s : State) (t : Nat) (c : RowCmd) : State :=
  modRow s t (fun x => { x with cmds := x.cmds.map (fun y => if y.serial = c.serial then c else y) })

def dropRowCmd (s : State) (t serial : Nat) : State :=
  let s1 := modRow s t (fun x => { x with cmds := x.cmds.filter (fun y => y.serial ≠ serial) })
  settle s1 (pgRow t) (!(tile s1 t).row.cmds.isEmpty || (tile s1 t).arr.cmds.any (fun c => bits (c.words.headD 0) 21 20 == 3))

/-- A refusal: ROW_REFUSE, CMD_REFUSED, and the group faults precisely with ROW_CMD (R182, R203). -/
def rowRefuse (s : State) (t : Nat) (c : RowCmd) (raw code : Nat) : State :=
  let pg := pgRow t
  let n := (regF s pg 0x084 31 16 + 1) % 65536
  let s1 := errSet (setReg s pg 0x084 (BitVec.ofNat 32 (code + 65536 * n))) pg 8 code
  dropRowCmd (groupFault s1 t c.slot (mkFault fRow 0 0 raw 0 0 0)) t c.serial

def RowCmd.w0 (c : RowCmd) : Nat := c.words.getD 0 0
def RowCmd.w1 (c : RowCmd) : Nat := c.words.getD 1 0
def RowCmd.par (c : RowCmd) : RowPar := rowParOf c.w0 c.desc
/-- Where word 1 of a ROW command puts its descriptor (R185). -/
def rowDescAt (w1 : Nat) : Span := if bits w1 1 0 = 1 then ⟨true, bits w1 26 7 * 128, 128⟩ else ⟨false, bits w1 63 7 * 128, 128⟩

/-- A command whose checks have passed is accepted with its bundle. -/
def rowTake (s0 s : State) (t : Nat) (c : RowCmd) : State :=
  match finishOffer (setRowCmd s t { c with stage := .accepted }) t c.slot c.serial with
  | (s1, true) => (c.at_ t).dropReads s1
  | (s1, false) =>
    match group? s1 t c.slot with
    | some g => if g.fault.isSome then dropRowCmd s1 t c.serial else s0
    | none => dropRowCmd s1 t c.serial

/-- ROW_ACCEPT: the row engine reads the descriptor of the command offered, checks every field and every line, and accepts or
refuses it (R182). -/
def execRowAccept (t : Nat) (s : State) : Out :=
  .next (match (tile s t).row.cmds.find? (fun c => c.stage == .offered) with
  | none => s
  | some c =>
    match group? s t c.slot, wg? s t c.wg with
    | some g, some w =>
      let raw := offerRaw g
      let p0 := rowParOf c.w0 []
      let at0 := rowDescAt c.w1
      if !inService s (pgRow t) then s
      else if !rowWordOk c.w0 c.w1 false then rowRefuse s t c raw rcRsvd
      else if !rowFmtOk p0 then rowRefuse s t c raw rcFmt
      else if p0.opc = oSinv then (if rowWordKind p0 then rowRefuse s t c raw rcKind else rowTake s s t c)
      else if bits c.w1 6 2 ≠ 0 then rowRefuse s t c raw rcAlign
      else if at0.wgm && at0.a + 128 > w.m then rowRefuse s t c raw rcWgm
      else
        let dn : List Need := [(spanLines [at0], .read)]
        match (c.at_ t).xlate s dn with
        | ((some f, _), s1) => dropRowCmd ((c.at_ t).xfault s1 raw (lastOf dn) f) t c.serial
        | ((none, a), s1) =>
          match a.gather s1 (dn.flatMap (fun n => n.1.map (·.1))) with
          | (false, s2) => s2
          | (true, s2) =>
            let s2 := a.wgmRead s2 [at0]
            let d := a.load s2 (dn.flatMap (fun n => n.1.map (·.1)))
            let desc := (rangeFrom at0.a 128).map (d.byte at0.wgm)
            let p := rowParOf c.w0 desc
            match rowDescCode p w.m 1 false with
            | some code => a.dropReads (rowRefuse s2 t c raw code)
            | none =>
              match ({ a with pins := [], far := [] } : ASlot).xlate s2 p.needs with
              | ((some f, _), s3) => a.dropReads (dropRowCmd (a.xfault s3 raw (lastOf p.needs) f) t c.serial)
              | ((none, b), s3) => rowTake s s3 t { c with desc := desc, marked := d.bad at0, xl := b.xl, pins := b.pins, far := b.far }
    | _, _ => dropRowCmd s t c.serial)

/-- The item is the engine's next (R181): every older ROW command has been performed, every older fused command delivered. -/
def rowFirst (s : State) (t n : Nat) : Bool :=
  let x := tile s t
  x.row.cmds.all (fun c => c.aseq ≥ n || c.stage == .computed) &&
    x.arr.cmds.all (fun c => c.aseq ≥ n || bits (c.words.headD 0) 21 20 ≠ 3)

/-- The ROW page performs accepted work (R184). -/
def rowRuns (s : State) (t : Nat) : Bool := !stalled s (pgRow t) && ((blk s (pgRow t)).st.inService || (blk s (pgRow t)).st = .stopping)

/-- The operation row of an opcode: the engine performs its next item when it is a ROW command with that opcode. `errs` are
the side memory's errors that it meets. Its steps are counted (R201, R529). -/
def rowRun (opc t : Nat) (errs : List SideErr) (s : State) : Out :=
  .next (match (tile s t).row.cmds.find? (fun c => c.stage == .accepted && rowFirst s t c.aseq) with
  | none => s
  | some c =>
    if bits c.w0 4 0 ≠ opc || !rowRuns s t then s
    else if opc = oSinv then
      perfCount (setRowCmd (modRow s t (fun x => { x with scache := [], items := x.items + 1 })) t { c with stage := .computed }) t 0x09 64
    else match rowItem s (c.at_ t) c.par none c.marked (rowDescAt c.w1).a errs with
    | (true, s1) =>
      perfCount (setRowCmd (rowEnd s1 (c.at_ t)) t { c with stage := .computed }) t 0x09 (24 + c.par.rows * c.par.rowSteps)
    | (false, s1) => s1)

def execRmsnorm (a : RowOp) (s : State) : Out := rowRun oRms a.tile a.errs s
def execLayernorm (a : RowOp) (s : State) : Out := rowRun oLayer a.tile a.errs s
def execSoftmax (a : RowOp) (s : State) : Out := rowRun oSoft a.tile a.errs s
def execLogsoftmax (a : RowOp) (s : State) : Out := rowRun oLog a.tile a.errs s
def execStats (a : RowOp) (s : State) : Out := rowRun oStats a.tile a.errs s
def execExpsum (a : RowOp) (s : State) : Out := rowRun oExpsum a.tile a.errs s
def execMerge (a : RowOp) (s : State) : Out := rowRun oMerge a.tile a.errs s
def execSample (a : RowOp) (s : State) : Out := rowRun oSample a.tile a.errs s
def execDropout (a : RowOp) (s : State) : Out := rowRun oDrop a.tile a.errs s
def execRmsnormBwd (a : RowOp) (s : State) : Out := rowRun oRmsB a.tile a.errs s
def execLayernormBwd (a : RowOp) (s : State) : Out := rowRun oLayerB a.tile a.errs s
def execSoftmaxBwd (a : RowOp) (s : State) : Out := rowRun oSoftB a.tile a.errs s
def execLogsoftmaxBwd (a : RowOp) (s : State) : Out := rowRun oLogB a.tile a.errs s
def execDropoutBwd (a : RowOp) (s : State) : Out := rowRun oDropB a.tile a.errs s
def execSinv (t : Nat) (s : State) : Out := rowRun oSinv t [] s

/-- ROW_COMPLETE: every line of the oldest ROW command has been performed; it completes under W3 (R183). -/
def execRowComplete (t : Nat) (s : State) : Out :=
  .next (match (tile s t).row.cmds.head? with
  | none => s
  | some c =>
    if c.stage ≠ .computed || (c.at_ t).busy s then s
    else completeA (dropRowCmd ((c.at_ t).clear s) t c.serial) t c.slot (.row c.serial))

end Sys2Proof.Machine
end

