-- ==== Sys2Proof/Machine/Arr.lean ====
section
/-!
DEFINITION. The matrix array: acceptance (R123 to R137), computing (R124, R138), hem checks, recomputes and holds (R142 to
R148), drain and delivery (R140, R141), fusion with the row engine (R199, R200).
-/
namespace Sys2Proof.Machine

def modArr (s : State) (t : Nat) (f : Arr → Arr) : State := modTile s t (fun x => { x with arr := f x.arr })
def setArrCmd (s : State) (t : Nat) (c : ArrCmd) : State :=
  modArr s t (fun x => { x with cmds := x.cmds.map (fun y => if y.serial = c.serial then c else y) })

/-- The ARR page, and the ROW page for fused work, follow the work in hand (R40). -/
def settleArr (s : State) (t : Nat) : State :=
  let x := tile s t
  settle (settle s (pgArr t) (!x.arr.cmds.isEmpty)) (pgRow t) (!x.row.cmds.isEmpty || x.arr.cmds.any (fun c => c.drain == 3))

def dropArrCmd (s : State) (t serial : Nat) : State :=
  settleArr (modArr s t (fun x => { x with cmds := x.cmds.filter (fun y => y.serial ≠ serial) })) t

/-- A refusal: ARR_REFUSE, CMD_REFUSED, and the group faults precisely with ARRAY_CMD (R123, R131, R150). -/
def arrRefuse (s : State) (t : Nat) (c : ArrCmd) (raw code : Nat) : State :=
  let pg := pgArr t
  let n := (regF s pg 0x094 31 16 + 1) % 65536
  let s1 := errSet (setReg s pg 0x094 (BitVec.ofNat 32 (code + 65536 * n))) pg 12 code
  dropArrCmd (groupFault s1 t c.slot (mkFault fArray 0 0 raw 0 0 0)) t c.serial

/-! Acceptance. -/

def ArrCmd.word (c : ArrCmd) (o : Nat) : Nat := c.words.getD (o + 1) 0
def ArrCmd.kind (c : ArrCmd) (o : Nat) : Nat := bits (c.word o) 1 0
def ArrCmd.descAddr (c : ArrCmd) (o : Nat) : Nat := bits (c.word o) 63 6 * 64

/-- The operands given by a descriptor. -/
def ArrCmd.descOps (c : ArrCmd) : List Nat := (List.range 3).filter (fun o => c.kind o == 2)

/-- The fused work's parameters (R199, R200): L = N, M rows. -/
def ArrCmd.rowPar (c : ArrCmd) : RowPar :=
  { rowParOf (c.fuseW.getD 0 0) c.fuseD with fused := true, rows := c.m, len := c.n }

/-- The fused work of problem `q`. -/
def ArrCmd.rowParAt (c : ArrCmd) (q : Nat) : RowPar := { c.rowPar with qoff := q * c.rowPar.qstride }

def ArrCmd.fused (c : ArrCmd) : Bool := c.drain = 3

/-- R199: the code that a failing fusion entry's refusal matches. -/
def fuseCode (rc : Nat) : Nat := if rc = rcAlign then arAlign else if rc = rcWgm then arWgm else arRsvd

/-- Checks of a fusion entry's words (R185, R188, R199), or none. -/
def fuseWordsBad (w0 w1 m : Nat) : Option Nat :=
  let p := rowParOf w0 []
  if !rowWordOk w0 w1 true || !p.fusable || p.ifmt ≠ 0 || bits w0 27 18 ≠ 0 || bits w0 39 28 ≠ 0 || !rowFmtOk p || rowWordKind p then
    some arRsvd
  else if bits w1 6 2 ≠ 0 then some arAlign
  else if (rowDescAt w1).wgm && (rowDescAt w1).a + 128 > m then some arWgm
  else none

/-- What the lists and descriptors read during acceptance give: an operand, or the code of a refusal. -/
def ArrCmd.operand (c : ArrCmd) (o : Nat) (d : AData) : ArrOpd ⊕ Nat :=
  let r := c.dims o
  let w := fmtBits (c.fmt o)
  let g := if o = 2 then 0 else c.group
  match c.kind o with
  | 0 => .inl { wgmOpd 0 0 0 0 0 false with kind := 0 }
  | 1 => .inl (wgmOpd (bits (c.word o) 26 7 * 128) r.1 r.2 w g (o != 0))
  | _ =>
    let bs := (rangeFrom (c.descAddr o) 64).map (d.byte false)
    let lp := leAt8 bs 0x10
    let n := if lp = 0 then 0 else c.planes (o == 2) * leAt4 bs 0x38
    let list := (List.range n).map (fun i => d.num false (lp + 8 * i) 8)
    match descRefuse c o bs list with
    | some code => .inr code
    | none => .inl (descOpd bs list)

/-- Byte ranges of the lists that descriptors name. -/
def ArrCmd.listSpans (c : ArrCmd) (d : AData) : List Span :=
  c.descOps.filterMap (fun o =>
    let bs := (rangeFrom (c.descAddr o) 64).map (d.byte false)
    let lp := leAt8 bs 0x10
    if lp = 0 then none else some ⟨false, lp, 8 * (c.planes (o == 2) * leAt4 bs 0x38)⟩)

/-- Bytes of workgroup memory that an operand in workgroup memory takes. -/
def ArrCmd.wgmSpan (c : ArrCmd) (o : Nat) (x : ArrOpd) : List Span :=
  if x.kind = 1 then [⟨true, x.base, c.planes (o == 2) * x.qstride⟩] else []

/-- The accesses of a command (R123): A and B, C as the drain and ACC use it, the fused work's. -/
def ArrCmd.needs (c : ArrCmd) : List Need :=
  let ln (o : Nat) : Tab Nat := match c.opds[o]? with
    | some x => if x.kind = 2 then c.lines o x else []
    | none => []
  [(ln 0, .read), (ln 1, .read)] ++ (if c.load then [(ln 2, .read)] else []) ++
    (if c.drain = 1 then [(ln 2, .write)] else if c.drain = 2 then [(ln 2, .rmw)] else []) ++
    (if c.fused then ((List.range c.probs).map (fun q => (c.rowParAt q).needs)).flatten else [])

/-- The lines read during computing. -/
def ArrCmd.readLines (c : ArrCmd) : List Nat :=
  let ln (o : Nat) : List Nat := match c.opds[o]? with
    | some x => if x.kind = 2 then (c.lines o x).map (·.1) else []
    | none => []
  (ln 0 ++ ln 1 ++ (if c.load then ln 2 else [])).eraseDups

/-- An accepted command takes its place with its bundle; a bundle whose memory slot waits leaves everything as it was. -/
def arrTake (s0 s : State) (t : Nat) (c : ArrCmd) : State :=
  match finishOffer (setArrCmd s t { c with stage := .accepted }) t c.slot c.serial with
  | (s1, true) => perfCount (settleArr ((c.at_ t).dropReads s1) t) t 0x07 1
  | (s1, false) =>
    match group? s1 t c.slot with
    | some g => if g.fault.isSome then dropArrCmd s1 t c.serial else s0
    | none => dropArrCmd s1 t c.serial

/-- The last part of acceptance: operands, ranges, translation of every line. -/
def arrFinish (s : State) (t : Nat) (w : Wg) (raw : Nat) (c : ArrCmd) (a : ASlot) (d : AData) (mark : Bool) : State :=
  let a := { a with xl := [], pins := [], far := [] }
  match c.operand 0 d, c.operand 1 d, c.operand 2 d with
  | .inr code, _, _ => a.dropReads (arrRefuse s t c raw code)
  | _, .inr code, _ => a.dropReads (arrRefuse s t c raw code)
  | _, _, .inr code => a.dropReads (arrRefuse s t c raw code)
  | .inl xa, .inl xb, .inl xc =>
    let c1 := { c with opds := [xa, xb, xc], marked := mark }
    let spans := c1.wgmSpan 0 xa ++ c1.wgmSpan 1 xb ++ c1.wgmSpan 2 xc
    let fz := if c1.fused then rowDescCode c1.rowPar w.m c1.probs c1.quilt else none
    let fin := c1.fused && c1.rowPar.has rIn
    if spans.any (fun x => x.a + x.n > w.m) then a.dropReads (arrRefuse s t c raw arWgm)
    else match fz, fin with
    | some rc, _ => a.dropReads (arrRefuse s t c raw (fuseCode rc))
    | none, true => a.dropReads (arrRefuse s t c raw arRsvd)
    | none, false =>
      match a.xlate s c1.needs with
      | ((some f, _), s1) => a.dropReads (dropArrCmd (a.xfault s1 raw (lastOf c1.needs) f) t c.serial)
      | ((none, a1), s1) => arrTake s s1 t { c1 with xl := a1.xl, pins := a1.pins, far := a1.far }

/-- The checks of the words of a command (R125 to R131): the code of a refusal. -/
def arrWords (c : ArrCmd) : Option Nat :=
  if !w0Ok c || !(List.range 3).all (fun o => operandOk (c.word o)) then some arRsvd
  else match pairRefuse c with
  | some code => some code
  | none => if !kindsOk c then some arKind else none

/-- ARR_ACCEPT: the array reads the descriptors, lists and fusion entry of the command offered first, checks every field and
every line, and accepts or refuses it (R123, R199). Work that is to be fused waits for the ROW page as well (R184). -/
def execArrAccept (t : Nat) (s : State) : Out :=
  .next (match (tile s t).arr.cmds.find? (fun c => c.stage == .offered) with
  | none => s
  | some c0 =>
    match group? s t c0.slot, wg? s t c0.wg with
    | some g, some w =>
      let raw := offerRaw g
      if !inService s (pgArr t) || (c0.fused && !inService s (pgRow t)) then s
      else match arrWords c0 with
      | some code => arrRefuse s t c0 raw code
      | none =>
        let off := 16 * c0.fuse
        let ent (o : Nat) : Nat := ofBytes (wgmRead w (off + o) 8)
        let c := if c0.fused then { c0 with fuseW := [ent 0, ent 8] } else c0
        match (if c.fused then (if off + 16 > w.m then some arWgm else fuseWordsBad (ent 0) (ent 8) w.m) else none) with
        | some code => arrRefuse s t c0 raw code
        | none =>
          let fd := if c.fused then [rowDescAt (ent 8)] else []
          let n1 : List Need := [(spanLines (c.descOps.map (fun o => ⟨false, c.descAddr o, 64⟩) ++ fd), .read)]
          match (c.at_ t).xlate s n1 with
          | ((some f, _), s1) => (c.at_ t).dropReads (dropArrCmd ((c.at_ t).xfault s1 raw (lastOf n1) f) t c.serial)
          | ((none, a1), s1) =>
            let l1 := n1.flatMap (fun n => n.1.map (·.1))
            match a1.gather s1 l1 with
            | (false, s2) => s2
            | (true, s2) =>
              let d1 := a1.load s2 l1
              let ls := c.listSpans d1
              let n2 : List Need := [(spanLines ls, .read)]
              if ls.any (fun x => x.a % 8 ≠ 0) then a1.dropReads (arrRefuse s2 t c0 raw arAlign)
              else match a1.xlate s2 n2 with
              | ((some f, _), s3) => a1.dropReads (dropArrCmd (a1.xfault s3 raw (lastOf n2) f) t c.serial)
              | ((none, a2), s3) =>
                let l2 := (l1 ++ n2.flatMap (fun n => n.1.map (·.1))).eraseDups
                match a2.gather s3 l2 with
                | (false, s4) => s4
                | (true, s4) =>
                  let s4 := a2.wgmRead s4 (fd ++ if c.fused then [⟨true, off, 16⟩] else [])
                  let d := a2.load s4 l2
                  let fdb := match fd with
                    | x :: _ => (rangeFrom x.a 128).map (d.byte x.wgm)
                    | [] => []
                  let mark := l2.any (fun l => d.bad ⟨false, 128 * l, 128⟩) || fd.any d.bad || (c.fused && d.bad ⟨true, off, 16⟩)
                  arrFinish s4 t w raw { c with fuseD := fdb } a2 d mark
    | _, _ => dropArrCmd s t c0.serial)

/-! Computing. -/

def regMap (s : State) (t : Nat) : Nat := (regW s (pgArr t) 0x080).toNat + 2 ^ 32 * regF s (pgArr t) 0x084 7 0
/-- Fields of a map: COL0, COL1, ROW0, ROW1, COL2. -/
def mapCols (m : Nat) : List Nat := [bits m 7 0, bits m 15 8, bits m 39 32]
def mapRows (m : Nat) : List Nat := [bits m 23 16, bits m 31 24]
def mapCol2 (m : Nat) : Bool := bits m 39 32 ≠ 255

/-- R114: the physical position of a logical row or column. -/
def physRow (m i : Nat) : Nat := (((List.range 130).filter (fun x => !(mapRows m).contains x)))[i]?.getD 255
def physCol (m j : Nat) : Nat :=
  (((List.range 130).filter (fun x => !(mapCols m).contains x)) ++ if mapCol2 m then [130] else [])[j]?.getD 255

/-- R147: the first free field that retires a located position: columns first; with COL2 in use only a column. -/
def freeField (s : State) (t prow pcol : Nat) : Option (Nat × Nat × Nat × Nat) :=
  let pg := pgArr t
  let m := regMap s t
  let cf : List (Nat × Nat × Nat × Nat) := if pcol ≤ 129 then [(0x080, 7, 0, pcol), (0x080, 15, 8, pcol), (0x084, 7, 0, pcol)] else []
  let rf : List (Nat × Nat × Nat × Nat) := if prow ≤ 129 && !mapCol2 m then [(0x080, 23, 16, prow), (0x080, 31, 24, prow)] else []
  (cf ++ rf).find? (fun f => regF s pg f.1 f.2.1 f.2.2.1 = 255)

/-- Firmware retires a position. -/
def retirePos (s : State) (t : Nat) (f : Nat × Nat × Nat × Nat) : State :=
  let s1 := setRegF s (pgArr t) f.1 f.2.1 f.2.2.1 f.2.2.2
  cardPut s1 ctArrayMap t (regMap s1 t)

/-- The effective check level (R146): 0 OFF, 1 REPORT, 2 CHECK. -/
def hemLevel (s : State) (t : Nat) (c : ArrCmd) : Nat := max (2 - c.chk) (regF s (pgArr t) 0x088 1 0)

/-- The accumulators of every cell (R140): by problem, row and column; `start` is C0 under LOAD. -/
def arrAcc (c : ArrCmd) (d : AData) : List Nat × (Nat → Nat → Nat → Nat × Nat) × (Nat → Nat → Nat → Nat × Nat) × (Nat → Nat → Nat → Nat) :=
  let opd (o : Nat) : ArrOpd := (c.opds[o]?).getD (wgmOpd 0 0 0 0 0 false)
  let el (o p u v : Nat) : Nat × Nat := c.elem o (opd o) (d.byte ((opd o).kind == 1)) p u v
  let st (p i j : Nat) : Nat := if c.load then c.startOf (el 2 p i j).1 else c.identity
  ((c.tilePos 2).map (fun q => c.accOf (el 0) (el 1) q.1 q.2.1 q.2.2 (st q.1 q.2.1 q.2.2)), el 0, el 1, st)

/-- R144: the threshold that a magnitude gives. -/
def tauOf (s : State) (t : Nat) (c : ArrCmd) (g : FV) : FV :=
  (g.mul (ofInt (c.nk + 8))).mul (.fin false 1 (-(regF s (pgArr t) 0x088 12 8 : Int)))

/-- R525: what an armed hem detector adds to the accumulator of logical cell (0, 0): twice the threshold of row 0, whose
magnitude is `g`, or one unit where the comparison is exact. -/
def hemInject (s : State) (t : Nat) (c : ArrCmd) (g : FV) (acc : List Nat) : List Nat :=
  if c.intAcc then lset acc 0 ((acc.getD 0 0 + 1) % 2 ^ 32)
  else lset acc 0 (toF32 ((f32 (BitVec.ofNat 32 (acc.getD 0 0))).add ((tauOf s t c g).mul (ofInt 2)))).toNat

/-- Commands in flight, in acceptance order. -/
def Arr.flight (x : Arr) : List ArrCmd := x.cmds.filter (fun c => !(c.stage == .offered || c.stage == .accepted))

/-- R117, R124, R141: the next command may begin: nothing older, or one older command that is not held, not being recomputed,
and either of the same mode or past its drain. -/
def mayBegin (x : Arr) (c : ArrCmd) : Bool :=
  match x.flight with
  | [] => true
  | [o] => o.serial ≠ c.serial && !(o.stage == .held) && (o.stage == .drained || o.stage == .delivering || (o.mode == c.mode && o.recomp == 0))
  | _ => false

/-- Cells located a second time are retired before a command starts (R147). -/
def retireAllPending (s : State) (t : Nat) : State :=
  let named (s : State) (p : Nat × Nat) : Bool := (mapCols (regMap s t)).contains p.2 || (mapRows (regMap s t)).contains p.1
  let s1 := (tile s t).arr.retire.foldl (fun s p => if named s p then s else match freeField s t p.1 p.2 with
    | some f => retirePos s t f
    | none => s) s
  modArr s1 t (fun x => { x with retire := [] })

/-- The ARR page performs accepted work (R149). -/
def arrRuns (s : State) (t : Nat) : Bool := !stalled s (pgArr t) && ((blk s (pgArr t)).st.inService || (blk s (pgArr t)).st = .stopping)

/-- The skew of a mode (R121). -/
def modeSkew (m : Nat) : Nat :=
  match m with
  | 0 => 254
  | 1 => 158
  | 2 => 134
  | 3 => 126
  | _ => 62

/-- Twice the feeding steps of one K position (R115, R116): by the wider operand; FP32X3 passes run at the BF16 rate, INT16X4
passes at the INT8 rate (R129). -/
def ArrCmd.rate2 (c : ArrCmd) : Nat :=
  if c.multi = 1 then 4
  else if c.multi = 2 then 2
  else if fmtBits c.fa ≤ 4 && fmtBits c.fb ≤ 4 then 1 else if fmtBits c.fa ≤ 8 && fmtBits c.fb ≤ 8 then 2 else 4

/-- The steps of a command (R116, R117): the skew is paid unless it follows a command of its mode with no gap. -/
def ArrCmd.steps (c : ArrCmd) (follows : Bool) : Nat :=
  c.passes.length * c.k * c.rate2 / 2 + 4 + if follows then 0 else modeSkew c.mode

/-- The counts of a command's feeding (R529): its steps, the lines that the stream engine lands, late slots of the feed edge
(R118) and waits for banks, both of which are free values. -/
def feedCounts (s : State) (t : Nat) (c : ArrCmd) : State :=
  let follows := (tile s t).arr.flight.any (fun o => o.serial ≠ c.serial && o.stage == .computing && o.mode == c.mode)
  let s1 := perfCount s t 0x06 (c.steps follows)
  let s2 := if c.readLines.isEmpty then s1 else perfCount s1 t 0x10 c.readLines.length
  let (f, s3) := takeFree s2
  bankFree (perfCount s3 t 0x08 (f % 65536)) t

/-- The operands as a command reads them: from its lines, through the stream buffers, and from workgroup memory (R138, R227).
Answers the data, whether any of it carries the mark, and the state. -/
def arrRead (s : State) (t : Nat) (c : ArrCmd) : AData × Bool × State :=
  let a := c.at_ t
  let opd (o : Nat) : ArrOpd := (c.opds[o]?).getD (wgmOpd 0 0 0 0 0 false)
  let wsp := c.wgmSpan 0 (opd 0) ++ c.wgmSpan 1 (opd 1) ++ (if c.load then c.wgmSpan 2 (opd 2) else [])
  let s1 := a.wgmRead (a.again s c.readLines) wsp
  let (buf, s2) := if c.readLines.isEmpty then (false, s1) else tstBuf s1 t
  let d := a.load s2 c.readLines
  (d, c.marked || buf || c.readLines.any (fun l => d.bad ⟨false, 128 * l, 128⟩) || wsp.any d.bad, s2)

/-- A command, or a recompute of it, reads its operands and computes on the other bank (R114, R124, R138, R146); `late` is what
the hem channels bring late (R119). -/
def arrBegin (s0 : State) (t : Nat) (c : ArrCmd) (late : List (Nat × Nat × Nat)) : State :=
  let a := c.at_ t
  match a.gather s0 c.readLines with
  | (false, s1) => s1
  | (true, s1) =>
    let s1 := if c.recomp = 0 then retireAllPending s1 t else s1
    let (d, marked, s2) := arrRead (feedCounts s1 t c) t c
    let (acc, ea, eb, st) := arrAcc c d
    let x : HemIn := ⟨ea, eb, fun p i j =>
      if c.load then (if c.intAcc then ofInt (sext 32 (st p i j)) else f32 (BitVec.ofNat 32 (st p i j))) else .fin false 0 0⟩
    let chk := c.opc = 0 && !marked && hemLevel s2 t c ≠ 0
    let cells := if chk then hemCells (mapCol2 (regMap s2 t)) else []
    let hem := c.hemAll x cells
    let g0 := f32 (BitVec.ofNat 32 (c.hemAcc x true (rowCover c.mode 0)))
    let pg := pgArr t
    let (inj, s3) :=
      if c.recomp ≠ 0 || !chk || (!c.intAcc && !g0.isFin) then (c.inj, s2)
      else if injects s2 pg 1 then (1, injFire s2 pg [8])
      else if injects s2 pg 2 then (2, injFire s2 pg [8, 9])
      else (0, s2)
    let hit := (inj = 1 && c.recomp = 0) || (inj = 2 && c.recomp ≤ 1)
    let bank := 1 - (tile s3 t).arr.bank
    let c1 := { c with stage := .computing, acc := if hit then hemInject s3 t c g0 acc else acc, bank := bank, hem := hem,
                       hemNan := c.hemOut hem cells, gave := c.gaveUp cells late, mapUsed := regMap s3 t, inj := inj, poison := marked }
    a.dropReads (modArr (setArrCmd s3 t c1) t (fun x => { x with lastMode := c.mode, bank := bank }))

/-- ARR_COMPUTE: the oldest accepted command, or one sent back for a recompute, begins on a bank. `late` lists, by hem cell and
K position over all passes, how many operands reach the cell before the channel value of that position (R119); what is not
listed comes in time. -/
def execArrCompute (a : ArrStart) (s : State) : Out :=
  let t := a.tile
  .next (if !arrRuns s t then s
    else match (tile s t).arr.cmds.find? (fun c => c.stage == .accepted) with
    | none => s
    | some c => if mayBegin (tile s t).arr c then arrBegin s t c a.late else s)

/-! Checks (R143 to R147). -/

/-- R145: the located cell: logical row and column, 255 where not located. -/
def hemLocate (c : ArrCmd) (rows cols : List Nat) : Nat × Nat :=
  if mapCol2 c.mapUsed then (255, match cols with
    | [l] => l
    | _ => 255)
  else match rows, cols with
  | [r], [l] =>
    let both := match c.mode with
      | 0 => true
      | 1 => r ≥ 96
      | 2 => r ≥ 120
      | 3 => r ≥ 64 && l ≥ 64
      | _ => r ≥ 96 && l ≥ 96
    if both then (r, l) else (255, 255)
  | [r], [] => if (c.mode = 1 && r < 96) || (c.mode = 2 && r < 120) then (r, 255) else (255, 255)
  | _, _ => (255, 255)

/-- A failed check is counted and recorded (R146): ARR_HEM_LAST, HEM_MISMATCH or HEM_FAIL, the located cell's history (R147).
Whether an earlier location lies within 3,600 s is a free value. -/
def hemRecord (s : State) (t : Nat) (c : ArrCmd) (rows cols : List Nat) (bit : Nat) : ArrCmd × State :=
  let pg := pgArr t
  let (lr, lc) := hemLocate c rows cols
  let pr := if lr = 255 then 255 else physRow c.mapUsed lr
  let pc := if lc = 255 then 255 else physCol c.mapUsed lc
  let s1 := setReg (bumpF s pg 0x098 15 0 1) pg 0x0A4 (BitVec.ofNat 32 (pr + 2 ^ 8 * pc + 2 ^ 16 * lr + 2 ^ 24 * lc))
  let s2 := errSet s1 pg bit (pr + 256 * pc)
  let c1 := { c with loc := [lr, lc, pr, pc] }
  if pc = 255 || pr = 255 || bit ≠ 8 || (c.inj ≠ 0 && !c.real) then (c1, s2)
  else
    let seen := (tile s2 t).arr.hist.contains ⟨pr, pc⟩
    let (f, s3) := if seen then takeFree s2 else (1, s2)
    (c1, modArr s3 t (fun x => { x with
      hist := if seen then x.hist else x.hist ++ [⟨pr, pc⟩]
      retire := if f % 2 = 0 && !x.retire.contains (pr, pc) then x.retire ++ [(pr, pc)] else x.retire }))

/-- The result is converted to OUT_FMT (R140, R160) and waits for delivery. -/
def arrConvert (s : State) (t : Nat) (c : ArrCmd) : State :=
  let r := c.acc.foldl (fun (b : List Nat × State) x =>
    if c.rnd = 2 && c.ofmt ≠ 0 then
      let (n, s1) := drawNoise b.2 (pgTile t)
      (b.1 ++ [c.convert (.st n) x], s1)
    else (b.1 ++ [c.convert (if c.rnd = 1 then .tz else .ne) x], b.2)) ([], s)
  setArrCmd r.2 t { c with out := r.1, stage := .drained }

/-- R146 steps 2 and 5: the command goes back to be computed again. -/
def arrRecompute (s : State) (t : Nat) (c : ArrCmd) : State :=
  setArrCmd (bumpF s (pgArr t) 0x0A0 15 0 1) t { c with stage := .accepted, recomp := c.recomp + 1 }

/-- The accumulators and checksums as the drain finds them: `cells` lists accumulators, by place in the drain's order, and
`hems` hem cells, that hold another value than their operands give. -/
def ArrCmd.found (c : ArrCmd) (cells hems : List (Nat × Nat)) : ArrCmd :=
  let acc := cells.foldl (fun a e => if e.1 < a.length then lset a e.1 (e.2 % 2 ^ 32) else a) c.acc
  let hem := hems.foldl (fun h e => match tget? h e.1 with
    | some x => tput h e.1 (e.2 % 2 ^ 32, x.2)
    | none => h) c.hem
  { c with acc := acc, hem := hem, real := c.real || acc ≠ c.acc || hem ≠ c.hem }

/-- The drain moves the accumulators through its buffer in the tile store (R140); a word of it may meet an armed detector
(R227). -/
def drainBuf (s : State) (t : Nat) (c : ArrCmd) : ArrCmd × State :=
  match tstBuf (bankFree s t) t with
  | (true, s1) => let (f, s2) := takeFree s1; ({ c with badLine := some (f % 512) }, s2)
  | (false, s1) => ({ c with badLine := none }, s1)

/-- A check of the command is left out: counted once for the command (R119, R142, R144). -/
def hemSkip (s : State) (t : Nat) (c : ArrCmd) : ArrCmd × State :=
  let s1 := errSet s (pgArr t) 10 0
  ({ c with skipped := true }, if c.skipped then s1 else bumpF s1 (pgArr t) 0x09C 15 0 1)

/-- The check of a drained command decides (R142, R144, R146). -/
def arrDecide (s : State) (t : Nat) (c : ArrCmd) : State :=
  let pg := pgArr t
  let lvl := if c.opc = 0 then hemLevel s t c else 0
  let (c, s1) := if lvl ≠ 0 && (c.poison || !c.hemNan.isEmpty || !c.gave.isEmpty) then hemSkip s t c else (c, s)
  let (rows, cols, corner) := if lvl = 0 || c.poison then ([], [], false) else c.hemFails (regF s pg 0x088 12 8) c.acc
  if rows.isEmpty && cols.isEmpty && !corner then arrConvert s1 t c
  else if lvl = 1 then
    let (c1, s2) := hemRecord s1 t c rows cols 8
    arrConvert s2 t c1
  else if c.recomp = 0 then
    let (c1, s2) := hemRecord s1 t c rows cols 8
    arrRecompute s2 t c1
  else
    let (c1, s2) := hemRecord s1 t c rows cols 9
    let pr := c1.loc.getD 2 255
    let pc := c1.loc.getD 3 255
    let s3 := if (pr ≠ 255 || pc ≠ 255) && (freeField s2 t pr pc).isNone then errSet s2 pg 11 0 else s2
    setArrCmd s3 t { c1 with stage := .held }

/-- ARR_DRAIN: the oldest computed command is drained and checked; `cells` and `hems` are the accumulators and the checksums that
hold another value than their operands give. -/
def execArrDrain (t : Nat) (cells hems : List (Nat × Nat)) (s : State) : Out :=
  .next (match (tile s t).arr.cmds.head? with
  | none => s
  | some c =>
    if c.stage = .computing && arrRuns s t then
      let (c1, s1) := drainBuf s t (c.found cells hems)
      arrDecide s1 t c1
    else s)

/-! Delivery (R140, R141). -/

/-- The results of a command with their places in the drain's order. -/
def ArrCmd.cellsOut (c : ArrCmd) : List ((Nat × Nat × Nat) × Nat × Nat) := (c.tilePos 2).zip (c.out.mapIdx (fun k v => (k, v)))

/-- The result of a cell carries the mark: every line does (R142, R146 step 5), or the line of the drain buffer that held it
(R227). -/
def ArrCmd.cellBad (c : ArrCmd) (k : Nat) : Bool := c.poison || c.badLine == some (k / 32)

/-- The bytes of a result in C. -/
def arrBytes (c : ArrCmd) (x : ArrOpd) : List WB :=
  let w := fmtBits c.ofmt
  c.cellsOut.flatMap (fun e => match x.loc w 0 e.1.1 e.1.2.1 e.1.2.2 with
    | none => []
    | some (a, _, _) => wbs (x.kind == 1) a (toBytes (w / 8) e.2.2) (c.cellBad e.2.1))

/-- The addends of a result for TO_C_ACC. -/
def arrAddends (c : ArrCmd) (x : ArrOpd) : List (Nat × Nat × Bool) :=
  c.cellsOut.filterMap (fun e => (x.loc 32 0 e.1.1 e.1.2.1 e.1.2.2).map (fun l => (l.1, e.2.2, c.cellBad e.2.1)))

/-- One row of a result as the row engine takes it, with its mark. -/
def ArrCmd.rowOut (c : ArrCmd) (q i : Nat) : List Word × Bool :=
  ((List.range c.n).map (fun j => BitVec.ofNat 32 (c.out.getD (c.cellIx q i j) 0)), (List.range c.n).any (fun j => c.cellBad (c.cellIx q i j)))

/-- The result is handed on: to C, into C by reduce-writes, or to the row engine. Answers whether it was. -/
def arrDeliver (s : State) (t : Nat) (c : ArrCmd) : Bool × State :=
  let a := c.at_ t
  let x := (c.opds[2]?).getD (wgmOpd 0 0 0 0 0 false)
  if c.fused then
    let ps := (List.range c.probs).map c.rowParAt
    let rd := ((ps.map (fun p => (p.rowList.map p.reads).flatten)).flatten)
    let wl := (spanLines ((ps.map (fun p => (p.rowList.map p.writes).flatten)).flatten)).map (·.1)
    if !rowFirst s t c.aseq || !rowRuns s t || a.held s wl then (false, s)
    else match a.gather s ((spanLines rd).map (·.1)) with
    | (false, s1) => (false, s1)
    | (true, s1) =>
      let s2 := (List.range c.probs).foldl (fun s q => (rowItem s a (c.rowParAt q) (some (c.rowOut q)) false (16 * c.fuse) []).2) s1
      (true, rowEnd (perfCount s2 t 0x09 (24 + c.probs * c.m * c.rowPar.rowSteps)) a)
  else
    let wl := if x.kind = 2 then (c.lines 2 x).map (·.1) else []
    if a.held s wl then (false, s)
    else if c.drain = 2 then (true, a.reduce (a.again s wl) (arrAddends c x))
    else (true, a.write (a.again s wl) (arrBytes c x))

/-- The command completes under W2 (R140). -/
def arrComplete (s : State) (t : Nat) (c : ArrCmd) : State :=
  let s1 := dropArrCmd ((c.at_ t).clear s) t c.serial
  completeA (modArr s1 t (fun x => { x with done := x.done + 1 })) t c.slot (.arr c.serial)

/-- ARR_DELIVERED: the oldest command's result is delivered, and completes when its last line has been performed. -/
def execArrDelivered (t : Nat) (s : State) : Out :=
  .next (match (tile s t).arr.cmds.head? with
  | none => s
  | some c =>
    if c.stage = .delivering then (if (c.at_ t).busy s then s else arrComplete s t c)
    else if c.stage = .drained then
      match arrDeliver s t c with
      | (false, s1) => s1
      | (true, s1) =>
        let s2 := if c.poison || c.badLine.isSome then errSet s1 (pgArr t) 13 0 else s1
        if (c.at_ t).busy s2 then setArrCmd s2 t { c with stage := .delivering } else arrComplete s2 t c
    else s)

/-! Holds (R146, R148). -/

def arrHeld (s : State) (t : Nat) : Option ArrCmd := (tile s t).arr.cmds.find? (fun c => c.stage == .held)

/-- R146 step 5. -/
def arrRetry (s : State) (t : Nat) : State :=
  match arrHeld s t with
  | some c => arrRecompute s t c
  | none => s

def arrPoison (s : State) (t : Nat) : State :=
  match arrHeld s t with
  | some c => arrConvert s t { c with poison := true }
  | none => s

/-- A write of ARR_CTRL from a cluster (R148). -/
def arrCtrl (s : State) (t v : Nat) : State :=
  let r := v.testBit 0
  let p := v.testBit 1
  if !r && !p then s
  else if (r && p) || (arrHeld s t).isNone then regErr s (pgArr t) errState 0x090
  else if r then arrRetry s t
  else arrPoison s t

end Sys2Proof.Machine
end

