-- ==== Sys2Proof/Machine/Ctl.lean ====
section
/-!
DEFINITION. Stop, change, restart (R44 to R49): BLK_CTRL requests and their responses, the end of STOPPING, faults declared on
a block (R40, R42), the end of a long operation (R51).
-/
namespace Sys2Proof.Machine

/-! Work in hand (R39, R48). -/

/-- Accepted array and row engine commands of a tile that are unfinished. -/
def arrOpen (s : State) (t : Nat) : Bool := (tile s t).arr.cmds.any (fun c => c.stage != .offered)
def rowOpen (s : State) (t : Nat) : Bool :=
  (tile s t).row.cmds.any (fun c => c.stage != .offered) ||
    (tile s t).arr.cmds.any (fun c => c.stage != .offered && bits (c.words.headD 0) 21 20 == 3)

/-- What STOPPING waits for, a long operation apart (R84, R149, R184, R225, R400). -/
def stopWork (s : State) (pg : Nat) : Bool :=
  match pageAt pg with
  | none => false
  | some p => match p.ty with
    | .tile => !(tile s p.tile).wgs.isEmpty
    | .arr => arrOpen s p.tile
    | .row => rowOpen s p.tile
    | .tst => (tile s p.tile).wgmUsed != 0 || arrOpen s p.tile || rowOpen s p.tile
    | .l2s => let x := slice s (32 * p.die + p.inst); !x.fills.isEmpty || !x.waits.isEmpty
    | .de => !(engCmds s p.eng).isEmpty
    | .ce => !(engCmds s p.eng).isEmpty
    | .fx => !(engCmds s p.eng).isEmpty
    | .me => !(engCmds s p.eng).isEmpty
    | .fport => !(port s p.port).retry.isEmpty && linkState s p.port != lkDown
    | .nhl => !(port s p.port).retry.isEmpty && linkState s p.port != lkDown
    | _ => false

/-- Work or a long operation in hand: BUSY rather than IDLE. -/
def busyWork (s : State) (pg : Nat) : Bool :=
  (blk s pg).opRun ||
  match pageAt pg with
  | none => false
  | some p => match p.ty with
    | .tst => false
    | .fport => false
    | .nhl => false
    | _ => stopWork s pg

/-! Responses of BLK_CTRL (R44). -/
def rsAccepted : Nat := 0
def rsOwned : Nat := 1
def rsWrongState : Nat := 2
def rsInvalid : Nat := 3
def rsNotPermitted : Nat := 4

def setResp (s : State) (p : Path) (pg r : Nat) : State := modBlk s pg (fun b => { b with resp := tput b.resp (pathIx p) r })

/-- A request that is not accepted: RESP holds its reason, CTRL_REJECT is set with an offset (R45, R46). -/
def ctlReject (s : State) (p : Path) (pg r off : Nat) : State := regErr (setResp s p pg r) pg errReject off

/-- The open stop ends: no owner, no staged write. Staged low halves of live pairs (kept under their offset + 4096) stay. -/
def Blk.endStop (b : Blk) : Blk := { b with owner := none, staged := [], pairStage := b.pairStage.filter (fun x => x.1 ≥ 4096) }

/-! Stopped-only registers (R46). -/

/-- The low halves of the 64-bit pairs that are stopped-only: XLT_SDT, ME_QDT, ME_CTXT. -/
def PT.soPairs : PT → List Nat
  | .xlt => [0x080]
  | .me => [0x0A0, 0x0A8]
  | _ => []

/-- The lowest register of a staged set that is inconsistent: half a pair, or the rule of the block's chapter (R225, R400). -/
def stagedBad (s : State) (pg : Nat) : Option Nat :=
  let b := blk s pg
  match pageAt pg with
  | none => none
  | some p =>
    let own := match p.ty with
      | .tst => (match tget? b.staged 0x080 with
        | some w => if fld w 7 0 > 128 then [0x080] else []
        | none => [])
      | .fport => (match tget? b.staged 0x084 with
        | some w => if popcount 9 (fld w 8 0) > 5 then [0x084] else []
        | none => [])
      | .nhl => (match tget? b.staged 0x084 with
        | some w => if popcount 9 (fld w 8 0) > 5 then [0x084] else []
        | none => [])
      | _ => []
    let bad := own ++ p.ty.soPairs.filter (fun o => thas b.pairStage o)
    match bad with
    | [] => none
    | x :: t => some (t.foldl min x)

/-- Every staged value takes effect at once. -/
def Blk.apply (b : Blk) : Blk := { b with regs := b.staged.foldl (fun m w => tput m w.1 w.2) b.regs }

/-! What a stop and its end do in the block itself. -/

/-- TILE: the mode is read as the STOP is accepted, and in a park mode every resident workgroup is parked (R84). -/
def onStop (s : State) (pg : Nat) : State :=
  match pageAt pg with
  | some ⟨.tile, i, d⟩ =>
    let t := 44 * d + i
    let m := regF s pg 0x08C 1 0
    let s1 := modBlk s pg (fun b => { b with stopMode := m })
    if m = 1 || m = 2 then (tile s1 t).wgs.foldl (fun s w => stopWg s t w.1 (if m = 1 then rMigrate else rPreempt)) s1 else s1
  | _ => s

/-- FPORT and NHL: STOPPED holds the link in DOWN with reason STOPPED (R400). -/
def onStopped (s : State) (pg : Nat) : State :=
  match pageAt pg with
  | some p => if p.ty = .fport || p.ty = .nhl then linkDown s p.port dnStopped else s
  | none => s

/-- FPORT and NHL: the end of the stop runs the procedure of R385. -/
def onResume (s : State) (pg : Nat) : State :=
  match pageAt pg with
  | some p => if p.ty = .fport || p.ty = .nhl then setLink s p.port lkDetect else s
  | none => s

/-! The requests (R44). `who` is the writing path. -/

/-- STOP. R44 gives no order of the reasons; the model's (DESIGN CHOICE): the path that holds the stop reads WRONG_STATE, any
other OWNED. -/
def ctlStop (s : State) (p : Path) (pg : Nat) : State :=
  let b := blk s pg
  match b.owner with
  | some o => ctlReject s p pg (if o = p then rsWrongState else rsOwned) 0x00C
  | none =>
    if !b.st.inService then ctlReject s p pg rsWrongState 0x00C
    else onStop (setResp (setBlk s pg { b.enter .stopping with owner := some p }) p pg rsAccepted) pg

/-- The writer may end the stop in STOPPED: the reason when it may not. Outside STOPPED it reads WRONG_STATE, whoever holds the
stop (R44 gives no order: DESIGN CHOICE). -/
def ctlStopped (s : State) (p : Path) (pg : Nat) : Option Nat :=
  let b := blk s pg
  if b.st ≠ .stopped then some rsWrongState else if b.owner ≠ some p then some rsOwned else none

def ctlRestart (s : State) (p : Path) (pg : Nat) : State :=
  match ctlStopped s p pg with
  | some r => ctlReject s p pg r 0x00C
  | none => match stagedBad s pg with
    | some o => ctlReject s p pg rsInvalid o
    | none => onResume (setResp (modBlk s pg (fun b => (b.apply.endStop).enter .idle)) p pg rsAccepted) pg

def ctlDiscard (s : State) (p : Path) (pg : Nat) : State :=
  match ctlStopped s p pg with
  | some r => ctlReject s p pg r 0x00C
  | none => onResume (setResp (modBlk s pg (fun b => b.endStop.enter .idle)) p pg rsAccepted) pg

def ctlTake (s : State) (p : Path) (pg : Nat) : State :=
  if !isGc p then ctlReject s p pg rsNotPermitted 0x00C
  else if (blk s pg).owner.isNone then ctlReject s p pg rsWrongState 0x00C
  else setResp (modBlk s pg (fun b => { b with owner := some p })) p pg rsAccepted

def ctlWithdraw (s : State) (p : Path) (pg : Nat) : State :=
  let b := blk s pg
  if b.st ≠ .stopping then ctlReject s p pg rsWrongState 0x00C
  else if b.owner ≠ some p then ctlReject s p pg rsOwned 0x00C
  else setResp (setBlk s pg (b.endStop.enter (if busyWork s pg then .busy else .idle))) p pg rsAccepted

/-! Events of a block. -/

/-- The end of STOPPING (R40, R48). -/
def stopEnds (s : State) (pg : Nat) : State :=
  let b := blk s pg
  if b.st = .stopping && !b.opRun && !stopWork s pg then onStopped (setBlk s pg (b.enter .stopped)) pg else s

/-- A long operation that was running ends (R50, R51). -/
def opOver (s : State) (pg res : Nat) : State :=
  let b := blk s pg
  if !b.opRun then s
  else
    let val := if b.progKind = 1 then 10000 else b.progVal
    let s1 := opEnd s pg res val
    settle s1 pg (busyWork s1 pg)

/-- A fault is declared (R40, R42): a long operation ends FAILED (R51), the stop ends, staged writes are discarded, the block
holds no work. It leaves the state it was in for FAILED, in one transition. -/
def failBlock (s : State) (pg : Nat) : State :=
  let b := blk s pg
  let s1 := if b.opRun then opEnd s pg 2 b.progVal else s
  errSet (modBlk s1 pg (fun b => b.endStop.enter .failed)) pg errBlkFailed 0

/-- Firmware moves a block to a state of its own choice by R40. -/
def toState (s : State) (pg : Nat) (st : BState) : State := modBlk s pg (fun b => b.endStop.enter st)

end Sys2Proof.Machine
end

