-- ==== Sys2Proof/Machine/Trim.lean ====
section
/-!
DEFINITION. Measured time: the reference curve (R26, R27), rate monitors (R28), trim of local interval counters (R30, R31, R487),
noise sources (R162), the loss of a die-to-die edge (R17), leaving service (R18).
-/
namespace Sys2Proof.Machine

/-! The reference curve. -/

/-- The step rate of R26 at a voltage in mV from 550 to 850, in units of 0.1 M steps/s. -/
def curve (mv : Nat) : Nat :=
  if mv < 600 then 10600 + 38 * (mv - 550)
  else if mv < 700 then 12500 + 37 * (mv - 600)
  else if mv < 800 then 16200 + 36 * (mv - 700)
  else 19800 + 34 * (mv - 800)

/-- The derating factor of R27 in thousandths. -/
def derate (temp : Nat) : Nat := 1000 - 2 * (temp - 60)

/-- The voltage of a point code in mV (R456). -/
def codeMv (c : Nat) : Nat := 550 + 10 * c

/-- The present voltage of a supply in mV: its point, VS at 750, or what a droop has left of it (R29, R457). -/
def supplyMv (s : State) (n : Nat) : Nat :=
  match tget? s.pwr.droops n with
  | some v => v
  | none => if n < 16 then codeMv (railCode s n) else 750

/-- The ratio that firmware writes at a trim (R28): exact where the quotient is, else rounded down or up, as firmware does (a
free value); free where the curve promises no rate (R26). The spec does not say what the field holds for a quotient beyond its
16 bits: the model's is 0xFFFF (DESIGN CHOICE). -/
def trimRatio (s : State) (pg temp free : Nat) : Nat :=
  match supplyOf pg with
  | none => free % 65536
  | some n =>
    let mv := supplyMv s n
    if mv < 550 then free % 65536
    else
      let n := (blk s pg).meas * 10 * 1000 * 32768
      let d := curve mv * derate temp
      min 0xFFFF (n / d + if n % d = 0 then 0 else free % 2)

/-- The page has a local interval counter, and its block has power: it is not OFF. A block that is FAILED because its rail was
turned off counts on in the model; the spec says that a counter counts while the rail is up, and not what state that is of a
FAILED block (DESIGN CHOICE). -/
def counts (s : State) (pg : Nat) : Bool :=
  match pageAt pg with
  | some p => p.ty.hasLic && (blk s pg).st ≠ .off
  | none => false

/-- RATE_INTERVAL: 1,000 µs of a block's counter have ended; MEAS takes the mean rate over them (R28). -/
def execRateInterval (page meas : Nat) (s : State) : Out :=
  .next (if counts s page then
      modBlk s page (fun b => { b with lic := ((b.lic / 1000000 + 1) * 1000000) % 2 ^ 64, meas := meas % 65536 })
    else s)

/-- The page holds a noise source (R161). -/
def hasNoise (pg : Nat) : Bool :=
  match pageAt pg with
  | some p => p.ty = .tile || p.ty = .ce
  | none => false

/-- Firmware reads the noise register at a trim and reports a fallback that is new (R162). -/
def noiseCheck (s : State) (pg : Nat) : State :=
  if !hasNoise pg then s
  else
    let s1 := noiseWindow s pg
    let fb := regF s1 pg 0x0F0 17 17 = 1
    let s2 := modBlk s1 pg (fun b => { b with noiseTold := fb })
    if fb && !(blk s1 pg).noiseTold then raise s2 { ring := 0, kind := 0x06, info := blkId pg } else s2

/-- Some oscillator is in service (R487). -/
def oscUp (s : State) : Bool := s.guide.oscBad ≠ 3

/-- COUNTER_TRIM: firmware trims a counter against the oscillator, writes CORR and RATIO, and looks at the noise source. -/
def execCounterTrim (page corr temp : Nat) (s : State) : Out :=
  .next (if counts s page && oscUp s then
      let (f, s1) := takeFree s
      let r := trimRatio s1 page temp f
      noiseCheck (modBlk s1 page (fun b => { b with corr := corr % 65536, ratio := r, stale := false, valid := true })) page
    else s)

/-- TRIM_STALE: a counter has not been trimmed for 500 ms (R31, R487). -/
def execTrimStale (page : Nat) (s : State) : Out :=
  .next (if counts s page && !(blk s page).stale then
      raise (modBlk s page (fun b => { b with stale := true })) { ring := 0, kind := 0x68, info := blkId page }
    else s)

/-- NOISE_HEALTH_FAIL: a health test of a tile's or copy engine's source fails (R162). -/
def execNoiseHealthFail (page : Nat) (s : State) : Out :=
  .next (if hasNoise page && (blk s page).st ≠ .off then
      (if injects s page 3 then noiseFail (injFire s page []) page else noiseFail s page)
    else s)

/-- A retest of a noise source (R162): a pass clears FALLBACK, a failure counts. -/
def noiseRetest (s : State) (pg : Nat) (pass : Bool) : State :=
  if pass then modBlk (setRegF s pg 0x0F0 17 17 0) pg (fun b => { b with noiseTold := false }) else noiseFail s pg

/-- The retests of a power-up or a warm reset (R162): the sources of the pages listed fail. -/
def noiseRetests (s : State) (bad : List Nat) : State :=
  let again := (s.blks.map (·.1)).filter (fun pg => hasNoise pg && (blk s pg).st ≠ .off && regF s pg 0x0F0 17 17 = 1 && !bad.contains pg)
  (bad.filter hasNoise).foldl noiseFail (again.foldl (fun s pg => noiseRetest s pg true) s)

/-- NOISE_RETEST: the retest of a source in FALLBACK. -/
def execNoiseRetest (page : Nat) (pass : Bool) (s : State) : Out :=
  .next (if hasNoise page && (blk s page).st ≠ .off && regF s page 0x0F0 17 17 = 1 then noiseRetest s page pass else s)

/-! Leaving service. -/

/-- Every port that is UP or QUARANTINED sends DEPART (R433). -/
def departAll (s : State) : State :=
  (List.range 18).foldl (fun s p => if linkState s p = lkUp || linkState s p = lkQuar then emit s p .depart else s) s

/-- The device leaves service (R18, R447, R450). -/
def leaveService (s : State) : State :=
  if s.leftService then s else { setAlert (departAll s) 0 with leftService := true }

/-! Die-to-die edges. -/

/-- The two dies of an edge: 0 D0-D1, 1 D2-D3, 2 D0-D2, 3 D1-D3. R4 gives the four edges; the spec numbers them nowhere, neither
in the route card's EDGE mask nor in the DETAIL of step 6: the numbers are the model's (DESIGN CHOICE). -/
def edgeDies (e : Nat) : Nat × Nat :=
  match e with
  | 0 => (0, 1)
  | 1 => (2, 3)
  | 2 => (0, 2)
  | _ => (1, 3)

/-- A die has lost both its edges. -/
def cutOff (s : State) (d : Nat) : Bool :=
  (List.range 4).all (fun e => (edgeDies e).1 ≠ d && (edgeDies e).2 ≠ d || s.guide.edges.contains e)

/-- A failed edge is reported by both its dies and to the host (R17). Which of the two dies stands in INFO [1:0] and which in
[5:4] the spec does not say (R445): the model puts the lower-numbered one in [1:0] (DESIGN CHOICE). -/
def edgeReport (s : State) (e : Nat) : State :=
  let (a, b) := edgeDies e
  raise (errSet (errSet s (pgDie a) 8 b) (pgDie b) 8 a) { ring := 0, kind := 0x08, info := a + 16 * b }

/-- DIE_EDGE_FAIL: traffic takes the other way round, both dies report, the route card marks the edge; a die cut off takes the
device out of service (R17, R18). -/
def execDieEdgeFail (e : Nat) (s : State) : Out :=
  .next (if e ≥ 4 || s.guide.edges.contains e || !s.booted then s
    else
      let s1 := edgeReport { s with guide := { s.guide with edges := e :: s.guide.edges } } e
      let s3 := cardPut s1 ctEdge 0 ((s1.guide.edges.map (fun e => 2 ^ e)).sum)
      if (List.range 4).any (cutOff s3) then leaveService s3 else s3)

end Sys2Proof.Machine
end

