-- ==== Sys2Proof/Machine/Power.lean ====
section
/-!
DEFINITION. Power, pacing and heat (R454 to R474, R485): input, droop and rail faults, the pacing controller, sensors, trips.
-/
namespace Sys2Proof.Machine

/-! The part's limits (R2, R461). -/

/-- Maximum input power in W, and the highest point code. -/
def maxWatts (s : State) : Nat := if s.partE then 1900 else 2800
def topCode (s : State) : Nat := if s.partE then 20 else 30

def setPwr (s : State) (p : Pwr) : State := { s with pwr := p }

/-! Loss of power (R286). -/

/-- What is left when every supply is off: the part, the boot flash, the host's memory, cables in their connectors; and the
model's own queue and counter. -/
def unpowered (s : State) : State :=
  { State.reset with
    pending := s.pending
    fresh := s.fresh
    partE := s.partE
    flash := s.flash
    host := s.host
    resetLow := s.resetLow
    nextReq := s.nextReq
    cables := s.cables.map (fun c => (c.1, { present := c.2.present : Cable })) }

/-- Every supply turns off, as at a loss of 52 V (R454, R286). -/
def powerOff (s : State) : State := unpowered s

/-! Rails. -/

/-- Rail state in PWR_RAIL_n and PWR_SHARED_d. -/
def supplyReg (n : Nat) : Nat := if n < 16 then 0x100 + 4 * n else 0x140 + 4 * (n - 16)
def railFailed (s : State) (n : Nat) : Bool := regF s pgPwr (supplyReg n) 6 6 = 1
def setCode (s : State) (n c : Nat) : State := setRegF s pgPwr (0x100 + 4 * n) 4 0 c

/-- The tiles and slices of core rail n (R455). -/
def railTiles (n : Nat) : List Nat := (List.range 11).map (fun i => 44 * (n / 4) + 11 * (n % 4) + i)
def railSlices (n : Nat) : List Nat := (List.range 8).map (fun i => 32 * (n / 4) + 8 * (n % 4) + i)

/-- The pages of the blocks that a supply feeds (R455); the die's own page stands for its router and die-to-die links (DEDUCED). -/
def supplyPages (n : Nat) : List Nat :=
  if n < 16 then
    ((railTiles n).map (fun t => [pgTile t, pgArr t, pgRow t, pgTst t, pgL1c t])).flatten ++ (railSlices n).map pgL2s
  else
    let d := n - 16
    (((List.range 44).filter (fun e => engDie e == d)).map pgEng) ++ [pgBel d, pgTxg d, pgXlt d, pgDie d] ++
      (((List.range 18).filter (fun p => portDie p == d)).map pgPort) ++ (if d = 0 then [pgNhl] else [])

/-- INFO of RAIL_FAULT and PHASE_LOST: rail or supply number, shared. -/
def supplyInfo (n : Nat) : Nat := if n < 16 then n else (n - 16) + 16

/-- A rail fault (R457, R40, R18): the supply is off, its blocks are FAILED, and the device leaves service. -/
def railFault (s : State) (n : Nat) : State :=
  if n ≥ 20 || railFailed s n then s
  else
    let s1 := (supplyPages n).foldl (fun s pg =>
      let st := (blk s pg).st
      if st = .off || st = .failed || st = .retired then s else failBlock s pg) s
    let s2 := errSet s1 pgPwr 11 (supplyInfo n)
    let s3 := setRegF (if n < 16 then setCode s2 n 0 else s2) pgPwr (supplyReg n) 6 6 1
    leaveService (raise s3 { ring := 0, kind := 0x47, info := supplyInfo n })

/-- RAIL_FAULT. -/
def execRailFault (rail : Nat) (s : State) : Out := .next (if powered s then railFault s rail else s)

/-- An excursion below 0.52 V counts once (R457). -/
def countDroop (s : State) : State := bumpF s pgPwr 0x0A8 15 0 1

/-- RAIL_DROOP: a supply stands at a voltage in mV; below 0.45 V at any moment is a rail fault. -/
def execRailDroop (rail mv : Nat) (s : State) : Out :=
  .next (if !powered s || rail ≥ 20 || railFailed s rail || mv ≥ 520 then s
    else
      let s1 := if thas s.pwr.droops rail then s else countDroop s
      if mv < 450 then railFault s1 rail
      else setPwr s1 { s1.pwr with droops := tput s1.pwr.droops rail mv })

/-- RAIL_VOLTAGE_RETURN: the excursion of a supply has ended. -/
def execRailVoltageReturn (rail : Nat) (s : State) : Out :=
  .next (setPwr s { s.pwr with droops := tdel s.pwr.droops rail })

/-- PHASE_LOST: a phase is turned off; the fourth loss leaves N − 2 phases and is a rail fault (R485). -/
def execPhaseLost (rail : Nat) (s : State) : Out :=
  .next (if !powered s || rail ≥ 20 || railFailed s rail then s
    else
      let k := tgetD s.pwr.phases rail 0 + 1
      let s1 := setPwr s { s.pwr with phases := tput s.pwr.phases rail k }
      if k ≥ 4 then railFault s1 rail
      else raise s1 { ring := 0, kind := 0x66, value := 2 - k, info := supplyInfo rail })

/-! The input (R454). -/

/-- The band of an input voltage in mV: 0 in range, 1 near, 2 outer, 3 off. -/
def inputBand (mv : Nat) : Nat :=
  if 48000 ≤ mv && mv ≤ 56000 then 0
  else if 46000 ≤ mv && mv ≤ 58000 then 1
  else if 44000 ≤ mv && mv ≤ 60000 then 2
  else 3

/-- Every core rail that has not failed goes to code 0 at once. -/
def railsToZero (s : State) : State :=
  (List.range 16).foldl (fun s n => if railFailed s n then s else setCode s n 0) s

/-- INPUT_EXCURSION: the input stands at a voltage. -/
def execInputExcursion (mv : Nat) (s : State) : Out :=
  .next (if !powered s then s
    else
      let b := inputBand mv
      if b = 3 then powerOff s
      else
        let s1 := setRegF s pgPwr 0x094 31 16 (mv / 10)
        let s2 := if b > s.pwr.band then raise (errSet s1 pgPwr 12 (mv / 10)) { ring := 0, kind := 0x48, value := mv / 10 } else s1
        let s3 := setPwr s2 { s2.pwr with band := b }
        if b = 2 then railsToZero s3 else s3)

/-- INPUT_EXCURSION_TIMEOUT: 10,000 µs of an excursion in the outer bands. -/
def execInputExcursionTimeout (s : State) : Out := .next (if s.pwr.band = 2 then powerOff s else s)

/-- INPUT_RANGE_RETURN: the input is back within 46 V to 58 V. -/
def execInputRangeReturn (s : State) : Out := .next (setPwr s { s.pwr with band := 0 })

/-! Registers of the controller (R461). -/

/-- A clamped write is recorded and reported. -/
def clampNote (s : State) (off bit which req v : Nat) : State :=
  let s1 := setRegF s pgPwr off bit bit (if v = req then 0 else 1)
  if v = req then s1
  else raise (regErr s1 pgPwr 8 off) { ring := 0, kind := 0x40, value := req, info := which }

/-- A write of PWR_CAP (R3, R461). -/
def capWrite (s : State) (w : Nat) : State :=
  let req := bits w 8 0
  let v := max 100 (min req (maxWatts s / 10))
  clampNote (setRegF s pgPwr 0x080 8 0 v) 0x080 16 0 req v

/-- A write of PWR_VCEIL. -/
def vceilWrite (s : State) (w : Nat) : State :=
  let req := bits w 5 0
  let v := min req (topCode s)
  clampNote (setRegF s pgPwr 0x084 5 0 v) 0x084 6 1 req v

/-! Demand and estimate (R459, R460). -/

/-- s(v) of a point code: numerator over `sDen`. -/
def sNum (c : Nat) : Nat := codeMv c * codeMv c * curve (codeMv c)
def sDen : Nat := 750 * 750 * 18000

/-- A phase tag counts as learned (R460). -/
def tagLearned (s : State) (tag : Nat) : Bool :=
  match tget? s.pwr.dems tag with
  | some d => tag ≠ 0 && d.periods ≥ 64
  | none => false

/-- dem of a tag, in 2^-20 mW (R460). -/
def demOf (s : State) (tag : Nat) : Nat :=
  match tget? s.pwr.dems tag with
  | some d => if tag ≠ 0 && d.periods ≥ 64 then d.dem else 13000 * 2 ^ 20
  | none => 13000 * 2 ^ 20

/-- The tag of a tile: the one with the highest dem among its resident launches (R459). -/
def tileTag (s : State) (t : Nat) : Nat :=
  let tags := ((tile s t).wgs.map (fun w => (s.launches.find? (fun l => l.key == w.2.launch)).map (·.phase))).filterMap id
  match tags with
  | [] => 0
  | x :: r => r.foldl (fun b y => if demOf s y > demOf s b then y else b) x

/-- The tiles of a rail in BUSY, and whether its slices performed an access (R458). -/
def busyTiles (s : State) (n : Nat) : List Nat := (railTiles n).filter (fun t => (blk s (pgTile t)).st = .busy)
def slicesUsed (s : State) (n : Nat) : Bool := (railSlices n).any (fun i => (slice s i).used)

/-- A rail's demand at 0.75 V, in 2^-20 mW. -/
def railLoad (s : State) (n : Nat) : Nat :=
  if railFailed s n then 0
  else
    let ts := busyTiles s n
    if !ts.isEmpty then (ts.map (fun t => demOf s (tileTag s t))).sum
    else if slicesUsed s n then 16000 * 2 ^ 20 else 0

/-- A rail works in this period. -/
def railBusy (s : State) (n : Nat) : Bool := !(busyTiles s n).isEmpty || slicesUsed s n

def ceilOf (s : State) (n : Nat) : Nat := tgetD s.pwr.ceil n 30

/-- p_est in mW with the rails at given codes: numerator over `estDen` (R459). -/
def estNum (s : State) (loads : List Nat) (code : Nat → Nat) : Nat :=
  10 * ((List.range 16).map (fun n => loads.getD n 0 * sNum (code n))).sum + 10 * s.pwr.fixed * sDen * 2 ^ 20
def estDen : Nat := 9 * sDen * 2 ^ 20

/-- p_est at a candidate point. -/
def estAt (s : State) (loads : List Nat) (c : Nat) : Nat := estNum s loads (fun n => min c (ceilOf s n))

/-- The controller's settings: a write counts from the next period (R458). -/
def paceRegs : List Nat := [0x080, 0x084, 0x088, 0x08C, 0x090]
def paceW (s : State) (off : Nat) : Word := (tget? s.pwr.read off).getD (regW s pgPwr off)
def paceF (s : State) (off hi lo : Nat) : Nat := fld (paceW s off) hi lo
def paceRead (s : State) : State := setPwr s { s.pwr with read := paceRegs.map (fun o => (o, regW s pgPwr o)) }

/-- The cap in mW. -/
def capMw (s : State) : Nat := paceF s 0x080 8 0 * 10000
def vceil (s : State) : Nat := min (paceF s 0x084 5 0) (topCode s)
def ctlMeasure (s : State) : Bool := regF s pgPwr 0x088 2 1 = 1
def bubbleMode (s : State) : Bool := paceF s 0x088 0 0 = 1
def pointOf (s : State) : Nat := regF s pgPwr 0x09C 4 0

/-- R462: may the point rise from `cur` to `c`? -/
def rampOk (s : State) (loads : List Nat) (cur c : Nat) : Bool :=
  let lim := paceF s 0x08C 15 0
  c ≤ cur || lim = 0 || estAt s loads c ≤ (s.pwr.est + lim * 100) * estDen

/-- The highest code not above a limit that a condition allows, else `dflt`. -/
def bestCode (lim dflt : Nat) (ok : Nat → Bool) : Nat :=
  match ((List.range (lim + 1)).filter ok).getLast? with
  | some c => c
  | none => dflt

/-- The uniform point of a period (R459, R462, R464, R466), from the point it starts at. -/
def choosePoint (s : State) (loads : List Nat) (cur : Nat) : Nat :=
  let lim := vceil s
  if bubbleMode s then bestCode lim 0 (rampOk s loads cur)
  else if ctlMeasure s then min cur lim
  else bestCode lim 0 (fun c => estAt s loads c ≤ capMw s * estDen && rampOk s loads cur c)

/-- b of R466 in ESTIMATE control. -/
def bubbleOf (s : State) (p : Nat) : Nat :=
  let cap := capMw s * estDen
  if p ≤ cap then 0 else min 56 ((64 * (p - cap) + p - 1) / p)

/-- The rails take their points: the lower of the uniform point and their ceiling, or code 0 (R458, R454). -/
def setRails (s : State) (u : Nat) : State :=
  (List.range 16).foldl (fun s n =>
    if railFailed s n then s
    else if railBusy s n && s.pwr.band ≠ 2 then setCode s n (min u (ceilOf s n)) else setCode s n 0) s

/-! Heat (R468, R469). -/

/-- The sensors of a die. -/
def sensorKnown (d i : Nat) : Bool := i ≤ 47 || (48 ≤ i && i ≤ 55) || (i = 56 && d = 0)

/-- Throttle, maximum operating and trip temperatures of a sensor. -/
def sensorLimits (i : Nat) : Nat × Nat × Nat :=
  if 48 ≤ i && i ≤ 50 then (90, 95, 105)
  else if 52 ≤ i && i ≤ 55 then (115, 120, 130)
  else (100, 105, 115)

/-- A sensor acts on local rail r of its die. -/
def actsOn (i r : Nat) : Bool :=
  if i < 44 then i / 11 == r
  else if i < 48 then i - 44 == r
  else if i < 52 then true
  else if i < 56 then i - 52 == r
  else false

/-- The sensors of a die that have a reading and act on a rail. -/
def railSensors (s : State) (d r : Nat) : List Nat :=
  (List.range 56).filter (fun i => actsOn i r && thas s.pwr.sensors (256 * d + i))

/-- A sensor answers. -/
def answers (s : State) (d i : Nat) : Bool :=
  match tget? s.pwr.sensors (256 * d + i) with
  | some x => x.ok
  | none => false

def rawTemp (s : State) (d i : Nat) : Nat :=
  match tget? s.pwr.sensors (256 * d + i) with
  | some x => x.temp
  | none => 0

/-- The temperature that firmware takes for a sensor: its reading, or 5 °C above the hottest answering sensor that acts on the
same rails (R469); a free value when none answers. -/
def tempOf (s : State) (free d i : Nat) : Nat :=
  if answers s d i then rawTemp s d i
  else
    let peers := (List.range 56).filter (fun j => answers s d j && (List.range 4).any (fun r => actsOn i r && actsOn j r))
    match peers.map (rawTemp s d) with
    | [] => free % 256
    | x :: t => t.foldl max x + 5

/-- Readings of a rail's sensors: index and temperature. An injected comparison reads the throttle temperature (R525). -/
def railTemps (s : State) (free d r : Nat) (inj : Option Nat) : List (Nat × Nat) :=
  (railSensors s d r).map (fun i => (i, if inj = some i then (sensorLimits i).1 else tempOf s free d i))

/-- The hottest of some readings, the lowest index first. -/
def hottest (l : List (Nat × Nat)) : Nat × Nat :=
  match l with
  | [] => (0, 0)
  | x :: t => t.foldl (fun b y => if y.2 > b.2 then y else b) x

/-- THERMAL_THROTTLE, THERMAL_CLEAR, THERMAL_HOT. -/
def heatEvent (s : State) (kind d : Nat) (x : Nat × Nat) : State :=
  raise s { ring := 0, kind := kind, value := x.2, info := d + 256 * x.1 }

/-- One rail's ceiling in a period (R469); the rail's number when it fell. -/
def railHeat (s : State) (free d r : Nat) (inj : Option Nat) : State × Bool :=
  let n := 4 * d + r
  let ts := railTemps s free d r inj
  let c := ceilOf s n
  let p := s.pwr
  let put (s : State) (c cool : Nat) : State :=
    setRegF (setPwr s { s.pwr with ceil := tput s.pwr.ceil n c, cool := tput s.pwr.cool n cool }) pgPwr (0x100 + 4 * n) 5 5 (if c < 30 then 1 else 0)
  let at_ (f : Nat × Nat × Nat → Nat) : List (Nat × Nat) := ts.filter (fun x => x.2 ≥ f (sensorLimits x.1))
  let fall (nc : Nat) : State × Bool :=
    let s1 := put s nc 0
    let h := hottest (at_ (·.1))
    let s2 := if c = 30 && nc < 30 then heatEvent (errSet s1 (pgThm d) 8 h.1) 0x44 d h else s1
    (s2, nc < c)
  if !(at_ (·.2.1)).isEmpty then fall 0
  else if !(at_ (·.1)).isEmpty then fall (c - 1)
  else if ts.all (fun x => x.2 + 3 ≤ (sensorLimits x.1).1) then
    let k := tgetD p.cool n 0 + 1
    if k < 10 then (put s c k, false)
    else
      let c1 := min 30 (c + 1)
      let s1 := put s c1 0
      (if c < 30 && c1 = 30 then heatEvent s1 0x45 d (hottest ts) else s1, false)
  else (put s c 0, false)

/-- Sensors that have stopped answering set SENSOR_FAIL once (R469). -/
def lostSensors (s : State) (d : Nat) : State :=
  (List.range 57).foldl (fun s i =>
    let k := 256 * d + i
    if !thas s.pwr.sensors k then s
    else if answers s d i then setPwr s { s.pwr with lost := s.pwr.lost.filter (· ≠ k) }
    else if s.pwr.lost.contains k then s
    else errSet (setPwr s { s.pwr with lost := k :: s.pwr.lost }) (pgThm d) 10 i) s

/-- The armed detectors of a THM page (R525): the sensor whose reading fails, the sensor that reads its throttle
temperature. -/
def thmInject (s : State) (d : Nat) : Option Nat × State :=
  let sel := regF s (pgThm d) 0x084 7 0
  if !sensorKnown d sel then (none, s)
  else if injects s (pgThm d) 1 then (none, errSet (injFire s (pgThm d) [10]) (pgThm d) 10 sel)
  else if injects s (pgThm d) 2 && sel ≤ 55 then (some sel, injFire s (pgThm d) [8])
  else (none, s)

/-- THM_MAX of a die (R474). -/
def thmMax (s : State) (d : Nat) : State :=
  let l := ((List.range 48).filter (answers s d)).map (fun i => (i, rawTemp s d i))
  let h := hottest l
  let st := if s.pwr.hot.contains d then 2 else if (List.range 4).any (fun r => ceilOf s (4 * d + r) < 30) then 1 else 0
  setReg s (pgThm d) 0x080 (BitVec.ofNat 32 (min h.2 255 + 256 * h.1 + 65536 * st))

/-- Heat of one die in a period. -/
def dieHeat (s : State) (d : Nat) : State :=
  let (free, s1) := takeFree (lostSensors s d)
  let (inj, s2) := thmInject s1 d
  let (s3, fell) := (List.range 4).foldl (fun (a : State × Bool) r =>
    let (s', f) := railHeat a.1 free d r inj
    (s', a.2 || f)) (s2, false)
  let s4 := if fell then bumpF s3 (pgThm d) 0x08C 15 0 1 else s3
  let hot := ((List.range 56).filter (fun i => thas s.pwr.sensors (256 * d + i))).filter (fun i => tempOf s4 free d i ≥ (sensorLimits i).2.1)
  let was := s4.pwr.hot.contains d
  let s5 := match hot with
    | [] => setPwr s4 { s4.pwr with hot := s4.pwr.hot.filter (· ≠ d) }
    | i :: _ =>
      if was then s4
      else
        let s5 := bumpF (setPwr s4 { s4.pwr with hot := d :: s4.pwr.hot }) (pgThm d) 0x08C 31 16 1
        heatEvent (errSet s5 (pgThm d) 9 i) 0x46 d (i, tempOf s4 free d i)
  thmMax s5 d

/-- Inlet coolant at or above 40 °C is reported as it crosses (R469). -/
def coolantCheck (s : State) : State :=
  let hot := answers s 0 56 && rawTemp s 0 56 ≥ 40
  let s1 := setPwr s { s.pwr with coolant := hot }
  if hot && !s.pwr.coolant then raise (errSet s1 (pgThm 0) 11 56) { ring := 0, kind := 0x49, value := rawTemp s 0 56 } else s1

/-! The period. -/

/-- The learning of R460: each rail whose busy tiles carry one tag refines it. `codes` are the points of the period measured,
`amps` its rail currents. -/
def learn (s : State) (codes amps : List Nat) : State :=
  let fit := (List.range 16).filter (fun n =>
    let ts := (busyTiles s n).map (tileTag s)
    !railFailed s n && !ts.isEmpty && ts.all (· == ts.headD 0) && ts.headD 0 ≠ 0)
  let tagOf (n : Nat) : Nat := ((busyTiles s n).map (tileTag s)).headD 0
  let s1 := fit.foldl (fun s n =>
    let tag := tagOf n
    let c := codes.getD n 0
    let d := tgetD s.pwr.dems tag ⟨13000 * 2 ^ 20, 0⟩
    let mw := codeMv c * amps.getD n 0 / 10 - tgetD s.pwr.idleW n 0
    let res := mw * 2 ^ 20 * sDen / ((busyTiles s n).length * sNum c)
    let (f, s1) := takeFree s
    let nd := (63 * d.dem + res + f % 64) / 64
    setPwr s1 { s1.pwr with dems := tput s1.pwr.dems tag { d with dem := nd } }) s
  ((fit.map tagOf).eraseDups).foldl (fun s tag =>
    let d := tgetD s.pwr.dems tag ⟨13000 * 2 ^ 20, 0⟩
    setPwr s { s.pwr with dems := tput s.pwr.dems tag { d with periods := d.periods + 1 } }) s1

/-- A power in mW as a register shows it in W; the rounding is open. -/
def showWatts (free mw : Nat) : Nat := min 0xFFFF ((mw + 999 * (free % 2)) / 1000)

/-- R464 and R465: the comparison of estimate and measurement. -/
def compareEst (s : State) (est watts : Nat) : State :=
  let m := watts * 1000
  let diff := if est ≥ m then est - m else m - est
  let cap := capMw s
  setPwr s { s.pwr with
    apart := if diff * 100 > 15 * cap then s.pwr.apart + 1 else 0
    close := if diff * 100 ≤ 5 * cap then s.pwr.close + 1 else 0 }

/-- The registers of the controller after its choice: point, bubble, estimate. -/
def showPoint (s : State) (u b : Nat) : State :=
  setReg s pgPwr 0x09C (BitVec.ofNat 32 (u + 32 * b))

/-- One period of the pacing controller (R458 to R469). -/
def pacing (s0 : State) (m : PaceMeas) : State :=
  let s := paceRead s0
  let codes := (List.range 16).map (railCode s)
  let (fe, s0) := takeFree s
  -- measured input, currents, energy
  let s1 := setReg s0 pgPwr 0x094 (BitVec.ofNat 32 (m.watts % 65536 + 65536 * (m.volts % 65536)))
  let s1 := (List.range 16).foldl (fun s n => setRegF s pgPwr (0x100 + 4 * n) 31 16 (m.amps.getD n 0 % 65536)) s1
  let s1 := (List.range 4).foldl (fun s d => setRegF s pgPwr (0x140 + 4 * d) 31 16 (m.shared.getD d 0 % 65536)) s1
  let e := s1.pwr.energy + 99 * m.watts + fe % (2 * m.watts + 1)
  let s1 := setPwr s1 { s1.pwr with energy := e }
  let s1 := setRegPair s1 pgPwr 0x0A0 (e / 1000 % 2 ^ 64)
  let s1 := if injects s1 pgPwr 1 then countDroop (injFire s1 pgPwr []) else s1
  -- comparison with the estimate at the points in force, and learning
  let loads := (List.range 16).map (railLoad s1)
  let s2 := compareEst s1 (estNum s1 loads (fun n => codes.getD n 0) / estDen) (m.watts % 65536)
  let s3 := learn s2 codes (m.amps.map (· % 65536))
  -- heat
  let s4 := coolantCheck ((List.range 4).foldl dieHeat s3)
  -- the uniform point
  let loads4 := (List.range 16).map (railLoad s4)
  let cur := pointOf s4 - s4.pwr.fastDrop
  let u := choosePoint s4 loads4 cur
  let b := if !bubbleMode s4 then 0
    else if ctlMeasure s4 then regF s4 pgPwr 0x09C 10 5
    else bubbleOf s4 (estAt s4 loads4 u)
  let s5 := setRails (showPoint s4 u b) u
  let est := estNum s5 loads4 (railCode s5) / estDen
  let (f, s6) := takeFree s5
  let s7 := setReg s6 pgPwr 0x098 (BitVec.ofNat 32 (showWatts f est))
  { s7 with
    pwr := { s7.pwr with
      est := est
      fastDrop := 0
      idle := (List.range 16).filter (fun n => !railBusy s7 n && !railFailed s7 n && s7.pwr.band ≠ 2) }
    l2 := s7.l2.map (fun x => (x.1, { x.2 with used := false })) }

/-- PACING_PERIOD: the controller runs on the cluster that holds the device-wide duties; during a takeover the rails hold their
points. -/
def execPacingPeriod (m : PaceMeas) (s : State) : Out :=
  .next (if powered s && (blk s (pgGde s.guide.dev)).st.inService then pacing s m else s)

/-- FAST_LIMIT: every core rail drops 5 codes at once (R462). The measured input is a free value above the part's maximum. -/
def execFastLimit (s : State) : Out :=
  .next (if !powered s then s
    else
      let (f, s0) := takeFree s
      let w := maxWatts s + 1 + f % (65535 - maxWatts s)
      let s1 := (List.range 16).foldl (fun s n => if railFailed s n then s else setCode s n (railCode s n - 5)) s0
      let s2 := bumpF (setPwr s1 { s1.pwr with fastDrop := s1.pwr.fastDrop + 5 }) pgPwr 0x0A8 31 16 1
      raise (errSet s2 pgPwr 10 w) { ring := 0, kind := 0x43, value := w })

/-- VALUE of PWR_EST_DIVERGE and PWR_EST_RECOVER. -/
def estValue (s : State) : Nat := s.pwr.est / 1000 + 2 ^ 32 * regF s pgPwr 0x094 15 0

/-- The tags of the launches in execution. -/
def tagsInUse (s : State) : List Nat := (s.launches.map (·.phase)).eraseDups

/-- PWR_EST_DIVERGE: MEASURE control, and recalibration (R464). -/
def execPwrEstDiverge (s : State) : Out :=
  .next (if !devUp s || ctlMeasure s || s.pwr.apart ≤ 500 then s
    else
      let s1 := errSet (setRegF s pgPwr 0x088 2 1 1) pgPwr 9 (regF s pgPwr 0x094 15 0)
      let s2 := raise s1 { ring := 0, kind := 0x41, value := estValue s }
      let (f, s3) := takeFree s2
      setPwr s3 { s3.pwr with
        apart := 0
        close := 0
        fixed := f % 2 ^ 22
        dems := s3.pwr.dems.filter (fun d => !(tagsInUse s3).contains d.1) })

/-- PWR_EST_RECOVER: back to ESTIMATE control (R465). -/
def execPwrEstRecover (s : State) : Out :=
  .next (if !devUp s || !ctlMeasure s || s.pwr.close < 10000 then s
    else
      raise (setPwr (setRegF s pgPwr 0x088 2 1 0) { s.pwr with apart := 0, close := 0 }) { ring := 0, kind := 0x42, value := estValue s })

/-- MEASURE_STEP: the point, or in BUBBLE mode b, moves toward the target (R464, R466). -/
def execMeasureStep (s : State) : Out :=
  .next (if !devUp s || !ctlMeasure s then s
    else
      let pin := regF s pgPwr 0x094 15 0 * 100000
      let cap := capMw s
      let target := cap * (100 - paceF s 0x090 5 0)
      let u := pointOf s - s.pwr.fastDrop
      let b := regF s pgPwr 0x09C 10 5
      let loads := (List.range 16).map (railLoad s)
      if pin > target then
        (if bubbleMode s then showPoint s (pointOf s) (min 56 (b + 4))
         else setRails (showPoint (setPwr s { s.pwr with fastDrop := 0 }) (u - 1) b) (u - 1))
      else if pin + 3 * cap < target then
        (if bubbleMode s then showPoint s (pointOf s) (b - 4)
         else
           let u1 := if u + 1 ≤ vceil s && rampOk s loads u (u + 1) then u + 1 else u
           setRails (showPoint (setPwr s { s.pwr with fastDrop := 0 }) u1 b) u1)
      else s)

/-! Sensors and the trip (R468, R470). -/

/-- SENSOR_SAMPLE: hardware samples a sensor; three samples in a row at the trip temperature announce the trip. -/
def execSensorSample (die sensor temp : Nat) (valid : Bool) (s : State) : Out :=
  .next (if !powered s || die ≥ 4 || !sensorKnown die sensor then s
    else
      let k := 256 * die + sensor
      let old := tgetD s.pwr.sensors k ⟨0, true, 0⟩
      let hits := if valid && sensor ≠ 56 && temp ≥ (sensorLimits sensor).2.2 then old.hits + 1 else 0
      let s1 := setPwr s { s.pwr with sensors := tput s.pwr.sensors k ⟨if valid then temp else old.temp, valid, hits⟩ }
      if hits ≥ 3 then setAlert (setPwr (departAll s1) { s1.pwr with tripped := true }) 1 else s1)

/-- THERMAL_TRIP_OFF: every supply but the I3C endpoint's turns off; the endpoint still answers for NHL_ALERT (R470). -/
def execThermalTripOff (s : State) : Out :=
  .next (if !s.pwr.tripped || !s.booted then s
    else
      let a := regW s pgNhl 0x0E4
      let s1 := unpowered s
      setAlert (setReg { s1 with pwrGood := s.pwrGood, leftService := true, pwr := { s1.pwr with tripped := true } } pgNhl 0x0E4 a) 0)

end Sys2Proof.Machine
end

