-- ==== Sys2Proof/Machine/Sec.lean ====
section
/-!
DEFINITION. The SEC page (R508 to R518): key slots and KEY_OP, the key generator, debug tokens and the end of authorisation.
-/
namespace Sys2Proof.Machine

/-! The fused slots (R508, R509, R517). -/

/-- Key slots revoked, and floor fuses burnt, now. -/
def revokedNow (s : State) : Nat := Nat.lor (Config.fuses 0 % 16) (s.flash.revoked % 16)
def floorNow (s : State) : Nat := max (Config.fuses 3 % 65) s.flash.floor

/-- SEC_SLOTS and SEC_FWREL show the fuses. -/
def showFuses (s : State) : State :=
  setReg (setReg s pgSec 0x080 (BitVec.ofNat 32 (revokedNow s + 16 * (Config.fuses 1 % 16) + 256 * (Config.fuses 2 % 16)))) pgSec 0x084
    (BitVec.ofNat 32 (floorNow s))

/-! Debug authorisation (R514, R515). -/

def rights (s : State) : Nat := regF s pgSec 0x098 7 0
def rtInject : Nat := 0
def rtHalt : Nat := 1
def rtMemread : Nat := 2

/-- A right of the token in force. -/
def hasRight (s : State) (r : Nat) : Bool := (rights s).testBit r

/-- Every ARM and FIXED returns to 0; PERMIT follows the INJECT right. -/
def clearInjection (s : State) : State :=
  { s with blks := s.blks.map (fun x =>
      (x.1, { x.2 with
        injArm := false
        regs := if hasNoise x.1 then tmod x.2.regs 0x0F0 (fun w => putFld w 16 16 0) else x.2.regs })) }

/-- Authorisation ends. -/
def endRights (s : State) : State := clearInjection { setReg s pgSec 0x098 0 with tokenSlot := 0 }

/-- DEBUG_ENDED with its cause: 0 END, 1 revocation. -/
def debugEnd (s : State) (cause : Nat) : State :=
  if s.tokenSlot = 0 then s else raise (endRights s) { ring := 0, kind := 0xA2, value := rights s, info := cause }

/-- Slots are revoked (R509): an authorisation that one of them signed ends. -/
def revoke (s : State) (mask : Nat) : State :=
  let new := andNot (mask % 16) (revokedNow s)
  if new = 0 then s
  else
    let s1 := showFuses { s with flash := { s.flash with revoked := Nat.lor s.flash.revoked new } }
    let s2 := raise s1 { ring := 0, kind := 0xA3, info := revokedNow s1 }
    if s2.tokenSlot ≠ 0 && new.testBit (s2.tokenSlot - 1) then debugEnd s2 1 else s2

/-- A new nonce is drawn from the key generator; while that refuses requests, the old one has served. -/
def drawNonce (s0 : State) : State :=
  let s := entropyWindow s0
  if s.entropyBad then { s with nonceUsed := true }
  else
    let (f, s1) := takeFree s
    { setRegPair s1 pgSec 0x090 (Config.drbg f % 2 ^ 64) with nonceUsed := false }

/-- The 128 bytes of SEC_TOKEN. -/
def tokenBytes (s : State) : List Nat := ((List.range 32).map (fun i => toBytes 4 (regW s pgSec (0x140 + 4 * i)).toNat)).flatten

/-- R514: the token is accepted. -/
def tokenOk (s : State) (t : List Nat) : Bool :=
  let slot := t.getD 2 0
  t.getD 0 0 == 1 && t.getD 1 0 < 8 && slot < 4 && (regF s pgSec 0x080 11 8).testBit slot && !(regF s pgSec 0x080 3 0).testBit slot &&
    leAt t 3 5 == 0 && leAt8 t 8 == Config.idHash % 2 ^ 64 && leAt8 t 0x10 == regPair s pgSec 0x090 && !s.nonceUsed && leAt8 t 0x18 == 0 &&
    Config.verifies slot (t.take 0x20) (t.drop 0x20)

/-- A write of SEC_DBG.SUBMIT. -/
def submitToken (s : State) : State :=
  let t := tokenBytes s
  if tokenOk s t then
    let s1 := if (t.getD 1 0).testBit rtInject then s else clearInjection s
    let s2 := { setReg s1 pgSec 0x098 (BitVec.ofNat 32 (t.getD 1 0)) with tokenSlot := t.getD 2 0 + 1 }
    drawNonce (raise s2 { ring := 0, kind := 0xA1, value := t.getD 1 0, info := t.getD 2 0 })
  else drawNonce (errSet (bumpF s pgSec 0x09C 31 16 1) pgSec 9 (t.getD 2 0))

/-- A write of SEC_DBG: SUBMIT, then END. -/
def secDbg (s : State) (v : Nat) : State :=
  let s1 := if v.testBit 0 then submitToken s else s
  if v.testBit 1 then debugEnd s1 0 else s1

/-! The key generator (R512). -/

/-- ENTROPY_FAIL. -/
def execEntropyFail (s : State) : Out := .next (if powered s && !s.entropyBad then entropyFail s else s)

/-- KEY_GENERATOR_RETEST: a pass lets requests through again, and the nonce due is drawn. -/
def execKeyGeneratorRetest (pass : Bool) (s : State) : Out :=
  .next (if !powered s || !s.entropyBad || !pass then s
    else
      let s1 := { s with entropyBad := false }
      if s1.nonceUsed then drawNonce s1 else s1)

/-! KEY_OP (R513). -/

def opKey : Nat := 1
def kcOk : Nat := 0
def kcReserved : Nat := 1
def kcEqual : Nat := 2
def kcInUse : Nat := 3
def kcEntropy : Nat := 4

/-- A 256-bit half of SEC_KEYDATA: 0 Key1, 1 Key2. -/
def keyHalf (s : State) (h : Nat) : Nat :=
  ofBytes (((List.range 8).map (fun i => toBytes 4 (regW s pgSec (0x0C0 + 32 * h + 4 * i)).toNat)).flatten)

/-- A space that is not FREE names the slot. -/
def slotInUse (s : State) (slot : Nat) : Bool :=
  (List.range 4096).any (fun sp => spaceState s 0 sp != 0 && spaceSlot s 0 sp == slot)

/-- Why an operation (0 LOAD, 1 GENERATE, 2 CLEAR) on a slot is refused. -/
def keyRefused (s : State) (slot op : Nat) : Option Nat :=
  if slot = 0 || slot ≥ 255 then some kcReserved
  else if op = 0 && keyHalf s 0 = keyHalf s 1 then some kcEqual
  else if slotInUse s slot then some kcInUse
  else if op = 1 && s.entropyBad then some kcEntropy
  else none

/-- The operation ends: SEC_KEYDATA is zeroed whatever its result, CODE and KEY_OP_DONE tell it. -/
def keyEnd (s : State) (slot code : Nat) : State :=
  let s1 := (List.range 16).foldl (fun s i => setReg s pgSec (0x0C0 + 4 * i) 0) (setRegF s pgSec 0x088 23 16 code)
  raise s1 { ring := 0, kind := 0xA5, value := slot, info := code }

/-- A refused operation: the slot is unchanged, the long operation ends FAILED. -/
def keyRefuse (s : State) (slot code : Nat) : State := keyEnd (errSet (opOver s pgSec 2) pgSec 8 slot) slot code

/-- A write of SEC_KEYCTL. A page in STOPPING or STOPPED admits no operation (R41); how the refusal is reported then, the spec does
not say: the model sets REG_STATE (DESIGN CHOICE). R51 has every operation show a percentage or a position and names neither for
KEY_OP: the model's is a percentage (DESIGN CHOICE). -/
def keyctl (s : State) (who : Option Path) (v : Nat) : State :=
  let slot := bits v 7 0
  let op := bits v 9 8
  if (blk s pgSec).opRun then errSet s pgSec 8 slot
  else if !inService s pgSec then regErr s pgSec errState 0x088
  else if op = 3 then regErr s pgSec errRsvd 0x088
  else
    let s1 := opStart (setReg s pgSec 0x088 (putFld (regW s pgSec 0x088) 9 0 (v % 1024))) pgSec opKey 1 (v % 1024) who
    match keyRefused s1 slot op with
    | some code => keyRefuse s1 slot code
    | none => s1

/-- The slot is written: R248, then the key. -/
def keyWrite (s : State) (slot op : Nat) : State :=
  let s1 := l2Flush s slot
  if op = 0 then { s1 with keys := tput s1.keys slot (keyHalf s1 0 + 2 ^ 256 * keyHalf s1 1) }
  else if op = 1 then
    let (f, s2) := takeFree s1
    { s2 with keys := tput s2.keys slot (Config.drbg (2 * f) % 2 ^ 256 + 2 ^ 256 * (Config.drbg (2 * f + 1) % 2 ^ 256)) }
  else { s1 with keys := tdel s1.keys slot }

/-- KEY_OP ends with a result (R51): DONE writes the slot, unless the operation has come to be refused meanwhile. -/
def keyDone (s0 : State) (res : Nat) : State :=
  let arg := (blk s0 pgSec).opArg
  let slot := bits arg 7 0
  let op := bits arg 9 8
  let s := if op = 1 && res = 1 then entropyWindow s0 else s0
  match keyRefused s slot op with
  | some code => keyRefuse s slot code
  | none =>
    if res = 1 then keyEnd (opOver (keyWrite s slot op) pgSec 1) slot kcOk
    else keyEnd (opOver s pgSec res) slot (regF s pgSec 0x088 23 16)

end Sys2Proof.Machine
end

