-- ==== Sys2Proof/Machine/Resil.lean ====
section
/-!
DEFINITION. Spares, failures and staying in service (R475 to R497): placement, replacement and self-test of tiles, holds of the
array, bypass of a slice, oscillators, guide cores and clusters, wear, live firmware update.
-/
namespace Sys2Proof.Machine

/-! Firmware and its paths (R20). -/

/-- The path of a cluster. -/
def gcPath (d : Nat) : Path := .gc (Fin.ofNat 4 d)

/-- The next cluster in service after one, in the order of R20. -/
def nextCluster (s : State) (d : Nat) : Option Nat := ([d + 1, d + 2, d + 3].map (· % 4)).find? (clusterUp s)

def setGuide (s : State) (g : Guide) : State := { s with guide := g }

/-! Placement (R4, R476, R477). -/

/-- The physical tile of a logical one at first power-up. -/
def firstPlace (l : Nat) : Nat := 44 * (l / 40) + l % 40 + l % 40 / 10
def unplaced : Nat := 176

/-- Where a logical tile is, none when it is unplaced. -/
def physOf (s : State) (l : Nat) : Option Nat :=
  let p := tgetD s.places l (firstPlace l)
  if p = unplaced then none else some p

/-- The logical tile that a physical one bears. -/
def logOf (s : State) (t : Nat) : Option Nat := (List.range 160).find? (fun l => physOf s l == some t)

/-- The placement field of R498. -/
def placement (t : Nat) : Nat := t / 44 + 4 * (t % 44)

/-- The block pages of a physical tile. -/
def tilePages (t : Nat) : List Nat := [pgTile t, pgArr t, pgRow t, pgTst t, pgL1c t]

def tileState (s : State) (t : Nat) : BState := (blk s (pgTile t)).st
def tilesIn (s : State) (st : BState) : List Nat := (List.range 176).filter (fun t => tileState s t = st)
def logicalUnplaced (s : State) : List Nat := (List.range 160).filter (fun l => (physOf s l).isNone)

/-- The transitions of R40 into SPARE, IDLE and RETIRED that firmware makes with a tile. -/
def mayEnter (old new : BState) : Bool :=
  match new with
  | .spare => old == .idle || old == .failed
  | .idle => old == .spare
  | .retired => old == .spare || old == .failed
  | _ => false

/-- Every page of a tile enters a state, as far as R40 lets it. -/
def tileTo (s : State) (t : Nat) (st : BState) : State :=
  (tilePages t).foldl (fun s pg => if mayEnter (blk s pg).st st then toState s pg st else s) s

/-- A tile in service whose work has moved becomes a spare (R40); a page of it that is FAILED stays so. -/
def tileSpare (s : State) (t : Nat) : State :=
  (tilePages t).foldl (fun s pg => if (blk s pg).st = .idle then toState s pg .spare else s) s

/-- Every page of a tile is declared FAILED. -/
def tileFailed (s : State) (t : Nat) : State :=
  (tilePages t).foldl (fun s pg =>
    let st := (blk s pg).st
    if st = .failed || st = .off || st = .retired then s else failBlock s pg) s

/-- A failed or spare tile is retired, and the route card records it. -/
def tileRetire (s : State) (t : Nat) : State := cardPut (tileTo s t .retired) ctRetired (blkId (pgTile t)) 1

/-- R476: the spare for a tile: the same rail, the same die, an edge neighbour; the lowest-numbered first. -/
def spareFor (s : State) (t : Nat) : Option Nat :=
  let sp := tilesIn s .spare
  let d := t / 44
  let pick (f : Nat → Bool) : Option Nat := sp.find? f
  match pick (fun x => railOfTile x == railOfTile t) with
  | some x => some x
  | none => match pick (fun x => x / 44 == d) with
    | some x => some x
    | none => match pick (fun x => x / 44 == Nat.xor d 1) with
      | some x => some x
      | none => pick (fun x => x / 44 == Nat.xor d 2)

/-- DEV_PLACE and MOVES of a logical tile change together. -/
def placeAt (s : State) (l t : Nat) : State :=
  { s with places := tput s.places l t, moves := tput s.moves l ((tgetD s.moves l 0 + 1) % 65536) }

/-- R479 step 3, R481: the logical number moves from an old tile to a spare, or becomes unplaced. -/
def moveLogical (s : State) (l old trig : Nat) (spare : Option Nat) : State :=
  match spare with
  | some t => raise (placeAt s l t) { ring := 0, kind := 0x60, tag := l, value := placement old + 256 * placement t, info := trig }
  | none => raise (placeAt s l unplaced) { ring := 0, kind := 0x61, tag := l, value := placement old, info := trig }

/-- A spare comes from SPARE to IDLE (R479 step 1). -/
def bringIn (s : State) (spare : Option Nat) : State :=
  match spare with
  | some t => tileTo s t .idle
  | none => s

/-! Replacement (R478 to R480) and self-test (R493). -/

def tgRepl (s : State) (t : Nat) : Option Repl := tget? s.guide.repls t
def setRepl (s : State) (t : Nat) (r : Repl) : State := setGuide s { s.guide with repls := tput s.guide.repls t r }
def dropRepl (s : State) (t : Nat) : State := setGuide s { s.guide with repls := tdel s.guide.repls t }
/-- A trigger of R478 waits for the replacement of a tile. -/
def setTrig (s : State) (t trig : Nat) : State := setGuide s { s.guide with trigs := tput s.guide.trigs t trig }
def dropTrig (s : State) (t : Nat) : State := setGuide s { s.guide with trigs := tdel s.guide.trigs t }

/-- Firmware stops a tile in a mode of R84, taking over a stop of another path. -/
def stopTile (s : State) (t mode : Nat) : State :=
  let pg := pgTile t
  let p := gcPath (dutyOf s (t / 44))
  let s1 := setRegF s pg 0x08C 1 0 mode
  let b := blk s1 pg
  if b.st.inService then ctlStop s1 p pg
  else if b.st = .stopping then
    let s2 := ctlTake s1 p pg
    if b.stopMode = mode then s2 else ctlStop (ctlWithdraw s2 p pg) p pg
  else if b.st = .stopped then ctlTake s1 p pg
  else s1

/-- The item and the end of the SELFTEST command that asked for a test. -/
def selfItem (s : State) (r : Repl) (n : Nat) : State :=
  match r.by_ with
  | some (q, k) => opStep s q k n
  | none => s

/-- SELFTEST ends with a RESULT; INFO [0] is 1 on a pass, and an aborted one holds its cause in [7:0] (R338). -/
def selfEnd (s : State) (r : Repl) (status result info : Nat) : State :=
  match r.by_ with
  | some (q, k) =>
    modCmd (opFinish s q k status result) q k (fun c => { c with res := c.res.map (fun x => (x.1, info, x.2.2)) })
  | none => s

/-- Nothing on the tile is in hand any more: its workgroups are abandoned (R480), its array, row engine and L1 are empty. What
the interconnect or a port has accepted early goes on; the hem history and counters stay with the tile. -/
def tileLost (s : State) (t : Nat) : State :=
  let ws := (tile s t).wgs
  let s1 := ws.foldl (fun s w =>
    let s1 := match w.2.parkSlot with
      | some i => freeSlot s (agTile t) (tileDie t) w.2.space (qPark s w.2.launch.queue) i (parkStream s t w.1)
      | none => s
    wgEnded (releaseWg s1 t w.1) w.2.launch true) s
  let mine (o : ReqOwner) : Bool := match o with
    | .sb x e => x == t && !(tile s1 t).posted.any (fun y => y.id == e)
    | .load x _ _ => x == t
    | .fetch x _ => x == t
    | .aslot x _ => x == t
    | _ => false
  let s2 := { s1 with reqs := s1.reqs.map (fun r => if mine r.owner then { r with owner := .none } else r) }
  modTile s2 t (fun x => { x with
    groups := [], age := [], txBusy := 0, sb := [], rgn := [], l1 := [], room := none
    arr := { nserial := x.arr.nserial, done := x.arr.done, hist := x.arr.hist }
    row := { nserial := x.row.nserial, items := x.row.items } })

/-- R479 steps 1 and 2: a spare comes in, the tile stops parking its work. -/
def replStart (s : State) (t trig : Nat) (test : Bool) (by_ : Option (Nat × Nat)) (mode : Nat) (spare : Option Nat) : State :=
  let s1 := bringIn s spare
  let s2 := setRepl s1 t { trig := trig, logical := (logOf s1 t).getD unplaced, spare := spare, test := test, by_ := by_, st := .stopping }
  stopTile s2 t mode

/-- What follows when a tile that firmware is replacing or testing is STOPPED (R479 steps 3 and 5, R493). -/
def replStopped (s : State) (t : Nat) : State :=
  match tgRepl s t with
  | none => s
  | some r =>
    if r.st ≠ .stopping || tileState s t ≠ .stopped then s
    else
      let moved (spare : Option Nat) : State := if r.logical = unplaced then s else moveLogical s r.logical t r.trig spare
      if r.trig = 0 then dropRepl (tileSpare (toState s (pgTile t) .idle) t) t
      else if r.test then
        let s1 := match r.spare with
          | some _ => moved r.spare
          | none => s
        selfItem (setRepl s1 t { r with st := .testing }) r 1
      else
        let s1 := tileFailed (moved r.spare) t
        if r.trig = 1 || r.trig = 5 then tileRetire (dropRepl s1 t) t
        else setRepl s1 t { r with st := .testing, spare := none }

/-- A spare that a withdrawn exchange brought in is taken out of service again, once its work has moved. -/
def giveSpareBack (s : State) (spare : Option Nat) : State :=
  match spare with
  | none => s
  | some x =>
    if (tile s x).wgs.isEmpty && (blk s (pgTile x)).st = .idle then tileSpare s x
    else replStopped (replStart s x 0 false none 1 none) x

/-- A stop for a self-test is withdrawn: the tile stays in service, untested. -/
def testWithdraw (s : State) (t : Nat) (r : Repl) : State :=
  let p := gcPath (dutyOf s (t / 44))
  giveSpareBack (dropRepl (ctlWithdraw s p (pgTile t)) t) r.spare

/-- TILE_TEST after a test. -/
def noteTest (s : State) (t : Nat) (pass : Bool) : State :=
  let pg := pgTile t
  let n := (regF s pg 0x0C4 31 16 + 1) % 65536
  setRegF (setRegF s pg 0x0C4 1 0 (if pass then 1 else 2)) pg 0x0C4 31 16 n

/-- The test of a tile has ended (R493 steps 2 and 3, R40). -/
def testEnded (s : State) (t : Nat) (pass : Bool) : State :=
  match tgRepl s t with
  | none => s
  | some r =>
    if r.st ≠ .testing then s
    else
      let s1 := noteTest s t pass
      if tileState s1 t = .stopped then
        let s2 := selfItem s1 r 2
        if pass then
          let s3 := dropRepl (toState s2 (pgTile t) .idle) t
          let s4 := if r.spare.isSome then tileSpare s3 t else s3
          selfEnd (selfItem s4 r 3) r csComplete 1 1
        else
          let s3 := tileFailed s2 t
          if r.spare.isSome || r.logical = unplaced then s3
          else
            let sp := spareFor s3 t
            moveLogical (bringIn s3 sp) r.logical t 6 sp
      else if tileState s1 t = .failed then
        let s2 := dropRepl s1 t
        let s3 := if pass then tileTo s2 t .spare else tileRetire s2 t
        selfEnd (selfItem s3 r 3) r csComplete 1 0
      else s1

/-- TILE_HANG: the step count of a tile stands still although a resident group is ready. -/
def execTileHang (t : Nat) (s : State) : Out :=
  .next (if t < 176 && dutyUp s (t / 44) && inService s (pgTile t) && !(readyGroups s t).isEmpty then setTrig s t 4 else s)

/-- TILE_REPLACE_ORDERLY: a trigger that lets the work be parked. -/
def execTileReplaceOrderly (t : Nat) (s : State) : Out :=
  .next (match tget? s.guide.trigs t with
  | none => s
  | some trig =>
    if trig = 4 || t ≥ 176 || !dutyUp s (t / 44) || (tgRepl s t).isSome || !((tileState s t).inService || tileState s t == .stopping || tileState s t == .stopped)
    then s
    else replStopped (replStart (dropTrig s t) t trig false none 1 (spareFor s t)) t)

/-- TILE_REPLACE_ABRUPT: after a hang, or of a tile that has been declared FAILED and still bears a logical number. -/
def execTileReplaceAbrupt (t : Nat) (s : State) : Out :=
  .next (if t ≥ 176 || !dutyUp s (t / 44) then s
    else
      let hang := tget? s.guide.trigs t = some 4
      match logOf s t with
      | none => s
      | some l =>
        if !hang && !(tileState s t == .failed && (tgRepl s t).isNone) then s
        else
          let s1 := tileLost (tileFailed (dropTrig (match tgRepl s t with
            | some r => selfEnd (giveSpareBack (dropRepl s t) r.spare) r csComplete 2 0
            | none => s) t) t) t
          let sp := spareFor s1 t
          let s2 := moveLogical (bringIn s1 sp) l t 4 sp
          setRepl s2 t { trig := 4, logical := unplaced, spare := none, test := false, by_ := none, st := .testing })

/-- TILE_PLACE: a tile that has returned to SPARE takes the lowest unplaced logical number (R481). -/
def execTilePlace (t : Nat) (s : State) : Out :=
  .next (match logicalUnplaced s with
  | [] => s
  | l :: _ =>
    if t < 176 && tileState s t = .spare && dutyUp s (t / 44) then
      raise (placeAt (tileTo s t .idle) l t) { ring := 0, kind := 0x62, tag := l, value := 256 * placement t }
    else s)

/-! SELFTEST (R493, R494). -/

/-- The test of a physical tile starts, or must wait. -/
def testStart (s : State) (t : Nat) (by_ : Option (Nat × Nat)) (spare : Option Nat) : State :=
  replStopped (replStart s t 7 true by_ (if spare.isSome then 1 else 0) spare) t

/-- Where SELFTEST's own test stands. -/
def testOf (s : State) (q serial : Nat) : Option (Nat × Repl) := s.guide.repls.find? (fun r => r.2.by_ == some (q, serial))

/-- SELFTEST. -/
def execSelftest (q serial : Nat) (s : State) : Out :=
  onMe q serial 0x92 s (fun c =>
    let l := bits (c.n4 0x18) 7 0
    let cause := c.asked.getD 0
    match testOf s q serial with
    | some (t, r) =>
      if c.asked.isNone then s
      else if r.st = .stopping then selfEnd (testWithdraw s t r) r csAborted 3 cause
      else if tileState s t = .stopped then selfEnd (dropRepl (toState s (pgTile t) .idle) t) r csAborted 3 cause
      else s
    | none =>
      if c.op.isSome then
        (if c.asked.isSome then modCmd (opFinish s q serial csAborted 3) q serial (fun c => { c with res := c.res.map (fun x => (x.1, cause, x.2.2)) })
         else match physOf s l with
          | some t => if inService s (pgTile t) && (tgRepl s t).isNone then testStart s t (some (q, serial)) (spareFor s t) else s
          | none => s)
      else if l ≥ 160 || bits (c.n4 0x1C) 17 16 = 3 then done s c csField 0
      else match physOf s l with
      | none => done s c csField 0
      | some t =>
        if (tgRepl s t).isSome then done s c csBusy 0
        else
          let s1 := opBegin s c 3
          if inService s1 (pgTile t) then testStart s1 t (some (q, serial)) (spareFor s1 t) else s1)

/-- SELFTEST_DEADLINE: the deadline passes before the tile has stopped. -/
def execSelftestDeadline (t : Nat) (s : State) : Out :=
  .next (match tgRepl s t with
  | some r => match r.by_ with
    | some (q, n) => match cmd? s q n with
      | some c =>
        if r.test && r.st = .stopping && bits (c.n4 0x1C) 15 0 ≠ 0 then selfEnd (testWithdraw s t r) r csComplete 4 0 else s
      | none => s
    | none => s
  | none => s)

/-- PERIODIC_SELFTEST: only while a spare is free on the tile's die and no logical tile is unplaced (R494). -/
def execPeriodicSelftest (t : Nat) (s : State) : Out :=
  .next (if t < 176 && dutyUp s (t / 44) && inService s (pgTile t) && (tgRepl s t).isNone && (logicalUnplaced s).isEmpty &&
      (tilesIn s .spare).any (fun x => x / 44 == t / 44) then testStart s t none (spareFor s t)
    else s)

/-! Holds of the array (R147, R489). -/

/-- Firmware ends a hold: an injected one by RETRY (R526), one with a free field by retiring the position and RETRY, else by
POISON and the replacement of the tile. -/
def holdEnd (s : State) (t : Nat) : State :=
  match arrHeld s t with
  | none => s
  | some c =>
    let pr := c.loc.getD 2 255
    let pc := c.loc.getD 3 255
    if c.inj = 2 && !c.real then arrRetry s t
    else match freeField s t pr pc with
    | some f => arrRetry (modArr (retirePos s t f) t (fun x => { x with retire := x.retire.filter (· ≠ (pr, pc)) })) t
    | none => setTrig (arrPoison s t) t 1

/-- HOLD_RESPONSE. -/
def execHoldResponse (t : Nat) (s : State) : Out := .next (if t < 176 && dutyUp s (t / 44) then holdEnd s t else s)

/-- HOLD_ESCALATE: the next cluster answers a hold that has waited 500 µs. -/
def execHoldEscalate (t : Nat) (s : State) : Out :=
  .next (if t < 176 && fwUp s && (nextCluster s (dutyOf s (t / 44))).isSome then holdEnd s t else s)

/-! Bypass of a slice (R483). -/

/-- SLICE_BYPASS: the tags of a set fail in both copies; which set it is the parts tell (a free value). -/
def execSliceBypass (g : Nat) (s : State) : Out :=
  let pg := pgL2s g
  .next (if g ≥ 128 || !dutyUp s (g / 32) || (slice s g).bypass || (blk s pg).st.silent then s
    else
      let (f, s1) := takeFree s
      let set := f % 1024
      let s2 := errSet (failBlock s1 pg) pg 10 set
      let x := slice s2 g
      let s3 := (x.lines.map (·.1)).foldl (fun s k => dropClean s x k) s2
      let s4 := setSlice s3 g { x with lines := [], evb := [], bypass := true, lostSet := some set, cleared := [] }
      let hit := (s4.txgs.filter (fun t => t.2.lines.any (fun l => gslice (128 * l.1) = g))).map (·.1)
      let s5 := hit.foldl (fun s i => txgAbort s i 2) s4
      cardPut (raise s5 { ring := 0, kind := 0x64, info := g / 32 + 256 * (g % 32) }) ctSlice (blkId pg) 1)

/-! Oscillators (R486). -/

/-- OSC_COMPARE: firmware compares the oscillators; the arguments say which it finds drifted or stopped. -/
def execOscCompare (fail0 fail1 : Bool) (s : State) : Out :=
  let found := (if fail0 then 1 else 0) + (if fail1 then 2 else 0)
  let bad := Nat.lor s.guide.oscBad found
  .next (if !devUp s || bad = s.guide.oscBad then s
    else
      let cur := s.guide.osc
      let s1 := setGuide s { s.guide with oscBad := bad }
      let s2 := if bad.testBit cur && bad ≠ 3 then
          let s2 := setGuide s1 { s1.guide with osc := 1 - cur }
          (List.range 19).foldl startRetrain s2
        else s1
      let s3 := if bad.testBit cur then raise s2 { ring := 0, kind := 0x67, info := s2.guide.osc + (if bad = 3 then 2 else 0) } else s2
      let s4 := cardPut s3 ctOsc 0 (s3.guide.osc + 2 * bad)
      if bad = 3 then leaveService s4 else s4)

/-! Guide cores and clusters (R488 to R490). -/

/-- Cores of a cluster in service, the spare core free. -/
def coresUp (s : State) (d : Nat) : Nat := regF s (pgGde d) 0x080 10 8
def coreSpare (s : State) (d : Nat) : Bool := regF s (pgGde d) 0x080 11 11 = 1

/-- R489: the next cluster takes the duties and the stops of a failed one; with none left the device leaves service. -/
def takeover (s : State) (d : Nat) : State :=
  match nextCluster s d with
  | none => leaveService s
  | some c =>
    let dev := s.guide.dev = d
    let s1 := setGuide s { s.guide with duty := s.guide.duty.map (fun x => if x = d then c else x), dev := if dev then c else s.guide.dev }
    let s2 := { s1 with blks := s1.blks.map (fun b => (b.1, if b.2.owner = some (gcPath d) then { b.2 with owner := some (gcPath c) } else b.2)) }
    let s3 := setRegF s2 (pgGde c) 0x080 31 16 ((regF s2 (pgGde c) 0x080 31 16 + 1) % 65536)
    raise (errSet s3 (pgGde c) 9 d) { ring := 0, kind := 0x69, info := d + 4 * c + (if dev then 16 else 0) }

/-- The FW_UPDATE event. -/
def fwEvent (s : State) (n : Nat) (failed : Bool) : State :=
  raise s { ring := 0, kind := 0x6C, tag := Config.image n 5 % 65536, info := if failed then 1 else 0 }

/-- The lowest-numbered guide core of a cluster in service (R34). -/
def lowCore (s : State) (d : Nat) : Option Nat := (List.range 4).find? (fun k => !(tgetD s.guide.coresBad d 0).testBit k)

/-- The page of a cluster shows another core's counter and monitor (R34): what they hold no rule relates to anything read before,
for every core has its own (R30, R32): free values, trimmed like the counters shown till now. -/
def showCore (s : State) (d : Nat) : State :=
  let (a, s1) := takeFree s
  let (b, s2) := takeFree s1
  let (c, s3) := takeFree s2
  let (e, s4) := takeFree s3
  modBlk s4 (pgGde d) (fun x => { x with
    lic := a % 2 ^ 64, steps := b % 2 ^ 64, meas := c % 65536
    ratio := if x.valid then e % 65536 else 0, corr := if x.valid then e / 65536 % 65536 else 0 })

/-- A firmware update under way ends without the new release because of cluster `d` (R497). -/
def updateStops (s : State) (d : Nat) : State :=
  let pg := pgGde s.guide.dev
  if (blk s pg).opRun then fwEvent (errSet (opOver s pg 2) pg 10 d) (blk s pg).opArg true else s

/-- A cluster is declared failed, which ends an update under way (R497). -/
def clusterFail (s : State) (d : Nat) : State :=
  let pg := pgGde s.guide.dev
  let b := blk s pg
  let s1 := failBlock s (pgGde d)
  takeover (if b.opRun then fwEvent (errSet (if s.guide.dev = d then s1 else opOver s1 pg 2) pg 10 d) b.opArg true else s1) d

/-- GUIDE_CORE_FAIL: the core is retired; the spare core takes its place, or the cluster is left with too few (R488). -/
def execGuideCoreFail (d core : Nat) (s : State) : Out :=
  .next (if d ≥ 4 || core ≥ 4 || !fwUp s || !clusterUp s d || (tgetD s.guide.coresBad d 0).testBit core then s
    else
      let bad := Nat.lor (tgetD s.guide.coresBad d 0) (2 ^ core)
      let s1 := setGuide s { s.guide with coresBad := tput s.guide.coresBad d bad }
      let s2 := if coreSpare s d then setRegF s1 (pgGde d) 0x080 11 11 0 else setRegF s1 (pgGde d) 0x080 10 8 (coresUp s d - 1)
      let s3 := raise (errSet s2 (pgGde d) 8 core) { ring := 0, kind := 0x6A, info := d + 4 * core + 16 }
      let s4 := cardPut s3 ctRetired (blkId (pgGde d)) bad
      let s5 := if lowCore s d = some core && (lowCore s4 d).isSome then showCore s4 d else s4
      if coresUp s5 d < 3 then clusterFail s5 d else s5)

/-- CLUSTER_HEARTBEAT: a heartbeat and a checkpoint; an armed lock-step detector reports (R525, R526). -/
def execClusterHeartbeat (d : Nat) (s : State) : Out :=
  .next (if d ≥ 4 || !fwUp s || !clusterUp s d then s
    else
      let s1 := setGuide s { s.guide with beats := tput s.guide.beats d (tgetD s.guide.beats d 0 + 1) }
      if injects s1 (pgGde d) 1 then
        errSet (injFire s1 (pgGde d) [8]) (pgGde d) 8 ((lowCore s d).getD 0)
      else s1)

/-- GUIDE_TAKEOVER: a cluster has missed its heartbeat for 5,000 µs. -/
def execGuideTakeover (d : Nat) (s : State) : Out :=
  .next (if d < 4 && fwUp s && clusterUp s d then clusterFail s d else s)

/-! Wear (R491, R492). -/

/-- The ratio at a code: observed there, at the nearest observed code above, or below. -/
def ratioAt (rs : List Nat) (c : Nat) : Nat :=
  match ((List.range 21).filter (fun x => x ≥ c)).find? (fun x => rs.getD x 0 ≠ 0) with
  | some x => rs.getD x 0
  | none => match ((List.range c).reverse).find? (fun x => rs.getD x 0 ≠ 0) with
    | some x => rs.getD x 0
    | none => 0

/-- The minimum code: from it every code up to 20 has a ratio of at least 0.95. -/
def minCode (rs : List Nat) : Nat :=
  let ok (c : Nat) : Bool := 100 * ratioAt rs c ≥ 95 * 32768
  ((List.range 21).find? (fun c => (List.range 21).all (fun x => x < c || ok x))).getD 0x1F

/-- WEAR_JUDGE: the mean ratios of a tile by point code (0: code not observed in the window), in units of BLK_RATE.RATIO. -/
def execWearJudge (t : Nat) (ratios : List Nat) (s : State) : Out :=
  let pg := pgTile t
  .next (if t ≥ 176 || !dutyUp s (t / 44) || !(tileState s t).inService || (ratios.take 21).all (· == 0) then s
    else
      let old := regF s pg 0x0C0 4 0
      let m := minCode (ratios.take 21)
      let s1 := if ratios.getD 20 0 = 0 then s else setRegF s pg 0x0C0 31 16 (min 0xFFFF (ratios.getD 20 0))
      let s2 := setRegF (setRegF s1 pg 0x0C0 4 0 m) pg 0x0C0 5 5 (if m > 0 then 1 else 0)
      let s3 := if m = old then s2
        else
          let s3 := raise s2 { ring := 0, kind := 0x63, tag := (logOf s2 t).getD unplaced, value := m, info := if m = 0x1F then 1 else 0 }
          cardPut s3 ctWear t (regW s3 pg 0x0C0).toNat
      if m = 0x1F then setTrig s3 t 5 else s3)

/-! Live firmware update (R496, R497, R508, R509). -/

def opFw : Nat := 1

/-- GDE_FW of a page shows the running release and bank. -/
def showFw (s : State) (d : Nat) : State :=
  setReg s (pgGde d) 0x084 (BitVec.ofNat 32 (tgetD s.flash.rels s.flash.active 0 % 65536 + 65536 * 7 + 2 ^ 24 * s.flash.active))

/-- R508 of an image, by its number. -/
def imageOk (s : State) (n : Nat) : Bool :=
  let f (k : Nat) : Nat := Config.image n k
  let slot := f 3
  f 0 ≠ 0 && slot < 4 && !(regF s pgSec 0x080 3 0).testBit slot && (regF s pgSec 0x080 7 4).testBit slot && f 1 ≠ 0 && f 2 ≠ 0 && f 4 = 7 &&
    f 6 ≥ regF s pgSec 0x084 6 0 && f 9 ≠ 0

/-- Committing GDE_UPD starts FW_UPDATE: the image is verified and written to the inactive bank (item 1). R490 sets REG_STATE for a
write on another cluster's page. A second update while one runs (R50) and one in a page that is STOPPING or STOPPED (R41) are
refused, and no rule says how that is reported: the model sets REG_STATE at 0x08C too (DESIGN CHOICE). -/
def fwStart (s : State) (d : Nat) (who : Option Path) : State :=
  let pg := pgGde d
  if s.guide.dev ≠ d || (blk s pg).opRun || !inService s pg then regErr s pg errState 0x08C
  else
    let n := s.fresh
    let s1 := opStart { s with fresh := s.fresh + 1 } pg opFw 2 n who
    if !imageOk s1 n then fwEvent (opOver s1 pg 2) n true
    else
      let s2 := { s1 with flash := { s1.flash with rels := tput s1.flash.rels (1 - s1.flash.active) (Config.image n 5 % 65536) } }
      modBlk s2 pg (fun b => { b with progVal := 1 })

/-- The slots that an image may revoke: neither its own nor the last one that carries FW (R509). -/
def revocable (s : State) (n : Nat) : Nat :=
  let own := Config.image n 3
  (List.range 4).foldl (fun m k =>
    let rev := Nat.lor (revokedNow s) m
    let left := (List.range 4).filter (fun j => (Config.fuses 1 % 16).testBit j && !rev.testBit j)
    if (Config.image n 8).testBit k && k ≠ own && left ≠ [k] then Nat.lor m (2 ^ k) else m) 0

/-- The update is done: every cluster runs the new release, and the fuses burn. Each cluster in turn has handed its duties to the
next and taken them back. -/
def fwDone (s : State) (d : Nat) : State :=
  let pg := pgGde d
  let n := (blk s pg).opArg
  let s1 := opOver (modBlk s pg (fun b => { b with progVal := 5 })) pg 1
  let moved (s : State) (c : Nat) : State := setRegF s (pgGde c) 0x080 31 16 ((regF s (pgGde c) 0x080 31 16 + 1) % 65536)
  let s2 := ([3, 2, 1, 0].filter (clusterUp s1)).foldl (fun s c => match nextCluster s c with
    | some x => moved (moved s x) c
    | none => s) s1
  let s3 := { s2 with flash := { s2.flash with
    active := 1 - s2.flash.active
    floor := if Config.image n 7 ≠ 0 then max s2.flash.floor (min 64 (Config.image n 6)) else s2.flash.floor } }
  let s4 := ([0, 1, 2, 3].filter (clusterUp s3)).foldl showFw (showFuses s3)
  let s5 := setRegF s4 pgBoot 0x088 0 0 s4.flash.active
  let s6 := cardPut s5 ctBank 0 (s5.flash.active + 2 * s5.flash.badBank)
  fwEvent (revoke s6 (revocable s6 n)) n false

/-- The update ends without the new release (R497). -/
def fwFailed (s : State) (d res : Nat) : State :=
  let pg := pgGde d
  let n := (blk s pg).opArg
  fwEvent (errSet (opOver s pg res) pg 10 d) n true

/-- FW_UPDATE_FAIL: a cluster fails to start the new release, or fails during the update. -/
def execFwUpdateFail (d : Nat) (s : State) : Out := .next (if d < 4 && fwUp s then updateStops s d else s)

end Sys2Proof.Machine
end

