-- ==== Sys2Proof/Machine/Card.lean ====
section
/-!
DEFINITION. The route card (R502 to R507): its two copies, STEP records, the choice of a step's method, and CARD_WRITE.
-/
namespace Sys2Proof.Machine

/-! Copies (R502). -/

/-- The bank that the next write goes to: the bank left in service, else the one with no copy or with the lower SEQ. -/
def cardBank (s : State) : Option Nat :=
  let f := s.flash
  let seq (b : Nat) : Nat := ((tget? f.copies b).map (·.1)).getD 0
  match f.badBank.testBit 0, f.badBank.testBit 1 with
  | true, true => none
  | true, false => some 1
  | false, true => some 0
  | false, false => some (if seq 0 ≤ seq 1 then 0 else 1)

/-- The highest SEQ of the copies. -/
def cardSeq (s : State) : Nat := s.flash.copies.foldl (fun m c => max m c.2.1) 0

/-- The card is written: SEQ goes one above the other copy's. -/
def flashWrite (s : State) : State :=
  match cardBank s with
  | none => s
  | some b =>
    let n := cardSeq s + 1
    setReg { s with flash := { s.flash with copies := tput s.flash.copies b (n, s.card) } } pgBoot 0x084 (BitVec.ofNat 32 n)

/-- Every record that waits goes into the card, and the card is written. -/
def cardFlush (s : State) : State :=
  flashWrite { s with card := s.cardDue.foldl (fun c r => tput c r.1 r.2) s.card, cardDue := [] }

/-- A record as firmware knows it: waiting to be written, or in the card. -/
def cardNow (s : State) (kind unit : Nat) : Option Nat :=
  match tget? s.cardDue (cardKey kind unit) with
  | some v => some v
  | none => cardGet s kind unit

/-- The records of a kind: unit and value. -/
def cardAll (s : State) (kind : Nat) : List (Nat × Nat) :=
  (s.card.filter (fun r => r.1 / 2 ^ 48 == kind)).map (fun r => (r.1 % 2 ^ 48, r.2))

/-- Step 3 of the start reads both copies and takes the one with the higher SEQ, or an empty card. -/
def cardRead (s : State) : State :=
  let best := s.flash.copies.foldl (fun (m : Nat × Tab Nat) c => if c.2.1 > m.1 then c.2 else m) (0, [])
  let s1 := setReg { s with card := best.2, cardDue := [] } pgBoot 0x084 (BitVec.ofNat 32 best.1)
  let bank := (cardGet s1 ctBank 0).getD 0
  let s2 := { s1 with flash := { s1.flash with active := bank % 2, badBank := Nat.lor s1.flash.badBank (bits bank 2 1) } }
  setReg s2 pgBoot 0x088 (BitVec.ofNat 32 (s2.flash.active + 2 * s2.flash.badBank))

/-! STEP records (R504 to R506). -/

def ocStarted : Nat := 1
def ocPass : Nat := 2
def ocPassAlt : Nat := 3
def ocFail : Nat := 4
def ocSkipped : Nat := 5

/-- A STEP record: step, OUTCOME, METHOD, FAILS, ALTRUNS, DETAIL. -/
def stepRec (k outcome method fails altruns detail : Nat) : Nat :=
  k + 16 * outcome + 128 * method + 2 ^ 8 * fails + 2 ^ 16 * altruns + 2 ^ 32 * detail

def recOutcome (r : Nat) : Nat := bits r 6 4
def recMethod (r : Nat) : Nat := bits r 7 7
def recFails (r : Nat) : Nat := bits r 15 8
def recAlt (r : Nat) : Nat := bits r 23 16
def recDetail (r : Nat) : Nat := r / 2 ^ 32

/-- A record that a start left at STARTED reads as FAIL (R505). -/
def recRead (r : Nat) : Nat :=
  if recOutcome r = ocStarted then setBits (setBits r 6 4 ocFail) 15 8 (min 255 (recFails r + 1)) else r

/-- The step has an alternative method, may be skipped (R499). -/
def hasAlt (k : Nat) : Bool := [2, 4, 5, 6, 7, 13, 14].contains k
def skippable (k : Nat) : Bool := [9, 13, 14].contains k

/-- R506: does the step use the alternative method? -/
def useAlt (k r : Nat) : Bool :=
  hasAlt k && ((recOutcome r == ocFail && recMethod r == 0) || (recOutcome r == ocPassAlt && recAlt r < 16))

/-- R506: the step is skipped; the start after a skip tries it again. -/
def skipStep (k r : Nat) : Bool := skippable k && recFails r ≥ 2 && recOutcome r != ocSkipped

/-- The record that a step leaves: `alt` its method, `ok` whether it passes. -/
def stepEnd (k r : Nat) (alt ok : Bool) (detail : Nat) : Nat :=
  stepRec k (if !ok then ocFail else if alt then ocPassAlt else ocPass) (if alt then 1 else 0)
    (if ok then 0 else min 255 (recFails r + 1)) (if alt then min 255 (recAlt r + 1) else 0) detail

/-! At runtime (R507). -/

/-- A write of the card fails in a bank: only the other copy is kept. -/
def bankFail (s : State) (b : Nat) : State :=
  if s.flash.badBank.testBit b then s
  else
    let bad := Nat.lor s.flash.badBank (2 ^ b)
    let s1 := { s with flash := { s.flash with badBank := bad, copies := tdel s.flash.copies b } }
    let s2 := setRegF (cardPut s1 ctBank 0 (s1.flash.active + 2 * bad)) pgBoot 0x088 2 1 bad
    raise (errSet s2 pgBoot 9 b) { ring := 0, kind := 0xA0, value := cardSeq s, info := b }

/-- CARD_WRITE: a record that waits is written (its TYPE and unit); TYPE 0 tells that a write has failed in a bank. -/
def execCardWrite (kind arg : Nat) (s : State) : Out :=
  .next (if !fwUp s then s
    else if kind = 0 then (if arg < 2 then bankFail s arg else s)
    else match tget? s.cardDue (cardKey kind arg) with
    | none => s
    | some v =>
      let key := cardKey kind arg
      flashWrite { s with card := tput s.card key v, cardDue := tdel s.cardDue key })

end Sys2Proof.Machine
end

