-- ==== Sys2Proof/Machine/MemCmd.lean ====
section
/-!
DEFINITION. WAY_SWAP (R237), the patrol scrub and repair of HBM4 (R239 to R244), walks (R261).
-/
namespace Sys2Proof.Machine

/-! WAY_SWAP (R237). -/

def opWaySwap : Nat := 1

def insvc (s : State) (g : Nat) : Nat := regF s (pgL2s g) 0x080 16 0

/-- The slice has a spare way for the swap of a way: way 16 is not in service, in no set but those that an earlier swap of the
same way has reached. -/
def hasSpare (s : State) (g way : Nat) : Bool :=
  way ≠ 16 && !(insvc s g).testBit 16 && (match (slice s g).swap with
    | some (w, n) => n = 0 || w = way
    | none => true)

/-- A write of L2S_SWAP.WAY starts the operation, which a block that is STOPPING or STOPPED refuses (R41); a slice with no spare
way ends it FAILED. -/
def waySwap (s : State) (g way : Nat) (who : Option Path) : State :=
  let pg := pgL2s g
  if (blk s pg).opRun || !(blk s pg).st.inService then regErr s pg errState 0x084
  else
    let s1 := opStart s pg opWaySwap 2 way who
    if hasSpare s g way then s1 else errSet (opOver s1 pg 2) pg 11 0

/-- The swap reaches set `n`: in each set before it, in turn, a dirty line of the way is written back, the line is invalidated,
and the spare way is in service (R237). -/
def swapTo (s : State) (g n : Nat) : State :=
  let w := (blk s (pgL2s g)).opArg
  let old := ((slice s g).swap.map (·.2)).getD 0
  let keys := ((slice s g).lines.filter (fun l => l.1 % 17 == w && old ≤ l.1 / 17 && l.1 / 17 < n)).map (·.1)
  let s1 := keys.foldl (fun s k => displace s g k) s
  modBlk (setSlice s1 g { slice s1 g with swap := some (w, max old n) }) (pgL2s g) (fun b => { b with progVal := max b.progVal n })

/-- A running swap goes on by a free number of sets, short of the last. -/
def swapGoes (s : State) (g : Nat) : State :=
  let v := (blk s (pgL2s g)).progVal
  let (f, s1) := takeFree s
  swapTo s1 g (v + f % (1024 - v))

/-- The last set is swapped: L2S_WAYS shows the spare way in place of the other, and the route card records it. -/
def waySwapDone (s : State) (g : Nat) : State :=
  let pg := pgL2s g
  let w := (blk s pg).opArg
  let s1 := swapTo s g 1024
  let s2 := setSlice s1 g { slice s1 g with swap := none }
  let s3 := setRegF s2 pg 0x080 16 0 (setBits (setBits (insvc s2 g) w w 0) 16 16 1)
  cardPut s3 ctRetired (blkId pg) (insvc s3 g)

/-! HBM4 (R238 to R244). -/

def opScrub : Nat := 1

def spareFree (s : State) (k : Nat) : Nat := regF s (pgHbm k) 0x084 15 0

/-- The slice holds a dirty copy, or is writing one back. -/
def dirtyAbove (s : State) (pa : Nat) : Bool :=
  let x := slice s (gslice pa)
  x.evb.contains (pa / 128) || x.lines.any (fun l => l.2.line == pa / 128 && l.2.dirty)

/-- The scrub finds a line uncorrectable: HBM4's copy carries the mark; a clean copy in the L2 reads as before. -/
def scrubMark (s : State) (pa : Nat) : State :=
  let g := gslice pa
  let x := slice s g
  let s1 := errSet (bumpF s (pgHbm (stackOf pa)) 0x094 15 0 1) (pgHbm (stackOf pa)) 9 (lineBase pa)
  if dirtyAbove s pa then s1
  else if x.lines.any (fun l => l.2.line == pa / 128) then
    setSlice s1 g { slice s1 g with lines := (slice s1 g).lines.map (fun l => if l.2.line = pa / 128 then (l.1, { l.2 with below := some true }) else l) }
  else setMark s1 pa

/-- A running pass goes on by a free number of MiB, short of the last (R240). -/
def scrubGoes (s : State) (k : Nat) : State :=
  let (f, s1) := takeFree s
  modBlk s1 (pgHbm k) (fun b => { b with progVal := b.progVal + f % (65536 - b.progVal) })

/-- SCRUB_PASS: the pass that runs, or one that starts now, ends DONE, and the next starts (R240). The lists are the lines
that it found corrected and uncorrectable. -/
def execScrubPass (p : Path) (k : Nat) (corrected uncorrectable : List Nat) (s : State) : Out :=
  let pg := pgHbm k
  .next (if k ≥ 12 || !(blk s pg).st.inService || regF s pg 0x080 15 0 = 0 then s
    else
      let here (pa : Nat) : Bool := lineExists pa && stackOf pa == k
      let s1 := if (blk s pg).opRun then s else opStart s pg opScrub 2 0 (some p)
      let s2 := (corrected.filter here).foldl (fun s pa => errSet (bumpF s pg 0x090 15 0 1) pg 8 (lineBase pa)) s1
      let s3 := (uncorrectable.filter here).foldl scrubMark s2
      let s4 := opOver (modBlk s3 pg (fun b => { b with progVal := 65536 })) pg 1
      opStart s4 pg opScrub 2 0 (some p))

/-- Pseudo-channels of a stack whose spare region can take a row. -/
def spareIn (s : State) (k : Nat) : List Nat :=
  let x := stack s k
  (List.range 64).filter (fun p => !(x.heldPch.contains p || x.fenced.contains p || (regPair s (pgHbm k) 0x088).testBit p))

/-- HBM_ROW_REPAIR (R241): a soft repair, or a remap into the spare pool, in whose region of which pseudo-channel is a free
value; `row` is a physical address in the row. A row that was remapped before takes its entry again. -/
def execHbmRowRepair (k row : Nat) (soft : Bool) (s : State) : Out :=
  let pg := pgHbm k
  let x := stack s k
  let ps := spareIn s k
  let again := x.remap.any (fun r => sameRow r.1 row)
  .next (if k ≥ 12 || !(blk s pg).st.inService then s
    else if soft then cardPut (bumpF s pg 0x094 31 16 1) ctHbmRow (2 ^ 40 * k + row % 2 ^ 40) 0
    else if (regF s pg 0x084 31 16 ≥ 4096 && !again) || spareFree s k = 0 || ps.isEmpty then errSet s pg 11 row
    else
      let (f, s1) := takeFree s
      let remap := x.remap.filter (fun r => !sameRow r.1 row) ++ [(row, ps.getD (f % ps.length) 0)]
      let s2 := { s1 with stackTab := tput s1.stackTab k { x with remap := remap } }
      cardPut (if again then s2 else bumpF s2 pg 0x084 31 16 1) ctHbmRow (2 ^ 40 * k + row % 2 ^ 40) 1)

def pchInfo (k p : Nat) : Nat := k / 3 + 256 * k + 65536 * p

/-- Lines of a stack that are dirty in the L2. -/
def dirtyIn (s : State) (k : Nat) : List Nat :=
  let all := (s.l2.map (fun g => g.2.evb ++ (g.2.lines.filter (fun l => l.2.dirty)).map (·.2.line))).flatten
  all.filter (fun l => stackOf (128 * l) == k)

/-- Lines of a pseudo-channel that are dirty in the L2. -/
def dirtyLines (s : State) (k p : Nat) : List Nat := (dirtyIn s k).filter (fun l => pchOf (128 * l) == p)

/-- The rows remapped into the spare region of a lost pseudo-channel are lost with it: their lines read marked until written
whole, but for those dirty in the L2 (R242). -/
def loseRows (s : State) (k p : Nat) : State :=
  let x := stack s k
  let rows := (x.remap.filter (fun r => r.2 == p)).map (·.1)
  if rows.isEmpty then s
  else
    let inRow (l : Nat) : Bool := rows.any (fun a => sameRow a (128 * l))
    let kept := ((dirtyIn s k).filter inRow).foldl (fun t l => tput t l ()) (x.rewritten.filter (fun l => !inRow l.1))
    { s with stackTab := tput s.stackTab k { x with lostRows := x.lostRows ++ rows, rewritten := kept } }

/-- PCH_LOST (R242, R244): the accesses of the pseudo-channel are held for the redirect, or it stays fenced. -/
def execPchLost (k p : Nat) (s : State) : Out :=
  let pg := pgHbm k
  let x := stack s k
  .next (if k ≥ 12 || p ≥ 64 || !(blk s pg).st.inService || x.heldPch.contains p || x.fenced.contains p || (regPair s pg 0x088).testBit p then s
    else
      let s1 := loseRows (errSet s pg 10 p) k p
      let x := stack s1 k
      if spareFree s k ≥ 1024 then { s1 with stackTab := tput s1.stackTab k { x with heldPch := x.heldPch ++ [p] } }
      else
        let s2 := { s1 with stackTab := tput s1.stackTab k { x with fenced := x.fenced ++ [p] } }
        raise (errSet s2 pg 11 p) { ring := 0, kind := 0x65, info := pchInfo k p })

/-- PCH_REDIRECT (R243): the lines resolve into the spare regions, marked until written whole; held accesses go on. -/
def execPchRedirect (k p : Nat) (s : State) : Out :=
  let pg := pgHbm k
  let x := stack s k
  .next (if k ≥ 12 || !x.heldPch.contains p then s
    else
      let kept := (dirtyLines s k p).foldl (fun t l => tput t l ()) x.rewritten
      let s1 := { s with stackTab := tput s.stackTab k { x with
        heldPch := x.heldPch.filter (· ≠ p), redirPch := x.redirPch ++ [p], rewritten := kept } }
      let s2 := setRegF s1 pg 0x084 15 0 (spareFree s k - 1024)
      let m := Nat.lor (regPair s pg 0x088) (2 ^ p)
      let s3 := cardPut (setRegPair s2 pg 0x088 m) ctHbmPch k m
      releaseHeld (raise s3 { ring := 0, kind := 7, info := pchInfo k p }))

/-! Walks (R261). -/

/-- RANGE_WALK: a walk ends; it fills the die's cache, or the translation is unmapped (R255, R256). -/
def execRangeWalk (die space va : Nat) (s : State) : Out :=
  .next (if die ≥ 4 || space ≥ 4096 || spaceState s die space ≠ 1 || va ≥ 2 ^ 48 then s
    else match walk s die space va with
    | (.inr e, s1) => cachePut s1 (agDie die) e
    | (.inl _, s1) => bumpF s1 (pgXlt die) 0x094 15 0 1)

end Sys2Proof.Machine
end

