-- ==== Sys2Proof/Machine/Boot.lean ====
section
/-!
DEFINITION. The power-up sequence (R499 to R506, R545): its steps, the choice and record of each, restarts, POWER_UP.
-/
namespace Sys2Proof.Machine

/-- A step has ended: the state, whether it passes, and its DETAIL. -/
abbrev StepOut := State × Bool × Nat

/-! Step 2 and 3. -/

/-- The next cluster that passes its check. -/
def dutyFor (failed : List Nat) (d : Nat) : Nat := (([d, d + 1, d + 2, d + 3].map (· % 4)).find? (fun x => !failed.contains x)).getD d

/-- ROM: clusters that fail their check are FAILED; the lowest die whose cluster passes leads. With `spare`, the spare core of
the leading cluster replaces its lowest core. -/
def stepRom (s : State) (failed : List Nat) (spare : Bool) : State :=
  let s1 := (failed.filter (· < 4)).foldl (fun s d => failBlock s (pgGde d)) s
  let lead := dutyFor failed 0
  let s2 := setGuide s1 { s1.guide with duty := (List.range 4).map (dutyFor failed), dev := lead }
  if spare then setRegF (setGuide s2 { s2.guide with coresBad := tput s2.guide.coresBad lead 1 }) (pgGde lead) 0x080 11 11 0 else s2

/-! Step 4 and 5. -/

/-- OSC: the oscillator that the card names, or the other one. -/
def stepOsc (s : State) (alt : Bool) : State :=
  let r := (cardGet s ctOsc 0).getD 0
  setGuide s { s.guide with osc := if alt then 1 - r % 2 else r % 2, oscBad := bits r 2 1 }

/-- The bank that step 5 verifies: the active one, or the bank left in service; the alternative is the other bank. -/
def bootBank (s : State) (alt : Bool) : Nat :=
  let a := if s.flash.badBank.testBit s.flash.active && !s.flash.badBank.testBit (1 - s.flash.active) then 1 - s.flash.active else s.flash.active
  if alt then 1 - a else a

/-- VERIFY: every cluster runs the image of a bank. -/
def stepVerify (s : State) (alt : Bool) : State :=
  let b := bootBank s alt
  let rel (r : Tab Nat) (k : Nat) : Tab Nat := if thas r k then r else tput r k (Config.fuses (8 + k) % 65536)
  let s1 := { s with verified := true, flash := { s.flash with active := b, rels := rel (rel s.flash.rels 0) 1 } }
  let s2 := ((List.range 4).filter (clusterUp s1)).foldl showFw (showFuses s1)
  setReg s2 pgBoot 0x088 (BitVec.ofNat 32 (b + 2 * s2.flash.badBank))

/-! Step 6 to 8. -/

/-- A unit that the start finds bad, or that the card names, never comes into service: it is initialised as SPARE and retired (R40,
R500). -/
def retireNew (s : State) (pg : Nat) : State :=
  if (blk s pg).st = .retired then s else modBlk s pg (fun b => ({ b with st := .spare, prev := .off, seq := 1 }).enter .retired)

/-- Every page of a tile that the start retires. -/
def tileNew (s : State) (t : Nat) : State := (tilePages t).foldl retireNew s

/-- EDGES: the edges that fail are marked, reported by R17 and recorded; the step fails when a die cannot be reached. An edge that
the card marks is trained again by the primary method and is repaired when it passes; the alternative, which routes around the
marked edges, leaves it marked (DEDUCED from R17 and R499). -/
def stepEdges (s : State) (es : List Nat) (alt : Bool) : StepOut :=
  let old := (cardGet s ctEdge 0).getD 0
  let now := (List.range 4).filter es.contains
  let all := (List.range 4).filter (fun e => es.contains e || (alt && old.testBit e))
  let m := (all.map (fun e => 2 ^ e)).sum
  let s1 := now.foldl edgeReport (setGuide s { s.guide with edges := all })
  let s2 := if m = old then s1 else cardPut s1 ctEdge 0 m
  (s2, !(List.range 4).any (cutOff s2), (now.map (fun e => 2 ^ e)).sum)

/-- HBM_TRAIN: stacks that fail for good are retired; full training saves the values of every other stack. -/
def stepTrain (s : State) (ks : List Nat) (alt : Bool) : StepOut :=
  let bad := (List.range 12).filter ks.contains
  let s1 := bad.foldl (fun s k => cardPut (retireNew s (pgHbm k)) ctRetired (blkId (pgHbm k)) 1) s
  let s2 := if alt then s1 else
    ((List.range 12).filter (fun k => !bad.contains k)).foldl (fun s k =>
      let (f, s1) := takeFree s
      cardPut s1 ctHbmTrain k (f % 2 ^ 4096)) s1
  (s2, true, (bad.map (fun k => 2 ^ k)).sum)

/-- HBM_INIT of one stack: hard repair, the remap table, lost pseudo-channels and the spare pool. In whose region each remapped row
lies is a free value. -/
def initStack (s : State) (k : Nat) : State :=
  let rows := (cardAll s ctHbmRow).filter (fun r => r.1 / 2 ^ 40 == k)
  let maps := (rows.filter (fun r => r.2 = 1)).map (fun r => r.1 % 2 ^ 40)
  let m := (cardGet s ctHbmPch k).getD 0
  let lost := (List.range 64).filter m.testBit
  let kept := lost.take 2
  let ps := (List.range 64).filter (fun p => !m.testBit p)
  let (f, s0) := takeFree s
  let s1 := { s0 with
    card := s.card.filter (fun r => !(r.1 / 2 ^ 48 == ctHbmRow && r.1 % 2 ^ 48 / 2 ^ 40 == k && r.2 == 0))
    stackTab := if maps.isEmpty && lost.isEmpty then s.stackTab else tput s.stackTab k {
      remap := maps.mapIdx (fun i a => (a, ps.getD (f / 64 ^ i % ps.length) 0)), fenced := lost.drop 2 } }
  if maps.isEmpty && lost.isEmpty then s1
  else setReg (setRegPair s1 (pgHbm k) 0x088 m) (pgHbm k) 0x084 (BitVec.ofNat 32 (2048 - 1024 * kept.length + 65536 * maps.length))

def stepHbm (s : State) : State := (List.range 12).foldl initStack s

/-! Step 10. -/

/-- A retirement that the card names (RETIRED). -/
def applyRetired (s : State) (unit v : Nat) : State :=
  let i := bits unit 15 8
  let d := bits unit 17 16
  match unit % 256 with
  | 3 => tileNew s (44 * d + i)
  | 8 => setReg s (pgL2s (32 * d + i)) 0x080 (BitVec.ofNat 32 v)
  | 9 => retireNew s (pgHbm (3 * d + i))
  | 11 => setBel s d { bel s d with spareUsed := min v 1024, shrunk := v - 1024 }
  | 21 =>
    let s1 := setGuide s { s.guide with coresBad := tput s.guide.coresBad d (Nat.lor v (tgetD s.guide.coresBad d 0)) }
    let n := popcount 4 (tgetD s1.guide.coresBad d 0)
    setRegF (setRegF s1 (pgGde d) 0x080 11 11 (if n = 0 then 1 else 0)) (pgGde d) 0x080 10 8 (if n ≤ 1 then 3 else 4 - n)
  | _ => s

/-- What the card records of units other than retirements: ARR_MAP, TILE_WEAR, lane masks, slices in bypass. -/
def applyCard (s : State) : State :=
  let s1 := (cardAll s ctRetired).foldl (fun s r => applyRetired s r.1 r.2) s
  let s2 := (cardAll s ctArrayMap).foldl (fun s r =>
    setRegF (setReg s (pgArr r.1) 0x080 (BitVec.ofNat 32 r.2)) (pgArr r.1) 0x084 7 0 (r.2 / 2 ^ 32)) s1
  let s3 := (cardAll s ctWear).foldl (fun s r => setReg s (pgTile r.1) 0x0C0 (BitVec.ofNat 32 r.2)) s2
  let s4 := (cardAll s ctLanes).foldl (fun s r => setRegF s (pgPort r.1) 0x084 8 0 r.2) s3
  (cardAll s ctSlice).foldl (fun s r =>
    let g := 32 * bits r.1 17 16 + bits r.1 15 8
    setSlice (failBlock s (pgL2s g)) g { slice s g with bypass := true }) s4

/-- A tile that fails its test is retired and recorded (R500). -/
def tileBad (s : State) (t : Nat) : State := cardPut (tileNew s t) ctRetired (blkId (pgTile t)) 1

/-- A cell that fails its test: its position is retired; an array with no free field retires the tile (R476). -/
def cellFails (s : State) (c : Nat × Nat × Nat) : State :=
  if c.1 ≥ 176 || tileState s c.1 = .retired then s
  else match freeField s c.1 c.2.1 c.2.2 with
    | some f => retirePos s c.1 f
    | none => tileBad s c.1

/-- An L2 way that fails its test: the spare way takes its place; with none free the slice keeps the ways left. -/
def wayFails (s : State) (w : Nat × Nat) : State :=
  if w.1 ≥ 128 || w.2 ≥ 17 || !(insvc s w.1).testBit w.2 then s
  else
    let m := setBits (insvc s w.1) w.2 w.2 0
    let s1 := setRegF s (pgL2s w.1) 0x080 16 0 (if (insvc s w.1).testBit 16 || thas s.card (cardKey ctRetired (blkId (pgL2s w.1))) then m else setBits m 16 16 1)
    cardPut s1 ctRetired (blkId (pgL2s w.1)) (insvc s1 w.1)

/-- Placement of the logical tiles (R476): the first place, else a spare, else unplaced. -/
def placeTiles (s : State) : State :=
  let good (s : State) (t : Nat) : Bool := tileState s t = .idle
  (List.range 160).foldl (fun s l =>
    let t := firstPlace l
    if good s t then s
    else match spareFor s t with
      | some x => tileTo { s with places := tput s.places l x } x .idle
      | none => { s with places := tput s.places l unplaced }) s

/-- UNITS. -/
def stepUnits (s : State) (b : BootFacts) : State :=
  let s1 := applyCard s
  let s2 := (b.tiles.filter (· < 176)).foldl tileBad s1
  let s3 := b.cells.foldl cellFails s2
  let s4 := b.ways.foldl wayFails s3
  let s5 := (b.entries.filter (fun e => e.1 < 4)).foldl (fun s e =>
    let n := (bel s e.1).spareUsed + (bel s e.1).shrunk + e.2
    cardPut (setBel s e.1 { bel s e.1 with spareUsed := min n 1024, shrunk := n - 1024 }) ctRetired (blkId (pgBel e.1)) n) s4
  placeTiles s5

/-! Step 11: tables of firmware in its own frames of die 0 (R222, R251). -/

/-- The physical address of table `k` (0 space descriptors, 1 contexts, 2 event rings, 3 queue descriptors, 4 management rings,
5 error log, 6 the range table of AS0), aligned to `2^a`: firmware picks it. -/
def fwAddr (k a : Nat) : Nat := (16 * k + Config.fwTable k % 16) * 2 ^ 21 + Config.fwTable (16 + k) % 2 ^ (21 - a) * 2 ^ a

/-- Tables that need less than a frame, aligned so that they stay within it. -/
def fwTab (k : Nat) : Nat := if k = 3 then fwAddr k 21 else fwAddr k 18

/-- AS0 shows every die's memory at an address that firmware picks. -/
def as0Base (d : Nat) : Nat := d * 2 ^ 38 + 2 ^ 21 * (Config.fwTable (200 + d) % 35841)
/-- The AS0 address of a physical one of die 0. -/
def as0Of (pa : Nat) : Nat := as0Base 0 + pa

/-- Bytes that firmware writes under its own key. -/
def fwWrite (s : State) (a : Nat) (bs : List Nat) : State := physWrite s 255 a bs

/-- The range entry of AS0 for a die: LOCAL, read and write, by the host too; execution as firmware chooses. -/
def as0Entry (d : Nat) : List Nat :=
  toBytes 8 (as0Base d) ++ toBytes 4 95232 ++ toBytes 4 (0x47 + 8 * (Config.fwTable (300 + d) % 2)) ++ toBytes 8 (d * 2 ^ 38) ++ toBytes 8 0

/-- A management queue (R329): ACTIVE, bound to ME e, 256 entries. -/
def mgmtQueue (e : Nat) : List Nat :=
  toBytes 4 (1 + 256 * (0xC0 + e)) ++ toBytes 4 0 ++ toBytes 8 (as0Of (fwTab 4 + 32768 * e)) ++ toBytes 4 8

/-- Key slot 255 takes a key of the key generator. -/
def ownKey (s : State) : State :=
  let (f, s1) := takeFree s
  { s1 with keys := tput s1.keys 255 (Config.drbg (2 * f) % 2 ^ 256 + 2 ^ 256 * (Config.drbg (2 * f + 1) % 2 ^ 256)) }

/-- TABLES. The key comes first: firmware's frames are written under it. -/
def stepTables (s : State) : State :=
  let s1 := fwWrite (ownKey s) (fwTab 6) (((List.range 4).map as0Entry).flatten)
  let s2 := fwWrite s1 (fwTab 0) (toBytes 4 (1 + 256 * 255) ++ toBytes 4 4 ++ toBytes 8 (fwTab 6))
  let s3 := fwWrite s2 (fwTab 1) (toBytes 4 (2 ^ 31))
  let s4 := (List.range 4).foldl (fun s e => fwWrite s (fwTab 3 + 128 * e) (mgmtQueue e)) s3
  let s5 := (List.range 4).foldl (fun s d =>
    let s1 := setReg (setRegPair s (pgXlt d) 0x080 (fwTab 0)) (pgXlt d) 0x088 128
    setRegPair (setRegPair (setRegPair s1 (pgEng (40 + d)) 0x0A0 (fwTab 3)) (pgEng (40 + d)) 0x0A8 (fwTab 1)) (pgEng (40 + d)) 0x0B0
      (as0Of (fwTab 4 + 32768 * d))) s4
  setRegPair (setRegPair s5 pgNhl 0x0C8 (as0Of (fwTab 2))) pgDbg 0x090 (as0Of (fwTab 5))

/-! Step 12. -/

/-- Pages with a local interval counter: tiles, engines, ports, the host link, guide clusters. -/
def licPages : List Nat :=
  (List.range 176).map pgTile ++ (List.range 44).map pgEng ++ (List.range 19).map pgPort ++ (List.range 4).map pgGde

/-- The first trim of a counter (R30): it has counted since power-up, and MEAS shows the mean of its last whole interval, if one has
ended (R28); the die's temperature, in °C, is a free value. -/
def firstTrim (s : State) (pg : Nat) : State :=
  let (a, s1) := takeFree s
  let (m, s2) := takeFree s1
  let (c, s3) := takeFree s2
  let s4 := modBlk s3 pg (fun b =>
    let n := b.lic + a % (2 ^ 64 - b.lic)
    { b with lic := n, meas := if n / 1000000 = b.lic / 1000000 then b.meas else m % 65536 })
  let r := trimRatio s4 pg (m / 65536 % 128) c
  noiseCheck (modBlk s4 pg (fun b => { b with corr := c / 2 % 65536, ratio := r, stale := false, valid := true })) pg

/-- PACING: every counter is trimmed, the fixed and idle powers are measured, the controller starts. -/
def stepPacing (s : State) : State :=
  let s1 := licPages.foldl firstTrim s
  let (f, s2) := takeFree s1
  (List.range 16).foldl (fun s n =>
    let (w, s1) := takeFree s
    setPwr s1 { s1.pwr with idleW := tput s1.pwr.idleW n w, idle := s1.pwr.idle ++ [n] }) (setPwr s2 { s2.pwr with fixed := f })

/-! Steps 13 and 14. -/

/-- The alternative of steps 13 and 14 puts the lanes that failed to lock into the bad mask; DETAIL holds 9 bits a port. -/
def maskLanes (s : State) (p lanes : Nat) : State := setRegF s (pgPort p) 0x084 8 0 (Nat.lor (rxBad s p) (lanes % 512))

/-- A port starts to train (R385). -/
def portTrain (s : State) (p : Nat) : State := if portOn s p && cableReady s p then setLink s p lkDetect else s

/-- NHL: the host link trains, READY is set. -/
def stepNhl (s : State) (alt : Bool) (lanes : Nat) : State :=
  let s1 := if alt then maskLanes s 18 lanes else s
  setRegF (portTrain s1 18) pgNhl 0x0E0 0 0 1

/-- The links of a DOMAIN_MAP record: the count, then 34 bits each. -/
def mapLinks (v : Nat) : List (Nat × Nat × Nat × Nat) :=
  (List.range (v % 65536)).map (fun i =>
    let e := v / 2 ^ 16 / 2 ^ (34 * i) % 2 ^ 34
    (bits e 11 0, bits e 16 12, bits e 28 17, bits e 33 29))

/-- The bytes of the domain map (R403). -/
def mapBytes (ls : List (Nat × Nat × Nat × Nat)) : List Nat :=
  (ls.map (fun l => toBytes 4 (l.1 + 65536 * l.2.1) ++ toBytes 4 (l.2.2.1 + 65536 * l.2.2.2))).flatten

/-- The devices of a map, in rising order. -/
def mapDevs (ls : List (Nat × Nat × Nat × Nat)) : List Nat :=
  (List.range 4096).filter (fun d => ls.any (fun l => l.1 == d || l.2.2.1 == d))

/-- The domain as the card gives it: map, identifier, digest, epoch, dead set. Which device of the map this one is, the spec
does not say how firmware knows. -/
def loadDomain (s : State) : State :=
  let ls := mapLinks ((cardNow s ctDomainMap 0).getD 0)
  let ds := mapDevs ls
  let dom := (cardNow s ctDomain 0).getD 0
  let digest := Config.sha384 (mapBytes ls)
  let s1 := { s with domMap := ls, dead := ((List.range 4096).filter (fun d => (dom / 2 ^ 64).testBit d)).map (fun d => (d, ())) }
  let s2 := setReg (setEpoch s1 (dom % 2 ^ 64)) pgDev 0x100
    (BitVec.ofNat 32 (if ds.isEmpty then 0 else ds.getD (Config.fwTable 400 % ds.length) 0 + 2 ^ 31))
  (List.range 12).foldl (fun s i => setReg s pgDev (0x150 + 4 * i) (BitVec.ofNat 32 (digest / 2 ^ (32 * i)))) s2

/-- FABRIC. -/
def stepFabric (s : State) (alt : Bool) (lanes : Nat) : State :=
  let s1 := loadDomain s
  let s2 := if alt then fabricPorts.foldl (fun s p => maskLanes s p (lanes / 2 ^ (9 * p))) s1 else s1
  fabricPorts.foldl portTrain s2

/-! The sequence. -/

/-- Cables in their connectors get power; each is read before its port trains (R548). -/
def cablesOn (s : State) : State :=
  { s with cables := s.cables.map (fun c => (c.1, { c.2 with power := c.2.present && !c.2.overI })) }

/-- The work of a step by its method. `prev` is the DETAIL of its previous record. -/
def stepWork (s : State) (b : BootFacts) (k : Nat) (alt : Bool) (prev : Nat) : StepOut :=
  let det := tgetD b.detail k 0
  match k with
  | 2 => (stepRom s b.clusters (b.failed.contains 2), (List.range 4).any (fun d => !b.clusters.contains d), det)
  | 3 => (cardRead s, true, det)
  | 4 => (stepOsc s alt, true, det)
  | 5 => (stepVerify s alt, true, det)
  | 6 => stepEdges s b.edges alt
  | 7 => stepTrain s b.stackSet alt
  | 8 => (stepHbm s, true, det)
  | 10 => (stepUnits s b, true, det)
  | 11 => (stepTables s, true, det)
  | 12 => (stepPacing s, true, det)
  | 13 => (stepNhl s alt prev, true, det)
  | 14 => (stepFabric (cablesOn s) alt prev, true, det)
  | _ => (s, true, det)

/-- BOOT_STEP shows a step. -/
def showStep (s : State) (k outcome : Nat) (alt : Bool) : State :=
  setReg s pgBoot 0x080 (putFld (regW s pgBoot 0x080) 7 0 (k + 16 * outcome + (if alt then 128 else 0)))

/-- A record goes into the card and the flash, with whatever else waits. Before step 3 has ended nothing can be written. -/
def noteStep (s : State) (k r : Nat) : State :=
  let s1 := cardPut s ctStep k r
  if k = 2 then s1 else cardFlush s1

/-- One step: its method from its previous record, STARTED, its work, its outcome; whether the start goes on. -/
def runStep (b : BootFacts) (x : State × Bool) (k : Nat) : State × Bool :=
  if !x.2 then x
  else
    let s := x.1
    let r := recRead ((cardNow s ctStep k).getD 0)
    if skipStep k r then
      let s1 := if k = 13 then setRegF s pgNhl 0x0E0 0 0 1 else if k = 14 then loadDomain s else s
      (showStep (noteStep s1 k (stepRec k ocSkipped 0 (recFails r) 0 0)) k ocSkipped false, true)
    else
      let alt := useAlt k r
      let alt2 := k = 2 && b.failed.contains 2
      let s1 := if k ≤ 3 then s else noteStep s k (stepRec k ocStarted (if alt then 1 else 0) (recFails r) (recAlt r) 0)
      let fails := if k = 2 then b.failed.contains 2 && b.failed.contains 18 else b.failed.contains (if alt then 16 + k else k)
      let (s2, ok, det) := stepWork s1 b k alt (recDetail r)
      let good := ok && !fails
      let d := if fails then tgetD b.detail k 0 else det
      let used := alt || alt2
      -- a failing step leaves nothing of its work but what it has recorded; the card lies in s3
      let s3 := if good then s2 else { s1 with card := s2.card, cardDue := s2.cardDue, fresh := s2.fresh }
      let r3 := if k = 3 then recRead ((cardGet s3 ctStep 3).getD 0) else r
      let s4 := if k = 3 then cardPut s3 ctStep 1 (stepEnd 1 (recRead ((cardGet s3 ctStep 1).getD 0)) false true 0) else s3
      let s5 := match k, tget? s.cardDue (cardKey ctStep 2) with
        | 3, some v => cardPut s4 ctStep 2 (stepEnd 2 (recRead ((cardGet s4 ctStep 2).getD 0)) (recMethod v = 1) true (recDetail v))
        | _, _ => s4
      let s6 := noteStep s5 k (stepEnd k r3 used good d)
      let s7 := showStep s6 k (if !good then ocFail else if used then ocPassAlt else ocPass) used
      if good then (s7, true) else (errSet s7 pgBoot 8 k, skippable k)

/-- The machine as a start finds it at step 2: powered, nothing initialised; the BOOT page and what the sideband has said stay. -/
def startBase (s : State) : State :=
  { unpowered s with
    pwrGood := true, booted := true, reports := s.reports, answers := s.answers
    blks := [(pgBoot, if (blk s pgBoot).st = .off then (blk s pgBoot).enter .idle else blk s pgBoot)] }

/-- A start counts in BOOT_STEP.STARTS until step 14 has ended. -/
def countStart (s : State) : State := bumpF s pgBoot 0x080 15 8 1

/-- Starts follow one another until one finishes, at most 8 (R506). -/
def runStarts (b : BootFacts) : Nat → State → State
  | 0, s =>
    let s1 := startBase s
    setAlert { s1 with booted := false, startHeld := true } 0
  | n + 1, s =>
    let (s1, ok) := (rangeFrom 2 13).foldl (runStep b) (countStart (noiseRetests (startBase s) b.noise), true)
    if ok then setRegF { s1 with startHeld := false } pgBoot 0x080 15 8 0 else runStarts b n s1

/-- The start proceeds at step 2 (R499, R545). -/
def startUp (s : State) (b : BootFacts) : State := runStarts b 8 (setRegF s pgBoot 0x080 15 8 0)

/-- POWER_UP: 52 V is applied; step 1 raises MOD_PWR_GOOD, and with MOD_RESET_N low the start holds before step 2. -/
def execPowerUp (b : BootFacts) (s : State) : Out :=
  .next (if s.pwrGood || b.failed.contains 1 then s
    else
      let s1 := { unpowered s with pwrGood := true, resetLow := b.resetHeld }
      if b.resetHeld then { s1 with startHeld := true } else startUp s1 b)

end Sys2Proof.Machine
end

