-- ==== Sys2Proof/Machine/Cable.lean ====
section
/-!
DEFINITION. Fabric cables (R547 to R549, R399).
-/
namespace Sys2Proof.Machine

def cable (s : State) (p : Nat) : Cable := tgetD s.cables p {}
def setCable (s : State) (p : Nat) (c : Cable) : State := { s with cables := tput s.cables p c }

/-- The signal of a port's partner is gone (R386). -/
def cableLos (s : State) (p : Nat) : State := if linkState s p = lkDown then s else linkDown s p dnLos

/-- CABLE_CONNECT: CM_PRESENT_N goes low; the module turns the cable's power on. -/
def execCableConnect (port : Nat) (s : State) : Out :=
  .next (if port ≥ 18 || (cable s port).present then s else setCable s port { present := true, power := powered s })

/-- CABLE_REMOVE: CM_PRESENT_N goes high: power off, the port DOWN with LOS. -/
def execCableRemove (port : Nat) (s : State) : Out :=
  .next (if port < 18 && (cable s port).present then cableLos { s with cables := tdel s.cables port } port else s)

/-- CABLE_ID_READ: firmware has read the identity memory, or it does not answer; then the port looks for its partner. -/
def execCableIdRead (port : Nat) (ok : Bool) (idw : Nat) (s : State) : Out :=
  .next (let c := cable s port
    if port ≥ 18 || !fwUp s || !c.present || !c.power || c.read then s
    else
      let s1 := setCable s port { c with read := true, ident := if ok then some idw else none }
      if portOn s1 port && linkState s1 port = lkDown && [0, dnNoPartner, dnLos, dnLeft].contains (linkReason s1 port) then
        setLink s1 port lkDetect
      else s1)

/-- CABLE_OVERPOWER: the cable's power goes off until the cable has been removed; the port is DOWN with LOS. -/
def execCableOverpower (port : Nat) (s : State) : Out :=
  .next (let c := cable s port
    if port < 18 && c.present && c.power then cableLos (setCable s port { c with power := false, overI := true }) port else s)

end Sys2Proof.Machine
end

