-- ==== Sys2Proof/Machine/Control.lean ====
section
/-!
DEFINITION. The control slot of a bundle (R99): each command is a bundle that holds this one operation.
-/
namespace Sys2Proof.Machine

/-- BRA: the target is `off` bundles of 16 B from this one (R99). -/
def execBra (g : GRef) (off : BitVec 22) (s : State) : Out := issueC s g (.bra off.toInt) 0 0

/-- BR.cond on a uniform register with respect to zero (R99). -/
def execBrCond (g : GRef) (sr : BitVec 5) (cond : BitVec 3) (off : BitVec 14) (s : State) : Out := issueC s g (.brCond sr.toNat cond.toNat off.toInt) 0 0

/-- BRP.mode on a predicate over the active lanes (R99). -/
def execBrpMode (g : GRef) (p : BitVec 3) (mode : BitVec 2) (off : BitVec 17) (s : State) : Out := issueC s g (.brp p.toNat mode.toNat off.toInt) 0 0

/-- CALL: the sequential address to sD, then as BRA (R99). -/
def execCall (g : GRef) (sd : BitVec 5) (off : BitVec 17) (s : State) : Out := issueC s g (.call sd.toNat off.toInt) 0 0

/-- JMPR: an address that is not a multiple of 16 faults MEM_ALIGN (R99). -/
def execJmpr (g : GRef) (sr : BitVec 5) (s : State) : Out := issueC s g (.jmpr sr.toNat) 0 0

/-- SPLIT pushes a THEN entry (R63). -/
def execSplit (g : GRef) (p : BitVec 3) (els : BitVec 9) (fin : BitVec 10) (s : State) : Out := issueC s g (.split p.toNat els.toNat fin.toNat) 0 0

/-- JOIN on the top entry of the mask stack (R63, R64). -/
def execJoinM (g : GRef) (s : State) : Out := issueC s g (.join) 0 0

/-- LOOP pushes a LOOP entry (R63). -/
def execLoopM (g : GRef) (out : BitVec 16) (s : State) : Out := issueC s g (.loop out.toNat) 0 0

/-- BREAK removes the lanes of p from the loop (R63). -/
def execBreakM (g : GRef) (p : BitVec 3) (s : State) : Out := issueC s g (.brk p.toNat) 0 0

/-- EXIT ends the active lanes (R63, R64). -/
def execExitM (g : GRef) (s : State) : Out := issueC s g (.exit) 0 0

/-- BAR: the active lanes arrive at the barrier of the workgroup (R67). -/
def execBar (g : GRef) (s : State) : Out := issueC s g (.bar) 0 0

/-- TRAP faults the group (R80); codes 0xF0 to 0xFF are a cairn trigger source (R519). -/
def execTrap (g : GRef) (code : BitVec 8) (s : State) : Out := issueC s g (.trap code.toNat) 0 0

/-- WAITLE waits until dependency counter k is at most n (R97). -/
def execWaitle (g : GRef) (k : BitVec 3) (n : BitVec 6) (s : State) : Out := issueC s g (.waitle k.toNat n.toNat) 0 0

/-- RDLIC reads the local interval counter of the tile (R26, R99). -/
def execRdlic (g : GRef) (sd : BitVec 5) (s : State) : Out := issueC s g (.rdlic sd.toNat) 0 0

/-- RDSTEP reads the step counter of the tile (R25, R99). -/
def execRdstep (g : GRef) (sd : BitVec 5) (s : State) : Out := issueC s g (.rdstep sd.toNat) 0 0

/-- UADD on 64-bit uniform registers (R99). -/
def execUadd (g : GRef) (sd : BitVec 5) (sa : BitVec 5) (sb : BitVec 5) (s : State) : Out := issueC s g (.ualu 0x10 sd.toNat sa.toNat sb.toNat) 0 0

/-- USUB on 64-bit uniform registers (R99). -/
def execUsub (g : GRef) (sd : BitVec 5) (sa : BitVec 5) (sb : BitVec 5) (s : State) : Out := issueC s g (.ualu 0x11 sd.toNat sa.toNat sb.toNat) 0 0

/-- UMUL on 64-bit uniform registers (R99). -/
def execUmul (g : GRef) (sd : BitVec 5) (sa : BitVec 5) (sb : BitVec 5) (s : State) : Out := issueC s g (.ualu 0x12 sd.toNat sa.toNat sb.toNat) 0 0

/-- UAND on 64-bit uniform registers (R99). -/
def execUand (g : GRef) (sd : BitVec 5) (sa : BitVec 5) (sb : BitVec 5) (s : State) : Out := issueC s g (.ualu 0x13 sd.toNat sa.toNat sb.toNat) 0 0

/-- UOR on 64-bit uniform registers (R99). -/
def execUor (g : GRef) (sd : BitVec 5) (sa : BitVec 5) (sb : BitVec 5) (s : State) : Out := issueC s g (.ualu 0x14 sd.toNat sa.toNat sb.toNat) 0 0

/-- UXOR on 64-bit uniform registers (R99). -/
def execUxor (g : GRef) (sd : BitVec 5) (sa : BitVec 5) (sb : BitVec 5) (s : State) : Out := issueC s g (.ualu 0x15 sd.toNat sa.toNat sb.toNat) 0 0

/-- USHL on 64-bit uniform registers (R99). -/
def execUshl (g : GRef) (sd : BitVec 5) (sa : BitVec 5) (sb : BitVec 5) (s : State) : Out := issueC s g (.ualu 0x16 sd.toNat sa.toNat sb.toNat) 0 0

/-- USHR on 64-bit uniform registers (R99). -/
def execUshr (g : GRef) (sd : BitVec 5) (sa : BitVec 5) (sb : BitVec 5) (s : State) : Out := issueC s g (.ualu 0x17 sd.toNat sa.toNat sb.toNat) 0 0

/-- USAR on 64-bit uniform registers (R99). -/
def execUsar (g : GRef) (sd : BitVec 5) (sa : BitVec 5) (sb : BitVec 5) (s : State) : Out := issueC s g (.ualu 0x18 sd.toNat sa.toNat sb.toNat) 0 0

/-- UMINS on 64-bit uniform registers (R99). -/
def execUminS (g : GRef) (sd : BitVec 5) (sa : BitVec 5) (sb : BitVec 5) (s : State) : Out := issueC s g (.ualu 0x19 sd.toNat sa.toNat sb.toNat) 0 0

/-- UMAXS on 64-bit uniform registers (R99). -/
def execUmaxS (g : GRef) (sd : BitVec 5) (sa : BitVec 5) (sb : BitVec 5) (s : State) : Out := issueC s g (.ualu 0x1A sd.toNat sa.toNat sb.toNat) 0 0

/-- UMINU on 64-bit uniform registers (R99). -/
def execUminU (g : GRef) (sd : BitVec 5) (sa : BitVec 5) (sb : BitVec 5) (s : State) : Out := issueC s g (.ualu 0x1B sd.toNat sa.toNat sb.toNat) 0 0

/-- UADDI with a sign-extended 12-bit immediate; shifts use its low 6 bits (R99). -/
def execUaddi (g : GRef) (sd : BitVec 5) (sa : BitVec 5) (imm : BitVec 12) (s : State) : Out := issueC s g (.ualui 0x20 sd.toNat sa.toNat imm.toNat) 0 0

/-- UANDI with a sign-extended 12-bit immediate; shifts use its low 6 bits (R99). -/
def execUandi (g : GRef) (sd : BitVec 5) (sa : BitVec 5) (imm : BitVec 12) (s : State) : Out := issueC s g (.ualui 0x21 sd.toNat sa.toNat imm.toNat) 0 0

/-- UORI with a sign-extended 12-bit immediate; shifts use its low 6 bits (R99). -/
def execUori (g : GRef) (sd : BitVec 5) (sa : BitVec 5) (imm : BitVec 12) (s : State) : Out := issueC s g (.ualui 0x22 sd.toNat sa.toNat imm.toNat) 0 0

/-- UXORI with a sign-extended 12-bit immediate; shifts use its low 6 bits (R99). -/
def execUxori (g : GRef) (sd : BitVec 5) (sa : BitVec 5) (imm : BitVec 12) (s : State) : Out := issueC s g (.ualui 0x23 sd.toNat sa.toNat imm.toNat) 0 0

/-- USHLI with a sign-extended 12-bit immediate; shifts use its low 6 bits (R99). -/
def execUshli (g : GRef) (sd : BitVec 5) (sa : BitVec 5) (imm : BitVec 12) (s : State) : Out := issueC s g (.ualui 0x24 sd.toNat sa.toNat imm.toNat) 0 0

/-- USHRI with a sign-extended 12-bit immediate; shifts use its low 6 bits (R99). -/
def execUshri (g : GRef) (sd : BitVec 5) (sa : BitVec 5) (imm : BitVec 12) (s : State) : Out := issueC s g (.ualui 0x25 sd.toNat sa.toNat imm.toNat) 0 0

/-- USARI with a sign-extended 12-bit immediate; shifts use its low 6 bits (R99). -/
def execUsari (g : GRef) (sd : BitVec 5) (sa : BitVec 5) (imm : BitVec 12) (s : State) : Out := issueC s g (.ualui 0x26 sd.toNat sa.toNat imm.toNat) 0 0

/-- UMOVI: a sign-extended 17-bit immediate (R99). -/
def execUmovi (g : GRef) (sd : BitVec 5) (imm : BitVec 17) (s : State) : Out := issueC s g (.umovi sd.toNat imm.toNat) 0 0

/-- MOVL: literal word L0, zero-extended (R90, R99). -/
def execMovl (g : GRef) (sd : BitVec 5) (l0 : BitVec 32) (s : State) : Out := issueC s g (.movl sd.toNat) l0.toNat 0

/-- MOVL64: both literal words (R90, R99). -/
def execMovl64 (g : GRef) (sd : BitVec 5) (l0 : BitVec 32) (l1 : BitVec 32) (s : State) : Out := issueC s g (.movl64 sd.toNat) l0.toNat l1.toNat

/-- PMOV: a predicate from a uniform register (R99). -/
def execPmov (g : GRef) (p : BitVec 3) (sr : BitVec 5) (s : State) : Out := issueC s g (.pmov p.toNat sr.toNat) 0 0

/-- SMOVP: a uniform register from a predicate (R99). -/
def execSmovp (g : GRef) (sd : BitVec 5) (p : BitVec 3) (s : State) : Out := issueC s g (.smovp sd.toNat p.toNat) 0 0

/-- PAND on predicates (R99). -/
def execPand (g : GRef) (pd : BitVec 3) (pa : BitVec 3) (pb : BitVec 3) (s : State) : Out := issueC s g (.plog 0x2C pd.toNat pa.toNat pb.toNat) 0 0

/-- POR on predicates (R99). -/
def execPor (g : GRef) (pd : BitVec 3) (pa : BitVec 3) (pb : BitVec 3) (s : State) : Out := issueC s g (.plog 0x2D pd.toNat pa.toNat pb.toNat) 0 0

/-- PANDN on predicates (R99). -/
def execPandn (g : GRef) (pd : BitVec 3) (pa : BitVec 3) (pb : BitVec 3) (s : State) : Out := issueC s g (.plog 0x2E pd.toNat pa.toNat pb.toNat) 0 0

/-- PNOT on a predicate (R99). -/
def execPnot (g : GRef) (pd : BitVec 3) (pa : BitVec 3) (s : State) : Out := issueC s g (.pnot pd.toNat pa.toNat) 0 0

end Sys2Proof.Machine
end

