-- ==== Sys2Proof/Machine/Reset.lean ====
section
/-!
DEFINITION. Warm reset (R43, R285, R306, R323, R433, R448, R501), the rise of MOD_RESET_N (R545), loss of 52 V (R286).
-/
namespace Sys2Proof.Machine

/-! Draining (R285). -/

/-- Entries of a tile whose target cannot be reached are dropped; those behind them go on draining. -/
def dropLost (s : State) (t : Nat) : State :=
  ((tile s t).posted ++ (tile s t).sb).foldl (fun s e => if entryLost s e then dropEntry s t e else s) s

/-- Loads in flight and the lines that PREF has asked for are discarded. -/
def dropLoads (s : State) : State :=
  let gone (o : ReqOwner) : Bool := match o with
    | .load _ _ _ => true
    | .fetch _ _ => true
    | .pref _ _ _ => true
    | _ => false
  { s with
    reqs := s.reqs.filter (fun r => !gone r.owner)
    tiles := s.tiles.map (fun t => (t.1, { t.2 with
      prefs := [], groups := t.2.groups.map (fun g => (g.1, { g.2 with pend := g.2.pend.filter (fun p => !p.openLoad) })) })) }

/-- Every store buffer is empty. -/
def sbEmpty (s : State) : Bool := s.tiles.all (fun t => t.2.sb.isEmpty && t.2.posted.isEmpty)

/-! What a warm reset ends. -/

/-- A TXG past its commit point installs every line (R323). -/
def installAll (s : State) (i : Nat) : State :=
  let t := txgAt s i
  if t.st ≠ .committed then s
  else t.lines.foldl (fun s l => installLine s l.1 l.2) (setTxg s i { t with lines := [], st := .free })

def endTxgs (s : State) : State :=
  (s.txgs.map (·.1)).foldl (fun s i => if (txgAt s i).st = .committed then installAll s i else txgAbort s i 9) s

/-- Every long operation that runs ends CANCELLED (R43, R51). -/
def cancelOps (s : State) : State := { s with blks := s.blks.map (fun b => (b.1, if b.2.opRun then b.2.opEnd 3 0 else b.2)) }

/-- Watches, wait lists and notifications are discarded (R306), a message that waits for its port with them. -/
def dropWatches (s : State) : State :=
  { s with reqs := s.reqs.filter (fun r => r.k.kind ≠ pkNotify)
           ports := s.ports.map (fun p => (p.1, { p.2 with waitq := p.2.waitq.filter (fun k => k.1.kind ≠ pkNotify) }))
           bels := s.bels.map (fun b => (b.1, { b.2 with armed := [], waitl := [], ended := [], remote := [] }))
           evq := s.evq.filter (fun e => e.kind ≠ 1), evpend := s.evpend.filter (fun e => e.kind ≠ 1) }

/-- WAITING of the queues whose WAIT ends. -/
def endWaits (s : State) : State :=
  (s.cmds.filter (fun c => c.stage != .fetched && c.opc == 1)).foldl (fun s c => setQWaiting s c.q false) s

/-- Replacements and self-tests of tiles that are not finished: a spare brought in goes back. A tile already FAILED stays under test. -/
def endRepls (s : State) : State :=
  let on (r : Nat × Repl) : Bool := tileState s r.1 = .failed
  let off := s.guide.repls.filter (fun r => !on r)
  let s1 := setGuide s { s.guide with repls := s.guide.repls.filter on }
  off.foldl (fun s r => match r.2.spare with
    | some x => if logOf s x = none then tileSpare s x else s
    | none => s) s1

/-- The state of a block after the reset (R43). R43 discards the staged writes of a stop; the model drops every staged low half of a
64-bit pair with them, the live pairs' too, of which R10 says nothing (DESIGN CHOICE). -/
def Blk.afterReset (b : Blk) : Blk :=
  let b1 := { b with owner := none, staged := [], pairStage := [] }
  match b.st with
  | .busy => b1.enter .idle
  | .stopping => b1.enter .idle
  | .stopped => b1.enter .idle
  | _ => b1

/-- A field that a warm reset puts back to its reset value: RW, W1C, W1S, WO and RC, but for what boot has set. -/
def resetsField (ty : PT) (f : FieldSpec) : Bool :=
  (match f.acc with
    | .ro => false
    | .rws => false
    | _ => true) &&
  !(ty = .xlt || (ty = .me && f.off ≥ 0x0A0 && f.off ≤ 0x0AC) || ((ty = .fport || ty = .nhl) && f.off = 0x084))

/-- A register word after the reset. -/
def resetReg (partE : Bool) (ty : PT) (off : Nat) (w : Word) : Word :=
  (ty.fields.filter (fun f => f.off ≤ off && off < f.off + 4 * f.n && resetsField ty f)).foldl
    (fun w f => putFld w f.hi f.lo (fld (resetWord partE ty off) f.hi f.lo)) w

/-- The registers of a page after the reset. R10 does not say what a warm reset does to the high halves latched per path: the model
drops them, and the latch of BLK_PROG_ID too (DESIGN CHOICE). -/
def Blk.regsReset (b : Blk) (partE : Bool) (ty : PT) : Blk :=
  { b with
    errStat := 0, errMask := 0, errBit := 0, errValid := false, errCnt := 0, errAddr := 0
    injSel := 0, injArm := false, injRepeat := false, injFired := false, injDue := []
    snapJoin := true, snapHeld := false, snapSeq := 0, snapWords := []
    pairLatch := [], progLatch := []
    regs := b.regs.map (fun r => (r.1, resetReg partE ty r.1 r.2)) }

/-- A tile after the reset: its hem history stays (R147), everything in hand is gone. -/
def Tile.afterReset (x : Tile) : Tile := { arr := { hist := x.arr.hist } }

/-- The fence status of launches whose remote stores were lost is told (R280, R285), of groups that have left the tile too. -/
def tellFences (s : State) : State :=
  s.tiles.foldl (fun s t =>
    let s1 := t.2.groups.foldl (fun s g => match wg? s t.1 g.2.wg with
      | some w => (noteFence s t.1 w.launch w.space w.fsw g.2.remErr (strGroup t.1 g.1)).2
      | none => s) s
    t.2.orphans.foldl (fun s o => (noteFence s t.1 o.launch o.space o.fsw o.bits 0x3FFF).2) s1) s

/-- The authorisation ends (R515). R445 names no cause of a reset: INFO is a free value among the two bits. -/
def resetRights (s : State) : State :=
  let (f, s1) := if s.tokenSlot = 0 then (0, s) else takeFree s
  endRights (debugEnd s1 (f % 4))

/-- The reset ends its work: links go DOWN after DEPART, buffers of work are empty; memory, L2, keys, stacks and the card stay. -/
def finishReset (s : State) : State :=
  let s1 := setRegF (departAll (tellFences (dropWatches s))) pgDbg 0x0A8 3 3 0
  let s2 := (List.range 19).foldl (fun s p =>
    let out := (port s p).out
    setPort (setRegF (linkDown s p dnLeft) (pgPort p) 0x080 15 8 0) p { out := out }) s1
  let s3 := resetRights { s2 with
    tiles := s2.tiles.map (fun t => (t.1, t.2.afterReset))
    reqs := [], heldPkts := [], hostQ := [], ldrs := [], runs := [], strErr := [], landing := [], collGone := [], anchors := [], lastOrd := [], resync := none
    mirLost := [], rings := [], xcache := [], engs := [], reports := [], wave := none, bus := [], draining := false }
  let s4 := { s3 with blks := s3.blks.map (fun (b : Nat × Blk) => (b.1, match pageAt b.1 with
    | some p => (b.2.afterReset).regsReset s3.partE p.ty
    | none => b.2)) }
  if s4.leftService then setAlert s4 0 else s4

/-- WARM_RESET: MOD_RESET_N is held low. -/
def execWarmReset (s : State) : Out :=
  .next (if !s.pwrGood || s.resetLow || s.pwr.tripped then s
    else if !s.booted then { s with resetLow := true, startHeld := true }
    else
      let s1 := endRepls (cancelOps (endWaits (dropWatches (releaseHeld (endTxgs s)))))
      let s2 := { s1 with
        resetLow := true, draining := true, cmds := [], launches := [], resvs := [], served := [], ldrs := [], hostQ := []
        rings := s1.rings.map (fun r => (r.1, { r.2 with on := false })) }
      let s3 := setRegF (bumpF (setRegF s2 pgNhl 0x0E0 0 0 0) pgNhl 0x0E0 31 16 1) pgNhl 0x0C4 31 31 0
      let s4 := (s3.tiles.map (·.1)).foldl dropLost (dropLoads s3)
      if sbEmpty s4 then finishReset s4 else s4)

/-- SB_DRAIN_EXPIRE: local copies have been delivered, the entries left are dropped and counted. -/
def execSbDrainExpire (s : State) : Out :=
  .next (if !s.draining then s
    else finishReset ((s.tiles.map (·.1)).foldl (fun s t =>
      ((tile s t).posted ++ (tile s t).sb).foldl (fun s e => drainEnd s t e) s) s))

/-- Steps 13 and 14 after a warm reset: the card stays as it was (R501). -/
def restartLinks (s : State) (b : BootFacts) : State :=
  [13, 14].foldl (fun s k =>
    let r := recRead ((cardNow s ctStep k).getD 0)
    let alt := useAlt k r
    let ok := !b.failed.contains (if alt then 16 + k else k)
    if skipStep k r then showStep (if k = 13 then setRegF s pgNhl 0x0E0 0 0 1 else loadDomain s) k ocSkipped false else
    let s1 := (stepWork s b k alt (recDetail r)).1
    let s2 := showStep s1 k (if !ok then ocFail else if alt then ocPassAlt else ocPass) alt
    if ok then s2 else errSet s2 pgBoot 8 k) s

/-- MOD_RESET_RELEASE: MOD_RESET_N is high. A start that was held begins at step 2; after a warm reset whose work has ended, the
links train again and READY is set. -/
def execModResetRelease (b : BootFacts) (s : State) : Out :=
  .next (if !s.pwrGood || s.pwr.tripped then s
    else if s.startHeld then startUp { s with resetLow := false } b
    else if !s.resetLow || (s.draining && !sbEmpty s) then s
    else restartLinks (noiseRetests { (if s.draining then finishReset s else s) with resetLow := false } b.noise) b)

/-- POWER_LOSS: every volatile store is lost; only the boot flash keeps anything. -/
def execPowerLoss (s : State) : Out := .next (powerOff s)

end Sys2Proof.Machine
end

