-- ==== Sys2Proof/Machine/View.lean ====
section
/-!
DEFINITION. What a register reads: the common header (R34, R37 to R54), registers that show a part of the state, pairs (R10).
-/
namespace Sys2Proof.Machine

/-! Pairs (R10): the low halves of the 64-bit quantities. -/

def hdrPairs : List Nat := [0x028, 0x068, 0x070]

def PT.pairs : PT → List Nat
  | .tile => [0x0D0, 0x0D8, 0x0E0, 0x0E8]
  | .hbm => [0x088]
  | .xlt => [0x080]
  | .me => [0x0A0, 0x0A8, 0x0B0]
  | .dev => [0x108]
  | .nhl => [0x0C0, 0x0C8]
  | .pwr => [0x0A0]
  | .gde => [0x088]
  | .sec => [0x090]
  | .dbg => [0x090, 0x0A0]
  | _ => []

def isLow (ty : PT) (o : Nat) : Bool := (hdrPairs ++ ty.pairs).contains o
def isHigh (ty : PT) (o : Nat) : Bool := o ≥ 4 && isLow ty (o - 4)

/-! The common header. -/

/-- BLK_INJ_CTRL.PERMIT: the INJECT right (R514). -/
def permit (s : State) : Bool := hasRight s rtInject

/-- A header register, as a path reads it. -/
def hdrN (s : State) (p : Path) (pg o : Nat) : Nat :=
  let b := blk s pg
  let f (x : Bool) (k : Nat) : Nat := if x then 2 ^ k else 0
  match o with
  | 0x000 => blkId pg
  | 0x004 => 0x07A10100
  | 0x008 => b.st.code + 16 * b.prev.code + 65536 * b.seq
  | 0x00C => 65536 * ownerCode b.owner + 2 ^ 20 * tgetD b.resp (pathIx p) 0 + f (!b.staged.isEmpty || b.pairStage.any (fun x => x.1 < 4096)) 24
  | 0x010 => b.progVal % 2 ^ 24 + 2 ^ 24 * b.progKind + 2 ^ 28 * b.progRes
  | 0x014 => (tget? b.progLatch (pathIx p)).getD (b.progOpc + 65536 * b.progSer)
  | 0x018 => b.errStat.toNat
  | 0x01C => b.errMask.toNat
  | 0x020 => b.errBit + f b.errValid 31
  | 0x024 => b.errCnt
  | 0x028 => b.errAddr % 2 ^ 32
  | 0x02C => b.errAddr / 2 ^ 32 % 2 ^ 32
  | 0x030 => b.injSel
  | 0x034 => f b.injArm 0 + f b.injRepeat 1 + f b.injFired 2 + f (permit s) 31
  | 0x040 => f b.snapJoin 0 + f b.snapHeld 1 + 65536 * b.snapSeq
  | 0x068 => b.lic % 2 ^ 32
  | 0x06C => b.lic / 2 ^ 32 % 2 ^ 32
  | 0x070 => b.steps % 2 ^ 32
  | 0x074 => b.steps / 2 ^ 32 % 2 ^ 32
  | 0x078 => b.meas + 65536 * b.ratio
  | 0x07C => b.corr + f b.stale 30 + f b.valid 31
  | _ => if 0x048 ≤ o && o ≤ 0x064 then b.snapWords.getD ((o - 0x048) / 4) 0 else 0

/-! Registers that show a part of the state. -/

/-- Commands being accepted, or accepted and unfinished, of the array; of the row engine. -/
def arrQueued (s : State) (t : Nat) : Nat := (tile s t).arr.cmds.length
def rowQueued (s : State) (t : Nat) : Nat := (tile s t).row.cmds.length
/-- An array command that hands its result to the row engine (R199) is in hand. -/
def rowFused (s : State) (t : Nat) : Bool :=
  (tile s t).arr.cmds.any (fun c => c.stage != .offered && bits (c.words.headD 0) 21 20 == 3)

/-- MODE of the command computing, or last computed. -/
def arrMode (s : State) (t : Nat) : Nat := (tile s t).arr.lastMode % 8

/-- Queues bound to an engine. -/
def queuesBound (s : State) (e : Nat) : Nat :=
  ((List.range 16384).filter (fun q => qState s q != 0 && qEng s q == some e)).length

/-- Lines staged in a slice, and on a die. -/
def stagedOn (s : State) (d : Nat) : Nat := (((rangeFrom (64 * d) 64)).map (fun i => (txgAt s i).lines.length)).sum

/-- DOM_STATE.STATE: 0 ALONE, 1 MEMBER, 2 STALE, 3 DEPARTING. -/
def domState (s : State) : Nat :=
  if s.leftService || s.draining || s.resetLow then 3
  else if s.resync.isSome then 2
  else if (List.range 18).any (linkUp s) then 1 else 0

/-- DOM_VER.RUN: the lowest minor version in use on a port that is UP. -/
def domRun (s : State) : Nat :=
  let ms := ((List.range 18).filter (linkUp s)).map (fun p => (port s p).minor)
  match ms with
  | [] => 1
  | m :: t => t.foldl min m

/-- A block-specific register of a page, as a number. -/
def viewN (s : State) (pg : Nat) (i : PageId) (o : Nat) : Nat :=
  let w := (regW s pg o).toNat
  let x := tile s i.tile
  match i.ty, o with
  | .tile, 0x080 => x.groups.length + 256 * x.wgs.length + 65536 * ((x.regsUsed + 1023) / 1024)
  | .tile, 0x084 => x.wgmUsed + 256 * wgmPart s i.tile
  | .tile, 0x0A0 => x.rgn.length
  | .tile, 0x0A4 => x.sb.length
  | .tile, 0x0D0 => tgetD x.perf 0 0 % 2 ^ 32
  | .tile, 0x0D4 => tgetD x.perf 0 0 / 2 ^ 32
  | .tile, 0x0D8 => tgetD x.perf 1 0 % 2 ^ 32
  | .tile, 0x0DC => tgetD x.perf 1 0 / 2 ^ 32
  | .tile, 0x0E0 => tgetD x.perf 2 0 % 2 ^ 32
  | .tile, 0x0E4 => tgetD x.perf 2 0 / 2 ^ 32
  | .tile, 0x0E8 => tgetD x.perf 3 0 % 2 ^ 32
  | .tile, 0x0EC => tgetD x.perf 3 0 / 2 ^ 32
  | .arr, 0x08C => min 7 (arrQueued s i.tile) + 8 * b2n (arrHeld s i.tile).isSome + 16 * arrMode s i.tile
  | .row, 0x080 => min 7 (rowQueued s i.tile) + 8 * b2n (rowFused s i.tile)
  | .l2s, 0x088 => stagedSlice s (32 * i.die + i.inst)
  | .bel, 0x080 => (bel s i.die).armed.length + 65536 * min 0xFFFF (bel s i.die).waitl.length
  | .bel, 0x084 => 1024 - (bel s i.die).spareUsed
  | .bel, 0x08C => (bel s i.die).aband.length
  | .txg, 0x080 => ((rangeFrom (64 * i.die) 64).filter (fun k => (txgAt s k).st != .free)).length
  | .txg, 0x084 => stagedOn s i.die
  | .de, 0x080 => queuesBound s i.eng
  | .ce, 0x080 => queuesBound s i.eng
  | .fx, 0x080 => queuesBound s i.eng
  | .me, 0x080 => queuesBound s i.eng
  | .de, 0x084 => placesUsed s i.eng
  | .ce, 0x084 => placesUsed s i.eng
  | .fx, 0x084 => placesUsed s i.eng
  | .me, 0x084 => placesUsed s i.eng
  | .fport, 0x0A4 => (port s i.port).lsym.getD (bits (regW s pg 0x0A0).toNat 3 0) 0
  | .nhl, 0x0A4 => (port s 18).lsym.getD (bits (regW s pg 0x0A0).toNat 3 0) 0
  | .nhl, 0x0D8 => s.evpend.length
  | .dev, 0x104 => w % 65536 + 65536 * domRun s
  | .dev, 0x110 => domState s + 65536 * s.dead.length
  | .dev, 0x128 => (tgetD s.route (bits (regW s pg 0x124).toNat 11 0) []).getD 0 0
  | .dev, 0x12C => (tgetD s.route (bits (regW s pg 0x124).toNat 11 0) []).getD 1 0
  | .dev, 0x130 => (tgetD s.route (bits (regW s pg 0x124).toNat 11 0) []).getD 2 0
  | .dev, 0x134 => (tgetD s.route (bits (regW s pg 0x124).toNat 11 0) []).getD 3 0
  | .dev, 0x138 => s.landing.length
  | .dev, 0x404 =>
    let l := bits (regW s pg 0x400).toNat 7 0
    (match physOf s l with
      | some t => placement t + 256
      | none => 0) + 65536 * (tgetD s.moves l 0 % 65536)
  | .dev, 0x408 => (tilesIn s .spare).length + 256 * (logicalUnplaced s).length + 65536 * (tilesIn s .retired).length
  | .pwr, 0x0B0 =>
    let tag := bits (regW s pg 0x0AC).toNat 7 0
    min 0xFFFF (demOf s tag / 2 ^ 20) + 2 ^ 31 * b2n (tagLearned s tag)
  | .thm, 0x088 =>
    let k := bits (regW s pg 0x084).toNat 7 0
    if answers s i.die k then rawTemp s i.die k + 256 else 0
  | .gde, 0x080 =>
    w / 256 * 256 + (((List.range 4).filter (fun d => dutyOf s d == i.die)).map (fun d => 2 ^ d)).sum + 16 * b2n (s.guide.dev == i.die)
  | .sec, _ =>
    if 0x100 ≤ o && o ≤ 0x11C then
      let k := (o - 0x100) / 4
      ((List.range 32).map (fun j => if thas s.keys (32 * k + j) || 32 * k + j = 0 then 2 ^ j else 0)).sum
    else w
  | _, _ => w

/-- A staged stopped-only register reads its staged value in STOPPED (R46). -/
def stagedN (s : State) (pg o : Nat) : Option Nat :=
  if (blk s pg).st = .stopped then (tget? (blk s pg).staged o).map (·.toNat) else none

/-- Registers that answer in SPARE and FAILED (R41). -/
def keptRegs : PT → List Nat
  | .arr => [0x080, 0x084]
  | .tile => [0x0C0, 0x0C4]
  | .l2s => [0x080]
  | _ => []

/-- Does a block-specific register answer in the page's state (R41)? -/
def answersNow (b : Blk) (ty : PT) (o : Nat) : Bool :=
  !b.st.silent || ((b.st == .spare || b.st == .failed) && (keptRegs ty).contains o)

/-- The fields of a register. -/
def fieldsAt (ty : PT) (o : Nat) : List FieldSpec := ty.fields.filter (fun f => f.off ≤ o && o < f.off + 4 * f.n)

/-- WO fields read 0 (R8). -/
def hideWo (ty : PT) (o n : Nat) : Nat := ((fieldsAt ty o).filter (fun f => f.acc = .wo)).foldl (fun n f => setBits n f.hi f.lo 0) n

/-- A block-specific register as a read returns it, in whatever state the page is (R41, R46). -/
def blockN (s : State) (pg : Nat) (i : PageId) (o : Nat) : Nat :=
  if !answersNow (blk s pg) i.ty o then 0
  else hideWo i.ty o (match stagedN s pg o with
    | some n => n
    | none => viewN s pg i o % 2 ^ 32)

/-- A register as a path reads it. -/
def readN (s : State) (p : Path) (pg : Nat) (i : PageId) (o : Nat) : Nat :=
  if o < 0x080 then hdrN s p pg o else if (fieldsAt i.ty o).isEmpty then 0 else blockN s pg i o

/-- A counter or a step count goes on until it is read: local interval counters, and the steps of links and guide cores (R25, R34). -/
def tickRead (s : State) (pg : Nat) (i : PageId) (o : Nat) : State :=
  if !counts s pg then s
  else if o = 0x068 || o = 0x06C then tickLic s pg
  else if (o = 0x070 || o = 0x074) && (i.ty = .gde || i.ty = .fport || i.ty = .nhl) then
    let (f, s1) := takeFree s
    bumpSteps s1 pg (f % 2 ^ 32)
  else s

end Sys2Proof.Machine
end

