-- ==== Sys2Proof/Machine/Debug.lean ====
section
/-!
DEFINITION. Cairn snapshots, error records, debug halts, debug reads and performance counters (R519 to R532).
-/
namespace Sys2Proof.Machine

/-! Triggers (R519). -/

/-- The DBG logic answers: the module is powered and no reset is under way. -/
def dbgOn (s : State) : Bool := fwUp s

/-- TRIG_IN: a falling edge held long enough. -/
def execTrigIn (s : State) : Out := .next (if dbgOn s && regF s pgDbg 0x080 0 0 = 1 then cairnTrigger s 0 0 else s)

/-! Snapshot words (R522). -/

/-- Groups that could issue now. -/
def readyCount (s : State) (t : Nat) : Nat := (readyGroups s t).length

/-- Reservations held on granules of a slice. -/
def resvCount (s : State) (g : Nat) : Nat :=
  (s.resvs.filter (fun r => gslice (256 * r.1) == g || gslice (256 * r.1 + 128) == g)).length

/-- Words 4 to 7 of a page; `a` and `b` are what the spec does not follow from the state: positions and counts inside the block. -/
def snapOwn (s : State) (pg : Nat) (i : PageId) (a b : Nat) : List Nat :=
  let v (o : Nat) : Nat := viewN s pg i o % 2 ^ 32
  let eng : List Nat :=
    let l := (tgetD s.engs i.eng {}).last
    [v 0x084, (l.map (·.1)).getD 0, (l.map (·.2)).getD 0, v 0x080]
  let link (p : Nat) : List Nat :=
    let x := port s p
    [v 0x080, x.retry.length % 4096, ofBytes (x.credits.map (fun c => min c 255)), (x.txSeq + 4095) % 4096]
  match i.ty with
  | .tile =>
    let x := tile s i.tile
    let pc := match x.age with
      | n :: _ => ((tget? x.groups n).map (·.pc)).getD 0
      | [] => 0
    [v 0x080, x.sb.length % 128 + 256 * (readyCount s i.tile % 128), (blk s pg).steps % 2 ^ 32, pc % 2 ^ 32]
  | .arr => [v 0x08C, a % 2 ^ 32, b % 2 ^ 32, 0]
  | .row => [v 0x080, a % 2 ^ 32, 0, 0]
  | .tst => [v 0x080, a % 2 ^ 32, 0, 0]
  | .l2s =>
    let g := 32 * i.die + i.inst
    [v 0x088 % 4096, (slice s g).evb.length % 64, resvCount s g % 128, 0]
  | .hbm => [v 0x084, a % 2 ^ 32, b % 65536, 0]
  | .bel => [v 0x080, v 0x08C, 0, 0]
  | .txg => [v 0x080, v 0x084, 0, 0]
  | .de => eng
  | .ce => eng
  | .fx => eng
  | .me => eng
  | .fport => link i.port
  | .nhl => link 18
  | .pwr => [v 0x09C, v 0x094, v 0x098, 0]
  | .thm => [v 0x080, 0, 0, 0]
  | .gde => [v 0x080, a % 2 ^ 32, 0, 0]
  | _ => [0, 0, 0, 0]

/-- A block latches its eight words, sets HELD and takes the wavefront's SEQ (R520). -/
def snapLatch (s : State) (pg : Nat) (i : PageId) : State :=
  let s1 := if counts s pg then tickLic s pg else s
  let (a, s2) := takeFree s1
  let (b, s3) := takeFree s2
  let words := [hdrN s3 .host pg 0x008, hdrN s3 .host pg 0x018, hdrN s3 .host pg 0x068, hdrN s3 .host pg 0x06C] ++ snapOwn s3 pg i a b
  modBlk s3 pg (fun x => { x with snapHeld := true, snapSeq := regF s3 pgDbg 0x08C 15 0, snapWords := words })

/-! Debug halts (R527). -/

/-- The workgroups of a tile that a halt parks. -/
def haltable (s : State) (t : Nat) : List Nat :=
  ((tile s t).wgs.filter (fun w => w.2.park == .none && !((tile s t).groupsOf w.1).all (fun p => p.2.stat == .finished))).map (·.1)

/-- Every resident workgroup of a logical tile parks with reason DEBUG. -/
def haltTile (s : State) (l : Nat) : State :=
  match physOf s l with
  | none => s
  | some t =>
    let ws := haltable s t
    raise (ws.foldl (fun s w => stopWg s t w rDebug) s) { ring := 0, kind := 0xC2, tag := l, value := ws.length }

/-- A write of DBG_HALT. -/
def dbgHalt (s : State) (v : Nat) : State :=
  if !v.testBit 8 then s
  else if !hasRight s rtHalt then regErr s pgDbg errState 0x09C
  else if bits v 7 0 < 160 then haltTile s (bits v 7 0) else s

/-! The wavefront (R520, R521). -/

/-- WAVEFRONT_ARRIVE: the wavefront reaches a block; it ends when every block that joins or holds a snapshot has been reached. -/
def execWavefrontArrive (page : Nat) (s : State) : Out :=
  .next (match s.wave, pageAt page with
  | some w, some i =>
    if thas w page then s
    else
      let b := blk s page
      let s1 := { s with wave := some (tput w page ()) }
      let s2 := if b.snapHeld then setRegF s1 pgDbg 0x08C 31 18 (min 0x3FFF (regF s1 pgDbg 0x08C 31 18 + 1))
        else if b.snapJoin then snapLatch s1 page i else s1
      let s3 := if i.ty = .tile && regF s2 pgDbg 0x080 3 3 = 1 && hasRight s2 rtHalt then
          (match logOf s2 i.tile with
            | some l => haltTile s2 l
            | none => s2)
        else s2
      if allPages.all (fun pg => thas w pg || pg == page || !((blk s3 pg).snapJoin || (blk s3 pg).snapHeld)) then { s3 with wave := none } else s3
  | _, _ => s)

/-! Error records (R523, R524, R526). -/

/-- Status bits that tell a corrected error. -/
def correctedBit (ty : PT) (bit : Nat) : Bool :=
  (ty == .tile && bit == 12) || ((ty == .tst || ty == .l2s || ty == .hbm) && bit == 8)

/-- ACTION: CORRECTED for a corrected error, RECOMPUTED for HEM_MISMATCH; else what firmware finds it has done, which the spec
does not give for each bit: a free value, but no spare and no retirement for an injected error alone. -/
def actionOf (ty : PT) (r : Report) (free : Nat) : Nat :=
  if correctedBit ty r.bit then 1
  else if ty = .arr && r.bit = 8 then 2
  else if r.inj && !r.also then [0, 1, 2, 5, 6].getD (free % 5) 0
  else free % 7

/-- The third uncorrectable error of a register file or a tile store within 86,400 s (R478); the time is not kept, so whether
the window still holds is free. -/
def ueTrigger (s : State) (ty : PT) (t : Nat) (r : Report) : State :=
  if r.inj && !r.also then s
  else
    let (f, s1) := takeFree s
    let g := s1.guide
    if ty = .tile && r.bit = 13 then
      let n := tgetD g.regUe t 0 + 1
      let s2 := setGuide s1 { g with regUe := tput g.regUe t n }
      if n ≥ 3 && f % 2 = 0 then setTrig s2 t 2 else s2
    else if ty = .tst && r.bit = 9 then
      let n := tgetD g.storeUe t 0 + 1
      let s2 := setGuide s1 { g with storeUe := tput g.storeUe t n }
      if n ≥ 3 && f % 2 = 0 then setTrig s2 t 3 else s2
    else s

/-- The 64 bytes of a record. -/
def recordOf (r : Report) (n count action : Nat) : List Nat :=
  toBytes 4 n ++ toBytes 4 (blkId r.page) ++ toBytes 4 r.stat ++ toBytes 4 (r.bit + 256 * b2n r.inj + 512 * b2n (r.inj && r.also) + 65536 * action) ++
    toBytes 8 r.addr ++ toBytes 8 r.lic ++ toBytes 4 count ++ toBytes 4 r.cairn ++ List.replicate 24 0

/-- ERROR_LOG_WRITE: the oldest report becomes a record of the error log, and firmware acts on it. -/
def execErrorLogWrite (s : State) : Out :=
  .next (match s.reports with
  | [] => s
  | r :: rest =>
    match pageAt r.page with
    | none => { s with reports := rest }
    | some i =>
      if !dutyUp s i.die then s
      else
        let n := (s.records + 1) % 2 ^ 32
        let a := regPair s pgDbg 0x090 + 64 * (s.records % 4096)
        if virtHeld s (agDie 0) 0 0 a 64 .write then s
        else
        let (f, s1) := takeFree { s with reports := rest, records := s.records + 1 }
        let act := actionOf i.ty r f
        let count := (blk s1 r.page).errCnt
        let s2 := modBlk s1 r.page (fun b => { b with errCnt := 0 })
        let s3 := (writeVirt s2 (agDie 0) 0 0 a (recordOf r n count act) false none 0 .none).2
        let s4 := setReg s3 pgDbg 0x098 (BitVec.ofNat 32 n)
        let s5 := if act = 0 || act = 1 then s4 else raise s4 { ring := 0, kind := 0xC1, tag := n, value := r.addr, info := blkId r.page }
        ueTrigger s5 i.ty i.tile r)

/-! Debug reads (R528). -/

/-- A commit of DBG_MADDR has an effect: the token gives MEMREAD, and no read is in progress. -/
def dbgMayRead (s : State) : Bool := hasRight s rtMemread && !dbgBusy s

/-! Performance counters (R529, R531). -/

/-- A write of PERF_CTL.CLEAR. -/
def perfClear (s : State) (t : Nat) : State := modTile s t (fun x => { x with perf := [] })

end Sys2Proof.Machine
end

