-- ==== Sys2Proof/Machine/MemSlot.lean ====
section
/-!
DEFINITION. The memory slot and the array slot of a bundle (R106 to R111): each command is a bundle that holds this one operation.
-/
namespace Sys2Proof.Machine

/-- LD: codes 0x00 to 0x06, sizes by sz (R106, R108). -/
def execLd (g : GRef) (sz : BitVec 3) (d : BitVec 8) (a : BitVec 8) (b : BitVec 5) (s : State) : Out := issueM s g ⟨0x00 + sz.toNat, d.toNat, a.toNat, b.toNat⟩

/-- LDW: workgroup memory load, codes 0x08 to 0x0E (R106, R108). -/
def execLdw (g : GRef) (sz : BitVec 3) (d : BitVec 8) (a : BitVec 8) (b : BitVec 5) (s : State) : Out := issueM s g ⟨0x08 + sz.toNat, d.toNat, a.toNat, b.toNat⟩

/-- ST: codes 0x10 to 0x14 (R106, R108). -/
def execSt (g : GRef) (sz : BitVec 3) (d : BitVec 8) (a : BitVec 8) (b : BitVec 5) (s : State) : Out := issueM s g ⟨0x10 + sz.toNat, d.toNat, a.toNat, b.toNat⟩

/-- STW: workgroup memory store, codes 0x18 to 0x1C (R106, R108). -/
def execStw (g : GRef) (sz : BitVec 3) (d : BitVec 8) (a : BitVec 8) (b : BitVec 5) (s : State) : Out := issueM s g ⟨0x18 + sz.toNat, d.toNat, a.toNat, b.toNat⟩

/-- ATOM of kind R109, returning the old value. -/
def execAtom (g : GRef) (kind : BitVec 4) (d : BitVec 8) (a : BitVec 8) (b : BitVec 5) (s : State) : Out := issueM s g ⟨0x20 + kind.toNat, d.toNat, a.toNat, b.toNat⟩

/-- ATOMN: as ATOM, with no return (R106). -/
def execAtomn (g : GRef) (kind : BitVec 4) (d : BitVec 8) (a : BitVec 8) (b : BitVec 5) (s : State) : Out := issueM s g ⟨0x30 + kind.toNat, d.toNat, a.toNat, b.toNat⟩

/-- ATOMW: in workgroup memory (R106). -/
def execAtomw (g : GRef) (kind : BitVec 4) (d : BitVec 8) (a : BitVec 8) (b : BitVec 5) (s : State) : Out := issueM s g ⟨0x40 + kind.toNat, d.toNat, a.toNat, b.toNat⟩

/-- ATOMWN: in workgroup memory, with no return (R106). -/
def execAtomwn (g : GRef) (kind : BitVec 4) (d : BitVec 8) (a : BitVec 8) (b : BitVec 5) (s : State) : Out := issueM s g ⟨0x50 + kind.toNat, d.toNat, a.toNat, b.toNat⟩

/-- LDR: reserved load of 4 or 8 B (R106, R281). -/
def execLdr (g : GRef) (wide : Bool) (d : BitVec 8) (a : BitVec 8) (b : BitVec 5) (s : State) : Out := issueM s g ⟨if wide then 0x61 else 0x60, d.toNat, a.toNat, b.toNat⟩

/-- STC: conditional store of 4 or 8 B (R106, R282). -/
def execStc (g : GRef) (wide : Bool) (d : BitVec 8) (a : BitVec 8) (b : BitVec 5) (s : State) : Out := issueM s g ⟨if wide then 0x63 else 0x62, d.toNat, a.toNat, b.toNat⟩

/-- FENCE with a scope (R110, R278). -/
def execFence (g : GRef) (scope : BitVec 3) (s : State) : Out := issueM s g ⟨0x64, scope.toNat, 0, 0⟩

/-- INVL1 (R110, R230). -/
def execInvl1 (g : GRef) (s : State) : Out := issueM s g ⟨0x65, 0, 0, 0⟩

/-- PREF (R110). -/
def execPref (g : GRef) (a : BitVec 8) (b : BitVec 5) (s : State) : Out := issueM s g ⟨0x66, 0, a.toNat, b.toNat⟩

/-- ZLINE (R110, R233). -/
def execZline (g : GRef) (a : BitVec 8) (b : BitVec 5) (s : State) : Out := issueM s g ⟨0x67, 0, a.toNat, b.toNat⟩

/-- SIGNAL adds sD to the counter at sB (R110, R290). -/
def execSignal (g : GRef) (d : BitVec 5) (b : BitVec 5) (s : State) : Out := issueM s g ⟨0x68, d.toNat, 0, b.toNat⟩

/-- PWAIT: a park-wait for the counter at sB to reach sD (R110, R297). -/
def execPwait (g : GRef) (d : BitVec 5) (b : BitVec 5) (s : State) : Out := issueM s g ⟨0x69, d.toNat, 0, b.toNat⟩

/-- TXBIND to the handle in sD (R110, R311). -/
def execTxbind (g : GRef) (d : BitVec 5) (s : State) : Out := issueM s g ⟨0x6A, d.toNat, 0, 0⟩

/-- TXUNBIND (R110, R311). -/
def execTxunbind (g : GRef) (s : State) : Out := issueM s g ⟨0x6B, 0, 0, 0⟩

/-- ARR: the array command in sR to sR + 3 (R111, R122). -/
def execArr (g : GRef) (sr : BitVec 5) (s : State) : Out := issueA s g ⟨1, sr.toNat⟩

/-- ROW: the row engine command in sR and sR + 1 (R111, R181). -/
def execRow (g : GRef) (sr : BitVec 5) (s : State) : Out := issueA s g ⟨2, sr.toNat⟩

end Sys2Proof.Machine
end

