-- ==== Sys2Proof/Machine/Regs.lean ====
section
/-!
DEFINITION. Accesses of the register aperture (R7 to R11, R37 to R54, R440, R533 to R536): the write and the read of a register,
and the commands that are one.
-/
namespace Sys2Proof.Machine

/-! Reserved values (R47). -/

/-- Detectors of a page (R525). -/
def PT.dets : PT → List Nat
  | .tile => [1, 2, 3]
  | .ce => [3]
  | .tst => [1, 2]
  | .l1c => [1]
  | .arr => [1, 2]
  | .row => [1, 2]
  | .l2s => [1, 2, 3]
  | .hbm => [1, 2]
  | .xlt => [1]
  | .bel => [1, 2]
  | .txg => [1]
  | .fport => [1, 2, 3, 4]
  | .nhl => [1, 2, 3]
  | .pwr => [1]
  | .thm => [1, 2]
  | .gde => [1]
  | .sec => [1]
  | _ => []

/-- A value that the field's table calls reserved. -/
def reservedVal (ty : PT) (o : Nat) (f : FieldSpec) (v : Nat) : Bool :=
  match ty, o, f.lo with
  | .tile, 0x088, 0 => v < 16
  | .tile, 0x08C, 0 => v = 3
  | .arr, 0x080, _ => 130 ≤ v && v ≤ 254
  | .arr, 0x084, 0 => 130 ≤ v && v ≤ 254
  | .arr, 0x088, 0 => v = 3
  | .arr, 0x088, 8 => v < 16 || v > 23
  | .tst, 0x080, 0 => v > 128
  | .l2s, 0x084, 0 => v > 16
  | .hbm, 0x080, 0 => 1 ≤ v && v ≤ 59
  | .fport, 0x0A0, 0 => v > 8
  | .nhl, 0x0A0, 0 => v > 8
  | .pwr, 0x090, 0 => v > 30
  | .dev, 0x400, 0 => v ≥ 160
  | _, _, _ => false

/-! The common header. -/

/-- Every long operation but those of the management engine ends through here (R51). -/
def longOpEnds (s : State) (pg res : Nat) : State :=
  if !(blk s pg).opRun then s
  else match pageAt pg with
  | none => s
  | some i => match i.ty with
    | .l2s => opOver (if res = 1 then waySwapDone s (32 * i.die + i.inst) else swapGoes s (32 * i.die + i.inst)) pg res
    | .sec => keyDone s res
    | .gde => if res = 1 then fwDone s i.die else fwFailed s i.die res
    | .me => s
    | _ => opOver s pg res

/-- The operation that the management engine shows is cancelled: SELFTEST goes through its own steps (R493), any other ends. -/
def meCancel (s : State) (e : Nat) : State :=
  match (engCmds s e).find? (fun c => c.op.isSome && c.res.isNone && c.op == oldestOp s e) with
  | none => s
  | some c =>
    if c.opc = 0x92 then modCmd s c.q c.serial (fun c => { c with asked := some 0x40 })
    else opFinish s c.q c.serial csAborted 3

/-- CANCEL_OP (R44, R51). -/
def ctlCancel (s : State) (p : Path) (pg : Nat) : State :=
  let b := blk s pg
  if !b.opRun then ctlReject s p pg rsWrongState 0x00C
  else if !isGc p && b.opBy ≠ some p then ctlReject s p pg rsNotPermitted 0x00C
  else
    let s1 := setResp s p pg rsAccepted
    match pageAt pg with
    | some ⟨.me, _, d⟩ => meCancel s1 (40 + d)
    | _ => longOpEnds s1 pg 3

/-- A write of BLK_CTRL.REQ. -/
def ctlReq (s : State) (p : Path) (pg r : Nat) : State :=
  match r with
  | 0 => s
  | 1 => ctlStop s p pg
  | 2 => ctlRestart s p pg
  | 3 => ctlDiscard s p pg
  | 4 => ctlCancel s p pg
  | 5 => ctlTake s p pg
  | 6 => ctlWithdraw s p pg
  | _ => ctlReject s p pg rsInvalid 0x00C

/-- A write of BLK_INJ_CTRL (R54). -/
def injCtrl (s : State) (pg v : Nat) : State :=
  let arm := v.testBit 0
  let s1 := modBlk s pg (fun b => { b with
    injRepeat := v.testBit 1, injFired := b.injFired && !v.testBit 2, injArm := arm && permit s })
  if arm && !permit s then regErr (modBlk s1 pg (fun b => { b with injArm := false })) pg errState 0x034 else s1

/-- A write of a header register. -/
def hdrWrite (s : State) (p : Path) (pg : Nat) (i : PageId) (o v : Nat) : State :=
  match o with
  | 0x00C => ctlReq s p pg (bits v 3 0)
  | 0x018 => modBlk s pg (fun b => { b with errStat := b.errStat &&& ~~~(BitVec.ofNat 32 v) }.errTidy)
  | 0x01C => modBlk s pg (fun b => { b with errMask := BitVec.ofNat 32 v }.errTidy)
  | 0x030 => if i.ty.dets.contains (bits v 7 0) then modBlk s pg (fun b => { b with injSel := bits v 7 0 }) else regErr s pg errRsvd 0x030
  | 0x034 => injCtrl s pg v
  | 0x040 => modBlk s pg (fun b => { b with snapJoin := v.testBit 0, snapHeld := b.snapHeld && !v.testBit 2 })
  | _ => s

/-! Block-specific registers. -/

/-- Registers that a write from the host window does not change (R148, R266, R359). -/
def hostIgnored (ty : PT) (o : Nat) : Bool :=
  (ty == .xlt && (o == 0x080 || o == 0x084)) || (ty == .me && 0x0A0 ≤ o && o ≤ 0x0AC) || (ty == .arr && o == 0x090)

/-- WO registers whose content the block keeps. -/
def keepsWo (ty : PT) (o : Nat) : Bool := ty == .sec && ((0x0C0 ≤ o && o ≤ 0x0FC) || (0x140 ≤ o && o ≤ 0x1BC))

/-- The fields of a register that a write reaches; the host link has no ENC and no REKEY (R438). -/
def writable (ty : PT) (o : Nat) : List FieldSpec :=
  (fieldsAt ty o).filter (fun f => !(ty == .nhl && o == 0x088 && f.lo ≤ 1) && (match f.acc with
    | .ro => false
    | .rc => false
    | _ => true))

/-- What a field holds after a write of `v`. PERF_SEL is written counter by counter: an event that is reserved leaves its
counter's field. -/
def fieldNew (ty : PT) (o : Nat) (f : FieldSpec) (old v : Nat) : Nat :=
  if ty = .tile && o = 0x0C8 then
    (List.range 4).foldl (fun n c => let e := bits v (8 * c + 7) (8 * c); if e ≤ 0x10 then setBits n (8 * c + 7) (8 * c) e else n) old
  else match f.acc with
    | .w1c => andNot old v
    | .w1s => Nat.lor old v
    | _ => v

/-- A written value is reserved in some field. -/
def fieldRsvd (ty : PT) (o : Nat) (f : FieldSpec) (v : Nat) : Bool :=
  if ty = .tile && o = 0x0C8 then (List.range 4).any (fun c => bits v (8 * c + 7) (8 * c) > 0x10) else reservedVal ty o f v

/-- One field of a write. -/
def fieldWrite (pg : Nat) (i : PageId) (o v : Nat) (s : State) (f : FieldSpec) : State :=
  let fv := bits v f.hi f.lo
  let b := blk s pg
  if reservedVal i.ty o f fv then s
  else if f.so then
    (if b.st = .stopped then
      modBlk s pg (fun b => { b with staged := tput b.staged o (putFld ((tget? b.staged o).getD (regW s pg o)) f.hi f.lo fv) })
     else s)
  else if f.acc = .wo then (if keepsWo i.ty o then setReg s pg o (BitVec.ofNat 32 v) else s)
  else if o = 0x0F0 && hasNoise pg && f.lo = 16 && fv = 1 && !permit s then setRegF s pg o 16 16 0
  else setRegF s pg o f.hi f.lo (fieldNew i.ty o f (regF s pg o f.hi f.lo) fv)

/-- The errors of a write: a reserved value, a stopped-only field outside STOPPED, NOISE.FIXED without PERMIT. A word that holds a
live field and stopped-only ones, such as FPORT_CTL with REKEY and RETRAIN, sets REG_STATE outside STOPPED although it leaves the
stopped-only fields as they are: R47 does not say whether an unchanged value is a write (DESIGN CHOICE). -/
def writeErrors (s : State) (pg : Nat) (i : PageId) (o v : Nat) (fs : List FieldSpec) : State :=
  let s1 := if fs.any (fun f => fieldRsvd i.ty o f (bits v f.hi f.lo)) then regErr s pg errRsvd o else s
  let bad := (fs.any (·.so) && (blk s pg).st ≠ .stopped) || (o = 0x0F0 && hasNoise pg && v.testBit 16 && !permit s)
  if bad then regErr s1 pg errState o else s1

/-- Every field of a register is written; bit 0 of DOM_IMPORT_0 stays 0. -/
def fieldsWrite (s : State) (pg : Nat) (i : PageId) (o v : Nat) : State :=
  let v := if i.ty = .dev && o = 0x200 then v - v % 2 else v
  let fs := writable i.ty o
  writeErrors (fs.foldl (fieldWrite pg i o v) s) pg i o v fs

/-- What the write of a register does in the block. -/
def regHook (s : State) (p : Path) (i : PageId) (o v : Nat) : State :=
  match i.ty, o with
  | .tile, 0x0CC => if v.testBit 2 then perfClear s i.tile else s
  | .arr, 0x090 => arrCtrl s i.tile v
  | .l2s, 0x084 => if bits v 4 0 ≤ 16 then waySwap s (32 * i.die + i.inst) (bits v 4 0) (some p) else s
  | .fport, 0x088 =>
    let q := i.port
    let s1 := if v.testBit 1 && portOn s q && linkState s q = lkUp && encOn s q && (port s q).keyx.isNone then sendKeyx s q else s
    if v.testBit 2 then startRetrain s1 q else s1
  | .nhl, 0x088 => if v.testBit 2 then startRetrain s 18 else s
  | .nhl, 0x0D0 => ringCtl s v
  | .nhl, 0x0D4 => ringCons s v
  | .sec, 0x088 => keyctl s (some p) v
  | .sec, 0x09C => secDbg s v
  | .gde, 0x08C => fwStart s i.die (some p)
  | .dbg, 0x088 => if v.testBit 0 then cairnTrigger s 1 0 else s
  | .dbg, 0x09C => dbgHalt s v
  | .dbg, 0x0A4 => dbgLine s
  | _, _ => s

/-- A pair whose halves software writes. -/
def rwPair (ty : PT) (o : Nat) : Bool := !(writable ty o).isEmpty

/-- The low half of a pair is staged (R10): in STOPPED only where the pair is stopped-only (R46, R47). -/
def lowStage (s : State) (pg : Nat) (i : PageId) (o v : Nat) : State :=
  let w := BitVec.ofNat 32 v
  if i.ty.soPairs.contains o then
    (if (blk s pg).st = .stopped then modBlk s pg (fun b => { b with pairStage := tput b.pairStage o w }) else regErr s pg errState o)
  else modBlk s pg (fun b => { b with pairStage := tput b.pairStage (4096 + o) w })

/-- The high half commits both (R10, R11). -/
def highCommit (s : State) (pg : Nat) (i : PageId) (o v : Nat) : State :=
  let lo := o - 4
  let key := if i.ty.soPairs.contains lo then lo else 4096 + lo
  let s1 := match tget? (blk s pg).pairStage key with
    | some w => fieldsWrite (modBlk s pg (fun b => { b with pairStage := tdel b.pairStage key })) pg i lo w.toNat
    | none => s
  fieldsWrite s1 pg i o v

/-- A write of a block-specific register. -/
def blockWrite (s : State) (p : Path) (pg : Nat) (i : PageId) (o v : Nat) : State :=
  let b := blk s pg
  if (fieldsAt i.ty o).isEmpty then s
  else if b.st.silent && !(isGc p && i.ty == .arr && (o == 0x080 || o == 0x084) && (b.st == .spare || b.st == .failed)) then
    regErr s pg errState o
  else if !isGc p && hostIgnored i.ty o then s
  else if i.ty = .dbg && o = 0x0A4 && !dbgMayRead s then regErr s pg errState o
  else if i.ty = .pwr && o = 0x080 then capWrite s v
  else if i.ty = .pwr && o = 0x084 then vceilWrite s v
  else if isLow i.ty o then (if rwPair i.ty o then lowStage s pg i o v else s)
  else if isHigh i.ty o then (if rwPair i.ty o then regHook (highCommit s pg i o v) p i o v else s)
  else regHook (fieldsWrite s pg i o v) p i o v

/-! The aperture. -/

/-- The access path works: the host-side function is READY (R447), or the cluster runs. -/
def pathUp (s : State) (p : Path) : Bool :=
  match p with
  | .host => hostReady s
  | .gc d => fwUp s && clusterUp s d.val

/-- An access with a tag other than 0 (R440). -/
def tagReject (s : State) (off : Nat) : State := errSet (bumpF s pgNhl 0x0DC 31 16 1) pgNhl 8 off

/-- A write of the register aperture: offset, size in bytes, value. R7 speaks of accesses narrower than 32 bits or misaligned; the
model treats a wider one in the same way, with no effect and REG_ACCESS set (DESIGN CHOICE). -/
def regWriteNow (s : State) (p : Path) (tag off size v : Nat) : State :=
  if !isGc p && tag ≠ 0 then tagReject s off
  else match pageAt (off / 4096) with
  | none => s
  | some i =>
    let pg := off / 4096
    let o := off % 4096
    if size ≠ 4 || o % 4 ≠ 0 then regErr s pg errAccess o
    else if o < 0x080 then hdrWrite s p pg i o (v % 2 ^ 32)
    else blockWrite s p pg i o (v % 2 ^ 32)

/-- What a read of a register leaves behind: latches of R10 and R52, RC fields cleared. -/
def readEffects (s : State) (p : Path) (pg : Nat) (i : PageId) (o : Nat) : State :=
  let k := pathIx p
  let s1 := if isLow i.ty o then
      modBlk s pg (fun b => { b with pairLatch := tput b.pairLatch (4096 * k + o + 4) (BitVec.ofNat 32 (readN s p pg i (o + 4))) })
    else if isHigh i.ty o then modBlk s pg (fun b => { b with pairLatch := tdel b.pairLatch (4096 * k + o) })
    else s
  match o with
  | 0x010 => modBlk s1 pg (fun b => { b with progLatch := tput b.progLatch k (b.progOpc + 65536 * b.progSer) })
  | 0x014 => modBlk s1 pg (fun b => { b with progLatch := tdel b.progLatch k })
  | 0x024 => modBlk s1 pg (fun b => { b with errCnt := 0 })
  | _ =>
    if o < 0x080 || !answersNow (blk s pg) i.ty o then s1
    else ((fieldsAt i.ty o).filter (fun f => f.acc = .rc)).foldl (fun s f => setRegF s pg o f.hi f.lo 0) s1

/-- A running long operation of a single-operation page has gone on by a free amount as its progress is read, short of its end (R51):
the sets of a way swap, the MiB of a scrub pass, a percentage, the items of an update. -/
def progGoes (s : State) (i : PageId) (pg : Nat) : State :=
  if !(blk s pg).opRun then s
  else match i.ty with
  | .l2s => swapGoes s (32 * i.die + i.inst)
  | .hbm => scrubGoes s (3 * i.die + i.inst)
  | .me => s
  | ty =>
    let (f, s1) := takeFree s
    modBlk s1 pg (fun b => { b with progVal := b.progVal + f % ((if ty = .gde then 5 else 10000) - b.progVal) })

/-- A read of the register aperture: the path's bus takes the value. A wider access than R7 speaks of returns 0xFFFF_FFFF and sets
REG_ACCESS like a narrower one (DESIGN CHOICE). -/
def regReadNow (s : State) (p : Path) (tag off size : Nat) : State :=
  let give (s : State) (n : Nat) : State := { s with bus := tput s.bus (pathIx p) n }
  if !isGc p && tag ≠ 0 then give (tagReject s off) 0xFFFF_FFFF
  else match pageAt (off / 4096) with
  | none => give s 0xFFFF_FFFF
  | some i =>
    let pg := off / 4096
    let o := off % 4096
    if size ≠ 4 || o % 4 ≠ 0 then give (regErr s pg errAccess o) 0xFFFF_FFFF
    else
      let s1 := tickRead (if o = 0x010 then progGoes s i pg else s) pg i o
      let n := match isHigh i.ty o, tget? (blk s1 pg).pairLatch (4096 * pathIx p + o) with
        | true, some w => w.toNat
        | _, _ => readN s1 p pg i o
      give (readEffects s1 p pg i o) n

/-- A read, or a write of a value. -/
def regNow (s : State) (p : Path) (tag off size : Nat) (v : Option Nat) : State :=
  match v with
  | some v => regWriteNow s p tag off size v
  | none => regReadNow s p tag off size

/-- Host accesses that wait are performed in the order issued, those of the register aperture among them (R439). -/
def hostGo : Nat → State → State
  | 0, s => s
  | n + 1, s =>
    let s1 := winResume s
    match s1.hostQ with
    | .reg tag off size v :: t => if hostWrites s1 then s1 else hostGo n (regNow { s1 with hostQ := t } .host tag off size v)
    | _ => s1

def hostDrain (s : State) : State := hostGo s.hostQ.length s

/-- An access of the register aperture by a path. One of the host waits for older accesses of the host: a read of any register
completes only after every older posted write is performed (the host-write recipe). -/
def regAcc (s0 : State) (p : Path) (tag off size : Nat) (v : Option Nat) : State :=
  let s := if isGc p then s0 else hostDrain s0
  if !pathUp s p || off ≥ 2 ^ 28 then s
  else if !isGc p && hostBusy s then hostHold s (.reg tag off size v)
  else regNow s p tag off size v

def regWrite (s : State) (p : Path) (tag off size v : Nat) : State := regAcc s p tag off size (some v)
def regRead (s : State) (p : Path) (tag off size : Nat) : State := regAcc s p tag off size none

/-- A write of one register of a page. -/
def pageWrite (s : State) (p : Path) (tag page o v : Nat) : State := regWrite s p tag (4096 * page + o) 4 v

/-- Is an offset of the aperture the low, or the high, half of a pair? -/
def offLow (off : Nat) : Bool :=
  match pageAt (off / 4096) with
  | some i => isLow i.ty (off % 4096)
  | none => false
def offHigh (off : Nat) : Bool :=
  match pageAt (off / 4096) with
  | some i => isHigh i.ty (off % 4096)
  | none => false

/-! Commands that are an access. -/

def execRegWrite (p : Path) (tag off size v : Nat) (s : State) : Out := .next (regWrite s p tag off size v)
def execRcRead (p : Path) (tag off size : Nat) (s : State) : Out := .next (regRead s p tag off size)
def execPairLowWrite (p : Path) (tag off v : Nat) (s : State) : Out := .next (if offLow off then regWrite s p tag off 4 v else s)
def execPairHighWrite (p : Path) (tag off v : Nat) (s : State) : Out := .next (if offHigh off then regWrite s p tag off 4 v else s)
def execPairLowRead (p : Path) (tag off : Nat) (s : State) : Out := .next (if offLow off then regRead s p tag off 4 else s)
def execBlkProgRead (p : Path) (tag page : Nat) (s : State) : Out := .next (regRead s p tag (4096 * page + 0x010) 4)

def execStop (p : Path) (tag page : Nat) (s : State) : Out := .next (pageWrite s p tag page 0x00C 1)
def execRestart (p : Path) (tag page : Nat) (s : State) : Out := .next (pageWrite s p tag page 0x00C 2)
def execDiscard (p : Path) (tag page : Nat) (s : State) : Out := .next (pageWrite s p tag page 0x00C 3)
def execCancelOp (p : Path) (tag page : Nat) (s : State) : Out := .next (pageWrite s p tag page 0x00C 4)
def execTake (p : Path) (tag page : Nat) (s : State) : Out := .next (pageWrite s p tag page 0x00C 5)
def execWithdraw (p : Path) (tag page : Nat) (s : State) : Out := .next (pageWrite s p tag page 0x00C 6)

def execInjArm (p : Path) (tag page v : Nat) (s : State) : Out := .next (pageWrite s p tag page 0x034 (setBits v 0 0 1))
def execSnapRelease (p : Path) (tag page v : Nat) (s : State) : Out := .next (pageWrite s p tag page 0x040 (setBits v 2 2 1))
def execArrRetry (p : Path) (tag tile : Nat) (s : State) : Out := .next (if tile < 176 then pageWrite s p tag (pgArr tile) 0x090 1 else s)
def execArrPoison (p : Path) (tag tile : Nat) (s : State) : Out := .next (if tile < 176 then pageWrite s p tag (pgArr tile) 0x090 2 else s)
def execWaySwap (p : Path) (tag page v : Nat) (s : State) : Out :=
  .next (match pageAt page with
  | some ⟨.l2s, _, _⟩ => pageWrite s p tag page 0x084 v
  | _ => s)
def execRingEnable (p : Path) (tag v : Nat) (s : State) : Out := .next (pageWrite s p tag pgNhl 0x0D0 (setBits v 8 8 1))
def execRingDisable (p : Path) (tag v : Nat) (s : State) : Out := .next (pageWrite s p tag pgNhl 0x0D0 (setBits v 8 8 0))
def execRconsWrite (p : Path) (tag v : Nat) (s : State) : Out := .next (pageWrite s p tag pgNhl 0x0D4 v)
def execPwrCapWrite (p : Path) (tag v : Nat) (s : State) : Out := .next (pageWrite s p tag pgPwr 0x080 v)
def execPwrVceilWrite (p : Path) (tag v : Nat) (s : State) : Out := .next (pageWrite s p tag pgPwr 0x084 v)
def execFwUpdate (p : Path) (tag die v : Nat) (s : State) : Out := .next (if die < 4 then pageWrite s p tag (pgGde die) 0x08C v else s)
def execKeyLoad (p : Path) (tag v : Nat) (s : State) : Out := .next (pageWrite s p tag pgSec 0x088 (setBits v 9 8 0))
def execKeyGenerate (p : Path) (tag v : Nat) (s : State) : Out := .next (pageWrite s p tag pgSec 0x088 (setBits v 9 8 1))
def execKeyClear (p : Path) (tag v : Nat) (s : State) : Out := .next (pageWrite s p tag pgSec 0x088 (setBits v 9 8 2))
def execDbgSubmit (p : Path) (tag v : Nat) (s : State) : Out := .next (pageWrite s p tag pgSec 0x09C (setBits v 0 0 1))
def execDbgEnd (p : Path) (tag v : Nat) (s : State) : Out := .next (pageWrite s p tag pgSec 0x09C (setBits v 1 1 1))
def execDbgFire (p : Path) (tag v : Nat) (s : State) : Out := .next (pageWrite s p tag pgDbg 0x088 (setBits v 0 0 1))
def execDbgHalt (p : Path) (tag v : Nat) (s : State) : Out := .next (pageWrite s p tag pgDbg 0x09C (setBits v 8 8 1))
def execDbgMemRead (p : Path) (tag v : Nat) (s : State) : Out := .next (pageWrite s p tag pgDbg 0x0A4 v)
def execPerfClear (p : Path) (tag tile v : Nat) (s : State) : Out :=
  .next (if tile < 176 then pageWrite s p tag (pgTile tile) 0x0CC (setBits v 2 2 1) else s)

/-! Events of blocks (R40, R42, R48, R51). -/

/-- BLOCK_STOPPED: the end of STOPPING, and what firmware does next where it has stopped a tile itself. -/
def execBlockStopped (page : Nat) (s : State) : Out :=
  .next (let s1 := stopEnds s page
    match pageAt page with
    | some ⟨.tile, i, d⟩ => replStopped s1 (44 * d + i)
    | _ => s1)

/-- BLOCK_FAULT: a fault is declared; a failed guide cluster hands over its duties, the link of a failed port is down. -/
def execBlockFault (page : Nat) (s : State) : Out :=
  .next (match pageAt page with
  | none => s
  | some i =>
    let st := (blk s page).st
    if st.silent then s
    else match i.ty with
    | .gde => clusterFail s i.die
    | .fport => linkDown (failBlock s page) i.port dnLos
    | .nhl => linkDown (failBlock s page) 18 dnLos
    | _ => failBlock s page)

/-- LONG_OP_END: a long operation ends with its RESULT; on a TILE page, the test of a tile that firmware has taken out. -/
def execLongOpEnd (page result : Nat) (s : State) : Out :=
  .next (if result = 0 || result > 4 then s
  else match pageAt page with
  | some ⟨.tile, i, d⟩ => testEnded s (44 * d + i) (result = 1)
  | _ => longOpEnds s page result)

end Sys2Proof.Machine
end

