-- ==== Sys2Proof/Machine/Reconfig.lean ====
section
/-!
DEFINITION. The management command RECONFIG (R553): stop, change, restart on one block page.
-/
namespace Sys2Proof.Machine

/-- The cluster path that the command acts on. -/
def reconfigPath (s : State) (i : PageId) : Path :=
  match i.ty with
  | .dev => gcPath s.guide.dev
  | .pwr => gcPath s.guide.dev
  | .sec => gcPath s.guide.dev
  | .boot => gcPath s.guide.dev
  | .dbg => gcPath s.guide.dev
  | .nhl => gcPath s.guide.dev
  | _ => gcPath (dutyOf s i.die)

def respOf (s : State) (p : Path) (pg : Nat) : Nat := tgetD (blk s pg).resp (pathIx p) 0

/-- The command ends: INFO holds RESP, the offset of the lowest inconsistent register, and the state. -/
def reconfigEnd (s : State) (c : Cmd) (p : Path) (pg status off : Nat) : State :=
  done s c status (respOf s p pg + 2 ^ 16 * off + 2 ^ 32 * (blk s pg).st.code)

/-- Steps 3 and 4: the pairs in list order, then RESTART, and DISCARD after INVALID. -/
def reconfigApply (s : State) (c : Cmd) (i : PageId) (pg : Nat) : State :=
  let p := reconfigPath s i
  let s1 := c.aux.foldl (fun s x => blockWrite s p pg i x.1 x.2) s
  let off := (stagedBad s1 pg).getD 0
  let s2 := ctlRestart s1 p pg
  match respOf s2 p pg with
  | 0 => reconfigEnd s2 c p pg csComplete 0
  | 3 => reconfigEnd (ctlDiscard s2 p pg) c p pg csReconfig off
  | _ => reconfigEnd s2 c p pg csReconfig 0

/-- RECONFIG: its checks and STOP, then the wait for STOPPED, then the change. -/
def execReconfig (q serial : Nat) (s : State) : Out :=
  onMe q serial 0x93 s (fun c =>
    let off := c.n4 0x18
    let pg := off / 4096
    let n := c.n4 0x28
    match pageAt pg with
    | none => done s c csField 0
    | some i =>
      let p := reconfigPath s i
      if c.ran then
        (match (blk s pg).st with
        | .stopping => s
        | .failed => reconfigEnd s c p pg csReconfig 0
        | _ => reconfigApply s c i pg)
      else if off % 4096 ≠ 0 || off ≥ 2 ^ 28 || n = 0 || n > 256 then done s c csField 0
      else match cmdLines s c .read [(c.n8 0x20, 8 * n)] with
      | .wait s1 => s1
      | .fail o s1 => faulted s1 c o .read
      | .got ls s1 =>
        let ps := (List.range n).map (fun k => let b := gotBytes ls (c.n8 0x20 + 8 * k) 8; (leAt4 b 0, leAt4 b 4))
        if !ps.all (fun x => 0x080 ≤ x.1 && x.1 ≤ 0xFFC && x.1 % 4 == 0) then done s1 c csField 0
        else
          let s2 := ctlStop s1 p pg
          if respOf s2 p pg ≠ 0 then reconfigEnd s2 c p pg csReconfig 0
          else modCmd s2 q serial (fun c => { c with ran := true, aux := ps }))

end Sys2Proof.Machine
end

