-- ==== Sys2Proof/Machine/Vector.lean ====
section
/-!
DEFINITION. The vector slot of a bundle (R100 to R105): each command is a bundle that holds this one operation.
-/
namespace Sys2Proof.Machine

/-- D = A x B + D with one rounding (R101). -/
def execFmaF32 (g : GRef) (d : BitVec 8) (a : BitVec 8) (b : BitVec 8) (lit : BitVec 32) (s : State) : Out := issueV s g (.vr 0 d.toNat a.toNat b.toNat) lit.toNat

/-- two BF16 fused multiply-adds in the halves (R101). -/
def execFmaBf2 (g : GRef) (d : BitVec 8) (a : BitVec 8) (b : BitVec 8) (lit : BitVec 32) (s : State) : Out := issueV s g (.vr 1 d.toNat a.toNat b.toNat) lit.toNat

/-- FP32 product (R101). -/
def execMulF32 (g : GRef) (d : BitVec 8) (a : BitVec 8) (b : BitVec 8) (lit : BitVec 32) (s : State) : Out := issueV s g (.vr 2 d.toNat a.toNat b.toNat) lit.toNat

/-- FP32 sum (R101). -/
def execAddF32 (g : GRef) (d : BitVec 8) (a : BitVec 8) (b : BitVec 8) (lit : BitVec 32) (s : State) : Out := issueV s g (.vr 3 d.toNat a.toNat b.toNat) lit.toNat

/-- FP32 difference (R101). -/
def execSubF32 (g : GRef) (d : BitVec 8) (a : BitVec 8) (b : BitVec 8) (lit : BitVec 32) (s : State) : Out := issueV s g (.vr 4 d.toNat a.toNat b.toNat) lit.toNat

/-- sum modulo 2^32 (R101). -/
def execAddI32 (g : GRef) (d : BitVec 8) (a : BitVec 8) (b : BitVec 8) (lit : BitVec 32) (s : State) : Out := issueV s g (.vr 5 d.toNat a.toNat b.toNat) lit.toNat

/-- difference modulo 2^32 (R101). -/
def execSubI32 (g : GRef) (d : BitVec 8) (a : BitVec 8) (b : BitVec 8) (lit : BitVec 32) (s : State) : Out := issueV s g (.vr 6 d.toNat a.toNat b.toNat) lit.toNat

/-- product modulo 2^32 (R101). -/
def execMulI32 (g : GRef) (d : BitVec 8) (a : BitVec 8) (b : BitVec 8) (lit : BitVec 32) (s : State) : Out := issueV s g (.vr 7 d.toNat a.toNat b.toNat) lit.toNat

/-- FP32 minimum (R102). -/
def execMinF32 (g : GRef) (d : BitVec 8) (a : BitVec 8) (lit : BitVec 32) (s : State) : Out := issueV s g (.vx 0x0 0 d.toNat a.toNat) lit.toNat

/-- FP32 maximum (R102). -/
def execMaxF32 (g : GRef) (d : BitVec 8) (a : BitVec 8) (lit : BitVec 32) (s : State) : Out := issueV s g (.vx 0x1 0 d.toNat a.toNat) lit.toNat

/-- signed minimum (R102). -/
def execMinS32 (g : GRef) (d : BitVec 8) (a : BitVec 8) (lit : BitVec 32) (s : State) : Out := issueV s g (.vx 0x2 0 d.toNat a.toNat) lit.toNat

/-- signed maximum (R102). -/
def execMaxS32 (g : GRef) (d : BitVec 8) (a : BitVec 8) (lit : BitVec 32) (s : State) : Out := issueV s g (.vx 0x3 0 d.toNat a.toNat) lit.toNat

/-- unsigned minimum (R102). -/
def execMinU32 (g : GRef) (d : BitVec 8) (a : BitVec 8) (lit : BitVec 32) (s : State) : Out := issueV s g (.vx 0x4 0 d.toNat a.toNat) lit.toNat

/-- unsigned maximum (R102). -/
def execMaxU32 (g : GRef) (d : BitVec 8) (a : BitVec 8) (lit : BitVec 32) (s : State) : Out := issueV s g (.vx 0x5 0 d.toNat a.toNat) lit.toNat

/-- bitwise and (R102). -/
def execAndV (g : GRef) (d : BitVec 8) (a : BitVec 8) (lit : BitVec 32) (s : State) : Out := issueV s g (.vx 0x6 0 d.toNat a.toNat) lit.toNat

/-- bitwise or (R102). -/
def execOrV (g : GRef) (d : BitVec 8) (a : BitVec 8) (lit : BitVec 32) (s : State) : Out := issueV s g (.vx 0x7 0 d.toNat a.toNat) lit.toNat

/-- bitwise exclusive or (R102). -/
def execXorV (g : GRef) (d : BitVec 8) (a : BitVec 8) (lit : BitVec 32) (s : State) : Out := issueV s g (.vx 0x8 0 d.toNat a.toNat) lit.toNat

/-- shift left by A[4:0] (R102). -/
def execShlV (g : GRef) (d : BitVec 8) (a : BitVec 8) (lit : BitVec 32) (s : State) : Out := issueV s g (.vx 0x9 0 d.toNat a.toNat) lit.toNat

/-- logical shift right by A[4:0] (R102). -/
def execShrV (g : GRef) (d : BitVec 8) (a : BitVec 8) (lit : BitVec 32) (s : State) : Out := issueV s g (.vx 0xA 0 d.toNat a.toNat) lit.toNat

/-- arithmetic shift right by A[4:0] (R102). -/
def execSarV (g : GRef) (d : BitVec 8) (a : BitVec 8) (lit : BitVec 32) (s : State) : Out := issueV s g (.vx 0xB 0 d.toNat a.toNat) lit.toNat

/-- D = A (R102). -/
def execMovV (g : GRef) (d : BitVec 8) (a : BitVec 8) (lit : BitVec 32) (s : State) : Out := issueV s g (.vx 0x17 0 d.toNat a.toNat) lit.toNat

/-- D of a lane = A of the lane D names, modulo the width (R102). -/
def execShflIdx (g : GRef) (d : BitVec 8) (a : BitVec 8) (lit : BitVec 32) (s : State) : Out := issueV s g (.vx 0x1C 0 d.toNat a.toNat) lit.toNat

/-- sign bit cleared (R102). -/
def execAbsF32 (g : GRef) (d : BitVec 8) (a : BitVec 8) (lit : BitVec 32) (s : State) : Out := issueV s g (.vx 0x1E 0 d.toNat a.toNat) lit.toNat

/-- sign bit inverted (R102). -/
def execNegF32 (g : GRef) (d : BitVec 8) (a : BitVec 8) (lit : BitVec 32) (s : State) : Out := issueV s g (.vx 0x1F 0 d.toNat a.toNat) lit.toNat

/-- EXP2, long latency (R102, R103). -/
def execExp2 (g : GRef) (d : BitVec 8) (a : BitVec 8) (lit : BitVec 32) (s : State) : Out := issueV s g (.vx 0x28 0 d.toNat a.toNat) lit.toNat

/-- LOG2, long latency (R102, R103). -/
def execLog2 (g : GRef) (d : BitVec 8) (a : BitVec 8) (lit : BitVec 32) (s : State) : Out := issueV s g (.vx 0x29 0 d.toNat a.toNat) lit.toNat

/-- RCP, long latency (R102, R103). -/
def execRcp (g : GRef) (d : BitVec 8) (a : BitVec 8) (lit : BitVec 32) (s : State) : Out := issueV s g (.vx 0x2A 0 d.toNat a.toNat) lit.toNat

/-- RSQ, long latency (R102, R103). -/
def execRsq (g : GRef) (d : BitVec 8) (a : BitVec 8) (lit : BitVec 32) (s : State) : Out := issueV s g (.vx 0x2B 0 d.toNat a.toNat) lit.toNat

/-- SQRT, long latency (R102, R103). -/
def execSqrtV (g : GRef) (d : BitVec 8) (a : BitVec 8) (lit : BitVec 32) (s : State) : Out := issueV s g (.vx 0x2C 0 d.toNat a.toNat) lit.toNat

/-- SIN, long latency (R102, R103). -/
def execSinV (g : GRef) (d : BitVec 8) (a : BitVec 8) (lit : BitVec 32) (s : State) : Out := issueV s g (.vx 0x2D 0 d.toNat a.toNat) lit.toNat

/-- COS, long latency (R102, R103). -/
def execCosV (g : GRef) (d : BitVec 8) (a : BitVec 8) (lit : BitVec 32) (s : State) : Out := issueV s g (.vx 0x2E 0 d.toNat a.toNat) lit.toNat

/-- cmpEqF32: predicate X takes the compare of D and A in the active lanes (R102). -/
def execCmpEqF32 (g : GRef) (x : BitVec 5) (d : BitVec 8) (a : BitVec 8) (lit : BitVec 32) (s : State) : Out := issueV s g (.vx 0xC x.toNat d.toNat a.toNat) lit.toNat

/-- cmpLtF32: predicate X takes the compare of D and A in the active lanes (R102). -/
def execCmpLtF32 (g : GRef) (x : BitVec 5) (d : BitVec 8) (a : BitVec 8) (lit : BitVec 32) (s : State) : Out := issueV s g (.vx 0xD x.toNat d.toNat a.toNat) lit.toNat

/-- cmpLeF32: predicate X takes the compare of D and A in the active lanes (R102). -/
def execCmpLeF32 (g : GRef) (x : BitVec 5) (d : BitVec 8) (a : BitVec 8) (lit : BitVec 32) (s : State) : Out := issueV s g (.vx 0xE x.toNat d.toNat a.toNat) lit.toNat

/-- cmpNeF32: predicate X takes the compare of D and A in the active lanes (R102). -/
def execCmpNeF32 (g : GRef) (x : BitVec 5) (d : BitVec 8) (a : BitVec 8) (lit : BitVec 32) (s : State) : Out := issueV s g (.vx 0xF x.toNat d.toNat a.toNat) lit.toNat

/-- cmpEqI32: predicate X takes the compare of D and A in the active lanes (R102). -/
def execCmpEqI32 (g : GRef) (x : BitVec 5) (d : BitVec 8) (a : BitVec 8) (lit : BitVec 32) (s : State) : Out := issueV s g (.vx 0x10 x.toNat d.toNat a.toNat) lit.toNat

/-- cmpLtS32: predicate X takes the compare of D and A in the active lanes (R102). -/
def execCmpLtS32 (g : GRef) (x : BitVec 5) (d : BitVec 8) (a : BitVec 8) (lit : BitVec 32) (s : State) : Out := issueV s g (.vx 0x11 x.toNat d.toNat a.toNat) lit.toNat

/-- cmpLeS32: predicate X takes the compare of D and A in the active lanes (R102). -/
def execCmpLeS32 (g : GRef) (x : BitVec 5) (d : BitVec 8) (a : BitVec 8) (lit : BitVec 32) (s : State) : Out := issueV s g (.vx 0x12 x.toNat d.toNat a.toNat) lit.toNat

/-- cmpNeI32: predicate X takes the compare of D and A in the active lanes (R102). -/
def execCmpNeI32 (g : GRef) (x : BitVec 5) (d : BitVec 8) (a : BitVec 8) (lit : BitVec 32) (s : State) : Out := issueV s g (.vx 0x13 x.toNat d.toNat a.toNat) lit.toNat

/-- cmpLtU32: predicate X takes the compare of D and A in the active lanes (R102). -/
def execCmpLtU32 (g : GRef) (x : BitVec 5) (d : BitVec 8) (a : BitVec 8) (lit : BitVec 32) (s : State) : Out := issueV s g (.vx 0x14 x.toNat d.toNat a.toNat) lit.toNat

/-- cmpLeU32: predicate X takes the compare of D and A in the active lanes (R102). -/
def execCmpLeU32 (g : GRef) (x : BitVec 5) (d : BitVec 8) (a : BitVec 8) (lit : BitVec 32) (s : State) : Out := issueV s g (.vx 0x15 x.toNat d.toNat a.toNat) lit.toNat

/-- D = A in the active lanes whose bit of predicate X is 1 (R102). -/
def execSel (g : GRef) (x : BitVec 5) (d : BitVec 8) (a : BitVec 8) (lit : BitVec 32) (s : State) : Out := issueV s g (.vx 0x16 x.toNat d.toNat a.toNat) lit.toNat

/-- D = the low word of uniform register X in every active lane (R102). -/
def execBcast (g : GRef) (d : BitVec 8) (x : BitVec 5) (s : State) : Out := issueV s g (.vx 0x18 x.toNat d.toNat 0) 0

/-- uniform register X = A of the lowest active lane, zero-extended (R102). -/
def execReadlane (g : GRef) (x : BitVec 5) (a : BitVec 8) (lit : BitVec 32) (s : State) : Out := issueV s g (.vx 0x19 x.toNat 0 a.toNat) lit.toNat

/-- D = the lane number (R102). -/
def execLane (g : GRef) (d : BitVec 8) (s : State) : Out := issueV s g (.vx 0x1A 0 d.toNat 0) 0

/-- D = group index x width + lane (R102). -/
def execWglane (g : GRef) (d : BitVec 8) (s : State) : Out := issueV s g (.vx 0x1B 0 d.toNat 0) 0

/-- D of a lane = A of the lane whose number differs by uniform register X modulo the width (R102). -/
def execShflXor (g : GRef) (d : BitVec 8) (a : BitVec 8) (x : BitVec 5) (lit : BitVec 32) (s : State) : Out := issueV s g (.vx 0x1D x.toNat d.toNat a.toNat) lit.toNat

/-- CVTN with format X (R102, R105, R158). -/
def execCvtn (g : GRef) (x : BitVec 5) (d : BitVec 8) (a : BitVec 8) (lit : BitVec 32) (s : State) : Out := issueV s g (.vx 0x20 x.toNat d.toNat a.toNat) lit.toNat

/-- CVTZ with format X (R102, R105, R158). -/
def execCvtz (g : GRef) (x : BitVec 5) (d : BitVec 8) (a : BitVec 8) (lit : BitVec 32) (s : State) : Out := issueV s g (.vx 0x21 x.toNat d.toNat a.toNat) lit.toNat

/-- CVTS with format X (R102, R105, R158). -/
def execCvts (g : GRef) (x : BitVec 5) (d : BitVec 8) (a : BitVec 8) (lit : BitVec 32) (s : State) : Out := issueV s g (.vx 0x22 x.toNat d.toNat a.toNat) lit.toNat

/-- CVTF with format X (R102, R105, R158). -/
def execCvtf (g : GRef) (x : BitVec 5) (d : BitVec 8) (a : BitVec 8) (lit : BitVec 32) (s : State) : Out := issueV s g (.vx 0x23 x.toNat d.toNat a.toNat) lit.toNat

/-- reduAddF32: a reduction over the active lanes into uniform register X, long latency (R102, R104). -/
def execReduAddF32 (g : GRef) (x : BitVec 5) (a : BitVec 8) (lit : BitVec 32) (s : State) : Out := issueV s g (.vx 0x30 x.toNat 0 a.toNat) lit.toNat

/-- reduMaxF32: a reduction over the active lanes into uniform register X, long latency (R102, R104). -/
def execReduMaxF32 (g : GRef) (x : BitVec 5) (a : BitVec 8) (lit : BitVec 32) (s : State) : Out := issueV s g (.vx 0x31 x.toNat 0 a.toNat) lit.toNat

/-- reduMinF32: a reduction over the active lanes into uniform register X, long latency (R102, R104). -/
def execReduMinF32 (g : GRef) (x : BitVec 5) (a : BitVec 8) (lit : BitVec 32) (s : State) : Out := issueV s g (.vx 0x32 x.toNat 0 a.toNat) lit.toNat

/-- reduAddI32: a reduction over the active lanes into uniform register X, long latency (R102, R104). -/
def execReduAddI32 (g : GRef) (x : BitVec 5) (a : BitVec 8) (lit : BitVec 32) (s : State) : Out := issueV s g (.vx 0x33 x.toNat 0 a.toNat) lit.toNat

end Sys2Proof.Machine
end

