-- ==== Sys2Proof/Machine/Dispatch.lean ====
section
/-!
DEFINITION. One arm per command: each calls its meaning.
-/
namespace Sys2Proof.Machine

def exec (i : Instr) (s : State) : Host.Outcome State Fault Refusal :=
  match i with
  | .regWrite p tag off size v => Sys2Proof.Machine.execRegWrite p tag off size v s
  | .rcRead p tag off size => Sys2Proof.Machine.execRcRead p tag off size s
  | .pairLowWrite p tag off v => Sys2Proof.Machine.execPairLowWrite p tag off v s
  | .pairHighWrite p tag off v => Sys2Proof.Machine.execPairHighWrite p tag off v s
  | .pairLowRead p tag off => Sys2Proof.Machine.execPairLowRead p tag off s
  | .blkProgRead p tag page => Sys2Proof.Machine.execBlkProgRead p tag page s
  | .stop p tag page => Sys2Proof.Machine.execStop p tag page s
  | .restart p tag page => Sys2Proof.Machine.execRestart p tag page s
  | .discard p tag page => Sys2Proof.Machine.execDiscard p tag page s
  | .cancelOp p tag page => Sys2Proof.Machine.execCancelOp p tag page s
  | .take p tag page => Sys2Proof.Machine.execTake p tag page s
  | .withdraw p tag page => Sys2Proof.Machine.execWithdraw p tag page s
  | .blockStopped page => Sys2Proof.Machine.execBlockStopped page s
  | .blockFault page => Sys2Proof.Machine.execBlockFault page s
  | .longOpEnd page result => Sys2Proof.Machine.execLongOpEnd page result s
  | .injArm p tag page v => Sys2Proof.Machine.execInjArm p tag page v s
  | .snapRelease p tag page v => Sys2Proof.Machine.execSnapRelease p tag page v s
  | .rateInterval page meas => Sys2Proof.Machine.execRateInterval page meas s
  | .counterTrim page corr temp => Sys2Proof.Machine.execCounterTrim page corr temp s
  | .trimStale page => Sys2Proof.Machine.execTrimStale page s
  | .dieEdgeFail e => Sys2Proof.Machine.execDieEdgeFail e s
  | .wgOffer q serial => Sys2Proof.Machine.execWgOffer q serial s
  | .issueRound tile => Sys2Proof.Machine.execIssueRound tile s
  | .codeFetch g => Sys2Proof.Machine.execCodeFetch g s
  | .bra g off => Sys2Proof.Machine.execBra g off s
  | .brCond g sr cond off => Sys2Proof.Machine.execBrCond g sr cond off s
  | .brpMode g p mode off => Sys2Proof.Machine.execBrpMode g p mode off s
  | .call g sd off => Sys2Proof.Machine.execCall g sd off s
  | .jmpr g sr => Sys2Proof.Machine.execJmpr g sr s
  | .split g p els fin => Sys2Proof.Machine.execSplit g p els fin s
  | .joinM g => Sys2Proof.Machine.execJoinM g s
  | .loopM g out => Sys2Proof.Machine.execLoopM g out s
  | .breakM g p => Sys2Proof.Machine.execBreakM g p s
  | .exitM g => Sys2Proof.Machine.execExitM g s
  | .bar g => Sys2Proof.Machine.execBar g s
  | .trap g code => Sys2Proof.Machine.execTrap g code s
  | .waitle g k n => Sys2Proof.Machine.execWaitle g k n s
  | .rdlic g sd => Sys2Proof.Machine.execRdlic g sd s
  | .rdstep g sd => Sys2Proof.Machine.execRdstep g sd s
  | .uadd g sd sa sb => Sys2Proof.Machine.execUadd g sd sa sb s
  | .usub g sd sa sb => Sys2Proof.Machine.execUsub g sd sa sb s
  | .umul g sd sa sb => Sys2Proof.Machine.execUmul g sd sa sb s
  | .uand g sd sa sb => Sys2Proof.Machine.execUand g sd sa sb s
  | .uor g sd sa sb => Sys2Proof.Machine.execUor g sd sa sb s
  | .uxor g sd sa sb => Sys2Proof.Machine.execUxor g sd sa sb s
  | .ushl g sd sa sb => Sys2Proof.Machine.execUshl g sd sa sb s
  | .ushr g sd sa sb => Sys2Proof.Machine.execUshr g sd sa sb s
  | .usar g sd sa sb => Sys2Proof.Machine.execUsar g sd sa sb s
  | .uminS g sd sa sb => Sys2Proof.Machine.execUminS g sd sa sb s
  | .umaxS g sd sa sb => Sys2Proof.Machine.execUmaxS g sd sa sb s
  | .uminU g sd sa sb => Sys2Proof.Machine.execUminU g sd sa sb s
  | .uaddi g sd sa imm => Sys2Proof.Machine.execUaddi g sd sa imm s
  | .uandi g sd sa imm => Sys2Proof.Machine.execUandi g sd sa imm s
  | .uori g sd sa imm => Sys2Proof.Machine.execUori g sd sa imm s
  | .uxori g sd sa imm => Sys2Proof.Machine.execUxori g sd sa imm s
  | .ushli g sd sa imm => Sys2Proof.Machine.execUshli g sd sa imm s
  | .ushri g sd sa imm => Sys2Proof.Machine.execUshri g sd sa imm s
  | .usari g sd sa imm => Sys2Proof.Machine.execUsari g sd sa imm s
  | .umovi g sd imm => Sys2Proof.Machine.execUmovi g sd imm s
  | .movl g sd l0 => Sys2Proof.Machine.execMovl g sd l0 s
  | .movl64 g sd l0 l1 => Sys2Proof.Machine.execMovl64 g sd l0 l1 s
  | .pmov g p sr => Sys2Proof.Machine.execPmov g p sr s
  | .smovp g sd p => Sys2Proof.Machine.execSmovp g sd p s
  | .pand g pd pa pb => Sys2Proof.Machine.execPand g pd pa pb s
  | .por g pd pa pb => Sys2Proof.Machine.execPor g pd pa pb s
  | .pandn g pd pa pb => Sys2Proof.Machine.execPandn g pd pa pb s
  | .pnot g pd pa => Sys2Proof.Machine.execPnot g pd pa s
  | .fmaF32 g d a b lit => Sys2Proof.Machine.execFmaF32 g d a b lit s
  | .fmaBf2 g d a b lit => Sys2Proof.Machine.execFmaBf2 g d a b lit s
  | .mulF32 g d a b lit => Sys2Proof.Machine.execMulF32 g d a b lit s
  | .addF32 g d a b lit => Sys2Proof.Machine.execAddF32 g d a b lit s
  | .subF32 g d a b lit => Sys2Proof.Machine.execSubF32 g d a b lit s
  | .addI32 g d a b lit => Sys2Proof.Machine.execAddI32 g d a b lit s
  | .subI32 g d a b lit => Sys2Proof.Machine.execSubI32 g d a b lit s
  | .mulI32 g d a b lit => Sys2Proof.Machine.execMulI32 g d a b lit s
  | .minF32 g d a lit => Sys2Proof.Machine.execMinF32 g d a lit s
  | .maxF32 g d a lit => Sys2Proof.Machine.execMaxF32 g d a lit s
  | .minS32 g d a lit => Sys2Proof.Machine.execMinS32 g d a lit s
  | .maxS32 g d a lit => Sys2Proof.Machine.execMaxS32 g d a lit s
  | .minU32 g d a lit => Sys2Proof.Machine.execMinU32 g d a lit s
  | .maxU32 g d a lit => Sys2Proof.Machine.execMaxU32 g d a lit s
  | .andV g d a lit => Sys2Proof.Machine.execAndV g d a lit s
  | .orV g d a lit => Sys2Proof.Machine.execOrV g d a lit s
  | .xorV g d a lit => Sys2Proof.Machine.execXorV g d a lit s
  | .shlV g d a lit => Sys2Proof.Machine.execShlV g d a lit s
  | .shrV g d a lit => Sys2Proof.Machine.execShrV g d a lit s
  | .sarV g d a lit => Sys2Proof.Machine.execSarV g d a lit s
  | .cmpEqF32 g x d a lit => Sys2Proof.Machine.execCmpEqF32 g x d a lit s
  | .cmpLtF32 g x d a lit => Sys2Proof.Machine.execCmpLtF32 g x d a lit s
  | .cmpLeF32 g x d a lit => Sys2Proof.Machine.execCmpLeF32 g x d a lit s
  | .cmpNeF32 g x d a lit => Sys2Proof.Machine.execCmpNeF32 g x d a lit s
  | .cmpEqI32 g x d a lit => Sys2Proof.Machine.execCmpEqI32 g x d a lit s
  | .cmpLtS32 g x d a lit => Sys2Proof.Machine.execCmpLtS32 g x d a lit s
  | .cmpLeS32 g x d a lit => Sys2Proof.Machine.execCmpLeS32 g x d a lit s
  | .cmpNeI32 g x d a lit => Sys2Proof.Machine.execCmpNeI32 g x d a lit s
  | .cmpLtU32 g x d a lit => Sys2Proof.Machine.execCmpLtU32 g x d a lit s
  | .cmpLeU32 g x d a lit => Sys2Proof.Machine.execCmpLeU32 g x d a lit s
  | .sel g x d a lit => Sys2Proof.Machine.execSel g x d a lit s
  | .movV g d a lit => Sys2Proof.Machine.execMovV g d a lit s
  | .bcast g d x => Sys2Proof.Machine.execBcast g d x s
  | .readlane g x a lit => Sys2Proof.Machine.execReadlane g x a lit s
  | .lane g d => Sys2Proof.Machine.execLane g d s
  | .wglane g d => Sys2Proof.Machine.execWglane g d s
  | .shflIdx g d a lit => Sys2Proof.Machine.execShflIdx g d a lit s
  | .shflXor g d a x lit => Sys2Proof.Machine.execShflXor g d a x lit s
  | .absF32 g d a lit => Sys2Proof.Machine.execAbsF32 g d a lit s
  | .negF32 g d a lit => Sys2Proof.Machine.execNegF32 g d a lit s
  | .cvtn g x d a lit => Sys2Proof.Machine.execCvtn g x d a lit s
  | .cvtz g x d a lit => Sys2Proof.Machine.execCvtz g x d a lit s
  | .cvts g x d a lit => Sys2Proof.Machine.execCvts g x d a lit s
  | .cvtf g x d a lit => Sys2Proof.Machine.execCvtf g x d a lit s
  | .exp2 g d a lit => Sys2Proof.Machine.execExp2 g d a lit s
  | .log2 g d a lit => Sys2Proof.Machine.execLog2 g d a lit s
  | .rcp g d a lit => Sys2Proof.Machine.execRcp g d a lit s
  | .rsq g d a lit => Sys2Proof.Machine.execRsq g d a lit s
  | .sqrtV g d a lit => Sys2Proof.Machine.execSqrtV g d a lit s
  | .sinV g d a lit => Sys2Proof.Machine.execSinV g d a lit s
  | .cosV g d a lit => Sys2Proof.Machine.execCosV g d a lit s
  | .reduAddF32 g x a lit => Sys2Proof.Machine.execReduAddF32 g x a lit s
  | .reduMaxF32 g x a lit => Sys2Proof.Machine.execReduMaxF32 g x a lit s
  | .reduMinF32 g x a lit => Sys2Proof.Machine.execReduMinF32 g x a lit s
  | .reduAddI32 g x a lit => Sys2Proof.Machine.execReduAddI32 g x a lit s
  | .longResult g id => Sys2Proof.Machine.execLongResult g id s
  | .ld g sz d a b => Sys2Proof.Machine.execLd g sz d a b s
  | .ldw g sz d a b => Sys2Proof.Machine.execLdw g sz d a b s
  | .st g sz d a b => Sys2Proof.Machine.execSt g sz d a b s
  | .stw g sz d a b => Sys2Proof.Machine.execStw g sz d a b s
  | .atom g kind d a b => Sys2Proof.Machine.execAtom g kind d a b s
  | .atomn g kind d a b => Sys2Proof.Machine.execAtomn g kind d a b s
  | .atomw g kind d a b => Sys2Proof.Machine.execAtomw g kind d a b s
  | .atomwn g kind d a b => Sys2Proof.Machine.execAtomwn g kind d a b s
  | .ldr g wide d a b => Sys2Proof.Machine.execLdr g wide d a b s
  | .stc g wide d a b => Sys2Proof.Machine.execStc g wide d a b s
  | .fence g scope => Sys2Proof.Machine.execFence g scope s
  | .invl1 g => Sys2Proof.Machine.execInvl1 g s
  | .pref g a b => Sys2Proof.Machine.execPref g a b s
  | .zline g a b => Sys2Proof.Machine.execZline g a b s
  | .signal g d b => Sys2Proof.Machine.execSignal g d b s
  | .pwait g d b => Sys2Proof.Machine.execPwait g d b s
  | .txbind g d => Sys2Proof.Machine.execTxbind g d s
  | .txunbind g => Sys2Proof.Machine.execTxunbind g s
  | .arr g sr => Sys2Proof.Machine.execArr g sr s
  | .row g sr => Sys2Proof.Machine.execRow g sr s
  | .impreciseFault g code => Sys2Proof.Machine.execImpreciseFault g code s
  | .loadReturn g id => Sys2Proof.Machine.execLoadReturn g id s
  | .storeRelease tile id => Sys2Proof.Machine.execStoreRelease tile id s
  | .storePerformed tile id => Sys2Proof.Machine.execStorePerformed tile id s
  | .syncComplete g id => Sys2Proof.Machine.execSyncComplete g id s
  | .groupEnd g => Sys2Proof.Machine.execGroupEnd g s
  | .wgPark tile wg reason => Sys2Proof.Machine.execWgPark tile wg reason s
  | .parkDone tile wg => Sys2Proof.Machine.execParkDone tile wg s
  | .parkSlotFree tile wg => Sys2Proof.Machine.execParkSlotFree tile wg s
  | .wgAbandon tile wg => Sys2Proof.Machine.execWgAbandon tile wg s
  | .autoReplay q slot => Sys2Proof.Machine.execAutoReplay q slot s
  | .arrAccept tile => Sys2Proof.Machine.execArrAccept tile s
  | .arrCompute a => Sys2Proof.Machine.execArrCompute a s
  | .arrDrain tile cells hems => Sys2Proof.Machine.execArrDrain tile cells hems s
  | .arrDelivered tile => Sys2Proof.Machine.execArrDelivered tile s
  | .arrRetry p tag tile => Sys2Proof.Machine.execArrRetry p tag tile s
  | .arrPoison p tag tile => Sys2Proof.Machine.execArrPoison p tag tile s
  | .holdResponse tile => Sys2Proof.Machine.execHoldResponse tile s
  | .holdEscalate tile => Sys2Proof.Machine.execHoldEscalate tile s
  | .rowAccept tile => Sys2Proof.Machine.execRowAccept tile s
  | .rmsnorm a => Sys2Proof.Machine.execRmsnorm a s
  | .layernorm a => Sys2Proof.Machine.execLayernorm a s
  | .softmax a => Sys2Proof.Machine.execSoftmax a s
  | .logsoftmax a => Sys2Proof.Machine.execLogsoftmax a s
  | .stats a => Sys2Proof.Machine.execStats a s
  | .expsum a => Sys2Proof.Machine.execExpsum a s
  | .merge a => Sys2Proof.Machine.execMerge a s
  | .sample a => Sys2Proof.Machine.execSample a s
  | .dropout a => Sys2Proof.Machine.execDropout a s
  | .rmsnormBwd a => Sys2Proof.Machine.execRmsnormBwd a s
  | .layernormBwd a => Sys2Proof.Machine.execLayernormBwd a s
  | .softmaxBwd a => Sys2Proof.Machine.execSoftmaxBwd a s
  | .logsoftmaxBwd a => Sys2Proof.Machine.execLogsoftmaxBwd a s
  | .dropoutBwd a => Sys2Proof.Machine.execDropoutBwd a s
  | .sinv tile => Sys2Proof.Machine.execSinv tile s
  | .rowComplete tile => Sys2Proof.Machine.execRowComplete tile s
  | .noiseHealthFail page => Sys2Proof.Machine.execNoiseHealthFail page s
  | .noiseRetest page pass => Sys2Proof.Machine.execNoiseRetest page pass s
  | .l2LineAccess op => Sys2Proof.Machine.execL2LineAccess op s
  | .reduceWrite slot pa addends => Sys2Proof.Machine.execReduceWrite slot pa addends s
  | .hbmFillReturn pa => Sys2Proof.Machine.execHbmFillReturn pa s
  | .evictionWriteback pa => Sys2Proof.Machine.execEvictionWriteback pa s
  | .waySwap p tag page v => Sys2Proof.Machine.execWaySwap p tag page v s
  | .scrubPass p stack corrected uncorrectable => Sys2Proof.Machine.execScrubPass p stack corrected uncorrectable s
  | .hbmRowRepair stack row soft => Sys2Proof.Machine.execHbmRowRepair stack row soft s
  | .pchLost stack pch => Sys2Proof.Machine.execPchLost stack pch s
  | .pchRedirect stack pch => Sys2Proof.Machine.execPchRedirect stack pch s
  | .rangeWalk die space va => Sys2Proof.Machine.execRangeWalk die space va s
  | .reservationTimeout tile slot => Sys2Proof.Machine.execReservationTimeout tile slot s
  | .ldrHoldTimeout granule => Sys2Proof.Machine.execLdrHoldTimeout granule s
  | .warmReset => Sys2Proof.Machine.execWarmReset s
  | .sbDrainExpire => Sys2Proof.Machine.execSbDrainExpire s
  | .powerLoss => Sys2Proof.Machine.execPowerLoss s
  | .watchEntryAdmit die => Sys2Proof.Machine.execWatchEntryAdmit die s
  | .groupWatchEnd die id => Sys2Proof.Machine.execGroupWatchEnd die id s
  | .queueWatchEnd die id => Sys2Proof.Machine.execQueueWatchEnd die id s
  | .abandonMark die base len => Sys2Proof.Machine.execAbandonMark die base len s
  | .watchEntryError die id => Sys2Proof.Machine.execWatchEntryError die id s
  | .belReturnService die => Sys2Proof.Machine.execBelReturnService die s
  | .txgOpen q serial => Sys2Proof.Machine.execTxgOpen q serial s
  | .txgCommit q serial => Sys2Proof.Machine.execTxgCommit q serial s
  | .txgAbort q serial => Sys2Proof.Machine.execTxgAbort q serial s
  | .txgCommitPoint die p => Sys2Proof.Machine.execTxgCommitPoint die p s
  | .txgInstall die slot part => Sys2Proof.Machine.execTxgInstall die slot part s
  | .txgExpired die slot => Sys2Proof.Machine.execTxgExpired die slot s
  | .doorbellWrite q tag size a => Sys2Proof.Machine.execDoorbellWrite q tag size a s
  | .commandFetch q => Sys2Proof.Machine.execCommandFetch q s
  | .commandStart e => Sys2Proof.Machine.execCommandStart e s
  | .commandEnd q serial => Sys2Proof.Machine.execCommandEnd q serial s
  | .queueTimeout q serial => Sys2Proof.Machine.execQueueTimeout q serial s
  | .nop q serial => Sys2Proof.Machine.execNop q serial s
  | .waitCmd q serial => Sys2Proof.Machine.execWaitCmd q serial s
  | .signalCmd q serial => Sys2Proof.Machine.execSignalCmd q serial s
  | .watchCmd q serial => Sys2Proof.Machine.execWatchCmd q serial s
  | .launch q serial => Sys2Proof.Machine.execLaunch q serial s
  | .replay q serial => Sys2Proof.Machine.execReplay q serial s
  | .copyCmd q serial => Sys2Proof.Machine.execCopyCmd q serial s
  | .fillCmd q serial => Sys2Proof.Machine.execFillCmd q serial s
  | .convert q serial => Sys2Proof.Machine.execConvert q serial s
  | .addCmd q serial => Sys2Proof.Machine.execAddCmd q serial s
  | .put q serial => Sys2Proof.Machine.execPut q serial s
  | .rfence q serial => Sys2Proof.Machine.execRfence q serial s
  | .allreduce q serial => Sys2Proof.Machine.execAllreduce q serial s
  | .scatter q serial => Sys2Proof.Machine.execScatter q serial s
  | .queueCreate q serial => Sys2Proof.Machine.execQueueCreate q serial s
  | .queueSet q serial => Sys2Proof.Machine.execQueueSet q serial s
  | .queueStop q serial => Sys2Proof.Machine.execQueueStop q serial s
  | .queueStart q serial => Sys2Proof.Machine.execQueueStart q serial s
  | .queueDestroy q serial => Sys2Proof.Machine.execQueueDestroy q serial s
  | .destroyDieAck q die => Sys2Proof.Machine.execDestroyDieAck q die s
  | .opAbort q serial => Sys2Proof.Machine.execOpAbort q serial s
  | .ctxBind q serial => Sys2Proof.Machine.execCtxBind q serial s
  | .ctxUnbind q serial => Sys2Proof.Machine.execCtxUnbind q serial s
  | .spaceCreate q serial => Sys2Proof.Machine.execSpaceCreate q serial s
  | .spaceTable q serial => Sys2Proof.Machine.execSpaceTable q serial s
  | .spaceStop q serial => Sys2Proof.Machine.execSpaceStop q serial s
  | .spaceSet q serial => Sys2Proof.Machine.execSpaceSet q serial s
  | .spaceRestart q serial => Sys2Proof.Machine.execSpaceRestart q serial s
  | .shootdown q serial => Sys2Proof.Machine.execShootdown q serial s
  | .spaceRetire q serial => Sys2Proof.Machine.execSpaceRetire q serial s
  | .retireStage space die => Sys2Proof.Machine.execRetireStage space die s
  | .handleFree q serial => Sys2Proof.Machine.execHandleFree q serial s
  | .abandonClear q serial => Sys2Proof.Machine.execAbandonClear q serial s
  | .preempt q serial => Sys2Proof.Machine.execPreempt q serial s
  | .preemptHoldExpire at_ => Sys2Proof.Machine.execPreemptHoldExpire at_ s
  | .selftest q serial => Sys2Proof.Machine.execSelftest q serial s
  | .selftestDeadline tile => Sys2Proof.Machine.execSelftestDeadline tile s
  | .reconfig q serial => Sys2Proof.Machine.execReconfig q serial s
  | .kill q serial cause => Sys2Proof.Machine.execKill q serial cause s
  | .killDone q serial => Sys2Proof.Machine.execKillDone q serial s
  | .detectTimeout port => Sys2Proof.Machine.execDetectTimeout port s
  | .detectRetry port => Sys2Proof.Machine.execDetectRetry port s
  | .partnerDetect port => Sys2Proof.Machine.execPartnerDetect port s
  | .laneLockTimeout port lane => Sys2Proof.Machine.execLaneLockTimeout port lane s
  | .initFlit port enc credits bad => Sys2Proof.Machine.execInitFlit port enc credits bad s
  | .keyxFlit port flit => Sys2Proof.Machine.execKeyxFlit port flit s
  | .keyxTimeout port => Sys2Proof.Machine.execKeyxTimeout port s
  | .los port => Sys2Proof.Machine.execLos port s
  | .dataFlit port flit => Sys2Proof.Machine.execDataFlit port flit s
  | .idleFlit port ackv ack cvc credits => Sys2Proof.Machine.execIdleFlit port ackv ack cvc credits s
  | .idleFlitDue port => Sys2Proof.Machine.execIdleFlitDue port s
  | .nak port ack => Sys2Proof.Machine.execNak port ack s
  | .laneBad port lane => Sys2Proof.Machine.execLaneBad port lane s
  | .lsymWindow port counts => Sys2Proof.Machine.execLsymWindow port counts s
  | .retrain port bad => Sys2Proof.Machine.execRetrain port bad s
  | .retrainDone port ok => Sys2Proof.Machine.execRetrainDone port ok s
  | .rekey port => Sys2Proof.Machine.execRekey port s
  | .trainRetry port => Sys2Proof.Machine.execTrainRetry port s
  | .writePacket port k => Sys2Proof.Machine.execWritePacket port k s
  | .readPacket port k => Sys2Proof.Machine.execReadPacket port k s
  | .atomicPacket port k => Sys2Proof.Machine.execAtomicPacket port k s
  | .signalPacket port k => Sys2Proof.Machine.execSignalPacket port k s
  | .anchorPacket port k => Sys2Proof.Machine.execAnchorPacket port k s
  | .anchorRelease src stream serial => Sys2Proof.Machine.execAnchorRelease src stream serial s
  | .reducePacket port k => Sys2Proof.Machine.execReducePacket port k s
  | .gatherPacket port k => Sys2Proof.Machine.execGatherPacket port k s
  | .allreduceGather q serial => Sys2Proof.Machine.execAllreduceGather q serial s
  | .watchPacket port k => Sys2Proof.Machine.execWatchPacket port k s
  | .notifyPacket port k => Sys2Proof.Machine.execNotifyPacket port k s
  | .ackPacket port k => Sys2Proof.Machine.execAckPacket port k s
  | .dataPacket port k => Sys2Proof.Machine.execDataPacket port k s
  | .busyResend id => Sys2Proof.Machine.execBusyResend id s
  | .packetResend id => Sys2Proof.Machine.execPacketResend id s
  | .resendDeadline id => Sys2Proof.Machine.execResendDeadline id s
  | .landingExpire src stream => Sys2Proof.Machine.execLandingExpire src stream s
  | .routeTableUpdate dst alts => Sys2Proof.Machine.execRouteTableUpdate dst alts s
  | .rollCall port r => Sys2Proof.Machine.execRollCall port r s
  | .staleResync port => Sys2Proof.Machine.execStaleResync port s
  | .loss port dev epoch => Sys2Proof.Machine.execLoss port dev epoch s
  | .joinNotice port dev epoch => Sys2Proof.Machine.execJoinNotice port dev epoch s
  | .depart port => Sys2Proof.Machine.execDepart port s
  | .heartbeat port => Sys2Proof.Machine.execHeartbeat port s
  | .heartbeatTimeout port => Sys2Proof.Machine.execHeartbeatTimeout port s
  | .neighbourDead dev => Sys2Proof.Machine.execNeighbourDead dev s
  | .memWindowAccess tag off write data => Sys2Proof.Machine.execMemWindowAccess tag off write data s
  | .ringEnable p tag v => Sys2Proof.Machine.execRingEnable p tag v s
  | .ringDisable p tag v => Sys2Proof.Machine.execRingDisable p tag v s
  | .rconsWrite p tag v => Sys2Proof.Machine.execRconsWrite p tag v s
  | .eventPost => Sys2Proof.Machine.execEventPost s
  | .nhlLinkLoss => Sys2Proof.Machine.execNhlLinkLoss s
  | .nhlLinkReturn => Sys2Proof.Machine.execNhlLinkReturn s
  | .mctpControl code arg => Sys2Proof.Machine.execMctpControl code arg s
  | .vendorReadStatus => Sys2Proof.Machine.execVendorReadStatus s
  | .vendorClearAlert mask => Sys2Proof.Machine.execVendorClearAlert mask s
  | .getVersion => Sys2Proof.Machine.execGetVersion s
  | .getCapabilities => Sys2Proof.Machine.execGetCapabilities s
  | .negotiateAlgorithms offered => Sys2Proof.Machine.execNegotiateAlgorithms offered s
  | .getDigests => Sys2Proof.Machine.execGetDigests s
  | .getCertificate slot off len => Sys2Proof.Machine.execGetCertificate slot off len s
  | .challenge slot nonce => Sys2Proof.Machine.execChallenge slot nonce s
  | .getMeasurements idx nonce => Sys2Proof.Machine.execGetMeasurements idx nonce s
  | .spdmUnsupported code => Sys2Proof.Machine.execSpdmUnsupported code s
  | .inputExcursion mv => Sys2Proof.Machine.execInputExcursion mv s
  | .inputExcursionTimeout => Sys2Proof.Machine.execInputExcursionTimeout s
  | .pacingPeriod m => Sys2Proof.Machine.execPacingPeriod m s
  | .fastLimit => Sys2Proof.Machine.execFastLimit s
  | .pwrCapWrite p tag v => Sys2Proof.Machine.execPwrCapWrite p tag v s
  | .pwrVceilWrite p tag v => Sys2Proof.Machine.execPwrVceilWrite p tag v s
  | .pwrEstDiverge => Sys2Proof.Machine.execPwrEstDiverge s
  | .measureStep => Sys2Proof.Machine.execMeasureStep s
  | .pwrEstRecover => Sys2Proof.Machine.execPwrEstRecover s
  | .railDroop rail mv => Sys2Proof.Machine.execRailDroop rail mv s
  | .railFault rail => Sys2Proof.Machine.execRailFault rail s
  | .sensorSample die sensor temp valid => Sys2Proof.Machine.execSensorSample die sensor temp valid s
  | .thermalTripOff => Sys2Proof.Machine.execThermalTripOff s
  | .tileHang tile => Sys2Proof.Machine.execTileHang tile s
  | .tileReplaceOrderly tile => Sys2Proof.Machine.execTileReplaceOrderly tile s
  | .tileReplaceAbrupt tile => Sys2Proof.Machine.execTileReplaceAbrupt tile s
  | .tilePlace tile => Sys2Proof.Machine.execTilePlace tile s
  | .sliceBypass slice => Sys2Proof.Machine.execSliceBypass slice s
  | .phaseLost rail => Sys2Proof.Machine.execPhaseLost rail s
  | .oscCompare fail0 fail1 => Sys2Proof.Machine.execOscCompare fail0 fail1 s
  | .guideCoreFail die core => Sys2Proof.Machine.execGuideCoreFail die core s
  | .clusterHeartbeat die => Sys2Proof.Machine.execClusterHeartbeat die s
  | .guideTakeover die => Sys2Proof.Machine.execGuideTakeover die s
  | .wearJudge tile ratios => Sys2Proof.Machine.execWearJudge tile ratios s
  | .periodicSelftest tile => Sys2Proof.Machine.execPeriodicSelftest tile s
  | .fwUpdate p tag die v => Sys2Proof.Machine.execFwUpdate p tag die v s
  | .fwUpdateFail die => Sys2Proof.Machine.execFwUpdateFail die s
  | .powerUp b => Sys2Proof.Machine.execPowerUp b s
  | .modResetRelease b => Sys2Proof.Machine.execModResetRelease b s
  | .cardWrite kind arg => Sys2Proof.Machine.execCardWrite kind arg s
  | .keyLoad p tag v => Sys2Proof.Machine.execKeyLoad p tag v s
  | .keyGenerate p tag v => Sys2Proof.Machine.execKeyGenerate p tag v s
  | .keyClear p tag v => Sys2Proof.Machine.execKeyClear p tag v s
  | .entropyFail => Sys2Proof.Machine.execEntropyFail s
  | .dbgSubmit p tag v => Sys2Proof.Machine.execDbgSubmit p tag v s
  | .dbgEnd p tag v => Sys2Proof.Machine.execDbgEnd p tag v s
  | .trigIn => Sys2Proof.Machine.execTrigIn s
  | .dbgFire p tag v => Sys2Proof.Machine.execDbgFire p tag v s
  | .wavefrontArrive page => Sys2Proof.Machine.execWavefrontArrive page s
  | .errorLogWrite => Sys2Proof.Machine.execErrorLogWrite s
  | .dbgHalt p tag v => Sys2Proof.Machine.execDbgHalt p tag v s
  | .dbgMemRead p tag v => Sys2Proof.Machine.execDbgMemRead p tag v s
  | .perfClear p tag tile v => Sys2Proof.Machine.execPerfClear p tag tile v s
  | .cableConnect port => Sys2Proof.Machine.execCableConnect port s
  | .cableRemove port => Sys2Proof.Machine.execCableRemove port s
  | .cableIdRead port ok idw => Sys2Proof.Machine.execCableIdRead port ok idw s
  | .cableOverpower port => Sys2Proof.Machine.execCableOverpower port s
  | .inputRangeReturn => Sys2Proof.Machine.execInputRangeReturn s
  | .railVoltageReturn rail => Sys2Proof.Machine.execRailVoltageReturn rail s
  | .keyGeneratorRetest pass => Sys2Proof.Machine.execKeyGeneratorRetest pass s

end Sys2Proof.Machine
end

