-- ==== Sys2Proof/Safety.lean ====
section
/-!
DEFINITION. What counts as a safe run, and the terms that statements about the bundle set use.
-/
namespace Sys2Proof.Safety
open Sys2Proof.Machine

/-- A step is safe when it answers a next state. -/
def Safe (s : State) : Prop := ∃ t, step s = .next t

/-- A resident group may issue (R60, R96): it runs, is not stopped, has active lanes and waits for no A slot; its block is in
service, in a device that runs and on a supply that suffices (R41, R457); no counter is near its limit; no result is on its way to a
register that the bundle reads (R97); no detector of its register file is armed (R525); it has not faulted (R74); no park of its workgroup waits for
a binding (R322). -/
structure MayIssue (s : State) (r : GRef) (g : Group) : Prop where
  here    : group? s r.tile r.slot = some g
  service : (blk s (pgTile r.tile)).st.inService = true
  works   : running s = true
  supply  : stalled s (pgTile r.tile) = false
  runs    : g.stat = .run
  goes    : g.stopped = false
  active  : g.active ≠ 0
  width   : g.width ≤ 64
  offer   : g.offer = none
  room    : ∀ k, k < 6 → g.count k ≤ 62
  settled : ∀ b, g.dueV b = [] ∧ g.dueU b = []
  sound   : g.fault = none
  unarmed : (blk s (pgTile r.tile)).injArm = false
  unasked : ∀ w, wg? s r.tile g.wg = some w → w.asked = 0

/-- The machine without its pages, its tiles and the count of free values. -/
def elsewhere (s : State) : State := { s with blks := [], tiles := [], fresh := 0 }

/-- A group without the count of steps that it has waited while ready (R60). -/
def noWait (g : Group) : Group := { g with ready := 0 }

/-- A group is as before, but for the steps that it has waited while ready: they count with each step of its thread core. -/
def SameGroup (s t : State) (tile n : Nat) : Prop := (group? t tile n).map noWait = (group? s tile n).map noWait

/-- What the issue of a bundle of group `r` leaves alone: every other group, tile and page, the registers of its own page,
and every other part of the machine, all of memory among them. -/
structure OnlyGroup (s t : State) (r : GRef) : Prop where
  rest   : elsewhere t = elsewhere s
  pages  : ∀ pg, pg ≠ pgTile r.tile → blk t pg = blk s pg
  page   : (blk t (pgTile r.tile)).regs = (blk s (pgTile r.tile)).regs ∧ (blk t (pgTile r.tile)).st = (blk s (pgTile r.tile)).st ∧
    (blk t (pgTile r.tile)).errStat = (blk s (pgTile r.tile)).errStat
  steps  : (blk t (pgTile r.tile)).steps = ((blk s (pgTile r.tile)).steps + 1) % 2 ^ 64
  tiles  : ∀ n, n ≠ r.tile → tile t n = tile s n
  groups : ∀ n, n ≠ r.slot → SameGroup s t r.tile n
  wgs    : (tile t r.tile).wgs = (tile s r.tile).wgs

/-- Masks, mask stack and status of a group are as before. -/
def SameMasks (g g' : Group) : Prop :=
  g'.live = g.live ∧ g'.active = g.active ∧ g'.stack = g.stack ∧ g'.arrived = g.arrived ∧ g'.stat = g.stat ∧ g'.fault = g.fault

/-- The group goes on at the next bundle in sequence, `n` bytes on (R91). -/
def Advances (g g' : Group) (n : Nat) : Prop := g'.pc = (g.pc + n) % 2 ^ 64

/-- A bundle of one control operation that writes one uniform register: `sd` takes `v` modulo 2^64, nothing else of the group's
registers changes. -/
def UniformResult (s : State) (r : GRef) (g : Group) (i : Instr) (n : Nat) (sd : BitVec 5) (v : Nat) : Prop :=
  ∃ t g', exec i s = .next t ∧ group? t r.tile r.slot = some g' ∧ g'.uget sd.toNat = v % 2 ^ 64 ∧
    (∀ k, k ≠ sd.toNat → g'.uget k = g.uget k) ∧ g'.v = g.v ∧ g'.p = g.p ∧ SameMasks g g' ∧ Advances g g' n ∧ OnlyGroup s t r

/-- A bundle of one control operation that writes one predicate: bits at and above the width stay 0. -/
def PredicateResult (s : State) (r : GRef) (g : Group) (i : Instr) (pd : BitVec 3) (v : Nat) : Prop :=
  ∃ t g', exec i s = .next t ∧ group? t r.tile r.slot = some g' ∧ g'.pget pd.toNat = v % 2 ^ g.width % 2 ^ 64 ∧
    (∀ k, k ≠ pd.toNat → g'.pget k = g.pget k) ∧ g'.v = g.v ∧ g'.u = g.u ∧ SameMasks g g' ∧ Advances g g' 16 ∧ OnlyGroup s t r

/-- A bundle of one control operation that only moves the group to another address. -/
def GoesTo (s : State) (r : GRef) (g : Group) (i : Instr) (pc : Nat) : Prop :=
  ∃ t g', exec i s = .next t ∧ group? t r.tile r.slot = some g' ∧ g'.pc = pc ∧ g'.v = g.v ∧ g'.u = g.u ∧ g'.p = g.p ∧
    SameMasks g g' ∧ OnlyGroup s t r

/-- A bundle of one vector operation: register `d` of every active lane takes `f`, of that lane; inactive lanes and other
registers keep their values; a destination of 0xFF discards the result (R93). -/
def VectorResult (s : State) (r : GRef) (g : Group) (i : Instr) (n : Nat) (d : BitVec 8) (f : Nat → Word) : Prop :=
  ∃ t g', exec i s = .next t ∧ group? t r.tile r.slot = some g' ∧
    (∀ k l, l < 64 → g'.vget k l = if k = d.toNat ∧ d.toNat ≠ 0xFF ∧ l ∈ g.lanes then f l else g.vget k l) ∧
    g'.u = g.u ∧ g'.p = g.p ∧ SameMasks g g' ∧ Advances g g' n ∧ OnlyGroup s t r

/-- A vector source field: 0xFF names the literal (R93), else the register of the lane. -/
def source (g : Group) (a : BitVec 8) (lit : BitVec 32) (l : Nat) : Word := if a.toNat = 0xFF then lit else g.vget a.toNat l

/-- The bytes of a bundle whose sources are `as`: 32 when one of them is the literal (R91). -/
def bundleBytes (as : List (BitVec 8)) : Nat := if as.any (fun a => a.toNat == 0xFF) then 32 else 16

/-- A vector field names a register that the group has, or is 0xFF (R89). -/
def inFile (g : Group) (a : BitVec 8) : Prop := a.toNat = 0xFF ∨ a.toNat < g.r

/-- What a group computes with: its registers, address, masks, mask stack and fault record. -/
def SameCore (g g' : Group) : Prop :=
  g'.u = g.u ∧ g'.v = g.v ∧ g'.p = g.p ∧ g'.pc = g.pc ∧ g'.live = g.live ∧ g'.active = g.active ∧ g'.stack = g.stack ∧
    g'.fault = g.fault ∧ g'.wg = g.wg ∧ g'.idx = g.idx ∧ g'.width = g.width ∧ g'.r = g.r

/-- A bundle of one operation that faults its group with a code (R74, R79): the record is kept, the group's registers, address and
masks stand as they were, and a workgroup that is not parking already stops with reason FAULT (R72, R77). -/
def FaultsWith (s : State) (r : GRef) (g : Group) (i : Instr) (code : Nat) : Prop :=
  ∃ t g' f, exec i s = .next t ∧ group? t r.tile r.slot = some g' ∧ g'.fault = some f ∧ f.code = code ∧ f.imprecise = false ∧
    SameCore { g with fault := some f } g' ∧ t.ram = s.ram ∧
    (∀ w, wg? s r.tile g.wg = some w → w.park = .none →
      g'.stopped = true ∧ g'.reason = rFault ∧ (wg? t r.tile g.wg).map (·.park) = some .draining)

/-- A bundle of one control operation that acts on the masks (R63, R64): address, active mask and mask stack after it; the live
mask and every register stay. -/
def MaskResult (s : State) (r : GRef) (g : Group) (i : Instr) (pc active : Nat) (stack : List MEntry) : Prop :=
  ∃ t g', exec i s = .next t ∧ group? t r.tile r.slot = some g' ∧ g'.pc = pc ∧ g'.active = active ∧ g'.stack = stack ∧
    g'.live = g.live ∧ g'.u = g.u ∧ g'.v = g.v ∧ g'.p = g.p ∧ g'.stat = g.stat ∧ g'.fault = g.fault ∧ OnlyGroup s t r

/-- An offset of a SPLIT or LOOP as a mask stack entry keeps it: 48 bits (R555). -/
def target (g : Group) (off : Nat) : Nat := (g.pc + 16 * off) % 2 ^ 64 % 2 ^ 48

/-- Lanes of a mask that are not in another. -/
def without (a b : Nat) : Nat := a - (a &&& b)

/-- The store buffer has room for the entries of a memory operation, in the step in which its group issues (R273). -/
def Room (s : State) (r : GRef) (g : Group) (m : MOp) : Prop :=
  bundleRoom (roundOne s r.tile r.slot) r.tile r.slot (noWait g) (mkBundle none none (some m) none 0 0) = true

/-- No group of a workgroup waits at its barrier. -/
def NoneWaits (s : State) (t w : Nat) : Prop := ∀ q ∈ (tile s t).groupsOf w, q.2.stat ≠ .barrier

/-- No watch of a group's park-wait stands at any belay unit. -/
def NoWatchOf (s : State) (w : Wg) (g : Group) : Prop :=
  let mine (x : Watch) : Bool := x.ofGroup w.launch w.x w.y w.z g.idx
  ∀ d, d < 4 → (∀ x ∈ (bel s d).waitl, mine x = false) ∧ (∀ x ∈ (bel s d).remote, mine x.2 = false) ∧ ∀ x ∈ (bel s d).ended, mine x.w = false

/-- Reading any byte under any key gives what it gave. -/
def SameBytes (s t : State) : Prop := ∀ k a, byteUnder t.ram k a = byteUnder s.ram k a

/-- Every other tile, and the other groups and the workgroups of the group's tile, are as before. -/
def OtherGroups (s t : State) (r : GRef) : Prop :=
  (∀ n, n ≠ r.tile → tile t n = tile s n) ∧ (∀ n, n ≠ r.slot → SameGroup s t r.tile n) ∧
    (tile t r.tile).wgs = (tile s r.tile).wgs

/-- An instruction has been issued under counter `c` (R94): it is in flight with the next number of its group, the counter is not
0, and it is 1 when it was 0; registers and masks stand; the group goes on `n` bytes further. -/
def Counted (g g' : Group) (c n : Nat) (kind : PKind → Prop) : Prop :=
  (∃ p ∈ g'.pend, p.id = g.nextId ∧ p.cls = c ∧ p.done = false ∧ kind p.kind) ∧ g'.count c ≠ 0 ∧ (g.count c = 0 → g'.count c = 1) ∧
    g'.nextId ≠ g.nextId ∧ g'.u = g.u ∧ g'.v = g.v ∧ g'.p = g.p ∧ SameMasks g g' ∧ Advances g g' n

/-- `exec i s` issues the group's bundle and counts it under `c`: other groups and all of memory stand. -/
def CountsUnder (s : State) (r : GRef) (g : Group) (i : Instr) (c : Nat) (kind : PKind → Prop) : Prop :=
  ∃ t g', exec i s = .next t ∧ group? t r.tile r.slot = some g' ∧ Counted g g' c 16 kind ∧ SameBytes s t ∧ OtherGroups s t r

/-- The fields of a memory operation: the data registers from `d` on are the group's, or the result is discarded (R93); the offset
register is the group's or the lane index (R107). -/
def dataRegs (g : Group) (d : BitVec 8) (n : Nat) : Prop := d.toNat ≠ 0xFF ∧ d.toNat + n ≤ g.r
def loadRegs (g : Group) (d : BitVec 8) (n : Nat) : Prop := d.toNat = 0xFF ∨ dataRegs g d n

/-- Register writes of a list hold in a group: register by register, the last write of each lane. -/
def Wrote (g g' : Group) (ws : List (Nat × Nat × Nat)) : Prop :=
  ∀ k l, l < 64 → g'.vget k l = match (ws.filter (fun w => w.1 == k && w.2.1 == l)).getLast? with
    | some w => BitVec.ofNat 32 w.2.2
    | none => g.vget k l

/-- A counted instruction of the group has completed: nothing in flight carries its number and is still open. -/
def Completed (g : Group) (id : Nat) : Prop := ∀ p ∈ g.pend, p.id = id → p.done = true

/-- Workgroup memory after some lanes have stored `f l` at their offsets, in the order given (R66). -/
def stored (g : Group) (m : MOp) (f : Nat → List Nat) (w : Wg) (ls : List Nat) : Wg :=
  ls.foldl (fun w l => wgmWrite w (laneOff g m l) (f l)) w

/-- Workgroup memory after some lanes have done their atomics, in the order given (R66, R70). -/
def atomed (g : Group) (m : MOp) (w : Wg) (ls : List Nat) : Wg :=
  ls.foldl (fun w l => wgmWrite w (laneOff g m l) (toBytes (mSize m.op) (atomApply (m.op % 16)
    (ofBytes (wgmRead w (laneOff g m l) (mSize m.op)))
    (ofBytes ((regBytes g m.d (atomRegs (m.op % 16)) l).take (mSize m.op)))
    (ofBytes (((regBytes g m.d (atomRegs (m.op % 16)) l).drop (mSize m.op)).take (mSize m.op)))))) w

/-- What the bytes of a physical line are after a write of bytes by offset: the last byte written at an offset, else the byte as it
read before. Every other line reads as before. -/
def LineHolds (s t : State) (slot pa : Nat) (bytes : List (Nat × Nat)) : Prop :=
  (∀ o, o < 128 → byteUnder t.ram (keyId s slot) (lineBase pa + o) = match (bytes.filter (fun b => b.1 == o)).getLast? with
    | some b => b.2 % 256
    | none => byteUnder s.ram (keyId s slot) (lineBase pa + o)) ∧
  (∀ k x, x / 128 ≠ pa / 128 → byteUnder t.ram k x = byteUnder s.ram k x)

/-- A queue command in execution, that its row has not acted on, with no end decided (R330), on an engine that runs. -/
structure InHand (s : State) (q n opc : Nat) (c : Cmd) : Prop where
  here   : cmd? s q n = some c
  key    : c.q = q ∧ c.serial = n
  opc    : c.opc = opc
  runs   : c.stage = .running ∧ c.ran = false ∧ c.res = none ∧ c.killed = none
  engine : c.eng < 40 ∧ engRuns s c.eng = true

/-- `exec i s` decides the end of a command: its status and INFO (R337). -/
def Decides (s : State) (i : Instr) (q n status info : Nat) (P : State → Prop) : Prop :=
  ∃ t c, exec i s = .next t ∧ cmd? t q n = some c ∧ c.res = some (status, info, []) ∧ P t

/-- Where a translation leads an address: the byte's physical address, for lines of this device. -/
def physAt (o : XOut) (va : Nat) : Nat :=
  match o.ok.find? (fun x => x.1 == va / 128 * 128) with
  | some (_, .loc p, _) => p + va % 128
  | _ => 0

/-- A translation leads every line to a line of this device of its own, at a line boundary, that is neither held nor fenced. -/
def Plain (s : State) (o : XOut) : Prop :=
  o.fails = [] ∧ (∀ x ∈ o.ok, ∃ p, x.2.1 = .loc p ∧ p % 128 = 0 ∧ lineHeld s p = false ∧ isFenced s p = false) ∧
    (o.ok.map (·.2.1)).Nodup ∧ (o.ok.map (·.1)).Nodup

/-- No line that a translation leads to holds the first word of a space's descriptor. -/
def Apart (s : State) (die space : Nat) (o : XOut) : Prop :=
  ∀ x ∈ o.ok, ∀ p, x.2.1 = .loc p → ∀ i, i < 4 → p / 128 ≠ (sdAddr s die space + i) / 128

/-- No detector is armed, and no clean copy in L2 lies over a marked line. -/
def Sound (s : State) : Prop :=
  (∀ pg, (blk s pg).injArm = false) ∧ ∀ n i x, tget? (slice s n).lines i = some x → x.below = none

/-- No source line carries the mark. -/
def Unmarked (s : State) (o : XOut) : Prop := ∀ x ∈ o.ok, ∀ p, x.2.1 = .loc p → isMarked s p = false

/-- Every byte outside the lines that a translation leads to reads as before. -/
def OutsideSame (s t : State) (o : XOut) : Prop :=
  ∀ k x, (∀ y ∈ o.ok, ∀ p, y.2.1 = .loc p → p / 128 ≠ x / 128) → byteUnder t.ram k x = byteUnder s.ram k x

/-- A copy or fabric command in execution on which its row has not acted, not killed, outside a transaction group. -/
def Ready (s : State) (q n opc : Nat) (c : Cmd) : Prop := InHand s q n opc c ∧ c.reqs = []

/-- A request of a queue command for a packet stands: it is sent, or waits for its way (R413). -/
def Asked (t : State) (q n : Nat) (P : Packet → Prop) : Prop := ∃ r ∈ t.reqs, r.owner = .cmd q n ∧ P r.k

/-- A packet writes a run of bytes: those of its line that lie in the run, `f` of their place in it. -/
def WritesRun (k : Packet) (line a n : Nat) (f : Nat → Nat) : Prop :=
  k.kind = pkWrite ∧ k.addr = line ∧ ∀ o, o < 128 →
    (k.mask.testBit o = decide (a ≤ line + o ∧ line + o < a + n)) ∧ (a ≤ line + o → line + o < a + n → k.data.getD o 0 = f (line + o - a))

/-- A management command in execution with no end decided, whose PROG is 0 (R355), on an engine that runs. -/
structure MeHand (s : State) (q n opc : Nat) (c : Cmd) : Prop where
  here   : cmd? s q n = some c
  key    : c.q = q ∧ c.serial = n
  opc    : c.opc = opc
  runs   : c.stage = .running ∧ c.res = none ∧ c.killed = none
  engine : 40 ≤ c.eng ∧ engRuns s c.eng = true
  prog   : c.n8 0x10 = 0

/-- No park-wait's registration is undecided. -/
def NoRegWait (s : State) : Prop := ∀ x ∈ s.tiles, ∀ p ∈ x.2.groups, p.2.regWait = false

/-- No access waits for a line that is held, or for room in an eviction buffer: at the slices, from other devices, of the host, a
park-wait's registration, or of the debug unit. -/
structure NothingHeld (s : State) : Prop where
  slices  : ∀ x ∈ s.l2, x.2.waits = []
  packets : s.heldPkts = []
  host    : s.hostQ = []
  parks   : NoRegWait s
  debug   : dbgBusy s = false

/-- A run of bytes at a physical address lies in one line that is not fenced. -/
def InLine (s : State) (a n : Nat) : Prop := a % 128 + n ≤ 128 ∧ isFenced s a = false

/-- A path whose accesses reach the register aperture and are not turned away (R8, R440): it works, and its requests carry tag 0
and find no older access of theirs that still waits when they come from the host (R439). -/
def Access (s : State) (p : Path) (tag : Nat) : Prop := pathUp s p = true ∧ (isGc p = true ∨ (tag = 0 ∧ hostBusy s = false))

/-- A page of the aperture that a block has (R37), with what it is. -/
def PageIs (pg : Nat) (i : PageId) : Prop := pg < 65536 ∧ pageAt pg = some i

/-- Every other page is as before, and so is all of memory; an error that starts a wavefront counts on the DBG page (R519). -/
def OnlyPage (s t : State) (pg : Nat) : Prop := (∀ x, x ≠ pg → x ≠ pgDbg → blk t x = blk s x) ∧ t.ram = s.ram ∧ t.host = s.host

/-- The registers of a page are as before, those of the DBG page apart. -/
def SameRegs (s t : State) (pg : Nat) : Prop := pg ≠ pgDbg → (blk t pg).regs = (blk s pg).regs

/-- A request that a block does not accept (R45): RESP of the path holds the reason, CTRL_REJECT is set, state, owner, staged
writes and registers stay. -/
def Rejects (s t : State) (p : Path) (pg r : Nat) : Prop :=
  tget? (blk t pg).resp (pathIx p) = some r ∧ (blk t pg).errStat.getLsbD 2 = true ∧ (blk t pg).st = (blk s pg).st ∧
    (blk t pg).owner = (blk s pg).owner ∧ (blk t pg).staged = (blk s pg).staged ∧ SameRegs s t pg

/-- A request that a block accepts (R44): its state, PREV and SEQ by R40, its owner, nothing staged when the stop has ended. -/
def Accepts (s t : State) (p : Path) (pg : Nat) (st : BState) (owner : Option Path) : Prop :=
  tget? (blk t pg).resp (pathIx p) = some 0 ∧ (blk t pg).st = st ∧ (blk t pg).prev = (blk s pg).st ∧
    (blk t pg).seq = ((blk s pg).seq + 1) % 65536 ∧ (blk t pg).owner = owner

/-- The pages whose long operations do more than end (R51): what they do stands with their own rules. -/
def plainOp (ty : PT) : Prop := ty ≠ .me ∧ ty ≠ .sec ∧ ty ≠ .gde ∧ ty ≠ .l2s ∧ ty ≠ .tile

/-- A packet of a kind that is not reserved reaches a fabric port that is UP, and its route ends here (R405, R408, R410). -/
structure Arrives (s : State) (p kind : Nat) (k : Packet) : Prop where
  port  : p < 18 ∧ portLive s p = true ∧ linkState s p = lkUp
  kind  : k.kind = kind ∧ kindReserved kind = false
  route : bits k.route 21 20 < pktVc k + 1
  here  : k.dst = myDev s
  lives : isDead s k.src = false

/-- The packet's space is imported, its address leads to a line of this device that is neither held nor fenced (R405). -/
structure Admitted (s s1 : State) (p : Nat) (k : Packet) (a : Acc4) (pa : Nat) : Prop where
  imported : imports s k.space = true
  leads    : ∃ o, translate s (agDie (portDie p)) (portDie p) k.space k.addr a false = (.inr (.loc pa, o), s1)
  free     : lineHeld s1 pa = false ∧ isFenced s1 pa = false

/-- The answer to a packet is on its way back (R409): in a port, or with the router. -/
def Answers (t : State) (k : Packet) (P : Packet → Prop) : Prop :=
  ∃ a, a.dst = k.src ∧ a.stream = k.stream ∧ a.serial = k.serial ∧ P a ∧
    ((∃ q, (∃ f ∈ (port t q).retry, f.pkt = some a) ∨ ∃ w ∈ (port t q).waitq, w.1 = a) ∨ ∃ r ∈ t.reqs, r.k = a)

/-- The packet has its serial in its landing entry (R417). -/
def HasLanded (t : State) (k : Packet) : Prop := ∃ l ∈ t.landing, l.src = k.src ∧ l.stream = k.stream ∧ k.serial ∈ l.landed

/-! The encoding of a bundle (R86, R99, R100, R106, R111): every field lies in the bits it has. -/

/-- A signed offset fits in `w` bits. -/
def fitsI (w : Nat) (o : Int) : Bool := -((2 ^ (w - 1) : Nat) : Int) ≤ o && o < ((2 ^ (w - 1) : Nat) : Int)

def copFits : COp → Bool
  | .bra o => fitsI 22 o
  | .brCond s c o => s < 32 && c < 8 && fitsI 14 o
  | .brp p m o => p < 8 && m < 4 && fitsI 17 o
  | .call d o => d < 32 && fitsI 17 o
  | .jmpr r => r < 32
  | .split p e f => p < 8 && e < 512 && f < 1024
  | .join => true
  | .loop x => x < 65536
  | .brk p => p < 8
  | .exit => true
  | .bar => true
  | .trap c => c < 256
  | .waitle k n => k < 8 && n < 64
  | .rdlic d => d < 32
  | .rdstep d => d < 32
  | .ualu op d a b => 0x10 ≤ op && op ≤ 0x1B && d < 32 && a < 32 && b < 32
  | .ualui op d a i => 0x20 ≤ op && op ≤ 0x26 && d < 32 && a < 32 && i < 4096
  | .umovi d i => d < 32 && i < 131072
  | .movl d => d < 32
  | .movl64 d => d < 32
  | .pmov p r => p < 8 && r < 32
  | .smovp d p => d < 32 && p < 8
  | .plog op d a b => 0x2C ≤ op && op ≤ 0x2E && d < 8 && a < 8 && b < 8
  | .pnot d a => d < 8 && a < 8

def vopFits : VOp → Bool
  | .vr op d a b => op < 8 && d < 256 && a < 256 && b < 256
  | .vx op x d a => op < 64 && x < 32 && d < 256 && a < 256

def mopFits (m : MOp) : Bool := m.op < 128 && m.d < 256 && m.a < 256 && m.b < 32
def aopFits (a : AOp) : Bool := a.op < 16 && a.sr < 32

/-- Every slot of a bundle that is present fits. -/
def bundleFits (b : Bundle) : Bool := b.wait < 64 && b.c.all copFits && b.v.all vopFits && b.m.all mopFits && b.a.all aopFits

/-- Memory of the device, and what it has written to the host's, is in canonical form. -/
def MemInv (s : State) : Prop := s.ram.wf = true ∧ cellsOk s.host = true

end Sys2Proof.Safety
end

