-- ==== Sys2Proof/WellFormed.lean ====
section
/-!
DEFINITION. Operands that name something of the machine: the ranges that the spec gives each number in a command.
-/
namespace Sys2Proof

/-! Numbers. -/
def u6 (n : Nat) : Bool := n < 2 ^ 6
def u8 (n : Nat) : Bool := n < 2 ^ 8
def u14 (n : Nat) : Bool := n < 2 ^ 14
def u16 (n : Nat) : Bool := n < 2 ^ 16
def u32 (n : Nat) : Bool := n < 2 ^ 32
def u64 (n : Nat) : Bool := n < 2 ^ 64
/-- 176 physical tiles, 44 a die (R37). -/
def tileOk (t : Nat) : Bool := t < 176
def dieOk (d : Nat) : Bool := d < 4
/-- Fabric ports 0 to 17 (R14); 18 is the host link. -/
def portOk (p : Nat) : Bool := p < 19
/-- Q0 to Q16383 (R327). -/
def queueOk (q : Nat) : Bool := q < 16384
/-- DE, CE, FX and ME engines by number. -/
def engineOk (e : Nat) : Bool := e < 44
def stackOk (k : Nat) : Bool := k < 12
/-- Core rails 0 to 15, the shared supply of die d at 16 + d (R455). -/
def railOk (r : Nat) : Bool := r < 20
def sliceOk (x : Nat) : Bool := x < 128
/-- DEVICE numbers have 12 bits (R403). -/
def devOk (d : Nat) : Bool := d < 4096
def spaceOk (x : Nat) : Bool := x < 4096
/-- The lanes of a link. -/
def laneOk (l : Nat) : Bool := l < 9
/-- Pages of 4 KiB of the 256 MiB register aperture (R533). -/
def pageOk (pg : Nat) : Bool := pg < 65536
def apertureOk (off : Nat) : Bool := off < 2 ^ 28
/-- An access of the memory window moves 1 to 64 bytes. -/
def windowOk (off n : Nat) : Bool := off < 2 ^ 48 && 1 ≤ n && n ≤ 64
/-- A physical line address (R222). -/
def paOk (pa : Nat) : Bool := pa % 128 = 0 && pa < 2 ^ 64

/-! Operand records. -/
def GRef.wf (g : GRef) : Bool := tileOk g.tile && u6 g.slot
def LineKind.wf : LineKind → Bool
  | .read => true
  | .write bs => bs.all (fun b => b.1 < 128 && u8 b.2)
  | .zero => true
  | .atomic k off a b => k < 16 && off < 128 && u64 a && u64 b
def LineOp.wf (o : LineOp) : Bool := paOk o.pa && u8 o.slot && o.kind.wf && (match o.txg with
  | none => true
  | some (d, n) => dieOk d && u6 n)
def Packet.wf (k : Packet) : Bool := u8 k.kind && u16 k.flags && devOk k.dst && devOk k.src && spaceOk k.space && u14 k.stream && u32 k.serial && u32 k.first
def KeyxFlit.wf (k : KeyxFlit) : Bool := k.chain.all u8 && k.sig.all u8
def DataFlit.wf (f : DataFlit) : Bool := f.kphase < 2 && u16 f.seq && u16 f.ack
def RollCall.wf (r : RollCall) : Bool := devOk r.dev && u8 r.port && r.dead.all devOk
def HoldAt.wf : HoldAt → Bool
  | .resident t _ => tileOk t
  | .parked q _ => queueOk q
def PaceMeas.wf (m : PaceMeas) : Bool := m.amps.length = 16
def BootFacts.wf (b : BootFacts) : Bool :=
  b.clusters.all dieOk && b.edges.all (· < 4) && b.stackSet.all stackOk && b.tiles.all tileOk && b.cells.all (fun c => tileOk c.1) && b.ways.all (fun w => sliceOk w.1) && b.noise.all pageOk

/-- Every operand of a command is in range. -/
def wellFormed : Instr → Bool
  | .regWrite _ tag off size v => u16 tag && apertureOk off && (size = 1 || size = 2 || size = 4 || size = 8) && u64 v
  | .rcRead _ tag off size => u16 tag && apertureOk off && (size = 1 || size = 2 || size = 4 || size = 8)
  | .pairLowWrite _ tag off v => u16 tag && apertureOk off && u32 v
  | .pairHighWrite _ tag off v => u16 tag && apertureOk off && u32 v
  | .pairLowRead _ tag off => u16 tag && apertureOk off
  | .blkProgRead _ tag page => u16 tag && pageOk page
  | .stop _ tag page => u16 tag && pageOk page
  | .restart _ tag page => u16 tag && pageOk page
  | .discard _ tag page => u16 tag && pageOk page
  | .cancelOp _ tag page => u16 tag && pageOk page
  | .take _ tag page => u16 tag && pageOk page
  | .withdraw _ tag page => u16 tag && pageOk page
  | .blockStopped page => pageOk page
  | .blockFault page => pageOk page
  | .longOpEnd page _ => pageOk page
  | .injArm _ tag page v => u16 tag && pageOk page && u32 v
  | .snapRelease _ tag page v => u16 tag && pageOk page && u32 v
  | .rateInterval page _ => pageOk page
  | .counterTrim page _ _ => pageOk page
  | .trimStale page => pageOk page
  | .dieEdgeFail e => decide (e < 4)
  | .wgOffer q serial => queueOk q && u32 serial
  | .issueRound tile => tileOk tile
  | .codeFetch g => g.wf
  | .bra g _ => g.wf
  | .brCond g _ _ _ => g.wf
  | .brpMode g _ _ _ => g.wf
  | .call g _ _ => g.wf
  | .jmpr g _ => g.wf
  | .split g _ _ _ => g.wf
  | .joinM g => g.wf
  | .loopM g _ => g.wf
  | .breakM g _ => g.wf
  | .exitM g => g.wf
  | .bar g => g.wf
  | .trap g _ => g.wf
  | .waitle g _ _ => g.wf
  | .rdlic g _ => g.wf
  | .rdstep g _ => g.wf
  | .uadd g _ _ _ => g.wf
  | .usub g _ _ _ => g.wf
  | .umul g _ _ _ => g.wf
  | .uand g _ _ _ => g.wf
  | .uor g _ _ _ => g.wf
  | .uxor g _ _ _ => g.wf
  | .ushl g _ _ _ => g.wf
  | .ushr g _ _ _ => g.wf
  | .usar g _ _ _ => g.wf
  | .uminS g _ _ _ => g.wf
  | .umaxS g _ _ _ => g.wf
  | .uminU g _ _ _ => g.wf
  | .uaddi g _ _ _ => g.wf
  | .uandi g _ _ _ => g.wf
  | .uori g _ _ _ => g.wf
  | .uxori g _ _ _ => g.wf
  | .ushli g _ _ _ => g.wf
  | .ushri g _ _ _ => g.wf
  | .usari g _ _ _ => g.wf
  | .umovi g _ _ => g.wf
  | .movl g _ _ => g.wf
  | .movl64 g _ _ _ => g.wf
  | .pmov g _ _ => g.wf
  | .smovp g _ _ => g.wf
  | .pand g _ _ _ => g.wf
  | .por g _ _ _ => g.wf
  | .pandn g _ _ _ => g.wf
  | .pnot g _ _ => g.wf
  | .fmaF32 g _ _ _ _ => g.wf
  | .fmaBf2 g _ _ _ _ => g.wf
  | .mulF32 g _ _ _ _ => g.wf
  | .addF32 g _ _ _ _ => g.wf
  | .subF32 g _ _ _ _ => g.wf
  | .addI32 g _ _ _ _ => g.wf
  | .subI32 g _ _ _ _ => g.wf
  | .mulI32 g _ _ _ _ => g.wf
  | .minF32 g _ _ _ => g.wf
  | .maxF32 g _ _ _ => g.wf
  | .minS32 g _ _ _ => g.wf
  | .maxS32 g _ _ _ => g.wf
  | .minU32 g _ _ _ => g.wf
  | .maxU32 g _ _ _ => g.wf
  | .andV g _ _ _ => g.wf
  | .orV g _ _ _ => g.wf
  | .xorV g _ _ _ => g.wf
  | .shlV g _ _ _ => g.wf
  | .shrV g _ _ _ => g.wf
  | .sarV g _ _ _ => g.wf
  | .cmpEqF32 g _ _ _ _ => g.wf
  | .cmpLtF32 g _ _ _ _ => g.wf
  | .cmpLeF32 g _ _ _ _ => g.wf
  | .cmpNeF32 g _ _ _ _ => g.wf
  | .cmpEqI32 g _ _ _ _ => g.wf
  | .cmpLtS32 g _ _ _ _ => g.wf
  | .cmpLeS32 g _ _ _ _ => g.wf
  | .cmpNeI32 g _ _ _ _ => g.wf
  | .cmpLtU32 g _ _ _ _ => g.wf
  | .cmpLeU32 g _ _ _ _ => g.wf
  | .sel g _ _ _ _ => g.wf
  | .movV g _ _ _ => g.wf
  | .bcast g _ _ => g.wf
  | .readlane g _ _ _ => g.wf
  | .lane g _ => g.wf
  | .wglane g _ => g.wf
  | .shflIdx g _ _ _ => g.wf
  | .shflXor g _ _ _ _ => g.wf
  | .absF32 g _ _ _ => g.wf
  | .negF32 g _ _ _ => g.wf
  | .cvtn g _ _ _ _ => g.wf
  | .cvtz g _ _ _ _ => g.wf
  | .cvts g _ _ _ _ => g.wf
  | .cvtf g _ _ _ _ => g.wf
  | .exp2 g _ _ _ => g.wf
  | .log2 g _ _ _ => g.wf
  | .rcp g _ _ _ => g.wf
  | .rsq g _ _ _ => g.wf
  | .sqrtV g _ _ _ => g.wf
  | .sinV g _ _ _ => g.wf
  | .cosV g _ _ _ => g.wf
  | .reduAddF32 g _ _ _ => g.wf
  | .reduMaxF32 g _ _ _ => g.wf
  | .reduMinF32 g _ _ _ => g.wf
  | .reduAddI32 g _ _ _ => g.wf
  | .longResult g _ => g.wf
  | .ld g _ _ _ _ => g.wf
  | .ldw g _ _ _ _ => g.wf
  | .st g _ _ _ _ => g.wf
  | .stw g _ _ _ _ => g.wf
  | .atom g _ _ _ _ => g.wf
  | .atomn g _ _ _ _ => g.wf
  | .atomw g _ _ _ _ => g.wf
  | .atomwn g _ _ _ _ => g.wf
  | .ldr g _ _ _ _ => g.wf
  | .stc g _ _ _ _ => g.wf
  | .fence g _ => g.wf
  | .invl1 g => g.wf
  | .pref g _ _ => g.wf
  | .zline g _ _ => g.wf
  | .signal g _ _ => g.wf
  | .pwait g _ _ => g.wf
  | .txbind g _ => g.wf
  | .txunbind g => g.wf
  | .arr g _ => g.wf
  | .row g _ => g.wf
  | .impreciseFault g code => g.wf && u8 code
  | .loadReturn g _ => g.wf
  | .storeRelease tile _ => tileOk tile
  | .storePerformed tile _ => tileOk tile
  | .syncComplete g _ => g.wf
  | .groupEnd g => g.wf
  | .wgPark tile _ reason => tileOk tile && decide (reason < 8)
  | .parkDone tile _ => tileOk tile
  | .parkSlotFree tile _ => tileOk tile
  | .wgAbandon tile _ => tileOk tile
  | .autoReplay q _ => queueOk q
  | .arrAccept tile => tileOk tile
  | .arrCompute a => tileOk a.tile
  | .arrDrain tile _ _ => tileOk tile
  | .arrDelivered tile => tileOk tile
  | .arrRetry _ tag tile => u16 tag && tileOk tile
  | .arrPoison _ tag tile => u16 tag && tileOk tile
  | .holdResponse tile => tileOk tile
  | .holdEscalate tile => tileOk tile
  | .rowAccept tile => tileOk tile
  | .rmsnorm a => tileOk a.tile && a.errs.all (fun e => e.1 < 512 && 1 ≤ e.2 && e.2 ≤ 4)
  | .layernorm a => tileOk a.tile && a.errs.all (fun e => e.1 < 512 && 1 ≤ e.2 && e.2 ≤ 4)
  | .softmax a => tileOk a.tile && a.errs.all (fun e => e.1 < 512 && 1 ≤ e.2 && e.2 ≤ 4)
  | .logsoftmax a => tileOk a.tile && a.errs.all (fun e => e.1 < 512 && 1 ≤ e.2 && e.2 ≤ 4)
  | .stats a => tileOk a.tile && a.errs.all (fun e => e.1 < 512 && 1 ≤ e.2 && e.2 ≤ 4)
  | .expsum a => tileOk a.tile && a.errs.all (fun e => e.1 < 512 && 1 ≤ e.2 && e.2 ≤ 4)
  | .merge a => tileOk a.tile && a.errs.all (fun e => e.1 < 512 && 1 ≤ e.2 && e.2 ≤ 4)
  | .sample a => tileOk a.tile && a.errs.all (fun e => e.1 < 512 && 1 ≤ e.2 && e.2 ≤ 4)
  | .dropout a => tileOk a.tile && a.errs.all (fun e => e.1 < 512 && 1 ≤ e.2 && e.2 ≤ 4)
  | .rmsnormBwd a => tileOk a.tile && a.errs.all (fun e => e.1 < 512 && 1 ≤ e.2 && e.2 ≤ 4)
  | .layernormBwd a => tileOk a.tile && a.errs.all (fun e => e.1 < 512 && 1 ≤ e.2 && e.2 ≤ 4)
  | .softmaxBwd a => tileOk a.tile && a.errs.all (fun e => e.1 < 512 && 1 ≤ e.2 && e.2 ≤ 4)
  | .logsoftmaxBwd a => tileOk a.tile && a.errs.all (fun e => e.1 < 512 && 1 ≤ e.2 && e.2 ≤ 4)
  | .dropoutBwd a => tileOk a.tile && a.errs.all (fun e => e.1 < 512 && 1 ≤ e.2 && e.2 ≤ 4)
  | .sinv tile => tileOk tile
  | .rowComplete tile => tileOk tile
  | .noiseHealthFail page => pageOk page
  | .noiseRetest page _ => pageOk page
  | .l2LineAccess op => op.wf
  | .reduceWrite slot pa addends => u8 slot && paOk pa && (addends.length ≤ 32)
  | .hbmFillReturn pa => paOk pa
  | .evictionWriteback pa => paOk pa
  | .waySwap _ tag page v => u16 tag && pageOk page && u32 v
  | .scrubPass _ stack _ _ => stackOk stack
  | .hbmRowRepair stack _ _ => stackOk stack
  | .pchLost stack pch => stackOk stack && decide (pch < 64)
  | .pchRedirect stack pch => stackOk stack && decide (pch < 64)
  | .rangeWalk die space va => dieOk die && spaceOk space && u64 va
  | .reservationTimeout tile slot => tileOk tile && u6 slot
  | .ldrHoldTimeout _ => true
  | .warmReset => true
  | .sbDrainExpire => true
  | .powerLoss => true
  | .watchEntryAdmit die => dieOk die
  | .groupWatchEnd die _ => dieOk die
  | .queueWatchEnd die _ => dieOk die
  | .abandonMark die _ _ => dieOk die
  | .watchEntryError die _ => dieOk die
  | .belReturnService die => dieOk die
  | .txgOpen q serial => queueOk q && u32 serial
  | .txgCommit q serial => queueOk q && u32 serial
  | .txgAbort q serial => queueOk q && u32 serial
  | .txgCommitPoint die p => dieOk die && u6 p.slot
  | .txgInstall die slot part => dieOk die && u6 slot && decide (part.slice < 32)
  | .txgExpired die slot => dieOk die && u6 slot
  | .doorbellWrite q tag size a => queueOk q && u16 tag && (size = 1 || size = 2 || size = 4 || size = 8) && a.val.all u64
  | .commandFetch q => queueOk q
  | .commandStart e => engineOk e
  | .commandEnd q serial => queueOk q && u32 serial
  | .queueTimeout q serial => queueOk q && u32 serial
  | .nop q serial => queueOk q && u32 serial
  | .waitCmd q serial => queueOk q && u32 serial
  | .signalCmd q serial => queueOk q && u32 serial
  | .watchCmd q serial => queueOk q && u32 serial
  | .launch q serial => queueOk q && u32 serial
  | .replay q serial => queueOk q && u32 serial
  | .copyCmd q serial => queueOk q && u32 serial
  | .fillCmd q serial => queueOk q && u32 serial
  | .convert q serial => queueOk q && u32 serial
  | .addCmd q serial => queueOk q && u32 serial
  | .put q serial => queueOk q && u32 serial
  | .rfence q serial => queueOk q && u32 serial
  | .allreduce q serial => queueOk q && u32 serial
  | .scatter q serial => queueOk q && u32 serial
  | .queueCreate q serial => queueOk q && u32 serial
  | .queueSet q serial => queueOk q && u32 serial
  | .queueStop q serial => queueOk q && u32 serial
  | .queueStart q serial => queueOk q && u32 serial
  | .queueDestroy q serial => queueOk q && u32 serial
  | .destroyDieAck q die => queueOk q && dieOk die
  | .opAbort q serial => queueOk q && u32 serial
  | .ctxBind q serial => queueOk q && u32 serial
  | .ctxUnbind q serial => queueOk q && u32 serial
  | .spaceCreate q serial => queueOk q && u32 serial
  | .spaceTable q serial => queueOk q && u32 serial
  | .spaceStop q serial => queueOk q && u32 serial
  | .spaceSet q serial => queueOk q && u32 serial
  | .spaceRestart q serial => queueOk q && u32 serial
  | .shootdown q serial => queueOk q && u32 serial
  | .spaceRetire q serial => queueOk q && u32 serial
  | .retireStage space die => spaceOk space && dieOk die
  | .handleFree q serial => queueOk q && u32 serial
  | .abandonClear q serial => queueOk q && u32 serial
  | .preempt q serial => queueOk q && u32 serial
  | .preemptHoldExpire at_ => at_.wf
  | .selftest q serial => queueOk q && u32 serial
  | .selftestDeadline tile => tileOk tile
  | .reconfig q serial => queueOk q && u32 serial
  | .kill q serial cause => queueOk q && u32 serial && (0x40 ≤ cause && cause ≤ 0x43)
  | .killDone q serial => queueOk q && u32 serial
  | .detectTimeout port => portOk port
  | .detectRetry port => portOk port
  | .partnerDetect port => portOk port
  | .laneLockTimeout port lane => portOk port && laneOk lane
  | .initFlit port _ credits _ => portOk port && credits.all u8
  | .keyxFlit port flit => portOk port && flit.wf
  | .keyxTimeout port => portOk port
  | .los port => portOk port
  | .dataFlit port flit => portOk port && flit.wf
  | .idleFlit port _ _ _ _ => portOk port
  | .idleFlitDue port => portOk port
  | .nak port _ => portOk port
  | .laneBad port lane => portOk port && laneOk lane
  | .lsymWindow port counts => portOk port && (counts.length = 9)
  | .retrain port _ => portOk port
  | .retrainDone port _ => portOk port
  | .rekey port => portOk port
  | .trainRetry port => portOk port
  | .writePacket port k => portOk port && k.wf
  | .readPacket port k => portOk port && k.wf
  | .atomicPacket port k => portOk port && k.wf
  | .signalPacket port k => portOk port && k.wf
  | .anchorPacket port k => portOk port && k.wf
  | .anchorRelease src stream serial => devOk src && u14 stream && u32 serial
  | .reducePacket port k => portOk port && k.wf
  | .gatherPacket port k => portOk port && k.wf
  | .allreduceGather q serial => queueOk q && u32 serial
  | .watchPacket port k => portOk port && k.wf
  | .notifyPacket port k => portOk port && k.wf
  | .ackPacket port k => portOk port && k.wf
  | .dataPacket port k => portOk port && k.wf
  | .busyResend _ => true
  | .packetResend _ => true
  | .resendDeadline _ => true
  | .landingExpire src stream => devOk src && u14 stream
  | .routeTableUpdate dst alts => devOk dst && (alts.length ≤ 4 && alts.all u16)
  | .rollCall port r => portOk port && r.wf
  | .staleResync port => portOk port
  | .loss port dev epoch => portOk port && devOk dev && u16 epoch
  | .joinNotice port dev epoch => portOk port && devOk dev && u16 epoch
  | .depart port => portOk port
  | .heartbeat port => portOk port
  | .heartbeatTimeout port => portOk port
  | .neighbourDead dev => devOk dev
  | .memWindowAccess tag off _ data => u16 tag && windowOk off data.length && (data.all u8)
  | .ringEnable _ tag v => u16 tag && u32 v
  | .ringDisable _ tag v => u16 tag && u32 v
  | .rconsWrite _ tag v => u16 tag && u32 v
  | .eventPost => true
  | .nhlLinkLoss => true
  | .nhlLinkReturn => true
  | .mctpControl code _ => u8 code
  | .vendorReadStatus => true
  | .vendorClearAlert mask => u8 mask
  | .getVersion => true
  | .getCapabilities => true
  | .negotiateAlgorithms offered => (offered.all u8)
  | .getDigests => true
  | .getCertificate _ _ _ => true
  | .challenge _ _ => true
  | .getMeasurements _ _ => true
  | .spdmUnsupported code => u8 code
  | .inputExcursion _ => true
  | .inputExcursionTimeout => true
  | .pacingPeriod m => m.wf
  | .fastLimit => true
  | .pwrCapWrite _ tag v => u16 tag && u32 v
  | .pwrVceilWrite _ tag v => u16 tag && u32 v
  | .pwrEstDiverge => true
  | .measureStep => true
  | .pwrEstRecover => true
  | .railDroop rail _ => railOk rail
  | .railFault rail => railOk rail
  | .sensorSample die sensor _ _ => dieOk die && decide (sensor ≤ 56)
  | .thermalTripOff => true
  | .tileHang tile => tileOk tile
  | .tileReplaceOrderly tile => tileOk tile
  | .tileReplaceAbrupt tile => tileOk tile
  | .tilePlace tile => tileOk tile
  | .sliceBypass slice => sliceOk slice
  | .phaseLost rail => railOk rail
  | .oscCompare _ _ => true
  | .guideCoreFail die core => dieOk die && decide (core < 4)
  | .clusterHeartbeat die => dieOk die
  | .guideTakeover die => dieOk die
  | .wearJudge tile ratios => tileOk tile && (ratios.length ≤ 21)
  | .periodicSelftest tile => tileOk tile
  | .fwUpdate _ tag die v => u16 tag && dieOk die && u32 v
  | .fwUpdateFail die => dieOk die
  | .powerUp b => b.wf
  | .modResetRelease b => b.wf
  | .cardWrite _ _ => true
  | .keyLoad _ tag v => u16 tag && u32 v
  | .keyGenerate _ tag v => u16 tag && u32 v
  | .keyClear _ tag v => u16 tag && u32 v
  | .entropyFail => true
  | .dbgSubmit _ tag v => u16 tag && u32 v
  | .dbgEnd _ tag v => u16 tag && u32 v
  | .trigIn => true
  | .dbgFire _ tag v => u16 tag && u32 v
  | .wavefrontArrive page => pageOk page
  | .errorLogWrite => true
  | .dbgHalt _ tag v => u16 tag && u32 v
  | .dbgMemRead _ tag v => u16 tag && u32 v
  | .perfClear _ tag tile v => u16 tag && tileOk tile && u32 v
  | .cableConnect port => portOk port
  | .cableRemove port => portOk port
  | .cableIdRead port _ _ => portOk port
  | .cableOverpower port => portOk port
  | .inputRangeReturn => true
  | .railVoltageReturn rail => railOk rail
  | .keyGeneratorRetest _ => true

abbrev Instr.WellFormed (i : Instr) : Prop := wellFormed i = true

end Sys2Proof
end

