-- ==== Sys2Proof/Certificates/Slice0/Obligations.lean ====
section
/-!
DEFINITION. The statements for the provers.
-/
open Sys2Proof Sys2Proof.Machine Sys2Proof.Safety

/-- For every group that may issue: UADD, USUB, UMUL, UAND, UOR, UXOR, USHL, USHR, USAR, UMIN.S, UMAX.S and UMIN.U answer a next
state in which sd holds the 64-bit result of sa and sb (sums, differences and products modulo 2^64; shifts by sb[5:0]; minima
and maxima signed or unsigned); UADDI, UANDI, UORI and UXORI combine sa with the 12-bit immediate sign-extended; USHLI, USHRI
and USARI shift by imm[5:0]; UMOVI gives its 17-bit immediate sign-extended; MOVL gives L0 zero-extended and MOVL64 gives L1
: L0, and these two go on 32 B later, past their literal bundle; RDSTEP gives the tile's step count with this step counted.
Every other uniform register, the vector and predicate registers and the masks are unchanged, the PC is 16 B on, and no other
group, tile, page or memory byte changes. -/
def Obligations.UniformArithmetic : Prop :=
  ∀ (s : State) (r : GRef) (g : Group) (sd sa sb : BitVec 5) (imm : BitVec 12) (imm17 : BitVec 17) (l0 l1 : BitVec 32), MayIssue s r g →
    (let a := g.uget sa.toNat
     let b := g.uget sb.toNat
     let i := (imm.signExtend 64).toNat
     let k := imm.toNat % 64
     UniformResult s r g (.uadd r sd sa sb) 16 sd (a + b) ∧
     UniformResult s r g (.usub r sd sa sb) 16 sd (a + (2 ^ 64 - b)) ∧
     UniformResult s r g (.umul r sd sa sb) 16 sd (a * b) ∧
     UniformResult s r g (.uand r sd sa sb) 16 sd (a &&& b) ∧
     UniformResult s r g (.uor r sd sa sb) 16 sd (a ||| b) ∧
     UniformResult s r g (.uxor r sd sa sb) 16 sd (a ^^^ b) ∧
     UniformResult s r g (.ushl r sd sa sb) 16 sd (a * 2 ^ (b % 64)) ∧
     UniformResult s r g (.ushr r sd sa sb) 16 sd (a / 2 ^ (b % 64)) ∧
     UniformResult s r g (.usar r sd sa sb) 16 sd ((BitVec.ofNat 64 a).sshiftRight (b % 64)).toNat ∧
     UniformResult s r g (.uminS r sd sa sb) 16 sd (if (BitVec.ofNat 64 a).slt (BitVec.ofNat 64 b) then a else b) ∧
     UniformResult s r g (.umaxS r sd sa sb) 16 sd (if (BitVec.ofNat 64 a).slt (BitVec.ofNat 64 b) then b else a) ∧
     UniformResult s r g (.uminU r sd sa sb) 16 sd (if a < b then a else b) ∧
     UniformResult s r g (.uaddi r sd sa imm) 16 sd (a + i) ∧
     UniformResult s r g (.uandi r sd sa imm) 16 sd (a &&& i) ∧
     UniformResult s r g (.uori r sd sa imm) 16 sd (a ||| i) ∧
     UniformResult s r g (.uxori r sd sa imm) 16 sd (a ^^^ i) ∧
     UniformResult s r g (.ushli r sd sa imm) 16 sd (a * 2 ^ k) ∧
     UniformResult s r g (.ushri r sd sa imm) 16 sd (a / 2 ^ k) ∧
     UniformResult s r g (.usari r sd sa imm) 16 sd ((BitVec.ofNat 64 a).sshiftRight k).toNat ∧
     UniformResult s r g (.umovi r sd imm17) 16 sd (imm17.signExtend 64).toNat ∧
     UniformResult s r g (.movl r sd l0) 32 sd l0.toNat ∧
     UniformResult s r g (.movl64 r sd l0 l1) 32 sd (l0.toNat + 2 ^ 32 * l1.toNat) ∧
     UniformResult s r g (.rdstep r sd) 16 sd (((blk s (pgTile r.tile)).steps + 1) % 2 ^ 64))

/-- For every group that may issue: PMOV copies a uniform register into a predicate, PAND, POR and PANDN combine two predicates,
PNOT inverts one, and bits at and above the group's width read 0; SMOVP copies a predicate into a uniform register; RDLIC
gives a uniform register some value of the local interval count (its advance is free); WAITLE goes on when its counter is at
most n and changes nothing but the PC. Nothing else changes. -/
def Obligations.PredicateOperations : Prop :=
  ∀ (s : State) (r : GRef) (g : Group) (sd sa : BitVec 5) (pd pa pb : BitVec 3) (k : BitVec 3) (n : BitVec 6), MayIssue s r g →
    (let a := g.pget pa.toNat
     let b := g.pget pb.toNat
     PredicateResult s r g (.pmov r pd sa) pd (g.uget sa.toNat) ∧
     PredicateResult s r g (.pand r pd pa pb) pd (a &&& b) ∧
     PredicateResult s r g (.por r pd pa pb) pd (a ||| b) ∧
     PredicateResult s r g (.pandn r pd pa pb) pd (a &&& (2 ^ 64 - 1 - b)) ∧
     PredicateResult s r g (.pnot r pd pa) pd (2 ^ 64 - 1 - a) ∧
     UniformResult s r g (.smovp r sd pa) 16 sd a ∧
     (∃ lic, UniformResult s r g (.rdlic r sd) 16 sd lic) ∧
     (k.toNat < 6 → g.count k.toNat ≤ n.toNat → GoesTo s r g (.waitle r k n) ((g.pc + 16) % 2 ^ 64)))

/-- For every group that may issue: BRA goes to the bundle's address plus 16 times its signed offset; BR.cond does so exactly
when the signed 64-bit register meets its condition (EQZ, NEZ, LTZ, GEZ, GTZ, LEZ), and else goes on 16 B later; BRP.mode
decides over the active lanes by ANY, ALL or NONE; CALL also gives sd the address of the next bundle; JMPR goes to a register
that is a multiple of 16, and on any other the group faults with ALIGN and its workgroup starts to park. Nothing else changes
but, in that fault, what R74 names. -/
def Obligations.BranchesMoveTheGroup : Prop :=
  ∀ (s : State) (r : GRef) (g : Group) (sr sd : BitVec 5) (p : BitVec 3), MayIssue s r g →
    (∀ off : BitVec 22, GoesTo s r g (.bra r off) (((g.pc : Int) + 16 * off.toInt) % 2 ^ 64).toNat) ∧
    (∀ (cond : BitVec 3) (off : BitVec 14), cond.toNat < 6 →
      let x := (BitVec.ofNat 64 (g.uget sr.toNat)).toInt
      let meets : Bool := match cond.toNat with
        | 0 => x = 0
        | 1 => x ≠ 0
        | 2 => x < 0
        | 3 => x ≥ 0
        | 4 => x > 0
        | _ => x ≤ 0
      GoesTo s r g (.brCond r sr cond off) (if meets then (((g.pc : Int) + 16 * off.toInt) % 2 ^ 64).toNat else (g.pc + 16) % 2 ^ 64)) ∧
    (∀ (mode : BitVec 2) (off : BitVec 17), mode.toNat < 3 →
      let set := g.active &&& g.pget p.toNat
      let meets : Bool := match mode.toNat with
        | 0 => set ≠ 0
        | 1 => set = g.active
        | _ => set = 0
      GoesTo s r g (.brpMode r p mode off) (if meets then (((g.pc : Int) + 16 * off.toInt) % 2 ^ 64).toNat else (g.pc + 16) % 2 ^ 64)) ∧
    (∀ off : BitVec 17, ∃ t g', exec (.call r sd off) s = .next t ∧ group? t r.tile r.slot = some g' ∧
      g'.pc = (((g.pc : Int) + 16 * off.toInt) % 2 ^ 64).toNat ∧ g'.uget sd.toNat = (g.pc + 16) % 2 ^ 64 ∧
      (∀ k, k ≠ sd.toNat → g'.uget k = g.uget k) ∧ g'.v = g.v ∧ g'.p = g.p ∧ SameMasks g g' ∧ OnlyGroup s t r) ∧
    (g.uget sr.toNat % 16 = 0 → GoesTo s r g (.jmpr r sr) (g.uget sr.toNat)) ∧
    (g.uget sr.toNat % 16 ≠ 0 → ∃ t g', exec (.jmpr r sr) s = .next t ∧ group? t r.tile r.slot = some g' ∧
      (g'.fault.map (·.code)) = some fAlign ∧ g'.pc = g.pc ∧ g'.u = g.u ∧ g'.v = g.v ∧ g'.p = g.p)

/-- For every group that may issue with live lanes: SPLIT pushes an entry with the active mask, the lanes outside the predicate
and both targets, and goes on with the lanes of the predicate, or, when there are none, at once with the others at the else
target; JOIN on a THEN entry with deferred lanes turns to them at the first target, and else pops and goes on with the saved
lanes that live at the second; LOOP pushes an entry and goes on; BREAK in a loop takes the lanes of the predicate out, and
leaves the loop when none is left. Only the group's own masks, stack and address change. -/
def Obligations.MaskStackOperations : Prop :=
  ∀ (s : State) (r : GRef) (g : Group) (p : BitVec 3), MayIssue s r g → g.live ≠ 0 →
    (∀ (els : BitVec 9) (fin : BitVec 10), els ≠ 0 → fin ≠ 0 → g.stack.length < 32 →
      let taken := g.active &&& g.pget p.toNat
      let other := without g.active (g.pget p.toNat)
      let e : MEntry := { saved := g.active, deferred := other, t1 := target g els.toNat, t2 := target g fin.toNat, phase := 0 }
      (taken ≠ 0 → MaskResult s r g (.split r p els fin) ((g.pc + 16) % 2 ^ 64) taken (e :: g.stack)) ∧
      (taken = 0 → MaskResult s r g (.split r p els fin) (target g els.toNat) other ({ e with phase := 1 } :: g.stack))) ∧
    (∀ (e : MEntry) (rest : List MEntry), g.stack = e :: rest →
      (e.phase = 0 → e.deferred ≠ 0 → MaskResult s r g (.joinM r) e.t1 e.deferred ({ e with phase := 1 } :: rest)) ∧
      (e.phase ≠ 0 ∨ e.deferred = 0 → e.saved &&& g.live ≠ 0 → MaskResult s r g (.joinM r) e.t2 (e.saved &&& g.live) rest)) ∧
    (∀ out : BitVec 16, out ≠ 0 → g.stack.length < 32 →
      MaskResult s r g (.loopM r out) ((g.pc + 16) % 2 ^ 64) g.active
        ({ saved := g.active, deferred := 0, t1 := target g out.toNat, t2 := target g out.toNat, phase := 2 } :: g.stack)) ∧
    (∀ (e : MEntry) (rest : List MEntry), g.stack = e :: rest → e.phase = 2 →
      let left := without g.active (g.pget p.toNat)
      (left ≠ 0 → MaskResult s r g (.breakM r p) ((g.pc + 16) % 2 ^ 64) left g.stack) ∧
      (left = 0 → e.saved &&& g.live ≠ 0 → MaskResult s r g (.breakM r p) e.t2 (e.saved &&& g.live) rest))

/-- For every group that may issue: EXIT takes the active lanes out of the live mask and, when none is left, the group has
finished; its registers stay. BAR records the active lanes as arrived and goes on at the next address: while a running group
of the workgroup has live lanes that have not arrived, the group waits; when these are the last lanes, every load of the
workgroup has returned and every store of it has been performed at its local home slice, every waiting group runs on, no lane
counts as arrived, and the barrier generation goes up by one. Memory and every other group's registers and masks stay. -/
def Obligations.ExitAndBarrier : Prop :=
  ∀ (s : State) (r : GRef) (g : Group), MayIssue s r g →
    (∃ t g', exec (.exitM r) s = .next t ∧ group? t r.tile r.slot = some g' ∧ g'.live = without g.live g.active ∧
      (g'.live = 0 → g'.stat = .finished) ∧ g'.u = g.u ∧ g'.v = g.v ∧ g'.p = g.p ∧ t.ram = s.ram ∧
      (∀ n g2, n ≠ r.slot → group? s r.tile n = some g2 → ∃ g2', group? t r.tile n = some g2' ∧ SameCore g2 g2')) ∧
    (∃ t g', exec (.bar r) s = .next t ∧ group? t r.tile r.slot = some g' ∧ SameCore { g with pc := (g.pc + 16) % 2 ^ 64 } g' ∧ t.ram = s.ram ∧
      (∀ n g2, n ≠ r.slot → group? s r.tile n = some g2 → ∃ g2', group? t r.tile n = some g2' ∧ SameCore g2 g2') ∧
      ((∃ q ∈ (tile s r.tile).groupsOf g.wg, q.1 ≠ r.slot ∧ q.2.stat = .run ∧ without q.2.live q.2.arrived ≠ 0) →
        g'.stat = .barrier ∧ g'.arrived = g.arrived ||| g.active) ∧
      (∀ w, wg? s r.tile g.wg = some w → w.park = .none → (tile s r.tile).openStores g.wg = false → (tile s r.tile).openLoads g.wg = false →
        tabOk (tile s r.tile).groups = true →
        without g.live (g.arrived ||| g.active) = 0 →
        (∀ q ∈ (tile s r.tile).groupsOf g.wg, q.1 ≠ r.slot → without q.2.live q.2.arrived = 0) →
        g'.stat = .run ∧ g'.arrived = 0 ∧ (wg? t r.tile g.wg).map (·.barGen) = some ((w.barGen + 1) % 2 ^ 32)))

/-- For every group that may issue: TRAP faults it with TRAP; SPLIT and LOOP on a stack of 32 entries with MASK_OVERFLOW; JOIN on
an empty stack with MASK_UNDERFLOW; BREAK whose top entry is not a LOOP with MASK_NESTING; and a condition of 6 or 7, a mode
of 3, an offset of 0 or a counter of 6 or 7 with BUNDLE_ILLEGAL. Each answers a next state: the group's registers, address
and masks stand as at issue, the fault is precise, memory is unchanged and a workgroup that is not parking already stops with
reason FAULT. -/
def Obligations.ControlFaultsAreRecorded : Prop :=
  ∀ (s : State) (r : GRef) (g : Group) (p : BitVec 3) (sr : BitVec 5), MayIssue s r g →
    (∀ code : BitVec 8, FaultsWith s r g (.trap r code) fTrap) ∧
    (∀ (els : BitVec 9) (fin : BitVec 10), els ≠ 0 → fin ≠ 0 → 32 ≤ g.stack.length → FaultsWith s r g (.split r p els fin) fOverflow) ∧
    (∀ out : BitVec 16, out ≠ 0 → 32 ≤ g.stack.length → FaultsWith s r g (.loopM r out) fOverflow) ∧
    (g.stack = [] → FaultsWith s r g (.joinM r) fUnderflow) ∧
    ((∀ e rest, g.stack = e :: rest → e.phase ≠ 2) → FaultsWith s r g (.breakM r p) fNesting) ∧
    (∀ (cond : BitVec 3) (off : BitVec 14), 6 ≤ cond.toNat → FaultsWith s r g (.brCond r sr cond off) fIllegal) ∧
    (∀ off : BitVec 17, FaultsWith s r g (.brpMode r p 3 off) fIllegal) ∧
    (∀ fin : BitVec 10, FaultsWith s r g (.split r p 0 fin) fIllegal) ∧
    (∀ els : BitVec 9, FaultsWith s r g (.split r p els 0) fIllegal) ∧
    (FaultsWith s r g (.loopM r 0) fIllegal) ∧
    (∀ (k : BitVec 3) (n : BitVec 6), 6 ≤ k.toNat → g.count k.toNat = 0 → FaultsWith s r g (.waitle r k n) fIllegal)

/-- For every group that may issue and sources that name registers the group has or the literal: ADD.I32, SUB.I32 and MUL.I32
write A op B modulo 2^32 into D of every active lane; MIN and MAX in S32 and U32, AND, OR, XOR and the shifts by A[4:0] write
D op A; MOV writes A; ABS.F32 and NEG.F32 clear and invert the sign bit. A destination of 0xFF discards the result; inactive
lanes, other registers, memory and everything else stay. -/
def Obligations.VectorIntegerOperations : Prop :=
  ∀ (s : State) (r : GRef) (g : Group) (d a b : BitVec 8) (lit : BitVec 32), MayIssue s r g → inFile g d → inFile g a → inFile g b →
    (let x := source g a lit
     let y := source g b lit
     let o (l : Nat) : Word := g.vget d.toNat l
     let n := bundleBytes [a]
     VectorResult s r g (.addI32 r d a b lit) (bundleBytes [a, b]) d (fun l => x l + y l) ∧
     VectorResult s r g (.subI32 r d a b lit) (bundleBytes [a, b]) d (fun l => x l - y l) ∧
     VectorResult s r g (.mulI32 r d a b lit) (bundleBytes [a, b]) d (fun l => x l * y l) ∧
     VectorResult s r g (.movV r d a lit) n d x ∧
     VectorResult s r g (.absF32 r d a lit) n d (fun l => x l &&& 0x7FFF_FFFF#32) ∧
     VectorResult s r g (.negF32 r d a lit) n d (fun l => x l ^^^ 0x8000_0000#32) ∧
     (d.toNat ≠ 0xFF →
       VectorResult s r g (.minS32 r d a lit) n d (fun l => if (o l).toInt < (x l).toInt then o l else x l) ∧
       VectorResult s r g (.maxS32 r d a lit) n d (fun l => if (o l).toInt < (x l).toInt then x l else o l) ∧
       VectorResult s r g (.minU32 r d a lit) n d (fun l => if (o l).toNat < (x l).toNat then o l else x l) ∧
       VectorResult s r g (.maxU32 r d a lit) n d (fun l => if (o l).toNat < (x l).toNat then x l else o l) ∧
       VectorResult s r g (.andV r d a lit) n d (fun l => o l &&& x l) ∧
       VectorResult s r g (.orV r d a lit) n d (fun l => o l ||| x l) ∧
       VectorResult s r g (.xorV r d a lit) n d (fun l => o l ^^^ x l) ∧
       VectorResult s r g (.shlV r d a lit) n d (fun l => o l <<< ((x l).toNat % 32)) ∧
       VectorResult s r g (.shrV r d a lit) n d (fun l => o l >>> ((x l).toNat % 32)) ∧
       VectorResult s r g (.sarV r d a lit) n d (fun l => (o l).sshiftRight ((x l).toNat % 32))))

/-- For every group that may issue: FMA.F32, MUL.F32, ADD.F32 and SUB.F32 write the exact value of A x B + D, A x B, A + B and A
- B rounded once to nearest-even in FP32; FMA.BF2 does so in BF16 in each half; MIN.F32 and MAX.F32 take the smaller and the
larger of D and A; CVTN, CVTZ and CVTF convert A to and from format X, and CVTS rounds with a draw of the tile's noise
source, which is VALUE for every lane while FIXED is 1. Nothing else changes. -/
def Obligations.VectorFloatOperations : Prop :=
  ∀ (s : State) (r : GRef) (g : Group) (d a b : BitVec 8) (lit : BitVec 32) (x : BitVec 5), MayIssue s r g → inFile g d → inFile g a →
    inFile g b →
    (let A (l : Nat) : FV := f32 (source g a lit l)
     let B (l : Nat) : FV := f32 (source g b lit l)
     let o (l : Nat) : Word := g.vget d.toNat l
     let n := bundleBytes [a]
     VectorResult s r g (.mulF32 r d a b lit) (bundleBytes [a, b]) d (fun l => toF32 ((A l).mul (B l))) ∧
     VectorResult s r g (.addF32 r d a b lit) (bundleBytes [a, b]) d (fun l => toF32 ((A l).add (B l))) ∧
     VectorResult s r g (.subF32 r d a b lit) (bundleBytes [a, b]) d (fun l => toF32 ((A l).add (B l).neg)) ∧
     (d.toNat ≠ 0xFF →
       VectorResult s r g (.fmaF32 r d a b lit) (bundleBytes [a, b]) d (fun l => toF32 (((A l).mul (B l)).add (f32 (o l)))) ∧
       VectorResult s r g (.fmaBf2 r d a b lit) (bundleBytes [a, b]) d (fun l => bf2Fma (source g a lit l) (source g b lit l) (o l)) ∧
       VectorResult s r g (.minF32 r d a lit) n d (fun l => toF32 ((f32 (o l)).min (A l))) ∧
       VectorResult s r g (.maxF32 r d a lit) n d (fun l => toF32 ((f32 (o l)).max (A l)))) ∧
     (1 ≤ x.toNat → x.toNat ≤ 10 →
       VectorResult s r g (.cvtn r x d a lit) n d (fun l => BitVec.ofNat 32 (toFmt x.toNat .ne (A l))) ∧
       VectorResult s r g (.cvtz r x d a lit) n d (fun l => BitVec.ofNat 32 (toFmt x.toNat .tz (A l))) ∧
       VectorResult s r g (.cvtf r x d a lit) n d (fun l => toF32 (ofFmt x.toNat ((source g a lit l).toNat % 2 ^ fmtBits x.toNat))) ∧
       (regF s (pgTile r.tile) 0x0F0 16 16 = 1 → VectorResult s r g (.cvts r x d a lit) n d
         (fun l => BitVec.ofNat 32 (toFmt x.toNat (.st (regF s (pgTile r.tile) 0x0F0 15 0)) (A l)))) ∧
       (∃ draw : Nat → Nat, VectorResult s r g (.cvts r x d a lit) n d (fun l => BitVec.ofNat 32 (toFmt x.toNat (.st (draw l)) (A l))))))

/-- For every group that may issue: each compare sets or clears the bits of the active lanes in its predicate by D cond A and
keeps the others (a NaN makes EQ, LT and LE false and NE true); SEL writes A into D where the predicate is set; BCAST writes
a uniform register, LANE the lane index, WGLANE the index in the workgroup; SHFL.IDX reads A of the lane that D names modulo
the width and SHFL.XOR of the lane index xor sX modulo the width, active or not; READLANE gives sX the A of the lowest active
lane, zero-extended. Nothing else changes. -/
def Obligations.VectorComparesAndMoves : Prop :=
  ∀ (s : State) (r : GRef) (g : Group) (d a : BitVec 8) (lit : BitVec 32) (x : BitVec 5), MayIssue s r g → inFile g d → inFile g a →
    (let A := source g a lit
     let D := source g d lit
     let n := bundleBytes [a]
     let cmp (i : Instr) (f : Nat → Bool) : Prop := ∃ t g', exec i s = .next t ∧ group? t r.tile r.slot = some g' ∧
       (∀ l, l < g.width → (g'.pget (x.toNat % 8)).testBit l = if g.active.testBit l then f l else (g.pget (x.toNat % 8)).testBit l) ∧
       (∀ k, k ≠ x.toNat % 8 → g'.pget k = g.pget k) ∧ g'.u = g.u ∧ g'.v = g.v ∧ SameMasks g g' ∧ Advances g g' (bundleBytes [d, a]) ∧
       OnlyGroup s t r
     (x.toNat < 8 →
       cmp (.cmpEqF32 r x d a lit) (fun l => FV.cmp (f32 (D l)) (f32 (A l)) == some .eq) ∧
       cmp (.cmpLtF32 r x d a lit) (fun l => FV.cmp (f32 (D l)) (f32 (A l)) == some .lt) ∧
       cmp (.cmpLeF32 r x d a lit) (fun l => FV.cmp (f32 (D l)) (f32 (A l)) == some .lt || FV.cmp (f32 (D l)) (f32 (A l)) == some .eq) ∧
       cmp (.cmpNeF32 r x d a lit) (fun l => FV.cmp (f32 (D l)) (f32 (A l)) != some .eq) ∧
       cmp (.cmpEqI32 r x d a lit) (fun l => D l == A l) ∧
       cmp (.cmpLtS32 r x d a lit) (fun l => decide ((D l).toInt < (A l).toInt)) ∧
       cmp (.cmpLeS32 r x d a lit) (fun l => decide ((D l).toInt ≤ (A l).toInt)) ∧
       cmp (.cmpNeI32 r x d a lit) (fun l => D l != A l) ∧
       cmp (.cmpLtU32 r x d a lit) (fun l => decide ((D l).toNat < (A l).toNat)) ∧
       cmp (.cmpLeU32 r x d a lit) (fun l => decide ((D l).toNat ≤ (A l).toNat)) ∧
       (d.toNat ≠ 0xFF → VectorResult s r g (.sel r x d a lit) n d
         (fun l => if (g.pget x.toNat).testBit l then A l else g.vget d.toNat l))) ∧
     VectorResult s r g (.bcast r d x) 16 d (fun _ => BitVec.ofNat 32 (g.uget x.toNat)) ∧
     VectorResult s r g (.lane r d) 16 d (fun l => BitVec.ofNat 32 l) ∧
     VectorResult s r g (.wglane r d) 16 d (fun l => BitVec.ofNat 32 (g.idx * g.width + l)) ∧
     (d.toNat ≠ 0xFF → VectorResult s r g (.shflIdx r d a lit) n d (fun l => A ((g.vget d.toNat l).toNat % g.width))) ∧
     VectorResult s r g (.shflXor r d a x lit) n d (fun l => A (l ^^^ (g.uget x.toNat % g.width))) ∧
     (∀ l rest, g.lanes = l :: rest → UniformResult s r g (.readlane r x a lit) n x (A l).toNat))

/-- For every group that may issue, with the transcendental unit free for an operation that uses it: EXP2, LOG2, RCP, RSQ, SQRT,
SIN and COS, and the four reductions, answer a next state in which the instruction is in flight under W5, no register has
changed and the PC has gone on; what is in flight is the value of D in every active lane (register X with sums of integers
modulo 2^32 for a reduction). LONG_RESULT on an instruction in flight writes exactly its values and completes it. Memory and
everything else stay. -/
def Obligations.LongOperationsCountUnderW5 : Prop :=
  (∀ (s : State) (r : GRef) (g : Group) (d a : BitVec 8) (lit : BitVec 32) (x : BitVec 5), MayIssue s r g → inFile g d → inFile g a →
    (let A := source g a lit
     let counted (i : Instr) (kind : PKind → Prop) : Prop := ∃ t g', exec i s = .next t ∧ group? t r.tile r.slot = some g' ∧
       Counted g g' 5 (bundleBytes [a]) kind ∧ OnlyGroup s t r
     let vec (i : Instr) (op : Nat) : Prop := counted i (fun k => ∃ ws, k = .longV ws ∧
       ∀ q l v, (q, l, v) ∈ ws ↔ q = d.toNat ∧ d.toNat ≠ 0xFF ∧ l ∈ g.lanes ∧ v = (transc op (A l)).toNat)
     let uni (i : Instr) (v : Word) : Prop := counted i (fun k => k = .longU x.toNat v.toNat)
     let args := (List.range g.width).map (fun l => if g.active.testBit l then some (A l) else none)
     ((tile s r.tile).txBusy ≤ 1 →
       vec (.exp2 r d a lit) 0x28 ∧ vec (.log2 r d a lit) 0x29 ∧ vec (.rcp r d a lit) 0x2A ∧ vec (.rsq r d a lit) 0x2B ∧
       vec (.sqrtV r d a lit) 0x2C ∧ vec (.sinV r d a lit) 0x2D ∧ vec (.cosV r d a lit) 0x2E) ∧
     uni (.reduAddF32 r x a lit) (reduAddF32 args) ∧ uni (.reduMaxF32 r x a lit) ((reduSkip f32Max args).getD 0) ∧
     uni (.reduMinF32 r x a lit) ((reduSkip f32Min args).getD 0) ∧
     uni (.reduAddI32 r x a lit) (args.foldl (fun n v => n + v.getD 0) 0))) ∧
  (∀ (s : State) (r : GRef) (g : Group) (p : Pend), group? s r.tile r.slot = some g →
    g.pend.find? (fun q => q.id == p.id && !q.done) = some p →
    (∀ ws, p.kind = .longV ws → ∃ t g', exec (.longResult r p.id) s = .next t ∧ group? t r.tile r.slot = some g' ∧ Wrote g g' ws ∧
      Completed g' p.id ∧ g'.u = g.u ∧ g'.p = g.p ∧ SameMasks g g' ∧ g'.pc = g.pc ∧ t.ram = s.ram ∧ OtherGroups s t r) ∧
    (∀ q v, p.kind = .longU q v → ∃ t g', exec (.longResult r p.id) s = .next t ∧ group? t r.tile r.slot = some g' ∧
      g'.uget q = v % 2 ^ 64 ∧ (∀ k, k ≠ q → g'.uget k = g.uget k) ∧ Completed g' p.id ∧ g'.v = g.v ∧ g'.p = g.p ∧ SameMasks g g' ∧
      g'.pc = g.pc ∧ t.ram = s.ram ∧ OtherGroups s t r))

/-- For every group that may issue: a vector operation whose destination or source names a register numbered r or above faults
the group with REG_RANGE; FMA.F32, MIN.S32, SEL and SHFL.IDX with D = 0xFF, and a conversion to or from format 0 or a
reserved format, fault it with BUNDLE_ILLEGAL. The fault is precise: registers, address, masks and memory stand as at issue. -/
def Obligations.VectorChecksFault : Prop :=
  ∀ (s : State) (r : GRef) (g : Group) (d a b : BitVec 8) (lit : BitVec 32) (x : BitVec 5), MayIssue s r g →
    (a.toNat ≠ 0xFF → g.r ≤ a.toNat → FaultsWith s r g (.addI32 r d a b lit) fRange ∧ FaultsWith s r g (.movV r d a lit) fRange ∧
      ((tile s r.tile).txBusy ≤ 1 → FaultsWith s r g (.exp2 r d a lit) fRange)) ∧
    (d.toNat ≠ 0xFF → g.r ≤ d.toNat → FaultsWith s r g (.addI32 r d a b lit) fRange ∧ FaultsWith s r g (.lane r d) fRange) ∧
    FaultsWith s r g (.fmaF32 r 0xFF a b lit) fIllegal ∧ FaultsWith s r g (.minS32 r 0xFF a lit) fIllegal ∧
    (x.toNat < 8 → FaultsWith s r g (.sel r x 0xFF a lit) fIllegal) ∧ FaultsWith s r g (.shflIdx r 0xFF a lit) fIllegal ∧
    (x.toNat = 0 ∨ 11 ≤ x.toNat → FaultsWith s r g (.cvtn r x d a lit) fIllegal ∧ FaultsWith s r g (.cvtf r x d a lit) fIllegal)

/-- For every group that may issue, whose lanes' byte offsets are aligned and end at or below the workgroup's memory size, with
fields that name registers of the group and no detector of the tile store armed: LDW counts under W0 and holds the loaded
words of each active lane, zero- or sign-extended; STW stores the low bytes of its registers, active lanes in ascending
order; ATOMW and ATOMWN replace each lane's location by the kind's result, lanes in ascending order, and ATOMW holds the old
values under W0. Global memory, the other workgroups and the fields of the workgroup other than its memory stand. LOAD_RETURN
on what is held writes exactly its words and completes it, with no fault when no lane read a marked line, while no group of
the workgroup waits at the barrier. -/
def Obligations.WorkgroupMemoryAccesses : Prop :=
  (∀ (s : State) (r : GRef) (g : Group) (w : Wg) (sz : BitVec 3) (kind : BitVec 4) (d a : BitVec 8) (b : BitVec 5), MayIssue s r g →
    wg? s r.tile g.wg = some w → (blk s (pgTst r.tile)).injArm = false → inFile g a →
    (let fits (m : MOp) : Prop := ∀ l ∈ g.lanes, laneOff g m l % mSize m.op = 0 ∧ laneOff g m l + mSize m.op ≤ w.m
     let others (t : State) : Prop := SameBytes s t ∧ (∀ n, n ≠ r.tile → tile t n = tile s n) ∧
       (∀ n, n ≠ r.slot → SameGroup s t r.tile n) ∧ (∀ n, n ≠ g.wg → wg? t r.tile n = wg? s r.tile n)
     let held (m : MOp) (g' : Group) (val : Nat → List Nat) : Prop := ∃ p ∈ g'.pend, p.cls = 0 ∧ p.done = false ∧
       ∃ ws bad at_, p.kind = .loadW ws bad at_ ∧ (∀ q l v, (q, l, v) ∈ ws ↔ l ∈ g.lanes ∧ m.d ≠ 0xFF ∧ m.d ≤ q ∧ (val l)[q - m.d]? = some v) ∧
         ((∀ l ∈ g.lanes, w.wgmBad (laneOff g m l) (mSize m.op) = false) → bad = 0)
     let regs (g' : Group) : Prop := g'.u = g.u ∧ g'.v = g.v ∧ g'.p = g.p ∧ SameMasks g g' ∧ Advances g g' 16
     (let m : MOp := ⟨0x08 + sz.toNat, d.toNat, a.toNat, b.toNat⟩
      sz.toNat ≤ 6 → loadRegs g d (regsOf (mSize m.op)) → fits m → ∃ t g', exec (.ldw r sz d a b) s = .next t ∧
        group? t r.tile r.slot = some g' ∧ regs g' ∧ others t ∧ wg? t r.tile g.wg = some w ∧
        held m g' (fun l => loadWords (mSize m.op) (mSigned m.op) (wgmRead w (laneOff g m l) (mSize m.op)))) ∧
     (let m : MOp := ⟨0x18 + sz.toNat, d.toNat, a.toNat, b.toNat⟩
      sz.toNat ≤ 4 → dataRegs g d (regsOf (mSize m.op)) → fits m → ∃ t g' w', exec (.stw r sz d a b) s = .next t ∧
        group? t r.tile r.slot = some g' ∧ regs g' ∧ others t ∧ wg? t r.tile g.wg = some w' ∧
        w'.wgm = (stored g m (fun l => (regBytes g m.d (regsOf (mSize m.op)) l).take (mSize m.op)) w g.lanes).wgm ∧
        { w' with wgm := w.wgm, wgmMark := w.wgmMark } = w) ∧
     (let m : MOp := ⟨0x40 + kind.toNat, d.toNat, a.toNat, b.toNat⟩
      dataRegs g d (max (atomRegs kind.toNat) (regsOf (mSize m.op))) → fits m → ∃ t g', exec (.atomw r kind d a b) s = .next t ∧
        group? t r.tile r.slot = some g' ∧ regs g' ∧ others t ∧ wg? t r.tile g.wg = some (atomed g m w g.lanes) ∧
        ∀ pre l post, g.lanes = pre ++ l :: post → ∃ p ∈ g'.pend, p.cls = 0 ∧ p.done = false ∧ ∃ ws bad at_, p.kind = .loadW ws bad at_ ∧
          ∀ i v, (loadWords (mSize m.op) false (wgmRead (atomed g m w pre) (laneOff g m l) (mSize m.op)))[i]? = some v → (m.d + i, l, v) ∈ ws) ∧
     (let m : MOp := ⟨0x50 + kind.toNat, d.toNat, a.toNat, b.toNat⟩
      dataRegs g d (atomRegs kind.toNat) → fits m → ∃ t g', exec (.atomwn r kind d a b) s = .next t ∧
        group? t r.tile r.slot = some g' ∧ regs g' ∧ others t ∧ wg? t r.tile g.wg = some (atomed g m w g.lanes)))) ∧
  (∀ (s : State) (r : GRef) (g : Group) (p : Pend) (ws : List (Nat × Nat × Nat)) (at_ : Nat), group? s r.tile r.slot = some g →
    g.pend.find? (fun q => q.id == p.id && !q.done) = some p → p.kind = .loadW ws 0 at_ → NoneWaits s r.tile g.wg →
    ∃ t g', exec (.loadReturn r p.id) s = .next t ∧ group? t r.tile r.slot = some g' ∧ Wrote g g' ws ∧ Completed g' p.id ∧ g'.u = g.u ∧
      g'.p = g.p ∧ SameMasks g g' ∧ g'.pc = g.pc ∧ g'.fault = g.fault ∧ t.ram = s.ram ∧ OtherGroups s t r)

/-- For every group that may issue, fields that name registers of the group, and room in the store buffer for what would take an
entry: LD, ST, LDW and STW with an active lane whose address is not a multiple of the access size fault the group with ALIGN;
LDW and STW with aligned lanes, one of which ends above the workgroup's memory size, with BOUNDS; SIGNAL and PWAIT on a
counter that is not 8 B aligned with ALIGN; LD and ST with aligned lanes of which a translation fails fault with the code of
the cause. Reserved sizes of LD and ST fault with BUNDLE_ILLEGAL. Each fault is precise: no lane has stored, and registers
and memory stand as at issue. -/
def Obligations.MemoryOperationsFault : Prop :=
  ∀ (s : State) (r : GRef) (g : Group) (w : Wg) (sz : BitVec 3) (d a : BitVec 8) (dc b : BitVec 5), MayIssue s r g →
    wg? s r.tile g.wg = some w → (blk s (pgTst r.tile)).injArm = false → inFile g a → d.toNat ≠ 0xFF → d.toNat + 4 ≤ g.r →
    (let ld : MOp := ⟨0x00 + sz.toNat, d.toNat, a.toNat, b.toNat⟩
     let st : MOp := ⟨0x10 + sz.toNat, d.toNat, a.toNat, b.toNat⟩
     let ldw : MOp := ⟨0x08 + sz.toNat, d.toNat, a.toNat, b.toNat⟩
     let stw : MOp := ⟨0x18 + sz.toNat, d.toNat, a.toNat, b.toNat⟩
     let xlt (m : MOp) : Option (Nat × Nat) := (translateAll (roundOne s r.tile r.slot) (agTile r.tile) (tileDie r.tile) w.space (mAcc m.op)
       false (g.lanes.map (laneVa g m)).eraseDups).1.fault
     (sz.toNat ≤ 6 → (∃ l ∈ g.lanes, laneVa g ld l % mSize ld.op ≠ 0) → FaultsWith s r g (.ld r sz d a b) fAlign) ∧
     (sz.toNat ≤ 4 → Room s r g st → (∃ l ∈ g.lanes, laneVa g st l % mSize st.op ≠ 0) → FaultsWith s r g (.st r sz d a b) fAlign) ∧
     (sz.toNat ≤ 6 → (∃ l ∈ g.lanes, laneOff g ldw l % mSize ldw.op ≠ 0) → FaultsWith s r g (.ldw r sz d a b) fAlign) ∧
     (sz.toNat ≤ 4 → (∃ l ∈ g.lanes, laneOff g stw l % mSize stw.op ≠ 0) → FaultsWith s r g (.stw r sz d a b) fAlign) ∧
     (sz.toNat ≤ 6 → (∀ l ∈ g.lanes, laneOff g ldw l % mSize ldw.op = 0) → (∃ l ∈ g.lanes, laneOff g ldw l + mSize ldw.op > w.m) →
       FaultsWith s r g (.ldw r sz d a b) fBounds) ∧
     (sz.toNat ≤ 4 → (∀ l ∈ g.lanes, laneOff g stw l % mSize stw.op = 0) → (∃ l ∈ g.lanes, laneOff g stw l + mSize stw.op > w.m) →
       FaultsWith s r g (.stw r sz d a b) fBounds) ∧
     (g.uget b.toNat % 8 ≠ 0 → FaultsWith s r g (.pwait r dc b) fAlign ∧
       (Room s r g ⟨0x68, dc.toNat, 0, b.toNat⟩ → FaultsWith s r g (.signal r dc b) fAlign)) ∧
     (∀ x c, sz.toNat ≤ 6 → (∀ l ∈ g.lanes, laneVa g ld l % mSize ld.op = 0) → xlt ld = some (x, c) →
       FaultsWith s r g (.ld r sz d a b) (causeCode c)) ∧
     (∀ x c, sz.toNat ≤ 4 → Room s r g st → (∀ l ∈ g.lanes, laneVa g st l % mSize st.op = 0) → xlt st = some (x, c) →
       FaultsWith s r g (.st r sz d a b) (causeCode c)) ∧
     (sz.toNat = 7 → FaultsWith s r g (.ld r sz d a b) fIllegal) ∧ (5 ≤ sz.toNat → FaultsWith s r g (.st r sz d a b) fIllegal))

/-- For every group that may issue, with an active lane below its width, whose lanes' addresses are aligned and translate, with
fields that name registers of the group: LD and LDR count under W0 and hold the lanes with their addresses; ST, ATOM, ATOMN,
STC and ZLINE, with room in the store buffer for their lines, count under W1, and each active lane lies in an unreleased
entry of the group with its address and its bytes (a ZLINE's line, with zeros); ATOM also counts under W0. No register, no
mask, no byte of memory and no other group changes, and the entries of other groups and the released ones stand. -/
def Obligations.GlobalMemoryAccessesIssue : Prop :=
  ∀ (s : State) (r : GRef) (g : Group) (w : Wg) (sz : BitVec 3) (kind : BitVec 4) (wide : Bool) (d a : BitVec 8) (b : BitVec 5),
    MayIssue s r g → wg? s r.tile g.wg = some w → inFile g a →
    (let good (m : MOp) : Prop := (∀ l ∈ g.lanes, laneVa g m l % mSize m.op = 0) ∧
       (translateAll (roundOne s r.tile r.slot) (agTile r.tile) (tileDie r.tile) w.space (mAcc m.op) false
         (g.lanes.map (laneVa g m)).eraseDups).1.fault = none ∧ Room s r g m
     let load (m : MOp) (i : Instr) (rsv : Bool) : Prop := good m → CountsUnder s r g i 0 (fun k => ∃ la ty rq,
       k = .load m.d (regsOf (mSize m.op)) (mSize m.op) (!rsv && mSigned m.op) la ty rq rsv [] ∧
       la.map (fun x => (x.lane, x.va)) = g.lanes.map (fun l => (l, laneVa g m l)))
     let enters (m : MOp) (i : Instr) (k : SbKind) (va : Nat → Nat) (data : Nat → List Nat) : Prop := good m → g.lanes ≠ [] →
       ∃ t g', exec i s = .next t ∧ group? t r.tile r.slot = some g' ∧
       (∃ p ∈ g'.pend, p.id = g.nextId ∧ p.cls = 1 ∧ p.done = false) ∧ g'.u = g.u ∧ g'.v = g.v ∧ g'.p = g.p ∧ SameMasks g g' ∧
       Advances g g' 16 ∧ SameBytes s t ∧ OtherGroups s t r ∧
       (∀ l ∈ g.lanes, ∃ e ∈ (tile t r.tile).sb, e.slot = r.slot ∧ e.released = false ∧ e.kind = k ∧ e.space = w.space ∧
         ∃ x ∈ e.lanes, x.seq = g.nextId ∧ x.va = va l ∧ x.data = data l ∧ (m.op ≠ 0x67 → x.lane = l) ∧ (m.op = 0x67 → e.zline = true)) ∧
       (((tile s r.tile).sb.map (·.id)).Nodup → ∀ e ∈ (tile s r.tile).sb, e.slot ≠ r.slot ∨ e.released = true → e ∈ (tile t r.tile).sb)
     let store (m : MOp) (i : Instr) (n len : Nat) (k : SbKind) : Prop := enters m i k (laneVa g m) (fun l => (regBytes g m.d n l).take len)
     (sz.toNat ≤ 6 → loadRegs g d (regsOf (mSize (0x00 + sz.toNat))) → load ⟨0x00 + sz.toNat, d.toNat, a.toNat, b.toNat⟩ (.ld r sz d a b) false) ∧
     (loadRegs g d (if wide then 2 else 1) → load ⟨if wide then 0x61 else 0x60, d.toNat, a.toNat, b.toNat⟩ (.ldr r wide d a b) true) ∧
     (sz.toNat ≤ 4 → dataRegs g d (regsOf (mSize (0x10 + sz.toNat))) →
       store ⟨0x10 + sz.toNat, d.toNat, a.toNat, b.toNat⟩ (.st r sz d a b) (regsOf (mSize (0x10 + sz.toNat))) (mSize (0x10 + sz.toNat)) .store) ∧
     (let m : MOp := ⟨0x67, 0, a.toNat, b.toNat⟩
      enters m (.zline r a b) .store (fun l => lineBase (laneVa g m l)) (fun _ => List.replicate 128 0)) ∧
     (dataRegs g d (max (atomRegs kind.toNat) (regsOf (atomSize kind.toNat))) →
       store ⟨0x20 + kind.toNat, d.toNat, a.toNat, b.toNat⟩ (.atom r kind d a b) (atomRegs kind.toNat) (4 * atomRegs kind.toNat) (.atomic kind.toNat true) ∧
       (good ⟨0x20 + kind.toNat, d.toNat, a.toNat, b.toNat⟩ → g.lanes ≠ [] → ∃ t g', exec (.atom r kind d a b) s = .next t ∧
         group? t r.tile r.slot = some g' ∧ ∃ p ∈ g'.pend, p.cls = 0 ∧ p.done = false ∧ p.kind = .atomRet g.nextId) ∧
       store ⟨0x30 + kind.toNat, d.toNat, a.toNat, b.toNat⟩ (.atomn r kind d a b) (atomRegs kind.toNat) (4 * atomRegs kind.toNat) (.atomic kind.toNat false)) ∧
     (dataRegs g d (if wide then 3 else 2) → store ⟨if wide then 0x63 else 0x62, d.toNat, a.toNat, b.toNat⟩ (.stc r wide d a b)
       (if wide then 2 else 1) (if wide then 8 else 4) .stc))

/-- For a load in flight, all of whose lanes lead to this device, with no detector armed, no clean copy in L2 over a marked line,
no line that a PREF still waits for and no group of its workgroup at the barrier: LOAD_RETURN of one that may return answers
a next state. From a region that is not NORMAL (a STRICT one: of one lane), with no lane's line marked, every lane's
registers take the words of the bytes at its physical address under the key of its space, the load completes and no fault is
raised. A load of one lane from a NORMAL region takes the bytes of the youngest entry of its group that holds them all. An
LDR leaves exactly one reservation of its group, on the 256 B granule of its lane, or takes its place behind the LDRs held
before it. A load that may not return yet leaves the machine as it is. No byte of memory changes. -/
def Obligations.LoadsReturnMemory : Prop :=
  ∀ (s : State) (r : GRef) (g : Group) (w : Wg) (p : Pend) (d k size ty : Nat) (sg rsv : Bool) (la : List LaneAcc) (l0 : LaneAcc) (pa0 : Nat),
    group? s r.tile r.slot = some g → wg? s r.tile g.wg = some w → g.pend.find? (fun q => q.id == p.id && !q.done) = some p →
    p.kind = .load d k size sg la ty [] rsv [] → (g.pend.map (·.id)).Nodup → (tile s r.tile).prefs = [] → NoneWaits s r.tile g.wg →
    (∀ pg, (blk s pg).injArm = false) → la.head? = some l0 → l0.dst = .loc pa0 →
    (∀ x ∈ la, x.lane < 64 ∧ ∃ pa, x.dst = .loc pa) →
    (∀ n i x, tget? (slice s n).lines i = some x → x.below = none) →
    (let may := loadMay s r.tile r.slot g w.space p.id size ty (nextLanes ty la []) rsv
     let slot := spaceSlot s (tileDie r.tile) w.space
     let word (x : LaneAcc) (bs : List Nat) : List (Nat × Nat × Nat) := if d = 0xFF then [] else wordWrites d x.lane (loadWords size sg bs)
     let home (x : LaneAcc) : List Nat := match x.dst with
       | .loc pa => readPhys s slot pa size
       | _ => []
     let clear (x : LaneAcc) : Prop := ∀ pa, x.dst = .loc pa → isMarked s pa = false
     let does (ws : List (Nat × Nat × Nat)) (t : State) (g' : Group) : Prop := exec (.loadReturn r p.id) s = .next t ∧
       group? t r.tile r.slot = some g' ∧ Wrote g g' ws ∧ Completed g' p.id ∧ g'.u = g.u ∧ g'.p = g.p ∧ SameMasks g g' ∧ g'.pc = g.pc ∧
       SameBytes s t ∧ OtherGroups s t r
     (may = false → exec (.loadReturn r p.id) s = .next s) ∧
     (may = true → rsv = false → ty ≠ 0 → (ty = 3 → la = [l0]) → (∀ x ∈ la, clear x) →
       ∃ t g', does ((la.map (fun x => word x (home x))).flatten) t g') ∧
     (may = true → rsv = false → ty = 0 → la = [l0] → ∀ e, (tile s r.tile).forward r.slot p.id l0.va size = some (e, true) →
       ∃ t g', does (word l0 ((rangeFrom l0.va size).map (fun x => (e.byteAt p.id x).getD 0))) t g') ∧
     (may = true → rsv = true → la = [l0] → ldrMay s r.tile r.slot p.id pa0 = true → clear l0 → ∃ t g', does (word l0 (home l0)) t g' ∧
       (pa0 / 256, r.tile, r.slot) ∈ t.resvs ∧ ∀ x ∈ t.resvs, x.2.1 = r.tile → x.2.2 = r.slot → x = (pa0 / 256, r.tile, r.slot)) ∧
     (may = true → rsv = true → ldrMay s r.tile r.slot p.id pa0 = false → exec (.loadReturn r p.id) s = .next (ldrHold s r.tile r.slot p.id pa0)))

/-- A store buffer entry that may not be released yet stays; one that may, with its instruction's entries, is released, and with
local lines alone nothing is sent and no byte changes. STORE_PERFORMED of a released entry of a NORMAL or DEV region, outside
a transaction group, whose group still holds its slot, has no store accepted earlier that is not performed and no group of
its workgroup at the barrier, and whose lanes lead to lines of this device that are neither held nor fenced: a store leaves
at its line the bytes of its lanes in lane order (a ZLINE's are zeros), an atomic of one lane on a line without the mark the
kind's result on the old value, which a returning one also writes to its registers, a SIGNAL the old value plus the amount,
at most 2^64 - 1. Every other line reads as before, the entry is gone and the others stand. -/
def Obligations.StoreBufferReleasesAndPerforms : Prop :=
  ∀ (s : State) (n id : Nat) (e : SbEntry),
    ((tile s n).sb.find? (fun x => x.id == id && !x.released) = some e →
      (releaseMay s n ((tile s n).together e) = false → exec (.storeRelease n id) s = .next s) ∧
      (releaseMay s n ((tile s n).together e) = true → (∀ x ∈ (tile s n).together e, x.remote = none) →
        ∃ t, exec (.storeRelease n id) s = .next t ∧ t.ram = s.ram ∧ (tile t n).groups = (tile s n).groups ∧ t.reqs = s.reqs ∧
          (tile t n).sb = (tile s n).sb.map (fun x => if ((tile s n).together e).any (fun y => y.id == x.id) then
            { x with released := true, sent := true, reqs := [] } else x) ∧
          (∀ m, m ≠ n → tile t m = tile s m))) ∧
    (∀ (g : Group) (x0 : LaneAcc) (pa : Nat), (tile s n).sb.find? (fun x => x.id == id && x.released) = some e → group? s n e.slot = some g →
      e.rtype ≠ 1 → e.rtype ≠ 3 → (tile s n).owns e = true → afterPosted (tile s n) e = true → NoneWaits s n g.wg → e.txg = none → e.localDone = false → e.reqs = [] → entryHeld s e = false → isFenced s pa = false →
      e.lanes.head? = some x0 → x0.dst = .loc pa → (∀ x ∈ e.lanes, x.lane < 64 ∧ x.va % 128 + x.data.length ≤ 128 ∧ ∃ p, x.dst = .loc p) → s.draining = false →
      (let slot := spaceSlot s (tileDie n) e.space
       let at_ (k v : Nat) : List (Nat × Nat) := (toBytes k v).mapIdx (fun i b => (pa % 128 + i, b))
       let does (bytes : List (Nat × Nat)) (ws : List (Nat × Nat × Nat)) : Prop := ∃ t g', exec (.storePerformed n id) s = .next t ∧
         group? t n e.slot = some g' ∧ LineHolds s t slot pa bytes ∧ Wrote g g' ws ∧ g'.u = g.u ∧ g'.p = g.p ∧ g'.pc = g.pc ∧
         (tile t n).sb = (tile s n).sb.filter (fun x => x.id ≠ id) ∧ (∀ m, m ≠ n → tile t m = tile s m) ∧
         (∀ p ∈ e.pids, ∀ q, g.pend.find? (fun x => x.id == p) = some q → q.kind = .store 1 → q.done = false → (e.pids.filter (· == p)).length = 1 →
           Completed g' p)
       (e.kind = .store → does e.lineBytes []) ∧
       (∀ kind ret, e.kind = .atomic kind ret → isMarked s pa = false → e.lanes = [x0] → pa % 128 + atomSize kind ≤ 128 →
         (let k := atomSize kind
          let old := rdN s slot pa k
          does (at_ k (atomApply kind old (ofBytes (x0.data.take k) % 2 ^ (8 * k)) (ofBytes ((x0.data.drop k).take k) % 2 ^ (8 * k))))
            (if ret then wordWrites e.dreg x0.lane (loadWords k false (toBytes k old)) else []))) ∧
       (e.kind = .signal → pa % 128 + 8 ≤ 128 → does (at_ 8 (min (rdN s slot pa 8 + ofBytes x0.data) (2 ^ 64 - 1))) [])))

/-- STORE_PERFORMED of a released STC of a NORMAL region whose lanes lead to one line of this device and stand in one entry,
outside any transaction group, with no store accepted earlier that is not performed and no group of its workgroup at the
barrier: with a reservation of its group on the granule of that line, its bytes are stored, each lane's status register takes
1 and no reservation on the granule is left; with no reservation of its group nothing is stored and the status is 0. Either
way the group holds no reservation after. RESERVATION_TIMEOUT ends the reservation of the group it names and no other;
LDR_HOLD_TIMEOUT lets the LDRs that a reserved granule holds be served. -/
def Obligations.ReservedPairsDecideOnce : Prop :=
  (∀ (s : State) (n id : Nat) (e : SbEntry) (g : Group) (x0 : LaneAcc) (pa : Nat),
    (tile s n).sb.find? (fun x => x.id == id && x.released) = some e → group? s n e.slot = some g → e.kind = .stc → e.rtype = 0 → s.draining = false →
    (tile s n).owns e = true → afterPosted (tile s n) e = true → NoneWaits s n g.wg → (tile s n).siblings e = [] →
    (∃ p ∈ g.pend, e.pids.contains p.id = true ∧ p.kind = .store 1) →
    e.txg = none → g.txg = none → e.localDone = false → e.reqs = [] → entryHeld s e = false → isFenced s pa = false →
    e.lanes.head? = some x0 → x0.dst = .loc pa → (∀ x ∈ e.lanes, x.lane < 64 ∧ ∃ p, x.dst = .loc p ∧ p / 128 = pa / 128 ∧ p % 128 + x.data.length ≤ 128) →
    (let slot := spaceSlot s (tileDie n) e.space
     let mine := s.resvs.find? (fun x => x.2.1 == n && x.2.2 == e.slot)
     let bytes := (e.lanes.map (fun x => x.data.mapIdx (fun i b => ((match x.dst with
       | .loc p => p
       | _ => 0) % 128 + i, b)))).flatten
     let does (v : Nat) (t : State) (g' : Group) : Prop := exec (.storePerformed n id) s = .next t ∧ group? t n e.slot = some g' ∧
       Wrote g g' (e.lanes.map (fun x => (e.dreg, x.lane, v))) ∧ g'.u = g.u ∧ g'.p = g.p ∧ g'.pc = g.pc ∧
       (∀ x ∈ t.resvs, x.2.1 = n → x.2.2 ≠ e.slot) ∧ (tile t n).sb = (tile s n).sb.filter (fun x => x.id ≠ id)
     (mine = some (pa / 256, n, e.slot) → ∃ t g', does 1 t g' ∧ LineHolds s t slot pa bytes ∧ ∀ x ∈ t.resvs, x.1 ≠ pa / 256) ∧
     (mine = none → ∃ t g', does 0 t g' ∧ SameBytes s t))) ∧
  (∀ (s : State) (n k gr : Nat), (∃ t, exec (.reservationTimeout n k) s = .next t ∧ (∀ x, x ∈ t.resvs ↔ x ∈ s.resvs ∧ ¬(x.2.1 = n ∧ x.2.2 = k)) ∧
      { t with resvs := s.resvs } = s) ∧
    ((∃ x ∈ s.resvs, x.1 = gr) → ∃ t, exec (.ldrHoldTimeout gr) s = .next t ∧ gr ∈ t.served ∧ { t with served := s.served } = s))

/-- For every group that may issue: FENCE with a scope of 0 to 3, INVL1, TXBIND and TXUNBIND count under W4; TXBIND binds the
group to the handle in sD and TXUNBIND ends the binding; SIGNAL on an aligned counter that translates, with room in the store
buffer, counts under W4 with an entry that carries the amount in sD; PREF moves on, registers, masks and memory as before.
SYNC_COMPLETE completes a fence when every older access has reached the point of its scope and leaves the machine alone
before; INVL1 leaves no copy in the L1; a SIGNAL completes once its entry has left the buffer; the bindings complete. -/
def Obligations.SynchronisationCountsUnderW4 : Prop :=
  (∀ (s : State) (r : GRef) (g : Group) (w : Wg) (sc : BitVec 3) (a : BitVec 8) (d b : BitVec 5), MayIssue s r g → wg? s r.tile g.wg = some w →
    inFile g a →
    (let bound (i : Instr) (h : Option Nat) : Prop := ∀ t, exec i s = .next t → (group? t r.tile r.slot).map (·.txg) = some h
     (sc.toNat < 4 → CountsUnder s r g (.fence r sc) 4 (fun k => k = .sync (.fence sc.toNat))) ∧
     CountsUnder s r g (.invl1 r) 4 (fun k => k = .sync .invl1) ∧
     CountsUnder s r g (.txbind r d) 4 (fun k => k = .sync (.txbind (g.uget d.toNat))) ∧ bound (.txbind r d) (some (g.uget d.toNat)) ∧
     CountsUnder s r g (.txunbind r) 4 (fun k => k = .sync .txunbind) ∧ bound (.txunbind r) none ∧
     (∃ t g', exec (.pref r a b) s = .next t ∧ group? t r.tile r.slot = some g' ∧ g'.u = g.u ∧ g'.v = g.v ∧ g'.p = g.p ∧ SameMasks g g' ∧
       Advances g g' 16 ∧ SameBytes s t ∧ OtherGroups s t r) ∧
     (g.uget b.toNat % 8 = 0 → Room s r g ⟨0x68, d.toNat, 0, b.toNat⟩ →
       (translateAll (roundOne s r.tile r.slot) (agTile r.tile) (tileDie r.tile) w.space .rmw false [g.uget b.toNat]).1.fault = none →
       CountsUnder s r g (.signal r d b) 4 (fun k => k = .sync (.signal (tile s r.tile).nextSb)) ∧
       ∀ t, exec (.signal r d b) s = .next t → ∃ e ∈ (tile t r.tile).sb, e.id = (tile s r.tile).nextSb ∧ e.kind = .signal ∧ e.released = false ∧
         e.slot = r.slot ∧ e.lanes.map (fun x => (x.va, x.data)) = [(g.uget b.toNat, toBytes 8 (g.uget d.toNat))]))) ∧
  (∀ (s : State) (r : GRef) (g : Group) (w : Wg) (p : Pend) (k : SyncKind), group? s r.tile r.slot = some g → wg? s r.tile g.wg = some w →
    g.pend.find? (fun q => q.id == p.id && !q.done) = some p → p.kind = .sync k →
    (let done (t : State) : Prop := exec (.syncComplete r p.id) s = .next t ∧ ∃ g', group? t r.tile r.slot = some g' ∧ Completed g' p.id ∧
       g'.u = g.u ∧ g'.v = g.v ∧ g'.p = g.p ∧ SameMasks g g' ∧ g'.pc = g.pc
     (∀ sc, k = .fence sc → (fenceMay (tile s r.tile) g r.slot p.id sc = false → exec (.syncComplete r p.id) s = .next s) ∧
       (fenceMay (tile s r.tile) g r.slot p.id sc = true → (sc ≠ 3 ∨ g.remErr = 0) → ∃ t, done t ∧ SameBytes s t)) ∧
     (k = .invl1 → ∃ t, done t ∧ (tile t r.tile).l1 = [] ∧ SameBytes s t) ∧
     (∀ e, k = .signal e → ((tile s r.tile).sb.any (fun y => y.id == e) = true → exec (.syncComplete r p.id) s = .next s) ∧
       ((tile s r.tile).sb.any (fun y => y.id == e) = false → ∃ t, done t ∧ SameBytes s t)) ∧
     (k = .txunbind ∨ (∃ h, k = .txbind h) → ∃ t, done t ∧ SameBytes s t)))

/-- ISSUE_ROUND of a tile where no bundle can be chosen and the transcendental unit holds nothing takes no step; with one
resident group, ready with its decoded bundle, it chooses and issues that bundle, and one with a reserved encoding faults
with BUNDLE_ILLEGAL. CODE_FETCH of a group that runs, whose PC leads to a line of this device that is neither held nor in the
L1 nor marked, brings the 16 bytes at the PC. ARR and ROW, when their engine can take a command, offer the four or two
uniform registers from sR on and leave the group as it was. IMPRECISE_FAULT with POISON of a group with a load in flight
records the fault as imprecise, and the workgroup stops with reason FAULT. -/
def Obligations.IssueRoundsAndFetch : Prop :=
  (∀ (s : State) (n k : Nat) (g : Group) (b : Bundle) (ok : Bool),
    ((chooseIssue (roundTick s n) n).chosen = [] → (tile s n).txBusy = 0 → exec (.issueRound n) s = .next s) ∧
    ((tile s n).age = [k] → group? s n k = some g → nextBundle g = some (b, ok) → bundleReady (roundTick s n) n k g b = true →
      (let p := chooseIssue (roundTick s n) n
       p.chosen = [(k, g, b, ok)] ∧ p.skipA = 0 ∧ p.skipTx = 0 ∧ p.skipSb = 0 ∧
       (ok = true → exec (.issueRound n) s = .next (issueBundle
         (pickCounts (roundWaits (roundTick s n) n []) n p (starved (roundTick s n) n).isSome) n k (noWait g) b))) ∧
      (ok = false → g.fault = none → ∀ w, wg? s n g.wg = some w → w.park = .none → ∃ t g' f, exec (.issueRound n) s = .next t ∧ group? t n k = some g' ∧
        g'.fault = some f ∧ f.code = fIllegal ∧ SameCore { g with fault := some f } g' ∧ g'.stopped = true))) ∧
  (∀ (s s1 : State) (r : GRef) (g : Group) (w : Wg) (pa raw : Nat) (o : Bool), (tile s r.tile).prefs = [] → group? s r.tile r.slot = some g → wg? s r.tile g.wg = some w →
    g.stopped = false → g.stat ≠ .finished → g.offer = none → (∀ pg, (blk s pg).injArm = false) →
    translate s (agTile r.tile) (tileDie r.tile) w.space g.pc .fetch false = (.inr (.loc pa, o), s1) → pa % 128 = g.pc % 128 → g.pc % 16 = 0 →
    lineHeld s pa = false → (tile s r.tile).l1Find w.space (g.pc / 128 * 128) = none → isMarked s pa = false →
    (∀ n i x, tget? (slice s n).lines i = some x → x.below = none) →
    ofBytes (readPhys s (spaceSlot s (tileDie r.tile) w.space) pa 16) = raw → ((decBundle raw 0).map (·.usesLit)).getD false = false →
    ∃ t, exec (.codeFetch r) s = .next t ∧ group? t r.tile r.slot = some { g with fetched := some (g.pc, raw, 0) } ∧ SameBytes s t ∧
      OtherGroups s t r) ∧
  (∀ (s : State) (r : GRef) (g : Group) (sr : BitVec 5), MayIssue s r g →
    (sr.toNat + 3 ≤ 31 → aReady s r.tile g ⟨1, sr.toNat⟩ = true → ∃ t g' c, exec (.arr r sr) s = .next t ∧ group? t r.tile r.slot = some g' ∧
      SameCore g g' ∧ g'.offer = some (tile s r.tile).arr.nserial ∧ (tile t r.tile).arr.cmds = (tile s r.tile).arr.cmds ++ [c] ∧
      c.serial = (tile s r.tile).arr.nserial ∧ c.slot = r.slot ∧ c.stage = .offered ∧
      c.words = [g.uget sr.toNat, g.uget (sr.toNat + 1), g.uget (sr.toNat + 2), g.uget (sr.toNat + 3)] ∧ t.ram = s.ram ∧ OtherGroups s t r) ∧
    (sr.toNat + 1 ≤ 31 → aReady s r.tile g ⟨2, sr.toNat⟩ = true → ∃ t g' c, exec (.row r sr) s = .next t ∧ group? t r.tile r.slot = some g' ∧
      SameCore g g' ∧ g'.offer = some (tile s r.tile).row.nserial ∧ (tile t r.tile).row.cmds = (tile s r.tile).row.cmds ++ [c] ∧
      c.serial = (tile s r.tile).row.nserial ∧ c.slot = r.slot ∧ c.stage = .offered ∧ c.words = [g.uget sr.toNat, g.uget (sr.toNat + 1)] ∧
      t.ram = s.ram ∧ OtherGroups s t r) ∧
    (28 < sr.toNat → FaultsWith s r g (.arr r sr) fIllegal) ∧ (30 < sr.toNat → FaultsWith s r g (.row r sr) fIllegal)) ∧
  (∀ (s : State) (r : GRef) (g : Group) (w : Wg), group? s r.tile r.slot = some g → wg? s r.tile g.wg = some w → w.park = .none →
    g.fault = none → (∃ p ∈ g.pend, p.openLoad = true) → ∃ t g' f, exec (.impreciseFault r fPoison) s = .next t ∧ group? t r.tile r.slot = some g' ∧ g'.fault = some f ∧ f.code = fPoison ∧
      f.imprecise = true ∧ SameCore { g with fault := some f } g' ∧ g'.stopped = true ∧ g'.reason = rFault ∧
      (wg? t r.tile g.wg).map (·.park) = some .draining ∧ t.ram = s.ram)

/-- For every group that may issue and has no watch yet, PWAIT on an aligned counter that leads to a line of this device that is
not held and whose belay is in service, has room, no waiting registration, no notification held back and no abandoned range:
when the counter is at or above the target in sD, sD takes 0 and the group goes on at the next bundle, not stopped. When it
is below, a watch on the counter with that target is armed for the group, the PC names the bundle after, the group waits for
its status in sD, and its workgroup stops with reason WAIT. No byte of memory changes. -/
def Obligations.ParkWaitsRegister : Prop :=
  ∀ (s s1 : State) (r : GRef) (g : Group) (w : Wg) (d b : BitVec 5) (pa : Nat) (o : XOut) (ord : Bool), MayIssue s r g → wg? s r.tile g.wg = some w →
    w.park = .none → NoWatchOf s w g → g.uget b.toNat % 8 = 0 →
    translateAll (roundOne s r.tile r.slot) (agTile r.tile) (tileDie r.tile) w.space .read false [g.uget b.toNat] = (o, s1) →
    o.fails = [] → o.ok = [(g.uget b.toNat, .loc pa, ord)] → inService s (pgBel (homeDie pa)) = true → (bel s (homeDie pa)).waitl = [] → lineHeld s pa = false → (bel s (homeDie pa)).held = [] →
    (bel s (homeDie pa)).aband = [] → (bel s (homeDie pa)).armed.length + (bel s (homeDie pa)).shrunk < 31744 →
    (let v := rdN s (spaceSlot s (tileDie r.tile) w.space) pa 8
     (g.uget d.toNat ≤ v → ∃ t g', exec (.pwait r d b) s = .next t ∧ group? t r.tile r.slot = some g' ∧ g'.uget d.toNat = 0 ∧
       (∀ k, k ≠ d.toNat → g'.uget k = g.uget k) ∧ g'.v = g.v ∧ g'.p = g.p ∧ g'.stopped = false ∧ Advances g g' 16 ∧ SameMasks g g' ∧ SameBytes s t) ∧
     (v < g.uget d.toNat → ∃ t g', exec (.pwait r d b) s = .next t ∧ group? t r.tile r.slot = some g' ∧ g'.u = g.u ∧ g'.v = g.v ∧ g'.p = g.p ∧
       g'.pwaitS = some d.toNat ∧ g'.stopped = true ∧ g'.reason = rWait ∧ Advances g g' 16 ∧ SameMasks g g' ∧ SameBytes s t ∧
       (wg? t r.tile g.wg).map (fun x => (x.park, x.parkReason)) = some (.draining, rWait) ∧
       ∃ x ∈ (bel t (homeDie pa)).armed, x.pa = pa ∧ x.target = g.uget d.toNat ∧ x.kind = .group w.launch w.x w.y w.z g.idx d.toNat))

/-- For a launch with workgroups left, its engine in service and no replay before it: when the first candidate tile that has not
refused it admits it, the workgroup with the launch's next index is resident there, and every group of it starts at the
kernel's first bundle with every lane active and live and the uniform registers s0 to s3 of R348; the launch goes on to its
next index. When the tile refuses, only that is noted. GROUP_END of a finished group with no instruction in flight marks it
ended while another group of its workgroup has not ended. No byte of memory changes. -/
def Obligations.WorkgroupsAreAdmitted : Prop :=
  (∀ (s : State) (q n : Nat) (l : Launch) (m : Nat), launch? s q n = some l → l.killed = false → l.next < l.total →
    inService s (pgEng l.eng) = true → replayFirst s l = false → (candidates s l.eng l.dies).find? (fun x => !l.tried.contains x) = some m →
    (let x := l.next % l.wx
     let y := l.next / l.wx % l.wy
     let z := l.next / (l.wx * l.wy)
     (admits (bumpSteps s (pgEng l.eng) 2) m l = true → ∀ id, tfree (tile s m).wgs 32 = some id → (freeSlots (tile s m) l.g).length = l.g →
       ∃ t w, exec (.wgOffer q n) s = .next t ∧ wg? t m id = some w ∧ w.launch = l.key ∧ w.x = x ∧ w.y = y ∧ w.z = z ∧ w.space = l.space ∧
         w.m = l.m ∧ w.wgm = [] ∧ SameBytes s t ∧ (∀ k, k ≠ m → tile t k = tile s k) ∧
         (launch? t q n).map (fun l' => (l'.next, l'.tried)) = some (l.next + 1, []) ∧
         ∀ i k, i < l.g → (freeSlots (tile s m) l.g)[i]? = some k → ∃ g, group? t m k = some g ∧ g.idx = i ∧ g.wg = id ∧ g.pc = l.code ∧
           g.width = l.width ∧ g.active = 2 ^ l.width - 1 ∧ g.live = g.active ∧ g.stack = [] ∧ g.v = [] ∧ g.stat = .run ∧
           g.uget 0 = (x + 2 ^ 32 * y) % 2 ^ 64 ∧ g.uget 1 = (z + 2 ^ 32 * i) % 2 ^ 64 ∧ g.uget 2 = (l.wx + 2 ^ 32 * l.wy) % 2 ^ 64 ∧
           g.uget 3 = (l.wz + 2 ^ 32 * l.serial) % 2 ^ 64) ∧
     (admits (bumpSteps s (pgEng l.eng) 2) m l = false → ∃ t, exec (.wgOffer q n) s = .next t ∧ t.tiles = s.tiles ∧ t.ram = s.ram ∧
       (launch? t q n).map (fun l' => (l'.next, l'.tried)) = some (l.next, l.tried ++ [m])))) ∧
  (∀ (s : State) (r : GRef) (g : Group) (w : Wg), group? s r.tile r.slot = some g → wg? s r.tile g.wg = some w → g.stopped = false →
    g.stat = .finished → g.pend = [] → w.asked = 0 →
    (∃ k g2, k ≠ r.slot ∧ group? s r.tile k = some g2 ∧ g2.wg = g.wg ∧ g2.ended = false) →
    ∃ t g', exec (.groupEnd r) s = .next t ∧ group? t r.tile r.slot = some g' ∧ g'.ended = true ∧ g'.txg = none ∧ t.ram = s.ram ∧
      ∀ x ∈ t.resvs, ¬(x.2.1 = r.tile ∧ x.2.2 = r.slot)) ∧
  (∀ (s : State) (r : GRef) (g : Group), group? s r.tile r.slot = some g → g.stat ≠ .finished → exec (.groupEnd r) s = .next s)

/-- WG_PARK with PREEMPT, MIGRATE or DEBUG of a resident workgroup that is not parking, none of whose groups is bound, faulted or
in a park-wait, and one of which has not finished, stops every group with that reason; when all have finished it answers
NOTHING_TO_PARK and stops none. PARK_DONE of a workgroup that has not drained does nothing; drained, with a free slot in the
park area that it takes, an image that fits, and lines that are mapped on this device and not held, the workgroup leaves its
tile and its launch holds it as parked with that slot and image address; with no free slot it waits, and PARK_SLOT_FREE tries
again in the same way. WG_ABANDON frees a workgroup whose image write faulted and whose slot bit is not held.
PREEMPT_HOLD_EXPIRE ends the hold it names and nothing else. -/
def Obligations.ParkingStopsDrainsAndWrites : Prop :=
  (∀ (s : State) (n k reason : Nat) (w : Wg), reason = rPreempt ∨ reason = rMigrate ∨ reason = rDebug → wg? s n k = some w → w.park = .none →
    (∃ p ∈ (tile s n).groupsOf k, p.2.stat ≠ .finished) →
    (∀ p ∈ (tile s n).groupsOf k, p.2.txg = none ∧ p.2.fault = none ∧ p.2.pwaitS = none) →
    ∃ t, exec (.wgPark n k reason) s = .next t ∧ t.ram = s.ram ∧
      (wg? t n k).map (fun x => (x.park, x.parkReason)) = some (.draining, reason) ∧
      ∀ i g, group? s n i = some g → g.wg = k → ∃ g', group? t n i = some g' ∧ g'.stopped = true ∧ g'.reason = reason ∧ SameCore g g') ∧
  (∀ (s : State) (n k reason : Nat) (w : Wg), reason = rPreempt ∨ reason = rMigrate ∨ reason = rDebug → wg? s n k = some w → w.park = .none →
    (∀ p ∈ (tile s n).groupsOf k, p.2.stat = .finished) → ∃ t, exec (.wgPark n k reason) s = .next t ∧ t.ram = s.ram ∧
      (tile t n).noPark = (tile s n).noPark ++ [(k, reason)] ∧ (tile t n).groups = (tile s n).groups ∧ wg? t n k = some { w with asked := 0 }) ∧
  (∀ (s : State) (n k : Nat) (w : Wg), wg? s n k = some w →
    (w.park = .draining → drained (tile s n) k = false → exec (.parkDone n k) s = .next s) ∧
    (let park := qPark s w.launch.queue
     let ag := agTile n
     let die := tileDie n
     let does (i : Instr) : Prop := w.parkSlot = none →
       (∀ bs ms cnt sz s1, parkHeader s ag die w.space park = (.got bs ms, some (cnt, sz, none), s1) →
         ∃ t, exec i s = .next t ∧ (wg? t n k).map (·.park) = some .noSlot ∧ SameBytes s t ∧
         (w.park = .draining → (blk t (pgTile n)).errStat.getLsbD 10 = true)) ∧
       (∀ bs ms cnt sz f s1 s2, parkHeader s ag die w.space park = (.got bs ms, some (cnt, sz, some f), s1) →
         imageSize w.g w.width w.r w.m ≤ sz → virtHeld s1 ag die w.space (slotAddr park sz f) (imageSize w.g w.width w.r w.m) .write = false →
         setSlotBit s1 ag die w.space park f (parkStream s1 n k) true = (.was false, s2) →
         (let s3 := modWg s2 n k (fun x => { x with parkSlot := some f, park := .draining })
          let bytes := imageBytes w (((tile s3 n).byIdx k w.g).map (·.2))
          let im := slotAddr (qPark s3 w.launch.queue) sz f
          let x := translateRuns s3 ag die w.space .write false [(im, bytes.length)]
          bytes.length ≤ sz → x.1.fault = none → parkReqs (putImage x.2 n k w im bytes) n k = [] →
         ∃ t, exec i s = .next t ∧ wg? t n k = none ∧ (∀ j g, group? t n j = some g → g.wg ≠ k) ∧
           ∀ l, launch? s w.launch.queue w.launch.serial = some l → ∃ l' p, launch? t w.launch.queue w.launch.serial = some l' ∧
             l'.parked = l.parked ++ [p] ∧ p.x = w.x ∧ p.y = w.y ∧ p.z = w.z ∧ p.slot = f ∧ p.image = im))
     (w.park = .draining → drained (tile s n) k = true → does (.parkDone n k)) ∧ (w.park = .noSlot → does (.parkSlotFree n k))) ∧
    (w.park = .writeFault → (∀ i, w.parkSlot = some i → slotHeld s (agTile n) (tileDie n) w.space (qPark s w.launch.queue) i = false) → ∃ t, exec (.wgAbandon n k) s = .next t ∧ wg? t n k = none ∧ ∀ j g, group? t n j = some g → g.wg ≠ k) ∧
    (∃ t, exec (.preemptHoldExpire (.resident n k)) s = .next t ∧ wg? t n k = some { w with hold := false } ∧ t.ram = s.ram ∧
      (tile t n).groups = (tile s n).groups ∧ ∀ j, j ≠ k → wg? t n j = wg? s n j))

/-- With the belay page in service, no notification held back and no registration of a park-wait undecided: WATCH_ENTRY_ADMIT
takes the first registration that may enter; of a queue's WAIT on a counter outside every abandoned range it is armed below
its target, and has ended REACHED at or above it; with none that may enter nothing changes. QUEUE_WATCH_END completes the
WAIT with its status and value, GROUP_WATCH_END, when the status word is not held, leaves one watch less to wait for.
ABANDON_MARK of a listed range covers every frame of it and leaves no armed watch in it. WATCH_ENTRY_ERROR ends the watch and
sets ENTRY_ERR. After BEL_RETURN_SERVICE with an empty wait list and no detector armed every armed watch is below its target. -/
def Obligations.WatchesEndAsTheSpecSays : Prop :=
  ∀ (s : State) (d id : Nat) (w : Watch) (e : Ended), d < 4 → NoRegWait s → (bel s d).held = [] →
    (inService s (pgBel d) = true → nextWaiting (bel s d) = none → exec (.watchEntryAdmit d) s = .next s) ∧
    (∀ q n, inService s (pgBel d) = true → nextWaiting (bel s d) = some w → w.kind = .queue q n → (bel s d).aband = [] →
      ∃ t, exec (.watchEntryAdmit d) s = .next t ∧ (∀ x ∈ (bel t d).waitl, x.id ≠ w.id) ∧ t.ram = s.ram ∧
        (counterOf s w < w.target → { w with last := counterOf s w } ∈ (bel t d).armed) ∧
        (w.target ≤ counterOf s w → (⟨w, 0, counterOf s w⟩ : Ended) ∈ (bel t d).ended ∧ (bel t d).armed = (bel s d).armed) ∧
        ∀ c, cmd? s q n = some c → c.watch = some (d, w.id) → (cmd? t q n).map (·.stage) = some .armed) ∧
    ((bel s d).ended.find? (fun x => x.w.id == id) = some e →
      (∀ q n c, e.w.kind = .queue q n → cmd? s q n = some c → c.res = none →
        Decides s (.queueWatchEnd d id) q n (if e.status = 0 then csComplete else csWaitEnded) (e.status + 2 ^ 64 * e.value)
          (fun t => ∀ x ∈ (bel t d).ended, x.w.id ≠ id)) ∧
      (∀ k x y z idx sreg l p, e.w.kind = .group k x y z idx sreg → s.launches.find? (fun l => l.key == k) = some l →
        l.parked.find? (fun p => p.x == x && p.y == y && p.z == z) = some p →
        virtHeld s (agEng l.eng) (engDie l.eng) l.space (p.image + 256 + idx * recSize l.width l.r + 256 + 8 * sreg) 8 .write = false →
        ∃ t l', exec (.groupWatchEnd d id) s = .next t ∧ launch? t l.q l.serial = some l' ∧ (∀ x ∈ (bel t d).ended, x.w.id ≠ id) ∧
          (launch? s l.q l.serial = some l → l'.parked = l.parked.map (fun y => if y.slot = p.slot then { y with waits := y.waits - 1 } else y)))) ∧
    (∀ first n c, s.cmds.find? (fun c => c.opc == 0x8E && c.stageNo == 2 && c.aux.contains (first, n) && first / 2 ^ 17 == d) = some c →
      1 ≤ n → (rangeMerge first n (bel s d).aband).length ≤ 16384 →
      ∃ t, exec (.abandonMark d first n) s = .next t ∧ t.ram = s.ram ∧
        (∀ f, first ≤ f → f < first + n → ∃ r ∈ (bel t d).aband, r.1 ≤ f ∧ f < r.1 + r.2) ∧
        ∀ x ∈ (bel t d).armed, ¬(first ≤ x.pa / 2 ^ 21 ∧ x.pa / 2 ^ 21 < first + n)) ∧
    ((bel s d).armed.find? (fun x => x.id == id) = some w → ∃ t, exec (.watchEntryError d id) s = .next t ∧
      (∀ x ∈ (bel t d).armed, x.id ≠ id) ∧ (blk t (pgBel d)).errStat.getLsbD 11 = true ∧ t.ram = s.ram) ∧
    (inService s (pgBel d) = true → (bel s d).waitl = [] → (blk s (pgBel d)).injArm = false →
      ∃ t, exec (.belReturnService d) s = .next t ∧ t.ram = s.ram ∧ ∀ x ∈ (bel t d).armed, counterOf s x < x.target)

/-- For a command in execution, with no access waiting for a held line: TXG_OPEN with a free slot on its die and a lifetime that
is not reserved opens the lowest one for its space and completes with a handle that names it; TXG_COMMIT and TXG_ABORT of a
handle that is not valid end with the status of the first check that fails; an ended group answers ALREADY to an abort, and
to a commit ALREADY when it committed, else ABORTED with the cause. A commit of an open group with no staged line ends it
COMMITTED and completes; with lines it is COMMITTING, held. An abort of an open group frees it, its lines are discarded and
no byte of memory changes; TXG_EXPIRED does the same with cause 7 when the group has a lifetime. -/
def Obligations.TransactionGroupsOpenCommitAbort : Prop :=
  ∀ (s : State) (q n : Nat) (c : Cmd), NothingHeld s →
    (∀ i, InHand s q n 0x04 c → (c.n4 0x14) % 2 ^ 18 / 2 ^ 16 ≠ 3 → (let d := c.n4 0x10 % 4
      inService s (pgTxg d) = true → i < 64 → (txgAt s (64 * d + i)).st = .free → (∀ j, j < i → (txgAt s (64 * d + j)).st ≠ .free) →
      ∃ h, Decides s (.txgOpen q n) q n csComplete h (fun t => hIx h = 64 * d + i ∧ (txgAt t (hIx h)).st = .opened ∧
        (txgAt t (hIx h)).gen = hGen h ∧ (txgAt t (hIx h)).space = c.space ∧ (txgAt t (hIx h)).lines = [] ∧ t.ram = s.ram ∧
        ∀ k, k ≠ hIx h → txgAt t k = txgAt s k))) ∧
    (InHand s q n 0x05 c → (let h := c.n8 0x10
      let x := txgAt s (hIx h)
      (∀ st, handleCheck s c.space h = some st → Decides s (.txgCommit q n) q n st 0 (fun t => t.txgs = s.txgs)) ∧
      (handleCheck s c.space h = none →
        (∀ cause, x.ended = some cause → Decides s (.txgCommit q n) q n (if cause = 0 then csAlready else csAborted) cause (fun t => t.txgs = s.txgs)) ∧
        (x.ended = none → x.st = .opened →
          (x.lines = [] → Decides s (.txgCommit q n) q n csComplete 0 (fun t => (txgAt t (hIx h)).st = .free ∧ (txgAt t (hIx h)).ended = some 0)) ∧
          (x.lines ≠ [] → ∃ t, exec (.txgCommit q n) s = .next t ∧ (txgAt t (hIx h)).st = .committing ∧ (txgAt t (hIx h)).by_ = some (q, n) ∧
            (txgAt t (hIx h)).lines = x.lines ∧ t.ram = s.ram))))) ∧
    (InHand s q n 0x06 c → (let h := c.n8 0x10
      let x := txgAt s (hIx h)
      (∀ st, handleCheck s c.space h = some st → Decides s (.txgAbort q n) q n st 0 (fun t => t.txgs = s.txgs)) ∧
      (handleCheck s c.space h = none →
        (x.ended ≠ none → Decides s (.txgAbort q n) q n csAlready 0 (fun t => t.txgs = s.txgs)) ∧
        (x.ended = none → x.st = .opened → x.by_ = none → Decides s (.txgAbort q n) q n csComplete 0 (fun t => (txgAt t (hIx h)).st = .free ∧
          (txgAt t (hIx h)).lines = [] ∧ (txgAt t (hIx h)).ended = some 1 ∧ t.ram = s.ram ∧ ∀ k, k ≠ hIx h → txgAt t k = txgAt s k))))) ∧
    (∀ d k, d < 4 → k < 64 → (txgAt s (64 * d + k)).st = .opened → (txgAt s (64 * d + k)).life % 2 ^ 16 ≠ 0 →
      ∃ t, exec (.txgExpired d k) s = .next t ∧ (txgAt t (64 * d + k)).st = .free ∧ (txgAt t (64 * d + k)).lines = [] ∧
        (txgAt t (64 * d + k)).ended = some 7 ∧ t.ram = s.ram ∧ ∀ j, j ≠ 64 * d + k → txgAt t j = txgAt s j)

/-- With no access waiting for a held line: TXG_COMMIT_POINT of a committing group whose staged lines all pass their check, with
no detector armed, records COMMITTED, completes the command that waits for it, and changes no byte of memory; a staged line
that fails ends the group with cause TXG_ERROR, its lines discarded; of a group that does not commit it does nothing.
TXG_INSTALL of a committed group whose one line in the slice is staged leaves at that line the staged bytes over the old
ones, every other line as it was, carries the mark when its code has failed since, and takes the line off the group, which is
free when none is left. Lines of other slices stay staged, and a group that is not committed is left alone. -/
def Obligations.CommitsInstallTheirLines : Prop :=
  ∀ (s : State) (d k sl line : Nat) (x : StLine), d < 4 → k < 64 → NothingHeld s →
    (let i := 64 * d + k
     ((txgAt s i).st = .committing → (blk s (pgTxg d)).injArm = false →
       (∃ t, exec (.txgCommitPoint d ⟨k, none⟩) s = .next t ∧ t.ram = s.ram ∧
         (txgAt t i).ended = some 0 ∧ (txgAt t i).lines = (txgAt s i).lines ∧
         (txgAt t i).st = (if (txgAt s i).lines = [] then .free else .committed) ∧
         ∀ q n c, (txgAt s i).by_ = some (q, n) → cmd? s q n = some c → c.res = none → (cmd? t q n).map (·.res) = some (some (csComplete, 0, []))) ∧
       (thas (txgAt s i).lines line = true → ∃ t, exec (.txgCommitPoint d ⟨k, some line⟩) s = .next t ∧ t.ram = s.ram ∧
         (txgAt t i).st = .free ∧ (txgAt t i).ended = some 8 ∧ (txgAt t i).lines = [] ∧ (blk t (pgTxg d)).errStat.getLsbD 10 = true)) ∧
     (∀ bad, (txgAt s i).st ≠ .committing → exec (.txgCommitPoint d ⟨k, bad⟩) s = .next s) ∧
     (∀ bad, (txgAt s i).st ≠ .committed → exec (.txgInstall d k ⟨sl, bad⟩) s = .next s) ∧
     (∀ bad, (txgAt s i).st = .committed → (txgAt s i).lines.filter (fun l => sliceOf (128 * l.1) = sl && !isPchHeld s (128 * l.1)) = [(line, x)] →
       isFenced s (128 * line) = false → (∀ b ∈ x.bytes, b.1 < 128) → ∃ t, exec (.txgInstall d k ⟨sl, bad⟩) s = .next t ∧
         LineHolds s t x.slot (128 * line) x.bytes ∧ (bad.contains line = true → isMarked t (128 * line) = true) ∧
         (txgAt t i).lines = (txgAt s i).lines.filter (fun l => !(sliceOf (128 * l.1) = sl && !isPchHeld s (128 * l.1))) ∧
         (txgAt t i).st = (if (txgAt t i).lines = [] then .free else .committed)))

/-- For a command in execution: NOP completes. SIGNAL, WAIT and WATCH whose counter is no aligned reference end with QERR_FIELD.
On a counter that leads to a line of this device, neither held nor fenced: SIGNAL leaves there the old value plus AMOUNT, at
most 2^64 - 1, every other line as it was, and completes. WAIT registers a watch for itself and WATCH one for its ring and
tag, armed with the target when the counter is below it and the belay is in service with room, no waiting registration and no
abandoned range; a WAIT has then acted and holds no place, a WATCH completes. -/
def Obligations.QueueCommandsAct : Prop :=
  ∀ (s : State) (q n : Nat) (c : Cmd),
    (InHand s q n 0x00 c → Decides s (.nop q n) q n csComplete 0 (fun t => t.ram = s.ram ∧ t.txgs = s.txgs ∧ t.bels = s.bels)) ∧
    (c.ctr = none → (InHand s q n 0x02 c → Decides s (.signalCmd q n) q n csField 0 (fun t => t.ram = s.ram)) ∧
      (InHand s q n 0x01 c → Decides s (.waitCmd q n) q n csField 0 (fun t => t.ram = s.ram ∧ t.bels = s.bels)) ∧
      (InHand s q n 0x03 c → Decides s (.watchCmd q n) q n csField 0 (fun t => t.ram = s.ram ∧ t.bels = s.bels))) ∧
    (∀ va o s1 p ord, c.ctr = some va → o.fails = [] → o.ok = [(va, .loc p, ord)] → lineHeld s p = false → isFenced s p = false →
      p % 128 + 8 ≤ 128 →
      (let slot := spaceSlot s c.die c.space
       (InHand s q n 0x02 c → translateAll s c.ag c.die c.space .rmw false [va] = (o, s1) → Decides s (.signalCmd q n) q n csComplete 0
         (fun t => LineHolds s t slot p ((toBytes 8 (min (rdN s slot p 8 + c.n8 0x18) (2 ^ 64 - 1))).mapIdx (fun i b => (p % 128 + i, b))))) ∧
       (translateAll s c.ag c.die c.space .read false [va] = (o, s1) → inService s (pgBel (homeDie p)) = true →
         (bel s (homeDie p)).waitl = [] → (bel s (homeDie p)).aband = [] → (bel s (homeDie p)).armed.length + (bel s (homeDie p)).shrunk < 31744 →
         rdN s slot p 8 < c.n8 0x18 →
         (InHand s q n 0x01 c → ∃ t c', exec (.waitCmd q n) s = .next t ∧ cmd? t q n = some c' ∧ c'.stage = .armed ∧ c'.ran = true ∧ c'.res = none ∧
           t.ram = s.ram ∧ ∃ x ∈ (bel t (homeDie p)).armed, x.pa = p ∧ x.target = c.n8 0x18 ∧ x.slot = slot ∧ x.kind = .queue q n) ∧
         (InHand s q n 0x03 c → Decides s (.watchCmd q n) q n csComplete 0 (fun t => t.ram = s.ram ∧ ∃ x ∈ (bel t (homeDie p)).armed,
           x.pa = p ∧ x.target = c.n8 0x18 ∧ x.slot = slot ∧ x.kind = .host (bits (c.n4 0x28) 7 0) (c.n8 0x20) q)))))

/-- For a LAUNCH in execution: a grid of 0 or of 2^32 workgroups or more and a queue with no park area end it with QERR_FIELD, a
descriptor that is not 64 B aligned with QERR_KDESC. When the descriptor and its region list are read, unmarked and in range,
and some tile fits, exactly one launch is added, with the descriptor's first bundle, width, groups, registers and memory size
and the grid of the command, none of its workgroups offered; the command has acted. REPLAY and AUTO_REPLAY of a parked
workgroup whose image is read and which a candidate admits leave it no longer parked; REPLAY completes. A REPLAY of a launch
that is gone ends with QERR_REPLAY_STALE. -/
def Obligations.LaunchesAndReplaysStart : Prop :=
  (∀ (s s1 s2 : State) (q n kva : Nat) (c : Cmd) (ls rs : List (Nat × List Nat × Bool)), InHand s q n 0x10 c →
    (let total := c.n4 0x18 * c.n4 0x1C * c.n4 0x20
     let bs := gotBytes ls kva 64
     let k := bits (leAt4 bs 0x18) 4 0
     let es := (List.range k).map (fun i => gotBytes rs (leAt8 bs 0x10 + 16 * i) 16)
     (total = 0 ∨ 2 ^ 32 ≤ total ∨ qPark s q = 0 → Decides s (.launch q n) q n csField 0 (fun t => t.launches = s.launches ∧ t.ram = s.ram)) ∧
     (0 < total → total < 2 ^ 32 → qPark s q ≠ 0 → c.ref 0x10 = some kva →
       (kva % 64 ≠ 0 → Decides s (.launch q n) q n csKdesc 0 (fun t => t.launches = s.launches ∧ t.ram = s.ram)) ∧
       (kva % 64 = 0 → cmdLines s c .read [(kva, 64)] = .got ls s1 → gotMark ls = false → kdescOk bs = true → k ≤ 16 → (k = 0 ∨ leAt8 bs 0x10 ≠ 0) →
         cmdLines s1 c .read [(leAt8 bs 0x10, 16 * k)] = .got rs s2 → gotMark rs = false → es.all rgnOk = true →
         launchFits s2 c.eng (bits (c.n4 0x24) 19 16) (bits (leAt4 bs 8) 6 2) (widthOf (bits (leAt4 bs 8) 1 0)) (bits (leAt4 bs 8) 14 7) (leAt4 bs 0x0C) k = true →
         ∃ t c' l, exec (.launch q n) s = .next t ∧ cmd? t q n = some c' ∧ c'.ran = true ∧ c'.res = none ∧ t.launches = s.launches ++ [l] ∧
           l.q = q ∧ l.serial = n ∧ l.eng = c.eng ∧ l.space = c.space ∧ l.code = leAt8 bs 0 ∧ l.width = widthOf (bits (leAt4 bs 8) 1 0) ∧
           l.g = bits (leAt4 bs 8) 6 2 ∧ l.r = bits (leAt4 bs 8) 14 7 ∧ l.m = leAt4 bs 0x0C ∧ l.wx = c.n4 0x18 ∧ l.wy = c.n4 0x1C ∧
           l.wz = c.n4 0x20 ∧ l.next = 0 ∧ l.ended = 0 ∧ l.parked = [] ∧ SameBytes s t)))) ∧
  (∀ (s s1 s2 s3 : State) (q n va : Nat) (c : Cmd) (ls : List (Nat × List Nat × Bool)) (l : Launch) (p : Parked) (bs ms : List Nat),
    InHand s q n 0x11 c → c.ref 0x10 = some va → cmdLines s c .read [(va, 256)] = .got ls s1 →
    (let h := gotBytes ls va 256
     let key := leAt8 h 0x10
     let hit := s1.launches.find? (fun l => l.q == bits key 31 16 && l.serial == bits key 63 32 && l.ctx == bits key 15 0)
     let im := imageOf l va bs ms
     (hit = none → Decides s (.replay q n) q n csRepStale 0 (fun t => t.launches = s.launches)) ∧
     (hit = some l → l.space = c.space → l.killed = false → p.waits = 0 →
       l.parked.find? (fun p => p.x == leAt4 h 0x18 && p.y == leAt4 h 0x1C && p.z == leAt4 h 0x20) = some p →
       readImage s1 { l with eng := c.eng } va = (.got bs ms, s2) →
       im.recs.all (fun r => actionOk (recReason r) (recAction r) (recImprecise r)) = true →
       im.recs.any (fun r => recAction r == 3) = false → replayPlace s2 l p im = (.yes, s3) →
       Decides s (.replay q n) q n csComplete 0 (fun t => ∃ l', launch? t l.q l.serial = some l' ∧ ∀ y ∈ l'.parked, y.slot ≠ p.slot)))) ∧
  (∀ (s s1 s2 : State) (q k : Nat) (l : Launch) (p : Parked) (bs ms : List Nat),
    s.launches.find? (fun l => l.q == q && l.parked.any (fun p => p.slot == k)) = some l → l.parked.find? (fun p => p.slot == k) = some p →
    p.replayable = true → l.killed = false → inService s (pgEng l.eng) = true → readImage s l p.image = (.got bs ms, s1) →
    replayPlace s1 l p (imageOf l p.image bs ms) = (.yes, s2) →
    ∃ t l', exec (.autoReplay q k) s = .next t ∧ launch? t l.q l.serial = some l' ∧ ∀ y ∈ l'.parked, y.slot ≠ p.slot)

/-- While the host-side function is READY and nothing of the host waits, a write of PRODUCED to a queue that takes it sets its
latch and the pending bit, one to a queue that is INVALID or retiring, or by another context, only counts, one elsewhere or
of another size does nothing, and a read of a word gives the latch, CONSUMED or 0; while it is not READY no doorbell exists.
COMMAND_FETCH of a RUNNING queue with a command below the latch as its engine reads it adds it, with its 128 bytes and the
next serial. COMMAND_START of an engine with a place and one ready queue starts the command fetched: a wrong opcode is
decided QERR_OPCODE, a reserved bit QERR_FIELD, and one without references is in execution. COMMAND_END of a command that
completed writes its record and takes it from its engine. QUEUE_TIMEOUT sets TIMEOUT; without STOP it raises the event once,
with STOP the command expires and its queue is in ERROR. -/
def Obligations.QueuesTakeAndEndCommands : Prop :=
  (∀ (s : State) (q tag off sz v : Nat), q < 16384 → off < 4096 → (let st := qState s q
    (hostReady s = false → ∀ w, exec (.doorbellWrite q tag sz ⟨off, w⟩) s = .next s) ∧
    (hostReady s = true → hostBusy s = false →
      (sz ≠ 4 ∨ off ≠ 0 → exec (.doorbellWrite q tag sz ⟨off, some v⟩) s = .next s) ∧
      (off % 4 = 0 → ∃ t, exec (.doorbellWrite q tag 4 ⟨off, none⟩) s = .next t ∧ { t with bus := s.bus } = s ∧
        tget? t.bus (pathIx .host) = some (if off = 0 then (qlive s q).latch else if off = 4 then qdN s q 0x18 4 else 0)) ∧
      (st ≠ 0 → st ≠ 5 → (tag = 0 ∨ tag = qCtx s q) → ∃ t, exec (.doorbellWrite q tag 4 ⟨0, some v⟩) s = .next t ∧
        qlive t q = { qlive s q with latch := v % 2 ^ 32, pend := true } ∧ t.ram = s.ram ∧ (∀ k, k ≠ q → qlive t k = qlive s k)) ∧
      (st = 0 ∨ st = 5 ∨ (tag ≠ 0 ∧ tag ≠ qCtx s q) → ∃ t, exec (.doorbellWrite q tag 4 ⟨0, some v⟩) s = .next t ∧ t.queues = s.queues ∧
        t.ram = s.ram)))) ∧
  (∀ (s s2 : State) (q e : Nat) (o : XOut) (bs : List Nat), q < 16384 → qEng s q = some e → qState s q = 1 → inService s (pgEng e) = true →
    caughtUp (readLatch s q) q = false → (ctxEntry s (qCtx s q)).testBit 31 = true → bits (ctxEntry s (qCtx s q)) 11 0 = qSpace s q →
    spaceState s (engDie e) (qSpace s q) = 1 →
    (let con := qdN s q 0x18 4
     let rs := bits (qdN s q 0x10 4) 4 0
     let va := qdN s q 0x08 8 + 128 * (con % 2 ^ rs)
     ((qlive (readLatch s q) q).seen + 2 ^ 32 - con) % 2 ^ 32 ≤ 2 ^ rs →
     readVirt (readLatch s q) (agEng e) (engDie e) (qSpace s q) va 128 .read = ((o, .got bs []), s2) →
     ∃ t c, exec (.commandFetch q) s = .next t ∧ t.cmds = s2.cmds ++ [c] ∧ c.q = q ∧ c.serial = (con + 1) % 2 ^ 32 ∧ c.eng = e ∧
       c.space = qSpace s q ∧ c.body = bs ∧ c.stage = .fetched ∧ c.res = none)) ∧
  (∀ (s : State) (q e : Nat) (c : Cmd), e < 44 → inService s (pgEng e) = true → placesUsed s e < engLimit e → readyQueues s e = [q] →
    (queueCmds s q).find? (fun c => !inExec c) = some c → c.eng = e → c.asked = none → c.res = none → c.ran = false → c.refs = [] → c.n8 8 = 0 →
    ∃ t c', exec (.commandStart e) s = .next t ∧ cmd? t q c.serial = some c' ∧ c'.stage = .running ∧ c'.body = c.body ∧ c'.ran = false ∧
      (opcOk (engClass e) c.opc = false → c'.res = some (csOpcode, 0, [])) ∧
      (opcOk (engClass e) c.opc = true → c.reservedClear = false → c'.res = some (csField, 0, [])) ∧
      (opcOk (engClass e) c.opc = true → c.reservedClear = true → e < 40 → (∀ x ∈ c.refOffs, c.n8 x = 0) → c'.res = none)) ∧
  (∀ (s s1 : State) (q n : Nat) (c : Cmd) (info a p : Nat) (d : List Nat) (o : XOut) (ord : Bool), cmd? s q n = some c → c.killed = none → c.ending = none →
    recordHeld s c = false → inExec c = true → endOf s c = some (csComplete, info, d) → c.compl = some a → a % 64 = 0 → spaceState s c.die c.space = 1 → c.inflight = [] →
    c.opc ≠ 0x01 → qState s q ≠ 2 → (∀ i, i < 4 → (qdAddr s q + i) / 128 ≠ p / 128) → isFenced s p = false →
    translateRuns s c.ag c.die c.space .write false [(a, 64)] = (o, s1) → o.fails = [] → o.ok = [(a / 128 * 128, .loc p, ord)] →
    ∃ t, exec (.commandEnd q n) s = .next t ∧ cmd? t q n = none ∧ LineHolds s t (spaceSlot s c.die c.space) p
      ((toBytes 4 (256 * c.opc + c.flags) ++ toBytes 4 c.tag ++ toBytes 8 (n + 2 ^ 32 * q) ++ toBytes 16 info ++ (d ++ zeros (32 - d.length)).take 32).mapIdx
        (fun i b => (a % 128 + i, b)))) ∧
  (∀ (s : State) (q n : Nat) (c : Cmd), cmd? s q n = some c → inExec c = true → c.killed = none → c.ending = none →
    bits c.tmo 15 0 ≠ 0 →
    (c.tmo.testBit 18 = false → c.flags.testBit 20 = false → ∃ t c', exec (.queueTimeout q n) s = .next t ∧ cmd? t q n = some c' ∧
      c'.flags = c.flags + 2 ^ 20 ∧ (blk t (pgEng c.eng)).errStat.getLsbD 9 = true ∧ t.ram = s.ram ∧ ∃ ev ∈ t.evq, ev.kind = 3 ∧ ev.tag = n + 2 ^ 32 * q) ∧
    (c.tmo.testBit 18 = true → c.asked = none → ∃ t c', exec (.queueTimeout q n) s = .next t ∧ cmd? t q n = some c' ∧ c'.expired = true ∧
      c'.asked = some 0x43 ∧ (blk t (pgEng c.eng)).errStat.getLsbD 9 = true))

/-- With no access waiting for a held line, KILL with the cause asked of a command in execution that no kill has met, whose
record is not on its way and whose parked workgroups' slot bits are not held: NOP, SIGNAL, WATCH, TXG_OPEN and TXG_ABORT run
to their end and nothing changes; any other queue command is killed with that cause, a LAUNCH stops every resident workgroup
and its launch takes none again, and a WAIT leaves no armed or waiting watch of its own. KILL_DONE of a killed command that
is no launch, whose requests have all ended and which writes no record, takes it from its engine; one with a request open
stays. -/
def Obligations.KillsStopCommands : Prop :=
  ∀ (s : State) (q n cause : Nat) (c : Cmd), cmd? s q n = some c →
    (NothingHeld s → inExec c = true → 0x40 ≤ cause → cause ≤ 0x43 → c.opc < 0x80 → c.asked = some cause → c.killed = none → c.ending = none →
      (∀ l, launch? s q n = some l → ∀ p ∈ l.parked, slotHeld s c.ag c.die l.space (qPark s l.q) p.slot = false) →
      (runsOut c.opc = true → exec (.kill q n cause) s = .next s) ∧
      (runsOut c.opc = false → (c.opc = 0x05 → c.res = none) → ∃ t c', exec (.kill q n cause) s = .next t ∧ cmd? t q n = some c' ∧ c'.killed = some cause ∧
        (c.opc = 0x10 → ∀ l, launch? s q n = some l → (∃ l', launch? t q n = some l' ∧ l'.killed = true ∧ l'.parked = []) ∧
          ∀ m k w, wg? s m k = some w → w.launch = l.key → (m, k) ∈ wgsOf s l.key → (wg? t m k).map (·.park) = some .killing) ∧
        (c.opc = 0x01 → ∀ d, d < 4 → ∀ x ∈ (bel t d).armed ++ (bel t d).waitl, x.kind ≠ .queue q n))) ∧
    (c.killed = some cause → c.ending = none → launch? s q n = none →
      (reqsDone s c.reqs = true → c.recordAt s = none → ∃ t, exec (.killDone q n) s = .next t ∧ cmd? t q n = none) ∧
      (reqsDone s c.reqs = false → exec (.killDone q n) s = .next s)) ∧
    (c.killed = none → exec (.killDone q n) s = .next s)

/-- For a copy command in execution outside a transaction group, whose source and destination lines lead to lines of this device,
each its own, neither held nor fenced nor that of the space's descriptor, the sources unmarked and no detector armed: after
COPY each destination byte reads as the source byte read before, after FILL the pattern repeats from DST, after a CONVERT of
packed formats of whole bytes, neither lined nor quantised, with rounding to nearest or to zero, each element is the source
element rounded into the destination format, and after an ADD of one element the FP32 word is the old one plus the source.
The command completes with its lines counted, and every other line reads as before. Reserved rounding, an ADD into another
format than FP32, and overlapping ranges end with QERR_FIELD. -/
def Obligations.CopyCommandsWriteTheirLines : Prop :=
  ∀ (s s1 s2 : State) (q n a d : Nat) (c : Cmd) (ro wo : XOut), Sound s → Plain s wo → Apart s c.die c.space wo → Plain s ro → Unmarked s ro → c.n8 0x30 = 0 →
    (let key := keyId s (spaceSlot s c.die c.space)
     let byte (t : State) (x : Nat) : Nat := byteUnder t.ram key x
     let src (x k : Nat) : Nat := ofBytes ((rangeFrom x k).map (fun y => byte s (physAt ro y)))
     let dst (t : State) (x k : Nat) : Nat := ofBytes ((rangeFrom x k).map (fun y => byte t (physAt wo y)))
     let xl (acc : Acc4) (rs ws : List (Nat × Nat)) : Prop := translateRuns s c.ag c.die c.space .read false rs = (ro, s1) ∧
       translateRuns s1 c.ag c.die c.space acc false ws = (wo, s2)
     let ends (i : Instr) (P : State → Prop) : Prop := Decides s i q n csComplete 0 (fun t => OutsideSame s t wo ∧ P t ∧
       (cmd? t q n).map (·.count) = some wo.ok.length)
     (Ready s q n 0x20 c → c.ref 0x10 = some a → c.ref 0x18 = some d → xl .write [(a, c.n8 0x38)] [(d, c.n8 0x38)] →
       ends (.copyCmd q n) (fun t => ∀ i, i < c.n8 0x38 → byte t (physAt wo (d + i)) = byte s (physAt ro (a + i)))) ∧
     (Ready s q n 0x21 c → c.ref 0x18 = some d → xl .write [] [(d, c.n8 0x38)] →
       ends (.fillCmd q n) (fun t => ∀ i, i < c.n8 0x38 → byte t (physAt wo (d + i)) = c.body.getD (0x50 + i % 16) 0 % 256)) ∧
     (Ready s q n 0x22 c → c.ref 0x10 = some a → c.ref 0x18 = some d → c.convOk false = true → c.quant = 0 → c.linedS = false → c.linedD = false →
       c.blocked = false → c.rnd ≤ 1 → fmtBits c.sfmt % 8 = 0 → fmtBits c.dfmt % 8 = 0 → overlaps (a, c.srcLen) (d, c.dstLen) = false →
       xl .write [(a, c.srcLen)] [(d, c.dstLen)] →
       ends (.convert q n) (fun t => ∀ r k, r < c.rows → k < c.cols →
         dst t (d + (r * c.cols + k) * (fmtBits c.dfmt / 8)) (fmtBits c.dfmt / 8) =
           toFmt c.dfmt (if c.rnd = 0 then .ne else .tz) (ofFmt c.sfmt (src (a + (r * c.cols + k) * (fmtBits c.sfmt / 8)) (fmtBits c.sfmt / 8))) % 2 ^ fmtBits c.dfmt)) ∧
     (Ready s q n 0x23 c → c.ref 0x10 = some a → c.ref 0x18 = some d → c.convOk true = true → c.linedS = false → c.blocked = false →
       c.rows = 1 → c.cols = 1 → fmtBits c.sfmt % 8 = 0 → d % 4 = 0 → overlaps (a, c.srcLen) (d, c.dstLen) = false →
       xl .rmw [(a, c.srcLen)] [(d, c.dstLen)] →
       ends (.addCmd q n) (fun t => dst t d 4 = (f32Add (BitVec.ofNat 32 (dst s d 4)) (toF32 (ofFmt c.sfmt (src a (fmtBits c.sfmt / 8))))).toNat)) ∧
     (Ready s q n 0x22 c → c.rnd = 3 → Decides s (.convert q n) q n csField 0 (fun t => t.ram = s.ram)) ∧
     (Ready s q n 0x23 c → c.dfmt ≠ 0 → Decides s (.addCmd q n) q n csField 0 (fun t => t.ram = s.ram)))

/-- For a fabric engine command in execution: a PUT to no global address ends with QERR_FIELD. A PUT without anchor to this
device, whose source and destination lines lead to lines of this device, each its own, neither held nor fenced, the sources
unmarked, outside a transaction group, leaves at each destination byte the source byte read before, every other line as it
was, and completes at its next action. A PUT to another device, its source read, has for each destination line a WRITE on its
stream that carries the source bytes of that line; once a port has accepted every one it completes, with an ANCHOR behind
them when it asks for one; until then it stays. RFENCE, when every packet sent earlier on its stream has been answered,
completes with what the stream has answered, lost before refused, and clears it. -/
def Obligations.PutAndFenceComplete : Prop :=
  ∀ (s s1 s2 : State) (q n : Nat) (c : Cmd),
    (let g := c.n8 0x18
     let len := c.n8 0x20
     let key := keyId s (spaceSlot s c.die c.space)
     let stream := strPut c.eng (bits (c.n4 0x30) 5 0)
     (InHand s q n 0x30 c → c.stageNo = 0 → gForm g = false → Decides s (.put q n) q n csField 0 (fun t => t.ram = s.ram)) ∧
     (∀ a ro wo, InHand s q n 0x30 c → c.stageNo = 0 → gForm g = true → c.n4 0x30 / 256 % 2 = 0 → gAddr g + len ≤ 2 ^ 48 → c.ref 0x10 = some a →
       gHere s g = true → c.n8 0x28 = 0 → Sound s → Plain s wo → Apart s c.die c.space wo → Plain s ro → Unmarked s ro →
       translateRuns s c.ag c.die c.space .read false [(a, len)] = (ro, s1) →
       translateRuns s1 c.ag c.die c.space .write false [(gAddr g, len)] = (wo, s2) →
       ∃ t c', exec (.put q n) s = .next t ∧ cmd? t q n = some c' ∧ c'.stageNo = 2 ∧ c'.res = none ∧ OutsideSame s t wo ∧
         ∀ i, i < len → byteUnder t.ram key (physAt wo (gAddr g + i)) = byteUnder s.ram key (physAt ro (a + i))) ∧
     (∀ a ls, InHand s q n 0x30 c → c.stageNo = 0 → gForm g = true → c.n4 0x30 / 256 % 2 = 0 → gAddr g + len ≤ 2 ^ 48 → c.ref 0x10 = some a →
       gHere s g = false → cmdLines s c .read [(a, len)] = .got ls s1 →
       ∃ t c', exec (.put q n) s = .next t ∧ cmd? t q n = some c' ∧ c'.stageNo = 1 ∧ c'.res = none ∧
         c'.count = (linesOf (gAddr g) len).length ∧ SameBytes s t ∧
         ∀ l ∈ linesOf (gAddr g) len, Asked t q n (fun k => k.dst = gDev g ∧ k.stream = stream ∧ k.space = c.space ∧ k.txg = c.n8 0x28 ∧
           WritesRun k l (gAddr g) len (fun i => (gotBytes ls (a + i) 1).getD 0 0))) ∧
     (InHand s q n 0x30 c → c.stageNo = 2 → c.n4 0x30 / 256 % 2 = 0 → Decides s (.put q n) q n csComplete 0 (fun t => t.ram = s.ram)) ∧
     (InHand s q n 0x30 c → c.stageNo = 1 →
       (allSent s c.reqs = true → Decides s (.put q n) q n csComplete 0 (fun t => t.ram = s.ram ∧
         (c.n4 0x30 / 256 % 2 = 1 → Asked t q n (fun k => k.kind = pkAnchor ∧ k.dst = gDev g ∧ k.stream = stream ∧ k.txg = c.n8 0x28 ∧
           k.operand = c.n8 0x40 ∧ k.addr = (if c.n8 0x38 = 0 then 0 else gAddr (c.n8 0x38)))))) ∧
       (allSent s c.reqs = false → exec (.put q n) s = .next s)) ∧
     (InHand s q n 0x31 c → (let st := strPut c.eng (bits (c.n4 0x10) 5 0)
       let mark := if c.stageNo = 0 then s.nextReq else tgetD c.aux 0 0
       (∀ x ∈ s.reqs, x.k.stream = st → pktStreamed x.k = true → x.id < mark → x.res ≠ none) →
       Decides s (.rfence q n) q n (if (tgetD s.strErr st 0).testBit 1 then csLost else if (tgetD s.strErr st 0).testBit 0 then csRemErr else csComplete) 0
         (fun t => tgetD t.strErr st 0 = 0 ∧ t.ram = s.ram))))

/-- For a fabric engine command in execution: ALLREDUCE without its references ends with QERR_FIELD; with a well-formed list, a
buffer on this device whose lines are read, and no root, it takes up its members, count and buffer, and for every line of
every other member's shard a REDUCE to that member carries the line's elements. ALLREDUCE_GATHER waits for every REDUCE line
of the own shard; then for every line of it a GATHER to every other member carries its bytes. A SCATTER of rows that are not
16 to 65,536 B ends with QERR_FIELD; with its list, its destinations and its rows read, it completes with the rows sent and
the rows skipped counted: of rows to other devices every line goes as a WRITE with the bytes of its row, and the one row of a
SCATTER to this device leaves its bytes at its lines and every other line as it was. -/
def Obligations.CollectivesAndScatterComplete : Prop :=
  ∀ (s s1 s2 : State) (q n : Nat) (c : Cmd),
    (InHand s q n 0x32 c → c.stageNo = 0 → (c.ref 0x10 = none ∨ c.ref 0x28 = none → Decides s (.allreduce q n) q n csField 0 (fun t => t.ram = s.ram)) ∧
      (∀ buf lst ll wo s3 ls, c.ref 0x10 = some buf → c.ref 0x28 = some lst → cmdLines s c .read [(lst, 48)] = .got ll s1 →
        (let bs := gotBytes ll lst 48
         bits (c.n4 0x20) 4 0 = 0 → c.n8 0x18 % 32 = 0 → listOk s1 bs (c.n8 0x18 / 32) = true →
         translateRuns s1 c.ag c.die c.space .rmw false [(buf, 4 * c.n8 0x18)] = (wo, s2) → Plain s2 wo →
         gotLines s2 c wo = .got ls s3 →
         ∃ t c', exec (.allreduce q n) s = .next t ∧ cmd? t q n = some c' ∧ c'.stageNo = 1 ∧ c'.ar 0 = leAt4 bs 0 ∧ c'.ar 1 = leAt4 bs 4 ∧
           c'.ar 3 = c.n8 0x18 ∧ c'.ar 4 = buf ∧ c'.res = none ∧ t.collGone.contains (leAt4 bs 0) = false ∧ SameBytes s t ∧
           ∀ j i, j < leAt4 bs 4 → j ≠ c'.ar 2 → c'.shard j ≤ i → i < c'.shard j + c'.shardLen j →
             Asked t q n (fun k => k.kind = pkReduce ∧ k.dst = leAt bs (0x10 + 2 * j) 2 ∧ k.stream = strAllreduce c.eng ∧ k.addr = i ∧
               k.txg = leAt4 bs 0 + 2 ^ 32 * c.n8 0x18 ∧ k.data = bufLine ls buf i)))) ∧
    (InHand s q n 0x32 c → c.stageNo = 1 → (let me := c.ar 2
      (c.ar 5 < (c.ar 1 - 1) * c.shardLen me → exec (.allreduceGather q n) s = .next s) ∧
      (∀ ls, (c.ar 1 - 1) * c.shardLen me ≤ c.ar 5 → cmdLines s c .read [(c.ar 4 + 128 * c.shard me, 128 * c.shardLen me)] = .got ls s1 →
        ∃ t c', exec (.allreduceGather q n) s = .next t ∧ cmd? t q n = some c' ∧ c'.stageNo = 2 ∧ c'.res = none ∧ SameBytes s t ∧
          ∀ j i, j < c.ar 1 → j ≠ me → c.shard me ≤ i → i < c.shard me + c.shardLen me →
            Asked t q n (fun k => k.kind = pkGather ∧ k.dst = c.ar (16 + j) ∧ k.stream = strAllreduce c.eng ∧ k.addr = i ∧
              k.data = gotBytes ls (c.ar 4 + 128 * i) 128)))) ∧
    (InHand s q n 0x33 c → (let rows := c.n4 0x28
      let rb := c.n4 0x2C
      (rb % 16 ≠ 0 ∨ rb < 16 ∨ 65536 < rb → Decides s (.scatter q n) q n csField 0 (fun t => t.ram = s.ram)) ∧
      (∀ src lst tab il tls ls s3, rb % 16 = 0 → 16 ≤ rb → rb ≤ 65536 → c.ref 0x10 = some src → c.ref 0x18 = some lst → c.ref 0x20 = some tab →
        cmdLines s c .read [(lst, 4 * rows)] = .got il s1 →
        (let ixs := (List.range rows).map (fun r => leAt4 (gotBytes il (lst + 4 * r) 4) 0)
         let go := (ixs.mapIdx (fun r ix => (r, rowDest tls tab ix rb))).filterMap (fun d => d.2.map (fun g => (d.1, g)))
         cmdLines s1 c .read (((ixs.filter (· ≠ 0xFFFF_FFFF)).map (fun ix => (tab + 16 * bits ix 11 0, 16))).eraseDups) = .got tls s2 →
         (∀ d ∈ go, gForm d.2 = true) → cmdLines s2 c .read (go.map (fun d => (src + d.1 * rb, rb))) = .got ls s3 →
         ((∀ d ∈ go, gHere s d.2 = false) → Decides s (.scatter q n) q n csComplete (go.length + 2 ^ 32 * (rows - go.length)) (fun t => SameBytes s t ∧
           ∀ d ∈ go, ∀ l ∈ linesOf (gAddr d.2) rb, Asked t q n (fun k => k.dst = gDev d.2 ∧ k.stream = strScatter c.eng ∧ k.space = c.space ∧
             WritesRun k l (gAddr d.2) rb (fun i => (gotBytes ls (src + d.1 * rb + i) 1).getD 0 0)))) ∧
         (∀ r g wo s4, go = [(r, g)] → gHere s g = true → Sound s → Plain s wo → Apart s c.die c.space wo →
           translateRuns s3 c.ag c.die c.space .write false [(gAddr g, rb)] = (wo, s4) →
           Decides s (.scatter q n) q n csComplete (1 + 2 ^ 32 * (rows - 1)) (fun t => OutsideSame s t wo ∧ ∀ i, i < rb →
             byteUnder t.ram (keyId s (spaceSlot s c.die c.space)) (physAt wo (gAddr g + i)) = (gotBytes ls (src + r * rb + i) 1).getD 0 0 % 256))))))

/-- For a management command in execution with no PROG, and descriptors that lie in lines that are not fenced: QUEUE_CREATE of a
free queue with an image and an engine in range makes it ACTIVE on that engine and completes with its number, of one that is
not free ends with QERR_FIELD. QUEUE_SET of the word that holds TIMEOUT changes it and no state. QUEUE_STOP of an ACTIVE
queue makes it STOPPING, or STOPPED with no command in execution, and completes once it is STOPPED. QUEUE_START of a STOPPED
or ERROR queue makes it ACTIVE. QUEUE_DESTROY makes the queue DESTROYING, leaves no command of it that was not in execution
and asks the others to be killed; each DESTROY_DIE_ACK counts once, and with the last the queue is FREE. OP_ABORT of a
command in execution asks it to be killed and waits, of one that has not started completes, of one that is gone ends ALREADY. -/
def Obligations.ManagementOfQueues : Prop :=
  ∀ (s : State) (q n k : Nat) (c : Cmd), k < 16384 → InLine s (qdAddr s k) 128 → (∀ b ∈ c.body, b < 256) →
    (MeHand s q n 0x80 c → c.n4 0x18 = k → (let img := c.body.drop 0x40
      let code := bits (c.n4 0x1C) 7 0
      (qState s k ≠ 0 → Decides s (.queueCreate q n) q n csField 0 (fun t => t.ram = s.ram)) ∧
      (qState s k = 0 → code ≠ 0xFF → qimgOk img = true → engAllowed code (bits (leAt4 img 4) 11 0) = true →
        Decides s (.queueCreate q n) q n csComplete k (fun t => qState t k = 1 ∧ qEng t k = engOfCode code ∧ qlive t k = {})))) ∧
    (MeHand s q n 0x81 c → c.n4 0x18 = k → bits (c.n4 0x1C) 7 0 = 4 → qState s k ≠ 0 → qState s k ≠ 5 → (let img := c.body.drop 0x40
      let cur := readPhys s 255 (qdAddr s k) 64
      let n0 := leAt4 cur 0
      let chk := toBytes 4 (setBits (setBits n0 3 0 0) 31 16 (bits n0 31 16)) ++ ((cur.take 16).drop 4 ++ (img.drop 16).take 8 ++ cur.drop 24)
      img.length = 64 → leAt4 img 0x10 = leAt4 cur 0x10 → qimgOk chk = true → engAllowed (bits n0 15 8) (bits (leAt4 cur 4) 11 0) = true →
      Decides s (.queueSet q n) q n csComplete 0 (fun t => qdN t k 0x14 4 = leAt4 img 0x14 ∧ qState t k = qState s k))) ∧
    (MeHand s q n 0x82 c → c.n4 0x18 = k →
      (c.op = none → qState s k = 1 → ∃ t c', exec (.queueStop q n) s = .next t ∧ cmd? t q n = some c' ∧ c'.op ≠ none ∧ c'.res = none ∧
        qState t k = (if (queueCmds s k).all (fun x => !inExec x) then 3 else 2)) ∧
      (c.op ≠ none → qState s k = 3 ∨ qState s k = 4 → ∃ info, Decides s (.queueStop q n) q n csComplete info (fun t => t.ram = s.ram))) ∧
    (MeHand s q n 0x83 c → c.n4 0x18 = k → (c.n4 0x1C).testBit 0 = false → (qState s k = 3 ∨ qState s k = 4 →
        Decides s (.queueStart q n) q n csComplete 0 (fun t => qState t k = 1)) ∧
      (qState s k ≠ 3 → qState s k ≠ 4 → Decides s (.queueStart q n) q n csField 0 (fun t => t.ram = s.ram))) ∧
    (MeHand s q n 0x84 c → c.n4 0x18 = k → c.op = none → 4 ≤ k → qState s k ≠ 0 → qState s k ≠ 5 → q ≠ k →
      ∃ t c', exec (.queueDestroy q n) s = .next t ∧ cmd? t q n = some c' ∧ c'.op ≠ none ∧ qState t k = 5 ∧
        ∀ x ∈ t.cmds, x.q = k → inExec x = true ∧ x.asked ≠ none) ∧
    (∀ d, MeHand s q n 0x84 c → d < 4 → d ∉ c.acks → (∀ i, (txgAt s i).by_ ≠ some (q, n)) → c.op ≠ none →
      s.cmds.find? (fun c => c.opc == 0x84 && c.op.isSome && c.res.isNone && c.n4 0x18 == k) = some c →
      dieQuiet s d (fun w => w.launch.queue == k) (fun x => x.q == k) = true → committing s d (fun t => t.queue == k) = false →
      (c.acks.length < 3 → ∃ t c', exec (.destroyDieAck k d) s = .next t ∧ cmd? t q n = some c' ∧ c'.acks = c.acks ++ [d] ∧ c'.res = none) ∧
      (c.acks.length = 3 → ∃ info, Decides s (.destroyDieAck k d) q n csComplete info (fun t => qState t k = 0))) ∧
    (∀ x, MeHand s q n 0x85 c → c.ran = false → c.n4 0x18 = k → qState s k ≠ 0 → (qdN s k 0x18 4 + 2 ^ 32 - c.n4 0x1C) % 2 ^ 32 < 2 ^ 31 →
      (k, c.n4 0x1C) ≠ (q, n) →
      (cmd? s k (c.n4 0x1C) = none → bits (qdN s k 0 4) 15 14 ≠ 3 → Decides s (.opAbort q n) q n csAlready 0 (fun t => t.ram = s.ram)) ∧
      (cmd? s k (c.n4 0x1C) = some x → x.eng < 40 → x.asked = none → x.killed = none → x.ending = none →
        (inExec x = false → Decides s (.opAbort q n) q n csComplete 0 (fun t => (cmd? t k (c.n4 0x1C)).map (·.asked) = some (some 0x40))) ∧
        (inExec x = true → ∃ t c', exec (.opAbort q n) s = .next t ∧ cmd? t q n = some c' ∧ c'.ran = true ∧ c'.res = none ∧
          (cmd? t k (c.n4 0x1C)).map (·.asked) = some (some 0x40))))

/-- For a management command in execution with no PROG, and descriptors and entries that lie in lines that are not fenced:
CTX_BIND of a tag other than 0 sets its entry to the space with VALID, CTX_UNBIND of that entry clears it, tag 0 ends with
QERR_FIELD. SPACE_CREATE of an INVALID space with an image in range makes it ACTIVE with the image's key slot; SPACE_SET
keeps the state; SPACE_RESTART makes a STOPPED space ACTIVE; SPACE_STOP parks every resident workgroup of the space that is
not parking, has work left and is not bound, and completes with the space STOPPED once no engine has a command of it in
execution. SHOOTDOWN and SPACE_TABLE drop every entry of the range from the range caches of tiles and dies; once nothing on
any die uses the range they complete. -/
def Obligations.ManagementOfSpaces : Prop :=
  ∀ (s : State) (q n sp : Nat) (c : Cmd), sp < 4096 → InLine s (sdAddr s c.die sp) 64 → (∀ b ∈ c.body, b < 256) →
    (let ent := regPair s (pgEng 40) 0x0A8 + 4 * (c.n4 0x18 % 2 ^ 16)
     let img := (c.body.drop 0x20).take 64
     let gone (t : State) (va len : Nat) : Prop := ∀ ag, ag < 176 ∨ (2000 ≤ ag ∧ ag < 2004) → ∀ e ∈ tgetD t.xcache ag [],
       ¬(e.space = sp ∧ e.vbase < va + len ∧ va < e.stop)
     (MeHand s q n 0x86 c → (c.n4 0x18 % 2 ^ 16 = 0 → Decides s (.ctxBind q n) q n csField 0 (fun t => t.ram = s.ram)) ∧
       (c.n4 0x18 % 2 ^ 16 ≠ 0 → InLine s ent 4 → Decides s (.ctxBind q n) q n csComplete 0
         (fun t => ctxEntry t (c.n4 0x18 % 2 ^ 16) = c.n4 0x1C % 2 ^ 12 + 2 ^ 31))) ∧
     (MeHand s q n 0x87 c → c.n4 0x18 % 2 ^ 16 ≠ 0 → InLine s ent 4 → (ctxEntry s (c.n4 0x18 % 2 ^ 16)).testBit 31 = true →
       ctxEntry s (c.n4 0x18 % 2 ^ 16) % 2 ^ 12 = c.n4 0x1C % 2 ^ 12 → Decides s (.ctxUnbind q n) q n csComplete 0 (fun t => ctxEntry t (c.n4 0x18 % 2 ^ 16) = 0)) ∧
     (MeHand s q n 0x88 c → c.n4 0x18 = sp → img.length = 64 → (spaceState s c.die sp ≠ 0 → Decides s (.spaceCreate q n) q n csField 0 (fun t => t.ram = s.ram)) ∧
       (spaceState s c.die sp = 0 → simgCheck s img = none → Decides s (.spaceCreate q n) q n csComplete 0
         (fun t => spaceState t c.die sp = 1 ∧ spaceSlot t c.die sp = bits (leAt4 img 0) 15 8 ∧ sdWord t c.die sp 8 8 = leAt8 img 8))) ∧
     (MeHand s q n 0x8B c → c.n4 0x18 = sp → img.length = 64 → spaceState s c.die sp = 1 ∨ spaceState s c.die sp = 2 → simgCheck s img = none →
       bits (leAt4 img 0) 15 8 = spaceSlot s c.die sp →
       Decides s (.spaceSet q n) q n csComplete 0 (fun t => spaceState t c.die sp = spaceState s c.die sp ∧ sdWord t c.die sp 8 8 = leAt8 img 8)) ∧
     (MeHand s q n 0x8C c → c.n4 0x18 = sp → (spaceState s c.die sp = 2 → Decides s (.spaceRestart q n) q n csComplete 0 (fun t => spaceState t c.die sp = 1)) ∧
       (spaceState s c.die sp ≠ 2 → Decides s (.spaceRestart q n) q n csField 0 (fun t => t.ram = s.ram))) ∧
     (MeHand s q n 0x8A c → c.n4 0x18 = sp →
       (c.op = none → c.aux = [] → spaceState s c.die sp = 1 → ∃ t c', exec (.spaceStop q n) s = .next t ∧ cmd? t q n = some c' ∧ c'.op ≠ none ∧ c'.res = none ∧
         ∀ m k w, wg? s m k = some w → w.space = sp → w.park = .none → (∃ p ∈ (tile s m).groupsOf k, p.2.stat ≠ .finished) →
           (∀ p ∈ (tile s m).groupsOf k, p.2.txg = none) → (wg? t m k).map (fun x => (x.park, x.parkReason)) = some (.draining, rPreempt)) ∧
       (c.op ≠ none → s.cmds.any (fun x => x.space == sp && inExec x && !(x.q == q && x.serial == n)) = false →
         ∃ info, Decides s (.spaceStop q n) q n csComplete info (fun t => spaceState t c.die sp = 2))) ∧
     (MeHand s q n 0x8D c → c.n4 0x18 = sp → (let va := c.n8 0x20 * 2 ^ 21
       let len := c.n8 0x28 * 2 ^ 21
       c.op = none → (c.n4 0x1C).testBit 0 = false → va + len ≤ 2 ^ 48 → ∃ t c', exec (.shootdown q n) s = .next t ∧ cmd? t q n = some c' ∧ c'.op ≠ none ∧
         c'.res = none ∧ gone t va len ∧ t.ram = s.ram)) ∧
     (MeHand s q n 0x89 c → c.n4 0x18 = sp → c.op = none → spaceState s c.die sp = 1 ∨ spaceState s c.die sp = 2 →
       ∃ t c', exec (.spaceTable q n) s = .next t ∧ cmd? t q n = some c' ∧ c'.op ≠ none ∧ c'.res = none ∧ gone t 0 (2 ^ 48) ∧
         bits (sdWord t c.die sp 0 4) 16 16 = c.n4 0x1C % 2 ∧ spaceState t c.die sp = spaceState s c.die sp) ∧
     (c.n4 0x18 = sp → c.op ≠ none → c.acks = [] → (∀ d, d < 4 → shootDone s d sp c.aux = true) →
       (MeHand s q n 0x8D c → ∃ info, Decides s (.shootdown q n) q n csComplete info (fun t => (∀ x ∈ s.tiles, x.2.prefs = []) → t.ram = s.ram)) ∧
       (MeHand s q n 0x89 c → ∃ info, Decides s (.spaceTable q n) q n csComplete info (fun t => (∀ x ∈ s.tiles, x.2.prefs = []) → t.ram = s.ram))))

/-- For a management command in execution with no PROG: SPACE_RETIRE of a space that runs or is stopped, with a list that is read
and in range, makes it RETIRING in stage 1; each RETIRE_STAGE of a die of stage 1 counts once, and the last die's opens stage
2. HANDLE_FREE of a handle with nothing in flight clears VALID and completes, with something in flight it sets DYING.
ABANDON_CLEAR leaves none of its frames abandoned. PREEMPT with no workgroup of its engine and class completes with 0, and
parks those that it names. SELFTEST of a placed tile in service that no exchange holds stops it for the test, of an unplaced
one ends with QERR_FIELD, of one held with QERR_BUSY; SELFTEST_DEADLINE while the tile stops ends it. RECONFIG of a page in
service that nobody has stopped stops it; in STOPPED, its writes consistent, it restarts the page and completes. -/
def Obligations.ManagementRetiresFreesAndTests : Prop :=
  ∀ (s s1 : State) (q n : Nat) (c : Cmd),
    (∀ ls, MeHand s q n 0x8E c → c.op = none → (let sp := c.n4 0x18
      let m := c.n4 0x28
      0 < sp → sp < 4096 → spaceState s c.die sp = 1 ∨ spaceState s c.die sp = 2 → m ≤ 16384 → InLine s (sdAddr s c.die sp) 64 → (∀ k ∈ s.queues.map (·.1), ∀ i, i < 4 → (qdAddr s k + i) / 128 ≠ sdAddr s c.die sp / 128) →
      cmdLines s c .read [(c.n8 0x20, 16 * m)] = .got ls s1 → rangesOk ((List.range m).map (fun i => gotBytes ls (c.n8 0x20 + 16 * i) 16)) = true →
      ∃ t c', exec (.spaceRetire q n) s = .next t ∧ cmd? t q n = some c' ∧ c'.op ≠ none ∧ c'.stageNo = 1 ∧ spaceState t c.die sp = 3)) ∧
    (∀ d, MeHand s q n 0x8E c → c.op ≠ none → c.stageNo = 1 → d < 4 → d ∉ c.acks →
      s.cmds.find? (fun x => x.opc == 0x8E && x.op.isSome && x.res.isNone && x.n4 0x18 == c.n4 0x18) = some c →
      ∃ t c', exec (.retireStage (c.n4 0x18) d) s = .next t ∧ cmd? t q n = some c' ∧
        (c.acks.length < 3 → c'.acks = c.acks ++ [d] ∧ c'.stageNo = 1) ∧ (3 ≤ c.acks.length → c'.acks = [] ∧ c'.stageNo = 2)) ∧
    (MeHand s q n 0x8F c → c.op = none → (let sp := c.n4 0x18
      let idx := bits (c.n4 0x1C) 19 0
      let a := htAddr s c.die sp idx
      let obj := htN s c.die sp idx 0 8
      let use := htN s c.die sp idx 12 4
      sp < 4096 → idx < htCount s c.die sp → obj.testBit 63 = true → use.testBit 24 = false → bits obj 59 48 = bits (c.n4 0x1C) 31 20 → InLine s a 16 →
      (bits use 23 0 = 0 → ∃ info, Decides s (.handleFree q n) q n csComplete info (fun t => (rdN t tableSlot a 8).testBit 63 = false)) ∧
      (bits use 23 0 ≠ 0 → ∃ t c', exec (.handleFree q n) s = .next t ∧ cmd? t q n = some c' ∧ c'.op ≠ none ∧ c'.res = none ∧
        rdN t tableSlot (a + 12) 4 = (use + 2 ^ 24) % 2 ^ 32))) ∧
    (MeHand s q n 0x90 c → (let d := c.n4 0x18 % 4
      let f0 := d * 2 ^ 17 + c.n4 0x1C
      c.n4 0x1C + c.n4 0x20 ≤ 2 ^ 17 → (rangeCut f0 (c.n4 0x20) (bel s d).aband).length ≤ 16384 →
      Decides s (.abandonClear q n) q n csComplete 0 (fun t => t.ram = s.ram ∧
        ∀ f, f0 ≤ f → f < f0 + c.n4 0x20 → ∀ r ∈ (bel t d).aband, ¬(r.1 ≤ f ∧ f < r.1 + r.2)))) ∧
    (MeHand s q n 0x91 c → c.ran = false → (let code := c.n4 0x18 % 2 ^ 8
      let cls := c.n4 0x1C % 8
      code < 16 → ((∀ x ∈ s.tiles, ∀ w ∈ x.2.wgs, ¬(w.2.eng = code ∧ w.2.cls ≤ cls)) → Decides s (.preempt q n) q n csComplete 0 (fun t => t.tiles = s.tiles)) ∧
        (∀ m k w, k < 32 → wg? s m k = some w → w.eng = code → w.cls ≤ cls → w.park = .none → (∃ p ∈ (tile s m).groupsOf k, p.2.stat ≠ .finished) →
          (∀ p ∈ (tile s m).groupsOf k, p.2.txg = none) → ∃ t, exec (.preempt q n) s = .next t ∧ (wg? t m k).map (·.park) = some .draining))) ∧
    (∀ t0, MeHand s q n 0x92 c → testOf s q n = none → c.op = none → (let l := c.n4 0x18 % 2 ^ 8
      l < 160 → bits (c.n4 0x1C) 17 16 ≠ 3 → (physOf s l = none → Decides s (.selftest q n) q n csField 0 (fun t => t.guide = s.guide)) ∧
        (physOf s l = some t0 → tgRepl s t0 ≠ none → Decides s (.selftest q n) q n csBusy 0 (fun t => t.guide = s.guide)) ∧
        (physOf s l = some t0 → tgRepl s t0 = none → t0 < 176 → inService s (pgTile t0) = true → (blk s (pgTile t0)).owner = none → spareFor s t0 = none →
          ∃ t r, exec (.selftest q n) s = .next t ∧ (blk t (pgTile t0)).st = .stopping ∧ tgRepl t t0 = some r ∧ r.test = true ∧ r.by_ = some (q, n)))) ∧
    (∀ t0 r, MeHand s q n 0x92 c → c.op ≠ none → tgRepl s t0 = some r → r.test = true → r.st = .stopping → r.by_ = some (q, n) → r.spare = none →
      bits (c.n4 0x1C) 15 0 ≠ 0 → Decides s (.selftestDeadline t0) q n csComplete 0 (fun t => tgRepl t t0 = none)) ∧
    (∀ i ls, MeHand s q n 0x93 c → (let pg := c.n4 0x18 / 4096
      let m := c.n4 0x28
      let p := reconfigPath s i
      (pageAt pg = none → c.ran = false → Decides s (.reconfig q n) q n csField 0 (fun t => t.blks = s.blks)) ∧
      (pageAt pg = some i → c.ran = false → c.n4 0x18 % 4096 = 0 → c.n4 0x18 < 2 ^ 28 → 1 ≤ m → m ≤ 256 → (blk s pg).owner = none → (blk s pg).st.inService = true →
        cmdLines s c .read [(c.n8 0x20, 8 * m)] = .got ls s1 → (∀ k, k < m → let o := leAt4 (gotBytes ls (c.n8 0x20 + 8 * k) 8) 0
          0x080 ≤ o ∧ o ≤ 0xFFC ∧ o % 4 = 0) →
        ∃ t c', exec (.reconfig q n) s = .next t ∧ cmd? t q n = some c' ∧ c'.ran = true ∧ c'.res = none ∧ (blk t pg).st = .stopping ∧ (blk t pg).owner = some p) ∧
      (pageAt pg = some i → c.ran = true → (blk s pg).st = .stopped → (let s2 := c.aux.foldl (fun s x => blockWrite s p pg i x.1 x.2) s
        (blk s2 pg).st = .stopped → (blk s2 pg).owner = some p → stagedBad s2 pg = none → cmd? s2 q n = some c →
        Decides s (.reconfig q n) q n csComplete (2 ^ 32) (fun t => (blk t pg).st = .idle ∧ (blk t pg).owner = none)))))

/-- A path whose accesses work, at a page that a block has: STOP of a block in service with no owner makes it STOPPING and the
path its owner, else it is rejected. RESTART and DISCARD outside STOPPED, or by a path that is not the owner, are rejected;
by the owner in STOPPED they make the block IDLE with no owner and nothing staged, and RESTART of a consistent set gives
every register its staged value, DISCARD none (port pages, whose link starts over, have no clause on their registers). TAKE
by a cluster of an open stop moves its ownership, by the host it is rejected. WITHDRAW by the owner in STOPPING ends the
stop, IDLE or BUSY by the work in hand. CANCEL_OP with no operation running is rejected, by a cluster or the path that
started it it ends the operation with RESULT CANCELLED (on the pages whose operations only end). A block in STOPPING without
work and operation becomes STOPPED. A fault makes a block that is on FAILED, ends its stop and sets BLK_FAILED. A long
operation ends with its RESULT, and OP_FAILED tells results 2 and 4. -/
def Obligations.StopChangeRestart : Prop :=
  ∀ (s : State) (p : Path) (tag pg : Nat) (i : PageId), PageIs pg i → (Access s p tag →
    (let b := blk s pg
    (b.owner = none → b.st.inService = true → ∃ t, exec (.stop p tag pg) s = .next t ∧ Accepts s t p pg .stopping (some p) ∧ t.ram = s.ram) ∧
    (∀ o, b.owner = some o → ∃ t, exec (.stop p tag pg) s = .next t ∧ Rejects s t p pg (if o = p then 2 else 1) ∧ OnlyPage s t pg) ∧
    (b.st ≠ .stopped → ∃ t, exec (.restart p tag pg) s = .next t ∧ Rejects s t p pg 2 ∧ OnlyPage s t pg) ∧
    (b.st ≠ .stopped → ∃ t, exec (.discard p tag pg) s = .next t ∧ Rejects s t p pg 2 ∧ OnlyPage s t pg) ∧
    (b.st = .stopped → b.owner ≠ some p → ∃ t, exec (.restart p tag pg) s = .next t ∧ Rejects s t p pg 1 ∧ OnlyPage s t pg) ∧
    (b.st = .stopped → b.owner ≠ some p → ∃ t, exec (.discard p tag pg) s = .next t ∧ Rejects s t p pg 1 ∧ OnlyPage s t pg) ∧
    (∀ o, b.st = .stopped → b.owner = some p → stagedBad s pg = some o →
      ∃ t, exec (.restart p tag pg) s = .next t ∧ Rejects s t p pg 3 ∧ OnlyPage s t pg) ∧
    (b.st = .stopped → b.owner = some p → stagedBad s pg = none → tabOk b.staged = true →
      ∃ t, exec (.restart p tag pg) s = .next t ∧ Accepts s t p pg .idle none ∧ (blk t pg).staged = [] ∧ OnlyPage s t pg ∧
        (i.ty ≠ .fport → i.ty ≠ .nhl → ∀ o, regW t pg o = (tget? b.staged o).getD (regW s pg o))) ∧
    (b.st = .stopped → b.owner = some p → ∃ t, exec (.discard p tag pg) s = .next t ∧ Accepts s t p pg .idle none ∧ (blk t pg).staged = [] ∧ OnlyPage s t pg ∧
        (i.ty ≠ .fport → i.ty ≠ .nhl → (blk t pg).regs = b.regs)) ∧
    (isGc p = true → b.owner ≠ none → ∃ t, exec (.take p tag pg) s = .next t ∧ (blk t pg).owner = some p ∧ (blk t pg).st = b.st ∧
      (blk t pg).staged = b.staged ∧ tget? (blk t pg).resp (pathIx p) = some 0 ∧ OnlyPage s t pg) ∧
    (isGc p = false → ∃ t, exec (.take p tag pg) s = .next t ∧ Rejects s t p pg 4 ∧ OnlyPage s t pg) ∧
    (b.st = .stopping → b.owner = some p → ∃ t, exec (.withdraw p tag pg) s = .next t ∧
      Accepts s t p pg (if busyWork s pg then .busy else .idle) none ∧ (blk t pg).staged = [] ∧ OnlyPage s t pg) ∧
    (b.st ≠ .stopping → ∃ t, exec (.withdraw p tag pg) s = .next t ∧ Rejects s t p pg 2 ∧ OnlyPage s t pg) ∧
    (b.opRun = false → ∃ t, exec (.cancelOp p tag pg) s = .next t ∧ Rejects s t p pg 2 ∧ OnlyPage s t pg) ∧
    (b.opRun = true → isGc p = true ∨ b.opBy = some p → plainOp i.ty →
      ∃ t, exec (.cancelOp p tag pg) s = .next t ∧ (blk t pg).opRun = false ∧ (blk t pg).progRes = 3 ∧ tget? (blk t pg).resp (pathIx p) = some 0 ∧ OnlyPage s t pg))) ∧
    (i.ty ≠ .tile → (blk s pg).st = .stopping → (blk s pg).opRun = false → stopWork s pg = false →
      ∃ t, exec (.blockStopped pg) s = .next t ∧ (blk t pg).st = .stopped ∧ (blk t pg).owner = (blk s pg).owner ∧ (blk t pg).staged = (blk s pg).staged) ∧
    (i.ty = .tile → tgRepl s (44 * i.die + i.inst) = none → (blk s pg).st = .stopping → (blk s pg).opRun = false → stopWork s pg = false →
      ∃ t, exec (.blockStopped pg) s = .next t ∧ (blk t pg).st = .stopped ∧ OnlyPage s t pg) ∧
    (i.ty ≠ .gde → (blk s pg).st.silent = false → ∃ t, exec (.blockFault pg) s = .next t ∧ (blk t pg).st = .failed ∧ (blk t pg).owner = none ∧
      (blk t pg).staged = [] ∧ (blk t pg).errStat.getLsbD 5 = true) ∧
    (∀ r, 1 ≤ r → r ≤ 4 → (blk s pg).opRun = true → plainOp i.ty → ∃ t, exec (.longOpEnd pg r) s = .next t ∧ (blk t pg).opRun = false ∧
      (blk t pg).progRes = r ∧ (r = 2 ∨ r = 4 → (blk t pg).errStat.getLsbD 4 = true) ∧ OnlyPage s t pg)

/-- A path whose accesses work, at a page that a block has: an access that is not 4 bytes at a multiple of 4 sets REG_ACCESS, and
a read of it gives all ones, as a read of a page that no block has. A write of a block-specific register of a block that is
OFF, FAILED, SPARE or RETIRED (array pages apart) sets REG_STATE and changes no register. A write of BLK_ERR_STAT clears the
bits it names. The STARVE field of a tile takes a value from 16, a smaller one sets REG_RSVD and leaves it. TST_SPLIT, a
stopped-only field, is staged in STOPPED and takes effect outside it never: REG_STATE. A read of BLK_STATE gives STATE, PREV
and SEQ; a read of BLK_ERR_CNT gives the count and clears it; a read of BLK_PROG gives the progress and latches BLK_PROG_ID
for the path. The low half of XLT_SDT is staged, the high half commits both; the low half of BLK_STEP latches the high. ARM
is taken with PERMIT, else it sets REG_STATE. RELEASE lets a held snapshot go. A host access with a tag other than 0 sets bit
8 of the host link's page and changes no register of the block. -/
def Obligations.RegistersAreReadAndWritten : Prop :=
  ∀ (s : State) (p : Path) (tag pg : Nat) (i : PageId), PageIs pg i → Access s p tag →
    (let b := blk s pg
    let err (t : State) (k : Nat) : Prop := (blk t pg).errStat.getLsbD k = true ∧ SameRegs s t pg ∧ (blk t pg).staged = b.staged ∧ (blk t pg).st = b.st ∧ OnlyPage s t pg
    let bus (t : State) : Option Nat := tget? t.bus (pathIx p)
    (∀ o n v, o < 4096 → n ≠ 4 ∨ o % 4 ≠ 0 → (∃ t, exec (.regWrite p tag (4096 * pg + o) n v) s = .next t ∧ err t 1) ∧
      ∃ t, exec (.rcRead p tag (4096 * pg + o) n) s = .next t ∧ err t 1 ∧ bus t = some 0xFFFF_FFFF) ∧
    (∀ o v, 0x080 ≤ o → o < 4096 → o % 4 = 0 → fieldsAt i.ty o ≠ [] → b.st.silent = true → i.ty ≠ .arr →
      ∃ t, exec (.regWrite p tag (4096 * pg + o) 4 v) s = .next t ∧ err t 3) ∧
    (∀ v, ∃ t, exec (.regWrite p tag (4096 * pg + 0x018) 4 v) s = .next t ∧ (blk t pg).errStat = b.errStat &&& ~~~(BitVec.ofNat 32 v) ∧
      (blk t pg).errCnt = b.errCnt ∧ (blk t pg).regs = b.regs ∧ (blk t pg).st = b.st ∧ OnlyPage s t pg) ∧
    (∀ v, i.ty = .tile → b.st.silent = false → (16 ≤ v % 2 ^ 10 → ∃ t, exec (.regWrite p tag (4096 * pg + 0x088) 4 v) s = .next t ∧ regF t pg 0x088 9 0 = v % 2 ^ 10 ∧
        (∀ o, o ≠ 0x088 → regW t pg o = regW s pg o) ∧ (blk t pg).errStat = b.errStat ∧ OnlyPage s t pg) ∧
      (v % 2 ^ 10 < 16 → ∃ t, exec (.regWrite p tag (4096 * pg + 0x088) 4 v) s = .next t ∧ err t 0)) ∧
    (∀ v, i.ty = .tst → v % 2 ^ 8 ≤ 128 → (b.st = .stopped → ∃ t, exec (.regWrite p tag (4096 * pg + 0x080) 4 v) s = .next t ∧
        (tget? (blk t pg).staged 0x080).map (fun w => fld w 7 0) = some (v % 2 ^ 8) ∧ (blk t pg).regs = b.regs ∧ (blk t pg).errStat = b.errStat ∧ OnlyPage s t pg) ∧
      (b.st.inService = true ∨ b.st = .stopping → ∃ t, exec (.regWrite p tag (4096 * pg + 0x080) 4 v) s = .next t ∧ err t 3)) ∧
    (∃ t, exec (.rcRead p tag (4096 * pg + 0x008) 4) s = .next t ∧ bus t = some (b.st.code + 16 * b.prev.code + 65536 * b.seq) ∧ blk t pg = b ∧ OnlyPage s t pg) ∧
    (∃ t, exec (.rcRead p tag (4096 * pg + 0x024) 4) s = .next t ∧ bus t = some b.errCnt ∧ (blk t pg).errCnt = 0 ∧ (blk t pg).errStat = b.errStat ∧ OnlyPage s t pg) ∧
    (∃ t, exec (.blkProgRead p tag pg) s = .next t ∧ bus t = some ((blk t pg).progVal % 2 ^ 24 + 2 ^ 24 * b.progKind + 2 ^ 28 * b.progRes) ∧
      tget? (blk t pg).progLatch (pathIx p) = some (b.progOpc + 65536 * b.progSer) ∧ (blk t pg).st = b.st ∧ (blk t pg).opRun = b.opRun ∧
      (b.opRun = false ∨ i.ty = .me → (blk t pg).progVal = b.progVal) ∧ (b.opRun = false ∨ i.ty ≠ .l2s → OnlyPage s t pg)) ∧
    (∀ v w, i.ty = .xlt → isGc p = true → b.st = .stopped → (∃ t, exec (.pairLowWrite p tag (4096 * pg + 0x080) v) s = .next t ∧
        tget? (blk t pg).pairStage 0x080 = some (BitVec.ofNat 32 v) ∧ (blk t pg).regs = b.regs ∧ (blk t pg).staged = b.staged ∧ OnlyPage s t pg) ∧
      (tget? b.pairStage 0x080 = some w → ∃ t, exec (.pairHighWrite p tag (4096 * pg + 0x084) v) s = .next t ∧ tget? (blk t pg).pairStage 0x080 = none ∧
        tget? (blk t pg).staged 0x080 = some w ∧ tget? (blk t pg).staged 0x084 = some (BitVec.ofNat 32 v) ∧ (blk t pg).regs = b.regs ∧ OnlyPage s t pg)) ∧
    (i.ty ≠ .gde → i.ty ≠ .fport → i.ty ≠ .nhl → ∃ t, exec (.pairLowRead p tag (4096 * pg + 0x070)) s = .next t ∧ bus t = some (b.steps % 2 ^ 32) ∧
      tget? (blk t pg).pairLatch (4096 * pathIx p + 0x074) = some (BitVec.ofNat 32 (b.steps / 2 ^ 32)) ∧ (blk t pg).steps = b.steps ∧ OnlyPage s t pg) ∧
    (∀ v, (permit s = true → ∃ t, exec (.injArm p tag pg v) s = .next t ∧ (blk t pg).injArm = true ∧ (blk t pg).errStat = b.errStat ∧ (blk t pg).regs = b.regs ∧ OnlyPage s t pg) ∧
      (permit s = false → ∃ t, exec (.injArm p tag pg v) s = .next t ∧ (blk t pg).injArm = false ∧ err t 3)) ∧
    (∀ v, ∃ t, exec (.snapRelease p tag pg v) s = .next t ∧ (blk t pg).snapHeld = false ∧ (blk t pg).snapWords = b.snapWords ∧ (blk t pg).regs = b.regs ∧ OnlyPage s t pg)) ∧
    (∀ off n v, off < 2 ^ 28 → pageAt (off / 4096) = none → ∃ t, exec (.rcRead p tag off n) s = .next t ∧ tget? t.bus (pathIx p) = some 0xFFFF_FFFF ∧ t.blks = s.blks ∧
      exec (.regWrite p tag off n v) s = .next s) ∧
    (∀ tg off n v, tg ≠ 0 → off < 2 ^ 28 → pathUp s .host = true → hostBusy s = false → ∃ t, exec (.regWrite .host tg off n v) s = .next t ∧ (blk t pgNhl).errStat.getLsbD 8 = true ∧ OnlyPage s t pgNhl)

/-- At a page with a local interval counter whose block has power: the end of an interval moves the counter to the next multiple
of 10^6 and takes the measured rate; a trim with an oscillator in service writes the correction, sets VALID and clears STALE;
a counter not trimmed for long sets STALE and reports it once. A health failure of the noise source of a page that is on sets
FALLBACK and counts; a retest that passes clears FALLBACK. The failure of an edge is kept, both its dies report it in bit 8,
event 0x08 is sent, and a die that has lost both its edges takes the device out of service. -/
def Obligations.TimeIsMeasuredAndEdgesFail : Prop :=
  ∀ (s : State) (pg : Nat), (counts s pg = true →
    (∀ m, ∃ t, exec (.rateInterval pg m) s = .next t ∧ (blk t pg).lic = ((blk s pg).lic / 10 ^ 6 + 1) * 10 ^ 6 % 2 ^ 64 ∧ (blk t pg).meas = m % 2 ^ 16 ∧ (blk t pg).regs = (blk s pg).regs ∧ OnlyPage s t pg) ∧
    (∀ c d, s.guide.oscBad ≠ 3 → ∃ t, exec (.counterTrim pg c d) s = .next t ∧ (blk t pg).corr = c % 2 ^ 16 ∧ (blk t pg).stale = false ∧ (blk t pg).valid = true ∧
      (blk t pg).lic = (blk s pg).lic ∧ OnlyPage s t pg) ∧
    ((blk s pg).stale = false → ∃ t, exec (.trimStale pg) s = .next t ∧ (blk t pg).stale = true ∧ t.evq = s.evq ++ [{ ring := 0, kind := 0x68, info := blkId pg }] ∧ OnlyPage s t pg)) ∧
    (hasNoise pg = true → (blk s pg).st ≠ .off → (∃ t, exec (.noiseHealthFail pg) s = .next t ∧ regF t pg 0x0F0 17 17 = 1 ∧
        regF t pg 0x0F0 31 24 = min 255 (regF s pg 0x0F0 31 24 + 1) ∧ OnlyPage s t pg) ∧
      (regF s pg 0x0F0 17 17 = 1 → (∃ t, exec (.noiseRetest pg true) s = .next t ∧ regF t pg 0x0F0 17 17 = 0 ∧ (∀ o, o ≠ 0x0F0 → regW t pg o = regW s pg o) ∧ OnlyPage s t pg) ∧
        ∃ t, exec (.noiseRetest pg false) s = .next t ∧ regF t pg 0x0F0 17 17 = 1 ∧ regF t pg 0x0F0 31 24 = min 255 (regF s pg 0x0F0 31 24 + 1) ∧ OnlyPage s t pg)) ∧
    (∀ e, e < 4 → e ∉ s.guide.edges → s.booted = true → (let (a, b) := edgeDies e
      ∃ t, exec (.dieEdgeFail e) s = .next t ∧ t.guide.edges = e :: s.guide.edges ∧ (blk t (pgDie a)).errStat.getLsbD 8 = true ∧
        (blk t (pgDie b)).errStat.getLsbD 8 = true ∧ { ring := 0, kind := 0x08, info := a + 16 * b } ∈ t.evq ∧ t.ram = s.ram ∧
        ((∃ d, d < 4 ∧ ∀ x, x < 4 → (edgeDies x).1 = d ∨ (edgeDies x).2 = d → x ∈ e :: s.guide.edges) → t.leftService = true)))

/-- For an offered command, its serial its own, with its group and workgroup, on an ARR page in service: one whose words break a
rule is refused (CMD_REFUSED, the code in ARR_REFUSE, the command gone, the group faulted with ARRAY_CMD); one alone in its
bundle, not fused, with its operands in workgroup memory and inside it, is accepted; whatever happens, a command is still
offered, accepted or gone, its words as they were. The oldest accepted command whose lines can be read begins, and its
accumulators are those of the cells. A drained command without a failed check is converted and waits for delivery; under
CHECK a first failure sends it back (HEM_MISMATCH), a failure of a recompute holds it (HEM_FAIL). A result for C is written
and the command completes, or waits for its lines. RETRY of a held command sends it back, POISON converts it marked, from a
cluster; with none held both set REG_STATE. Firmware ends a hold: one that only an injection made by RETRY, one with a free
field by retiring the position and RETRY, else by POISON; after 500 us the next cluster does the same. -/
def Obligations.ArrayCommandsAreTakenComputedAndDelivered : Prop :=
  ∀ (s : State) (t : Nat) (c : ArrCmd), t < 176 → (∀ y ∈ (tile s t).arr.cmds, y.serial = c.serial → y = c) → c ∈ (tile s t).arr.cmds →
    (let now (u : State) (P : ArrCmd → Prop) : Prop := (∃ y ∈ (tile u t).arr.cmds, y.serial = c.serial) ∧ ∀ y ∈ (tile u t).arr.cmds, y.serial = c.serial → y.words = c.words ∧ P y
    let gone (u : State) : Prop := ∀ y ∈ (tile u t).arr.cmds, y.serial ≠ c.serial
    let again (u : State) : Prop := now u (fun y => y.stage = .accepted ∧ y.recomp = c.recomp + 1)
    ((tile s t).arr.cmds.find? (fun y => y.stage == .offered) = some c → ∀ g w, group? s t c.slot = some g → wg? s t c.wg = some w → inService s (pgArr t) = true →
      (c.fused = true → inService s (pgRow t) = true) →
      (∀ code, arrWords c = some code → g.fault = none → ∃ u, exec (.arrAccept t) s = .next u ∧ gone u ∧ (blk u (pgArr t)).errStat.getLsbD 12 = true ∧ regF u (pgArr t) 0x094 7 0 = code ∧
        ∃ g' f, group? u t c.slot = some g' ∧ g'.fault = some f ∧ f.code = fArray) ∧
      (∀ b d, arrWords c = none → c.fused = false → c.descOps = [] → offerBundle g = some b → b.c = none → b.v = none → b.m = none → g.fault = none → g.stat = .run →
        d = (c.at_ t).load s [] → (∀ o x, o < 3 → c.operand o d = .inl x → ∀ sp ∈ c.wgmSpan o x, sp.a + sp.n ≤ w.m) →
        ∃ u g', exec (.arrAccept t) s = .next u ∧ now u (fun y => y.stage = .accepted) ∧ u.ram = s.ram ∧ group? u t c.slot = some g' ∧ g'.offer = none ∧
          g'.fault = none ∧ g'.pc = (g.pc + b.bytes) % 2 ^ 64) ∧
      ∃ u, exec (.arrAccept t) s = .next u ∧ ∀ y ∈ (tile u t).arr.cmds, y.serial = c.serial → y.words = c.words ∧ (y.stage = .offered ∨ y.stage = .accepted)) ∧
    (∀ s1, (tile s t).arr.cmds.find? (fun y => y.stage == .accepted) = some c → arrRuns s t = true → mayBegin (tile s t).arr c = true →
      (c.at_ t).gather s c.readLines = (true, s1) → (∀ pg, (blk s pg).injArm = false) → ¬(c.inj = 1 ∧ c.recomp = 0) → ¬(c.inj = 2 ∧ c.recomp ≤ 1) →
      ∀ late, ∃ u, exec (.arrCompute ⟨t, late⟩) s = .next u ∧ now u (fun y => y.stage = .computing ∧ y.acc = (arrAcc c ((c.at_ t).load s1 c.readLines)).1) ∧ u.ram = s1.ram) ∧
    (∀ cells hems, (tile s t).arr.cmds.head? = some c → c.stage = .computing → arrRuns s t = true → (let x := c.found cells hems
      let fails := x.hemFails (regF s (pgArr t) 0x088 12 8) x.acc
      (c.opc ≠ 0 ∨ hemLevel s t c = 0 ∨ c.poison = true ∨ fails = ([], [], false) → ∃ u, exec (.arrDrain t cells hems) s = .next u ∧ now u (fun y => y.stage = .drained ∧
        (¬(c.rnd = 2 ∧ c.ofmt ≠ 0) → y.out = x.acc.map (c.convert (if c.rnd = 1 then .tz else .ne)))) ∧ u.ram = s.ram) ∧
      (c.opc = 0 → hemLevel s t c = 2 → c.poison = false → fails ≠ ([], [], false) →
        (c.recomp = 0 → ∃ u, exec (.arrDrain t cells hems) s = .next u ∧ again u ∧ (blk u (pgArr t)).errStat.getLsbD 8 = true ∧ u.ram = s.ram) ∧
        (c.recomp ≠ 0 → ∃ u, exec (.arrDrain t cells hems) s = .next u ∧ now u (fun y => y.stage = .held) ∧ (blk u (pgArr t)).errStat.getLsbD 9 = true ∧ u.ram = s.ram)))) ∧
    ((tile s t).arr.cmds.head? = some c →
      (c.stage = .drained → c.drain = 1 → (let x := (c.opds[2]?).getD (wgmOpd 0 0 0 0 0 false)
        let wl := if x.kind = 2 then (c.lines 2 x).map (·.1) else []
        let v := (c.at_ t).write ((c.at_ t).again s wl) (arrBytes c x)
        (c.at_ t).held s wl = false →
        ∃ u, exec (.arrDelivered t) s = .next u ∧ (gone u ∨ now u (fun y => y.stage = .delivering)) ∧ u.ram = v.ram ∧ (wg? u t c.wg).map (·.wgm) = (wg? v t c.wg).map (·.wgm))) ∧
      (c.stage = .delivering → (c.at_ t).busy s = false → ∃ u, exec (.arrDelivered t) s = .next u ∧ gone u ∧ (tile u t).arr.done = (tile s t).arr.done + 1 ∧ u.ram = s.ram ∧
        ∀ g p, group? s t c.slot = some g → g.pend.find? (fun p => p.kind == .arr c.serial && !p.done) = some p →
          ∃ g', group? u t c.slot = some g' ∧ Completed g' p.id)) ∧
    (∀ p tag, isGc p = true → Access s p tag → (blk s (pgArr t)).st.silent = false →
      (arrHeld s t = some c → (∃ u, exec (.arrRetry p tag t) s = .next u ∧ again u ∧ u.ram = s.ram) ∧
        ∃ u, exec (.arrPoison p tag t) s = .next u ∧ now u (fun y => y.stage = .drained ∧ y.poison = true) ∧ u.ram = s.ram) ∧
      (arrHeld s t = none → (∃ u, exec (.arrRetry p tag t) s = .next u ∧ (blk u (pgArr t)).errStat.getLsbD 3 = true ∧ u.tiles = s.tiles) ∧
        ∃ u, exec (.arrPoison p tag t) s = .next u ∧ (blk u (pgArr t)).errStat.getLsbD 3 = true ∧ u.tiles = s.tiles)) ∧
    (arrHeld s t = some c → ∀ i, (i = .holdResponse t ∧ dutyUp s (t / 44) = true) ∨ (i = .holdEscalate t ∧ fwUp s = true ∧ (nextCluster s (dutyOf s (t / 44))).isSome = true) →
      (c.inj = 2 → c.real = false → ∃ u, exec i s = .next u ∧ again u) ∧
      (∀ f, c.inj ≠ 2 ∨ c.real = true → freeField s t (c.loc.getD 2 255) (c.loc.getD 3 255) = some f → ∃ u, exec i s = .next u ∧ again u ∧
        regF u (pgArr t) f.1 f.2.1 f.2.2.1 = f.2.2.2 % 2 ^ 8 ∧ tget? u.cardDue (cardKey ctArrayMap t) = some (regMap u t)) ∧
      (c.inj ≠ 2 ∨ c.real = true → freeField s t (c.loc.getD 2 255) (c.loc.getD 3 255) = none → ∃ u, exec i s = .next u ∧ now u (fun y => y.stage = .drained ∧ y.poison = true))))

/-- For an offered row command, its serial its own, with its group and workgroup, on a ROW page in service: one whose words break
a rule is refused with RSVD_FIELD or FMT (CMD_REFUSED, the code in ROW_REFUSE, the command gone, the group faulted with
ROW_CMD); SINV alone in its bundle is accepted; whatever happens, a command is still offered, accepted or gone, its words as
they were. Each of the operations performs the engine's next item, when its lines can be read and none that it uses is held:
memory and the tile's workgroup memory are as the item leaves them, and the command has been computed. SINV leaves nothing in
the statistics cache. A computed command with no open request completes under W3. -/
def Obligations.RowCommandsAreTakenPerformedAndCompleted : Prop :=
  ∀ (s : State) (t : Nat) (c : RowCmd), (∀ y ∈ (tile s t).row.cmds, y.serial = c.serial → y = c) → c ∈ (tile s t).row.cmds →
    (let now (u : State) (st : RowStage) : Prop := (∃ y ∈ (tile u t).row.cmds, y.serial = c.serial) ∧ ∀ y ∈ (tile u t).row.cmds, y.serial = c.serial → y.words = c.words ∧ y.stage = st
    let gone (u : State) : Prop := ∀ y ∈ (tile u t).row.cmds, y.serial ≠ c.serial
    ((tile s t).row.cmds.find? (fun y => y.stage == .offered) = some c → ∀ g w, group? s t c.slot = some g → wg? s t c.wg = some w → inService s (pgRow t) = true →
      (rowWordOk c.w0 c.w1 false = false ∨ rowFmtOk (rowParOf c.w0 []) = false → g.fault = none → ∃ u, exec (.rowAccept t) s = .next u ∧ gone u ∧ (blk u (pgRow t)).errStat.getLsbD 8 = true ∧
        regF u (pgRow t) 0x084 7 0 = (if rowWordOk c.w0 c.w1 false then rcFmt else rcRsvd) ∧ ∃ g' f, group? u t c.slot = some g' ∧ g'.fault = some f ∧ f.code = fRow) ∧
      (∀ b, rowWordOk c.w0 c.w1 false = true → rowFmtOk (rowParOf c.w0 []) = true → rowWordKind (rowParOf c.w0 []) = false → bits c.w0 4 0 = 0x0F → offerBundle g = some b → b.c = none → b.v = none → b.m = none → g.fault = none → g.stat = .run →
        ∃ u g', exec (.rowAccept t) s = .next u ∧ now u .accepted ∧ u.ram = s.ram ∧ group? u t c.slot = some g' ∧ g'.offer = none ∧ g'.fault = none ∧ g'.pc = (g.pc + b.bytes) % 2 ^ 64) ∧
      ∃ u, exec (.rowAccept t) s = .next u ∧ ∀ y ∈ (tile u t).row.cmds, y.serial = c.serial → y.words = c.words ∧ (y.stage = .offered ∨ y.stage = .accepted)) ∧
    ((tile s t).row.cmds.find? (fun y => y.stage == .accepted && rowFirst s t y.aseq) = some c → rowRuns s t = true →
      (∀ errs, ∀ i ∈ [(0x01, Instr.rmsnorm ⟨t, errs⟩), (0x02, .layernorm ⟨t, errs⟩), (0x03, .softmax ⟨t, errs⟩), (0x04, .logsoftmax ⟨t, errs⟩), (0x05, .stats ⟨t, errs⟩), (0x06, .expsum ⟨t, errs⟩), (0x07, .merge ⟨t, errs⟩), (0x08, .sample ⟨t, errs⟩),
          (0x09, .dropout ⟨t, errs⟩), (0x0A, .rmsnormBwd ⟨t, errs⟩), (0x0B, .layernormBwd ⟨t, errs⟩), (0x0C, .softmaxBwd ⟨t, errs⟩), (0x0D, .logsoftmaxBwd ⟨t, errs⟩), (0x0E, .dropoutBwd ⟨t, errs⟩)],
        bits c.w0 4 0 = i.1 → ∀ v, rowItem s (c.at_ t) c.par none c.marked (rowDescAt c.w1).a errs = (true, v) →
          ∃ u, exec i.2 s = .next u ∧ now u .computed ∧ (tile u t).row.items = (tile v t).row.items + 1 ∧ u.ram = v.ram ∧ (tile u t).wgs = (tile v t).wgs) ∧
      (bits c.w0 4 0 = 0x0F → ∃ u, exec (.sinv t) s = .next u ∧ now u .computed ∧ (tile u t).row.scache = [] ∧ u.ram = s.ram ∧ (tile u t).wgs = (tile s t).wgs ∧ u.blks = s.blks)) ∧
    ((tile s t).row.cmds.head? = some c → c.stage = .computed → (c.at_ t).busy s = false → ∃ u, exec (.rowComplete t) s = .next u ∧ gone u ∧ u.ram = s.ram ∧
      ∀ g p, group? s t c.slot = some g → g.pend.find? (fun p => p.kind == .row c.serial && !p.done) = some p → ∃ g', group? u t c.slot = some g' ∧ Completed g' p.id))

/-- For a line that exists, is not held, lies in no fenced pseudo-channel and waits for no room, that no access waits for at its
slice, on a sound machine: a read gives the line's 128 bytes and its mark and changes no byte; a write changes exactly its
bytes; zeroing leaves the line zero; an atomic inside the line gives the old value and leaves the kind's result at its place;
each when the slice holds the line or need not, and no fill of it is outstanding; an operation that needs a line which the
slice does not hold waits for the fill at the end of the slice's list, and no byte changes. A reduce-write adds each addend
of its mask to its element in FP32 and leaves the others. A fill performs what waits for the line: none waits any longer, and
a lone read gets its bytes. A write-back leaves the eviction buffer. A line that does not exist stops the command by name. -/
def Obligations.LinesAreReadWrittenAndReduced : Prop :=
  ∀ (s : State) (pa slot : Nat), (lineExists pa = false → ∀ o l, o.pa = pa → exec (.l2LineAccess o) s = .fault (.noSuchLine pa) ∧
      exec (.reduceWrite slot pa l) s = .fault (.noSuchLine pa) ∧ exec (.hbmFillReturn pa) s = .fault (.noSuchLine pa) ∧
      exec (.evictionWriteback pa) s = .fault (.noSuchLine pa)) ∧
    (lineExists pa = true → lineHeld s pa = false → isFenced s pa = false → Sound s → noRoom s pa = false →
      (∀ w ∈ (slice s (gslice pa)).waits, w.pa / 128 ≠ pa / 128) →
      (let g := gslice pa
      let gives (t : State) : Prop := tget? t.bus 18 = some (ofBytes (readPhys s slot (lineBase pa) 128)) ∧ tget? t.bus 19 = some (if isMarked s pa then 1 else 0)
      ((∀ f ∈ (slice s g).fills, f.pa / 128 ≠ pa / 128) →
        (sliceHas s pa = true → (∃ t, exec (.l2LineAccess ⟨pa, slot, .read, none⟩) s = .next t ∧ gives t ∧ SameBytes s t) ∧
          (∀ bs, ∃ t, exec (.l2LineAccess ⟨pa, slot, .write bs, none⟩) s = .next t ∧ LineHolds s t slot pa (bs.filter (fun b => b.1 < 128))) ∧
          (∀ k off a b, off + atomSize k ≤ 128 → ∃ t, exec (.l2LineAccess ⟨pa, slot, .atomic k off a b, none⟩) s = .next t ∧
            tget? t.bus 18 = some (ofBytes (toBytes (atomSize k) (rdN s slot (lineBase pa + off) (atomSize k)))) ∧
            LineHolds s t slot pa ((toBytes (atomSize k) (atomApply k (rdN s slot (lineBase pa + off) (atomSize k)) (a % 2 ^ (8 * atomSize k)) (b % 2 ^ (8 * atomSize k)))).mapIdx
              (fun i v => ((lineBase pa + off) % 128 + i, v))))) ∧
        (∀ bs, wholeLine bs = true → ∃ t, exec (.l2LineAccess ⟨pa, slot, .write bs, none⟩) s = .next t ∧ LineHolds s t slot pa (bs.filter (fun b => b.1 < 128))) ∧
        (∃ t, exec (.l2LineAccess ⟨pa, slot, .zero, none⟩) s = .next t ∧ LineHolds s t slot pa zeroBytes) ∧
        (∀ o, o.pa = pa → needsLine o = true → sliceHas s pa = false → ∃ t, exec (.l2LineAccess o) s = .next t ∧ (slice t g).fills = (slice s g).fills ++ [o] ∧
          (slice t g).lines = (slice s g).lines ∧ t.ram = s.ram) ∧
      (∀ l : List Nat, l.length ≤ 32 → ∃ t, exec (.reduceWrite slot pa l) s = .next t ∧ (∀ k x, x / 128 ≠ pa / 128 → byteUnder t.ram k x = byteUnder s.ram k x) ∧
        ∀ i, i < 32 → rdN t slot (lineBase pa + 4 * i) 4 = (match l[i]? with
          | some a => if a < 2 ^ 32 then (f32Add (BitVec.ofNat 32 (rdN s slot (lineBase pa + 4 * i) 4)) (BitVec.ofNat 32 a)).toNat else rdN s slot (lineBase pa + 4 * i) 4
          | none => rdN s slot (lineBase pa + 4 * i) 4))) ∧
      ((∃ f ∈ (slice s g).fills, f.pa / 128 = pa / 128) → ∃ t, exec (.hbmFillReturn pa) s = .next t ∧ (∀ f ∈ (slice t g).fills, f.pa / 128 ≠ pa / 128) ∧
        ((slice s g).fills.filter (fun f => f.pa / 128 == pa / 128) = [⟨pa, slot, .read, none⟩] → (slice s g).waits = [] → gives t ∧ SameBytes s t)) ∧
      (∃ t, exec (.evictionWriteback pa) s = .next t ∧ ((slice s g).waits = [] → (slice t g).evb = (slice s g).evb.filter (· ≠ pa / 128)) ∧
        ((slice s g).waits = [] → (slice t g).lines = (slice s g).lines ∧ t.ram = s.ram))))

/-- A write of L2S_SWAP on a slice in service starts the swap of a way in service and, when its operation ends DONE, takes the
way out of service and the spare way in, and in the sets that it still had to reach no line stays in the way; with no spare
way it ends FAILED with bit 11. A scrub pass of a stack in service sets bit 8 for a line found corrected, bit 9 and the mark
for one found uncorrectable that no slice holds, changes no byte, and the next pass runs. A soft row repair counts; a remap
takes a row of a spare region, and with none left sets bit 11. A lost pseudo-channel sets bit 10 and is held while spare
regions suffice, else fenced with event 0x65; its redirect, while nothing waits for a held line, ends the hold, takes 1,024
regions and shows in the register. A walk that finds a range puts it first in its die's cache, one that finds none counts a
fault. -/
def Obligations.MemoryIsMaintained : Prop :=
  ∀ (s : State), (∀ p tag g v, g < 128 → Access s p tag → (blk s (pgL2s g)).st.inService = true → (blk s (pgL2s g)).opRun = false → v < 16 →
      (hasSpare s g v = true → ∃ t, exec (.waySwap p tag (pgL2s g) v) s = .next t ∧ (blk t (pgL2s g)).opRun = true ∧ (blk t (pgL2s g)).opArg = v ∧
        (blk t (pgL2s g)).progRes = 0 ∧ OnlyPage s t (pgL2s g)) ∧
      (hasSpare s g v = false → ∃ t, exec (.waySwap p tag (pgL2s g) v) s = .next t ∧ (blk t (pgL2s g)).opRun = false ∧ (blk t (pgL2s g)).progRes = 2 ∧
        (blk t (pgL2s g)).errStat.getLsbD 11 = true ∧ insvc t g = insvc s g ∧ OnlyPage s t (pgL2s g))) ∧
    (∀ g, g < 128 → (blk s (pgL2s g)).opRun = true → (blk s (pgL2s g)).opArg < 16 → (let w := (blk s (pgL2s g)).opArg
      ∃ t, exec (.longOpEnd (pgL2s g) 1) s = .next t ∧ (insvc t g).testBit w = false ∧ (insvc t g).testBit 16 = true ∧ (∀ k, k ≠ w → k < 16 → (insvc t g).testBit k = (insvc s g).testBit k) ∧
        (∀ l ∈ (slice t g).lines, l.1 % 17 = w → 1024 ≤ l.1 / 17 ∨ l.1 / 17 < ((slice s g).swap.map (·.2)).getD 0) ∧ (blk t (pgL2s g)).opRun = false ∧ (blk t (pgL2s g)).progRes = 1 ∧ SameBytes s t)) ∧
    (∀ p k cs us, k < 12 → (blk s (pgHbm k)).st.inService = true → regF s (pgHbm k) 0x080 15 0 ≠ 0 → ∃ t, exec (.scrubPass p k cs us) s = .next t ∧
      (∀ pa ∈ cs, lineExists pa = true → stackOf pa = k → (blk t (pgHbm k)).errStat.getLsbD 8 = true) ∧
      (∀ pa ∈ us, lineExists pa = true → stackOf pa = k → (blk t (pgHbm k)).errStat.getLsbD 9 = true ∧
        (dirtyAbove s pa = false → (∀ l ∈ (slice s (gslice pa)).lines, l.2.line ≠ pa / 128) → isMarked t pa = true)) ∧
      (blk t (pgHbm k)).opRun = true ∧ (blk t (pgHbm k)).progRes = 0 ∧ (blk t (pgHbm k)).opBy = some p ∧ SameBytes s t) ∧
    (∀ k row, k < 12 → (blk s (pgHbm k)).st.inService = true →
      (∃ t, exec (.hbmRowRepair k row true) s = .next t ∧ regF t (pgHbm k) 0x094 31 16 = min 0xFFFF (regF s (pgHbm k) 0x094 31 16 + 1) ∧ t.stackTab = s.stackTab ∧ t.ram = s.ram) ∧
      (let again := (stack s k).remap.any (fun r => sameRow r.1 row)
      let full : Prop := (4096 ≤ regF s (pgHbm k) 0x084 31 16 ∧ again = false) ∨ spareFree s k = 0 ∨ spareIn s k = []
      (¬full → ∃ t p, exec (.hbmRowRepair k row false) s = .next t ∧ p ∈ spareIn s k ∧ (stack t k).remap = (stack s k).remap.filter (fun r => !sameRow r.1 row) ++ [(row, p)] ∧
        regF t (pgHbm k) 0x084 31 16 = regF s (pgHbm k) 0x084 31 16 + (if again then 0 else 1) ∧ spareFree t k = spareFree s k ∧ t.ram = s.ram) ∧
      (full → ∃ t, exec (.hbmRowRepair k row false) s = .next t ∧ (blk t (pgHbm k)).errStat.getLsbD 11 = true ∧ t.stackTab = s.stackTab ∧ t.ram = s.ram))) ∧
    (∀ k p, k < 12 → p < 64 → (blk s (pgHbm k)).st.inService = true → p ∉ (stack s k).heldPch → p ∉ (stack s k).fenced → (regPair s (pgHbm k) 0x088).testBit p = false →
      (1024 ≤ spareFree s k → ∃ t, exec (.pchLost k p) s = .next t ∧ (stack t k).heldPch = (stack s k).heldPch ++ [p] ∧ (stack t k).fenced = (stack s k).fenced ∧
        (blk t (pgHbm k)).errStat.getLsbD 10 = true ∧ t.ram = s.ram) ∧
      (spareFree s k < 1024 → ∃ t, exec (.pchLost k p) s = .next t ∧ (stack t k).fenced = (stack s k).fenced ++ [p] ∧ (stack t k).heldPch = (stack s k).heldPch ∧
        (blk t (pgHbm k)).errStat.getLsbD 10 = true ∧ (blk t (pgHbm k)).errStat.getLsbD 11 = true ∧
        { ring := 0, kind := 0x65, info := k / 3 + 256 * k + 65536 * p } ∈ t.evq ∧ t.ram = s.ram)) ∧
    (∀ k p, k < 12 → p < 64 → p ∈ (stack s k).heldPch → NothingHeld s → ∃ t, exec (.pchRedirect k p) s = .next t ∧ p ∉ (stack t k).heldPch ∧ p ∈ (stack t k).redirPch ∧
      spareFree t k = spareFree s k - 1024 ∧ (regPair t (pgHbm k) 0x088).testBit p = true ∧ { ring := 0, kind := 7, info := k / 3 + 256 * k + 65536 * p } ∈ t.evq ∧ SameBytes s t) ∧
    (∀ d sp va, d < 4 → sp < 4096 → spaceState s d sp = 1 → va < 2 ^ 48 →
      (∀ e s1, walk s d sp va = (.inr e, s1) → ∃ t, exec (.rangeWalk d sp va) s = .next t ∧ (tgetD t.xcache (agDie d) []).head? = some e ∧ e.covers va = true ∧ t.ram = s.ram) ∧
      (∀ x s1, walk s d sp va = (.inl x, s1) → ∃ t, exec (.rangeWalk d sp va) s = .next t ∧ t.xcache = s.xcache ∧ t.ram = s.ram ∧
        regF t (pgXlt d) 0x094 15 0 = min 0xFFFF (regF s (pgXlt d) 0x094 15 0 + 1)))

/-- On a powered module: an input voltage within 44 V to 60 V shows in PWR_IN, and a worse band than before sets bit 12 and sends
event 0x48; in the outer bands every core rail that has not failed goes to code 0, and 10,000 us of that, like a voltage
outside them and the loss of 52 V, turn everything off: memory, tiles, keys and queues are empty and only the flash and the
host keep anything. A droop below 0.52 V of a supply counts once per excursion, which ends with its return; below 0.45 V it
is a rail fault. A rail fault fails every block that the supply feeds and that is not OFF, FAILED or RETIRED, sets FAILED of
the rail and bit 11, sends event 0x47 and takes the device out of service; the fourth lost phase of a supply is one, an
earlier loss is an event 0x66. -/
def Obligations.TheInputAndTheSupplies : Prop :=
  ∀ (s : State), (let off (t : State) : Prop := t.pwrGood = false ∧ t.booted = false ∧ t.ram = {} ∧ t.tiles = [] ∧ t.keys = [] ∧ t.queues = [] ∧ t.cmds = [] ∧ t.l2 = [] ∧
      t.flash = s.flash ∧ t.host = s.host ∧ t.partE = s.partE
    let faulted (t : State) (n : Nat) : Prop := railFailed t n = true ∧ (blk t pgPwr).errStat.getLsbD 11 = true ∧ { ring := 0, kind := 0x47, info := n } ∈ t.evq ∧ t.leftService = true ∧
      (∀ pg ∈ supplyPages n, (blk s pg).st ≠ .off → (blk s pg).st ≠ .failed → (blk s pg).st ≠ .retired → (blk t pg).st = .failed) ∧ t.ram = s.ram
    (∃ t, exec .powerLoss s = .next t ∧ off t) ∧
    (s.pwr.band = 2 → ∃ t, exec .inputExcursionTimeout s = .next t ∧ off t) ∧
    (∃ t, exec .inputRangeReturn s = .next t ∧ t.pwr.band = 0 ∧ t.blks = s.blks ∧ t.evq = s.evq ∧ t.ram = s.ram) ∧
    (∀ n, ∃ t, exec (.railVoltageReturn n) s = .next t ∧ thas t.pwr.droops n = false ∧ t.blks = s.blks ∧ t.ram = s.ram) ∧
    (powered s = true →
      (∀ mv, (inputBand mv = 3 → ∃ t, exec (.inputExcursion mv) s = .next t ∧ off t) ∧
        (inputBand mv ≠ 3 → ∃ t, exec (.inputExcursion mv) s = .next t ∧ regF t pgPwr 0x094 31 16 = mv / 10 ∧ t.pwr.band = inputBand mv ∧ t.ram = s.ram ∧
          (inputBand mv > s.pwr.band → (blk t pgPwr).errStat.getLsbD 12 = true ∧ { ring := 0, kind := 0x48, value := mv / 10 } ∈ t.evq) ∧
          (inputBand mv ≤ s.pwr.band → (blk t pgPwr).errStat = (blk s pgPwr).errStat ∧ t.evq = s.evq) ∧
          (∀ n, n < 16 → railFailed s n = false → railCode t n = if inputBand mv = 2 then 0 else railCode s n))) ∧
      (∀ n mv, n < 20 → railFailed s n = false → mv < 450 → ∃ t, exec (.railDroop n mv) s = .next t ∧ faulted t n) ∧
      (∀ n mv, n < 20 → railFailed s n = false → 450 ≤ mv → mv < 520 → ∃ t, exec (.railDroop n mv) s = .next t ∧ tget? t.pwr.droops n = some mv ∧
        regF t pgPwr 0x0A8 15 0 = (if thas s.pwr.droops n then regF s pgPwr 0x0A8 15 0 else min 0xFFFF (regF s pgPwr 0x0A8 15 0 + 1)) ∧ OnlyPage s t pgPwr) ∧
      (∀ n, n < 20 → railFailed s n = false → (∃ t, exec (.railFault n) s = .next t ∧ faulted t n) ∧
        (3 ≤ tgetD s.pwr.phases n 0 → ∃ t, exec (.phaseLost n) s = .next t ∧ faulted t n) ∧
        (tgetD s.pwr.phases n 0 < 3 → ∃ t, exec (.phaseLost n) s = .next t ∧ tget? t.pwr.phases n = some (tgetD s.pwr.phases n 0 + 1) ∧
          t.evq = s.evq ++ [{ ring := 0, kind := 0x66, value := 1 - tgetD s.pwr.phases n 0, info := n }] ∧ t.blks = s.blks ∧ t.ram = s.ram))))

/-- A write of PWR_CAP takes the value, not below 100 and not above the part's maximum, of PWR_VCEIL not above the part's highest
code; a clamped one sets CLAMPED and bit 8 and sends event 0x40. On a powered module: a period chooses a uniform point not
above PWR_VCEIL, shows the measured input, and every rail that has not failed takes, while it works and the input is not in
the outer bands, the lower of the point and its ceiling, else code 0. The fast limit takes 5 codes off every rail, sets bit
10 and sends event 0x43. While the device-wide duties run: an estimate apart for more than 500 periods turns MEASURE control
on, sets bit 9, sends event 0x41 and unlearns the tags in use; one close for 10,000 periods turns it off and sends event
0x42. In MEASURE control a step lowers the point by one code, or in BUBBLE mode raises b by 4, while the input lies above the
target. A sensor sample is kept; the third in a row at the trip temperature trips the module, sets the alert, and then
everything but the sideband turns off. -/
def Obligations.PowerAndHeatAreControlled : Prop :=
  ∀ (s : State), (∀ p tag v, Access s p tag → (blk s pgPwr).st.silent = false →
      (let c := max 100 (min (v % 2 ^ 9) (maxWatts s / 10))
        ∃ t, exec (.pwrCapWrite p tag v) s = .next t ∧ regF t pgPwr 0x080 8 0 = c ∧ regF t pgPwr 0x080 16 16 = (if c = v % 2 ^ 9 then 0 else 1) ∧ OnlyPage s t pgPwr ∧
        (c ≠ v % 2 ^ 9 → (blk t pgPwr).errStat.getLsbD 8 = true ∧ { ring := 0, kind := 0x40, value := v % 2 ^ 9, info := 0 } ∈ t.evq) ∧
        (c = v % 2 ^ 9 → (blk t pgPwr).errStat = (blk s pgPwr).errStat ∧ t.evq = s.evq)) ∧
      (let c := min (v % 2 ^ 6) (topCode s)
        ∃ t, exec (.pwrVceilWrite p tag v) s = .next t ∧ regF t pgPwr 0x084 5 0 = c ∧ regF t pgPwr 0x084 6 6 = (if c = v % 2 ^ 6 then 0 else 1) ∧ OnlyPage s t pgPwr ∧
        (c ≠ v % 2 ^ 6 → (blk t pgPwr).errStat.getLsbD 8 = true ∧ { ring := 0, kind := 0x40, value := v % 2 ^ 6, info := 1 } ∈ t.evq) ∧
        (c = v % 2 ^ 6 → (blk t pgPwr).errStat = (blk s pgPwr).errStat ∧ t.evq = s.evq))) ∧
    (powered s = true →
      (∀ m, (blk s (pgGde s.guide.dev)).st.inService = true → ∃ t, exec (.pacingPeriod m) s = .next t ∧ regF t pgPwr 0x094 15 0 = m.watts % 2 ^ 16 ∧ regF t pgPwr 0x094 31 16 = m.volts % 2 ^ 16 ∧
        pointOf t ≤ min (regF s pgPwr 0x084 5 0) (topCode s) ∧ t.pwr.fastDrop = 0 ∧ t.ram = s.ram ∧ ∀ n, n < 16 → railFailed s n = false →
          railCode t n = (if railBusy s n = true ∧ s.pwr.band ≠ 2 then min (pointOf t) (ceilOf t n) else 0)) ∧
      (∃ t, exec .fastLimit s = .next t ∧ (∀ n, n < 16 → railFailed s n = false → railCode t n = railCode s n - 5) ∧ (blk t pgPwr).errStat.getLsbD 10 = true ∧
        regF t pgPwr 0x0A8 31 16 = min 0xFFFF (regF s pgPwr 0x0A8 31 16 + 1) ∧ (∃ e ∈ t.evq, e.kind = 0x43 ∧ maxWatts s < e.value) ∧ OnlyPage s t pgPwr) ∧
      (ctlMeasure s = false → devUp s = true → 500 < s.pwr.apart → ∃ t, exec .pwrEstDiverge s = .next t ∧ ctlMeasure t = true ∧ (blk t pgPwr).errStat.getLsbD 9 = true ∧ (∃ e ∈ t.evq, e.kind = 0x41) ∧
        (∀ l ∈ s.launches, tagLearned t l.phase = false) ∧ OnlyPage s t pgPwr) ∧
      (ctlMeasure s = true → devUp s = true → (10000 ≤ s.pwr.close → ∃ t, exec .pwrEstRecover s = .next t ∧ ctlMeasure t = false ∧ (∃ e ∈ t.evq, e.kind = 0x42) ∧ OnlyPage s t pgPwr) ∧
        (let pin := regF s pgPwr 0x094 15 0 * 100000
        let target := capMw s * (100 - paceF s 0x090 5 0)
        let u := pointOf s - s.pwr.fastDrop
        (target < pin → bubbleMode s = false → ∃ t, exec .measureStep s = .next t ∧ pointOf t = u - 1 ∧ regF t pgPwr 0x09C 10 5 = regF s pgPwr 0x09C 10 5 ∧ OnlyPage s t pgPwr ∧
          ∀ n, n < 16 → railFailed s n = false → railCode t n = (if railBusy s n = true ∧ s.pwr.band ≠ 2 then min (u - 1) (ceilOf s n) else 0)) ∧
        (target < pin → bubbleMode s = true → ∃ t, exec .measureStep s = .next t ∧ pointOf t = pointOf s ∧ regF t pgPwr 0x09C 10 5 = min 56 (regF s pgPwr 0x09C 10 5 + 4) ∧ OnlyPage s t pgPwr) ∧
        (pin ≤ target → target ≤ pin + 3 * capMw s → exec .measureStep s = .next s))) ∧
      (∀ d i x v, d < 4 → sensorKnown d i = true → (let old := tgetD s.pwr.sensors (256 * d + i) ⟨0, true, 0⟩
        ∃ t, exec (.sensorSample d i x v) s = .next t ∧ answers t d i = v ∧ rawTemp t d i = (if v then x else old.temp) ∧ t.ram = s.ram ∧
          (v = true → i ≠ 56 → (sensorLimits i).2.2 ≤ x → 2 ≤ old.hits → t.pwr.tripped = true ∧ regF t pgNhl 0x0E4 1 1 = 1)))) ∧
    (s.pwr.tripped = true → s.booted = true → ∃ t, exec .thermalTripOff s = .next t ∧ t.ram = {} ∧ t.tiles = [] ∧ t.booted = false ∧ t.leftService = true ∧
      t.pwr.tripped = true ∧ regF t pgNhl 0x0E4 0 0 = 1 ∧ t.flash = s.flash)

/-- Power-up of an unpowered module with MOD_RESET_N low holds the start before step 2; with it high, on an empty card and with
no step failing, the start finishes and STARTS is 0, as it does at the release of a held start. A warm reset of a started
module ends every command and launch, keeps keys, card and flash, and, once no drain is left, leaves every store buffer
empty; the end of the drain does so too. Its release lets MOD_RESET_N rise and writes no card record. A record that waits is
written into the card and into the flash copy with the next SEQ, a write that fails takes its bank out of use, sets bit 9 and
sends event 0xA0. A cable connected gets power on a powered module and is read once; removed or over its power, it has no
power and its port is DOWN. -/
def Obligations.StartsResetsTheCardAndCables : Prop :=
  ∀ (s : State) (b : BootFacts), (let clean (u : State) : Prop := b.failed = [] ∧ b.clusters = [] ∧ b.edges = [] ∧ b.stackSet = [] ∧ b.tiles = [] ∧ b.cells = [] ∧ b.ways = [] ∧
      b.entries = [] ∧ u.flash.copies = []
    let done (t : State) : Prop := t.startHeld = false ∧ regF t pgBoot 0x080 15 8 = 0
    (s.pwrGood = false → (1 ∉ b.failed → b.resetHeld = true → ∃ t, exec (.powerUp b) s = .next t ∧ t.pwrGood = true ∧ t.resetLow = true ∧ t.startHeld = true ∧ t.booted = false ∧
        t.ram = {} ∧ t.flash = s.flash) ∧
      (clean s → b.resetHeld = false → ∃ t, exec (.powerUp b) s = .next t ∧ done t)) ∧
    (s.pwrGood = true → s.pwr.tripped = false →
      (s.startHeld = true → clean s → ∃ t, exec (.modResetRelease b) s = .next t ∧ done t) ∧
      (s.startHeld = false → s.resetLow = true → s.draining = false → ∃ t, exec (.modResetRelease b) s = .next t ∧ t.resetLow = false ∧ t.card = s.card ∧ t.flash = s.flash ∧ t.ram = s.ram) ∧
      (s.resetLow = false → s.booted = false → ∃ t, exec .warmReset s = .next t ∧ t.resetLow = true ∧ t.startHeld = true ∧ t.ram = s.ram) ∧
      (s.resetLow = false → s.booted = true → ∃ t, exec .warmReset s = .next t ∧ t.resetLow = true ∧ t.cmds = [] ∧ t.launches = [] ∧ t.keys = s.keys ∧ t.card = s.card ∧ t.flash = s.flash ∧
        (t.draining = false → sbEmpty t = true))) ∧
    (s.draining = true → ∃ t, exec .sbDrainExpire s = .next t ∧ t.draining = false ∧ sbEmpty t = true ∧ t.keys = s.keys ∧ t.card = s.card) ∧
    (fwUp s = true → (∀ k u v, k ≠ 0 → tget? s.cardDue (cardKey k u) = some v → ∃ t, exec (.cardWrite k u) s = .next t ∧ cardGet t k u = some v ∧ thas t.cardDue (cardKey k u) = false ∧
        (∀ i, i ≠ cardKey k u → tget? t.card i = tget? s.card i) ∧ (∀ n, cardBank s = some n → tget? t.flash.copies n = some (cardSeq s + 1, t.card)) ∧ t.ram = s.ram) ∧
      (∀ n, n < 2 → s.flash.badBank.testBit n = false → ∃ t, exec (.cardWrite 0 n) s = .next t ∧ t.flash.badBank.testBit n = true ∧ thas t.flash.copies n = false ∧
        (blk t pgBoot).errStat.getLsbD 9 = true ∧ { ring := 0, kind := 0xA0, value := cardSeq s, info := n } ∈ t.evq ∧ t.ram = s.ram)) ∧
    (∀ p, p < 18 → ((cable s p).present = false → ∃ t, exec (.cableConnect p) s = .next t ∧ (cable t p).present = true ∧ (cable t p).power = powered s ∧ (cable t p).read = false ∧
        (∀ x, x ≠ p → cable t x = cable s x) ∧ t.ports = s.ports ∧ t.blks = s.blks) ∧
      ((cable s p).present = true → (∃ t, exec (.cableRemove p) s = .next t ∧ (cable t p).present = false ∧ (cable t p).power = false ∧ linkState t p = lkDown ∧ t.ram = s.ram) ∧
        ((cable s p).power = true → ∃ t, exec (.cableOverpower p) s = .next t ∧ (cable t p).power = false ∧ (cable t p).overI = true ∧ linkState t p = lkDown ∧ t.ram = s.ram) ∧
        (∀ ok w, fwUp s = true → (cable s p).power = true → (cable s p).read = false → ∃ t, exec (.cableIdRead p ok w) s = .next t ∧ (cable t p).read = true ∧
          (cable t p).ident = (if ok then some w else none) ∧ t.ram = s.ram))))

/-- For a port in service whose link carries flits: DETECT without a partner goes DOWN with NO_PARTNER, with one to TRAIN, which
counts; a port DOWN for no training failure looks again, one DOWN after a failed training starts again. In TRAIN a lane that
does not lock goes into the bad mask, and fewer than four good lanes mean DOWN with LANES, or with TRAIN_FAIL in the training
after a failed fast retrain; the partner's INIT takes its bad mask, and then no width means the same, different ENC means
DOWN with ENC_MISMATCH, else credits and sequence numbers start, and the port goes to KEYX, to roll call, or, the host link,
UP. A KEYX that verifies gives both keys and goes to roll call, one that does not, or comes too late, means DOWN with KEYX.
Loss of signal means DOWN with LOS. A bad lane goes into the mask and into a card record, and like the partner's request
starts a fast retrain, whose success means UP, whose failure full training. A rekey puts a KEYX under way. The corrected
symbols of a window are kept by lane. -/
def Obligations.LinksTrainAndGoDown : Prop :=
  ∀ (s : State) (p : Nat), p < 19 → portOn s p = true → portLive s p = true → (let down (t : State) (r : Nat) : Prop := linkState t p = lkDown ∧ linkReason t p = r ∧ t.ram = s.ram
    let ent : Prop := s.entropyBad = false ∧ (blk s pgSec).injArm = false
    (linkState s p = lkDetect → (∃ t, exec (.detectTimeout p) s = .next t ∧ down t 1) ∧
      ∃ t, exec (.partnerDetect p) s = .next t ∧ linkState t p = lkTrain ∧ regF t (pgPort p) 0x09C 31 16 = min 0xFFFF (regF s (pgPort p) 0x09C 31 16 + 1) ∧ OnlyPage s t (pgPort p)) ∧
    (linkState s p = lkDown → (cableReady s p = true → linkReason s p ∈ [0, 1, 7, 9] → ∃ t, exec (.detectRetry p) s = .next t ∧ linkState t p = lkDetect ∧ OnlyPage s t (pgPort p)) ∧
      (linkReason s p ∈ [2, 3, 4] → ∃ t, exec (.trainRetry p) s = .next t ∧ linkState t p = lkDetect ∧ OnlyPage s t (pgPort p))) ∧
    (linkState s p = lkTrain →
      (∀ l, l < 9 → (let bad := Nat.lor (rxBad s p) (2 ^ l)
        (4 ≤ 9 - popcount 9 bad → ∃ t, exec (.laneLockTimeout p l) s = .next t ∧ rxBad t p = bad ∧ linkState t p = lkTrain ∧ OnlyPage s t (pgPort p)) ∧
        (9 - popcount 9 bad < 4 → ∃ t, exec (.laneLockTimeout p l) s = .next t ∧ rxBad t p = bad ∧ down t (if (port s p).refail then 2 else 3)))) ∧
      (∀ enc cr bad, (let s1 := setRegF s (pgPort p) 0x084 17 9 bad
        (linkWidth s1 p = 0 → ∃ t, exec (.initFlit p enc cr bad) s = .next t ∧ down t (if (port s p).refail then 2 else 3)) ∧
        (linkWidth s1 p ≠ 0 → p ≠ 18 → enc ≠ encCfg s p → ∃ t, exec (.initFlit p enc cr bad) s = .next t ∧ down t 5) ∧
        (linkWidth s1 p ≠ 0 → (p = 18 ∨ enc = encCfg s p) → ent → ∃ t, exec (.initFlit p enc cr bad) s = .next t ∧ txBad t p = bad % 2 ^ 9 ∧
          regF t (pgPort p) 0x080 17 16 = linkWidth s1 p ∧ (port t p).credits = (List.range 4).map (fun v => min (cr.getD v 0) 128) ∧ (port t p).rxSeq = 0 ∧
          linkState t p = (if p = 18 then lkUp else if encCfg s p then lkKeyx else lkRoll))))) ∧
    (p < 18 → (∀ f, linkState s p = lkKeyx → f.seq = (port s p).rxSeq →
        (Config.keyxOk f.chain f.sig f.pub f.nonce = false → ∃ t, exec (.keyxFlit p f) s = .next t ∧ down t 4) ∧
        (Config.keyxOk f.chain f.sig f.pub f.nonce = true → (port s p).keyx ≠ none → ∃ t, exec (.keyxFlit p f) s = .next t ∧ linkState t p = lkRoll ∧ encOn t p = true ∧
          (port t p).txKey.isSome = true ∧ (port t p).rxKey.isSome = true ∧ (port t p).rxSeq = ((port s p).rxSeq + 1) % 4096)) ∧
      (linkState s p = lkKeyx → ∃ t, exec (.keyxTimeout p) s = .next t ∧ down t 4) ∧
      (linkState s p = lkUp → encOn s p = true → (port s p).keyx = none → ent → ∃ t, exec (.rekey p) s = .next t ∧ (port t p).keyx.isSome = true ∧ linkState t p = lkUp ∧
        (port t p).retry.length = (port s p).retry.length + 1 ∧ t.ram = s.ram)) ∧
    (linkState s p ≠ lkDown → linkState s p ≠ lkDetect → ∃ t, exec (.los p) s = .next t ∧ down t 7) ∧
    (linkState s p = lkUp → (∀ l, l < 9 → ∃ t, exec (.laneBad p l) s = .next t ∧ rxBad t p = Nat.lor (rxBad s p) (2 ^ l) ∧ linkState t p = lkRetrain ∧
        tget? t.cardDue (cardKey ctLanes p) = some (rxBad t p) ∧ t.ram = s.ram) ∧
      ∀ b, ∃ t, exec (.retrain p b) s = .next t ∧ linkState t p = lkRetrain ∧ txBad t p = Nat.lor (txBad s p) (b % 2 ^ 9) ∧ OnlyPage s t (pgPort p)) ∧
    (linkState s p = lkRetrain → (linkWidth s p ≠ 0 → (port s p).rekey = false → ∃ t, exec (.retrainDone p true) s = .next t ∧ linkState t p = lkUp ∧
        regF t (pgPort p) 0x080 17 16 = linkWidth s p ∧ t.ram = s.ram) ∧
      ∃ t, exec (.retrainDone p false) s = .next t ∧ linkState t p = lkTrain ∧ (port t p).txKey = none ∧ t.ram = s.ram) ∧
    (∀ l, ∃ t, exec (.lsymWindow p l) s = .next t ∧ (port t p).lsym = (List.range 9).map (fun i => min (l.getD i 0) 0xFFFF_FFFF) ∧ t.blks = s.blks ∧ t.ram = s.ram))

/-- For a port whose link is UP and whose page is in service or stopping, with no detector armed: a DATA flit that passes its
checks with the next sequence number is accepted; one with an FEC or CRC error counts and is not accepted, and the receiver
discards until the replay and has sent one NAK with the last number in order; one whose tag fails on an encrypted link means
DOWN with AUTH_FAIL; one ahead of the next number asks for a replay, one behind it changes no number. A header's
acknowledgement ends the flits up to it, its credits come back up to 128. An idle flit that is due carries the last number
received. A NAK is a replay of the flits after it; the eighth starts a fast retrain. -/
def Obligations.FlitsAreCheckedAndReplayed : Prop :=
  ∀ (s : State) (p : Nat), p < 19 → portLive s p = true → linkState s p = lkUp → (blk s (pgPort p)).injArm = false → (let x := port s p
    let asks (t : State) : Prop := (port t p).rxSeq = x.rxSeq ∧ (port t p).discard = true ∧ (x.discard = false → ∃ b, (port t p).out = x.out ++ [(.nak, b)] ∧ b.ack = (x.rxSeq + 4095) % 4096) ∧
      (x.discard = true → (port t p).out = x.out) ∧ t.ram = s.ram
    (∀ f, (f.fecOk = false → ∃ t, exec (.dataFlit p f) s = .next t ∧ asks t ∧ regF t (pgPort p) 0x090 15 0 = min 0xFFFF (regF s (pgPort p) 0x090 15 0 + 1)) ∧
      (f.fecOk = true → f.crcOk = false → ∃ t, exec (.dataFlit p f) s = .next t ∧ asks t ∧ regF t (pgPort p) 0x094 15 0 = min 0xFFFF (regF s (pgPort p) 0x094 15 0 + 1)) ∧
      (f.fecOk = true → f.crcOk = true → f.seq = x.rxSeq → encOn s p = false ∨ f.tagOk = true → ∃ t, exec (.dataFlit p f) s = .next t ∧ (port t p).rxSeq = (x.rxSeq + 1) % 4096 ∧
        (port t p).discard = false ∧ (port t p).out = x.out ∧ linkState t p = lkUp ∧ t.ram = s.ram) ∧
      (f.fecOk = true → f.crcOk = true → f.seq = x.rxSeq → encOn s p = true → f.tagOk = false → ∃ t, exec (.dataFlit p f) s = .next t ∧ linkState t p = lkDown ∧ linkReason t p = 6 ∧
        (port t p).rxSeq = x.rxSeq ∧ t.ram = s.ram) ∧
      (f.fecOk = true → f.crcOk = true → f.seq ≠ x.rxSeq → (seqAhead x f.seq = true → ∃ t, exec (.dataFlit p f) s = .next t ∧ asks t) ∧
        (seqAhead x f.seq = false → ∃ t, exec (.dataFlit p f) s = .next t ∧ (port t p).rxSeq = x.rxSeq ∧ (port t p).discard = x.discard ∧ (port t p).out = x.out ∧ t.ram = s.ram))) ∧
    (∀ ackv ack cvc cr, x.waitq = [] → ∃ t, exec (.idleFlit p ackv ack cvc cr) s = .next t ∧ (port t p).credits = lset x.credits (cvc % 4) (min (x.credits.getD (cvc % 4) 0 + cr) 128) ∧
      (port t p).retry = (if ackv = true ∧ (x.retry.any (fun f => f.seq == ack)) = true then (x.retry.dropWhile (fun f => f.seq ≠ ack)).drop 1 else x.retry) ∧ (port t p).rxSeq = x.rxSeq ∧
      t.blks = s.blks ∧ t.ram = s.ram) ∧
    (∃ t b, exec (.idleFlitDue p) s = .next t ∧ (port t p).out = x.out ++ [(.idle, b)] ∧ b.ack = (x.rxSeq + 4095) % 4096 ∧ b.credits ≤ x.freed.getD b.cvc 0 ∧ b.credits ≤ 255 ∧
      (∀ v, v < 4 → 0 < x.freed.getD v 0 → 0 < b.credits) ∧ (port t p).retry = x.retry ∧ t.blks = s.blks ∧ t.ram = s.ram) ∧
    (∀ ack, x.waitq = [] → (ackFlits x ack).retry ≠ [] → ((ackFlits x ack).replays + 1 < 8 → ∃ t, exec (.nak p ack) s = .next t ∧ (port t p).retry = (ackFlits x ack).retry ∧
        (port t p).replays = (ackFlits x ack).replays + 1 ∧ linkState t p = lkUp ∧ t.ram = s.ram) ∧
      (8 ≤ (ackFlits x ack).replays + 1 → ∃ t, exec (.nak p ack) s = .next t ∧ (port t p).retry = (ackFlits x ack).retry ∧ linkState t p = lkRetrain ∧ t.ram = s.ram)))

/-- A packet that arrives here from a device that lives: one of a space that is not imported changes no memory, counts, sets bit
11 and is answered REFUSED; a second copy of one that has landed changes no memory and is answered DUP. One admitted to a
line of this device that is neither held nor fenced, with room to land, is performed and answered DONE: a WRITE changes
exactly its bytes, a SIGNAL adds and saturates, an ATOMIC of one lane leaves the kind's result, and each has landed; a READ
is answered with the line and its mark; a WATCH takes a number, and is answered unless it waits for an entry. An ANCHOR
waits, and once every serial before it has landed, one with no TXG and no counter is answered DONE. A NOTIFY ends its watch.
An answer ends its request by its status: DONE, REFUSED, BUSY to be sent again; DATA brings the bytes. While no host access
waits: a request handed back, or BUSY and due, goes out again; once its deadline is over it is late, and one handed back ends
REMOTE_LOST. An idle landing entry with no gap is freed. -/
def Obligations.PacketsLandAndAreAnswered : Prop :=
  ∀ (s s1 : State) (p pa : Nat) (k : Packet),
    (∀ c ∈ [(pkWrite, Instr.writePacket p k), (pkAtomic, .atomicPacket p k), (pkSignal, .signalPacket p k), (pkWatch, .watchPacket p k)], Arrives s p c.1 k → (c.1 = pkWatch → watchLate s k = false) →
      (landSt s k = .dup → ∃ t, exec c.2 s = .next t ∧ t.ram = s.ram ∧ Answers t k (fun a => a.sub = stDup)) ∧
      (landSt s k = .ok → imports s k.space = false → ∃ t, exec c.2 s = .next t ∧ t.ram = s.ram ∧ (blk t pgDev).errStat.getLsbD 11 = true ∧
        regF t pgDev 0x13C 15 0 = min 0xFFFF (regF s pgDev 0x13C 15 0 + 1) ∧ Answers t k (fun a => a.sub = stRefused))) ∧
    (let slot := spaceSlot s1 (portDie p) k.space
    let done (t : State) : Prop := HasLanded t k ∧ Answers t k (fun a => a.sub = stDone)
    (Arrives s p pkWrite k → landSt s k = .ok → k.txg = 0 → Admitted s s1 p k .write pa → ∃ t, exec (.writePacket p k) s = .next t ∧ done t ∧ LineHolds s1 t slot pa (pktBytes k)) ∧
    (Arrives s p pkSignal k → landSt s k = .ok → Admitted s s1 p k .rmw pa → pa % 8 = 0 → ∃ t, exec (.signalPacket p k) s = .next t ∧ done t ∧
      rdN t slot pa 8 = min (rdN s1 slot pa 8 + k.operand) (2 ^ 64 - 1) ∧ ∀ kk x, x / 128 ≠ pa / 128 → byteUnder t.ram kk x = byteUnder s1.ram kk x) ∧
    (∀ o a b, Arrives s p pkAtomic k → landSt s k = .ok → Admitted s s1 p k .rmw pa → k.data = [o, a, b] → (let kd := bits k.sub 3 0
      let n := atomSize kd
      let old := rdN s1 slot (lineBase pa + o) n
      o + n ≤ 128 → ∃ t, exec (.atomicPacket p k) s = .next t ∧ HasLanded t k ∧ Answers t k (fun x => x.sub = stDone ∧ (k.operand ≠ 0 → x.kind = pkData ∧ x.data = [old])) ∧
        rdN t slot (lineBase pa + o) n = atomApply kd old (a % 2 ^ (8 * n)) (b % 2 ^ (8 * n)) % 2 ^ (8 * n))) ∧
    (Arrives s p pkRead k → Admitted s s1 p k .read pa → Sound s1 → ∃ t, exec (.readPacket p k) s = .next t ∧
      Answers t k (fun a => a.kind = pkData ∧ a.sub = stDone ∧ a.data = readPhys s1 slot (lineBase pa) 128 ∧ a.mark = isMarked s1 pa) ∧ SameBytes s1 t) ∧
    (Arrives s p pkWatch k → landSt s k = .ok → Admitted s s1 p k .read pa → watchLate s k = false → watchKnown s1 k = false → (let b := bel s1 (homeDie pa)
      ∃ t, exec (.watchPacket p k) s = .next t ∧ HasLanded t k ∧ (bel t (homeDie pa)).nextId = b.nextId + 1 ∧ t.ram = s1.ram ∧
        (inService s1 (pgBel (homeDie pa)) = true → b.waitl = [] → b.abandoned pa = true ∨ b.entryFree k.space = true → done t)))) ∧
    (Arrives s p pkAnchor k → landSt s k = .ok → k.addr = 0 → imports s k.space = true → spaceState s (portDie p) k.space = 1 →
      (∀ a ∈ s.anchors, ¬(a.src = k.src ∧ a.stream = k.stream ∧ a.serial = k.serial)) →
      ∃ t, exec (.anchorPacket p k) s = .next t ∧ t.anchors = s.anchors ++ [{ k with sub := 0, mask := p }] ∧ t.landing = s.landing ∧ t.ram = s.ram) ∧
    (s.anchors.find? (fun a => a.src == k.src && a.stream == k.stream && a.serial == k.serial) = some k → isDead s k.src = false → k.txg = 0 → k.addr = 0 → anchorReady s k = true →
      ∃ t, exec (.anchorRelease k.src k.stream k.serial) s = .next t ∧ HasLanded t k ∧ Answers t k (fun a => a.sub = stDone) ∧
        (∀ a ∈ t.anchors, ¬(a.src = k.src ∧ a.stream = k.stream ∧ a.serial = k.serial)) ∧ t.ram = s.ram) ∧
    (∀ r, Arrives s p pkNotify k → (bel s (k.txg % 4)).remote.find? (fun r => r.1 == k.txg / 4 && gDev r.2.pa == k.src) = some r →
      ∃ t, exec (.notifyPacket p k) s = .next t ∧ (∀ x ∈ (bel t (k.txg % 4)).remote, x.1 ≠ k.txg / 4) ∧ t.ram = s.ram) ∧
    (∀ r : Req, (∀ d x, r.owner ≠ .watch d x) → r.mir = none → (∀ x ∈ s.reqs, x.id = r.id → x = r) → r ∈ s.reqs → r.id < s.nextReq → s.hostQ = [] → (let now (t : State) (P : Req → Prop) : Prop := ∀ x ∈ t.reqs, x.id = r.id → P x
      (Arrives s p pkAck k → answered s k = some r → (bits k.sub 7 0 = stDone → ∃ t, exec (.ackPacket p k) s = .next t ∧ now t (fun x => x.res = some rqDone) ∧ t.ram = s.ram) ∧
        (bits k.sub 7 0 = stRefused → ∃ t, exec (.ackPacket p k) s = .next t ∧ now t (fun x => x.res = some rqErr) ∧ t.ram = s.ram) ∧
        (bits k.sub 7 0 = stBusy → ∃ t, exec (.ackPacket p k) s = .next t ∧ now t (fun x => x.busy = true ∧ x.sent = false ∧ x.res = none) ∧ t.ram = s.ram)) ∧
      (Arrives s p pkData k → answered s k = some r → bits k.sub 7 0 = stDone → ∃ t, exec (.dataPacket p k) s = .next t ∧
        now t (fun x => x.res = some rqDone ∧ x.data = k.data ∧ x.marked = k.mark) ∧ t.ram = s.ram) ∧
      (r.busy = true → r.res = none → ∃ t, exec (.busyResend r.id) s = .next t ∧ now t (fun x => x.busy = false) ∧ t.ram = s.ram) ∧
      (r.handed = true → r.res = none → r.late = false → ∃ t, exec (.packetResend r.id) s = .next t ∧ now t (fun x => x.handed = false ∧ x.k.flags.testBit 3 = true) ∧ t.ram = s.ram) ∧
      (r.handed = true → r.res = none → ∃ t, exec (.resendDeadline r.id) s = .next t ∧ now t (fun x => x.res = some rqLost) ∧ t.ram = s.ram) ∧
      (r.handed = false → r.sent = true → r.res = none → ∃ t, exec (.resendDeadline r.id) s = .next t ∧ now t (fun x => x.late = true ∧ x.res = none) ∧ t.blks = s.blks))) ∧
    (∀ src str l, landing? s src str = some l → (l.noGap = true → ∃ t, exec (.landingExpire src str) s = .next t ∧ landing? t src str = none ∧ t.ram = s.ram) ∧
      (l.noGap = false → exec (.landingExpire src str) s = .next s))

/-- While no host access waits: a route table update, while the device-wide duties run, holds the alternates of its destination
and no other's; with none VALID, requests to it that someone waits for have ended. While those duties run: a roll call
quarantines a port for another major version, another digest or another neighbour (reasons 1 to 3); for a later epoch the
device becomes STALE; when all agrees the port is UP. The resync takes epoch and dead set. A LOSS of a device that lives
makes it dead and the epoch the greater of the next and the one told, with events; a JOIN of a dead one takes it out of the
set likewise. DEPART takes the port DOWN and its neighbour dead, as does a neighbour that is out of UP; a heartbeat goes out;
a partner that is silent is quarantined (4). A REDUCE packet of a collective that has started adds its elements in FP32 to
its line, a GATHER packet writes its line, each counts once at its command. -/
def Obligations.TheDomainKeepsItsMembers : Prop :=
  ∀ (s : State) (p : Nat), s.hostQ = [] → (∀ dst alts, dst < 4096 → devUp s = true → ∃ t, exec (.routeTableUpdate dst alts) s = .next t ∧ tget? t.route dst = some ((List.range 4).map (fun i => alts.getD i 0 % 2 ^ 32)) ∧
      (∀ d, d ≠ dst → tget? t.route d = tget? s.route d) ∧ t.ram = s.ram ∧ ((∀ i, i < 4 → (alts.getD i 0).testBit 31 = false) → ∀ r ∈ s.reqs, r.k.dst = dst → r.owner.idle = false → r.id < s.nextReq → (∀ y ∈ s.reqs, y.id = r.id → y = r) →
        ∀ x ∈ t.reqs, x.id = r.id → x.res ≠ none)) ∧
    (∀ r : RollCall, p < 18 → devUp s = true → portLive s p = true → linkState s p = lkRoll →
      (let quar (t : State) (n : Nat) : Prop := linkState t p = lkQuar ∧ regF t pgDev 0x114 p p = 1 ∧
          regF t pgDev (0x118 + 4 * (p / 8)) (4 * (p % 8) + 3) (4 * (p % 8)) = n ∧ (blk t pgDev).errStat.getLsbD 9 = true ∧ t.ram = s.ram
      (r.major ≠ regF s pgDev 0x104 15 8 → ∃ t, exec (.rollCall p r) s = .next t ∧ quar t 1) ∧
      (r.major = regF s pgDev 0x104 15 8 → r.digest ≠ myDigest s → ∃ t, exec (.rollCall p r) s = .next t ∧ quar t 2 ∧ { ring := 0, kind := 0xC, tag := r.dev, info := p + 256 * 2 } ∈ t.evq) ∧
      (∀ d q, r.major = regF s pgDev 0x104 15 8 → r.digest = myDigest s → farEnd s p = some (d, q) →
        (d ≠ r.dev ∨ q ≠ r.port → ∃ t, exec (.rollCall p r) s = .next t ∧ quar t 3) ∧
        (d = r.dev → q = r.port → (myEpoch s < r.epoch → ∃ t, exec (.rollCall p r) s = .next t ∧ t.resync = some (r.dev, r.epoch, r.dead) ∧ linkState t p = lkRoll ∧
            (blk t pgDev).errStat.getLsbD 10 = true) ∧
          (r.epoch = myEpoch s → r.deadSum = deadSum (myDead s) → ∃ t, exec (.rollCall p r) s = .next t ∧ linkState t p = lkUp ∧ regF t pgDev 0x114 p p = 0 ∧ t.ram = s.ram))))) ∧
    (∀ d e dead, s.resync = some (d, e, dead) → myDev s ∉ dead.map (· % 4096) → devUp s = true → ∃ t, exec (.staleResync p) s = .next t ∧ t.resync = none ∧ myEpoch t = e % 2 ^ 64 ∧
      (∀ x, x < 4096 → (isDead t x = true ↔ x ∈ dead.map (· % 4096))) ∧ t.ram = s.ram) ∧
    (p < 18 → portLive s p = true → linkState s p = lkUp →
      (∃ t b, exec (.heartbeat p) s = .next t ∧ (port t p).out = (port s p).out ++ [(.heartbeat, b)] ∧ t.blks = s.blks ∧ t.ram = s.ram) ∧ (devUp s = true →
      (∀ x e, x < 4096 → e < 2 ^ 64 → (isDead s x = false → ∃ t, exec (.loss p x e) s = .next t ∧ isDead t x = true ∧ myEpoch t = max (myEpoch s + 1) e % 2 ^ 64 ∧
          (∃ v, v ∈ t.evq ∧ v.kind = 0xA ∧ v.tag = x) ∧ (∃ v, v ∈ t.evq ∧ v.kind = 0xB) ∧ (∀ y, y ≠ x → isDead t y = isDead s y) ∧ t.ram = s.ram) ∧
        (isDead s x = true → e ≤ myEpoch s → exec (.loss p x e) s = .next s) ∧
        (isDead s x = true → ∃ t, exec (.joinNotice p x e) s = .next t ∧ isDead t x = false ∧ myEpoch t = max (myEpoch s + 1) e % 2 ^ 64 ∧ (∀ y, y ≠ x → isDead t y = isDead s y) ∧ t.ram = s.ram) ∧
        (isDead s x = false → e ≤ myEpoch s → exec (.joinNotice p x e) s = .next s)) ∧
      (∃ t, exec (.heartbeatTimeout p) s = .next t ∧ linkState t p = lkQuar ∧ (blk t pgDev).errStat.getLsbD 9 = true ∧ t.ram = s.ram) ∧
      (∀ d q, farEnd s p = some (d, q) → d < 4096 → ∃ t, exec (.depart p) s = .next t ∧ linkState t p = lkDown ∧ linkReason t p = 9 ∧ isDead t d = true ∧ t.ram = s.ram))) ∧
    (∀ d, devUp s = true → s.leftService = false → isDead s d = false → (∃ q, q < 18 ∧ ∃ z, farEnd s q = some (d, z)) → (∀ q z, q < 18 → farEnd s q = some (d, z) → linkState s q ≠ lkUp) →
      ∃ t, exec (.neighbourDead d) s = .next t ∧ isDead t d = true ∧ myEpoch t = (myEpoch s + 1) % 2 ^ 64 ∧ t.ram = s.ram) ∧
    (∀ (s1 : State) (k : Packet) (c : Cmd) (pa : Nat), (let i := bits k.operand 3 0
      imports s k.space = true → spaceState s (portDie p) k.space = 1 → landSt s k = .ok → collCmd s (bits k.txg 31 0) k.space = some c → c.ar 1 % 16 = bits k.operand 7 4 → c.ar 3 = bits k.txg 63 32 →
      i < c.ar 1 → c.ar (16 + i) = k.src → k.addr < c.ar 3 / 32 → (∃ o, translate s (agDie (portDie p)) (portDie p) k.space (c.ar 4 + 128 * k.addr) .rmw false = (.inr (.loc pa, o), s1)) →
      lineHeld s1 pa = false → (Arrives s p pkGather k → ∃ t, exec (.gatherPacket p k) s = .next t ∧ HasLanded t k ∧ Answers t k (fun a => a.sub = stDone) ∧
          (isFenced s1 pa = false → LineHolds s1 t (spaceSlot s1 (portDie p) k.space) pa ((List.range 128).map (fun j => (j, k.data.getD j 0)))) ∧ (cmd? t c.q c.serial).map (·.ar 6) = (cmd? s c.q c.serial).map (fun x => x.ar 6 + 1)) ∧
        (Arrives s p pkReduce k → ∃ t, exec (.reducePacket p k) s = .next t ∧ HasLanded t k ∧ Answers t k (fun a => a.sub = stDone) ∧
          t.ram.cells = (lineReduce s1 (spaceSlot s1 (portDie p) k.space) (lineBase pa) ((List.range 32).map (fun j => (j, k.data.getD j 0))) k.mark).ram.cells ∧
          (cmd? t c.q c.serial).map (·.ar 5) = (cmd? s c.q c.serial).map (fun x => x.ar 5 + 1))))

/-- With the host link READY and no older host access waiting, an access of the memory window with tag 0 while it is enabled,
whose lines lead to lines of this device that are neither held nor fenced (as in a copy): a write leaves its bytes there and
every other line as before, a read gives the bytes and whether a line is marked; with the window disabled nothing is written,
a read is all ones, the access counts and sets bit 9; a failed translation also sends WINDOW_FAULT; a tag other than 0 sets
bit 8. Enabling a ring reads its table entry and starts it at sequence 1, disabling ends it; RCONS moves what is consumed. An
event for a ring that is on and has room is written to its slot as R444 lays it out; for a disabled ring it is dropped and
counted; for a full one it waits, and goes first once there is room; with the store full it is dropped and EV_DROP shows.
Loss of the link leaves rings and waiting events; after its return the link is UP with empty buffers. On the sideband the
status and alert registers are read and alert bits cleared, link up or not; the SPDM requests of R511 are answered from the
step that verifies the firmware, while the device-wide duties run, one the device does not support with an error (codes of
SPDM 1.3: the model's, log entry 60). -/
def Obligations.TheHostSeesItsWindowsRingsAndSideband : Prop :=
  ∀ (s s1 : State) (off n : Nat) (data : List Nat), (hostReady s = true → hostBusy s = false → data.length = n → 0 < n → off + n ≤ 2 ^ 36 → (let space := regF s pgNhl 0x0C4 27 16
      let va := regF s pgNhl 0x0C0 31 21 * 2 ^ 21 + regF s pgNhl 0x0C4 15 0 * 2 ^ 32 + off
      let key := keyId s (spaceSlot s 0 space)
      let refused (t : State) (b : Nat) : Prop := (blk t pgNhl).errStat.getLsbD b = true ∧ regF t pgNhl 0x0DC 31 16 = min 0xFFFF (regF s pgNhl 0x0DC 31 16 + 1) ∧ t.ram = s.ram
      (∀ tag, tag ≠ 0 → ∀ w, ∃ t, exec (.memWindowAccess tag off w data) s = .next t ∧ refused t 8) ∧
      (regF s pgNhl 0x0C4 31 31 = 0 → (∃ t, exec (.memWindowAccess 0 off true data) s = .next t ∧ refused t 9) ∧
        ∃ t, exec (.memWindowAccess 0 off false data) s = .next t ∧ refused t 9 ∧ tget? t.bus 16 = some (2 ^ (8 * n) - 1)) ∧
      (∀ o, regF s pgNhl 0x0C4 31 31 = 1 → (o.fails ≠ [] → (∀ a c, o.fault = some (a, c) → translateRuns s (agDie 0) 0 space .read true [(va, n)] = (o, s1) →
          ∃ t, exec (.memWindowAccess 0 off false data) s = .next t ∧ (∃ e ∈ t.evq, e.kind = 5 ∧ e.value = off ∧ e.cont.isSome = true) ∧ tget? t.bus 16 = some (2 ^ (8 * n) - 1) ∧
            (blk t pgNhl).errStat.getLsbD 9 = true)) ∧
        (Sound s → Plain s o → (Apart s 0 space o → (∀ x ∈ data, x < 256) → translateRuns s (agDie 0) 0 space .write true [(va, n)] = (o, s1) →
            ∃ t, exec (.memWindowAccess 0 off true data) s = .next t ∧ (∀ i, i < n → byteUnder t.ram key (physAt o (va + i)) = data.getD i 0) ∧ OutsideSame s t o) ∧
          (translateRuns s (agDie 0) 0 space .read true [(va, n)] = (o, s1) → ∃ t, exec (.memWindowAccess 0 off false data) s = .next t ∧ SameBytes s t ∧
            tget? t.bus 16 = some (ofBytes ((rangeFrom va n).map (fun y => byteUnder s.ram key (physAt o y)))) ∧
            (Unmarked s o → tget? t.bus 17 = some 0)))))) ∧
    (∀ (p : Path) (tag v : Nat), Access s p tag → (blk s pgNhl).st.silent = false → v < 2 ^ 32 → (let r := v % 256
      (∀ o bs m, readVirt s (agDie 0) 0 0 (regPair s pgNhl 0x0C8 + 16 * r) 16 .read = ((o, .got bs m), s1) → 6 ≤ leAt4 bs 8 % 32 → leAt4 bs 8 % 32 ≤ 20 →
        ∃ t, exec (.ringEnable p tag v) s = .next t ∧ (ring t r).on = true ∧ (ring t r).base = leAt8 bs 0 ∧ (ring t r).size = leAt4 bs 8 % 32 ∧ (ring t r).written = 0 ∧
          (ring t r).consumed = 0 ∧ (∀ x, x ≠ r → ring t x = ring s1 x) ∧ t.ram = s1.ram) ∧
      (∃ t, exec (.ringDisable p tag v) s = .next t ∧ (ring t r).on = false ∧ (∀ x, x ≠ r → ring t x = ring s x) ∧ t.ram = s.ram ∧ t.host = s.host) ∧
      ∃ t, exec (.rconsWrite p tag v) s = .next t ∧ (ring t (v / 2 ^ 24)).consumed = v % 2 ^ 24 ∧ (ring t (v / 2 ^ 24)).on = (ring s (v / 2 ^ 24)).on ∧
        (∀ x, x ≠ v / 2 ^ 24 → ring t x = ring s x) ∧ t.ram = s.ram ∧ t.host = s.host)) ∧
    (∀ (e : Ev) (rest : List Ev), (let x := ring s e.ring
      let at_ (t : State) (k a n : Nat) : Nat := ofBytes ((rangeFrom (x.base + 32 * (k % 2 ^ x.size) + a) n).map (fun y => (tgetD t.host y 0).toNat))
      let written (t : State) : Prop := at_ t x.written 0 4 = (x.written + 1) % 2 ^ 32 ∧ at_ t x.written 4 2 = e.kind % 2 ^ 16 ∧
        at_ t x.written 6 1 = (if e.cont.isSome then 1 else 0) ∧ at_ t x.written 7 1 = 0 ∧ at_ t x.written 8 8 = e.tag % 2 ^ 64 ∧ at_ t x.written 16 8 = e.value % 2 ^ 64 ∧
        at_ t x.written 24 4 = e.info % 2 ^ 32 ∧ at_ t x.written 28 4 = x.dropped % 2 ^ 32 ∧ (∀ bs, e.cont = some bs → ∀ i, i < 32 → at_ t (x.written + 1) i 1 = bs.getD i 0 % 256) ∧
        (ring t e.ring).written = x.written + (if e.cont.isSome then 2 else 1) ∧ (ring t e.ring).dropped = 0 ∧ (∀ r, r ≠ e.ring → ring t r = ring s r) ∧ t.ram = s.ram
      (s.evpend = e :: rest → canPost s e = true → (∀ bs, e.cont = some bs → bs.length ≤ 32 ∧ 0 < x.size) → ∃ t, exec .eventPost s = .next t ∧ written t ∧ t.evpend = rest ∧ t.evq = s.evq) ∧
      (s.evq = e :: rest → nextPending s s.evpend [] = none → (x.on = false → ∃ t, exec .eventPost s = .next t ∧ t.evq = rest ∧ t.evpend = s.evpend ∧ t.host = s.host ∧
          (ring t e.ring).dropped = min 0xFFFF_FFFF (x.dropped + 1) ∧ regF t pgNhl 0x0DC 15 0 = min 0xFFFF (regF s pgNhl 0x0DC 15 0 + 1)) ∧
        (canPost s e = true → (∀ y ∈ s.evpend, y.ring ≠ e.ring) → (∀ bs, e.cont = some bs → bs.length ≤ 32 ∧ 0 < x.size) →
          ∃ t, exec .eventPost s = .next t ∧ written t ∧ t.evpend = s.evpend ∧ t.evq = rest) ∧
        (x.on = true → canPost s e = false → (s.evpend.length < 8192 → ∃ t, exec .eventPost s = .next t ∧ t.evpend = s.evpend ++ [e] ∧ t.evq = rest ∧ t.host = s.host ∧ t.rings = s.rings) ∧
          (8192 ≤ s.evpend.length → ∃ t, exec .eventPost s = .next t ∧ t.evpend = s.evpend ∧ t.host = s.host ∧ (ring t e.ring).dropped = min 0xFFFF_FFFF (x.dropped + 1) ∧
            (blk t pgNhl).errStat.getLsbD 10 = true ∧ regF t pgNhl 0x0E4 2 2 = 1))))) ∧
    (linkState s 18 = lkUp → ∃ t, exec .nhlLinkLoss s = .next t ∧ linkState t 18 = lkDown ∧ regF t pgNhl 0x080 15 8 = 7 ∧ t.rings = s.rings ∧ t.evpend = s.evpend ∧ t.cmds = s.cmds ∧
      t.tiles = s.tiles ∧ t.ram = s.ram) ∧
    (portOn s 18 = true → linkState s 18 = lkDown → linkWidth s 18 ≠ 0 → ∃ t, exec .nhlLinkReturn s = .next t ∧ linkState t 18 = lkUp ∧ regF t pgNhl 0x080 15 8 = 0 ∧
      regF t pgNhl 0x080 17 16 = linkWidth s 18 ∧ (port t 18).credits = [128, 128, 128, 128] ∧ (port t 18).retry = [] ∧ (port t 18).txSeq = 0 ∧ (port t 18).rxSeq = 0 ∧
      t.rings = s.rings ∧ t.evpend = s.evpend ∧ t.ram = s.ram) ∧
    (s.pwrGood = true → (∀ c a, ∃ t ans, exec (.mctpControl c a) s = .next t ∧ t.answers = s.answers ++ [ans] ∧ t.blks = s.blks ∧ t.ram = s.ram) ∧
      (∃ t, exec .vendorReadStatus s = .next t ∧ t.answers = s.answers ++ [[(regW s pgNhl 0x0E0).toNat, (regW s pgNhl 0x0E4).toNat]] ∧ t.blks = s.blks ∧ t.ram = s.ram) ∧
      (∀ m, ∃ t, exec (.vendorClearAlert m) s = .next t ∧ (∀ b, b < 32 → (regW t pgNhl 0x0E4).getLsbD b = ((regW s pgNhl 0x0E4).getLsbD b && !(b < 3 && m.testBit b))) ∧
        (∀ pg o, pg ≠ pgNhl ∨ o ≠ 0x0E4 → regW t pg o = regW s pg o) ∧ t.answers = s.answers ∧ t.ram = s.ram) ∧
      (s.verified = true → devUp s = true → (let tells (i : Instr) (a : List Nat) : Prop := ∃ t, exec i s = .next t ∧ t.answers = s.answers ++ [a] ∧ t.blks = s.blks ∧ t.ram = s.ram
          let chain := Config.certChain
          tells .getVersion [0x04, 0x13] ∧ tells .getCapabilities [0x61, 0x16] ∧ (∀ l, 1 ∈ l → 2 ∈ l → tells (.negotiateAlgorithms l) [0x63, 1, 2]) ∧
          tells .getDigests [0x01, 1, Config.sha384 chain] ∧ (∀ o l, o + l ≤ chain.length → tells (.getCertificate 0 o l) (0x02 :: 0 :: l :: (chain.length - o - l) :: (chain.drop o).take l)) ∧
          (∀ x, tells (.challenge 0 x) ([0x03, 0, Config.sha384 chain, x] ++ Config.sign [Config.sha384 chain, x])) ∧
          (∀ i x, 1 ≤ i → i ≤ 5 → tells (.getMeasurements i x) ([0x60, i, measurement s i, x] ++ Config.sign [i, measurement s i, x])) ∧
          ∀ c, tells (.spdmUnsupported c) [0x7F, 0x07, c])))

/-- While a cluster runs the duties of the tile's die: a tile in service that stands still has trigger HANG waiting. A trigger
that lets work be parked makes the tile STOPPING in mode PARK and brings its spare to IDLE; once its work is parked, the
logical number moves to the spare, MOVES rises, TILE_REPLACED tells it, and the old tile is FAILED, or RETIRED for triggers 1
and 5. A hang moves the number at once, abandons the workgroups and leaves the tile FAILED; with no spare the number is
unplaced and TILE_UNPLACED tells it. A tile back in SPARE takes the lowest unplaced number. A periodic self-test stops a tile
only while its die has a spare and no number is unplaced. With every point code observed, the minimum code is the lowest from
which all have a ratio of 0.95; 0x1F when code 20 lies below, with trigger WEAR. A slice whose tags are lost is FAILED and in
bypass. -/
def Obligations.SparesTakeOverFromTiles : Prop :=
  ∀ (s : State) (n : Nat), n < 176 → dutyUp s (n / 44) = true →
    (let pg := pgTile n
    let replaced (t : State) (l x trig : Nat) : Prop := physOf t l = some x ∧ tgetD t.moves l 0 = (tgetD s.moves l 0 + 1) % 65536 ∧
      { ring := 0, kind := 0x60, tag := l, value := placement n + 256 * placement x, info := trig } ∈ t.evq ∧ ∀ k, k ≠ l → physOf t k = physOf s k
    let gone (t : State) (l trig : Nat) : Prop := physOf t l = none ∧ { ring := 0, kind := 0x61, tag := l, value := placement n, info := trig } ∈ t.evq ∧ ∀ k, k ≠ l → physOf t k = physOf s k
    (inService s pg = true → readyGroups s n ≠ [] → ∃ t, exec (.tileHang n) s = .next t ∧ tget? t.guide.trigs n = some 4 ∧ t.tiles = s.tiles ∧ t.blks = s.blks ∧ t.ram = s.ram) ∧
    (∀ trig x, tget? s.guide.trigs n = some trig → trig ≠ 4 → tgRepl s n = none → (tileState s n).inService = true → (blk s pg).owner = none → spareFor s n = some x →
      ∃ t r, exec (.tileReplaceOrderly n) s = .next t ∧ tileState t n = .stopping ∧ regF t pg 0x08C 1 0 = 1 ∧ tileState t x = .idle ∧ tget? t.guide.trigs n = none ∧
        tgRepl t n = some r ∧ r.trig = trig ∧ r.spare = some x ∧ t.places = s.places) ∧
    (∀ r x, tgRepl s n = some r → r.st = .stopping → r.test = false → 1 ≤ r.trig → r.logical < 160 → r.spare = some x → x < 176 → x ≠ n → tileState s n = .stopping →
      (blk s pg).opRun = false → stopWork s pg = false → ∃ t, exec (.blockStopped pg) s = .next t ∧ replaced t r.logical x r.trig ∧
        tileState t n = (if r.trig = 1 ∨ r.trig = 5 then .retired else .failed)) ∧
    (∀ l, tget? s.guide.trigs n = some 4 → logOf s n = some l → tgRepl s n = none → (tileState s n).inService = true →
      (∀ x, spareFor s n = some x → ∃ t, exec (.tileReplaceAbrupt n) s = .next t ∧ replaced t l x 4 ∧ tileState t n = .failed ∧ tileState t x = .idle ∧ (tile t n).wgs = [] ∧ (tile t n).groups = []) ∧
      (spareFor s n = none → ∃ t, exec (.tileReplaceAbrupt n) s = .next t ∧ gone t l 4 ∧ tileState t n = .failed ∧ (tile t n).wgs = [] ∧ (tile t n).groups = [])) ∧
    (∀ l rest, logicalUnplaced s = l :: rest → tileState s n = .spare → ∃ t, exec (.tilePlace n) s = .next t ∧ physOf t l = some n ∧ tileState t n = .idle ∧
      { ring := 0, kind := 0x62, tag := l, value := 256 * placement n } ∈ t.evq ∧ (∀ k, k ≠ l → physOf t k = physOf s k) ∧ t.tiles = s.tiles ∧ t.ram = s.ram) ∧
    (inService s pg = true → (blk s pg).owner = none → tgRepl s n = none → logicalUnplaced s = [] →
      ((∃ x, x < 176 ∧ x / 44 = n / 44 ∧ tileState s x = .spare) → ∃ t r x, exec (.periodicSelftest n) s = .next t ∧ tileState t n = .stopping ∧ tgRepl t n = some r ∧ r.test = true ∧ r.trig = 7 ∧
        r.spare = some x ∧ tileState s x = .spare ∧ tileState t x = .idle) ∧
      ((∀ x, x < 176 → x / 44 = n / 44 → tileState s x ≠ .spare) → exec (.periodicSelftest n) s = .next s)) ∧
    (∀ rs, (tileState s n).inService = true → (∀ c, c < 21 → rs.getD c 0 ≠ 0) →
     (let worn (t : State) (c : Nat) : Prop := regF t pg 0x0C0 4 0 = c ∧ regF t pg 0x0C0 5 5 = (if 0 < c then 1 else 0) ∧
          regF t pg 0x0C0 31 16 = min 0xFFFF (rs.getD 20 0) ∧ (c ≠ regF s pg 0x0C0 4 0 → ∃ e ∈ t.evq, e.kind = 0x63 ∧ e.value = c) ∧ t.tiles = s.tiles ∧ t.ram = s.ram
      (∀ c, c < 21 → (∀ x, c ≤ x → x < 21 → 95 * 32768 ≤ 100 * rs.getD x 0) → (c = 0 ∨ 100 * rs.getD (c - 1) 0 < 95 * 32768) →
        ∃ t, exec (.wearJudge n rs) s = .next t ∧ worn t c ∧ t.guide = s.guide) ∧
      (100 * rs.getD 20 0 < 95 * 32768 → ∃ t, exec (.wearJudge n rs) s = .next t ∧ worn t 31 ∧ tget? t.guide.trigs n = some 5)))) ∧
    (∀ g, g < 128 → dutyUp s (g / 32) = true → (slice s g).bypass = false → (blk s (pgL2s g)).st.silent = false → ∃ t, exec (.sliceBypass g) s = .next t ∧ (slice t g).bypass = true ∧
      (slice t g).lines = [] ∧ (blk t (pgL2s g)).st = .failed ∧ (blk t (pgL2s g)).errStat.getLsbD 10 = true ∧ (∃ e ∈ t.evq, e.kind = 0x64 ∧ e.info = g / 32 + 256 * (g % 32)) ∧
      tget? t.cardDue (cardKey ctSlice (blkId (pgL2s g))) = some 1)

/-- A core of a cluster in service that fails is retired: the spare core takes its place, else the cluster has one core less, and
with fewer than three it fails; GUIDE_CORE tells it. A cluster that fails, or misses its heartbeat, reads FAILED; the next
one in service takes its duties and its stops, counts a takeover and sends GUIDE_TAKEOVER; with none left the device leaves
service. A heartbeat counts. When the oscillator in use fails and the other is good, that one is used and the ports that are
UP retrain; one that is not in use is only recorded; with both failed the device leaves service. A firmware update by a path
whose accesses work, on the page of the cluster with the device-wide duties and no operation running, of an image that R508
refuses ends FAILED at once and changes no release; elsewhere it sets REG_STATE. The end of the operation makes the other
bank active, with FW_UPDATE sent; a cluster that fails during it ends it, the active bank as before. -/
def Obligations.GuideClustersStayInService : Prop :=
  ∀ (s : State) (d : Nat), d < 4 → fwUp s = true → (let pg := pgGde d
    let handed (t : State) (c : Nat) : Prop := (blk t pg).st = .failed ∧ (∀ x, x < 4 → dutyOf t x = if dutyOf s x = d then c else dutyOf s x) ∧
      (∃ e ∈ t.evq, e.kind = 0x69 ∧ e.info = d + 4 * c + (if s.guide.dev = d then 16 else 0)) ∧ (blk t (pgGde c)).errStat.getLsbD 9 = true ∧
      regF t (pgGde c) 0x080 31 16 = (regF s (pgGde c) 0x080 31 16 + 1) % 65536 ∧ (∀ x, (blk t x).owner ≠ some (gcPath d)) ∧ t.ram = s.ram
    (clusterUp s d = true → (∀ core, core < 4 → (tgetD s.guide.coresBad d 0).testBit core = false →
       (let told (t : State) : Prop := (blk t pg).errStat.getLsbD 8 = true ∧
          { ring := 0, kind := 0x6A, info := d + 4 * core + 16 } ∈ t.evq ∧ (tgetD t.guide.coresBad d 0).testBit core = true
        (coreSpare s d = true → 3 ≤ coresUp s d → ∃ t, exec (.guideCoreFail d core) s = .next t ∧ told t ∧ coreSpare t d = false ∧ coresUp t d = coresUp s d ∧ (blk t pg).st = (blk s pg).st ∧ t.ram = s.ram) ∧
        (coreSpare s d = false → 4 ≤ coresUp s d → ∃ t, exec (.guideCoreFail d core) s = .next t ∧ told t ∧ coresUp t d = coresUp s d - 1 ∧ (blk t pg).st = (blk s pg).st ∧ t.ram = s.ram) ∧
        (coreSpare s d = false → coresUp s d ≤ 3 → 4 ≤ s.guide.duty.length → ∀ c, nextCluster s d = some c → ∃ t, exec (.guideCoreFail d core) s = .next t ∧ told t ∧ handed t c))) ∧
      (4 ≤ s.guide.duty.length → (∀ c, nextCluster s d = some c → ∃ t, exec (.guideTakeover d) s = .next t ∧ handed t c)) ∧
      (nextCluster s d = none → ∃ t, exec (.guideTakeover d) s = .next t ∧ t.leftService = true ∧ (blk t pg).st = .failed) ∧
      (∃ t, exec (.clusterHeartbeat d) s = .next t ∧ tgetD t.guide.beats d 0 = tgetD s.guide.beats d 0 + 1 ∧ t.ram = s.ram ∧ ((blk s pg).injArm = false → t.blks = s.blks) ∧
        ((blk s pg).injArm = true → (blk s pg).injSel = 1 → (blk t pg).errStat.getLsbD 8 = true))) ∧
    (devUp s = true → s.guide.osc < 2 → s.guide.oscBad = 0 →
     (let cur := s.guide.osc
      (∃ t, exec (.oscCompare (cur == 0) (cur == 1)) s = .next t ∧ t.guide.osc = 1 - cur ∧ t.guide.oscBad = 2 ^ cur ∧ (∃ e ∈ t.evq, e.kind = 0x67 ∧ e.info = 1 - cur) ∧
        (∀ p, p < 19 → linkState s p = lkUp → linkState t p = lkRetrain) ∧ t.leftService = s.leftService ∧ t.ram = s.ram) ∧
      (∃ t, exec (.oscCompare (cur == 1) (cur == 0)) s = .next t ∧ t.guide.osc = cur ∧ t.guide.oscBad = 2 ^ (1 - cur) ∧ t.evq = s.evq ∧ t.blks = s.blks ∧ t.ram = s.ram) ∧
      (∃ t, exec (.oscCompare true true) s = .next t ∧ t.leftService = true ∧ t.guide.oscBad = 3) ∧
      exec (.oscCompare false false) s = .next s)) ∧
    (∀ p tag v, Access s p tag → (blk s pg).st.silent = false → (s.guide.dev ≠ d ∨ (blk s pg).opRun = true → ∃ t, exec (.fwUpdate p tag d v) s = .next t ∧
        (blk t pg).errStat.getLsbD 3 = true ∧ (blk t pg).opRun = (blk s pg).opRun ∧ t.flash = s.flash) ∧
      (s.guide.dev = d → (blk s pg).opRun = false → inService s pg = true →
       (let refuses : Bool := (regF s pgSec 0x080 3 0).testBit (Config.image s.fresh 3) || decide (Config.image s.fresh 6 < regF s pgSec 0x084 6 0)
        (refuses = true → ∃ t, exec (.fwUpdate p tag d v) s = .next t ∧ (blk t pg).opRun = false ∧ (blk t pg).progRes = 2 ∧ t.flash = s.flash ∧ (∃ e ∈ t.evq, e.kind = 0x6C ∧ e.info = 1)) ∧
        (imageOk s s.fresh = true → refuses = false ∧ ∃ t, exec (.fwUpdate p tag d v) s = .next t ∧ (blk t pg).opRun = true ∧ t.flash.active = s.flash.active ∧
          tget? t.flash.rels (1 - s.flash.active) = some (Config.image s.fresh 5 % 65536))))) ∧
    ((blk s pg).opRun = true → ∃ t, exec (.longOpEnd pg 1) s = .next t ∧ (blk t pg).opRun = false ∧ (blk t pg).progRes = 1 ∧ t.flash.active = 1 - s.flash.active ∧ (∃ e ∈ t.evq, e.kind = 0x6C ∧ e.info = 0)) ∧
    ((blk s (pgGde s.guide.dev)).opRun = true → s.guide.dev < 4 → ∃ t, exec (.fwUpdateFail d) s = .next t ∧ (blk t (pgGde s.guide.dev)).opRun = false ∧ (blk t (pgGde s.guide.dev)).progRes = 2 ∧
      (blk t (pgGde s.guide.dev)).errStat.getLsbD 10 = true ∧ t.flash = s.flash ∧ (∃ e ∈ t.evq, e.kind = 0x6C ∧ e.info = 1) ∧ t.ram = s.ram))

/-- A path whose accesses work, the SEC page in service and no operation running: LOAD, GENERATE and CLEAR of a slot from 1 to
254 that no space names start KEY_OP (LOAD with two different halves, GENERATE with a generator that answers); else the
operation ends FAILED with its code, bit 8 set, the key data zeroed, no key changed. While one runs, another starts nothing.
The end of the operation with DONE leaves the two halves, a drawn key, or none in the slot, other slots as before, the key
data zeroed and code OK, and KEY_OP_DONE tells it. A failed health test refuses requests until a retest passes. A submitted
token that meets every check of R514 puts its rights in force, one that fails a check changes no right and counts; a new
nonce is drawn either way. END takes the rights back and disarms every detector. -/
def Obligations.KeysAndTokensAreChecked : Prop :=
  ∀ (s : State) (p : Path) (tag v : Nat), v < 1024 → (let slot := v % 256
    let zeroed (t : State) : Prop := ∀ i, i < 16 → regW t pgSec (0x0C0 + 4 * i) = 0
    let code (t : State) (c : Nat) : Prop := zeroed t ∧ regF t pgSec 0x088 23 16 = c ∧ { ring := 0, kind := 0xA5, value := slot, info := c } ∈ t.evq ∧ (blk t pgSec).opRun = false
    (Access s p tag → inService s pgSec = true → (let starts (i : Instr) (op : Nat) : Prop := ∃ t, exec i s = .next t ∧ (blk t pgSec).opRun = true ∧ (blk t pgSec).opArg = slot + 256 * op ∧ t.keys = s.keys ∧
          (∀ k, k < 16 → regW t pgSec (0x0C0 + 4 * k) = regW s pgSec (0x0C0 + 4 * k)) ∧ t.ram = s.ram
      let refused (i : Instr) (c : Nat) : Prop := ∃ t, exec i s = .next t ∧ code t c ∧ (blk t pgSec).progRes = 2 ∧ (blk t pgSec).errStat.getLsbD 8 = true ∧ t.keys = s.keys ∧ t.ram = s.ram
      ((blk s pgSec).opRun = false → (slot = 0 ∨ slot = 255 → refused (.keyLoad p tag v) 1 ∧ refused (.keyGenerate p tag v) 1 ∧ refused (.keyClear p tag v) 1) ∧
        (0 < slot → slot < 255 → (keyHalf s 0 = keyHalf s 1 → refused (.keyLoad p tag v) 2) ∧
          (slotInUse s slot = true → refused (.keyGenerate p tag v) 3 ∧ refused (.keyClear p tag v) 3 ∧ (keyHalf s 0 ≠ keyHalf s 1 → refused (.keyLoad p tag v) 3)) ∧
          (slotInUse s slot = false → starts (.keyClear p tag v) 2 ∧ (keyHalf s 0 ≠ keyHalf s 1 → starts (.keyLoad p tag v) 0) ∧
            (s.entropyBad = true → refused (.keyGenerate p tag v) 4) ∧ (s.entropyBad = false → starts (.keyGenerate p tag v) 1)))) ∧
      ((blk s pgSec).opRun = true → ∀ i ∈ [Instr.keyLoad p tag v, .keyGenerate p tag v, .keyClear p tag v], ∃ t, exec i s = .next t ∧ (blk t pgSec).errStat.getLsbD 8 = true ∧
        (blk t pgSec).opRun = true ∧ SameRegs s t pgSec ∧ t.keys = s.keys) ∧
      (∀ k : Nat, (let tk := tokenBytes s
          let sl := tk.getD 2 0
          let rt := tk.getD 1 0
          k % 4 = 1 → (tk.getD 0 0 ≠ 1 ∨ 8 ≤ rt ∨ leAt8 tk 0x10 ≠ regPair s pgSec 0x090 ∨ s.nonceUsed = true ∨ (regF s pgSec 0x080 3 0).testBit sl = true ∨ Config.verifies sl (tk.take 0x20) (tk.drop 0x20) = false →
              ∃ t, exec (.dbgSubmit p tag k) s = .next t ∧ rights t = rights s ∧ t.tokenSlot = s.tokenSlot ∧ regF t pgSec 0x09C 31 16 = min 0xFFFF (regF s pgSec 0x09C 31 16 + 1) ∧
                (blk t pgSec).errStat.getLsbD 9 = true ∧ t.ram = s.ram) ∧
            (tk.getD 0 0 = 1 → rt < 8 → sl < 4 → leAt tk 3 5 = 0 → leAt8 tk 8 = Config.idHash % 2 ^ 64 → leAt8 tk 0x10 = regPair s pgSec 0x090 → s.nonceUsed = false → leAt8 tk 0x18 = 0 →
              (regF s pgSec 0x080 11 8).testBit sl = true → (regF s pgSec 0x080 3 0).testBit sl = false → Config.verifies sl (tk.take 0x20) (tk.drop 0x20) = true →
              ∃ t, exec (.dbgSubmit p tag k) s = .next t ∧ rights t = rt ∧ t.tokenSlot = sl + 1 ∧ { ring := 0, kind := 0xA1, value := rt, info := sl } ∈ t.evq ∧
                regF t pgSec 0x09C 31 16 = regF s pgSec 0x09C 31 16 ∧ t.ram = s.ram ∧ (rt % 2 = 0 → ∀ pg, (blk t pg).injArm = false) ∧
                (s.entropyBad = false → (blk s pgSec).injArm = false → t.nonceUsed = false)))) ∧
      (∀ k, k % 4 = 2 → s.tokenSlot ≠ 0 → ∃ t, exec (.dbgEnd p tag k) s = .next t ∧ rights t = 0 ∧ t.tokenSlot = 0 ∧ (∀ pg, (blk t pg).injArm = false) ∧
        { ring := 0, kind := 0xA2, value := rights s, info := 0 } ∈ t.evq ∧ t.tiles = s.tiles ∧ t.ram = s.ram))) ∧
    ((blk s pgSec).opRun = true → (blk s pgSec).opArg = v → 0 < slot → slot < 255 → slotInUse s slot = false → s.entropyBad = false → (blk s pgSec).injArm = false →
      (let ends (P : Option Nat → Prop) : Prop := ∃ t, exec (.longOpEnd pgSec 1) s = .next t ∧ code t 0 ∧ P (tget? t.keys slot) ∧ ∀ k, k ≠ slot → tget? t.keys k = tget? s.keys k
      (v / 256 = 0 → keyHalf s 0 ≠ keyHalf s 1 → ends (fun k => k = some (keyHalf s 0 + 2 ^ 256 * keyHalf s 1))) ∧ (v / 256 = 1 → ends (fun k => ∃ x, k = some x ∧ x < 2 ^ 512)) ∧
      (v / 256 = 2 → ends (fun k => k = none)))) ∧
    (powered s = true → (s.entropyBad = false → ∃ t, exec .entropyFail s = .next t ∧ t.entropyBad = true ∧ (blk t pgSec).errStat.getLsbD 10 = true ∧ (∃ e ∈ t.evq, e.kind = 0xA4) ∧ t.keys = s.keys ∧ t.ram = s.ram) ∧
      (s.entropyBad = true → exec (.keyGeneratorRetest false) s = .next s ∧ ((blk s pgSec).injArm = false → ∃ t, exec (.keyGeneratorRetest true) s = .next t ∧ t.entropyBad = false ∧ t.nonceUsed = false ∧
        rights t = rights s ∧ t.keys = s.keys ∧ t.ram = s.ram))))

/-- An error sets its bit and counts; the first unmasked one is held with its address, and each unmasked one is reported. A
trigger, by the pin when enabled or by FIRE, starts a wavefront unless one is spreading: SEQ, SOURCE and CAIRN tell it. A
block that joins and holds nothing latches its words and SEQ when the wavefront arrives, one that holds counts as missed, the
block's state and work stand. The oldest report becomes record n at its place in the log, BLK_ID, status, address and count
as R523 lays them out, the count cleared, LOGHEAD n. DBG_HALT without the right sets REG_STATE and stops nothing, with it
every resident workgroup of the logical tile that has not finished and is not parked stops with reason DEBUG. A debug read
without the right, or while one waits, sets REG_STATE; with it a read of a held line waits, else the line, its mark and OK,
UNMAPPED or NOT_LOCAL show; no byte changes. CLEAR zeroes the counters. -/
def Obligations.ErrorsTriggersAndHaltsAreRecorded : Prop :=
  ∀ (s : State), (∀ pg b a, b < 32 → (let t := errSet s pg b a
      (blk t pg).errStat.getLsbD b = true ∧ (blk t pg).errCnt = min 0xFFFF ((blk s pg).errCnt + 1) ∧ (blk t pg).st = (blk s pg).st ∧ t.ram = s.ram ∧
      ((blk s pg).errMask.getLsbD b = true → t.reports = s.reports ∧ (blk t pg).errValid = (blk s pg).errValid) ∧
      ((blk s pg).errMask.getLsbD b = false → (∃ r, t.reports = s.reports ++ [r] ∧ r.page = pg ∧ r.bit = b) ∧ ((blk s pg).unmasked = false → (blk s pg).errValid = false →
        (blk t pg).errValid = true ∧ (blk t pg).errBit = b ∧ (blk t pg).errAddr = a)))) ∧
    (let fires (i : Instr) (src : Nat) : Prop := ∃ t, exec i s = .next t ∧ t.wave = some [] ∧ regF t pgDbg 0x08C 15 0 = (regF s pgDbg 0x08C 15 0 + 1) % 65536 ∧ regF t pgDbg 0x08C 17 16 = src ∧
      t.trigOut = s.trigOut + 1 ∧ { ring := 0, kind := 0xC0, value := (regF s pgDbg 0x08C 15 0 + 1) % 65536, info := src } ∈ t.evq ∧ t.tiles = s.tiles ∧ t.ram = s.ram
    (fwUp s = true → (regF s pgDbg 0x080 0 0 = 1 → s.wave = none → fires .trigIn 0) ∧ (regF s pgDbg 0x080 0 0 = 0 ∨ s.wave ≠ none → exec .trigIn s = .next s)) ∧
    (∀ p tag v, Access s p tag → (blk s pgDbg).st.silent = false → (s.wave = none → fires (.dbgFire p tag v) 1) ∧
      (∀ l n, v % 256 = l → l < 160 → physOf s l = some n → (hasRight s rtHalt = false → ∃ t, exec (.dbgHalt p tag v) s = .next t ∧ (blk t pgDbg).errStat.getLsbD 3 = true ∧ t.tiles = s.tiles ∧ t.ram = s.ram) ∧
        (hasRight s rtHalt = true → ∃ t, exec (.dbgHalt p tag v) s = .next t ∧ (∀ w x, wg? s n w = some x → x.park = .none → ((tile s n).groupsOf w).all (fun g => g.2.stat == .finished) = false →
            ∃ y, wg? t n w = some y ∧ y.park = .draining ∧ y.parkReason = rDebug) ∧ { ring := 0, kind := 0xC2, tag := l, value := (haltable s n).length } ∈ t.evq ∧
          (∀ k, k ≠ n → tile t k = tile s k))) ∧
      (v < 2 ^ 28 → (let space := v / 2 ^ 16
        let va := regF s pgDbg 0x0A0 31 7 * 128 + 2 ^ 32 * (v % 2 ^ 16)
        let stat (t : State) : Nat := regF t pgDbg 0x0A8 1 0
        (hasRight s rtMemread = false ∨ dbgBusy s = true → ∃ t, exec (.dbgMemRead p tag v) s = .next t ∧ (blk t pgDbg).errStat.getLsbD 3 = true ∧ stat t = stat s ∧ t.ram = s.ram) ∧
        (hasRight s rtMemread = true → dbgBusy s = false → tget? (blk s pgDbg).pairStage (4096 + 0x0A0) = none → Sound s →
          (∀ c, (lookup s (agDie 0) 0 space va).1 = .inl c → ∃ t, exec (.dbgMemRead p tag v) s = .next t ∧ stat t = 2 ∧ SameBytes s t) ∧
          (∀ e, (lookup s (agDie 0) 0 space va).1 = .inr e → (∀ g, e.dest va = .rem g → ∃ t, exec (.dbgMemRead p tag v) s = .next t ∧ stat t = 3 ∧ SameBytes s t) ∧
            (∀ pa, (e.dest va = .loc pa ∨ ∃ g, e.dest va = .mir pa g) → (lineHeld s (lineBase pa) = true → ∃ t, exec (.dbgMemRead p tag v) s = .next t ∧ dbgBusy t = true ∧ SameBytes s t) ∧
              (lineHeld s (lineBase pa) = false → ∃ t, exec (.dbgMemRead p tag v) s = .next t ∧ stat t = 1 ∧ regF t pgDbg 0x0A8 2 2 = (if isMarked s (lineBase pa) then 1 else 0) ∧ SameBytes s t ∧
              ∀ k, k < 32 → (regW t pgDbg (0x100 + 4 * k)).toNat = rdN s (spaceSlot s 0 space) (lineBase pa + 4 * k) 4)))))) ∧
      (∀ n, n < 176 → (blk s (pgTile n)).st.silent = false → ∃ t, exec (.perfClear p tag n v) s = .next t ∧ (tile t n).perf = [] ∧ (tile t n).groups = (tile s n).groups ∧ (tile t n).wgs = (tile s n).wgs ∧
        regF t (pgTile n) 0x0CC 1 0 = v % 4 ∧ (∀ k, k ≠ n → tile t k = tile s k) ∧ t.ram = s.ram)) ∧
    (∀ pg i w, s.wave = some w → pageAt pg = some i → pg ≠ pgDbg → thas w pg = false → regF s pgDbg 0x080 3 3 = 0 → ∃ t, exec (.wavefrontArrive pg) s = .next t ∧ (∀ x, t.wave = some x → thas x pg = true) ∧
      (blk t pg).st = (blk s pg).st ∧ (blk t pg).regs = (blk s pg).regs ∧ t.tiles = s.tiles ∧ t.ram = s.ram ∧
      ((blk s pg).snapHeld = false → (blk s pg).snapJoin = true → (blk t pg).snapHeld = true ∧ (blk t pg).snapSeq = regF s pgDbg 0x08C 15 0 ∧ (blk t pg).snapWords.length = 8 ∧
        (blk t pg).snapWords.getD 0 0 = hdrN s .host pg 0x008 ∧ (blk t pg).snapWords.getD 1 0 = (blk s pg).errStat.toNat) ∧
      ((blk s pg).snapHeld = true → (blk t pg).snapWords = (blk s pg).snapWords ∧ (blk t pg).snapSeq = (blk s pg).snapSeq ∧ regF t pgDbg 0x08C 31 18 = min 0x3FFF (regF s pgDbg 0x08C 31 18 + 1)) ∧
      ((blk s pg).snapHeld = false → (blk s pg).snapJoin = false → blk t pg = blk s pg)) ∧
    (∀ r rest i o s1, s.reports = r :: rest → pageAt r.page = some i → dutyUp s i.die = true → (let a := regPair s pgDbg 0x090 + 64 * (s.records % 4096)
      let n := (s.records + 1) % 2 ^ 32
      let at_ (t : State) (x k : Nat) : Nat := ofBytes ((rangeFrom (a + x) k).map (fun y => byteUnder t.ram (keyId s (spaceSlot s 0 0)) (physAt o y)))
      translateRuns s (agDie 0) 0 0 .write false [(a, 64)] = (o, s1) → Plain s o → Apart s 0 0 o → Sound s → ∃ t, exec .errorLogWrite s = .next t ∧ t.reports = rest ∧ t.records = s.records + 1 ∧
        regW t pgDbg 0x098 = BitVec.ofNat 32 n ∧ (blk t r.page).errCnt = 0 ∧ OutsideSame s t o ∧ at_ t 0 4 = n ∧ at_ t 4 4 = blkId r.page % 2 ^ 32 ∧ at_ t 8 4 = r.stat % 2 ^ 32 ∧
        at_ t 12 1 = r.bit % 2 ^ 8 ∧ at_ t 16 8 = r.addr % 2 ^ 64 ∧ at_ t 24 8 = r.lic % 2 ^ 64 ∧ at_ t 32 4 = (blk s r.page).errCnt % 2 ^ 32 ∧ at_ t 36 4 = r.cairn % 2 ^ 32)))

/-- For every command and state, a step of the state with the command at the front of its queue is exec of the command on the
state with the queue's rest. On an empty queue the step performs what the host has asked and waits for no older access any
more; with nothing of that, it answers the same state (the model's choices, log entry 1). -/
def Obligations.StepRunsTheFrontCommand : Prop :=
  (∀ (c : Instr) (s : State) (cs : List Instr), step { s with pending := c :: cs } = exec c { s with pending := cs }) ∧ ∀ s : State, s.pending = [] → step s = .next (hostDrain s) ∧ (s.hostQ = [] → step s = .next s)

/-- At State.reset every block page is OFF, without owner, staged write or error, its registers at their reset values
(TILE_ISSUE.STARVE 0x100, PWR_CAP of part S 0x118, DBG_TRIG.PIN 1, as the tables give them); logical tile l lies where the
first power-up puts it; memory is in canonical form with nothing listed, and no command waits (memory and queue: the model's,
log entries 1 and 4). -/
def Obligations.ResetLeavesEverythingOff : Prop :=
  (∀ pg i, pageAt pg = some i → (blk State.reset pg).st = .off ∧ (blk State.reset pg).owner = none ∧ (blk State.reset pg).staged = [] ∧ (blk State.reset pg).errStat = 0 ∧
    ∀ o, regW State.reset pg o = resetWord false i.ty o) ∧
  (∀ n, n < 176 → regF State.reset (pgTile n) 0x088 9 0 = 0x100) ∧ regF State.reset pgPwr 0x080 8 0 = 0x118 ∧ regF State.reset pgDbg 0x080 0 0 = 1 ∧
  (∀ l, l < 160 → physOf State.reset l = some (44 * (l / 40) + l % 40 + l % 40 / 10) ∧ railOfTile ((physOf State.reset l).getD 0) < 16) ∧
  MemInv State.reset ∧ State.reset.ram.cells = [] ∧ State.reset.pending = []

/-- For every bundle whose slots that are present hold fields in range, the encoding lies in 128 bits, and its decoding with any
literal bundle gives the wait, the yield bit and every slot of the bundle: no bit of a field is dropped or lands in another
field, and a slot that is absent stays absent. -/
def Obligations.BundlesDecodeAsEncoded : Prop :=
  ∀ (b : Bundle) (lit : Nat), bundleFits b = true → encBundle b < 2 ^ 128 ∧ decBundle (encBundle b) lit = some { b with raw := encBundle b, lit := lit }

/-- From every state whose memory is in canonical form (addresses strictly rising, no byte listed that an unlisted address reads
as, marks and keys in order), and whose bytes written to the host are, a step that answers a next state leaves them so,
whatever command is at the front of the queue. That the form holds at reset is part of the statement on reset. -/
def Obligations.MemoryStaysCanonical : Prop :=
  ∀ (s t : State), MemInv s → step s = .next t → MemInv t

/-- For a fabric port that is UP, a NAK that acknowledges none of the flits still open, when the oldest of them has been replayed
seven times: RETRY_LIMIT is set and a fast retrain starts, with its RETRAIN flit sent; the flits stay to be sent again.
Before the eighth, the port stays UP and sets nothing. -/
def Obligations.EighthReplayRetrains : Prop :=
  ∀ (s : State) (p ack : Nat) (f : TxFlit) (rest : List TxFlit), p < 18 → portLive s p = true → linkState s p = lkUp → (port s p).retry = f :: rest →
    (∀ y ∈ (port s p).retry, y.seq ≠ ack) →
    ((port s p).replays = 7 → ∃ t, exec (.nak p ack) s = .next t ∧ (blk t (pgPort p)).errStat.getLsbD 11 = true ∧ linkState t p = lkRetrain ∧
      (∃ m b, (port t p).out = (port s p).out ++ [(.retrain m, b)]) ∧ (port t p).retry = f :: rest ∧ (∀ q, q ≠ p → port t q = port s q) ∧ t.ram = s.ram) ∧
    ((port s p).replays < 7 → (port s p).waitq = [] → ∃ t, exec (.nak p ack) s = .next t ∧ (blk t (pgPort p)).errStat = (blk s (pgPort p)).errStat ∧ linkState t p = lkUp ∧
      (port t p).replays = (port s p).replays + 1 ∧ (port t p).retry = f :: rest ∧ (∀ q, q ≠ p → port t q = port s q) ∧ t.ram = s.ram)

/-- For an ACTIVE queue of an engine in service, its context entry and space in order, whose descriptor lies in a line that is
not fenced: when the latch, as the engine reads it, minus CONSUMED modulo 2^32 exceeds 2^RSIZE, a fetch adds no command,
leaves CONSUMED, and the queue is in ERROR with LAST_ERR QERR_DOORBELL. -/
def Obligations.DoorbellBeyondTheRingStopsTheQueue : Prop :=
  ∀ (s : State) (q e l : Nat), q < 16384 → InLine s (qdAddr s q) 128 → qEng s q = some e → qState s q = 1 → inService s (pgEng e) = true →
    (ctxEntry s (qCtx s q)).testBit 31 = true → bits (ctxEntry s (qCtx s q)) 11 0 = qSpace s q → spaceState s (engDie e) (qSpace s q) = 1 →
    (let con := qdN s q 0x18 4
    let x := qlive s q
    (x.seen ≠ con ∧ l = x.seen) ∨ (x.seen = con ∧ x.pend = true ∧ l = x.latch) → 2 ^ bits (qdN s q 0x10 4) 4 0 < (l + 2 ^ 32 - con) % 2 ^ 32 →
    ∃ t, exec (.commandFetch q) s = .next t ∧ qState t q = 4 ∧ qdN t q 0x28 4 = csDoorbell ∧ qdN t q 0x18 4 = con ∧ qdN t q 0x2C 4 = (con + 1) % 2 ^ 32 ∧
      t.cmds.map (fun c => (c.q, c.serial)) = s.cmds.map (fun c => (c.q, c.serial)))
end

