-- ==== Sys2Proof/Laws/State.lean ====
section
/-!
SUPPORT. Each field of State after each named update.
-/
namespace Sys2Proof.Laws
open Sys2Proof.Machine

variable (s : State)

@[simp] theorem setBlk_pending (pg : Nat) (b : Blk) : (setBlk s pg b).pending = s.pending := rfl
@[simp] theorem setBlk_fresh (pg : Nat) (b : Blk) : (setBlk s pg b).fresh = s.fresh := rfl
@[simp] theorem setBlk_partE (pg : Nat) (b : Blk) : (setBlk s pg b).partE = s.partE := rfl
@[simp] theorem setBlk_booted (pg : Nat) (b : Blk) : (setBlk s pg b).booted = s.booted := rfl
@[simp] theorem setBlk_bus (pg : Nat) (b : Blk) : (setBlk s pg b).bus = s.bus := rfl
@[simp] theorem setBlk_reports (pg : Nat) (b : Blk) : (setBlk s pg b).reports = s.reports := rfl
@[simp] theorem setBlk_ram (pg : Nat) (b : Blk) : (setBlk s pg b).ram = s.ram := rfl
@[simp] theorem setBlk_host (pg : Nat) (b : Blk) : (setBlk s pg b).host = s.host := rfl
@[simp] theorem setBlk_rings (pg : Nat) (b : Blk) : (setBlk s pg b).rings = s.rings := rfl
@[simp] theorem setBlk_evpend (pg : Nat) (b : Blk) : (setBlk s pg b).evpend = s.evpend := rfl
@[simp] theorem setBlk_answers (pg : Nat) (b : Blk) : (setBlk s pg b).answers = s.answers := rfl
@[simp] theorem setBlk_pwrGood (pg : Nat) (b : Blk) : (setBlk s pg b).pwrGood = s.pwrGood := rfl
@[simp] theorem setBlk_resetLow (pg : Nat) (b : Blk) : (setBlk s pg b).resetLow = s.resetLow := rfl
@[simp] theorem setBlk_leftService (pg : Nat) (b : Blk) : (setBlk s pg b).leftService = s.leftService := rfl
@[simp] theorem setBlk_l2 (pg : Nat) (b : Blk) : (setBlk s pg b).l2 = s.l2 := rfl
@[simp] theorem setBlk_xcache (pg : Nat) (b : Blk) : (setBlk s pg b).xcache = s.xcache := rfl
@[simp] theorem setBlk_tiles (pg : Nat) (b : Blk) : (setBlk s pg b).tiles = s.tiles := rfl
@[simp] theorem setBlk_keyDue (pg : Nat) (b : Blk) : (setBlk s pg b).keyDue = s.keyDue := rfl
@[simp] theorem setBlk_resvs (pg : Nat) (b : Blk) : (setBlk s pg b).resvs = s.resvs := rfl
@[simp] theorem setBlk_served (pg : Nat) (b : Blk) : (setBlk s pg b).served = s.served := rfl
@[simp] theorem setBlk_ldrs (pg : Nat) (b : Blk) : (setBlk s pg b).ldrs = s.ldrs := rfl
@[simp] theorem setBlk_bels (pg : Nat) (b : Blk) : (setBlk s pg b).bels = s.bels := rfl
@[simp] theorem setBlk_txgs (pg : Nat) (b : Blk) : (setBlk s pg b).txgs = s.txgs := rfl
@[simp] theorem setBlk_stackTab (pg : Nat) (b : Blk) : (setBlk s pg b).stackTab = s.stackTab := rfl
@[simp] theorem setBlk_keys (pg : Nat) (b : Blk) : (setBlk s pg b).keys = s.keys := rfl
@[simp] theorem setBlk_verified (pg : Nat) (b : Blk) : (setBlk s pg b).verified = s.verified := rfl
@[simp] theorem setBlk_nonceUsed (pg : Nat) (b : Blk) : (setBlk s pg b).nonceUsed = s.nonceUsed := rfl
@[simp] theorem setBlk_tokenSlot (pg : Nat) (b : Blk) : (setBlk s pg b).tokenSlot = s.tokenSlot := rfl
@[simp] theorem setBlk_entropyBad (pg : Nat) (b : Blk) : (setBlk s pg b).entropyBad = s.entropyBad := rfl
@[simp] theorem setBlk_evq (pg : Nat) (b : Blk) : (setBlk s pg b).evq = s.evq := rfl
@[simp] theorem setBlk_reqs (pg : Nat) (b : Blk) : (setBlk s pg b).reqs = s.reqs := rfl
@[simp] theorem setBlk_nextReq (pg : Nat) (b : Blk) : (setBlk s pg b).nextReq = s.nextReq := rfl
@[simp] theorem setBlk_wave (pg : Nat) (b : Blk) : (setBlk s pg b).wave = s.wave := rfl
@[simp] theorem setBlk_trigOut (pg : Nat) (b : Blk) : (setBlk s pg b).trigOut = s.trigOut := rfl
@[simp] theorem setBlk_ports (pg : Nat) (b : Blk) : (setBlk s pg b).ports = s.ports := rfl
@[simp] theorem setBlk_card (pg : Nat) (b : Blk) : (setBlk s pg b).card = s.card := rfl
@[simp] theorem setBlk_cardDue (pg : Nat) (b : Blk) : (setBlk s pg b).cardDue = s.cardDue := rfl
@[simp] theorem setBlk_flash (pg : Nat) (b : Blk) : (setBlk s pg b).flash = s.flash := rfl
@[simp] theorem setBlk_startHeld (pg : Nat) (b : Blk) : (setBlk s pg b).startHeld = s.startHeld := rfl
@[simp] theorem setBlk_draining (pg : Nat) (b : Blk) : (setBlk s pg b).draining = s.draining := rfl
@[simp] theorem setBlk_places (pg : Nat) (b : Blk) : (setBlk s pg b).places = s.places := rfl
@[simp] theorem setBlk_moves (pg : Nat) (b : Blk) : (setBlk s pg b).moves = s.moves := rfl
@[simp] theorem setBlk_pwr (pg : Nat) (b : Blk) : (setBlk s pg b).pwr = s.pwr := rfl
@[simp] theorem setBlk_guide (pg : Nat) (b : Blk) : (setBlk s pg b).guide = s.guide := rfl
@[simp] theorem setBlk_cables (pg : Nat) (b : Blk) : (setBlk s pg b).cables = s.cables := rfl
@[simp] theorem setBlk_records (pg : Nat) (b : Blk) : (setBlk s pg b).records = s.records := rfl
@[simp] theorem setBlk_domMap (pg : Nat) (b : Blk) : (setBlk s pg b).domMap = s.domMap := rfl
@[simp] theorem setBlk_route (pg : Nat) (b : Blk) : (setBlk s pg b).route = s.route := rfl
@[simp] theorem setBlk_lastOrd (pg : Nat) (b : Blk) : (setBlk s pg b).lastOrd = s.lastOrd := rfl
@[simp] theorem setBlk_dead (pg : Nat) (b : Blk) : (setBlk s pg b).dead = s.dead := rfl
@[simp] theorem setBlk_runs (pg : Nat) (b : Blk) : (setBlk s pg b).runs = s.runs := rfl
@[simp] theorem setBlk_strErr (pg : Nat) (b : Blk) : (setBlk s pg b).strErr = s.strErr := rfl
@[simp] theorem setBlk_landing (pg : Nat) (b : Blk) : (setBlk s pg b).landing = s.landing := rfl
@[simp] theorem setBlk_collGone (pg : Nat) (b : Blk) : (setBlk s pg b).collGone = s.collGone := rfl
@[simp] theorem setBlk_anchors (pg : Nat) (b : Blk) : (setBlk s pg b).anchors = s.anchors := rfl
@[simp] theorem setBlk_heldPkts (pg : Nat) (b : Blk) : (setBlk s pg b).heldPkts = s.heldPkts := rfl
@[simp] theorem setBlk_hostQ (pg : Nat) (b : Blk) : (setBlk s pg b).hostQ = s.hostQ := rfl
@[simp] theorem setBlk_resync (pg : Nat) (b : Blk) : (setBlk s pg b).resync = s.resync := rfl
@[simp] theorem setBlk_mirLost (pg : Nat) (b : Blk) : (setBlk s pg b).mirLost = s.mirLost := rfl
@[simp] theorem setBlk_queues (pg : Nat) (b : Blk) : (setBlk s pg b).queues = s.queues := rfl
@[simp] theorem setBlk_engs (pg : Nat) (b : Blk) : (setBlk s pg b).engs = s.engs := rfl
@[simp] theorem setBlk_cmds (pg : Nat) (b : Blk) : (setBlk s pg b).cmds = s.cmds := rfl
@[simp] theorem setBlk_launches (pg : Nat) (b : Blk) : (setBlk s pg b).launches = s.launches := rfl

@[simp] theorem modBlk_pending (pg : Nat) (f : Blk → Blk) : (modBlk s pg f).pending = s.pending := rfl
@[simp] theorem modBlk_fresh (pg : Nat) (f : Blk → Blk) : (modBlk s pg f).fresh = s.fresh := rfl
@[simp] theorem modBlk_partE (pg : Nat) (f : Blk → Blk) : (modBlk s pg f).partE = s.partE := rfl
@[simp] theorem modBlk_booted (pg : Nat) (f : Blk → Blk) : (modBlk s pg f).booted = s.booted := rfl
@[simp] theorem modBlk_bus (pg : Nat) (f : Blk → Blk) : (modBlk s pg f).bus = s.bus := rfl
@[simp] theorem modBlk_reports (pg : Nat) (f : Blk → Blk) : (modBlk s pg f).reports = s.reports := rfl
@[simp] theorem modBlk_ram (pg : Nat) (f : Blk → Blk) : (modBlk s pg f).ram = s.ram := rfl
@[simp] theorem modBlk_host (pg : Nat) (f : Blk → Blk) : (modBlk s pg f).host = s.host := rfl
@[simp] theorem modBlk_rings (pg : Nat) (f : Blk → Blk) : (modBlk s pg f).rings = s.rings := rfl
@[simp] theorem modBlk_evpend (pg : Nat) (f : Blk → Blk) : (modBlk s pg f).evpend = s.evpend := rfl
@[simp] theorem modBlk_answers (pg : Nat) (f : Blk → Blk) : (modBlk s pg f).answers = s.answers := rfl
@[simp] theorem modBlk_pwrGood (pg : Nat) (f : Blk → Blk) : (modBlk s pg f).pwrGood = s.pwrGood := rfl
@[simp] theorem modBlk_resetLow (pg : Nat) (f : Blk → Blk) : (modBlk s pg f).resetLow = s.resetLow := rfl
@[simp] theorem modBlk_leftService (pg : Nat) (f : Blk → Blk) : (modBlk s pg f).leftService = s.leftService := rfl
@[simp] theorem modBlk_l2 (pg : Nat) (f : Blk → Blk) : (modBlk s pg f).l2 = s.l2 := rfl
@[simp] theorem modBlk_xcache (pg : Nat) (f : Blk → Blk) : (modBlk s pg f).xcache = s.xcache := rfl
@[simp] theorem modBlk_tiles (pg : Nat) (f : Blk → Blk) : (modBlk s pg f).tiles = s.tiles := rfl
@[simp] theorem modBlk_keyDue (pg : Nat) (f : Blk → Blk) : (modBlk s pg f).keyDue = s.keyDue := rfl
@[simp] theorem modBlk_resvs (pg : Nat) (f : Blk → Blk) : (modBlk s pg f).resvs = s.resvs := rfl
@[simp] theorem modBlk_served (pg : Nat) (f : Blk → Blk) : (modBlk s pg f).served = s.served := rfl
@[simp] theorem modBlk_ldrs (pg : Nat) (f : Blk → Blk) : (modBlk s pg f).ldrs = s.ldrs := rfl
@[simp] theorem modBlk_bels (pg : Nat) (f : Blk → Blk) : (modBlk s pg f).bels = s.bels := rfl
@[simp] theorem modBlk_txgs (pg : Nat) (f : Blk → Blk) : (modBlk s pg f).txgs = s.txgs := rfl
@[simp] theorem modBlk_stackTab (pg : Nat) (f : Blk → Blk) : (modBlk s pg f).stackTab = s.stackTab := rfl
@[simp] theorem modBlk_keys (pg : Nat) (f : Blk → Blk) : (modBlk s pg f).keys = s.keys := rfl
@[simp] theorem modBlk_verified (pg : Nat) (f : Blk → Blk) : (modBlk s pg f).verified = s.verified := rfl
@[simp] theorem modBlk_nonceUsed (pg : Nat) (f : Blk → Blk) : (modBlk s pg f).nonceUsed = s.nonceUsed := rfl
@[simp] theorem modBlk_tokenSlot (pg : Nat) (f : Blk → Blk) : (modBlk s pg f).tokenSlot = s.tokenSlot := rfl
@[simp] theorem modBlk_entropyBad (pg : Nat) (f : Blk → Blk) : (modBlk s pg f).entropyBad = s.entropyBad := rfl
@[simp] theorem modBlk_evq (pg : Nat) (f : Blk → Blk) : (modBlk s pg f).evq = s.evq := rfl
@[simp] theorem modBlk_reqs (pg : Nat) (f : Blk → Blk) : (modBlk s pg f).reqs = s.reqs := rfl
@[simp] theorem modBlk_nextReq (pg : Nat) (f : Blk → Blk) : (modBlk s pg f).nextReq = s.nextReq := rfl
@[simp] theorem modBlk_wave (pg : Nat) (f : Blk → Blk) : (modBlk s pg f).wave = s.wave := rfl
@[simp] theorem modBlk_trigOut (pg : Nat) (f : Blk → Blk) : (modBlk s pg f).trigOut = s.trigOut := rfl
@[simp] theorem modBlk_ports (pg : Nat) (f : Blk → Blk) : (modBlk s pg f).ports = s.ports := rfl
@[simp] theorem modBlk_card (pg : Nat) (f : Blk → Blk) : (modBlk s pg f).card = s.card := rfl
@[simp] theorem modBlk_cardDue (pg : Nat) (f : Blk → Blk) : (modBlk s pg f).cardDue = s.cardDue := rfl
@[simp] theorem modBlk_flash (pg : Nat) (f : Blk → Blk) : (modBlk s pg f).flash = s.flash := rfl
@[simp] theorem modBlk_startHeld (pg : Nat) (f : Blk → Blk) : (modBlk s pg f).startHeld = s.startHeld := rfl
@[simp] theorem modBlk_draining (pg : Nat) (f : Blk → Blk) : (modBlk s pg f).draining = s.draining := rfl
@[simp] theorem modBlk_places (pg : Nat) (f : Blk → Blk) : (modBlk s pg f).places = s.places := rfl
@[simp] theorem modBlk_moves (pg : Nat) (f : Blk → Blk) : (modBlk s pg f).moves = s.moves := rfl
@[simp] theorem modBlk_pwr (pg : Nat) (f : Blk → Blk) : (modBlk s pg f).pwr = s.pwr := rfl
@[simp] theorem modBlk_guide (pg : Nat) (f : Blk → Blk) : (modBlk s pg f).guide = s.guide := rfl
@[simp] theorem modBlk_cables (pg : Nat) (f : Blk → Blk) : (modBlk s pg f).cables = s.cables := rfl
@[simp] theorem modBlk_records (pg : Nat) (f : Blk → Blk) : (modBlk s pg f).records = s.records := rfl
@[simp] theorem modBlk_domMap (pg : Nat) (f : Blk → Blk) : (modBlk s pg f).domMap = s.domMap := rfl
@[simp] theorem modBlk_route (pg : Nat) (f : Blk → Blk) : (modBlk s pg f).route = s.route := rfl
@[simp] theorem modBlk_lastOrd (pg : Nat) (f : Blk → Blk) : (modBlk s pg f).lastOrd = s.lastOrd := rfl
@[simp] theorem modBlk_dead (pg : Nat) (f : Blk → Blk) : (modBlk s pg f).dead = s.dead := rfl
@[simp] theorem modBlk_runs (pg : Nat) (f : Blk → Blk) : (modBlk s pg f).runs = s.runs := rfl
@[simp] theorem modBlk_strErr (pg : Nat) (f : Blk → Blk) : (modBlk s pg f).strErr = s.strErr := rfl
@[simp] theorem modBlk_landing (pg : Nat) (f : Blk → Blk) : (modBlk s pg f).landing = s.landing := rfl
@[simp] theorem modBlk_collGone (pg : Nat) (f : Blk → Blk) : (modBlk s pg f).collGone = s.collGone := rfl
@[simp] theorem modBlk_anchors (pg : Nat) (f : Blk → Blk) : (modBlk s pg f).anchors = s.anchors := rfl
@[simp] theorem modBlk_heldPkts (pg : Nat) (f : Blk → Blk) : (modBlk s pg f).heldPkts = s.heldPkts := rfl
@[simp] theorem modBlk_hostQ (pg : Nat) (f : Blk → Blk) : (modBlk s pg f).hostQ = s.hostQ := rfl
@[simp] theorem modBlk_resync (pg : Nat) (f : Blk → Blk) : (modBlk s pg f).resync = s.resync := rfl
@[simp] theorem modBlk_mirLost (pg : Nat) (f : Blk → Blk) : (modBlk s pg f).mirLost = s.mirLost := rfl
@[simp] theorem modBlk_queues (pg : Nat) (f : Blk → Blk) : (modBlk s pg f).queues = s.queues := rfl
@[simp] theorem modBlk_engs (pg : Nat) (f : Blk → Blk) : (modBlk s pg f).engs = s.engs := rfl
@[simp] theorem modBlk_cmds (pg : Nat) (f : Blk → Blk) : (modBlk s pg f).cmds = s.cmds := rfl
@[simp] theorem modBlk_launches (pg : Nat) (f : Blk → Blk) : (modBlk s pg f).launches = s.launches := rfl

@[simp] theorem setReg_pending (pg off : Nat) (w : Word) : (setReg s pg off w).pending = s.pending := rfl
@[simp] theorem setReg_fresh (pg off : Nat) (w : Word) : (setReg s pg off w).fresh = s.fresh := rfl
@[simp] theorem setReg_partE (pg off : Nat) (w : Word) : (setReg s pg off w).partE = s.partE := rfl
@[simp] theorem setReg_booted (pg off : Nat) (w : Word) : (setReg s pg off w).booted = s.booted := rfl
@[simp] theorem setReg_bus (pg off : Nat) (w : Word) : (setReg s pg off w).bus = s.bus := rfl
@[simp] theorem setReg_reports (pg off : Nat) (w : Word) : (setReg s pg off w).reports = s.reports := rfl
@[simp] theorem setReg_ram (pg off : Nat) (w : Word) : (setReg s pg off w).ram = s.ram := rfl
@[simp] theorem setReg_host (pg off : Nat) (w : Word) : (setReg s pg off w).host = s.host := rfl
@[simp] theorem setReg_rings (pg off : Nat) (w : Word) : (setReg s pg off w).rings = s.rings := rfl
@[simp] theorem setReg_evpend (pg off : Nat) (w : Word) : (setReg s pg off w).evpend = s.evpend := rfl
@[simp] theorem setReg_answers (pg off : Nat) (w : Word) : (setReg s pg off w).answers = s.answers := rfl
@[simp] theorem setReg_pwrGood (pg off : Nat) (w : Word) : (setReg s pg off w).pwrGood = s.pwrGood := rfl
@[simp] theorem setReg_resetLow (pg off : Nat) (w : Word) : (setReg s pg off w).resetLow = s.resetLow := rfl
@[simp] theorem setReg_leftService (pg off : Nat) (w : Word) : (setReg s pg off w).leftService = s.leftService := rfl
@[simp] theorem setReg_l2 (pg off : Nat) (w : Word) : (setReg s pg off w).l2 = s.l2 := rfl
@[simp] theorem setReg_xcache (pg off : Nat) (w : Word) : (setReg s pg off w).xcache = s.xcache := rfl
@[simp] theorem setReg_tiles (pg off : Nat) (w : Word) : (setReg s pg off w).tiles = s.tiles := rfl
@[simp] theorem setReg_keyDue (pg off : Nat) (w : Word) : (setReg s pg off w).keyDue = s.keyDue := rfl
@[simp] theorem setReg_resvs (pg off : Nat) (w : Word) : (setReg s pg off w).resvs = s.resvs := rfl
@[simp] theorem setReg_served (pg off : Nat) (w : Word) : (setReg s pg off w).served = s.served := rfl
@[simp] theorem setReg_ldrs (pg off : Nat) (w : Word) : (setReg s pg off w).ldrs = s.ldrs := rfl
@[simp] theorem setReg_bels (pg off : Nat) (w : Word) : (setReg s pg off w).bels = s.bels := rfl
@[simp] theorem setReg_txgs (pg off : Nat) (w : Word) : (setReg s pg off w).txgs = s.txgs := rfl
@[simp] theorem setReg_stackTab (pg off : Nat) (w : Word) : (setReg s pg off w).stackTab = s.stackTab := rfl
@[simp] theorem setReg_keys (pg off : Nat) (w : Word) : (setReg s pg off w).keys = s.keys := rfl
@[simp] theorem setReg_verified (pg off : Nat) (w : Word) : (setReg s pg off w).verified = s.verified := rfl
@[simp] theorem setReg_nonceUsed (pg off : Nat) (w : Word) : (setReg s pg off w).nonceUsed = s.nonceUsed := rfl
@[simp] theorem setReg_tokenSlot (pg off : Nat) (w : Word) : (setReg s pg off w).tokenSlot = s.tokenSlot := rfl
@[simp] theorem setReg_entropyBad (pg off : Nat) (w : Word) : (setReg s pg off w).entropyBad = s.entropyBad := rfl
@[simp] theorem setReg_evq (pg off : Nat) (w : Word) : (setReg s pg off w).evq = s.evq := rfl
@[simp] theorem setReg_reqs (pg off : Nat) (w : Word) : (setReg s pg off w).reqs = s.reqs := rfl
@[simp] theorem setReg_nextReq (pg off : Nat) (w : Word) : (setReg s pg off w).nextReq = s.nextReq := rfl
@[simp] theorem setReg_wave (pg off : Nat) (w : Word) : (setReg s pg off w).wave = s.wave := rfl
@[simp] theorem setReg_trigOut (pg off : Nat) (w : Word) : (setReg s pg off w).trigOut = s.trigOut := rfl
@[simp] theorem setReg_ports (pg off : Nat) (w : Word) : (setReg s pg off w).ports = s.ports := rfl
@[simp] theorem setReg_card (pg off : Nat) (w : Word) : (setReg s pg off w).card = s.card := rfl
@[simp] theorem setReg_cardDue (pg off : Nat) (w : Word) : (setReg s pg off w).cardDue = s.cardDue := rfl
@[simp] theorem setReg_flash (pg off : Nat) (w : Word) : (setReg s pg off w).flash = s.flash := rfl
@[simp] theorem setReg_startHeld (pg off : Nat) (w : Word) : (setReg s pg off w).startHeld = s.startHeld := rfl
@[simp] theorem setReg_draining (pg off : Nat) (w : Word) : (setReg s pg off w).draining = s.draining := rfl
@[simp] theorem setReg_places (pg off : Nat) (w : Word) : (setReg s pg off w).places = s.places := rfl
@[simp] theorem setReg_moves (pg off : Nat) (w : Word) : (setReg s pg off w).moves = s.moves := rfl
@[simp] theorem setReg_pwr (pg off : Nat) (w : Word) : (setReg s pg off w).pwr = s.pwr := rfl
@[simp] theorem setReg_guide (pg off : Nat) (w : Word) : (setReg s pg off w).guide = s.guide := rfl
@[simp] theorem setReg_cables (pg off : Nat) (w : Word) : (setReg s pg off w).cables = s.cables := rfl
@[simp] theorem setReg_records (pg off : Nat) (w : Word) : (setReg s pg off w).records = s.records := rfl
@[simp] theorem setReg_domMap (pg off : Nat) (w : Word) : (setReg s pg off w).domMap = s.domMap := rfl
@[simp] theorem setReg_route (pg off : Nat) (w : Word) : (setReg s pg off w).route = s.route := rfl
@[simp] theorem setReg_lastOrd (pg off : Nat) (w : Word) : (setReg s pg off w).lastOrd = s.lastOrd := rfl
@[simp] theorem setReg_dead (pg off : Nat) (w : Word) : (setReg s pg off w).dead = s.dead := rfl
@[simp] theorem setReg_runs (pg off : Nat) (w : Word) : (setReg s pg off w).runs = s.runs := rfl
@[simp] theorem setReg_strErr (pg off : Nat) (w : Word) : (setReg s pg off w).strErr = s.strErr := rfl
@[simp] theorem setReg_landing (pg off : Nat) (w : Word) : (setReg s pg off w).landing = s.landing := rfl
@[simp] theorem setReg_collGone (pg off : Nat) (w : Word) : (setReg s pg off w).collGone = s.collGone := rfl
@[simp] theorem setReg_anchors (pg off : Nat) (w : Word) : (setReg s pg off w).anchors = s.anchors := rfl
@[simp] theorem setReg_heldPkts (pg off : Nat) (w : Word) : (setReg s pg off w).heldPkts = s.heldPkts := rfl
@[simp] theorem setReg_hostQ (pg off : Nat) (w : Word) : (setReg s pg off w).hostQ = s.hostQ := rfl
@[simp] theorem setReg_resync (pg off : Nat) (w : Word) : (setReg s pg off w).resync = s.resync := rfl
@[simp] theorem setReg_mirLost (pg off : Nat) (w : Word) : (setReg s pg off w).mirLost = s.mirLost := rfl
@[simp] theorem setReg_queues (pg off : Nat) (w : Word) : (setReg s pg off w).queues = s.queues := rfl
@[simp] theorem setReg_engs (pg off : Nat) (w : Word) : (setReg s pg off w).engs = s.engs := rfl
@[simp] theorem setReg_cmds (pg off : Nat) (w : Word) : (setReg s pg off w).cmds = s.cmds := rfl
@[simp] theorem setReg_launches (pg off : Nat) (w : Word) : (setReg s pg off w).launches = s.launches := rfl

@[simp] theorem setRegF_pending (pg off hi lo v : Nat) : (setRegF s pg off hi lo v).pending = s.pending := rfl
@[simp] theorem setRegF_fresh (pg off hi lo v : Nat) : (setRegF s pg off hi lo v).fresh = s.fresh := rfl
@[simp] theorem setRegF_partE (pg off hi lo v : Nat) : (setRegF s pg off hi lo v).partE = s.partE := rfl
@[simp] theorem setRegF_booted (pg off hi lo v : Nat) : (setRegF s pg off hi lo v).booted = s.booted := rfl
@[simp] theorem setRegF_bus (pg off hi lo v : Nat) : (setRegF s pg off hi lo v).bus = s.bus := rfl
@[simp] theorem setRegF_reports (pg off hi lo v : Nat) : (setRegF s pg off hi lo v).reports = s.reports := rfl
@[simp] theorem setRegF_ram (pg off hi lo v : Nat) : (setRegF s pg off hi lo v).ram = s.ram := rfl
@[simp] theorem setRegF_host (pg off hi lo v : Nat) : (setRegF s pg off hi lo v).host = s.host := rfl
@[simp] theorem setRegF_rings (pg off hi lo v : Nat) : (setRegF s pg off hi lo v).rings = s.rings := rfl
@[simp] theorem setRegF_evpend (pg off hi lo v : Nat) : (setRegF s pg off hi lo v).evpend = s.evpend := rfl
@[simp] theorem setRegF_answers (pg off hi lo v : Nat) : (setRegF s pg off hi lo v).answers = s.answers := rfl
@[simp] theorem setRegF_pwrGood (pg off hi lo v : Nat) : (setRegF s pg off hi lo v).pwrGood = s.pwrGood := rfl
@[simp] theorem setRegF_resetLow (pg off hi lo v : Nat) : (setRegF s pg off hi lo v).resetLow = s.resetLow := rfl
@[simp] theorem setRegF_leftService (pg off hi lo v : Nat) : (setRegF s pg off hi lo v).leftService = s.leftService := rfl
@[simp] theorem setRegF_l2 (pg off hi lo v : Nat) : (setRegF s pg off hi lo v).l2 = s.l2 := rfl
@[simp] theorem setRegF_xcache (pg off hi lo v : Nat) : (setRegF s pg off hi lo v).xcache = s.xcache := rfl
@[simp] theorem setRegF_tiles (pg off hi lo v : Nat) : (setRegF s pg off hi lo v).tiles = s.tiles := rfl
@[simp] theorem setRegF_keyDue (pg off hi lo v : Nat) : (setRegF s pg off hi lo v).keyDue = s.keyDue := rfl
@[simp] theorem setRegF_resvs (pg off hi lo v : Nat) : (setRegF s pg off hi lo v).resvs = s.resvs := rfl
@[simp] theorem setRegF_served (pg off hi lo v : Nat) : (setRegF s pg off hi lo v).served = s.served := rfl
@[simp] theorem setRegF_ldrs (pg off hi lo v : Nat) : (setRegF s pg off hi lo v).ldrs = s.ldrs := rfl
@[simp] theorem setRegF_bels (pg off hi lo v : Nat) : (setRegF s pg off hi lo v).bels = s.bels := rfl
@[simp] theorem setRegF_txgs (pg off hi lo v : Nat) : (setRegF s pg off hi lo v).txgs = s.txgs := rfl
@[simp] theorem setRegF_stackTab (pg off hi lo v : Nat) : (setRegF s pg off hi lo v).stackTab = s.stackTab := rfl
@[simp] theorem setRegF_keys (pg off hi lo v : Nat) : (setRegF s pg off hi lo v).keys = s.keys := rfl
@[simp] theorem setRegF_verified (pg off hi lo v : Nat) : (setRegF s pg off hi lo v).verified = s.verified := rfl
@[simp] theorem setRegF_nonceUsed (pg off hi lo v : Nat) : (setRegF s pg off hi lo v).nonceUsed = s.nonceUsed := rfl
@[simp] theorem setRegF_tokenSlot (pg off hi lo v : Nat) : (setRegF s pg off hi lo v).tokenSlot = s.tokenSlot := rfl
@[simp] theorem setRegF_entropyBad (pg off hi lo v : Nat) : (setRegF s pg off hi lo v).entropyBad = s.entropyBad := rfl
@[simp] theorem setRegF_evq (pg off hi lo v : Nat) : (setRegF s pg off hi lo v).evq = s.evq := rfl
@[simp] theorem setRegF_reqs (pg off hi lo v : Nat) : (setRegF s pg off hi lo v).reqs = s.reqs := rfl
@[simp] theorem setRegF_nextReq (pg off hi lo v : Nat) : (setRegF s pg off hi lo v).nextReq = s.nextReq := rfl
@[simp] theorem setRegF_wave (pg off hi lo v : Nat) : (setRegF s pg off hi lo v).wave = s.wave := rfl
@[simp] theorem setRegF_trigOut (pg off hi lo v : Nat) : (setRegF s pg off hi lo v).trigOut = s.trigOut := rfl
@[simp] theorem setRegF_ports (pg off hi lo v : Nat) : (setRegF s pg off hi lo v).ports = s.ports := rfl
@[simp] theorem setRegF_card (pg off hi lo v : Nat) : (setRegF s pg off hi lo v).card = s.card := rfl
@[simp] theorem setRegF_cardDue (pg off hi lo v : Nat) : (setRegF s pg off hi lo v).cardDue = s.cardDue := rfl
@[simp] theorem setRegF_flash (pg off hi lo v : Nat) : (setRegF s pg off hi lo v).flash = s.flash := rfl
@[simp] theorem setRegF_startHeld (pg off hi lo v : Nat) : (setRegF s pg off hi lo v).startHeld = s.startHeld := rfl
@[simp] theorem setRegF_draining (pg off hi lo v : Nat) : (setRegF s pg off hi lo v).draining = s.draining := rfl
@[simp] theorem setRegF_places (pg off hi lo v : Nat) : (setRegF s pg off hi lo v).places = s.places := rfl
@[simp] theorem setRegF_moves (pg off hi lo v : Nat) : (setRegF s pg off hi lo v).moves = s.moves := rfl
@[simp] theorem setRegF_pwr (pg off hi lo v : Nat) : (setRegF s pg off hi lo v).pwr = s.pwr := rfl
@[simp] theorem setRegF_guide (pg off hi lo v : Nat) : (setRegF s pg off hi lo v).guide = s.guide := rfl
@[simp] theorem setRegF_cables (pg off hi lo v : Nat) : (setRegF s pg off hi lo v).cables = s.cables := rfl
@[simp] theorem setRegF_records (pg off hi lo v : Nat) : (setRegF s pg off hi lo v).records = s.records := rfl
@[simp] theorem setRegF_domMap (pg off hi lo v : Nat) : (setRegF s pg off hi lo v).domMap = s.domMap := rfl
@[simp] theorem setRegF_route (pg off hi lo v : Nat) : (setRegF s pg off hi lo v).route = s.route := rfl
@[simp] theorem setRegF_lastOrd (pg off hi lo v : Nat) : (setRegF s pg off hi lo v).lastOrd = s.lastOrd := rfl
@[simp] theorem setRegF_dead (pg off hi lo v : Nat) : (setRegF s pg off hi lo v).dead = s.dead := rfl
@[simp] theorem setRegF_runs (pg off hi lo v : Nat) : (setRegF s pg off hi lo v).runs = s.runs := rfl
@[simp] theorem setRegF_strErr (pg off hi lo v : Nat) : (setRegF s pg off hi lo v).strErr = s.strErr := rfl
@[simp] theorem setRegF_landing (pg off hi lo v : Nat) : (setRegF s pg off hi lo v).landing = s.landing := rfl
@[simp] theorem setRegF_collGone (pg off hi lo v : Nat) : (setRegF s pg off hi lo v).collGone = s.collGone := rfl
@[simp] theorem setRegF_anchors (pg off hi lo v : Nat) : (setRegF s pg off hi lo v).anchors = s.anchors := rfl
@[simp] theorem setRegF_heldPkts (pg off hi lo v : Nat) : (setRegF s pg off hi lo v).heldPkts = s.heldPkts := rfl
@[simp] theorem setRegF_hostQ (pg off hi lo v : Nat) : (setRegF s pg off hi lo v).hostQ = s.hostQ := rfl
@[simp] theorem setRegF_resync (pg off hi lo v : Nat) : (setRegF s pg off hi lo v).resync = s.resync := rfl
@[simp] theorem setRegF_mirLost (pg off hi lo v : Nat) : (setRegF s pg off hi lo v).mirLost = s.mirLost := rfl
@[simp] theorem setRegF_queues (pg off hi lo v : Nat) : (setRegF s pg off hi lo v).queues = s.queues := rfl
@[simp] theorem setRegF_engs (pg off hi lo v : Nat) : (setRegF s pg off hi lo v).engs = s.engs := rfl
@[simp] theorem setRegF_cmds (pg off hi lo v : Nat) : (setRegF s pg off hi lo v).cmds = s.cmds := rfl
@[simp] theorem setRegF_launches (pg off hi lo v : Nat) : (setRegF s pg off hi lo v).launches = s.launches := rfl

@[simp] theorem bumpF_pending (pg off hi lo k : Nat) : (bumpF s pg off hi lo k).pending = s.pending := rfl
@[simp] theorem bumpF_fresh (pg off hi lo k : Nat) : (bumpF s pg off hi lo k).fresh = s.fresh := rfl
@[simp] theorem bumpF_partE (pg off hi lo k : Nat) : (bumpF s pg off hi lo k).partE = s.partE := rfl
@[simp] theorem bumpF_booted (pg off hi lo k : Nat) : (bumpF s pg off hi lo k).booted = s.booted := rfl
@[simp] theorem bumpF_bus (pg off hi lo k : Nat) : (bumpF s pg off hi lo k).bus = s.bus := rfl
@[simp] theorem bumpF_reports (pg off hi lo k : Nat) : (bumpF s pg off hi lo k).reports = s.reports := rfl
@[simp] theorem bumpF_ram (pg off hi lo k : Nat) : (bumpF s pg off hi lo k).ram = s.ram := rfl
@[simp] theorem bumpF_host (pg off hi lo k : Nat) : (bumpF s pg off hi lo k).host = s.host := rfl
@[simp] theorem bumpF_rings (pg off hi lo k : Nat) : (bumpF s pg off hi lo k).rings = s.rings := rfl
@[simp] theorem bumpF_evpend (pg off hi lo k : Nat) : (bumpF s pg off hi lo k).evpend = s.evpend := rfl
@[simp] theorem bumpF_answers (pg off hi lo k : Nat) : (bumpF s pg off hi lo k).answers = s.answers := rfl
@[simp] theorem bumpF_pwrGood (pg off hi lo k : Nat) : (bumpF s pg off hi lo k).pwrGood = s.pwrGood := rfl
@[simp] theorem bumpF_resetLow (pg off hi lo k : Nat) : (bumpF s pg off hi lo k).resetLow = s.resetLow := rfl
@[simp] theorem bumpF_leftService (pg off hi lo k : Nat) : (bumpF s pg off hi lo k).leftService = s.leftService := rfl
@[simp] theorem bumpF_l2 (pg off hi lo k : Nat) : (bumpF s pg off hi lo k).l2 = s.l2 := rfl
@[simp] theorem bumpF_xcache (pg off hi lo k : Nat) : (bumpF s pg off hi lo k).xcache = s.xcache := rfl
@[simp] theorem bumpF_tiles (pg off hi lo k : Nat) : (bumpF s pg off hi lo k).tiles = s.tiles := rfl
@[simp] theorem bumpF_keyDue (pg off hi lo k : Nat) : (bumpF s pg off hi lo k).keyDue = s.keyDue := rfl
@[simp] theorem bumpF_resvs (pg off hi lo k : Nat) : (bumpF s pg off hi lo k).resvs = s.resvs := rfl
@[simp] theorem bumpF_served (pg off hi lo k : Nat) : (bumpF s pg off hi lo k).served = s.served := rfl
@[simp] theorem bumpF_ldrs (pg off hi lo k : Nat) : (bumpF s pg off hi lo k).ldrs = s.ldrs := rfl
@[simp] theorem bumpF_bels (pg off hi lo k : Nat) : (bumpF s pg off hi lo k).bels = s.bels := rfl
@[simp] theorem bumpF_txgs (pg off hi lo k : Nat) : (bumpF s pg off hi lo k).txgs = s.txgs := rfl
@[simp] theorem bumpF_stackTab (pg off hi lo k : Nat) : (bumpF s pg off hi lo k).stackTab = s.stackTab := rfl
@[simp] theorem bumpF_keys (pg off hi lo k : Nat) : (bumpF s pg off hi lo k).keys = s.keys := rfl
@[simp] theorem bumpF_verified (pg off hi lo k : Nat) : (bumpF s pg off hi lo k).verified = s.verified := rfl
@[simp] theorem bumpF_nonceUsed (pg off hi lo k : Nat) : (bumpF s pg off hi lo k).nonceUsed = s.nonceUsed := rfl
@[simp] theorem bumpF_tokenSlot (pg off hi lo k : Nat) : (bumpF s pg off hi lo k).tokenSlot = s.tokenSlot := rfl
@[simp] theorem bumpF_entropyBad (pg off hi lo k : Nat) : (bumpF s pg off hi lo k).entropyBad = s.entropyBad := rfl
@[simp] theorem bumpF_evq (pg off hi lo k : Nat) : (bumpF s pg off hi lo k).evq = s.evq := rfl
@[simp] theorem bumpF_reqs (pg off hi lo k : Nat) : (bumpF s pg off hi lo k).reqs = s.reqs := rfl
@[simp] theorem bumpF_nextReq (pg off hi lo k : Nat) : (bumpF s pg off hi lo k).nextReq = s.nextReq := rfl
@[simp] theorem bumpF_wave (pg off hi lo k : Nat) : (bumpF s pg off hi lo k).wave = s.wave := rfl
@[simp] theorem bumpF_trigOut (pg off hi lo k : Nat) : (bumpF s pg off hi lo k).trigOut = s.trigOut := rfl
@[simp] theorem bumpF_ports (pg off hi lo k : Nat) : (bumpF s pg off hi lo k).ports = s.ports := rfl
@[simp] theorem bumpF_card (pg off hi lo k : Nat) : (bumpF s pg off hi lo k).card = s.card := rfl
@[simp] theorem bumpF_cardDue (pg off hi lo k : Nat) : (bumpF s pg off hi lo k).cardDue = s.cardDue := rfl
@[simp] theorem bumpF_flash (pg off hi lo k : Nat) : (bumpF s pg off hi lo k).flash = s.flash := rfl
@[simp] theorem bumpF_startHeld (pg off hi lo k : Nat) : (bumpF s pg off hi lo k).startHeld = s.startHeld := rfl
@[simp] theorem bumpF_draining (pg off hi lo k : Nat) : (bumpF s pg off hi lo k).draining = s.draining := rfl
@[simp] theorem bumpF_places (pg off hi lo k : Nat) : (bumpF s pg off hi lo k).places = s.places := rfl
@[simp] theorem bumpF_moves (pg off hi lo k : Nat) : (bumpF s pg off hi lo k).moves = s.moves := rfl
@[simp] theorem bumpF_pwr (pg off hi lo k : Nat) : (bumpF s pg off hi lo k).pwr = s.pwr := rfl
@[simp] theorem bumpF_guide (pg off hi lo k : Nat) : (bumpF s pg off hi lo k).guide = s.guide := rfl
@[simp] theorem bumpF_cables (pg off hi lo k : Nat) : (bumpF s pg off hi lo k).cables = s.cables := rfl
@[simp] theorem bumpF_records (pg off hi lo k : Nat) : (bumpF s pg off hi lo k).records = s.records := rfl
@[simp] theorem bumpF_domMap (pg off hi lo k : Nat) : (bumpF s pg off hi lo k).domMap = s.domMap := rfl
@[simp] theorem bumpF_route (pg off hi lo k : Nat) : (bumpF s pg off hi lo k).route = s.route := rfl
@[simp] theorem bumpF_lastOrd (pg off hi lo k : Nat) : (bumpF s pg off hi lo k).lastOrd = s.lastOrd := rfl
@[simp] theorem bumpF_dead (pg off hi lo k : Nat) : (bumpF s pg off hi lo k).dead = s.dead := rfl
@[simp] theorem bumpF_runs (pg off hi lo k : Nat) : (bumpF s pg off hi lo k).runs = s.runs := rfl
@[simp] theorem bumpF_strErr (pg off hi lo k : Nat) : (bumpF s pg off hi lo k).strErr = s.strErr := rfl
@[simp] theorem bumpF_landing (pg off hi lo k : Nat) : (bumpF s pg off hi lo k).landing = s.landing := rfl
@[simp] theorem bumpF_collGone (pg off hi lo k : Nat) : (bumpF s pg off hi lo k).collGone = s.collGone := rfl
@[simp] theorem bumpF_anchors (pg off hi lo k : Nat) : (bumpF s pg off hi lo k).anchors = s.anchors := rfl
@[simp] theorem bumpF_heldPkts (pg off hi lo k : Nat) : (bumpF s pg off hi lo k).heldPkts = s.heldPkts := rfl
@[simp] theorem bumpF_hostQ (pg off hi lo k : Nat) : (bumpF s pg off hi lo k).hostQ = s.hostQ := rfl
@[simp] theorem bumpF_resync (pg off hi lo k : Nat) : (bumpF s pg off hi lo k).resync = s.resync := rfl
@[simp] theorem bumpF_mirLost (pg off hi lo k : Nat) : (bumpF s pg off hi lo k).mirLost = s.mirLost := rfl
@[simp] theorem bumpF_queues (pg off hi lo k : Nat) : (bumpF s pg off hi lo k).queues = s.queues := rfl
@[simp] theorem bumpF_engs (pg off hi lo k : Nat) : (bumpF s pg off hi lo k).engs = s.engs := rfl
@[simp] theorem bumpF_cmds (pg off hi lo k : Nat) : (bumpF s pg off hi lo k).cmds = s.cmds := rfl
@[simp] theorem bumpF_launches (pg off hi lo k : Nat) : (bumpF s pg off hi lo k).launches = s.launches := rfl

@[simp] theorem setRegPair_pending (pg off v : Nat) : (setRegPair s pg off v).pending = s.pending := rfl
@[simp] theorem setRegPair_fresh (pg off v : Nat) : (setRegPair s pg off v).fresh = s.fresh := rfl
@[simp] theorem setRegPair_partE (pg off v : Nat) : (setRegPair s pg off v).partE = s.partE := rfl
@[simp] theorem setRegPair_booted (pg off v : Nat) : (setRegPair s pg off v).booted = s.booted := rfl
@[simp] theorem setRegPair_bus (pg off v : Nat) : (setRegPair s pg off v).bus = s.bus := rfl
@[simp] theorem setRegPair_reports (pg off v : Nat) : (setRegPair s pg off v).reports = s.reports := rfl
@[simp] theorem setRegPair_ram (pg off v : Nat) : (setRegPair s pg off v).ram = s.ram := rfl
@[simp] theorem setRegPair_host (pg off v : Nat) : (setRegPair s pg off v).host = s.host := rfl
@[simp] theorem setRegPair_rings (pg off v : Nat) : (setRegPair s pg off v).rings = s.rings := rfl
@[simp] theorem setRegPair_evpend (pg off v : Nat) : (setRegPair s pg off v).evpend = s.evpend := rfl
@[simp] theorem setRegPair_answers (pg off v : Nat) : (setRegPair s pg off v).answers = s.answers := rfl
@[simp] theorem setRegPair_pwrGood (pg off v : Nat) : (setRegPair s pg off v).pwrGood = s.pwrGood := rfl
@[simp] theorem setRegPair_resetLow (pg off v : Nat) : (setRegPair s pg off v).resetLow = s.resetLow := rfl
@[simp] theorem setRegPair_leftService (pg off v : Nat) : (setRegPair s pg off v).leftService = s.leftService := rfl
@[simp] theorem setRegPair_l2 (pg off v : Nat) : (setRegPair s pg off v).l2 = s.l2 := rfl
@[simp] theorem setRegPair_xcache (pg off v : Nat) : (setRegPair s pg off v).xcache = s.xcache := rfl
@[simp] theorem setRegPair_tiles (pg off v : Nat) : (setRegPair s pg off v).tiles = s.tiles := rfl
@[simp] theorem setRegPair_keyDue (pg off v : Nat) : (setRegPair s pg off v).keyDue = s.keyDue := rfl
@[simp] theorem setRegPair_resvs (pg off v : Nat) : (setRegPair s pg off v).resvs = s.resvs := rfl
@[simp] theorem setRegPair_served (pg off v : Nat) : (setRegPair s pg off v).served = s.served := rfl
@[simp] theorem setRegPair_ldrs (pg off v : Nat) : (setRegPair s pg off v).ldrs = s.ldrs := rfl
@[simp] theorem setRegPair_bels (pg off v : Nat) : (setRegPair s pg off v).bels = s.bels := rfl
@[simp] theorem setRegPair_txgs (pg off v : Nat) : (setRegPair s pg off v).txgs = s.txgs := rfl
@[simp] theorem setRegPair_stackTab (pg off v : Nat) : (setRegPair s pg off v).stackTab = s.stackTab := rfl
@[simp] theorem setRegPair_keys (pg off v : Nat) : (setRegPair s pg off v).keys = s.keys := rfl
@[simp] theorem setRegPair_verified (pg off v : Nat) : (setRegPair s pg off v).verified = s.verified := rfl
@[simp] theorem setRegPair_nonceUsed (pg off v : Nat) : (setRegPair s pg off v).nonceUsed = s.nonceUsed := rfl
@[simp] theorem setRegPair_tokenSlot (pg off v : Nat) : (setRegPair s pg off v).tokenSlot = s.tokenSlot := rfl
@[simp] theorem setRegPair_entropyBad (pg off v : Nat) : (setRegPair s pg off v).entropyBad = s.entropyBad := rfl
@[simp] theorem setRegPair_evq (pg off v : Nat) : (setRegPair s pg off v).evq = s.evq := rfl
@[simp] theorem setRegPair_reqs (pg off v : Nat) : (setRegPair s pg off v).reqs = s.reqs := rfl
@[simp] theorem setRegPair_nextReq (pg off v : Nat) : (setRegPair s pg off v).nextReq = s.nextReq := rfl
@[simp] theorem setRegPair_wave (pg off v : Nat) : (setRegPair s pg off v).wave = s.wave := rfl
@[simp] theorem setRegPair_trigOut (pg off v : Nat) : (setRegPair s pg off v).trigOut = s.trigOut := rfl
@[simp] theorem setRegPair_ports (pg off v : Nat) : (setRegPair s pg off v).ports = s.ports := rfl
@[simp] theorem setRegPair_card (pg off v : Nat) : (setRegPair s pg off v).card = s.card := rfl
@[simp] theorem setRegPair_cardDue (pg off v : Nat) : (setRegPair s pg off v).cardDue = s.cardDue := rfl
@[simp] theorem setRegPair_flash (pg off v : Nat) : (setRegPair s pg off v).flash = s.flash := rfl
@[simp] theorem setRegPair_startHeld (pg off v : Nat) : (setRegPair s pg off v).startHeld = s.startHeld := rfl
@[simp] theorem setRegPair_draining (pg off v : Nat) : (setRegPair s pg off v).draining = s.draining := rfl
@[simp] theorem setRegPair_places (pg off v : Nat) : (setRegPair s pg off v).places = s.places := rfl
@[simp] theorem setRegPair_moves (pg off v : Nat) : (setRegPair s pg off v).moves = s.moves := rfl
@[simp] theorem setRegPair_pwr (pg off v : Nat) : (setRegPair s pg off v).pwr = s.pwr := rfl
@[simp] theorem setRegPair_guide (pg off v : Nat) : (setRegPair s pg off v).guide = s.guide := rfl
@[simp] theorem setRegPair_cables (pg off v : Nat) : (setRegPair s pg off v).cables = s.cables := rfl
@[simp] theorem setRegPair_records (pg off v : Nat) : (setRegPair s pg off v).records = s.records := rfl
@[simp] theorem setRegPair_domMap (pg off v : Nat) : (setRegPair s pg off v).domMap = s.domMap := rfl
@[simp] theorem setRegPair_route (pg off v : Nat) : (setRegPair s pg off v).route = s.route := rfl
@[simp] theorem setRegPair_lastOrd (pg off v : Nat) : (setRegPair s pg off v).lastOrd = s.lastOrd := rfl
@[simp] theorem setRegPair_dead (pg off v : Nat) : (setRegPair s pg off v).dead = s.dead := rfl
@[simp] theorem setRegPair_runs (pg off v : Nat) : (setRegPair s pg off v).runs = s.runs := rfl
@[simp] theorem setRegPair_strErr (pg off v : Nat) : (setRegPair s pg off v).strErr = s.strErr := rfl
@[simp] theorem setRegPair_landing (pg off v : Nat) : (setRegPair s pg off v).landing = s.landing := rfl
@[simp] theorem setRegPair_collGone (pg off v : Nat) : (setRegPair s pg off v).collGone = s.collGone := rfl
@[simp] theorem setRegPair_anchors (pg off v : Nat) : (setRegPair s pg off v).anchors = s.anchors := rfl
@[simp] theorem setRegPair_heldPkts (pg off v : Nat) : (setRegPair s pg off v).heldPkts = s.heldPkts := rfl
@[simp] theorem setRegPair_hostQ (pg off v : Nat) : (setRegPair s pg off v).hostQ = s.hostQ := rfl
@[simp] theorem setRegPair_resync (pg off v : Nat) : (setRegPair s pg off v).resync = s.resync := rfl
@[simp] theorem setRegPair_mirLost (pg off v : Nat) : (setRegPair s pg off v).mirLost = s.mirLost := rfl
@[simp] theorem setRegPair_queues (pg off v : Nat) : (setRegPair s pg off v).queues = s.queues := rfl
@[simp] theorem setRegPair_engs (pg off v : Nat) : (setRegPair s pg off v).engs = s.engs := rfl
@[simp] theorem setRegPair_cmds (pg off v : Nat) : (setRegPair s pg off v).cmds = s.cmds := rfl
@[simp] theorem setRegPair_launches (pg off v : Nat) : (setRegPair s pg off v).launches = s.launches := rfl

@[simp] theorem settle_pending (pg : Nat) (w : Bool) : (settle s pg w).pending = s.pending := rfl
@[simp] theorem settle_fresh (pg : Nat) (w : Bool) : (settle s pg w).fresh = s.fresh := rfl
@[simp] theorem settle_partE (pg : Nat) (w : Bool) : (settle s pg w).partE = s.partE := rfl
@[simp] theorem settle_booted (pg : Nat) (w : Bool) : (settle s pg w).booted = s.booted := rfl
@[simp] theorem settle_bus (pg : Nat) (w : Bool) : (settle s pg w).bus = s.bus := rfl
@[simp] theorem settle_reports (pg : Nat) (w : Bool) : (settle s pg w).reports = s.reports := rfl
@[simp] theorem settle_ram (pg : Nat) (w : Bool) : (settle s pg w).ram = s.ram := rfl
@[simp] theorem settle_host (pg : Nat) (w : Bool) : (settle s pg w).host = s.host := rfl
@[simp] theorem settle_rings (pg : Nat) (w : Bool) : (settle s pg w).rings = s.rings := rfl
@[simp] theorem settle_evpend (pg : Nat) (w : Bool) : (settle s pg w).evpend = s.evpend := rfl
@[simp] theorem settle_answers (pg : Nat) (w : Bool) : (settle s pg w).answers = s.answers := rfl
@[simp] theorem settle_pwrGood (pg : Nat) (w : Bool) : (settle s pg w).pwrGood = s.pwrGood := rfl
@[simp] theorem settle_resetLow (pg : Nat) (w : Bool) : (settle s pg w).resetLow = s.resetLow := rfl
@[simp] theorem settle_leftService (pg : Nat) (w : Bool) : (settle s pg w).leftService = s.leftService := rfl
@[simp] theorem settle_l2 (pg : Nat) (w : Bool) : (settle s pg w).l2 = s.l2 := rfl
@[simp] theorem settle_xcache (pg : Nat) (w : Bool) : (settle s pg w).xcache = s.xcache := rfl
@[simp] theorem settle_tiles (pg : Nat) (w : Bool) : (settle s pg w).tiles = s.tiles := rfl
@[simp] theorem settle_keyDue (pg : Nat) (w : Bool) : (settle s pg w).keyDue = s.keyDue := rfl
@[simp] theorem settle_resvs (pg : Nat) (w : Bool) : (settle s pg w).resvs = s.resvs := rfl
@[simp] theorem settle_served (pg : Nat) (w : Bool) : (settle s pg w).served = s.served := rfl
@[simp] theorem settle_ldrs (pg : Nat) (w : Bool) : (settle s pg w).ldrs = s.ldrs := rfl
@[simp] theorem settle_bels (pg : Nat) (w : Bool) : (settle s pg w).bels = s.bels := rfl
@[simp] theorem settle_txgs (pg : Nat) (w : Bool) : (settle s pg w).txgs = s.txgs := rfl
@[simp] theorem settle_stackTab (pg : Nat) (w : Bool) : (settle s pg w).stackTab = s.stackTab := rfl
@[simp] theorem settle_keys (pg : Nat) (w : Bool) : (settle s pg w).keys = s.keys := rfl
@[simp] theorem settle_verified (pg : Nat) (w : Bool) : (settle s pg w).verified = s.verified := rfl
@[simp] theorem settle_nonceUsed (pg : Nat) (w : Bool) : (settle s pg w).nonceUsed = s.nonceUsed := rfl
@[simp] theorem settle_tokenSlot (pg : Nat) (w : Bool) : (settle s pg w).tokenSlot = s.tokenSlot := rfl
@[simp] theorem settle_entropyBad (pg : Nat) (w : Bool) : (settle s pg w).entropyBad = s.entropyBad := rfl
@[simp] theorem settle_evq (pg : Nat) (w : Bool) : (settle s pg w).evq = s.evq := rfl
@[simp] theorem settle_reqs (pg : Nat) (w : Bool) : (settle s pg w).reqs = s.reqs := rfl
@[simp] theorem settle_nextReq (pg : Nat) (w : Bool) : (settle s pg w).nextReq = s.nextReq := rfl
@[simp] theorem settle_wave (pg : Nat) (w : Bool) : (settle s pg w).wave = s.wave := rfl
@[simp] theorem settle_trigOut (pg : Nat) (w : Bool) : (settle s pg w).trigOut = s.trigOut := rfl
@[simp] theorem settle_ports (pg : Nat) (w : Bool) : (settle s pg w).ports = s.ports := rfl
@[simp] theorem settle_card (pg : Nat) (w : Bool) : (settle s pg w).card = s.card := rfl
@[simp] theorem settle_cardDue (pg : Nat) (w : Bool) : (settle s pg w).cardDue = s.cardDue := rfl
@[simp] theorem settle_flash (pg : Nat) (w : Bool) : (settle s pg w).flash = s.flash := rfl
@[simp] theorem settle_startHeld (pg : Nat) (w : Bool) : (settle s pg w).startHeld = s.startHeld := rfl
@[simp] theorem settle_draining (pg : Nat) (w : Bool) : (settle s pg w).draining = s.draining := rfl
@[simp] theorem settle_places (pg : Nat) (w : Bool) : (settle s pg w).places = s.places := rfl
@[simp] theorem settle_moves (pg : Nat) (w : Bool) : (settle s pg w).moves = s.moves := rfl
@[simp] theorem settle_pwr (pg : Nat) (w : Bool) : (settle s pg w).pwr = s.pwr := rfl
@[simp] theorem settle_guide (pg : Nat) (w : Bool) : (settle s pg w).guide = s.guide := rfl
@[simp] theorem settle_cables (pg : Nat) (w : Bool) : (settle s pg w).cables = s.cables := rfl
@[simp] theorem settle_records (pg : Nat) (w : Bool) : (settle s pg w).records = s.records := rfl
@[simp] theorem settle_domMap (pg : Nat) (w : Bool) : (settle s pg w).domMap = s.domMap := rfl
@[simp] theorem settle_route (pg : Nat) (w : Bool) : (settle s pg w).route = s.route := rfl
@[simp] theorem settle_lastOrd (pg : Nat) (w : Bool) : (settle s pg w).lastOrd = s.lastOrd := rfl
@[simp] theorem settle_dead (pg : Nat) (w : Bool) : (settle s pg w).dead = s.dead := rfl
@[simp] theorem settle_runs (pg : Nat) (w : Bool) : (settle s pg w).runs = s.runs := rfl
@[simp] theorem settle_strErr (pg : Nat) (w : Bool) : (settle s pg w).strErr = s.strErr := rfl
@[simp] theorem settle_landing (pg : Nat) (w : Bool) : (settle s pg w).landing = s.landing := rfl
@[simp] theorem settle_collGone (pg : Nat) (w : Bool) : (settle s pg w).collGone = s.collGone := rfl
@[simp] theorem settle_anchors (pg : Nat) (w : Bool) : (settle s pg w).anchors = s.anchors := rfl
@[simp] theorem settle_heldPkts (pg : Nat) (w : Bool) : (settle s pg w).heldPkts = s.heldPkts := rfl
@[simp] theorem settle_hostQ (pg : Nat) (w : Bool) : (settle s pg w).hostQ = s.hostQ := rfl
@[simp] theorem settle_resync (pg : Nat) (w : Bool) : (settle s pg w).resync = s.resync := rfl
@[simp] theorem settle_mirLost (pg : Nat) (w : Bool) : (settle s pg w).mirLost = s.mirLost := rfl
@[simp] theorem settle_queues (pg : Nat) (w : Bool) : (settle s pg w).queues = s.queues := rfl
@[simp] theorem settle_engs (pg : Nat) (w : Bool) : (settle s pg w).engs = s.engs := rfl
@[simp] theorem settle_cmds (pg : Nat) (w : Bool) : (settle s pg w).cmds = s.cmds := rfl
@[simp] theorem settle_launches (pg : Nat) (w : Bool) : (settle s pg w).launches = s.launches := rfl

@[simp] theorem takeFree_pending : ((takeFree s).2).pending = s.pending := rfl
@[simp] theorem takeFree_partE : ((takeFree s).2).partE = s.partE := rfl
@[simp] theorem takeFree_booted : ((takeFree s).2).booted = s.booted := rfl
@[simp] theorem takeFree_bus : ((takeFree s).2).bus = s.bus := rfl
@[simp] theorem takeFree_blks : ((takeFree s).2).blks = s.blks := rfl
@[simp] theorem takeFree_reports : ((takeFree s).2).reports = s.reports := rfl
@[simp] theorem takeFree_ram : ((takeFree s).2).ram = s.ram := rfl
@[simp] theorem takeFree_host : ((takeFree s).2).host = s.host := rfl
@[simp] theorem takeFree_rings : ((takeFree s).2).rings = s.rings := rfl
@[simp] theorem takeFree_evpend : ((takeFree s).2).evpend = s.evpend := rfl
@[simp] theorem takeFree_answers : ((takeFree s).2).answers = s.answers := rfl
@[simp] theorem takeFree_pwrGood : ((takeFree s).2).pwrGood = s.pwrGood := rfl
@[simp] theorem takeFree_resetLow : ((takeFree s).2).resetLow = s.resetLow := rfl
@[simp] theorem takeFree_leftService : ((takeFree s).2).leftService = s.leftService := rfl
@[simp] theorem takeFree_l2 : ((takeFree s).2).l2 = s.l2 := rfl
@[simp] theorem takeFree_xcache : ((takeFree s).2).xcache = s.xcache := rfl
@[simp] theorem takeFree_tiles : ((takeFree s).2).tiles = s.tiles := rfl
@[simp] theorem takeFree_keyDue : ((takeFree s).2).keyDue = s.keyDue := rfl
@[simp] theorem takeFree_resvs : ((takeFree s).2).resvs = s.resvs := rfl
@[simp] theorem takeFree_served : ((takeFree s).2).served = s.served := rfl
@[simp] theorem takeFree_ldrs : ((takeFree s).2).ldrs = s.ldrs := rfl
@[simp] theorem takeFree_bels : ((takeFree s).2).bels = s.bels := rfl
@[simp] theorem takeFree_txgs : ((takeFree s).2).txgs = s.txgs := rfl
@[simp] theorem takeFree_stackTab : ((takeFree s).2).stackTab = s.stackTab := rfl
@[simp] theorem takeFree_keys : ((takeFree s).2).keys = s.keys := rfl
@[simp] theorem takeFree_verified : ((takeFree s).2).verified = s.verified := rfl
@[simp] theorem takeFree_nonceUsed : ((takeFree s).2).nonceUsed = s.nonceUsed := rfl
@[simp] theorem takeFree_tokenSlot : ((takeFree s).2).tokenSlot = s.tokenSlot := rfl
@[simp] theorem takeFree_entropyBad : ((takeFree s).2).entropyBad = s.entropyBad := rfl
@[simp] theorem takeFree_evq : ((takeFree s).2).evq = s.evq := rfl
@[simp] theorem takeFree_reqs : ((takeFree s).2).reqs = s.reqs := rfl
@[simp] theorem takeFree_nextReq : ((takeFree s).2).nextReq = s.nextReq := rfl
@[simp] theorem takeFree_wave : ((takeFree s).2).wave = s.wave := rfl
@[simp] theorem takeFree_trigOut : ((takeFree s).2).trigOut = s.trigOut := rfl
@[simp] theorem takeFree_ports : ((takeFree s).2).ports = s.ports := rfl
@[simp] theorem takeFree_card : ((takeFree s).2).card = s.card := rfl
@[simp] theorem takeFree_cardDue : ((takeFree s).2).cardDue = s.cardDue := rfl
@[simp] theorem takeFree_flash : ((takeFree s).2).flash = s.flash := rfl
@[simp] theorem takeFree_startHeld : ((takeFree s).2).startHeld = s.startHeld := rfl
@[simp] theorem takeFree_draining : ((takeFree s).2).draining = s.draining := rfl
@[simp] theorem takeFree_places : ((takeFree s).2).places = s.places := rfl
@[simp] theorem takeFree_moves : ((takeFree s).2).moves = s.moves := rfl
@[simp] theorem takeFree_pwr : ((takeFree s).2).pwr = s.pwr := rfl
@[simp] theorem takeFree_guide : ((takeFree s).2).guide = s.guide := rfl
@[simp] theorem takeFree_cables : ((takeFree s).2).cables = s.cables := rfl
@[simp] theorem takeFree_records : ((takeFree s).2).records = s.records := rfl
@[simp] theorem takeFree_domMap : ((takeFree s).2).domMap = s.domMap := rfl
@[simp] theorem takeFree_route : ((takeFree s).2).route = s.route := rfl
@[simp] theorem takeFree_lastOrd : ((takeFree s).2).lastOrd = s.lastOrd := rfl
@[simp] theorem takeFree_dead : ((takeFree s).2).dead = s.dead := rfl
@[simp] theorem takeFree_runs : ((takeFree s).2).runs = s.runs := rfl
@[simp] theorem takeFree_strErr : ((takeFree s).2).strErr = s.strErr := rfl
@[simp] theorem takeFree_landing : ((takeFree s).2).landing = s.landing := rfl
@[simp] theorem takeFree_collGone : ((takeFree s).2).collGone = s.collGone := rfl
@[simp] theorem takeFree_anchors : ((takeFree s).2).anchors = s.anchors := rfl
@[simp] theorem takeFree_heldPkts : ((takeFree s).2).heldPkts = s.heldPkts := rfl
@[simp] theorem takeFree_hostQ : ((takeFree s).2).hostQ = s.hostQ := rfl
@[simp] theorem takeFree_resync : ((takeFree s).2).resync = s.resync := rfl
@[simp] theorem takeFree_mirLost : ((takeFree s).2).mirLost = s.mirLost := rfl
@[simp] theorem takeFree_queues : ((takeFree s).2).queues = s.queues := rfl
@[simp] theorem takeFree_engs : ((takeFree s).2).engs = s.engs := rfl
@[simp] theorem takeFree_cmds : ((takeFree s).2).cmds = s.cmds := rfl
@[simp] theorem takeFree_launches : ((takeFree s).2).launches = s.launches := rfl

@[simp] theorem raise_pending (e : Ev) : (raise s e).pending = s.pending := rfl
@[simp] theorem raise_fresh (e : Ev) : (raise s e).fresh = s.fresh := rfl
@[simp] theorem raise_partE (e : Ev) : (raise s e).partE = s.partE := rfl
@[simp] theorem raise_booted (e : Ev) : (raise s e).booted = s.booted := rfl
@[simp] theorem raise_bus (e : Ev) : (raise s e).bus = s.bus := rfl
@[simp] theorem raise_blks (e : Ev) : (raise s e).blks = s.blks := rfl
@[simp] theorem raise_reports (e : Ev) : (raise s e).reports = s.reports := rfl
@[simp] theorem raise_ram (e : Ev) : (raise s e).ram = s.ram := rfl
@[simp] theorem raise_host (e : Ev) : (raise s e).host = s.host := rfl
@[simp] theorem raise_rings (e : Ev) : (raise s e).rings = s.rings := rfl
@[simp] theorem raise_evpend (e : Ev) : (raise s e).evpend = s.evpend := rfl
@[simp] theorem raise_answers (e : Ev) : (raise s e).answers = s.answers := rfl
@[simp] theorem raise_pwrGood (e : Ev) : (raise s e).pwrGood = s.pwrGood := rfl
@[simp] theorem raise_resetLow (e : Ev) : (raise s e).resetLow = s.resetLow := rfl
@[simp] theorem raise_leftService (e : Ev) : (raise s e).leftService = s.leftService := rfl
@[simp] theorem raise_l2 (e : Ev) : (raise s e).l2 = s.l2 := rfl
@[simp] theorem raise_xcache (e : Ev) : (raise s e).xcache = s.xcache := rfl
@[simp] theorem raise_tiles (e : Ev) : (raise s e).tiles = s.tiles := rfl
@[simp] theorem raise_keyDue (e : Ev) : (raise s e).keyDue = s.keyDue := rfl
@[simp] theorem raise_resvs (e : Ev) : (raise s e).resvs = s.resvs := rfl
@[simp] theorem raise_served (e : Ev) : (raise s e).served = s.served := rfl
@[simp] theorem raise_ldrs (e : Ev) : (raise s e).ldrs = s.ldrs := rfl
@[simp] theorem raise_bels (e : Ev) : (raise s e).bels = s.bels := rfl
@[simp] theorem raise_txgs (e : Ev) : (raise s e).txgs = s.txgs := rfl
@[simp] theorem raise_stackTab (e : Ev) : (raise s e).stackTab = s.stackTab := rfl
@[simp] theorem raise_keys (e : Ev) : (raise s e).keys = s.keys := rfl
@[simp] theorem raise_verified (e : Ev) : (raise s e).verified = s.verified := rfl
@[simp] theorem raise_nonceUsed (e : Ev) : (raise s e).nonceUsed = s.nonceUsed := rfl
@[simp] theorem raise_tokenSlot (e : Ev) : (raise s e).tokenSlot = s.tokenSlot := rfl
@[simp] theorem raise_entropyBad (e : Ev) : (raise s e).entropyBad = s.entropyBad := rfl
@[simp] theorem raise_reqs (e : Ev) : (raise s e).reqs = s.reqs := rfl
@[simp] theorem raise_nextReq (e : Ev) : (raise s e).nextReq = s.nextReq := rfl
@[simp] theorem raise_wave (e : Ev) : (raise s e).wave = s.wave := rfl
@[simp] theorem raise_trigOut (e : Ev) : (raise s e).trigOut = s.trigOut := rfl
@[simp] theorem raise_ports (e : Ev) : (raise s e).ports = s.ports := rfl
@[simp] theorem raise_card (e : Ev) : (raise s e).card = s.card := rfl
@[simp] theorem raise_cardDue (e : Ev) : (raise s e).cardDue = s.cardDue := rfl
@[simp] theorem raise_flash (e : Ev) : (raise s e).flash = s.flash := rfl
@[simp] theorem raise_startHeld (e : Ev) : (raise s e).startHeld = s.startHeld := rfl
@[simp] theorem raise_draining (e : Ev) : (raise s e).draining = s.draining := rfl
@[simp] theorem raise_places (e : Ev) : (raise s e).places = s.places := rfl
@[simp] theorem raise_moves (e : Ev) : (raise s e).moves = s.moves := rfl
@[simp] theorem raise_pwr (e : Ev) : (raise s e).pwr = s.pwr := rfl
@[simp] theorem raise_guide (e : Ev) : (raise s e).guide = s.guide := rfl
@[simp] theorem raise_cables (e : Ev) : (raise s e).cables = s.cables := rfl
@[simp] theorem raise_records (e : Ev) : (raise s e).records = s.records := rfl
@[simp] theorem raise_domMap (e : Ev) : (raise s e).domMap = s.domMap := rfl
@[simp] theorem raise_route (e : Ev) : (raise s e).route = s.route := rfl
@[simp] theorem raise_lastOrd (e : Ev) : (raise s e).lastOrd = s.lastOrd := rfl
@[simp] theorem raise_dead (e : Ev) : (raise s e).dead = s.dead := rfl
@[simp] theorem raise_runs (e : Ev) : (raise s e).runs = s.runs := rfl
@[simp] theorem raise_strErr (e : Ev) : (raise s e).strErr = s.strErr := rfl
@[simp] theorem raise_landing (e : Ev) : (raise s e).landing = s.landing := rfl
@[simp] theorem raise_collGone (e : Ev) : (raise s e).collGone = s.collGone := rfl
@[simp] theorem raise_anchors (e : Ev) : (raise s e).anchors = s.anchors := rfl
@[simp] theorem raise_heldPkts (e : Ev) : (raise s e).heldPkts = s.heldPkts := rfl
@[simp] theorem raise_hostQ (e : Ev) : (raise s e).hostQ = s.hostQ := rfl
@[simp] theorem raise_resync (e : Ev) : (raise s e).resync = s.resync := rfl
@[simp] theorem raise_mirLost (e : Ev) : (raise s e).mirLost = s.mirLost := rfl
@[simp] theorem raise_queues (e : Ev) : (raise s e).queues = s.queues := rfl
@[simp] theorem raise_engs (e : Ev) : (raise s e).engs = s.engs := rfl
@[simp] theorem raise_cmds (e : Ev) : (raise s e).cmds = s.cmds := rfl
@[simp] theorem raise_launches (e : Ev) : (raise s e).launches = s.launches := rfl

@[simp] theorem setTile_pending (t : Nat) (x : Tile) : (setTile s t x).pending = s.pending := rfl
@[simp] theorem setTile_fresh (t : Nat) (x : Tile) : (setTile s t x).fresh = s.fresh := rfl
@[simp] theorem setTile_partE (t : Nat) (x : Tile) : (setTile s t x).partE = s.partE := rfl
@[simp] theorem setTile_booted (t : Nat) (x : Tile) : (setTile s t x).booted = s.booted := rfl
@[simp] theorem setTile_bus (t : Nat) (x : Tile) : (setTile s t x).bus = s.bus := rfl
@[simp] theorem setTile_blks (t : Nat) (x : Tile) : (setTile s t x).blks = s.blks := rfl
@[simp] theorem setTile_reports (t : Nat) (x : Tile) : (setTile s t x).reports = s.reports := rfl
@[simp] theorem setTile_ram (t : Nat) (x : Tile) : (setTile s t x).ram = s.ram := rfl
@[simp] theorem setTile_host (t : Nat) (x : Tile) : (setTile s t x).host = s.host := rfl
@[simp] theorem setTile_rings (t : Nat) (x : Tile) : (setTile s t x).rings = s.rings := rfl
@[simp] theorem setTile_evpend (t : Nat) (x : Tile) : (setTile s t x).evpend = s.evpend := rfl
@[simp] theorem setTile_answers (t : Nat) (x : Tile) : (setTile s t x).answers = s.answers := rfl
@[simp] theorem setTile_pwrGood (t : Nat) (x : Tile) : (setTile s t x).pwrGood = s.pwrGood := rfl
@[simp] theorem setTile_resetLow (t : Nat) (x : Tile) : (setTile s t x).resetLow = s.resetLow := rfl
@[simp] theorem setTile_leftService (t : Nat) (x : Tile) : (setTile s t x).leftService = s.leftService := rfl
@[simp] theorem setTile_l2 (t : Nat) (x : Tile) : (setTile s t x).l2 = s.l2 := rfl
@[simp] theorem setTile_xcache (t : Nat) (x : Tile) : (setTile s t x).xcache = s.xcache := rfl
@[simp] theorem setTile_keyDue (t : Nat) (x : Tile) : (setTile s t x).keyDue = s.keyDue := rfl
@[simp] theorem setTile_resvs (t : Nat) (x : Tile) : (setTile s t x).resvs = s.resvs := rfl
@[simp] theorem setTile_served (t : Nat) (x : Tile) : (setTile s t x).served = s.served := rfl
@[simp] theorem setTile_ldrs (t : Nat) (x : Tile) : (setTile s t x).ldrs = s.ldrs := rfl
@[simp] theorem setTile_bels (t : Nat) (x : Tile) : (setTile s t x).bels = s.bels := rfl
@[simp] theorem setTile_txgs (t : Nat) (x : Tile) : (setTile s t x).txgs = s.txgs := rfl
@[simp] theorem setTile_stackTab (t : Nat) (x : Tile) : (setTile s t x).stackTab = s.stackTab := rfl
@[simp] theorem setTile_keys (t : Nat) (x : Tile) : (setTile s t x).keys = s.keys := rfl
@[simp] theorem setTile_verified (t : Nat) (x : Tile) : (setTile s t x).verified = s.verified := rfl
@[simp] theorem setTile_nonceUsed (t : Nat) (x : Tile) : (setTile s t x).nonceUsed = s.nonceUsed := rfl
@[simp] theorem setTile_tokenSlot (t : Nat) (x : Tile) : (setTile s t x).tokenSlot = s.tokenSlot := rfl
@[simp] theorem setTile_entropyBad (t : Nat) (x : Tile) : (setTile s t x).entropyBad = s.entropyBad := rfl
@[simp] theorem setTile_evq (t : Nat) (x : Tile) : (setTile s t x).evq = s.evq := rfl
@[simp] theorem setTile_reqs (t : Nat) (x : Tile) : (setTile s t x).reqs = s.reqs := rfl
@[simp] theorem setTile_nextReq (t : Nat) (x : Tile) : (setTile s t x).nextReq = s.nextReq := rfl
@[simp] theorem setTile_wave (t : Nat) (x : Tile) : (setTile s t x).wave = s.wave := rfl
@[simp] theorem setTile_trigOut (t : Nat) (x : Tile) : (setTile s t x).trigOut = s.trigOut := rfl
@[simp] theorem setTile_ports (t : Nat) (x : Tile) : (setTile s t x).ports = s.ports := rfl
@[simp] theorem setTile_card (t : Nat) (x : Tile) : (setTile s t x).card = s.card := rfl
@[simp] theorem setTile_cardDue (t : Nat) (x : Tile) : (setTile s t x).cardDue = s.cardDue := rfl
@[simp] theorem setTile_flash (t : Nat) (x : Tile) : (setTile s t x).flash = s.flash := rfl
@[simp] theorem setTile_startHeld (t : Nat) (x : Tile) : (setTile s t x).startHeld = s.startHeld := rfl
@[simp] theorem setTile_draining (t : Nat) (x : Tile) : (setTile s t x).draining = s.draining := rfl
@[simp] theorem setTile_places (t : Nat) (x : Tile) : (setTile s t x).places = s.places := rfl
@[simp] theorem setTile_moves (t : Nat) (x : Tile) : (setTile s t x).moves = s.moves := rfl
@[simp] theorem setTile_pwr (t : Nat) (x : Tile) : (setTile s t x).pwr = s.pwr := rfl
@[simp] theorem setTile_guide (t : Nat) (x : Tile) : (setTile s t x).guide = s.guide := rfl
@[simp] theorem setTile_cables (t : Nat) (x : Tile) : (setTile s t x).cables = s.cables := rfl
@[simp] theorem setTile_records (t : Nat) (x : Tile) : (setTile s t x).records = s.records := rfl
@[simp] theorem setTile_domMap (t : Nat) (x : Tile) : (setTile s t x).domMap = s.domMap := rfl
@[simp] theorem setTile_route (t : Nat) (x : Tile) : (setTile s t x).route = s.route := rfl
@[simp] theorem setTile_lastOrd (t : Nat) (x : Tile) : (setTile s t x).lastOrd = s.lastOrd := rfl
@[simp] theorem setTile_dead (t : Nat) (x : Tile) : (setTile s t x).dead = s.dead := rfl
@[simp] theorem setTile_runs (t : Nat) (x : Tile) : (setTile s t x).runs = s.runs := rfl
@[simp] theorem setTile_strErr (t : Nat) (x : Tile) : (setTile s t x).strErr = s.strErr := rfl
@[simp] theorem setTile_landing (t : Nat) (x : Tile) : (setTile s t x).landing = s.landing := rfl
@[simp] theorem setTile_collGone (t : Nat) (x : Tile) : (setTile s t x).collGone = s.collGone := rfl
@[simp] theorem setTile_anchors (t : Nat) (x : Tile) : (setTile s t x).anchors = s.anchors := rfl
@[simp] theorem setTile_heldPkts (t : Nat) (x : Tile) : (setTile s t x).heldPkts = s.heldPkts := rfl
@[simp] theorem setTile_hostQ (t : Nat) (x : Tile) : (setTile s t x).hostQ = s.hostQ := rfl
@[simp] theorem setTile_resync (t : Nat) (x : Tile) : (setTile s t x).resync = s.resync := rfl
@[simp] theorem setTile_mirLost (t : Nat) (x : Tile) : (setTile s t x).mirLost = s.mirLost := rfl
@[simp] theorem setTile_queues (t : Nat) (x : Tile) : (setTile s t x).queues = s.queues := rfl
@[simp] theorem setTile_engs (t : Nat) (x : Tile) : (setTile s t x).engs = s.engs := rfl
@[simp] theorem setTile_cmds (t : Nat) (x : Tile) : (setTile s t x).cmds = s.cmds := rfl
@[simp] theorem setTile_launches (t : Nat) (x : Tile) : (setTile s t x).launches = s.launches := rfl

@[simp] theorem modTile_pending (t : Nat) (f : Tile → Tile) : (modTile s t f).pending = s.pending := rfl
@[simp] theorem modTile_fresh (t : Nat) (f : Tile → Tile) : (modTile s t f).fresh = s.fresh := rfl
@[simp] theorem modTile_partE (t : Nat) (f : Tile → Tile) : (modTile s t f).partE = s.partE := rfl
@[simp] theorem modTile_booted (t : Nat) (f : Tile → Tile) : (modTile s t f).booted = s.booted := rfl
@[simp] theorem modTile_bus (t : Nat) (f : Tile → Tile) : (modTile s t f).bus = s.bus := rfl
@[simp] theorem modTile_blks (t : Nat) (f : Tile → Tile) : (modTile s t f).blks = s.blks := rfl
@[simp] theorem modTile_reports (t : Nat) (f : Tile → Tile) : (modTile s t f).reports = s.reports := rfl
@[simp] theorem modTile_ram (t : Nat) (f : Tile → Tile) : (modTile s t f).ram = s.ram := rfl
@[simp] theorem modTile_host (t : Nat) (f : Tile → Tile) : (modTile s t f).host = s.host := rfl
@[simp] theorem modTile_rings (t : Nat) (f : Tile → Tile) : (modTile s t f).rings = s.rings := rfl
@[simp] theorem modTile_evpend (t : Nat) (f : Tile → Tile) : (modTile s t f).evpend = s.evpend := rfl
@[simp] theorem modTile_answers (t : Nat) (f : Tile → Tile) : (modTile s t f).answers = s.answers := rfl
@[simp] theorem modTile_pwrGood (t : Nat) (f : Tile → Tile) : (modTile s t f).pwrGood = s.pwrGood := rfl
@[simp] theorem modTile_resetLow (t : Nat) (f : Tile → Tile) : (modTile s t f).resetLow = s.resetLow := rfl
@[simp] theorem modTile_leftService (t : Nat) (f : Tile → Tile) : (modTile s t f).leftService = s.leftService := rfl
@[simp] theorem modTile_l2 (t : Nat) (f : Tile → Tile) : (modTile s t f).l2 = s.l2 := rfl
@[simp] theorem modTile_xcache (t : Nat) (f : Tile → Tile) : (modTile s t f).xcache = s.xcache := rfl
@[simp] theorem modTile_keyDue (t : Nat) (f : Tile → Tile) : (modTile s t f).keyDue = s.keyDue := rfl
@[simp] theorem modTile_resvs (t : Nat) (f : Tile → Tile) : (modTile s t f).resvs = s.resvs := rfl
@[simp] theorem modTile_served (t : Nat) (f : Tile → Tile) : (modTile s t f).served = s.served := rfl
@[simp] theorem modTile_ldrs (t : Nat) (f : Tile → Tile) : (modTile s t f).ldrs = s.ldrs := rfl
@[simp] theorem modTile_bels (t : Nat) (f : Tile → Tile) : (modTile s t f).bels = s.bels := rfl
@[simp] theorem modTile_txgs (t : Nat) (f : Tile → Tile) : (modTile s t f).txgs = s.txgs := rfl
@[simp] theorem modTile_stackTab (t : Nat) (f : Tile → Tile) : (modTile s t f).stackTab = s.stackTab := rfl
@[simp] theorem modTile_keys (t : Nat) (f : Tile → Tile) : (modTile s t f).keys = s.keys := rfl
@[simp] theorem modTile_verified (t : Nat) (f : Tile → Tile) : (modTile s t f).verified = s.verified := rfl
@[simp] theorem modTile_nonceUsed (t : Nat) (f : Tile → Tile) : (modTile s t f).nonceUsed = s.nonceUsed := rfl
@[simp] theorem modTile_tokenSlot (t : Nat) (f : Tile → Tile) : (modTile s t f).tokenSlot = s.tokenSlot := rfl
@[simp] theorem modTile_entropyBad (t : Nat) (f : Tile → Tile) : (modTile s t f).entropyBad = s.entropyBad := rfl
@[simp] theorem modTile_evq (t : Nat) (f : Tile → Tile) : (modTile s t f).evq = s.evq := rfl
@[simp] theorem modTile_reqs (t : Nat) (f : Tile → Tile) : (modTile s t f).reqs = s.reqs := rfl
@[simp] theorem modTile_nextReq (t : Nat) (f : Tile → Tile) : (modTile s t f).nextReq = s.nextReq := rfl
@[simp] theorem modTile_wave (t : Nat) (f : Tile → Tile) : (modTile s t f).wave = s.wave := rfl
@[simp] theorem modTile_trigOut (t : Nat) (f : Tile → Tile) : (modTile s t f).trigOut = s.trigOut := rfl
@[simp] theorem modTile_ports (t : Nat) (f : Tile → Tile) : (modTile s t f).ports = s.ports := rfl
@[simp] theorem modTile_card (t : Nat) (f : Tile → Tile) : (modTile s t f).card = s.card := rfl
@[simp] theorem modTile_cardDue (t : Nat) (f : Tile → Tile) : (modTile s t f).cardDue = s.cardDue := rfl
@[simp] theorem modTile_flash (t : Nat) (f : Tile → Tile) : (modTile s t f).flash = s.flash := rfl
@[simp] theorem modTile_startHeld (t : Nat) (f : Tile → Tile) : (modTile s t f).startHeld = s.startHeld := rfl
@[simp] theorem modTile_draining (t : Nat) (f : Tile → Tile) : (modTile s t f).draining = s.draining := rfl
@[simp] theorem modTile_places (t : Nat) (f : Tile → Tile) : (modTile s t f).places = s.places := rfl
@[simp] theorem modTile_moves (t : Nat) (f : Tile → Tile) : (modTile s t f).moves = s.moves := rfl
@[simp] theorem modTile_pwr (t : Nat) (f : Tile → Tile) : (modTile s t f).pwr = s.pwr := rfl
@[simp] theorem modTile_guide (t : Nat) (f : Tile → Tile) : (modTile s t f).guide = s.guide := rfl
@[simp] theorem modTile_cables (t : Nat) (f : Tile → Tile) : (modTile s t f).cables = s.cables := rfl
@[simp] theorem modTile_records (t : Nat) (f : Tile → Tile) : (modTile s t f).records = s.records := rfl
@[simp] theorem modTile_domMap (t : Nat) (f : Tile → Tile) : (modTile s t f).domMap = s.domMap := rfl
@[simp] theorem modTile_route (t : Nat) (f : Tile → Tile) : (modTile s t f).route = s.route := rfl
@[simp] theorem modTile_lastOrd (t : Nat) (f : Tile → Tile) : (modTile s t f).lastOrd = s.lastOrd := rfl
@[simp] theorem modTile_dead (t : Nat) (f : Tile → Tile) : (modTile s t f).dead = s.dead := rfl
@[simp] theorem modTile_runs (t : Nat) (f : Tile → Tile) : (modTile s t f).runs = s.runs := rfl
@[simp] theorem modTile_strErr (t : Nat) (f : Tile → Tile) : (modTile s t f).strErr = s.strErr := rfl
@[simp] theorem modTile_landing (t : Nat) (f : Tile → Tile) : (modTile s t f).landing = s.landing := rfl
@[simp] theorem modTile_collGone (t : Nat) (f : Tile → Tile) : (modTile s t f).collGone = s.collGone := rfl
@[simp] theorem modTile_anchors (t : Nat) (f : Tile → Tile) : (modTile s t f).anchors = s.anchors := rfl
@[simp] theorem modTile_heldPkts (t : Nat) (f : Tile → Tile) : (modTile s t f).heldPkts = s.heldPkts := rfl
@[simp] theorem modTile_hostQ (t : Nat) (f : Tile → Tile) : (modTile s t f).hostQ = s.hostQ := rfl
@[simp] theorem modTile_resync (t : Nat) (f : Tile → Tile) : (modTile s t f).resync = s.resync := rfl
@[simp] theorem modTile_mirLost (t : Nat) (f : Tile → Tile) : (modTile s t f).mirLost = s.mirLost := rfl
@[simp] theorem modTile_queues (t : Nat) (f : Tile → Tile) : (modTile s t f).queues = s.queues := rfl
@[simp] theorem modTile_engs (t : Nat) (f : Tile → Tile) : (modTile s t f).engs = s.engs := rfl
@[simp] theorem modTile_cmds (t : Nat) (f : Tile → Tile) : (modTile s t f).cmds = s.cmds := rfl
@[simp] theorem modTile_launches (t : Nat) (f : Tile → Tile) : (modTile s t f).launches = s.launches := rfl

@[simp] theorem setGroup_pending (t n : Nat) (g : Group) : (setGroup s t n g).pending = s.pending := rfl
@[simp] theorem setGroup_fresh (t n : Nat) (g : Group) : (setGroup s t n g).fresh = s.fresh := rfl
@[simp] theorem setGroup_partE (t n : Nat) (g : Group) : (setGroup s t n g).partE = s.partE := rfl
@[simp] theorem setGroup_booted (t n : Nat) (g : Group) : (setGroup s t n g).booted = s.booted := rfl
@[simp] theorem setGroup_bus (t n : Nat) (g : Group) : (setGroup s t n g).bus = s.bus := rfl
@[simp] theorem setGroup_blks (t n : Nat) (g : Group) : (setGroup s t n g).blks = s.blks := rfl
@[simp] theorem setGroup_reports (t n : Nat) (g : Group) : (setGroup s t n g).reports = s.reports := rfl
@[simp] theorem setGroup_ram (t n : Nat) (g : Group) : (setGroup s t n g).ram = s.ram := rfl
@[simp] theorem setGroup_host (t n : Nat) (g : Group) : (setGroup s t n g).host = s.host := rfl
@[simp] theorem setGroup_rings (t n : Nat) (g : Group) : (setGroup s t n g).rings = s.rings := rfl
@[simp] theorem setGroup_evpend (t n : Nat) (g : Group) : (setGroup s t n g).evpend = s.evpend := rfl
@[simp] theorem setGroup_answers (t n : Nat) (g : Group) : (setGroup s t n g).answers = s.answers := rfl
@[simp] theorem setGroup_pwrGood (t n : Nat) (g : Group) : (setGroup s t n g).pwrGood = s.pwrGood := rfl
@[simp] theorem setGroup_resetLow (t n : Nat) (g : Group) : (setGroup s t n g).resetLow = s.resetLow := rfl
@[simp] theorem setGroup_leftService (t n : Nat) (g : Group) : (setGroup s t n g).leftService = s.leftService := rfl
@[simp] theorem setGroup_l2 (t n : Nat) (g : Group) : (setGroup s t n g).l2 = s.l2 := rfl
@[simp] theorem setGroup_xcache (t n : Nat) (g : Group) : (setGroup s t n g).xcache = s.xcache := rfl
@[simp] theorem setGroup_keyDue (t n : Nat) (g : Group) : (setGroup s t n g).keyDue = s.keyDue := rfl
@[simp] theorem setGroup_resvs (t n : Nat) (g : Group) : (setGroup s t n g).resvs = s.resvs := rfl
@[simp] theorem setGroup_served (t n : Nat) (g : Group) : (setGroup s t n g).served = s.served := rfl
@[simp] theorem setGroup_ldrs (t n : Nat) (g : Group) : (setGroup s t n g).ldrs = s.ldrs := rfl
@[simp] theorem setGroup_bels (t n : Nat) (g : Group) : (setGroup s t n g).bels = s.bels := rfl
@[simp] theorem setGroup_txgs (t n : Nat) (g : Group) : (setGroup s t n g).txgs = s.txgs := rfl
@[simp] theorem setGroup_stackTab (t n : Nat) (g : Group) : (setGroup s t n g).stackTab = s.stackTab := rfl
@[simp] theorem setGroup_keys (t n : Nat) (g : Group) : (setGroup s t n g).keys = s.keys := rfl
@[simp] theorem setGroup_verified (t n : Nat) (g : Group) : (setGroup s t n g).verified = s.verified := rfl
@[simp] theorem setGroup_nonceUsed (t n : Nat) (g : Group) : (setGroup s t n g).nonceUsed = s.nonceUsed := rfl
@[simp] theorem setGroup_tokenSlot (t n : Nat) (g : Group) : (setGroup s t n g).tokenSlot = s.tokenSlot := rfl
@[simp] theorem setGroup_entropyBad (t n : Nat) (g : Group) : (setGroup s t n g).entropyBad = s.entropyBad := rfl
@[simp] theorem setGroup_evq (t n : Nat) (g : Group) : (setGroup s t n g).evq = s.evq := rfl
@[simp] theorem setGroup_reqs (t n : Nat) (g : Group) : (setGroup s t n g).reqs = s.reqs := rfl
@[simp] theorem setGroup_nextReq (t n : Nat) (g : Group) : (setGroup s t n g).nextReq = s.nextReq := rfl
@[simp] theorem setGroup_wave (t n : Nat) (g : Group) : (setGroup s t n g).wave = s.wave := rfl
@[simp] theorem setGroup_trigOut (t n : Nat) (g : Group) : (setGroup s t n g).trigOut = s.trigOut := rfl
@[simp] theorem setGroup_ports (t n : Nat) (g : Group) : (setGroup s t n g).ports = s.ports := rfl
@[simp] theorem setGroup_card (t n : Nat) (g : Group) : (setGroup s t n g).card = s.card := rfl
@[simp] theorem setGroup_cardDue (t n : Nat) (g : Group) : (setGroup s t n g).cardDue = s.cardDue := rfl
@[simp] theorem setGroup_flash (t n : Nat) (g : Group) : (setGroup s t n g).flash = s.flash := rfl
@[simp] theorem setGroup_startHeld (t n : Nat) (g : Group) : (setGroup s t n g).startHeld = s.startHeld := rfl
@[simp] theorem setGroup_draining (t n : Nat) (g : Group) : (setGroup s t n g).draining = s.draining := rfl
@[simp] theorem setGroup_places (t n : Nat) (g : Group) : (setGroup s t n g).places = s.places := rfl
@[simp] theorem setGroup_moves (t n : Nat) (g : Group) : (setGroup s t n g).moves = s.moves := rfl
@[simp] theorem setGroup_pwr (t n : Nat) (g : Group) : (setGroup s t n g).pwr = s.pwr := rfl
@[simp] theorem setGroup_guide (t n : Nat) (g : Group) : (setGroup s t n g).guide = s.guide := rfl
@[simp] theorem setGroup_cables (t n : Nat) (g : Group) : (setGroup s t n g).cables = s.cables := rfl
@[simp] theorem setGroup_records (t n : Nat) (g : Group) : (setGroup s t n g).records = s.records := rfl
@[simp] theorem setGroup_domMap (t n : Nat) (g : Group) : (setGroup s t n g).domMap = s.domMap := rfl
@[simp] theorem setGroup_route (t n : Nat) (g : Group) : (setGroup s t n g).route = s.route := rfl
@[simp] theorem setGroup_lastOrd (t n : Nat) (g : Group) : (setGroup s t n g).lastOrd = s.lastOrd := rfl
@[simp] theorem setGroup_dead (t n : Nat) (g : Group) : (setGroup s t n g).dead = s.dead := rfl
@[simp] theorem setGroup_runs (t n : Nat) (g : Group) : (setGroup s t n g).runs = s.runs := rfl
@[simp] theorem setGroup_strErr (t n : Nat) (g : Group) : (setGroup s t n g).strErr = s.strErr := rfl
@[simp] theorem setGroup_landing (t n : Nat) (g : Group) : (setGroup s t n g).landing = s.landing := rfl
@[simp] theorem setGroup_collGone (t n : Nat) (g : Group) : (setGroup s t n g).collGone = s.collGone := rfl
@[simp] theorem setGroup_anchors (t n : Nat) (g : Group) : (setGroup s t n g).anchors = s.anchors := rfl
@[simp] theorem setGroup_heldPkts (t n : Nat) (g : Group) : (setGroup s t n g).heldPkts = s.heldPkts := rfl
@[simp] theorem setGroup_hostQ (t n : Nat) (g : Group) : (setGroup s t n g).hostQ = s.hostQ := rfl
@[simp] theorem setGroup_resync (t n : Nat) (g : Group) : (setGroup s t n g).resync = s.resync := rfl
@[simp] theorem setGroup_mirLost (t n : Nat) (g : Group) : (setGroup s t n g).mirLost = s.mirLost := rfl
@[simp] theorem setGroup_queues (t n : Nat) (g : Group) : (setGroup s t n g).queues = s.queues := rfl
@[simp] theorem setGroup_engs (t n : Nat) (g : Group) : (setGroup s t n g).engs = s.engs := rfl
@[simp] theorem setGroup_cmds (t n : Nat) (g : Group) : (setGroup s t n g).cmds = s.cmds := rfl
@[simp] theorem setGroup_launches (t n : Nat) (g : Group) : (setGroup s t n g).launches = s.launches := rfl

@[simp] theorem modGroup_pending (t n : Nat) (f : Group → Group) : (modGroup s t n f).pending = s.pending := rfl
@[simp] theorem modGroup_fresh (t n : Nat) (f : Group → Group) : (modGroup s t n f).fresh = s.fresh := rfl
@[simp] theorem modGroup_partE (t n : Nat) (f : Group → Group) : (modGroup s t n f).partE = s.partE := rfl
@[simp] theorem modGroup_booted (t n : Nat) (f : Group → Group) : (modGroup s t n f).booted = s.booted := rfl
@[simp] theorem modGroup_bus (t n : Nat) (f : Group → Group) : (modGroup s t n f).bus = s.bus := rfl
@[simp] theorem modGroup_blks (t n : Nat) (f : Group → Group) : (modGroup s t n f).blks = s.blks := rfl
@[simp] theorem modGroup_reports (t n : Nat) (f : Group → Group) : (modGroup s t n f).reports = s.reports := rfl
@[simp] theorem modGroup_ram (t n : Nat) (f : Group → Group) : (modGroup s t n f).ram = s.ram := rfl
@[simp] theorem modGroup_host (t n : Nat) (f : Group → Group) : (modGroup s t n f).host = s.host := rfl
@[simp] theorem modGroup_rings (t n : Nat) (f : Group → Group) : (modGroup s t n f).rings = s.rings := rfl
@[simp] theorem modGroup_evpend (t n : Nat) (f : Group → Group) : (modGroup s t n f).evpend = s.evpend := rfl
@[simp] theorem modGroup_answers (t n : Nat) (f : Group → Group) : (modGroup s t n f).answers = s.answers := rfl
@[simp] theorem modGroup_pwrGood (t n : Nat) (f : Group → Group) : (modGroup s t n f).pwrGood = s.pwrGood := rfl
@[simp] theorem modGroup_resetLow (t n : Nat) (f : Group → Group) : (modGroup s t n f).resetLow = s.resetLow := rfl
@[simp] theorem modGroup_leftService (t n : Nat) (f : Group → Group) : (modGroup s t n f).leftService = s.leftService := rfl
@[simp] theorem modGroup_l2 (t n : Nat) (f : Group → Group) : (modGroup s t n f).l2 = s.l2 := rfl
@[simp] theorem modGroup_xcache (t n : Nat) (f : Group → Group) : (modGroup s t n f).xcache = s.xcache := rfl
@[simp] theorem modGroup_keyDue (t n : Nat) (f : Group → Group) : (modGroup s t n f).keyDue = s.keyDue := rfl
@[simp] theorem modGroup_resvs (t n : Nat) (f : Group → Group) : (modGroup s t n f).resvs = s.resvs := rfl
@[simp] theorem modGroup_served (t n : Nat) (f : Group → Group) : (modGroup s t n f).served = s.served := rfl
@[simp] theorem modGroup_ldrs (t n : Nat) (f : Group → Group) : (modGroup s t n f).ldrs = s.ldrs := rfl
@[simp] theorem modGroup_bels (t n : Nat) (f : Group → Group) : (modGroup s t n f).bels = s.bels := rfl
@[simp] theorem modGroup_txgs (t n : Nat) (f : Group → Group) : (modGroup s t n f).txgs = s.txgs := rfl
@[simp] theorem modGroup_stackTab (t n : Nat) (f : Group → Group) : (modGroup s t n f).stackTab = s.stackTab := rfl
@[simp] theorem modGroup_keys (t n : Nat) (f : Group → Group) : (modGroup s t n f).keys = s.keys := rfl
@[simp] theorem modGroup_verified (t n : Nat) (f : Group → Group) : (modGroup s t n f).verified = s.verified := rfl
@[simp] theorem modGroup_nonceUsed (t n : Nat) (f : Group → Group) : (modGroup s t n f).nonceUsed = s.nonceUsed := rfl
@[simp] theorem modGroup_tokenSlot (t n : Nat) (f : Group → Group) : (modGroup s t n f).tokenSlot = s.tokenSlot := rfl
@[simp] theorem modGroup_entropyBad (t n : Nat) (f : Group → Group) : (modGroup s t n f).entropyBad = s.entropyBad := rfl
@[simp] theorem modGroup_evq (t n : Nat) (f : Group → Group) : (modGroup s t n f).evq = s.evq := rfl
@[simp] theorem modGroup_reqs (t n : Nat) (f : Group → Group) : (modGroup s t n f).reqs = s.reqs := rfl
@[simp] theorem modGroup_nextReq (t n : Nat) (f : Group → Group) : (modGroup s t n f).nextReq = s.nextReq := rfl
@[simp] theorem modGroup_wave (t n : Nat) (f : Group → Group) : (modGroup s t n f).wave = s.wave := rfl
@[simp] theorem modGroup_trigOut (t n : Nat) (f : Group → Group) : (modGroup s t n f).trigOut = s.trigOut := rfl
@[simp] theorem modGroup_ports (t n : Nat) (f : Group → Group) : (modGroup s t n f).ports = s.ports := rfl
@[simp] theorem modGroup_card (t n : Nat) (f : Group → Group) : (modGroup s t n f).card = s.card := rfl
@[simp] theorem modGroup_cardDue (t n : Nat) (f : Group → Group) : (modGroup s t n f).cardDue = s.cardDue := rfl
@[simp] theorem modGroup_flash (t n : Nat) (f : Group → Group) : (modGroup s t n f).flash = s.flash := rfl
@[simp] theorem modGroup_startHeld (t n : Nat) (f : Group → Group) : (modGroup s t n f).startHeld = s.startHeld := rfl
@[simp] theorem modGroup_draining (t n : Nat) (f : Group → Group) : (modGroup s t n f).draining = s.draining := rfl
@[simp] theorem modGroup_places (t n : Nat) (f : Group → Group) : (modGroup s t n f).places = s.places := rfl
@[simp] theorem modGroup_moves (t n : Nat) (f : Group → Group) : (modGroup s t n f).moves = s.moves := rfl
@[simp] theorem modGroup_pwr (t n : Nat) (f : Group → Group) : (modGroup s t n f).pwr = s.pwr := rfl
@[simp] theorem modGroup_guide (t n : Nat) (f : Group → Group) : (modGroup s t n f).guide = s.guide := rfl
@[simp] theorem modGroup_cables (t n : Nat) (f : Group → Group) : (modGroup s t n f).cables = s.cables := rfl
@[simp] theorem modGroup_records (t n : Nat) (f : Group → Group) : (modGroup s t n f).records = s.records := rfl
@[simp] theorem modGroup_domMap (t n : Nat) (f : Group → Group) : (modGroup s t n f).domMap = s.domMap := rfl
@[simp] theorem modGroup_route (t n : Nat) (f : Group → Group) : (modGroup s t n f).route = s.route := rfl
@[simp] theorem modGroup_lastOrd (t n : Nat) (f : Group → Group) : (modGroup s t n f).lastOrd = s.lastOrd := rfl
@[simp] theorem modGroup_dead (t n : Nat) (f : Group → Group) : (modGroup s t n f).dead = s.dead := rfl
@[simp] theorem modGroup_runs (t n : Nat) (f : Group → Group) : (modGroup s t n f).runs = s.runs := rfl
@[simp] theorem modGroup_strErr (t n : Nat) (f : Group → Group) : (modGroup s t n f).strErr = s.strErr := rfl
@[simp] theorem modGroup_landing (t n : Nat) (f : Group → Group) : (modGroup s t n f).landing = s.landing := rfl
@[simp] theorem modGroup_collGone (t n : Nat) (f : Group → Group) : (modGroup s t n f).collGone = s.collGone := rfl
@[simp] theorem modGroup_anchors (t n : Nat) (f : Group → Group) : (modGroup s t n f).anchors = s.anchors := rfl
@[simp] theorem modGroup_heldPkts (t n : Nat) (f : Group → Group) : (modGroup s t n f).heldPkts = s.heldPkts := rfl
@[simp] theorem modGroup_hostQ (t n : Nat) (f : Group → Group) : (modGroup s t n f).hostQ = s.hostQ := rfl
@[simp] theorem modGroup_resync (t n : Nat) (f : Group → Group) : (modGroup s t n f).resync = s.resync := rfl
@[simp] theorem modGroup_mirLost (t n : Nat) (f : Group → Group) : (modGroup s t n f).mirLost = s.mirLost := rfl
@[simp] theorem modGroup_queues (t n : Nat) (f : Group → Group) : (modGroup s t n f).queues = s.queues := rfl
@[simp] theorem modGroup_engs (t n : Nat) (f : Group → Group) : (modGroup s t n f).engs = s.engs := rfl
@[simp] theorem modGroup_cmds (t n : Nat) (f : Group → Group) : (modGroup s t n f).cmds = s.cmds := rfl
@[simp] theorem modGroup_launches (t n : Nat) (f : Group → Group) : (modGroup s t n f).launches = s.launches := rfl

@[simp] theorem setWg_pending (t w : Nat) (x : Wg) : (setWg s t w x).pending = s.pending := rfl
@[simp] theorem setWg_fresh (t w : Nat) (x : Wg) : (setWg s t w x).fresh = s.fresh := rfl
@[simp] theorem setWg_partE (t w : Nat) (x : Wg) : (setWg s t w x).partE = s.partE := rfl
@[simp] theorem setWg_booted (t w : Nat) (x : Wg) : (setWg s t w x).booted = s.booted := rfl
@[simp] theorem setWg_bus (t w : Nat) (x : Wg) : (setWg s t w x).bus = s.bus := rfl
@[simp] theorem setWg_blks (t w : Nat) (x : Wg) : (setWg s t w x).blks = s.blks := rfl
@[simp] theorem setWg_reports (t w : Nat) (x : Wg) : (setWg s t w x).reports = s.reports := rfl
@[simp] theorem setWg_ram (t w : Nat) (x : Wg) : (setWg s t w x).ram = s.ram := rfl
@[simp] theorem setWg_host (t w : Nat) (x : Wg) : (setWg s t w x).host = s.host := rfl
@[simp] theorem setWg_rings (t w : Nat) (x : Wg) : (setWg s t w x).rings = s.rings := rfl
@[simp] theorem setWg_evpend (t w : Nat) (x : Wg) : (setWg s t w x).evpend = s.evpend := rfl
@[simp] theorem setWg_answers (t w : Nat) (x : Wg) : (setWg s t w x).answers = s.answers := rfl
@[simp] theorem setWg_pwrGood (t w : Nat) (x : Wg) : (setWg s t w x).pwrGood = s.pwrGood := rfl
@[simp] theorem setWg_resetLow (t w : Nat) (x : Wg) : (setWg s t w x).resetLow = s.resetLow := rfl
@[simp] theorem setWg_leftService (t w : Nat) (x : Wg) : (setWg s t w x).leftService = s.leftService := rfl
@[simp] theorem setWg_l2 (t w : Nat) (x : Wg) : (setWg s t w x).l2 = s.l2 := rfl
@[simp] theorem setWg_xcache (t w : Nat) (x : Wg) : (setWg s t w x).xcache = s.xcache := rfl
@[simp] theorem setWg_keyDue (t w : Nat) (x : Wg) : (setWg s t w x).keyDue = s.keyDue := rfl
@[simp] theorem setWg_resvs (t w : Nat) (x : Wg) : (setWg s t w x).resvs = s.resvs := rfl
@[simp] theorem setWg_served (t w : Nat) (x : Wg) : (setWg s t w x).served = s.served := rfl
@[simp] theorem setWg_ldrs (t w : Nat) (x : Wg) : (setWg s t w x).ldrs = s.ldrs := rfl
@[simp] theorem setWg_bels (t w : Nat) (x : Wg) : (setWg s t w x).bels = s.bels := rfl
@[simp] theorem setWg_txgs (t w : Nat) (x : Wg) : (setWg s t w x).txgs = s.txgs := rfl
@[simp] theorem setWg_stackTab (t w : Nat) (x : Wg) : (setWg s t w x).stackTab = s.stackTab := rfl
@[simp] theorem setWg_keys (t w : Nat) (x : Wg) : (setWg s t w x).keys = s.keys := rfl
@[simp] theorem setWg_verified (t w : Nat) (x : Wg) : (setWg s t w x).verified = s.verified := rfl
@[simp] theorem setWg_nonceUsed (t w : Nat) (x : Wg) : (setWg s t w x).nonceUsed = s.nonceUsed := rfl
@[simp] theorem setWg_tokenSlot (t w : Nat) (x : Wg) : (setWg s t w x).tokenSlot = s.tokenSlot := rfl
@[simp] theorem setWg_entropyBad (t w : Nat) (x : Wg) : (setWg s t w x).entropyBad = s.entropyBad := rfl
@[simp] theorem setWg_evq (t w : Nat) (x : Wg) : (setWg s t w x).evq = s.evq := rfl
@[simp] theorem setWg_reqs (t w : Nat) (x : Wg) : (setWg s t w x).reqs = s.reqs := rfl
@[simp] theorem setWg_nextReq (t w : Nat) (x : Wg) : (setWg s t w x).nextReq = s.nextReq := rfl
@[simp] theorem setWg_wave (t w : Nat) (x : Wg) : (setWg s t w x).wave = s.wave := rfl
@[simp] theorem setWg_trigOut (t w : Nat) (x : Wg) : (setWg s t w x).trigOut = s.trigOut := rfl
@[simp] theorem setWg_ports (t w : Nat) (x : Wg) : (setWg s t w x).ports = s.ports := rfl
@[simp] theorem setWg_card (t w : Nat) (x : Wg) : (setWg s t w x).card = s.card := rfl
@[simp] theorem setWg_cardDue (t w : Nat) (x : Wg) : (setWg s t w x).cardDue = s.cardDue := rfl
@[simp] theorem setWg_flash (t w : Nat) (x : Wg) : (setWg s t w x).flash = s.flash := rfl
@[simp] theorem setWg_startHeld (t w : Nat) (x : Wg) : (setWg s t w x).startHeld = s.startHeld := rfl
@[simp] theorem setWg_draining (t w : Nat) (x : Wg) : (setWg s t w x).draining = s.draining := rfl
@[simp] theorem setWg_places (t w : Nat) (x : Wg) : (setWg s t w x).places = s.places := rfl
@[simp] theorem setWg_moves (t w : Nat) (x : Wg) : (setWg s t w x).moves = s.moves := rfl
@[simp] theorem setWg_pwr (t w : Nat) (x : Wg) : (setWg s t w x).pwr = s.pwr := rfl
@[simp] theorem setWg_guide (t w : Nat) (x : Wg) : (setWg s t w x).guide = s.guide := rfl
@[simp] theorem setWg_cables (t w : Nat) (x : Wg) : (setWg s t w x).cables = s.cables := rfl
@[simp] theorem setWg_records (t w : Nat) (x : Wg) : (setWg s t w x).records = s.records := rfl
@[simp] theorem setWg_domMap (t w : Nat) (x : Wg) : (setWg s t w x).domMap = s.domMap := rfl
@[simp] theorem setWg_route (t w : Nat) (x : Wg) : (setWg s t w x).route = s.route := rfl
@[simp] theorem setWg_lastOrd (t w : Nat) (x : Wg) : (setWg s t w x).lastOrd = s.lastOrd := rfl
@[simp] theorem setWg_dead (t w : Nat) (x : Wg) : (setWg s t w x).dead = s.dead := rfl
@[simp] theorem setWg_runs (t w : Nat) (x : Wg) : (setWg s t w x).runs = s.runs := rfl
@[simp] theorem setWg_strErr (t w : Nat) (x : Wg) : (setWg s t w x).strErr = s.strErr := rfl
@[simp] theorem setWg_landing (t w : Nat) (x : Wg) : (setWg s t w x).landing = s.landing := rfl
@[simp] theorem setWg_collGone (t w : Nat) (x : Wg) : (setWg s t w x).collGone = s.collGone := rfl
@[simp] theorem setWg_anchors (t w : Nat) (x : Wg) : (setWg s t w x).anchors = s.anchors := rfl
@[simp] theorem setWg_heldPkts (t w : Nat) (x : Wg) : (setWg s t w x).heldPkts = s.heldPkts := rfl
@[simp] theorem setWg_hostQ (t w : Nat) (x : Wg) : (setWg s t w x).hostQ = s.hostQ := rfl
@[simp] theorem setWg_resync (t w : Nat) (x : Wg) : (setWg s t w x).resync = s.resync := rfl
@[simp] theorem setWg_mirLost (t w : Nat) (x : Wg) : (setWg s t w x).mirLost = s.mirLost := rfl
@[simp] theorem setWg_queues (t w : Nat) (x : Wg) : (setWg s t w x).queues = s.queues := rfl
@[simp] theorem setWg_engs (t w : Nat) (x : Wg) : (setWg s t w x).engs = s.engs := rfl
@[simp] theorem setWg_cmds (t w : Nat) (x : Wg) : (setWg s t w x).cmds = s.cmds := rfl
@[simp] theorem setWg_launches (t w : Nat) (x : Wg) : (setWg s t w x).launches = s.launches := rfl

@[simp] theorem modWg_pending (t w : Nat) (f : Wg → Wg) : (modWg s t w f).pending = s.pending := rfl
@[simp] theorem modWg_fresh (t w : Nat) (f : Wg → Wg) : (modWg s t w f).fresh = s.fresh := rfl
@[simp] theorem modWg_partE (t w : Nat) (f : Wg → Wg) : (modWg s t w f).partE = s.partE := rfl
@[simp] theorem modWg_booted (t w : Nat) (f : Wg → Wg) : (modWg s t w f).booted = s.booted := rfl
@[simp] theorem modWg_bus (t w : Nat) (f : Wg → Wg) : (modWg s t w f).bus = s.bus := rfl
@[simp] theorem modWg_blks (t w : Nat) (f : Wg → Wg) : (modWg s t w f).blks = s.blks := rfl
@[simp] theorem modWg_reports (t w : Nat) (f : Wg → Wg) : (modWg s t w f).reports = s.reports := rfl
@[simp] theorem modWg_ram (t w : Nat) (f : Wg → Wg) : (modWg s t w f).ram = s.ram := rfl
@[simp] theorem modWg_host (t w : Nat) (f : Wg → Wg) : (modWg s t w f).host = s.host := rfl
@[simp] theorem modWg_rings (t w : Nat) (f : Wg → Wg) : (modWg s t w f).rings = s.rings := rfl
@[simp] theorem modWg_evpend (t w : Nat) (f : Wg → Wg) : (modWg s t w f).evpend = s.evpend := rfl
@[simp] theorem modWg_answers (t w : Nat) (f : Wg → Wg) : (modWg s t w f).answers = s.answers := rfl
@[simp] theorem modWg_pwrGood (t w : Nat) (f : Wg → Wg) : (modWg s t w f).pwrGood = s.pwrGood := rfl
@[simp] theorem modWg_resetLow (t w : Nat) (f : Wg → Wg) : (modWg s t w f).resetLow = s.resetLow := rfl
@[simp] theorem modWg_leftService (t w : Nat) (f : Wg → Wg) : (modWg s t w f).leftService = s.leftService := rfl
@[simp] theorem modWg_l2 (t w : Nat) (f : Wg → Wg) : (modWg s t w f).l2 = s.l2 := rfl
@[simp] theorem modWg_xcache (t w : Nat) (f : Wg → Wg) : (modWg s t w f).xcache = s.xcache := rfl
@[simp] theorem modWg_keyDue (t w : Nat) (f : Wg → Wg) : (modWg s t w f).keyDue = s.keyDue := rfl
@[simp] theorem modWg_resvs (t w : Nat) (f : Wg → Wg) : (modWg s t w f).resvs = s.resvs := rfl
@[simp] theorem modWg_served (t w : Nat) (f : Wg → Wg) : (modWg s t w f).served = s.served := rfl
@[simp] theorem modWg_ldrs (t w : Nat) (f : Wg → Wg) : (modWg s t w f).ldrs = s.ldrs := rfl
@[simp] theorem modWg_bels (t w : Nat) (f : Wg → Wg) : (modWg s t w f).bels = s.bels := rfl
@[simp] theorem modWg_txgs (t w : Nat) (f : Wg → Wg) : (modWg s t w f).txgs = s.txgs := rfl
@[simp] theorem modWg_stackTab (t w : Nat) (f : Wg → Wg) : (modWg s t w f).stackTab = s.stackTab := rfl
@[simp] theorem modWg_keys (t w : Nat) (f : Wg → Wg) : (modWg s t w f).keys = s.keys := rfl
@[simp] theorem modWg_verified (t w : Nat) (f : Wg → Wg) : (modWg s t w f).verified = s.verified := rfl
@[simp] theorem modWg_nonceUsed (t w : Nat) (f : Wg → Wg) : (modWg s t w f).nonceUsed = s.nonceUsed := rfl
@[simp] theorem modWg_tokenSlot (t w : Nat) (f : Wg → Wg) : (modWg s t w f).tokenSlot = s.tokenSlot := rfl
@[simp] theorem modWg_entropyBad (t w : Nat) (f : Wg → Wg) : (modWg s t w f).entropyBad = s.entropyBad := rfl
@[simp] theorem modWg_evq (t w : Nat) (f : Wg → Wg) : (modWg s t w f).evq = s.evq := rfl
@[simp] theorem modWg_reqs (t w : Nat) (f : Wg → Wg) : (modWg s t w f).reqs = s.reqs := rfl
@[simp] theorem modWg_nextReq (t w : Nat) (f : Wg → Wg) : (modWg s t w f).nextReq = s.nextReq := rfl
@[simp] theorem modWg_wave (t w : Nat) (f : Wg → Wg) : (modWg s t w f).wave = s.wave := rfl
@[simp] theorem modWg_trigOut (t w : Nat) (f : Wg → Wg) : (modWg s t w f).trigOut = s.trigOut := rfl
@[simp] theorem modWg_ports (t w : Nat) (f : Wg → Wg) : (modWg s t w f).ports = s.ports := rfl
@[simp] theorem modWg_card (t w : Nat) (f : Wg → Wg) : (modWg s t w f).card = s.card := rfl
@[simp] theorem modWg_cardDue (t w : Nat) (f : Wg → Wg) : (modWg s t w f).cardDue = s.cardDue := rfl
@[simp] theorem modWg_flash (t w : Nat) (f : Wg → Wg) : (modWg s t w f).flash = s.flash := rfl
@[simp] theorem modWg_startHeld (t w : Nat) (f : Wg → Wg) : (modWg s t w f).startHeld = s.startHeld := rfl
@[simp] theorem modWg_draining (t w : Nat) (f : Wg → Wg) : (modWg s t w f).draining = s.draining := rfl
@[simp] theorem modWg_places (t w : Nat) (f : Wg → Wg) : (modWg s t w f).places = s.places := rfl
@[simp] theorem modWg_moves (t w : Nat) (f : Wg → Wg) : (modWg s t w f).moves = s.moves := rfl
@[simp] theorem modWg_pwr (t w : Nat) (f : Wg → Wg) : (modWg s t w f).pwr = s.pwr := rfl
@[simp] theorem modWg_guide (t w : Nat) (f : Wg → Wg) : (modWg s t w f).guide = s.guide := rfl
@[simp] theorem modWg_cables (t w : Nat) (f : Wg → Wg) : (modWg s t w f).cables = s.cables := rfl
@[simp] theorem modWg_records (t w : Nat) (f : Wg → Wg) : (modWg s t w f).records = s.records := rfl
@[simp] theorem modWg_domMap (t w : Nat) (f : Wg → Wg) : (modWg s t w f).domMap = s.domMap := rfl
@[simp] theorem modWg_route (t w : Nat) (f : Wg → Wg) : (modWg s t w f).route = s.route := rfl
@[simp] theorem modWg_lastOrd (t w : Nat) (f : Wg → Wg) : (modWg s t w f).lastOrd = s.lastOrd := rfl
@[simp] theorem modWg_dead (t w : Nat) (f : Wg → Wg) : (modWg s t w f).dead = s.dead := rfl
@[simp] theorem modWg_runs (t w : Nat) (f : Wg → Wg) : (modWg s t w f).runs = s.runs := rfl
@[simp] theorem modWg_strErr (t w : Nat) (f : Wg → Wg) : (modWg s t w f).strErr = s.strErr := rfl
@[simp] theorem modWg_landing (t w : Nat) (f : Wg → Wg) : (modWg s t w f).landing = s.landing := rfl
@[simp] theorem modWg_collGone (t w : Nat) (f : Wg → Wg) : (modWg s t w f).collGone = s.collGone := rfl
@[simp] theorem modWg_anchors (t w : Nat) (f : Wg → Wg) : (modWg s t w f).anchors = s.anchors := rfl
@[simp] theorem modWg_heldPkts (t w : Nat) (f : Wg → Wg) : (modWg s t w f).heldPkts = s.heldPkts := rfl
@[simp] theorem modWg_hostQ (t w : Nat) (f : Wg → Wg) : (modWg s t w f).hostQ = s.hostQ := rfl
@[simp] theorem modWg_resync (t w : Nat) (f : Wg → Wg) : (modWg s t w f).resync = s.resync := rfl
@[simp] theorem modWg_mirLost (t w : Nat) (f : Wg → Wg) : (modWg s t w f).mirLost = s.mirLost := rfl
@[simp] theorem modWg_queues (t w : Nat) (f : Wg → Wg) : (modWg s t w f).queues = s.queues := rfl
@[simp] theorem modWg_engs (t w : Nat) (f : Wg → Wg) : (modWg s t w f).engs = s.engs := rfl
@[simp] theorem modWg_cmds (t w : Nat) (f : Wg → Wg) : (modWg s t w f).cmds = s.cmds := rfl
@[simp] theorem modWg_launches (t w : Nat) (f : Wg → Wg) : (modWg s t w f).launches = s.launches := rfl

@[simp] theorem setBlk_blks (pg : Nat) (b : Blk) : (setBlk s pg b).blks = tput s.blks pg b := rfl
@[simp] theorem takeFree_fresh : (takeFree s).2.fresh = s.fresh + 1 := rfl
@[simp] theorem raise_evq (e : Ev) : (raise s e).evq = s.evq ++ [e] := rfl
@[simp] theorem setTile_tiles (t : Nat) (x : Tile) : (setTile s t x).tiles = tput s.tiles t x := rfl

end Sys2Proof.Laws
end

