-- ==== Sys2Proof/Laws/Tab.lean ====
section
/-!
SUPPORT. Tables: what a lookup finds after an update, and the order of keys.
-/
namespace Sys2Proof.Laws
open Sys2Proof.Machine

variable {α : Type}

@[simp] theorem tget?_nil (x : Nat) : tget? ([] : Tab α) x = none := rfl

@[simp] theorem tget?_tput_same (t : Tab α) (x : Nat) (a : α) : tget? (tput t x a) x = some a := by
  induction t with
  | nil => simp [tput, tget?]
  | cons p t ih =>
    obtain ⟨k, v⟩ := p
    simp only [tput]
    split
    · simp [tget?]
    · split
      · simp [tget?]
      · simp [tget?, *]

theorem tget?_tput_ne (t : Tab α) {x y : Nat} (a : α) (h : y ≠ x) : tget? (tput t x a) y = tget? t y := by
  induction t with
  | nil => simp [tput, tget?, h.symm]
  | cons p t ih =>
    obtain ⟨k, v⟩ := p
    simp only [tput]
    split
    · simp [tget?, h.symm]
    · split
      · subst_vars; simp [tget?, h.symm]
      · simp only [tget?, ih]

theorem tget?_tput (t : Tab α) (x y : Nat) (a : α) : tget? (tput t x a) y = if y = x then some a else tget? t y := by
  split
  · subst_vars; simp
  · exact tget?_tput_ne t a ‹_›

@[simp] theorem tgetD_tput_same (t : Tab α) (x : Nat) (a d : α) : tgetD (tput t x a) x d = a := by simp [tgetD]

theorem tgetD_tput_ne (t : Tab α) {x y : Nat} (a d : α) (h : y ≠ x) : tgetD (tput t x a) y d = tgetD t y d := by
  simp [tgetD, tget?_tput_ne t a h]

@[simp] theorem tget?_tdel_same (t : Tab α) (x : Nat) : tget? (tdel t x) x = none := by
  induction t with
  | nil => rfl
  | cons p t ih =>
    obtain ⟨k, v⟩ := p
    simp only [tdel]
    split
    · exact ih
    · simp [tget?, *]

theorem tget?_tdel_ne (t : Tab α) {x y : Nat} (h : y ≠ x) : tget? (tdel t x) y = tget? t y := by
  induction t with
  | nil => rfl
  | cons p t ih =>
    obtain ⟨k, v⟩ := p
    simp only [tdel]
    split
    · subst_vars; simp [tget?, ih, h.symm]
    · simp [tget?, ih]

theorem tgetD_tputD [DecidableEq α] (t : Tab α) (x y : Nat) (a d : α) :
    tgetD (tputD t x a d) y d = if y = x then a else tgetD t y d := by
  unfold tputD
  by_cases h : a = d
  · by_cases e : y = x
    · subst e; simp [tgetD, h]
    · simp [tgetD, h, e, tget?_tdel_ne t e]
  · by_cases e : y = x
    · subst e; simp [h]
    · simp [h, e, tgetD_tput_ne t a d e]

/-- A value changed by its key, all over a table. -/
theorem tget?_mapKey {β : Type} (f : Nat → α → β) (t : Tab α) (x : Nat) :
    tget? (t.map (fun p => (p.1, f p.1 p.2))) x = (tget? t x).map (f x) := by
  induction t with
  | nil => rfl
  | cons q t ih =>
    obtain ⟨k, v⟩ := q
    by_cases h : k = x
    · subst h; simp [tget?]
    · simpa [tget?, h] using ih

theorem tget?_tmod (t : Tab α) (x y : Nat) (f : α → α) :
    tget? (tmod t x f) y = if y = x then (tget? t y).map f else tget? t y := by
  induction t with
  | nil => simp [tmod, tget?]
  | cons p t ih =>
    obtain ⟨k, v⟩ := p
    simp only [tmod]
    by_cases hk : k = x
    · subst hk
      by_cases hy : y = k
      · subst hy; simp [tget?]
      · simp [tget?, hy, Ne.symm hy]
    · simp only [hk, if_false, tget?]
      by_cases hy : k = y
      · subst hy; simp [hk]
      · simp [hy, ih]

/-- Every key of a table lies above a bound. -/
def keysAbove (b : Nat) (t : Tab α) : Prop := ∀ p ∈ t, b < p.1

theorem tabOk_cons (k : Nat) (v : α) (t : Tab α) : tabOk ((k, v) :: t) = true ↔ keysAbove k t ∧ tabOk t = true := by
  induction t generalizing k v with
  | nil => simp [tabOk, keysAbove]
  | cons p t ih =>
    obtain ⟨k', v'⟩ := p
    rw [tabOk, Bool.and_eq_true, decide_eq_true_iff]
    refine and_congr_left fun h => ⟨fun hk => ?_, fun h' => h' _ List.mem_cons_self⟩
    intro p hp
    rcases List.mem_cons.1 hp with rfl | hp
    · exact hk
    · exact lt_trans hk (((ih k' v').1 h).1 p hp)

theorem keysAbove_tput {b : Nat} {t : Tab α} {x : Nat} (a : α) (ht : keysAbove b t) (hx : b < x) :
    keysAbove b (tput t x a) := by
  induction t with
  | nil => intro p hp; simp [tput] at hp; subst hp; exact hx
  | cons q t ih =>
    obtain ⟨k, v⟩ := q
    intro p hp
    simp only [tput] at hp
    split at hp
    · rcases List.mem_cons.1 hp with rfl | hp
      · exact hx
      · exact ht p hp
    · split at hp
      · rcases List.mem_cons.1 hp with rfl | hp
        · exact hx
        · exact ht p (List.mem_cons_of_mem _ hp)
      · rcases List.mem_cons.1 hp with rfl | hp
        · exact ht _ List.mem_cons_self
        · exact ih (fun q hq => ht q (List.mem_cons_of_mem _ hq)) p hp

/-- A table in order stays in order when a key is set. -/
theorem tabOk_tput {t : Tab α} (x : Nat) (a : α) (h : tabOk t = true) : tabOk (tput t x a) = true := by
  induction t with
  | nil => rfl
  | cons q t ih =>
    obtain ⟨k, v⟩ := q
    obtain ⟨h1, h2⟩ := (tabOk_cons k v t).1 h
    simp only [tput]
    split
    · rename_i hx
      refine (tabOk_cons _ _ _).2 ⟨?_, h⟩
      intro p hp
      rcases List.mem_cons.1 hp with rfl | hp
      · exact hx
      · exact lt_trans hx (h1 p hp)
    · split
      · subst_vars; exact (tabOk_cons _ _ _).2 ⟨h1, h2⟩
      · exact (tabOk_cons _ _ _).2 ⟨keysAbove_tput a h1 (by omega), ih h2⟩

theorem keysAbove_tdel {b : Nat} {t : Tab α} (x : Nat) (ht : keysAbove b t) : keysAbove b (tdel t x) := by
  induction t with
  | nil => exact ht
  | cons q t ih =>
    obtain ⟨k, v⟩ := q
    have ht' : keysAbove b t := fun q hq => ht q (List.mem_cons_of_mem _ hq)
    simp only [tdel]
    split
    · exact ih ht'
    · intro p hp
      rcases List.mem_cons.1 hp with rfl | hp
      · exact ht _ List.mem_cons_self
      · exact ih ht' p hp

/-- A table in order stays in order when a key is removed. -/
theorem tabOk_tdel {t : Tab α} (x : Nat) (h : tabOk t = true) : tabOk (tdel t x) = true := by
  induction t with
  | nil => rfl
  | cons q t ih =>
    obtain ⟨k, v⟩ := q
    obtain ⟨h1, h2⟩ := (tabOk_cons k v t).1 h
    simp only [tdel]
    split
    · exact ih h2
    · exact (tabOk_cons _ _ _).2 ⟨keysAbove_tdel x h1, ih h2⟩

theorem tabOk_tputD [DecidableEq α] {t : Tab α} (x : Nat) (a d : α) (h : tabOk t = true) : tabOk (tputD t x a d) = true := by
  unfold tputD
  split
  · exact tabOk_tdel x h
  · exact tabOk_tput x a h

theorem mem_tput {t : Tab α} {x : Nat} {a : α} {p : Nat × α} (h : p ∈ tput t x a) : p = (x, a) ∨ p ∈ t := by
  induction t with
  | nil => simpa [tput] using h
  | cons q t ih =>
    obtain ⟨k, v⟩ := q
    simp only [tput] at h
    split at h
    · simpa using h
    · split at h
      · rcases List.mem_cons.1 h with h | h
        · exact .inl h
        · exact .inr (List.mem_cons_of_mem _ h)
      · rcases List.mem_cons.1 h with h | h
        · exact .inr (h ▸ List.mem_cons_self)
        · exact (ih h).imp_right (List.mem_cons_of_mem _)

theorem mem_tdel {t : Tab α} {x : Nat} {p : Nat × α} (h : p ∈ tdel t x) : p ∈ t := by
  induction t with
  | nil => exact h
  | cons q t ih =>
    obtain ⟨k, v⟩ := q
    simp only [tdel] at h
    split at h
    · exact List.mem_cons_of_mem _ (ih h)
    · rcases List.mem_cons.1 h with h | h
      · exact h ▸ List.mem_cons_self
      · exact List.mem_cons_of_mem _ (ih h)

/-- No value listed is the default, after a write that drops the default. -/
theorem noDef_tputD [DecidableEq α] {t : Tab α} (x : Nat) (a d : α) (h : ∀ p ∈ t, p.2 ≠ d) : ∀ p ∈ tputD t x a d, p.2 ≠ d := by
  intro p hp
  unfold tputD at hp
  split at hp
  · exact h p (mem_tdel hp)
  · rcases mem_tput hp with rfl | hp
    · assumption
    · exact h p hp

end Sys2Proof.Laws
end

