-- ==== Sys2Proof/Laws/Ops.lean ====
section
/-!
SUPPORT. Pages, registers, tiles and groups: what they hold after a named update.
-/
namespace Sys2Proof.Laws
open Sys2Proof.Machine

variable (s : State)

/-! Pages. -/

theorem blk_congr {s t : State} (h : t.blks = s.blks) (hb : t.booted = s.booted) (pg : Nat) : blk t pg = blk s pg := by
  simp [blk, h, hb]

@[simp] theorem blk_setBlk_same (pg : Nat) (b : Blk) : blk (setBlk s pg b) pg = b := by simp [blk]

theorem blk_setBlk_ne {pg pg' : Nat} (b : Blk) (h : pg' ≠ pg) : blk (setBlk s pg b) pg' = blk s pg' := by
  simp [blk, tgetD_tput_ne _ _ _ h]

@[simp] theorem blk_modBlk_same (pg : Nat) (f : Blk → Blk) : blk (modBlk s pg f) pg = f (blk s pg) := by simp [modBlk]

theorem blk_modBlk_ne {pg pg' : Nat} (f : Blk → Blk) (h : pg' ≠ pg) : blk (modBlk s pg f) pg' = blk s pg' := by
  simp [modBlk, blk_setBlk_ne s _ h]

@[simp] theorem blk_takeFree (pg : Nat) : blk (takeFree s).2 pg = blk s pg := rfl
@[simp] theorem blk_raise (e : Ev) (pg : Nat) : blk (raise s e) pg = blk s pg := rfl
@[simp] theorem blk_setTile (t : Nat) (x : Tile) (pg : Nat) : blk (setTile s t x) pg = blk s pg := rfl
@[simp] theorem blk_modTile (t : Nat) (f : Tile → Tile) (pg : Nat) : blk (modTile s t f) pg = blk s pg := rfl
@[simp] theorem blk_setGroup (t n : Nat) (g : Group) (pg : Nat) : blk (setGroup s t n g) pg = blk s pg := rfl
@[simp] theorem blk_modGroup (t n : Nat) (f : Group → Group) (pg : Nat) : blk (modGroup s t n f) pg = blk s pg := rfl
@[simp] theorem blk_modWg (t w : Nat) (f : Wg → Wg) (pg : Nat) : blk (modWg s t w f) pg = blk s pg := rfl

/-! Bit fields. -/

theorem bits_lt (n hi lo : Nat) : bits n hi lo < 2 ^ (hi + 1 - lo) := Nat.mod_lt _ (Nat.two_pow_pos _)

theorem bits_testBit (n hi lo i : Nat) : (bits n hi lo).testBit i = (decide (i < hi + 1 - lo) && n.testBit (lo + i)) := by
  unfold bits
  rw [Nat.testBit_mod_two_pow, Nat.testBit_shiftRight]

theorem setBits_testBit (n hi lo v i : Nat) (h : lo ≤ hi) :
    (setBits n hi lo v).testBit i = if i < lo then n.testBit i else if i ≤ hi then v.testBit (i - lo) else n.testBit i := by
  have hw : hi + 1 - lo + lo = hi + 1 := by omega
  have h1 : v % 2 ^ (hi + 1 - lo) * 2 ^ lo < 2 ^ (hi + 1) := by
    have e : 2 ^ (hi + 1) = 2 ^ (hi + 1 - lo) * 2 ^ lo := by rw [← pow_add, hw]
    rw [e]; exact Nat.mul_lt_mul_of_pos_right (Nat.mod_lt _ (Nat.two_pow_pos _)) (Nat.two_pow_pos _)
  have h2 : n % 2 ^ lo + v % 2 ^ (hi + 1 - lo) * 2 ^ lo = v % 2 ^ (hi + 1 - lo) * 2 ^ lo ||| n % 2 ^ lo := by
    rw [Nat.add_comm, Nat.mul_comm]; exact Nat.two_pow_add_eq_or_of_lt (Nat.mod_lt _ (Nat.two_pow_pos _)) _
  have h3 : n % 2 ^ lo + v % 2 ^ (hi + 1 - lo) * 2 ^ lo < 2 ^ (hi + 1) := by
    rw [h2]
    exact Nat.or_lt_two_pow h1 (lt_of_lt_of_le (Nat.mod_lt _ (Nat.two_pow_pos _)) (Nat.pow_le_pow_right (by decide) (by omega)))
  unfold setBits
  rw [Nat.add_comm, Nat.mul_comm (n >>> (hi + 1)), Nat.two_pow_add_eq_or_of_lt h3, h2]
  simp only [Nat.testBit_or, Nat.testBit_mod_two_pow, Nat.testBit_mul_two_pow, Nat.testBit_two_pow_mul, Nat.testBit_shiftRight]
  by_cases c1 : i < lo
  · have : ¬ lo ≤ i := by omega
    have : ¬ hi + 1 ≤ i := by omega
    simp [*]
  · by_cases c2 : i ≤ hi
    · have : lo ≤ i := by omega
      have : ¬ hi + 1 ≤ i := by omega
      have : i - lo < hi + 1 - lo := by omega
      simp [*]
    · have : hi + 1 ≤ i := by omega
      have : ¬ i - lo < hi + 1 - lo := by omega
      have : hi + 1 + (i - (hi + 1)) = i := by omega
      simp [*]

/-- A field just set reads as set. -/
theorem bits_setBits_same (n hi lo v : Nat) (h : lo ≤ hi) : bits (setBits n hi lo v) hi lo = v % 2 ^ (hi + 1 - lo) := by
  apply Nat.eq_of_testBit_eq
  intro i
  rw [bits_testBit, setBits_testBit _ _ _ _ _ h, Nat.testBit_mod_two_pow]
  by_cases hi' : i < hi + 1 - lo
  · have : ¬ lo + i < lo := by omega
    have : lo + i ≤ hi := by omega
    have : lo + i - lo = i := by omega
    simp [*]
  · simp [hi']

/-- A field outside the one set keeps its value. -/
theorem bits_setBits_ne (n hi lo v hi' lo' : Nat) (h : lo ≤ hi) (hd : hi < lo' ∨ hi' < lo) :
    bits (setBits n hi lo v) hi' lo' = bits n hi' lo' := by
  apply Nat.eq_of_testBit_eq
  intro i
  rw [bits_testBit, bits_testBit, setBits_testBit _ _ _ _ _ h]
  by_cases hi'' : i < hi' + 1 - lo'
  · rcases hd with hd | hd
    · have : ¬ lo' + i < lo := by omega
      have : ¬ lo' + i ≤ hi := by omega
      simp [*]
    · have : lo' + i < lo := by omega
      simp [*]
  · simp [hi'']

theorem setBits_lt (n hi lo v w : Nat) (h : lo ≤ hi) (hw : hi < w) (hn : n < 2 ^ w) : setBits n hi lo v < 2 ^ w := by
  apply Nat.lt_pow_two_of_testBit
  intro i hi'
  rw [setBits_testBit _ _ _ _ _ h]
  have : ¬ i < lo := by omega
  have : ¬ i ≤ hi := by omega
  simp only [*, if_false]
  exact Nat.testBit_lt_two_pow (lt_of_lt_of_le hn (Nat.pow_le_pow_right (by decide) hi'))

theorem fld_putFld_same (w : Word) (hi lo v : Nat) (h : lo ≤ hi) (hw : hi < 32) : fld (putFld w hi lo v) hi lo = v % 2 ^ (hi + 1 - lo) := by
  unfold fld putFld
  rw [BitVec.toNat_ofNat, Nat.mod_eq_of_lt (setBits_lt _ _ _ _ 32 h hw w.isLt), bits_setBits_same _ _ _ _ h]

theorem fld_putFld_ne (w : Word) (hi lo v hi' lo' : Nat) (h : lo ≤ hi) (hw : hi < 32) (hd : hi < lo' ∨ hi' < lo) :
    fld (putFld w hi lo v) hi' lo' = fld w hi' lo' := by
  unfold fld putFld
  rw [BitVec.toNat_ofNat, Nat.mod_eq_of_lt (setBits_lt _ _ _ _ 32 h hw w.isLt), bits_setBits_ne _ _ _ _ _ _ h hd]

/-! Registers. -/

@[simp] theorem regW_setReg_same (pg off : Nat) (w : Word) : regW (setReg s pg off w) pg off = w := by simp [regW, setReg]

theorem regW_setReg_ne {pg off pg' off' : Nat} (w : Word) (h : pg' ≠ pg ∨ off' ≠ off) :
    regW (setReg s pg off w) pg' off' = regW s pg' off' := by
  unfold regW setReg
  by_cases hp : pg' = pg
  · subst hp
    have ho : off' ≠ off := by simpa using h
    simp [tget?_tput_ne _ _ ho]
  · rw [blk_modBlk_ne s _ hp]; simp

theorem regF_setRegF_same (pg off hi lo v : Nat) (h : lo ≤ hi) (hw : hi < 32) :
    regF (setRegF s pg off hi lo v) pg off hi lo = v % 2 ^ (hi + 1 - lo) := by
  simp [regF, setRegF, fld_putFld_same _ _ _ _ h hw]

theorem regF_setRegF_field (pg off hi lo v hi' lo' : Nat) (h : lo ≤ hi) (hw : hi < 32) (hd : hi < lo' ∨ hi' < lo) :
    regF (setRegF s pg off hi lo v) pg off hi' lo' = regF s pg off hi' lo' := by
  simp [regF, setRegF, fld_putFld_ne _ _ _ _ _ _ h hw hd]

theorem regF_setRegF_ne {pg off pg' off' : Nat} (hi lo v hi' lo' : Nat) (h : pg' ≠ pg ∨ off' ≠ off) :
    regF (setRegF s pg off hi lo v) pg' off' hi' lo' = regF s pg' off' hi' lo' := by
  simp [regF, setRegF, regW_setReg_ne s _ h]

/-- A counter field goes up, and stays at its highest value. -/
theorem regF_bumpF_same (pg off hi lo k : Nat) (h : lo ≤ hi) (hw : hi < 32) :
    regF (bumpF s pg off hi lo k) pg off hi lo = satAdd (regF s pg off hi lo) k (2 ^ (hi + 1 - lo) - 1) := by
  unfold bumpF
  rw [regF_setRegF_same s _ _ _ _ _ h hw]
  apply Nat.mod_eq_of_lt
  have := Nat.two_pow_pos (hi + 1 - lo)
  unfold satAdd
  split <;> omega

/-! Tiles and groups. -/

theorem tile_congr {s t : State} (h : t.tiles = s.tiles) (n : Nat) : tile t n = tile s n := by simp [tile, h]

@[simp] theorem tile_setTile_same (t : Nat) (x : Tile) : tile (setTile s t x) t = x := by simp [tile]
theorem tile_setTile_ne {t t' : Nat} (x : Tile) (h : t' ≠ t) : tile (setTile s t x) t' = tile s t' := by
  simp [tile, tgetD_tput_ne _ _ _ h]
@[simp] theorem tile_modTile_same (t : Nat) (f : Tile → Tile) : tile (modTile s t f) t = f (tile s t) := by simp [modTile]
theorem tile_modTile_ne {t t' : Nat} (f : Tile → Tile) (h : t' ≠ t) : tile (modTile s t f) t' = tile s t' := by
  simp [modTile, tile_setTile_ne s _ h]

@[simp] theorem tile_setBlk (pg : Nat) (b : Blk) (t : Nat) : tile (setBlk s pg b) t = tile s t := rfl
@[simp] theorem tile_modBlk (pg : Nat) (f : Blk → Blk) (t : Nat) : tile (modBlk s pg f) t = tile s t := rfl
@[simp] theorem tile_setReg (pg off : Nat) (w : Word) (t : Nat) : tile (setReg s pg off w) t = tile s t := rfl
@[simp] theorem tile_setRegF (pg off hi lo v : Nat) (t : Nat) : tile (setRegF s pg off hi lo v) t = tile s t := rfl
@[simp] theorem tile_bumpF (pg off hi lo k : Nat) (t : Nat) : tile (bumpF s pg off hi lo k) t = tile s t := rfl
@[simp] theorem tile_takeFree (t : Nat) : tile (takeFree s).2 t = tile s t := rfl

@[simp] theorem group?_setGroup_same (t n : Nat) (g : Group) : group? (setGroup s t n g) t n = some g := by
  simp [group?, setGroup]

theorem group?_setGroup_ne {t n t' n' : Nat} (g : Group) (h : t' ≠ t ∨ n' ≠ n) : group? (setGroup s t n g) t' n' = group? s t' n' := by
  unfold group? setGroup
  by_cases ht : t' = t
  · subst ht
    have hn : n' ≠ n := by simpa using h
    simp [tget?_tput_ne _ _ hn]
  · rw [tile_modTile_ne s _ ht]

theorem group?_modGroup (t n t' n' : Nat) (f : Group → Group) :
    group? (modGroup s t n f) t' n' = if t' = t ∧ n' = n then (group? s t' n').map f else group? s t' n' := by
  unfold group? modGroup
  by_cases ht : t' = t
  · subst ht; simp [tget?_tmod]
  · rw [tile_modTile_ne s _ ht]; simp [ht]

/-! Errors. -/

/-- An error sets its status bit (R53). -/
theorem err_errStat (b : Blk) (bit addr : Nat) : (b.err bit addr).errStat = b.errStat ||| (1#32 <<< bit) := rfl

/-- Every later error counts, up to 0xFFFF (R53). -/
theorem err_errCnt (b : Blk) (bit addr : Nat) : (b.err bit addr).errCnt = satAdd b.errCnt 1 0xFFFF := rfl

/-- The address of the first unmasked error stays (R53). -/
theorem err_keeps (b : Blk) (bit addr : Nat) (h : b.errValid = true) :
    (b.err bit addr).errAddr = b.errAddr ∧ (b.err bit addr).errBit = b.errBit := by
  simp [Blk.err, h]

/-- A transition sets PREV and counts in SEQ (R40). -/
theorem enter_eq (b : Blk) (st : BState) : (b.enter st).st = st ∧ (b.enter st).prev = b.st ∧ (b.enter st).seq = (b.seq + 1) % 65536 :=
  ⟨rfl, rfl, rfl⟩

end Sys2Proof.Laws
end

