-- ==== Sys2Proof/Laws/Issue.lean ====
section
/-!
SUPPORT. Issue of a bundle: what the thread core's step and the performance counters leave alone, and what the state is after a
bundle of a control or a vector operation.
-/
namespace Sys2Proof.Laws
open Sys2Proof.Machine Sys2Proof.Safety

/-! Performance counters change nothing but themselves. -/

/-- A state that differs from another in the performance counters of one tile alone. -/
def PerfOnly (s t : State) (n : Nat) : Prop := ∃ p, t = modTile s n (fun x => { x with perf := p })

theorem tput_tput {α : Type} (t : Tab α) (x : Nat) (a b : α) : tput (tput t x a) x b = tput t x b := by
  induction t with
  | nil => simp [tput]
  | cons q t ih =>
    obtain ⟨k, v⟩ := q
    simp only [tput]
    by_cases h1 : x < k
    · simp [h1, tput]
    · by_cases h2 : k = x
      · subst h2; simp [tput]
      · simp [h1, h2, tput, ih]

theorem modTile_modTile (s : State) (n : Nat) (f g : Tile → Tile) : modTile (modTile s n f) n g = modTile s n (fun x => g (f x)) := by
  simp [modTile, setTile, tile, tput_tput]

theorem foldl_keeps {α : Type} (P : State → Prop) (f : State → α → State) (h : ∀ s x, P s → P (f s x)) (xs : List α) :
    ∀ s, P s → P (xs.foldl f s) := by
  induction xs with
  | nil => intro s hs; exact hs
  | cons x xs ih => intro s hs; exact ih _ (h s x hs)

/-- Two states whose named tile differs in its performance counters alone. -/
structure SameButPerf (s t : State) (n : Nat) : Prop where
  rest   : { t with tiles := [] } = { s with tiles := [] }
  tiles  : ∀ m, m ≠ n → tile t m = tile s m
  here   : tile t n = { tile s n with perf := (tile t n).perf }

theorem SameButPerf.refl (s : State) (n : Nat) : SameButPerf s s n := ⟨rfl, fun _ _ => rfl, rfl⟩

theorem perfCount_same (s : State) (n ev k : Nat) : SameButPerf s (perfCount s n ev k) n := by
  unfold perfCount
  simp only
  split
  · refine foldl_keeps (fun t => SameButPerf s t n) _ ?_ _ s (SameButPerf.refl s n)
    intro t c ht
    split
    · refine ⟨?_, ?_, ?_⟩
      · exact ht.rest
      · intro m hm; rw [tile_modTile_ne _ _ hm]; exact ht.tiles m hm
      · rw [tile_modTile_same, ht.here]
    · exact ht
  · exact SameButPerf.refl s n

theorem SameButPerf.group? {s t : State} {n : Nat} (h : SameButPerf s t n) (m k : Nat) : group? t m k = group? s m k := by
  unfold Machine.group?
  by_cases hm : m = n
  · subst hm; rw [h.here]
  · rw [h.tiles m hm]

theorem SameButPerf.wgs {s t : State} {n : Nat} (h : SameButPerf s t n) (m : Nat) : (tile t m).wgs = (tile s m).wgs := by
  by_cases hm : m = n
  · subst hm; rw [h.here]
  · rw [h.tiles m hm]

theorem SameButPerf.blk {s t : State} {n : Nat} (h : SameButPerf s t n) (pg : Nat) : Machine.blk t pg = Machine.blk s pg := by
  have h1 : t.blks = s.blks := by have := congrArg State.blks h.rest; exact this
  have h2 : t.booted = s.booted := by have := congrArg State.booted h.rest; exact this
  exact blk_congr h1 h2 pg

/-- A step of the thread core counts on the tile's page, and nowhere else. -/
theorem roundOne_blk (s : State) (t n pg : Nat) : blk (roundOne s t n) pg =
    if pg = pgTile t then { blk s pg with steps := ((blk s pg).steps + 1) % 2 ^ 64 } else blk s pg := by
  unfold roundOne roundWaits roundTick
  simp only [blk_modTile]
  rw [(perfCount_same _ t 1 1).blk]
  split
  · subst_vars; simp
  · rename_i h; simp [blk_modBlk_ne _ _ h]

theorem roundTick_group? (s : State) (t m k : Nat) : group? (roundTick s t) m k = group? s m k := by
  unfold roundTick
  simp only
  rw [(perfCount_same _ t 1 1).group?]
  unfold group?
  by_cases h : m = t
  · subst h; simp
  · rw [tile_modTile_ne _ _ h]; rfl

theorem roundWaits_group? (s : State) (t k : Nat) (ws : List Nat) : group? (roundWaits s t ws) t k =
    (group? s t k).map (fun g => { g with ready := if ws.contains k then g.ready + 1 else 0 }) := by
  unfold roundWaits group?
  rw [tile_modTile_same]
  exact tget?_mapKey (fun k (g : Machine.Group) => { g with ready := if ws.contains k then g.ready + 1 else 0 }) _ _

/-- The group that issues alone waits no more. -/
theorem roundOne_here (s : State) (t n : Nat) : group? (roundOne s t n) t n = (group? s t n).map noWait := by
  unfold roundOne
  rw [roundWaits_group?, roundTick_group?]
  have e : ∀ l : List Nat, (l.filter (· ≠ n)).contains n = false := by intro l; simp
  simp only [e]
  rfl

theorem roundOne_same (s : State) (t n k : Nat) : SameGroup s (roundOne s t n) t k := by
  unfold SameGroup roundOne
  rw [roundWaits_group?, roundTick_group?, Option.map_map]
  rfl

theorem roundOne_tile_ne (s : State) {t m : Nat} (n : Nat) (h : m ≠ t) : tile (roundOne s t n) m = tile s m := by
  unfold roundOne roundWaits
  simp only
  rw [tile_modTile_ne _ _ h]
  unfold roundTick
  simp only
  rw [(perfCount_same _ t 1 1).tiles m h, tile_modTile_ne _ _ h]; rfl

theorem roundOne_wgs (s : State) (t n : Nat) : (tile (roundOne s t n) t).wgs = (tile s t).wgs := by
  unfold roundOne roundWaits
  simp only [tile_modTile_same]
  unfold roundTick
  simp only
  rw [(perfCount_same _ t 1 1).wgs]; simp

theorem roundOne_txBusy (s : State) (t n : Nat) : (tile (roundOne s t n) t).txBusy = (tile s t).txBusy - 1 := by
  unfold roundOne roundWaits
  simp only [tile_modTile_same]
  unfold roundTick
  simp only
  rw [(perfCount_same _ t 1 1).here]; simp

theorem SameButPerf.elsewhere {s t : State} {n : Nat} (h : SameButPerf s t n) : Safety.elsewhere t = Safety.elsewhere s := by
  have := congrArg Safety.elsewhere h.rest
  simpa [Safety.elsewhere] using this

theorem roundOne_rest (s : State) (t n : Nat) : Safety.elsewhere (roundOne s t n) = Safety.elsewhere s := by
  unfold roundOne roundWaits roundTick
  exact (perfCount_same _ t 1 1).elsewhere

/-- What lies elsewhere decides whether the device runs, and whether a supply suffices. -/
theorem running_congr {s t : State} (h : elsewhere t = elsewhere s) : running t = running s := by
  have h1 := congrArg State.leftService h
  have h2 := congrArg State.resetLow h
  have h3 := congrArg State.draining h
  simp only [elsewhere] at h1 h2 h3
  simp [running, h1, h2, h3]

theorem stalled_congr {s t : State} (h : elsewhere t = elsewhere s) (pg : Nat) : stalled t pg = stalled s pg := by
  have h1 := congrArg State.pwr h
  simp only [elsewhere] at h1
  simp [stalled, h1]

/-! Counters. -/

@[simp] theorem noWait_count (g : Machine.Group) (k : Nat) : (noWait g).count k = g.count k := rfl
@[simp] theorem noWait_wg (g : Machine.Group) : (noWait g).wg = g.wg := rfl

theorem count_le {g : Group} (h : ∀ k, k < 6 → g.count k ≤ 62) : (List.range 6).all (fun k => decide ((noWait g).count k + 0 ≤ 63)) = true := by
  rw [List.all_eq_true]
  intro k hk
  have : g.count k ≤ 62 := h k (List.mem_range.1 hk)
  exact decide_eq_true (by simp only [noWait_count]; omega)

/-- A group that may issue is ready for a bundle of a control operation (R60, R96). -/
theorem ready_c {s : State} {r : GRef} {g : Group} (h : MayIssue s r g) (c : COp) (l0 l1 : Nat)
    (hw : ∀ k m, c = .waitle k m → g.count k ≤ m) :
    bundleReady (roundOne s r.tile r.slot) r.tile r.slot (noWait g) (mkBundle (some c) none none none l0 l1) = true := by
  have hs : (blk (roundOne s r.tile r.slot) (pgTile r.tile)).st.inService = true := by
    rw [roundOne_blk, if_pos rfl]; exact h.service
  have hR : running (roundOne s r.tile r.slot) = true := (running_congr (roundOne_rest s _ _)).trans h.works
  have hS : stalled (roundOne s r.tile r.slot) (pgTile r.tile) = false := (stalled_congr (roundOne_rest s _ _) _).trans h.supply
  have hc := count_le h.room
  have e1 : (noWait g).stat = .run := h.runs
  have e2 : (noWait g).stopped = false := h.goes
  have e3 : decide ((noWait g).active ≠ 0) = true := decide_eq_true h.active
  have e4 : (noWait g).offer = none := h.offer
  unfold bundleReady bundleBase txFree bundleRoom usesTxB mkBundle
  simp only [hs, hR, hS, e1, e2, e3, e4, Bundle.counts]
  simp only [Bool.true_or, Option.isNone_none, List.append_nil, List.filter_nil, List.length_nil, hc]
  cases c with
  | waitle k m =>
    have := hw k m rfl
    simp only [noWait_count, this]; simp
  | _ => simp

theorem ready_v {s : State} {r : GRef} {g : Group} (h : MayIssue s r g) (v : VOp) (lit : Nat)
    (hu : v.usesTx = true → (tile s r.tile).txBusy ≤ 1) :
    bundleReady (roundOne s r.tile r.slot) r.tile r.slot (noWait g) (mkBundle none (some v) none none 0 lit) = true := by
  have hs : (blk (roundOne s r.tile r.slot) (pgTile r.tile)).st.inService = true := by
    rw [roundOne_blk, if_pos rfl]; exact h.service
  have hR : running (roundOne s r.tile r.slot) = true := (running_congr (roundOne_rest s _ _)).trans h.works
  have hS : stalled (roundOne s r.tile r.slot) (pgTile r.tile) = false := (stalled_congr (roundOne_rest s _ _) _).trans h.supply
  have hx : v.usesTx = true → (tile (roundOne s r.tile r.slot) r.tile).txBusy = 0 := by
    intro hv
    have := hu hv
    rw [roundOne_txBusy]; omega
  have hc : (List.range 6).all (fun k => decide ((noWait g).count k + ((if v.long then [5] else []).filter (· == k)).length ≤ 63)) = true := by
    rw [List.all_eq_true]
    intro k hk
    have : (noWait g).count k ≤ 62 := h.room k (List.mem_range.1 hk)
    have h1 : ((if v.long then [5] else []).filter (· == k)).length ≤ 1 := by
      refine le_trans (List.length_filter_le _ _) ?_
      split <;> simp
    simp only [decide_eq_true_eq]; omega
  have e1 : (noWait g).stat = .run := h.runs
  have e2 : (noWait g).stopped = false := h.goes
  have e3 : decide ((noWait g).active ≠ 0) = true := decide_eq_true h.active
  have e4 : (noWait g).offer = none := h.offer
  unfold bundleReady bundleBase txFree bundleRoom usesTxB mkBundle
  simp only [hs, hR, hS, e1, e2, e3, e4, Bundle.counts]
  simp only [Bool.true_or, Option.isNone_none, List.append_nil, List.nil_append, hc]
  cases hv : v.usesTx
  · simp [hv]
  · simp [hx hv, hv]

/-- Nothing that a bundle reads is on its way: it reads the registers as they stand (R97). -/
theorem early_none {s : State} {r : GRef} {g : Group} (h : MayIssue s r g) (S : State) (b : Bundle) :
    earlyReads S r.tile r.slot (noWait g) b = (noWait g, S) := by
  have e1 : (noWait g).dueV b = [] := (h.settled b).1
  have e2 : (noWait g).dueU b = [] := (h.settled b).2
  unfold earlyReads
  simp [e1, e2]

/-! What applying a bundle leaves. -/

/-- A park that no command asked for does not start (R322). -/
theorem parkAsked_none {s : State} {t w : Nat} (h : ∀ x, wg? s t w = some x → x.asked = 0) : parkAsked s t w = s := by
  unfold parkAsked
  cases hw : wg? s t w with
  | none => rfl
  | some x => simp [h x hw]

/-- Placing a group's record: the group is there, and every other group, tile and page is as in the state it is put into. -/
theorem placeGroup_spec (s : State) (t n : Nat) (g g' : Group) (b : Bundle) :
    group? (placeGroup s t n g g' b) t n = some g' ∧ elsewhere (placeGroup s t n g g' b) = elsewhere s ∧
      (∀ pg, blk (placeGroup s t n g g' b) pg = blk s pg) ∧ (∀ m, m ≠ t → tile (placeGroup s t n g g' b) m = tile s m) ∧
      (∀ k, k ≠ n → group? (placeGroup s t n g g' b) t k = group? s t k) ∧
      (tile (placeGroup s t n g g' b) t).wgs = (tile s t).wgs ∧ (placeGroup s t n g g' b).fresh = s.fresh := by
  unfold placeGroup
  simp only
  generalize hX : modTile (setGroup s t n g') t _ = X
  have h := perfCount_same X t 2 1
  refine ⟨?_, ?_, ?_, ?_, ?_, ?_, ?_⟩
  · rw [h.group?, ← hX]; simp [group?, setGroup]
  · rw [h.elsewhere, ← hX]; rfl
  · intro pg; rw [h.blk, ← hX]; rfl
  · intro m hm; rw [h.tiles m hm, ← hX, tile_modTile_ne _ _ hm, setGroup, tile_modTile_ne _ _ hm]
  · intro k hk
    rw [h.group?, ← hX]
    unfold group?
    simp only [tile_modTile_same, setGroup]
    rw [tget?_tput_ne _ _ hk]
  · rw [h.wgs, ← hX]; simp [setGroup]
  · have e : (perfCount X t 2 1).fresh = X.fresh := by have := congrArg State.fresh h.rest; exact this
    rw [e, ← hX]; rfl

/-- The bundle of one control operation. -/
abbrev cBundle (c : COp) (l0 l1 : Nat) : Bundle := mkBundle (some c) none none none l0 l1

/-- A control operation as the state gives its counters. -/
abbrev cAfter (s : State) (r : GRef) (g : Group) (c : COp) (l0 l1 lic : Nat) : Group :=
  cExec lic (((blk s (pgTile r.tile)).steps + 1) % 2 ^ 64) (cBundle c l0 l1) (noWait g) (noWait g) ((g.pc + (cBundle c l0 l1).bytes) % 2 ^ 64) c

/-- The state in which the thread core's step has been counted. -/
theorem ticked (s : State) (r : GRef) :
    elsewhere (roundOne s r.tile r.slot) = elsewhere s ∧ (∀ pg, pg ≠ pgTile r.tile → blk (roundOne s r.tile r.slot) pg = blk s pg) ∧
      blk (roundOne s r.tile r.slot) (pgTile r.tile) = { blk s (pgTile r.tile) with steps := ((blk s (pgTile r.tile)).steps + 1) % 2 ^ 64 } :=
  ⟨roundOne_rest s r.tile r.slot, fun pg hp => by rw [roundOne_blk, if_neg hp], by rw [roundOne_blk, if_pos rfl]⟩

theorem ctlTick_spec (s : State) (t : Nat) (c : Option COp) :
    elsewhere (ctlTick s t c) = elsewhere s ∧ (∀ m, tile (ctlTick s t c) m = tile s m) ∧
      (∀ pg, pg ≠ pgTile t → blk (ctlTick s t c) pg = blk s pg) ∧
      (∃ l, blk (ctlTick s t c) (pgTile t) = { blk s (pgTile t) with lic := l }) := by
  have key : elsewhere (tickLic s (pgTile t)) = elsewhere s ∧ (∀ m, tile (tickLic s (pgTile t)) m = tile s m) ∧
      (∀ pg, pg ≠ pgTile t → blk (tickLic s (pgTile t)) pg = blk s pg) ∧
      (∃ l, blk (tickLic s (pgTile t)) (pgTile t) = { blk s (pgTile t) with lic := l }) := by
    refine ⟨rfl, fun _ => rfl, ?_, ?_⟩
    · intro pg hp; unfold tickLic takeFree; simp only; rw [blk_modBlk_ne _ _ hp]; rfl
    · unfold tickLic takeFree; simp only [blk_modBlk_same]; exact ⟨_, rfl⟩
  have triv : elsewhere s = elsewhere s ∧ (∀ m, tile s m = tile s m) ∧ (∀ pg, pg ≠ pgTile t → blk s pg = blk s pg) ∧
      (∃ l, blk s (pgTile t) = { blk s (pgTile t) with lic := l }) := ⟨rfl, fun _ => rfl, fun _ _ => rfl, (blk s (pgTile t)).lic, rfl⟩
  unfold ctlTick
  split
  · exact key
  · exact triv

/-- A bundle of one control operation that no check refuses and that neither arrives at a barrier nor ends the group: the group
takes what `cExec` says, and nothing else changes. -/
theorem issueC_next {s : State} {r : GRef} {g : Group} (h : MayIssue s r g) (c : COp) (l0 l1 : Nat)
    (hl : (cBundle c l0 l1).legal = true) (hf : cFault (noWait g) c = none) (hw : ∀ k m, c = .waitle k m → g.count k ≤ m)
    (hb : c ≠ .bar) (he : c ≠ .exit) (hs : ∀ lic, (cAfter s r g c l0 l1 lic).stat ≠ .finished) :
    ∃ t lic, issueC s r c l0 l1 = .next t ∧
      group? t r.tile r.slot = some ((cAfter s r g c l0 l1 lic).issued g.nextId (cBundle c l0 l1).raw) ∧ OnlyGroup s t r := by
  have hg : group? (roundOne s r.tile r.slot) r.tile r.slot = some (noWait g) := by rw [roundOne_here, h.here]; rfl
  have hr := ready_c h c l0 l1 hw
  have hn : bundleFault (noWait g) (cBundle c l0 l1) = none := by
    unfold bundleFault
    rw [hl]
    simpa [mkBundle, Bundle.regRange] using hf
  obtain ⟨k1, k2, k3⟩ := ticked s r
  have hrd : regfileRead (roundOne s r.tile r.slot) r.tile r.slot (cBundle c l0 l1) = (false, roundOne s r.tile r.slot) := by
    simp [regfileRead, mkBundle]
  unfold issueC issueOne
  simp only [hg, hr, if_true]
  unfold issueBundle
  rw [hn]
  simp only
  rw [hrd]
  simp only [show (cBundle c l0 l1).a = none from rfl]
  unfold applyBundle
  rw [early_none h]
  simp only [show (cBundle c l0 l1).m = none from rfl, show (cBundle c l0 l1).v = none from rfl, show (cBundle c l0 l1).a = none from rfl, hg]
  have hc : ctlPart (roundOne s r.tile r.slot) (roundOne s r.tile r.slot) r.tile (cBundle c l0 l1) (noWait g) (noWait g) = cAfter s r g c l0 l1
      (licStep (Config.free (roundOne s r.tile r.slot).fresh) (blk (roundOne s r.tile r.slot) (pgTile r.tile)).lic) := by
    have hst : (blk (roundOne s r.tile r.slot) (pgTile r.tile)).steps = ((blk s (pgTile r.tile)).steps + 1) % 2 ^ 64 := by rw [k3]
    unfold ctlPart cAfter
    rw [hst]
    rfl
  rw [hc]
  generalize licStep (Config.free (roundOne s r.tile r.slot).fresh) (blk (roundOne s r.tile r.slot) (pgTile r.tile)).lic = lic
  have hst := hs lic
  generalize hgen : cAfter s r g c l0 l1 lic = g2 at hst ⊢
  have hv : ((g2.takeV {}).takeA none 0).issued (noWait g).nextId (cBundle c l0 l1).raw = g2.issued g.nextId (cBundle c l0 l1).raw := rfl
  rw [hv]
  have hbar : atBarrier (cBundle c l0 l1) (g2.issued g.nextId (cBundle c l0 l1).raw) = false := by
    have e1 : (some c == some COp.bar) = false := by simp [hb]
    have e2 : (some c == some COp.exit) = false := by simp [he]
    have e3 : (g2.stat == GStat.finished) = false := by simp [hst]
    unfold atBarrier
    exact by rw [show (cBundle c l0 l1).c = some c from rfl, e1, e2]; exact e3
  rw [hbar]
  obtain ⟨c1, c2, c3, l, c4⟩ := ctlTick_spec (roundOne s r.tile r.slot) r.tile (cBundle c l0 l1).c
  obtain ⟨p1, p2, p3, p4, p5, p6, -⟩ := placeGroup_spec (ctlTick (roundOne s r.tile r.slot) r.tile (cBundle c l0 l1).c) r.tile r.slot (noWait g)
    (g2.issued g.nextId (cBundle c l0 l1).raw) (cBundle c l0 l1)
  generalize placeGroup _ r.tile r.slot (noWait g) _ _ = T at *
  have hwg : ∀ w, wg? T r.tile w = wg? s r.tile w := by
    intro w; unfold wg?; rw [p6, c2, roundOne_wgs]
  have hpk : parkAsked T r.tile (noWait g).wg = T := parkAsked_none (fun x hx => h.unasked x (by rw [← hwg]; exact hx))
  refine ⟨T, lic, ?_, by rw [hgen]; exact p1, ?_⟩
  · simp only [Bool.false_eq_true, if_false]
    rw [hpk]
  · refine ⟨?_, ?_, ?_, ?_, ?_, ?_, ?_⟩
    · rw [p2, c1, k1]
    · intro pg hp; rw [p3, c3 pg hp, k2 pg hp]
    · rw [p3, c4, k3]; exact ⟨rfl, rfl, rfl⟩
    · rw [p3, c4, k3]
    · intro m hm; rw [p4 m hm, c2, roundOne_tile_ne _ _ hm]
    · intro k hk
      have e : group? T r.tile k = group? (roundOne s r.tile r.slot) r.tile k := by rw [p5 k hk]; unfold group?; rw [c2]
      unfold SameGroup
      rw [e]; exact roundOne_same s r.tile r.slot k
    · rw [p6, c2, roundOne_wgs]

/-! Registers of a group. -/

theorem uget_uput (g : Group) (i k v : Nat) : (g.uput i v).uget k = if k = i then v % 2 ^ 64 else g.uget k := by
  unfold Group.uput Group.uget
  simp only [tgetD_tputD]
  split
  · simp
  · rfl

theorem pget_pput (g : Group) (i k v : Nat) : (g.pput i v).pget k = if k = i then v % 2 ^ g.width % 2 ^ 64 else g.pget k := by
  unfold Group.pput Group.pget
  simp only [tgetD_tputD]
  split
  · rw [BitVec.toNat_ofNat]
    rcases Nat.le_total g.width 64 with hw | hw
    · rw [Nat.mod_eq_of_lt (lt_of_lt_of_le (Nat.mod_lt v (Nat.two_pow_pos g.width)) (Nat.pow_le_pow_right (by decide) hw)), Nat.mod_mod]
    · exact Nat.mod_eq_of_lt (lt_of_lt_of_le (Nat.mod_lt _ (Nat.two_pow_pos 64)) (Nat.pow_le_pow_right (by decide) hw))
  · rfl

theorem uget_lt (g : Group) (k : Nat) : g.uget k < 2 ^ 64 := BitVec.isLt _
theorem pget_lt (g : Group) (k : Nat) : g.pget k < 2 ^ 64 := lt_of_le_of_lt (Nat.mod_le _ _) (BitVec.isLt _)

/-- A control operation that writes one uniform register. -/
theorem uniform_result {s : State} {r : GRef} {g : Group} (h : MayIssue s r g) {i : Instr} (c : COp) (l0 l1 : Nat)
    (hi : exec i s = issueC s r c l0 l1) {sd : BitVec 5} {n : Nat} (f : Nat → Nat) (hl : (cBundle c l0 l1).legal = true)
    (hf : cFault (noWait g) c = none) (hn : (cBundle c l0 l1).bytes = n)
    (hc : ∀ lic next, cExec lic (((blk s (pgTile r.tile)).steps + 1) % 2 ^ 64) (cBundle c l0 l1) (noWait g) (noWait g) next c =
      Group.uput { noWait g with pc := next } sd.toNat (f lic))
    (hw : ∀ k m, c ≠ .waitle k m := by intros; simp) (hb : c ≠ .bar := by simp) (he : c ≠ .exit := by simp) :
    ∃ lic, UniformResult s r g i n sd (f lic) := by
  obtain ⟨t, lic, h1, h2, h3⟩ := issueC_next h c l0 l1 hl hf (fun k m e => absurd e (hw k m)) hb he
    (fun lic => by unfold cAfter; rw [hc]; simpa [Group.uput, noWait] using (by simp [h.runs] : g.stat ≠ .finished))
  have e : cAfter s r g c l0 l1 lic = Group.uput { noWait g with pc := (g.pc + (cBundle c l0 l1).bytes) % 2 ^ 64 } sd.toNat (f lic) := hc _ _
  rw [e] at h2
  refine ⟨lic, t, _, hi.trans h1, h2, ?_, ?_, rfl, rfl, ⟨rfl, rfl, rfl, rfl, rfl, rfl⟩, ?_, h3⟩
  · exact (uget_uput _ _ _ _).trans (if_pos rfl)
  · intro k hk
    exact (uget_uput { noWait g with pc := (g.pc + (cBundle c l0 l1).bytes) % 2 ^ 64 } sd.toNat k (f lic)).trans (if_neg hk)
  · show _ = _
    rw [← hn]; rfl

/-- A control operation that writes one predicate. -/
theorem predicate_result {s : State} {r : GRef} {g : Group} (h : MayIssue s r g) {i : Instr} (c : COp)
    (hi : exec i s = issueC s r c 0 0) {pd : BitVec 3} (v : Nat) (hl : (cBundle c 0 0).legal = true)
    (hf : cFault (noWait g) c = none) (hn : (cBundle c 0 0).bytes = 16)
    (hc : ∀ lic next, cExec lic (((blk s (pgTile r.tile)).steps + 1) % 2 ^ 64) (cBundle c 0 0) (noWait g) (noWait g) next c =
      Group.pput { noWait g with pc := next } pd.toNat v)
    (hw : ∀ k m, c ≠ .waitle k m := by intros; simp) (hb : c ≠ .bar := by simp) (he : c ≠ .exit := by simp) :
    PredicateResult s r g i pd v := by
  obtain ⟨t, lic, h1, h2, h3⟩ := issueC_next h c 0 0 hl hf (fun k m e => absurd e (hw k m)) hb he
    (fun lic => by unfold cAfter; rw [hc]; simpa [Group.pput, noWait] using (by simp [h.runs] : g.stat ≠ .finished))
  have e : cAfter s r g c 0 0 lic = Group.pput { noWait g with pc := (g.pc + (cBundle c 0 0).bytes) % 2 ^ 64 } pd.toNat v := hc _ _
  rw [e] at h2
  refine ⟨t, _, hi.trans h1, h2, ?_, ?_, rfl, rfl, ⟨rfl, rfl, rfl, rfl, rfl, rfl⟩, ?_, h3⟩
  · exact (pget_pput _ _ _ _).trans (if_pos rfl)
  · intro k hk
    exact (pget_pput { noWait g with pc := (g.pc + (cBundle c 0 0).bytes) % 2 ^ 64 } pd.toNat k v).trans (if_neg hk)
  · show _ = _
    rw [← hn]; rfl

/-- A control operation that only moves the group. -/
theorem goes_to {s : State} {r : GRef} {g : Group} (h : MayIssue s r g) {i : Instr} (c : COp)
    (hi : exec i s = issueC s r c 0 0) (pc : Nat) (hl : (cBundle c 0 0).legal = true) (hf : cFault (noWait g) c = none)
    (hw : ∀ k m, c = .waitle k m → g.count k ≤ m)
    (hc : ∀ lic, cAfter s r g c 0 0 lic = { noWait g with pc := pc }) (hb : c ≠ .bar := by simp) (he : c ≠ .exit := by simp) :
    GoesTo s r g i pc := by
  obtain ⟨t, lic, h1, h2, h3⟩ := issueC_next h c 0 0 hl hf hw hb he (fun lic => by rw [hc]; simpa [noWait] using (by simp [h.runs] : g.stat ≠ .finished))
  rw [hc] at h2
  exact ⟨t, _, hi.trans h1, h2, rfl, rfl, rfl, rfl, ⟨rfl, rfl, rfl, rfl, rfl, rfl⟩, h3⟩

end Sys2Proof.Laws
end

