-- ==== Sys2Proof/Laws/IssueV.lean ====
section
/-!
SUPPORT. Issue of a bundle of one vector operation.
-/
namespace Sys2Proof.Laws
open Sys2Proof.Machine Sys2Proof.Safety

/-- The bundle of one vector operation with literal L1. -/
abbrev vBundle (v : VOp) (lit : Nat) : Bundle := mkBundle none (some v) none none 0 lit

theorem vBundle_l1 (v : VOp) (lit : BitVec 32) : (vBundle v lit.toNat).l1 = lit.toNat := by
  have := lit.isLt
  simp [mkBundle, Bundle.l1, bits, Nat.shiftRight_eq_div_pow]
  omega

theorem vBundle_legal (v : VOp) (lit : BitVec 32) (h : v.legal = true) : (vBundle v lit.toNat).legal = true := by
  have := lit.isLt
  have e : (2 ^ 32 * lit.toNat) / 2 ^ 64 = 0 := by omega
  simp [mkBundle, Bundle.legal, h, disjoint, Bundle.isMovl64]
  right; omega

/-- A bundle of one vector operation that no check refuses: the group goes on and takes the writes of the vector slot, and nothing
else changes. -/
theorem issueV_next {s : State} {r : GRef} {g : Group} (h : MayIssue s r g) (v : VOp) (lit : BitVec 32) (vr : VRes)
    (hl : v.legal = true) (hr : ((v.regs).any fun x => decide (x ≠ 0xFF) && decide (x ≥ g.r)) = false)
    (hu : v.usesTx = true → (tile s r.tile).txBusy ≤ 1)
    (hv : ∀ S, vExec S r.tile (noWait g) lit.toNat v = (vr, S)) :
    ∃ t, issueV s r v lit.toNat = .next t ∧
      group? t r.tile r.slot = some ((Group.takeV { noWait g with pc := (g.pc + (vBundle v lit.toNat).bytes) % 2 ^ 64 } vr).issued g.nextId
        (vBundle v lit.toNat).raw) ∧ OnlyGroup s t r := by
  have hg : group? (roundOne s r.tile r.slot) r.tile r.slot = some (noWait g) := by rw [roundOne_here, h.here]; rfl
  have hrd := ready_v h v lit.toNat hu
  have hn : bundleFault (noWait g) (vBundle v lit.toNat) = none := by
    unfold bundleFault
    rw [vBundle_legal v lit hl]
    have : (vBundle v lit.toNat).regRange (noWait g).r = false := by
      unfold Bundle.regRange
      simp only [show (vBundle v lit.toNat).v = some v from rfl, show (vBundle v lit.toNat).m = none from rfl]
      have e : (noWait g).r = g.r := rfl
      rw [e]; simpa using hr
    rw [this]; rfl
  obtain ⟨k1, k2, k3⟩ := ticked s r
  have hin : ∀ d, injects (roundOne s r.tile r.slot) (pgTile r.tile) d = false := by
    intro d
    unfold injects
    rw [k3]
    simp [h.unarmed]
  have hrf : regfileRead (roundOne s r.tile r.slot) r.tile r.slot (vBundle v lit.toNat) = (false, roundOne s r.tile r.slot) := by
    unfold regfileRead
    simp only [hin]
    split <;> rfl
  unfold issueV issueOne
  simp only [hg, hrd, if_true]
  unfold issueBundle
  rw [hn]
  simp only
  rw [hrf]
  simp only [show (vBundle v lit.toNat).a = none from rfl]
  unfold applyBundle
  rw [early_none h]
  simp only [show (vBundle v lit.toNat).m = none from rfl, show (vBundle v lit.toNat).v = some v from rfl,
    show (vBundle v lit.toNat).a = none from rfl, hg, vBundle_l1, hv]
  have hc : ctlPart (roundOne s r.tile r.slot) (roundOne s r.tile r.slot) r.tile (vBundle v lit.toNat) (noWait g) (noWait g) =
      { noWait g with pc := (g.pc + (vBundle v lit.toNat).bytes) % 2 ^ 64 } := rfl
  rw [hc]
  generalize hG : ((Group.takeV { noWait g with pc := (g.pc + (vBundle v lit.toNat).bytes) % 2 ^ 64 } vr).takeA none 0).issued (noWait g).nextId
    (vBundle v lit.toNat).raw = G
  have hG' : (Group.takeV { noWait g with pc := (g.pc + (vBundle v lit.toNat).bytes) % 2 ^ 64 } vr).issued g.nextId (vBundle v lit.toNat).raw = G := hG
  have hstat : G.stat = .run := by
    rw [← hG']
    have f1 : ∀ (ws : List (Nat × Nat × Nat)) (x : Group), (x.vputs ws).stat = x.stat := by
      intro ws
      induction ws with
      | nil => intro x; rfl
      | cons w ws ih => intro x; exact ih _
    have f2 : ∀ (ws : List (Nat × Nat)) (x : Group), (ws.foldl (fun g p => g.uput p.1 p.2) x).stat = x.stat := by
      intro ws
      induction ws with
      | nil => intro x; rfl
      | cons w ws ih => intro x; exact ih _
    have f3 : ∀ (ws : List (Nat × Nat)) (x : Group), (ws.foldl (fun g p => g.pput p.1 p.2) x).stat = x.stat := by
      intro ws
      induction ws with
      | nil => intro x; rfl
      | cons w ws ih => intro x; exact ih _
    unfold Group.takeV Group.issued
    simp only
    split
    · unfold Group.addPend; simp only; rw [f3, f2, f1]; exact h.runs
    · rw [f3, f2, f1]; exact h.runs
  have hbar : atBarrier (vBundle v lit.toNat) G = false := by
    unfold atBarrier
    rw [hstat]; rfl
  rw [hbar]
  obtain ⟨c1, c2, c3, l, c4⟩ := ctlTick_spec (roundOne s r.tile r.slot) r.tile (vBundle v lit.toNat).c
  obtain ⟨p1, p2, p3, p4, p5, p6, -⟩ := placeGroup_spec (ctlTick (roundOne s r.tile r.slot) r.tile (vBundle v lit.toNat).c) r.tile r.slot (noWait g)
    G (vBundle v lit.toNat)
  generalize placeGroup _ r.tile r.slot (noWait g) _ _ = T at *
  have hwg : ∀ w, wg? T r.tile w = wg? s r.tile w := by
    intro w; unfold wg?; rw [p6, c2, roundOne_wgs]
  have hpk : parkAsked T r.tile (noWait g).wg = T := parkAsked_none (fun x hx => h.unasked x (by rw [← hwg]; exact hx))
  refine ⟨T, ?_, by rw [hG']; exact p1, ?_⟩
  · simp only [Bool.false_eq_true, if_false]
    rw [hpk]
  · refine ⟨?_, ?_, ?_, ?_, ?_, ?_, ?_⟩
    · rw [p2, c1, k1]
    · intro pg hp; rw [p3, c3 pg hp, k2 pg hp]
    · rw [p3, c4, k3]; exact ⟨rfl, rfl, rfl⟩
    · rw [p3, c4, k3]
    · intro m hm; rw [p4 m hm, c2, roundOne_tile_ne _ _ hm]
    · intro k hk
      have e : group? T r.tile k = group? (roundOne s r.tile r.slot) r.tile k := by rw [p5 k hk]; unfold group?; rw [c2]
      unfold SameGroup
      rw [e]; exact roundOne_same s r.tile r.slot k
    · rw [p6, c2, roundOne_wgs]

theorem vget_vput (g : Group) (r l k i : Nat) (w : Word) (hl : l < 64) (hi : i < 64) :
    (g.vput r l w).vget k i = if k = r ∧ i = l then w else g.vget k i := by
  unfold Group.vput Group.vget
  simp only [tgetD_tputD]
  by_cases h : k = r ∧ i = l
  · rw [if_pos h, if_pos (by omega)]
  · rw [if_neg h, if_neg (by omega)]

/-- Writes of one register over lanes: each lane named takes its value. -/
theorem vget_vputs (d : Nat) (f : Nat → Word) (ls : List Nat) (h : ∀ l ∈ ls, l < 64) : ∀ (g : Group) (k i : Nat), i < 64 →
    (g.vputs (ls.map (fun l => (d, l, (f l).toNat)))).vget k i = if k = d ∧ i ∈ ls then f i else g.vget k i := by
  induction ls with
  | nil => intro g k i _; simp [Group.vputs]
  | cons l ls ih =>
    intro g k i hi
    have hl := h l List.mem_cons_self
    have e : g.vputs ((l :: ls).map (fun l => (d, l, (f l).toNat))) = (g.vput d l (f l)).vputs (ls.map (fun l => (d, l, (f l).toNat))) := by
      simp [Group.vputs]
    rw [e, ih (fun x hx => h x (List.mem_cons_of_mem _ hx)) _ _ _ hi, vget_vput _ _ _ _ _ _ hl hi]
    by_cases hk : k = d
    · by_cases hm : i ∈ ls
      · simp [hk, hm]
      · by_cases e2 : i = l
        · subst e2; simp [hk, hm]
        · simp [hk, hm, e2]
    · simp [hk]

theorem vputs_same (ws : List (Nat × Nat × Nat)) : ∀ g : Group, (g.vputs ws).u = g.u ∧ (g.vputs ws).p = g.p ∧ (g.vputs ws).pc = g.pc ∧
    (g.vputs ws).live = g.live ∧ (g.vputs ws).active = g.active ∧ (g.vputs ws).stack = g.stack ∧ (g.vputs ws).arrived = g.arrived ∧
    (g.vputs ws).stat = g.stat ∧ (g.vputs ws).fault = g.fault := by
  induction ws with
  | nil => intro g; exact ⟨rfl, rfl, rfl, rfl, rfl, rfl, rfl, rfl, rfl⟩
  | cons w ws ih => intro g; exact ih _

theorem lanes_lt {g : Group} (h : g.width ≤ 64) : ∀ l ∈ g.lanes, l < 64 := by
  intro l hl
  have := List.mem_range.1 (List.mem_filter.1 hl).1
  omega

/-- A vector operation that writes one register of the active lanes (or discards it). -/
theorem vector_result {s : State} {r : GRef} {g : Group} (h : MayIssue s r g) {i : Instr} (v : VOp) (lit : BitVec 32)
    (hi : exec i s = issueV s r v lit.toNat) {d : BitVec 8} {n : Nat} (f : Nat → Word) (hl : v.legal = true)
    (hr : ((v.regs).any fun x => decide (x ≠ 0xFF) && decide (x ≥ g.r)) = false) (hn : (vBundle v lit.toNat).bytes = n)
    (hu : v.usesTx = false)
    (hv : ∀ S, vExec S r.tile (noWait g) lit.toNat v =
      ((if d.toNat = 0xFF then ({} : VRes) else { v := g.lanes.map (fun l => (d.toNat, l, (f l).toNat)) }), S)) :
    VectorResult s r g i n d f := by
  obtain ⟨t, h1, h2, h3⟩ := issueV_next h v lit _ hl hr (by simp [hu]) hv
  rw [hn] at h2
  generalize (vBundle v lit.toNat).raw = raw at h2
  by_cases hd : d.toNat = 0xFF
  · rw [if_pos hd] at h2
    exact ⟨t, _, hi.trans h1, h2, fun k l _ => by simp [hd]; rfl, rfl, rfl, ⟨rfl, rfl, rfl, rfl, rfl, rfl⟩, rfl, h3⟩
  · rw [if_neg hd] at h2
    generalize hG : Group.issued _ g.nextId raw = G at h2
    have hw := vputs_same (g.lanes.map (fun l => (d.toNat, l, (f l).toNat))) { noWait g with pc := (g.pc + n) % 2 ^ 64 }
    refine ⟨t, G, hi.trans h1, h2, ?_, ?_, ?_, ?_, ?_, h3⟩
    · intro k l hl'
      rw [← hG]
      refine (vget_vputs d.toNat f g.lanes (lanes_lt h.width) _ k l hl').trans ?_
      simp only [hd, not_false_eq_true, true_and, ne_eq]
      rfl
    · rw [← hG]; exact hw.1
    · rw [← hG]; exact hw.2.1
    · rw [← hG]; exact ⟨hw.2.2.2.1, hw.2.2.2.2.1, hw.2.2.2.2.2.1, hw.2.2.2.2.2.2.1, hw.2.2.2.2.2.2.2.1, hw.2.2.2.2.2.2.2.2⟩
    · rw [← hG]; exact hw.2.2.1

end Sys2Proof.Laws
end

