-- ==== Sys2Proof/Laws/Ram.lean ====
section
/-!
SUPPORT. Memory: reads after writes, and the canonical form.
-/
namespace Sys2Proof.Laws
open Sys2Proof.Machine

/-! Bytes. -/

theorem cellAt_tputD (r : Ram) (cs : List Host.Cell) (a x : Nat) (b : BitVec 8) :
    cellAt { r with cells := tputD cs a b 0 } x = if x = a then b.toNat else cellAt { r with cells := cs } x := by
  unfold cellAt
  simp only
  have h := tgetD_tputD cs a x b 0
  rw [h]
  split <;> rfl

theorem cellAt_putCells (r : Ram) (bs : List Nat) : ∀ (cs : List Host.Cell) (a x : Nat),
    cellAt { r with cells := putCells cs a bs } x =
      if a ≤ x ∧ x < a + bs.length then bs.getD (x - a) 0 % 256 else cellAt { r with cells := cs } x := by
  induction bs with
  | nil => intro cs a x; simp [putCells]
  | cons b bs ih =>
    intro cs a x
    rw [putCells, ih]
    simp only [cellAt_tputD, List.length_cons]
    by_cases h1 : a + 1 ≤ x ∧ x < a + 1 + bs.length
    · have : x - a = (x - (a + 1)) + 1 := by omega
      rw [if_pos h1, if_pos (by omega), this]; rfl
    · rw [if_neg h1]
      by_cases h2 : x = a
      · subst h2; simp
      · rw [if_neg h2, if_neg (by omega)]

/-- The value that a list of (offset, byte) writes leaves at an offset: the last one, none where no write names it. -/
def lastAt (bs : List (Nat × Nat)) (o : Nat) : Option Nat := bs.foldl (fun v b => if b.1 = o then some (b.2 % 256) else v) none

theorem foldl_lastAt (bs : List (Nat × Nat)) (o : Nat) (i : Option Nat) :
    bs.foldl (fun v b => if b.1 = o then some (b.2 % 256) else v) i = (lastAt bs o).or i := by
  induction bs generalizing i with
  | nil => simp [lastAt]
  | cons b bs ih =>
    simp only [List.foldl_cons, lastAt]
    rw [ih, ih (if b.1 = o then some (b.2 % 256) else none)]
    split <;> cases lastAt bs o <;> simp

theorem cellAt_putOffs (r : Ram) (bs : List (Nat × Nat)) (base : Nat) : ∀ (cs : List Host.Cell) (o : Nat),
    cellAt { r with cells := putOffs cs base bs } (base + o) = (lastAt bs o).getD (cellAt { r with cells := cs } (base + o)) := by
  induction bs with
  | nil => intro cs o; rfl
  | cons b bs ih =>
    intro cs o
    obtain ⟨p, v⟩ := b
    have e : lastAt ((p, v) :: bs) o = (lastAt bs o).or (if p = o then some (v % 256) else none) := foldl_lastAt bs o _
    rw [putOffs, ih, cellAt_tputD, e]
    by_cases h : p = o
    · subst h
      rw [if_pos rfl, if_pos rfl]
      cases lastAt bs p <;> simp
    · rw [if_neg (by omega), if_neg h]
      cases lastAt bs o <;> simp

theorem cellAt_putOffs_out (r : Ram) (bs : List (Nat × Nat)) (base x : Nat) (h : ∀ b ∈ bs, x ≠ base + b.1) :
    ∀ cs : List Host.Cell, cellAt { r with cells := putOffs cs base bs } x = cellAt { r with cells := cs } x := by
  induction bs with
  | nil => intro cs; rfl
  | cons b bs ih =>
    intro cs
    obtain ⟨p, v⟩ := b
    rw [putOffs, ih (fun c hc => h c (List.mem_cons_of_mem _ hc)), cellAt_tputD, if_neg (h (p, v) List.mem_cons_self)]

theorem block16_congr {r r' : Ram} {a : Nat} (h : ∀ x, x / 16 = a / 16 → cellAt r x = cellAt r' x) : block16 r a = block16 r' a := by
  unfold block16
  apply List.map_congr_left
  intro x hx
  apply h
  simp only [rangeFrom, List.mem_map, List.mem_range] at hx
  obtain ⟨i, hi, rfl⟩ := hx
  omega

theorem readUnder_length (r : Ram) (k a n : Nat) : (readUnder r k a n).length = n := by simp [readUnder, rangeFrom]

theorem readUnder_getD (r : Ram) (k a n i : Nat) (h : i < n) : (readUnder r k a n).getD i 0 = byteUnder r k (a + i) := by
  simp [readUnder, rangeFrom, List.getD, h, Nat.add_comm]

theorem byteUnder_lt (r : Ram) (k a : Nat) : byteUnder r k a < 256 := by
  unfold byteUnder
  simp only
  split
  · unfold cellAt; exact BitVec.isLt _
  · split <;> omega

/-- A line stored anew under a key reads there as it did. -/
theorem byteUnder_rekey (r : Ram) (k line x : Nat) (h : x / 128 = line) : byteUnder (r.rekey k line) k x = byteUnder r k x := by
  unfold Ram.rekey
  split
  · rfl
  · rename_i hk
    have hk' : tgetD (tputD r.keys line k 0) (x / 128) 0 = k := by rw [tgetD_tputD, if_pos h]
    conv_lhs => unfold byteUnder
    simp only [hk', if_true]
    have hc := cellAt_putCells { r with keys := tputD r.keys line k 0 } (readUnder r k (128 * line) 128) r.cells (128 * line) x
    simp only at hc
    rw [hc, readUnder_length, if_pos (by omega), readUnder_getD _ _ _ _ _ (by omega), show 128 * line + (x - 128 * line) = x by omega,
      Nat.mod_eq_of_lt (byteUnder_lt _ _ _)]

/-- Other lines read as they did, under every key. -/
theorem byteUnder_rekey_ne (r : Ram) (k k' line x : Nat) (h : x / 128 ≠ line) : byteUnder (r.rekey k line) k' x = byteUnder r k' x := by
  unfold Ram.rekey
  split
  · rfl
  · have hc : ∀ y, y / 128 = x / 128 →
        cellAt { r with cells := putCells r.cells (128 * line) (readUnder r k (128 * line) 128), keys := tputD r.keys line k 0 } y = cellAt r y := by
      intro y hy
      have hc := cellAt_putCells { r with keys := tputD r.keys line k 0 } (readUnder r k (128 * line) 128) r.cells (128 * line) y
      simp only at hc
      rw [hc, readUnder_length, if_neg (by omega)]
      rfl
    unfold byteUnder
    simp only [tgetD_tputD, if_neg h]
    rw [hc x rfl, block16_congr (r' := r) (fun y hy => hc y (by omega))]

/-- A write under a key: each byte of the line reads there as written, or as it did. -/
theorem byteUnder_write (r : Ram) (k line o : Nat) (bs : List (Nat × Nat)) (ho : o < 128) :
    byteUnder (r.write k line bs) k (128 * line + o) = (lastAt bs o).getD (byteUnder r k (128 * line + o)) := by
  have hl : (128 * line + o) / 128 = line := by omega
  have hr := byteUnder_rekey r k line (128 * line + o) hl
  have hk : tgetD (r.rekey k line).keys line 0 = k := by
    unfold Ram.rekey
    split
    · assumption
    · simp [tgetD_tputD]
  rw [← hr]
  unfold Ram.write byteUnder
  simp only [hl, hk, if_true]
  exact cellAt_putOffs (r.rekey k line) bs (128 * line) (r.rekey k line).cells o

/-- A write leaves every other line as it reads. -/
theorem byteUnder_write_ne (r : Ram) (k k' line x : Nat) (bs : List (Nat × Nat)) (hb : ∀ b ∈ bs, b.1 < 128) (h : x / 128 ≠ line) :
    byteUnder (r.write k line bs) k' x = byteUnder r k' x := by
  rw [← byteUnder_rekey_ne r k k' line x h]
  have hc : ∀ y, y / 128 = x / 128 → cellAt (r.write k line bs) y = cellAt (r.rekey k line) y := by
    intro y hy
    exact cellAt_putOffs_out (r.rekey k line) bs (128 * line) y (fun b hb' => by have := hb b hb'; omega) (r.rekey k line).cells
  unfold byteUnder
  rw [hc x rfl, block16_congr (r' := r.rekey k line) (fun y hy => hc y (by omega))]
  rfl

/-! The canonical form. -/

theorem cellsOk_iff (cs : List Host.Cell) : cellsOk cs = true ↔ tabOk cs = true ∧ ∀ c ∈ cs, c.2 ≠ 0 := by
  simp [cellsOk]

theorem cellsOk_tputD {cs : List Host.Cell} (a : Nat) (b : BitVec 8) (h : cellsOk cs = true) : cellsOk (tputD cs a b 0) = true := by
  obtain ⟨h1, h2⟩ := (cellsOk_iff cs).1 h
  exact (cellsOk_iff _).2 ⟨tabOk_tputD a b 0 h1, noDef_tputD a b 0 h2⟩

theorem cellsOk_putCells (bs : List Nat) : ∀ {cs : List Host.Cell} (a : Nat), cellsOk cs = true → cellsOk (putCells cs a bs) = true := by
  induction bs with
  | nil => intro cs a h; exact h
  | cons b bs ih => intro cs a h; exact ih (a + 1) (cellsOk_tputD a _ h)

theorem cellsOk_putOffs (bs : List (Nat × Nat)) : ∀ {cs : List Host.Cell} (a : Nat), cellsOk cs = true → cellsOk (putOffs cs a bs) = true := by
  induction bs with
  | nil => intro cs a h; exact h
  | cons b bs ih => intro cs a h; exact ih a (cellsOk_tputD _ _ h)

theorem ram_wf_iff (r : Ram) : r.wf = true ↔ cellsOk r.cells = true ∧ tabOk r.marks = true ∧ tabOk r.keys = true ∧ ∀ k ∈ r.keys, k.2 ≠ 0 := by
  simp [Ram.wf, and_assoc]

theorem ram_wf_rekey {r : Ram} (k line : Nat) (h : r.wf = true) : (r.rekey k line).wf = true := by
  unfold Ram.rekey
  split
  · exact h
  · obtain ⟨h1, h2, h3, h4⟩ := (ram_wf_iff r).1 h
    exact (ram_wf_iff _).2 ⟨cellsOk_putCells _ _ h1, h2, tabOk_tputD _ _ _ h3, noDef_tputD _ _ _ h4⟩

/-- A write keeps memory canonical. -/
theorem ram_wf_write {r : Ram} (k line : Nat) (bs : List (Nat × Nat)) (h : r.wf = true) : (r.write k line bs).wf = true := by
  obtain ⟨h1, h2, h3, h4⟩ := (ram_wf_iff _).1 (ram_wf_rekey k line h)
  exact (ram_wf_iff _).2 ⟨cellsOk_putOffs _ _ h1, h2, h3, h4⟩

theorem ram_wf_setMark (s : State) (pa : Nat) (h : s.ram.wf = true) : (setMark s pa).ram.wf = true := by
  obtain ⟨h1, h2, h3, h4⟩ := (ram_wf_iff _).1 h
  exact (ram_wf_iff _).2 ⟨h1, tabOk_tput _ _ h2, h3, h4⟩

theorem ram_wf_clrMark (s : State) (pa : Nat) (h : s.ram.wf = true) : (clrMark s pa).ram.wf = true := by
  obtain ⟨h1, h2, h3, h4⟩ := (ram_wf_iff _).1 h
  unfold clrMark
  simp only
  split <;> split <;> exact (ram_wf_iff _).2 ⟨h1, tabOk_tdel _ h2, h3, h4⟩

theorem ram_wf_reset : State.reset.ram.wf = true := by decide

end Sys2Proof.Laws
end

