-- ==== Sys2Proof/Laws/Stop.lean ====
section
/-!
SUPPORT. Stopping a workgroup, faults and barriers: what they leave of a group.
-/
namespace Sys2Proof.Laws
open Sys2Proof.Machine Sys2Proof.Safety

theorem sameCore_refl (g : Group) : SameCore g g := ⟨rfl, rfl, rfl, rfl, rfl, rfl, rfl, rfl, rfl, rfl, rfl, rfl⟩

theorem sameCore_trans {a b c : Group} (h : SameCore a b) (k : SameCore b c) : SameCore a c := by
  obtain ⟨h1, h2, h3, h4, h5, h6, h7, h8, h9, h10, h11, h12⟩ := h
  obtain ⟨k1, k2, k3, k4, k5, k6, k7, k8, k9, k10, k11, k12⟩ := k
  exact ⟨k1.trans h1, k2.trans h2, k3.trans h3, k4.trans h4, k5.trans h5, k6.trans h6, k7.trans h7, k8.trans h8, k9.trans h9,
    k10.trans h10, k11.trans h11, k12.trans h12⟩

/-- Every group of a tile keeps what it computes with. -/
def KeepsGroups (s s' : State) (t : Nat) : Prop :=
  ∀ n g, group? s t n = some g → ∃ g', group? s' t n = some g' ∧ SameCore g g'

theorem KeepsGroups.refl (s : State) (t : Nat) : KeepsGroups s s t := fun _ g h => ⟨g, h, sameCore_refl g⟩

theorem KeepsGroups.trans {s s1 s2 : State} {t : Nat} (h : KeepsGroups s s1 t) (k : KeepsGroups s1 s2 t) : KeepsGroups s s2 t := by
  intro n g hg
  obtain ⟨g1, h1, c1⟩ := h n g hg
  obtain ⟨g2, h2, c2⟩ := k n g1 h1
  exact ⟨g2, h2, sameCore_trans c1 c2⟩

theorem keepsGroups_tiles {s s' : State} (h : s'.tiles = s.tiles) (t : Nat) : KeepsGroups s s' t := by
  intro n g hg
  refine ⟨g, ?_, sameCore_refl g⟩
  unfold group? at *
  rw [tile_congr h]; exact hg

theorem keepsGroups_modTile (s : State) (t : Nat) (f : Tile → Tile) (h : ∀ x, (f x).groups = x.groups) : KeepsGroups s (modTile s t f) t := by
  intro n g hg
  refine ⟨g, ?_, sameCore_refl g⟩
  unfold group? at *
  rw [tile_modTile_same, h]; exact hg

theorem keepsGroups_modGroup (s : State) (t m : Nat) (f : Group → Group) (h : ∀ g, SameCore g (f g)) : KeepsGroups s (modGroup s t m f) t := by
  intro n g hg
  rw [group?_modGroup]
  by_cases hn : n = m
  · subst hn; exact ⟨f g, by simp [hg], h g⟩
  · exact ⟨g, by simp [hn, hg], sameCore_refl g⟩

theorem keepsGroups_foldl {α : Type} (t : Nat) (f : State → α → State) (h : ∀ s x, KeepsGroups s (f s x) t) (xs : List α) :
    ∀ s, KeepsGroups s (xs.foldl f s) t := by
  induction xs with
  | nil => intro s; exact KeepsGroups.refl s t
  | cons x xs ih => intro s; exact (h s x).trans (ih _)

/-- An abort of a transaction group touches no tile. -/
theorem txgAbort_tiles (s : State) (i c : Nat) : (txgAbort s i c).tiles = s.tiles := by
  unfold txgAbort
  simp only
  split
  · split <;> rfl
  · rfl

theorem unbindForPark_tiles (gs : List (Nat × Group)) : ∀ s : State, (unbindForPark s gs).tiles = s.tiles := by
  induction gs with
  | nil => intro s; rfl
  | cons p gs ih =>
    intro s
    unfold unbindForPark at *
    rw [List.foldl_cons, ih]
    split
    · split
      · exact txgAbort_tiles s _ _
      · rfl
    · rfl

theorem keepsGroups_modWg (s : State) (t w : Nat) (f : Wg → Wg) : KeepsGroups s (modWg s t w f) t :=
  keepsGroups_modTile s t _ (fun _ => rfl)

theorem keepsGroups_endResvs (s : State) (t : Nat) (ns : List Nat) : KeepsGroups s (endResvs s t ns) t := keepsGroups_tiles rfl t
theorem keepsGroups_dropOffers (s : State) (t : Nat) (ns : List Nat) : KeepsGroups s (dropOffers s t ns) t :=
  keepsGroups_modTile s t _ (fun _ => rfl)

theorem keepsGroups_noPark (s : State) (t w reason : Nat) :
    KeepsGroups s (modTile s t (fun x => { x with noPark := x.noPark ++ [(w, reason)] })) t :=
  keepsGroups_modTile s t _ (fun _ => rfl)

theorem stopWg_keeps (s : State) (t w reason : Nat) : KeepsGroups s (stopWg s t w reason) t := by
  unfold stopWg
  split
  · exact KeepsGroups.refl s t
  · rename_i wg hw
    simp only
    split
    · unfold regroup
      refine keepsGroups_foldl t _ ?_ _ s
      intro s p
      split
      · exact keepsGroups_modGroup s t _ _ (fun g => sameCore_refl g)
      · exact KeepsGroups.refl s t
    · split
      · exact KeepsGroups.refl s t
      split
      · exact KeepsGroups.trans (keepsGroups_noPark s t w reason) (keepsGroups_modWg _ t w _)
      · split
        · split
          · exact keepsGroups_modWg s t w _
          · exact KeepsGroups.refl s t
        · refine KeepsGroups.trans ?_ (keepsGroups_modWg _ t w _)
          refine KeepsGroups.trans ?_ (keepsGroups_endResvs _ t _)
          refine KeepsGroups.trans ?_ (keepsGroups_dropOffers _ t _)
          refine KeepsGroups.trans (s1 := if (decide (reason = rPreempt) || decide (reason = rMigrate)) = true then s else unbindForPark s ((tile s t).groupsOf w)) ?_ ?_
          · split
            · exact KeepsGroups.refl s t
            · exact keepsGroups_tiles (unbindForPark_tiles _ s) t
          · unfold stopGroups
            refine keepsGroups_foldl t _ ?_ _ _
            intro s p
            exact keepsGroups_modGroup s t _ _ (fun g => sameCore_refl g)

theorem evalBarrier_keeps (s : State) (t w : Nat) : KeepsGroups s (evalBarrier s t w) t := by
  unfold evalBarrier
  simp only
  split
  · exact KeepsGroups.refl s t
  · split
    · exact KeepsGroups.refl s t
    · split
      · split
        · exact KeepsGroups.refl s t
        · refine KeepsGroups.trans ?_ (keepsGroups_modWg _ t w _)
          refine keepsGroups_foldl t _ ?_ _ _
          intro s p
          exact keepsGroups_modGroup s t _ _ (fun g => sameCore_refl g)
      · split
        · exact (keepsGroups_tiles (s' := bumpF s (pgTile t) 0x094 15 0 1) rfl t).trans (stopWg_keeps _ t w _)
        · exact KeepsGroups.refl s t

theorem parkAsked_keeps (s : State) (t w : Nat) : KeepsGroups s (parkAsked s t w) t := by
  unfold parkAsked
  split
  · exact KeepsGroups.refl s t
  · simp only
    split
    · exact KeepsGroups.refl s t
    · exact stopWg_keeps s t w _

/-- A stop does not reach memory. -/
theorem stopWg_ram (s : State) (t w reason : Nat) : (stopWg s t w reason).ram = s.ram := by
  have fold : ∀ {α : Type} (f : State → α → State), (∀ s x, (f s x).ram = s.ram) → ∀ (xs : List α) (s : State), (xs.foldl f s).ram = s.ram := by
    intro α f h xs
    induction xs with
    | nil => intro s; rfl
    | cons x xs ih => intro s; rw [List.foldl_cons, ih, h]
  have hab : ∀ (s : State) i c, (txgAbort s i c).ram = s.ram := by
    intro s i c
    unfold txgAbort
    simp only
    split
    · split <;> rfl
    · rfl
  unfold stopWg
  split
  · rfl
  · simp only
    split
    · refine fold _ ?_ _ _
      intro s p; split <;> rfl
    · split
      · rfl
      split
      · rfl
      · split
        · split <;> rfl
        · simp only [modWg_ram, endResvs, dropOffers, modTile_ram, stopGroups]
          rw [fold]
          · split
            · rfl
            · refine fold _ ?_ _ _
              intro s p
              split
              · split
                · exact hab s _ _
                · rfl
              · rfl
          · intro s p; rfl

end Sys2Proof.Laws
end

