-- ==== Sys2Proof/Tests/Slice0.lean ====
section
/-!
SUPPORT. Tests: ill-formed commands that WellFormed refuses, and for each statement states and operands that meet its hypotheses,
with what the command does there.
-/
namespace Sys2Proof.Tests
open Sys2Proof.Machine Sys2Proof.Safety
set_option Elab.async false

/-- A check of the next state that a command answers. -/
def after (c : Instr) (s : State) (f : State → Bool) : Bool :=
  match exec c s with
  | .next t => f t
  | _ => false

/-- Bytes listed at an address. -/
def cellsAt (a : Nat) : List Nat → List Host.Cell
  | [] => []
  | b :: bs => if b % 256 = 0 then cellsAt (a + 1) bs else (a, BitVec.ofNat 8 b) :: cellsAt (a + 1) bs

/-- AS0 and AS1 ACTIVE in plaintext, in the line of the space descriptors; the descriptor of Q0, ACTIVE on DE0 in AS1 with tag 1
and 16 entries; the context entry of tag 1. Each line is stored under the firmware's key. -/
def tables : List Host.Cell :=
  cellsAt 0 [1] ++ cellsAt 64 [1] ++ cellsAt 4096 ([0x11, 0, 1, 0, 1]) ++ cellsAt 4112 [4] ++ cellsAt 8196 [1, 0, 0, 128]

/-- A range entry of AS1: 16 MiB from 0 on to the frames from 0x1000000 on, readable, writable and executable by the device and the
host. -/
def map1 : XEntry := { space := 1, vbase := 0, frames := 8, attr := 0x4F, target := 0x1000000, mirror := 0, lim := 2 ^ 64 }
def map0 : XEntry := { map1 with space := 0 }

/-- A booted device with the tables in place and the mapping in the caches of die 0, tile 0 and the engines DE0, CE0, FX0, ME0. -/
def base : State :=
  { booted := true, pwrGood := true
    blks := [(pgNhl, { st := .idle, regs := [(0x080, 5), (0x0E0, 1)] }), (pgEng 40, { st := .idle, regs := [(0x0A0, 0x1000), (0x0A8, 0x2000)] })]
    ram := { cells := tables, keys := [(0, 1), (32, 1), (64, 1)] }, keys := [(255, 0)]
    xcache := [(0, [map1, map0]), (1000, [map1]), (1016, [map1]), (1032, [map1]), (2000, [map1, map0])] }


/-! Ill-formed commands. -/

theorem test_wf_sizes : wellFormed (.regWrite .host 0 0x1000 3 0) = false ∧ wellFormed (.regWrite .host 0x10000 0x1000 4 0) = false ∧
    wellFormed (.regWrite .host 0 0x10000000 4 0) = false ∧ wellFormed (.regWrite .host 0 0x1000 8 (2 ^ 64)) = false ∧
    wellFormed (.pairLowWrite .host 0 0x1000 (2 ^ 32)) = false ∧ wellFormed (.memWindowAccess 0 0 true []) = false ∧
    wellFormed (.memWindowAccess 0 0 true [256]) = false ∧ wellFormed (.stop .host 0 65536) = false := by decide
theorem test_wf_numbers : wellFormed (.tileHang 176) = false ∧ wellFormed (.guideTakeover 4) = false ∧ wellFormed (.los 19) = false ∧
    wellFormed (.commandFetch 16384) = false ∧ wellFormed (.commandStart 44) = false ∧ wellFormed (.sliceBypass 128) = false ∧
    wellFormed (.laneBad 0 9) = false ∧ wellFormed (.neighbourDead 4096) = false ∧ wellFormed (.exitM ⟨0, 64⟩) = false ∧
    wellFormed (.exitM ⟨176, 0⟩) = false := by decide
theorem test_wf_good : wellFormed (.regWrite .host 0 0x1000 4 0) = true ∧ wellFormed (.exitM ⟨175, 63⟩) = true ∧
    wellFormed (.stop .host 0 65535) = true ∧ wellFormed (.commandStart 43) = true ∧ wellFormed (.laneBad 18 8) = true := by decide

/-! The bundle set: tile 0 holds a workgroup of two groups, the first with lanes 0 to 3 of 64, eight vector registers each. -/

def g0 : Group :=
  { wg := 0, idx := 0, width := 64, lset := 0, r := 8, pc := 0x200, live := 15, active := 15
    u := [(1, 0x100), (2, 3), (3, 0xFFFF_FFFF_FFFF_FFFF)]
    v := [(64, 0x3F80_0000), (65, 2), (128, 0x4000_0000), (129, 0xFFFF_FFFF)], p := [(1, 5), (2, 3)] }
def g1 : Group := { g0 with idx := 1, pc := 0x300 }
def w0 : Wg := { launch := ⟨1, 0, 1⟩, space := 1, kdesc := 0x8000, x := 0, y := 0, z := 0, g := 2, width := 64, r := 8, m := 4096 }
def t0 : Tile := { wgs := [(0, w0)], groups := [(0, g0), (1, g1)], age := [0, 1] }
def ts : State := { base with tiles := [(0, t0)] }
/-- `ts` with its first group changed. -/
def tg (f : Group → Group) : State := modGroup ts 0 0 f
def r0 : GRef := ⟨0, 0⟩

/-- The first group after a command. -/
def grp (c : Instr) (s : State) (f : Group → Bool) : Bool := after c s (fun t => ((group? t 0 0).map f).getD false)

/-- MayIssue from its parts that can be evaluated. -/
theorem mayIssue_of (f : Group → Group) (h : group? (tg f) 0 0 = some (f g0) ∧ (blk (tg f) (pgTile 0)).st.inService = true ∧ running (tg f) = true ∧
    stalled (tg f) (pgTile 0) = false ∧ (f g0).stat = .run ∧ (f g0).stopped = false ∧ (f g0).active ≠ 0 ∧ (f g0).width ≤ 64 ∧ (f g0).offer = none ∧
    (∀ k, k < 6 → (f g0).count k ≤ 62) ∧ (f g0).fault = none ∧ (blk (tg f) (pgTile 0)).injArm = false ∧ (wg? (tg f) 0 (f g0).wg).map (·.asked) = some 0)
    (hd : ∀ b, (f g0).dueV b = [] ∧ (f g0).dueU b = []) : MayIssue (tg f) r0 (f g0) := by
  obtain ⟨h1, h2, h3, h4, h5, h6, h7, h8, h9, h10, h11, h12, h13⟩ := h
  exact ⟨h1, h2, h3, h4, h5, h6, h7, h8, h9, h10, hd, h11, h12, fun w hw => by rw [show r0.tile = 0 from rfl] at hw; simpa [hw] using h13⟩

theorem test_mayIssue : MayIssue (tg id) r0 g0 := mayIssue_of id (by decide) (fun _ => ⟨rfl, rfl⟩)
theorem test_mayIssue_full : MayIssue (tg (fun g => { g with stack := List.replicate 32 ⟨15, 0, 0, 0, 2⟩ })) r0
    { g0 with stack := List.replicate 32 ⟨15, 0, 0, 0, 2⟩ } := mayIssue_of _ (by decide) (fun _ => ⟨rfl, rfl⟩)
theorem test_mayIssue_then : MayIssue (tg (fun g => { g with stack := [⟨15, 12, 0x400, 0x500, 0⟩], active := 3 })) r0
    { g0 with stack := [⟨15, 12, 0x400, 0x500, 0⟩], active := 3 } := mayIssue_of _ (by decide) (fun _ => ⟨rfl, rfl⟩)
theorem test_mayIssue_loop : MayIssue (tg (fun g => { g with stack := [⟨15, 0, 0x400, 0x400, 2⟩] })) r0 { g0 with stack := [⟨15, 0, 0x400, 0x400, 2⟩] } :=
  mayIssue_of _ (by decide) (fun _ => ⟨rfl, rfl⟩)

def is (n v : Nat) (g : Group) : Bool := g.uget n == v && g.pc == 0x210
theorem test_uadd : grp (.uadd r0 4 3 2) ts (is 4 2) = true := by decide
theorem test_usub : grp (.usub r0 4 2 3) ts (is 4 4) = true := by decide
theorem test_umul : grp (.umul r0 4 2 2) ts (is 4 9) = true := by decide
theorem test_uand : grp (.uand r0 4 1 3) ts (is 4 0x100) = true := by decide
theorem test_uor : grp (.uor r0 4 1 2) ts (is 4 0x103) = true := by decide
theorem test_uxor : grp (.uxor r0 4 3 2) ts (is 4 0xFFFF_FFFF_FFFF_FFFC) = true := by decide
theorem test_ushl : grp (.ushl r0 4 3 2) ts (is 4 0xFFFF_FFFF_FFFF_FFF8) = true := by decide
theorem test_ushr : grp (.ushr r0 4 3 3) ts (is 4 1) = true := by decide
theorem test_usar : grp (.usar r0 4 3 2) ts (is 4 0xFFFF_FFFF_FFFF_FFFF) = true := by decide
theorem test_uminS : grp (.uminS r0 4 3 2) ts (is 4 0xFFFF_FFFF_FFFF_FFFF) = true := by decide
theorem test_umaxS : grp (.umaxS r0 4 3 2) ts (is 4 3) = true := by decide
theorem test_uminU : grp (.uminU r0 4 3 2) ts (is 4 3) = true := by decide
theorem test_uaddi : grp (.uaddi r0 4 2 0xFFC) ts (is 4 0xFFFF_FFFF_FFFF_FFFF) = true := by decide
theorem test_uandi : grp (.uandi r0 4 3 0xFFF) ts (is 4 0xFFFF_FFFF_FFFF_FFFF) = true := by decide
theorem test_uori : grp (.uori r0 4 1 0x7FF) ts (is 4 0x7FF) = true := by decide
theorem test_uxori : grp (.uxori r0 4 3 1) ts (is 4 0xFFFF_FFFF_FFFF_FFFE) = true := by decide
theorem test_ushli : grp (.ushli r0 4 2 0x07F) ts (is 4 0x8000_0000_0000_0000) = true := by decide
theorem test_ushri : grp (.ushri r0 4 3 60) ts (is 4 15) = true := by decide
theorem test_usari : grp (.usari r0 4 3 60) ts (is 4 0xFFFF_FFFF_FFFF_FFFF) = true := by decide
theorem test_umovi : grp (.umovi r0 4 0x10000) ts (is 4 0xFFFF_FFFF_FFFF_0000) = true := by decide
theorem test_movl : grp (.movl r0 4 0xFFFF_FFFF) ts (fun g => g.uget 4 == 0xFFFF_FFFF && g.pc == 0x220) = true := by decide
theorem test_movl64 : grp (.movl64 r0 4 1 2) ts (fun g => g.uget 4 == 0x2_0000_0001 && g.pc == 0x220) = true := by decide
theorem test_rdstep : grp (.rdstep r0 4) ts (is 4 1) = true := by decide
theorem test_rdlic : grp (.rdlic r0 4) ts (fun g => g.pc == 0x210) = true := by decide
theorem test_pmov : grp (.pmov r0 3 2) ts (fun g => g.pget 3 == 3) = true := by decide
theorem test_smovp : grp (.smovp r0 4 1) ts (is 4 5) = true := by decide
theorem test_pand : grp (.pand r0 3 1 2) ts (fun g => g.pget 3 == 1) = true := by decide
theorem test_por : grp (.por r0 3 1 2) ts (fun g => g.pget 3 == 7) = true := by decide
theorem test_pandn : grp (.pandn r0 3 1 2) ts (fun g => g.pget 3 == 4) = true := by decide
theorem test_pnot : grp (.pnot r0 3 1) ts (fun g => g.pget 3 == 2 ^ 64 - 6) = true := by decide
theorem test_waitle : g0.count 5 ≤ 0 ∧ grp (.waitle r0 5 0) ts (fun g => g.pc == 0x210) = true := by decide
theorem test_waitle_illegal : g0.count 6 = 0 ∧ grp (.waitle r0 6 0) ts (fun g => (g.fault.map (·.code)) == some fIllegal) = true := by decide
theorem test_bra : grp (.bra r0 0x3FFFFF) ts (fun g => g.pc == 0x1F0) = true := by decide
theorem test_brCond : grp (.brCond r0 3 2 4) ts (fun g => g.pc == 0x240) = true ∧ grp (.brCond r0 3 5 4) ts (fun g => g.pc == 0x240) = true ∧
    grp (.brCond r0 2 5 4) ts (fun g => g.pc == 0x210) = true ∧ grp (.brCond r0 2 6 4) ts (fun g => (g.fault.map (·.code)) == some fIllegal) = true := by decide
theorem test_brpMode : grp (.brpMode r0 1 1 4) ts (fun g => g.pc == 0x210) = true ∧ grp (.brpMode r0 1 0 4) ts (fun g => g.pc == 0x240) = true ∧
    grp (.brpMode r0 3 2 4) ts (fun g => g.pc == 0x240) = true ∧ grp (.brpMode r0 1 3 4) ts (fun g => (g.fault.map (·.code)) == some fIllegal) = true := by decide
theorem test_call : grp (.call r0 4 4) ts (fun g => g.pc == 0x240 && g.uget 4 == 0x210) = true := by decide
theorem test_jmpr : grp (.jmpr r0 1) ts (fun g => g.pc == 0x100) = true ∧ grp (.jmpr r0 2) ts (fun g => (g.fault.map (·.code)) == some fAlign && g.pc == 0x200) = true := by
  decide
theorem test_split : grp (.split r0 1 4 8) ts (fun g => g.active == 5 && g.stack == [⟨15, 10, 0x240, 0x280, 0⟩]) = true ∧
    grp (.split r0 4 4 8) ts (fun g => g.active == 15 && g.pc == 0x240 && g.stack == [⟨15, 15, 0x240, 0x280, 1⟩]) = true := by decide
theorem test_split_full : grp (.split r0 1 511 1023) (tg (fun g => { g with stack := List.replicate 32 ⟨15, 0, 0, 0, 2⟩ }))
    (fun g => (g.fault.map (·.code)) == some fOverflow) = true := by decide
theorem test_joinM : grp (.joinM r0) (tg (fun g => { g with stack := [⟨15, 12, 0x400, 0x500, 0⟩], active := 3 })) (fun g => g.active == 12 && g.pc == 0x400) = true ∧
    grp (.joinM r0) (tg (fun g => { g with stack := [⟨15, 12, 0x400, 0x500, 1⟩], active := 3 })) (fun g => g.active == 15 && g.pc == 0x500 && g.stack.isEmpty) = true ∧
    grp (.joinM r0) ts (fun g => (g.fault.map (·.code)) == some fUnderflow) = true := by decide
theorem test_loopM : grp (.loopM r0 0xFFFF) ts (fun g => g.active == 15 && g.stack == [⟨15, 0, 0x1001F0, 0x1001F0, 2⟩]) = true ∧
    grp (.loopM r0 0) ts (fun g => (g.fault.map (·.code)) == some fIllegal) = true := by decide
theorem test_breakM : grp (.breakM r0 1) (tg (fun g => { g with stack := [⟨15, 0, 0x400, 0x400, 2⟩] })) (fun g => g.active == 10 && g.pc == 0x210) = true ∧
    grp (.breakM r0 5) (tg (fun g => { g with stack := [⟨15, 0, 0x400, 0x400, 2⟩], active := 3, p := [(5, 3)] })) (fun g => g.active == 15 && g.pc == 0x400) = true ∧
    grp (.breakM r0 1) (tg (fun g => { g with stack := [⟨15, 0, 0x400, 0x400, 0⟩] })) (fun g => (g.fault.map (·.code)) == some fNesting) = true := by decide
theorem test_trap : grp (.trap r0 0xFF) ts (fun g => (g.fault.map (·.code)) == some fTrap && g.stopped) = true := by decide
theorem test_exitM : grp (.exitM r0) ts (fun g => g.live == 0 && g.stat == .finished) = true := by decide
theorem test_bar : (∃ q ∈ (tile ts 0).groupsOf 0, q.1 ≠ 0 ∧ q.2.stat = .run ∧ without q.2.live q.2.arrived ≠ 0) ∧
    grp (.bar r0) ts (fun g => g.stat == .barrier && g.arrived == 15) = true := by decide
/-- The last arrival: the other group waits at the barrier with all its lanes. -/
def tb : State := modGroup ts 0 1 (fun g => { g with stat := .barrier, arrived := 15 })
theorem test_bar_last : (wg? tb 0 0) = some w0 ∧ w0.park = .none ∧ (tile tb 0).openStores 0 = false ∧ tabOk (tile tb 0).groups = true ∧ without g0.live (g0.arrived ||| g0.active) = 0 ∧
    (∀ q ∈ (tile tb 0).groupsOf 0, q.1 ≠ 0 → without q.2.live q.2.arrived = 0) ∧ grp (.bar r0) tb (fun g => g.stat == .run && g.arrived == 0) = true := by decide

/-! Vector operations. -/

def lane0 (k : Nat) (x : Word) (g : Group) : Bool := g.vget k 0 == x
theorem test_addI32 : inFile g0 2 ∧ inFile g0 255 ∧ grp (.addI32 r0 2 1 255 0xC080_0000) ts (fun g => g.vget 2 0 == 0 && g.pc == 0x220) = true := by unfold inFile; decide
theorem test_subI32 : grp (.subI32 r0 0 1 2 0) ts (fun g => g.vget 0 1 == 3 && g.vget 0 4 == 0) = true := by decide
theorem test_mulI32 : grp (.mulI32 r0 255 1 2 0) ts (fun g => g.v == g0.v && g.pc == 0x210) = true ∧ grp (.mulI32 r0 0 1 2 0) ts (fun g => g.vget 0 1 == 0xFFFF_FFFE) = true := by decide
theorem test_movV : grp (.movV r0 0 255 7) ts (fun g => g.vget 0 3 == 7 && g.vget 0 4 == 0) = true := by decide
theorem test_absneg : grp (.absF32 r0 0 2 0) ts (fun g => g.vget 0 1 == 0x7FFF_FFFF) = true ∧ grp (.negF32 r0 0 1 0) ts (lane0 0 0xBF80_0000) = true := by decide
theorem test_minmax : grp (.minS32 r0 2 1 0) ts (fun g => g.vget 2 1 == 0xFFFF_FFFF) = true ∧ grp (.maxS32 r0 2 1 0) ts (fun g => g.vget 2 1 == 2) = true ∧
    grp (.minU32 r0 2 1 0) ts (fun g => g.vget 2 1 == 2) = true ∧ grp (.maxU32 r0 2 1 0) ts (fun g => g.vget 2 1 == 0xFFFF_FFFF) = true := by decide
theorem test_bitwise : grp (.andV r0 2 1 0) ts (fun g => g.vget 2 1 == 2) = true ∧ grp (.orV r0 2 1 0) ts (lane0 2 0x7F80_0000) = true ∧
    grp (.xorV r0 2 1 0) ts (fun g => g.vget 2 1 == 0xFFFF_FFFD) = true := by decide
theorem test_shifts : grp (.shlV r0 2 255 33) ts (lane0 2 0x8000_0000) = true ∧ grp (.shrV r0 2 255 31) ts (fun g => g.vget 2 1 == 1) = true ∧
    grp (.sarV r0 2 255 31) ts (fun g => g.vget 2 1 == 0xFFFF_FFFF) = true := by decide
theorem test_fp32 : grp (.mulF32 r0 0 1 2 0) ts (lane0 0 0x4000_0000) = true ∧ grp (.addF32 r0 0 1 2 0) ts (lane0 0 0x4040_0000) = true ∧
    grp (.subF32 r0 0 1 2 0) ts (lane0 0 0xBF80_0000) = true ∧ grp (.fmaF32 r0 1 1 2 0) ts (lane0 1 0x4040_0000) = true := by decide
theorem test_fp32_minmax : grp (.minF32 r0 2 1 0) ts (lane0 2 0x3F80_0000) = true ∧ grp (.maxF32 r0 2 1 0) ts (lane0 2 0x4000_0000) = true := by decide
theorem test_fmaBf2 : grp (.fmaBf2 r0 1 1 2 0) ts (lane0 1 0x4040_0000) = true := by decide
/-- BF16 is format 1 (R105). -/
theorem test_convert : grp (.cvtn r0 1 0 255 0x3F80_8001) ts (lane0 0 0x3F81) = true ∧ grp (.cvtz r0 1 0 255 0x3F80_FFFF) ts (lane0 0 0x3F80) = true ∧
    grp (.cvtf r0 1 0 255 0x3F80) ts (lane0 0 0x3F80_0000) = true := by decide
theorem test_cvts : regF (setRegF ts (pgTile 0) 0x0F0 16 0 0x1FFFF) (pgTile 0) 0x0F0 16 16 = 1 ∧
    grp (.cvts r0 1 0 255 0x3F80_0001) (setRegF ts (pgTile 0) 0x0F0 16 0 0x1FFFF) (lane0 0 0x3F81) = true := by decide
theorem test_cmp_f32 : grp (.cmpEqF32 r0 3 2 1 0) ts (fun g => g.pget 3 == 12) = true ∧ grp (.cmpLtF32 r0 3 1 2 0) ts (fun g => g.pget 3 == 1) = true ∧
    grp (.cmpLeF32 r0 3 1 2 0) ts (fun g => g.pget 3 == 13) = true ∧ grp (.cmpNeF32 r0 3 1 2 0) ts (fun g => g.pget 3 == 3) = true := by decide
theorem test_cmp_int : grp (.cmpEqI32 r0 3 1 2 0) ts (fun g => g.pget 3 == 12) = true ∧ grp (.cmpLtS32 r0 3 2 1 0) ts (fun g => g.pget 3 == 2) = true ∧
    grp (.cmpLeS32 r0 3 2 1 0) ts (fun g => g.pget 3 == 14) = true ∧ grp (.cmpNeI32 r0 3 2 1 0) ts (fun g => g.pget 3 == 3) = true ∧
    grp (.cmpLtU32 r0 3 1 2 0) ts (fun g => g.pget 3 == 3) = true ∧ grp (.cmpLeU32 r0 7 2 1 0) ts (fun g => g.pget 7 == 12) = true := by decide
theorem test_sel : grp (.sel r0 1 2 1 0) ts (fun g => g.vget 2 0 == 0x3F80_0000 && g.vget 2 1 == 0xFFFF_FFFF) = true := by decide
theorem test_bcast : grp (.bcast r0 0 2) ts (fun g => g.vget 0 3 == 3) = true ∧ grp (.lane r0 0) ts (fun g => g.vget 0 3 == 3) = true ∧
    grp (.wglane ⟨0, 1⟩ 0) ts (fun _ => true) = true := by decide
theorem test_shfl : grp (.shflIdx r0 2 1 0) (tg (fun g => { g with v := [(64, 7), (65, 8), (128, 1), (129, 64)] })) (fun g => g.vget 2 0 == 8 && g.vget 2 1 == 7) = true ∧
    grp (.shflXor r0 0 1 4 0) (tg (fun g => { g with u := [(4, 65)] })) (fun g => g.vget 0 0 == 2) = true := by decide
theorem test_readlane : g0.lanes = [0, 1, 2, 3] := by decide
theorem test_readlane_value : grp (.readlane r0 4 1 0) (tg (fun g => { g with v := [(65, 9)], active := 14 })) (is 4 9) = true := by decide
theorem test_long : (tile ts 0).txBusy ≤ 1 ∧ grp (.rcp r0 2 1 0) ts (fun g => g.count 5 == 1 && g.v == g0.v) = true ∧
    grp (.reduAddI32 r0 4 1 0) (tg (fun g => { g with v := [(64, 7), (65, 8), (70, 9)] })) (fun g => g.pend.map (·.kind) == [.longU 4 15]) = true := by decide +kernel
theorem test_long_units : grp (.exp2 r0 2 1 0) ts (fun g => g.count 5 == 1) = true ∧ grp (.log2 r0 2 1 0) ts (fun g => g.count 5 == 1) = true ∧
    grp (.rsq r0 2 1 0) ts (fun g => g.count 5 == 1) = true ∧ grp (.sqrtV r0 2 1 0) ts (fun g => g.count 5 == 1) = true ∧
    grp (.sinV r0 2 1 0) ts (fun g => g.count 5 == 1) = true ∧ grp (.cosV r0 2 1 0) ts (fun g => g.count 5 == 1) = true := by decide
theorem test_redu : grp (.reduAddF32 r0 4 2 0) ts (fun g => g.count 5 == 1) = true ∧ grp (.reduMaxF32 r0 4 1 0) (tg (fun g => { g with v := [(64, 7), (65, 8)] })) (fun g => g.pend.map (·.kind) == [.longU 4 8]) = true ∧
    grp (.reduMinF32 r0 4 1 0) ts (fun g => g.count 5 == 1) = true := by decide +kernel
def tl (k : PKind) (c : Nat) : State := tg (fun g => { g with pend := [⟨0, c, false, k, 0⟩], nextId := 1 })
theorem test_longResult : ((group? (tl (.longU 31 5) 5) 0 0).bind (fun g => g.pend.find? (fun q => q.id == 0 && !q.done))) = some ⟨0, 5, false, .longU 31 5, 0⟩ ∧
    grp (.longResult r0 0) (tl (.longU 31 5) 5) (fun g => g.uget 31 == 5 && g.count 5 == 0) = true ∧
    grp (.longResult r0 0) (tl (.longV [(0, 0, 9)]) 5) (fun g => g.vget 0 0 == 9 && g.count 5 == 0) = true := by decide
theorem test_vector_faults : g0.r ≤ (8#8).toNat ∧ grp (.movV r0 0 8 0) ts (fun g => (g.fault.map (·.code)) == some fRange) = true ∧
    grp (.lane r0 254) ts (fun g => (g.fault.map (·.code)) == some fRange) = true ∧ grp (.fmaF32 r0 255 0 0 0) ts (fun g => (g.fault.map (·.code)) == some fIllegal) = true ∧
    grp (.cvtn r0 11 0 0 0) ts (fun g => (g.fault.map (·.code)) == some fIllegal) = true ∧ grp (.sel r0 0 255 0 0) ts (fun g => (g.fault.map (·.code)) == some fIllegal) = true := by decide

/-! Memory: the group's s5 holds the start of a mapped page, s6 an address that is not 8 B aligned; the tile's key slot is 0. -/

/-- The group with base 0x1000 in s5, offset base 64 in s6, and registers of small values; one lane active. -/
def gm (g : Group) : Group := { g with u := [(1, 8), (2, 3), (5, 0x1000), (6, 0x1004), (7, 0x2000000)], v := [(64, 0x11223344), (128, 5)], active := 1, live := 1 }
def tm : State := tg gm
theorem test_mayIssue_mem : MayIssue tm r0 (gm g0) := mayIssue_of gm (by decide) (fun _ => ⟨rfl, rfl⟩)

def wgm0 : State := modWg tm 0 0 (fun w => { w with wgm := [(8, 0x80), (9, 0xFF)] })
def ldwm (sz : Nat) : MOp := ⟨0x08 + sz, 1, 255, 1⟩
theorem test_ldw : (∀ l ∈ (gm g0).lanes, laneOff (gm g0) (ldwm 3) l % mSize (ldwm 3).op = 0 ∧ laneOff (gm g0) (ldwm 3) l + mSize (ldwm 3).op ≤ w0.m) ∧
    grp (.ldw r0 3 1 255 1) wgm0 (fun g => g.count 0 == 1 && g.pend.map (·.kind) == [.loadW [(1, 0, 0xFFFF_FF80)] 0 0]) = true := by decide
theorem test_stw : after (.stw r0 2 1 255 1) wgm0 (fun t => (wg? t 0 0).map (fun w => wgmRead w 8 4) == some [0x44, 0x33, 0x22, 0x11]) = true := by decide
theorem test_stw_top : after (.stw r0 2 1 255 5) (tg (fun g => { gm g with u := [(5, 4092)] })) (fun t => (wg? t 0 0).map (fun w => wgmRead w 4092 4) == some [0x44, 0x33, 0x22, 0x11]) = true ∧
    grp (.stw r0 2 1 255 5) (tg (fun g => { gm g with u := [(5, 4096)] })) (fun g => (g.fault.map (·.code)) == some fBounds) = true ∧
    grp (.ldw r0 4 1 255 5) (tg (fun g => { gm g with u := [(5, 4094)] })) (fun g => (g.fault.map (·.code)) == some fAlign) = true := by decide
theorem test_atomw : after (.atomw r0 0 2 255 1) wgm0 (fun t => (wg? t 0 0).map (fun w => wgmRead w 8 2) == some [0x85, 0xFF] && ((group? t 0 0).map (·.count 0)) == some 1) = true ∧
    after (.atomwn r0 0 2 255 1) wgm0 (fun t => (wg? t 0 0).map (fun w => wgmRead w 8 2) == some [0x85, 0xFF] && ((group? t 0 0).map (·.count 0)) == some 0) = true := by decide
theorem test_loadReturn_wgm : grp (.loadReturn r0 0) (tl (.loadW [(1, 0, 7)] 0 0) 0) (fun g => g.vget 1 0 == 7 && g.count 0 == 0 && g.fault.isNone) = true := by decide

theorem test_mem_faults : grp (.ld r0 2 1 255 2) tm (fun g => (g.fault.map (·.code)) == some fAlign) = true ∧ grp (.st r0 2 1 255 2) tm (fun g => (g.fault.map (·.code)) == some fAlign) = true ∧
    grp (.signal r0 1 6) tm (fun g => (g.fault.map (·.code)) == some fAlign) = true ∧ grp (.pwait r0 1 6) tm (fun g => (g.fault.map (·.code)) == some fAlign) = true ∧
    grp (.ld r0 7 1 255 5) tm (fun g => (g.fault.map (·.code)) == some fIllegal) = true ∧ grp (.st r0 5 1 255 5) tm (fun g => (g.fault.map (·.code)) == some fIllegal) = true := by decide
/-- Address 2^24 and above is mapped by no entry; the caches miss and the table of AS1 is empty. -/
theorem test_mem_unmapped : (∀ l ∈ (gm g0).lanes, laneVa (gm g0) ⟨2, 1, 255, 7⟩ l % mSize 2 = 0) ∧
    ((translateAll (roundOne tm 0 0) (agTile 0) (tileDie 0) w0.space (mAcc 2) false ((gm g0).lanes.map (laneVa (gm g0) ⟨2, 1, 255, 7⟩)).eraseDups).1.fault).isSome = true ∧
    grp (.ld r0 2 1 255 7) tm (fun g => (g.fault.map (·.code)) == some fXlt) = true ∧ grp (.st r0 2 1 255 7) tm (fun g => (g.fault.map (·.code)) == some fXlt) = true := by decide

theorem test_ld : (translateAll (roundOne tm 0 0) (agTile 0) (tileDie 0) w0.space (mAcc 2) false ((gm g0).lanes.map (laneVa (gm g0) ⟨2, 1, 255, 5⟩)).eraseDups).1.fault = none ∧
    (gm g0).lanes ≠ [] ∧ grp (.ld r0 2 1 255 5) tm (fun g => g.count 0 == 1 && g.pc == 0x210) = true := by decide
theorem test_ldr : grp (.ldr r0 false 1 255 5) tm (fun g => g.count 0 == 1) = true ∧ grp (.ldr r0 true 1 255 5) tm (fun g => g.count 0 == 1) = true := by decide
def sbOf (c : Instr) (s : State) (f : SbEntry → Bool) : Bool := after c s (fun t => (tile t 0).sb.any f)
theorem test_st : sbOf (.st r0 2 1 255 5) tm (fun e => e.kind == .store && e.vline == 0x1000 && !e.released && e.lanes.map (·.data) == [[0x44, 0x33, 0x22, 0x11]]) = true := by decide
theorem test_zline : sbOf (.zline r0 255 6) tm (fun e => e.kind == .store && e.zline && e.vline == 0x1000) = true := by decide
theorem test_atom : sbOf (.atom r0 0 2 255 5) tm (fun e => e.kind == .atomic 0 true) = true ∧ sbOf (.atomn r0 1 2 255 5) tm (fun e => e.kind == .atomic 1 false) = true ∧
    grp (.atom r0 0 2 255 5) tm (fun g => g.count 0 == 1 && g.count 1 == 1) = true := by decide
theorem test_stc : sbOf (.stc r0 false 1 255 5) tm (fun e => e.kind == .stc && e.lanes.map (·.data) == [[0x44, 0x33, 0x22, 0x11]]) = true := by decide

/-- A load in flight of lane 0 at physical 0x1001000, and the entry of a store, a ZLINE, an atomic, a SIGNAL or an STC to it. -/
def la0 (data : List Nat) : LaneAcc := ⟨0, 0, 0x1000, .loc 0x1001000, data⟩
def tld (ty : Nat) (rsv : Bool) : State :=
  { tl (.load 1 1 4 false [la0 []] ty [] rsv []) 0 with ram := { base.ram with cells := base.ram.cells ++ cellsAt 0x1001000 [9, 8, 7, 6] } }
theorem test_loadReturn : loadMay (tld 2 false) 0 0 ((group? (tld 2 false) 0 0).getD g0) 1 0 4 2 [la0 []] false = true ∧ isMarked (tld 2 false) 0x1001000 = false ∧
    grp (.loadReturn r0 0) (tld 2 false) (fun g => g.vget 1 0 == 0x06070809 && g.count 0 == 0) = true := by decide
theorem test_loadReturn_ldr : loadMay (tld 0 true) 0 0 ((group? (tld 0 true) 0 0).getD g0) 1 0 4 0 [la0 []] true = true ∧ ldrMay (tld 0 true) 0 0 0 0x1001000 = true ∧
    after (.loadReturn r0 0) (tld 0 true) (fun t => t.resvs == [(0x1001000 / 256, 0, 0)]) = true := by decide
theorem test_loadReturn_held : ldrMay { tld 0 true with resvs := [(0x1001000 / 256, 3, 3)] } 0 0 0 0x1001000 = false ∧
    after (.loadReturn r0 0) { tld 0 true with resvs := [(0x1001000 / 256, 3, 3)] } (fun t => ((group? t 0 0).map (·.count 0)) == some 1) = true := by decide
def sbe (k : SbKind) (rel : Bool) (data : List Nat) : SbEntry := ⟨0, 0, 0, [0], k, 1, 0x1000, [la0 data], 0, false, 1, none, rel, false, [], false, []⟩
def tsb (k : SbKind) (rel : Bool) (data : List Nat) : State :=
  modTile (tl (.store 1) 1) 0 (fun x => { x with sb := [sbe k rel data] })
/-- The load takes the bytes of the youngest own entry. -/
theorem test_loadReturn_forward :
    (let s := modTile (tld 0 false) 0 (fun x => { x with sb := [{ sbe .store false [1, 2, 3, 4] with lanes := [{ la0 [1, 2, 3, 4] with seq := 0 }] }] })
     ((tile s 0).forward 0 1 0x1000 4).map (·.2)) = some true := by decide
theorem test_storeRelease : (tile (tsb .store false [1]) 0).sb.find? (fun x => x.id == 0 && !x.released) = some (sbe .store false [1]) ∧
    releaseMay (tsb .store false [1]) 0 ((tile (tsb .store false [1]) 0).together (sbe .store false [1])) = true ∧
    sbOf (.storeRelease 0 0) (tsb .store false [1]) (fun e => e.released) = true := by decide
theorem test_storePerformed : entryHeld (tsb .store true [1, 2, 3, 4]) (sbe .store true [1, 2, 3, 4]) = false ∧ isFenced (tsb .store true []) 0x1001000 = false ∧
    after (.storePerformed 0 0) (tsb .store true [1, 2, 3, 4]) (fun t => rdN t 0 0x1001000 4 == 0x04030201 && ((group? t 0 0).map (·.count 1)) == some 0 && (tile t 0).sb.isEmpty) = true := by decide
theorem test_zline_performed : after (.storePerformed 0 0) (tsb .store true (List.replicate 128 0)) (fun t => rdN t 0 0x1001000 8 == 0) = true := by decide +kernel
theorem test_storePerformed_kinds : after (.storePerformed 0 0) (tsb (.atomic 0 true) true [5, 0, 0, 0]) (fun t => rdN t 0 0x1001000 4 == 5) = true ∧
    after (.storePerformed 0 0) (tsb .signal true [5, 0, 0, 0, 0, 0, 0, 0]) (fun t => rdN t 0 0x1001000 8 == 5) = true := by decide +kernel
theorem test_stc_decides : (group? (tsb .stc true [1, 2, 3, 4]) 0 0).map (·.txg) = some none ∧
    after (.storePerformed 0 0) { tsb .stc true [1, 2, 3, 4] with resvs := [(0x1001000 / 256, 0, 0)] } (fun t => rdN t 0 0x1001000 4 == 0x04030201 && t.resvs.isEmpty &&
      ((group? t 0 0).map (fun g => (g.vget 1 0).toNat)) == some 1) = true ∧
    after (.storePerformed 0 0) (tsb .stc true [1, 2, 3, 4]) (fun t => rdN t 0 0x1001000 4 == 0 && ((group? t 0 0).map (fun g => (g.vget 1 0).toNat)) == some 0) = true := by decide
theorem test_reservationTimeout : after (.reservationTimeout 0 0) { ts with resvs := [(1, 0, 0), (2, 0, 1)] } (fun t => t.resvs == [(2, 0, 1)]) = true ∧
    after (.ldrHoldTimeout 1) { ts with resvs := [(1, 0, 0)] } (fun t => t.served.contains 1) = true := by decide

theorem test_sync : grp (.fence r0 3) tm (fun g => g.count 4 == 1) = true ∧ grp (.invl1 r0) tm (fun g => g.count 4 == 1) = true ∧
    grp (.txbind r0 1) tm (fun g => g.count 4 == 1 && g.txg == some 8) = true ∧ grp (.txunbind r0) tm (fun g => g.count 4 == 1 && g.txg.isNone) = true ∧
    grp (.pref r0 255 5) tm (fun g => g.pc == 0x210) = true := by decide
theorem test_signal : (gm g0).uget 5 % 8 = 0 ∧ (translateAll (roundOne tm 0 0) (agTile 0) (tileDie 0) w0.space .rmw false [(gm g0).uget 5]).1.fault = none ∧
    sbOf (.signal r0 2 5) tm (fun e => e.kind == .signal && e.lanes.map (·.data) == [[3, 0, 0, 0, 0, 0, 0, 0]]) = true := by decide
theorem test_syncComplete : fenceMay (tile (tl (.sync (.fence 2)) 4) 0) ((group? (tl (.sync (.fence 2)) 4) 0 0).getD g0) 0 0 2 = true ∧
    grp (.syncComplete r0 0) (tl (.sync (.fence 2)) 4) (fun g => g.count 4 == 0) = true ∧ grp (.syncComplete r0 0) (tl (.sync .invl1) 4) (fun g => g.count 4 == 0) = true ∧
    grp (.syncComplete r0 0) (tl (.sync (.signal 3)) 4) (fun g => g.count 4 == 0) = true ∧ grp (.syncComplete r0 0) (tl (.sync .txunbind) 4) (fun g => g.count 4 == 0) = true := by decide

/-! Issue, fetch, the engines' offers, park-waits. -/

/-- A bundle that holds UADDI s4 = s2 + 5 alone: word written from R86 and R99: C present (bit 121), C slot at bits 111:84, code 0x20 in [27:22], sd in [21:17],
sa in [16:12], imm in [11:0]. -/
def uaddiWord : Nat := 2 ^ 121 + (0x20 * 2 ^ 22 + 4 * 2 ^ 17 + 2 * 2 ^ 12 + 5) * 2 ^ 84
def ti (raw : Nat) : State := modTile (tg (fun g => { g with fetched := some (0x200, raw, 0) })) 0 (fun x => { x with age := [0] })
theorem test_decode_words : (decBundle uaddiWord 0).map (·.c) = some (some (.ualui 0x20 4 2 5)) ∧
    (decBundle (2 ^ 120 + (2 ^ 27 + 0x1A * 2 ^ 21 + 7 * 2 ^ 8) * 2 ^ 56) 0).map (·.v) = some (some (.vx 0x1A 0 7 0)) ∧
    (decBundle (2 ^ 119 + (0x13 * 2 ^ 21 + 3 * 2 ^ 13 + 0xFF * 2 ^ 5 + 4) * 2 ^ 28) 0).map (·.m) = some (some ⟨0x13, 3, 255, 4⟩) ∧
    (decBundle (2 ^ 118 + (2 * 2 ^ 24 + 9 * 2 ^ 19)) 0).map (·.a) = some (some ⟨2, 9⟩) ∧ decBundle (2 ^ 121 + 1 * 2 ^ 112) 0 = none := by decide
theorem test_bundleFits : bundleFits (Bundle.mk 0 0 63 true (some (.brCond 31 5 (-8192))) (some (.vx 63 31 255 255)) (some ⟨127, 255, 255, 31⟩) (some ⟨15, 31⟩)) = true ∧
    bundleFits (Bundle.mk 0 0 0 false (some (.bra (2 ^ 21))) none none none) = false := by decide
theorem test_issueRound : readyGroups ts 0 = [] ∧ (tile (ti uaddiWord) 0).age = [0] ∧
    (((group? (ti uaddiWord) 0 0).bind nextBundle).map (fun x => bundleReady (ti uaddiWord) 0 0 ((group? (ti uaddiWord) 0 0).getD g0) x.1 && x.2)) = some true ∧
    grp (.issueRound 0) (ti uaddiWord) (is 4 8) = true := by decide
theorem test_issueRound_illegal : grp (.issueRound 0) (ti (2 ^ 121)) (fun g => (g.fault.map (·.code)) == some fIllegal && g.stopped) = true := by decide
/-- A translation leads to a line of this device. -/
def leads (x : (Nat ⊕ (Dest × Bool)) × State) (pa : Nat) : Bool :=
  match x.1 with
  | .inr (.loc p, _) => p == pa
  | _ => false
theorem test_codeFetch : leads (translate ts (agTile 0) 0 1 0x200 .fetch false) 0x1000200 = true ∧ lineHeld ts 0x1000200 = false ∧ (tile ts 0).l1Find 1 0x200 = none ∧
    isMarked ts 0x1000200 = false ∧ ofBytes (readPhys ts (spaceSlot ts 0 1) 0x1000200 16) = 0 ∧ grp (.codeFetch r0) ts (fun g => g.fetched == some (0x200, 0, 0)) = true := by decide
theorem test_arr_row : aReady ts 0 g0 ⟨1, 28⟩ = true ∧ aReady ts 0 g0 ⟨2, 30⟩ = true ∧ grp (.arr r0 28) ts (fun g => g.offer == some 0) = true ∧
    grp (.row r0 30) ts (fun g => g.offer == some 0) = true ∧ grp (.arr r0 29) ts (fun g => (g.fault.map (·.code)) == some fIllegal) = true ∧
    grp (.row r0 31) ts (fun g => (g.fault.map (·.code)) == some fIllegal) = true := by decide
theorem test_impreciseFault : (∃ p ∈ ((group? (tld 2 false) 0 0).getD g0).pend, p.openLoad = true) ∧ grp (.impreciseFault r0 fPoison) (tld 2 false) (fun g => (g.fault.map (·.imprecise)) == some true && g.reason == rFault) = true := by decide
def tpw (target : Nat) : State := { tg (fun g => { g with u := [(1, target), (5, 0x1000)] }) with ram := { base.ram with cells := base.ram.cells ++ cellsAt 0x1001000 [4] } }
theorem test_pwait : (translateAll (roundOne (tpw 4) 0 0) (agTile 0) 0 1 .read false [0x1000]).1.ok = [(0x1000, .loc 0x1001000, false)] ∧ inService (tpw 4) (pgBel 0) = true ∧
    grp (.pwait r0 1 5) (tpw 4) (fun g => g.uget 1 == 0 && !g.stopped) = true ∧ grp (.pwait r0 1 5) (tpw 5) (fun g => g.pwaitS == some 1 && g.stopped && g.reason == rWait) = true ∧
    after (.pwait r0 1 5) (tpw 5) (fun t => (bel t 0).armed.any (fun x => x.pa == 0x1001000 && x.target == 5)) = true := by decide

/-! Placement and parking: a launch of queue 0 on DE0; a park area of one slot at 0x4000, its image at 0x4280. -/

def l0 : Launch :=
  { q := 0, serial := 1, ctx := 1, space := 1, eng := 0, prio := 0, kdesc := 0x8000, code := 0x200, width := 16, g := 1, r := 1, m := 0, rgn := []
    wx := 2, wy := 2, wz := 1, phase := 0, dies := 0, args := [], fstat := 0, next := 3 }
/-- Queue 0 with a park area of `n` slots of 8 KB at 0x4000. -/
def tlq (n : Nat) (ls : List Launch) : State :=
  { base with launches := ls, ram := { base.ram with cells := tables.take 6 ++ cellsAt 4129 [0x40] ++ cellsAt 8196 [1, 0, 0, 128] ++ cellsAt 0x1004000 [n, 0, 0, 0, 0, 0x20] } }
def l0big : Launch := { l0 with g := 16, width := 64, r := 255 }
theorem test_tables_order : (tlq 1 []).ram.wf = true ∧ base.ram.wf = true ∧ qPark (tlq 1 []) 0 = 0x4000 ∧ qState (tlq 1 []) 0 = 1 := by decide

theorem test_wgOffer : launch? (tlq 1 [l0]) 0 1 = some l0 ∧ l0.next < l0.total ∧ inService (tlq 1 [l0]) (pgEng 0) = true ∧ replayFirst (tlq 1 [l0]) l0 = false ∧
    (candidates (tlq 1 [l0]) 0 0).find? (fun x => !l0.tried.contains x) = some 0 ∧ admits (bumpSteps (tlq 1 [l0]) (pgEng 0) 2) 0 l0 = true ∧ tfree (tile (tlq 1 [l0]) 0).wgs 32 = some 0 ∧
    freeSlots (tile (tlq 1 [l0]) 0) 1 = [0] ∧
    after (.wgOffer 0 1) (tlq 1 [l0]) (fun t => ((wg? t 0 0).map (fun w => (w.x, w.y, w.z))) == some (1, 1, 0) &&
      ((group? t 0 0).map (fun g => (g.pc, g.uget 0, g.uget 2, g.uget 3))) == some (0x200, 2 ^ 32 + 1, 2 ^ 33 + 2, 2 ^ 32 + 1)) = true := by decide
theorem test_wgOffer_refused : admits (bumpSteps (tlq 1 [l0big]) (pgEng 0) 2) 0 l0big = false ∧
    after (.wgOffer 0 1) (tlq 1 [l0big]) (fun t => (launch? t 0 1).map (fun l => (l.next, l.tried)) == some (3, [0])) = true := by decide
theorem test_groupEnd : grp (.groupEnd r0) (tg (fun g => { g with stat := .finished })) (fun g => g.ended) = true ∧ after (.groupEnd r0) ts (· == ts) = true := by decide

theorem test_wgPark : (∀ p ∈ (tile ts 0).groupsOf 0, p.2.txg = none ∧ p.2.fault = none ∧ p.2.pwaitS = none) ∧
    (∃ p ∈ (tile ts 0).groupsOf 0, p.2.stat ≠ .finished) ∧ after (.wgPark 0 0 rMigrate) ts (fun t =>
    ((group? t 0 1).map (fun g => (g.stopped, g.reason))) == some (true, rMigrate) && ((wg? t 0 0).map (·.parkReason)) == some rMigrate) = true := by decide
/-- One stopped group of 16 lanes with one register; the workgroup is draining, or waits for a slot. -/
def wp (p : ParkSt) : Wg := { w0 with g := 1, width := 16, r := 1, m := 0, park := p, parkReason := rPreempt }
def tpk (n : Nat) (p : ParkSt) : State :=
  { tlq n [l0] with tiles := [(0, { wgs := [(0, wp p)], groups := [(0, { g0 with width := 16, r := 1, v := [], stopped := true, reason := rPreempt })] })] }
theorem test_parkDone_waits : drained (tile (modGroup (tpk 1 .draining) 0 0 (fun g => { g with pend := [⟨0, 0, false, .sync .invl1, 0⟩] })) 0) 0 = false := by decide
/-- What the header of the park area of `tpk` comes to: slots, bytes of each, the first one free. -/
def header (s : State) : Option (Nat × Nat × Option Nat) :=
  match parkHeader s (agTile 0) 0 1 0x4000 with
  | (.got _ _, x, _) => x
  | _ => none
theorem test_parkDone_noSlot : header (tpk 0 .draining) = some (0, 0x2000, none) ∧ drained (tile (tpk 0 .draining) 0) 0 = true ∧
    after (.parkDone 0 0) (tpk 0 .draining) (fun t => ((wg? t 0 0).map (·.park)) == some .noSlot) = true ∧
    after (.parkSlotFree 0 0) (tpk 0 .noSlot) (fun t => ((wg? t 0 0).map (·.park)) == some .noSlot) = true := by decide +kernel
theorem test_parkDone_header : header (tpk 1 .draining) = some (1, 0x2000, some 0) ∧ imageSize 1 16 1 0 ≤ 0x2000 := by decide +kernel
/-- The park slot is free, may be written, and its image fits and is mapped. -/
theorem test_parkDone_writes : (setSlotBit (tpk 1 .draining) (agTile 0) 0 1 0x4000 0 (parkStream (tpk 1 .draining) 0 0) true).1 = .was false ∧
    virtHeld (tpk 1 .draining) (agTile 0) 0 1 0x4280 (imageSize 1 16 1 0) .write = false ∧
    (translateRuns (tpk 1 .draining) (agTile 0) 0 1 .write false [(0x4280, imageSize 1 16 1 0)]).1.fault = none := by decide +kernel
theorem test_wgAbandon : after (.wgAbandon 0 0) (tpk 1 .writeFault) (fun t => (wg? t 0 0).isNone && (tile t 0).groups.isEmpty) = true := by decide
theorem test_preemptHoldExpire : after (.preemptHoldExpire (.resident 0 0)) (modWg ts 0 0 (fun w => { w with hold := true }))
    (fun t => wg? t 0 0 == some { w0 with hold := false }) = true := by decide

/-! Commands of queue 0. -/

/-- 128 bytes with fields given by offset, width in bytes and value. -/
def body (fs : List (Nat × Nat × Nat)) : List Nat :=
  (List.range 128).map (fun i => (fs.map (fun f => if f.1 ≤ i && i < f.1 + f.2.1 then f.2.2 / 256 ^ (i - f.1) % 256 else 0)).sum)
/-- Command 1 of queue 0 on an engine, in execution; its references at the offsets given relocate to the addresses given. -/
def cm (e opc : Nat) (fs refs : List (Nat × Nat)) : Cmd :=
  { q := 0, serial := 1, eng := e, space := 1, body := body ((0, 1, opc) :: fs.map (fun f => (f.1, 8, f.2))), stage := .running, refs := refs }
def cm4 (e opc : Nat) (fs : List (Nat × Nat)) (refs : List (Nat × Nat)) : Cmd :=
  { cm e opc [] refs with body := body ((0, 1, opc) :: fs.map (fun f => (f.1, 4, f.2))) }
def tc (c : Cmd) : State := { base with cmds := [c] }
def inHand (s : State) (q n opc : Nat) (c : Cmd) : Bool :=
  cmd? s q n == some c && c.q == q && c.serial == n && c.opc == opc && c.stage == .running && !c.ran && c.res.isNone && c.killed.isNone && c.eng < 40 && engRuns s c.eng
theorem inHand_of (s : State) (q n opc : Nat) (c : Cmd) (h : inHand s q n opc c = true) : InHand s q n opc c := by
  simp only [inHand, Bool.and_eq_true, beq_iff_eq, decide_eq_true_eq, Bool.not_eq_true', Option.isNone_iff_eq_none] at h
  obtain ⟨⟨⟨⟨⟨⟨⟨⟨⟨h1, h2⟩, h3⟩, h4⟩, h5⟩, h6⟩, h7⟩, h8⟩, h9⟩, h10⟩ := h
  exact ⟨h1, ⟨h2, h3⟩, h4, ⟨h5, h6, h7, h8⟩, h9, h10⟩
/-- The end that a command row decides for command 1 of queue 0. -/
def ends (i : Instr) (s : State) (status info : Nat) : Bool := after i s (fun t => (cmd? t 0 1).map (·.res) == some (some (status, info, [])))

theorem test_nop : inHand (tc (cm 0 0 [] [])) 0 1 0 (cm 0 0 [] []) = true ∧ ends (.nop 0 1) (tc (cm 0 0 [] [])) csComplete 0 = true := by decide
theorem test_counter_field : (cm 0 2 [(0x10, 0x1004)] [(0x10, 0x1004)]).ctr = none ∧ ends (.signalCmd 0 1) (tc (cm 0 2 [(0x10, 0x1004)] [(0x10, 0x1004)])) csField 0 = true ∧
    ends (.waitCmd 0 1) (tc (cm 0 1 [] [])) csField 0 = true ∧ ends (.watchCmd 0 1) (tc (cm 0 3 [] [])) csField 0 = true := by decide
/-- A command on the counter at 0x1000 with value v at 0x18. -/
def cctr (opc v : Nat) : Cmd := cm 0 opc [(0x10, 0x1000), (0x18, v), (0x20, 7)] [(0x10, 0x1000)]
theorem test_counter : (cctr 2 5).ctr = some 0x1000 ∧ inHand (tc (cctr 2 5)) 0 1 2 (cctr 2 5) = true ∧
    (translateAll (tc (cctr 2 5)) (cctr 2 5).ag 0 1 .rmw false [0x1000]).1.ok = [(0x1000, .loc 0x1001000, false)] ∧ lineHeld (tc (cctr 2 5)) 0x1001000 = false ∧
    ends (.signalCmd 0 1) (tc (cctr 2 5)) csComplete 0 = true ∧ after (.signalCmd 0 1) (tc (cctr 2 5)) (fun t => rdN t 0 0x1001000 8 == 5) = true := by decide +kernel
theorem test_waits : inService (tc (cctr 1 5)) (pgBel 0) = true ∧ rdN (tc (cctr 1 5)) 0 0x1001000 8 < 5 ∧
    after (.waitCmd 0 1) (tc (cctr 1 5)) (fun t => (cmd? t 0 1).map (fun c => (c.stage, c.ran)) == some (.armed, true)) = true ∧
    ends (.watchCmd 0 1) (tc (cctr 3 5)) csComplete 0 = true := by decide

/-! Belays. -/

def wa (k : WKind) : Watch := ⟨3, 0x1001000, 5, 0, 1, 0, k⟩
/-- Watches armed, waiting and ended at die 0; the counter holds v; the WAIT of queue 0 is armed. -/
def tbl (v : Nat) (b : Bel) : State :=
  { base with bels := [(0, b)], cmds := [{ cctr 1 5 with stage := .armed, ran := true }], ram := { base.ram with cells := tables ++ cellsAt 0x1001000 [v] } }
theorem test_admit : nextWaiting (bel base 0) = none ∧ (let s := tbl 4 { waitl := [wa (.queue 0 1)] }
    nextWaiting (bel s 0) = some (wa (.queue 0 1)) ∧ counterOf s (wa (.queue 0 1)) < 5 ∧
    after (.watchEntryAdmit 0) s (fun t => (bel t 0).armed == [{ wa (.queue 0 1) with last := 4 }] && (bel t 0).waitl.isEmpty) = true) ∧
    after (.watchEntryAdmit 0) (tbl 5 { waitl := [wa (.queue 0 1)] }) (fun t => (bel t 0).ended == [⟨wa (.queue 0 1), 0, 5⟩]) = true := by decide
theorem test_queueWatchEnd : ends (.queueWatchEnd 0 3) (tbl 5 { ended := [⟨wa (.queue 0 1), 0, 5⟩] }) csComplete (2 ^ 64 * 5) = true ∧
    ends (.queueWatchEnd 0 3) (tbl 5 { ended := [⟨wa (.queue 0 1), 1, 5⟩] }) csWaitEnded (1 + 2 ^ 64 * 5) = true := by decide
def pk (w : Nat) : Parked := ⟨0, 0, 0, 0, 0x4280, true, w, false⟩
theorem test_groupWatchEnd : after (.groupWatchEnd 0 3) { tbl 5 { ended := [⟨wa (.group l0.key 0 0 0 0 1), 0, 5⟩] } with launches := [{ l0 with parked := [pk 1] }] }
    (fun t => (launch? t 0 1).map (fun l => l.parked.map (·.waits)) == some [0]) = true := by decide
/-- ABANDON_RANGE on the management engine of die 0 at its second stage, with one range listed. -/
def cab : Cmd := { cm 40 0x8E [] [] with stageNo := 2, aux := [(8, 1)] }
theorem test_abandonMark : (tc cab).cmds.find? (fun c => c.opc == 0x8E && c.stageNo == 2 && c.aux.contains (8, 1) && 8 / 2 ^ 17 == 0) = some cab ∧
    after (.abandonMark 0 8 1) { tc cab with bels := [(0, { armed := [wa (.queue 0 1)] })] } (fun t => (bel t 0).aband == [(8, 1)] && (bel t 0).armed.isEmpty) = true := by decide
theorem test_watchEntryError : (bel (tbl 0 { armed := [wa (.queue 0 1)] }) 0).armed.find? (fun x => x.id == 3) = some (wa (.queue 0 1)) := by decide
theorem test_belReturnService : after (.belReturnService 0) (tbl 9 { armed := [wa (.queue 0 1)] }) (fun t => (bel t 0).armed.isEmpty) = true := by decide

/-! Transaction groups: slot 0 of die 0 with generation 4, whose handle is 0x400. -/

def stl : StLine := ⟨[(0, 7)], false, 0⟩
def tx (x : Txg) (c : Cmd) : State := { tc c with txgs := [(0, x)] }
def xo (l : Tab StLine) : Txg := { st := .opened, gen := 4, space := 1, lines := l, life := 5 }
def ctx (opc h : Nat) : Cmd := cm 0 opc [(0x10, h)] []
theorem test_txgOpen : inHand (tc (ctx 4 0)) 0 1 4 (ctx 4 0) = true ∧ inService base (pgTxg 0) = true ∧ (txgAt base 63).st = .free ∧ (ctx 4 0).n4 0x14 = 0 := by decide
theorem test_txgCommit_refused : handleCheck (tx (xo []) (ctx 5 0x500)) 1 0x500 = some csTxgStale ∧ handleCheck (tx (xo []) (ctx 5 0x400)) 2 0x400 = some csOwner ∧
    handleCheck base 1 (2 ^ 32) = some csField ∧ ends (.txgCommit 0 1) (tx (xo []) (ctx 5 0x500)) csTxgStale 0 = true ∧
    ends (.txgAbort 0 1) (tx (xo []) (ctx 6 0x500)) csTxgStale 0 = true := by decide
theorem test_txgCommit_ended : ends (.txgCommit 0 1) (tx { xo [] with st := .free, ended := some 0 } (ctx 5 0x400)) csAlready 0 = true ∧
    ends (.txgCommit 0 1) (tx { xo [] with st := .free, ended := some 7 } (ctx 5 0x400)) csAborted 7 = true ∧
    ends (.txgAbort 0 1) (tx { xo [] with st := .free, ended := some 7 } (ctx 6 0x400)) csAlready 0 = true := by decide
theorem test_txgCommit : handleCheck (tx (xo []) (ctx 5 0x400)) 1 0x400 = none ∧ ends (.txgCommit 0 1) (tx (xo []) (ctx 5 0x400)) csComplete 0 = true ∧
    after (.txgCommit 0 1) (tx (xo [(0x20020, stl)]) (ctx 5 0x400)) (fun t => (txgAt t 0).st == .committing && (txgAt t 0).by_ == some (0, 1)) = true := by decide
theorem test_txgAbort : ends (.txgAbort 0 1) (tx (xo [(0x20020, stl)]) (ctx 6 0x400)) csComplete 0 = true ∧
    after (.txgExpired 0 0) (tx (xo [(0x20020, stl)]) (ctx 6 0x400)) (fun t => (txgAt t 0).ended == some 7) = true := by decide
def xc (st : TxSt) : State := tx { xo [(0x20020, stl)] with st := st, by_ := some (0, 1) } { ctx 5 0x400 with ran := true }
theorem test_txgCommitPoint : after (.txgCommitPoint 0 ⟨0, none⟩) (xc .committing) (fun t => (txgAt t 0).st == .committed && (cmd? t 0 1).map (·.res) == some (some (csComplete, 0, []))) = true ∧
    after (.txgCommitPoint 0 ⟨0, none⟩) (xc .opened) (· == xc .opened) = true := by decide +kernel
theorem test_txgInstall : (txgAt (xc .committed) 0).lines.filter (fun l => sliceOf (128 * l.1) = sliceOf 0x1001000 && !isPchHeld (xc .committed) (128 * l.1)) = [(0x20020, stl)] ∧
    after (.txgInstall 0 0 ⟨sliceOf 0x1001000, []⟩) (xc .committed) (fun t => rdN t 0 0x1001000 1 == 7 && (txgAt t 0).st == .free) = true := by decide +kernel

/-! Launches and replays. -/

/-- A kernel descriptor at 0x8000: code 0x200, 16 lanes, one group, one register. -/
def kd : List Nat := [0, 2, 0, 0, 0, 0, 0, 0, 0x84]
def cla (kva wx park : Nat) : State :=
  { tlq 1 [] with cmds := [cm4 0 0x10 [(0x18, wx), (0x1C, 1), (0x20, 1)] [(0x10, kva)]]
                  ram := { (tlq 1 []).ram with cells := tables.take 6 ++ cellsAt 4129 [park] ++ cellsAt 8196 [1, 0, 0, 128] ++ cellsAt 0x1008000 kd } }
theorem test_launch_refused : ends (.launch 0 1) (cla 0x8000 0 0x40) csField 0 = true ∧ ends (.launch 0 1) (cla 0x8000 1 0) csField 0 = true ∧
    ends (.launch 0 1) (cla 0x8020 1 0x40) csKdesc 0 = true := by decide
theorem test_launch : (match cmdLines (cla 0x8000 2 0x40) (((cla 0x8000 2 0x40).cmds.head?).getD (cctr 0 0)) .read [(0x8000, 64)] with
    | .got ls s1 => !gotMark ls && kdescOk (gotBytes ls 0x8000 64) && launchFits s1 0 0 1 16 1 0 0
    | _ => false) = true := by decide +kernel
theorem test_launch_starts : after (.launch 0 1) (cla 0x8000 2 0x40) (fun t => (launch? t 0 1).map (fun l => (l.code, l.width, l.g, l.wx, l.next)) == some (0x200, 16, 1, 2, 0)) = true := by decide +kernel
/-- A zero image at 0x4280 but for its launch key; the workgroup of index 0 is parked there. -/
def tre (k : Nat) : State :=
  { tlq 1 [{ l0 with parked := [pk 0] }] with
    cmds := [cm 0 0x11 [(0x10, 0x4280)] [(0x10, 0x4280)]]
    ram := { (tlq 1 []).ram with cells := (tlq 1 []).ram.cells ++ cellsAt 0x1004290 [1, 0, 0, 0, k] ++ cellsAt 0x1004389 [rPreempt, 1] } }
theorem test_replay_stale : ends (.replay 0 1) (tre 2) csRepStale 0 = true := by decide +kernel
theorem test_replay : (match readImage (tre 1) { l0 with parked := [pk 0] } 0x4280 with
    | (.got bs ms, s1) =>
      let im := imageOf l0 0x4280 bs ms
      im.recs.all (fun r => actionOk (recReason r) (recAction r) (recImprecise r)) &&
        (replayPlace s1 { l0 with parked := [pk 0] } (pk 0) im).1 == .yes
    | _ => false) = true := by decide +kernel

/-! Queues: doorbells, fetch, start, end, timeout, kill. -/

theorem test_doorbell : (let s := base
    qState s 0 = 1 ∧ qState (setQd s 0 0 4 0x10010) 0 = 0 ∧ qCtx s 0 = 1 ∧ hostReady s = true ∧ hostBusy s = false ∧
    after (.doorbellWrite 0 1 4 ⟨0, some 3⟩) s (fun t => (qlive t 0).latch == 3 && (qlive t 0).pend) = true ∧
    after (.doorbellWrite 0 0 4 ⟨0, some 3⟩) s (fun t => (qlive t 0).latch == 3) = true ∧ after (.doorbellWrite 0 2 4 ⟨0, some 3⟩) s (fun t => t.queues == []) = true ∧
    after (.doorbellWrite 0 0 4 ⟨0, some 3⟩) (setQd s 0 0 4 0x10010) (fun t => t.queues == []) = true ∧ after (.doorbellWrite 0 1 4 ⟨4, some 3⟩) s (fun t => t.queues == []) = true ∧
    after (.doorbellWrite 0 1 4 ⟨4, none⟩) s (fun t => t.bus == [(0, 0)]) = true) := by decide +kernel
theorem test_doorbell_off : hostReady ts = true ∧ hostReady State.reset = false := by decide
/-- The latch of queue 0 is one ahead; its ring is at 0. -/
def tq (c : List Cmd) : State := { base with queues := [(0, { latch := 1, seen := 1 })], cmds := c }
theorem test_commandFetch : qEng (tq []) 0 = some 0 ∧
    caughtUp (tq []) 0 = false ∧ (ctxEntry (tq []) 1).testBit 31 = true ∧ bits (ctxEntry (tq []) 1) 11 0 = 1 ∧
    spaceState (tq []) 0 1 = 1 ∧ xoutHeld (tq []) (translateAll (tq []) (agEng 0) 0 1 .read false [0]).1 = false := by decide +kernel
theorem test_commandFetch_adds : after (.commandFetch 0) (tq []) (fun t => t.cmds.map (fun c => (c.q, c.serial, c.eng, c.space, c.stage)) == [(0, 1, 0, 1, .fetched)]) = true := by decide
def cf (c : Cmd) : Cmd := { c with stage := .fetched, refs := [] }
theorem test_commandStart : placesUsed (tq [cf (cm 0 0 [] [])]) 0 < engLimit 0 ∧ readyQueues (tq [cf (cm 0 0 [] [])]) 0 = [0] ∧
    after (.commandStart 0) (tq [cf (cm 0 0 [] [])]) (fun t => (cmd? t 0 1).map (fun c => (c.stage, c.res)) == some (.running, none)) = true ∧
    ends (.commandStart 0) (tq [cf (cm 0 0x20 [] [])]) csOpcode 0 = true ∧ ends (.commandStart 0) (tq [cf (cm 0 0 [(0x10, 1)] [])]) csField 0 = true := by decide +kernel
/-- A NOP with TAG 5 that has completed, its record at 0x1000. -/
def ce : Cmd := { cm 0 0 [] [(8, 0x1000)] with body := body [(4, 4, 5), (8, 8, 0x1000)], ran := true, res := some (csComplete, 0, []) }
theorem test_commandEnd : endOf (tc ce) ce = some (csComplete, 0, []) ∧ ce.compl = some 0x1000 ∧ spaceState (tc ce) 0 1 = 1 ∧
    (translateRuns (tc ce) ce.ag 0 1 .write false [(0x1000, 64)]).1.ok = [(0x1000, .loc 0x1001000, false)] ∧
    after (.commandEnd 0 1) (tc ce) (fun t => (cmd? t 0 1).isNone && rdN t 0 0x1001004 4 == 5 && rdN t 0 0x1001008 8 == 1) = true := by decide +kernel
theorem test_queueTimeout : after (.queueTimeout 0 1) (tc { cctr 1 5 with tmo := 5 }) (fun t => (cmd? t 0 1).map (·.flags) == some (2 ^ 20) && t.evq.any (fun e => e.kind == 3 && e.tag == 1)) = true ∧
    after (.queueTimeout 0 1) (tc { cctr 1 5 with tmo := 5 + 2 ^ 18 }) (fun t => (cmd? t 0 1).map (fun c => (c.expired, c.asked)) == some (true, some 0x43)) = true := by decide +kernel
theorem test_kill : after (.kill 0 1 0x40) (tc { cctr 2 5 with asked := some 0x40 }) (fun t => t.cmds == [{ cctr 2 5 with asked := some 0x40 }]) = true ∧
    after (.kill 0 1 0x43) { tbl 0 { armed := [wa (.queue 0 1)] } with cmds := [{ cctr 1 5 with asked := some 0x43, stage := .armed, ran := true }] }
      (fun t => (cmd? t 0 1).map (·.killed) == some (some 0x43) && (bel t 0).armed.isEmpty) = true := by decide +kernel
theorem test_kill_launch : (let s := { ts with launches := [l0], cmds := [{ cm 0 0x10 [] [] with asked := some 0x40, ran := true }] }
    (0, 0) ∈ wgsOf s l0.key ∧ after (.kill 0 1 0x40) s (fun t => (launch? t 0 1).map (·.killed) == some true && (wg? t 0 0).map (·.park) == some .killing) = true) := by decide +kernel
theorem test_killDone : reqsDone (tc { cctr 1 5 with killed := some 0x40 }) [] = true ∧
    after (.killDone 0 1) (tc { cctr 1 5 with killed := some 0x40 }) (fun t => (cmd? t 0 1).isNone) = true ∧
    after (.killDone 0 1) (tc (cctr 1 5)) (fun t => t.cmds == [cctr 1 5]) = true := by decide +kernel

/-! Copies, from 0x1000 to 0x2000. -/

theorem tget_mem {α : Type} (t : Tab α) (x : Nat) (a : α) (h : tget? t x = some a) : ∃ k, (k, a) ∈ t := by
  induction t with
  | nil => simp [tget?] at h
  | cons p t ih =>
    obtain ⟨k, v⟩ := p
    simp only [tget?] at h
    split at h
    · exact ⟨k, by simp_all⟩
    · obtain ⟨j, hj⟩ := ih h; exact ⟨j, List.mem_cons_of_mem _ hj⟩
/-- No detector is armed when none of the listed pages arms one. -/
theorem quiet_of (s : State) (h : s.blks.all (fun p => !p.2.injArm) = true) (pg : Nat) : (blk s pg).injArm = false := by
  unfold blk tgetD
  cases hx : tget? s.blks pg with
  | none => simp only [Option.getD_none, defBlk]; cases s.booted <;> cases pageAt pg <;> simp <;> (split <;> rfl)
  | some b =>
    obtain ⟨k, hk⟩ := tget_mem _ _ _ hx
    simpa using List.all_eq_true.1 h _ hk
theorem sound_of (s : State) (h : s.blks.all (fun p => !p.2.injArm) = true) (h2 : s.l2 = []) : Sound s :=
  ⟨quiet_of s h, fun n i x hx => by simp [slice, h2, tgetD, tget?] at hx⟩
/-- A translation that leads one line to a line of this device. -/
theorem plain_one (s : State) (va p : Nat) (h : p % 128 = 0 ∧ lineHeld s p = false ∧ isFenced s p = false) : Plain s { ok := [(va, .loc p, false)] } :=
  ⟨rfl, fun x hx => by simp only [List.mem_singleton] at hx; subst hx; exact ⟨p, rfl, h⟩, by simp, by simp⟩

def ccp (opc : Nat) (fs : List (Nat × Nat)) : Cmd := cm 16 opc ((0x10, 0x1000) :: (0x18, 0x2000) :: fs) [(0x10, 0x1000), (0x18, 0x2000)]
def tcp (c : Cmd) : State := { tc c with ram := { base.ram with cells := tables ++ cellsAt 0x1001000 [0, 0, 0x80, 0x3F, 9] } }
def okAt (s : State) (a : Acc4) (va : Nat) : List (Nat × Dest × Bool) := (translateRuns s (agEng 16) 0 1 a false [(va, 4)]).1.ok
theorem test_copy_hyps : Sound (tcp (ccp 0x20 [(0x38, 4)])) ∧ Plain (tcp (ccp 0x20 [(0x38, 4)])) { ok := [(0x2000, .loc 0x1002000, false)] } ∧
    okAt (tcp (ccp 0x20 [(0x38, 4)])) .write 0x2000 = [(0x2000, .loc 0x1002000, false)] ∧ okAt (tcp (ccp 0x20 [(0x38, 4)])) .read 0x1000 = [(0x1000, .loc 0x1001000, false)] ∧
    isMarked (tcp (ccp 0x20 [(0x38, 4)])) 0x1001000 = false :=
  ⟨sound_of _ (by decide) rfl, plain_one _ _ _ (by decide), by decide, by decide, by decide⟩
theorem test_copy : inHand (tcp (ccp 0x20 [(0x38, 4)])) 0 1 0x20 (ccp 0x20 [(0x38, 4)]) = true ∧
    after (.copyCmd 0 1) (tcp (ccp 0x20 [(0x38, 4)])) (fun t => rdN t 0 0x1002000 8 == 0x3F800000 && (cmd? t 0 1).map (·.res) == some (some (csComplete, 0, []))) = true := by decide +kernel
theorem test_fill : after (.fillCmd 0 1) (tcp (ccp 0x21 [(0x38, 18), (0x50, 0x0807060504030201)])) (fun t => rdN t 0 0x1002000 8 == 0x0807060504030201 && rdN t 0 0x1002010 4 == 0x0201) = true := by decide +kernel
/-- CONVERT or ADD of one FP32 element, with format and rounding word x. -/
def ccv (opc x : Nat) : Cmd := { ccp opc [] with body := body [(0, 1, opc), (0x10, 8, 0x1000), (0x18, 8, 0x2000), (0x38, 4, 1), (0x3C, 4, 1), (0x40, 4, x)] }
theorem test_convertCmd : (ccv 0x22 0x20).convOk false = true ∧ overlaps (0x1000, (ccv 0x22 0x20).srcLen) (0x2000, (ccv 0x22 0x20).dstLen) = false ∧
    fmtBits 1 = 16 ∧ (ccv 0x22 0x20).quant = 0 ∧ (ccv 0x22 0x20).rnd = 0 ∧ inHand (tcp (ccv 0x22 0x20)) 0 1 0x22 (ccv 0x22 0x20) = true := by decide
theorem test_convert_value : after (.convert 0 1) (tcp (ccv 0x22 0x20)) (fun t => rdN t 0 0x1002000 4 == 0x3F80 && (cmd? t 0 1).map (·.count) == some 1) = true := by decide +kernel
theorem test_addCmd : (ccv 0x23 0).convOk true = true ∧ after (.addCmd 0 1) (tcp (ccv 0x23 0)) (fun t => rdN t 0 0x1002000 8 == 0x3F800000) = true := by decide +kernel
theorem test_copy_field : (ccv 0x22 0xC00).rnd = 3 ∧ ends (.convert 0 1) (tcp (ccv 0x22 0xC00)) csField 0 = true ∧ (ccv 0x23 0x20).dfmt = 1 ∧
    ends (.addCmd 0 1) (tcp (ccv 0x23 0x20)) csField 0 = true := by decide

/-! The fabric engine FX0. -/

/-- PUT of 4 B from 0x1000 to address 0x2000 of a device. -/
def cpu (dev st : Nat) : Cmd := { cm 32 0x30 [(0x10, 0x1000), (0x18, 2 ^ 63 + dev * 2 ^ 48 + 0x2000), (0x20, 4)] [(0x10, 0x1000)] with stageNo := st }
theorem test_put_field : gForm 0x2000 = false ∧ ends (.put 0 1) (tc (cm 32 0x30 [(0x18, 0x2000)] [])) csField 0 = true := by decide
theorem test_put_here : gForm ((cpu 0 0).n8 0x18) = true ∧ gHere (tcp (cpu 0 0)) ((cpu 0 0).n8 0x18) = true ∧
    after (.put 0 1) (tcp (cpu 0 0)) (fun t => rdN t 0 0x1002000 8 == 0x3F800000 && (cmd? t 0 1).map (·.stageNo) == some 2) = true ∧
    ends (.put 0 1) (tcp (cpu 0 2)) csComplete 0 = true := by decide +kernel
theorem test_put_remote : gHere (tcp (cpu 5 0)) ((cpu 5 0).n8 0x18) = false ∧
    after (.put 0 1) (tcp (cpu 5 0)) (fun t => (cmd? t 0 1).map (fun c => (c.stageNo, c.count, c.reqs.length)) == some (1, 1, 1)) = true := by decide +kernel
def pkt0 : Packet := { kind := pkWrite, flags := 0, dst := 5, src := 0, space := 1, route := 0, addr := 0x2000, stream := 0, sub := 0, serial := 0, first := 0, txg := 0, operand := 0, mask := 0, data := [], mark := false }
theorem test_put_sent : allSent (tcp (cpu 5 1)) [] = true ∧ ends (.put 0 1) (tcp (cpu 5 1)) csComplete 0 = true ∧
    (let s := { tcp { cpu 5 1 with reqs := [0] } with reqs := [{ id := 0, k := pkt0, owner := .cmd 0 1 }], nextReq := 1 }
     allSent s [0] = false ∧ after (.put 0 1) s (fun t => t.cmds == s.cmds) = true) := by decide +kernel
theorem test_rfence : ends (.rfence 0 1) (tc (cm 32 0x31 [] [])) csComplete 0 = true ∧ ends (.rfence 0 1) { tc (cm 32 0x31 [] []) with strErr := [(0, 3)] } csLost 0 = true ∧
    ends (.rfence 0 1) { tc (cm 32 0x31 [] []) with strErr := [(0, 1)] } csRemErr 0 = true := by decide
/-- ALLREDUCE of 64 elements at 0x1000 over the devices 0 and 1, the list at 0x3000. -/
def car (refs : List (Nat × Nat)) : Cmd := cm 32 0x32 [(0x10, 0x1000), (0x18, 64), (0x28, 0x3000)] refs
def tar (c : Cmd) : State := { tc c with ram := { base.ram with cells := tables ++ cellsAt 0x1003004 [2] ++ cellsAt 0x1003012 [1] } }
theorem test_allreduce_field : ends (.allreduce 0 1) (tar (car [(0x10, 0x1000)])) csField 0 = true := by decide
theorem test_allreduce : (match cmdLines (tar (car [(0x10, 0x1000), (0x28, 0x3000)])) (car []) .read [(0x3000, 48)] with
    | .got ll s1 => listOk s1 (gotBytes ll 0x3000 48) 2
    | _ => false) = true := by decide +kernel
theorem test_allreduce_starts : after (.allreduce 0 1) (tar (car [(0x10, 0x1000), (0x28, 0x3000)])) (fun t => (cmd? t 0 1).map (fun c => (c.stageNo, c.ar 1, c.ar 3, c.ar 4)) ==
    some (1, 2, 64, 0x1000)) = true := by decide +kernel
/-- Its first step, with k REDUCE lines of its shard of one line landed. -/
def car1 (k : Nat) : Cmd := { car [(0x10, 0x1000), (0x28, 0x3000)] with stageNo := 1, aux := [(1, 2), (3, 64), (4, 0x1000), (5, k), (17, 1)] }
theorem test_allreduceGather : (car1 0).ar 5 < ((car1 0).ar 1 - 1) * (car1 0).shardLen ((car1 0).ar 2) ∧ after (.allreduceGather 0 1) (tar (car1 0)) (fun t => t.cmds == [car1 0]) = true ∧
    after (.allreduceGather 0 1) (tar (car1 1)) (fun t => (cmd? t 0 1).map (·.stageNo) == some 2) = true := by decide +kernel
def csc (n rl : Nat) : Cmd := { cm 32 0x33 [] [(0x10, 0x1000), (0x18, 0x3000), (0x20, 0x2000)] with
  body := body [(0, 1, 0x33), (0x10, 8, 0x1000), (0x18, 8, 0x3000), (0x20, 8, 0x2000), (0x28, 4, n), (0x2C, 4, rl)] }
theorem test_scatter : ends (.scatter 0 1) (tc (csc 1 8)) csField 0 = true ∧ ends (.scatter 0 1) (tc (csc 1 65552)) csField 0 = true ∧
    ends (.scatter 0 1) { tc (csc 1 16) with ram := { base.ram with cells := tables ++ cellsAt 0x1003000 [255, 255, 255, 255] } } csComplete (2 ^ 32) = true := by decide +kernel

/-! The management engine ME0 (engine 40), whose queue is queue 0 here. -/

/-- The same with any INFO. -/
def endsI (i : Instr) (s : State) (status : Nat) : Bool := after i s (fun t => ((cmd? t 0 1).bind (·.res)).map (·.1) == some status)
/-- A management command; its image fields stand with the others. -/
def cme (opc : Nat) (fs : List (Nat × Nat)) : Cmd :=
  { cm 40 opc [] [] with space := 0, body := body ((0, 1, opc) :: fs.map (fun f => (f.1, 4, f.2))) }
def tme (c : Cmd) : State :=
  { base with cmds := [c]
              xcache := [(0, [map1, map0]), (1000, [map1]), (1016, [map1]), (1032, [map1]), (1040, [map0]), (2000, [map1, map0])]
              ram := { cells := tables, keys := [(0, 1), (1, 1), (32, 1), (33, 1), (36, 1), (64, 1), (160, 1)] } }
/-- The same with other bytes for the descriptor of AS1. -/
def tas (c : Cmd) (d : List Host.Cell) : State :=
  { tme c with ram := { (tme c).ram with cells := cellsAt 0 [1] ++ d ++ tables.drop 2 } }
def ran (c : Cmd) (n : Nat) : Cmd := { c with op := some ⟨c.opc, 1, 0, 0⟩, stageNo := n }
/-- A queue image on DE0 for AS1 with 16 entries. -/
def qimg (q : Nat) : List (Nat × Nat) := [(0x18, q), (0x44, 1), (0x50, 4)]

theorem test_queueCreate : qState (tme (cme 0x80 (qimg 1))) 1 = 0 ∧ qimgOk ((cme 0x80 (qimg 1)).body.drop 0x40) = true ∧ engAllowed 0 1 = true ∧
    ends (.queueCreate 0 1) (tme (cme 0x80 (qimg 1))) csComplete 1 = true ∧ after (.queueCreate 0 1) (tme (cme 0x80 (qimg 1))) (fun t => qState t 1 == 1) = true ∧
    ends (.queueCreate 0 1) (tme (cme 0x80 (qimg 0))) csField 0 = true := by decide +kernel
theorem test_queueSet : ends (.queueSet 0 1) (tme (cme 0x81 [(0x18, 0), (0x1C, 4), (0x50, 4), (0x54, 9)])) csComplete 0 = true ∧
    after (.queueSet 0 1) (tme (cme 0x81 [(0x18, 0), (0x1C, 4), (0x50, 4), (0x54, 9)])) (fun t => qdN t 0 0x14 4 == 9) = true := by decide +kernel
theorem test_queueStop : after (.queueStop 0 1) (setQState (tme (cme 0x82 [(0x18, 1)])) 1 1) (fun t => qState t 1 == 3) = true ∧
    after (.queueStop 0 1) (tme (cme 0x82 [(0x18, 0)])) (fun t => qState t 0 == 2) = true ∧
    endsI (.queueStop 0 1) (setQState (tme (ran (cme 0x82 [(0x18, 1)]) 0)) 1 3) csComplete = true := by decide +kernel
theorem test_queueStart : ends (.queueStart 0 1) (setQState (tme (cme 0x83 [(0x18, 1)])) 1 4) csComplete 0 = true ∧ ends (.queueStart 0 1) (tme (cme 0x83 [(0x18, 1)])) csField 0 = true := by
  decide +kernel
theorem test_queueDestroy : after (.queueDestroy 0 1) { setQState (tme (cme 0x84 [(0x18, 4)])) 4 1 with cmds := [cme 0x84 [(0x18, 4)], { cctr 1 5 with q := 4 }, { cf (cctr 2 5) with q := 4, serial := 2 }] }
    (fun t => qState t 4 == 5 && t.cmds.map (fun c => (c.q, c.asked.isSome)) == [(0, false), (4, true)]) = true := by decide +kernel
theorem test_destroyDieAck : (let s := tme { ran (cme 0x84 [(0x18, 4)]) 0 with acks := [0, 1, 2] }
    dieQuiet s 3 (fun w => w.launch.queue == 4) (fun x => x.q == 4) = true ∧ endsI (.destroyDieAck 4 3) s csComplete = true) ∧
    after (.destroyDieAck 4 3) (tme { ran (cme 0x84 [(0x18, 4)]) 0 with acks := [0, 1] }) (fun t => (cmd? t 0 1).map (fun c => (c.acks, c.res)) == some ([0, 1, 3], none)) = true := by
  decide +kernel
theorem test_opAbort : (let s (x : Cmd) : State := { setQState (tme (cme 0x85 [(0x18, 4), (0x1C, 0)])) 4 1 with cmds := [cme 0x85 [(0x18, 4), (0x1C, 0)], x] }
    ends (.opAbort 0 1) (s (cctr 1 5)) csAlready 0 = true ∧ ends (.opAbort 0 1) (s { cf (cctr 1 5) with q := 4, serial := 0 }) csComplete 0 = true ∧
    after (.opAbort 0 1) (s { cctr 1 5 with q := 4, serial := 0 }) (fun t => (cmd? t 4 0).map (·.asked) == some (some 0x40) && (cmd? t 0 1).map (·.ran) == some true) = true) := by
  decide +kernel

theorem test_ctxBind : ends (.ctxBind 0 1) (tme (cme 0x86 [(0x18, 2), (0x1C, 7)])) csComplete 0 = true ∧ regPair (tme (cme 0x86 [])) (pgEng 40) 0x0A8 = 0x2000 ∧
    after (.ctxBind 0 1) (tme (cme 0x86 [(0x18, 2), (0x1C, 7)])) (fun t => ctxEntry t 2 == 2 ^ 31 + 7) = true ∧
    ends (.ctxBind 0 1) (tme (cme 0x86 [(0x18, 0)])) csField 0 = true ∧ ends (.ctxUnbind 0 1) (tme (cme 0x87 [(0x18, 1), (0x1C, 1)])) csComplete 0 = true := by decide +kernel
theorem test_spaceCreate : spaceState (tme (cme 0x88 [(0x18, 2)])) 0 2 = 0 ∧ simgCheck (tme (cme 0x88 [])) (zeros 64) = none ∧
    ends (.spaceCreate 0 1) (tme (cme 0x88 [(0x18, 2)])) csComplete 0 = true ∧ after (.spaceCreate 0 1) (tme (cme 0x88 [(0x18, 2)])) (fun t => spaceState t 0 2 == 1) = true ∧
    ends (.spaceCreate 0 1) (tme (cme 0x88 [(0x18, 1)])) csField 0 = true := by decide +kernel
theorem test_spaceSet : ends (.spaceSet 0 1) (tme (cme 0x8B [(0x18, 1), (0x28, 128)])) csComplete 0 = true ∧
    after (.spaceSet 0 1) (tme (cme 0x8B [(0x18, 1), (0x28, 128)])) (fun t => sdWord t 0 1 8 8 == 128) = true := by decide +kernel
theorem test_spaceRestart : ends (.spaceRestart 0 1) (tas (cme 0x8C [(0x18, 1)]) (cellsAt 64 [2])) csComplete 0 = true ∧
    ends (.spaceRestart 0 1) (tme (cme 0x8C [(0x18, 1)])) csField 0 = true := by decide +kernel
theorem test_spaceStop : after (.spaceStop 0 1) { tme (cme 0x8A [(0x18, 1)]) with tiles := [(0, t0)] } (fun t =>
      (wg? t 0 0).map (fun x => (x.park, x.parkReason)) == some (.draining, rPreempt)) = true ∧
    endsI (.spaceStop 0 1) (tme (ran (cme 0x8A [(0x18, 1)]) 0)) csComplete = true := by decide +kernel
theorem test_shootdown : after (.shootdown 0 1) (tme (cme 0x8D [(0x18, 1), (0x28, 1)])) (fun t => tgetD t.xcache 0 [] == [map0] && (cmd? t 0 1).map (·.op.isSome) == some true) = true ∧
    (∀ d, d < 4 → shootDone (tme (ran (cme 0x8D [(0x18, 1)]) 0)) d 1 [] = true) ∧ endsI (.shootdown 0 1) (tme (ran (cme 0x8D [(0x18, 1)]) 0)) csComplete = true := by decide +kernel
theorem test_spaceTable : after (.spaceTable 0 1) (tme (cme 0x89 [(0x18, 1), (0x1C, 1)])) (fun t => bits (sdWord t 0 1 0 4) 16 16 == 1 && tgetD t.xcache 0 [] == [map0]) = true ∧
    endsI (.spaceTable 0 1) (tme (ran (cme 0x89 [(0x18, 1)]) 0)) csComplete = true := by decide +kernel

/-- One range of one frame from 16 MiB on, listed at 0x6000. -/
def tret : State := { tme (cme 0x8E [(0x18, 1), (0x20, 0x6000), (0x28, 1)]) with
  ram := { (tme (cme 0 [])).ram with cells := tables ++ cellsAt 0x1006000 [0, 0, 0, 1, 0, 0, 0, 0, 1] } }
theorem test_spaceRetire : (match cmdLines tret (cme 0x8E []) .read [(0x6000, 16)] with
    | .got ls _ => rangesOk [gotBytes ls 0x6000 16]
    | _ => false) = true ∧ after (.spaceRetire 0 1) tret (fun t => spaceState t 0 1 == 3 && (cmd? t 0 1).map (·.stageNo) == some 1) = true := by decide +kernel
theorem test_retireStage : (let c (a : List Nat) : Cmd := { ran (cme 0x8E [(0x18, 1)]) 1 with acks := a }
    after (.retireStage 1 3) (tme (c [0, 1])) (fun t => (cmd? t 0 1).map (fun c => (c.acks, c.stageNo)) == some ([0, 1, 3], 1)) = true ∧
    after (.retireStage 1 3) (tme (c [0, 1, 2])) (fun t => (cmd? t 0 1).map (fun c => (c.acks, c.stageNo)) == some ([], 2)) = true) := by decide +kernel
/-- The handle table of AS1 at 0x5000 with four entries, the first VALID with a use count. -/
def tha (c : Cmd) (use : Nat) : State :=
  { tas c [] with ram := { (tme c).ram with cells := cellsAt 0 [1] ++ cellsAt 64 [1] ++ cellsAt 97 [0x50] ++ cellsAt 104 [4] ++ tables.drop 2 ++ cellsAt 0x5007 [0x80, 0, 0, 0, 0, use] } }
theorem test_handleFree : (let c := cme 0x8F [(0x18, 1)]
    htCount (tha c 0) 0 1 = 4 ∧ htAddr (tha c 0) 0 1 0 = 0x5000 ∧ endsI (.handleFree 0 1) (tha c 0) csComplete = true ∧
    after (.handleFree 0 1) (tha c 0) (fun t => rdN t tableSlot 0x5000 8 == 0) = true ∧
    after (.handleFree 0 1) (tha c 1) (fun t => rdN t tableSlot 0x500C 4 == 2 ^ 24 + 1) = true) := by decide +kernel
theorem test_abandonClear : ends (.abandonClear 0 1) { tme (cme 0x90 [(0x1C, 8), (0x20, 1)]) with bels := [(0, { aband := [(7, 3)] })] } csComplete 0 = true ∧
    after (.abandonClear 0 1) { tme (cme 0x90 [(0x1C, 8), (0x20, 1)]) with bels := [(0, { aband := [(7, 3)] })] } (fun t => (bel t 0).aband == [(7, 1), (9, 1)]) = true := by decide +kernel
theorem test_preempt : ends (.preempt 0 1) (tme (cme 0x91 [])) csComplete 0 = true ∧
    after (.preempt 0 1) { tme (cme 0x91 []) with tiles := [(0, t0)] } (fun t => (wg? t 0 0).map (·.park) == some .draining) = true := by decide +kernel
def rp (st : ReplSt) : Repl := ⟨0, 0, none, true, some (0, 1), st⟩
def gone0 (s : State) (rs : Tab Repl) : State := { s with guide := { s.guide with repls := rs } }
theorem test_selftest : physOf base 0 = some 0 ∧ inService base (pgTile 0) = true ∧ spareFor { base with blks := (List.range 16).map (fun i => (pgTile (i * 11 + 10), { st := .idle })) } 0 = none ∧
    ends (.selftest 0 1) (gone0 (tme (cme 0x92 [])) [(0, { rp .stopping with by_ := none })]) csBusy 0 = true ∧
    ends (.selftest 0 1) { tme (cme 0x92 []) with places := [(0, unplaced)] } csField 0 = true := by decide +kernel
theorem test_selftestDeadline : ends (.selftestDeadline 0) (gone0 (tme (ran (cme 0x92 [(0x1C, 5)]) 0)) [(0, rp .stopping)]) csComplete 0 = true := by decide +kernel
/-- One register of the page of tile 1, listed at 0x6000. -/
def trc (c : Cmd) : State := { tme c with ram := { (tme c).ram with cells := tables ++ cellsAt 0x1006000 [0x80] } }
theorem test_reconfig : ends (.reconfig 0 1) (tme (cme 0x93 [(0x18, 0xF000000)])) csField 0 = true ∧
    after (.reconfig 0 1) (trc (cme 0x93 [(0x18, 4096 * pgTile 1), (0x20, 0x6000), (0x28, 1)])) (fun t => (blk t (pgTile 1)).st == .stopping && (cmd? t 0 1).map (·.ran) == some true) = true := by
  decide +kernel
theorem test_reconfig_ends : ends (.reconfig 0 1) (modBlk (tme { cme 0x93 [(0x18, 4096 * pgTile 1)] with ran := true }) (pgTile 1)
    (fun b => { b with st := .stopped, owner := some (gcPath 0) })) csComplete (2 ^ 32) = true := by decide +kernel

/-! Control of blocks: pages of base are IDLE; the TST page of die 0 stands for a plain page. -/

def p0 : Path := .host
def pc : Path := .gc 0
def pgT : Nat := pgTst 0
theorem test_access : Access base p0 0 ∧ Access base pc 0 ∧ PageIs pgT ⟨.tst, 0, 0⟩ ∧ PageIs (pgTile 1) ⟨.tile, 1, 0⟩ := by unfold Access PageIs; decide
/-- base with the page changed. -/
def tp (pg : Nat) (f : Blk → Blk) : State := modBlk base pg f
def on (c : Instr) (s : State) (pg : Nat) (f : Blk → Bool) : Bool := after c s (fun t => f (blk t pg))
theorem test_stop : (blk base pgT).owner = none ∧ (blk base pgT).st.inService = true ∧ on (.stop p0 0 pgT) base pgT (fun b => b.st == .stopping && b.owner == some p0 && b.seq == 2) = true ∧
    on (.stop p0 0 pgT) (tp pgT (fun b => { b with owner := some pc })) pgT (fun b => b.errStat.getLsbD 2 && tget? b.resp 0 == some 1) = true := by decide
def stopped (o : Path) : State := tp pgT (fun b => { b with st := .stopped, owner := some o, staged := [(0x080, 5)] })
theorem test_restart : on (.restart p0 0 pgT) base pgT (fun b => tget? b.resp 0 == some 2) = true ∧ on (.restart p0 0 pgT) (stopped pc) pgT (fun b => tget? b.resp 0 == some 1) = true ∧
    stagedBad (stopped p0) pgT = none ∧ on (.restart p0 0 pgT) (stopped p0) pgT (fun b => b.st == .idle && b.staged.isEmpty && tget? b.regs 0x080 == some 5) = true ∧
    stagedBad (tp (pgXlt 0) (fun b => { b with st := .stopped, owner := some p0, pairStage := [(0x080, 5)] })) (pgXlt 0) ≠ none ∧
    on (.restart p0 0 (pgXlt 0)) (tp (pgXlt 0) (fun b => { b with st := .stopped, owner := some p0, pairStage := [(0x080, 5)] })) (pgXlt 0) (fun b => tget? b.resp 0 == some 3) = true := by decide
theorem test_discard : on (.discard p0 0 pgT) base pgT (fun b => tget? b.resp 0 == some 2) = true ∧ on (.discard p0 0 pgT) (stopped pc) pgT (fun b => tget? b.resp 0 == some 1) = true ∧
    on (.discard p0 0 pgT) (stopped p0) pgT (fun b => b.st == .idle && b.staged.isEmpty && (tget? b.regs 0x080).isNone) = true := by decide
theorem test_take : on (.take pc 0 pgT) (stopped p0) pgT (fun b => b.owner == some pc && b.st == .stopped) = true ∧ on (.take p0 0 pgT) (stopped pc) pgT (fun b => tget? b.resp 0 == some 4) = true := by decide
theorem test_withdraw : on (.withdraw p0 0 pgT) (tp pgT (fun b => { b with st := .stopping, owner := some p0 })) pgT (fun b => b.st == .idle && b.owner.isNone) = true ∧
    on (.withdraw p0 0 pgT) base pgT (fun b => tget? b.resp 0 == some 2) = true := by decide
theorem test_cancelOp : on (.cancelOp p0 0 pgT) base pgT (fun b => tget? b.resp 0 == some 2) = true ∧
    on (.cancelOp p0 0 (pgHbm 0)) (tp (pgHbm 0) (fun b => { b with opRun := true, opBy := some p0 })) (pgHbm 0) (fun b => !b.opRun && b.progRes == 3) = true := by decide
theorem test_blockStopped : stopWork (tp pgT (fun b => { b with st := .stopping })) pgT = false ∧ on (.blockStopped pgT) (tp pgT (fun b => { b with st := .stopping })) pgT (fun b => b.st == .stopped) = true ∧
    stopWork (tp (pgTile 1) (fun b => { b with st := .stopping })) (pgTile 1) = false ∧
    on (.blockStopped (pgTile 1)) (tp (pgTile 1) (fun b => { b with st := .stopping })) (pgTile 1) (fun b => b.st == .stopped) = true := by decide
theorem test_blockFault : on (.blockFault pgT) base pgT (fun b => b.st == .failed && b.errStat.getLsbD 5) = true := by decide
theorem test_longOpEnd : on (.longOpEnd (pgHbm 0) 1) (tp (pgHbm 0) (fun b => { b with opRun := true })) (pgHbm 0) (fun b => !b.opRun && b.progRes == 1) = true ∧
    on (.longOpEnd (pgHbm 0) 4) (tp (pgHbm 0) (fun b => { b with opRun := true })) (pgHbm 0) (fun b => b.progRes == 4 && b.errStat.getLsbD 4) = true := by decide

/-! The register aperture. -/

def rd (c : Instr) (s : State) (p : Path) (v : Nat) : Bool := after c s (fun t => tget? t.bus (pathIx p) == some v)
theorem test_reg_access : on (.regWrite p0 0 (4096 * pgT + 0x080) 8 1) base pgT (fun b => b.errStat.getLsbD 1) = true ∧ on (.regWrite p0 0 (4096 * pgT + 4095) 4 1) base pgT (fun b => b.errStat.getLsbD 1) = true ∧
    rd (.rcRead p0 0 (4096 * pgT + 2) 4) base p0 0xFFFF_FFFF = true := by decide
theorem test_reg_silent : fieldsAt .tst 0x080 ≠ [] ∧ on (.regWrite p0 0 (4096 * pgT + 0x080) 4 1) (tp pgT (fun b => { b with st := .off })) pgT (fun b => b.errStat.getLsbD 3) = true := by decide
theorem test_errStat : on (.regWrite p0 0 (4096 * pgT + 0x018) 4 1) (tp pgT (fun b => { b with errStat := 3 })) pgT (fun b => b.errStat == 2) = true := by decide
theorem test_starve : (let pg := pgTile 1
    on (.regWrite p0 0 (4096 * pg + 0x088) 4 16) base pg (fun b => b.errStat == 0) = true ∧ after (.regWrite p0 0 (4096 * pg + 0x088) 4 16) base (fun t => regF t pg 0x088 9 0 == 16) = true ∧
    on (.regWrite p0 0 (4096 * pg + 0x088) 4 15) base pg (fun b => b.errStat.getLsbD 0) = true) := by decide
theorem test_staged : on (.regWrite p0 0 (4096 * pgT + 0x080) 4 128) (tp pgT (fun b => { b with st := .stopped })) pgT (fun b => (tget? b.staged 0x080).map (fun w => fld w 7 0) == some 128) = true ∧
    on (.regWrite p0 0 (4096 * pgT + 0x080) 4 128) base pgT (fun b => b.errStat.getLsbD 3 && b.staged.isEmpty) = true := by decide
theorem test_reads : rd (.rcRead p0 0 (4096 * pgT + 0x008) 4) base p0 (65536 + BState.idle.code + 16 * BState.off.code) = true ∧
    rd (.rcRead p0 0 (4096 * pgT + 0x024) 4) (tp pgT (fun b => { b with errCnt := 9 })) p0 9 = true ∧
    on (.rcRead p0 0 (4096 * pgT + 0x024) 4) (tp pgT (fun b => { b with errCnt := 9 })) pgT (fun b => b.errCnt == 0) = true ∧
    rd (.blkProgRead p0 0 pgT) (tp pgT (fun b => { b with progVal := 7, progRes := 1 })) p0 (7 + 2 ^ 28) = true := by decide
theorem test_pairs : (let s := tp (pgXlt 0) (fun b => { b with st := .stopped })
    on (.pairLowWrite pc 0 (4096 * pgXlt 0 + 0x080) 5) s (pgXlt 0) (fun b => tget? b.pairStage 0x080 == some 5) = true ∧
    on (.pairHighWrite pc 0 (4096 * pgXlt 0 + 0x084) 6) (modBlk s (pgXlt 0) (fun b => { b with pairStage := [(0x080, 5)] })) (pgXlt 0)
      (fun b => b.pairStage.isEmpty && tget? b.staged 0x080 == some 5 && tget? b.staged 0x084 == some 6) = true ∧
    rd (.pairLowRead p0 0 (4096 * pgT + 0x070)) (tp pgT (fun b => { b with steps := 2 ^ 32 + 3 })) p0 3 = true) := by decide
/-- PERMIT, as its register shows it. -/
theorem test_injArm : permit base = false ∧ on (.injArm p0 0 pgT 8) base pgT (fun b => !b.injArm && b.errStat.getLsbD 3) = true ∧
    permit { base with blks := [(pgSec, { st := .idle, regs := [(0x098, 1)] })] } = true := by decide
theorem test_snapRelease : on (.snapRelease p0 0 pgT 1) (tp pgT (fun b => { b with snapHeld := true })) pgT (fun b => !b.snapHeld) = true := by decide
theorem test_no_page : pageAt 0xF000 = none ∧ rd (.rcRead p0 0 0xF000000 4) base p0 0xFFFF_FFFF = true ∧ after (.regWrite p0 0 0xF000000 4 1) base (fun t => t.blks == base.blks) = true ∧
    on (.regWrite .host 1 (4096 * pgT + 0x080) 4 1) base pgNhl (fun b => b.errStat.getLsbD 8) = true := by decide

theorem test_time : counts base (pgTile 1) = true ∧ on (.rateInterval (pgTile 1) 9) base (pgTile 1) (fun b => b.lic == 10 ^ 6 && b.meas == 9) = true ∧
    on (.counterTrim (pgTile 1) 7 0) base (pgTile 1) (fun b => b.corr == 7 && b.valid) = true ∧ after (.trimStale (pgTile 1)) base (fun t => (blk t (pgTile 1)).stale && t.evq.map (·.kind) == [0x68]) = true := by decide
theorem test_noise : hasNoise (pgTile 1) = true ∧ (blk base (pgTile 1)).st ≠ .off ∧ after (.noiseHealthFail (pgTile 1)) base (fun t => regF t (pgTile 1) 0x0F0 17 17 == 1 && regF t (pgTile 1) 0x0F0 31 24 == 1) = true ∧
    (let s := tp (pgTile 1) (fun b => { b with regs := [(0x0F0, 0x2_0000)] })
     after (.noiseRetest (pgTile 1) true) s (fun t => regF t (pgTile 1) 0x0F0 17 17 == 0) = true ∧ after (.noiseRetest (pgTile 1) false) s (fun t => regF t (pgTile 1) 0x0F0 31 24 == 1) = true) := by decide
theorem test_dieEdgeFail : edgeDies 0 = (0, 1) ∧ after (.dieEdgeFail 0) base (fun t => t.guide.edges == [0] && (blk t (pgDie 1)).errStat.getLsbD 8 && !t.leftService) = true ∧
    after (.dieEdgeFail 0) { base with guide := { base.guide with edges := [2] } } (fun t => t.leftService) = true := by decide

/-! Tile engines: command 0 of group 0 of tile 0, alone in its bundle. -/

/-- MMA of BF16 with K of 32, delivered to C; all operands at the start of workgroup memory. -/
def ac (w0 : Nat) (st : ArrStage) : ArrCmd :=
  { serial := 0, slot := 0, wg := 0, space := 1, words := [w0, 1, 1, 1], stage := st, opds := [wgmOpd 0 0 0 0 0 false, wgmOpd 0 0 0 0 0 false, wgmOpd 0 0 0 0 0 false],
    out := [], acc := [0x3F80_0000], recomp := 0, poison := false, marked := false, mapUsed := regMap base 0 }
def mma : Nat := 2 ^ 7 + 2 ^ 12 + 2 ^ 20 + 2 ^ 40
/-- A bundle that holds the A slot alone: ARR s28, or ROW s28. -/
def te (op : Nat) (a : Arr) (r : Row) : State :=
  { ts with tiles := [(0, { t0 with wgs := [(0, { w0 with m := 131072 })], arr := a, row := r
                                    groups := [(0, { g0 with offer := some 0, fetched := some (0x200, 2 ^ 118 + op * 2 ^ 24 + 28 * 2 ^ 19, 0) }), (1, g1)] })] }
def ta (c : ArrCmd) : State := te 1 { cmds := [c] } {}
theorem test_arrAccept_refuses : arrWords (ac 7 .offered) = some arRsvd ∧ after (.arrAccept 0) (ta (ac 7 .offered)) (fun t => (tile t 0).arr.cmds.isEmpty && (blk t (pgArr 0)).errStat.getLsbD 12 &&
    ((group? t 0 0).map (fun g => g.fault.map (·.code))) == some (some fArray)) = true := by decide +kernel
theorem test_arrAccept : arrWords (ac mma .offered) = none ∧ (ac mma .offered).fused = false ∧ (ac mma .offered).descOps = [] ∧ inService (ta (ac mma .offered)) (pgArr 0) = true ∧
    ((group? (ta (ac mma .offered)) 0 0).bind offerBundle).map (fun b => (b.c.isNone, b.v.isNone, b.m.isNone, b.bytes)) = some (true, true, true, 16) ∧
    after (.arrAccept 0) (ta (ac mma .offered)) (fun t => (tile t 0).arr.cmds.map (·.stage) == [.accepted] && ((group? t 0 0).map (·.pc)) == some 0x210) = true := by decide +kernel
theorem test_arrCompute : arrRuns (ta (ac mma .accepted)) 0 = true ∧ mayBegin (tile (ta (ac mma .accepted)) 0).arr (ac mma .accepted) = true ∧ (ac mma .accepted).readLines = [] ∧
    (((ac mma .accepted).at_ 0).gather (ta (ac mma .accepted)) []).1 = true := by decide
/-- Computed, with the checksum and magnitude of row 0 as its one accumulator gives them. -/
def acc (n : Nat) : ArrCmd := { ac mma .computing with hem := [(hemRow 0, (0x3F80_0000, 0x3F80_0000))], recomp := n }
theorem test_arrDrain : ((acc 0).found [] []).hemFails (regF ts (pgArr 0) 0x088 12 8) ((acc 0).found [] []).acc = ([], [], false) ∧
    ((acc 0).found [(0, 0x4000_0000)] []).hemFails (regF ts (pgArr 0) 0x088 12 8) [0x4000_0000] ≠ ([], [], false) ∧ hemLevel (ta (acc 0)) 0 (acc 0) = 2 ∧
    after (.arrDrain 0 [] []) (ta (acc 0)) (fun t => (tile t 0).arr.cmds.map (fun c => (c.stage, c.out)) == [(.drained, [0x3F80_0000])]) = true ∧
    after (.arrDrain 0 [(0, 0x4000_0000)] []) (ta (acc 0)) (fun t => (tile t 0).arr.cmds.map (fun c => (c.stage, c.recomp)) == [(.accepted, 1)]) = true ∧
    after (.arrDrain 0 [] [(hemRow 0, 0)]) (ta (acc 1)) (fun t => (tile t 0).arr.cmds.map (·.stage) == [.held]) = true := by decide +kernel
theorem test_arrDelivered : (ac mma .drained).drain = 1 ∧ ((ac mma .drained).at_ 0).held (ta (ac mma .drained)) [] = false ∧ ((ac mma .delivering).at_ 0).busy (ta (ac mma .delivering)) = false ∧
    after (.arrDelivered 0) (ta (ac mma .delivering)) (fun t => (tile t 0).arr.cmds.isEmpty && (tile t 0).arr.done == 1) = true := by decide +kernel
theorem test_arrRetry : arrHeld (ta (ac mma .held)) 0 = some (ac mma .held) ∧ after (.arrRetry pc 0 0) (ta (ac mma .held)) (fun t => (tile t 0).arr.cmds.map (fun c => (c.stage, c.recomp)) == [(.accepted, 1)]) = true ∧
    after (.arrPoison pc 0 0) (ta (ac mma .held)) (fun t => (tile t 0).arr.cmds.map (fun c => (c.stage, c.poison)) == [(.drained, true)]) = true ∧
    on (.arrRetry pc 0 0) ts (pgArr 0) (fun b => b.errStat.getLsbD 3) = true ∧ on (.arrPoison pc 0 0) ts (pgArr 0) (fun b => b.errStat.getLsbD 3) = true := by decide +kernel
theorem test_holds : dutyUp ts 0 = true ∧ fwUp ts = true ∧ (nextCluster ts (dutyOf ts 0)).isSome = true ∧
    after (.holdResponse 0) (ta { ac mma .held with inj := 2 }) (fun t => (tile t 0).arr.cmds.map (·.stage) == [.accepted]) = true ∧
    (freeField (ta (ac mma .held)) 0 3 4).isSome = true ∧ freeField (ta (ac mma .held)) 0 255 255 = none ∧
    after (.holdEscalate 0) (ta { ac mma .held with loc := [3, 4, 3, 4] }) (fun t => (tile t 0).arr.cmds.map (·.stage) == [.accepted]) = true ∧
    after (.holdResponse 0) (ta (ac mma .held)) (fun t => (tile t 0).arr.cmds.map (fun c => (c.stage, c.poison)) == [(.drained, true)]) = true := by decide +kernel

def rc (w0 w1 : Nat) (st : RowStage) : RowCmd := { serial := 0, slot := 0, wg := 0, space := 1, words := [w0, w1], stage := st }
def tr (c : RowCmd) : State := te 2 {} { cmds := [c] }
theorem test_rowAccept : rowWordOk 0x10 0 false = false ∧ after (.rowAccept 0) (tr (rc 0x10 0 .offered)) (fun t => (tile t 0).row.cmds.isEmpty && (blk t (pgRow 0)).errStat.getLsbD 8 &&
      ((group? t 0 0).map (fun g => g.fault.map (·.code))) == some (some fRow)) = true ∧
    rowWordOk 0x0F 0 false = true ∧ rowFmtOk (rowParOf 0x0F []) = true ∧
    after (.rowAccept 0) (tr (rc 0x0F 0 .offered)) (fun t => (tile t 0).row.cmds.map (·.stage) == [.accepted] && ((group? t 0 0).map (·.pc)) == some 0x210) = true := by decide +kernel
theorem test_sinv : rowFirst (tr (rc 0x0F 0 .accepted)) 0 0 = true ∧ rowRuns (tr (rc 0x0F 0 .accepted)) 0 = true ∧
    after (.sinv 0) (tr (rc 0x0F 0 .accepted)) (fun t => (tile t 0).row.cmds.map (·.stage) == [.computed]) = true := by decide
theorem test_rowComplete : after (.rowComplete 0) (tr (rc 0x0F 0 .computed)) (fun t => (tile t 0).row.cmds.isEmpty) = true := by decide

/-! Memory at line 0x20020 of stack 0 (address 0x1001000). -/

def mb : State := { base with ram := { base.ram with cells := tables ++ cellsAt 0x1001000 [1, 2, 3, 4] } }
def pA : Nat := 0x1001000
theorem test_noLine : lineExists (2 ^ 40) = false ∧ lineExists pA = true ∧ lineHeld mb pA = false ∧ isFenced mb pA = false ∧ sliceHas mb pA = false := by decide
theorem test_noLine_stops : (match exec (.evictionWriteback (2 ^ 40)) mb with
    | .fault f => f == .noSuchLine (2 ^ 40)
    | _ => false) = true := by decide
/-- The line is in L2, in way 0 of its set. -/
def ml : State := { mb with l2 := [(gslice pA, { lines := [(17 * setOf pA, { line := pA / 128, dirty := false, slot := 0 })] })] }
theorem test_held : sliceHas ml pA = true ∧ rd (.l2LineAccess ⟨pA, 0, .read, none⟩) ml .host 0 = false ∧
    after (.l2LineAccess ⟨pA, 0, .read, none⟩) ml (fun t => (tget? t.bus 18).map (· % 2 ^ 32) == some 0x04030201 && tget? t.bus 19 == some 0) = true ∧
    after (.l2LineAccess ⟨pA, 0, .write [(1, 9)], none⟩) ml (fun t => rdN t 0 pA 4 == 0x04030901) = true ∧
    after (.l2LineAccess ⟨pA, 0, .atomic 0 124 5 0, none⟩) ml (fun t => rdN t 0 (pA + 124) 4 == 5 && tget? t.bus 18 == some 0) = true := by decide +kernel
theorem test_hbmFillReturn : (slice { mb with l2 := [(gslice pA, { fills := [⟨pA, 0, .read, none⟩] })] } (gslice pA)).fills.filter (fun f => f.pa / 128 == pA / 128) =
    [⟨pA, 0, .read, none⟩] := by decide
theorem test_l2LineAccess : after (.l2LineAccess ⟨pA, 0, .read, none⟩) mb (fun t => (slice t (gslice pA)).fills.length == 1) = true ∧
    after (.l2LineAccess ⟨pA, 0, .zero, none⟩) mb (fun t => rdN t 0 pA 4 == 0) = true ∧ wholeLine ((List.range 128).map (fun i => (i, 1))) = true := by decide +kernel
theorem test_l2LineAccess_write : after (.l2LineAccess ⟨pA, 0, .write ((List.range 128).map (fun i => (i, 1))), none⟩) mb (fun t => rdN t 0 pA 4 == 0x01010101) = true := by decide +kernel
theorem test_reduceWrite : after (.reduceWrite 0 pA [0x3F800000]) base (fun t => rdN t 0 pA 8 == 0x3F800000) = true := by decide +kernel
theorem test_evictionWriteback : after (.evictionWriteback pA) { mb with l2 := [(gslice pA, { evb := [pA / 128, 5] })] } (fun t => (slice t (gslice pA)).evb == [5]) = true := by decide

theorem test_waySwap : (insvc base 0).testBit 16 = false ∧ on (.waySwap p0 0 (pgL2s 0) 3) base (pgL2s 0) (fun b => b.opRun && b.opArg == 3) = true ∧
    after (.longOpEnd (pgL2s 0) 1) (tp (pgL2s 0) (fun b => { b with opRun := true, opArg := 3 })) (fun t => insvc t 0 == 0x1FFF7) = true ∧
    (match exec (.longOpEnd (pgL2s 0) 1) (tp (pgL2s 0) (fun b => { b with opRun := true, opArg := 3 })) with
     | .next t => on (.waySwap p0 0 (pgL2s 0) 4) t (pgL2s 0) (fun b => !b.opRun && b.progRes == 2 && b.errStat.getLsbD 11)
     | _ => false) = true := by decide +kernel
theorem test_scrubPass : regF base (pgHbm 0) 0x080 15 0 ≠ 0 ∧ stackOf pA = 0 ∧ dirtyAbove base pA = false ∧
    after (.scrubPass pc 0 [0] [pA]) base (fun t => (blk t (pgHbm 0)).errStat.getLsbD 8 && (blk t (pgHbm 0)).errStat.getLsbD 9 && isMarked t pA && (blk t (pgHbm 0)).opRun) = true := by decide +kernel
theorem test_hbmRowRepair : (blk base (pgHbm 0)).st.inService = true ∧ after (.hbmRowRepair 0 9 true) base (fun t => regF t (pgHbm 0) 0x094 31 16 == 1) = true ∧
    after (.hbmRowRepair 0 9 false) base (fun t => (stack t 0).remap.map (·.1) == [9] && regF t (pgHbm 0) 0x084 31 16 == 1) = true ∧
    after (.hbmRowRepair 0 9 false) (tp (pgHbm 0) (fun b => { b with regs := [(0x084, 0x1000_0000)] })) (fun t => (blk t (pgHbm 0)).errStat.getLsbD 11) = true := by decide
theorem test_pch : 1024 ≤ spareFree base 0 ∧ after (.pchLost 0 5) base (fun t => (stack t 0).heldPch == [5]) = true ∧
    spareFree (tp (pgHbm 0) (fun b => { b with regs := [(0x084, 1)] })) 0 < 1024 ∧
    after (.pchLost 0 5) (tp (pgHbm 0) (fun b => { b with regs := [(0x084, 1)] })) (fun t => (stack t 0).fenced == [5] && t.evq.map (·.kind) == [0x65]) = true ∧
    after (.pchRedirect 0 5) { base with stackTab := [(0, { heldPch := [5] })] } (fun t => (stack t 0).heldPch.isEmpty && (regPair t (pgHbm 0) 0x088).testBit 5) = true := by decide +kernel
/-- A table of AS1 at 0x5000 with one range entry, for the walker of die 0. -/
def isEntry (x : (Nat ⊕ XEntry) × State) : Option Bool := match x.1 with
  | .inr e => some (e.covers 0)
  | .inl _ => none
theorem test_walk_none : isEntry (walk base 0 1 0) = none ∧ after (.rangeWalk 0 1 0) base (fun t => regF t (pgXlt 0) 0x094 15 0 == 1 && t.xcache == base.xcache) = true := by decide
/-- A table of AS1 at 0x5000 with one entry: 8 frames from 0 to 16 MiB, valid and readable. -/
theorem test_walk : (let s := { base with ram := { cells := cellsAt 0 [1] ++ cellsAt 64 [1] ++ cellsAt 68 [1] ++ cellsAt 73 [0x50] ++ tables.drop 2 ++ cellsAt 0x5008 [8] ++ cellsAt 0x500C [3] ++ cellsAt 0x5013 [1], keys := [(0, 1), (32, 1), (64, 1), (160, 1)] } }
    isEntry (walk s 0 1 0) = some true ∧ after (.rangeWalk 0 1 0) s (fun t => ((tgetD t.xcache (agDie 0) []).head?).map (·.target) == some 0x1000000) = true) := by decide +kernel

/-! Input, supplies, power. -/

theorem test_powerLoss : after .powerLoss base (fun t => !t.pwrGood && t.ram.cells.isEmpty && t.flash == base.flash) = true ∧
    after .inputExcursionTimeout { base with pwr := { base.pwr with band := 2 } } (fun t => !t.pwrGood) = true ∧ after .inputRangeReturn { base with pwr := { base.pwr with band := 2 } } (fun t => t.pwr.band == 0) = true ∧
    after (.railVoltageReturn 3) { base with pwr := { base.pwr with droops := [(3, 500)] } } (fun t => !thas t.pwr.droops 3) = true := by decide
theorem test_inputExcursion : powered base = true ∧ inputBand 61000 = 3 ∧ inputBand 58001 = 2 ∧ inputBand 52000 = 0 ∧ after (.inputExcursion 61000) base (fun t => !t.pwrGood) = true ∧
    after (.inputExcursion 58001) base (fun t => t.pwr.band == 2 && t.evq.map (·.kind) == [0x48] && (List.range 16).all (fun n => railCode t n == 0)) = true ∧
    after (.inputExcursion 52000) { base with pwr := { base.pwr with band := 1 } } (fun t => t.pwr.band == 0 && t.evq.isEmpty) = true := by decide +kernel
theorem test_rails : railFailed base 19 = false ∧ after (.railDroop 19 519) base (fun t => tget? t.pwr.droops 19 == some 519 && regF t pgPwr 0x0A8 15 0 == 1) = true ∧
    after (.phaseLost 0) base (fun t => tget? t.pwr.phases 0 == some 1 && t.evq.map (·.kind) == [0x66]) = true := by decide +kernel
theorem test_railFault : after (.railFault 0) base (fun t => railFailed t 0 && t.leftService && (supplyPages 0).all (fun pg => (blk base pg).st == .off || (blk t pg).st == .failed || (blk base pg).st == .spare)) = true ∧
    after (.phaseLost 0) { base with pwr := { base.pwr with phases := [(0, 3)] } } (fun t => railFailed t 0 && t.evq.any (fun e => e.kind == 0x47)) = true := by decide +kernel
theorem test_cap : (blk base pgPwr).st.silent = false ∧ after (.pwrCapWrite p0 0 5) base (fun t => regF t pgPwr 0x080 8 0 == 100 && t.evq.map (·.kind) == [0x40]) = true ∧
    after (.pwrCapWrite p0 0 100) base (fun t => regF t pgPwr 0x080 8 0 == 100 && t.evq.isEmpty) = true ∧ after (.pwrVceilWrite p0 0 0) base (fun t => regF t pgPwr 0x084 5 0 == 0 && t.evq.isEmpty) = true ∧
    after (.pwrVceilWrite p0 0 63) base (fun t => t.evq.map (·.kind) == [0x40]) = true := by decide +kernel
theorem test_pacing : (blk base (pgGde base.guide.dev)).st.inService = true ∧ after .fastLimit { base with blks := [(pgPwr, { st := .idle })] } (fun t => t.evq.length == 1) = true := by decide +kernel
theorem test_measure : ctlMeasure base = false ∧ after .pwrEstDiverge { base with pwr := { base.pwr with apart := 501 } } (fun t => ctlMeasure t && t.evq.map (·.kind) == [0x41]) = true ∧
    (match exec .pwrEstDiverge { base with pwr := { base.pwr with apart := 501 } } with
     | .next t => after .pwrEstRecover { t with pwr := { t.pwr with close := 10000 } } (fun u => !ctlMeasure u) && after .measureStep (setRegF t pgPwr 0x094 15 0 5000) (fun u => pointOf u == pointOf t - 1) &&
         decide (capMw t * (100 - regF t pgPwr 0x090 5 0) < 5000 * 100000)
     | _ => false) = true := by decide +kernel
theorem test_sensors : sensorKnown 0 0 = true ∧ after (.sensorSample 0 0 500 true) base (fun t => answers t 0 0 && rawTemp t 0 0 == 500) = true ∧
    after (.sensorSample 0 0 500 false) base (fun t => !answers t 0 0) = true ∧
    after (.sensorSample 0 0 (sensorLimits 0).2.2 true) { base with pwr := { base.pwr with sensors := [(0, ⟨500, true, 2⟩)] } } (fun t => t.pwr.tripped) = true ∧
    after .thermalTripOff { base with pwr := { base.pwr with tripped := true } } (fun t => t.leftService && !t.booted && t.pwr.tripped) = true := by decide +kernel

/-! Start, reset, card, cables. -/

def bf (held : Bool) : BootFacts := ⟨held, [], [], [], [], [], [], [], [], [], []⟩
theorem test_powerUp : after (.powerUp (bf true)) State.reset (fun t => t.pwrGood && t.startHeld && !t.booted) = true ∧ State.reset.pwrGood = false ∧ State.reset.flash.copies = [] := by decide +kernel
theorem test_warmReset : base.pwr.tripped = false ∧ after .warmReset { base with booted := false } (fun t => t.resetLow && t.startHeld) = true ∧
    base.startHeld = false ∧ base.draining = false := by decide +kernel
theorem test_sbDrainExpire : after .sbDrainExpire { base with draining := true } (fun t => !t.draining) = true := by decide +kernel
theorem test_cardWrite : fwUp base = true ∧ after (.cardWrite ctArrayMap 3) { base with cardDue := [(cardKey ctArrayMap 3, 7)] } (fun t => cardGet t ctArrayMap 3 == some 7 && t.cardDue.isEmpty) = true ∧
    after (.cardWrite 0 1) base (fun t => t.flash.badBank.testBit 1 && t.evq.map (·.kind) == [0xA0]) = true := by decide +kernel
theorem test_cables : after (.cableConnect 0) base (fun t => (cable t 0).present && (cable t 0).power) = true ∧
    (let s := setCable base 0 { present := true, power := true }
     after (.cableRemove 0) s (fun t => !(cable t 0).present && linkState t 0 == lkDown) = true ∧ after (.cableOverpower 0) s (fun t => (cable t 0).overI && !(cable t 0).power) = true ∧
     after (.cableIdRead 0 true 5) s (fun t => (cable t 0).ident == some 5) = true) := by decide +kernel

/-! Links: port 0 in a state of R384. -/

def lk (st : Nat) : State := setLink base 0 st
def lks (st : Nat) (x : Port) : State := setPort (lk st) 0 x
def lnk (c : Instr) (s : State) (st reason : Nat) : Bool := after c s (fun t => linkState t 0 == st && linkReason t 0 == reason)
theorem test_detect : portOn base 0 = true ∧ linkState (lk lkDetect) 0 = lkDetect ∧ lnk (.detectTimeout 0) (lk lkDetect) lkDown 1 = true ∧ lnk (.partnerDetect 0) (lk lkDetect) lkTrain 0 = true ∧
    cableReady base 0 = true ∧ linkReason base 0 = 0 ∧ lnk (.detectRetry 0) base lkDetect 0 = true ∧ after (.trainRetry 0) (setRegF base (pgPort 0) 0x080 15 8 3) (fun t => linkState t 0 == lkDetect) = true := by decide
theorem test_laneLock : after (.laneLockTimeout 0 8) (lk lkTrain) (fun t => rxBad t 0 == 256 && linkState t 0 == lkTrain) = true ∧
    lnk (.laneLockTimeout 0 8) (setRegF (lk lkTrain) (pgPort 0) 0x084 8 0 0x1F) lkDown 3 = true := by decide
theorem test_initFlit : lnk (.initFlit 0 false [] 0x3F) (lk lkTrain) lkDown 3 = true ∧ encCfg base 0 = false ∧ lnk (.initFlit 0 true [] 0) (lk lkTrain) lkDown 5 = true ∧
    lnk (.initFlit 0 false [200] 0) (lk lkTrain) lkRoll 0 = true ∧ after (.initFlit 0 false [200] 0) (lk lkTrain) (fun t => (port t 0).credits == [128, 0, 0, 0]) = true ∧
    base.entropyBad = false ∧ (blk base pgSec).injArm = false := by decide
def kx : KeyxFlit := ⟨0, 0, 1, 2, [], []⟩
theorem test_keyx : linkState (lks lkKeyx { keyx := some (1, 2) }) 0 = lkKeyx ∧ (port (lks lkKeyx { keyx := some (1, 2) }) 0).keyx ≠ none ∧ kx.seq = (port (lks lkKeyx { keyx := some (1, 2) }) 0).rxSeq ∧
    lnk (.keyxTimeout 0) (lk lkKeyx) lkDown 4 = true := by decide
theorem test_rekey : encOn (setRegF (lk lkUp) (pgPort 0) 0x080 18 18 1) 0 = true ∧ linkState (setRegF (lk lkUp) (pgPort 0) 0x080 18 18 1) 0 = lkUp ∧ (port base 0).keyx = none := by decide
theorem test_los : lnk (.los 0) (lk lkUp) lkDown 7 = true ∧ after (.laneBad 0 8) (lk lkUp) (fun t => linkState t 0 == lkRetrain && tget? t.cardDue (cardKey ctLanes 0) == some 256) = true ∧
    after (.retrain 0 5) (lk lkUp) (fun t => linkState t 0 == lkRetrain && txBad t 0 == 5) = true ∧ linkWidth base 0 = 2 ∧ after (.retrainDone 0 true) (lk lkRetrain) (fun t => linkState t 0 == lkUp) = true ∧
    after (.retrainDone 0 false) (lk lkRetrain) (fun t => linkState t 0 == lkTrain) = true ∧ after (.lsymWindow 0 [1, 2 ^ 40]) base (fun t => (port t 0).lsym == [1, 2 ^ 32 - 1, 0, 0, 0, 0, 0, 0, 0]) = true := by decide

/-! Flits at port 0. -/

def df (seq : Nat) (fec crc tag : Bool) : DataFlit := ⟨seq, 0, false, 0, 0, 0, 0, fec, crc, tag⟩
theorem test_dataFlit : portLive (lk lkUp) 0 = true ∧ (blk (lk lkUp) (pgPort 0)).injArm = false ∧ after (.dataFlit 0 (df 0 true true true)) (lk lkUp) (fun t => (port t 0).rxSeq == 1) = true ∧
    after (.dataFlit 0 (df 0 false true true)) (lk lkUp) (fun t => (port t 0).discard && (port t 0).out.map (fun x => (x.1, x.2.ack)) == [(.nak, 4095)] && regF t (pgPort 0) 0x090 15 0 == 1) = true ∧
    after (.dataFlit 0 (df 0 true false true)) (lk lkUp) (fun t => (port t 0).discard && regF t (pgPort 0) 0x094 15 0 == 1) = true ∧
    lnk (.dataFlit 0 (df 0 true true false)) (setRegF (lk lkUp) (pgPort 0) 0x080 18 18 1) lkDown 6 = true ∧
    seqAhead (port base 0) 3 = true ∧ seqAhead (port base 0) 4095 = false ∧ after (.dataFlit 0 (df 3 true true true)) (lk lkUp) (fun t => (port t 0).discard) = true ∧
    after (.dataFlit 0 (df 4095 true true true)) (lk lkUp) (fun t => (port t 0).rxSeq == 0 && !(port t 0).discard) = true := by decide
def fl (n : Nat) : TxFlit := ⟨n, 1, none, none, 0, 0, ⟨0, 0, 0⟩⟩
theorem test_idleFlit : after (.idleFlit 0 true 1 2 9) (lks lkUp { retry := [fl 0, fl 1, fl 2] }) (fun t => (port t 0).retry == [fl 2] && (port t 0).credits == [0, 0, 9, 0]) = true ∧
    after (.idleFlitDue 0) (lks lkUp { freed := [0, 0, 300, 0] }) (fun t => (port t 0).out.map (fun x => (x.1, x.2.ack, x.2.cvc, x.2.credits)) == [(.idle, 4095, 2, 255)]) = true := by decide
theorem test_nak : after (.nak 0 0) (lks lkUp { retry := [fl 0, fl 1] }) (fun t => (port t 0).retry == [fl 1] && (port t 0).replays == 1 && linkState t 0 == lkUp) = true ∧
    (ackFlits { retry := [fl 0, fl 1], replays := 7 } 9).replays + 1 ≥ 8 ∧ (ackFlits { retry := [fl 0, fl 1], replays := 7 } 9).retry ≠ [] := by decide
/-- R390 at the eighth replay and at the seventh. -/
theorem test_eighth_replay : portLive (lk lkUp) 0 = true ∧ after (.nak 0 9) (lks lkUp { retry := [fl 0], replays := 7 }) (fun t => (blk t (pgPort 0)).errStat.getLsbD 11 && linkState t 0 == lkRetrain) = true ∧
    after (.nak 0 9) (lks lkUp { retry := [fl 0], replays := 6 }) (fun t => (port t 0).replays == 7 && linkState t 0 == lkUp) = true := by decide

/-! Packets from device 3 at port 0; AS1 is imported. -/

def imp : State := { setLink base 0 lkUp with blks := (setLink base 0 lkUp).blks ++ [(pgDev, { st := .idle, regs := [(0x200, 2)] })], domMap := [(0, 0, 3, 1)] }
def pk1 (kind addr : Nat) (data : List Nat) : Packet := { pkt0 with kind := kind, dst := 0, src := 3, addr := addr, data := data, mask := 2 ^ 128 - 1, operand := 5 }
theorem test_arrives : Arrives imp 0 pkWrite (pk1 pkWrite 0x1000 []) := ⟨by decide, by decide, by decide, by decide, by decide⟩
theorem test_admitted : Admitted imp (translate imp (agDie 0) 0 1 0x1000 .write false).2 0 (pk1 pkWrite 0x1000 []) .write 0x1001000 :=
  ⟨by decide, ⟨false, rfl⟩, by decide⟩
theorem test_landSt : landSt imp (pk1 pkWrite 0x1000 []) = .ok ∧ landSt { imp with landing := [⟨0, 3, 0, 0, [0]⟩] } { pk1 pkWrite 0x1000 [] with flags := 8 } = .dup ∧
    imports imp 1 = true ∧ imports base 1 = false := by decide
theorem test_signalPacket : after (.signalPacket 0 (pk1 pkSignal 0x1000 [])) imp (fun t => rdN t 0 0x1001000 8 == 5 && t.landing.map (·.landed) == [[0]]) = true := by decide +kernel
theorem test_atomicPacket : after (.atomicPacket 0 { pk1 pkAtomic 0x1000 [124, 7, 0] with operand := 1 }) imp (fun t => rdN t 0 0x100107C 4 == 7) = true := by decide +kernel
theorem test_notImported : after (.signalPacket 0 { pk1 pkSignal 0x1000 [] with space := 2 }) imp (fun t => (blk t pgDev).errStat.getLsbD 11 && t.ram == imp.ram) = true := by decide +kernel
theorem test_watchPacket : watchKnown imp (pk1 pkWatch 0x1000 []) = false ∧ after (.watchPacket 0 (pk1 pkWatch 0x1000 [])) imp (fun t => (bel t 0).nextId == 1) = true := by decide +kernel
theorem test_anchor : after (.anchorPacket 0 (pk1 pkAnchor 0 [])) imp (fun t => t.anchors.length == 1) = true ∧ spaceState imp 0 1 = 1 ∧
    anchorReady { imp with anchors := [pk1 pkAnchor 0 []] } (pk1 pkAnchor 0 []) = true ∧ after (.anchorRelease 3 0 0) { imp with anchors := [pk1 pkAnchor 0 []] } (fun t => t.anchors.isEmpty) = true := by decide
theorem test_notify : after (.notifyPacket 0 { pk1 pkNotify 0 [] with txg := 28 }) { imp with bels := [(0, { remote := [(7, { wa (.queue 0 1) with pa := 2 ^ 63 + 3 * 2 ^ 48 })] })] }
    (fun t => (bel t 0).remote.isEmpty) = true := by decide
/-- A request to device 3 that the packet answers. -/
def rq0 : Req := { id := 0, k := { pkt0 with dst := 3 }, owner := .cmd 0 1 }
def trq (r : Req) : State := { imp with reqs := [r], nextReq := 1, cmds := [{ cpu 3 1 with reqs := [0] }] }
def ack (kind st : Nat) : Packet := { pkt0 with kind := kind, dst := 0, src := 3, sub := st, data := [1] }
theorem test_answers : answered (trq { rq0 with sent := true }) (ack pkAck stDone) = some { rq0 with sent := true } ∧ after (.ackPacket 0 (ack pkAck stDone)) (trq { rq0 with sent := true }) (fun t => t.reqs.all (fun r => r.res == some rqDone)) = true ∧
    after (.ackPacket 0 (ack pkAck stRefused)) (trq { rq0 with sent := true }) (fun t => t.reqs.all (fun r => r.res == some rqErr)) = true ∧
    after (.ackPacket 0 (ack pkAck stBusy)) (trq { rq0 with sent := true }) (fun t => t.reqs.map (fun r => (r.busy, r.sent)) == [(true, false)]) = true ∧
    after (.dataPacket 0 (ack pkData stDone)) (trq { rq0 with sent := true }) (fun t => t.reqs.all (fun r => r.data == [1])) = true := by decide
theorem test_resend : after (.busyResend 0) (trq { rq0 with busy := true }) (fun t => t.reqs.all (fun r => !r.busy)) = true ∧ after (.packetResend 0) (trq { rq0 with handed := true }) (fun t => t.reqs.all (fun r => !r.handed)) = true ∧
    after (.resendDeadline 0) (trq { rq0 with handed := true }) (fun t => t.reqs.all (fun r => r.res == some rqLost)) = true ∧ after (.resendDeadline 0) (trq { rq0 with sent := true }) (fun t => t.reqs.all (·.late)) = true := by decide
theorem test_landingExpire : (Landing.noGap ⟨0, 3, 0, 0, [0]⟩) = true ∧ (Landing.noGap ⟨0, 3, 0, 0, [1]⟩) = false ∧ after (.landingExpire 3 0) { imp with landing := [⟨0, 3, 0, 0, [0]⟩] } (fun t => t.landing.isEmpty) = true ∧
    after (.landingExpire 3 0) { imp with landing := [⟨0, 3, 0, 0, [1]⟩] } (fun t => t.landing.length == 1) = true := by decide

/-! The domain: port 0 leads to port 1 of device 3. -/

theorem test_route : after (.routeTableUpdate 3 [2 ^ 31]) imp (fun t => tget? t.route 3 == some [2 ^ 31, 0, 0, 0]) = true ∧
    after (.routeTableUpdate 3 []) (trq rq0) (fun t => t.reqs.all (fun r => r.res.isSome)) = true := by decide
def rl (dev port major epoch digest : Nat) : RollCall := ⟨dev, port, 0, major, 0, epoch, digest, 0, []⟩
theorem test_rollCall : (let s := setLink imp 0 lkRoll
    let m := regF s pgDev 0x104 15 8
    farEnd s 0 = some (3, 1) ∧ myDigest s = 0 ∧ myEpoch s = 0 ∧ lnk (.rollCall 0 (rl 3 1 (m + 1) 0 0)) s lkQuar 0 = true ∧
    after (.rollCall 0 (rl 3 1 m 0 1)) s (fun t => t.evq.any (fun e => e.kind == 0xC)) = true ∧ lnk (.rollCall 0 (rl 4 1 m 0 0)) s lkQuar 0 = true ∧
    after (.rollCall 0 (rl 3 1 m 5 0)) s (fun t => t.resync == some (3, 5, [])) = true) := by decide
/-- The roll call that agrees on the dead set, whose digest is a free value of its own. -/
theorem test_rollCall_up : { rl 3 1 0 0 0 with deadSum := deadSum [] }.deadSum = deadSum (myDead (setLink imp 0 lkRoll)) := rfl
theorem test_staleResync : after (.staleResync 0) { imp with resync := some (3, 5, [7]) } (fun t => t.resync.isNone && myEpoch t == 5 && isDead t 7) = true := by decide
theorem test_loss : isDead imp 3 = false ∧ after (.loss 0 7 9) imp (fun t => isDead t 7 && myEpoch t == 9) = true ∧ after (.loss 0 7 0) { imp with dead := [(7, ())] } (fun t => t.evq.isEmpty) = true ∧
    after (.joinNotice 0 7 0) { imp with dead := [(7, ())] } (fun t => !isDead t 7 && myEpoch t == 1) = true ∧ after (.joinNotice 0 7 0) imp (fun t => t.evq.isEmpty) = true := by decide
theorem test_heartbeat : after (.heartbeat 0) imp (fun t => (port t 0).out.map (·.1) == [Ctrl.heartbeat]) = true ∧ after (.heartbeatTimeout 0) imp (fun t => linkState t 0 == lkQuar) = true ∧
    after (.depart 0) imp (fun t => linkState t 0 == lkDown && linkReason t 0 == 9 && isDead t 3) = true ∧ after (.neighbourDead 3) (setLink imp 0 lkDown) (fun t => isDead t 3 && myEpoch t == 1) = true := by decide
def cpk (kind : Nat) (data : List Nat) : Packet := { pk1 kind 0 data with src := 1, operand := 1 + 16 * 2, txg := 64 * 2 ^ 32 }
theorem test_coll : collCmd { imp with cmds := [car1 0] } 0 1 = some (car1 0) ∧ (car1 0).ar 17 = 1 ∧ (cpk pkReduce []).addr < (car1 0).ar 3 / 32 ∧
    after (.reducePacket 0 (cpk pkReduce [0x3F800000])) { imp with cmds := [car1 0] } (fun t => rdN t 0 0x1001000 8 == 0x3F800000 && (cmd? t 0 1).map (·.ar 5) == some 1) = true ∧
    after (.gatherPacket 0 (cpk pkGather [7])) { imp with cmds := [car1 0] } (fun t => rdN t 0 0x1001000 8 == 7 && (cmd? t 0 1).map (·.ar 6) == some 1) = true := by decide +kernel

/-! The host: window, rings, sideband. -/

/-- The window maps AS1 from 0 on, or is disabled. -/
def tw (en : Nat) : State := { mb with blks := [(pgNhl, { st := .idle, regs := [(0x080, 5), (0x0C4, BitVec.ofNat 32 (en * 2 ^ 31 + 2 ^ 16)), (0x0E0, 1)] })] }
theorem test_window : hostReady (tw 1) = true ∧ regF (tw 1) pgNhl 0x0C4 31 31 = 1 ∧ leads (translate (tw 1) (agDie 0) 0 1 0x1000 .read true) 0x1001000 = true ∧
    after (.memWindowAccess 0 0x1000 false [0, 0]) (tw 1) (fun t => tget? t.bus 16 == some 0x201 && tget? t.bus 17 == some 0) = true ∧
    after (.memWindowAccess 0 0x1000 true [9, 8]) (tw 1) (fun t => rdN t 0 pA 4 == 0x04030809) = true := by decide +kernel
theorem test_window_refused : after (.memWindowAccess 0 0x1000 false [0, 0]) (tw 0) (fun t => tget? t.bus 16 == some 0xFFFF && (blk t pgNhl).errStat.getLsbD 9) = true ∧
    after (.memWindowAccess 3 0x1000 true [9, 8]) (tw 1) (fun t => (blk t pgNhl).errStat.getLsbD 8 && t.ram == mb.ram) = true ∧
    (translateRuns (tw 1) (agDie 0) 0 1 .read true [(0x2000000, 2)]).1.fails ≠ [] ∧
    after (.memWindowAccess 0 0x2000000 false [0, 0]) (tw 1) (fun t => t.evq.map (·.kind) == [5] && tget? t.bus 16 == some 0xFFFF) = true := by decide +kernel
/-- The ring table is at 0x5000 of AS0. -/
def trg : State := { tw 1 with ram := { base.ram with cells := tables ++ cellsAt 0x1005000 [0, 0, 0x10, 0, 0, 0, 0, 0, 6] }
                               blks := [(pgNhl, { st := .idle, regs := [(0x080, 5), (0x0C8, 0x5000), (0x0E0, 1)] })] }
theorem test_rings : regPair trg pgNhl 0x0C8 = 0x5000 ∧ after (.ringEnable p0 0 0) trg (fun t => (ring t 0).on && (ring t 0).base == 0x100000 && (ring t 0).size == 6) = true ∧
    after (.ringDisable p0 0 0) { trg with rings := [(0, { on := true, size := 6 })] } (fun t => !(ring t 0).on) = true ∧
    after (.rconsWrite p0 0 5) { trg with rings := [(0, { on := true, size := 6 })] } (fun t => (ring t 0).consumed == 5 && (ring t 0).on) = true := by decide +kernel
def ev0 : Ev := { ring := 0, kind := 0xC0, value := 5, cont := some [1] }
def on6 (w : Nat) : Ring := { on := true, base := 0x100000, size := 6, written := w }
theorem test_eventPost : (let s (r : Ring) : State := { base with rings := [(0, r)], evq := [ev0] }
    canPost (s (on6 0)) ev0 = true ∧ after .eventPost (s (on6 0)) (fun t => t.evq.isEmpty && (ring t 0).written == 2 && (tgetD t.host 0x100000 0) == 1 && (tgetD t.host 0x100020 0) == 1) = true ∧
    canPost (s (on6 63)) ev0 = false ∧ nextPending (s (on6 63)) [] [] = none ∧ after .eventPost (s (on6 63)) (fun t => t.evpend == [ev0]) = true ∧
    after .eventPost (s {}) (fun t => (ring t 0).dropped == 1 && t.evq.isEmpty) = true ∧
    after .eventPost { s (on6 0) with evpend := [ev0] } (fun t => t.evpend.isEmpty && t.evq == [ev0]) = true) := by decide +kernel
theorem test_store_full : (List.replicate 8192 ev0).length = 8192 := List.length_replicate
theorem test_hostLink : after .nhlLinkLoss base (fun t => linkState t 18 == lkDown) = true ∧ portOn base 18 = true ∧ linkWidth base 18 ≠ 0 ∧
    after .nhlLinkReturn { base with blks := [(pgNhl, { st := .idle })] } (fun t => linkState t 18 == lkUp && (port t 18).credits == [128, 128, 128, 128]) = true := by decide
theorem test_sideband : after .vendorReadStatus base (fun t => t.answers == [[1, 0]]) = true ∧ after (.vendorClearAlert 1) (setAlert base 0) (fun t => regF t pgNhl 0x0E4 0 0 == 0) = true ∧
    after .getVersion { base with verified := true } (fun t => t.answers == [[0x04, 0x13]]) = true ∧ after (.negotiateAlgorithms [1, 2]) { base with verified := true } (fun t => t.answers == [[0x63, 1, 2]]) = true ∧
    after (.spdmUnsupported 0x85) { base with verified := true } (fun t => t.answers == [[0x7F, 0x07, 0x85]]) = true ∧ after (.mctpControl 1 0) base (fun t => t.answers.length == 1) = true := by decide

/-! Spares, guide clusters. -/

theorem test_tileHang : dutyUp ts 0 = true ∧ readyGroups { ti uaddiWord with blks := base.blks } 0 ≠ [] ∧ after (.tileHang 0) (ti uaddiWord) (fun t => tget? t.guide.trigs 0 == some 4) = true := by decide
def tgd (trigs : Tab Nat) (rs : Tab Repl) : State := { ts with guide := { ts.guide with trigs := trigs, repls := rs } }
theorem test_orderly : (spareFor ts 0).isSome = true ∧ after (.tileReplaceOrderly 0) (tgd [(0, 1)] []) (fun t => tileState t 0 == .stopping && ((tgRepl t 0).map (·.trig)) == some 1) = true := by decide +kernel
theorem test_orderly_ends : (match exec (.tileReplaceOrderly 0) (tgd [(0, 1)] []) with
    | .next t => after (.blockStopped (pgTile 0)) { t with tiles := [] } (fun u => tileState u 0 == .retired && tgetD u.moves 0 0 == 1 && u.evq.map (·.kind) == [0x60])
    | _ => false) = true := by decide +kernel
theorem test_abrupt : logOf ts 0 = some 0 ∧ after (.tileReplaceAbrupt 0) (tgd [(0, 4)] []) (fun t => tileState t 0 == .failed && (tile t 0).wgs.isEmpty && (physOf t 0).isSome) = true := by decide +kernel
theorem test_unplaced : (let s := { tgd [(0, 4)] [] with blks := (List.range 16).map (fun i => (pgTile (i * 11 + 10), { st := .idle })) }
    spareFor s 0 = none ∧ after (.tileReplaceAbrupt 0) s (fun t => (physOf t 0).isNone && t.evq.map (·.kind) == [0x61]) = true) := by decide +kernel
theorem test_tilePlace : logicalUnplaced { base with places := [(7, unplaced)] } = [7] ∧ tileState base 10 = .spare ∧
    after (.tilePlace 10) { base with places := [(7, unplaced)] } (fun t => physOf t 7 == some 10 && tileState t 10 == .idle) = true := by decide +kernel
theorem test_periodicSelftest : logicalUnplaced base = [] ∧ after (.periodicSelftest 0) base (fun t => tileState t 0 == .stopping && ((tgRepl t 0).map (·.trig)) == some 7) = true := by decide +kernel
theorem test_wear : after (.wearJudge 0 (List.replicate 21 32768)) base (fun t => regF t (pgTile 0) 0x0C0 4 0 == 0) = true ∧
    after (.wearJudge 0 (List.replicate 3 31129 ++ List.replicate 18 32768)) base (fun t => regF t (pgTile 0) 0x0C0 4 0 == 3) = true ∧
    after (.wearJudge 0 (List.replicate 21 31129)) base (fun t => regF t (pgTile 0) 0x0C0 4 0 == 31 && tget? t.guide.trigs 0 == some 5) = true := by decide +kernel
theorem test_sliceBypass : (blk base (pgL2s 0)).st.silent = false ∧ (slice base 0).bypass = false ∧ dutyUp base 0 = true := by decide

theorem test_guideCoreFail : clusterUp base 1 = true ∧ nextCluster base 1 = some 2 ∧ (let s (n : Nat) : State := setReg base (pgGde 1) 0x080 (BitVec.ofNat 32 (n * 256))
    coreSpare (s 11) 1 = true ∧ coresUp (s 11) 1 = 3 ∧ after (.guideCoreFail 1 0) (s 11) (fun t => !coreSpare t 1 && coresUp t 1 == 3 && t.evq.map (·.kind) == [0x6A]) = true ∧
    coresUp (s 4) 1 = 4 ∧ after (.guideCoreFail 1 0) (s 4) (fun t => coresUp t 1 == 3) = true ∧
    after (.guideCoreFail 1 0) (s 3) (fun t => (blk t (pgGde 1)).st == .failed && dutyOf t 1 == 2 && t.evq.map (·.kind) == [0x6A, 0x69]) = true) := by decide +kernel
theorem test_takeover : after (.guideTakeover 1) base (fun t => (blk t (pgGde 1)).st == .failed && dutyOf t 1 == 2) = true ∧ after (.clusterHeartbeat 1) base (fun t => tgetD t.guide.beats 1 0 == 1) = true ∧
    (let s : State := { base with blks := [(pgGde 0, { st := .failed }), (pgGde 2, { st := .failed }), (pgGde 3, { st := .failed })] }
     nextCluster s 1 = none ∧ after (.guideTakeover 1) s (fun t => t.leftService) = true) := by decide +kernel
theorem test_osc : devUp base = true ∧ after (.oscCompare true false) base (fun t => t.guide.osc == 1 && t.guide.oscBad == 1) = true ∧ after (.oscCompare false true) base (fun t => t.guide.oscBad == 2) = true ∧
    after (.oscCompare true true) base (fun t => t.leftService) = true ∧ after (.oscCompare false false) base (fun t => t.guide.oscBad == 0) = true := by decide +kernel
theorem test_fwUpdate : (let s := tp (pgGde 0) (fun b => { b with opRun := true })
    on (.fwUpdate p0 0 1 0) base (pgGde 1) (fun b => b.errStat.getLsbD 3) = true ∧ on (.fwUpdate p0 0 0 0) s (pgGde 0) (fun b => b.errStat.getLsbD 3) = true ∧
    (blk s (pgGde 0)).opRun = true ∧ s.guide.dev = 0 ∧
    after (.fwUpdateFail 0) s (fun t => !(blk t (pgGde 0)).opRun && (blk t (pgGde 0)).progRes == 2 && t.flash == s.flash) = true) := by decide +kernel

/-! Keys, tokens, triggers, halts. -/

def keysFrom : Nat → Nat → Tab Nat
  | _, 0 => []
  | a, n + 1 => (a, 1) :: keysFrom (a + 1) n
theorem tget_keysFrom (n a x : Nat) (h : a ≤ x) (h2 : x < a + n) : tget? (keysFrom a n) x = some 1 := by
  induction n generalizing a with
  | zero => omega
  | succ n ih =>
    simp only [keysFrom, tget?]
    split
    · rfl
    · exact ih (a + 1) (by omega) (by omega)
/-- Every line of the space table reads as zeros: no space is in use. -/
def tsec : State := { base with ram := { cells := [], keys := keysFrom 0 2048 } }
theorem tsec_byte (a : Nat) (h : a < 128 * 2048) : byteUnder tsec.ram 1 a = 0 := by
  have h1 : tgetD tsec.ram.keys (a / 128) 0 = 1 := by
    unfold tgetD tsec; rw [tget_keysFrom 2048 0 (a / 128) (by omega) (by omega)]; rfl
  unfold byteUnder; simp only [h1, if_true]; rfl
theorem test_slotInUse : slotInUse tsec 5 = false := by
  unfold slotInUse
  rw [List.any_eq_false]
  intro sp hsp
  have hs : sp < 4096 := List.mem_range.1 hsp
  have h0 : regPair tsec (pgXlt 0) 0x080 = 0 := by decide
  have hb : ∀ i, i < 4 → byteUnder tsec.ram (keyId tsec 255) (0 + 64 * sp + 0 + i) = 0 := fun i hi => tsec_byte _ (by omega)
  have : spaceState tsec 0 sp = 0 := by
    unfold spaceState sdWord sdAddr rdN readPhys readUnder
    have hr (x : Nat) : rangeFrom x 4 = [x + 0, x + 1, x + 2, x + 3] := by simp [rangeFrom, List.range, List.range.loop, Nat.add_comm]
    rw [h0, hr]
    simp only [List.map_cons, List.map_nil, hb 0 (by omega), hb 1 (by omega), hb 2 (by omega), hb 3 (by omega)]
    rfl
  simp [this]
theorem test_key_refused : (blk base pgSec).opRun = false ∧ (blk base pgSec).st.silent = false ∧ keyHalf base 0 = keyHalf base 1 ∧
    after (.keyLoad p0 0 5) base (fun t => regF t pgSec 0x088 23 16 == 2 && (blk t pgSec).errStat.getLsbD 8) = true ∧ after (.keyGenerate p0 0 0) base (fun t => regF t pgSec 0x088 23 16 == 1) = true ∧
    after (.keyClear p0 0 255) base (fun t => regF t pgSec 0x088 23 16 == 1) = true := by decide +kernel
theorem test_key_inUse : slotInUse (tas (cme 0 []) (cellsAt 64 [1, 5])) 5 = true ∧ after (.keyClear p0 0 5) (tas (cme 0 []) (cellsAt 64 [1, 5])) (fun t => regF t pgSec 0x088 23 16 == 3) = true := by decide +kernel
theorem test_key_halves : keyHalf (setReg base pgSec 0x0C0 1) 0 ≠ keyHalf (setReg base pgSec 0x0C0 1) 1 := by decide
theorem test_key_running : (let s := tp pgSec (fun b => { b with opRun := true, opArg := 5 + 512 })
    on (.keyClear p0 0 6) s pgSec (fun b => b.opRun && b.errStat.getLsbD 8) = true ∧ (blk s pgSec).opArg % 256 = 5 ∧ (blk s pgSec).opArg / 256 = 2) := by decide
theorem test_dbgSubmit : (tokenBytes base).getD 0 0 ≠ 1 ∧ after (.dbgEnd p0 0 2) { base with tokenSlot := 1 } (fun t => t.tokenSlot == 0 && t.evq.map (·.kind) == [0xA2]) = true := by decide +kernel
theorem test_entropy : after .entropyFail base (fun t => t.entropyBad && t.evq.map (·.kind) == [0xA4]) = true ∧ after (.keyGeneratorRetest false) { base with entropyBad := true } (fun t => t.entropyBad) = true := by decide

theorem test_errSet : (let t := errSet base pgT 9 77
    (blk t pgT).errStat.getLsbD 9 = true ∧ (blk t pgT).errAddr = 77 ∧ t.reports.map (fun r => (r.page, r.bit)) = [(pgT, 9)]) ∧
    (errSet (tp pgT (fun b => { b with errMask := 0x200 })) pgT 9 77).reports = [] := by decide
theorem test_trigger : regF base pgDbg 0x080 0 0 = 1 ∧ after .trigIn base (fun t => t.wave == some [] && t.evq.map (·.kind) == [0xC0]) = true ∧ after .trigIn { base with wave := some [] } (fun t => t.evq.isEmpty) = true ∧
    after (.dbgFire p0 0 0) base (fun t => t.wave == some [] && regF t pgDbg 0x08C 17 16 == 1) = true := by decide +kernel
theorem test_dbgHalt : hasRight ts rtHalt = false ∧ on (.dbgHalt p0 0 0) ts pgDbg (fun b => b.errStat.getLsbD 3) = true ∧ physOf ts 0 = some 0 ∧
    (let s := setRegF ts pgSec 0x098 7 0 2
     hasRight s rtHalt = true ∧ after (.dbgHalt p0 0 0) s (fun t => (wg? t 0 0).map (·.parkReason) == some rDebug && t.evq.map (·.kind) == [0xC2]) = true) := by decide +kernel
theorem test_dbgMemRead : on (.dbgMemRead p0 0 (2 ^ 16)) base pgDbg (fun b => b.errStat.getLsbD 3) = true ∧ (let s := setRegF (setReg mb pgDbg 0x0A0 0x1000) pgSec 0x098 7 0 4
    hasRight s rtMemread = true ∧ after (.dbgMemRead p0 0 (2 ^ 16)) s (fun t => regF t pgDbg 0x0A8 1 0 == 1 && (regW t pgDbg 0x100).toNat == 0x04030201) = true ∧
    after (.dbgMemRead p0 0 (2 ^ 16)) (setReg s pgDbg 0x0A0 0x2000000) (fun t => regF t pgDbg 0x0A8 1 0 == 2) = true) := by decide +kernel
theorem test_perfClear : after (.perfClear p0 0 0 2) ts (fun t => (tile t 0).perf == [] && regF t (pgTile 0) 0x0CC 1 0 == 2) = true := by decide
theorem test_wavefront : regF base pgDbg 0x080 3 3 = 0 ∧ on (.wavefrontArrive pgT) { base with wave := some [] } pgT (fun b => b.snapHeld && b.snapWords.length == 8) = true ∧
    after (.wavefrontArrive pgT) { tp pgT (fun b => { b with snapHeld := true }) with wave := some [] } (fun t => regF t pgDbg 0x08C 31 18 == 1) = true ∧
    on (.wavefrontArrive pgT) { tp pgT (fun b => { b with snapJoin := false }) with wave := some [] } pgT (fun b => !b.snapHeld) = true := by decide +kernel
theorem test_errorLog : (let s := setReg (errSet base pgT 9 77) pgDbg 0x090 0x3000
    (translateRuns s (agDie 0) 0 0 .write false [(0x3000, 64)]).1.ok = [(0x3000, .loc 0x1003000, false)] ∧ dutyUp s 0 = true ∧
    s.reports.map (·.page) = [pgT] ∧ (pageAt pgT).map (·.die) = some 0) := by decide +kernel

/-! The machine. -/

theorem test_step : (match step { base with pending := [.powerLoss] } with
    | .next t => t.pending == [] && !t.pwrGood
    | _ => false) = true ∧ (match step base with
    | .next t => t.pending == []
    | _ => false) = true := by decide
theorem test_memInv : MemInv State.reset ∧ MemInv base := by unfold MemInv; decide
/-- R334 with a ring of 16 entries: a latch 17 ahead of CONSUMED. -/
theorem test_doorbell_far : (let s : State := { base with queues := [(0, { latch := 17, pend := true })] }
    2 ^ bits (qdN s 0 0x10 4) 4 0 = 16 ∧ after (.commandFetch 0) s (fun t => qState t 0 == 4 && qdN t 0 0x28 4 == csDoorbell && t.cmds.isEmpty) = true) := by decide +kernel

/-! Conditions of the statements that hold in the states above. -/

theorem test_room : Room tm r0 (gm g0) ⟨0x12, 1, 255, 5⟩ ∧ Room tm r0 (gm g0) ⟨0x68, 1, 0, 6⟩ ∧ Room tm r0 (gm g0) ⟨0x20, 1, 255, 5⟩ := by unfold Room; decide
theorem test_waiters : NoneWaits tm 0 0 ∧ NoneWaits (tsb .store true [1]) 0 0 ∧ NoRegWait ts ∧ NoRegWait base := by unfold NoneWaits NoRegWait; decide
theorem test_noWatchOf : NoWatchOf (tpw 4) w0 g0 ∧ (bel (tpw 4) 0).waitl = [] ∧ (bel (tpw 4) 0).held = [] ∧ (bel (tpw 4) 0).aband = [] ∧
    (bel (tpw 4) 0).armed.length + (bel (tpw 4) 0).shrunk < 31744 ∧ lineHeld (tpw 4) 0x1001000 = false := by unfold NoWatchOf; decide
theorem test_nothingHeld : NothingHeld base ∧ NothingHeld (xc .committing) ∧ NothingHeld (tx (xo []) (ctx 5 0x400)) :=
  ⟨⟨by decide, by decide, by decide, by unfold NoRegWait; decide, by decide⟩, ⟨by decide, by decide, by decide, by unfold NoRegWait; decide, by decide⟩,
    ⟨by decide, by decide, by decide, by unfold NoRegWait; decide, by decide⟩⟩
theorem test_entry : (let s := tsb .stc true [1, 2, 3, 4]
    let e := sbe .stc true [1, 2, 3, 4]
    (tile s 0).owns e = true ∧ afterPosted (tile s 0) e = true ∧ (tile s 0).siblings e = [] ∧ s.draining = false ∧
    (∃ p ∈ ((group? s 0 0).getD g0).pend, e.pids.contains p.id = true ∧ p.kind = .store 1)) := by decide
theorem test_quietTile : (tile (tld 2 false) 0).prefs = [] ∧ (((group? (tld 2 false) 0 0).getD g0).pend.map (·.id)).Nodup ∧ (tile (tld 2 false) 0).arr.cmds = [] := by decide
/-- A marked line faults the load with DATA_POISON; the load of a line that is not there yet waits for nothing. -/
theorem test_loadReturn_marked : grp (.loadReturn r0 0) { tld 2 false with ram := { (tld 2 false).ram with marks := [(0x1001000 / 128, ())] } }
    (fun g => (g.fault.map (fun f => (f.code, f.imprecise))) == some (fPoison, true)) = true := by decide
theorem test_issueRound_idle : (chooseIssue (roundTick ts 0) 0).chosen = [] ∧ (tile ts 0).txBusy = 0 ∧ after (.issueRound 0) ts (· == ts) = true ∧
    bundleReady (roundTick (ti uaddiWord) 0) 0 0 ((group? (ti uaddiWord) 0 0).getD g0) ((decBundle uaddiWord 0).getD (mkBundle none none none none 0 0)) = true := by decide
theorem test_wgPark_finished : (let s := modTile ts 0 (fun x => { x with groups := x.groups.map (fun p => (p.1, { p.2 with stat := .finished })) })
    (∀ p ∈ (tile s 0).groupsOf 0, p.2.stat = .finished) ∧ after (.wgPark 0 0 rMigrate) s (fun t => (tile t 0).noPark == [(0, rMigrate)] && (tile t 0).groups == (tile s 0).groups) = true) := by decide
theorem test_txgCommitPoint_bad : thas (txgAt (xc .committing) 0).lines 0x20020 = true ∧
    after (.txgCommitPoint 0 ⟨0, some 0x20020⟩) (xc .committing) (fun t => (txgAt t 0).st == .free && (txgAt t 0).ended == some 8 && (txgAt t 0).lines == []) = true ∧
    after (.txgInstall 0 0 ⟨sliceOf 0x1001000, [0x20020]⟩) (xc .committed) (fun t => isMarked t 0x1001000) = true := by decide +kernel
/-- A read of a held line waits at its slice and is performed when the commit has installed the line. -/
theorem test_heldWaits : (let s := xc .committed
    lineHeld s 0x1001000 = true ∧ after (.l2LineAccess ⟨0x1001000, 0, .zero, none⟩) s (fun t => (slice t (gslice 0x1001000)).waits.length == 1) = true ∧
    after (.l2LineAccess ⟨0x1001000, 0, .zero, none⟩) s (fun t => after (.txgInstall 0 0 ⟨sliceOf 0x1001000, []⟩) t (fun u => rdN u 0 0x1001000 4 == 0 && (slice u (gslice 0x1001000)).waits.isEmpty)) = true) := by
  decide +kernel
theorem test_memory_free : hasSpare base 0 3 = true ∧ noRoom mb pA = false ∧ (slice mb (gslice pA)).waits = [] ∧ (slice mb (gslice pA)).fills = [] ∧ spareFree base 0 ≠ 0 ∧ spareIn base 0 ≠ [] ∧
    ¬ 4096 ≤ regF base (pgHbm 0) 0x084 31 16 := by decide +kernel
theorem test_sound : Sound base ∧ Sound mb ∧ Sound ts := ⟨sound_of _ (by decide) rfl, sound_of _ (by decide) rfl, sound_of _ (by decide) rfl⟩
theorem test_committing : committing (tc cab) 0 (fun t => t.queue == 0) = false ∧ dieQuiet (tc cab) 0 (fun w => w.launch.queue == 5) (fun x => x.q == 5) = true := by decide
theorem test_debug_free : dbgBusy mb = false ∧ lineHeld mb pA = false ∧ inService base pgSec = true ∧ inService base (pgGde 0) = true ∧ hostBusy base = false := by decide
/-- A debug read of a held line waits. -/
theorem test_debug_waits : (let s := setRegF (setReg (xc .committed) pgDbg 0x0A0 0x1000) pgSec 0x098 7 0 4
    after (.dbgMemRead p0 0 (2 ^ 16)) s (fun t => dbgBusy t) = true) := by decide +kernel
/-- A host access behind a posted write that is not performed waits, and an idle step performs it when nothing is before it. -/
theorem test_hostQueue : (let s : State := { base with reqs := [{ id := 0, k := { pkt0 with stream := strWindow }, owner := .none }], nextReq := 1 }
    hostBusy s = true ∧ after (.regWrite p0 0 (4096 * pgTile 1 + 0x088) 4 16) s (fun t => t.hostQ.length == 1) = true ∧
    after (.regWrite p0 0 (4096 * pgTile 1 + 0x088) 4 16) s (fun t => match step { t with reqs := [] } with
      | .next u => u.hostQ.isEmpty && regF u (pgTile 1) 0x088 9 0 == 16
      | _ => false) = true) := by decide +kernel

end Sys2Proof.Tests
end

