-- ==== Sys2Proof/Proofs/MemFrom.lean ====
section
/-!
SUPPORT. How a function of the model leaves memory: `MemFrom w s t` says that `t` keeps the canonical form of memory when `s`
has it, and, where `w` is false, that memory and what was written to the host are those of `s`. It passes along every
composition of the model's functions, so each function gets one lemma: from `MemFrom w s0 s` to its result on `s`.
-/
namespace Sys2Proof.Laws
open Sys2Proof.Machine Sys2Proof.Safety

/-- From `s` to `t` memory stays canonical; with `w = false` memory and the host's bytes are the same. -/
structure MemFrom (w : Bool) (s t : State) : Prop where
  inv  : MemInv s → MemInv t
  same : w = false → t.ram = s.ram ∧ t.host = s.host

/-- `MemFrom` of the next state of an outcome, if it has one. -/
def MemOut (w : Bool) (s : State) : Out → Prop
  | .next t => MemFrom w s t
  | _ => True

/-- `MemFrom` of the state after a gathering of lines. -/
def MemGot (w : Bool) (s : State) : Got → Prop
  | .wait t => MemFrom w s t
  | .fail _ t => MemFrom w s t
  | .got _ t => MemFrom w s t

/-- `MemFrom` of a state that may be absent. -/
def MemOpt (w : Bool) (s : State) : Option State → Prop
  | some t => MemFrom w s t
  | none => True

/-- `MemFrom` of the state after a memory slot. -/
def MemRes (w : Bool) (s : State) : MRes → Prop
  | .ok t => MemFrom w s t
  | .fault _ _ _ _ _ _ t => MemFrom w s t
  | .notReady => True

variable {w : Bool} {s0 s t a b : State} {α β γ : Type}

theorem MemFrom.refl (s : State) : MemFrom w s s := ⟨id, fun _ => ⟨rfl, rfl⟩⟩

/-- A change to anything but memory and the host's bytes. -/
theorem MemFrom.upd (h : MemFrom w s0 s) (hr : t.ram = s.ram := by with_reducible rfl)
    (hh : t.host = s.host := by with_reducible rfl) : MemFrom w s0 t := by
  refine ⟨fun k => ?_, fun k => ?_⟩
  · obtain ⟨hram, hhost⟩ := h.inv k
    exact ⟨hr ▸ hram, hh ▸ hhost⟩
  · obtain ⟨hram, hhost⟩ := h.same k
    exact ⟨hr.trans hram, hh.trans hhost⟩

/-- A change to memory that keeps its form. -/
theorem MemFrom.writes (h : MemFrom true s0 s) (hr : s.ram.wf = true → t.ram.wf = true)
    (hh : cellsOk s.host = true → cellsOk t.host = true) : MemFrom true s0 t := by
  refine ⟨fun k => ?_, nofun⟩
  obtain ⟨hram, hhost⟩ := h.inv k
  exact ⟨hr hram, hh hhost⟩

/-! The state among the results of a function: taken out of a tuple, put into one. -/

theorem MemFrom.of_pair {p : α × State} {x : α} (h : MemFrom w s0 p.2) (e : p = (x, t)) : MemFrom w s0 t := by
  subst e
  exact h

theorem MemFrom.of_pair1 {p : State × α} {x : α} (h : MemFrom w s0 p.1) (e : p = (t, x)) : MemFrom w s0 t := by
  subst e
  exact h

theorem MemFrom.of_pair22 {p : α × β × State} {x : α} {y : β} (h : MemFrom w s0 p.2.2) (e : p = (x, y, t)) : MemFrom w s0 t := by
  subst e
  exact h

theorem MemGot.of_eq {g g' : Got} (h : MemGot w s0 g) (e : g = g') : MemGot w s0 g' := e ▸ h
theorem MemOpt.of_eq {o o' : Option State} (h : MemOpt w s0 o) (e : o = o') : MemOpt w s0 o' := e ▸ h
theorem MemRes.of_eq {r r' : MRes} (h : MemRes w s0 r) (e : r = r') : MemRes w s0 r' := e ▸ h

theorem MemFrom.pair {x : α} (h : MemFrom w s0 s) : MemFrom w s0 (x, s).2 := h
theorem MemFrom.pair1 {x : α} (h : MemFrom w s0 s) : MemFrom w s0 (s, x).1 := h
theorem MemFrom.pair22 {x : α} {y : β} (h : MemFrom w s0 s) : MemFrom w s0 (x, y, s).2.2 := h
theorem MemFrom.next (h : MemFrom w s0 s) : MemOut w s0 (.next s) := h
theorem MemOut.fault {f : Fault} : MemOut w s0 (.fault f) := trivial

/-! Branches: both ends given, or both as steps from the state before (`ifs`, with `opt` and `optElse` where one of them is
that state). The suffixes name the component of a tuple. -/

section
variable {c : Prop} {_ : Decidable c}

theorem MemFrom.ite (ha : MemFrom w s0 a) (hb : MemFrom w s0 b) : MemFrom w s0 (if c then a else b) := by
  split <;> assumption

theorem MemFrom.ifs (h : MemFrom w s0 s) (ha : MemFrom w s0 s → MemFrom w s0 a) (hb : MemFrom w s0 s → MemFrom w s0 b) :
    MemFrom w s0 (if c then a else b) := .ite (ha h) (hb h)

theorem MemFrom.opt (h : MemFrom w s0 s) (ha : MemFrom w s0 s → MemFrom w s0 a) : MemFrom w s0 (if c then a else s) :=
  .ite (ha h) h

theorem MemFrom.optElse (h : MemFrom w s0 s) (hb : MemFrom w s0 s → MemFrom w s0 b) : MemFrom w s0 (if c then s else b) :=
  .ite h (hb h)

theorem MemFrom.ite_1 {a b : State × α} (ha : MemFrom w s0 a.1) (hb : MemFrom w s0 b.1) : MemFrom w s0 (if c then a else b).1 := by
  split <;> assumption

theorem MemFrom.ite_2 {a b : α × State} (ha : MemFrom w s0 a.2) (hb : MemFrom w s0 b.2) : MemFrom w s0 (if c then a else b).2 := by
  split <;> assumption

theorem MemFrom.ifs_2 {a b : α × State} (h : MemFrom w s0 s) (ha : MemFrom w s0 s → MemFrom w s0 a.2)
    (hb : MemFrom w s0 s → MemFrom w s0 b.2) : MemFrom w s0 (if c then a else b).2 := .ite_2 (ha h) (hb h)

theorem MemFrom.ite_22 {a b : α × β × State} (ha : MemFrom w s0 a.2.2) (hb : MemFrom w s0 b.2.2) :
    MemFrom w s0 (if c then a else b).2.2 := by
  split <;> assumption

theorem MemFrom.ifs_22 {a b : α × β × State} (h : MemFrom w s0 s) (ha : MemFrom w s0 s → MemFrom w s0 a.2.2)
    (hb : MemFrom w s0 s → MemFrom w s0 b.2.2) : MemFrom w s0 (if c then a else b).2.2 := .ite_22 (ha h) (hb h)

theorem MemOut.ite {a b : Out} (ha : MemOut w s0 a) (hb : MemOut w s0 b) : MemOut w s0 (if c then a else b) := by
  split <;> assumption

theorem MemRes.ite {a b : MRes} (ha : MemRes w s0 a) (hb : MemRes w s0 b) : MemRes w s0 (if c then a else b) := by
  split <;> assumption

end

/-! Loops: `g` picks the state out of what the loop carries. -/

theorem MemFrom.foldlOf {f : β → α → β} {p : β} {xs : List α} (g : β → State) (h : MemFrom w s0 (g p))
    (hf : ∀ p x, MemFrom w s0 (g p) → MemFrom w s0 (g (f p x))) : MemFrom w s0 (g (xs.foldl f p)) := by
  induction xs generalizing p with
  | nil => exact h
  | cons x xs ih => exact ih (hf p x h)

theorem MemFrom.foldl {f : State → α → State} {xs : List α} (h : MemFrom w s0 s)
    (hf : ∀ s x, MemFrom w s0 s → MemFrom w s0 (f s x)) : MemFrom w s0 (xs.foldl f s) := .foldlOf id h hf

theorem MemFrom.foldl_1 {p : State × α} {f : State × α → γ → State × α} {xs : List γ} (h : MemFrom w s0 p.1)
    (hf : ∀ p x, MemFrom w s0 p.1 → MemFrom w s0 (f p x).1) : MemFrom w s0 (xs.foldl f p).1 := .foldlOf Prod.fst h hf

theorem MemFrom.foldl_2 {p : α × State} {f : α × State → γ → α × State} {xs : List γ} (h : MemFrom w s0 p.2)
    (hf : ∀ p x, MemFrom w s0 p.2 → MemFrom w s0 (f p x).2) : MemFrom w s0 (xs.foldl f p).2 := .foldlOf Prod.snd h hf

theorem MemFrom.foldl_22 {p : α × β × State} {f : α × β × State → γ → α × β × State} {xs : List γ} (h : MemFrom w s0 p.2.2)
    (hf : ∀ p x, MemFrom w s0 p.2.2 → MemFrom w s0 (f p x).2.2) : MemFrom w s0 (xs.foldl f p).2.2 := .foldlOf (fun p : α × β × State => p.2.2) h hf

end Sys2Proof.Laws
end

