-- ==== Sys2Proof/Proofs/MemTiles.lean ====
section
/-!
SUPPORT. `MemFrom` along the functions of tiles: state updates, fabric requests, memory, translation, groups, issue, threads and parking.
-/
namespace Sys2Proof.Laws
open Sys2Proof.Machine Sys2Proof.Safety

-- Elaborated side by side, so many small lemmas ask for more threads than the memory limit allows.
set_option Elab.async false

variable {w : Bool} {s0 s t : State} {α β : Type}

/-! Updates of pages, registers, tiles and groups. -/

theorem MemFrom.takeFree (h : MemFrom w s0 s) : MemFrom w s0 (takeFree s).2 := h.upd rfl rfl

theorem MemFrom.setBlk {pg b} (h : MemFrom w s0 s) : MemFrom w s0 (setBlk s pg b) := h.upd rfl rfl

theorem MemFrom.modBlk {pg f} (h : MemFrom w s0 s) : MemFrom w s0 (modBlk s pg f) := h.setBlk

theorem MemFrom.settle {pg work} (h : MemFrom w s0 s) : MemFrom w s0 (settle s pg work) := h.modBlk

theorem MemFrom.tickLic {pg} (h : MemFrom w s0 s) : MemFrom w s0 (tickLic s pg) := by
  unfold Machine.tickLic
  exact h.takeFree.modBlk

theorem MemFrom.bumpSteps {pg k} (h : MemFrom w s0 s) : MemFrom w s0 (bumpSteps s pg k) := h.modBlk

theorem MemFrom.setReg {pg off w'} (h : MemFrom w s0 s) : MemFrom w s0 (setReg s pg off w') := h.modBlk

theorem MemFrom.setRegF {pg off hi lo v} (h : MemFrom w s0 s) : MemFrom w s0 (setRegF s pg off hi lo v) := h.setReg

theorem MemFrom.bumpF {pg off hi lo k} (h : MemFrom w s0 s) : MemFrom w s0 (bumpF s pg off hi lo k) := h.setRegF

theorem MemFrom.setRegPair {pg off v} (h : MemFrom w s0 s) : MemFrom w s0 (setRegPair s pg off v) := h.setReg.setReg

theorem MemFrom.raise {e} (h : MemFrom w s0 s) : MemFrom w s0 (raise s e) := h.upd rfl rfl

theorem MemFrom.cardPut {kind unit v} (h : MemFrom w s0 s) : MemFrom w s0 (cardPut s kind unit v) := h.upd rfl rfl

theorem MemFrom.cairnTrigger {src btype} (h : MemFrom w s0 s) : MemFrom w s0 (cairnTrigger s src btype) := by
  unfold Machine.cairnTrigger
  split
  · exact h
  · exact h.setReg.upd.raise

theorem MemFrom.setTile {t x} (h : MemFrom w s0 s) : MemFrom w s0 (setTile s t x) := h.upd rfl rfl

theorem MemFrom.modTile {t f} (h : MemFrom w s0 s) : MemFrom w s0 (modTile s t f) := h.setTile

theorem MemFrom.perfCount {t ev k} (h : MemFrom w s0 s) : MemFrom w s0 (perfCount s t ev k) :=
  h.opt fun h => h.foldl fun _ _ h => h.opt (·.modTile)

theorem MemFrom.errSet {pg bit addr} (h : MemFrom w s0 s) : MemFrom w s0 (errSet s pg bit addr) :=
  h.setBlk.optElse fun h => (h.opt (·.cairnTrigger)).upd

theorem MemFrom.regErr {pg bit off} (h : MemFrom w s0 s) : MemFrom w s0 (regErr s pg bit off) := h.errSet

theorem MemFrom.injFire {pg due} (h : MemFrom w s0 s) : MemFrom w s0 (injFire s pg due) := h.modBlk

theorem MemFrom.injReal {pg bit} (h : MemFrom w s0 s) : MemFrom w s0 (injReal s pg bit) := h.modBlk

theorem MemFrom.opStart {pg opc kind arg who} (h : MemFrom w s0 s) : MemFrom w s0 (opStart s pg opc kind arg who) := h.modBlk

theorem MemFrom.opEnd {pg res val} (h : MemFrom w s0 s) : MemFrom w s0 (opEnd s pg res val) := h.modBlk.opt (·.errSet)

/-! Ports and requests. -/

theorem MemFrom.setEpoch {e} (h : MemFrom w s0 s) : MemFrom w s0 (setEpoch s e) := h.setRegPair

theorem MemFrom.setPort {p x} (h : MemFrom w s0 s) : MemFrom w s0 (setPort s p x) := h.upd rfl rfl

theorem MemFrom.modPort {p f} (h : MemFrom w s0 s) : MemFrom w s0 (modPort s p f) := h.setPort

theorem MemFrom.setLink {p st} (h : MemFrom w s0 s) : MemFrom w s0 (setLink s p st) := h.setRegF

theorem MemFrom.sendOn {p k req} (h : MemFrom w s0 s) : MemFrom w s0 (sendOn s p k req) := h.ifs (·.modPort) (·.modPort)

theorem MemFrom.pumpPort {n p} (h : MemFrom w s0 s) : MemFrom w s0 (pumpPort n s p) := by
  induction n generalizing s with
  | zero => exact h
  | succ n ih =>
    unfold Machine.pumpPort
    split
    · exact h
    · exact h.opt fun h => ih h.modPort

theorem MemFrom.pump {p} (h : MemFrom w s0 s) : MemFrom w s0 (pump s p) := h.pumpPort

theorem MemFrom.emit {p c} (h : MemFrom w s0 s) : MemFrom w s0 (emit s p c) := h.modPort

theorem MemFrom.runTake {stream dst} (h : MemFrom w s0 s) : MemFrom w s0 (runTake s stream dst).2.2 := by
  unfold Machine.runTake
  split
  · exact h.upd.pair22
  · exact h.takeFree.upd

theorem MemFrom.runAnswered {stream dst} (h : MemFrom w s0 s) : MemFrom w s0 (runAnswered s stream dst) := by
  unfold Machine.runAnswered
  split
  · exact h.ifs (·.upd) (·.upd)
  · exact h

theorem MemFrom.modReq {id f} (h : MemFrom w s0 s) : MemFrom w s0 (modReq s id f) := h.upd rfl rfl

theorem MemFrom.delReq {id} (h : MemFrom w s0 s) : MemFrom w s0 (delReq s id) := h.upd rfl rfl

theorem MemFrom.holdAnswer {a} (h : MemFrom w s0 s) : MemFrom w s0 (holdAnswer s a) := h.upd rfl rfl

theorem MemFrom.answer {k status operand data mark isData} (h : MemFrom w s0 s) :
    MemFrom w s0 (answer s k status operand data mark isData) := by
  unfold Machine.answer
  dsimp only
  split
  · exact h
  · split
    · exact h.holdAnswer
    · exact h.sendOn

theorem MemFrom.mirrorGone {m} (h : MemFrom w s0 s) : MemFrom w s0 (mirrorGone s m) := h.optElse (·.upd.raise)

theorem MemFrom.relayEnd {o res cause data mark} (h : MemFrom w s0 s) : MemFrom w s0 (relayEnd s o res cause data mark) := by
  unfold Machine.relayEnd
  split
  · exact h.answer
  · exact h

theorem MemFrom.endReq {id res0 cause} (h : MemFrom w s0 s) : MemFrom w s0 (endReq s id res0 cause) := by
  unfold Machine.endReq
  split
  · exact h
  · split
    · exact h
    · extract_lets gone res s1 s2 s3 bit s4 s5 s6
      have h1 : MemFrom w s0 s1 := by
        unfold s1
        split
        · exact h.opt (·.mirrorGone)
        · exact h
      have h2 : MemFrom w s0 s2 := h1.modReq
      have h3 : MemFrom w s0 s3 := h2.opt (·.runAnswered)
      have h4 : MemFrom w s0 s4 := h3.opt (·.upd)
      have h5 : MemFrom w s0 s5 := h4.opt (·.raise.errSet)
      have h6 : MemFrom w s0 s6 := h5.relayEnd
      clear_value gone res s1 s2 s3 bit s4 s5 s6
      exact h6.opt (·.delReq)

theorem MemFrom.trySend {id} (h : MemFrom w s0 s) : MemFrom w s0 (trySend s id) := by
  unfold Machine.trySend
  split
  · exact h
  next r _ =>
    refine h.ifs (fun h => h) fun h => h.ifs (·.endReq) fun h => h.ifs (fun h => h) fun h => h.ifs (·.endReq) fun h => h.optElse fun h => ?_
    split
    · exact h
    · refine h.ifs (·.delReq.sendOn) fun h => ?_
      split
      next e =>
      have numbered := e ▸ h.ifs_22 (fun h => h) fun h => .ifs_22 h (fun h => h) (·.runTake)
      exact (((MemFrom.modReq numbered).opt (·.upd)).opt (·.bumpF)).sendOn

theorem MemFrom.trySendAll (h : MemFrom w s0 s) : MemFrom w s0 (trySendAll s) := h.foldl fun _ _ h => h.trySend

theorem MemFrom.sendMir {k owner mir} (h : MemFrom w s0 s) : MemFrom w s0 (sendMir s k owner mir) := h.upd.trySend

theorem MemFrom.sendReq {k owner} (h : MemFrom w s0 s) : MemFrom w s0 (sendReq s k owner) := h.sendMir

theorem MemFrom.delReqs {ids} (h : MemFrom w s0 s) : MemFrom w s0 (delReqs s ids) := h.upd rfl rfl

/-! Memory and the L2. -/

theorem MemFrom.setMark {pa} (h : MemFrom true s0 s) : MemFrom true s0 (setMark s pa) :=
  h.writes (ram_wf_setMark s pa) id

theorem clrMark_host (s : State) (pa : Nat) : (clrMark s pa).host = s.host := by
  unfold clrMark
  simp only
  split <;> split <;> rfl

theorem MemFrom.clrMark {pa} (h : MemFrom true s0 s) : MemFrom true s0 (clrMark s pa) :=
  h.writes (ram_wf_clrMark s pa) (clrMark_host s pa ▸ id)

theorem MemFrom.setSlice {g x} (h : MemFrom w s0 s) : MemFrom w s0 (setSlice s g x) := h.upd rfl rfl

theorem MemFrom.dropMark {line} (h : MemFrom true s0 s) :
    MemFrom true s0 { s with ram := { s.ram with marks := tdel s.ram.marks line } } := by
  refine h.writes (fun k => ?_) (fun k => k)
  obtain ⟨h1, h2, h3, h4⟩ := (ram_wf_iff _).1 k
  exact (ram_wf_iff _).2 ⟨h1, tabOk_tdel _ h2, h3, h4⟩

theorem MemFrom.dropClean {x key} (h : MemFrom true s0 s) : MemFrom true s0 (dropClean s x key) := by
  unfold Machine.dropClean
  split
  · split
    · exact h.setMark
    · exact h.dropMark
    · exact h
  · exact h

theorem MemFrom.displace {g key} (h : MemFrom true s0 s) : MemFrom true s0 (displace s g key) := h.optElse (·.takeFree.dropClean.setSlice)

theorem MemFrom.hbmRead {pa} (h : MemFrom true s0 s) : MemFrom true s0 (hbmRead s pa) :=
  h.ifs (·.injFire.bumpF.errSet) (·.opt (·.injFire.bumpF.setMark.errSet))

theorem MemFrom.l2Mark {pa} (h : MemFrom true s0 s) : MemFrom true s0 (l2Mark s pa) := by
  unfold Machine.l2Mark
  refine MemFrom.setMark ?_
  split
  · exact h.setSlice
  · exact h

theorem MemFrom.l2Inject {pa read} (h : MemFrom true s0 s) : MemFrom true s0 (l2Inject s pa read) :=
  h.ifs (·.injFire.bumpF.errSet) (·.ifs (·.injFire.bumpF.errSet) (·.opt (·.injFire.l2Mark.errSet)))

theorem MemFrom.l2Alloc {g set l} (h : MemFrom true s0 s) : MemFrom true s0 (l2Alloc s g set l) := by
  unfold Machine.l2Alloc
  dsimp only
  split
  · exact h
  · split
    · exact h.setSlice
    · exact h.takeFree.displace.setSlice

theorem MemFrom.l2Hit {g set w' slot write} (h : MemFrom true s0 s) : MemFrom true s0 (l2Hit s g set w' slot write) := by
  unfold Machine.l2Hit
  extract_lets key s1
  have h1 : MemFrom true s0 s1 := h.dropClean
  clear_value key s1
  split
  · exact h
  · exact .ite (h.setSlice) (h1.setSlice)

theorem MemFrom.l2Touch {pa write slot fill} (h : MemFrom true s0 s) : MemFrom true s0 (l2Touch s pa write slot fill) := by
  unfold Machine.l2Touch
  dsimp only
  split
  · exact h.setSlice.opt (·.hbmRead)
  · split
    · exact (h.setSlice.l2Inject.opt (·.hbmRead)).l2Hit
    · exact ((h.setSlice.l2Inject.opt (·.hbmRead)).opt (·.bumpF)).l2Alloc

theorem MemFrom.touchRead {slot pa} (h : MemFrom true s0 s) : MemFrom true s0 (touchRead s slot pa) := h.l2Touch

theorem MemFrom.touchDests {slot ds} (h : MemFrom true s0 s) : MemFrom true s0 (touchDests s slot ds) := by
  unfold Machine.touchDests
  refine MemFrom.foldl ?_ fun s x h => ?_
  · exact h
  · split
    · exact h.touchRead
    · exact h.touchRead
    · exact h

theorem MemFrom.setBel {d b} (h : MemFrom w s0 s) : MemFrom w s0 (setBel s d b) := h.upd rfl rfl

theorem MemFrom.sendNotice {d e} (h : MemFrom w s0 s) : MemFrom w s0 (sendNotice s d e) := by
  unfold Machine.sendNotice
  split
  · exact h.raise
  · exact h.ifs (·.errSet) (·.sendReq)
  · exact h.setBel

theorem MemFrom.notifyWatch {d w' status value} (h : MemFrom w s0 s) : MemFrom w s0 (notifyWatch s d w' status value) :=
  (h.ifs (·.bumpF) (·.bumpF)).ifs (·.sendNotice) (·.setBel)

theorem MemFrom.watchFailed {r res} (h : MemFrom w s0 s) : MemFrom w s0 (watchFailed s r res) := by
  unfold Machine.watchFailed
  split
  · split
    · exact h
    · extract_lets b s1
      have h1 : MemFrom w s0 s1 := h.setBel
      clear_value b s1
      split
      · exact h1.notifyWatch
      · split
        · exact h1.takeFree.notifyWatch
        · exact h1.upd
        · exact h1
  · exact h

theorem MemFrom.watchSweep (h : MemFrom w s0 s) : MemFrom w s0 (watchSweep s) := by
  unfold Machine.watchSweep
  refine MemFrom.foldl ?_ fun s x h => ?_
  · exact h
  · split
    · exact h.optElse (·.watchFailed)
    · exact h

theorem MemFrom.retryAll (h : MemFrom w s0 s) : MemFrom w s0 (retryAll s) := h.trySendAll.watchSweep

theorem MemFrom.endWatch {d w' status} (h : MemFrom w s0 s) : MemFrom w s0 (endWatch s d w' status) := h.setBel.notifyWatch

theorem MemFrom.entryError {d w'} (h : MemFrom w s0 s) : MemFrom w s0 (entryError s d w') :=
  h.takeFree.takeFree.setBel.errSet.cardPut.opt (·.notifyWatch)

theorem MemFrom.belInject {d ws} (h : MemFrom w s0 s) : MemFrom w s0 (belInject s d ws) := by
  unfold Machine.belInject
  split
  · exact h
  · exact h.ifs (·.injFire) (·.opt (·.injFire.entryError))

theorem MemFrom.evalWatches {d sel} (h : MemFrom w s0 s) : MemFrom w s0 (evalWatches s d sel) :=
  h.belInject.optElse fun h => (h.foldl fun _ _ h => h.errSet).setBel.foldl fun _ _ h => h.endWatch

theorem MemFrom.evalLine {pa} (h : MemFrom w s0 s) : MemFrom w s0 (evalLine s pa) := h.opt (·.evalWatches)

theorem MemFrom.endResv {pa own} (h : MemFrom w s0 s) : MemFrom w s0 (endResv s pa own) := h.upd rfl rfl

theorem MemFrom.ramWrite {k line bytes} (h : MemFrom true s0 s) : MemFrom true s0 { s with ram := s.ram.write k line bytes } :=
  h.writes (ram_wf_write k line bytes) (fun k => k)

theorem MemFrom.lineStore {slot pa bytes mark own whole} (h : MemFrom true s0 s) :
    MemFrom true s0 (lineStore s slot pa bytes mark own whole) :=
  h.ifs (·.bumpF) fun h => ((h.ramWrite.opt (·.clrMark)).opt (·.setMark)).l2Touch.endResv.evalLine

theorem MemFrom.lineWrite {slot pa bytes mark own} (h : MemFrom true s0 s) : MemFrom true s0 (lineWrite s slot pa bytes mark own) :=
  h.lineStore

theorem MemFrom.lineWriteN {slot a n v} (h : MemFrom true s0 s) : MemFrom true s0 (lineWriteN s slot a n v) := h.lineWrite

theorem MemFrom.physWrite {slot a bs} (h : MemFrom true s0 s) : MemFrom true s0 (physWrite s slot a bs) := h.foldl fun _ _ h => h.lineWrite

theorem MemFrom.lineAtomic {slot a kind x y} (h : MemFrom true s0 s) : MemFrom true s0 (lineAtomic s slot a kind x y).2 := h.lineWriteN

theorem MemFrom.lineSignal {slot a amount} (h : MemFrom true s0 s) : MemFrom true s0 (lineSignal s slot a amount) :=
  (h.opt (·.errSet)).lineWriteN

theorem MemFrom.lineReduce {slot pa addends mark} (h : MemFrom true s0 s) : MemFrom true s0 (lineReduce s slot pa addends mark) :=
  h.lineStore

theorem MemFrom.setTxg {i t} (h : MemFrom w s0 s) : MemFrom w s0 (setTxg s i t) := h.upd rfl rfl

theorem MemFrom.txgAbort {i cause} (h : MemFrom w s0 s) : MemFrom w s0 (txgAbort s i cause) := by
  unfold Machine.txgAbort
  extract_lets t s1 s2
  have h1 : MemFrom w s0 s1 := h.setTxg
  have h2 : MemFrom w s0 s2 := h1.bumpF
  clear_value t s1 s2
  split
  · split
    · exact h2.upd
    · exact h2
  · exact h

theorem MemFrom.stageWrite {h' space slot pa bytes mark kindOk} (h : MemFrom true s0 s) :
    MemFrom true s0 (stageWrite s h' space slot pa bytes mark kindOk) :=
  h.ifs (·.bumpF.errSet) fun h => h.ifs (·.txgAbort) fun h => h.ifs (·.txgAbort) fun h => h.ifs (·.txgAbort.errSet) fun h => h.ifs
    (·.injFire.txgAbort.errSet) fun h => (h.optElse (·.displace)).setTxg

theorem MemFrom.installLine {line l} (h : MemFrom true s0 s) : MemFrom true s0 (installLine s line l) := h.lineWrite

theorem MemFrom.watchFull {d} (h : MemFrom w s0 s) : MemFrom w s0 (watchFull s d) := h.optElse (·.setBel.errSet)

theorem MemFrom.decideWatch {d w'} (h : MemFrom w s0 s) : MemFrom w s0 (decideWatch s d w') :=
  h.ifs (·.notifyWatch) (·.ifs (·.notifyWatch) (·.setBel))

theorem MemFrom.registerWatch {d w'} (h : MemFrom w s0 s) : MemFrom w s0 (registerWatch s d w') :=
  h.setBel.ifs (·.setBel) (·.ifs (·.decideWatch) (·.ifs (·.setBel.watchFull) (·.ifs (·.setBel) (·.decideWatch))))

/-! Translation. -/

theorem MemFrom.walk {die space va} (h : MemFrom w s0 s) : MemFrom w s0 (walk s die space va).2 := by
  unfold Machine.walk
  extract_lets slot act base count s1 seen next
  have h1 : MemFrom w s0 s1 := h.bumpF
  clear_value slot act base count s1 seen next
  split
  · exact h1.errSet.pair
  · split
    · exact h1.pair
    · split
      · exact h1.errSet.pair
      · split
        · exact h1.pair
        · split
          · exact h1.pair
          · split
            · exact h1.errSet.pair
            · exact h1.pair

theorem MemFrom.cachePut {ag e} (h : MemFrom w s0 s) : MemFrom w s0 (cachePut s ag e) := h.upd rfl rfl

theorem MemFrom.cacheParity {die space va} (h : MemFrom w s0 s) : MemFrom w s0 (cacheParity s die space va) := h.opt (·.upd.injFire.errSet)

theorem MemFrom.ownMiss {ag} (h : MemFrom w s0 s) : MemFrom w s0 (ownMiss s ag) := h.opt (·.perfCount)

theorem MemFrom.lookup {ag die space va} (h : MemFrom w s0 s) : MemFrom w s0 (lookup s ag die space va).2 := by
  unfold Machine.lookup
  dsimp only
  split
  · exact (h.opt (·.cacheParity)).cachePut.pair
  · split
    · exact ((h.opt (·.cacheParity)).optElse (·.ownMiss.cacheParity)).cachePut.cachePut.pair
    · split
      · rename_i s1 e1
        have h1 := ((h.opt (·.cacheParity)).optElse (·.ownMiss.cacheParity)).bumpF.walk.of_pair e1
        exact h1.cachePut.cachePut.pair
      · exact ((h.opt (·.cacheParity)).optElse (·.ownMiss.cacheParity)).bumpF.walk

theorem MemFrom.translate {ag die space va a host} (h : MemFrom w s0 s) : MemFrom w s0 (translate s ag die space va a host).2 := by
  unfold Machine.translate
  split
  · exact h.pair
  · split
    · exact h.pair
    · split
      · rename_i s1 e1
        have h1 := h.lookup.of_pair e1
        exact h1.pair
      · split
        · rename_i s1 e1 _ _ _
          have h1 := h.lookup.of_pair e1
          exact h1.pair
        · rename_i s1 e1 _ _
          have h1 := h.lookup.of_pair e1
          exact h1.pair

theorem MemFrom.translateEach {ag die space a host vas} (h : MemFrom w s0 s) :
    MemFrom w s0 (translateEach s ag die space a host vas).2 := by
  induction vas generalizing s with
  | nil => exact h
  | cons va t ih =>
    unfold Machine.translateEach
    split
    · next e => exact ih (h.translate.of_pair e)
    · next e => exact ih (h.translate.of_pair e)

theorem MemFrom.mergeWalks {s' ag die space vas} (h : MemFrom w s0 s) : MemFrom w s0 (mergeWalks s' s ag die space vas) :=
  h.optElse (·.takeFree.bumpF)

theorem MemFrom.translateAll {ag die space a host vas} (h : MemFrom w s0 s) : MemFrom w s0 (translateAll s ag die space a host vas).2 :=
  h.translateEach.mergeWalks

theorem MemFrom.countXltFault {die o} (h : MemFrom w s0 s) : MemFrom w s0 (countXltFault s die o) := h.optElse (·.bumpF)

theorem MemFrom.translateRuns {ag die space a host runs} (h : MemFrom w s0 s) : MemFrom w s0 (translateRuns s ag die space a host runs).2 :=
  h.translateAll

theorem MemFrom.askVirt {ag space va k} (h : MemFrom w s0 s) : MemFrom w s0 (askVirt s ag space va k).2 := h.optElse (·.sendReq)

theorem MemFrom.dropVirt {ag} (h : MemFrom w s0 s) : MemFrom w s0 (dropVirt s ag) := h.upd rfl rfl

theorem MemFrom.askLines {ag space xs} (h : MemFrom w s0 s) : MemFrom w s0 (askLines s ag space xs).2 := by
  fun_induction Machine.askLines s ag space xs with
  | case1 => exact h
  | case2 s l g ord t r s1 e rs s2 e' ih => exact (e' ▸ ih (h.askVirt.of_pair e)).pair
  | case3 s x t hx ih => exact ih h

theorem MemFrom.readVirt {ag die space va n a} (h : MemFrom true s0 s) : MemFrom true s0 (readVirt s ag die space va n a).2 := by
  unfold Machine.readVirt
  split
  · dsimp only
    split
    · rename_i s1 e1 _
      have h1 := h.translateRuns.of_pair e1
      exact h1.countXltFault.pair
    · split
      · rename_i s1 e1 _ _
        have h1 := h.translateRuns.of_pair e1
        exact h1.askLines.pair
      · rename_i s1 e1 _ _
        have h1 := h.translateRuns.of_pair e1
        exact h1.askLines.touchDests.delReqs.pair

theorem MemFrom.writeVirt {ag die space va bs mark txg stream owner} (h : MemFrom true s0 s) :
    MemFrom true s0 (writeVirt s ag die space va bs mark txg stream owner).2 := by
  unfold Machine.writeVirt
  split
  · split
    · rename_i s1 e1 _
      have h1 := h.translateRuns.of_pair e1
      exact h1.countXltFault
    · rename_i s1 e1 _
      have h1 := h.translateRuns.of_pair e1
      refine MemFrom.foldl ?_ fun s x h => ?_
      · exact h1
      · split
        · exact h.stageWrite
        · exact h.stageWrite
        · exact h.stageWrite
        · exact h.lineWrite
        · exact h.lineWrite.sendMir
        · exact h.sendMir

theorem MemFrom.lineWriteLate {slot pa bytes} (h : MemFrom true s0 s) : MemFrom true s0 (lineWriteLate s slot pa bytes) :=
  h.ifs (·.setSlice) (·.lineWrite)

theorem MemFrom.writeLate {ag die space va bs stream} (h : MemFrom true s0 s) :
    MemFrom true s0 (writeLate s ag die space va bs stream).2 := by
  unfold Machine.writeLate
  split
  · split
    · rename_i s1 e1 _ _ _ _ _ _
      have h1 := h.translateRuns.of_pair e1
      exact h1.lineWriteLate
    · rename_i s1 e1 _ _ _ _ _ _ _
      have h1 := h.translateRuns.of_pair e1
      exact h1.lineWriteLate.sendMir
    · rename_i s1 e1 _ _ _ _ _ _
      have h1 := h.translateRuns.of_pair e1
      exact h1.sendMir
    · rename_i s1 e1 _ _
      have h1 := h.translateRuns.of_pair e1
      exact h1.countXltFault

theorem MemFrom.atomVirt {ag die space va kind x stream} (h : MemFrom true s0 s) :
    MemFrom true s0 (atomVirt s ag die space va kind x stream).2 := by
  unfold Machine.atomVirt
  dsimp only
  split
  · split
    · rename_i s1 e1
      have h1 := h.translateAll.askVirt.of_pair e1
      exact h1.delReqs.pair
    · rename_i s1 e1
      have h1 := h.translateAll.askVirt.of_pair e1
      exact h1.pair
  · split
    · exact h.translateAll.pair
    · exact h.translateAll.lineAtomic.pair
  · exact h.translateAll.countXltFault.pair

/-! Groups and workgroups. -/

theorem MemFrom.setGroup {t n g} (h : MemFrom w s0 s) : MemFrom w s0 (setGroup s t n g) := h.modTile

theorem MemFrom.modGroup {t n f} (h : MemFrom w s0 s) : MemFrom w s0 (modGroup s t n f) := h.modTile

theorem MemFrom.setWg {t w' g} (h : MemFrom w s0 s) : MemFrom w s0 (setWg s t w' g) := h.modTile

theorem MemFrom.modWg {t w' f} (h : MemFrom w s0 s) : MemFrom w s0 (modWg s t w' f) := h.modTile

theorem MemFrom.unbindForPark {gs} (h : MemFrom w s0 s) : MemFrom w s0 (unbindForPark s gs) := by
  unfold Machine.unbindForPark
  refine MemFrom.foldl ?_ fun s x h => ?_
  · exact h
  · split
    · exact h.opt (·.txgAbort)
    · exact h

theorem MemFrom.regroup {t gs} (h : MemFrom w s0 s) : MemFrom w s0 (regroup s t gs) := h.foldl fun _ _ h => h.opt (·.modGroup)

theorem MemFrom.dropOffers {t ns} (h : MemFrom w s0 s) : MemFrom w s0 (dropOffers s t ns) := h.modTile

theorem MemFrom.endResvs {t ns} (h : MemFrom w s0 s) : MemFrom w s0 (endResvs s t ns) := h.upd rfl rfl

theorem MemFrom.stopGroups {t gs reason} (h : MemFrom w s0 s) : MemFrom w s0 (stopGroups s t gs reason) := h.foldl fun _ _ h => h.modGroup

theorem MemFrom.stopWg {t w' reason} (h : MemFrom w s0 s) : MemFrom w s0 (stopWg s t w' reason) := by
  unfold Machine.stopWg
  split
  · exact h
  · exact h.ifs (·.regroup) fun h => h.optElse fun h => h.ifs (·.modTile.modWg) fun h => h.ifs (·.opt (·.modWg)) fun h => (h.optElse
      (·.unbindForPark)).stopGroups.dropOffers.endResvs.modWg

theorem MemFrom.parkAsked {t w'} (h : MemFrom w s0 s) : MemFrom w s0 (parkAsked s t w') := by
  unfold Machine.parkAsked
  split
  · exact h
  · exact h.optElse (·.stopWg)

theorem MemFrom.groupFault {t n f} (h : MemFrom w s0 s) : MemFrom w s0 (groupFault s t n f) := by
  unfold Machine.groupFault
  split
  · exact h
  · exact h.setGroup.bumpF.stopWg

theorem MemFrom.evalBarrier {t w'} (h : MemFrom w s0 s) : MemFrom w s0 (evalBarrier s t w') := by
  unfold Machine.evalBarrier
  dsimp only
  split
  · exact h
  · exact h.optElse fun h => h.ifs (fun h => h.optElse fun h => (h.foldl fun _ _ h => h.modGroup).modWg) (·.opt (·.bumpF.stopWg))

theorem MemFrom.l1Inval {t} (h : MemFrom w s0 s) : MemFrom w s0 (l1Inval s t) := h.modTile.bumpF

theorem MemFrom.l1Parity {t space vline} (h : MemFrom w s0 s) : MemFrom w s0 (l1Parity s t space vline) :=
  h.opt (·.injFire.modTile.bumpF.errSet)

theorem MemFrom.l1Read {t space slot vline pa} (h : MemFrom true s0 s) : MemFrom true s0 (l1Read s t space slot vline pa).2 := by
  unfold Machine.l1Read
  dsimp only
  split
  · exact h.modTile.pair
  · exact h.touchRead.modTile.pair

theorem MemFrom.prefSweep {t} (h : MemFrom true s0 s) : MemFrom true s0 (prefSweep s t) :=
  h.optElse fun h => h.modTile.foldl fun _ _ h => h.l1Read

theorem MemFrom.countStrict {t strict} (h : MemFrom w s0 s) : MemFrom w s0 (countStrict s t strict) := h.opt (·.bumpF)

theorem MemFrom.takeEnded {d id} (h : MemFrom w s0 s) : MemFrom w s0 (takeEnded s d id) := h.setBel

theorem MemFrom.pwaitDecide {t n} (h : MemFrom w s0 s) : MemFrom w s0 (pwaitDecide s t n) := by
  unfold Machine.pwaitDecide
  split
  · exact h
  · split
    · exact h
    · split
      · exact h
      · dsimp only
        split
        · exact h.ifs (·.takeEnded.setGroup) (·.setGroup.stopWg)
        · exact h.setGroup.stopWg

theorem MemFrom.settleWaits (h : MemFrom w s0 s) : MemFrom w s0 (settleWaits s) := by
  unfold Machine.settleWaits
  refine MemFrom.foldl ?_ fun s x h => ?_
  · exact h
  · refine MemFrom.foldl ?_ fun s x h => ?_
    · exact h
    · exact h.opt (·.pwaitDecide)

/-! Draws of the vector operations. -/

theorem MemFrom.noiseFail {pg} (h : MemFrom w s0 s) : MemFrom w s0 (noiseFail s pg) := (h.optElse (·.upd.modBlk)).bumpF.setRegF

theorem MemFrom.noiseWindow {pg} (h : MemFrom w s0 s) : MemFrom w s0 (noiseWindow s pg) := h.opt (·.injFire.noiseFail)

theorem MemFrom.drawNoise {pg} (h : MemFrom w s0 s) : MemFrom w s0 (drawNoise s pg).2 := by
  unfold Machine.drawNoise
  dsimp only
  split
  · exact h.noiseWindow.pair
  · split
    · exact h.noiseWindow.modBlk.pair
    · exact h.noiseWindow.upd.pair

theorem MemFrom.drawMany {n pg} (h : MemFrom w s0 s) : MemFrom w s0 (drawMany s pg n).2 := by
  induction n generalizing s with
  | zero => exact h
  | succ n ih =>
    unfold Machine.drawMany
    exact (ih h.drawNoise).pair

theorem MemFrom.vExec {t g lit o} (h : MemFrom w s0 s) : MemFrom w s0 (vExec s t g lit o).2 := by
  unfold Machine.vExec
  cases o with
  | vr op d a b => exact .ite_2 h.pair h.pair
  | vx op x d a =>
    refine .ite_2 h.pair (.ite_2 h.pair (.ite_2 h.pair (.ite_2 h.pair (.ite_2 h.pair (.ite_2 h.pair (.ite_2 h.pair
      (.ite_2 h.pair (.ite_2 ?_ (.ite_2 h.pair (.ite_2 (.ite_2 h.pair (.ite_2 h.pair ?_)) h.pair))))))))))
    · split
      next e => exact (MemFrom.of_pair (.ifs_2 h (·.drawMany) (·.pair)) e).pair
    · split
      · exact h.pair
      · exact h.pair

/-! The store buffer and the L1. -/

theorem MemFrom.tstBanks {t rank offs} (h : MemFrom w s0 s) : MemFrom w s0 (tstBanks s t rank offs) := by
  unfold Machine.tstBanks
  dsimp only
  split
  · exact h
  · split
    · exact h.optElse (·.bumpF.perfCount)
    · exact h.takeFree.optElse (·.bumpF.perfCount)

theorem MemFrom.tstWord {t o} (h : MemFrom w s0 s) : MemFrom w s0 (tstWord s t o).2 := by
  unfold Machine.tstWord
  dsimp only
  split
  · exact h.injFire.bumpF.errSet.pair
  · split
    · exact h.injFire.errSet.pair
    · exact h.pair

theorem MemFrom.wgmWord {t w' wg o} (h : MemFrom w s0 s) : MemFrom w s0 (wgmWord s t w' wg o) := by
  unfold Machine.wgmWord
  split
  · rename_i s1 e1
    have h1 := h.tstWord.of_pair e1
    exact h1.modWg
  · rename_i s1 e1
    have h1 := h.tstWord.of_pair e1
    exact h1

theorem MemFrom.wgmWords {t w' wg runs} (h : MemFrom w s0 s) : MemFrom w s0 (wgmWords s t w' wg runs) :=
  h.opt fun h => h.foldl fun _ _ h => h.wgmWord

theorem MemFrom.tstBuf {t} (h : MemFrom w s0 s) : MemFrom w s0 (tstBuf s t).2 := by
  unfold Machine.tstBuf
  split
  · exact h.pair
  · exact h.takeFree.tstWord

theorem MemFrom.loadReqs {t n pid space rtype size resv rq lanes} (h : MemFrom w s0 s) :
    MemFrom w s0 (loadReqs s t n pid space rtype size resv rq lanes).2 :=
  h.foldl_2 fun _ _ h => h.sendReq

theorem MemFrom.loadAsk {t n id} (h : MemFrom w s0 s) : MemFrom w s0 (loadAsk s t n id) := by
  unfold Machine.loadAsk
  split
  · exact h
  · split
    · exact h.optElse (·.loadReqs.optElse (·.modGroup))
    · exact h

/-! Issue. -/

theorem MemFrom.mWork {t n g w0 m} (h : MemFrom w s0 s) : MemRes w s0 (mWork s t n g w0 m) := by
  unfold Machine.mWork
  dsimp only
  split
  · exact h
  · split
    · exact h
    · split
      · exact (h.tstBanks.optElse (·.wgmWords)).setGroup
      · split
        · exact h.tstBanks.setWg.setGroup
        · exact h.tstBanks.wgmWords.setWg.setGroup

theorem MemFrom.pwaitIssue {t n g w' m d} (h : MemFrom w s0 s) : MemFrom w s0 (pwaitIssue s t n g w' m d) := by
  unfold Machine.pwaitIssue
  refine MemFrom.pwaitDecide ?_
  refine MemFrom.setGroup ?_
  split
  · exact h.setBel.sendReq.watchSweep
  · exact h.registerWatch
  · exact h.registerWatch

theorem MemFrom.prefLines {t w' vas} (h : MemFrom true s0 s) : MemFrom true s0 (prefLines s t w' vas) := by
  unfold Machine.prefLines
  refine MemFrom.foldl ?_ fun s x h => ?_
  · exact h
  · split
    · extract_lets s1 home
      have h1 : MemFrom true s0 s1 := by
        unfold s1
        rename_i s2 e2
        have h2 := h.translate.of_pair e2
        exact h2.l1Parity
      clear_value s1
      split
      · exact h1
      · exact h1.ifs (·.modTile) (·.l1Read)
      · exact h1.ifs (·.modTile) (·.l1Read)
      · split
        · exact h1.modTile
        · exact h1.optElse (·.sendReq)

theorem MemFrom.mExec {t n g m} (h : MemFrom true s0 s) : MemRes true s0 (mExec s t n g m) := by
  unfold Machine.mExec
  split
  · trivial
  · refine .ite h.mWork (.ite h.setGroup (.ite h.setGroup (.ite h.setGroup (.ite h.setGroup (.ite ?_ (.ite h (.ite h ?_)))))))
    · split
      exact h.countStrict.optElse (·.prefLines)
    · split
      next e =>
      have h1 := h.translateAll.of_pair e
      split
      · exact h1.countXltFault
      · split
        exact .ite h1.countStrict.pwaitIssue (.ite h1.countStrict.setGroup.loadAsk
          (.ite h1.countStrict.setTile.setGroup h1.countStrict.setTile.setGroup))

theorem MemFrom.aOffer {t n g b a} (h : MemFrom w s0 s) : MemFrom w s0 (aOffer s t n g b a) :=
  h.ifs (·.optElse (·.setTile.setGroup.settle)) (·.optElse (·.setTile.setGroup.settle))

theorem MemFrom.ctlTick {t x2} (h : MemFrom w s0 s) : MemFrom w s0 (ctlTick s t x2) := by
  unfold Machine.ctlTick
  split
  · exact h.tickLic
  · exact h

theorem MemFrom.placeGroup {t n g g' b} (h : MemFrom w s0 s) : MemFrom w s0 (placeGroup s t n g g' b) := h.setGroup.modTile.perfCount

theorem MemFrom.earlyReads {t n g b} (h : MemFrom w s0 s) : MemFrom w s0 (earlyReads s t n g b).2 := by
  unfold Machine.earlyReads
  dsimp only
  split
  · exact h.pair
  · exact h.takeFree.setGroup.pair

theorem MemFrom.applyBundle {t n g b aSerial} (h : MemFrom true s0 s) : MemFrom true s0 (applyBundle s t n g b aSerial) := by
  unfold Machine.applyBundle
  split
  next g' s1 e =>
  have h1 := h.earlyReads.of_pair e
  have hm : MemRes true s0 (match b.m with
      | some m => Machine.mExec s1 t n g' m
      | none => .ok s1) := by
    split
    · exact h1.mExec
    · exact h1
  dsimp only
  split
  · exact h1.perfCount
  next e' =>
    have h2 : MemFrom true s0 _ := hm.of_eq e'
    exact h2.groupFault
  next e' =>
    have h2 : MemFrom true s0 _ := hm.of_eq e'
    split
    · exact h2
    · split
      · exact h2.vExec.ctlTick.placeGroup.opt (·.evalBarrier)
      · exact h2.ctlTick.placeGroup.opt (·.evalBarrier)

theorem MemFrom.trapTrigger {b} (h : MemFrom w s0 s) : MemFrom w s0 (trapTrigger s b) := by
  unfold Machine.trapTrigger
  split
  · exact h.opt (·.cairnTrigger)
  · exact h

theorem MemFrom.impreciseFault {t n code lanes addr raw} (h : MemFrom w s0 s) : MemFrom w s0 (impreciseFault s t n code lanes addr raw) :=
  h.groupFault

theorem MemFrom.regfileRead {t n b} (h : MemFrom w s0 s) : MemFrom w s0 (regfileRead s t n b).2 := by
  unfold Machine.regfileRead
  dsimp only
  split
  · exact h.pair
  · split
    · exact h.injFire.takeFree.errSet.pair
    · split
      · exact h.injFire.takeFree.errSet.impreciseFault.pair
      · exact h.pair

theorem MemFrom.issueBundle {t n g b} (h : MemFrom true s0 s) : MemFrom true s0 (issueBundle s t n g b) := by
  unfold Machine.issueBundle
  split
  · exact h.trapTrigger.groupFault
  · split
    · rename_i s1 e1
      have h1 := h.regfileRead.of_pair e1
      exact h1
    · split
      · rename_i s1 e1 _ _ _
        have h1 := h.regfileRead.of_pair e1
        exact h1.aOffer
      · rename_i s1 e1 _ _
        have h1 := h.regfileRead.of_pair e1
        exact h1.applyBundle.parkAsked

theorem MemFrom.roundTick {t} (h : MemFrom w s0 s) : MemFrom w s0 (roundTick s t) := h.modBlk.modTile.perfCount

theorem MemFrom.roundWaits {t waiting} (h : MemFrom w s0 s) : MemFrom w s0 (roundWaits s t waiting) := h.modTile

theorem MemFrom.roundOne {t n} (h : MemFrom w s0 s) : MemFrom w s0 (roundOne s t n) := h.roundTick.roundWaits

theorem MemFrom.issueOne {r b} (h : MemFrom true s0 s) : MemFrom true s0 (issueOne s r b) := by
  unfold Machine.issueOne
  extract_lets s1
  have h1 : MemFrom true s0 s1 := h.roundOne
  clear_value s1
  split
  · exact h
  · exact .ite (h1.issueBundle) (h)

theorem MemFrom.issueC {r c l0 l1} (h : MemFrom true s0 s) : MemOut true s0 (issueC s r c l0 l1) := h.issueOne.next

theorem MemFrom.issueV {r v lit} (h : MemFrom true s0 s) : MemOut true s0 (issueV s r v lit) := h.issueOne.next

theorem MemFrom.issueM {r m} (h : MemFrom true s0 s) : MemOut true s0 (issueM s r m) := h.issueOne.next

theorem MemFrom.issueA {r a} (h : MemFrom true s0 s) : MemOut true s0 (issueA s r a) := h.issueOne.next

/-! Launches and watches. -/

theorem MemFrom.setQd {q off n v} (h : MemFrom true s0 s) : MemFrom true s0 (setQd s q off n v) := h.lineWriteN

theorem MemFrom.setQState {q st} (h : MemFrom true s0 s) : MemFrom true s0 (setQState s q st) := h.setQd

theorem MemFrom.setQWaiting {q w'} (h : MemFrom true s0 s) : MemFrom true s0 (setQWaiting s q w') := h.setQd

theorem MemFrom.setQlive {q x} (h : MemFrom w s0 s) : MemFrom w s0 (setQlive s q x) := h.upd rfl rfl

theorem MemFrom.modCmd {q n f} (h : MemFrom w s0 s) : MemFrom w s0 (modCmd s q n f) := h.upd rfl rfl

theorem MemFrom.endCmd {q n status info} (h : MemFrom w s0 s) : MemFrom w s0 (endCmd s q n status info) := h.modCmd

theorem MemFrom.modLaunch {q n f} (h : MemFrom w s0 s) : MemFrom w s0 (modLaunch s q n f) := h.upd rfl rfl

theorem MemFrom.takeUnits {t m} (h : MemFrom w s0 s) : MemFrom w s0 (takeUnits s t m).2 := by
  unfold Machine.takeUnits
  split
  · exact h.pair
  · exact h.takeFree

theorem MemFrom.place {t l w' gs} (h : MemFrom w s0 s) : MemFrom w s0 (place s t l w' gs) := by
  unfold Machine.place
  split
  next e =>
  extract_lets w1 first s1 x row x1 x2 id slots ls new groups room s2 eng s3
  have h0 := h.takeUnits.of_pair e
  have h1 : MemFrom w s0 s1 := .ite h0.l1Inval.modLaunch h0
  have h3 : MemFrom w s0 s3 := h1.setTile.upd
  exact h3.settle

theorem MemFrom.releaseWg {t w'} (h : MemFrom w s0 s) : MemFrom w s0 (releaseWg s t w') := by
  unfold Machine.releaseWg
  dsimp only
  split
  · exact h
  · exact h.setTile.upd.settle

theorem MemFrom.setSlotBit {ag die space park i stream v} (h : MemFrom true s0 s) :
    MemFrom true s0 (setSlotBit s ag die space park i stream v).2 := by
  unfold Machine.setSlotBit
  dsimp only
  split
  · rename_i s1 e1
    have h1 := h.atomVirt.of_pair e1
    exact h1.pair
  · rename_i s1 e1
    have h1 := h.atomVirt.of_pair e1
    exact h1.pair
  · rename_i s1 e1
    have h1 := h.atomVirt.of_pair e1
    exact h1.pair

theorem MemFrom.freeSlot {ag die space park i stream} (h : MemFrom true s0 s) :
    MemFrom true s0 (freeSlot s ag die space park i stream) := by
  unfold Machine.freeSlot
  exact h.setSlotBit.upd

theorem MemFrom.parkHeader {ag die space park} (h : MemFrom true s0 s) : MemFrom true s0 (parkHeader s ag die space park).2.2 := by
  unfold Machine.parkHeader
  split
  · rename_i s1 e1
    have h1 := h.readVirt.of_pair e1
    exact h1
  · rename_i s1 _ e1
    have h1 := h.readVirt.of_pair e1
    exact h1.pair22

theorem MemFrom.skipBundle {die space bs} (h : MemFrom true s0 s) : MemFrom true s0 (skipBundle s die space bs).2 := by
  unfold Machine.skipBundle
  split
  · exact h.pair
  · split
    · rename_i s1 e1
      have h1 := h.readVirt.of_pair e1
      exact h1.pair
    · rename_i s1 e1
      have h1 := h.readVirt.of_pair e1
      exact h1.pair
    · rename_i s1 e1
      have h1 := h.readVirt.of_pair e1
      exact h1.pair

/-! Loads, stores and their effects. -/

theorem MemFrom.pickCounts {t p st} (h : MemFrom w s0 s) : MemFrom w s0 (pickCounts s t p st) :=
  (((h.optElse (·.perfCount)).optElse (·.perfCount)).optElse (·.perfCount)).optElse (·.perfCount)

theorem MemFrom.execIssueRound {t} (h : MemFrom true s0 s) : MemOut true s0 (execIssueRound t s) := by
  unfold Machine.execIssueRound
  extract_lets s1 p waiting
  have h1 : MemFrom true s0 s1 := h.roundTick
  clear_value s1 p waiting
  refine MemFrom.next ?_
  split
  · exact h
  · refine MemFrom.foldl ?_ fun s x h => ?_
    · exact h1.roundWaits.pickCounts
    · split
      · exact h
      · exact h.ifs (·.issueBundle) (·.groupFault)

theorem MemFrom.fetchFault {t n code addr cause} (h : MemFrom w s0 s) : MemFrom w s0 (fetchFault s t n code addr cause) := h.groupFault

theorem MemFrom.fetch16 {t n space va} (h : MemFrom true s0 s) : MemFrom true s0 (fetch16 s t n space va).2 := by
  unfold Machine.fetch16
  dsimp only
  split
  · rename_i s1 e1
    have h1 := h.translate.of_pair e1
    exact h1.countXltFault.pair
  · split
    · split
      · rename_i s1 _ _ e1 _
        have h1 := h.translate.of_pair e1
        exact h1.l1Parity.pair
      · rename_i s1 _ _ e1 _
        have h1 := h.translate.of_pair e1
        exact h1.l1Parity.l1Read.pair
    · split
      · rename_i s1 _ _ _ e1 _
        have h1 := h.translate.of_pair e1
        exact h1.l1Parity.pair
      · rename_i s1 _ _ _ e1 _
        have h1 := h.translate.of_pair e1
        exact h1.l1Parity.l1Read.pair
    · split
      · rename_i s1 _ _ e1 _ _ _
        have h1 := h.translate.of_pair e1
        exact h1.l1Parity.modTile.pair
      · split
        · rename_i s1 _ _ e1 _ _ _ _
          have h1 := h.translate.of_pair e1
          exact h1.l1Parity.sendReq.pair
        · split
          · rename_i s1 _ _ e1 _ _ _ _ _ _ _
            have h1 := h.translate.of_pair e1
            exact h1.l1Parity.pair
          · rename_i s1 _ _ e1 _ _ _ _ _ _ _ _
            have h1 := h.translate.of_pair e1
            exact h1.l1Parity.delReq.modTile.pair

theorem MemFrom.execCodeFetch {g} (h : MemFrom true s0 s) : MemOut true s0 (execCodeFetch g s) := by
  unfold Machine.execCodeFetch
  refine MemFrom.next ?_
  split
  · exact h.prefSweep
  · split
    · exact h.prefSweep
    · split
      · exact h.prefSweep
      · split
        · rename_i s1 e1
          have h1 := h.prefSweep.fetch16.of_pair e1
          exact h1.fetchFault
        · rename_i s1 e1
          have h1 := h.prefSweep.fetch16.of_pair e1
          exact h1
        · rename_i s1 e1
          have h1 := h.prefSweep.fetch16.of_pair e1
          split
          · exact h1.fetchFault
          · split
            · split
              · split
                · rename_i s2 e2
                  have h2 := h1.fetch16.of_pair e2
                  exact h2.groupFault
                · rename_i s2 e2
                  have h2 := h1.fetch16.of_pair e2
                  exact h2
                · rename_i s2 e2
                  have h2 := h1.fetch16.of_pair e2
                  exact h2.ifs (·.fetchFault) (·.modGroup)
              · exact h1.modGroup
            · exact h1.modGroup

theorem MemFrom.execLongResult {g id} (h : MemFrom w s0 s) : MemOut w s0 (execLongResult g id s) := by
  unfold Machine.execLongResult
  refine MemFrom.next ?_
  split
  · exact h
  · split
    · exact h.setGroup
    · exact h.setGroup
    · exact h

theorem MemFrom.laneRead {t n space slot id size rtype resv rq l} (h : MemFrom true s0 s) :
    MemFrom true s0 (laneRead s t n space slot id size rtype resv rq l).2 := by
  unfold Machine.laneRead
  dsimp only
  split
  · exact h.pair
  · split
    · split
      · exact h.l1Read.pair
      · exact h.touchRead.pair
    · split
      · exact h.l1Read.pair
      · exact h.touchRead.pair
    · split
      · exact h.modTile.pair
      · split
        · exact (h.opt (·.modTile)).pair
        · exact h.pair

theorem MemFrom.ldrHold {t n id pa} (h : MemFrom w s0 s) : MemFrom w s0 (ldrHold s t n id pa) := h.optElse (·.upd)

theorem MemFrom.ldrSet {t n id pa} (h : MemFrom w s0 s) : MemFrom w s0 (ldrSet s t n id pa) := by
  unfold Machine.ldrSet
  dsimp only
  split
  · exact h.upd
  · exact h.upd

theorem MemFrom.l1Counts {t space lines} (h : MemFrom w s0 s) : MemFrom w s0 (l1Counts s t space lines) :=
  (h.optElse (·.perfCount)).optElse (·.perfCount)

theorem MemFrom.loadParity {t space lines} (h : MemFrom w s0 s) : MemFrom w s0 (loadParity s t space lines) :=
  h.foldl fun _ _ h => h.l1Parity

theorem MemFrom.readLanes {t n space slot id size rtype resv rq lanes} (h : MemFrom true s0 s) :
    MemFrom true s0 (readLanes s t n space slot id size rtype resv rq lanes).2 :=
  h.foldl_2 fun _ _ h => h.laneRead

theorem MemFrom.loadDone {t n wgn id d size raw signed lanes got} (h : MemFrom w s0 s) :
    MemFrom w s0 (loadDone s t n wgn id d size raw signed lanes got) :=
  (h.modGroup.optElse (·.impreciseFault)).evalBarrier

theorem MemFrom.execLoadReturn {g id} (h : MemFrom true s0 s) : MemOut true s0 (execLoadReturn g id s) := by
  unfold Machine.execLoadReturn
  refine MemFrom.next ?_
  split
  · exact h
  · split
    · exact (h.setGroup.optElse (·.impreciseFault)).evalBarrier
    · dsimp only
      split
      · exact h.prefSweep.loadAsk
      · split
        · split
          · exact h.prefSweep.loadAsk
          · split
            · exact h.prefSweep.loadAsk.ifs (·.ldrHold) fun h => (h.l1Counts.loadParity.opt (·.modTile)).readLanes.delReqs.ifs
                (·.modGroup) fun h => (h.opt (·.ldrSet)).loadDone
            · exact h.prefSweep.loadAsk.optElse fun h => (h.l1Counts.loadParity.opt (·.modTile)).readLanes.delReqs.ifs (·.modGroup) fun h =>
                (h.opt (·.ldrSet)).loadDone
        · exact h.prefSweep.loadAsk
    · exact h

theorem MemFrom.execImpreciseFault {g code} (h : MemFrom w s0 s) : MemOut w s0 (execImpreciseFault g code s) := by
  unfold Machine.execImpreciseFault
  refine MemFrom.next ?_
  split
  · exact h
  · split
    · exact h.takeFree.errSet.impreciseFault
    · split
      · split
        · exact h.takeFree.impreciseFault
        · exact h
      · exact h

theorem MemFrom.sendEntry {t e} (h : MemFrom w s0 s) : MemFrom w s0 (sendEntry s t e).2 := by
  unfold Machine.sendEntry
  split
  · exact h.pair
  · split
    · exact h.pair
    · exact h.sendMir.pair

theorem MemFrom.releaseOne {t e} (h : MemFrom w s0 s) : MemFrom w s0 (releaseOne s t e) := by
  unfold Machine.releaseOne
  extract_lets s1
  have h1 : MemFrom w s0 s1 := h.modTile
  split
  next e1 => exact (MemFrom.of_pair (.ifs_2 h1 (·.pair) (·.sendEntry)) e1).modTile

theorem MemFrom.execStoreRelease {t id} (h : MemFrom w s0 s) : MemOut w s0 (execStoreRelease t id s) := by
  unfold Machine.execStoreRelease
  refine MemFrom.next ?_
  split
  · exact h
  · exact h.optElse fun h => h.foldl fun _ _ h => h.releaseOne

theorem MemFrom.stcDecide {t e} (h : MemFrom true s0 s) : MemFrom true s0 (stcDecide s t e).2 := by
  unfold Machine.stcDecide
  exact (h.ifs (·.lineWrite) (·.optElse (·.bumpF.optElse (·.bumpF)))).upd

theorem MemFrom.performLocal {t e} (h : MemFrom true s0 s) : MemFrom true s0 (performLocal s t e).2.2 := by
  unfold Machine.performLocal
  dsimp only
  split
  · exact h.stcDecide
  · split
    · exact h.stageWrite
    · exact h
  · split
    · exact h.stageWrite
    · exact h.lineWrite
  · exact MemFrom.foldl_2 (p := ([], s)) h fun _ _ h => h.lineAtomic
  · exact h.lineSignal

theorem MemFrom.modOwner {t e f} (h : MemFrom w s0 s) : MemFrom w s0 (modOwner s t e f) := h.opt (·.modGroup)

theorem MemFrom.entryFault {t e bad raw} (h : MemFrom w s0 s) : MemFrom w s0 (entryFault s t e bad raw) := h.optElse (·.impreciseFault)

theorem MemFrom.noteErr {t e bits} (h : MemFrom w s0 s) : MemFrom w s0 (noteErr s t e bits) :=
  (h.opt (·.bumpF)).ifs (·.modGroup) (·.modTile)

theorem MemFrom.rmEntry {t e} (h : MemFrom w s0 s) : MemFrom w s0 (rmEntry s t e) := h.delReqs.modTile

theorem MemFrom.finishLocal {t e} (h : MemFrom true s0 s) : MemFrom true s0 (finishLocal s t e) := h.optElse (·.performLocal)

theorem MemFrom.dropEntry {t e} (h : MemFrom true s0 s) : MemFrom true s0 (dropEntry s t e) :=
  (h.finishLocal.ifs (·.bumpF) (·.noteErr)).rmEntry

theorem MemFrom.drainEnd {t e} (h : MemFrom true s0 s) : MemFrom true s0 (drainEnd s t e) :=
  h.ifs (·.finishLocal.rmEntry) (·.ifs (·.finishLocal.noteErr.rmEntry) (·.dropEntry))

theorem MemFrom.entryDone {t e bad} (h : MemFrom w s0 s) : MemFrom w s0 (entryDone s t e bad) :=
  h.delReqs.noteErr.modTile.modOwner.entryFault

theorem MemFrom.stcMirror {t e ws} (h : MemFrom w s0 s) : MemFrom w s0 (stcMirror s t e ws).2 := by
  unfold Machine.stcMirror
  split
  · exact h.sendEntry
  · exact h.pair

theorem MemFrom.performEntry {t e} (h : MemFrom true s0 s) : MemFrom true s0 (performEntry s t e) := by
  unfold Machine.performEntry
  split
  next e1 =>
  have h1 := MemFrom.of_pair22 (.ite_22 h.pair22 h.performLocal) e1
  split
  next e2 =>
  have h2 := h1.stcMirror.of_pair e2
  exact ((h2.modTile.optElse (·.modOwner)).entryFault.opt (·.entryDone)).evalBarrier

theorem MemFrom.performLane {t e0} (h : MemFrom true s0 s) : MemFrom true s0 (performLane s t e0) := by
  unfold Machine.performLane
  split
  · exact h
  · dsimp only
    split
    · split
      · split
        · exact h.delReqs.noteErr.modTile.modOwner.entryFault.opt (·.entryDone)
        · exact h.delReqs.noteErr.modTile.modOwner.entryFault
      · exact h
    · split
      · exact h
      · refine MemFrom.evalBarrier ?_
        split
        · split
          · split
            · exact h.performLocal.sendEntry.modTile.delReqs.noteErr.modTile.modOwner.entryFault.opt (·.entryDone)
            · exact h.performLocal.sendEntry.modTile.delReqs.noteErr.modTile.modOwner.entryFault
          · exact h.performLocal.sendEntry.modTile.entryFault
        · split
          · split
            · exact h.performLocal.sendEntry.modOwner.modTile.delReqs.noteErr.modTile.modOwner.entryFault.opt (·.entryDone)
            · exact h.performLocal.sendEntry.modOwner.modTile.delReqs.noteErr.modTile.modOwner.entryFault
          · exact h.performLocal.sendEntry.modOwner.modTile.entryFault

theorem MemFrom.postEntry {t e} (h : MemFrom w s0 s) : MemFrom w s0 (postEntry s t e) := (h.modTile.foldl fun _ _ h => h.modReq).modOwner

theorem MemFrom.performPosted {t e} (h : MemFrom true s0 s) : MemFrom true s0 (performPosted s t e) := by
  unfold Machine.performPosted
  dsimp only
  split
  · exact h.ifs (·.modTile.evalBarrier) (·.delReqs.noteErr.modTile.evalBarrier)
  · exact h.performLocal.ifs (·.modTile.evalBarrier) (·.delReqs.noteErr.modTile.evalBarrier)

theorem MemFrom.execStorePerformed {t id} (h : MemFrom true s0 s) : MemOut true s0 (execStorePerformed t id s) := by
  unfold Machine.execStorePerformed
  refine MemFrom.next ?_
  split
  · exact h.ifs (·.dropEntry) (·.ifs (·.opt (·.postEntry)) (·.optElse (·.ifs (·.performLane) (·.optElse (·.performEntry)))))
  · split
    · exact h
    · exact h.ifs (·.dropEntry) (·.optElse (·.performPosted))

theorem MemFrom.noteFence {t l space fsw bits stream} (h : MemFrom true s0 s) :
    MemFrom true s0 (noteFence s t l space fsw bits stream).2 := by
  unfold Machine.noteFence
  split
  · exact h
  · split
    · exact h.modLaunch
    · split
      · rename_i s1 e1
        have h1 := h.atomVirt.of_pair e1
        exact h1
      · rename_i s1 e1
        have h1 := h.atomVirt.of_pair e1
        exact h1
      · rename_i s1 e1
        have h1 := h.atomVirt.of_pair e1
        exact h1.modLaunch

theorem MemFrom.execSyncComplete {g id} (h : MemFrom true s0 s) : MemOut true s0 (execSyncComplete g id s) := by
  unfold Machine.execSyncComplete
  refine MemFrom.next ?_
  split
  · exact h
  · split
    · split
      · split
        · exact h
        · split
          · rename_i s1 e1
            have h1 := h.noteFence.of_pair e1
            exact h1.modGroup
          · rename_i s1 e1
            have h1 := h.noteFence.of_pair e1
            exact h1
      · exact h.l1Inval.modGroup
      · exact h.optElse (·.modGroup)
      · exact h.modGroup
      · exact h.modGroup
    · exact h

theorem MemFrom.execReservationTimeout {t slot} (h : MemFrom w s0 s) : MemOut w s0 (execReservationTimeout t slot s) := h.upd.next

theorem MemFrom.execLdrHoldTimeout {granule} (h : MemFrom w s0 s) : MemOut w s0 (execLdrHoldTimeout granule s) := (h.opt (·.upd)).next

/-! Parks and replays. -/

theorem MemFrom.endWatchesOn {d sel status} (h : MemFrom w s0 s) : MemFrom w s0 (endWatchesOn s d sel status).2 :=
  (h.foldl fun _ _ h => h.endWatch).setBel.foldl fun _ _ h => h.notifyWatch

theorem MemFrom.endWatches {sel status} (h : MemFrom w s0 s) : MemFrom w s0 (endWatches s sel status).2 := by
  unfold Machine.endWatches
  split
  next e =>
  refine MemFrom.settleWaits (MemFrom.of_pair (MemFrom.foldl_2 h fun _ _ h => ?_) e)
  exact h.endWatchesOn

theorem MemFrom.dropEnded {sel} (h : MemFrom w s0 s) : MemFrom w s0 (dropEnded s sel) := h.foldl fun _ _ h => h.setBel

theorem MemFrom.launchCheck {q n} (h : MemFrom w s0 s) : MemFrom w s0 (launchCheck s q n) := by
  unfold Machine.launchCheck
  split
  · exact h
  · exact h.optElse (·.endWatches.dropEnded.modCmd.upd)

theorem MemFrom.wgEnded {k abandoned} (h : MemFrom w s0 s) : MemFrom w s0 (wgEnded s k abandoned) := h.modLaunch.launchCheck

theorem MemFrom.execGroupEnd {g} (h : MemFrom w s0 s) : MemOut w s0 (execGroupEnd g s) := by
  unfold Machine.execGroupEnd
  refine MemFrom.next ?_
  split
  · exact h
  · split
    · exact h
    · split
      · exact h
      · exact h.setGroup.upd.evalBarrier.ifs (·.releaseWg.wgEnded) (·.parkAsked)

theorem MemFrom.preemptFor {l cs} (h : MemFrom w s0 s) : MemFrom w s0 (preemptFor s l cs) := by
  unfold Machine.preemptFor
  split
  · exact h
  · exact (h.foldl fun _ _ h => h.stopWg).modTile.bumpF

theorem MemFrom.execWgOffer {q serial} (h : MemFrom w s0 s) : MemOut w s0 (execWgOffer q serial s) := by
  unfold Machine.execWgOffer
  refine MemFrom.next ?_
  split
  · exact h
  · split
    · exact h
    · extract_lets cs s1 s2
      have h1 : MemFrom w s0 s1 := h.opt (·.preemptFor)
      have h2 : MemFrom w s0 s2 := h.bumpSteps
      clear_value cs s1 s2
      split
      · exact h1.modLaunch
      · exact h2.ifs (·.place.modLaunch) (·.modLaunch)

theorem MemFrom.execWgPark {t w' reason} (h : MemFrom w s0 s) : MemOut w s0 (execWgPark t w' reason s) := (h.opt (·.stopWg)).next

theorem MemFrom.faultEvent {t w' gs image} (h : MemFrom w s0 s) : MemFrom w s0 (faultEvent s t w' gs image) := by
  unfold Machine.faultEvent
  split
  · exact h
  · exact h.raise

theorem MemFrom.parkFault {t w' addr} (h : MemFrom w s0 s) : MemFrom w s0 (parkFault s t w' addr) := h.modWg.errSet

theorem MemFrom.parkImage {t w' wg i image} (h : MemFrom w s0 s) : MemFrom w s0 (parkImage s t w' wg i image) :=
  ((h.bumpF.perfCount.opt (·.errSet)).opt (·.errSet)).modLaunch.releaseWg.faultEvent

theorem MemFrom.parkSettle {t w' wg i image} (h : MemFrom w s0 s) : MemFrom w s0 (parkSettle s t w' wg i image) :=
  h.ifs (·.modWg) (·.delReqs.ifs (·.parkFault) (·.parkImage))

theorem MemFrom.putImage {t w' wg image bytes} (h : MemFrom true s0 s) : MemFrom true s0 (putImage s t w' wg image bytes) := by
  unfold Machine.putImage
  refine MemFrom.foldl ?_ fun s x h => ?_
  · exact h.writeVirt
  · exact h.writeVirt

theorem MemFrom.writeImage {t w' wg sz i} (h : MemFrom true s0 s) : MemFrom true s0 (writeImage s t w' wg sz i) := by
  unfold Machine.writeImage
  extract_lets ag die image bytes
  split
  next e =>
  have h1 := h.translateRuns.of_pair e
  refine .ite h.parkFault ?_
  split
  · exact h1.countXltFault.parkFault
  · exact h1.putImage.parkSettle

theorem MemFrom.takeSlot {t w' wg sz i} (h : MemFrom true s0 s) : MemFrom true s0 (takeSlot s t w' wg sz i) := by
  unfold Machine.takeSlot
  dsimp only
  split
  · exact h
  · split
    · rename_i s1 e1
      have h1 := h.setSlotBit.of_pair e1
      exact h1.modWg
    · rename_i s1 e1
      have h1 := h.setSlotBit.of_pair e1
      exact h1.modWg.parkFault
    · rename_i s1 e1
      have h1 := h.setSlotBit.of_pair e1
      exact h1.modWg
    · rename_i s1 e1
      have h1 := h.setSlotBit.of_pair e1
      exact h1.modWg.writeImage

theorem MemFrom.writePark {t w'} (h : MemFrom true s0 s) : MemFrom true s0 (writePark s t w') := by
  unfold Machine.writePark
  split
  · exact h
  · dsimp only
    split
    · split
      · rename_i s1 e1 _ _ _
        have h1 := h.parkHeader.of_pair22 e1
        exact h1.takeSlot
      · rename_i s1 e1 _ _
        have h1 := h.parkHeader.of_pair22 e1
        exact h1.modWg.optElse (·.errSet)
    · rename_i s1 e1
      have h1 := h.parkHeader.of_pair22 e1
      exact h1
    · rename_i s1 _ _ e1
      have h1 := h.parkHeader.of_pair22 e1
      exact h1.parkFault

theorem MemFrom.parkAnswered {t w' wg} (h : MemFrom true s0 s) : MemFrom true s0 (parkAnswered s t w' wg) := by
  unfold Machine.parkAnswered
  split
  · exact h
  · split
    · rename_i s1 e1
      have h1 := h.parkHeader.of_pair22 e1
      exact h1.parkSettle
    · rename_i s1 e1
      have h1 := h.parkHeader.of_pair22 e1
      exact h1
    · rename_i s1 _ _ e1
      have h1 := h.parkHeader.of_pair22 e1
      exact h1.parkFault

theorem MemFrom.execParkDone {t w'} (h : MemFrom true s0 s) : MemOut true s0 (execParkDone t w' s) := by
  unfold Machine.execParkDone
  refine MemFrom.next ?_
  split
  · exact h.ifs (·.writePark) (·.opt (·.parkAnswered))
  · exact h

theorem MemFrom.execParkSlotFree {t w'} (h : MemFrom true s0 s) : MemOut true s0 (execParkSlotFree t w' s) := by
  unfold Machine.execParkSlotFree
  refine MemFrom.next ?_
  split
  · exact h.opt (·.writePark)
  · exact h

theorem MemFrom.dropSlot {t w'} (h : MemFrom true s0 s) : MemFrom true s0 (dropSlot s t w').2 := by
  unfold Machine.dropSlot
  split
  · exact h.pair
  · split
    · exact h.pair
    · extract_lets park asked s1
      have h1 : MemFrom true s0 s1 := h.upd
      clear_value park asked s1
      split
      · exact h.pair
      · exact h1.freeSlot.modWg.pair

theorem MemFrom.execWgAbandon {t w'} (h : MemFrom true s0 s) : MemOut true s0 (execWgAbandon t w' s) := by
  unfold Machine.execWgAbandon
  refine MemFrom.next ?_
  split
  · split
    · exact h
    · split
      · rename_i s1 e1
        have h1 := h.dropSlot.of_pair e1
        exact h1.releaseWg.wgEnded
      · exact h
  · exact h

theorem MemFrom.readImage {l image} (h : MemFrom true s0 s) : MemFrom true s0 (readImage s l image).2 := h.readVirt

theorem MemFrom.skipBundles {l rs} (h : MemFrom true s0 s) : MemFrom true s0 (skipBundles s l rs).2 := by
  induction rs generalizing s with
  | nil => exact h
  | cons r rs ih => exact (ih h.skipBundle).pair

theorem MemFrom.replayPlace {l p im} (h : MemFrom true s0 s) : MemFrom true s0 (replayPlace s l p im).2 := by
  unfold Machine.replayPlace
  dsimp only
  split
  · rename_i s1 e1
    have h1 := h.skipBundles.of_pair e1
    exact h1.pair
  · split
    · rename_i s1 e1 _
      have h1 := h.skipBundles.of_pair e1
      exact h1.pair
    · split
      · rename_i s1 e1 _ _ _
        have h1 := h.skipBundles.of_pair e1
        exact h1.pair
      · rename_i s1 e1 _ _ _ _
        have h1 := h.skipBundles.of_pair e1
        exact h1.place.evalBarrier.freeSlot.modLaunch.pair

theorem MemFrom.abandonParked {l p} (h : MemFrom true s0 s) : MemOpt true s0 (abandonParked s l p) := by
  unfold Machine.abandonParked
  split
  · exact trivial
  · exact h.freeSlot.modLaunch.wgEnded

theorem MemFrom.execAutoReplay {q slot} (h : MemFrom true s0 s) : MemOut true s0 (execAutoReplay q slot s) := by
  refine MemFrom.next ?_
  split
  · exact h
  · split
    · exact h
    · refine h.ifs (fun h => h) fun h => ?_
      split
      next e =>
        have h1 := h.readImage.of_pair e
        split
        next e' => exact (h1.replayPlace.of_pair e').opt (·.preemptFor)
        next e' => exact h1.replayPlace.of_pair e'
      next e => exact h.readImage.of_pair e

theorem MemFrom.execPreemptHoldExpire {a} (h : MemFrom w s0 s) : MemOut w s0 (execPreemptHoldExpire a s) := by
  unfold Machine.execPreemptHoldExpire
  refine MemFrom.next ?_
  split
  · exact h.modWg
  · exact h.upd

end Sys2Proof.Laws
end

