-- ==== Sys2Proof/Proofs/MemQueues.lean ====
section
/-!
SUPPORT. `MemFrom` along the functions of queues, commands, watches, transaction groups, copies and management.
-/
namespace Sys2Proof.Laws
open Sys2Proof.Machine Sys2Proof.Safety

-- Elaborated side by side, so many small lemmas ask for more threads than the memory limit allows.
set_option Elab.async false

variable {w : Bool} {s0 s t : State} {α β : Type}

/-! Queues. -/

theorem MemFrom.noteError {q serial status always} (h : MemFrom true s0 s) : MemFrom true s0 (noteError s q serial status always) :=
  h.setQd.setQd.opt (·.raise)

theorem MemFrom.fetchError {q status} (h : MemFrom true s0 s) : MemFrom true s0 (fetchError s q status) := by
  unfold Machine.fetchError
  extract_lets serial s1
  have h1 : MemFrom true s0 s1 := h.setQState.noteError
  clear_value serial s1
  split
  · exact h1.opt (·.errSet)
  · exact h1

theorem MemFrom.doorbell {q tag v} (h : MemFrom w s0 s) : MemFrom w s0 (doorbell s q tag v) := h.ifs (·.bumpF.errSet) (·.setQlive)

theorem MemFrom.doorbellRead {q off size} (h : MemFrom w s0 s) : MemFrom w s0 (doorbellRead s q off size) := by
  unfold Machine.doorbellRead
  split
  next e =>
    refine MemFrom.upd (MemFrom.of_pair ?_ e)
    exact .ite_2 h.pair h.takeFree

theorem MemFrom.hostHold {a} (h : MemFrom w s0 s) : MemFrom w s0 (hostHold s a) := h.upd rfl rfl

theorem MemFrom.doorbellAcc {q tag off size v} (h : MemFrom w s0 s) : MemFrom w s0 (doorbellAcc s q tag off size v) := by
  unfold Machine.doorbellAcc
  split
  · exact h.doorbellRead
  · exact h.optElse (·.doorbell)

theorem MemFrom.execDoorbellWrite {q tag size a} (h : MemFrom w s0 s) : MemOut w s0 (execDoorbellWrite q tag size a s) :=
  (h.optElse (·.ifs (·.hostHold) (·.doorbellAcc))).next

theorem MemFrom.readLatch {q} (h : MemFrom w s0 s) : MemFrom w s0 (readLatch s q) := h.ifs (·.setQlive) (·.opt (·.setQlive))

theorem MemFrom.setCtxEntry {tag v} (h : MemFrom true s0 s) : MemFrom true s0 (setCtxEntry s tag v) := h.lineWriteN

theorem MemFrom.fetchCmd {q} (h : MemFrom true s0 s) : MemFrom true s0 (fetchCmd s q) := by
  unfold Machine.fetchCmd
  split
  · exact h
  · split
    · exact h
    · extract_lets s1 consumed rsize space ent serial va
      have h1 : MemFrom true s0 s1 := h.readLatch
      clear_value s1 consumed rsize space ent serial va
      split
      · exact h1
      · split
        · exact h1.fetchError
        · split
          · exact h1
          · split
            · exact h1.fetchError
            · split
              · rename_i s2 e2
                have h2 := h1.readVirt.of_pair e2
                exact h2
              · rename_i s2 e2
                have h2 := h1.readVirt.of_pair e2
                exact h2.ifs (·.fetchError) (·.setQd.upd.bumpSteps)
              · split
                · rename_i s2 e2 _ _ _ _
                  have h2 := h1.readVirt.of_pair e2
                  exact h2.fetchError
                · rename_i s2 e2 _ _
                  have h2 := h1.readVirt.of_pair e2
                  exact h2

theorem MemFrom.execCommandFetch {q} (h : MemFrom true s0 s) : MemOut true s0 (execCommandFetch q s) := (h.opt (·.fetchCmd)).next

theorem MemFrom.setUse {die space idx v} (h : MemFrom true s0 s) : MemFrom true s0 (setUse s die space idx v) := h.lineWriteN

theorem MemFrom.relocate1 {die space ref len} (h : MemFrom true s0 s) : MemFrom true s0 (relocate1 s die space ref len).2 := by
  unfold Machine.relocate1
  dsimp only
  split
  · exact h.pair
  · split
    · exact h.pair
    · split
      · exact h.pair
      · split
        · exact h.pair
        · exact h.setUse.pair

theorem MemFrom.release1 {die space idx} (h : MemFrom true s0 s) : MemFrom true s0 (release1 s die space idx) :=
  h.ifs (·.setUse.lineWriteN) (·.setUse)

theorem MemFrom.releaseAll {c} (h : MemFrom true s0 s) : MemFrom true s0 (releaseAll s c) := h.foldl fun _ _ h => h.release1

theorem MemFrom.relocAll {c len os} (h : MemFrom true s0 s) : MemFrom true s0 (relocAll s c len os).2.2 := by
  induction os generalizing s c with
  | nil => exact h
  | cons o os ih =>
    unfold Machine.relocAll
    refine .ite_22 (ih h) ?_
    split
    next e => exact (h.relocate1.of_pair e).pair22
    next e => exact ih (h.relocate1.of_pair e)

theorem MemFrom.startCmd {c len} (h : MemFrom true s0 s) : MemFrom true s0 (startCmd s c len) := by
  unfold Machine.startCmd
  dsimp only
  split
  · split
    · rename_i s1 e1
      have h1 := (h.opt (·.setQWaiting)).settle.relocAll.of_pair22 e1
      exact h1.bumpSteps.modCmd
    · rename_i s1 e1
      have h1 := (h.opt (·.setQWaiting)).settle.relocAll.of_pair22 e1
      exact h1.bumpSteps.modCmd
  · split
    · split
      · rename_i s1 e1
        have h1 := (h.opt (·.setQWaiting)).settle.relocAll.of_pair22 e1
        exact h1.bumpSteps.modCmd
      · rename_i s1 e1
        have h1 := (h.opt (·.setQWaiting)).settle.relocAll.of_pair22 e1
        exact h1.bumpSteps.modCmd
    · split
      · rename_i s1 e1
        have h1 := (h.opt (·.setQWaiting)).settle.relocAll.of_pair22 e1
        exact h1.bumpSteps.modCmd
      · rename_i s1 e1
        have h1 := (h.opt (·.setQWaiting)).settle.relocAll.of_pair22 e1
        exact h1.releaseAll.bumpSteps.modCmd

theorem MemFrom.queueIdleCheck {q} (h : MemFrom true s0 s) : MemFrom true s0 (queueIdleCheck s q) := h.opt (·.setQState)

theorem MemFrom.answerAborts {q serial status} (h : MemFrom w s0 s) : MemFrom w s0 (answerAborts s q serial status) := h.upd rfl rfl

theorem MemFrom.leaveEngine {c status target} (h : MemFrom true s0 s) : MemFrom true s0 (leaveEngine s c status target) := by
  unfold Machine.leaveEngine
  extract_lets s1 s2 s3 pg
  have h1 : MemFrom true s0 s1 := h.releaseAll
  have h2 : MemFrom true s0 s2 := MemFrom.delReqs h1.upd
  have h3 : MemFrom true s0 s3 := h2.opt (·.setQWaiting)
  clear_value s1 s2 s3
  split
  next e =>
  have h4 := MemFrom.of_pair (.ite_2 h3.takeFree h3.pair) e
  extract_lets s5 s6 s7
  have h5 : MemFrom true s0 s5 := h4.bumpSteps.bumpF
  clear_value s5
  have h6 : MemFrom true s0 s6 := h5.opt fun h => h.upd
  exact h6.answerAborts.queueIdleCheck.settle

theorem MemFrom.noteEnd {c status} (h : MemFrom true s0 s) : MemFrom true s0 (noteEnd s c status) :=
  h.opt (·.bumpF.errSet.noteError.opt (·.setQState))

theorem MemFrom.finishCmd {c status info detail target} (h : MemFrom true s0 s) :
    MemFrom true s0 (finishCmd s c status info detail target) := by
  unfold Machine.finishCmd
  extract_lets n s1 ids s2
  have h1 : MemFrom true s0 s1 := by
    unfold s1
    split
    · exact h.writeVirt
    · exact h
  have h2 : MemFrom true s0 s2 := h1.noteEnd
  clear_value n s1 ids s2
  exact h2.ifs (·.delReqs.leaveEngine) (·.delReqs.modCmd)

theorem MemFrom.endingDone {c target} (h : MemFrom true s0 s) : MemFrom true s0 (endingDone s c target) := h.opt (·.leaveEngine)

theorem MemFrom.execCommandEnd {q serial} (h : MemFrom true s0 s) : MemOut true s0 (execCommandEnd q serial s) := by
  unfold Machine.execCommandEnd
  refine MemFrom.next ?_
  split
  · exact h
  · split
    · exact h.endingDone
    · split
      · exact h
      · split
        · exact h
        · exact h.finishCmd

theorem MemFrom.killWg {t w'} (h : MemFrom w s0 s) : MemFrom w s0 (killWg s t w') :=
  (h.foldl fun _ _ h => h.modGroup).dropOffers.endResvs.modWg

theorem MemFrom.dropUnsent {c} (h : MemFrom w s0 s) : MemFrom w s0 (dropUnsent s c) := h.delReqs.modCmd

theorem MemFrom.startKill {c cause} (h : MemFrom true s0 s) : MemFrom true s0 (startKill s c cause) := by
  unfold Machine.startKill
  split
  · exact h
  · extract_lets s1 s2 mine i x s3
    have h1 : MemFrom true s0 s1 := h.modCmd
    have h2 : MemFrom true s0 s2 := h1.modLaunch
    have h3 : MemFrom true s0 s3 := h1.setTxg
    clear_value s1 s2 mine i x s3
    split
    · split
      · exact h1
      · exact ((h2.foldl fun _ _ h => h.killWg).endWatches.dropEnded.foldl fun _ _ h => h.freeSlot).upd.modLaunch
    · exact h1.endWatches.dropEnded
    · exact .ite (h3.txgAbort) (h1)
    · exact h1.opt (·.dropUnsent)

theorem MemFrom.dropWg {t w'} (h : MemFrom true s0 s) : MemFrom true s0 (dropWg s t w') := h.dropSlot.delReqs.releaseWg

theorem MemFrom.execKillDone {q serial} (h : MemFrom true s0 s) : MemOut true s0 (execKillDone q serial s) := by
  unfold Machine.execKillDone
  refine MemFrom.next ?_
  split
  · exact h
  · split
    · exact h
    · exact h.endingDone
    · dsimp only
      split
      · exact h.optElse fun h => (h.foldl fun _ _ h => h.dropWg).upd.finishCmd
      · exact h.opt (·.finishCmd)

theorem MemFrom.askKills {q cause} (h : MemFrom w s0 s) : MemFrom w s0 (askKills s q cause) := h.upd rfl rfl

theorem MemFrom.execQueueTimeout {q serial} (h : MemFrom true s0 s) : MemOut true s0 (execQueueTimeout q serial s) := by
  unfold Machine.execQueueTimeout
  refine MemFrom.next ?_
  split
  · exact h
  · exact h.optElse fun h => h.ifs (fun h => (h.errSet.modCmd.opt (·.setQState)).askKills) (·.optElse (·.errSet.modCmd.raise))

/-! Starts of commands. -/

theorem MemFrom.startRemoved {c} (h : MemFrom true s0 s) : MemFrom true s0 (startRemoved s c) := by
  unfold Machine.startRemoved
  dsimp only
  split
  · exact h.modCmd
  · split
    · rename_i s1 e1
      have h1 := h.relocAll.of_pair22 e1
      exact h1.modCmd
    · rename_i s1 e1
      have h1 := h.relocAll.of_pair22 e1
      exact h1.modCmd

theorem MemFrom.execCommandStart {e} (h : MemFrom true s0 s) : MemOut true s0 (execCommandStart e s) := by
  unfold Machine.execCommandStart
  refine MemFrom.next ?_
  split
  · exact h
  · dsimp only
    split
    · exact h
    · split
      · exact h
      · split
        · exact h.opt (·.fetchCmd)
        · exact (h.opt (·.fetchCmd)).optElse (·.upd.ifs (·.startRemoved) (·.startCmd))

theorem MemFrom.cmdAsk {c gs} (h : MemFrom w s0 s) : MemFrom w s0 (cmdAsk s c gs) := h.foldl fun _ _ h => h.sendReq.modCmd

theorem MemFrom.gotLines {c o} (h : MemFrom true s0 s) : MemGot true s0 (gotLines s c o) := by
  unfold Machine.gotLines
  extract_lets rs miss slot s1
  have h1 : MemFrom true s0 s1 := h.touchDests
  clear_value rs miss slot s1
  split
  · exact h
  · split
    · exact h.cmdAsk
    · split
      · exact h
      · exact h1

theorem MemFrom.cmdLines {c a runs} (h : MemFrom true s0 s) : MemGot true s0 (cmdLines s c a runs) := by
  unfold Machine.cmdLines
  split
  · split
    · rename_i s1 e1 _
      have h1 := h.translateRuns.of_pair e1
      exact h1.countXltFault
    · rename_i s1 e1 _
      have h1 := h.translateRuns.of_pair e1
      exact h1.gotLines

theorem MemFrom.onCmd {q serial opc f} (h : MemFrom w s0 s) (hf : ∀ c, MemFrom w s0 (f c)) : MemOut w s0 (onCmd q serial opc s f) := by
  refine MemFrom.next ?_
  split
  · exact h
  · exact .ite (hf _) h

theorem MemFrom.onMe {q serial opc f} (h : MemFrom w s0 s) (hf : ∀ c, MemFrom w s0 (f c)) : MemOut w s0 (onMe q serial opc s f) := by
  refine MemFrom.next ?_
  split
  · exact h
  · exact .ite (hf _) h

theorem MemFrom.done {c status info} (h : MemFrom w s0 s) : MemFrom w s0 (done s c status info) := h.modCmd

theorem MemFrom.faulted {c o a} (h : MemFrom w s0 s) : MemFrom w s0 (faulted s c o a) := h.modCmd

theorem MemFrom.execNop {q serial} (h : MemFrom w s0 s) : MemOut w s0 (execNop q serial s) := h.onCmd fun _ => h.done

theorem MemFrom.ctrXlate {c va a} (h : MemFrom w s0 s) : MemFrom w s0 (ctrXlate s c va a).2 := by
  unfold Machine.ctrXlate
  split
  next e => exact (h.translateAll.of_pair e).pair

theorem MemFrom.execSignalCmd {q serial} (h : MemFrom true s0 s) : MemOut true s0 (execSignalCmd q serial s) := by
  unfold Machine.execSignalCmd
  refine MemFrom.onCmd ?_ (fun c => ?_)
  · exact h
  · split
    · exact h.done
    · split
      · split
        · exact h
        · split
          · rename_i s1 e1 _ _ _ _ _ _ _
            have h1 := h.ctrXlate.of_pair e1
            exact h1.lineSignal.done
          · rename_i s1 e1 _ _ _ _ _ _ _ _
            have h1 := h.ctrXlate.of_pair e1
            exact h1.lineSignal.done
          · extract_lets id x s2
            have h2 : MemFrom true s0 s2 := by
              unfold s2
              rename_i s1 e1 _ _ _ _ _ _ _
              have h1 := h.ctrXlate.of_pair e1
              exact h1.sendReq
            clear_value id x s2
            exact h2.modCmd.done
          · rename_i s1 e1 _ _ _
            have h1 := h.ctrXlate.of_pair e1
            exact h1.countXltFault.faulted

theorem MemFrom.waitEnds {q serial status value} (h : MemFrom w s0 s) : MemFrom w s0 (waitEnds s q serial status value) := h.modCmd

theorem MemFrom.registerFor {c d k} (h : MemFrom w s0 s) : MemFrom w s0 (registerFor s c d k) := by
  unfold Machine.registerFor
  dsimp only
  split
  · exact h.registerWatch.modCmd
  · exact h.registerWatch.modCmd
  · exact h.setBel.sendReq.watchSweep.modCmd

theorem MemFrom.execWaitCmd {q serial} (h : MemFrom w s0 s) : MemOut w s0 (execWaitCmd q serial s) := by
  unfold Machine.execWaitCmd
  refine MemFrom.onCmd ?_ (fun c => ?_)
  · exact h
  · split
    · exact h.done
    · split
      · split
        · exact h
        · split
          · rename_i s1 e1 _ _ _
            have h1 := h.ctrXlate.of_pair e1
            exact h1.countXltFault.faulted
          · extract_lets s2
            have h2 : MemFrom w s0 s2 := by
              unfold s2
              rename_i s1 e1 _ _ _ _ _ _ _
              have h1 := h.ctrXlate.of_pair e1
              exact h1.registerFor
            clear_value s2
            exact h2.modCmd

theorem MemFrom.execWatchCmd {q serial} (h : MemFrom w s0 s) : MemOut w s0 (execWatchCmd q serial s) := by
  unfold Machine.execWatchCmd
  refine MemFrom.onCmd ?_ (fun c => ?_)
  · exact h
  · split
    · exact h.done
    · split
      · split
        · exact h
        · split
          · rename_i s1 e1 _ _ _
            have h1 := h.ctrXlate.of_pair e1
            exact h1.countXltFault.faulted
          · rename_i s1 e1 _ _ _ _ _ _ _
            have h1 := h.ctrXlate.of_pair e1
            exact h1.registerFor.done

theorem MemFrom.execLaunch {q serial} (h : MemFrom true s0 s) : MemOut true s0 (execLaunch q serial s) := by
  unfold Machine.execLaunch
  refine MemFrom.onCmd ?_ (fun c => ?_)
  · exact h
  · dsimp only
    split
    · exact h.done
    · split
      · exact h.done
      · split
        · exact h.done
        · split
          · rename_i s1 e1
            have h1 : MemFrom true s0 s1 := h.cmdLines.of_eq e1
            exact h1
          · rename_i s1 e1
            have h1 : MemFrom true s0 s1 := h.cmdLines.of_eq e1
            exact h1.faulted
          · rename_i s1 e1
            have h1 : MemFrom true s0 s1 := h.cmdLines.of_eq e1
            split
            · exact h1.done
            · split
              · exact h1.done
              · split
                · exact h1.done
                · split
                  · rename_i s2 e2
                    have h2 : MemFrom true s0 s2 := h1.cmdLines.of_eq e2
                    exact h2
                  · rename_i s2 e2
                    have h2 : MemFrom true s0 s2 := h1.cmdLines.of_eq e2
                    exact h2.faulted
                  · rename_i s2 e2
                    have h2 : MemFrom true s0 s2 := h1.cmdLines.of_eq e2
                    exact h2.ifs (·.done) (·.ifs (·.done) (·.ifs (·.done) (·.upd.modCmd)))

theorem MemFrom.execReplay {q serial} (h : MemFrom true s0 s) : MemOut true s0 (execReplay q serial s) := by
  refine h.onCmd fun c => ?_
  split
  · exact h.done
  next va _ =>
  have hg := h.cmdLines (c := c) (a := .read) (runs := [(va, 256)])
  split
  next e => exact hg.of_eq e
  next e => exact MemFrom.faulted (hg.of_eq e)
  next s1 e =>
    have h1 : MemFrom true s0 s1 := hg.of_eq e
    dsimp only
    split
    · exact h1.done
    · refine h1.ifs (·.done) fun h1 => ?_
      split
      · exact h1.done
      · refine h1.ifs (·.done) fun h1 => ?_
        split
        next e2 =>
          have h2 := h1.readImage.of_pair e2
          refine h2.ifs (·.done) fun h2 => .ite ?_ (h2.optElse fun h2 => ?_)
          · split
            next e3 => exact MemFrom.done (h2.abandonParked.of_eq e3)
            · exact h2
          · split
            next e3 => exact (h2.replayPlace.of_pair e3).done
            next e3 => exact h2.replayPlace.of_pair e3
        next e2 => exact h1.readImage.of_pair e2

/-! Belay events. -/

theorem MemFrom.admitted {d w' k} (h : MemFrom w s0 s) : MemFrom w s0 (admitted s d w' k) := by
  unfold Machine.admitted
  split
  · exact h.modCmd
  · exact h.answer
  · exact h

theorem MemFrom.admitOne {d} (h : MemFrom w s0 s) : MemFrom w s0 (admitOne s d) := by
  unfold Machine.admitOne
  dsimp only
  split
  · exact h
  · exact h.setBel.decideWatch.admitted

theorem MemFrom.execWatchEntryAdmit {d} (h : MemFrom w s0 s) : MemOut w s0 (execWatchEntryAdmit d s) :=
  (h.opt (·.admitOne.settleWaits)).next

theorem MemFrom.admitMany {n d} (h : MemFrom w s0 s) : MemFrom w s0 (admitMany n s d) := by
  induction n generalizing s with
  | zero => exact h
  | succ n ih => exact ih h.admitOne

theorem MemFrom.sendHeld {d} (h : MemFrom w s0 s) : MemFrom w s0 (sendHeld s d) := h.setBel.foldl fun _ _ h => h.sendNotice

theorem MemFrom.execBelReturnService {d} (h : MemFrom w s0 s) : MemOut w s0 (execBelReturnService d s) :=
  (h.opt fun h => (h.sendHeld.evalWatches.admitMany.optElse (·.watchFull)).settleWaits).next

theorem MemFrom.execGroupWatchEnd {d id} (h : MemFrom true s0 s) : MemOut true s0 (execGroupWatchEnd d id s) := by
  unfold Machine.execGroupWatchEnd
  refine MemFrom.next ?_
  split
  · exact h
  · split
    · split
      · exact h.takeEnded
      · split
        · exact h
        · exact h.optElse (·.writeVirt.modLaunch.takeEnded)
    · exact h

theorem MemFrom.execQueueWatchEnd {d id} (h : MemFrom w s0 s) : MemOut w s0 (execQueueWatchEnd d id s) := by
  unfold Machine.execQueueWatchEnd
  refine MemFrom.next ?_
  split
  · exact h
  · split
    · exact h.takeEnded.waitEnds
    · exact h

theorem MemFrom.markRange {d first n} (h : MemFrom w s0 s) : MemFrom w s0 (markRange s d first n).2 := by
  unfold Machine.markRange
  extract_lets b rs s1 hit
  have h1 : MemFrom w s0 s1 := h.setBel
  clear_value b rs s1 hit
  split
  · exact h.pair
  · split
    · exact h.errSet.pair
    · exact (h1.foldl fun _ _ h => h.endWatch).pair

theorem MemFrom.execAbandonMark {d first n} (h : MemFrom w s0 s) : MemOut w s0 (execAbandonMark d first n s) := by
  unfold Machine.execAbandonMark
  refine MemFrom.next ?_
  split
  · exact h
  · split
    · rename_i s1 e1
      have h1 := h.markRange.of_pair e1
      exact h1.modCmd
    · rename_i s1 e1
      have h1 := h.markRange.of_pair e1
      exact h1

theorem MemFrom.execWatchEntryError {d id} (h : MemFrom w s0 s) : MemOut w s0 (execWatchEntryError d id s) := by
  unfold Machine.execWatchEntryError
  refine MemFrom.next ?_
  split
  · exact h
  · exact h.entryError

/-! Transaction groups. -/

theorem MemFrom.execTxgOpen {q serial} (h : MemFrom w s0 s) : MemOut w s0 (execTxgOpen q serial s) := by
  unfold Machine.execTxgOpen
  refine MemFrom.onCmd ?_ (fun c => ?_)
  · exact h
  · dsimp only
    split
    · exact h.done
    · split
      · exact h
      · split
        · exact h.done
        · refine MemFrom.done ?_
          refine MemFrom.setTxg ?_
          split
          · exact h.pair
          · exact h.takeFree

theorem MemFrom.commitPoint {i} (h : MemFrom w s0 s) : MemFrom w s0 (commitPoint s i) := by
  unfold Machine.commitPoint
  extract_lets t s1 s2
  have h1 : MemFrom w s0 s1 := h.setTxg
  have h2 : MemFrom w s0 s2 := h1.bumpF
  clear_value t s1 s2
  split
  · exact h2.modCmd
  · exact h2

theorem MemFrom.commitStart {i who anchor} (h : MemFrom w s0 s) : MemFrom w s0 (commitStart s i who anchor) := h.setTxg.opt (·.commitPoint)

theorem MemFrom.execTxgCommit {q serial} (h : MemFrom w s0 s) : MemOut w s0 (execTxgCommit q serial s) := by
  unfold Machine.execTxgCommit
  refine MemFrom.onCmd ?_ (fun c => ?_)
  · exact h
  · dsimp only
    split
    · exact h.done
    · split
      · exact h.done
      · exact h.done
      · exact h.opt (·.modCmd.commitStart)

theorem MemFrom.txgInject {i} (h : MemFrom w s0 s) : MemOpt w s0 (txgInject s i) := by
  unfold Machine.txgInject
  dsimp only
  split
  · exact trivial
  · split
    · exact h.injFire.txgAbort.errSet
    · exact trivial

theorem MemFrom.stageBad {i line} (h : MemFrom w s0 s) : MemFrom w s0 (stageBad s i line) := h.txgAbort.errSet

theorem MemFrom.execTxgExpired {d slot} (h : MemFrom w s0 s) : MemOut w s0 (execTxgExpired d slot s) := (h.opt (·.txgAbort)).next

/-! Copy commands. -/

theorem MemFrom.putLine {c txg d bs mark} (h : MemFrom true s0 s) : MemFrom true s0 (putLine s c txg d bs mark) := by
  unfold Machine.putLine
  dsimp only
  split
  · split
    · exact h.stageWrite
    · exact h.stageWrite
    · exact h.stageWrite
  · split
    · exact h.lineWrite
    · exact h.lineWrite.sendMir.modCmd
    · exact h.sendMir.modCmd

theorem MemFrom.onCopy {q serial opc f} (h : MemFrom w s0 s) (hf : ∀ c, MemFrom w s0 (f c)) : MemOut w s0 (onCopy q serial opc s f) := by
  refine MemFrom.next ?_
  split
  · exact h
  · exact .ite (hf _) h

theorem MemFrom.upToKill {c lines} (h : MemFrom w s0 s) : MemFrom w s0 (upToKill s c lines).2 := by
  unfold Machine.upToKill
  split
  · exact h.pair
  · exact h.takeFree

theorem MemFrom.copyDone {c lines bad} (h : MemFrom w s0 s) : MemFrom w s0 (copyDone s c lines bad) := by
  unfold Machine.copyDone
  extract_lets s1
  have h1 : MemFrom w s0 s1 := h.modCmd
  clear_value s1
  split
  · exact h1.modCmd
  · split
    · exact h1.done
    · exact h1.done

theorem MemFrom.copyFail {s' c o a} (h' : MemFrom w s0 s') (h : MemFrom w s0 s) : MemFrom w s0 (copyFail s' s c o a) :=
  .ite h' h.faulted

theorem MemFrom.copyRun {c txg reads writes part make} (h : MemFrom true s0 s)
    (hm : ∀ ls s, MemFrom true s0 s → MemFrom true s0 (make ls s).2) : MemFrom true s0 (copyRun s c txg reads writes part make) := by
  unfold Machine.copyRun
  split
  next e1 =>
  split
  next s2 e2 =>
  have h2 : MemFrom true s0 s2 := (h.translateRuns.of_pair e1).translateRuns.of_pair e2
  split
  · exact h.copyFail h2.countXltFault
  · refine h.optElse fun h => ?_
    split
    next e => exact h2.gotLines.of_eq e
    next e => exact h2.gotLines.of_eq e
    next s3 e =>
      have h3 : MemFrom true s0 s3 := h2.gotLines.of_eq e
      extract_lets ls
      split
      next e4 =>
      split
      next e5 =>
      have h5 := ((hm _ _ h3).of_pair e4).upToKill.of_pair e5
      refine MemFrom.copyDone (h5.foldl fun s l h => ?_)
      split
      split
      · exact h.putLine
      · exact h

theorem MemFrom.execCopyCmd {q serial} (h : MemFrom true s0 s) : MemOut true s0 (execCopyCmd q serial s) := by
  unfold Machine.execCopyCmd
  refine MemFrom.onCopy ?_ (fun c => ?_)
  · exact h
  · dsimp only
    split
    · exact h.copyRun fun _ _ h => h
    · exact h.done

theorem MemFrom.execFillCmd {q serial} (h : MemFrom true s0 s) : MemOut true s0 (execFillCmd q serial s) := by
  unfold Machine.execFillCmd
  refine MemFrom.onCopy ?_ (fun c => ?_)
  · exact h
  · dsimp only
    split
    · exact h.copyRun fun _ _ h => h
    · exact h.done

theorem MemFrom.cmdRound {c} (h : MemFrom w s0 s) : MemFrom w s0 (Cmd.round c s).2 := by
  unfold Machine.Cmd.round
  split
  · exact h.pair
  · exact h.pair
  · exact h.drawNoise

theorem MemFrom.quantOut {c src dst scl lin ls} (h : MemFrom w s0 s) : MemFrom w s0 (quantOut c src dst scl lin ls s).2 := by
  refine MemFrom.foldl_2 h fun acc blk h => ?_
  split
  refine MemFrom.foldl_2 h fun acc v h => ?_
  exact h.cmdRound

theorem MemFrom.convOut {c src dst lin ls} (h : MemFrom w s0 s) : MemFrom w s0 (convOut c src dst lin ls s).2 := by
  unfold Machine.convOut
  dsimp only
  refine MemFrom.foldl_2 ?_ fun s x h => ?_
  · exact h.pair
  · split
    · exact h.pair
    · exact h.cmdRound.pair

theorem MemFrom.execConvert {q serial} (h : MemFrom true s0 s) : MemOut true s0 (execConvert q serial s) := by
  unfold Machine.execConvert
  refine MemFrom.onCopy ?_ (fun c => ?_)
  · exact h
  · dsimp only
    split
    · exact h.done
    · refine MemFrom.copyRun ?_ (fun ls s h => ?_)
      · exact h
      · split
        · exact h.quantOut
        · exact h.convOut

theorem MemFrom.execAddCmd {q serial} (h : MemFrom true s0 s) : MemOut true s0 (execAddCmd q serial s) := by
  unfold Machine.execAddCmd
  refine MemFrom.onCopy ?_ (fun c => ?_)
  · exact h
  · dsimp only
    split
    · exact h.done
    · split
      · exact h.copyFail (h.translateRuns.translateRuns.countXltFault)
      · split
        · exact h.translateRuns.translateRuns.done
        · split
          · exact h
          · split
            · rename_i s1 e1
              have h1 : MemFrom true s0 s1 := h.translateRuns.translateRuns.gotLines.of_eq e1
              exact h1
            · rename_i s1 e1
              have h1 : MemFrom true s0 s1 := h.translateRuns.translateRuns.gotLines.of_eq e1
              exact h1
            · rename_i s1 e1
              have h1 : MemFrom true s0 s1 := h.translateRuns.translateRuns.gotLines.of_eq e1
              refine MemFrom.copyDone ?_
              refine MemFrom.foldl ?_ fun s x h => ?_
              · exact h1.upToKill
              · split
                · exact h.lineReduce
                · exact h

/-! Fabric commands. -/

theorem MemFrom.onFx {q serial opc f} (h : MemFrom w s0 s) (hf : ∀ c, MemFrom w s0 (f c)) : MemOut w s0 (onFx q serial opc s f) := by
  refine MemFrom.next ?_
  split
  · exact h
  · exact .ite (hf _) h

theorem MemFrom.sendFor {c k} (h : MemFrom w s0 s) : MemFrom w s0 (sendFor s c k) := h.sendReq.modCmd

theorem MemFrom.sendBytes {c stream txg flags g n src} (h : MemFrom w s0 s) : MemFrom w s0 (sendBytes s c stream txg flags g n src) :=
  h.foldl fun _ _ h => h.sendFor

theorem MemFrom.putLocal {c txg wo va n src} (h : MemFrom true s0 s) : MemFrom true s0 (putLocal s c txg wo va n src) := by
  unfold Machine.putLocal
  refine MemFrom.foldl ?_ fun s x h => ?_
  · exact h
  · dsimp only
    split
    · exact h.putLine
    · exact h

theorem MemFrom.letGo {c} (h : MemFrom w s0 s) : MemFrom w s0 (letGo s c) := h.upd.modCmd

theorem MemFrom.localAnchor {c} (h : MemFrom true s0 s) : MemFrom true s0 (localAnchor s c) := by
  unfold Machine.localAnchor
  dsimp only
  split
  · split
    · exact h.done
    · split
      · exact h
      · split
        · exact h.ctrXlate.lineSignal.done
        · exact h.ctrXlate.sendFor.done
        · exact h.ctrXlate.countXltFault.faulted
  · exact h.ifs (·.opt (·.done)) (·.ifs (·.done) (·.commitStart.modCmd))

theorem MemFrom.execPut {q serial} (h : MemFrom true s0 s) : MemOut true s0 (execPut q serial s) := by
  unfold Machine.execPut
  refine MemFrom.onFx ?_ (fun c => ?_)
  · exact h
  · extract_lets g n st ctr stream anchor early local_ lines s1 x
    have h1 : MemFrom true s0 s1 := h.opt (·.letGo)
    clear_value g n st ctr stream anchor early local_ lines s1 x
    split
    · split
      · exact h.done
      · split
        · exact h.done
        · dsimp only
          split
          · refine MemFrom.faulted ?_
            refine MemFrom.countXltFault ?_
            split
            · refine MemFrom.ctrXlate ?_
              split
              · exact h.translateRuns.translateRuns
              · exact h.translateRuns.pair
            · split
              · exact h.translateRuns.translateRuns.pair
              · exact h.translateRuns.pair
          · split
            · split
              · split
                · exact h
                · split
                  · rename_i s2 e2
                    have h2 : MemFrom true s0 s2 := h.translateRuns.translateRuns.ctrXlate.gotLines.of_eq e2
                    exact h2
                  · rename_i s2 e2
                    have h2 : MemFrom true s0 s2 := h.translateRuns.translateRuns.ctrXlate.gotLines.of_eq e2
                    exact h2.faulted
                  · rename_i s2 e2
                    have h2 : MemFrom true s0 s2 := h.translateRuns.translateRuns.ctrXlate.gotLines.of_eq e2
                    exact h2.putLocal.modCmd
              · split
                · contradiction
                · split
                  · rename_i s2 e2
                    have h2 : MemFrom true s0 s2 := h.translateRuns.ctrXlate.gotLines.of_eq e2
                    exact h2
                  · rename_i s2 e2
                    have h2 : MemFrom true s0 s2 := h.translateRuns.ctrXlate.gotLines.of_eq e2
                    exact h2.faulted
                  · rename_i s2 e2
                    have h2 : MemFrom true s0 s2 := h.translateRuns.ctrXlate.gotLines.of_eq e2
                    exact h2.sendBytes.modCmd
            · split
              · split
                · exact h
                · split
                  · rename_i s2 e2
                    have h2 : MemFrom true s0 s2 := h.translateRuns.translateRuns.gotLines.of_eq e2
                    exact h2
                  · rename_i s2 e2
                    have h2 : MemFrom true s0 s2 := h.translateRuns.translateRuns.gotLines.of_eq e2
                    exact h2.faulted
                  · rename_i s2 e2
                    have h2 : MemFrom true s0 s2 := h.translateRuns.translateRuns.gotLines.of_eq e2
                    exact h2.putLocal.modCmd
              · split
                · contradiction
                · split
                  · rename_i s2 e2
                    have h2 : MemFrom true s0 s2 := h.translateRuns.gotLines.of_eq e2
                    exact h2
                  · rename_i s2 e2
                    have h2 : MemFrom true s0 s2 := h.translateRuns.gotLines.of_eq e2
                    exact h2.faulted
                  · rename_i s2 e2
                    have h2 : MemFrom true s0 s2 := h.translateRuns.gotLines.of_eq e2
                    exact h2.sendBytes.modCmd
    · exact .ite (h) (h1.ifs (·.sendFor.done) (·.done))
    · exact h.ifs (·.localAnchor) (·.done)

theorem MemFrom.execRfence {q serial} (h : MemFrom w s0 s) : MemOut w s0 (execRfence q serial s) :=
  h.onFx fun _ => h.modCmd.optElse (·.upd.done)

theorem MemFrom.execAllreduce {q serial} (h : MemFrom true s0 s) : MemOut true s0 (execAllreduce q serial s) := by
  unfold Machine.execAllreduce
  refine MemFrom.onFx ?_ (fun c => ?_)
  · exact h
  · dsimp only
    split
    · split
      · rename_i s1 e1
        have h1 : MemFrom true s0 s1 := h.cmdLines.of_eq e1
        exact h1
      · rename_i s1 e1
        have h1 : MemFrom true s0 s1 := h.cmdLines.of_eq e1
        exact h1.faulted
      · rename_i s1 e1
        have h1 : MemFrom true s0 s1 := h.cmdLines.of_eq e1
        split
        · exact h1.done
        · split
          · exact h1.translateRuns.ifs (·.done) (·.countXltFault.faulted)
          · split
            · exact h1.translateRuns.done
            · split
              · exact h
              · split
                · rename_i s2 e2
                  have h2 : MemFrom true s0 s2 := h1.translateRuns.gotLines.of_eq e2
                  exact h2
                · rename_i s2 e2
                  have h2 : MemFrom true s0 s2 := h1.translateRuns.gotLines.of_eq e2
                  exact h2
                · rename_i s2 e2
                  have h2 : MemFrom true s0 s2 := h1.translateRuns.gotLines.of_eq e2
                  exact h2.upd.modCmd.foldl fun _ _ h => h.foldl fun _ _ h => h.modCmd.sendFor
    · exact h.done
    · exact h

theorem MemFrom.execAllreduceGather {q serial} (h : MemFrom true s0 s) : MemOut true s0 (execAllreduceGather q serial s) := by
  unfold Machine.execAllreduceGather
  refine MemFrom.onFx ?_ (fun c => ?_)
  · exact h
  · dsimp only
    split
    · exact h
    · split
      · rename_i s1 e1
        have h1 : MemFrom true s0 s1 := h.cmdLines.of_eq e1
        exact h1
      · rename_i s1 e1
        have h1 : MemFrom true s0 s1 := h.cmdLines.of_eq e1
        exact h1.faulted
      · rename_i s1 e1
        have h1 : MemFrom true s0 s1 := h.cmdLines.of_eq e1
        exact h1.modCmd.foldl fun _ _ h => h.foldl fun _ _ h => h.modCmd.sendFor

theorem MemFrom.execScatter {q serial} (h : MemFrom true s0 s) : MemOut true s0 (execScatter q serial s) := by
  refine h.onCmd fun c => h.ifs (·.done) fun h => ?_
  split
  · split
    next e => exact h.cmdLines.of_eq e
    next e => exact MemFrom.faulted (h.cmdLines.of_eq e)
    next s1 e =>
      have h1 : MemFrom true s0 s1 := h.cmdLines.of_eq e
      extract_lets ixs tl
      split
      next e => exact h1.cmdLines.of_eq e
      next e => exact MemFrom.faulted (h1.cmdLines.of_eq e)
      next s2 e =>
        have h2 : MemFrom true s0 s2 := h1.cmdLines.of_eq e
        extract_lets ds go
        refine h2.ifs (·.done) fun h2 => ?_
        split
        next e => exact h2.cmdLines.of_eq e
        next e => exact MemFrom.faulted (h2.cmdLines.of_eq e)
        next s3 e =>
          have h3 : MemFrom true s0 s3 := h2.cmdLines.of_eq e
          extract_lets here
          split
          next e4 =>
          have h4 := h3.translateRuns.of_pair e4
          exact .ite h4.countXltFault.faulted (h.optElse fun _ => (h4.foldl fun _ _ h => h.modCmd.ifs (·.putLocal) (·.sendBytes)).done)
  · exact h.done

/-! Management commands. -/

theorem MemFrom.meShow {e} (h : MemFrom w s0 s) : MemFrom w s0 (meShow s e) := by
  unfold Machine.meShow
  split
  · exact h.modBlk
  · exact h

theorem MemFrom.progPair {c o result} (h : MemFrom true s0 s) : MemFrom true s0 (progPair s c o result) := h.optElse (·.writeLate)

theorem MemFrom.opBegin {c items} (h : MemFrom w s0 s) : MemFrom w s0 (opBegin s c items) := h.upd.modCmd.meShow

theorem MemFrom.opStep {q n value} (h : MemFrom true s0 s) : MemFrom true s0 (opStep s q n value) := by
  unfold Machine.opStep
  split
  · split
    · exact h.optElse (·.modCmd.progPair.meShow)
    · exact h
  · exact h

theorem MemFrom.opFinish {q n status result} (h : MemFrom true s0 s) : MemFrom true s0 (opFinish s q n status result) := by
  unfold Machine.opFinish
  split
  · split
    · exact h.optElse (·.progPair.modCmd.modBlk.meShow.opt (·.errSet))
    · exact h.endCmd
  · exact h

theorem MemFrom.execQueueCreate {q serial} (h : MemFrom true s0 s) : MemOut true s0 (execQueueCreate q serial s) := by
  unfold Machine.execQueueCreate
  refine MemFrom.onMe ?_ (fun c => ?_)
  · exact h
  · dsimp only
    split
    · split
      · exact h.done
      · refine MemFrom.done ?_
        refine MemFrom.setQlive ?_
        refine MemFrom.physWrite ?_
        split
        · refine MemFrom.takeFree ?_
          split
          · exact h.takeFree
          · exact h.pair
        · split
          · exact h.takeFree.pair
          · exact h.pair
    · exact h.done

theorem MemFrom.execQueueSet {q serial} (h : MemFrom true s0 s) : MemOut true s0 (execQueueSet q serial s) :=
  h.onMe fun _ => h.ifs (·.done) fun h => h.ifs (·.done) fun h => (h.physWrite.upd.opt (·.dropVirt)).done

theorem MemFrom.execQueueStop {q serial} (h : MemFrom true s0 s) : MemOut true s0 (execQueueStop q serial s) :=
  h.onMe fun _ => h.ifs (·.ifs (·.done) (·.opBegin.opt (·.setQState.queueIdleCheck))) (·.ifs (·.opStep.opFinish) (·.opt
    (·.opFinish.modCmd)))

theorem MemFrom.execQueueStart {q serial} (h : MemFrom true s0 s) : MemOut true s0 (execQueueStart q serial s) :=
  h.onMe fun _ => h.ifs (·.done) fun h => (h.setQState.setQd.opt (·.setQd.setQlive.dropVirt)).done

theorem MemFrom.dropFetched {n} (h : MemFrom w s0 s) : MemFrom w s0 (dropFetched s n) := by
  unfold Machine.dropFetched
  extract_lets s1
  have h1 : MemFrom w s0 s1 := h.upd
  clear_value s1
  split
  · exact h1.dropVirt
  · exact h1

theorem MemFrom.execQueueDestroy {q serial} (h : MemFrom true s0 s) : MemOut true s0 (execQueueDestroy q serial s) :=
  h.onMe fun _ => h.optElse (·.ifs (·.done) (·.setQState.opBegin.dropFetched.askKills.opStep))

theorem MemFrom.leaveTxgs {d sel} (h : MemFrom w s0 s) : MemFrom w s0 (leaveTxgs s d sel) := h.foldl fun _ _ h => h.opt (·.txgAbort)

theorem MemFrom.execDestroyDieAck {n d} (h : MemFrom true s0 s) : MemOut true s0 (execDestroyDieAck n d s) := by
  unfold Machine.execDestroyDieAck
  refine MemFrom.next ?_
  dsimp only
  split
  · exact h
  · exact h.optElse (·.endWatchesOn.leaveTxgs.modCmd.opStep.optElse (·.dropEnded.setQState.setQd.setQd.setQd.upd.opFinish))

theorem MemFrom.execOpAbort {q serial} (h : MemFrom w s0 s) : MemOut w s0 (execOpAbort q serial s) := by
  unfold Machine.execOpAbort
  refine MemFrom.onMe ?_ (fun c => ?_)
  · exact h
  · dsimp only
    split
    · exact h
    · split
      · exact h.done
      · split
        · exact h.done
        · split
          · exact h.ifs (·.done) (·.done)
          · exact h.ifs (·.done) (·.ifs (·.done) (·.ifs (·.ifs (·.modCmd) (·.done)) (·.modCmd.ifs (·.done) (·.modCmd))))

theorem MemFrom.execCtxBind {q serial} (h : MemFrom true s0 s) : MemOut true s0 (execCtxBind q serial s) :=
  h.onMe fun _ => h.ifs (·.done) (·.setCtxEntry.done)

theorem MemFrom.execCtxUnbind {q serial} (h : MemFrom true s0 s) : MemOut true s0 (execCtxUnbind q serial s) :=
  h.onMe fun _ => h.ifs (·.done) (·.setCtxEntry.done)

theorem MemFrom.putSpace {c sp st act img} (h : MemFrom true s0 s) : MemFrom true s0 (putSpace s c sp st act img) := h.physWrite

theorem MemFrom.setSpaceState {c sp st} (h : MemFrom true s0 s) : MemFrom true s0 (setSpaceState s c sp st) := h.lineWriteN

theorem MemFrom.l2Flush {slot} (h : MemFrom true s0 s) : MemFrom true s0 (l2Flush s slot) := by
  unfold Machine.l2Flush
  exact (h.foldl fun _ _ h => h.foldl fun _ _ h => h.dropClean).upd

theorem MemFrom.execSpaceCreate {q serial} (h : MemFrom true s0 s) : MemOut true s0 (execSpaceCreate q serial s) := by
  unfold Machine.execSpaceCreate
  refine MemFrom.onMe ?_ (fun c => ?_)
  · exact h
  · dsimp only
    split
    · exact h.done
    · split
      · exact h.done
      · exact h.putSpace.done

theorem MemFrom.execSpaceSet {q serial} (h : MemFrom true s0 s) : MemOut true s0 (execSpaceSet q serial s) := by
  unfold Machine.execSpaceSet
  refine MemFrom.onMe ?_ (fun c => ?_)
  · exact h
  · extract_lets sp img st old s1
    have h1 : MemFrom true s0 s1 := h.putSpace
    clear_value sp img st old s1
    split
    · exact h.done
    · split
      · exact h.done
      · exact .ite (h.done) ((h1.opt (·.upd)).done)

theorem MemFrom.applyKeys {sp} (h : MemFrom true s0 s) : MemFrom true s0 (applyKeys s sp) := by
  unfold Machine.applyKeys
  exact (h.foldl fun _ _ h => h.l2Flush).upd

theorem MemFrom.execSpaceRestart {q serial} (h : MemFrom true s0 s) : MemOut true s0 (execSpaceRestart q serial s) :=
  h.onMe fun _ => h.ifs (·.done) (·.applyKeys.setSpaceState.done)

theorem MemFrom.execSpaceStop {q serial} (h : MemFrom true s0 s) : MemOut true s0 (execSpaceStop q serial s) :=
  h.onMe fun _ => h.ifs (fun h => h.ifs (·.done) fun h => (h.opBegin.foldl fun _ _ h => h.opt
    (·.setQState.queueIdleCheck)).foldl fun _ _ h => h.foldl fun _ _ h => h.opt (·.stopWg.modCmd)) (·.optElse
    (·.setSpaceState.opStep.opFinish))

theorem MemFrom.dropEntries {d sp va len} (h : MemFrom w s0 s) : MemFrom w s0 (dropEntries s d sp va len).2 := h.upd rfl rfl

theorem MemFrom.shootL1 {d sp} (h : MemFrom w s0 s) : MemFrom w s0 (shootL1 s d sp) :=
  h.foldl fun _ _ h => h.optElse (·.ifs (·.l1Inval.modTile) (·.modTile))

theorem MemFrom.shootStart {c sp va len} (h : MemFrom w s0 s) : MemFrom w s0 (shootStart s c sp va len) :=
  h.modCmd.foldl fun _ _ h => h.dropEntries.modCmd

theorem MemFrom.shootGo {c sp} (h : MemFrom true s0 s) : MemFrom true s0 (shootGo s c sp) :=
  ((h.foldl fun _ _ h => h.prefSweep).foldl fun _ _ h => h.shootL1).modCmd.opStep.opt (·.opFinish)

theorem MemFrom.execShootdown {q serial} (h : MemFrom true s0 s) : MemOut true s0 (execShootdown q serial s) :=
  h.onMe fun _ => h.ifs (·.shootGo) (·.ifs (·.done) (·.opBegin.shootStart))

theorem MemFrom.execSpaceTable {q serial} (h : MemFrom true s0 s) : MemOut true s0 (execSpaceTable q serial s) :=
  h.onMe fun _ => h.ifs (·.shootGo) (·.ifs (·.done) (·.opBegin.lineWriteN.shootStart))

theorem MemFrom.execSpaceRetire {q serial} (h : MemFrom true s0 s) : MemOut true s0 (execSpaceRetire q serial s) := by
  unfold Machine.execSpaceRetire
  refine MemFrom.onMe ?_ (fun c => ?_)
  · exact h
  · dsimp only
    split
    · exact h
    · split
      · exact h.done
      · split
        · rename_i s1 e1
          have h1 : MemFrom true s0 s1 := h.cmdLines.of_eq e1
          exact h1
        · rename_i s1 e1
          have h1 : MemFrom true s0 s1 := h.cmdLines.of_eq e1
          exact h1.faulted
        · rename_i s1 e1
          have h1 : MemFrom true s0 s1 := h.cmdLines.of_eq e1
          exact h1.ifs (·.done) fun h => (h.opBegin.setSpaceState.foldl fun _ _ h => h.setQState.dropFetched.askKills).modCmd

theorem MemFrom.retireShoot {sp} (h : MemFrom true s0 s) : MemOpt true s0 (retireShoot s sp) := by
  unfold Machine.retireShoot
  split
  · exact trivial
  · exact (h.foldl fun _ _ h => h.dropEntries.shootL1).foldl fun _ _ h => h.setQState.setQd.setQd.setQd.upd

theorem MemFrom.execRetireStage {sp d} (h : MemFrom true s0 s) : MemOut true s0 (execRetireStage sp d s) := by
  unfold Machine.execRetireStage
  refine MemFrom.next ?_
  split
  · exact h
  · split
    · exact h
    · extract_lets ack s1 s2 a s3
      have h1 : MemFrom true s0 s1 := h.endWatchesOn
      have h2 : MemFrom true s0 s2 := (h.opStep.ifs (·.modCmd) (·.modCmd)).setSpaceState
      have h3 : MemFrom true s0 s3 := h2.lineWriteN.lineWriteN.physWrite
      clear_value s1 s2 a s3
      split
      · exact h1.settleWaits.leaveTxgs.opStep.ifs (·.modCmd) (·.modCmd)
      · exact h.optElse (·.opStep.ifs (·.modCmd) (·.modCmd))
      · split
        · exact h
        · split
          · exact h.opStep.ifs (·.modCmd) (·.modCmd)
          · split
            · exact h
            · split
              · exact h
              · rename_i s4 e4
                have h4 : MemFrom true s0 s4 := h.dropEnded.retireShoot.of_eq e4
                exact h4.opStep.ifs (·.modCmd) (·.modCmd)
      · exact .ite (h.opStep.ifs (·.modCmd) (·.modCmd)) (h3.opFinish)

theorem MemFrom.execHandleFree {q serial} (h : MemFrom true s0 s) : MemOut true s0 (execHandleFree q serial s) := by
  unfold Machine.execHandleFree
  refine MemFrom.onMe ?_ (fun c => ?_)
  · exact h
  · extract_lets sp h1 idx obj use n s1
    have h1' : MemFrom true s0 s1 := h.opBegin
    clear_value sp h1 idx obj use n s1
    split
    · exact .ite (h.done) (.ite (h.done) (.ite (h.done) (h1'.ifs (·.lineWriteN.opFinish) (·.setUse))))
    · exact h.ifs (·.opStep.opFinish) (·.opStep)

theorem MemFrom.execAbandonClear {q serial} (h : MemFrom w s0 s) : MemOut w s0 (execAbandonClear q serial s) :=
  h.onMe fun _ => h.ifs (·.done) (·.ifs (·.done) (·.setBel.done))

theorem MemFrom.execPreempt {q serial} (h : MemFrom w s0 s) : MemOut w s0 (execPreempt q serial s) := by
  unfold Machine.execPreempt
  refine MemFrom.onMe ?_ (fun c => ?_)
  · exact h
  · dsimp only
    split
    · exact h.done
    · split
      · split
        · split
          · refine MemFrom.foldl ?_ fun s x h => ?_
            · exact h.modCmd
            · split
              · exact h.opt (·.stopWg.modCmd)
              · exact h
          · refine MemFrom.done ?_
            refine MemFrom.foldl ?_ fun s x h => ?_
            · exact h.modCmd
            · split
              · exact h.opt (·.stopWg.modCmd)
              · exact h
        · split
          · refine MemFrom.foldl ?_ fun s x h => ?_
            · exact h.modCmd
            · split
              · exact h.opt (·.stopWg.modCmd)
              · exact h
          · refine MemFrom.done ?_
            refine MemFrom.foldl ?_ fun s x h => ?_
            · exact h.modCmd
            · split
              · exact h.opt (·.stopWg.modCmd)
              · exact h
      · refine MemFrom.foldl ?_ fun s x h => ?_
        · exact h.modCmd
        · split
          · exact h.opt (·.stopWg.modCmd)
          · exact h

end Sys2Proof.Laws
end

