-- ==== Sys2Proof/Proofs/MemFabric.lean ====
section
/-!
SUPPORT. `MemFrom` along the functions of the links, the memory window, the domain, the host link and releases.
-/
namespace Sys2Proof.Laws
open Sys2Proof.Machine Sys2Proof.Safety

-- Elaborated side by side, so many small lemmas ask for more threads than the memory limit allows.
set_option Elab.async false

variable {w : Bool} {s0 s t : State} {α β : Type}

/-! Links. -/

theorem MemFrom.portErr {p bit addr} (h : MemFrom w s0 s) : MemFrom w s0 (portErr s p bit addr) := h.ifs (·.opt (·.errSet)) (·.errSet)

theorem MemFrom.setWidth {p w'} (h : MemFrom w s0 s) : MemFrom w s0 (setWidth s p w') := h.setRegF.setRegF.opt (·.portErr)

theorem MemFrom.handBack {k req} (h : MemFrom w s0 s) : MemFrom w s0 (handBack s k req) := by
  unfold Machine.handBack
  split
  · exact h.modReq
  · exact h.ifs (·.holdAnswer) (·.optElse (·.answer))

theorem MemFrom.handAll {p} (h : MemFrom w s0 s) : MemFrom w s0 (handAll s p) := by
  unfold Machine.handAll
  extract_lets x s1 s2
  have h1 : MemFrom w s0 s1 := h.setPort
  have h2 : MemFrom w s0 s2 := by
    unfold s2
    refine MemFrom.foldl ?_ fun s x h => ?_
    · exact h1
    · split
      · exact h.handBack
      · exact h
  clear_value x s1 s2
  exact h2.foldl fun _ _ h => h.handBack

theorem MemFrom.setQuar {p reason} (h : MemFrom w s0 s) : MemFrom w s0 (setQuar s p reason) := h.setRegF.setRegF

theorem MemFrom.linkDown {p reason} (h : MemFrom w s0 s) : MemFrom w s0 (linkDown s p reason) :=
  ((h.setLink.setRegF.setRegF.setRegF.modPort.opt (·.portErr)).opt (·.setQuar)).handAll

theorem MemFrom.toTrain {p} (h : MemFrom w s0 s) : MemFrom w s0 (toTrain s p) := h.setLink.bumpF

theorem MemFrom.lanesFail {p} (h : MemFrom w s0 s) : MemFrom w s0 (lanesFail s p) := h.linkDown

theorem MemFrom.execDetectTimeout {p} (h : MemFrom w s0 s) : MemOut w s0 (execDetectTimeout p s) := (h.opt (·.linkDown)).next

theorem MemFrom.execDetectRetry {p} (h : MemFrom w s0 s) : MemOut w s0 (execDetectRetry p s) := (h.opt (·.setLink)).next

theorem MemFrom.execPartnerDetect {p} (h : MemFrom w s0 s) : MemOut w s0 (execPartnerDetect p s) := (h.opt (·.toTrain)).next

theorem MemFrom.execLaneLockTimeout {p lane} (h : MemFrom w s0 s) : MemOut w s0 (execLaneLockTimeout p lane s) :=
  (h.opt (·.setRegF.opt (·.lanesFail))).next

theorem MemFrom.execTrainRetry {p} (h : MemFrom w s0 s) : MemOut w s0 (execTrainRetry p s) := (h.opt (·.setLink)).next

theorem MemFrom.entropyFail (h : MemFrom w s0 s) : MemFrom w s0 (entropyFail s) := h.upd.errSet.raise

theorem MemFrom.entropyWindow (h : MemFrom w s0 s) : MemFrom w s0 (entropyWindow s) := h.opt (·.injFire.entropyFail)

theorem MemFrom.sendKeyx {p} (h : MemFrom w s0 s) : MemFrom w s0 (sendKeyx s p) := h.entropyWindow.ifs (·.linkDown) (·.takeFree.modPort)

theorem MemFrom.sendRollcall {p} (h : MemFrom w s0 s) : MemFrom w s0 (sendRollcall s p) := h.emit

theorem MemFrom.toRollcall {p} (h : MemFrom w s0 s) : MemFrom w s0 (toRollcall s p) := h.ifs (·.setLink) (·.setLink.sendRollcall)

theorem MemFrom.execInitFlit {p enc credits bad} (h : MemFrom w s0 s) : MemOut w s0 (execInitFlit p enc credits bad s) :=
  (h.optElse (·.setRegF.ifs (·.lanesFail) (·.ifs (·.linkDown) (·.modPort.emit.setWidth.ifs (·.setLink.sendKeyx) (·.toRollcall))))).next

theorem MemFrom.takeHeader {p ackv ack cvc credits} (h : MemFrom w s0 s) : MemFrom w s0 (takeHeader s p ackv ack cvc credits) :=
  h.modPort.pump

theorem MemFrom.sendNak {p} (h : MemFrom w s0 s) : MemFrom w s0 (sendNak s p) := h.optElse (·.setPort.emit.bumpF)

theorem MemFrom.takeKeys {p pub nonce pub' nonce' rekey} (h : MemFrom w s0 s) : MemFrom w s0 (takeKeys s p pub nonce pub' nonce' rekey) :=
  h.modPort.setRegF

theorem MemFrom.execKeyxFlit {p f} (h : MemFrom w s0 s) : MemOut w s0 (execKeyxFlit p f s) := by
  unfold Machine.execKeyxFlit
  refine MemFrom.next ?_
  extract_lets st x s1 s2
  have h1 : MemFrom w s0 s1 := h.takeHeader.modPort
  have h2 : MemFrom w s0 s2 := h1.opt (·.sendKeyx)
  clear_value st x s1 s2
  split
  · exact h
  · split
    · exact h.opt (·.sendNak)
    · split
      · exact h.linkDown
      · split
        · exact h2
        · exact h2.takeKeys.opt (·.toRollcall)

theorem MemFrom.execKeyxTimeout {p} (h : MemFrom w s0 s) : MemOut w s0 (execKeyxTimeout p s) := (h.opt (·.linkDown)).next

theorem MemFrom.execRekey {p} (h : MemFrom w s0 s) : MemOut w s0 (execRekey p s) := (h.opt (·.sendKeyx)).next

theorem MemFrom.execLos {p} (h : MemFrom w s0 s) : MemOut w s0 (execLos p s) := (h.opt (·.linkDown)).next

theorem MemFrom.lateInject {pg bit} {due : List Nat} {ok : Bool} (h : MemFrom w s0 s) :
    MemFrom w s0 ((if ok then id else (Machine.injReal · pg bit)) (Machine.injFire s pg due)) := by
  cases ok
  · exact h.injFire.injReal
  · exact h.injFire

theorem MemFrom.flitInject {p f} (h : MemFrom w s0 s) : MemFrom w s0 (flitInject s p f).2 :=
  .ite_2 h.injFire.bumpF.pair (.ite_2 h.lateInject.pair (.ite_2 h.injFire.pair (.ite_2 h.lateInject.pair h.pair)))

theorem MemFrom.execDataFlit {p f0} (h : MemFrom w s0 s) : MemOut w s0 (execDataFlit p f0 s) :=
  (h.optElse (·.flitInject.ifs (·.bumpF.portErr.sendNak) (·.ifs (·.bumpF.sendNak) (·.takeHeader.ifs (·.opt (·.sendNak)) (·.ifs
    (·.bumpF.linkDown.portErr) (·.modPort)))))).next

theorem MemFrom.execIdleFlit {p ackv ack cvc credits} (h : MemFrom w s0 s) : MemOut w s0 (execIdleFlit p ackv ack cvc credits s) :=
  (h.opt (·.takeHeader)).next

theorem MemFrom.execIdleFlitDue {p} (h : MemFrom w s0 s) : MemOut w s0 (execIdleFlitDue p s) := (h.opt (·.emit)).next

theorem MemFrom.startRetrain {p} (h : MemFrom w s0 s) : MemFrom w s0 (startRetrain s p) := h.optElse (·.modPort.emit.setLink.bumpF)

theorem MemFrom.execNak {p ack} (h : MemFrom w s0 s) : MemOut w s0 (execNak p ack s) := by
  unfold Machine.execNak
  refine MemFrom.next ?_
  split
  · exact h
  · extract_lets s1 n s2
    have h1 : MemFrom w s0 s1 := h.modPort.bumpF
    have h2 : MemFrom w s0 s2 := h1.modPort
    clear_value s1 n s2
    split
    · exact h1.pump
    · exact h2.ifs (·.modPort.portErr.startRetrain) (·.pump)

theorem MemFrom.execLaneBad {p lane} (h : MemFrom w s0 s) : MemOut w s0 (execLaneBad p lane s) :=
  (h.optElse (·.setRegF.portErr.cardPut.startRetrain)).next

theorem MemFrom.execLsymWindow {p counts} (h : MemFrom w s0 s) : MemOut w s0 (execLsymWindow p counts s) := (h.opt (·.modPort)).next

theorem MemFrom.execRetrain {p bad} (h : MemFrom w s0 s) : MemOut w s0 (execRetrain p bad s) := (h.opt (·.setRegF.startRetrain)).next

theorem MemFrom.execRetrainDone {p ok} (h : MemFrom w s0 s) : MemOut w s0 (execRetrainDone p ok s) :=
  (h.optElse (·.ifs (·.setWidth.setLink.pump.opt (·.sendKeyx)) (·.setRegF.modPort.handAll.toTrain))).next

/-! The memory window. -/

theorem MemFrom.windowGives {bs mark} (h : MemFrom w s0 s) : MemFrom w s0 (windowGives s bs mark) := h.upd rfl rfl

theorem MemFrom.windowRefused {off n bit write} (h : MemFrom w s0 s) : MemFrom w s0 (windowRefused s off n bit write) :=
  h.bumpF.errSet.optElse (·.windowGives)

theorem MemFrom.winDo {a} (h : MemFrom true s0 s) : MemFrom true s0 (winDo s a).2 := by
  unfold Machine.winDo
  dsimp only
  split
  · split
    · split
      · exact h.translateRuns.countXltFault.windowRefused.raise.pair
      · exact h.translateRuns.countXltFault.windowRefused.pair
    · split
      · exact h.pair
      · exact h.writeVirt.pair
  · split
    · split
      · exact h.translateRuns.countXltFault.windowRefused.raise.pair
      · exact h.translateRuns.countXltFault.windowRefused.pair
    · split
      · rename_i s1 e1
        have h1 := h.readVirt.of_pair e1
        exact h1.windowGives.pair
      · rename_i s1 e1
        have h1 := h.readVirt.of_pair e1
        exact h1.pair
      · rename_i s1 e1
        have h1 := h.readVirt.of_pair e1
        exact h1.pair

theorem MemFrom.winBegin {tag off write data} (h : MemFrom true s0 s) : MemFrom true s0 (winBegin s tag off write data).2 := by
  unfold Machine.winBegin
  split
  · exact h.windowRefused.pair
  · split
    · exact h.windowRefused.pair
    · dsimp only
      split
      · rename_i s1 e1
        have h1 := h.winDo.of_pair e1
        exact h1.pair
      · rename_i s1 e1
        have h1 := h.winDo.of_pair e1
        exact h1.pair

theorem MemFrom.winGo {n} (h : MemFrom true s0 s) : MemFrom true s0 (winGo n s) := by
  induction n generalizing s with
  | zero => exact h
  | succ n ih =>
    unfold Machine.winGo
    refine h.ifs (fun h => h) fun h => ?_
    have pop (t : List HostAcc) : MemFrom true s0 { s with hostQ := t } := h.upd
    split
    · split
      next e => exact ih ((pop _).winDo.of_pair e)
      next e => exact ((pop _).winDo.of_pair e).upd
    · split
      next e => exact ih ((pop _).winBegin.of_pair e)
      next e => exact ((pop _).winBegin.of_pair e).upd
    · exact ih (pop _).doorbellAcc
    · exact h

theorem MemFrom.winResume (h : MemFrom true s0 s) : MemFrom true s0 (winResume s) := h.winGo

/-! The domain and its packets. -/

theorem MemFrom.countRefused (h : MemFrom w s0 s) : MemFrom w s0 (countRefused s) := h.bumpF

theorem MemFrom.arrive {p kind k f} (h : MemFrom w s0 s) (hf : ∀ s, MemFrom w s0 s → MemFrom w s0 (f s)) :
    MemOut w s0 (arrive p kind k s f) :=
  .next (h.ifs (fun h => h) (·.ifs (·.countRefused) (·.ifs (fun h => h) (·.ifs
    (·.ifs (·.sendOn) (·.optElse (·.answer))) (·.ifs (·.countRefused) (hf _))))))

theorem MemFrom.refuse {k} (h : MemFrom w s0 s) : MemFrom w s0 (refuse s k) := h.countRefused.errSet.answer

theorem MemFrom.holdPkt {p k} (h : MemFrom w s0 s) : MemFrom w s0 (holdPkt s p k) := h.upd rfl rfl

theorem MemFrom.imported {p k va a f} (h : MemFrom w s0 s) (hf : ∀ d s, MemFrom w s0 s → MemFrom w s0 (f d s)) :
    MemFrom w s0 (imported p k va a s f) := by
  refine h.ifs (·.refuse) fun h => ?_
  split
  next e => exact (h.translate.of_pair e).refuse
  next e => exact hf _ _ (h.translate.of_pair e)

theorem MemFrom.land {k} (h : MemFrom w s0 s) : MemFrom w s0 (land s k) := by
  unfold Machine.land
  split
  · exact h.upd
  · exact h.upd

theorem MemFrom.landed {k f} (h : MemFrom w s0 s) (hf : ∀ s, MemFrom w s0 s → MemFrom w s0 (f s)) : MemFrom w s0 (landed s k f) := by
  unfold Machine.landed
  split
  · exact h.answer
  · exact h.errSet.answer
  · exact h.answer
  · exact hf s h

theorem MemFrom.landDone {k} (h : MemFrom w s0 s) : MemFrom w s0 (landDone s k) := h.land.answer

theorem MemFrom.relayOn {k g mir} (h : MemFrom w s0 s) : MemFrom w s0 (relayOn s k g mir) := h.sendMir

theorem MemFrom.doWrite {p k} (h : MemFrom true s0 s) : MemFrom true s0 (doWrite p k s) := by
  refine h.landed fun s h => h.imported fun d s1 h1 => .ite (MemFrom.landDone ?_) ?_
  · split
    · exact h1.stageWrite
    · exact h1.stageWrite
    · exact h1.stageWrite
  · split
    · exact .ite h.holdPkt h1.lineWrite.landDone
    · exact .ite h.holdPkt h1.lineWrite.land.relayOn
    · exact h1.land.relayOn

theorem MemFrom.doRead {p k} (h : MemFrom true s0 s) : MemFrom true s0 (doRead p k s) := by
  refine h.imported fun d s1 h1 => ?_
  extract_lets slot give
  have hg : ∀ pa, MemFrom true s0 (give pa) := fun _ => .ite h.holdPkt h1.touchRead.answer
  split
  · exact hg _
  · exact hg _
  · exact h1.relayOn

theorem MemFrom.atomLanesAt {slot pa kind} {ls : List (Nat × Nat × Nat)} (h : MemFrom true s0 s) :
    MemFrom true s0 (ls.foldl (fun (acc : List Nat × State) l =>
      let (o, t) := Machine.lineAtomic acc.2 slot (lineBase pa + l.1) kind l.2.1 l.2.2
      (acc.1 ++ [o], t)) ([], s)).2 :=
  h.pair.foldl_2 fun _ _ h => h.lineAtomic

theorem MemFrom.doAtomic {p k} (h : MemFrom true s0 s) : MemFrom true s0 (doAtomic p k s) := by
  refine h.landed fun s h => h.imported fun d s1 h1 => ?_
  extract_lets slot give
  have hg : ∀ pa, MemFrom true s0 (give pa) := fun pa => by
    refine .ite h.holdPkt ?_
    have ha := (h1.atomLanesAt (slot := slot) (pa := pa) (kind := bits k.sub 3 0) (ls := atomLanes k.data)).land (k := k)
    exact .ite ha.answer ha.answer
  split
  · exact hg _
  · exact hg _
  · exact h1.land.relayOn

theorem MemFrom.doSignal {p k} (h : MemFrom true s0 s) : MemFrom true s0 (doSignal p k s) := by
  refine h.landed fun s h => h.imported fun d s1 h1 => ?_
  extract_lets slot
  split
  · exact .ite h.holdPkt h1.lineSignal.landDone
  · exact .ite h.holdPkt h1.lineSignal.landDone
  · exact h1.land.relayOn

theorem MemFrom.execAnchorPacket {p k} (h : MemFrom w s0 s) : MemOut w s0 (execAnchorPacket p k s) :=
  h.arrive fun _ h => h.landed fun _ h => h.optElse fun h => h.ifs (fun h => h.imported fun _ _ h => h.upd) (·.ifs (·.refuse) (·.upd))

theorem MemFrom.execAnchorRelease {src stream serial} (h : MemFrom true s0 s) : MemOut true s0 (execAnchorRelease src stream serial s) := by
  unfold Machine.execAnchorRelease
  refine MemFrom.next ?_
  split
  · exact h
  · split
    · exact h
    · dsimp only
      split
      · split
        · exact h.upd.landDone
        · split
          · rename_i s1 e1
            have h1 := h.translate.of_pair e1
            exact h1.upd.refuse
          · split
            · rename_i s1 _ _ e1
              have h1 := h.translate.of_pair e1
              exact h1.upd.land.relayOn
            · rename_i s1 _ _ e1
              have h1 := h.translate.of_pair e1
              exact .ite (h) (h1.upd.lineSignal.landDone)
            · rename_i s1 _ _ _ e1
              have h1 := h.translate.of_pair e1
              exact .ite (h) (h1.upd.lineSignal.landDone)
      · split
        · split
          · split
            · exact h.upd.landDone
            · split
              · rename_i s1 e1
                have h1 := h.translate.of_pair e1
                exact h1.upd.refuse
              · split
                · rename_i s1 _ _ e1
                  have h1 := h.translate.of_pair e1
                  exact h1.upd.land.relayOn
                · rename_i s1 _ _ e1
                  have h1 := h.translate.of_pair e1
                  exact .ite (h) (h1.upd.lineSignal.landDone)
                · rename_i s1 _ _ _ e1
                  have h1 := h.translate.of_pair e1
                  exact .ite (h) (h1.upd.lineSignal.landDone)
          · exact h.upd.answer
          · exact h
        · exact h.ifs (·.upd.answer) (·.commitStart.upd)

theorem MemFrom.collArrive {p k ctr f} (h : MemFrom w s0 s) (hf : ∀ slot pa s, MemFrom w s0 s → MemFrom w s0 (f slot pa s)) :
    MemFrom w s0 (collArrive p k ctr s f) := by
  refine h.landed fun s h => ?_
  refine h.ifs (·.refuse) fun h => ?_
  split
  · exact h.ifs (·.refuse) (·.answer)
  · refine h.ifs (·.refuse.modCmd) fun h => ?_
    split
    next e => exact h.ifs (·.holdPkt) fun _ => (hf _ _ _ (h.translate.of_pair e)).modCmd.landDone
    next e => exact (h.translate.of_pair e).refuse.modCmd

theorem MemFrom.doReduce {p k} (h : MemFrom true s0 s) : MemFrom true s0 (doReduce p k s) := h.collArrive fun _ _ _ h => h.lineReduce

theorem MemFrom.doGather {p k} (h : MemFrom true s0 s) : MemFrom true s0 (doGather p k s) := h.collArrive fun _ _ _ h => h.lineWrite

theorem MemFrom.watchHere {d w' k} (h : MemFrom w s0 s) : MemFrom w s0 (watchHere s d w' k) :=
  h.registerWatch.land.ifs (·.setBel) (·.answer)

theorem MemFrom.doWatch {p k} (h : MemFrom w s0 s) : MemFrom w s0 (doWatch p k s) := by
  refine .ite h.upd (h.landed fun s h => h.imported fun d s1 h1 => .ite h1.landDone ?_)
  split
  · exact .ite h.holdPkt h1.watchHere
  · exact .ite h.holdPkt h1.watchHere
  · exact h1.setBel.land.sendReq

theorem MemFrom.performPkt {p k} (h : MemFrom true s0 s) : MemFrom true s0 (performPkt p k s) :=
  h.ifs (·.doWrite) (·.ifs (·.doRead) (·.ifs (·.doAtomic) (·.ifs (·.doSignal) (·.ifs (·.doReduce) (·.ifs (·.doGather) (·.opt
    (·.doWatch)))))))

theorem MemFrom.releasePkts (h : MemFrom true s0 s) : MemFrom true s0 (releasePkts s) := h.upd.foldl fun _ _ h => h.performPkt

theorem MemFrom.execWritePacket {p k} (h : MemFrom true s0 s) : MemOut true s0 (execWritePacket p k s) := h.arrive fun _ h => h.performPkt

theorem MemFrom.execReadPacket {p k} (h : MemFrom true s0 s) : MemOut true s0 (execReadPacket p k s) := h.arrive fun _ h => h.performPkt

theorem MemFrom.execAtomicPacket {p k} (h : MemFrom true s0 s) : MemOut true s0 (execAtomicPacket p k s) := h.arrive fun _ h => h.performPkt

theorem MemFrom.execSignalPacket {p k} (h : MemFrom true s0 s) : MemOut true s0 (execSignalPacket p k s) := h.arrive fun _ h => h.performPkt

theorem MemFrom.execReducePacket {p k} (h : MemFrom true s0 s) : MemOut true s0 (execReducePacket p k s) := h.arrive fun _ h => h.performPkt

theorem MemFrom.execGatherPacket {p k} (h : MemFrom true s0 s) : MemOut true s0 (execGatherPacket p k s) := h.arrive fun _ h => h.performPkt

theorem MemFrom.execWatchPacket {p k} (h : MemFrom true s0 s) : MemOut true s0 (execWatchPacket p k s) := h.arrive fun _ h => h.performPkt

theorem MemFrom.execNotifyPacket {p k} (h : MemFrom w s0 s) : MemOut w s0 (execNotifyPacket p k s) := by
  unfold Machine.execNotifyPacket
  refine MemFrom.arrive ?_ (fun s h => ?_)
  · exact h
  · extract_lets d reg b s1
    have h1 : MemFrom w s0 s1 := h.setBel
    clear_value d reg b s1
    split
    · exact h.answer
    · exact h1.notifyWatch.answer.settleWaits

theorem MemFrom.watchTaken {d reg id} (h : MemFrom w s0 s) : MemFrom w s0 (watchTaken s d reg id) := by
  unfold Machine.watchTaken
  extract_lets s1
  have h1 : MemFrom w s0 s1 := h.delReq
  clear_value s1
  split
  · exact h1.admitted
  · exact h1

theorem MemFrom.closeReq {r res cause} (h : MemFrom true s0 s) : MemFrom true s0 (closeReq s r res cause) := by
  unfold Machine.closeReq
  extract_lets s1 s2
  have h1 : MemFrom true s0 s1 := h.endReq
  have h2 : MemFrom true s0 s2 := by
    unfold s2
    split
    · exact h1.ifs (·.watchTaken) (·.watchFailed)
    · exact h1.opt (·.modTile)
    · exact h1
  clear_value s1 s2
  exact h2.retryAll.settleWaits.winResume

theorem MemFrom.resend {r} (h : MemFrom true s0 s) : MemFrom true s0 (resend s r) := h.ifs (·.closeReq) (·.modReq.trySend)

theorem MemFrom.execAckPacket {p k} (h : MemFrom true s0 s) : MemOut true s0 (execAckPacket p k s) := by
  unfold Machine.execAckPacket
  refine MemFrom.arrive ?_ (fun s h => ?_)
  · exact h
  · split
    · exact h
    · exact h.ifs (·.closeReq) (·.ifs (·.modReq.bumpF) (·.ifs (·.closeReq) (·.ifs (·.closeReq) (·.ifs (·.modReq.resend) (·.opt
        (·.closeReq))))))

theorem MemFrom.execDataPacket {p k} (h : MemFrom true s0 s) : MemOut true s0 (execDataPacket p k s) := by
  unfold Machine.execDataPacket
  refine MemFrom.arrive ?_ (fun s h => ?_)
  · exact h
  · split
    · exact h
    · exact h.modReq.closeReq

theorem MemFrom.execBusyResend {id} (h : MemFrom w s0 s) : MemOut w s0 (execBusyResend id s) := by
  unfold Machine.execBusyResend
  refine MemFrom.next ?_
  split
  · exact h
  · exact h.opt (·.modReq.trySend)

theorem MemFrom.execPacketResend {id} (h : MemFrom true s0 s) : MemOut true s0 (execPacketResend id s) := by
  unfold Machine.execPacketResend
  refine MemFrom.next ?_
  split
  · exact h
  · exact h.opt (·.resend)

theorem MemFrom.execResendDeadline {id} (h : MemFrom true s0 s) : MemOut true s0 (execResendDeadline id s) := by
  unfold Machine.execResendDeadline
  refine MemFrom.next ?_
  split
  · exact h
  · exact h.optElse (·.ifs (·.closeReq) (·.modReq))

theorem MemFrom.execLandingExpire {src stream} (h : MemFrom w s0 s) : MemOut w s0 (execLandingExpire src stream s) := by
  unfold Machine.execLandingExpire
  refine MemFrom.next ?_
  split
  · exact h.opt (·.upd)
  · exact h

theorem MemFrom.endAllTo {dev res} (h : MemFrom true s0 s) : MemFrom true s0 (endAllTo s dev res) :=
  (h.foldl fun _ _ h => h.endReq.watchFailed).settleWaits.winResume

theorem MemFrom.execRouteTableUpdate {dst alts} (h : MemFrom true s0 s) : MemOut true s0 (execRouteTableUpdate dst alts s) :=
  (h.optElse (·.upd.ifs (·.endAllTo) (·.retryAll))).next

theorem MemFrom.quarantine {p reason} (h : MemFrom w s0 s) : MemFrom w s0 (quarantine s p reason) := h.setLink.setQuar.errSet

theorem MemFrom.becomeStale {p r} (h : MemFrom w s0 s) : MemFrom w s0 (becomeStale s p r) := h.setLink.setQuar.upd.errSet

theorem MemFrom.execRollCall {p r} (h : MemFrom w s0 s) : MemOut w s0 (execRollCall p r s) := by
  unfold Machine.execRollCall
  refine MemFrom.next ?_
  extract_lets st s1
  have h1 : MemFrom w s0 s1 := h.setLink.setQuar.modPort
  clear_value st s1
  split
  · exact h
  · split
    · exact h.quarantine
    · split
      · exact h.quarantine.raise
      · split
        · exact h.setLink
        · exact .ite (h.quarantine) (.ite (h.becomeStale) (.ite (h.setLink.setQuar) (.ite (h.ifs (·.becomeStale) (·.setLink.setQuar))
            (h1.pump.retryAll))))

theorem MemFrom.setMembership {e dead} (h : MemFrom w s0 s) : MemFrom w s0 (setMembership s e dead) :=
  (h.upd.setEpoch.optElse fun h => h.foldl fun _ _ h => h.sendRollcall).cardPut

theorem MemFrom.flood {c} (h : MemFrom w s0 s) : MemFrom w s0 (flood s c) := h.foldl fun _ _ h => h.emit

theorem MemFrom.epochEvent (h : MemFrom w s0 s) : MemFrom w s0 (epochEvent s) := h.raise

theorem MemFrom.watchesOfDead {x} (h : MemFrom w s0 s) : MemFrom w s0 (watchesOfDead s x) :=
  (h.foldl fun _ _ h => (h.setBel.foldl fun _ _ h => h.notifyWatch).foldl fun _ _ h => h.endWatch).settleWaits

theorem MemFrom.forgetDead {x} (h : MemFrom true s0 s) : MemFrom true s0 (forgetDead s x) := h.endAllTo.upd.watchesOfDead

theorem MemFrom.declareDead {x} (h : MemFrom true s0 s) : MemFrom true s0 (declareDead s x) := h.raise.errSet.forgetDead

theorem MemFrom.actLoss {x e} (h : MemFrom true s0 s) : MemFrom true s0 (actLoss s x e) :=
  h.ifs (·.opt (·.setMembership.flood.epochEvent)) (·.setMembership.flood.epochEvent.declareDead)

theorem MemFrom.actJoin {x e} (h : MemFrom w s0 s) : MemFrom w s0 (actJoin s x e) :=
  h.ifs (·.setMembership.flood.epochEvent) (·.opt (·.setMembership.flood.epochEvent))

theorem MemFrom.execLoss {p dev epoch} (h : MemFrom true s0 s) : MemOut true s0 (execLoss p dev epoch s) := (h.opt (·.actLoss)).next

theorem MemFrom.execJoinNotice {p dev epoch} (h : MemFrom w s0 s) : MemOut w s0 (execJoinNotice p dev epoch s) := (h.opt (·.actJoin)).next

theorem MemFrom.execStaleResync {_p} (h : MemFrom true s0 s) : MemOut true s0 (execStaleResync _p s) := by
  unfold Machine.execStaleResync
  refine MemFrom.next ?_
  split
  · exact h
  · split
    · exact h
    · exact (((h.upd.setMembership.foldl fun _ _ h => h.declareDead).foldl fun _ _ h => h.resend).retryAll.foldl fun _ _ h =>
        h.sendRollcall).opt (·.actJoin)

theorem MemFrom.execDepart {p} (h : MemFrom true s0 s) : MemOut true s0 (execDepart p s) := by
  unfold Machine.execDepart
  refine MemFrom.next ?_
  split
  · exact h
  · extract_lets s1
    have h1 : MemFrom true s0 s1 := h.linkDown
    clear_value s1
    split
    · exact h1.optElse (·.actLoss)
    · exact h1

theorem MemFrom.execHeartbeat {p} (h : MemFrom w s0 s) : MemOut w s0 (execHeartbeat p s) := (h.opt (·.emit)).next

theorem MemFrom.execHeartbeatTimeout {p} (h : MemFrom w s0 s) : MemOut w s0 (execHeartbeatTimeout p s) := (h.opt (·.quarantine)).next

theorem MemFrom.execNeighbourDead {dev} (h : MemFrom true s0 s) : MemOut true s0 (execNeighbourDead dev s) := (h.optElse (·.actLoss)).next

/-! The host link. -/

theorem MemFrom.setAlert {b} (h : MemFrom w s0 s) : MemFrom w s0 (setAlert s b) := h.setRegF

theorem MemFrom.setRing {r x} (h : MemFrom w s0 s) : MemFrom w s0 (setRing s r x) := h.upd rfl rfl

theorem MemFrom.hostWrite {a bs} (h : MemFrom true s0 s) : MemFrom true s0 (hostWrite s a bs) :=
  h.writes (fun k => k) (cellsOk_putCells bs a)

theorem MemFrom.writeEvent {e} (h : MemFrom true s0 s) : MemFrom true s0 (writeEvent s e) := by
  unfold Machine.writeEvent
  extract_lets x slotAt s1 s2
  have h1 : MemFrom true s0 s1 := by
    unfold s1
    split
    · exact h.hostWrite
    · exact h
  have h2 : MemFrom true s0 s2 := h1.hostWrite
  clear_value x slotAt s1 s2
  exact h2.setRing

theorem MemFrom.dropEvent {e} (h : MemFrom w s0 s) : MemFrom w s0 (dropEvent s e) := h.setRing.bumpF

theorem MemFrom.execEventPost (h : MemFrom true s0 s) : MemOut true s0 (execEventPost s) := by
  unfold Machine.execEventPost
  refine MemFrom.next ?_
  split
  · exact h.upd.ifs (·.writeEvent) (·.dropEvent)
  · split
    · exact h
    · exact h.upd.ifs (·.dropEvent) (·.ifs (·.writeEvent) (·.ifs (·.upd) (·.dropEvent.errSet.setAlert)))

theorem MemFrom.ringCtl {v} (h : MemFrom true s0 s) : MemFrom true s0 (ringCtl s v) := by
  unfold Machine.ringCtl
  dsimp only
  split
  · exact h.setRing
  · split
    · rename_i s1 e1
      have h1 := h.readVirt.of_pair e1
      exact h1.opt (·.setRing)
    · rename_i s1 _ e1
      have h1 := h.readVirt.of_pair e1
      exact h1

theorem MemFrom.ringCons {v} (h : MemFrom w s0 s) : MemFrom w s0 (ringCons s v) := h.setRing

theorem MemFrom.execMemWindowAccess {tag off write data} (h : MemFrom true s0 s) :
    MemOut true s0 (execMemWindowAccess tag off write data s) := by
  unfold Machine.execMemWindowAccess
  refine MemFrom.next ?_
  split
  · exact h
  · split
    · exact h.hostHold
    · split
      · rename_i s1 e1
        have h1 := h.winBegin.of_pair e1
        exact h1
      · rename_i s1 e1
        have h1 := h.winBegin.of_pair e1
        exact h1.hostHold

theorem MemFrom.execNhlLinkLoss (h : MemFrom w s0 s) : MemOut w s0 (execNhlLinkLoss s) := (h.opt (·.linkDown)).next

theorem MemFrom.execNhlLinkReturn (h : MemFrom w s0 s) : MemOut w s0 (execNhlLinkReturn s) :=
  (h.optElse fun h => (h.modPort.optElse (·.toTrain)).setRegF.setWidth.toRollcall).next

theorem MemFrom.reply {a} (h : MemFrom w s0 s) : MemFrom w s0 (reply s a) := h.upd rfl rfl

theorem MemFrom.execMctpControl {code arg} (h : MemFrom w s0 s) : MemOut w s0 (execMctpControl code arg s) := (h.opt (·.reply)).next

theorem MemFrom.execVendorReadStatus (h : MemFrom w s0 s) : MemOut w s0 (execVendorReadStatus s) := (h.opt (·.reply)).next

theorem MemFrom.execVendorClearAlert {mask} (h : MemFrom w s0 s) : MemOut w s0 (execVendorClearAlert mask s) := (h.opt (·.setReg)).next

theorem MemFrom.spdmError {code} (h : MemFrom w s0 s) : MemFrom w s0 (spdmError s code) := h.reply

theorem MemFrom.spdmInvalid {code} (h : MemFrom w s0 s) : MemFrom w s0 (spdmInvalid s code) := h.reply

theorem MemFrom.execGetVersion (h : MemFrom w s0 s) : MemOut w s0 (execGetVersion s) := (h.opt (·.reply)).next

theorem MemFrom.execGetCapabilities (h : MemFrom w s0 s) : MemOut w s0 (execGetCapabilities s) := (h.opt (·.reply)).next

theorem MemFrom.execNegotiateAlgorithms {offered} (h : MemFrom w s0 s) : MemOut w s0 (execNegotiateAlgorithms offered s) :=
  (h.opt (·.reply)).next

theorem MemFrom.execGetDigests (h : MemFrom w s0 s) : MemOut w s0 (execGetDigests s) := (h.opt (·.reply)).next

theorem MemFrom.execGetCertificate {slot off len} (h : MemFrom w s0 s) : MemOut w s0 (execGetCertificate slot off len s) :=
  (h.optElse (·.ifs (·.spdmInvalid) (·.reply))).next

theorem MemFrom.execChallenge {slot nonce} (h : MemFrom w s0 s) : MemOut w s0 (execChallenge slot nonce s) :=
  (h.optElse (·.ifs (·.spdmInvalid) (·.reply))).next

theorem MemFrom.execGetMeasurements {idx nonce} (h : MemFrom w s0 s) : MemOut w s0 (execGetMeasurements idx nonce s) :=
  (h.optElse (·.ifs (·.reply) (·.ifs (·.reply) (·.spdmInvalid)))).next

theorem MemFrom.execSpdmUnsupported {code} (h : MemFrom w s0 s) : MemOut w s0 (execSpdmUnsupported code s) := (h.opt (·.spdmError)).next

/-! Held lines and commit points. -/

theorem MemFrom.lineGives {bs mark} (h : MemFrom w s0 s) : MemFrom w s0 (lineGives s bs mark) := h.upd rfl rfl

theorem MemFrom.lineDo {o} (h : MemFrom true s0 s) : MemFrom true s0 (lineDo s o) := by
  unfold Machine.lineDo
  dsimp only
  split
  · exact h.touchRead.lineGives
  · split
    · exact h.stageWrite
    · exact h.lineWrite
  · split
    · exact h.stageWrite
    · exact h.lineWrite
  · exact h.optElse (·.lineAtomic.lineGives)

theorem MemFrom.lineArrives {w'} (h : MemFrom true s0 s) : MemFrom true s0 (lineArrives s w') := by
  unfold Machine.lineArrives
  extract_lets pa g x filling wait
  have hWait : MemFrom true s0 wait := h.setSlice
  clear_value pa g x filling wait
  split
  · exact hWait
  · split
    · exact .ite (h.setSlice) (.ite (hWait) (h.lineDo))
    · exact .ite (hWait) (h.lineReduce)
    · exact .ite (hWait) (h.lineWrite)

theorem MemFrom.resumeWaits {g} (h : MemFrom true s0 s) : MemFrom true s0 (resumeWaits s g) := h.setSlice.foldl fun _ _ h => h.lineArrives

theorem MemFrom.dbgLine (h : MemFrom true s0 s) : MemFrom true s0 (dbgLine s) := by
  unfold Machine.dbgLine
  dsimp only
  split
  · rename_i s1 e1
    have h1 := h.lookup.of_pair e1
    exact h1.setReg
  · split
    · rename_i s1 e1 _ _ _
      have h1 := h.lookup.of_pair e1
      exact h1.ifs (·.setReg) fun h => (h.touchRead.foldl fun _ _ h => h.setReg).setReg
    · rename_i s1 e1 _ _ _ _
      have h1 := h.lookup.of_pair e1
      exact h1.ifs (·.setReg) fun h => (h.touchRead.foldl fun _ _ h => h.setReg).setReg
    · rename_i s1 e1 _ _ _
      have h1 := h.lookup.of_pair e1
      exact h1.setReg

theorem MemFrom.releaseHeld (h : MemFrom true s0 s) : MemFrom true s0 (releaseHeld s) :=
  ((h.foldl fun _ _ h => h.resumeWaits).optElse (·.releasePkts)).settleWaits.winResume.opt (·.dbgLine)

theorem MemFrom.execL2LineAccess {o} (h : MemFrom true s0 s) : MemOut true s0 (execL2LineAccess o s) :=
  MemOut.ite (MemOut.fault) (h.lineArrives.next)

theorem MemFrom.execReduceWrite {slot pa addends} (h : MemFrom true s0 s) : MemOut true s0 (execReduceWrite slot pa addends s) :=
  MemOut.ite (MemOut.fault) (h.lineArrives.next)

theorem MemFrom.execHbmFillReturn {pa} (h : MemFrom true s0 s) : MemOut true s0 (execHbmFillReturn pa s) :=
  MemOut.ite (MemOut.fault) ((h.optElse fun h => (h.setSlice.foldl fun _ _ h => h.lineDo).resumeWaits).next)

theorem MemFrom.execEvictionWriteback {pa} (h : MemFrom true s0 s) : MemOut true s0 (execEvictionWriteback pa s) :=
  MemOut.ite (MemOut.fault) ((h.opt (·.setSlice.resumeWaits)).next)

theorem MemFrom.execTxgAbort {q serial} (h : MemFrom true s0 s) : MemOut true s0 (execTxgAbort q serial s) := by
  unfold Machine.execTxgAbort
  refine MemFrom.onCmd ?_ (fun c => ?_)
  · exact h
  · refine MemFrom.releaseHeld ?_
    dsimp only
    split
    · exact h.done
    · exact h.ifs (·.done) (·.txgAbort.done)

theorem MemFrom.execTxgCommitPoint {d p} (h : MemFrom true s0 s) : MemOut true s0 (execTxgCommitPoint d p s) := by
  unfold Machine.execTxgCommitPoint
  refine MemFrom.next ?_
  split
  · refine MemFrom.releaseHeld ?_
    split
    · rename_i s1 e1
      have h1 : MemFrom true s0 s1 := h.txgInject.of_eq e1
      exact h1
    · exact h.stageBad
    · exact h.commitPoint
  · exact h

theorem MemFrom.execTxgInstall {d slot p} (h : MemFrom true s0 s) : MemOut true s0 (execTxgInstall d slot p s) :=
  (h.opt fun h => (h.setTxg.foldl fun _ _ h => h.installLine).releaseHeld).next

theorem MemFrom.execKill {q serial cause} (h : MemFrom true s0 s) : MemOut true s0 (execKill q serial cause s) := by
  unfold Machine.execKill
  refine MemFrom.next ?_
  split
  · exact h
  · exact h.opt (·.startKill.releaseHeld)

end Sys2Proof.Laws
end

