-- ==== Sys2Proof/Proofs/MemEngines.lean ====
section
/-!
SUPPORT. `MemFrom` along the functions of the tile input and output, the row engine and the array.
-/
namespace Sys2Proof.Laws
open Sys2Proof.Machine Sys2Proof.Safety

-- Elaborated side by side, so many small lemmas ask for more threads than the memory limit allows.
set_option Elab.async false

variable {w : Bool} {s0 s t : State} {α β : Type}

/-! A slots. -/

theorem MemFrom.aSlotLines {a k vas} (h : MemFrom w s0 s) : MemFrom w s0 (ASlot.lines a s k vas).2 := by
  induction vas generalizing s a with
  | nil => exact h
  | cons va vas ih =>
    unfold Machine.ASlot.lines
    split
    next e => exact (ih (h.translate.of_pair e)).pair
    next e => exact (ih (h.translate.of_pair e)).pair

theorem MemFrom.aSlotEachNeed {a ns} (h : MemFrom w s0 s) : MemFrom w s0 (ASlot.eachNeed a s ns).2 := by
  induction ns generalizing s a with
  | nil => exact h
  | cons n ns ih => exact (ih h.aSlotLines.mergeWalks).pair

theorem MemFrom.aSlotXlate {a needs} (h : MemFrom w s0 s) : MemFrom w s0 (ASlot.xlate s a needs).2 := by
  unfold Machine.ASlot.xlate
  split
  · split
    · rename_i s1 e1 _ _ _
      have h1 := h.aSlotEachNeed.of_pair e1
      exact h1.countXltFault.pair
    · rename_i s1 e1 _ _
      have h1 := h.aSlotEachNeed.of_pair e1
      exact h1.pair

theorem MemFrom.aSlotAgain {a ls} (h : MemFrom w s0 s) : MemFrom w s0 (ASlot.again s a ls) := h.foldl fun _ _ h => h.lookup

theorem MemFrom.aSlotXfault {a raw last f} (h : MemFrom w s0 s) : MemFrom w s0 (ASlot.xfault s a raw last f) := by
  unfold Machine.ASlot.xfault
  split
  · exact h.groupFault
  · exact h

theorem MemFrom.aSlotGather {a ls} (h : MemFrom true s0 s) : MemFrom true s0 (ASlot.gather s a ls).2 := by
  unfold Machine.ASlot.gather
  dsimp only
  split
  · exact h.pair
  · split
    · exact (h.foldl fun _ _ h => h.sendReq).pair
    · split
      · exact h.touchDests.pair
      · exact h.pair

theorem MemFrom.aSlotDropReads {a} (h : MemFrom w s0 s) : MemFrom w s0 (ASlot.dropReads s a) := h.upd rfl rfl

theorem MemFrom.aSlotWgmRead {a xs} (h : MemFrom w s0 s) : MemFrom w s0 (ASlot.wgmRead s a xs) := by
  unfold Machine.ASlot.wgmRead
  split
  · exact h.wgmWords
  · exact h

theorem MemFrom.bankFree {t} (h : MemFrom w s0 s) : MemFrom w s0 (bankFree s t) := h.takeFree.bumpF.perfCount

theorem MemFrom.aSlotPut {a l bytes mark} (h : MemFrom true s0 s) : MemFrom true s0 (ASlot.put s a l bytes mark) := by
  unfold Machine.ASlot.put
  dsimp only
  split
  · exact h.lineWrite
  · exact h.lineWrite.sendMir
  · exact h.sendMir

theorem MemFrom.aSlotPutW {a ls} (h : MemFrom w s0 s) : MemFrom w s0 (ASlot.putW s a ls) := h.modWg

theorem MemFrom.aSlotWrite {a ws} (h : MemFrom true s0 s) : MemFrom true s0 (ASlot.write s a ws) :=
  (h.foldl fun _ _ h => h.aSlotPut).aSlotPutW

theorem MemFrom.aSlotClear {a} (h : MemFrom w s0 s) : MemFrom w s0 (ASlot.clear s a) := h.upd rfl rfl

theorem MemFrom.finishOffer {t n serial} (h : MemFrom true s0 s) : MemFrom true s0 (finishOffer s t n serial).1 := by
  unfold Machine.finishOffer
  split
  · exact h.pair1
  · split
    · exact h.pair1
    · split
      · exact h.pair1
      · extract_lets s1
        have h1 : MemFrom true s0 s1 := h.applyBundle
        clear_value s1
        split
        · exact h1.pair1
        · exact h1.pair1

theorem MemFrom.completeA {t n k} (h : MemFrom w s0 s) : MemFrom w s0 (completeA s t n k) := h.modGroup

/-! Data of the row engine. -/

theorem MemFrom.rowCompute {t p r i} (h : MemFrom w s0 s) : MemFrom w s0 (rowCompute s t p r i).2 := by
  unfold Machine.rowCompute
  dsimp only
  split
  · split
    · exact h.pair
    · split
      · exact h.pair
      · exact h.drawNoise.drawNoise.pair
  · split
    · exact h.drawMany.pair
    · exact h.pair

/-! The row engine. -/

theorem MemFrom.modRow {t f} (h : MemFrom w s0 s) : MemFrom w s0 (modRow s t f) := h.modTile

theorem MemFrom.sRead {a d cache addr} (h : MemFrom w s0 s) : MemFrom w s0 (sRead s a d cache addr).2 := by
  unfold Machine.sRead
  extract_lets vline o pair bs m s1
  have h1 : MemFrom w s0 s1 := h.bumpF
  clear_value vline o pair bs m s1
  split
  · exact h.bumpF.modRow.pair
  · exact (h1.opt (·.modRow)).pair

theorem MemFrom.sWrite {t space cache addr bs mark} (h : MemFrom w s0 s) : MemFrom w s0 (sWrite s t space cache addr bs mark) := by
  unfold Machine.sWrite
  dsimp only
  split
  · exact h.opt (·.modRow)
  · exact h.opt (·.modRow)

theorem MemFrom.aSlotReduce {a es} (h : MemFrom true s0 s) : MemFrom true s0 (ASlot.reduce s a es) := by
  unfold Machine.ASlot.reduce
  dsimp only
  refine MemFrom.foldl ?_ fun s x h => ?_
  · exact h
  · split
    · exact h.lineReduce
    · exact h.lineReduce
    · exact h.sendReq

theorem MemFrom.sideErrs {t space errs i ads} (h : MemFrom w s0 s) : MemFrom w s0 (sideErrs s t space errs i ads) := by
  unfold Machine.sideErrs
  extract_lets at_ s1
  have h1 : MemFrom w s0 s1 := h.opt (·.bumpF)
  clear_value at_ s1
  split
  · exact h1.modRow
  · exact h1

theorem MemFrom.rowConv {t p w'} (h : MemFrom w s0 s) : MemFrom w s0 (rowConv s t p w').2 := by
  unfold Machine.rowConv
  split
  · exact h.pair
  · split
    · exact h.pair
    · exact h.pair
    · exact h.drawNoise

theorem MemFrom.workErrs {t errs} (h : MemFrom w s0 s) : MemFrom w s0 (workErrs s t errs) :=
  h.foldl fun _ _ h => h.ifs (·.bumpF) (·.opt (·.errSet))

theorem MemFrom.itemErrs {t rows errs} (h : MemFrom w s0 s) : MemFrom w s0 (itemErrs s t rows errs).2 := by
  unfold Machine.itemErrs
  dsimp only
  split
  · exact h.injFire.pair
  · split
    · exact h.injFire.pair
    · exact h.pair

theorem MemFrom.rowOne {a p d fx dmark errs acc i} (h : MemFrom w s0 acc.st) :
    MemFrom w s0 (rowOne a p d fx dmark errs acc i).st := by
  unfold Machine.rowOne
  extract_lets r x sideBad sts inp bad outBad
  have hs : MemFrom w s0 sts.2.2 := MemFrom.foldl_22 h.sideErrs fun _ _ h => h.sRead
  clear_value sts
  split
  next e1 =>
  have h1 := hs.rowCompute.of_pair e1
  split
  next s2 e2 =>
  have h2 : MemFrom w s0 s2 := by
    refine MemFrom.of_pair (.ite_2 h1.pair (.ite_2 h1.pair (.ite_2 h1.pair ?_))) e2
    exact MemFrom.foldl_2 h1 fun _ _ h => h.rowConv
  extract_lets aw kw
  split
  next s3 e3 =>
  have h3 : MemFrom w s0 s3 := by
    refine MemFrom.of_pair ?_ e3
    split
    · exact h2.sWrite
    · exact h2
  exact (h3.opt (·.bumpF)).opt (·.bumpF)

theorem MemFrom.rowItem {a p fx dmark daddr errs} (h : MemFrom true s0 s) :
    MemFrom true s0 (rowItem s a p fx dmark daddr errs).2 := by
  unfold Machine.rowItem
  extract_lets rs stl need wl
  refine .ite_2 h.pair ?_
  split
  next e => exact (h.aSlotGather.of_pair e).pair
  next e =>
  have h1 := h.aSlotGather.of_pair e
  extract_lets s1
  have h1' : MemFrom true s0 s1 := h1.aSlotAgain.aSlotWgmRead.bankFree
  clear_value s1
  split
  next e2 =>
  have h2 := h1'.tstBuf.of_pair e2
  split
  next e3 =>
  have h3 := h2.itemErrs.of_pair e3
  extract_lets d s2 r sc s3 s4' s4 s5 s6
  have h4 : MemFrom true s0 s2 := h3.workErrs
  have h5 : MemFrom true s0 r.st := MemFrom.foldlOf RowAcc.st h4 fun _ _ h => h.rowOne
  clear_value s2 r
  have h6 : MemFrom true s0 s3 := h5.aSlotWrite
  have h7 : MemFrom true s0 s4 := h6.opt fun h6 => h6.aSlotReduce.opt (·.aSlotReduce)
  exact ((h7.opt (·.errSet)).opt (·.errSet)).pair

theorem MemFrom.rowEnd {a} (h : MemFrom w s0 s) : MemFrom w s0 (rowEnd s a) := h.aSlotDropReads.modRow

theorem MemFrom.setRowCmd {t c} (h : MemFrom w s0 s) : MemFrom w s0 (setRowCmd s t c) := h.modRow

theorem MemFrom.dropRowCmd {t serial} (h : MemFrom w s0 s) : MemFrom w s0 (dropRowCmd s t serial) := h.modRow.settle

theorem MemFrom.rowRefuse {t c raw code} (h : MemFrom w s0 s) : MemFrom w s0 (rowRefuse s t c raw code) :=
  h.setReg.errSet.groupFault.dropRowCmd

theorem MemFrom.rowTake {s' t c} (h' : MemFrom true s0 s') (h : MemFrom true s0 s) : MemFrom true s0 (rowTake s' s t c) := by
  unfold Machine.rowTake
  split
  next e => exact (h.setRowCmd.finishOffer.of_pair1 e).aSlotDropReads
  next e =>
    have h1 := h.setRowCmd.finishOffer.of_pair1 e
    split
    · exact .ite h1.dropRowCmd h'
    · exact h1.dropRowCmd

theorem MemFrom.execRowAccept {t} (h : MemFrom true s0 s) : MemOut true s0 (execRowAccept t s) := by
  refine MemFrom.next ?_
  split
  · exact h
  · split
    · refine h.optElse fun h => h.ifs (·.rowRefuse) (·.ifs (·.rowRefuse) fun h => .ite (.ite h.rowRefuse (h.rowTake h))
        (h.ifs (·.rowRefuse) (·.ifs (·.rowRefuse) fun h => ?_)))
      extract_lets dn
      split
      next e => exact (h.aSlotXlate.of_pair e).aSlotXfault.dropRowCmd
      next e =>
        have h1 := h.aSlotXlate.of_pair e
        split
        next e => exact h1.aSlotGather.of_pair e
        next e =>
          have h2 := h1.aSlotGather.of_pair e
          extract_lets s2 d desc p
          have h3 : MemFrom true s0 s2 := h2.aSlotWgmRead
          split
          · exact h3.rowRefuse.aSlotDropReads
          · split
            next e => exact (h3.aSlotXlate.of_pair e).aSlotXfault.dropRowCmd.aSlotDropReads
            next e => exact h.rowTake (h3.aSlotXlate.of_pair e)
    · exact h.dropRowCmd

theorem MemFrom.rowRun {opc t errs} (h : MemFrom true s0 s) : MemOut true s0 (rowRun opc t errs s) := by
  unfold Machine.rowRun
  refine MemFrom.next ?_
  split
  · exact h
  · split
    · exact h
    · split
      · exact h.modRow.setRowCmd.perfCount
      · split
        · rename_i s1 e1
          have h1 := h.rowItem.of_pair e1
          exact h1.rowEnd.setRowCmd.perfCount
        · rename_i s1 e1
          have h1 := h.rowItem.of_pair e1
          exact h1

theorem MemFrom.execRmsnorm {a} (h : MemFrom true s0 s) : MemOut true s0 (execRmsnorm a s) := h.rowRun

theorem MemFrom.execLayernorm {a} (h : MemFrom true s0 s) : MemOut true s0 (execLayernorm a s) := h.rowRun

theorem MemFrom.execSoftmax {a} (h : MemFrom true s0 s) : MemOut true s0 (execSoftmax a s) := h.rowRun

theorem MemFrom.execLogsoftmax {a} (h : MemFrom true s0 s) : MemOut true s0 (execLogsoftmax a s) := h.rowRun

theorem MemFrom.execStats {a} (h : MemFrom true s0 s) : MemOut true s0 (execStats a s) := h.rowRun

theorem MemFrom.execExpsum {a} (h : MemFrom true s0 s) : MemOut true s0 (execExpsum a s) := h.rowRun

theorem MemFrom.execMerge {a} (h : MemFrom true s0 s) : MemOut true s0 (execMerge a s) := h.rowRun

theorem MemFrom.execSample {a} (h : MemFrom true s0 s) : MemOut true s0 (execSample a s) := h.rowRun

theorem MemFrom.execDropout {a} (h : MemFrom true s0 s) : MemOut true s0 (execDropout a s) := h.rowRun

theorem MemFrom.execRmsnormBwd {a} (h : MemFrom true s0 s) : MemOut true s0 (execRmsnormBwd a s) := h.rowRun

theorem MemFrom.execLayernormBwd {a} (h : MemFrom true s0 s) : MemOut true s0 (execLayernormBwd a s) := h.rowRun

theorem MemFrom.execSoftmaxBwd {a} (h : MemFrom true s0 s) : MemOut true s0 (execSoftmaxBwd a s) := h.rowRun

theorem MemFrom.execLogsoftmaxBwd {a} (h : MemFrom true s0 s) : MemOut true s0 (execLogsoftmaxBwd a s) := h.rowRun

theorem MemFrom.execDropoutBwd {a} (h : MemFrom true s0 s) : MemOut true s0 (execDropoutBwd a s) := h.rowRun

theorem MemFrom.execSinv {t} (h : MemFrom true s0 s) : MemOut true s0 (execSinv t s) := h.rowRun

theorem MemFrom.execRowComplete {t} (h : MemFrom w s0 s) : MemOut w s0 (execRowComplete t s) := by
  unfold Machine.execRowComplete
  refine MemFrom.next ?_
  split
  · exact h
  · exact h.optElse (·.aSlotClear.dropRowCmd.completeA)

/-! The array. -/

theorem MemFrom.modArr {t f} (h : MemFrom w s0 s) : MemFrom w s0 (modArr s t f) := h.modTile

theorem MemFrom.setArrCmd {t c} (h : MemFrom w s0 s) : MemFrom w s0 (setArrCmd s t c) := h.modArr

theorem MemFrom.settleArr {t} (h : MemFrom w s0 s) : MemFrom w s0 (settleArr s t) := h.settle.settle

theorem MemFrom.dropArrCmd {t serial} (h : MemFrom w s0 s) : MemFrom w s0 (dropArrCmd s t serial) := h.modArr.settleArr

theorem MemFrom.arrRefuse {t c raw code} (h : MemFrom w s0 s) : MemFrom w s0 (arrRefuse s t c raw code) :=
  h.setReg.errSet.groupFault.dropArrCmd

theorem MemFrom.arrTake {s' t c} (h' : MemFrom true s0 s') (h : MemFrom true s0 s) : MemFrom true s0 (arrTake s' s t c) := by
  unfold Machine.arrTake
  split
  next e => exact (h.setArrCmd.finishOffer.of_pair1 e).aSlotDropReads.settleArr.perfCount
  next e =>
    have h1 := h.setArrCmd.finishOffer.of_pair1 e
    split
    · exact .ite h1.dropArrCmd h'
    · exact h1.dropArrCmd

theorem MemFrom.arrFinish {t w' raw c a d mark} (h : MemFrom true s0 s) : MemFrom true s0 (arrFinish s t w' raw c a d mark) := by
  unfold Machine.arrFinish
  dsimp only
  split
  · exact h.arrRefuse.aSlotDropReads
  · exact h.arrRefuse.aSlotDropReads
  · exact h.arrRefuse.aSlotDropReads
  · split
    · exact h.arrRefuse.aSlotDropReads
    · split
      · exact h.arrRefuse.aSlotDropReads
      · exact h.arrRefuse.aSlotDropReads
      · split
        · rename_i s1 e1
          have h1 := h.aSlotXlate.of_pair e1
          exact h1.aSlotXfault.dropArrCmd.aSlotDropReads
        · rename_i s1 e1
          have h1 := h.aSlotXlate.of_pair e1
          exact h.arrTake h1

theorem MemFrom.execArrAccept {t} (h : MemFrom true s0 s) : MemOut true s0 (execArrAccept t s) := by
  refine MemFrom.next ?_
  split
  · exact h
  · split
    · refine h.optElse fun h => ?_
      split
      · exact h.arrRefuse
      · extract_lets off ent c
        split
        · exact h.arrRefuse
        · split
          next e => exact (h.aSlotXlate.of_pair e).aSlotXfault.dropArrCmd.aSlotDropReads
          next e =>
            have h1 := h.aSlotXlate.of_pair e
            split
            next e => exact h1.aSlotGather.of_pair e
            next e =>
              have h2 := h1.aSlotGather.of_pair e
              refine h2.ifs (·.arrRefuse.aSlotDropReads) fun h2 => ?_
              split
              next e => exact (h2.aSlotXlate.of_pair e).aSlotXfault.dropArrCmd.aSlotDropReads
              next e =>
                have h3 := h2.aSlotXlate.of_pair e
                extract_lets l2
                split
                next e => exact h3.aSlotGather.of_pair e
                next e => exact (h3.aSlotGather.of_pair e).aSlotWgmRead.arrFinish
    · exact h.dropArrCmd

theorem MemFrom.retirePos {t f} (h : MemFrom w s0 s) : MemFrom w s0 (retirePos s t f) := h.setRegF.cardPut

theorem MemFrom.retireAllPending {t} (h : MemFrom w s0 s) : MemFrom w s0 (retireAllPending s t) := by
  unfold Machine.retireAllPending
  extract_lets named s1
  have h1 : MemFrom w s0 s1 := by
    unfold s1
    refine MemFrom.foldl ?_ fun s x h => ?_
    · exact h
    · split
      · exact h
      · split
        · exact h.retirePos
        · exact h
  clear_value named s1
  exact h1.modArr

theorem MemFrom.feedCounts {t c} (h : MemFrom w s0 s) : MemFrom w s0 (feedCounts s t c) :=
  (h.perfCount.optElse (·.perfCount)).takeFree.perfCount.bankFree

theorem MemFrom.arrRead {t c} (h : MemFrom w s0 s) : MemFrom w s0 (arrRead s t c).2.2 := by
  unfold Machine.arrRead
  extract_lets a opd wsp s1
  have h1 : MemFrom w s0 s1 := h.aSlotAgain.aSlotWgmRead
  clear_value a opd wsp s1
  dsimp only
  split
  · exact h1.pair
  · exact h1.tstBuf

theorem MemFrom.arrBegin {t c late} (h : MemFrom true s0 s) : MemFrom true s0 (arrBegin s t c late) := by
  unfold Machine.arrBegin
  dsimp only
  split
  · rename_i s1 e1
    have h1 := h.aSlotGather.of_pair e1
    exact h1
  · refine MemFrom.aSlotDropReads ?_
    refine MemFrom.modArr ?_
    refine MemFrom.setArrCmd ?_
    split
    · split
      · split
        · split
          · rename_i s1 e1 _ _ _ _
            have h1 := h.aSlotGather.of_pair e1
            exact h1.retireAllPending.feedCounts.arrRead.pair
          · split
            · rename_i s1 e1 _ _ _ _ _
              have h1 := h.aSlotGather.of_pair e1
              exact h1.retireAllPending.feedCounts.arrRead.injFire.pair
            · split
              · rename_i s1 e1 _ _ _ _ _ _
                have h1 := h.aSlotGather.of_pair e1
                exact h1.retireAllPending.feedCounts.arrRead.injFire.pair
              · rename_i s1 e1 _ _ _ _ _ _
                have h1 := h.aSlotGather.of_pair e1
                exact h1.retireAllPending.feedCounts.arrRead.pair
        · split
          · rename_i s1 e1 _ _ _ _
            have h1 := h.aSlotGather.of_pair e1
            exact h1.retireAllPending.feedCounts.arrRead.pair
          · split
            · rename_i s1 e1 _ _ _ _ _
              have h1 := h.aSlotGather.of_pair e1
              exact h1.retireAllPending.feedCounts.arrRead.injFire.pair
            · split
              · rename_i s1 e1 _ _ _ _ _ _
                have h1 := h.aSlotGather.of_pair e1
                exact h1.retireAllPending.feedCounts.arrRead.injFire.pair
              · rename_i s1 e1 _ _ _ _ _ _
                have h1 := h.aSlotGather.of_pair e1
                exact h1.retireAllPending.feedCounts.arrRead.pair
      · split
        · rename_i s1 e1 _ _ _
          have h1 := h.aSlotGather.of_pair e1
          exact h1.retireAllPending.feedCounts.arrRead.pair
        · split
          · rename_i s1 e1 _ _ _ _
            have h1 := h.aSlotGather.of_pair e1
            exact h1.retireAllPending.feedCounts.arrRead.injFire.pair
          · split
            · rename_i s1 e1 _ _ _ _ _
              have h1 := h.aSlotGather.of_pair e1
              exact h1.retireAllPending.feedCounts.arrRead.injFire.pair
            · rename_i s1 e1 _ _ _ _ _
              have h1 := h.aSlotGather.of_pair e1
              exact h1.retireAllPending.feedCounts.arrRead.pair
    · split
      · split
        · split
          · rename_i s1 e1 _ _ _ _
            have h1 := h.aSlotGather.of_pair e1
            exact h1.feedCounts.arrRead.pair
          · split
            · rename_i s1 e1 _ _ _ _ _
              have h1 := h.aSlotGather.of_pair e1
              exact h1.feedCounts.arrRead.injFire.pair
            · split
              · rename_i s1 e1 _ _ _ _ _ _
                have h1 := h.aSlotGather.of_pair e1
                exact h1.feedCounts.arrRead.injFire.pair
              · rename_i s1 e1 _ _ _ _ _ _
                have h1 := h.aSlotGather.of_pair e1
                exact h1.feedCounts.arrRead.pair
        · split
          · rename_i s1 e1 _ _ _ _
            have h1 := h.aSlotGather.of_pair e1
            exact h1.feedCounts.arrRead.pair
          · split
            · rename_i s1 e1 _ _ _ _ _
              have h1 := h.aSlotGather.of_pair e1
              exact h1.feedCounts.arrRead.injFire.pair
            · split
              · rename_i s1 e1 _ _ _ _ _ _
                have h1 := h.aSlotGather.of_pair e1
                exact h1.feedCounts.arrRead.injFire.pair
              · rename_i s1 e1 _ _ _ _ _ _
                have h1 := h.aSlotGather.of_pair e1
                exact h1.feedCounts.arrRead.pair
      · split
        · rename_i s1 e1 _ _ _
          have h1 := h.aSlotGather.of_pair e1
          exact h1.feedCounts.arrRead.pair
        · split
          · rename_i s1 e1 _ _ _ _
            have h1 := h.aSlotGather.of_pair e1
            exact h1.feedCounts.arrRead.injFire.pair
          · split
            · rename_i s1 e1 _ _ _ _ _
              have h1 := h.aSlotGather.of_pair e1
              exact h1.feedCounts.arrRead.injFire.pair
            · rename_i s1 e1 _ _ _ _ _
              have h1 := h.aSlotGather.of_pair e1
              exact h1.feedCounts.arrRead.pair

theorem MemFrom.execArrCompute {a} (h : MemFrom true s0 s) : MemOut true s0 (execArrCompute a s) := by
  unfold Machine.execArrCompute
  refine MemFrom.next ?_
  split
  · exact h
  · split
    · exact h
    · exact h.opt (·.arrBegin)

theorem MemFrom.hemRecord {t c rows cols bit} (h : MemFrom w s0 s) : MemFrom w s0 (hemRecord s t c rows cols bit).2 := by
  unfold Machine.hemRecord
  split
  extract_lets pg pr pc s1 s2 c1
  have h2 : MemFrom w s0 s2 := h.bumpF.setReg.errSet
  clear_value s1 s2
  refine .ite_2 h2.pair ?_
  split
  next e => exact (MemFrom.of_pair (.ite_2 h2.takeFree h2.pair) e).modArr.pair

theorem MemFrom.arrConvert {t c} (h : MemFrom w s0 s) : MemFrom w s0 (arrConvert s t c) := by
  refine MemFrom.setArrCmd (h.pair.foldl_2 fun _ _ h => .ite_2 ?_ h.pair)
  exact h.drawNoise

theorem MemFrom.arrRecompute {t c} (h : MemFrom w s0 s) : MemFrom w s0 (arrRecompute s t c) := h.bumpF.setArrCmd

theorem MemFrom.drainBuf {t c} (h : MemFrom w s0 s) : MemFrom w s0 (drainBuf s t c).2 := by
  unfold Machine.drainBuf
  split
  · rename_i s1 e1
    have h1 := h.bankFree.tstBuf.of_pair e1
    exact h1.takeFree
  · rename_i s1 e1
    have h1 := h.bankFree.tstBuf.of_pair e1
    exact h1.pair

theorem MemFrom.hemSkip {t c} (h : MemFrom w s0 s) : MemFrom w s0 (hemSkip s t c).2 := h.errSet.optElse (·.bumpF)

theorem MemFrom.arrDecide {t c} (h : MemFrom w s0 s) : MemFrom w s0 (arrDecide s t c) := by
  unfold Machine.arrDecide
  dsimp only
  split
  · split
    · exact h.hemSkip.ifs (·.arrConvert) fun h => h.ifs (·.hemRecord.arrConvert) fun h => h.ifs (·.hemRecord.arrRecompute) fun h =>
        (h.hemRecord.opt (·.errSet)).setArrCmd
    · exact h.ifs (·.arrConvert) fun h => h.ifs (·.hemRecord.arrConvert) fun h => h.ifs (·.hemRecord.arrRecompute) fun h => (h.hemRecord.opt
        (·.errSet)).setArrCmd
  · split
    · contradiction
    · exact h.ifs (·.arrConvert) fun h => h.ifs (·.hemRecord.arrConvert) fun h => h.ifs (·.hemRecord.arrRecompute) fun h => (h.hemRecord.opt
        (·.errSet)).setArrCmd

theorem MemFrom.execArrDrain {t cells hems} (h : MemFrom w s0 s) : MemOut w s0 (execArrDrain t cells hems s) := by
  unfold Machine.execArrDrain
  refine MemFrom.next ?_
  split
  · exact h
  · exact h.opt (·.drainBuf.arrDecide)

theorem MemFrom.arrDeliver {t c} (h : MemFrom true s0 s) : MemFrom true s0 (arrDeliver s t c).2 := by
  unfold Machine.arrDeliver
  dsimp only
  split
  · split
    · exact h.pair
    · split
      · rename_i s1 e1
        have h1 := h.aSlotGather.of_pair e1
        exact h1.pair
      · rename_i s1 e1
        have h1 := h.aSlotGather.of_pair e1
        exact (h1.foldl fun _ _ h => h.rowItem).perfCount.rowEnd.pair
  · split
    · split
      · exact h.pair
      · split
        · exact h.aSlotAgain.aSlotReduce.pair
        · exact h.aSlotAgain.aSlotWrite.pair
    · split
      · contradiction
      · split
        · exact h.aSlotAgain.aSlotReduce.pair
        · exact h.aSlotAgain.aSlotWrite.pair

theorem MemFrom.arrComplete {t c} (h : MemFrom w s0 s) : MemFrom w s0 (arrComplete s t c) := h.aSlotClear.dropArrCmd.modArr.completeA

theorem MemFrom.execArrDelivered {t} (h : MemFrom true s0 s) : MemOut true s0 (execArrDelivered t s) := by
  unfold Machine.execArrDelivered
  refine MemFrom.next ?_
  split
  · exact h
  · split
    · exact h.optElse (·.arrComplete)
    · split
      · split
        · rename_i s1 e1
          have h1 := h.arrDeliver.of_pair e1
          exact h1
        · extract_lets s2
          have h2 : MemFrom true s0 s2 := by
            unfold s2
            rename_i s1 e1
            have h1 := h.arrDeliver.of_pair e1
            exact h1.opt (·.errSet)
          clear_value s2
          exact h2.ifs (·.setArrCmd) (·.arrComplete)
      · exact h

theorem MemFrom.arrRetry {t} (h : MemFrom w s0 s) : MemFrom w s0 (arrRetry s t) := by
  unfold Machine.arrRetry
  split
  · exact h.arrRecompute
  · exact h

theorem MemFrom.arrPoison {t} (h : MemFrom w s0 s) : MemFrom w s0 (arrPoison s t) := by
  unfold Machine.arrPoison
  split
  · exact h.arrConvert
  · exact h

theorem MemFrom.arrCtrl {t v} (h : MemFrom w s0 s) : MemFrom w s0 (arrCtrl s t v) :=
  h.optElse (·.ifs (·.regErr) (·.ifs (·.arrRetry) (·.arrPoison)))

end Sys2Proof.Laws
end

