-- ==== Sys2Proof/Proofs/MemDevice.lean ====
section
/-!
SUPPORT. `MemFrom` along the functions of control, time, power, security, resilience, the card, the stacks, the start, cables and the reset.
-/
namespace Sys2Proof.Laws
open Sys2Proof.Machine Sys2Proof.Safety

-- Elaborated side by side, so many small lemmas ask for more threads than the memory limit allows.
set_option Elab.async false

variable {w : Bool} {s0 s t : State} {α β : Type}

/-! BLK_CTRL. -/

theorem MemFrom.setResp {p pg r} (h : MemFrom w s0 s) : MemFrom w s0 (setResp s p pg r) := h.modBlk

theorem MemFrom.ctlReject {p pg r off} (h : MemFrom w s0 s) : MemFrom w s0 (ctlReject s p pg r off) := h.setResp.regErr

theorem MemFrom.onStop {pg} (h : MemFrom w s0 s) : MemFrom w s0 (onStop s pg) := by
  unfold Machine.onStop
  split
  · exact h.modBlk.opt fun h => h.foldl fun _ _ h => h.stopWg
  · exact h

theorem MemFrom.onStopped {pg} (h : MemFrom w s0 s) : MemFrom w s0 (onStopped s pg) := by
  unfold Machine.onStopped
  split
  · exact h.opt (·.linkDown)
  · exact h

theorem MemFrom.onResume {pg} (h : MemFrom w s0 s) : MemFrom w s0 (onResume s pg) := by
  unfold Machine.onResume
  split
  · exact h.opt (·.setLink)
  · exact h

theorem MemFrom.ctlStop {p pg} (h : MemFrom w s0 s) : MemFrom w s0 (ctlStop s p pg) := by
  unfold Machine.ctlStop
  dsimp only
  split
  · exact h.ctlReject
  · exact h.ifs (·.ctlReject) (·.setBlk.setResp.onStop)

theorem MemFrom.ctlRestart {p pg} (h : MemFrom w s0 s) : MemFrom w s0 (ctlRestart s p pg) := by
  unfold Machine.ctlRestart
  split
  · exact h.ctlReject
  · split
    · exact h.ctlReject
    · exact h.modBlk.setResp.onResume

theorem MemFrom.ctlDiscard {p pg} (h : MemFrom w s0 s) : MemFrom w s0 (ctlDiscard s p pg) := by
  unfold Machine.ctlDiscard
  split
  · exact h.ctlReject
  · exact h.modBlk.setResp.onResume

theorem MemFrom.ctlTake {p pg} (h : MemFrom w s0 s) : MemFrom w s0 (ctlTake s p pg) :=
  h.ifs (·.ctlReject) (·.ifs (·.ctlReject) (·.modBlk.setResp))

theorem MemFrom.ctlWithdraw {p pg} (h : MemFrom w s0 s) : MemFrom w s0 (ctlWithdraw s p pg) :=
  h.ifs (·.ctlReject) (·.ifs (·.ctlReject) (·.setBlk.setResp))

theorem MemFrom.stopEnds {pg} (h : MemFrom w s0 s) : MemFrom w s0 (stopEnds s pg) := h.opt (·.setBlk.onStopped)

theorem MemFrom.opOver {pg res} (h : MemFrom w s0 s) : MemFrom w s0 (opOver s pg res) := h.optElse (·.opEnd.settle)

theorem MemFrom.failBlock {pg} (h : MemFrom w s0 s) : MemFrom w s0 (failBlock s pg) := (h.opt (·.opEnd)).modBlk.errSet

theorem MemFrom.toState {pg st} (h : MemFrom w s0 s) : MemFrom w s0 (toState s pg st) := h.modBlk

/-! Time and noise. -/

theorem MemFrom.execRateInterval {page meas} (h : MemFrom w s0 s) : MemOut w s0 (execRateInterval page meas s) := (h.opt (·.modBlk)).next

theorem MemFrom.noiseCheck {pg} (h : MemFrom w s0 s) : MemFrom w s0 (noiseCheck s pg) := h.optElse (·.noiseWindow.modBlk.opt (·.raise))

theorem MemFrom.execCounterTrim {page corr temp} (h : MemFrom w s0 s) : MemOut w s0 (execCounterTrim page corr temp s) :=
  (h.opt (·.takeFree.modBlk.noiseCheck)).next

theorem MemFrom.execTrimStale {page} (h : MemFrom w s0 s) : MemOut w s0 (execTrimStale page s) := (h.opt (·.modBlk.raise)).next

theorem MemFrom.execNoiseHealthFail {page} (h : MemFrom w s0 s) : MemOut w s0 (execNoiseHealthFail page s) :=
  (h.opt (·.ifs (·.injFire.noiseFail) (·.noiseFail))).next

theorem MemFrom.noiseRetest {pg pass} (h : MemFrom w s0 s) : MemFrom w s0 (noiseRetest s pg pass) := h.ifs (·.setRegF.modBlk) (·.noiseFail)

theorem MemFrom.noiseRetests {bad} (h : MemFrom w s0 s) : MemFrom w s0 (noiseRetests s bad) :=
  (h.foldl fun _ _ h => h.noiseRetest).foldl fun _ _ h => h.noiseFail

theorem MemFrom.execNoiseRetest {page pass} (h : MemFrom w s0 s) : MemOut w s0 (execNoiseRetest page pass s) := (h.opt (·.noiseRetest)).next

theorem MemFrom.departAll (h : MemFrom w s0 s) : MemFrom w s0 (departAll s) := h.foldl fun _ _ h => h.opt (·.emit)

theorem MemFrom.leaveService (h : MemFrom w s0 s) : MemFrom w s0 (leaveService s) := h.optElse (·.departAll.setAlert.upd)

theorem MemFrom.edgeReport {e} (h : MemFrom w s0 s) : MemFrom w s0 (edgeReport s e) := h.errSet.errSet.raise

theorem MemFrom.execDieEdgeFail {e} (h : MemFrom w s0 s) : MemOut w s0 (execDieEdgeFail e s) :=
  (h.optElse (·.upd.edgeReport.cardPut.opt (·.leaveService))).next

/-! Power and heat. -/

theorem MemFrom.setPwr {p} (h : MemFrom w s0 s) : MemFrom w s0 (setPwr s p) := h.upd rfl rfl

theorem MemFrom.unpowered (h : MemFrom true s0 s) : MemFrom true s0 (unpowered s) :=
  h.writes (fun _ => ram_wf_reset) (fun k => k)

theorem MemFrom.powerOff (h : MemFrom true s0 s) : MemFrom true s0 (powerOff s) := h.unpowered

theorem MemFrom.setCode {n c} (h : MemFrom w s0 s) : MemFrom w s0 (setCode s n c) := h.setRegF

theorem MemFrom.railFault {n} (h : MemFrom w s0 s) : MemFrom w s0 (railFault s n) :=
  h.optElse fun h => ((h.foldl fun _ _ h => h.optElse (·.failBlock)).errSet.opt (·.setCode)).setRegF.raise.leaveService

theorem MemFrom.execRailFault {rail} (h : MemFrom w s0 s) : MemOut w s0 (execRailFault rail s) := (h.opt (·.railFault)).next

theorem MemFrom.countDroop (h : MemFrom w s0 s) : MemFrom w s0 (countDroop s) := h.bumpF

theorem MemFrom.execRailDroop {rail mv} (h : MemFrom w s0 s) : MemOut w s0 (execRailDroop rail mv s) :=
  (h.optElse fun h => (h.optElse (·.countDroop)).ifs (·.railFault) (·.setPwr)).next

theorem MemFrom.execRailVoltageReturn {rail} (h : MemFrom w s0 s) : MemOut w s0 (execRailVoltageReturn rail s) := h.setPwr.next

theorem MemFrom.execPhaseLost {rail} (h : MemFrom w s0 s) : MemOut w s0 (execPhaseLost rail s) :=
  (h.optElse (·.setPwr.ifs (·.railFault) (·.raise))).next

theorem MemFrom.railsToZero (h : MemFrom w s0 s) : MemFrom w s0 (railsToZero s) := h.foldl fun _ _ h => h.optElse (·.setCode)

theorem MemFrom.execInputExcursion {mv} (h : MemFrom true s0 s) : MemOut true s0 (execInputExcursion mv s) :=
  (h.optElse fun h => h.ifs (·.powerOff) fun h => (h.setRegF.opt (·.errSet.raise)).setPwr.opt (·.railsToZero)).next

theorem MemFrom.execInputExcursionTimeout (h : MemFrom true s0 s) : MemOut true s0 (execInputExcursionTimeout s) :=
  (h.opt (·.powerOff)).next

theorem MemFrom.execInputRangeReturn (h : MemFrom w s0 s) : MemOut w s0 (execInputRangeReturn s) := h.setPwr.next

theorem MemFrom.clampNote {off bit which req v} (h : MemFrom w s0 s) : MemFrom w s0 (clampNote s off bit which req v) :=
  h.setRegF.optElse (·.regErr.raise)

theorem MemFrom.capWrite {w'} (h : MemFrom w s0 s) : MemFrom w s0 (capWrite s w') := h.setRegF.clampNote

theorem MemFrom.vceilWrite {w'} (h : MemFrom w s0 s) : MemFrom w s0 (vceilWrite s w') := h.setRegF.clampNote

theorem MemFrom.paceRead (h : MemFrom w s0 s) : MemFrom w s0 (paceRead s) := h.setPwr

theorem MemFrom.setRails {u} (h : MemFrom w s0 s) : MemFrom w s0 (setRails s u) :=
  h.foldl fun _ _ h => h.optElse (·.ifs (·.setCode) (·.setCode))

theorem MemFrom.heatEvent {kind d x} (h : MemFrom w s0 s) : MemFrom w s0 (heatEvent s kind d x) := h.raise

theorem MemFrom.railHeat {free d r inj} (h : MemFrom w s0 s) : MemFrom w s0 (railHeat s free d r inj).1 := by
  unfold Machine.railHeat
  extract_lets n ts c p put at_ h1 fall k c1 s1
  have h1' : MemFrom w s0 s1 := h.setPwr.setRegF
  clear_value n ts c p at_ h1 k c1 s1
  split
  · exact h.setPwr.setRegF.opt (·.errSet.heatEvent)
  · split
    · exact h.setPwr.setRegF.opt (·.errSet.heatEvent)
    · split
      · split
        · exact h.setPwr.setRegF.pair1
        · exact (h1'.opt (·.heatEvent)).pair1
      · exact h.setPwr.setRegF.pair1

theorem MemFrom.lostSensors {d} (h : MemFrom w s0 s) : MemFrom w s0 (lostSensors s d) :=
  h.foldl fun _ _ h => h.optElse (·.ifs (·.setPwr) (·.optElse (·.setPwr.errSet)))

theorem MemFrom.thmInject {d} (h : MemFrom w s0 s) : MemFrom w s0 (thmInject s d).2 := by
  unfold Machine.thmInject
  dsimp only
  split
  · exact h.pair
  · split
    · exact h.injFire.errSet.pair
    · split
      · exact h.injFire.pair
      · exact h.pair

theorem MemFrom.thmMax {d} (h : MemFrom w s0 s) : MemFrom w s0 (thmMax s d) := h.setReg

theorem MemFrom.dieHeat {d} (h : MemFrom w s0 s) : MemFrom w s0 (dieHeat s d) := by
  unfold Machine.dieHeat
  split
  next e1 =>
  split
  next e2 =>
  have h2 := (h.lostSensors.takeFree.of_pair e1).thmInject.of_pair e2
  split
  next s3 fell e3 =>
  have h3 : MemFrom w s0 s3 := by
    refine MemFrom.of_pair1 (MemFrom.foldl_1 h2 fun a r h => ?_) e3
    exact h.railHeat
  extract_lets s4 hot was pwr s6 s5
  have h4 : MemFrom w s0 s4 := h3.opt (·.bumpF)
  clear_value s4 hot
  have h6 : MemFrom w s0 s6 := h4.setPwr.bumpF
  have h5 : MemFrom w s0 s5 := by
    unfold s5
    split
    · exact h4.setPwr
    · exact h4.optElse fun _ => h6.errSet.heatEvent
  exact h5.thmMax

theorem MemFrom.coolantCheck (h : MemFrom w s0 s) : MemFrom w s0 (coolantCheck s) := h.setPwr.opt (·.errSet.raise)

theorem MemFrom.learn {codes amps} (h : MemFrom w s0 s) : MemFrom w s0 (learn s codes amps) :=
  (h.foldl fun _ _ h => h.takeFree.setPwr).foldl fun _ _ h => h.setPwr

theorem MemFrom.compareEst {est watts} (h : MemFrom w s0 s) : MemFrom w s0 (compareEst s est watts) := h.setPwr

theorem MemFrom.showPoint {u b} (h : MemFrom w s0 s) : MemFrom w s0 (showPoint s u b) := h.setReg

theorem MemFrom.pacing {m} (h : MemFrom w s0 s) : MemFrom w s0 (pacing s m) := by
  unfold Machine.pacing
  exact ((((h.paceRead.takeFree.setReg.foldl fun _ _ h => h.setRegF).foldl fun _ _ h => h.setRegF).setPwr.setRegPair.opt
      (·.injFire.countDroop)).compareEst.learn.foldl fun _ _ h => h.dieHeat).coolantCheck.showPoint.setRails.takeFree.setReg.upd

theorem MemFrom.execPacingPeriod {m} (h : MemFrom w s0 s) : MemOut w s0 (execPacingPeriod m s) := (h.opt (·.pacing)).next

theorem MemFrom.execFastLimit (h : MemFrom w s0 s) : MemOut w s0 (execFastLimit s) :=
  (h.optElse fun h => (h.takeFree.foldl fun _ _ h => h.optElse (·.setCode)).setPwr.bumpF.errSet.raise).next

theorem MemFrom.execPwrEstDiverge (h : MemFrom w s0 s) : MemOut w s0 (execPwrEstDiverge s) :=
  (h.optElse (·.setRegF.errSet.raise.takeFree.setPwr)).next

theorem MemFrom.execPwrEstRecover (h : MemFrom w s0 s) : MemOut w s0 (execPwrEstRecover s) := (h.optElse (·.setRegF.setPwr.raise)).next

theorem MemFrom.execMeasureStep (h : MemFrom w s0 s) : MemOut w s0 (execMeasureStep s) :=
  (h.optElse (·.ifs (·.ifs (·.showPoint) (·.setPwr.showPoint.setRails)) (·.opt (·.ifs (·.showPoint) (·.setPwr.showPoint.setRails))))).next

theorem MemFrom.execSensorSample {die sensor temp valid} (h : MemFrom w s0 s) : MemOut w s0 (execSensorSample die sensor temp valid s) :=
  (h.optElse (·.setPwr.opt (·.departAll.setPwr.setAlert))).next

theorem MemFrom.execThermalTripOff (h : MemFrom true s0 s) : MemOut true s0 (execThermalTripOff s) :=
  (h.optElse (·.unpowered.upd.setReg.setAlert)).next

/-! Keys and debug rights. -/

theorem MemFrom.showFuses (h : MemFrom w s0 s) : MemFrom w s0 (showFuses s) := h.setReg.setReg

theorem MemFrom.clearInjection (h : MemFrom w s0 s) : MemFrom w s0 (clearInjection s) := h.upd rfl rfl

theorem MemFrom.endRights (h : MemFrom w s0 s) : MemFrom w s0 (endRights s) := h.setReg.upd.clearInjection

theorem MemFrom.debugEnd {cause} (h : MemFrom w s0 s) : MemFrom w s0 (debugEnd s cause) := h.optElse (·.endRights.raise)

theorem MemFrom.revoke {mask} (h : MemFrom w s0 s) : MemFrom w s0 (revoke s mask) := h.optElse (·.upd.showFuses.raise.opt (·.debugEnd))

theorem MemFrom.drawNonce (h : MemFrom w s0 s) : MemFrom w s0 (drawNonce s) := by
  unfold Machine.drawNonce
  exact h.entropyWindow.ifs (·.upd) (·.takeFree.setRegPair.upd)

theorem MemFrom.submitToken (h : MemFrom w s0 s) : MemFrom w s0 (submitToken s) :=
  h.ifs (fun h => (h.optElse (·.clearInjection)).setReg.upd.raise.drawNonce) (·.bumpF.errSet.drawNonce)

theorem MemFrom.secDbg {v} (h : MemFrom w s0 s) : MemFrom w s0 (secDbg s v) := (h.opt (·.submitToken)).opt (·.debugEnd)

theorem MemFrom.execEntropyFail (h : MemFrom w s0 s) : MemOut w s0 (execEntropyFail s) := (h.opt (·.entropyFail)).next

theorem MemFrom.execKeyGeneratorRetest {pass} (h : MemFrom w s0 s) : MemOut w s0 (execKeyGeneratorRetest pass s) :=
  (h.optElse (·.upd.opt (·.drawNonce))).next

theorem MemFrom.keyEnd {slot code} (h : MemFrom w s0 s) : MemFrom w s0 (keyEnd s slot code) := (h.setRegF.foldl fun _ _ h => h.setReg).raise

theorem MemFrom.keyRefuse {slot code} (h : MemFrom w s0 s) : MemFrom w s0 (keyRefuse s slot code) := h.opOver.errSet.keyEnd

theorem MemFrom.keyctl {who v} (h : MemFrom w s0 s) : MemFrom w s0 (keyctl s who v) := by
  unfold Machine.keyctl
  extract_lets slot op s1
  have h1 : MemFrom w s0 s1 := h.setReg.opStart
  clear_value slot op s1
  split
  · exact h.errSet
  · split
    · exact h.regErr
    · split
      · exact h.regErr
      · split
        · exact h1.keyRefuse
        · exact h1

theorem MemFrom.keyWrite {slot op} (h : MemFrom true s0 s) : MemFrom true s0 (keyWrite s slot op) :=
  h.l2Flush.ifs (·.upd) (·.ifs (·.takeFree.upd) (·.upd))

theorem MemFrom.keyDone {res} (h : MemFrom true s0 s) : MemFrom true s0 (keyDone s res) := by
  unfold Machine.keyDone
  dsimp only
  split
  · exact (h.opt (·.entropyWindow)).keyRefuse
  · exact (h.opt (·.entropyWindow)).ifs (·.keyWrite.opOver.keyEnd) (·.opOver.keyEnd)

/-! Resilience. -/

theorem MemFrom.setGuide {g} (h : MemFrom w s0 s) : MemFrom w s0 (setGuide s g) := h.upd rfl rfl

theorem MemFrom.tileTo {t st} (h : MemFrom w s0 s) : MemFrom w s0 (tileTo s t st) := h.foldl fun _ _ h => h.opt (·.toState)

theorem MemFrom.tileSpare {t} (h : MemFrom w s0 s) : MemFrom w s0 (tileSpare s t) := h.foldl fun _ _ h => h.opt (·.toState)

theorem MemFrom.tileFailed {t} (h : MemFrom w s0 s) : MemFrom w s0 (tileFailed s t) := h.foldl fun _ _ h => h.optElse (·.failBlock)

theorem MemFrom.tileRetire {t} (h : MemFrom w s0 s) : MemFrom w s0 (tileRetire s t) := h.tileTo.cardPut

theorem MemFrom.placeAt {l t} (h : MemFrom w s0 s) : MemFrom w s0 (placeAt s l t) := h.upd rfl rfl

theorem MemFrom.moveLogical {l old trig spare} (h : MemFrom w s0 s) : MemFrom w s0 (moveLogical s l old trig spare) := by
  unfold Machine.moveLogical
  split
  · exact h.placeAt.raise
  · exact h.placeAt.raise

theorem MemFrom.bringIn {spare} (h : MemFrom w s0 s) : MemFrom w s0 (bringIn s spare) := by
  unfold Machine.bringIn
  split
  · exact h.tileTo
  · exact h

theorem MemFrom.setRepl {t r} (h : MemFrom w s0 s) : MemFrom w s0 (setRepl s t r) := h.setGuide

theorem MemFrom.dropRepl {t} (h : MemFrom w s0 s) : MemFrom w s0 (dropRepl s t) := h.setGuide

theorem MemFrom.setTrig {t trig} (h : MemFrom w s0 s) : MemFrom w s0 (setTrig s t trig) := h.setGuide

theorem MemFrom.dropTrig {t} (h : MemFrom w s0 s) : MemFrom w s0 (dropTrig s t) := h.setGuide

theorem MemFrom.stopTile {t mode} (h : MemFrom w s0 s) : MemFrom w s0 (stopTile s t mode) :=
  h.setRegF.ifs (·.ctlStop) (·.ifs (·.ctlTake.optElse (·.ctlWithdraw.ctlStop)) (·.opt (·.ctlTake)))

theorem MemFrom.selfItem {r n} (h : MemFrom true s0 s) : MemFrom true s0 (selfItem s r n) := by
  unfold Machine.selfItem
  split
  · exact h.opStep
  · exact h

theorem MemFrom.selfEnd {r status result info} (h : MemFrom true s0 s) : MemFrom true s0 (selfEnd s r status result info) := by
  unfold Machine.selfEnd
  split
  · exact h.opFinish.modCmd
  · exact h

theorem MemFrom.tileLost {t} (h : MemFrom true s0 s) : MemFrom true s0 (tileLost s t) := by
  unfold Machine.tileLost
  extract_lets ws s1 mine s2
  have h1 : MemFrom true s0 s1 := by
    unfold s1
    refine MemFrom.foldl ?_ fun s x h => ?_
    · exact h
    · refine MemFrom.wgEnded ?_
      refine MemFrom.releaseWg ?_
      split
      · exact h.freeSlot
      · exact h
  have h2 : MemFrom true s0 s2 := h1.upd
  clear_value ws s1 mine s2
  exact h2.modTile

theorem MemFrom.replStart {t trig test by_ mode spare} (h : MemFrom w s0 s) : MemFrom w s0 (replStart s t trig test by_ mode spare) :=
  h.bringIn.setRepl.stopTile

theorem MemFrom.replStopped {t} (h : MemFrom true s0 s) : MemFrom true s0 (replStopped s t) := by
  unfold Machine.replStopped
  split
  · exact h
  · split
    · exact h
    · extract_lets moved s1 s2
      have h1 : MemFrom true s0 s1 := by
        unfold s1
        split
        · exact h.optElse (·.moveLogical)
        · exact h
      have h2 : MemFrom true s0 s2 := (h.optElse (·.moveLogical)).tileFailed
      clear_value s1 s2
      exact .ite (h.toState.tileSpare.dropRepl) (.ite (h1.setRepl.selfItem) (h2.ifs (·.dropRepl.tileRetire) (·.setRepl)))

theorem MemFrom.giveSpareBack {spare} (h : MemFrom true s0 s) : MemFrom true s0 (giveSpareBack s spare) := by
  unfold Machine.giveSpareBack
  split
  · exact h
  · exact h.ifs (·.tileSpare) (·.replStart.replStopped)

theorem MemFrom.testWithdraw {t r} (h : MemFrom true s0 s) : MemFrom true s0 (testWithdraw s t r) := h.ctlWithdraw.dropRepl.giveSpareBack

theorem MemFrom.noteTest {t pass} (h : MemFrom w s0 s) : MemFrom w s0 (noteTest s t pass) := h.setRegF.setRegF

theorem MemFrom.testEnded {t pass} (h : MemFrom true s0 s) : MemFrom true s0 (testEnded s t pass) := by
  unfold Machine.testEnded
  split
  · exact h
  · exact h.optElse fun h => h.noteTest.ifs (fun h => h.selfItem.ifs (fun h => (h.toState.dropRepl.opt (·.tileSpare)).selfItem.selfEnd)
      (·.tileFailed.optElse (·.bringIn.moveLogical))) fun h => h.opt fun h => (h.dropRepl.ifs (·.tileTo) (·.tileRetire)).selfItem.selfEnd

theorem MemFrom.execTileHang {t} (h : MemFrom w s0 s) : MemOut w s0 (execTileHang t s) := (h.opt (·.setTrig)).next

theorem MemFrom.execTileReplaceOrderly {t} (h : MemFrom true s0 s) : MemOut true s0 (execTileReplaceOrderly t s) := by
  unfold Machine.execTileReplaceOrderly
  refine MemFrom.next ?_
  split
  · exact h
  · exact h.optElse (·.dropTrig.replStart.replStopped)

theorem MemFrom.execTileReplaceAbrupt {t} (h : MemFrom true s0 s) : MemOut true s0 (execTileReplaceAbrupt t s) := by
  unfold Machine.execTileReplaceAbrupt
  refine MemFrom.next ?_
  split
  · exact h
  · extract_lets hang s1 sp
    have h1 : MemFrom true s0 s1 := by
      unfold s1
      refine MemFrom.tileLost ?_
      refine MemFrom.tileFailed ?_
      refine MemFrom.dropTrig ?_
      split
      · exact h.dropRepl.giveSpareBack.selfEnd
      · exact h
    split
    · exact h
    · exact .ite (h) (h1.bringIn.moveLogical.setRepl)

theorem MemFrom.execTilePlace {t} (h : MemFrom w s0 s) : MemOut w s0 (execTilePlace t s) := by
  unfold Machine.execTilePlace
  refine MemFrom.next ?_
  split
  · exact h
  · exact h.opt (·.tileTo.placeAt.raise)

theorem MemFrom.testStart {t by_ spare} (h : MemFrom true s0 s) : MemFrom true s0 (testStart s t by_ spare) := h.replStart.replStopped

theorem MemFrom.execSelftest {q serial} (h : MemFrom true s0 s) : MemOut true s0 (execSelftest q serial s) := by
  unfold Machine.execSelftest
  refine MemFrom.onMe ?_ (fun c => ?_)
  · exact h
  · extract_lets l cause s1
    have h1 : MemFrom true s0 s1 := h.opBegin
    clear_value l cause s1
    split
    · exact h.optElse (·.ifs (·.testWithdraw.selfEnd) (·.opt (·.toState.dropRepl.selfEnd)))
    · split
      · split
        · exact h.opFinish.modCmd
        · split
          · exact h.opt (·.testStart)
          · exact h
      · split
        · exact h.done
        · split
          · exact h.done
          · exact .ite (h.done) (h1.opt (·.testStart))

theorem MemFrom.execSelftestDeadline {t} (h : MemFrom true s0 s) : MemOut true s0 (execSelftestDeadline t s) := by
  unfold Machine.execSelftestDeadline
  refine MemFrom.next ?_
  split
  · split
    · split
      · exact h.opt (·.testWithdraw.selfEnd)
      · exact h
    · exact h
  · exact h

theorem MemFrom.execPeriodicSelftest {t} (h : MemFrom true s0 s) : MemOut true s0 (execPeriodicSelftest t s) := (h.opt (·.testStart)).next

theorem MemFrom.holdEnd {t} (h : MemFrom w s0 s) : MemFrom w s0 (holdEnd s t) := by
  unfold Machine.holdEnd
  split
  · exact h
  · dsimp only
    split
    · exact h.arrRetry
    · split
      · exact h.retirePos.modArr.arrRetry
      · exact h.arrPoison.setTrig

theorem MemFrom.execHoldResponse {t} (h : MemFrom w s0 s) : MemOut w s0 (execHoldResponse t s) := (h.opt (·.holdEnd)).next

theorem MemFrom.execHoldEscalate {t} (h : MemFrom w s0 s) : MemOut w s0 (execHoldEscalate t s) := (h.opt (·.holdEnd)).next

theorem MemFrom.execSliceBypass {g} (h : MemFrom true s0 s) : MemOut true s0 (execSliceBypass g s) :=
  (h.optElse fun h => ((h.takeFree.failBlock.errSet.foldl fun _ _ h => h.dropClean).setSlice.foldl fun _ _ h =>
    h.txgAbort).raise.cardPut).next

theorem MemFrom.execOscCompare {fail0 fail1} (h : MemFrom w s0 s) : MemOut w s0 (execOscCompare fail0 fail1 s) :=
  (h.optElse fun h => ((h.setGuide.opt fun h => h.setGuide.foldl fun _ _ h => h.startRetrain).opt (·.raise)).cardPut.opt
    (·.leaveService)).next

theorem MemFrom.takeover {d} (h : MemFrom w s0 s) : MemFrom w s0 (takeover s d) := by
  unfold Machine.takeover
  split
  · exact h.leaveService
  · exact h.setGuide.upd.setRegF.errSet.raise

theorem MemFrom.fwEvent {n failed} (h : MemFrom w s0 s) : MemFrom w s0 (fwEvent s n failed) := h.raise

theorem MemFrom.showCore {d} (h : MemFrom w s0 s) : MemFrom w s0 (showCore s d) := by
  unfold Machine.showCore
  exact h.takeFree.takeFree.takeFree.takeFree.modBlk

theorem MemFrom.updateStops {d} (h : MemFrom w s0 s) : MemFrom w s0 (updateStops s d) := h.opt (·.opOver.errSet.fwEvent)

theorem MemFrom.clusterFail {d} (h : MemFrom w s0 s) : MemFrom w s0 (clusterFail s d) :=
  (h.failBlock.opt fun h => (h.optElse (·.opOver)).errSet.fwEvent).takeover

theorem MemFrom.execGuideCoreFail {d core} (h : MemFrom w s0 s) : MemOut w s0 (execGuideCoreFail d core s) :=
  (h.optElse fun h => ((h.setGuide.ifs (·.setRegF) (·.setRegF)).errSet.raise.cardPut.opt (·.showCore)).opt (·.clusterFail)).next

theorem MemFrom.execClusterHeartbeat {d} (h : MemFrom w s0 s) : MemOut w s0 (execClusterHeartbeat d s) :=
  (h.optElse (·.setGuide.opt (·.injFire.errSet))).next

theorem MemFrom.execGuideTakeover {d} (h : MemFrom w s0 s) : MemOut w s0 (execGuideTakeover d s) := (h.opt (·.clusterFail)).next

theorem MemFrom.execWearJudge {t ratios} (h : MemFrom w s0 s) : MemOut w s0 (execWearJudge t ratios s) :=
  (h.optElse fun h => ((h.optElse (·.setRegF)).setRegF.setRegF.optElse (·.raise.cardPut)).opt (·.setTrig)).next

theorem MemFrom.showFw {d} (h : MemFrom w s0 s) : MemFrom w s0 (showFw s d) := h.setReg

theorem MemFrom.fwStart {d who} (h : MemFrom w s0 s) : MemFrom w s0 (fwStart s d who) :=
  h.ifs (·.regErr) (·.upd.opStart.ifs (·.opOver.fwEvent) (·.upd.modBlk))

theorem MemFrom.fwDone {d} (h : MemFrom w s0 s) : MemFrom w s0 (fwDone s d) := by
  unfold Machine.fwDone
  extract_lets pg n s1 moved s2 x s3 s4 s5 s6
  have h1 : MemFrom w s0 s1 := h.modBlk.opOver
  have h2 : MemFrom w s0 s2 := by
    unfold s2
    refine MemFrom.foldl ?_ fun s x h => ?_
    · exact h1
    · split
      · exact h.setRegF.setRegF
      · exact h
  have h3 : MemFrom w s0 s3 := h2.upd
  have h4 : MemFrom w s0 s4 := h3.showFuses.foldl fun _ _ h => h.showFw
  have h5 : MemFrom w s0 s5 := h4.setRegF
  have h6 : MemFrom w s0 s6 := h5.cardPut
  clear_value pg n s1 s2 x s3 s4 s5 s6
  exact h6.revoke.fwEvent

theorem MemFrom.fwFailed {d res} (h : MemFrom w s0 s) : MemFrom w s0 (fwFailed s d res) := h.opOver.errSet.fwEvent

theorem MemFrom.execFwUpdateFail {d} (h : MemFrom w s0 s) : MemOut w s0 (execFwUpdateFail d s) := (h.opt (·.updateStops)).next

/-! The card. -/

theorem MemFrom.flashWrite (h : MemFrom w s0 s) : MemFrom w s0 (flashWrite s) := by
  unfold Machine.flashWrite
  split
  · exact h
  · exact h.upd.setReg

theorem MemFrom.cardFlush (h : MemFrom w s0 s) : MemFrom w s0 (cardFlush s) := h.upd.flashWrite

theorem MemFrom.cardRead (h : MemFrom w s0 s) : MemFrom w s0 (cardRead s) := by
  unfold Machine.cardRead
  extract_lets best s1 bank fl s2
  have h1 : MemFrom w s0 s1 := MemFrom.setReg h.upd
  have h2 : MemFrom w s0 s2 := h1.upd
  exact h2.setReg

theorem MemFrom.bankFail {b} (h : MemFrom w s0 s) : MemFrom w s0 (bankFail s b) := h.optElse (·.upd.cardPut.setRegF.errSet.raise)

theorem MemFrom.execCardWrite {kind arg} (h : MemFrom w s0 s) : MemOut w s0 (execCardWrite kind arg s) := by
  unfold Machine.execCardWrite
  refine MemFrom.next ?_
  split
  · exact h
  · split
    · exact h.opt (·.bankFail)
    · split
      · exact h
      · exact h.upd.flashWrite

/-! Stacks. -/

theorem MemFrom.waySwap {g way who} (h : MemFrom w s0 s) : MemFrom w s0 (waySwap s g way who) :=
  h.ifs (·.regErr) (·.opStart.optElse (·.opOver.errSet))

theorem MemFrom.swapTo {g n} (h : MemFrom true s0 s) : MemFrom true s0 (swapTo s g n) := by
  unfold Machine.swapTo
  exact (h.foldl fun _ _ h => h.displace).setSlice.modBlk

theorem MemFrom.swapGoes {g} (h : MemFrom true s0 s) : MemFrom true s0 (swapGoes s g) := h.takeFree.swapTo

theorem MemFrom.waySwapDone {g} (h : MemFrom true s0 s) : MemFrom true s0 (waySwapDone s g) := h.swapTo.setSlice.setRegF.cardPut

theorem MemFrom.scrubMark {pa} (h : MemFrom true s0 s) : MemFrom true s0 (scrubMark s pa) :=
  h.bumpF.errSet.optElse (·.ifs (·.setSlice) (·.setMark))

theorem MemFrom.scrubGoes {k} (h : MemFrom w s0 s) : MemFrom w s0 (scrubGoes s k) := by
  unfold Machine.scrubGoes
  exact h.takeFree.modBlk

theorem MemFrom.execScrubPass {p k corrected uncorrectable} (h : MemFrom true s0 s) :
    MemOut true s0 (execScrubPass p k corrected uncorrectable s) :=
  (h.optElse fun h => (((h.optElse (·.opStart)).foldl fun _ _ h => h.bumpF.errSet).foldl fun _ _ h =>
    h.scrubMark).modBlk.opOver.opStart).next

theorem MemFrom.execHbmRowRepair {k row soft} (h : MemFrom w s0 s) : MemOut w s0 (execHbmRowRepair k row soft s) := by
  refine MemFrom.next (h.optElse fun h => h.ifs (·.bumpF.cardPut) (·.ifs (·.errSet) fun h => ?_))
  split
  next e =>
  have h1 := h.takeFree.of_pair e
  extract_lets remap s2
  have h2 : MemFrom w s0 s2 := h1.upd
  exact (h2.optElse (·.bumpF)).cardPut

theorem MemFrom.loseRows {k p} (h : MemFrom w s0 s) : MemFrom w s0 (loseRows s k p) := h.optElse (·.upd)

theorem MemFrom.execPchLost {k p} (h : MemFrom w s0 s) : MemOut w s0 (execPchLost k p s) :=
  (h.optElse (·.errSet.loseRows.ifs (·.upd) (·.upd.errSet.raise))).next

theorem MemFrom.execPchRedirect {k p} (h : MemFrom true s0 s) : MemOut true s0 (execPchRedirect k p s) :=
  (h.optElse (·.upd.setRegF.setRegPair.cardPut.raise.releaseHeld)).next

theorem MemFrom.execRangeWalk {die space va} (h : MemFrom w s0 s) : MemOut w s0 (execRangeWalk die space va s) := by
  unfold Machine.execRangeWalk
  refine MemFrom.next ?_
  split
  · exact h
  · split
    · rename_i s1 e1
      have h1 := h.walk.of_pair e1
      exact h1.cachePut
    · rename_i s1 e1
      have h1 := h.walk.of_pair e1
      exact h1.bumpF

/-! The start. -/

theorem MemFrom.stepRom {failed spare} (h : MemFrom w s0 s) : MemFrom w s0 (stepRom s failed spare) :=
  (h.foldl fun _ _ h => h.failBlock).setGuide.opt (·.setGuide.setRegF)

theorem MemFrom.stepOsc {alt} (h : MemFrom w s0 s) : MemFrom w s0 (stepOsc s alt) := h.setGuide

theorem MemFrom.stepVerify {alt} (h : MemFrom w s0 s) : MemFrom w s0 (stepVerify s alt) :=
  (h.upd.showFuses.foldl fun _ _ h => h.showFw).setReg

theorem MemFrom.retireNew {pg} (h : MemFrom w s0 s) : MemFrom w s0 (retireNew s pg) := h.optElse (·.modBlk)

theorem MemFrom.tileNew {t} (h : MemFrom w s0 s) : MemFrom w s0 (tileNew s t) := h.foldl fun _ _ h => h.retireNew

theorem MemFrom.stepEdges {es alt} (h : MemFrom w s0 s) : MemFrom w s0 (stepEdges s es alt).1 :=
  (h.setGuide.foldl fun _ _ h => h.edgeReport).optElse (·.cardPut)

theorem MemFrom.stepTrain {ks alt} (h : MemFrom w s0 s) : MemFrom w s0 (stepTrain s ks alt).1 :=
  (h.foldl fun _ _ h => h.retireNew.cardPut).optElse fun h => h.foldl fun _ _ h => h.takeFree.cardPut

theorem MemFrom.initStack {k} (h : MemFrom w s0 s) : MemFrom w s0 (initStack s k) := by
  unfold Machine.initStack
  extract_lets rows maps m lost kept ps
  split
  next e =>
  extract_lets s1
  have h1 : MemFrom w s0 s1 := (h.takeFree.of_pair e).upd
  exact h1.optElse (·.setRegPair.setReg)

theorem MemFrom.stepHbm (h : MemFrom w s0 s) : MemFrom w s0 (stepHbm s) := h.foldl fun _ _ h => h.initStack

theorem MemFrom.applyRetired {unit v} (h : MemFrom w s0 s) : MemFrom w s0 (applyRetired s unit v) := by
  unfold Machine.applyRetired
  extract_lets i d x x1 s1 n
  have h1 : MemFrom w s0 s1 := h.setGuide
  clear_value i d x x1 s1 n
  split
  · exact h.tileNew
  · exact h.setReg
  · exact h.retireNew
  · exact h.setBel
  · exact h1.setRegF.setRegF
  · exact h

theorem MemFrom.applyCard (h : MemFrom w s0 s) : MemFrom w s0 (applyCard s) :=
  ((((h.foldl fun _ _ h => h.applyRetired).foldl fun _ _ h => h.setReg.setRegF).foldl fun _ _ h => h.setReg).foldl fun _ _ h =>
    h.setRegF).foldl fun _ _ h => h.failBlock.setSlice

theorem MemFrom.tileBad {t} (h : MemFrom w s0 s) : MemFrom w s0 (tileBad s t) := h.tileNew.cardPut

theorem MemFrom.cellFails {c} (h : MemFrom w s0 s) : MemFrom w s0 (cellFails s c) := by
  unfold Machine.cellFails
  split
  · exact h
  · split
    · exact h.retirePos
    · exact h.tileBad

theorem MemFrom.wayFails {w'} (h : MemFrom w s0 s) : MemFrom w s0 (wayFails s w') := h.optElse (·.setRegF.cardPut)

theorem MemFrom.placeTiles (h : MemFrom w s0 s) : MemFrom w s0 (placeTiles s) := by
  unfold Machine.placeTiles
  dsimp only
  refine MemFrom.foldl ?_ fun s x h => ?_
  · exact h
  · split
    · exact h
    · split
      · exact h.upd.tileTo
      · exact h.upd

theorem MemFrom.stepUnits {b} (h : MemFrom w s0 s) : MemFrom w s0 (stepUnits s b) := by
  unfold Machine.stepUnits
  exact ((((h.applyCard.foldl fun _ _ h => h.tileBad).foldl fun _ _ h => h.cellFails).foldl fun _ _ h => h.wayFails).foldl fun _ _ h =>
      h.setBel.cardPut).placeTiles

theorem MemFrom.fwWrite {a bs} (h : MemFrom true s0 s) : MemFrom true s0 (fwWrite s a bs) := h.physWrite

theorem MemFrom.ownKey (h : MemFrom w s0 s) : MemFrom w s0 (ownKey s) := by
  unfold Machine.ownKey
  exact h.takeFree.upd

theorem MemFrom.stepTables (h : MemFrom true s0 s) : MemFrom true s0 (stepTables s) :=
  ((h.ownKey.fwWrite.fwWrite.fwWrite.foldl fun _ _ h => h.fwWrite).foldl fun _ _ h =>
    h.setRegPair.setReg.setRegPair.setRegPair.setRegPair).setRegPair.setRegPair

theorem MemFrom.firstTrim {pg} (h : MemFrom w s0 s) : MemFrom w s0 (firstTrim s pg) := h.takeFree.takeFree.takeFree.modBlk.modBlk.noiseCheck

theorem MemFrom.stepPacing (h : MemFrom w s0 s) : MemFrom w s0 (stepPacing s) :=
  (h.foldl fun _ _ h => h.firstTrim).takeFree.setPwr.foldl fun _ _ h => h.takeFree.setPwr

theorem MemFrom.maskLanes {p lanes} (h : MemFrom w s0 s) : MemFrom w s0 (maskLanes s p lanes) := h.setRegF

theorem MemFrom.portTrain {p} (h : MemFrom w s0 s) : MemFrom w s0 (portTrain s p) := h.opt (·.setLink)

theorem MemFrom.stepNhl {alt lanes} (h : MemFrom w s0 s) : MemFrom w s0 (stepNhl s alt lanes) := (h.opt (·.maskLanes)).portTrain.setRegF

theorem MemFrom.loadDomain (h : MemFrom w s0 s) : MemFrom w s0 (loadDomain s) := h.upd.setEpoch.setReg.foldl fun _ _ h => h.setReg

theorem MemFrom.stepFabric {alt lanes} (h : MemFrom w s0 s) : MemFrom w s0 (stepFabric s alt lanes) :=
  (h.loadDomain.opt fun h => h.foldl fun _ _ h => h.maskLanes).foldl fun _ _ h => h.portTrain

theorem MemFrom.cablesOn (h : MemFrom w s0 s) : MemFrom w s0 (cablesOn s) := h.upd rfl rfl

theorem MemFrom.stepWork {b k alt prev} (h : MemFrom true s0 s) : MemFrom true s0 (stepWork s b k alt prev).1 := by
  unfold Machine.stepWork
  dsimp only
  split
  · exact h.stepRom.pair1
  · exact h.cardRead.pair1
  · exact h.stepOsc.pair1
  · exact h.stepVerify.pair1
  · exact h.stepEdges
  · exact h.stepTrain
  · exact h.stepHbm.pair1
  · exact h.stepUnits.pair1
  · exact h.stepTables.pair1
  · exact h.stepPacing.pair1
  · exact h.stepNhl.pair1
  · exact h.cablesOn.stepFabric.pair1
  · exact h.pair1

theorem MemFrom.showStep {k outcome alt} (h : MemFrom w s0 s) : MemFrom w s0 (showStep s k outcome alt) := h.setReg

theorem MemFrom.noteStep {k r} (h : MemFrom w s0 s) : MemFrom w s0 (noteStep s k r) := h.cardPut.optElse (·.cardFlush)

theorem MemFrom.startBase (h : MemFrom true s0 s) : MemFrom true s0 (startBase s) := by
  unfold Machine.startBase
  exact h.unpowered.upd

theorem MemFrom.countStart (h : MemFrom w s0 s) : MemFrom w s0 (countStart s) := h.bumpF

theorem MemFrom.runStep {b k} {x : State × Bool} (h : MemFrom true s0 x.1) : MemFrom true s0 (runStep b x k).1 := by
  unfold Machine.runStep
  refine .ite_1 h (.ite_1 ?_ ?_)
  · exact (h.ifs (·.setRegF) (·.opt (·.loadDomain))).noteStep.showStep
  · extract_lets alt alt2 s1 fails used
    have h1 : MemFrom true s0 s1 := h.optElse (·.noteStep)
    clear_value s1
    split
    next s2 ok det e =>
    have h2 : MemFrom true s0 s2 := h1.stepWork.of_pair1 e
    extract_lets good d s3 r3 s4 s5 s6 s7
    have h3 : MemFrom true s0 s3 := h2.ifs (fun h => h) fun _ => h1.upd
    clear_value s3
    have h4 : MemFrom true s0 s4 := h3.opt (·.cardPut)
    have h5 : MemFrom true s0 s5 := by
      unfold s5
      split
      · exact h4.cardPut
      · exact h4
    have h7 : MemFrom true s0 s7 := h5.noteStep.showStep
    exact .ite_1 h7 h7.errSet

theorem MemFrom.runStarts {b n} (h : MemFrom true s0 s) : MemFrom true s0 (runStarts b n s) := by
  induction n generalizing s with
  | zero => exact MemFrom.setAlert h.startBase.upd
  | succ n ih =>
    unfold Machine.runStarts
    split
    next e =>
    have h1 := MemFrom.of_pair1 (h.startBase.noiseRetests.countStart.pair1.foldl_1 fun _ _ h => h.runStep) e
    exact .ite (MemFrom.setRegF h1.upd) (ih h1)

theorem MemFrom.startUp {b} (h : MemFrom true s0 s) : MemFrom true s0 (startUp s b) := h.setRegF.runStarts

theorem MemFrom.execPowerUp {b} (h : MemFrom true s0 s) : MemOut true s0 (execPowerUp b s) :=
  (h.optElse (·.unpowered.upd.ifs (·.upd) (·.startUp))).next

/-! Cables. -/

theorem MemFrom.setCable {p c} (h : MemFrom w s0 s) : MemFrom w s0 (setCable s p c) := h.upd rfl rfl

theorem MemFrom.cableLos {p} (h : MemFrom w s0 s) : MemFrom w s0 (cableLos s p) := h.optElse (·.linkDown)

theorem MemFrom.execCableConnect {port} (h : MemFrom w s0 s) : MemOut w s0 (execCableConnect port s) := (h.optElse (·.setCable)).next

theorem MemFrom.execCableRemove {port} (h : MemFrom w s0 s) : MemOut w s0 (execCableRemove port s) := (h.opt (·.upd.cableLos)).next

theorem MemFrom.execCableIdRead {port ok idw} (h : MemFrom w s0 s) : MemOut w s0 (execCableIdRead port ok idw s) :=
  (h.optElse (·.setCable.opt (·.setLink))).next

theorem MemFrom.execCableOverpower {port} (h : MemFrom w s0 s) : MemOut w s0 (execCableOverpower port s) :=
  (h.opt (·.setCable.cableLos)).next

/-! Duties of firmware. -/

theorem MemFrom.execBra {g off} (h : MemFrom true s0 s) : MemOut true s0 (execBra g off s) := h.issueC

theorem MemFrom.execBrCond {g sr cond off} (h : MemFrom true s0 s) : MemOut true s0 (execBrCond g sr cond off s) := h.issueC

theorem MemFrom.execBrpMode {g p mode off} (h : MemFrom true s0 s) : MemOut true s0 (execBrpMode g p mode off s) := h.issueC

theorem MemFrom.execCall {g sd off} (h : MemFrom true s0 s) : MemOut true s0 (execCall g sd off s) := h.issueC

theorem MemFrom.execJmpr {g sr} (h : MemFrom true s0 s) : MemOut true s0 (execJmpr g sr s) := h.issueC

theorem MemFrom.execSplit {g p els fin} (h : MemFrom true s0 s) : MemOut true s0 (execSplit g p els fin s) := h.issueC

theorem MemFrom.execJoinM {g} (h : MemFrom true s0 s) : MemOut true s0 (execJoinM g s) := h.issueC

theorem MemFrom.execLoopM {g out} (h : MemFrom true s0 s) : MemOut true s0 (execLoopM g out s) := h.issueC

theorem MemFrom.execBreakM {g p} (h : MemFrom true s0 s) : MemOut true s0 (execBreakM g p s) := h.issueC

theorem MemFrom.execExitM {g} (h : MemFrom true s0 s) : MemOut true s0 (execExitM g s) := h.issueC

theorem MemFrom.execBar {g} (h : MemFrom true s0 s) : MemOut true s0 (execBar g s) := h.issueC

theorem MemFrom.execTrap {g code} (h : MemFrom true s0 s) : MemOut true s0 (execTrap g code s) := h.issueC

theorem MemFrom.execWaitle {g k n} (h : MemFrom true s0 s) : MemOut true s0 (execWaitle g k n s) := h.issueC

theorem MemFrom.execRdlic {g sd} (h : MemFrom true s0 s) : MemOut true s0 (execRdlic g sd s) := h.issueC

theorem MemFrom.execRdstep {g sd} (h : MemFrom true s0 s) : MemOut true s0 (execRdstep g sd s) := h.issueC

theorem MemFrom.execUadd {g sd sa sb} (h : MemFrom true s0 s) : MemOut true s0 (execUadd g sd sa sb s) := h.issueC

theorem MemFrom.execUsub {g sd sa sb} (h : MemFrom true s0 s) : MemOut true s0 (execUsub g sd sa sb s) := h.issueC

theorem MemFrom.execUmul {g sd sa sb} (h : MemFrom true s0 s) : MemOut true s0 (execUmul g sd sa sb s) := h.issueC

theorem MemFrom.execUand {g sd sa sb} (h : MemFrom true s0 s) : MemOut true s0 (execUand g sd sa sb s) := h.issueC

theorem MemFrom.execUor {g sd sa sb} (h : MemFrom true s0 s) : MemOut true s0 (execUor g sd sa sb s) := h.issueC

theorem MemFrom.execUxor {g sd sa sb} (h : MemFrom true s0 s) : MemOut true s0 (execUxor g sd sa sb s) := h.issueC

theorem MemFrom.execUshl {g sd sa sb} (h : MemFrom true s0 s) : MemOut true s0 (execUshl g sd sa sb s) := h.issueC

theorem MemFrom.execUshr {g sd sa sb} (h : MemFrom true s0 s) : MemOut true s0 (execUshr g sd sa sb s) := h.issueC

theorem MemFrom.execUsar {g sd sa sb} (h : MemFrom true s0 s) : MemOut true s0 (execUsar g sd sa sb s) := h.issueC

theorem MemFrom.execUminS {g sd sa sb} (h : MemFrom true s0 s) : MemOut true s0 (execUminS g sd sa sb s) := h.issueC

theorem MemFrom.execUmaxS {g sd sa sb} (h : MemFrom true s0 s) : MemOut true s0 (execUmaxS g sd sa sb s) := h.issueC

theorem MemFrom.execUminU {g sd sa sb} (h : MemFrom true s0 s) : MemOut true s0 (execUminU g sd sa sb s) := h.issueC

theorem MemFrom.execUaddi {g sd sa imm} (h : MemFrom true s0 s) : MemOut true s0 (execUaddi g sd sa imm s) := h.issueC

theorem MemFrom.execUandi {g sd sa imm} (h : MemFrom true s0 s) : MemOut true s0 (execUandi g sd sa imm s) := h.issueC

theorem MemFrom.execUori {g sd sa imm} (h : MemFrom true s0 s) : MemOut true s0 (execUori g sd sa imm s) := h.issueC

theorem MemFrom.execUxori {g sd sa imm} (h : MemFrom true s0 s) : MemOut true s0 (execUxori g sd sa imm s) := h.issueC

theorem MemFrom.execUshli {g sd sa imm} (h : MemFrom true s0 s) : MemOut true s0 (execUshli g sd sa imm s) := h.issueC

theorem MemFrom.execUshri {g sd sa imm} (h : MemFrom true s0 s) : MemOut true s0 (execUshri g sd sa imm s) := h.issueC

theorem MemFrom.execUsari {g sd sa imm} (h : MemFrom true s0 s) : MemOut true s0 (execUsari g sd sa imm s) := h.issueC

theorem MemFrom.execUmovi {g sd imm} (h : MemFrom true s0 s) : MemOut true s0 (execUmovi g sd imm s) := h.issueC

theorem MemFrom.execMovl {g sd l0} (h : MemFrom true s0 s) : MemOut true s0 (execMovl g sd l0 s) := h.issueC

theorem MemFrom.execMovl64 {g sd l0 l1} (h : MemFrom true s0 s) : MemOut true s0 (execMovl64 g sd l0 l1 s) := h.issueC

theorem MemFrom.execPmov {g p sr} (h : MemFrom true s0 s) : MemOut true s0 (execPmov g p sr s) := h.issueC

theorem MemFrom.execSmovp {g sd p} (h : MemFrom true s0 s) : MemOut true s0 (execSmovp g sd p s) := h.issueC

theorem MemFrom.execPand {g pd pa pb} (h : MemFrom true s0 s) : MemOut true s0 (execPand g pd pa pb s) := h.issueC

theorem MemFrom.execPor {g pd pa pb} (h : MemFrom true s0 s) : MemOut true s0 (execPor g pd pa pb s) := h.issueC

theorem MemFrom.execPandn {g pd pa pb} (h : MemFrom true s0 s) : MemOut true s0 (execPandn g pd pa pb s) := h.issueC

theorem MemFrom.execPnot {g pd pa} (h : MemFrom true s0 s) : MemOut true s0 (execPnot g pd pa s) := h.issueC

/-! The reset. -/

theorem MemFrom.dropLost {t} (h : MemFrom true s0 s) : MemFrom true s0 (dropLost s t) := h.foldl fun _ _ h => h.opt (·.dropEntry)

theorem MemFrom.dropLoads (h : MemFrom w s0 s) : MemFrom w s0 (dropLoads s) := h.upd rfl rfl

theorem MemFrom.installAll {i} (h : MemFrom true s0 s) : MemFrom true s0 (installAll s i) :=
  h.optElse fun h => h.setTxg.foldl fun _ _ h => h.installLine

theorem MemFrom.endTxgs (h : MemFrom true s0 s) : MemFrom true s0 (endTxgs s) := h.foldl fun _ _ h => h.ifs (·.installAll) (·.txgAbort)

theorem MemFrom.cancelOps (h : MemFrom w s0 s) : MemFrom w s0 (cancelOps s) := h.upd rfl rfl

theorem MemFrom.dropWatches (h : MemFrom w s0 s) : MemFrom w s0 (dropWatches s) := h.upd rfl rfl

theorem MemFrom.endWaits (h : MemFrom true s0 s) : MemFrom true s0 (endWaits s) := h.foldl fun _ _ h => h.setQWaiting

theorem MemFrom.endRepls (h : MemFrom w s0 s) : MemFrom w s0 (endRepls s) := by
  unfold Machine.endRepls
  extract_lets on off x s1
  have h1 : MemFrom w s0 s1 := h.setGuide
  clear_value on off x s1
  refine MemFrom.foldl ?_ fun s x h => ?_
  · exact h1
  · split
    · exact h.opt (·.tileSpare)
    · exact h

theorem MemFrom.tellFences (h : MemFrom true s0 s) : MemFrom true s0 (tellFences s) := by
  unfold Machine.tellFences
  refine MemFrom.foldl ?_ fun s x h => ?_
  · exact h
  · extract_lets s1
    have h1 : MemFrom true s0 s1 := by
      unfold s1
      refine MemFrom.foldl ?_ fun s x h => ?_
      · exact h
      · split
        · exact h.noteFence
        · exact h
    clear_value s1
    exact h1.foldl fun _ _ h => h.noteFence

theorem MemFrom.resetRights (h : MemFrom w s0 s) : MemFrom w s0 (resetRights s) := by
  unfold Machine.resetRights
  split
  next e => exact (MemFrom.of_pair (.ite_2 h.pair h.takeFree) e).debugEnd.endRights

theorem MemFrom.finishReset (h : MemFrom true s0 s) : MemFrom true s0 (finishReset s) := by
  unfold Machine.finishReset
  extract_lets s1 s2 s3 s4
  have h2 : MemFrom true s0 s2 := h.dropWatches.tellFences.departAll.setRegF.foldl fun _ _ h => h.linkDown.setRegF.setPort
  clear_value s1 s2
  have h3 : MemFrom true s0 s3 := MemFrom.resetRights h2.upd
  clear_value s3
  have h4 : MemFrom true s0 s4 := h3.upd
  exact h4.opt (·.setAlert)

theorem MemFrom.execWarmReset (h : MemFrom true s0 s) : MemOut true s0 (execWarmReset s) :=
  (h.optElse fun h => h.ifs (·.upd) fun h =>
    (h.endTxgs.releaseHeld.dropWatches.endWaits.cancelOps.endRepls.upd.setRegF.bumpF.setRegF.dropLoads.foldl fun _ _ h => h.dropLost).opt
    (·.finishReset)).next

theorem MemFrom.execSbDrainExpire (h : MemFrom true s0 s) : MemOut true s0 (execSbDrainExpire s) :=
  (h.optElse fun h => (h.foldl fun _ _ h => h.foldl fun _ _ h => h.drainEnd).finishReset).next

theorem MemFrom.restartLinks {b} (h : MemFrom true s0 s) : MemFrom true s0 (restartLinks s b) :=
  h.foldl fun _ _ h => h.ifs (fun h => (h.ifs (·.setRegF) (·.loadDomain)).showStep) (·.stepWork.showStep.optElse (·.errSet))

theorem MemFrom.execModResetRelease {b} (h : MemFrom true s0 s) : MemOut true s0 (execModResetRelease b s) :=
  (h.optElse fun h => h.ifs (·.upd.startUp) fun h => h.optElse fun h => (h.opt (·.finishReset)).upd.noiseRetests.restartLinks).next

theorem MemFrom.execPowerLoss (h : MemFrom true s0 s) : MemOut true s0 (execPowerLoss s) := h.powerOff.next

end Sys2Proof.Laws
end

