-- ==== Sys2Proof/Proofs/MemStep.lean ====
section
/-!
SUPPORT. `MemFrom` along the functions of debug, the register aperture, the vector slot, and then every command and the step.
-/
namespace Sys2Proof.Laws
open Sys2Proof.Machine Sys2Proof.Safety

-- Elaborated side by side, so many small lemmas ask for more threads than the memory limit allows.
set_option Elab.async false

variable {w : Bool} {s0 s t : State} {α β : Type}

/-! What registers read. -/

theorem MemFrom.tickRead {pg i o} (h : MemFrom w s0 s) : MemFrom w s0 (tickRead s pg i o) :=
  h.optElse (·.ifs (·.tickLic) (·.opt (·.takeFree.bumpSteps)))

/-! Debug. -/

theorem MemFrom.execTrigIn (h : MemFrom w s0 s) : MemOut w s0 (execTrigIn s) := (h.opt (·.cairnTrigger)).next

theorem MemFrom.snapLatch {pg i} (h : MemFrom w s0 s) : MemFrom w s0 (snapLatch s pg i) := by
  unfold Machine.snapLatch
  exact (h.opt (·.tickLic)).takeFree.takeFree.modBlk

theorem MemFrom.haltTile {l} (h : MemFrom w s0 s) : MemFrom w s0 (haltTile s l) := by
  unfold Machine.haltTile
  split
  · exact h
  · exact (h.foldl fun _ _ h => h.stopWg).raise

theorem MemFrom.dbgHalt {v} (h : MemFrom w s0 s) : MemFrom w s0 (dbgHalt s v) := h.optElse (·.ifs (·.regErr) (·.opt (·.haltTile)))

theorem MemFrom.execWavefrontArrive {page} (h : MemFrom w s0 s) : MemOut w s0 (execWavefrontArrive page s) := by
  unfold Machine.execWavefrontArrive
  refine MemFrom.next ?_
  split
  · split
    · exact h
    · extract_lets b s1 s2 s3
      have h1 : MemFrom w s0 s1 := h.upd
      have h2 : MemFrom w s0 s2 := h1.ifs (·.setRegF) (·.opt (·.snapLatch))
      have h3 : MemFrom w s0 s3 := by
        unfold s3
        split
        · split
          · exact h2.haltTile
          · exact h2
        · exact h2
      clear_value b s1 s2 s3
      exact h3.opt (·.upd)
  · exact h

theorem MemFrom.ueTrigger {ty t r} (h : MemFrom w s0 s) : MemFrom w s0 (ueTrigger s ty t r) :=
  h.optElse (·.ifs (·.takeFree.setGuide.opt (·.setTrig)) (·.opt (·.takeFree.setGuide.opt (·.setTrig))))

theorem MemFrom.execErrorLogWrite (h : MemFrom true s0 s) : MemOut true s0 (execErrorLogWrite s) := by
  unfold Machine.execErrorLogWrite
  refine MemFrom.next ?_
  split
  · exact h
  · split
    · exact h.upd
    · exact h.optElse fun h => h.optElse fun h => (h.upd.takeFree.modBlk.writeVirt.setReg.optElse (·.raise)).ueTrigger

theorem MemFrom.perfClear {t} (h : MemFrom w s0 s) : MemFrom w s0 (perfClear s t) := h.modTile

/-! The memory slot. -/

theorem MemFrom.execLd {g sz d a b} (h : MemFrom true s0 s) : MemOut true s0 (execLd g sz d a b s) := h.issueM

theorem MemFrom.execLdw {g sz d a b} (h : MemFrom true s0 s) : MemOut true s0 (execLdw g sz d a b s) := h.issueM

theorem MemFrom.execSt {g sz d a b} (h : MemFrom true s0 s) : MemOut true s0 (execSt g sz d a b s) := h.issueM

theorem MemFrom.execStw {g sz d a b} (h : MemFrom true s0 s) : MemOut true s0 (execStw g sz d a b s) := h.issueM

theorem MemFrom.execAtom {g kind d a b} (h : MemFrom true s0 s) : MemOut true s0 (execAtom g kind d a b s) := h.issueM

theorem MemFrom.execAtomn {g kind d a b} (h : MemFrom true s0 s) : MemOut true s0 (execAtomn g kind d a b s) := h.issueM

theorem MemFrom.execAtomw {g kind d a b} (h : MemFrom true s0 s) : MemOut true s0 (execAtomw g kind d a b s) := h.issueM

theorem MemFrom.execAtomwn {g kind d a b} (h : MemFrom true s0 s) : MemOut true s0 (execAtomwn g kind d a b s) := h.issueM

theorem MemFrom.execLdr {g wide d a b} (h : MemFrom true s0 s) : MemOut true s0 (execLdr g wide d a b s) := h.issueM

theorem MemFrom.execStc {g wide d a b} (h : MemFrom true s0 s) : MemOut true s0 (execStc g wide d a b s) := h.issueM

theorem MemFrom.execFence {g scope} (h : MemFrom true s0 s) : MemOut true s0 (execFence g scope s) := h.issueM

theorem MemFrom.execInvl1 {g} (h : MemFrom true s0 s) : MemOut true s0 (execInvl1 g s) := h.issueM

theorem MemFrom.execPref {g a b} (h : MemFrom true s0 s) : MemOut true s0 (execPref g a b s) := h.issueM

theorem MemFrom.execZline {g a b} (h : MemFrom true s0 s) : MemOut true s0 (execZline g a b s) := h.issueM

theorem MemFrom.execSignal {g d b} (h : MemFrom true s0 s) : MemOut true s0 (execSignal g d b s) := h.issueM

theorem MemFrom.execPwait {g d b} (h : MemFrom true s0 s) : MemOut true s0 (execPwait g d b s) := h.issueM

theorem MemFrom.execTxbind {g d} (h : MemFrom true s0 s) : MemOut true s0 (execTxbind g d s) := h.issueM

theorem MemFrom.execTxunbind {g} (h : MemFrom true s0 s) : MemOut true s0 (execTxunbind g s) := h.issueM

theorem MemFrom.execArr {g sr} (h : MemFrom true s0 s) : MemOut true s0 (execArr g sr s) := h.issueA

theorem MemFrom.execRow {g sr} (h : MemFrom true s0 s) : MemOut true s0 (execRow g sr s) := h.issueA

/-! The register aperture. -/

theorem MemFrom.longOpEnds {pg res} (h : MemFrom true s0 s) : MemFrom true s0 (longOpEnds s pg res) := by
  unfold Machine.longOpEnds
  split
  · exact h
  · split
    · exact h
    · split
      · exact (h.ifs (·.waySwapDone) (·.swapGoes)).opOver
      · exact h.keyDone
      · exact h.ifs (·.fwDone) (·.fwFailed)
      · exact h
      · exact h.opOver

theorem MemFrom.meCancel {e} (h : MemFrom true s0 s) : MemFrom true s0 (meCancel s e) := by
  unfold Machine.meCancel
  split
  · exact h
  · exact h.ifs (·.modCmd) (·.opFinish)

theorem MemFrom.ctlCancel {p pg} (h : MemFrom true s0 s) : MemFrom true s0 (ctlCancel s p pg) := by
  unfold Machine.ctlCancel
  extract_lets b s1
  have h1 : MemFrom true s0 s1 := h.setResp
  clear_value b s1
  split
  · exact h.ctlReject
  · split
    · exact h.ctlReject
    · split
      · exact h1.meCancel
      · exact h1.longOpEnds

theorem MemFrom.ctlReq {p pg r} (h : MemFrom true s0 s) : MemFrom true s0 (ctlReq s p pg r) := by
  unfold Machine.ctlReq
  split
  · exact h
  · exact h.ctlStop
  · exact h.ctlRestart
  · exact h.ctlDiscard
  · exact h.ctlCancel
  · exact h.ctlTake
  · exact h.ctlWithdraw
  · exact h.ctlReject

theorem MemFrom.injCtrl {pg v} (h : MemFrom w s0 s) : MemFrom w s0 (injCtrl s pg v) := h.modBlk.opt (·.modBlk.regErr)

theorem MemFrom.hdrWrite {p pg i o v} (h : MemFrom true s0 s) : MemFrom true s0 (hdrWrite s p pg i o v) := by
  unfold Machine.hdrWrite
  split
  · exact h.ctlReq
  · exact h.modBlk
  · exact h.modBlk
  · exact h.ifs (·.modBlk) (·.regErr)
  · exact h.injCtrl
  · exact h.modBlk
  · exact h

theorem MemFrom.fieldWrite {pg i o v f} (h : MemFrom w s0 s) : MemFrom w s0 (fieldWrite pg i o v s f) :=
  h.optElse (·.ifs (·.opt (·.modBlk)) (·.ifs (·.opt (·.setReg)) (·.ifs (·.setRegF) (·.setRegF))))

theorem MemFrom.writeErrors {pg i o v fs} (h : MemFrom w s0 s) : MemFrom w s0 (writeErrors s pg i o v fs) :=
  (h.opt (·.regErr)).opt (·.regErr)

theorem MemFrom.fieldsWrite {pg i o v} (h : MemFrom w s0 s) : MemFrom w s0 (fieldsWrite s pg i o v) :=
  (h.foldl fun _ _ h => h.fieldWrite).writeErrors

theorem MemFrom.regHook {p i o v} (h : MemFrom true s0 s) : MemFrom true s0 (regHook s p i o v) := by
  unfold Machine.regHook
  split
  · exact h.opt (·.perfClear)
  · exact h.arrCtrl
  · exact h.opt (·.waySwap)
  · exact (h.opt (·.sendKeyx)).opt (·.startRetrain)
  · exact h.opt (·.startRetrain)
  · exact h.ringCtl
  · exact h.ringCons
  · exact h.keyctl
  · exact h.secDbg
  · exact h.fwStart
  · exact h.opt (·.cairnTrigger)
  · exact h.dbgHalt
  · exact h.dbgLine
  · exact h

theorem MemFrom.lowStage {pg i o v} (h : MemFrom w s0 s) : MemFrom w s0 (lowStage s pg i o v) :=
  h.ifs (·.ifs (·.modBlk) (·.regErr)) (·.modBlk)

theorem MemFrom.highCommit {pg i o v} (h : MemFrom w s0 s) : MemFrom w s0 (highCommit s pg i o v) := by
  unfold Machine.highCommit
  extract_lets lo key s1
  have h1 : MemFrom w s0 s1 := by
    unfold s1
    split
    · exact h.modBlk.fieldsWrite
    · exact h
  clear_value lo key s1
  exact h1.fieldsWrite

theorem MemFrom.blockWrite {p pg i o v} (h : MemFrom true s0 s) : MemFrom true s0 (blockWrite s p pg i o v) :=
  h.optElse (·.ifs (·.regErr) (·.optElse (·.ifs (·.regErr) (·.ifs (·.capWrite) (·.ifs (·.vceilWrite) (·.ifs (·.opt (·.lowStage)) (·.ifs
    (·.opt (·.highCommit.regHook)) (·.fieldsWrite.regHook))))))))

theorem MemFrom.tagReject {off} (h : MemFrom w s0 s) : MemFrom w s0 (tagReject s off) := h.bumpF.errSet

theorem MemFrom.regWriteNow {p tag off size v} (h : MemFrom true s0 s) : MemFrom true s0 (regWriteNow s p tag off size v) := by
  unfold Machine.regWriteNow
  split
  · exact h.tagReject
  · split
    · exact h
    · exact h.ifs (·.regErr) (·.ifs (·.hdrWrite) (·.blockWrite))

theorem MemFrom.readEffects {p pg i o} (h : MemFrom w s0 s) : MemFrom w s0 (readEffects s p pg i o) := by
  unfold Machine.readEffects
  extract_lets k s1
  have h1 : MemFrom w s0 s1 := h.ifs (·.modBlk) (·.opt (·.modBlk))
  clear_value k s1
  split
  · exact h1.modBlk
  · exact h1.modBlk
  · exact h1.modBlk
  · exact h1.optElse fun h => h.foldl fun _ _ h => h.setRegF

theorem MemFrom.progGoes {i pg} (h : MemFrom true s0 s) : MemFrom true s0 (progGoes s i pg) := by
  unfold Machine.progGoes
  split
  · exact h
  · split
    · exact h.swapGoes
    · exact h.scrubGoes
    · exact h
    · exact h.takeFree.modBlk

theorem MemFrom.regReadNow {p tag off size} (h : MemFrom true s0 s) : MemFrom true s0 (regReadNow s p tag off size) := by
  unfold Machine.regReadNow
  dsimp only
  split
  · exact h.tagReject.upd
  · split
    · exact h.upd
    · exact h.ifs (·.regErr.upd) fun h => (h.opt (·.progGoes)).tickRead.readEffects.upd

theorem MemFrom.regNow {p tag off size v} (h : MemFrom true s0 s) : MemFrom true s0 (regNow s p tag off size v) := by
  unfold Machine.regNow
  split
  · exact h.regWriteNow
  · exact h.regReadNow

theorem MemFrom.hostGo {n} (h : MemFrom true s0 s) : MemFrom true s0 (hostGo n s) := by
  induction n generalizing s with
  | zero => exact h
  | succ n ih =>
    have h1 := h.winResume
    unfold Machine.hostGo
    dsimp only
    split
    · exact h1.ifs (fun h => h) fun h => ih (MemFrom.regNow h.upd)
    · exact h1

theorem MemFrom.hostDrain (h : MemFrom true s0 s) : MemFrom true s0 (hostDrain s) := h.hostGo

theorem MemFrom.regAcc {p tag off size v} (h : MemFrom true s0 s) : MemFrom true s0 (regAcc s p tag off size v) :=
  (h.optElse (·.hostDrain)).optElse (·.ifs (·.hostHold) (·.regNow))

theorem MemFrom.regWrite {p tag off size v} (h : MemFrom true s0 s) : MemFrom true s0 (regWrite s p tag off size v) := h.regAcc

theorem MemFrom.regRead {p tag off size} (h : MemFrom true s0 s) : MemFrom true s0 (regRead s p tag off size) := h.regAcc

theorem MemFrom.pageWrite {p tag page o v} (h : MemFrom true s0 s) : MemFrom true s0 (pageWrite s p tag page o v) := h.regWrite

theorem MemFrom.execRegWrite {p tag off size v} (h : MemFrom true s0 s) : MemOut true s0 (execRegWrite p tag off size v s) :=
  h.regWrite.next

theorem MemFrom.execRcRead {p tag off size} (h : MemFrom true s0 s) : MemOut true s0 (execRcRead p tag off size s) := h.regRead.next

theorem MemFrom.execPairLowWrite {p tag off v} (h : MemFrom true s0 s) : MemOut true s0 (execPairLowWrite p tag off v s) :=
  (h.opt (·.regWrite)).next

theorem MemFrom.execPairHighWrite {p tag off v} (h : MemFrom true s0 s) : MemOut true s0 (execPairHighWrite p tag off v s) :=
  (h.opt (·.regWrite)).next

theorem MemFrom.execPairLowRead {p tag off} (h : MemFrom true s0 s) : MemOut true s0 (execPairLowRead p tag off s) :=
  (h.opt (·.regRead)).next

theorem MemFrom.execBlkProgRead {p tag page} (h : MemFrom true s0 s) : MemOut true s0 (execBlkProgRead p tag page s) := h.regRead.next

theorem MemFrom.execStop {p tag page} (h : MemFrom true s0 s) : MemOut true s0 (execStop p tag page s) := h.pageWrite.next

theorem MemFrom.execRestart {p tag page} (h : MemFrom true s0 s) : MemOut true s0 (execRestart p tag page s) := h.pageWrite.next

theorem MemFrom.execDiscard {p tag page} (h : MemFrom true s0 s) : MemOut true s0 (execDiscard p tag page s) := h.pageWrite.next

theorem MemFrom.execCancelOp {p tag page} (h : MemFrom true s0 s) : MemOut true s0 (execCancelOp p tag page s) := h.pageWrite.next

theorem MemFrom.execTake {p tag page} (h : MemFrom true s0 s) : MemOut true s0 (execTake p tag page s) := h.pageWrite.next

theorem MemFrom.execWithdraw {p tag page} (h : MemFrom true s0 s) : MemOut true s0 (execWithdraw p tag page s) := h.pageWrite.next

theorem MemFrom.execInjArm {p tag page v} (h : MemFrom true s0 s) : MemOut true s0 (execInjArm p tag page v s) := h.pageWrite.next

theorem MemFrom.execSnapRelease {p tag page v} (h : MemFrom true s0 s) : MemOut true s0 (execSnapRelease p tag page v s) := h.pageWrite.next

theorem MemFrom.execArrRetry {p tag tile} (h : MemFrom true s0 s) : MemOut true s0 (execArrRetry p tag tile s) := (h.opt (·.pageWrite)).next

theorem MemFrom.execArrPoison {p tag tile} (h : MemFrom true s0 s) : MemOut true s0 (execArrPoison p tag tile s) :=
  (h.opt (·.pageWrite)).next

theorem MemFrom.execWaySwap {p tag page v} (h : MemFrom true s0 s) : MemOut true s0 (execWaySwap p tag page v s) := by
  unfold Machine.execWaySwap
  refine MemFrom.next ?_
  split
  · exact h.pageWrite
  · exact h

theorem MemFrom.execRingEnable {p tag v} (h : MemFrom true s0 s) : MemOut true s0 (execRingEnable p tag v s) := h.pageWrite.next

theorem MemFrom.execRingDisable {p tag v} (h : MemFrom true s0 s) : MemOut true s0 (execRingDisable p tag v s) := h.pageWrite.next

theorem MemFrom.execRconsWrite {p tag v} (h : MemFrom true s0 s) : MemOut true s0 (execRconsWrite p tag v s) := h.pageWrite.next

theorem MemFrom.execPwrCapWrite {p tag v} (h : MemFrom true s0 s) : MemOut true s0 (execPwrCapWrite p tag v s) := h.pageWrite.next

theorem MemFrom.execPwrVceilWrite {p tag v} (h : MemFrom true s0 s) : MemOut true s0 (execPwrVceilWrite p tag v s) := h.pageWrite.next

theorem MemFrom.execFwUpdate {p tag die v} (h : MemFrom true s0 s) : MemOut true s0 (execFwUpdate p tag die v s) :=
  (h.opt (·.pageWrite)).next

theorem MemFrom.execKeyLoad {p tag v} (h : MemFrom true s0 s) : MemOut true s0 (execKeyLoad p tag v s) := h.pageWrite.next

theorem MemFrom.execKeyGenerate {p tag v} (h : MemFrom true s0 s) : MemOut true s0 (execKeyGenerate p tag v s) := h.pageWrite.next

theorem MemFrom.execKeyClear {p tag v} (h : MemFrom true s0 s) : MemOut true s0 (execKeyClear p tag v s) := h.pageWrite.next

theorem MemFrom.execDbgSubmit {p tag v} (h : MemFrom true s0 s) : MemOut true s0 (execDbgSubmit p tag v s) := h.pageWrite.next

theorem MemFrom.execDbgEnd {p tag v} (h : MemFrom true s0 s) : MemOut true s0 (execDbgEnd p tag v s) := h.pageWrite.next

theorem MemFrom.execDbgFire {p tag v} (h : MemFrom true s0 s) : MemOut true s0 (execDbgFire p tag v s) := h.pageWrite.next

theorem MemFrom.execDbgHalt {p tag v} (h : MemFrom true s0 s) : MemOut true s0 (execDbgHalt p tag v s) := h.pageWrite.next

theorem MemFrom.execDbgMemRead {p tag v} (h : MemFrom true s0 s) : MemOut true s0 (execDbgMemRead p tag v s) := h.pageWrite.next

theorem MemFrom.execPerfClear {p tag tile v} (h : MemFrom true s0 s) : MemOut true s0 (execPerfClear p tag tile v s) :=
  (h.opt (·.pageWrite)).next

theorem MemFrom.execBlockStopped {page} (h : MemFrom true s0 s) : MemOut true s0 (execBlockStopped page s) := by
  unfold Machine.execBlockStopped
  refine MemFrom.next ?_
  extract_lets s1
  have h1 : MemFrom true s0 s1 := h.stopEnds
  clear_value s1
  split
  · exact h1.replStopped
  · exact h1

theorem MemFrom.execBlockFault {page} (h : MemFrom w s0 s) : MemOut w s0 (execBlockFault page s) := by
  unfold Machine.execBlockFault
  refine MemFrom.next ?_
  split
  · exact h
  · dsimp only
    split
    · exact h
    · split
      · exact h.clusterFail
      · exact h.failBlock.linkDown
      · exact h.failBlock.linkDown
      · exact h.failBlock

theorem MemFrom.execLongOpEnd {page result} (h : MemFrom true s0 s) : MemOut true s0 (execLongOpEnd page result s) := by
  unfold Machine.execLongOpEnd
  refine MemFrom.next ?_
  split
  · exact h
  · split
    · exact h.testEnded
    · exact h.longOpEnds

/-! Reconfiguration. -/

theorem MemFrom.reconfigEnd {c p pg status off} (h : MemFrom w s0 s) : MemFrom w s0 (reconfigEnd s c p pg status off) := h.done

theorem MemFrom.reconfigApply {c i pg} (h : MemFrom true s0 s) : MemFrom true s0 (reconfigApply s c i pg) := by
  unfold Machine.reconfigApply
  extract_lets p s1 off s2
  have h1 : MemFrom true s0 s1 := h.foldl fun _ _ h => h.blockWrite
  have h2 : MemFrom true s0 s2 := h1.ctlRestart
  clear_value p s1 off s2
  split
  · exact h2.reconfigEnd
  · exact h2.ctlDiscard.reconfigEnd
  · exact h2.reconfigEnd

theorem MemFrom.execReconfig {q serial} (h : MemFrom true s0 s) : MemOut true s0 (execReconfig q serial s) := by
  unfold Machine.execReconfig
  refine MemFrom.onMe ?_ (fun c => ?_)
  · exact h
  · dsimp only
    split
    · exact h.done
    · split
      · split
        · exact h
        · exact h.reconfigEnd
        · exact h.reconfigApply
      · split
        · exact h.done
        · split
          · rename_i s1 e1
            have h1 : MemFrom true s0 s1 := h.cmdLines.of_eq e1
            exact h1
          · rename_i s1 e1
            have h1 : MemFrom true s0 s1 := h.cmdLines.of_eq e1
            exact h1.faulted
          · rename_i s1 e1
            have h1 : MemFrom true s0 s1 := h.cmdLines.of_eq e1
            exact h1.ifs (·.done) (·.ctlStop.ifs (·.reconfigEnd) (·.modCmd))

/-! The vector slot. -/

theorem MemFrom.execFmaF32 {g d a b lit} (h : MemFrom true s0 s) : MemOut true s0 (execFmaF32 g d a b lit s) := h.issueV

theorem MemFrom.execFmaBf2 {g d a b lit} (h : MemFrom true s0 s) : MemOut true s0 (execFmaBf2 g d a b lit s) := h.issueV

theorem MemFrom.execMulF32 {g d a b lit} (h : MemFrom true s0 s) : MemOut true s0 (execMulF32 g d a b lit s) := h.issueV

theorem MemFrom.execAddF32 {g d a b lit} (h : MemFrom true s0 s) : MemOut true s0 (execAddF32 g d a b lit s) := h.issueV

theorem MemFrom.execSubF32 {g d a b lit} (h : MemFrom true s0 s) : MemOut true s0 (execSubF32 g d a b lit s) := h.issueV

theorem MemFrom.execAddI32 {g d a b lit} (h : MemFrom true s0 s) : MemOut true s0 (execAddI32 g d a b lit s) := h.issueV

theorem MemFrom.execSubI32 {g d a b lit} (h : MemFrom true s0 s) : MemOut true s0 (execSubI32 g d a b lit s) := h.issueV

theorem MemFrom.execMulI32 {g d a b lit} (h : MemFrom true s0 s) : MemOut true s0 (execMulI32 g d a b lit s) := h.issueV

theorem MemFrom.execMinF32 {g d a lit} (h : MemFrom true s0 s) : MemOut true s0 (execMinF32 g d a lit s) := h.issueV

theorem MemFrom.execMaxF32 {g d a lit} (h : MemFrom true s0 s) : MemOut true s0 (execMaxF32 g d a lit s) := h.issueV

theorem MemFrom.execMinS32 {g d a lit} (h : MemFrom true s0 s) : MemOut true s0 (execMinS32 g d a lit s) := h.issueV

theorem MemFrom.execMaxS32 {g d a lit} (h : MemFrom true s0 s) : MemOut true s0 (execMaxS32 g d a lit s) := h.issueV

theorem MemFrom.execMinU32 {g d a lit} (h : MemFrom true s0 s) : MemOut true s0 (execMinU32 g d a lit s) := h.issueV

theorem MemFrom.execMaxU32 {g d a lit} (h : MemFrom true s0 s) : MemOut true s0 (execMaxU32 g d a lit s) := h.issueV

theorem MemFrom.execAndV {g d a lit} (h : MemFrom true s0 s) : MemOut true s0 (execAndV g d a lit s) := h.issueV

theorem MemFrom.execOrV {g d a lit} (h : MemFrom true s0 s) : MemOut true s0 (execOrV g d a lit s) := h.issueV

theorem MemFrom.execXorV {g d a lit} (h : MemFrom true s0 s) : MemOut true s0 (execXorV g d a lit s) := h.issueV

theorem MemFrom.execShlV {g d a lit} (h : MemFrom true s0 s) : MemOut true s0 (execShlV g d a lit s) := h.issueV

theorem MemFrom.execShrV {g d a lit} (h : MemFrom true s0 s) : MemOut true s0 (execShrV g d a lit s) := h.issueV

theorem MemFrom.execSarV {g d a lit} (h : MemFrom true s0 s) : MemOut true s0 (execSarV g d a lit s) := h.issueV

theorem MemFrom.execMovV {g d a lit} (h : MemFrom true s0 s) : MemOut true s0 (execMovV g d a lit s) := h.issueV

theorem MemFrom.execShflIdx {g d a lit} (h : MemFrom true s0 s) : MemOut true s0 (execShflIdx g d a lit s) := h.issueV

theorem MemFrom.execAbsF32 {g d a lit} (h : MemFrom true s0 s) : MemOut true s0 (execAbsF32 g d a lit s) := h.issueV

theorem MemFrom.execNegF32 {g d a lit} (h : MemFrom true s0 s) : MemOut true s0 (execNegF32 g d a lit s) := h.issueV

theorem MemFrom.execExp2 {g d a lit} (h : MemFrom true s0 s) : MemOut true s0 (execExp2 g d a lit s) := h.issueV

theorem MemFrom.execLog2 {g d a lit} (h : MemFrom true s0 s) : MemOut true s0 (execLog2 g d a lit s) := h.issueV

theorem MemFrom.execRcp {g d a lit} (h : MemFrom true s0 s) : MemOut true s0 (execRcp g d a lit s) := h.issueV

theorem MemFrom.execRsq {g d a lit} (h : MemFrom true s0 s) : MemOut true s0 (execRsq g d a lit s) := h.issueV

theorem MemFrom.execSqrtV {g d a lit} (h : MemFrom true s0 s) : MemOut true s0 (execSqrtV g d a lit s) := h.issueV

theorem MemFrom.execSinV {g d a lit} (h : MemFrom true s0 s) : MemOut true s0 (execSinV g d a lit s) := h.issueV

theorem MemFrom.execCosV {g d a lit} (h : MemFrom true s0 s) : MemOut true s0 (execCosV g d a lit s) := h.issueV

theorem MemFrom.execCmpEqF32 {g x d a lit} (h : MemFrom true s0 s) : MemOut true s0 (execCmpEqF32 g x d a lit s) := h.issueV

theorem MemFrom.execCmpLtF32 {g x d a lit} (h : MemFrom true s0 s) : MemOut true s0 (execCmpLtF32 g x d a lit s) := h.issueV

theorem MemFrom.execCmpLeF32 {g x d a lit} (h : MemFrom true s0 s) : MemOut true s0 (execCmpLeF32 g x d a lit s) := h.issueV

theorem MemFrom.execCmpNeF32 {g x d a lit} (h : MemFrom true s0 s) : MemOut true s0 (execCmpNeF32 g x d a lit s) := h.issueV

theorem MemFrom.execCmpEqI32 {g x d a lit} (h : MemFrom true s0 s) : MemOut true s0 (execCmpEqI32 g x d a lit s) := h.issueV

theorem MemFrom.execCmpLtS32 {g x d a lit} (h : MemFrom true s0 s) : MemOut true s0 (execCmpLtS32 g x d a lit s) := h.issueV

theorem MemFrom.execCmpLeS32 {g x d a lit} (h : MemFrom true s0 s) : MemOut true s0 (execCmpLeS32 g x d a lit s) := h.issueV

theorem MemFrom.execCmpNeI32 {g x d a lit} (h : MemFrom true s0 s) : MemOut true s0 (execCmpNeI32 g x d a lit s) := h.issueV

theorem MemFrom.execCmpLtU32 {g x d a lit} (h : MemFrom true s0 s) : MemOut true s0 (execCmpLtU32 g x d a lit s) := h.issueV

theorem MemFrom.execCmpLeU32 {g x d a lit} (h : MemFrom true s0 s) : MemOut true s0 (execCmpLeU32 g x d a lit s) := h.issueV

theorem MemFrom.execSel {g x d a lit} (h : MemFrom true s0 s) : MemOut true s0 (execSel g x d a lit s) := h.issueV

theorem MemFrom.execBcast {g d x} (h : MemFrom true s0 s) : MemOut true s0 (execBcast g d x s) := h.issueV

theorem MemFrom.execReadlane {g x a lit} (h : MemFrom true s0 s) : MemOut true s0 (execReadlane g x a lit s) := h.issueV

theorem MemFrom.execLane {g d} (h : MemFrom true s0 s) : MemOut true s0 (execLane g d s) := h.issueV

theorem MemFrom.execWglane {g d} (h : MemFrom true s0 s) : MemOut true s0 (execWglane g d s) := h.issueV

theorem MemFrom.execShflXor {g d a x lit} (h : MemFrom true s0 s) : MemOut true s0 (execShflXor g d a x lit s) := h.issueV

theorem MemFrom.execCvtn {g x d a lit} (h : MemFrom true s0 s) : MemOut true s0 (execCvtn g x d a lit s) := h.issueV

theorem MemFrom.execCvtz {g x d a lit} (h : MemFrom true s0 s) : MemOut true s0 (execCvtz g x d a lit s) := h.issueV

theorem MemFrom.execCvts {g x d a lit} (h : MemFrom true s0 s) : MemOut true s0 (execCvts g x d a lit s) := h.issueV

theorem MemFrom.execCvtf {g x d a lit} (h : MemFrom true s0 s) : MemOut true s0 (execCvtf g x d a lit s) := h.issueV

theorem MemFrom.execReduAddF32 {g x a lit} (h : MemFrom true s0 s) : MemOut true s0 (execReduAddF32 g x a lit s) := h.issueV

theorem MemFrom.execReduMaxF32 {g x a lit} (h : MemFrom true s0 s) : MemOut true s0 (execReduMaxF32 g x a lit s) := h.issueV

theorem MemFrom.execReduMinF32 {g x a lit} (h : MemFrom true s0 s) : MemOut true s0 (execReduMinF32 g x a lit s) := h.issueV

theorem MemFrom.execReduAddI32 {g x a lit} (h : MemFrom true s0 s) : MemOut true s0 (execReduAddI32 g x a lit s) := h.issueV

/-! Every command. -/

theorem MemFrom.exec {i} (h : MemFrom true s0 s) : MemOut true s0 (exec i s) := by
  unfold Machine.exec
  split
  · exact h.execRegWrite
  · exact h.execRcRead
  · exact h.execPairLowWrite
  · exact h.execPairHighWrite
  · exact h.execPairLowRead
  · exact h.execBlkProgRead
  · exact h.execStop
  · exact h.execRestart
  · exact h.execDiscard
  · exact h.execCancelOp
  · exact h.execTake
  · exact h.execWithdraw
  · exact h.execBlockStopped
  · exact h.execBlockFault
  · exact h.execLongOpEnd
  · exact h.execInjArm
  · exact h.execSnapRelease
  · exact h.execRateInterval
  · exact h.execCounterTrim
  · exact h.execTrimStale
  · exact h.execDieEdgeFail
  · exact h.execWgOffer
  · exact h.execIssueRound
  · exact h.execCodeFetch
  · exact h.execBra
  · exact h.execBrCond
  · exact h.execBrpMode
  · exact h.execCall
  · exact h.execJmpr
  · exact h.execSplit
  · exact h.execJoinM
  · exact h.execLoopM
  · exact h.execBreakM
  · exact h.execExitM
  · exact h.execBar
  · exact h.execTrap
  · exact h.execWaitle
  · exact h.execRdlic
  · exact h.execRdstep
  · exact h.execUadd
  · exact h.execUsub
  · exact h.execUmul
  · exact h.execUand
  · exact h.execUor
  · exact h.execUxor
  · exact h.execUshl
  · exact h.execUshr
  · exact h.execUsar
  · exact h.execUminS
  · exact h.execUmaxS
  · exact h.execUminU
  · exact h.execUaddi
  · exact h.execUandi
  · exact h.execUori
  · exact h.execUxori
  · exact h.execUshli
  · exact h.execUshri
  · exact h.execUsari
  · exact h.execUmovi
  · exact h.execMovl
  · exact h.execMovl64
  · exact h.execPmov
  · exact h.execSmovp
  · exact h.execPand
  · exact h.execPor
  · exact h.execPandn
  · exact h.execPnot
  · exact h.execFmaF32
  · exact h.execFmaBf2
  · exact h.execMulF32
  · exact h.execAddF32
  · exact h.execSubF32
  · exact h.execAddI32
  · exact h.execSubI32
  · exact h.execMulI32
  · exact h.execMinF32
  · exact h.execMaxF32
  · exact h.execMinS32
  · exact h.execMaxS32
  · exact h.execMinU32
  · exact h.execMaxU32
  · exact h.execAndV
  · exact h.execOrV
  · exact h.execXorV
  · exact h.execShlV
  · exact h.execShrV
  · exact h.execSarV
  · exact h.execCmpEqF32
  · exact h.execCmpLtF32
  · exact h.execCmpLeF32
  · exact h.execCmpNeF32
  · exact h.execCmpEqI32
  · exact h.execCmpLtS32
  · exact h.execCmpLeS32
  · exact h.execCmpNeI32
  · exact h.execCmpLtU32
  · exact h.execCmpLeU32
  · exact h.execSel
  · exact h.execMovV
  · exact h.execBcast
  · exact h.execReadlane
  · exact h.execLane
  · exact h.execWglane
  · exact h.execShflIdx
  · exact h.execShflXor
  · exact h.execAbsF32
  · exact h.execNegF32
  · exact h.execCvtn
  · exact h.execCvtz
  · exact h.execCvts
  · exact h.execCvtf
  · exact h.execExp2
  · exact h.execLog2
  · exact h.execRcp
  · exact h.execRsq
  · exact h.execSqrtV
  · exact h.execSinV
  · exact h.execCosV
  · exact h.execReduAddF32
  · exact h.execReduMaxF32
  · exact h.execReduMinF32
  · exact h.execReduAddI32
  · exact h.execLongResult
  · exact h.execLd
  · exact h.execLdw
  · exact h.execSt
  · exact h.execStw
  · exact h.execAtom
  · exact h.execAtomn
  · exact h.execAtomw
  · exact h.execAtomwn
  · exact h.execLdr
  · exact h.execStc
  · exact h.execFence
  · exact h.execInvl1
  · exact h.execPref
  · exact h.execZline
  · exact h.execSignal
  · exact h.execPwait
  · exact h.execTxbind
  · exact h.execTxunbind
  · exact h.execArr
  · exact h.execRow
  · exact h.execImpreciseFault
  · exact h.execLoadReturn
  · exact h.execStoreRelease
  · exact h.execStorePerformed
  · exact h.execSyncComplete
  · exact h.execGroupEnd
  · exact h.execWgPark
  · exact h.execParkDone
  · exact h.execParkSlotFree
  · exact h.execWgAbandon
  · exact h.execAutoReplay
  · exact h.execArrAccept
  · exact h.execArrCompute
  · exact h.execArrDrain
  · exact h.execArrDelivered
  · exact h.execArrRetry
  · exact h.execArrPoison
  · exact h.execHoldResponse
  · exact h.execHoldEscalate
  · exact h.execRowAccept
  · exact h.execRmsnorm
  · exact h.execLayernorm
  · exact h.execSoftmax
  · exact h.execLogsoftmax
  · exact h.execStats
  · exact h.execExpsum
  · exact h.execMerge
  · exact h.execSample
  · exact h.execDropout
  · exact h.execRmsnormBwd
  · exact h.execLayernormBwd
  · exact h.execSoftmaxBwd
  · exact h.execLogsoftmaxBwd
  · exact h.execDropoutBwd
  · exact h.execSinv
  · exact h.execRowComplete
  · exact h.execNoiseHealthFail
  · exact h.execNoiseRetest
  · exact h.execL2LineAccess
  · exact h.execReduceWrite
  · exact h.execHbmFillReturn
  · exact h.execEvictionWriteback
  · exact h.execWaySwap
  · exact h.execScrubPass
  · exact h.execHbmRowRepair
  · exact h.execPchLost
  · exact h.execPchRedirect
  · exact h.execRangeWalk
  · exact h.execReservationTimeout
  · exact h.execLdrHoldTimeout
  · exact h.execWarmReset
  · exact h.execSbDrainExpire
  · exact h.execPowerLoss
  · exact h.execWatchEntryAdmit
  · exact h.execGroupWatchEnd
  · exact h.execQueueWatchEnd
  · exact h.execAbandonMark
  · exact h.execWatchEntryError
  · exact h.execBelReturnService
  · exact h.execTxgOpen
  · exact h.execTxgCommit
  · exact h.execTxgAbort
  · exact h.execTxgCommitPoint
  · exact h.execTxgInstall
  · exact h.execTxgExpired
  · exact h.execDoorbellWrite
  · exact h.execCommandFetch
  · exact h.execCommandStart
  · exact h.execCommandEnd
  · exact h.execQueueTimeout
  · exact h.execNop
  · exact h.execWaitCmd
  · exact h.execSignalCmd
  · exact h.execWatchCmd
  · exact h.execLaunch
  · exact h.execReplay
  · exact h.execCopyCmd
  · exact h.execFillCmd
  · exact h.execConvert
  · exact h.execAddCmd
  · exact h.execPut
  · exact h.execRfence
  · exact h.execAllreduce
  · exact h.execScatter
  · exact h.execQueueCreate
  · exact h.execQueueSet
  · exact h.execQueueStop
  · exact h.execQueueStart
  · exact h.execQueueDestroy
  · exact h.execDestroyDieAck
  · exact h.execOpAbort
  · exact h.execCtxBind
  · exact h.execCtxUnbind
  · exact h.execSpaceCreate
  · exact h.execSpaceTable
  · exact h.execSpaceStop
  · exact h.execSpaceSet
  · exact h.execSpaceRestart
  · exact h.execShootdown
  · exact h.execSpaceRetire
  · exact h.execRetireStage
  · exact h.execHandleFree
  · exact h.execAbandonClear
  · exact h.execPreempt
  · exact h.execPreemptHoldExpire
  · exact h.execSelftest
  · exact h.execSelftestDeadline
  · exact h.execReconfig
  · exact h.execKill
  · exact h.execKillDone
  · exact h.execDetectTimeout
  · exact h.execDetectRetry
  · exact h.execPartnerDetect
  · exact h.execLaneLockTimeout
  · exact h.execInitFlit
  · exact h.execKeyxFlit
  · exact h.execKeyxTimeout
  · exact h.execLos
  · exact h.execDataFlit
  · exact h.execIdleFlit
  · exact h.execIdleFlitDue
  · exact h.execNak
  · exact h.execLaneBad
  · exact h.execLsymWindow
  · exact h.execRetrain
  · exact h.execRetrainDone
  · exact h.execRekey
  · exact h.execTrainRetry
  · exact h.execWritePacket
  · exact h.execReadPacket
  · exact h.execAtomicPacket
  · exact h.execSignalPacket
  · exact h.execAnchorPacket
  · exact h.execAnchorRelease
  · exact h.execReducePacket
  · exact h.execGatherPacket
  · exact h.execAllreduceGather
  · exact h.execWatchPacket
  · exact h.execNotifyPacket
  · exact h.execAckPacket
  · exact h.execDataPacket
  · exact h.execBusyResend
  · exact h.execPacketResend
  · exact h.execResendDeadline
  · exact h.execLandingExpire
  · exact h.execRouteTableUpdate
  · exact h.execRollCall
  · exact h.execStaleResync
  · exact h.execLoss
  · exact h.execJoinNotice
  · exact h.execDepart
  · exact h.execHeartbeat
  · exact h.execHeartbeatTimeout
  · exact h.execNeighbourDead
  · exact h.execMemWindowAccess
  · exact h.execRingEnable
  · exact h.execRingDisable
  · exact h.execRconsWrite
  · exact h.execEventPost
  · exact h.execNhlLinkLoss
  · exact h.execNhlLinkReturn
  · exact h.execMctpControl
  · exact h.execVendorReadStatus
  · exact h.execVendorClearAlert
  · exact h.execGetVersion
  · exact h.execGetCapabilities
  · exact h.execNegotiateAlgorithms
  · exact h.execGetDigests
  · exact h.execGetCertificate
  · exact h.execChallenge
  · exact h.execGetMeasurements
  · exact h.execSpdmUnsupported
  · exact h.execInputExcursion
  · exact h.execInputExcursionTimeout
  · exact h.execPacingPeriod
  · exact h.execFastLimit
  · exact h.execPwrCapWrite
  · exact h.execPwrVceilWrite
  · exact h.execPwrEstDiverge
  · exact h.execMeasureStep
  · exact h.execPwrEstRecover
  · exact h.execRailDroop
  · exact h.execRailFault
  · exact h.execSensorSample
  · exact h.execThermalTripOff
  · exact h.execTileHang
  · exact h.execTileReplaceOrderly
  · exact h.execTileReplaceAbrupt
  · exact h.execTilePlace
  · exact h.execSliceBypass
  · exact h.execPhaseLost
  · exact h.execOscCompare
  · exact h.execGuideCoreFail
  · exact h.execClusterHeartbeat
  · exact h.execGuideTakeover
  · exact h.execWearJudge
  · exact h.execPeriodicSelftest
  · exact h.execFwUpdate
  · exact h.execFwUpdateFail
  · exact h.execPowerUp
  · exact h.execModResetRelease
  · exact h.execCardWrite
  · exact h.execKeyLoad
  · exact h.execKeyGenerate
  · exact h.execKeyClear
  · exact h.execEntropyFail
  · exact h.execDbgSubmit
  · exact h.execDbgEnd
  · exact h.execTrigIn
  · exact h.execDbgFire
  · exact h.execWavefrontArrive
  · exact h.execErrorLogWrite
  · exact h.execDbgHalt
  · exact h.execDbgMemRead
  · exact h.execPerfClear
  · exact h.execCableConnect
  · exact h.execCableRemove
  · exact h.execCableIdRead
  · exact h.execCableOverpower
  · exact h.execInputRangeReturn
  · exact h.execRailVoltageReturn
  · exact h.execKeyGeneratorRetest

/-! The step. -/

theorem MemFrom.step (h : MemFrom true s0 s) : MemOut true s0 (step s) := by
  unfold Machine.step
  split
  · exact h.hostDrain.next
  · exact h.upd.exec

end Sys2Proof.Laws
end

