-- ==== Sys2Proof/Proofs/Memory.lean ====
section
/-!
PROOF. O58: every step keeps the canonical form of memory.
-/
namespace Sys2Proof.Laws
open Sys2Proof.Machine Sys2Proof.Safety

/-- Settles O58: the step is a composition of the model's functions, along each of which `MemFrom` holds. -/
theorem memoryStaysCanonical : Obligations.MemoryStaysCanonical := by
  unfold Obligations.MemoryStaysCanonical
  intro s t hs e
  have h : MemOut true s (step s) := (MemFrom.refl s).step
  rw [e] at h
  exact h.inv hs

end Sys2Proof.Laws
end

