-- ==== Sys2Proof/Proofs/AtReset.lean ====
section
/-!
PROOF. O56: at power applied every block is OFF and every register holds its reset value.
-/
namespace Sys2Proof.Laws
open Sys2Proof.Machine Sys2Proof.Safety

theorem blk_reset (pg : Nat) : blk State.reset pg = {} := rfl

theorem regW_reset {pg : Nat} {i : PageId} (h : pageAt pg = some i) (o : Nat) : regW State.reset pg o = resetWord false i.ty o := by
  unfold regW
  rw [blk_reset, h]
  rfl

theorem regF_reset {pg : Nat} {i : PageId} (h : pageAt pg = some i) (o hi lo : Nat) :
    regF State.reset pg o hi lo = fld (resetWord false i.ty o) hi lo := by
  unfold regF
  rw [regW_reset h]

/-- The first page of a tile's sixteen is its TILE page (R534). -/
theorem pageAt_pgTile {t : Nat} (h : t < 176) : pageAt (pgTile t) = some ⟨.tile, t % 44, t / 44⟩ := by
  have hd : t / 44 < 4 := by omega
  have hpage : pgTile t = 0x1000 * (t / 44 + 1) + (0x100 + 0x10 * (t % 44)) := by
    unfold pgTile dieBase
    omega
  have hoff : pgTile t % 0x1000 = 0x100 + 0x10 * (t % 44) := by omega
  have hdie : pgTile t / 0x1000 - 1 = t / 44 := by omega
  have hslot : (0x100 + 0x10 * (t % 44) - 0x100) / 0x10 = t % 44 := by omega
  have hfirst : (0x100 + 0x10 * (t % 44)) % 0x10 = 0 := by omega
  have hports : numPorts (t / 44) ≤ 5 := by
    unfold numPorts
    split <;> omega
  unfold pageAt
  rw [if_neg (by omega), if_pos (by omega)]
  simp only [hoff, hdie, hslot, hfirst]
  iterate 12 rw [if_neg (by omega)]
  rw [if_pos (by omega)]

theorem physOf_reset {l : Nat} (h : l < 160) : physOf State.reset l = some (firstPlace l) := by
  have hplace : firstPlace l < unplaced := by
    unfold firstPlace unplaced
    omega
  exact if_neg hplace.ne

theorem railOfTile_firstPlace {l : Nat} (h : l < 160) : railOfTile (firstPlace l) < 16 := by
  unfold railOfTile firstPlace
  omega

/-- Settles O56: an untouched page is OFF and reads its reset words; the values of single registers are those of their tables. -/
theorem resetLeavesEverythingOff : Obligations.ResetLeavesEverythingOff := by
  unfold Obligations.ResetLeavesEverythingOff
  refine ⟨fun pg i hi => ⟨rfl, rfl, rfl, rfl, regW_reset hi⟩, fun n hn => ?_, ?_, ?_, fun l hl => ?_, ?_, rfl, rfl⟩
  · rw [regF_reset (pageAt_pgTile hn)]
    change fld (resetWord false .tile 0x088) 9 0 = 0x100
    decide
  · rw [regF_reset (i := ⟨.pwr, 0, 0⟩) rfl]
    decide
  · rw [regF_reset (i := ⟨.dbg, 0, 0⟩) rfl]
    decide
  · rw [physOf_reset hl]
    exact ⟨rfl, railOfTile_firstPlace hl⟩
  · exact ⟨ram_wf_reset, rfl⟩

end Sys2Proof.Laws
end

