-- ==== Sys2Proof/Proofs/PageErrors.lean ====
section
/-!
SUPPORT. What an error leaves of the pages and of memory (R53, R519), and how `OnlyPage` passes along updates of one page.
-/
namespace Sys2Proof.Laws
open Sys2Proof.Machine Sys2Proof.Safety

variable {s t u : State} {pg : Nat}

/-! Triggers and errors. -/

theorem blk_setReg (s : State) (pg off : Nat) (w : Word) (x : Nat) :
    blk (setReg s pg off w) x = if x = pg then { blk s x with regs := tput (blk s x).regs off w } else blk s x := by
  split
  · next h =>
    subst h
    exact blk_modBlk_same s x _
  · next h => exact blk_modBlk_ne s _ h

/-- A trigger counts in the registers of the DBG page and changes no other page. -/
theorem blk_cairnTrigger (s : State) (src ty x : Nat) :
    ∃ r, blk (cairnTrigger s src ty) x = { blk s x with regs := r } ∧ (x ≠ pgDbg → r = (blk s x).regs) := by
  unfold cairnTrigger
  split
  · exact ⟨_, rfl, fun _ => rfl⟩
  · change ∃ r, blk (setReg s pgDbg 0x08C _) x = _ ∧ _
    rw [blk_setReg]
    split
    · next h => exact ⟨_, rfl, fun k => absurd h k⟩
    · exact ⟨_, rfl, fun _ => rfl⟩

/-- The page of an error: status, count and record as R53 says; its registers stay, those of the DBG page apart. -/
theorem blk_errSet_same (s : State) (pg bit addr : Nat) :
    ∃ r d, blk (errSet s pg bit addr) pg = { (blk s pg).err bit addr with injDue := d, regs := r } ∧
      (pg ≠ pgDbg → r = (blk s pg).regs) := by
  unfold errSet
  dsimp only
  split
  · exact ⟨_, _, blk_setBlk_same s pg _, fun _ => rfl⟩
  · have hset : ∀ b, blk (setBlk s pg b) pg = b := blk_setBlk_same s pg
    split
    · obtain ⟨r, hr, hsame⟩ := blk_cairnTrigger (setBlk s pg _) 2 (((pageAt pg).map (·.ty.code)).getD 0) pg
      exact ⟨r, _, hr.trans (by rw [hset]), fun h => (hsame h).trans (by rw [hset]; rfl)⟩
    · exact ⟨_, _, hset _, fun _ => rfl⟩

theorem blk_errSet_ne (s : State) {pg x : Nat} (bit addr : Nat) (hp : x ≠ pg) (hd : x ≠ pgDbg) :
    blk (errSet s pg bit addr) x = blk s x := by
  unfold errSet
  dsimp only
  split
  · exact blk_setBlk_ne s _ hp
  · split
    · obtain ⟨r, hr, hsame⟩ := blk_cairnTrigger (setBlk s pg _) 2 (((pageAt pg).map (·.ty.code)).getD 0) x
      refine hr.trans ?_
      rw [hsame hd, blk_setBlk_ne s _ hp]
    · exact blk_setBlk_ne s _ hp

theorem getLsbD_or_twoPow (w : BitVec 32) {bit : Nat} (h : bit < 32) : (w ||| (1#32 <<< bit)).getLsbD bit = true := by
  simp [h]

/-- An error sets its bit. -/
theorem errSet_bit (s : State) (pg addr : Nat) {bit : Nat} (h : bit < 32) :
    (blk (errSet s pg bit addr) pg).errStat.getLsbD bit = true := by
  obtain ⟨r, d, e, -⟩ := blk_errSet_same s pg bit addr
  rw [e]
  exact getLsbD_or_twoPow _ h

/-! One page alone. -/

theorem onlyPage_refl (s : State) (pg : Nat) : OnlyPage s s pg := ⟨fun _ _ _ => rfl, rfl, rfl⟩

theorem onlyPage_trans (h : OnlyPage s t pg) (k : OnlyPage t u pg) : OnlyPage s u pg :=
  ⟨fun x hp hd => (k.1 x hp hd).trans (h.1 x hp hd), k.2.1.trans h.2.1, k.2.2.trans h.2.2⟩

theorem onlyPage_modBlk (s : State) (pg : Nat) (f : Blk → Blk) : OnlyPage s (modBlk s pg f) pg :=
  ⟨fun _ h _ => blk_modBlk_ne s f h, rfl, rfl⟩

theorem onlyPage_errSet (s : State) (pg bit addr : Nat) : OnlyPage s (errSet s pg bit addr) pg :=
  ⟨fun _ => blk_errSet_ne s bit addr, (MemFrom.refl s).errSet.same rfl⟩

/-- What an error leaves of its page, and of everything else. -/
structure Errs (s t : State) (pg bit : Nat) : Prop where
  set    : (blk t pg).errStat.getLsbD bit = true
  regs   : SameRegs s t pg
  staged : (blk t pg).staged = (blk s pg).staged
  st     : (blk t pg).st = (blk s pg).st
  only   : OnlyPage s t pg

theorem Errs.all {bit : Nat} (h : Errs s t pg bit) : (blk t pg).errStat.getLsbD bit = true ∧ SameRegs s t pg ∧
    (blk t pg).staged = (blk s pg).staged ∧ (blk t pg).st = (blk s pg).st ∧ OnlyPage s t pg :=
  ⟨h.set, h.regs, h.staged, h.st, h.only⟩

/-- An error after a change of its page that keeps registers, staged writes and state. -/
theorem Errs.after {bit : Nat} (h : Errs t u pg bit) (hr : (blk t pg).regs = (blk s pg).regs)
    (hg : (blk t pg).staged = (blk s pg).staged) (hst : (blk t pg).st = (blk s pg).st) (ho : OnlyPage s t pg) : Errs s u pg bit :=
  ⟨h.set, fun k => (h.regs k).trans hr, h.staged.trans hg, h.st.trans hst, onlyPage_trans ho h.only⟩

theorem errs_errSet (s : State) (pg addr : Nat) {bit : Nat} (h : bit < 32) : Errs s (errSet s pg bit addr) pg bit := by
  obtain ⟨r, d, e, hr⟩ := blk_errSet_same s pg bit addr
  exact ⟨errSet_bit s pg addr h, fun hp => by rw [e, hr hp], by rw [e]; rfl, by rw [e]; rfl, onlyPage_errSet s pg bit addr⟩

end Sys2Proof.Laws
end

