-- ==== Sys2Proof/Proofs/Aperture.lean ====
section
/-!
SUPPORT. Accesses of the register aperture by a path whose accesses work: what a write or a read of a page comes to.
-/
namespace Sys2Proof.Laws
open Sys2Proof.Machine Sys2Proof.Safety

variable {s : State} {p : Path} {tag pg o : Nat} {i : PageId}

/-- With no host access waiting, none is performed first. -/
theorem hostDrain_of_not_busy (h : hostBusy s = false) : hostDrain s = s := by
  have hq : s.hostQ = [] := by
    unfold hostBusy at h
    simpa using (Bool.or_eq_false_iff.1 h).1
  unfold hostDrain
  rw [hq]
  rfl

theorem regAcc_of_not_busy {off : Nat} (hu : pathUp s p = true) (hb : isGc p = true ∨ hostBusy s = false) (ho : off < 2 ^ 28)
    (n : Nat) (v : Option Nat) : regAcc s p tag off n v = regNow s p tag off n v := by
  have hs : (if isGc p then s else hostDrain s) = s := by
    rcases hb with hg | hb
    · rw [if_pos hg]
    · rw [hostDrain_of_not_busy hb, ite_self]
  have hwait : (!isGc p && hostBusy s) = false := by rcases hb with h | h <;> simp [h]
  unfold regAcc
  simp only [hs, hu, hwait]
  rw [if_neg (by simpa using ho), if_neg (by simp)]

theorem regAcc_access {off : Nat} (ha : Access s p tag) (ho : off < 2 ^ 28) (n : Nat) (v : Option Nat) :
    regAcc s p tag off n v = regNow s p tag off n v :=
  regAcc_of_not_busy ha.1 (ha.2.imp id And.right) ho n v

theorem access_tag (ha : Access s p tag) : (!isGc p && decide (tag ≠ 0)) = false := by
  rcases ha.2 with h | h <;> simp [h]

theorem pageIs_off_lt (hp : PageIs pg i) (ho : o < 4096) : 4096 * pg + o < 2 ^ 28 := by
  have := hp.1
  omega

theorem off_page (pg : Nat) (ho : o < 4096) : (4096 * pg + o) / 4096 = pg := by omega
theorem off_reg (pg : Nat) (ho : o < 4096) : (4096 * pg + o) % 4096 = o := by omega

/-! Writes. -/

/-- A write of a page: refused unless it is one aligned word, else of the header or of the block. -/
theorem regWrite_page (hp : PageIs pg i) (ha : Access s p tag) (ho : o < 4096) (n v : Nat) :
    regWrite s p tag (4096 * pg + o) n v =
      if n ≠ 4 ∨ o % 4 ≠ 0 then regErr s pg errAccess o
      else if o < 0x080 then hdrWrite s p pg i o (v % 2 ^ 32) else blockWrite s p pg i o (v % 2 ^ 32) := by
  unfold regWrite
  rw [regAcc_access ha (pageIs_off_lt hp ho)]
  change regWriteNow s p tag (4096 * pg + o) n v = _
  unfold regWriteNow
  rw [off_page pg ho, off_reg pg ho, access_tag ha, hp.2]
  simp

theorem regWrite_unaligned (hp : PageIs pg i) (ha : Access s p tag) (ho : o < 4096) {n : Nat} (h : n ≠ 4 ∨ o % 4 ≠ 0) (v : Nat) :
    regWrite s p tag (4096 * pg + o) n v = regErr s pg errAccess o := by
  rw [regWrite_page hp ha ho, if_pos h]

theorem regWrite_header (hp : PageIs pg i) (ha : Access s p tag) (ho : o < 0x080) (h4 : o % 4 = 0) (v : Nat) :
    regWrite s p tag (4096 * pg + o) 4 v = hdrWrite s p pg i o (v % 2 ^ 32) := by
  rw [regWrite_page hp ha (by omega), if_neg (by omega), if_pos ho]

theorem regWrite_block (hp : PageIs pg i) (ha : Access s p tag) (hl : 0x080 ≤ o) (ho : o < 4096) (h4 : o % 4 = 0) (v : Nat) :
    regWrite s p tag (4096 * pg + o) 4 v = blockWrite s p pg i o (v % 2 ^ 32) := by
  rw [regWrite_page hp ha ho, if_neg (by omega), if_neg (by omega)]

/-- A block-specific register of a silent block, array pages apart, refuses the write (R41). -/
theorem blockWrite_silent (hf : fieldsAt i.ty o ≠ []) (hs : (blk s pg).st.silent = true) (ht : i.ty ≠ .arr) (v : Nat) :
    blockWrite s p pg i o v = regErr s pg errState o := by
  unfold blockWrite
  rw [if_neg (by simpa using hf)]
  simp [hs, ht]

/-! Reads. -/

/-- A path's bus takes the value of a read. -/
def give (s : State) (p : Path) (n : Nat) : State := { s with bus := tput s.bus (pathIx p) n }

@[simp] theorem give_bus (s : State) (p : Path) (n : Nat) : tget? (give s p n).bus (pathIx p) = some n := tget?_tput_same _ _ _
@[simp] theorem blk_give (s : State) (p : Path) (n x : Nat) : blk (give s p n) x = blk s x := rfl

theorem onlyPage_give (s : State) (p : Path) (n pg : Nat) : OnlyPage s (give s p n) pg := ⟨fun _ _ _ => rfl, rfl, rfl⟩

/-- A read that is not one aligned word gives all ones (R7). -/
theorem regRead_unaligned (hp : PageIs pg i) (ha : Access s p tag) (ho : o < 4096) {n : Nat} (h : n ≠ 4 ∨ o % 4 ≠ 0) :
    regRead s p tag (4096 * pg + o) n = give (regErr s pg errAccess o) p 0xFFFF_FFFF := by
  unfold regRead
  rw [regAcc_access ha (pageIs_off_lt hp ho)]
  change regReadNow s p tag (4096 * pg + o) n = _
  unfold regReadNow
  rw [off_page pg ho, off_reg pg ho, access_tag ha, hp.2]
  simp [h, give]

/-- A read of a register that is no high half of a pair and does not tick: its value, and what the read leaves behind. -/
theorem regRead_plain (hp : PageIs pg i) (ha : Access s p tag) (ho : o < 4096) (h4 : o % 4 = 0) (hh : isHigh i.ty o = false)
    {s1 : State} (h1 : tickRead (if o = 0x010 then progGoes s i pg else s) pg i o = s1) :
    regRead s p tag (4096 * pg + o) 4 = give (readEffects s1 p pg i o) p (readN s1 p pg i o) := by
  unfold regRead
  rw [regAcc_access ha (pageIs_off_lt hp ho)]
  change regReadNow s p tag (4096 * pg + o) 4 = _
  unfold regReadNow
  rw [off_page pg ho, off_reg pg ho, access_tag ha, hp.2]
  simp only [h1, hh]
  rw [if_neg (by simp), if_neg (by simpa using h4)]
  rfl

/-- A register other than the counters of R25 and R30 does not tick. -/
theorem tickRead_still (h68 : o ≠ 0x068) (h6C : o ≠ 0x06C) (h70 : o ≠ 0x070) (h74 : o ≠ 0x074) : tickRead s pg i o = s := by
  unfold tickRead
  simp [h68, h6C, h70, h74]

/-- The step counts of blocks other than links and guide cores do not tick. -/
theorem tickRead_steps (hg : i.ty ≠ .gde) (hf : i.ty ≠ .fport) (hn : i.ty ≠ .nhl) : tickRead s pg i 0x070 = s := by
  unfold tickRead
  simp [hg, hf, hn]

end Sys2Proof.Laws
end

