-- ==== Sys2Proof/Proofs/Registers.lean ====
section
/-!
PROOF. O37: accesses of the register aperture.
-/
namespace Sys2Proof.Laws
open Sys2Proof.Machine Sys2Proof.Safety

variable {s : State} {p : Path} {tag pg o : Nat} {i : PageId} {n d : Nat}

/-! The header. -/

theorem ofNat_mod_word (v : Nat) : BitVec.ofNat 32 (v % 2 ^ 32) = BitVec.ofNat 32 v := by
  apply BitVec.eq_of_toNat_eq
  simp

/-- Setting bit `k` sets it in the word that is written. -/
theorem setBits_bit {k : Nat} (v : Nat) (h : k < 32) : (setBits v k k 1 % 2 ^ 32).testBit k = true := by
  rw [Nat.testBit_mod_two_pow, setBits_testBit v k k 1 k (le_refl k)]
  simp [h]

theorem errTidy_fields (b : Blk) : b.errTidy.errStat = b.errStat ∧ b.errTidy.errCnt = b.errCnt ∧ b.errTidy.regs = b.regs ∧
    b.errTidy.st = b.st := by
  unfold Blk.errTidy
  split <;> exact ⟨rfl, rfl, rfl, rfl⟩

/-- A write of BLK_ERR_STAT clears the bits it names (R53). -/
theorem errStat_write (s : State) (p : Path) (pg : Nat) (i : PageId) (v : Nat) {t : State}
    (ht : hdrWrite s p pg i 0x018 (v % 2 ^ 32) = t) :
    (blk t pg).errStat = (blk s pg).errStat &&& ~~~(BitVec.ofNat 32 v) ∧ (blk t pg).errCnt = (blk s pg).errCnt ∧
      (blk t pg).regs = (blk s pg).regs ∧ (blk t pg).st = (blk s pg).st ∧ OnlyPage s t pg := by
  have hb : blk t pg = Blk.errTidy { blk s pg with errStat := (blk s pg).errStat &&& ~~~(BitVec.ofNat 32 v) } := by
    rw [← ht, ← ofNat_mod_word v]
    exact blk_modBlk_same s pg _
  obtain ⟨h1, h2, h3, h4⟩ := errTidy_fields { blk s pg with errStat := (blk s pg).errStat &&& ~~~(BitVec.ofNat 32 v) }
  rw [hb]
  exact ⟨h1, h2, h3, h4, ht ▸ onlyPage_modBlk s pg _⟩

/-- ARM is taken with the INJECT right (R54). -/
theorem injCtrl_permit {v : Nat} {t : State} (hv : v.testBit 0 = true) (hp : permit s = true) (ht : injCtrl s pg v = t) :
    (blk t pg).injArm = true ∧ (blk t pg).errStat = (blk s pg).errStat ∧ (blk t pg).regs = (blk s pg).regs ∧ OnlyPage s t pg := by
  subst ht
  unfold injCtrl
  simp only [hv, hp]
  rw [if_neg (by decide)]
  exact ⟨by simp, by simp, by simp, onlyPage_modBlk s pg _⟩

/-- Without the right ARM stays 0 and REG_STATE is set. -/
theorem injCtrl_refused {v : Nat} {t : State} (hv : v.testBit 0 = true) (hp : permit s = false) (ht : injCtrl s pg v = t) :
    (blk t pg).injArm = false ∧ Errs s t pg errState := by
  subst ht
  unfold injCtrl
  simp only [hv, hp]
  rw [if_pos (by decide)]
  refine ⟨?_, (errs_errSet _ pg _ (by decide)).after (by simp) (by simp) (by simp)
    (onlyPage_trans (onlyPage_modBlk s pg _) (onlyPage_modBlk _ pg _))⟩
  obtain ⟨r, d, e, -⟩ := blk_errSet_same (modBlk (modBlk s pg _) pg (fun b => { b with injArm := false })) pg errState (4096 * pg + 0x034)
  exact (congrArg Blk.injArm e).trans (by simp [Blk.err])

/-- RELEASE lets a held snapshot go (R520). -/
theorem snapRelease_write (s : State) (p : Path) (pg : Nat) (i : PageId) {v : Nat} {t : State} (hv : v.testBit 2 = true)
    (ht : hdrWrite s p pg i 0x040 v = t) :
    (blk t pg).snapHeld = false ∧ (blk t pg).snapWords = (blk s pg).snapWords ∧ (blk t pg).regs = (blk s pg).regs ∧ OnlyPage s t pg := by
  have hb : blk t pg = { blk s pg with snapJoin := v.testBit 0, snapHeld := (blk s pg).snapHeld && !v.testBit 2 } :=
    ht ▸ blk_modBlk_same s pg _
  rw [hb]
  exact ⟨by simp [hv], rfl, rfl, ht ▸ onlyPage_modBlk s pg _⟩

/-! Fields. -/

/-- A field as wide as its register takes the whole word. -/
theorem putFld_whole (w : Word) (v : Nat) : putFld w 31 0 v = BitVec.ofNat 32 v := by
  apply BitVec.eq_of_toNat_eq
  have hw : w.toNat >>> 32 = 0 := Nat.shiftRight_eq_zero _ _ w.isLt
  simp [putFld, setBits, hw, Nat.mod_one]

/-- A register with one field is written as that field. -/
theorem fieldsWrite_single {f : FieldSpec} (hd : i.ty ≠ .dev) (hw : writable i.ty o = [f]) (v : Nat) :
    fieldsWrite s pg i o v = writeErrors (fieldWrite pg i o v s f) pg i o v [f] := by
  unfold fieldsWrite
  simp [hd, hw]

theorem fieldRsvd_eq (ht : i.ty ≠ .tile ∨ o ≠ 0x0C8) (f : FieldSpec) (v : Nat) : fieldRsvd i.ty o f v = reservedVal i.ty o f v :=
  if_neg (by rcases ht with h | h <;> simp [h])

/-- A field of a stopped-only register is staged (R46). -/
def stageField (s : State) (pg o hi lo v : Nat) : State :=
  modBlk s pg (fun b => { b with staged := tput b.staged o (putFld ((tget? b.staged o).getD (regW s pg o)) hi lo v) })

theorem blk_stageField (s : State) (pg o hi lo v : Nat) : blk (stageField s pg o hi lo v) pg =
    { blk s pg with staged := tput (blk s pg).staged o (putFld ((tget? (blk s pg).staged o).getD (regW s pg o)) hi lo v) } :=
  blk_modBlk_same s pg _

theorem onlyPage_stageField (s : State) (pg o hi lo v : Nat) : OnlyPage s (stageField s pg o hi lo v) pg := onlyPage_modBlk s pg _

/-- A stopped-only register of one field: staged in STOPPED, else refused (R46, R47). -/
theorem fieldsWrite_stoppedOnly {f : FieldSpec} (hd : i.ty ≠ .dev) (ht : i.ty ≠ .tile) (hw : writable i.ty o = [f]) (hso : f.so = true)
    (hn : o ≠ 0x0F0) {v : Nat} (hr : reservedVal i.ty o f (bits v f.hi f.lo) = false) :
    fieldsWrite s pg i o v =
      if (blk s pg).st = .stopped then stageField s pg o f.hi f.lo (bits v f.hi f.lo) else regErr s pg errState o := by
  rw [fieldsWrite_single hd hw]
  unfold fieldWrite writeErrors
  by_cases h : (blk s pg).st = .stopped
  · simp [fieldRsvd_eq (.inl ht), hr, hso, h, hn, stageField]
  · simp [fieldRsvd_eq (.inl ht), hr, hso, h, hn]

/-! STARVE and TST_SPLIT. -/

theorem blockWrite_starve (hs : (blk s pg).st.silent = false) (v : Nat) :
    blockWrite s p pg ⟨.tile, n, d⟩ 0x088 v = fieldsWrite s pg ⟨.tile, n, d⟩ 0x088 v := by
  have hf : (fieldsAt .tile 0x088).isEmpty = false := by decide
  have hlow : isLow .tile 0x088 = false := by decide
  have hhigh : isHigh .tile 0x088 = false := by decide
  unfold blockWrite
  simp [hf, hs, hostIgnored, hlow, hhigh, regHook]

/-- The write of STARVE: a value below 16 is reserved (R47). -/
theorem fieldsWrite_starve (s : State) (pg n d w : Nat) : fieldsWrite s pg ⟨.tile, n, d⟩ 0x088 w =
    if bits w 9 0 < 16 then regErr s pg errRsvd 0x088 else setRegF s pg 0x088 9 0 (bits w 9 0) := by
  have hw : writable .tile 0x088 = [⟨0x088, 1, 9, 0, .rw, 0x100, false⟩] := by decide
  have hr : ∀ v, reservedVal .tile 0x088 ⟨0x088, 1, 9, 0, .rw, 0x100, false⟩ v = decide (v < 16) := fun _ => rfl
  rw [fieldsWrite_single (by simp) hw]
  unfold fieldWrite writeErrors
  by_cases h : bits w 9 0 < 16 <;> simp [fieldRsvd, hr, h, fieldNew]

/-- STARVE takes a value from 16, and no other register changes. -/
theorem starve_taken (s : State) (pg : Nat) {v : Nat} {t : State} (ht : setRegF s pg 0x088 9 0 (v % 2 ^ 10) = t) :
    regF t pg 0x088 9 0 = v % 2 ^ 10 ∧ (∀ o, o ≠ 0x088 → regW t pg o = regW s pg o) ∧ (blk t pg).errStat = (blk s pg).errStat ∧
      OnlyPage s t pg := by
  subst ht
  refine ⟨?_, fun o ho => regW_setReg_ne s _ (.inr ho), ?_, onlyPage_modBlk s pg _⟩
  · rw [regF_setRegF_same s pg 0x088 9 0 _ (by decide) (by decide)]
    exact Nat.mod_mod _ _
  · unfold setRegF setReg
    rw [blk_modBlk_same]

theorem blockWrite_split (hs : (blk s pg).st.silent = false) (v : Nat) :
    blockWrite s p pg ⟨.tst, n, d⟩ 0x080 v = fieldsWrite s pg ⟨.tst, n, d⟩ 0x080 v := by
  have hf : (fieldsAt .tst 0x080).isEmpty = false := by decide
  have hlow : isLow .tst 0x080 = false := by decide
  have hhigh : isHigh .tst 0x080 = false := by decide
  unfold blockWrite
  simp [hf, hs, hostIgnored, hlow, hhigh, regHook]

/-- The write of TST_SPLIT, a stopped-only field. -/
theorem fieldsWrite_split (s : State) (pg n d : Nat) {v : Nat} (hv : v % 2 ^ 8 ≤ 128) :
    fieldsWrite s pg ⟨.tst, n, d⟩ 0x080 (v % 2 ^ 32) =
      if (blk s pg).st = .stopped then stageField s pg 0x080 7 0 (v % 2 ^ 8) else regErr s pg errState 0x080 := by
  have hb : bits (v % 2 ^ 32) 7 0 = v % 2 ^ 8 := by simp [bits]
  have hw : writable .tst 0x080 = [⟨0x080, 1, 7, 0, .rw, 0x80, true⟩] := by decide
  have hr : reservedVal .tst 0x080 ⟨0x080, 1, 7, 0, .rw, 0x80, true⟩ (bits (v % 2 ^ 32) 7 0) = false := by
    rw [hb]
    exact decide_eq_false (by omega)
  rw [fieldsWrite_stoppedOnly (by simp) (by simp) hw rfl (by decide) hr]
  dsimp only
  rw [hb]

/-- TST_SPLIT is staged in STOPPED. -/
theorem split_staged (s : State) (pg v : Nat) {t : State} (ht : stageField s pg 0x080 7 0 (v % 2 ^ 8) = t) :
    (tget? (blk t pg).staged 0x080).map (fun w => fld w 7 0) = some (v % 2 ^ 8) ∧ (blk t pg).regs = (blk s pg).regs ∧
      (blk t pg).errStat = (blk s pg).errStat ∧ OnlyPage s t pg := by
  subst ht
  rw [blk_stageField]
  refine ⟨?_, rfl, rfl, onlyPage_stageField s pg _ _ _ _⟩
  rw [tget?_tput_same, Option.map_some, fld_putFld_same _ 7 0 _ (by decide) (by decide)]
  exact congrArg some (Nat.mod_mod _ _)

/-! XLT_SDT, a stopped-only pair (R10, R46). -/

theorem lowStage_stopped (hp : i.ty.soPairs.contains o = true) (hs : (blk s pg).st = .stopped) (v : Nat) :
    lowStage s pg i o v = modBlk s pg (fun b => { b with pairStage := tput b.pairStage o (BitVec.ofNat 32 v) }) := by
  unfold lowStage
  rw [if_pos hp, if_pos hs]

theorem blockWrite_sdtLow (hg : isGc p = true) (hs : (blk s pg).st = .stopped) (v : Nat) :
    blockWrite s p pg ⟨.xlt, n, d⟩ 0x080 v =
      modBlk s pg (fun b => { b with pairStage := tput b.pairStage 0x080 (BitVec.ofNat 32 v) }) := by
  have hf : (fieldsAt .xlt 0x080).isEmpty = false := by decide
  have hlow : isLow .xlt 0x080 = true := by decide
  have hrw : rwPair .xlt 0x080 = true := by decide
  unfold blockWrite
  simp [hf, hs, hg, hlow, hrw, BState.silent, lowStage_stopped (i := ⟨.xlt, n, d⟩) (o := 0x080) rfl hs]

theorem blockWrite_sdtHigh (hg : isGc p = true) (hs : (blk s pg).st = .stopped) (v : Nat) :
    blockWrite s p pg ⟨.xlt, n, d⟩ 0x084 v = highCommit s pg ⟨.xlt, n, d⟩ 0x084 v := by
  have hf : (fieldsAt .xlt 0x084).isEmpty = false := by decide
  have hlow : isLow .xlt 0x084 = false := by decide
  have hhigh : isHigh .xlt 0x084 = true := by decide
  have hrw : rwPair .xlt 0x084 = true := by decide
  unfold blockWrite
  simp [hf, hs, hg, hlow, hhigh, hrw, BState.silent, regHook]

/-- In STOPPED a half of XLT_SDT is staged as the word written. -/
theorem fieldsWrite_sdt (hs : (blk s pg).st = .stopped) (ho : o = 0x080 ∨ o = 0x084) (v : Nat) :
    fieldsWrite s pg ⟨.xlt, n, d⟩ o v = stageField s pg o 31 0 (bits v 31 0) := by
  have hw : writable .xlt o = [⟨o, 1, 31, 0, .rw, 0, true⟩] := by rcases ho with rfl | rfl <;> decide
  have hn : o ≠ 0x0F0 := by omega
  rw [fieldsWrite_stoppedOnly (by simp) (by simp) hw rfl hn rfl, if_pos hs]

/-- The high half commits the low one staged before it: both are staged (R10, R46). -/
theorem highCommit_sdt {w : Word} (hs : (blk s pg).st = .stopped) (hw : tget? (blk s pg).pairStage 0x080 = some w) (v : Nat) :
    highCommit s pg ⟨.xlt, n, d⟩ 0x084 v =
      stageField (stageField (modBlk s pg (fun b => { b with pairStage := tdel b.pairStage 0x080 })) pg 0x080 31 0 (bits w.toNat 31 0))
        pg 0x084 31 0 (bits v 31 0) := by
  have hst : (blk (modBlk s pg (fun b => { b with pairStage := tdel b.pairStage 0x080 })) pg).st = .stopped := by
    rw [blk_modBlk_same]
    exact hs
  have hkey : PT.xlt.soPairs.contains (0x084 - 4) = true := by decide
  unfold highCommit
  simp only [hkey, if_true, hw]
  rw [fieldsWrite_sdt hst (.inl rfl), fieldsWrite_sdt _ (.inr rfl)]
  rw [blk_stageField]
  exact hst

theorem sdt_committed (s : State) (pg : Nat) (w : Word) (v : Nat) {t : State}
    (ht : stageField (stageField (modBlk s pg (fun b => { b with pairStage := tdel b.pairStage 0x080 })) pg 0x080 31 0 (bits w.toNat 31 0))
      pg 0x084 31 0 (bits (v % 2 ^ 32) 31 0) = t) :
    tget? (blk t pg).pairStage 0x080 = none ∧ tget? (blk t pg).staged 0x080 = some w ∧
      tget? (blk t pg).staged 0x084 = some (BitVec.ofNat 32 v) ∧ (blk t pg).regs = (blk s pg).regs ∧ OnlyPage s t pg := by
  subst ht
  have hlow : BitVec.ofNat 32 (bits w.toNat 31 0) = w := by
    apply BitVec.eq_of_toNat_eq
    simpa [bits] using w.isLt
  have hhigh : BitVec.ofNat 32 (bits (v % 2 ^ 32) 31 0) = BitVec.ofNat 32 v := by
    apply BitVec.eq_of_toNat_eq
    simp [bits]
  refine ⟨?_, ?_, ?_, ?_, onlyPage_trans (onlyPage_trans (onlyPage_modBlk s pg _) (onlyPage_stageField _ pg _ _ _ _))
    (onlyPage_stageField _ pg _ _ _ _)⟩
  all_goals rw [blk_stageField, blk_stageField, blk_modBlk_same]
  · exact tget?_tdel_same _ _
  · simp only [putFld_whole, hlow]
    exact (tget?_tput_ne _ _ (by decide)).trans (tget?_tput_same _ _ _)
  · simp only [putFld_whole, hhigh]
    exact tget?_tput_same _ _ _

/-! Reads of the header. -/

theorem isLow_state (ty : PT) : isLow ty 0x008 = false := by cases ty <;> decide
theorem isHigh_state (ty : PT) : isHigh ty 0x008 = false := by cases ty <;> decide
theorem isLow_prog (ty : PT) : isLow ty 0x010 = false := by cases ty <;> decide
theorem isHigh_prog (ty : PT) : isHigh ty 0x010 = false := by cases ty <;> decide
theorem isLow_errCnt (ty : PT) : isLow ty 0x024 = false := by cases ty <;> decide
theorem isHigh_errCnt (ty : PT) : isHigh ty 0x024 = false := by cases ty <;> decide
theorem isLow_step (ty : PT) : isLow ty 0x070 = true := by cases ty <;> decide
theorem isHigh_step (ty : PT) : isHigh ty 0x070 = false := by cases ty <;> decide

theorem readEffects_state (s : State) (p : Path) (pg : Nat) (i : PageId) : readEffects s p pg i 0x008 = s := by
  unfold readEffects
  simp [isLow_state, isHigh_state]

theorem readEffects_prog (s : State) (p : Path) (pg : Nat) (i : PageId) : readEffects s p pg i 0x010 =
    modBlk s pg (fun b => { b with progLatch := tput b.progLatch (pathIx p) (b.progOpc + 65536 * b.progSer) }) := by
  unfold readEffects
  simp [isLow_prog, isHigh_prog]

theorem readEffects_errCnt (s : State) (p : Path) (pg : Nat) (i : PageId) :
    readEffects s p pg i 0x024 = modBlk s pg (fun b => { b with errCnt := 0 }) := by
  unfold readEffects
  simp [isLow_errCnt, isHigh_errCnt]

theorem readEffects_step (s : State) (p : Path) (pg : Nat) (i : PageId) : readEffects s p pg i 0x070 = modBlk s pg
    (fun b => { b with pairLatch := tput b.pairLatch (4096 * pathIx p + 0x074) (BitVec.ofNat 32 ((blk s pg).steps / 2 ^ 32 % 2 ^ 32)) }) := by
  unfold readEffects
  simp [isLow_step, readN, hdrN]

/-! A long operation that goes on as its progress is read (R51). -/

theorem blk_dropClean (s : State) (x : L2Slice) (key pg : Nat) : blk (dropClean s x key) pg = blk s pg := by
  unfold dropClean
  split
  · split <;> rfl
  · rfl

theorem blk_displace (s : State) (g key pg : Nat) : blk (displace s g key) pg = blk s pg := by
  unfold displace
  split
  · rfl
  · exact blk_dropClean _ _ _ pg

theorem blk_setSlice (s : State) (g : Nat) (x : L2Slice) (pg : Nat) : blk (setSlice s g x) pg = blk s pg := rfl

/-- A way swap that goes on changes the progress of its own page alone. -/
theorem blk_swapTo (s : State) (g n pg : Nat) : ∃ v, blk (swapTo s g n) pg = { blk s pg with progVal := v } := by
  have hsets : ∀ ks : List Nat, blk (ks.foldl (fun s k => displace s g k) s) pg = blk s pg := fun ks =>
    foldl_keeps (fun u => blk u pg = blk s pg) _ (fun u k hu => (blk_displace u g k pg).trans hu) ks s rfl
  unfold swapTo
  dsimp only
  by_cases h : pg = pgL2s g
  · subst h
    rw [blk_modBlk_same, blk_setSlice, hsets]
    exact ⟨_, rfl⟩
  · rw [blk_modBlk_ne _ _ h, blk_setSlice, hsets]
    exact ⟨_, rfl⟩

/-- A branch that does not give the value is not taken. -/
theorem ite_eq_of_ne {α : Type} {c : Prop} [Decidable c] {a b y : α} (h : (if c then a else b) = y) (hn : a ≠ y) : ¬c ∧ b = y := by
  by_cases hc : c
  · exact absurd ((if_pos hc).symm.trans h) hn
  · exact ⟨hc, (if_neg hc).symm.trans h⟩

/-- The page number of an HBM page, from what it is (R534). -/
theorem pgHbm_of_pageAt (h : pageAt pg = some ⟨.hbm, n, d⟩) : pgHbm (3 * d + n) = pg := by
  unfold pageAt at h
  obtain ⟨h1, h⟩ := ite_eq_of_ne h (by split <;> simp)
  by_cases h2 : pg < 0x5000
  · rw [if_pos h2] at h
    dsimp only at h
    obtain ⟨-, h⟩ := ite_eq_of_ne h (by split <;> simp)
    iterate 5 obtain ⟨-, h⟩ := ite_eq_of_ne h (by simp)
    iterate 2 obtain ⟨h3, h⟩ := ite_eq_of_ne h (by simp)
    by_cases h4 : pg % 0x1000 < 0x33
    · rw [if_pos h4] at h
      injection h with h
      injection h with h5 h6 h7
      unfold pgHbm dieBase
      omega
    · obtain ⟨-, h⟩ := ite_eq_of_ne ((if_neg h4).symm.trans h) (by simp)
      iterate 2 obtain ⟨-, h⟩ := ite_eq_of_ne h (by simp)
      obtain ⟨-, h⟩ := ite_eq_of_ne h (by split <;> simp)
      cases h
  · rw [if_neg h2] at h
    cases h

/-- What a read of BLK_PROG lets the operation do: its progress goes on, unless none runs or the management engine shows it; but
for a way swap, which moves lines, nothing else changes. -/
theorem progGoes_spec (hp : pageAt pg = some i) : ∃ v, blk (progGoes s i pg) pg = { blk s pg with progVal := v } ∧
    ((blk s pg).opRun = false ∨ i.ty = .me → v = (blk s pg).progVal) ∧
    ((blk s pg).opRun = false ∨ i.ty ≠ .l2s → OnlyPage s (progGoes s i pg) pg) := by
  unfold progGoes
  split
  · exact ⟨_, rfl, fun _ => rfl, fun _ => onlyPage_refl s pg⟩
  · next hrun =>
    have hrun : (blk s pg).opRun = true := by simpa using hrun
    split
    · next ht =>
      obtain ⟨v, hv⟩ := blk_swapTo (takeFree s).2 (32 * i.die + i.inst)
        ((blk s (pgL2s (32 * i.die + i.inst))).progVal + (takeFree s).1 % (1024 - (blk s (pgL2s (32 * i.die + i.inst))).progVal)) pg
      exact ⟨v, hv, by simp [hrun, ht], by simp [hrun, ht]⟩
    · next ht =>
      have hpg : pgHbm (3 * i.die + i.inst) = pg := by
        obtain ⟨ty, inst, die⟩ := i
        subst ht
        exact pgHbm_of_pageAt hp
      unfold scrubGoes
      rw [hpg]
      exact ⟨_, blk_modBlk_same _ pg _, by simp [hrun, ht], fun _ => onlyPage_modBlk (takeFree s).2 pg _⟩
    · exact ⟨_, rfl, fun _ => rfl, fun _ => onlyPage_refl s pg⟩
    · next hme => exact ⟨_, blk_modBlk_same _ pg _, by simpa [hrun] using fun h => absurd h hme, fun _ => onlyPage_modBlk (takeFree s).2 pg _⟩

/-! The commands. -/

theorem exec_regWrite {off m v : Nat} {t : State} (h : regWrite s p tag off m v = t) : exec (.regWrite p tag off m v) s = .next t :=
  congrArg Host.Outcome.next h

theorem exec_rcRead {off m : Nat} {t : State} (h : regRead s p tag off m = t) : exec (.rcRead p tag off m) s = .next t :=
  congrArg Host.Outcome.next h

theorem offLow_page (hp : PageIs pg i) (ho : o < 4096) : offLow (4096 * pg + o) = isLow i.ty o := by
  unfold offLow
  rw [off_page pg ho, off_reg pg ho, hp.2]

theorem offHigh_page (hp : PageIs pg i) (ho : o < 4096) : offHigh (4096 * pg + o) = isHigh i.ty o := by
  unfold offHigh
  rw [off_page pg ho, off_reg pg ho, hp.2]

theorem exec_pairLowWrite {v : Nat} {t : State} (hp : PageIs pg i) (ho : o < 4096) (hl : isLow i.ty o = true)
    (h : regWrite s p tag (4096 * pg + o) 4 v = t) : exec (.pairLowWrite p tag (4096 * pg + o) v) s = .next t :=
  congrArg Host.Outcome.next ((if_pos ((offLow_page hp ho).trans hl)).trans h)

theorem exec_pairHighWrite {v : Nat} {t : State} (hp : PageIs pg i) (ho : o < 4096) (hh : isHigh i.ty o = true)
    (h : regWrite s p tag (4096 * pg + o) 4 v = t) : exec (.pairHighWrite p tag (4096 * pg + o) v) s = .next t :=
  congrArg Host.Outcome.next ((if_pos ((offHigh_page hp ho).trans hh)).trans h)

theorem exec_pairLowRead {t : State} (hp : PageIs pg i) (ho : o < 4096) (hl : isLow i.ty o = true)
    (h : regRead s p tag (4096 * pg + o) 4 = t) : exec (.pairLowRead p tag (4096 * pg + o)) s = .next t :=
  congrArg Host.Outcome.next ((if_pos ((offLow_page hp ho).trans hl)).trans h)

/-- A read where no block has a page gives all ones, a write there does nothing (R8). -/
theorem access_nowhere {off : Nat} (ha : Access s p tag) (ho : off < 2 ^ 28) (hn : pageAt (off / 4096) = none) (m v : Nat) :
    regRead s p tag off m = give s p 0xFFFF_FFFF ∧ regWrite s p tag off m v = s := by
  unfold regRead regWrite
  rw [regAcc_access ha ho, regAcc_access ha ho]
  change regReadNow s p tag off m = _ ∧ regWriteNow s p tag off m v = _
  unfold regReadNow regWriteNow
  rw [access_tag ha, hn]
  exact ⟨rfl, rfl⟩

/-- A host access with a tag is turned away at the host link's page (R440). -/
theorem regWrite_tagged {tg off : Nat} (ht : tg ≠ 0) (ho : off < 2 ^ 28) (hu : pathUp s .host = true) (hb : hostBusy s = false) (m v : Nat) :
    regWrite s .host tg off m v = tagReject s off := by
  unfold regWrite
  rw [regAcc_of_not_busy hu (.inr hb) ho]
  exact if_pos (by simp [isGc, ht])

/-- Settles O37: each access comes to one update or one error of its page. -/
theorem registersAreReadAndWritten : Obligations.RegistersAreReadAndWritten := by
  unfold Obligations.RegistersAreReadAndWritten
  intro s p tag pg i hp ha
  refine ⟨⟨fun o n v ho hbad => ?access, fun o v hlo ho h4 hf hs ht => ?silent, fun v => ?errStat, fun v ht hs => ?starve,
    fun v ht hv => ?split, ?state, ?errCnt, ?prog, fun v w ht hg hs => ?sdt, fun hg hf hn => ?step, fun v => ?arm, fun v => ?release⟩,
    fun off n v ho hn => ?nowhere, fun tg off n v ht ho hu hb => ?tagged⟩
  case access =>
    exact ⟨⟨_, exec_regWrite (regWrite_unaligned hp ha ho hbad v), (errs_errSet s pg _ (by decide)).all⟩,
      _, exec_rcRead (regRead_unaligned hp ha ho hbad), (errs_errSet s pg _ (by decide)).all, give_bus _ _ _⟩
  case silent =>
    exact ⟨_, exec_regWrite ((regWrite_block hp ha hlo ho h4 v).trans (blockWrite_silent hf hs ht _)), (errs_errSet s pg _ (by decide)).all⟩
  case errStat =>
    exact ⟨_, exec_regWrite (regWrite_header hp ha (by decide) rfl v), errStat_write s p pg i v rfl⟩
  case starve =>
    obtain ⟨ty, inst, die⟩ := i
    subst ht
    have hb : bits (v % 2 ^ 32) 9 0 = v % 2 ^ 10 := by simp [bits]
    have hw := (regWrite_block hp ha (show 0x080 ≤ 0x088 by decide) (by decide) rfl v).trans
      ((blockWrite_starve hs _).trans (fieldsWrite_starve s pg inst die _))
    rw [hb] at hw
    exact ⟨fun h => ⟨_, exec_regWrite (hw.trans (if_neg (by omega))), starve_taken s pg rfl⟩,
      fun h => ⟨_, exec_regWrite (hw.trans (if_pos h)), (errs_errSet s pg _ (by decide)).all⟩⟩
  case split =>
    obtain ⟨ty, inst, die⟩ := i
    subst ht
    have hw (hs : (blk s pg).st.silent = false) := (regWrite_block hp ha (show 0x080 ≤ 0x080 by decide) (by decide) rfl v).trans
      ((blockWrite_split hs _).trans (fieldsWrite_split s pg inst die hv))
    refine ⟨fun hs => ⟨_, exec_regWrite ((hw (by rw [hs]; rfl)).trans (if_pos hs)), split_staged s pg v rfl⟩, fun hs => ?_⟩
    have hlive : (blk s pg).st.silent = false ∧ (blk s pg).st ≠ .stopped := by
      rcases hs with hs | hs <;> revert hs <;> cases (blk s pg).st <;> decide
    exact ⟨_, exec_regWrite ((hw hlive.1).trans (if_neg hlive.2)), (errs_errSet s pg _ (by decide)).all⟩
  case state =>
    have hr := regRead_plain hp ha (show 0x008 < 4096 by decide) rfl (isHigh_state i.ty)
      (tickRead_still (s := s) (by decide) (by decide) (by decide) (by decide))
    rw [readEffects_state] at hr
    exact ⟨_, exec_rcRead hr, give_bus _ _ _, rfl, onlyPage_give s p _ pg⟩
  case errCnt =>
    have hr := regRead_plain hp ha (show 0x024 < 4096 by decide) rfl (isHigh_errCnt i.ty)
      (tickRead_still (s := s) (by decide) (by decide) (by decide) (by decide))
    rw [readEffects_errCnt] at hr
    exact ⟨_, exec_rcRead hr, give_bus _ _ _, by simp, by simp, onlyPage_trans (onlyPage_modBlk s pg _) (onlyPage_give _ p _ pg)⟩
  case prog =>
    obtain ⟨v, hv, hsame, honly⟩ := progGoes_spec (s := s) hp.2
    have hr := regRead_plain hp ha (show 0x010 < 4096 by decide) rfl (isHigh_prog i.ty)
      (tickRead_still (s := progGoes s i pg) (by decide) (by decide) (by decide) (by decide))
    rw [readEffects_prog] at hr
    have hbus : readN (progGoes s i pg) p pg i 0x010 = v % 2 ^ 24 + 2 ^ 24 * (blk s pg).progKind + 2 ^ 28 * (blk s pg).progRes := by
      change hdrN (progGoes s i pg) p pg 0x010 = _
      simp [hdrN, hv]
    rw [hbus] at hr
    refine ⟨_, exec_rcRead hr, ?_⟩
    rw [blk_give, blk_modBlk_same, hv]
    exact ⟨give_bus _ _ _, tget?_tput_same _ _ _, rfl, rfl, hsame, fun h => onlyPage_trans (honly h)
      (onlyPage_trans (onlyPage_modBlk _ pg _) (onlyPage_give _ p _ pg))⟩
  case sdt =>
    obtain ⟨ty, inst, die⟩ := i
    subst ht
    constructor
    · have hw := (regWrite_block hp ha (show 0x080 ≤ 0x080 by decide) (by decide) rfl v).trans (blockWrite_sdtLow hg hs _)
      refine ⟨_, exec_pairLowWrite hp (by decide) (show isLow .xlt 0x080 = true by decide) hw, ?_⟩
      rw [blk_modBlk_same, ofNat_mod_word]
      exact ⟨tget?_tput_same _ _ _, rfl, rfl, onlyPage_modBlk s pg _⟩
    · intro hlow
      have hw := (regWrite_block hp ha (show 0x080 ≤ 0x084 by decide) (by decide) rfl v).trans
        ((blockWrite_sdtHigh hg hs _).trans (highCommit_sdt hs hlow _))
      exact ⟨_, exec_pairHighWrite hp (by decide) (show isHigh .xlt 0x084 = true by decide) hw, sdt_committed s pg w v rfl⟩
  case step =>
    have hr := regRead_plain hp ha (show 0x070 < 4096 by decide) rfl (isHigh_step i.ty) (tickRead_steps (s := s) hg hf hn)
    rw [readEffects_step] at hr
    refine ⟨_, exec_pairLowRead hp (by decide) (isLow_step i.ty) hr, give_bus _ _ _, ?_⟩
    rw [blk_give, blk_modBlk_same, ofNat_mod_word]
    exact ⟨tget?_tput_same _ _ _, rfl, onlyPage_trans (onlyPage_modBlk s pg _) (onlyPage_give _ p _ pg)⟩
  case arm =>
    have hw : exec (.injArm p tag pg v) s = _ :=
      congrArg Host.Outcome.next (regWrite_header hp ha (show 0x034 < 0x080 by decide) rfl (setBits v 0 0 1))
    have hbit := setBits_bit (k := 0) v (by decide)
    refine ⟨fun h => ⟨_, hw, injCtrl_permit hbit h rfl⟩, fun h => ?_⟩
    obtain ⟨harm, herr⟩ := injCtrl_refused hbit h rfl
    exact ⟨_, hw, harm, herr.all⟩
  case release =>
    exact ⟨_, congrArg Host.Outcome.next (regWrite_header hp ha (show 0x040 < 0x080 by decide) rfl (setBits v 2 2 1)),
      snapRelease_write s p pg i (setBits_bit v (by decide)) rfl⟩
  case nowhere =>
    obtain ⟨hr, hw⟩ := access_nowhere ha ho hn n v
    exact ⟨_, exec_rcRead hr, give_bus _ _ _, rfl, exec_regWrite hw⟩
  case tagged =>
    refine ⟨_, exec_regWrite (regWrite_tagged ht ho hu hb n v), errSet_bit _ pgNhl off (by decide), ?_⟩
    exact onlyPage_trans (onlyPage_modBlk s pgNhl _) (onlyPage_errSet _ pgNhl 8 off)

end Sys2Proof.Laws
end

