-- ==== Sys2Proof/Proofs/Rails.lean ====
section
/-!
SUPPORT. Registers under errors, and the codes of the core rails (R458, R462): what a pass over the rails sets and leaves.
-/
namespace Sys2Proof.Laws
open Sys2Proof.Machine Sys2Proof.Safety

variable {s t u : State} {pg off bit addr : Nat}

/-! Errors and registers. -/

theorem regW_congr (hr : (blk t pg).regs = (blk s pg).regs) (hp : t.partE = s.partE) (off : Nat) : regW t pg off = regW s pg off := by
  unfold regW
  rw [hr, hp]

theorem st_setReg (s : State) (pg off : Nat) (w : Word) (x : Nat) : (blk (setReg s pg off w) x).st = (blk s x).st := by
  rw [blk_setReg]
  split <;> rfl

theorem errStat_setReg (s : State) (pg off : Nat) (w : Word) (x : Nat) : (blk (setReg s pg off w) x).errStat = (blk s x).errStat := by
  rw [blk_setReg]
  split <;> rfl

/-- An error touches the pages, the reports, the wavefront and the events alone. -/
theorem errSet_frame (s : State) (pg bit addr : Nat) : ∃ b r w k e,
    errSet s pg bit addr = { s with blks := b, reports := r, wave := w, trigOut := k, evq := e } := by
  unfold errSet cairnTrigger
  dsimp only
  split
  · exact ⟨_, _, _, _, _, rfl⟩
  · split
    · split <;> exact ⟨_, _, _, _, _, rfl⟩
    · exact ⟨_, _, _, _, _, rfl⟩

@[simp] theorem errSet_pwr : (errSet s pg bit addr).pwr = s.pwr := by
  obtain ⟨b, r, w, k, e, h⟩ := errSet_frame s pg bit addr
  rw [h]

@[simp] theorem errSet_l2 : (errSet s pg bit addr).l2 = s.l2 := by
  obtain ⟨b, r, w, k, e, h⟩ := errSet_frame s pg bit addr
  rw [h]

@[simp] theorem errSet_partE : (errSet s pg bit addr).partE = s.partE := by
  obtain ⟨b, r, w, k, e, h⟩ := errSet_frame s pg bit addr
  rw [h]

@[simp] theorem errSet_launches : (errSet s pg bit addr).launches = s.launches := by
  obtain ⟨b, r, w, k, e, h⟩ := errSet_frame s pg bit addr
  rw [h]

/-- An error changes no block's state. -/
theorem st_errSet (s : State) (pg bit addr x : Nat) : (blk (errSet s pg bit addr) x).st = (blk s x).st := by
  unfold errSet
  dsimp only
  have hset : ∀ b : Blk, b.st = (blk s pg).st → (blk (setBlk s pg b) x).st = (blk s x).st := by
    intro b hb
    by_cases hx : x = pg
    · rw [hx, blk_setBlk_same, hb]
    · rw [blk_setBlk_ne s b hx]
  split
  · exact hset _ rfl
  · split
    · obtain ⟨r, hr, -⟩ := blk_cairnTrigger (setBlk s pg _) 2 (((pageAt pg).map (·.ty.code)).getD 0) x
      exact (congrArg Blk.st hr).trans (hset _ rfl)
    · exact hset _ rfl

/-- The registers of pages other than DBG stay through an error. -/
theorem regW_errSet (s : State) (pg bit addr : Nat) {x : Nat} (hx : x ≠ pgDbg) (off : Nat) :
    regW (errSet s pg bit addr) x off = regW s x off := by
  refine regW_congr ?_ errSet_partE off
  by_cases h : x = pg
  · subst h
    obtain ⟨r, d, e, hr⟩ := blk_errSet_same s x bit addr
    rw [e]
    exact hr hx
  · rw [blk_errSet_ne s bit addr h hx]

theorem regF_errSet (s : State) (pg bit addr : Nat) {x : Nat} (hx : x ≠ pgDbg) (off hi lo : Nat) :
    regF (errSet s pg bit addr) x off hi lo = regF s x off hi lo := by
  unfold regF
  rw [regW_errSet s pg bit addr hx]

/-! A pass over the core rails. -/

/-- Every core rail that has not failed goes to the code that `g` gives. -/
def railStep (g : State → Nat → Nat) (s : State) (n : Nat) : State := if railFailed s n then s else setCode s n (g s n)
def railsTo (g : State → Nat → Nat) (s : State) : State := (List.range 16).foldl (railStep g) s

/-- What the period gives rail `n` of a uniform point (R454, R458). -/
def railPoint (u : Nat) (s : State) (n : Nat) : Nat := if railBusy s n && s.pwr.band ≠ 2 then min u (ceilOf s n) else 0

theorem setRails_eq (s : State) (u : Nat) : setRails s u = railsTo (railPoint u) s := by
  refine congrArg (fun f => (List.range 16).foldl f s) (funext fun s => funext fun n => ?_)
  unfold railStep railPoint
  split
  · rfl
  · split <;> rfl

theorem supplyReg_core {n : Nat} (h : n < 16) : supplyReg n = 0x100 + 4 * n := if_pos h

/-- A pass over the rails changes their registers alone. -/
structure CodesOnly (s t : State) : Prop where
  pwr   : t.pwr = s.pwr
  l2    : t.l2 = s.l2
  ram   : t.ram = s.ram
  host  : t.host = s.host
  pages : ∀ x, x ≠ pgPwr → blk t x = blk s x
  regs  : ∀ off, off < 0x100 → regW t pgPwr off = regW s pgPwr off
  st    : (blk t pgPwr).st = (blk s pgPwr).st

theorem CodesOnly.refl (s : State) : CodesOnly s s := ⟨rfl, rfl, rfl, rfl, fun _ _ => rfl, fun _ _ => rfl, rfl⟩

theorem CodesOnly.setCode (h : CodesOnly s t) (n c : Nat) : CodesOnly s (setCode t n c) where
  pwr   := h.pwr
  l2    := h.l2
  ram   := h.ram
  host  := h.host
  pages x hx := (blk_modBlk_ne t _ hx).trans (h.pages x hx)
  regs off ho := (regW_setReg_ne t _ (.inr (by omega))).trans (h.regs off ho)
  st    := (st_setReg t _ _ _ _).trans h.st

theorem CodesOnly.railStep (h : CodesOnly s t) (g : State → Nat → Nat) (n : Nat) : CodesOnly s (railStep g t n) := by
  unfold Laws.railStep
  split
  · exact h
  · exact h.setCode n _

theorem codesOnly_railsTo (g : State → Nat → Nat) (s : State) : CodesOnly s (railsTo g s) :=
  foldl_keeps (CodesOnly s) _ (fun _ n h => h.railStep g n) _ s (.refl s)

theorem CodesOnly.regF (h : CodesOnly s t) (ho : off < 0x100) (hi lo : Nat) : regF t pgPwr off hi lo = regF s pgPwr off hi lo := by
  unfold Machine.regF
  rw [h.regs off ho]

theorem CodesOnly.onlyPage (h : CodesOnly s t) : OnlyPage s t pgPwr :=
  ⟨fun x hx _ => h.pages x hx, h.ram, h.host⟩

/-- A rail works by the state of its tiles and the use of its slices. -/
theorem railBusy_congr (hst : ∀ x, (blk t x).st = (blk s x).st) (hl : t.l2 = s.l2) (n : Nat) : railBusy t n = railBusy s n := by
  unfold railBusy busyTiles slicesUsed slice
  simp only [hst, hl]

theorem railPoint_congr (hst : ∀ x, (blk t x).st = (blk s x).st) (hl : t.l2 = s.l2) (hp : t.pwr = s.pwr) (u n : Nat) :
    railPoint u t n = railPoint u s n := by
  unfold railPoint ceilOf
  rw [railBusy_congr hst hl, hp]

/-! One rail's code leaves the others alone. -/

theorem railCode_setCode_same (s : State) (n c : Nat) : railCode (setCode s n c) n = c % 32 :=
  regF_setRegF_same s pgPwr (0x100 + 4 * n) 4 0 c (by decide) (by decide)

theorem railCode_setCode_ne (s : State) {n m : Nat} (c : Nat) (h : n ≠ m) : railCode (setCode s m c) n = railCode s n :=
  regF_setRegF_ne s 4 0 c 4 0 (.inr (by omega))

theorem railFailed_setCode (s : State) (m c : Nat) {n : Nat} (hn : n < 16) : railFailed (setCode s m c) n = railFailed s n := by
  unfold railFailed
  rw [supplyReg_core hn]
  by_cases h : n = m
  · subst h
    rw [setCode, regF_setRegF_field s _ _ _ _ _ _ _ (by decide) (by decide) (by decide)]
  · rw [setCode, regF_setRegF_ne s _ _ _ _ _ (.inr (by omega))]

/-- The choice for a rail does not look at the codes of other rails. -/
def Apart (g : State → Nat → Nat) : Prop := ∀ s m c n, n ≠ m → g (setCode s m c) n = g s n

theorem apart_railPoint (u : Nat) : Apart (railPoint u) := fun s _ _ n _ =>
  railPoint_congr (st_setReg s _ _ _) rfl rfl u n

theorem apart_drop (k : Nat) : Apart (fun s n => railCode s n - k) := fun s _ c _ h =>
  congrArg (· - k) (railCode_setCode_ne s c h)

section
variable {g : State → Nat → Nat} {n : Nat} {xs : List Nat}

theorem railStep_ne (hg : Apart g) (s : State) {m : Nat} (h : n ≠ m) :
    railCode (railStep g s m) n = railCode s n ∧ g (railStep g s m) n = g s n := by
  unfold railStep
  split
  · exact ⟨rfl, rfl⟩
  · exact ⟨railCode_setCode_ne s _ h, hg s m _ n h⟩

theorem railFailed_railStep (s : State) (m : Nat) (hn : n < 16) : railFailed (railStep g s m) n = railFailed s n := by
  unfold railStep
  split
  · rfl
  · exact railFailed_setCode s m _ hn

/-- Rails that a pass does not reach keep their codes. -/
theorem railCode_foldl_of_notMem (hg : Apart g) (h : n ∉ xs) (s : State) : railCode (xs.foldl (railStep g) s) n = railCode s n := by
  induction xs generalizing s with
  | nil => rfl
  | cons m xs ih =>
    obtain ⟨hne, hx⟩ := not_or.1 (mt List.mem_cons.2 h)
    exact (ih hx _).trans (railStep_ne hg s hne).1

/-- A rail that a pass reaches once takes its code. -/
theorem railCode_foldl_of_mem (hg : Apart g) (hn : n < 16) (h : n ∈ xs) (hd : xs.Nodup) (s : State) (hf : railFailed s n = false) :
    railCode (xs.foldl (railStep g) s) n = g s n % 32 := by
  induction xs generalizing s with
  | nil => cases h
  | cons m xs ih =>
    obtain ⟨hm, hd⟩ := List.nodup_cons.1 hd
    by_cases hne : n = m
    · subst hne
      have hstep : railStep g s n = setCode s n (g s n) := by
        unfold railStep
        rw [hf]
        rfl
      exact (railCode_foldl_of_notMem hg hm _).trans (hstep ▸ railCode_setCode_same s n _)
    · have hx : n ∈ xs := (List.mem_cons.1 h).resolve_left hne
      exact (ih hx hd _ ((railFailed_railStep s m hn).trans hf)).trans (congrArg (· % 32) (railStep_ne hg s hne).2)

theorem railCode_railsTo (hg : Apart g) (hn : n < 16) (s : State) (hf : railFailed s n = false) :
    railCode (railsTo g s) n = g s n % 32 :=
  railCode_foldl_of_mem hg hn (List.mem_range.2 hn) List.nodup_range s hf

end

theorem railCode_lt (s : State) (n : Nat) : railCode s n < 32 := bits_lt _ _ _

/-- A working rail takes the lower of the point and its ceiling, the others code 0. -/
theorem railCode_setRails {u n : Nat} (hu : u < 32) (hn : n < 16) (s : State) (hf : railFailed s n = false) :
    railCode (setRails s u) n = if railBusy s n = true ∧ s.pwr.band ≠ 2 then min u (ceilOf s n) else 0 := by
  rw [setRails_eq, railCode_railsTo (apart_railPoint u) hn s hf]
  have hlt : min u (ceilOf s n) < 32 := lt_of_le_of_lt (Nat.min_le_left _ _) hu
  unfold railPoint
  by_cases h : railBusy s n = true ∧ s.pwr.band ≠ 2
  · rw [if_pos h, if_pos (by simpa using h), Nat.mod_eq_of_lt hlt]
  · rw [if_neg h, if_neg (by simpa using h)]

end Sys2Proof.Laws
end

