-- ==== Sys2Proof/Proofs/Pacing.lean ====
section
/-!
SUPPORT. One period of the pacing controller (R458 to R469): what its stages keep, the point it chooses and what the rails take.
-/
namespace Sys2Proof.Laws
open Sys2Proof.Machine Sys2Proof.Safety

variable {s t : State} {α : Type}

/-- What the stages of a period keep until the rails take their points: whether each rail works, has failed or may take a code,
the settings read at the period's start, and the measured input. -/
structure PaceKeeps (s t : State) : Prop where
  st     : ∀ x, (blk t x).st = (blk s x).st
  l2     : t.l2 = s.l2
  band   : t.pwr.band = s.pwr.band
  read   : t.pwr.read = s.pwr.read
  partE  : t.partE = s.partE
  input  : regW t pgPwr 0x094 = regW s pgPwr 0x094
  failed : ∀ n, n < 16 → regF t pgPwr (0x100 + 4 * n) 6 6 = regF s pgPwr (0x100 + 4 * n) 6 6

theorem PaceKeeps.refl (s : State) : PaceKeeps s s := ⟨fun _ => rfl, rfl, rfl, rfl, rfl, rfl, fun _ _ => rfl⟩

section
variable {c : Prop} {_ : Decidable c} {a b : State}

theorem PaceKeeps.ifs (h : PaceKeeps s t) (ha : PaceKeeps s t → PaceKeeps s a) (hb : PaceKeeps s t → PaceKeeps s b) :
    PaceKeeps s (if c then a else b) := by
  split
  · exact ha h
  · exact hb h

theorem PaceKeeps.opt (h : PaceKeeps s t) (ha : PaceKeeps s t → PaceKeeps s a) : PaceKeeps s (if c then a else t) := h.ifs ha id
theorem PaceKeeps.optElse (h : PaceKeeps s t) (hb : PaceKeeps s t → PaceKeeps s b) : PaceKeeps s (if c then t else b) := h.ifs id hb

end

theorem PaceKeeps.of_eq {u : State} (h : PaceKeeps s t) (e : t = u) : PaceKeeps s u := e ▸ h

theorem PaceKeeps.foldl {f : State → α → State} (h : PaceKeeps s t) (hf : ∀ u x, PaceKeeps s u → PaceKeeps s (f u x)) (xs : List α) :
    PaceKeeps s (xs.foldl f t) := foldl_keeps (PaceKeeps s) f hf xs t h

/-! The updates that a stage is made of. -/

theorem PaceKeeps.takeFree (h : PaceKeeps s t) : PaceKeeps s (takeFree t).2 := ⟨h.st, h.l2, h.band, h.read, h.partE, h.input, h.failed⟩
theorem PaceKeeps.raise (h : PaceKeeps s t) (e : Ev) : PaceKeeps s (raise t e) :=
  ⟨h.st, h.l2, h.band, h.read, h.partE, h.input, h.failed⟩

/-- The controller's own state, with the band and the settings read as they are. -/
theorem PaceKeeps.setPwr {p : Pwr} (h : PaceKeeps s t) (hb : p.band = t.pwr.band := by rfl) (hr : p.read = t.pwr.read := by rfl) :
    PaceKeeps s (setPwr t p) :=
  ⟨h.st, h.l2, hb.trans h.band, hr.trans h.read, h.partE, h.input, h.failed⟩

/-- A register that is neither the input nor a core rail's. -/
theorem PaceKeeps.setReg (h : PaceKeeps s t) {pg off : Nat} (w : Word) (ho : pg ≠ pgPwr ∨ (off ≠ 0x094 ∧ (off < 0x100 ∨ 0x140 ≤ off))) :
    PaceKeeps s (setReg t pg off w) where
  st x     := (st_setReg t pg off w x).trans (h.st x)
  l2       := h.l2
  band     := h.band
  read     := h.read
  partE    := h.partE
  input    := (regW_setReg_ne t w (by omega)).trans h.input
  failed n hn := by
    rw [← h.failed n hn]
    exact congrArg (fun w => fld w 6 6) (regW_setReg_ne t w (by omega))

theorem PaceKeeps.setRegF (h : PaceKeeps s t) {pg off : Nat} (hi lo v : Nat)
    (ho : pg ≠ pgPwr ∨ (off ≠ 0x094 ∧ (off < 0x100 ∨ 0x140 ≤ off))) : PaceKeeps s (setRegF t pg off hi lo v) := h.setReg _ ho

/-- A field of a core rail's register other than FAILED. -/
theorem PaceKeeps.railField (h : PaceKeeps s t) (n hi lo v : Nat) (hl : lo ≤ hi) (hw : hi < 32) (hd : hi < 6 ∨ 6 < lo) :
    PaceKeeps s (Machine.setRegF t pgPwr (0x100 + 4 * n) hi lo v) where
  st x     := (st_setReg t pgPwr _ _ x).trans (h.st x)
  l2       := h.l2
  band     := h.band
  read     := h.read
  partE    := h.partE
  input    := (regW_setReg_ne t _ (.inr (by omega))).trans h.input
  failed m hm := by
    rw [← h.failed m hm]
    by_cases hnm : m = n
    · rw [hnm, regF_setRegF_field t _ _ _ _ _ _ _ hl hw hd]
    · rw [regF_setRegF_ne t _ _ _ _ _ (.inr (by omega))]

theorem PaceKeeps.errSet (h : PaceKeeps s t) (pg bit addr : Nat) : PaceKeeps s (errSet t pg bit addr) where
  st x     := (st_errSet t pg bit addr x).trans (h.st x)
  l2       := errSet_l2.trans h.l2
  band     := (congrArg Pwr.band errSet_pwr).trans h.band
  read     := (congrArg Pwr.read errSet_pwr).trans h.read
  partE    := errSet_partE.trans h.partE
  input    := (regW_errSet t pg bit addr (by decide) _).trans h.input
  failed n hn := (regF_errSet t pg bit addr (by decide) _ _ _).trans (h.failed n hn)

/-- A change of a page that keeps its state and registers. -/
theorem PaceKeeps.modBlk (h : PaceKeeps s t) (pg : Nat) (f : Blk → Blk) (hst : ∀ b, (f b).st = b.st) (hr : ∀ b, (f b).regs = b.regs) :
    PaceKeeps s (modBlk t pg f) := by
  have hblk : ∀ x, (blk (Machine.modBlk t pg f) x).st = (blk t x).st ∧ (blk (Machine.modBlk t pg f) x).regs = (blk t x).regs := by
    intro x
    by_cases hx : x = pg
    · rw [hx, blk_modBlk_same]
      exact ⟨hst _, hr _⟩
    · rw [blk_modBlk_ne t f hx]
      exact ⟨rfl, rfl⟩
  have hreg : ∀ off, regW (Machine.modBlk t pg f) pgPwr off = regW t pgPwr off := regW_congr (hblk pgPwr).2 rfl
  refine ⟨fun x => (hblk x).1.trans (h.st x), h.l2, h.band, h.read, h.partE, (hreg _).trans h.input, fun n hn => ?_⟩
  exact (congrArg (fun w => fld w 6 6) (hreg _)).trans (h.failed n hn)

theorem PaceKeeps.injFire (h : PaceKeeps s t) (pg : Nat) (due : List Nat) : PaceKeeps s (injFire t pg due) :=
  h.modBlk pg _ (fun _ => rfl) (fun _ => rfl)

theorem PaceKeeps.countDroop (h : PaceKeeps s t) : PaceKeeps s (countDroop t) := h.setRegF _ _ _ (by decide)

/-! The stages: heat. -/

theorem pgThm_ne_pgPwr (d : Nat) : pgThm d ≠ pgPwr := by
  unfold pgThm dieBase pgPwr
  omega

theorem PaceKeeps.thmField (h : PaceKeeps s t) (d off hi lo k : Nat) : PaceKeeps s (bumpF t (pgThm d) off hi lo k) :=
  h.setRegF _ _ _ (.inl (pgThm_ne_pgPwr d))

theorem PaceKeeps.heatEvent (h : PaceKeeps s t) (kind d : Nat) (x : Nat × Nat) : PaceKeeps s (heatEvent t kind d x) := h.raise _

theorem PaceKeeps.lostSensors (h : PaceKeeps s t) (d : Nat) : PaceKeeps s (lostSensors t d) := by
  refine h.foldl (fun u i hu => ?_) _
  exact hu.optElse (·.ifs (·.setPwr) (·.optElse fun hu => (hu.setPwr).errSet _ _ _))

theorem PaceKeeps.thmInject (h : PaceKeeps s t) (d : Nat) : PaceKeeps s (thmInject t d).2 := by
  unfold Machine.thmInject
  dsimp only
  split
  · exact h
  · split
    · exact (h.injFire _ _).errSet _ _ _
    · split
      · exact h.injFire _ _
      · exact h

/-- A rail's ceiling and count of cool periods. -/
theorem PaceKeeps.ceiling (h : PaceKeeps s t) (n c k v : Nat) :
    PaceKeeps s (Machine.setRegF (Machine.setPwr t { t.pwr with ceil := tput t.pwr.ceil n c, cool := tput t.pwr.cool n k }) pgPwr
      (0x100 + 4 * n) 5 5 v) := (h.setPwr).railField n 5 5 v (by decide) (by decide) (by decide)

theorem PaceKeeps.railHeat (h : PaceKeeps s t) (free d r : Nat) (inj : Option Nat) : PaceKeeps s (railHeat t free d r inj).1 := by
  unfold Machine.railHeat
  dsimp only
  split
  · exact (h.ceiling _ _ _ _).opt fun h => (h.errSet _ _ _).heatEvent _ _ _
  · split
    · exact (h.ceiling _ _ _ _).opt fun h => (h.errSet _ _ _).heatEvent _ _ _
    · split
      · split
        · exact h.ceiling _ _ _ _
        · exact (h.ceiling _ _ _ _).opt (·.heatEvent _ _ _)
      · exact h.ceiling _ _ _ _

theorem PaceKeeps.thmMax (h : PaceKeeps s t) (d : Nat) : PaceKeeps s (thmMax t d) := h.setReg _ (.inl (pgThm_ne_pgPwr d))

/-- The heat of a die's four rails, one after the other. -/
theorem PaceKeeps.railsHeat (h : PaceKeeps s t) (free d : Nat) (inj : Option Nat) (rs : List Nat) (fell : Bool) :
    PaceKeeps s (rs.foldl (fun (a : State × Bool) r => ((Machine.railHeat a.1 free d r inj).1, a.2 || (Machine.railHeat a.1 free d r inj).2))
      (t, fell)).1 := by
  induction rs generalizing t fell with
  | nil => exact h
  | cons r rs ih => exact ih (h.railHeat free d r inj) _

theorem PaceKeeps.dieHeat (h : PaceKeeps s t) (d : Nat) : PaceKeeps s (dieHeat t d) := by
  unfold Machine.dieHeat
  split
  next free s1 e1 =>
  have h1 : PaceKeeps s s1 := (h.lostSensors d).takeFree.of_eq (congrArg Prod.snd e1)
  split
  next inj s2 e2 =>
  have h2 : PaceKeeps s s2 := (h1.thmInject d).of_eq (congrArg Prod.snd e2)
  split
  next s3 fell e3 =>
  have h3 : PaceKeeps s s3 := (h2.railsHeat free d inj (List.range 4) false).of_eq (congrArg Prod.fst e3)
  extract_lets s4 hot was pwr s6 s5
  have h4 : PaceKeeps s s4 := h3.opt (·.thmField d _ _ _ _)
  clear_value s4 hot
  have h5 : PaceKeeps s s5 := by
    unfold s5
    split
    · exact h4.setPwr
    · exact h4.optElse fun h => ((h.setPwr.thmField d _ _ _ _).errSet _ _ _).heatEvent _ _ _
  exact h5.thmMax d

theorem PaceKeeps.coolantCheck (h : PaceKeeps s t) : PaceKeeps s (coolantCheck t) :=
  (h.setPwr).opt fun h => (h.errSet _ _ _).raise _

/-! The stages: estimate and learning. -/

theorem PaceKeeps.compareEst (h : PaceKeeps s t) (est watts : Nat) : PaceKeeps s (compareEst t est watts) := h.setPwr

theorem PaceKeeps.learn (h : PaceKeeps s t) (codes amps : List Nat) : PaceKeeps s (learn t codes amps) :=
  (h.foldl (fun _ _ h => h.takeFree.setPwr) _).foldl (fun _ _ h => h.setPwr) _


/-! The point. -/

theorem bestCode_le (lim : Nat) (ok : Nat → Bool) : bestCode lim 0 ok ≤ lim := by
  unfold bestCode
  split
  · next c h =>
    have hc := (List.mem_filter.1 (List.mem_of_getLast? h)).1
    exact Nat.le_of_lt_succ (List.mem_range.1 hc)
  · exact Nat.zero_le _

theorem choosePoint_le (s : State) (loads : List Nat) (cur : Nat) : choosePoint s loads cur ≤ vceil s := by
  unfold choosePoint
  dsimp only
  split
  · exact bestCode_le _ _
  · split
    · exact Nat.min_le_right _ _
    · exact bestCode_le _ _

theorem topCode_le (s : State) : topCode s ≤ 30 := by
  unfold topCode
  split <;> decide

theorem vceil_le (s : State) : vceil s ≤ 30 := (Nat.min_le_right _ _).trans (topCode_le s)

/-- After the settings are read, PWR_VCEIL of the period is the register's (R458). -/
theorem vceil_of_paceRead (hr : t.pwr.read = (paceRead s).pwr.read) (hp : t.partE = s.partE) : vceil t = min (regF s pgPwr 0x084 5 0) (topCode s) := by
  have hw : paceW t 0x084 = regW s pgPwr 0x084 := by
    unfold paceW
    rw [hr]
    rfl
  unfold vceil paceF topCode
  rw [hw, hp]
  rfl

/-- The point and b as PWR_STATUS shows them. -/
theorem showPoint_reads (s : State) {u : Nat} (b : Nat) (hu : u < 32) :
    pointOf (showPoint s u b) = u ∧ regF (showPoint s u b) pgPwr 0x09C 10 5 = b % 64 := by
  have hw : regW (showPoint s u b) pgPwr 0x09C = BitVec.ofNat 32 (u + 32 * b) := regW_setReg_same s pgPwr 0x09C _
  unfold pointOf regF
  rw [hw]
  unfold fld bits
  rw [BitVec.toNat_ofNat, Nat.shiftRight_eq_div_pow, Nat.shiftRight_eq_div_pow]
  omega

theorem PaceKeeps.showPoint (h : PaceKeeps s t) (u b : Nat) : PaceKeeps s (showPoint t u b) := h.setReg _ (by decide)

theorem railFailed_eq (h : PaceKeeps s t) {n : Nat} (hn : n < 16) : railFailed t n = railFailed s n := by
  unfold railFailed
  rw [supplyReg_core hn, h.failed n hn]

/-! The period. -/

/-- The input that a period measures (R458, R467). -/
def measured (s : State) (m : PaceMeas) : State :=
  setReg (takeFree (paceRead s)).2 pgPwr 0x094 (BitVec.ofNat 32 (m.watts % 65536 + 65536 * (m.volts % 65536)))

/-- A period ends with the rails at a point not above PWR_VCEIL, the codes that the fast limit took off forgotten. -/
theorem pacing_ends (s : State) (m : PaceMeas) : ∃ s4 u b, PaceKeeps (measured s m) s4 ∧ u ≤ vceil s4 ∧
    (∀ off, off ≠ 0x098 → regW (pacing s m) pgPwr off = regW (setRails (showPoint s4 u b) u) pgPwr off) ∧
    (pacing s m).pwr.ceil = (setRails (showPoint s4 u b) u).pwr.ceil ∧ (pacing s m).pwr.fastDrop = 0 := by
  unfold pacing
  extract_lets sr codes
  split
  next fe s0 e0 =>
  extract_lets sIn sAmps sShared en pw sEnergy sPair s1 loads s2 s3 s4 loads4 cur u b s5 est
  split
  next f s6 e6 =>
  extract_lets s7
  have hIn : PaceKeeps (measured s m) sIn := (PaceKeeps.refl _).of_eq (congrArg (fun x : Nat × State => setReg x.2 pgPwr 0x094 _) e0)
  have hShared : PaceKeeps (measured s m) sShared :=
    (hIn.foldl (fun _ n h => h.railField n 31 16 _ (by decide) (by decide) (by decide)) _).foldl
      (fun _ _ h => h.setRegF _ _ _ (.inr ⟨by omega, .inr (by omega)⟩)) _
  have hPair : PaceKeeps (measured s m) sPair := (hShared.setPwr.setReg _ (by decide)).setReg _ (by decide)
  have h1 : PaceKeeps (measured s m) s1 := hPair.opt fun h => (h.injFire _ _).countDroop
  have h4 : PaceKeeps (measured s m) s4 := (((h1.compareEst _ _).learn _ _).foldl (fun _ d h => h.dieHeat d) _).coolantCheck
  have h6 : s6 = (takeFree s5).2 := (congrArg Prod.snd e6).symm
  refine ⟨s4, u, b, h4, choosePoint_le _ _ _, fun off ho => ?_, ?_, rfl⟩
  · have h7 : regW s7 pgPwr off = regW s6 pgPwr off := regW_setReg_ne s6 _ (.inr ho)
    rw [h6] at h7
    exact h7
  · change s6.pwr.ceil = s5.pwr.ceil
    rw [h6]
    rfl

/-- The registers of the rails and of the point at the end of a period, from those before. -/
theorem pacing_spec (s : State) (m : PaceMeas) {t : State} (ht : pacing s m = t) :
    regF t pgPwr 0x094 15 0 = m.watts % 2 ^ 16 ∧ regF t pgPwr 0x094 31 16 = m.volts % 2 ^ 16 ∧
      pointOf t ≤ min (regF s pgPwr 0x084 5 0) (topCode s) ∧ t.pwr.fastDrop = 0 ∧ t.ram = s.ram ∧
      ∀ n, n < 16 → railFailed s n = false →
        railCode t n = if railBusy s n = true ∧ s.pwr.band ≠ 2 then min (pointOf t) (ceilOf t n) else 0 := by
  obtain ⟨s4, u, b, h4, hu, hreg, hceil, hdrop⟩ := pacing_ends s m
  rw [ht] at hreg hceil hdrop
  have hlt : u < 32 := by
    have := vceil_le s4
    omega
  have hR : CodesOnly (showPoint s4 u b) (setRails (showPoint s4 u b) u) := setRails_eq _ u ▸ codesOnly_railsTo _ _
  have h5 := h4.showPoint u b
  have hmeas : regW t pgPwr 0x094 = BitVec.ofNat 32 (m.watts % 65536 + 65536 * (m.volts % 65536)) := by
    rw [hreg _ (by decide), hR.regs _ (by decide), h5.input]
    exact regW_setReg_same _ _ _ _
  have hpoint : pointOf t = u := by
    rw [← (showPoint_reads s4 b hlt).1, ← show _ = pointOf (showPoint s4 u b) from hR.regF (by decide) 4 0]
    exact congrArg (fun w => fld w 4 0) (hreg _ (by decide))
  have hst : ∀ x, (blk (showPoint s4 u b) x).st = (blk s x).st := fun x => (h5.st x).trans (st_setReg _ _ _ _ x)
  refine ⟨?_, ?_, ?_, hdrop, ht ▸ ((MemFrom.refl s).pacing.same rfl).1, fun n hn hf => ?_⟩
  · unfold regF fld bits
    rw [hmeas, BitVec.toNat_ofNat, Nat.shiftRight_zero]
    omega
  · unfold regF fld bits
    rw [hmeas, BitVec.toNat_ofNat, Nat.shiftRight_eq_div_pow]
    omega
  · rw [hpoint]
    exact hu.trans_eq (vceil_of_paceRead h4.read h4.partE)
  · have hf5 : railFailed (showPoint s4 u b) n = false := by
      rw [railFailed_eq h5 hn, ← hf, railFailed, railFailed, supplyReg_core hn]
      exact congrArg (fun w => decide (fld w 6 6 = 1)) (regW_setReg_ne _ _ (.inr (by omega)))
    have hcode : railCode t n = railCode (setRails (showPoint s4 u b) u) n := congrArg (fun w => fld w 4 0) (hreg _ (by omega))
    have hc : ceilOf t n = ceilOf (showPoint s4 u b) n := by
      unfold ceilOf
      rw [hceil, hR.pwr]
    rw [hcode, railCode_setRails hlt hn _ hf5, hpoint, hc, railBusy_congr hst h5.l2 n, h5.band]
    rfl

end Sys2Proof.Laws
end

