-- ==== Sys2Proof/Proofs/PowerControl.lean ====
section
/-!
PROOF. O44: the cap and the ceiling, pacing periods, the fast limit, MEASURE control, sensors and the trip.
-/
namespace Sys2Proof.Laws
open Sys2Proof.Machine Sys2Proof.Safety

variable {s t : State} {p : Path} {tag : Nat}

/-! PWR_CAP and PWR_VCEIL. -/

theorem pageIs_pgPwr : PageIs pgPwr ⟨.pwr, 0, 0⟩ := ⟨by decide, by decide⟩

/-- The module's controller page takes a write of the cap or of the ceiling (R461). -/
theorem blockWrite_cap (hs : (blk s pgPwr).st.silent = false) (v : Nat) : blockWrite s p pgPwr ⟨.pwr, 0, 0⟩ 0x080 v = capWrite s v := by
  have hf : (fieldsAt .pwr 0x080).isEmpty = false := by decide
  unfold blockWrite
  simp [hf, hs, hostIgnored]

theorem blockWrite_vceil (hs : (blk s pgPwr).st.silent = false) (v : Nat) :
    blockWrite s p pgPwr ⟨.pwr, 0, 0⟩ 0x084 v = vceilWrite s v := by
  have hf : (fieldsAt .pwr 0x084).isEmpty = false := by decide
  unfold blockWrite
  simp [hf, hs, hostIgnored]

/-- A write that takes `c` where `req` was asked for: the field, CLAMPED, and what is reported when the two differ (R461). -/
theorem clampNote_spec (s : State) {off hi bit which req c : Nat} (hh : hi < bit) (hb : bit < 32) (hc : c < 2 ^ (hi + 1))
    (ht : clampNote (setRegF s pgPwr off hi 0 c) off bit which req c = t) :
    regF t pgPwr off hi 0 = c ∧ regF t pgPwr off bit bit = (if c = req then 0 else 1) ∧ OnlyPage s t pgPwr ∧
      (c ≠ req → (blk t pgPwr).errStat.getLsbD 8 = true ∧ { ring := 0, kind := 0x40, value := req, info := which } ∈ t.evq) ∧
      (c = req → (blk t pgPwr).errStat = (blk s pgPwr).errStat ∧ t.evq = s.evq) := by
  let w := setRegF (setRegF s pgPwr off hi 0 c) pgPwr off bit bit (if c = req then 0 else 1)
  have hfield : regF w pgPwr off hi 0 = c := by
    rw [regF_setRegF_field _ _ _ _ _ _ _ _ (le_refl _) hb (.inr hh), regF_setRegF_same _ _ _ _ _ _ (Nat.zero_le _) (by omega)]
    exact Nat.mod_eq_of_lt hc
  have hflag : regF w pgPwr off bit bit = if c = req then 0 else 1 := by
    rw [regF_setRegF_same _ _ _ _ _ _ (le_refl _) hb]
    split <;> simp
  have hpage : OnlyPage s w pgPwr := onlyPage_trans (onlyPage_modBlk s pgPwr _) (onlyPage_modBlk _ pgPwr _)
  have hstat : (blk w pgPwr).errStat = (blk s pgPwr).errStat := (errStat_setReg _ _ _ _ _).trans (errStat_setReg _ _ _ _ _)
  subst ht
  unfold clampNote
  dsimp only
  by_cases h : c = req
  · rw [if_pos h]
    exact ⟨hfield, hflag, hpage, fun k => absurd h k, fun _ => ⟨hstat, rfl⟩⟩
  · rw [if_neg h]
    refine ⟨?_, ?_, onlyPage_trans hpage (onlyPage_errSet w pgPwr 8 _), fun _ => ⟨errSet_bit w pgPwr _ (by decide), ?_⟩,
      fun k => absurd k h⟩
    · exact (regF_errSet w pgPwr 8 _ (by decide) _ _ _).trans hfield
    · exact (regF_errSet w pgPwr 8 _ (by decide) _ _ _).trans hflag
    · exact List.mem_append_right _ (List.mem_singleton.2 rfl)

theorem maxWatts_le (s : State) : maxWatts s ≤ 2800 := by
  unfold maxWatts
  split <;> decide

/-! The fast limit. -/

/-- The codes after the fast limit's pass, before it counts and reports (R462). -/
theorem fastLimit_codes (s : State) {n : Nat} (hn : n < 16) (hf : railFailed s n = false) :
    railCode (railsTo (fun s n => railCode s n - 5) s) n = railCode s n - 5 := by
  rw [railCode_railsTo (apart_drop 5) hn s hf]
  have := railCode_lt s n
  omega

theorem satAdd_one (n m : Nat) (h : n ≤ m) : satAdd n 1 m = min m (n + 1) := by
  unfold satAdd
  split <;> omega

theorem execFastLimit_spec (hp : powered s = true) : ∃ t, exec .fastLimit s = .next t ∧
    (∀ n, n < 16 → railFailed s n = false → railCode t n = railCode s n - 5) ∧ (blk t pgPwr).errStat.getLsbD 10 = true ∧
    regF t pgPwr 0x0A8 31 16 = min 0xFFFF (regF s pgPwr 0x0A8 31 16 + 1) ∧ (∃ e ∈ t.evq, e.kind = 0x43 ∧ maxWatts s < e.value) ∧
    OnlyPage s t pgPwr := by
  let s0 := (takeFree s).2
  let w := maxWatts s + 1 + (takeFree s).1 % (65535 - maxWatts s)
  let s1 := railsTo (fun s n => railCode s n - 5) s0
  let s2 := bumpF (setPwr s1 { s1.pwr with fastDrop := s1.pwr.fastDrop + 5 }) pgPwr 0x0A8 31 16 1
  have hR : CodesOnly s0 s1 := codesOnly_railsTo _ _
  have hexec : exec .fastLimit s = .next (raise (errSet s2 pgPwr 10 w) { ring := 0, kind := 0x43, value := w }) :=
    congrArg Host.Outcome.next (if_neg (by simp [hp]))
  refine ⟨_, hexec, fun n hn hf => ?_, errSet_bit s2 pgPwr w (by decide), ?_, ⟨_, List.mem_append_right _ (List.mem_singleton.2 rfl), rfl, ?_⟩, ?_⟩
  · calc railCode (errSet s2 pgPwr 10 w) n = railCode s2 n := regF_errSet s2 pgPwr 10 w (by decide) _ _ _
      _ = railCode s1 n := regF_setRegF_ne _ _ _ _ _ _ (.inr (by omega))
      _ = railCode s n - 5 := fastLimit_codes s0 hn hf
  · calc regF (errSet s2 pgPwr 10 w) pgPwr 0x0A8 31 16 = regF s2 pgPwr 0x0A8 31 16 := regF_errSet s2 pgPwr 10 w (by decide) _ _ _
      _ = satAdd (regF s1 pgPwr 0x0A8 31 16) 1 0xFFFF := regF_bumpF_same _ pgPwr 0x0A8 31 16 1 (by decide) (by decide)
      _ = satAdd (regF s pgPwr 0x0A8 31 16) 1 0xFFFF := by rw [hR.regF (by decide)]; rfl
      _ = min 0xFFFF (regF s pgPwr 0x0A8 31 16 + 1) := satAdd_one _ _ (Nat.le_of_lt_succ (bits_lt _ 31 16))
  · exact Nat.lt_of_lt_of_le (Nat.lt_succ_self _) (Nat.le_add_right _ _)
  · have hpage : OnlyPage s1 s2 pgPwr := onlyPage_modBlk _ pgPwr _
    exact onlyPage_trans (onlyPage_trans hR.onlyPage hpage) (onlyPage_errSet s2 pgPwr 10 w)

/-! MEASURE control. -/

theorem ctlMeasure_set (s : State) (v : Nat) : ctlMeasure (setRegF s pgPwr 0x088 2 1 v) = decide (v % 2 ^ 2 = 1) := by
  unfold ctlMeasure
  rw [regF_setRegF_same s _ _ _ _ _ (by decide) (by decide)]

theorem tget?_filter_key {α : Type} (f : Nat → Bool) (t : Tab α) {x : Nat} (h : f x = false) :
    tget? (t.filter (fun d => f d.1)) x = none := by
  induction t with
  | nil => rfl
  | cons q t ih =>
    obtain ⟨k, v⟩ := q
    rw [List.filter_cons]
    split
    · next hk =>
      have hne : k ≠ x := by
        rintro rfl
        exact absurd hk (by simp [h])
      rw [tget?, if_neg hne, ih]
    · exact ih

/-- A tag struck from the demands is no longer learned. -/
theorem tagLearned_of_none (h : tget? s.pwr.dems tag = none) : tagLearned s tag = false := by
  unfold tagLearned
  rw [h]

theorem execPwrEstDiverge_spec (hm : ctlMeasure s = false) (hu : devUp s = true) (ha : 500 < s.pwr.apart) :
    ∃ t, exec .pwrEstDiverge s = .next t ∧ ctlMeasure t = true ∧ (blk t pgPwr).errStat.getLsbD 9 = true ∧
      (∃ e ∈ t.evq, e.kind = 0x41) ∧ (∀ l ∈ s.launches, tagLearned t l.phase = false) ∧ OnlyPage s t pgPwr := by
  let s1 := setRegF s pgPwr 0x088 2 1 1
  let w := regF s pgPwr 0x094 15 0
  let s2 := raise (errSet s1 pgPwr 9 w) { ring := 0, kind := 0x41, value := estValue s }
  let s3 := (takeFree s2).2
  let dems := s3.pwr.dems.filter (fun d => !(tagsInUse s3).contains d.1)
  have hexec : exec .pwrEstDiverge s =
      .next (setPwr s3 { s3.pwr with apart := 0, close := 0, fixed := (takeFree s2).1 % 2 ^ 22, dems := dems }) :=
    congrArg Host.Outcome.next (if_neg (by simp [hm, hu, ha]))
  have hl : s3.launches = s.launches := errSet_launches
  refine ⟨_, hexec, ?_, errSet_bit s1 pgPwr w (by decide), ⟨_, List.mem_append_right _ (List.mem_singleton.2 rfl), rfl⟩, fun l h => ?_, ?_⟩
  · exact (congrArg (decide <| · = 1) (regF_errSet s1 pgPwr 9 w (by decide) 0x088 2 1)).trans (ctlMeasure_set s 1)
  · refine tagLearned_of_none (tget?_filter_key (fun k => !(tagsInUse s3).contains k) _ ?_)
    have : l.phase ∈ tagsInUse s3 := by
      unfold tagsInUse
      rw [hl, List.mem_eraseDups]
      exact List.mem_map_of_mem h
    simpa using this
  · exact onlyPage_trans (onlyPage_modBlk s pgPwr _) (onlyPage_errSet s1 pgPwr 9 w)

theorem execPwrEstRecover_spec (hm : ctlMeasure s = true) (hu : devUp s = true) (hc : 10000 ≤ s.pwr.close) :
    ∃ t, exec .pwrEstRecover s = .next t ∧ ctlMeasure t = false ∧ (∃ e ∈ t.evq, e.kind = 0x42) ∧ OnlyPage s t pgPwr := by
  have hpage : OnlyPage s (setRegF s pgPwr 0x088 2 1 0) pgPwr := onlyPage_modBlk s pgPwr _
  exact ⟨_, congrArg Host.Outcome.next (if_neg (by simp [hm, hu]; omega)), ctlMeasure_set s 0,
    ⟨_, List.mem_append_right _ (List.mem_singleton.2 rfl), rfl⟩, hpage⟩

/-! A step of MEASURE control. -/

theorem pointOf_lt (s : State) : pointOf s < 32 := bits_lt _ _ _

/-- The rails go to a new uniform point, b as it is (R464). -/
theorem newPoint_spec (s : State) {u : Nat} (hu : u < 32)
    (ht : setRails (showPoint (setPwr s { s.pwr with fastDrop := 0 }) u (regF s pgPwr 0x09C 10 5)) u = t) :
    pointOf t = u ∧ regF t pgPwr 0x09C 10 5 = regF s pgPwr 0x09C 10 5 ∧ OnlyPage s t pgPwr ∧
      ∀ n, n < 16 → railFailed s n = false → railCode t n = if railBusy s n = true ∧ s.pwr.band ≠ 2 then min u (ceilOf s n) else 0 := by
  subst ht
  let s1 := showPoint (setPwr s { s.pwr with fastDrop := 0 }) u (regF s pgPwr 0x09C 10 5)
  have hR : CodesOnly s1 (setRails s1 u) := setRails_eq s1 u ▸ codesOnly_railsTo _ _
  have hk : PaceKeeps s s1 := (PaceKeeps.refl s).setPwr.showPoint _ _
  have hpage : OnlyPage s s1 pgPwr := onlyPage_modBlk (setPwr s { s.pwr with fastDrop := 0 }) pgPwr _
  obtain ⟨hpoint, hb⟩ := showPoint_reads (setPwr s { s.pwr with fastDrop := 0 }) (regF s pgPwr 0x09C 10 5) hu
  refine ⟨(hR.regF (by decide) 4 0).trans hpoint, ?_, onlyPage_trans hpage hR.onlyPage, fun n hn hf => ?_⟩
  · rw [hR.regF (by decide) 10 5, hb]
    exact Nat.mod_eq_of_lt (bits_lt _ 10 5)
  · rw [railCode_setRails hu hn s1 ((railFailed_eq hk hn).trans hf), railBusy_congr hk.st hk.l2]
    rfl

/-- b moves, the point as it is (R466). -/
theorem newBubble_spec (s : State) {b : Nat} (hb : b < 64) (ht : showPoint s (pointOf s) b = t) :
    pointOf t = pointOf s ∧ regF t pgPwr 0x09C 10 5 = b ∧ OnlyPage s t pgPwr := by
  subst ht
  obtain ⟨hpoint, hshow⟩ := showPoint_reads s b (pointOf_lt s)
  exact ⟨hpoint, hshow.trans (Nat.mod_eq_of_lt hb), onlyPage_modBlk s pgPwr _⟩

section
variable (hm : ctlMeasure s = true) (hu : devUp s = true)
include hm hu

/-- While the input lies above the target, the point falls by a code, or in BUBBLE mode b rises by 4. -/
theorem execMeasureStep_above (h : capMw s * (100 - paceF s 0x090 5 0) < regF s pgPwr 0x094 15 0 * 100000) :
    exec .measureStep s = .next (if bubbleMode s then showPoint s (pointOf s) (min 56 (regF s pgPwr 0x09C 10 5 + 4))
      else setRails (showPoint (setPwr s { s.pwr with fastDrop := 0 }) (pointOf s - s.pwr.fastDrop - 1) (regF s pgPwr 0x09C 10 5))
        (pointOf s - s.pwr.fastDrop - 1)) := by
  change execMeasureStep s = _
  unfold execMeasureStep
  rw [if_neg (by simp [hm, hu])]
  dsimp only
  rw [if_pos h]

/-- Near the target the controller rests. -/
theorem execMeasureStep_near (h : regF s pgPwr 0x094 15 0 * 100000 ≤ capMw s * (100 - paceF s 0x090 5 0))
    (hn : capMw s * (100 - paceF s 0x090 5 0) ≤ regF s pgPwr 0x094 15 0 * 100000 + 3 * capMw s) : exec .measureStep s = .next s := by
  change execMeasureStep s = _
  unfold execMeasureStep
  rw [if_neg (by simp [hm, hu])]
  dsimp only
  rw [if_neg (Nat.not_lt.2 h), if_neg (Nat.not_lt.2 hn)]

end

/-! Sensors and the trip. -/

theorem setAlert_bit (s : State) (b : Nat) (hb : b < 32) : regF (setAlert s b) pgNhl 0x0E4 b b = 1 := by
  unfold setAlert
  rw [regF_setRegF_same s _ _ _ _ _ (le_refl _) hb]
  simp

/-- What a sample makes of a sensor: its reading when it is valid, the samples in a row at the trip temperature (R468, R470). -/
def sampled (old : Sensor) (i x : Nat) (v : Bool) : Sensor :=
  ⟨if v then x else old.temp, v, if v && i ≠ 56 && x ≥ (sensorLimits i).2.2 then old.hits + 1 else 0⟩

theorem sampled_hits {i x : Nat} {v : Bool} (old : Sensor) (hv : v = true) (hi : i ≠ 56) (hx : (sensorLimits i).2.2 ≤ x) :
    (sampled old i x v).hits = old.hits + 1 := if_pos (by simp [hv, hi, hx])

theorem answers_of_sensor {d i : Nat} {x : Sensor} (h : tget? s.pwr.sensors (256 * d + i) = some x) :
    answers s d i = x.ok ∧ rawTemp s d i = x.temp := by
  unfold answers rawTemp
  rw [h]
  exact ⟨rfl, rfl⟩

/-- A sample is kept; the third in a row at the trip temperature trips the module. -/
def sampleEnd (s : State) (d i : Nat) (x : Sensor) : State :=
  let s1 := setPwr s { s.pwr with sensors := tput s.pwr.sensors (256 * d + i) x }
  if x.hits ≥ 3 then setAlert (setPwr (departAll s1) { s1.pwr with tripped := true }) 1 else s1

theorem execSensorSample_eq {d i : Nat} (hp : powered s = true) (hd : d < 4) (hk : sensorKnown d i = true) (x : Nat) (v : Bool) :
    exec (.sensorSample d i x v) s =
      .next (sampleEnd s d i (sampled (tgetD s.pwr.sensors (256 * d + i) ⟨0, true, 0⟩) i x v)) :=
  congrArg Host.Outcome.next (if_neg (by simp [hp, hk, hd]))

theorem sampleEnd_sensor (s : State) (d i : Nat) (x : Sensor) : tget? (sampleEnd s d i x).pwr.sensors (256 * d + i) = some x := by
  unfold sampleEnd
  dsimp only
  split
  · exact tget?_tput_same _ _ _
  · exact tget?_tput_same _ _ _

theorem sampleEnd_ram (s : State) (d i : Nat) (x : Sensor) : (sampleEnd s d i x).ram = s.ram :=
  ((MemFrom.refl s).setPwr.opt (·.departAll.setPwr.setAlert)).same rfl |>.1

theorem sampleEnd_trips (s : State) (d i : Nat) {x : Sensor} (h : 3 ≤ x.hits) :
    (sampleEnd s d i x).pwr.tripped = true ∧ regF (sampleEnd s d i x) pgNhl 0x0E4 1 1 = 1 := by
  unfold sampleEnd
  dsimp only
  rw [if_pos h]
  exact ⟨rfl, setAlert_bit _ 1 (by decide)⟩

/-- Settles O44: each command comes to one update of the controller's page and state. -/
theorem powerAndHeatAreControlled : Obligations.PowerAndHeatAreControlled := by
  unfold Obligations.PowerAndHeatAreControlled
  intro s
  refine ⟨fun p tag v ha hs => ⟨?cap, ?vceil⟩, fun hp => ⟨fun m hg => ?period, execFastLimit_spec hp,
    fun hm hu ha => execPwrEstDiverge_spec hm hu ha, fun hm hu => ⟨fun hc => execPwrEstRecover_spec hm hu hc, fun h hb => ?point,
      fun h hb => ?bubble, fun h hn => execMeasureStep_near hm hu h hn⟩, fun d i x v hd hk => ?sample⟩, fun ht hb => ?off⟩
  case cap =>
    have hreq : bits (v % 2 ^ 32) 8 0 = v % 2 ^ 9 := by simp [bits]
    have hw := (regWrite_block pageIs_pgPwr ha (show 0x080 ≤ 0x080 by decide) (by decide) rfl v).trans (blockWrite_cap hs _)
    unfold capWrite at hw
    rw [hreq] at hw
    have hmax := maxWatts_le s
    exact ⟨_, congrArg Host.Outcome.next hw, clampNote_spec s (by decide) (by decide) (by omega) rfl⟩
  case vceil =>
    have hreq : bits (v % 2 ^ 32) 5 0 = v % 2 ^ 6 := by simp [bits]
    have hw := (regWrite_block pageIs_pgPwr ha (show 0x080 ≤ 0x084 by decide) (by decide) rfl v).trans (blockWrite_vceil hs _)
    unfold vceilWrite at hw
    rw [hreq] at hw
    have hmax := topCode_le s
    exact ⟨_, congrArg Host.Outcome.next hw, clampNote_spec s (by decide) (by decide) (by omega) rfl⟩
  case period =>
    exact ⟨_, congrArg Host.Outcome.next (if_pos (by simp [hp, hg])), pacing_spec s m rfl⟩
  case point =>
    have hlt : pointOf s - s.pwr.fastDrop - 1 < 32 := by
      have := pointOf_lt s
      omega
    exact ⟨_, (execMeasureStep_above hm hu h).trans (congrArg Host.Outcome.next (if_neg (by simp [hb]))), newPoint_spec s hlt rfl⟩
  case bubble =>
    exact ⟨_, (execMeasureStep_above hm hu h).trans (congrArg Host.Outcome.next (if_pos hb)), newBubble_spec s (by omega) rfl⟩
  case sample =>
    obtain ⟨hok, htemp⟩ := answers_of_sensor (sampleEnd_sensor s d i (sampled (tgetD s.pwr.sensors (256 * d + i) ⟨0, true, 0⟩) i x v))
    refine ⟨_, execSensorSample_eq hp hd hk x v, hok, htemp, sampleEnd_ram s d i _, fun hv hi hx hh => sampleEnd_trips s d i ?_⟩
    rw [sampled_hits _ hv hi hx]
    omega
  case off =>
    exact ⟨_, congrArg Host.Outcome.next (if_neg (by simp [ht, hb])), rfl, rfl, rfl, rfl, rfl, setAlert_bit _ 0 (by decide), rfl⟩

end Sys2Proof.Laws
end

