-- ==== Sys2Proof/Proofs/Standing.lean ====
section
/-!
SUPPORT. What stands from a state on while blocks report errors, fail and end their operations (R40, R51, R53): events that wait,
status bits, failed blocks. Leaving service (R18) and the ends of long operations, as later proofs use them.
-/
namespace Sys2Proof.Laws
open Sys2Proof.Machine Sys2Proof.Safety

variable {s t u : State} {pg bit addr : Nat}

/-- Events still wait to be sent, status bits are still set, failed blocks are still failed. -/
structure Stands (s t : State) : Prop where
  told   : ∀ e ∈ s.evq, e ∈ t.evq
  bits   : ∀ x b, (blk s x).errStat.getLsbD b = true → (blk t x).errStat.getLsbD b = true
  failed : ∀ x, (blk s x).st = .failed → (blk t x).st = .failed

theorem Stands.refl (s : State) : Stands s s := ⟨fun _ => id, fun _ _ => id, fun _ => id⟩

theorem Stands.trans (h : Stands s t) (k : Stands t u) : Stands s u :=
  ⟨fun e he => k.told e (h.told e he), fun x b hb => k.bits x b (h.bits x b hb), fun x hx => k.failed x (h.failed x hx)⟩

/-- A change to neither pages nor events. -/
theorem Stands.upd (h : Stands s t) (hb : u.blks = t.blks := by rfl) (h0 : u.booted = t.booted := by rfl)
    (he : u.evq = t.evq := by rfl) : Stands s u := by
  have hblk := blk_congr hb h0
  refine h.trans ⟨fun e h => he ▸ h, fun x b h => ?_, fun x h => ?_⟩ <;> rwa [hblk]

theorem Stands.raise (h : Stands s t) (e : Ev) : Stands s (raise t e) :=
  ⟨fun x hx => List.mem_append_left _ (h.told x hx), h.bits, h.failed⟩

theorem mem_raise (s : State) (e : Ev) : e ∈ (raise s e).evq := List.mem_append_right _ (List.mem_singleton.2 rfl)

@[simp] theorem regF_raise (s : State) (e : Ev) (x off hi lo : Nat) : regF (raise s e) x off hi lo = regF s x off hi lo := rfl

theorem Stands.modBlk (h : Stands s t) (pg : Nat) (f : Blk → Blk) (hs : ∀ b, (f b).errStat = b.errStat := by exact fun _ => rfl)
    (hf : ∀ b, b.st = .failed → (f b).st = .failed := by exact fun _ h => h) : Stands s (modBlk t pg f) := by
  refine h.trans ⟨fun _ => id, fun x b hb => ?_, fun x hx => ?_⟩
  · by_cases hp : x = pg
    · subst hp
      rwa [blk_modBlk_same, hs]
    · rwa [blk_modBlk_ne t f hp]
  · by_cases hp : x = pg
    · subst hp
      rw [blk_modBlk_same]
      exact hf _ hx
    · rwa [blk_modBlk_ne t f hp]

theorem Stands.setReg (h : Stands s t) (pg off : Nat) (w : Word) : Stands s (setReg t pg off w) := h.modBlk pg _

theorem Stands.setRegF (h : Stands s t) (pg off hi lo v : Nat) : Stands s (setRegF t pg off hi lo v) := h.setReg _ _ _

theorem Stands.cardPut (h : Stands s t) (kind unit v : Nat) : Stands s (cardPut t kind unit v) := h.upd
theorem Stands.setGuide (h : Stands s t) (g : Guide) : Stands s (setGuide t g) := h.upd

/-- An error leaves the pages of other blocks, but for the trigger's registers. -/
theorem blk_errSet_other (s : State) {x : Nat} (h : x ≠ pg) : ∃ r, blk (errSet s pg bit addr) x = { blk s x with regs := r } := by
  unfold errSet
  dsimp only
  split
  · exact ⟨_, blk_setBlk_ne s _ h⟩
  · split
    · obtain ⟨r, hr, -⟩ := blk_cairnTrigger (setBlk s pg _) 2 (((pageAt pg).map (·.ty.code)).getD 0) x
      exact ⟨r, hr.trans (by rw [blk_setBlk_ne s _ h])⟩
    · exact ⟨_, blk_setBlk_ne s _ h⟩

theorem evq_errSet (s : State) (pg bit addr : Nat) : ∃ es, (errSet s pg bit addr).evq = s.evq ++ es := by
  unfold errSet cairnTrigger
  dsimp only
  split
  · exact ⟨[], (List.append_nil _).symm⟩
  · split
    · split
      · exact ⟨[], (List.append_nil _).symm⟩
      · exact ⟨_, rfl⟩
    · exact ⟨[], (List.append_nil _).symm⟩

theorem Stands.errSet (h : Stands s t) (pg bit addr : Nat) : Stands s (errSet t pg bit addr) := by
  refine h.trans ⟨fun e he => ?_, fun x b hb => ?_, fun x hx => (st_errSet t pg bit addr x).trans hx⟩
  · obtain ⟨es, hes⟩ := evq_errSet t pg bit addr
    rw [hes]
    exact List.mem_append_left _ he
  · by_cases hp : x = pg
    · subst hp
      obtain ⟨r, d, e, -⟩ := blk_errSet_same t x bit addr
      rw [e, show Blk.errStat { (blk t x).err bit addr with injDue := d, regs := r } = (blk t x).errStat ||| (1#32 <<< bit) from rfl,
        BitVec.getLsbD_or, hb, Bool.true_or]
    · obtain ⟨r, e⟩ := blk_errSet_other (bit := bit) (addr := addr) t hp
      rw [e]
      exact hb

theorem Stands.foldl {α : Type} {f : State → α → State} (h : Stands s t) (hf : ∀ u x, Stands s u → Stands s (f u x)) (xs : List α) :
    Stands s (xs.foldl f t) := foldl_keeps (Stands s) f hf xs t h

/-- A pass reaches one of its items once, whose effect then stays; until then what the effect needs holds. -/
theorem foldl_reaches {α : Type} {f : State → α → State} (P Q : State → Prop) {m : α} {xs : List α} (hm : m ∈ xs)
    (hreach : ∀ s, Q s → P (f s m)) (hstay : ∀ s x, P s → P (f s x)) (hwait : ∀ x ∈ xs, x ≠ m → ∀ s, Q s → Q (f s x)) (s : State)
    (hs : Q s) : P (xs.foldl f s) := by
  classical
  induction xs generalizing s with
  | nil => cases hm
  | cons x xs ih =>
    by_cases h : x = m
    · subst h
      exact foldl_keeps P f hstay xs _ (hreach s hs)
    · exact ih ((List.mem_cons.1 hm).resolve_left (Ne.symm h)) (fun y hy => hwait y (List.mem_cons_of_mem _ hy)) _
        (hwait x List.mem_cons_self h s hs)

section
variable {c : Prop} {_ : Decidable c} {a b : State}

theorem Stands.ite (ha : Stands s a) (hb : Stands s b) : Stands s (if c then a else b) := by
  split <;> assumption

theorem Stands.opt (h : Stands s t) (ha : Stands s t → Stands s a) : Stands s (if c then a else t) := .ite (ha h) h
theorem Stands.optElse (h : Stands s t) (hb : Stands s t → Stands s b) : Stands s (if c then t else b) := .ite h (hb h)

end

/-! Errors and what they leave. -/

@[simp] theorem errSet_guide : (errSet s pg bit addr).guide = s.guide := by
  obtain ⟨b, r, w, k, e, h⟩ := errSet_frame s pg bit addr
  rw [h]

@[simp] theorem errSet_flash : (errSet s pg bit addr).flash = s.flash := by
  obtain ⟨b, r, w, k, e, h⟩ := errSet_frame s pg bit addr
  rw [h]

/-- A change of a page that keeps its registers. -/
theorem regW_modBlk (s : State) (pg : Nat) (f : Blk → Blk) (x off : Nat) (hf : ∀ b, (f b).regs = b.regs := by exact fun _ => rfl) :
    regW (modBlk s pg f) x off = regW s x off := by
  have hr : (blk (modBlk s pg f) x).regs = (blk s x).regs := by
    by_cases hx : x = pg
    · rw [hx, blk_modBlk_same, hf]
    · rw [blk_modBlk_ne s f hx]
  exact regW_congr hr rfl off

theorem regF_modBlk (s : State) (pg : Nat) (f : Blk → Blk) (x off hi lo : Nat)
    (hf : ∀ b, (f b).regs = b.regs := by exact fun _ => rfl) :
    regF (modBlk s pg f) x off hi lo = regF s x off hi lo := congrArg (fun w => fld w hi lo) (regW_modBlk s pg f x off hf)

/-- What an error does not touch of a page. -/
theorem errSet_proj {α : Type} (P : Blk → α) (s : State) (pg bit addr x : Nat)
    (hP : ∀ b r d, P { Blk.err b bit addr with injDue := d, regs := r } = P b := by exact fun _ _ _ => rfl)
    (hr : ∀ b r, P { b with regs := r } = P b := by exact fun _ _ => rfl) : P (blk (errSet s pg bit addr) x) = P (blk s x) := by
  by_cases h : x = pg
  · subst h
    obtain ⟨r, d, e, -⟩ := blk_errSet_same s x bit addr
    rw [e, hP]
  · obtain ⟨r, e⟩ := blk_errSet_other (bit := bit) (addr := addr) s h
    rw [e, hr]

/-- What a register does not touch of a page. -/
theorem setReg_proj {α : Type} (P : Blk → α) (s : State) (pg off : Nat) (w : Word) (x : Nat)
    (hr : ∀ b r, P { b with regs := r } = P b := by exact fun _ _ => rfl) : P (blk (setReg s pg off w) x) = P (blk s x) := by
  rw [blk_setReg]
  split
  · exact hr _ _
  · rfl

/-! The end of a long operation, and the failure of a block. -/

theorem settle_st_of_failed (b : Blk) (work : Bool) (h : b.st = .failed) : (b.settle work).st = .failed := by
  unfold Blk.settle
  rw [h]
  exact h

theorem Stands.opEnd (h : Stands s t) (pg res val : Nat) : Stands s (opEnd t pg res val) :=
  (h.modBlk pg (·.opEnd res val)).opt (·.errSet _ _ _)

theorem settle_errStat (b : Blk) (work : Bool) : (b.settle work).errStat = b.errStat := by
  unfold Blk.settle
  split <;> rfl

theorem Stands.settle (h : Stands s t) (pg : Nat) (work : Bool) : Stands s (settle t pg work) :=
  h.modBlk pg _ (fun b => settle_errStat b work) (fun b => settle_st_of_failed b work)

theorem Stands.opOver (h : Stands s t) (pg res : Nat) : Stands s (opOver t pg res) := by
  unfold Machine.opOver
  exact h.optElse fun h => (h.opEnd _ _ _).settle _ _

theorem Stands.failBlock (h : Stands s t) (pg : Nat) : Stands s (failBlock t pg) := by
  have h1 : Stands s (if (blk t pg).opRun then Machine.opEnd t pg 2 (blk t pg).progVal else t) := h.opt (·.opEnd _ _ _)
  exact (h1.modBlk pg (fun b => b.endStop.enter .failed) (hf := fun _ _ => rfl)).errSet _ _ _

theorem failBlock_st (s : State) (pg : Nat) : (blk (failBlock s pg) pg).st = .failed := by
  unfold failBlock
  dsimp only
  rw [st_errSet, blk_modBlk_same]
  rfl

/-- A change of a page that keeps its state. -/
theorem st_modBlk (s : State) (pg : Nat) (f : Blk → Blk) (x : Nat) (hf : ∀ b, (f b).st = b.st := by exact fun _ => rfl) :
    (blk (modBlk s pg f) x).st = (blk s x).st := by
  by_cases hx : x = pg
  · rw [hx, blk_modBlk_same, hf]
  · rw [blk_modBlk_ne s f hx]

theorem st_opEnd (s : State) (pg res val x : Nat) : (blk (opEnd s pg res val) x).st = (blk s x).st := by
  have h : (blk (modBlk s pg (·.opEnd res val)) x).st = (blk s x).st := st_modBlk s pg _ x
  unfold opEnd
  dsimp only
  split
  · exact (st_errSet _ _ _ _ _).trans h
  · exact h

theorem settle_inService (b : Blk) (work : Bool) : (b.settle work).st.inService = b.st.inService := by
  unfold Blk.settle
  split
  · next h => rw [h]; rfl
  · next h => rw [h]; rfl
  · rfl

theorem inService_settle (s : State) (pg : Nat) (work : Bool) (x : Nat) :
    (blk (settle s pg work) x).st.inService = (blk s x).st.inService := by
  unfold settle
  by_cases hx : x = pg
  · rw [hx, blk_modBlk_same, settle_inService]
  · rw [blk_modBlk_ne _ _ hx]

/-- The end of an operation leaves every block in or out of service. -/
theorem opOver_inService (s : State) (pg res x : Nat) : (blk (opOver s pg res) x).st.inService = (blk s x).st.inService := by
  unfold opOver
  dsimp only
  split
  · rfl
  · exact (inService_settle _ pg _ x).trans (congrArg BState.inService (st_opEnd s pg res _ x))

theorem regW_opEnd (s : State) (pg res val : Nat) {x : Nat} (hx : x ≠ pgDbg) (off : Nat) :
    regW (opEnd s pg res val) x off = regW s x off := by
  have h : regW (modBlk s pg (·.opEnd res val)) x off = regW s x off := regW_modBlk s pg _ x off
  unfold opEnd
  dsimp only
  split
  · exact (regW_errSet _ _ _ _ hx _).trans h
  · exact h

theorem settle_regs (b : Blk) (work : Bool) : (b.settle work).regs = b.regs := by
  unfold Blk.settle
  split <;> rfl

theorem regW_opOver (s : State) (pg res : Nat) {x : Nat} (hx : x ≠ pgDbg) (off : Nat) :
    regW (opOver s pg res) x off = regW s x off := by
  unfold opOver
  dsimp only
  split
  · rfl
  · exact (regW_modBlk _ pg _ x off fun b => settle_regs b _).trans (regW_opEnd s pg res _ hx off)

theorem regW_failBlock (s : State) (pg : Nat) {x : Nat} (hx : x ≠ pgDbg) (off : Nat) :
    regW (failBlock s pg) x off = regW s x off := by
  unfold failBlock
  dsimp only
  rw [regW_errSet _ _ _ _ hx, regW_modBlk _ pg _ x off]
  split
  · exact regW_opEnd s pg 2 _ hx off
  · rfl

theorem opEnd_guide (s : State) (pg res val : Nat) : (opEnd s pg res val).guide = s.guide := by
  unfold opEnd
  dsimp only
  split
  · exact errSet_guide
  · rfl

theorem opOver_guide (s : State) (pg res : Nat) : (opOver s pg res).guide = s.guide := by
  unfold opOver
  dsimp only
  split
  · rfl
  · exact opEnd_guide s pg res _

theorem failBlock_guide (s : State) (pg : Nat) : (failBlock s pg).guide = s.guide := by
  unfold failBlock
  dsimp only
  rw [errSet_guide, modBlk_guide]
  split
  · exact opEnd_guide s pg 2 _
  · rfl

/-- The failure of a block changes no other block's state. -/
theorem st_failBlock_ne (s : State) {pg x : Nat} (h : x ≠ pg) : (blk (failBlock s pg) x).st = (blk s x).st := by
  unfold failBlock
  dsimp only
  rw [st_errSet, blk_modBlk_ne _ _ h]
  split
  · exact st_opEnd s pg 2 _ x
  · rfl

/-! Leaving service (R18, R433). -/

/-- Only the ports take part when every link is told of a departure. -/
theorem departAll_ports (s : State) : ∃ p, departAll s = { s with ports := p } := by
  refine foldl_keeps (fun t => ∃ p, t = { s with ports := p }) _ (fun t p ht => ?_) _ s ⟨_, rfl⟩
  obtain ⟨ps, rfl⟩ := ht
  split <;> exact ⟨_, rfl⟩

/-- What holds of the state and of every state that has left service with some ports told holds after leaving service. -/
theorem leaveService_cases (P : State → Prop) (h : s.leftService = true → P s)
    (hl : ∀ p, P { setAlert { s with ports := p } 0 with leftService := true }) : P (leaveService s) := by
  unfold leaveService
  split
  · next hs => exact h hs
  · obtain ⟨p, hp⟩ := departAll_ports s
    rw [hp]
    exact hl p

theorem leaveService_left (s : State) : (leaveService s).leftService = true :=
  leaveService_cases (fun t => t.leftService = true) id fun _ => rfl

theorem leaveService_guide (s : State) : (leaveService s).guide = s.guide :=
  leaveService_cases (fun t => t.guide = s.guide) (fun _ => rfl) fun _ => rfl

theorem Stands.leaveService (h : Stands s t) : Stands s (leaveService t) :=
  leaveService_cases (Stands s) (fun _ => h) fun p => ((h.upd (u := { t with ports := p })).setRegF pgNhl 0x0E4 0 0 1).upd

/-- Leaving service sets the alert and changes no other register. -/
theorem regW_leaveService (s : State) {x off : Nat} (h : x ≠ pgNhl ∨ off ≠ 0x0E4) : regW (leaveService s) x off = regW s x off :=
  leaveService_cases (fun t => regW t x off = regW s x off) (fun _ => rfl) fun _ => regW_setReg_ne _ _ h

theorem regF_leaveService (s : State) {x off : Nat} (hi lo : Nat) (h : x ≠ pgNhl ∨ off ≠ 0x0E4) :
    regF (leaveService s) x off hi lo = regF s x off hi lo := congrArg (fun w => fld w hi lo) (regW_leaveService s h)

end Sys2Proof.Laws
end

