-- ==== Sys2Proof/Proofs/TimeAndEdges.lean ====
section
/-!
PROOF. O38: measured time, noise sources and the loss of die-to-die edges.
-/
namespace Sys2Proof.Laws
open Sys2Proof.Machine Sys2Proof.Safety

variable {s t : State} {pg : Nat}

/-! Local interval counters (R28, R30, R31). -/

theorem exec_rateInterval (hc : counts s pg = true) (m : Nat) : exec (.rateInterval pg m) s =
    .next (modBlk s pg (fun b => { b with lic := (b.lic / 1000000 + 1) * 1000000 % 2 ^ 64, meas := m % 65536 })) :=
  congrArg Host.Outcome.next (if_pos hc)

theorem exec_trimStale (hc : counts s pg = true) (hs : (blk s pg).stale = false) : exec (.trimStale pg) s =
    .next (raise (modBlk s pg (fun b => { b with stale := true })) { ring := 0, kind := 0x68, info := blkId pg }) :=
  congrArg Host.Outcome.next (if_pos (by simp [hc, hs]))

/-- A page's counter and its trim are as before. -/
def SameTrim (s t : State) (pg : Nat) : Prop :=
  (blk t pg).lic = (blk s pg).lic ∧ (blk t pg).corr = (blk s pg).corr ∧ (blk t pg).stale = (blk s pg).stale ∧
    (blk t pg).valid = (blk s pg).valid

theorem SameTrim.refl (s : State) (pg : Nat) : SameTrim s s pg := ⟨rfl, rfl, rfl, rfl⟩

theorem SameTrim.modBlk (h : SameTrim s t pg) (f : Blk → Blk)
    (hf : ∀ b, (f b).lic = b.lic ∧ (f b).corr = b.corr ∧ (f b).stale = b.stale ∧ (f b).valid = b.valid := by
      exact fun _ => ⟨rfl, rfl, rfl, rfl⟩) :
    SameTrim s (modBlk t pg f) pg := by
  obtain ⟨hlic, hcorr, hstale, hvalid⟩ := h
  obtain ⟨klic, kcorr, kstale, kvalid⟩ := hf (blk t pg)
  unfold SameTrim
  rw [blk_modBlk_same]
  exact ⟨klic.trans hlic, kcorr.trans hcorr, kstale.trans hstale, kvalid.trans hvalid⟩

theorem SameTrim.setReg (h : SameTrim s t pg) (off : Nat) (w : Word) : SameTrim s (setReg t pg off w) pg :=
  h.modBlk _

/-! Noise sources (R162). -/

/-- The failure of a health test: counted, FALLBACK set, on a state whose fallback generator may have been seeded. -/
def noiseCounted (s : State) (pg : Nat) : State := setRegF (bumpF s pg 0x0F0 31 24 1) pg 0x0F0 17 17 1

/-- The state whose fallback generator takes its seed. -/
def noiseSeeded (s : State) (pg : Nat) : State :=
  modBlk { s with fresh := s.fresh + 1 } pg (fun b => { b with noiseGen := Config.noiseSeed (Config.noise s.fresh) })

theorem noiseFail_eq (s : State) (pg : Nat) :
    noiseFail s pg = noiseCounted (if regF s pg 0x0F0 17 17 = 1 then s else noiseSeeded s pg) pg := rfl

theorem SameTrim.noiseFail (h : SameTrim s t pg) : SameTrim s (noiseFail t pg) pg := by
  have hseed : SameTrim s (if regF t pg 0x0F0 17 17 = 1 then t else noiseSeeded t pg) pg := by
    split
    · exact h
    · exact SameTrim.modBlk (t := { t with fresh := t.fresh + 1 }) h _
  rw [noiseFail_eq]
  exact (hseed.setReg _ _).setReg _ _

theorem onlyPage_noiseFail (s : State) (pg : Nat) : OnlyPage s (noiseFail s pg) pg := by
  have hseed : OnlyPage s (if regF s pg 0x0F0 17 17 = 1 then s else noiseSeeded s pg) pg := by
    split
    · exact onlyPage_refl s pg
    · exact onlyPage_modBlk { s with fresh := s.fresh + 1 } pg _
  rw [noiseFail_eq]
  exact onlyPage_trans hseed (onlyPage_trans (onlyPage_modBlk _ pg _) (onlyPage_modBlk _ pg _))

/-- FALLBACK is set and the failure counted. -/
theorem noiseFail_regs (s : State) (pg : Nat) : regF (noiseFail s pg) pg 0x0F0 17 17 = 1 ∧
    regF (noiseFail s pg) pg 0x0F0 31 24 = min 255 (regF s pg 0x0F0 31 24 + 1) := by
  have hseed : regF (if regF s pg 0x0F0 17 17 = 1 then s else noiseSeeded s pg) pg 0x0F0 31 24 = regF s pg 0x0F0 31 24 := by
    split
    · rfl
    · exact regF_modBlk { s with fresh := s.fresh + 1 } pg _ pg 0x0F0 31 24
  rw [noiseFail_eq, noiseCounted]
  refine ⟨regF_setRegF_same _ pg 0x0F0 17 17 1 (by decide) (by decide), ?_⟩
  rw [regF_setRegF_field _ pg 0x0F0 17 17 1 31 24 (by decide) (by decide) (by decide),
    regF_bumpF_same _ pg 0x0F0 31 24 1 (by decide) (by decide), hseed]
  exact satAdd_one _ _ (Nat.le_of_lt_succ (bits_lt _ 31 24))

theorem regF_injFire (s : State) (pg : Nat) (due : List Nat) (x off hi lo : Nat) :
    regF (injFire s pg due) x off hi lo = regF s x off hi lo := regF_modBlk s pg _ x off hi lo

theorem exec_noiseHealthFail (hn : hasNoise pg = true) (ho : (blk s pg).st ≠ .off) : exec (.noiseHealthFail pg) s =
    .next (if injects s pg 3 then noiseFail (injFire s pg []) pg else noiseFail s pg) :=
  congrArg Host.Outcome.next (if_pos (by simp [hn, ho]))

/-- A health failure, a detector's one like any other. -/
theorem noiseHealth_spec (s : State) (pg : Nat) (ht : (if injects s pg 3 then noiseFail (injFire s pg []) pg else noiseFail s pg) = t) :
    regF t pg 0x0F0 17 17 = 1 ∧ regF t pg 0x0F0 31 24 = min 255 (regF s pg 0x0F0 31 24 + 1) ∧ OnlyPage s t pg := by
  subst ht
  split
  · obtain ⟨hfall, hcount⟩ := noiseFail_regs (injFire s pg []) pg
    rw [regF_injFire] at hcount
    exact ⟨hfall, hcount, onlyPage_trans (onlyPage_modBlk s pg _) (onlyPage_noiseFail _ pg)⟩
  · obtain ⟨hfall, hcount⟩ := noiseFail_regs s pg
    exact ⟨hfall, hcount, onlyPage_noiseFail s pg⟩

theorem exec_noiseRetest (hn : hasNoise pg = true) (ho : (blk s pg).st ≠ .off) (hf : regF s pg 0x0F0 17 17 = 1) (pass : Bool) :
    exec (.noiseRetest pg pass) s = .next (noiseRetest s pg pass) :=
  congrArg Host.Outcome.next (if_pos (by simp [hn, ho, hf]))

/-- A retest that passes clears FALLBACK and no other register. -/
theorem noiseRetest_pass (s : State) (pg : Nat) (ht : noiseRetest s pg true = t) :
    regF t pg 0x0F0 17 17 = 0 ∧ (∀ o, o ≠ 0x0F0 → regW t pg o = regW s pg o) ∧ OnlyPage s t pg := by
  let u := setRegF s pg 0x0F0 17 17 0
  have hu : modBlk u pg (fun b => { b with noiseTold := false }) = t := ht
  have hreg : ∀ o, regW t pg o = regW u pg o := fun o => hu ▸ regW_modBlk u pg _ pg o
  have hpage : OnlyPage u t pg := hu ▸ onlyPage_modBlk u pg _
  refine ⟨?_, fun o ho => (hreg o).trans (regW_setReg_ne s _ (.inr ho)), onlyPage_trans (onlyPage_modBlk s pg _) hpage⟩
  exact (congrArg (fun w => fld w 17 17) (hreg 0x0F0)).trans (regF_setRegF_same s pg 0x0F0 17 17 0 (by decide) (by decide))

/-! A trim (R31, R162). -/

theorem SameTrim.noiseWindow (h : SameTrim s t pg) : SameTrim s (noiseWindow t pg) pg := by
  have hfire : SameTrim s (injFire t pg []) pg := h.modBlk _
  unfold Machine.noiseWindow
  split
  · exact hfire.noiseFail
  · exact h

theorem SameTrim.noiseCheck (h : SameTrim s t pg) : SameTrim s (noiseCheck t pg) pg := by
  have hset : ∀ b, SameTrim s (Machine.modBlk (Machine.noiseWindow t pg) pg (fun x => { x with noiseTold := b })) pg := fun _ =>
    h.noiseWindow.modBlk _
  unfold Machine.noiseCheck
  dsimp only
  split
  · exact h
  · split <;> exact hset _

theorem onlyPage_noiseWindow (s : State) (pg : Nat) : OnlyPage s (noiseWindow s pg) pg := by
  unfold noiseWindow
  split
  · exact onlyPage_trans (onlyPage_modBlk s pg _) (onlyPage_noiseFail _ pg)
  · exact onlyPage_refl s pg

theorem onlyPage_noiseCheck (s : State) (pg : Nat) : OnlyPage s (noiseCheck s pg) pg := by
  have hset : ∀ b, OnlyPage s (modBlk (noiseWindow s pg) pg (fun x => { x with noiseTold := b })) pg := fun _ =>
    onlyPage_trans (onlyPage_noiseWindow s pg) (onlyPage_modBlk _ pg _)
  unfold noiseCheck
  dsimp only
  split
  · exact onlyPage_refl s pg
  · split <;> exact hset _

/-- What firmware writes at a trim, before it looks at the noise source. -/
def trimmed (s : State) (pg c d : Nat) : State :=
  modBlk (takeFree s).2 pg (fun b => { b with
    corr := c % 65536, ratio := trimRatio (takeFree s).2 pg d (takeFree s).1, stale := false, valid := true })

theorem exec_counterTrim (hc : counts s pg = true) (ho : s.guide.oscBad ≠ 3) (c d : Nat) :
    exec (.counterTrim pg c d) s = .next (noiseCheck (trimmed s pg c d) pg) :=
  congrArg Host.Outcome.next (if_pos (by simp [hc, oscUp, ho]))

theorem counterTrim_spec (s : State) (pg c d : Nat) (ht : noiseCheck (trimmed s pg c d) pg = t) :
    (blk t pg).corr = c % 2 ^ 16 ∧ (blk t pg).stale = false ∧ (blk t pg).valid = true ∧ (blk t pg).lic = (blk s pg).lic ∧ OnlyPage s t pg := by
  obtain ⟨hlic, hcorr, hstale, hvalid⟩ := (SameTrim.refl (trimmed s pg c d) pg).noiseCheck
  have hfirst : OnlyPage s (trimmed s pg c d) pg := onlyPage_modBlk (takeFree s).2 pg _
  have hpage := onlyPage_trans hfirst (onlyPage_noiseCheck _ pg)
  rw [ht] at hlic hcorr hstale hvalid hpage
  rw [trimmed, blk_modBlk_same] at hlic hcorr hstale hvalid
  exact ⟨hcorr, hstale, hvalid, hlic, hpage⟩

/-! Die-to-die edges (R17, R18). -/

/-- The edge is listed as failed. -/
def edgeListed (s : State) (e : Nat) : State := setGuide s { s.guide with edges := e :: s.guide.edges }

/-- The state that DIE_EDGE_FAIL leaves before a device that is cut apart leaves service. -/
def edgeLost (s : State) (e : Nat) : State :=
  cardPut (edgeReport (edgeListed s e) e) ctEdge 0 (((edgeReport (edgeListed s e) e).guide.edges.map (fun e => 2 ^ e)).sum)

theorem exec_dieEdgeFail {e : Nat} (he : e < 4) (hn : e ∉ s.guide.edges) (hb : s.booted = true) : exec (.dieEdgeFail e) s =
    .next (if (List.range 4).any (cutOff (edgeLost s e)) then leaveService (edgeLost s e) else edgeLost s e) := by
  change execDieEdgeFail e s = _
  unfold execDieEdgeFail
  rw [if_neg (by simp [he, hn, hb])]
  rfl

theorem edgeReport_eq (s : State) (e : Nat) : edgeReport s e =
    raise (errSet (errSet s (pgDie (edgeDies e).1) 8 (edgeDies e).2) (pgDie (edgeDies e).2) 8 (edgeDies e).1)
      { ring := 0, kind := 0x08, info := (edgeDies e).1 + 16 * (edgeDies e).2 } := rfl

theorem edgeReport_guide (s : State) (e : Nat) : (edgeReport s e).guide = s.guide := by
  rw [edgeReport_eq, raise_guide, errSet_guide, errSet_guide]

theorem edgeLost_edges (s : State) (e : Nat) : (edgeLost s e).guide.edges = e :: s.guide.edges :=
  congrArg Guide.edges (edgeReport_guide (edgeListed s e) e)

/-- Both dies of the edge hold the error and the event waits. -/
theorem edgeReport_reports (s : State) (e : Nat) :
    (blk (edgeReport s e) (pgDie (edgeDies e).1)).errStat.getLsbD 8 = true ∧
      (blk (edgeReport s e) (pgDie (edgeDies e).2)).errStat.getLsbD 8 = true ∧
      { ring := 0, kind := 0x08, info := (edgeDies e).1 + 16 * (edgeDies e).2 } ∈ (edgeReport s e).evq := by
  have hfirst := errSet_bit s (pgDie (edgeDies e).1) (edgeDies e).2 (show 8 < 32 by decide)
  rw [edgeReport_eq, blk_raise, blk_raise]
  exact ⟨((Stands.refl _).errSet _ _ _).bits _ _ hfirst, errSet_bit _ _ _ (by decide), mem_raise _ _⟩

theorem cutOff_of_edges {d : Nat} (h : ∀ x, x < 4 → (edgeDies x).1 = d ∨ (edgeDies x).2 = d → x ∈ s.guide.edges) : cutOff s d = true := by
  unfold cutOff
  rw [List.all_eq_true]
  intro x hx
  by_cases hd : (edgeDies x).1 = d ∨ (edgeDies x).2 = d
  · simp [h x (List.mem_range.1 hx) hd]
  · rw [not_or] at hd
    simp [hd.1, hd.2]

/-- What the failure of an edge comes to, whether the device leaves service or not. -/
theorem edgeLost_spec (s : State) (e : Nat) {c : Prop} [Decidable c] (ht : (if c then leaveService (edgeLost s e) else edgeLost s e) = t) :
    t.guide.edges = e :: s.guide.edges ∧ (blk t (pgDie (edgeDies e).1)).errStat.getLsbD 8 = true ∧
      (blk t (pgDie (edgeDies e).2)).errStat.getLsbD 8 = true ∧
      { ring := 0, kind := 0x08, info := (edgeDies e).1 + 16 * (edgeDies e).2 } ∈ t.evq ∧ t.ram = s.ram ∧ (c → t.leftService = true) := by
  subst ht
  obtain ⟨hfst, hsnd, hev⟩ := edgeReport_reports (edgeListed s e) e
  have hst : Stands (edgeReport (edgeListed s e) e) (if c then leaveService (edgeLost s e) else edgeLost s e) :=
    ((Stands.refl _).cardPut _ _ _).opt (·.leaveService)
  have hmem : MemFrom false s (if c then leaveService (edgeLost s e) else edgeLost s e) :=
    ((MemFrom.refl s).setGuide.edgeReport.cardPut).opt (·.leaveService)
  refine ⟨?_, hst.bits _ _ hfst, hst.bits _ _ hsnd, hst.told _ hev, (hmem.same rfl).1, fun hc => ?_⟩
  · split
    · exact (congrArg Guide.edges (leaveService_guide _)).trans (edgeLost_edges s e)
    · exact edgeLost_edges s e
  · rw [if_pos hc]
    exact leaveService_left _

/-- Settles O38. -/
theorem timeIsMeasuredAndEdgesFail : Obligations.TimeIsMeasuredAndEdgesFail := by
  unfold Obligations.TimeIsMeasuredAndEdgesFail
  intro s pg
  refine ⟨fun hc => ⟨fun m => ?interval, fun c d ho => ⟨_, exec_counterTrim hc ho c d, counterTrim_spec s pg c d rfl⟩, fun hs => ?stale⟩,
    fun hn ho => ⟨⟨_, exec_noiseHealthFail hn ho, noiseHealth_spec s pg rfl⟩, fun hf =>
      ⟨⟨_, exec_noiseRetest hn ho hf true, noiseRetest_pass s pg rfl⟩, _, exec_noiseRetest hn ho hf false, ?retest⟩⟩,
    fun e he hn hb => ?edge⟩
  case interval =>
    refine ⟨_, exec_rateInterval hc m, ?_⟩
    rw [blk_modBlk_same]
    exact ⟨rfl, rfl, rfl, onlyPage_modBlk s pg _⟩
  case stale =>
    have hpage : OnlyPage s (modBlk s pg (fun b => { b with stale := true })) pg := onlyPage_modBlk s pg _
    refine ⟨_, exec_trimStale hc hs, ?_, rfl, hpage⟩
    rw [blk_raise, blk_modBlk_same]
  case retest =>
    obtain ⟨hfall, hcount⟩ := noiseFail_regs s pg
    exact ⟨hfall, hcount, onlyPage_noiseFail s pg⟩
  case edge =>
    obtain ⟨hedges, hfst, hsnd, hev, hram, hleft⟩ := edgeLost_spec s e (c := (List.range 4).any (cutOff (edgeLost s e)) = true) rfl
    refine ⟨_, exec_dieEdgeFail he hn hb, hedges, hfst, hsnd, hev, hram, ?_⟩
    rintro ⟨d, hd, hall⟩
    exact hleft (List.any_eq_true.2 ⟨d, List.mem_range.2 hd, cutOff_of_edges (edgeLost_edges s e ▸ hall)⟩)

end Sys2Proof.Laws
end

