-- ==== Sys2Proof/Proofs/Supplies.lean ====
section
/-!
PROOF. O43: input excursions, the loss of power, droops, rail faults and lost phases.
-/
namespace Sys2Proof.Laws
open Sys2Proof.Machine Sys2Proof.Safety

variable {s t : State} {n mv : Nat}

/-! The input (R454, R286). -/

/-- What is left with every supply off. -/
theorem powerOff_leaves (s : State) : (powerOff s).pwrGood = false ∧ (powerOff s).booted = false ∧ (powerOff s).ram = {} ∧
    (powerOff s).tiles = [] ∧ (powerOff s).keys = [] ∧ (powerOff s).queues = [] ∧ (powerOff s).cmds = [] ∧ (powerOff s).l2 = [] ∧
    (powerOff s).flash = s.flash ∧ (powerOff s).host = s.host ∧ (powerOff s).partE = s.partE :=
  ⟨rfl, rfl, rfl, rfl, rfl, rfl, rfl, rfl, rfl, rfl, rfl⟩

theorem exec_inputExcursion_off (hp : powered s = true) (hb : inputBand mv = 3) : exec (.inputExcursion mv) s = .next (powerOff s) := by
  change execInputExcursion mv s = _
  unfold execInputExcursion
  rw [if_neg (by simp [hp]), hb]
  rfl

/-- The measured input, and the report of a band that is worse than before. -/
def bandShown (s : State) (mv : Nat) : State :=
  let s1 := setRegF s pgPwr 0x094 31 16 (mv / 10)
  if inputBand mv > s.pwr.band then raise (errSet s1 pgPwr 12 (mv / 10)) { ring := 0, kind := 0x48, value := mv / 10 } else s1

/-- The new band is kept. -/
def bandKept (s : State) (mv : Nat) : State := setPwr (bandShown s mv) { (bandShown s mv).pwr with band := inputBand mv }

theorem exec_inputExcursion (hp : powered s = true) (hb : inputBand mv ≠ 3) : exec (.inputExcursion mv) s =
    .next (if inputBand mv = 2 then railsTo (fun _ _ => 0) (bandKept s mv) else bandKept s mv) := by
  change execInputExcursion mv s = _
  unfold execInputExcursion
  rw [if_neg (by simp [hp])]
  dsimp only
  rw [if_neg hb]
  rfl

theorem inputBand_lt (h : inputBand mv ≠ 3) : mv / 10 < 2 ^ 16 := by
  unfold inputBand at h
  by_contra hn
  exact h (by rw [if_neg (by simp; omega), if_neg (by simp; omega), if_neg (by simp; omega)])

/-- What the report leaves of the registers of the controller: all but the input. -/
theorem regF_bandShown (s : State) (mv : Nat) {off : Nat} (hi lo : Nat) (h : off ≠ 0x094) :
    regF (bandShown s mv) pgPwr off hi lo = regF s pgPwr off hi lo := by
  have hset : regF (setRegF s pgPwr 0x094 31 16 (mv / 10)) pgPwr off hi lo = regF s pgPwr off hi lo :=
    regF_setRegF_ne s _ _ _ _ _ (.inr h)
  unfold bandShown
  dsimp only
  split
  · exact (regF_errSet _ pgPwr 12 _ (by decide) _ _ _).trans hset
  · exact hset

theorem bandShown_input (s : State) (h : inputBand mv ≠ 3) : regF (bandShown s mv) pgPwr 0x094 31 16 = mv / 10 := by
  have hset : regF (setRegF s pgPwr 0x094 31 16 (mv / 10)) pgPwr 0x094 31 16 = mv / 10 := by
    rw [regF_setRegF_same s _ _ _ _ _ (by decide) (by decide)]
    exact Nat.mod_eq_of_lt (inputBand_lt h)
  unfold bandShown
  dsimp only
  split
  · exact (regF_errSet _ pgPwr 12 _ (by decide) _ _ _).trans hset
  · exact hset

theorem bandShown_worse (h : inputBand mv > s.pwr.band) : (blk (bandShown s mv) pgPwr).errStat.getLsbD 12 = true ∧
    { ring := 0, kind := 0x48, value := mv / 10 } ∈ (bandShown s mv).evq := by
  unfold bandShown
  dsimp only
  rw [if_pos h]
  exact ⟨errSet_bit _ pgPwr _ (by decide), mem_raise _ _⟩

theorem bandShown_quiet (h : inputBand mv ≤ s.pwr.band) :
    (blk (bandShown s mv) pgPwr).errStat = (blk s pgPwr).errStat ∧ (bandShown s mv).evq = s.evq := by
  unfold bandShown
  dsimp only
  rw [if_neg (Nat.not_lt.2 h)]
  exact ⟨errStat_setReg _ _ _ _ _, rfl⟩

/-- A pass over the rails reports nothing. -/
theorem railsTo_quiet (g : State → Nat → Nat) (s : State) :
    (∀ x, (blk (railsTo g s) x).errStat = (blk s x).errStat) ∧ (railsTo g s).evq = s.evq := by
  refine foldl_keeps (fun t => (∀ x, (blk t x).errStat = (blk s x).errStat) ∧ t.evq = s.evq) _ (fun t n h => ?_) _ s ⟨fun _ => rfl, rfl⟩
  unfold railStep
  split
  · exact h
  · exact ⟨fun x => (errStat_setReg t _ _ _ x).trans (h.1 x), h.2⟩

/-- An excursion within 44 V to 60 V. -/
theorem bandKept_spec (s : State) (hb : inputBand mv ≠ 3)
    (ht : (if inputBand mv = 2 then railsTo (fun _ _ => 0) (bandKept s mv) else bandKept s mv) = t) :
    regF t pgPwr 0x094 31 16 = mv / 10 ∧ t.pwr.band = inputBand mv ∧ t.ram = s.ram ∧
      (inputBand mv > s.pwr.band → (blk t pgPwr).errStat.getLsbD 12 = true ∧ { ring := 0, kind := 0x48, value := mv / 10 } ∈ t.evq) ∧
      (inputBand mv ≤ s.pwr.band → (blk t pgPwr).errStat = (blk s pgPwr).errStat ∧ t.evq = s.evq) ∧
      ∀ n, n < 16 → railFailed s n = false → railCode t n = if inputBand mv = 2 then 0 else railCode s n := by
  have hinput : regF (bandKept s mv) pgPwr 0x094 31 16 = mv / 10 := bandShown_input s hb
  have hram : (bandKept s mv).ram = s.ram :=
    (((MemFrom.refl s).setRegF.opt (c := inputBand mv > s.pwr.band) (·.errSet.raise)).setPwr.same rfl).1
  have hworse : inputBand mv > s.pwr.band → (blk (bandKept s mv) pgPwr).errStat.getLsbD 12 = true ∧
      { ring := 0, kind := 0x48, value := mv / 10 } ∈ (bandKept s mv).evq := bandShown_worse
  have hquiet : inputBand mv ≤ s.pwr.band →
      (blk (bandKept s mv) pgPwr).errStat = (blk s pgPwr).errStat ∧ (bandKept s mv).evq = s.evq := bandShown_quiet
  subst ht
  by_cases h2 : inputBand mv = 2
  · have hR := codesOnly_railsTo (fun _ _ => 0) (bandKept s mv)
    obtain ⟨hstat, hevq⟩ := railsTo_quiet (fun _ _ => 0) (bandKept s mv)
    rw [if_pos h2, hstat, hevq, hR.regF (by decide)]
    refine ⟨hinput, congrArg Pwr.band hR.pwr, hR.ram.trans hram, hworse, hquiet, fun n hn hf => ?_⟩
    have hf' : railFailed (bandKept s mv) n = false := by
      rw [← hf, railFailed, railFailed, supplyReg_core hn]
      exact congrArg (fun k => decide (k = 1)) (regF_bandShown s mv 6 6 (by omega))
    rw [if_pos h2, railCode_railsTo (fun _ _ _ _ _ => rfl) hn _ hf']
  · rw [if_neg h2]
    refine ⟨hinput, rfl, hram, hworse, hquiet, fun n hn _ => ?_⟩
    rw [if_neg h2]
    exact regF_bandShown s mv 4 0 (by omega)

/-! Rail faults (R457, R40, R18). -/

/-- A fault reaches a block that is not OFF, FAILED or RETIRED. -/
def railFails (s : State) (pg : Nat) : State :=
  if (blk s pg).st = .off || (blk s pg).st = .failed || (blk s pg).st = .retired then s else failBlock s pg

theorem Stands.railFails (h : Stands s t) (pg : Nat) : Stands s (railFails t pg) := h.optElse (·.failBlock pg)

/-- Every block of a list that a fault reaches fails. -/
theorem foldl_railFails {pg : Nat} {xs : List Nat} (hm : pg ∈ xs) (s : State) (ho : (blk s pg).st ≠ .off) (hr : (blk s pg).st ≠ .retired) :
    (blk (xs.foldl railFails s) pg).st = .failed := by
  refine foldl_reaches (fun u => (blk u pg).st = .failed) (fun u => (blk u pg).st ≠ .off ∧ (blk u pg).st ≠ .retired) hm
    (fun u hu => ?_) (fun u x hu => ((Stands.refl u).railFails x).failed pg hu) (fun x _ hx u hu => ?_) s ⟨ho, hr⟩
  · obtain ⟨ho, hr⟩ := hu
    unfold railFails
    by_cases hf : (blk u pg).st = .failed
    · rw [if_pos (by simp [hf])]
      exact hf
    · rw [if_neg (by simp [ho, hf, hr])]
      exact failBlock_st u pg
  · unfold railFails
    split
    · exact hu
    · rwa [st_failBlock_ne u (Ne.symm hx)]

/-- The supply is off, after its blocks have failed and the fault is recorded. -/
def supplyOff (s : State) (n : Nat) : State := setRegF (if n < 16 then setCode s n 0 else s) pgPwr (supplyReg n) 6 6 1

theorem Stands.supplyOff (h : Stands s t) (n : Nat) : Stands s (supplyOff t n) := (h.opt (·.setRegF _ _ _ _ _)).setRegF _ _ _ _ _

theorem railFault_eq (hn : n < 20) (hf : railFailed s n = false) : railFault s n =
    leaveService (raise (supplyOff (errSet ((supplyPages n).foldl railFails s) pgPwr 11 (supplyInfo n)) n)
      { ring := 0, kind := 0x47, info := supplyInfo n }) := by
  unfold railFault
  rw [if_neg (by simp [hn, hf])]
  rfl

theorem supplyInfo_eq (n : Nat) : supplyInfo n = n := by
  unfold supplyInfo
  split <;> omega

/-- What a rail fault comes to. -/
theorem railFault_spec (hn : n < 20) (hf : railFailed s n = false) (ht : railFault s n = t) :
    railFailed t n = true ∧ (blk t pgPwr).errStat.getLsbD 11 = true ∧ { ring := 0, kind := 0x47, info := n } ∈ t.evq ∧ t.leftService = true ∧
      (∀ pg ∈ supplyPages n, (blk s pg).st ≠ .off → (blk s pg).st ≠ .failed → (blk s pg).st ≠ .retired → (blk t pg).st = .failed) ∧
      t.ram = s.ram := by
  let s1 := (supplyPages n).foldl railFails s
  let s2 := errSet s1 pgPwr 11 n
  let s3 := raise (supplyOff s2 n) { ring := 0, kind := 0x47, info := n }
  have heq : leaveService s3 = t := by
    rw [← ht, railFault_eq hn hf, supplyInfo_eq]
  have hst : Stands s2 (leaveService s3) := (((Stands.refl s2).supplyOff n).raise _).leaveService
  have hst3 : Stands s3 (leaveService s3) := (Stands.refl s3).leaveService
  have hram : t.ram = s.ram := ht ▸ ((MemFrom.refl s).railFault.same rfl).1
  rw [← heq] at hram ⊢
  refine ⟨decide_eq_true ?_, hst.bits _ _ (errSet_bit s1 pgPwr n (by decide)), hst3.told _ (mem_raise _ _), leaveService_left s3,
    fun pg hpg ho _ hr => hst.failed pg ?_, hram⟩
  · exact (regF_leaveService s3 6 6 (.inl (by decide))).trans (regF_setRegF_same _ pgPwr _ 6 6 1 (by decide) (by decide))
  · exact (st_errSet s1 pgPwr 11 n pg).trans (foldl_railFails hpg s ho hr)

/-! Droops and phases (R457, R485). -/

/-- An excursion that is new counts. -/
def droopCounted (s : State) (n : Nat) : State := if thas s.pwr.droops n then s else countDroop s

theorem droopCounted_keeps (s : State) (n : Nat) : (droopCounted s n).pwr = s.pwr ∧ OnlyPage s (droopCounted s n) pgPwr ∧
    (∀ x, (blk (droopCounted s n) x).st = (blk s x).st) := by
  unfold droopCounted
  split
  · exact ⟨rfl, onlyPage_refl s pgPwr, fun _ => rfl⟩
  · exact ⟨rfl, onlyPage_modBlk s pgPwr _, st_setReg s pgPwr _ _⟩

theorem supplyReg_ge (n : Nat) : 0x100 ≤ supplyReg n := by
  unfold supplyReg
  split <;> omega

theorem railFailed_droopCounted (s : State) (m n : Nat) : railFailed (droopCounted s m) n = railFailed s n := by
  have hne := supplyReg_ge n
  unfold droopCounted
  split
  · rfl
  · exact congrArg (fun k => decide (k = 1)) (regF_setRegF_ne s _ _ _ _ _ (.inr (by omega)))

theorem droopCounted_count (s : State) (n : Nat) : regF (droopCounted s n) pgPwr 0x0A8 15 0 =
    if thas s.pwr.droops n then regF s pgPwr 0x0A8 15 0 else min 0xFFFF (regF s pgPwr 0x0A8 15 0 + 1) := by
  unfold droopCounted
  split
  · rfl
  · exact (regF_bumpF_same s pgPwr 0x0A8 15 0 1 (by decide) (by decide)).trans (satAdd_one _ _ (Nat.le_of_lt_succ (bits_lt _ 15 0)))

/-- A phase less of a supply. -/
def phaseLess (s : State) (n : Nat) : State := setPwr s { s.pwr with phases := tput s.pwr.phases n (tgetD s.pwr.phases n 0 + 1) }

section
variable (hp : powered s = true) (hn : n < 20) (hf : railFailed s n = false)
include hp hn hf

theorem exec_railDroop (h : mv < 520) : exec (.railDroop n mv) s =
    .next (if mv < 450 then railFault (droopCounted s n) n
      else setPwr (droopCounted s n) { (droopCounted s n).pwr with droops := tput (droopCounted s n).pwr.droops n mv }) :=
  congrArg Host.Outcome.next (if_neg (by simp [hp, hf]; omega))

theorem exec_phaseLost : exec (.phaseLost n) s =
    .next (if tgetD s.pwr.phases n 0 + 1 ≥ 4 then railFault (phaseLess s n) n
      else raise (phaseLess s n) { ring := 0, kind := 0x66, value := 2 - (tgetD s.pwr.phases n 0 + 1), info := supplyInfo n }) :=
  congrArg Host.Outcome.next (if_neg (by simp [hp, hf]; omega))

end

/-- Settles O43. -/
theorem theInputAndTheSupplies : Obligations.TheInputAndTheSupplies := by
  unfold Obligations.TheInputAndTheSupplies
  intro s
  refine ⟨⟨_, rfl, powerOff_leaves s⟩, fun hb => ⟨_, congrArg Host.Outcome.next (if_pos hb), powerOff_leaves s⟩,
    ⟨_, rfl, rfl, rfl, rfl, rfl⟩, fun n => ⟨_, rfl, ?back, rfl, rfl⟩, fun hp => ⟨fun mv => ⟨fun hb => ?off, fun hb => ?excursion⟩,
    fun n mv hn hf h => ?deep, fun n mv hn hf hl h => ?droop, fun n hn hf => ⟨?fault, fun hk => ?lastPhase, fun hk => ?phase⟩⟩⟩
  case back =>
    change (tget? (tdel s.pwr.droops n) n).isSome = false
    rw [tget?_tdel_same]
    rfl
  case off => exact ⟨_, exec_inputExcursion_off hp hb, powerOff_leaves s⟩
  case excursion => exact ⟨_, exec_inputExcursion hp hb, bandKept_spec s hb rfl⟩
  case deep =>
    obtain ⟨-, ⟨-, hram, -⟩, hst⟩ := droopCounted_keeps s n
    obtain ⟨hfail, hbit, hev, hleft, hblocks, hmem⟩ := railFault_spec hn ((railFailed_droopCounted s n n).trans hf) rfl
    refine ⟨_, (exec_railDroop hp hn hf (by omega)).trans (congrArg _ (if_pos h)), hfail, hbit, hev, hleft, fun pg hpg => ?_, hmem.trans hram⟩
    rw [← hst pg]
    exact hblocks pg hpg
  case droop =>
    have hcount := droopCounted_count s n
    obtain ⟨-, hpage, -⟩ := droopCounted_keeps s n
    exact ⟨_, (exec_railDroop hp hn hf h).trans (congrArg _ (if_neg (by omega))), tget?_tput_same _ _ _, hcount, hpage⟩
  case fault => exact ⟨_, congrArg Host.Outcome.next (if_pos hp), railFault_spec hn hf rfl⟩
  case lastPhase =>
    exact ⟨_, (exec_phaseLost hp hn hf).trans (congrArg _ (if_pos (by omega))), railFault_spec (s := phaseLess s n) hn hf rfl⟩
  case phase =>
    refine ⟨_, (exec_phaseLost hp hn hf).trans (congrArg _ (if_neg (by omega))), tget?_tput_same _ _ _, ?_, rfl, rfl⟩
    rw [supplyInfo_eq, show 2 - (tgetD s.pwr.phases n 0 + 1) = 1 - tgetD s.pwr.phases n 0 by omega]
    rfl

end Sys2Proof.Laws
end

