-- ==== Sys2Proof/Proofs/Takeover.lean ====
section
/-!
SUPPORT. The failure of a guide cluster and the takeover by the next one (R488 to R490), the choice between oscillators (R486).
-/
namespace Sys2Proof.Laws
open Sys2Proof.Machine Sys2Proof.Safety

variable {s t u : State} {c d : Nat}

/-! Clusters and their pages. -/

theorem pgGde_ne {c d : Nat} (h : c ≠ d) : pgGde c ≠ pgGde d := by
  unfold pgGde dieBase
  omega

theorem pgGde_ne_pgDbg (d : Nat) : pgGde d ≠ pgDbg := by
  unfold pgGde dieBase pgDbg
  omega

theorem gcPath_ne (hc : c < 4) (hd : d < 4) (h : c ≠ d) : gcPath c ≠ gcPath d := by
  intro e
  have hv : c % 4 = d % 4 := congrArg Fin.val (Path.gc.inj e)
  omega

/-- The cluster that takes over is another one of the four, in service. -/
theorem nextCluster_some (h : nextCluster s d = some c) : c < 4 ∧ c ≠ d := by
  have hm := List.mem_of_find?_eq_some h
  simp only [List.map_cons, List.map_nil, List.mem_cons, List.not_mem_nil, or_false] at hm
  omega

/-- The next cluster depends on the other clusters alone. -/
theorem nextCluster_congr (h : ∀ x, x ≠ d → clusterUp t x = clusterUp s x) : nextCluster t d = nextCluster s d := by
  unfold nextCluster
  simp only [List.map_cons, List.map_nil, List.find?_cons, List.find?_nil]
  rw [h ((d + 1) % 4) (by omega), h ((d + 2) % 4) (by omega), h ((d + 3) % 4) (by omega)]

/-! The failure of a cluster. -/

/-- From `s` to `t` the block of page `pg` has failed, errors are reported and operations have ended: other blocks are in service as
before, and registers and the guide's own state are as before. -/
structure FailsAlone (s t : State) (pg : Nat) : Prop where
  stands : Stands s t
  failed : (blk t pg).st = .failed
  others : ∀ x, x ≠ pg → (blk t x).st.inService = (blk s x).st.inService
  regs   : ∀ x off, x ≠ pgDbg → regW t x off = regW s x off
  guide  : t.guide = s.guide

theorem failsAlone_failBlock (s : State) (pg : Nat) : FailsAlone s (failBlock s pg) pg :=
  ⟨(Stands.refl s).failBlock pg, failBlock_st s pg, fun _ h => congrArg BState.inService (st_failBlock_ne s h),
    fun _ off h => regW_failBlock s pg h off, failBlock_guide s pg⟩

section
variable {pg : Nat} (h : FailsAlone s t pg)
include h

theorem FailsAlone.errSet (x bit addr : Nat) : FailsAlone s (errSet t x bit addr) pg where
  stands       := h.stands.errSet x bit addr
  failed       := (st_errSet t x bit addr pg).trans h.failed
  others y hy  := (congrArg BState.inService (st_errSet t x bit addr y)).trans (h.others y hy)
  regs y off hy := (regW_errSet t x bit addr hy off).trans (h.regs y off hy)
  guide        := errSet_guide.trans h.guide

theorem FailsAlone.raise (e : Ev) : FailsAlone s (raise t e) pg :=
  ⟨h.stands.raise e, h.failed, h.others, h.regs, h.guide⟩

theorem FailsAlone.opOver (x res : Nat) : FailsAlone s (opOver t x res) pg where
  stands       := h.stands.opOver x res
  failed       := ((Stands.refl t).opOver x res).failed pg h.failed
  others y hy  := (opOver_inService t x res y).trans (h.others y hy)
  regs y off hy := (regW_opOver t x res hy off).trans (h.regs y off hy)
  guide        := (opOver_guide t x res).trans h.guide

end

/-- The state in which a cluster has failed, and an update under way has ended, before the takeover (R497). -/
def clusterDown (s : State) (d : Nat) : State :=
  let pg := pgGde s.guide.dev
  let s1 := failBlock s (pgGde d)
  if (blk s pg).opRun then fwEvent (errSet (if s.guide.dev = d then s1 else opOver s1 pg 2) pg 10 d) (blk s pg).opArg true else s1

theorem clusterFail_eq (s : State) (d : Nat) : clusterFail s d = takeover (clusterDown s d) d := rfl

theorem clusterDown_failsAlone (s : State) (d : Nat) : FailsAlone s (clusterDown s d) (pgGde d) := by
  have h1 := failsAlone_failBlock s (pgGde d)
  have h2 : FailsAlone s (if s.guide.dev = d then failBlock s (pgGde d) else opOver (failBlock s (pgGde d)) (pgGde s.guide.dev) 2)
      (pgGde d) := by
    split
    · exact h1
    · exact h1.opOver _ 2
  unfold clusterDown
  dsimp only
  split
  · exact (h2.errSet _ _ _).raise _
  · exact h1

theorem nextCluster_clusterDown (s : State) (d : Nat) : nextCluster (clusterDown s d) d = nextCluster s d :=
  nextCluster_congr fun _ hx => (clusterDown_failsAlone s d).others _ (pgGde_ne hx)

/-! The takeover. -/

/-- A stop that cluster `d` holds passes to cluster `c`. -/
def passOn (d c : Nat) (b : Blk) : Blk := if b.owner = some (gcPath d) then { b with owner := some (gcPath c) } else b

/-- Duties and stops of cluster `d` pass to cluster `c` (R489). -/
def handedOver (s : State) (d c : Nat) : State :=
  let s1 := setGuide s { s.guide with
    duty := s.guide.duty.map (fun x => if x = d then c else x), dev := if s.guide.dev = d then c else s.guide.dev }
  { s1 with blks := s1.blks.map (fun b => (b.1, passOn d c b.2)) }

/-- A cluster's page counts a takeover. -/
def countTakeover (s : State) (c : Nat) : State := setRegF s (pgGde c) 0x080 31 16 ((regF s (pgGde c) 0x080 31 16 + 1) % 65536)

theorem takeover_some (h : nextCluster s d = some c) : takeover s d =
    raise (errSet (countTakeover (handedOver s d c) c) (pgGde c) 9 d)
      { ring := 0, kind := 0x69, info := d + 4 * c + (if s.guide.dev = d then 16 else 0) } := by
  unfold takeover
  rw [h]
  rfl

theorem takeover_none (h : nextCluster s d = none) : takeover s d = leaveService s := by
  unfold takeover
  rw [h]

theorem owner_defBlk (b : Bool) (x : Nat) : (defBlk b x).owner = none := by
  unfold defBlk
  split
  · split
    · split <;> rfl
    · rfl
  · rfl

theorem passOn_of_none {b : Blk} (h : b.owner = none) : passOn d c b = b := if_neg (by simp [h])

theorem blk_handedOver (s : State) (d c x : Nat) : blk (handedOver s d c) x = passOn d c (blk s x) := by
  have hmap := tget?_mapKey (fun _ b => passOn d c b) s.blks x
  unfold blk tgetD
  change (tget? (s.blks.map fun b => (b.1, passOn d c b.2)) x).getD (defBlk s.booted x) = _
  rw [hmap]
  cases tget? s.blks x with
  | none => exact (passOn_of_none (owner_defBlk _ _)).symm
  | some b => rfl

theorem passOn_keeps (d c : Nat) (b : Blk) : (passOn d c b).st = b.st ∧ (passOn d c b).regs = b.regs ∧ (passOn d c b).errStat = b.errStat := by
  unfold passOn
  split <;> exact ⟨rfl, rfl, rfl⟩

theorem passOn_owner (hn : gcPath c ≠ gcPath d) (b : Blk) : (passOn d c b).owner ≠ some (gcPath d) := by
  unfold passOn
  split
  · exact fun h => hn (Option.some.inj h)
  · assumption

theorem Stands.handedOver (h : Stands s t) (d c : Nat) : Stands s (handedOver t d c) := by
  refine h.trans ⟨fun _ => id, fun x b hb => ?_, fun x hx => ?_⟩
  · rwa [blk_handedOver, (passOn_keeps d c _).2.2]
  · rwa [blk_handedOver, (passOn_keeps d c _).1]

theorem Stands.takeover (h : Stands s t) (d : Nat) : Stands s (takeover t d) := by
  cases hn : nextCluster t d with
  | none => exact takeover_none hn ▸ h.leaveService
  | some c => exact takeover_some hn ▸ (((h.handedOver d c).setRegF _ _ _ _ _).errSet _ _ _).raise _

theorem Stands.clusterFail (h : Stands s t) (d : Nat) : Stands s (clusterFail t d) :=
  (h.trans (clusterDown_failsAlone t d).stands).takeover d

theorem clusterFail_coresBad (s : State) (d : Nat) : (clusterFail s d).guide.coresBad = s.guide.coresBad := by
  have hdown : (clusterDown s d).guide.coresBad = s.guide.coresBad := congrArg Guide.coresBad (clusterDown_failsAlone s d).guide
  rw [clusterFail_eq, ← hdown]
  cases hn : nextCluster (clusterDown s d) d with
  | none => rw [takeover_none hn, leaveService_guide]
  | some c =>
    rw [takeover_some hn, raise_guide, errSet_guide]
    rfl

/-- What the next cluster has taken over from cluster `d`, in terms of the state before. -/
structure Handed (s t : State) (d c : Nat) : Prop where
  failed : (blk t (pgGde d)).st = .failed
  duties : ∀ x, x < 4 → dutyOf t x = if dutyOf s x = d then c else dutyOf s x
  told   : ∃ e ∈ t.evq, e.kind = 0x69 ∧ e.info = d + 4 * c + (if s.guide.dev = d then 16 else 0)
  bit    : (blk t (pgGde c)).errStat.getLsbD 9 = true
  count  : regF t (pgGde c) 0x080 31 16 = (regF s (pgGde c) 0x080 31 16 + 1) % 65536
  stops  : ∀ x, (blk t x).owner ≠ some (gcPath d)
  ram    : t.ram = s.ram

theorem Handed.all (h : Handed s t d c) : (blk t (pgGde d)).st = .failed ∧
    (∀ x, x < 4 → dutyOf t x = if dutyOf s x = d then c else dutyOf s x) ∧
    (∃ e ∈ t.evq, e.kind = 0x69 ∧ e.info = d + 4 * c + (if s.guide.dev = d then 16 else 0)) ∧ (blk t (pgGde c)).errStat.getLsbD 9 = true ∧
    regF t (pgGde c) 0x080 31 16 = (regF s (pgGde c) 0x080 31 16 + 1) % 65536 ∧ (∀ x, (blk t x).owner ≠ some (gcPath d)) ∧ t.ram = s.ram :=
  ⟨h.failed, h.duties, h.told, h.bit, h.count, h.stops, h.ram⟩

/-- A takeover after changes that keep duties, memory and the next cluster's count. -/
theorem Handed.after (h : Handed u t d c) (hduty : u.guide.duty = s.guide.duty) (hdev : u.guide.dev = s.guide.dev)
    (hcount : regF u (pgGde c) 0x080 31 16 = regF s (pgGde c) 0x080 31 16) (hram : u.ram = s.ram) : Handed s t d c where
  failed := h.failed
  duties x hx := by
    have e : dutyOf u x = dutyOf s x := congrArg (fun l => List.getD l x x) hduty
    rw [h.duties x hx, e]
  told   := hdev ▸ h.told
  bit    := h.bit
  count  := hcount ▸ h.count
  stops  := h.stops
  ram    := h.ram.trans hram

theorem dutyOf_handedOver (s : State) {x : Nat} (hx : x < s.guide.duty.length) :
    dutyOf (handedOver s d c) x = if dutyOf s x = d then c else dutyOf s x := by
  unfold dutyOf
  change (s.guide.duty.map (fun x => if x = d then c else x)).getD x x = _
  rw [List.getD_eq_getElem _ _ (by simpa using hx), List.getD_eq_getElem _ _ hx, List.getElem_map]

theorem regF_handedOver (s : State) (d c x off hi lo : Nat) : regF (handedOver s d c) x off hi lo = regF s x off hi lo := by
  have hr : (blk (handedOver s d c) x).regs = (blk s x).regs := by rw [blk_handedOver, (passOn_keeps d c _).2.1]
  exact congrArg (fun w => fld w hi lo) (regW_congr hr rfl off)

theorem regF_countTakeover (s : State) (c : Nat) :
    regF (countTakeover s c) (pgGde c) 0x080 31 16 = (regF s (pgGde c) 0x080 31 16 + 1) % 65536 := by
  unfold countTakeover
  rw [regF_setRegF_same s _ _ _ _ _ (by decide) (by decide)]
  exact Nat.mod_mod _ _

/-- The failure of a cluster with another in service. -/
theorem clusterFail_handed (hd : d < 4) (hlen : 4 ≤ s.guide.duty.length) (hc : nextCluster s d = some c) :
    Handed s (clusterFail s d) d c := by
  let u := clusterDown s d
  let v := countTakeover (handedOver u d c) c
  have hdown := clusterDown_failsAlone s d
  obtain ⟨hc4, hne⟩ := nextCluster_some hc
  have heq : clusterFail s d = raise (errSet v (pgGde c) 9 d)
      { ring := 0, kind := 0x69, info := d + 4 * c + (if u.guide.dev = d then 16 else 0) } :=
    takeover_some ((nextCluster_clusterDown s d).trans hc)
  have hram : (clusterFail s d).ram = s.ram := ((MemFrom.refl s).clusterFail.same rfl).1
  have hst : Stands u (clusterFail s d) := (Stands.refl u).takeover d
  have howner : ∀ x, (blk (errSet v (pgGde c) 9 d) x).owner = (blk (handedOver u d c) x).owner := fun x =>
    (errSet_proj (·.owner) v (pgGde c) 9 d x).trans (setReg_proj (·.owner) (handedOver u d c) (pgGde c) 0x080 _ x)
  refine ⟨hst.failed _ hdown.failed, fun x hx => ?_, ⟨_, heq ▸ mem_raise _ _, rfl, ?_⟩, heq ▸ errSet_bit v _ _ (by decide), ?_,
    fun x => ?_, hram⟩
  · have hguide : (clusterFail s d).guide = (handedOver u d c).guide := by
      rw [heq, raise_guide, errSet_guide]
      rfl
    have hlt : x < u.guide.duty.length := by
      rw [hdown.guide]
      omega
    have hduty : dutyOf u x = dutyOf s x := congrArg (fun g : Guide => g.duty.getD x x) hdown.guide
    rw [← hduty, ← dutyOf_handedOver u hlt]
    exact congrArg (fun g : Guide => g.duty.getD x x) hguide
  · rw [hdown.guide]
  · rw [heq, regF_raise, regF_errSet v _ _ _ (pgGde_ne_pgDbg c), regF_countTakeover, regF_handedOver]
    exact congrArg (fun w => (fld w 31 16 + 1) % 65536) (hdown.regs (pgGde c) 0x080 (pgGde_ne_pgDbg c))
  · rw [heq, blk_raise, howner x, blk_handedOver]
    exact passOn_owner (gcPath_ne hc4 hd hne) _

/-- The failure of the last cluster in service. -/
theorem clusterFail_last (h : nextCluster s d = none) :
    (clusterFail s d).leftService = true ∧ (blk (clusterFail s d) (pgGde d)).st = .failed := by
  have heq : clusterFail s d = leaveService (clusterDown s d) := takeover_none ((nextCluster_clusterDown s d).trans h)
  rw [heq]
  exact ⟨leaveService_left _, (Stands.refl _).leaveService.failed _ (clusterDown_failsAlone s d).failed⟩

end Sys2Proof.Laws
end

