-- ==== Sys2Proof/Proofs/GuideClusters.lean ====
section
/-!
SUPPORT. Guide cores, the heartbeat of a cluster and the oscillators, for O52 (R486, R488, R489).
-/
namespace Sys2Proof.Laws
open Sys2Proof.Machine Sys2Proof.Safety

variable {s t : State} {c d core : Nat}

/-! Guide cores (R488). -/

/-- The core is listed as retired. -/
def coreRetired (s : State) (d core : Nat) : State :=
  setGuide s { s.guide with coresBad := tput s.guide.coresBad d (Nat.lor (tgetD s.guide.coresBad d 0) (2 ^ core)) }

theorem regF_coreRetired (s : State) (d core x off hi lo : Nat) : regF (coreRetired s d core) x off hi lo = regF s x off hi lo := rfl

/-- The spare core takes the place of the failed one, or the cluster has one core less. -/
def coreTaken (s : State) (d core : Nat) : State :=
  if coreSpare s d then setRegF (coreRetired s d core) (pgGde d) 0x080 11 11 0
  else setRegF (coreRetired s d core) (pgGde d) 0x080 10 8 (coresUp s d - 1)

def coreTold (s : State) (d core : Nat) : State :=
  raise (errSet (coreTaken s d core) (pgGde d) 8 core) { ring := 0, kind := 0x6A, info := d + 4 * core + 16 }

def coreListed (s : State) (d core : Nat) : State :=
  cardPut (coreTold s d core) ctRetired (blkId (pgGde d)) (Nat.lor (tgetD s.guide.coresBad d 0) (2 ^ core))

/-- The state after a core has failed, before a cluster with too few fails. -/
def coreLost (s : State) (d core : Nat) : State :=
  if lowCore s d = some core && (lowCore (coreListed s d core) d).isSome then showCore (coreListed s d core) d else coreListed s d core

theorem exec_guideCoreFail (hd : d < 4) (hf : fwUp s = true) (hu : clusterUp s d = true) (hc : core < 4)
    (hb : (tgetD s.guide.coresBad d 0).testBit core = false) : exec (.guideCoreFail d core) s =
      .next (if coresUp (coreLost s d core) d < 3 then clusterFail (coreLost s d core) d else coreLost s d core) :=
  congrArg Host.Outcome.next (if_neg (by simp [hf, hu, hb]; omega))

theorem Stands.showCore (h : Stands s t) (d : Nat) : Stands s (showCore t d) := by
  unfold Machine.showCore
  exact (h.upd (u := (takeFree (takeFree (takeFree (takeFree t).2).2).2).2)).modBlk _ _

theorem regW_showCore (s : State) (d x off : Nat) : regW (showCore s d) x off = regW s x off := by
  unfold showCore
  exact regW_modBlk (takeFree (takeFree (takeFree (takeFree s).2).2).2).2 _ _ x off

theorem st_showCore (s : State) (d x : Nat) : (blk (showCore s d) x).st = (blk s x).st := by
  unfold showCore
  exact st_modBlk (takeFree (takeFree (takeFree (takeFree s).2).2).2).2 _ _ x

theorem coreLost_stands (s : State) (d core : Nat) : Stands (coreTold s d core) (coreLost s d core) :=
  ((Stands.refl _).cardPut _ _ _).opt (·.showCore d)

/-- The guide's own state changes in the list of retired cores alone. -/
theorem coreLost_guide (s : State) (d core : Nat) : (coreLost s d core).guide = (coreRetired s d core).guide := by
  have htaken : (coreTaken s d core).guide = (coreRetired s d core).guide := by
    unfold coreTaken
    split <;> rfl
  have hlisted : (coreListed s d core).guide = (coreRetired s d core).guide := errSet_guide.trans htaken
  unfold coreLost
  split <;> exact hlisted

/-- Blocks keep their states while a core is replaced. -/
theorem st_coreLost (s : State) (d core x : Nat) : (blk (coreLost s d core) x).st = (blk s x).st := by
  have htaken : (blk (coreTaken s d core) x).st = (blk s x).st := by
    unfold coreTaken
    split <;> exact st_setReg (coreRetired s d core) _ _ _ x
  have hlisted : (blk (coreListed s d core) x).st = (blk s x).st := (st_errSet _ _ _ _ _).trans htaken
  unfold coreLost
  split
  · exact (st_showCore _ _ _).trans hlisted
  · exact hlisted

theorem regF_coreLost (s : State) (d core : Nat) {x : Nat} (hx : x ≠ pgDbg) (off hi lo : Nat) :
    regF (coreLost s d core) x off hi lo = regF (coreTaken s d core) x off hi lo := by
  have hlisted : regW (coreListed s d core) x off = regW (coreTaken s d core) x off := regW_errSet _ _ _ _ hx off
  refine congrArg (fun w => fld w hi lo) ?_
  unfold coreLost
  split
  · exact (regW_showCore _ _ _ _).trans hlisted
  · exact hlisted

theorem coreLost_ram (s : State) (d core : Nat) : (coreLost s d core).ram = s.ram :=
  ((((MemFrom.refl s).setGuide.ifs (·.setRegF) (·.setRegF)).errSet.raise.cardPut.opt (·.showCore)).same rfl).1

/-- With a spare core, it takes the failed one's place. -/
theorem coreLost_spare (hs : coreSpare s d = true) :
    coreSpare (coreLost s d core) d = false ∧ coresUp (coreLost s d core) d = coresUp s d := by
  have htaken : coreTaken s d core = setRegF (coreRetired s d core) (pgGde d) 0x080 11 11 0 := if_pos hs
  unfold coreSpare coresUp
  rw [regF_coreLost s d core (pgGde_ne_pgDbg d), regF_coreLost s d core (pgGde_ne_pgDbg d), htaken,
    regF_setRegF_same _ _ _ _ _ _ (by decide) (by decide), regF_setRegF_field _ _ _ _ _ _ _ _ (by decide) (by decide) (by decide),
    regF_coreRetired]
  exact ⟨by decide, rfl⟩

/-- Without one the cluster has one core less. -/
theorem coreLost_fewer (hs : coreSpare s d = false) : coresUp (coreLost s d core) d = coresUp s d - 1 := by
  have htaken : coreTaken s d core = setRegF (coreRetired s d core) (pgGde d) 0x080 10 8 (coresUp s d - 1) := if_neg (by simp [hs])
  have hlt : coresUp s d < 8 := bits_lt _ 10 8
  unfold coresUp at hlt ⊢
  rw [regF_coreLost s d core (pgGde_ne_pgDbg d), htaken, regF_setRegF_same _ _ _ _ _ _ (by decide) (by decide)]
  exact Nat.mod_eq_of_lt (by unfold coresUp; omega)

/-- The failure of a core is recorded and told. -/
def CoreTold (t : State) (d core : Nat) : Prop := (blk t (pgGde d)).errStat.getLsbD 8 = true ∧
  { ring := 0, kind := 0x6A, info := d + 4 * core + 16 } ∈ t.evq ∧ (tgetD t.guide.coresBad d 0).testBit core = true

theorem coreLost_told (s : State) (d core : Nat) : CoreTold (coreLost s d core) d core := by
  have hst := coreLost_stands s d core
  refine ⟨hst.bits _ _ (errSet_bit (coreTaken s d core) _ _ (by decide)), hst.told _ (mem_raise _ _), ?_⟩
  rw [coreLost_guide]
  change (tgetD (tput s.guide.coresBad d (tgetD s.guide.coresBad d 0 ||| 2 ^ core)) d 0).testBit core = true
  rw [tgetD_tput_same, Nat.testBit_or, Nat.testBit_two_pow_self, Bool.or_true]

/-- It stands when the cluster then fails. -/
theorem CoreTold.clusterFail (h : CoreTold s d core) : CoreTold (clusterFail s d) d core := by
  obtain ⟨hbit, hev, hbad⟩ := h
  have hst := (Stands.refl s).clusterFail d
  exact ⟨hst.bits _ _ hbit, hst.told _ hev, (clusterFail_coresBad s d).symm ▸ hbad⟩

/-- The cluster fails for want of cores, and the next one takes over. -/
theorem coreLost_handed (hd : d < 4) (hlen : 4 ≤ s.guide.duty.length) (hc : nextCluster s d = some c) :
    Handed s (clusterFail (coreLost s d core) d) d c := by
  have hguide := coreLost_guide s d core
  have hup : ∀ x, clusterUp (coreLost s d core) x = clusterUp s x := fun x => congrArg BState.inService (st_coreLost s d core _)
  have hduty : (coreLost s d core).guide.duty = s.guide.duty := by rw [hguide]; rfl
  have hdev : (coreLost s d core).guide.dev = s.guide.dev := by rw [hguide]; rfl
  have hnext : nextCluster (coreLost s d core) d = some c := (nextCluster_congr fun x _ => hup x).trans hc
  have hne := (nextCluster_some hc).2
  refine (clusterFail_handed hd (hduty ▸ hlen) hnext).after hduty hdev ?_ (coreLost_ram s d core)
  rw [regF_coreLost s d core (pgGde_ne_pgDbg c)]
  unfold coreTaken
  split <;> rw [regF_setRegF_ne _ _ _ _ _ _ (.inl (pgGde_ne hne)), regF_coreRetired]

/-! Heartbeats and takeovers (R489, R526). -/

/-- A heartbeat has arrived. -/
def beaten (s : State) (d : Nat) : State := setGuide s { s.guide with beats := tput s.guide.beats d (tgetD s.guide.beats d 0 + 1) }

theorem exec_clusterHeartbeat (hd : d < 4) (hf : fwUp s = true) (hu : clusterUp s d = true) : exec (.clusterHeartbeat d) s =
    .next (if injects (beaten s d) (pgGde d) 1 then errSet (injFire (beaten s d) (pgGde d) [8]) (pgGde d) 8 ((lowCore s d).getD 0)
      else beaten s d) :=
  congrArg Host.Outcome.next (if_neg (by simp [hf, hu]; omega))

/-- A heartbeat counts; an armed detector reports. -/
theorem clusterHeartbeat_spec (s : State) (d a : Nat) (ht : (if injects (beaten s d) (pgGde d) 1 then
      errSet (injFire (beaten s d) (pgGde d) [8]) (pgGde d) 8 a else beaten s d) = t) :
    tgetD t.guide.beats d 0 = tgetD s.guide.beats d 0 + 1 ∧ t.ram = s.ram ∧ ((blk s (pgGde d)).injArm = false → t.blks = s.blks) ∧
      ((blk s (pgGde d)).injArm = true → (blk s (pgGde d)).injSel = 1 → (blk t (pgGde d)).errStat.getLsbD 8 = true) := by
  have hram : t.ram = s.ram := ht ▸ (((MemFrom.refl s).setGuide.opt (·.injFire.errSet)).same rfl).1
  have hbeat : tgetD (beaten s d).guide.beats d 0 = tgetD s.guide.beats d 0 + 1 := tgetD_tput_same _ _ _ _
  have hinj : injects (beaten s d) (pgGde d) 1 = ((blk s (pgGde d)).injArm && (blk s (pgGde d)).injSel == 1) := rfl
  subst ht
  refine ⟨?_, hram, fun ha => ?_, fun ha hs => ?_⟩
  · split
    · rw [errSet_guide]
      exact hbeat
    · exact hbeat
  · rw [hinj, ha]
    rfl
  · rw [if_pos (by rw [hinj, ha, hs]; rfl)]
    exact errSet_bit _ _ _ (by decide)

theorem exec_guideTakeover (hd : d < 4) (hf : fwUp s = true) (hu : clusterUp s d = true) :
    exec (.guideTakeover d) s = .next (clusterFail s d) := congrArg Host.Outcome.next (if_pos (by simp [hd, hf, hu]))

/-! Oscillators (R486). -/

theorem pgPort_ne : ∀ p, p < 19 → ∀ q, q < 19 → q ≠ p → pgPort q ≠ pgPort p := by decide

theorem linkState_setLink (s : State) (p x : Nat) (h : x < 16) : linkState (setLink s p x) p = x :=
  (regF_setRegF_same s (pgPort p) 0x080 3 0 x (by decide) (by decide)).trans (Nat.mod_eq_of_lt h)

/-- A fast retrain starts at a port that is UP. -/
theorem startRetrain_up {p : Nat} (h : linkState s p = lkUp) : linkState (startRetrain s p) p = lkRetrain := by
  unfold startRetrain
  rw [if_neg (not_not.2 h)]
  exact (regF_setRegF_ne _ _ _ _ 3 0 (.inr (by decide))).trans (linkState_setLink _ p lkRetrain (by decide))

theorem startRetrain_ne {p q : Nat} (hpg : pgPort q ≠ pgPort p) : linkState (startRetrain s p) q = linkState s q := by
  unfold startRetrain
  split
  · rfl
  · exact (regF_setRegF_ne _ _ _ _ 3 0 (.inl hpg)).trans (regF_setRegF_ne _ _ _ _ 3 0 (.inl hpg))

theorem startRetrain_keeps (s : State) (p : Nat) : (startRetrain s p).leftService = s.leftService ∧ (startRetrain s p).guide = s.guide := by
  unfold startRetrain
  split <;> exact ⟨rfl, rfl⟩

/-- A port that retrains is not started again. -/
theorem startRetrain_stays {p : Nat} (q : Nat) (h : linkState s p = lkRetrain) : linkState (startRetrain s q) p = lkRetrain := by
  by_cases hpg : pgPort p = pgPort q
  · have hq : linkState s q ≠ lkUp := by
      rw [linkState, ← hpg]
      exact fun hu => absurd (h.symm.trans hu) (by decide)
    unfold startRetrain
    rwa [if_pos hq]
  · rwa [startRetrain_ne hpg]

/-- Every port that is UP retrains. -/
theorem retrainAll_up (s : State) {p : Nat} (hp : p < 19) (h : linkState s p = lkUp) :
    linkState ((List.range 19).foldl startRetrain s) p = lkRetrain := by
  refine foldl_reaches (fun u => linkState u p = lkRetrain) (fun u => linkState u p = lkUp) (List.mem_range.2 hp)
    (fun u hu => startRetrain_up hu) (fun u q hu => startRetrain_stays q hu) (fun q hq hne u hu => ?_) s h
  rw [startRetrain_ne (pgPort_ne q (List.mem_range.1 hq) p hp (Ne.symm hne))]
  exact hu

theorem retrainAll_keeps (s : State) : ((List.range 19).foldl startRetrain s).leftService = s.leftService ∧
    ((List.range 19).foldl startRetrain s).guide = s.guide := by
  refine foldl_keeps (fun t => t.leftService = s.leftService ∧ t.guide = s.guide) _ (fun t p h => ?_) _ s ⟨rfl, rfl⟩
  obtain ⟨hl, hg⟩ := startRetrain_keeps t p
  exact ⟨hl.trans h.1, hg.trans h.2⟩

/-- What firmware finds of the oscillators, as a mask. -/
def oscFound (fail0 fail1 : Bool) : Nat := (if fail0 then 1 else 0) + (if fail1 then 2 else 0)

/-- The mask of failed oscillators is kept. -/
def oscKept (s : State) (bad : Nat) : State := setGuide s { s.guide with oscBad := bad }

/-- When only the oscillator in use has failed, the other one is used and the links retrain. -/
def oscSwitched (s : State) (bad : Nat) : State :=
  if bad.testBit s.guide.osc && bad ≠ 3 then
    (List.range 19).foldl startRetrain (setGuide (oscKept s bad) { (oscKept s bad).guide with osc := 1 - s.guide.osc })
  else oscKept s bad

/-- The loss of the oscillator in use is told. -/
def oscTold (s : State) (bad : Nat) : State :=
  if bad.testBit s.guide.osc then
    raise (oscSwitched s bad) { ring := 0, kind := 0x67, info := (oscSwitched s bad).guide.osc + (if bad = 3 then 2 else 0) }
  else oscSwitched s bad

/-- The route card is to hold it. -/
def oscListed (s : State) (bad : Nat) : State := cardPut (oscTold s bad) ctOsc 0 ((oscTold s bad).guide.osc + 2 * bad)

/-- What a comparison that has found the mask `bad` comes to. -/
def oscJudged (s : State) (bad : Nat) : State := if bad = 3 then leaveService (oscListed s bad) else oscListed s bad

theorem exec_oscCompare (s : State) (fail0 fail1 : Bool) : exec (.oscCompare fail0 fail1) s =
    .next (if !devUp s || Nat.lor s.guide.oscBad (oscFound fail0 fail1) = s.guide.oscBad then s
      else oscJudged s (Nat.lor s.guide.oscBad (oscFound fail0 fail1))) := rfl

/-- A comparison that finds failures while both oscillators were good. -/
theorem exec_oscCompare_found (hu : devUp s = true) (h0 : s.guide.oscBad = 0) {fail0 fail1 : Bool} {bad : Nat}
    (hf : oscFound fail0 fail1 = bad) (hb : bad ≠ 0) : exec (.oscCompare fail0 fail1) s = .next (oscJudged s bad) := by
  have hlor : Nat.lor 0 bad = bad := Nat.zero_or bad
  rw [exec_oscCompare, h0, hf, hlor, if_neg (by simp [hu, hb])]

theorem oscFound_masks : ∀ cur, cur < 2 → oscFound (cur == 0) (cur == 1) = 2 ^ cur ∧ oscFound (cur == 1) (cur == 0) = 2 ^ (1 - cur) ∧
    2 ^ cur ≠ 3 ∧ 2 ^ (1 - cur) ≠ 3 ∧ (2 ^ (1 - cur)).testBit cur = false := by decide

/-- The oscillator in use has failed, the other is good. -/
theorem oscJudged_inUse {bad : Nat} (h3 : bad ≠ 3) (hb : bad.testBit s.guide.osc = true) (ht : oscJudged s bad = t) :
    t.guide.osc = 1 - s.guide.osc ∧ t.guide.oscBad = bad ∧ (∃ e ∈ t.evq, e.kind = 0x67 ∧ e.info = 1 - s.guide.osc) ∧
      (∀ p, p < 19 → linkState s p = lkUp → linkState t p = lkRetrain) ∧ t.leftService = s.leftService ∧ t.ram = s.ram := by
  let u := setGuide (oscKept s bad) { (oscKept s bad).guide with osc := 1 - s.guide.osc }
  have hsw : oscSwitched s bad = (List.range 19).foldl startRetrain u := if_pos (by simp [hb, h3])
  obtain ⟨hleft, hguide⟩ := retrainAll_keeps u
  rw [← hsw] at hleft hguide
  have htold : oscTold s bad = raise (oscSwitched s bad) { ring := 0, kind := 0x67, info := (oscSwitched s bad).guide.osc + 0 } := by
    unfold oscTold
    rw [if_pos hb, if_neg h3]
  have hlisted : oscListed s bad = t := (if_neg h3).symm.trans ht
  have hram : t.ram = s.ram := by
    rw [← hlisted]
    exact ((((MemFrom.refl s).setGuide.opt fun h => h.setGuide.foldl fun _ _ h => h.startRetrain).opt (·.raise)).cardPut.same rfl).1
  have hev : { ring := 0, kind := 0x67, info := (oscSwitched s bad).guide.osc + 0 } ∈ t.evq := by
    rw [← hlisted, oscListed, htold]
    exact mem_raise _ _
  have hsame : t.guide = (oscSwitched s bad).guide ∧ t.leftService = (oscSwitched s bad).leftService ∧
      ∀ p, linkState t p = linkState (oscSwitched s bad) p := by
    rw [← hlisted, oscListed, htold]
    exact ⟨rfl, rfl, fun _ => rfl⟩
  obtain ⟨hg, hl, hlink⟩ := hsame
  rw [hg, hl, hguide, hleft]
  refine ⟨rfl, rfl, ⟨_, hev, rfl, ?_⟩, fun p hp hup => ?_, rfl, hram⟩
  · exact congrArg Guide.osc hguide
  · rw [hlink p, hsw]
    exact retrainAll_up u hp hup

/-- The oscillator that has failed is not in use. -/
theorem oscJudged_spare {bad : Nat} (h3 : bad ≠ 3) (hb : bad.testBit s.guide.osc = false) (ht : oscJudged s bad = t) :
    t.guide.osc = s.guide.osc ∧ t.guide.oscBad = bad ∧ t.evq = s.evq ∧ t.blks = s.blks ∧ t.ram = s.ram := by
  have hsw : oscSwitched s bad = oscKept s bad := if_neg (by simp [hb])
  have htold : oscTold s bad = oscKept s bad := (if_neg (by simp [hb])).trans hsw
  have hlisted : oscListed s bad = t := (if_neg h3).symm.trans ht
  rw [← hlisted, oscListed, htold]
  exact ⟨rfl, rfl, rfl, rfl, rfl⟩

/-- Both have failed. -/
theorem oscJudged_both (s : State) : (oscJudged s 3).leftService = true ∧ (oscJudged s 3).guide.oscBad = 3 := by
  have hsw : oscSwitched s 3 = oscKept s 3 := if_neg (by simp)
  have htold : (oscTold s 3).guide.oscBad = 3 := by
    unfold oscTold
    rw [hsw]
    split <;> rfl
  refine ⟨leaveService_left _, ?_⟩
  change (leaveService (oscListed s 3)).guide.oscBad = 3
  rw [leaveService_guide]
  exact htold

end Sys2Proof.Laws
end

