-- ==== Sys2Proof/Proofs/FirmwareUpdate.lean ====
section
/-!
PROOF. O52: the live firmware update, and the settled obligation.
-/
namespace Sys2Proof.Laws
open Sys2Proof.Machine Sys2Proof.Safety

variable {s t u : State} {p : Path} {who : Option Path} {tag pg o d n res : Nat}

/-! The write of GDE_UPD, a pair whose high half commits (R10, R496). -/

theorem pageIs_pgGde (hd : d < 4) : PageIs (pgGde d) ⟨.gde, 0, d⟩ := by
  have h : ∀ d, d < 4 → pgGde d < 65536 ∧ pageAt (pgGde d) = some ⟨.gde, 0, d⟩ := by decide
  exact h d hd

/-- Of a page only registers and staged halves of pairs differ. -/
def PairWritten (s t : State) (pg : Nat) : Prop := ∃ r q, t = setBlk s pg { blk s pg with regs := r, pairStage := q }

theorem PairWritten.setBlk (h : PairWritten s t pg) (r q : Tab Word) :
    PairWritten s (setBlk t pg { blk t pg with regs := r, pairStage := q }) pg := by
  obtain ⟨r', q', rfl⟩ := h
  refine ⟨r, q, ?_⟩
  rw [blk_setBlk_same]
  exact congrArg (fun b => { s with blks := b }) (tput_tput s.blks pg _ _)

theorem PairWritten.setReg (h : PairWritten s t pg) (off : Nat) (w : Word) : PairWritten s (setReg t pg off w) pg := h.setBlk _ _

theorem fieldsWrite_upd (ho : o = 0x088 ∨ o = 0x08C) (s : State) (pg v : Nat) :
    fieldsWrite s pg ⟨.gde, n, d⟩ o v = setRegF s pg o 31 0 (bits v 31 0) := by
  have hw : writable .gde o = [⟨o, 1, 31, 0, .rw, 0, false⟩] := by rcases ho with rfl | rfl <;> decide
  have hr : ∀ x, reservedVal .gde o ⟨o, 1, 31, 0, .rw, 0, false⟩ x = false := by rcases ho with rfl | rfl <;> exact fun _ => rfl
  have hn : o ≠ 0x0F0 := by omega
  rw [fieldsWrite_single (by simp) hw]
  unfold fieldWrite writeErrors
  simp [fieldRsvd, hr, fieldNew, hn]

/-- The state after the write itself, when the update starts or is refused. -/
def updWritten (s : State) (d v : Nat) : State := highCommit s (pgGde d) ⟨.gde, 0, d⟩ 0x08C (v % 2 ^ 32)

theorem updWritten_pair (s : State) (d v : Nat) : PairWritten s (updWritten s d v) (pgGde d) := by
  have hfirst : ∀ r q, PairWritten s (setBlk s (pgGde d) { blk s (pgGde d) with regs := r, pairStage := q }) (pgGde d) :=
    fun r q => ⟨r, q, rfl⟩
  unfold updWritten highCommit
  dsimp only
  rw [fieldsWrite_upd (.inr rfl)]
  split
  · rw [fieldsWrite_upd (.inl rfl)]
    exact ((hfirst _ _).setReg _ _).setReg _ _
  · exact hfirst _ _

theorem exec_fwUpdate (hd : d < 4) (ha : Access s p tag) (hs : (blk s (pgGde d)).st.silent = false) (v : Nat) :
    exec (.fwUpdate p tag d v) s = .next (fwStart (updWritten s d v) d (some p)) := by
  have hf : (fieldsAt .gde 0x08C).isEmpty = false := by decide
  have hlow : isLow .gde 0x08C = false := by decide
  have hhigh : isHigh .gde 0x08C = true := by decide
  have hrw : rwPair .gde 0x08C = true := by decide
  have hblock : ∀ w, blockWrite s p (pgGde d) ⟨.gde, 0, d⟩ 0x08C w =
      fwStart (highCommit s (pgGde d) ⟨.gde, 0, d⟩ 0x08C w) d (some p) := by
    intro w
    unfold blockWrite
    simp [hf, hs, hostIgnored, hlow, hhigh, hrw, regHook]
  exact congrArg Host.Outcome.next ((if_pos hd).trans
    ((regWrite_block (pageIs_pgGde hd) ha (show 0x080 ≤ 0x08C by decide) (by decide) rfl v).trans (hblock _)))

/-! The end of a long operation (R51). -/

theorem settle_op (b : Blk) (work : Bool) : (b.settle work).opRun = b.opRun ∧ (b.settle work).progRes = b.progRes := by
  unfold Blk.settle
  split <;> exact ⟨rfl, rfl⟩

theorem opEnd_op (s : State) (pg res val : Nat) : (blk (opEnd s pg res val) pg).opRun = false ∧ (blk (opEnd s pg res val) pg).progRes = res := by
  have h : blk (modBlk s pg (·.opEnd res val)) pg = (blk s pg).opEnd res val := blk_modBlk_same s pg _
  unfold opEnd
  dsimp only
  split
  · rw [errSet_proj (·.opRun), errSet_proj (·.progRes), h]
    exact ⟨rfl, rfl⟩
  · rw [h]
    exact ⟨rfl, rfl⟩

/-- An operation that runs ends with its result. -/
theorem opOver_op (h : (blk s pg).opRun = true) (res : Nat) :
    (blk (opOver s pg res) pg).opRun = false ∧ (blk (opOver s pg res) pg).progRes = res := by
  unfold opOver settle
  dsimp only
  rw [if_neg (by simp [h]), blk_modBlk_same, (settle_op _ _).1, (settle_op _ _).2]
  exact opEnd_op s pg res _

theorem opOver_flash (s : State) (pg res : Nat) : (opOver s pg res).flash = s.flash := by
  have h : ∀ val, (opEnd s pg res val).flash = s.flash := by
    intro val
    unfold opEnd
    dsimp only
    split
    · exact errSet_flash
    · rfl
  unfold opOver
  dsimp only
  split
  · rfl
  · exact h _

/-! The start of an update (R496, R508). -/

/-- The update has begun, its image named by the next free number. -/
def fwBegun (s : State) (d : Nat) (who : Option Path) : State :=
  opStart { s with fresh := s.fresh + 1 } (pgGde d) opFw 2 s.fresh who

/-- The image is in the inactive bank, its release known. -/
def fwStored (s : State) (d : Nat) (who : Option Path) : State :=
  let s1 := fwBegun s d who
  modBlk { s1 with flash := { s1.flash with rels := tput s1.flash.rels (1 - s1.flash.active) (Config.image s.fresh 5 % 65536) } } (pgGde d)
    (fun b => { b with progVal := 1 })

theorem fwStart_eq (s : State) (d : Nat) (who : Option Path) : fwStart s d who =
    if s.guide.dev ≠ d || (blk s (pgGde d)).opRun || !inService s (pgGde d) then regErr s (pgGde d) errState 0x08C
    else if !imageOk (fwBegun s d who) s.fresh then fwEvent (opOver (fwBegun s d who) (pgGde d) 2) s.fresh true
    else fwStored s d who := rfl

/-- R508 looks at two registers of the SEC page. -/
theorem imageOk_congr (h0 : regF t pgSec 0x080 3 0 = regF s pgSec 0x080 3 0) (h1 : regF t pgSec 0x080 7 4 = regF s pgSec 0x080 7 4)
    (h2 : regF t pgSec 0x084 6 0 = regF s pgSec 0x084 6 0) (n : Nat) : imageOk t n = imageOk s n := by
  unfold imageOk
  rw [h0, h1, h2]

/-- An image by a revoked slot, or below the floor, fails R508. -/
def imageRefused (s : State) (n : Nat) : Bool :=
  (regF s pgSec 0x080 3 0).testBit (Config.image n 3) || decide (Config.image n 6 < regF s pgSec 0x084 6 0)

theorem imageRefused_eq_false (h : imageOk s n = true) : imageRefused s n = false := by
  unfold imageOk at h
  unfold imageRefused
  simp only [Bool.and_eq_true, Bool.not_eq_true', decide_eq_true_eq] at h
  obtain ⟨⟨⟨⟨⟨⟨⟨⟨-, -⟩, hrev⟩, -⟩, -⟩, -⟩, -⟩, hfloor⟩, -⟩ := h
  rw [hrev, decide_eq_false (Nat.not_lt.2 hfloor)]
  rfl

theorem imageOk_eq_false (h : imageRefused s n = true) : imageOk s n = false := by
  cases hi : imageOk s n with
  | false => rfl
  | true => exact absurd ((imageRefused_eq_false hi).symm.trans h) (by decide)

theorem pgSec_ne_pgGde (d : Nat) : pgSec ≠ pgGde d := by
  unfold pgGde dieBase pgSec
  omega

theorem fwBegun_opRun (s : State) (d : Nat) (who : Option Path) : (blk (fwBegun s d who) (pgGde d)).opRun = true := by
  unfold fwBegun opStart
  rw [blk_modBlk_same, (settle_op _ _).1]
  rfl

section
variable (h : PairWritten s u (pgGde d))
include h

theorem PairWritten.rest : u.guide = s.guide ∧ u.flash = s.flash ∧ u.fresh = s.fresh ∧ (blk u (pgGde d)).opRun = (blk s (pgGde d)).opRun ∧
    inService u (pgGde d) = inService s (pgGde d) := by
  obtain ⟨r, q, rfl⟩ := h
  unfold inService
  rw [blk_setBlk_same]
  exact ⟨rfl, rfl, rfl, rfl, rfl⟩

theorem PairWritten.imageOk (who : Option Path) (n : Nat) : imageOk (fwBegun u d who) n = imageOk s n := by
  have hreg : ∀ off hi lo, regF (fwBegun u d who) pgSec off hi lo = regF s pgSec off hi lo := by
    intro off hi lo
    have hblk : blk (fwBegun u d who) pgSec = blk s pgSec := by
      obtain ⟨r, q, rfl⟩ := h
      exact (blk_modBlk_ne _ _ (pgSec_ne_pgGde d)).trans (blk_setBlk_ne s _ (pgSec_ne_pgGde d))
    have hpart : (fwBegun u d who).partE = s.partE := by
      obtain ⟨r, q, rfl⟩ := h
      rfl
    exact congrArg (fun w => fld w hi lo) (regW_congr (congrArg Blk.regs hblk) hpart off)
  exact imageOk_congr (hreg _ _ _) (hreg _ _ _) (hreg _ _ _) n

/-- On the page of another cluster, or while an operation runs, the write is refused. -/
theorem fwStart_elsewhere (hn : s.guide.dev ≠ d ∨ (blk s (pgGde d)).opRun = true) (ht : fwStart u d who = t) :
    (blk t (pgGde d)).errStat.getLsbD 3 = true ∧ (blk t (pgGde d)).opRun = (blk s (pgGde d)).opRun ∧ t.flash = s.flash := by
  obtain ⟨hguide, hflash, -, hop, -⟩ := h.rest
  rw [fwStart_eq, if_pos (by rw [hguide, hop]; rcases hn with k | k <;> simp [k])] at ht
  subst ht
  exact ⟨errSet_bit u _ _ (by decide), (errSet_proj (·.opRun) u _ _ _ _).trans hop, errSet_flash.trans hflash⟩

section
variable (hdev : s.guide.dev = d) (hop : (blk s (pgGde d)).opRun = false) (hs : inService s (pgGde d) = true)
include hdev hop hs

theorem fwStart_here : fwStart u d who =
    if imageOk s s.fresh then fwStored u d who else fwEvent (opOver (fwBegun u d who) (pgGde d) 2) s.fresh true := by
  obtain ⟨hguide, -, hfresh, hrun, hin⟩ := h.rest
  rw [fwStart_eq, if_neg (by simp [hguide, hdev, hrun, hop, hin, hs]), hfresh, h.imageOk]
  cases imageOk s s.fresh <;> rfl

/-- A refused image ends the operation FAILED at once (R508). -/
theorem fwStart_fails (hr : imageRefused s s.fresh = true) (ht : fwStart u d who = t) :
    (blk t (pgGde d)).opRun = false ∧ (blk t (pgGde d)).progRes = 2 ∧ t.flash = s.flash ∧ ∃ e ∈ t.evq, e.kind = 0x6C ∧ e.info = 1 := by
  obtain ⟨-, hflash, -⟩ := h.rest
  obtain ⟨hrun, hres⟩ := opOver_op (fwBegun_opRun u d who) 2
  rw [fwStart_here h hdev hop hs, if_neg (by simp [imageOk_eq_false hr])] at ht
  subst ht
  exact ⟨hrun, hres, (opOver_flash _ _ _).trans hflash, _, mem_raise _ _, rfl, rfl⟩

/-- An image that passes is stored in the inactive bank. -/
theorem fwStart_stores (hi : imageOk s s.fresh = true) (ht : fwStart u d who = t) :
    (blk t (pgGde d)).opRun = true ∧ t.flash.active = s.flash.active ∧
      tget? t.flash.rels (1 - s.flash.active) = some (Config.image s.fresh 5 % 65536) := by
  obtain ⟨-, hflash, hfresh, -⟩ := h.rest
  rw [fwStart_here h hdev hop hs, if_pos hi] at ht
  have hfl : t.flash = { u.flash with rels := tput u.flash.rels (1 - u.flash.active) (Config.image u.fresh 5 % 65536) } := ht ▸ rfl
  have hrun : (blk t (pgGde d)).opRun = true := by
    rw [← ht, fwStored, blk_modBlk_same]
    exact fwBegun_opRun u d who
  rw [hflash, hfresh] at hfl
  rw [hfl]
  exact ⟨hrun, rfl, tget?_tput_same _ _ _⟩

end
end

/-! The end of an update (R497, R509). -/

/-- Operations stand as they are, and the active bank. -/
structure OpsStand (s t : State) : Prop where
  op     : ∀ x, (blk t x).opRun = (blk s x).opRun ∧ (blk t x).progRes = (blk s x).progRes
  active : t.flash.active = s.flash.active

theorem OpsStand.refl (s : State) : OpsStand s s := ⟨fun _ => ⟨rfl, rfl⟩, rfl⟩

theorem OpsStand.setReg (h : OpsStand s t) (pg off : Nat) (w : Word) : OpsStand s (setReg t pg off w) where
  op x   := ⟨(setReg_proj (·.opRun) t pg off w x).trans (h.op x).1, (setReg_proj (·.progRes) t pg off w x).trans (h.op x).2⟩
  active := h.active

theorem OpsStand.setRegF (h : OpsStand s t) (pg off hi lo v : Nat) : OpsStand s (setRegF t pg off hi lo v) := h.setReg _ _ _

theorem OpsStand.foldl {α : Type} {f : State → α → State} (h : OpsStand s t) (hf : ∀ u x, OpsStand s u → OpsStand s (f u x)) (xs : List α) :
    OpsStand s (xs.foldl f t) := foldl_keeps (OpsStand s) f hf xs t h

theorem OpsStand.showFuses (h : OpsStand s t) : OpsStand s (showFuses t) := (h.setReg _ _ _).setReg _ _ _

theorem blk_clearInjection (s : State) (x : Nat) : ∃ a r, blk (clearInjection s) x = { blk s x with injArm := a, regs := r } := by
  have hmap := tget?_mapKey (fun k (b : Blk) => { b with
    injArm := false, regs := if hasNoise k then tmod b.regs 0x0F0 (fun w => putFld w 16 16 0) else b.regs }) s.blks x
  change ∃ a r, (tget? (s.blks.map _) x).getD (defBlk s.booted x) = _
  unfold blk tgetD
  rw [hmap]
  cases tget? s.blks x with
  | none => exact ⟨_, _, rfl⟩
  | some b => exact ⟨_, _, rfl⟩

theorem OpsStand.clearInjection (h : OpsStand s t) : OpsStand s (clearInjection t) := by
  refine ⟨fun x => ?_, h.active⟩
  obtain ⟨a, r, e⟩ := blk_clearInjection t x
  rw [e]
  exact h.op x

theorem OpsStand.debugEnd (h : OpsStand s t) (cause : Nat) : OpsStand s (debugEnd t cause) := by
  have hset : OpsStand s { Machine.setReg t pgSec 0x098 0 with tokenSlot := 0 } := ⟨(h.setReg pgSec 0x098 0).op, h.active⟩
  have hend := hset.clearInjection
  unfold Machine.debugEnd
  split
  · exact h
  · exact ⟨hend.op, hend.active⟩

theorem OpsStand.revoke (h : OpsStand s t) (mask : Nat) : OpsStand s (revoke t mask) := by
  have hfl : ∀ r, OpsStand s { t with flash := { t.flash with revoked := r } } := fun _ => ⟨h.op, h.active⟩
  have hshow : ∀ r e, OpsStand s (raise (Machine.showFuses { t with flash := { t.flash with revoked := r } }) e) := fun r e =>
    ⟨(hfl r).showFuses.op, (hfl r).showFuses.active⟩
  unfold Machine.revoke
  dsimp only
  split
  · exact h
  · split
    · exact (hshow _ _).debugEnd 1
    · exact hshow _ _

/-- The update ends DONE: the other bank is active. -/
theorem fwDone_spec (hr : (blk s (pgGde d)).opRun = true) (ht : fwDone s d = t) : (blk t (pgGde d)).opRun = false ∧
    (blk t (pgGde d)).progRes = 1 ∧ t.flash.active = 1 - s.flash.active ∧ ∃ e ∈ t.evq, e.kind = 0x6C ∧ e.info = 0 := by
  subst ht
  unfold fwDone
  extract_lets pg n s1 moved s2 x s3 s4 s5 s6
  have hrun : (blk (modBlk s pg (fun b => { b with progVal := 5 })) pg).opRun = true := by
    rw [blk_modBlk_same]
    exact hr
  obtain ⟨hrun1, hres1⟩ := opOver_op hrun 1
  have hactive1 : s1.flash.active = s.flash.active := congrArg Flash.active (opOver_flash _ pg 1)
  have h2 : OpsStand s1 s2 := (OpsStand.refl s1).foldl (fun u c hu => by
    split
    · exact (hu.setRegF _ _ _ _ _).setRegF _ _ _ _ _
    · exact hu) _
  have h4 : OpsStand s3 s4 := (OpsStand.refl s3).showFuses.foldl (fun _ _ h => h.setReg _ _ _) _
  have h5 : OpsStand s3 s5 := h4.setRegF _ _ _ _ _
  have h6 : OpsStand s3 (revoke s6 (revocable s6 n)) := OpsStand.revoke (t := s6) ⟨h5.op, h5.active⟩ _
  obtain ⟨hop, hres⟩ := h6.op pg
  refine ⟨?_, ?_, ?_, _, mem_raise _ _, rfl, rfl⟩
  · exact hop.trans ((h2.op pg).1.trans hrun1)
  · exact hres.trans ((h2.op pg).2.trans hres1)
  · have h3 : s3.flash.active = 1 - s2.flash.active := rfl
    exact h6.active.trans (h3.trans (by rw [h2.active, hactive1]))

theorem exec_longOpEnd_gde (hd : d < 4) (hr : (blk s (pgGde d)).opRun = true) : exec (.longOpEnd (pgGde d) 1) s = .next (fwDone s d) := by
  have hpage := (pageIs_pgGde hd).2
  change execLongOpEnd (pgGde d) 1 s = _
  unfold execLongOpEnd longOpEnds
  simp [hpage, hr]

theorem exec_fwUpdateFail (hd : d < 4) (hf : fwUp s = true) (hr : (blk s (pgGde s.guide.dev)).opRun = true) :
    exec (.fwUpdateFail d) s = .next (fwEvent (errSet (opOver s (pgGde s.guide.dev) 2) (pgGde s.guide.dev) 10 d)
      (blk s (pgGde s.guide.dev)).opArg true) :=
  congrArg Host.Outcome.next ((if_pos (by simp [hd, hf])).trans (if_pos hr))

/-- A cluster that fails ends the update, the flash as it is. -/
theorem updateStops_spec (s : State) {pg : Nat} (hr : (blk s pg).opRun = true) (a n : Nat)
    (ht : fwEvent (errSet (opOver s pg 2) pg 10 a) n true = t) : (blk t pg).opRun = false ∧ (blk t pg).progRes = 2 ∧
      (blk t pg).errStat.getLsbD 10 = true ∧ t.flash = s.flash ∧ (∃ e ∈ t.evq, e.kind = 0x6C ∧ e.info = 1) ∧ t.ram = s.ram := by
  obtain ⟨hrun, hres⟩ := opOver_op hr 2
  have hram : t.ram = s.ram := ht ▸ (((MemFrom.refl s).opOver.errSet.fwEvent).same rfl).1
  have hflash : (errSet (opOver s pg 2) pg 10 a).flash = s.flash := errSet_flash.trans (opOver_flash s pg 2)
  have hbit := errSet_bit (opOver s pg 2) pg a (show 10 < 32 by decide)
  subst ht
  exact ⟨(errSet_proj (·.opRun) _ _ _ _ _).trans hrun, (errSet_proj (·.progRes) _ _ _ _ _).trans hres, hbit, hflash,
    ⟨_, mem_raise _ _, rfl, rfl⟩, hram⟩

/-- Settles O52. -/
theorem guideClustersStayInService : Obligations.GuideClustersStayInService := by
  unfold Obligations.GuideClustersStayInService
  intro s d hd hf
  refine ⟨fun hu => ⟨fun core hc hb => ⟨fun hs h3 => ?spare, fun hs h4 => ?fewer, fun hs h3 hlen c hn => ?tooFew⟩,
      fun hlen c hn => ⟨_, exec_guideTakeover hd hf hu, (clusterFail_handed hd hlen hn).all⟩,
      fun hn => ⟨_, exec_guideTakeover hd hf hu, clusterFail_last hn⟩,
      ⟨_, exec_clusterHeartbeat hd hf hu, clusterHeartbeat_spec s d _ rfl⟩⟩,
    fun hu ho h0 => ?oscillators,
    fun p tag v ha hs => ⟨fun hn => ⟨_, exec_fwUpdate hd ha hs v, fwStart_elsewhere (updWritten_pair s d v) hn rfl⟩, fun hdev hop hin =>
      ⟨fun hr => ⟨_, exec_fwUpdate hd ha hs v, fwStart_fails (updWritten_pair s d v) hdev hop hin hr rfl⟩,
        fun hi => ⟨imageRefused_eq_false hi, _, exec_fwUpdate hd ha hs v, fwStart_stores (updWritten_pair s d v) hdev hop hin hi rfl⟩⟩⟩,
    fun hr => ⟨_, exec_longOpEnd_gde hd hr, fwDone_spec hr rfl⟩,
    fun hr _ => ⟨_, exec_fwUpdateFail hd hf hr, updateStops_spec s hr d _ rfl⟩⟩
  case spare =>
    obtain ⟨hspare, hup⟩ := coreLost_spare (core := core) hs
    refine ⟨_, (exec_guideCoreFail hd hf hu hc hb).trans (congrArg _ (if_neg (by omega))), coreLost_told s d core, hspare, hup,
      st_coreLost s d core _, coreLost_ram s d core⟩
  case fewer =>
    have hup := coreLost_fewer (core := core) hs
    refine ⟨_, (exec_guideCoreFail hd hf hu hc hb).trans (congrArg _ (if_neg (by omega))), coreLost_told s d core, hup,
      st_coreLost s d core _, coreLost_ram s d core⟩
  case tooFew =>
    have hup := coreLost_fewer (core := core) hs
    exact ⟨_, (exec_guideCoreFail hd hf hu hc hb).trans (congrArg _ (if_pos (by omega))), (coreLost_told s d core).clusterFail,
      (coreLost_handed hd hlen hn).all⟩
  case oscillators =>
    obtain ⟨hin, hsp, hin3, hsp3, hbit⟩ := oscFound_masks s.guide.osc ho
    have hpos : ∀ k, 2 ^ k ≠ 0 := fun k => (Nat.two_pow_pos k).ne'
    exact ⟨⟨_, exec_oscCompare_found hu h0 hin (hpos _), oscJudged_inUse hin3 Nat.testBit_two_pow_self rfl⟩,
      ⟨_, exec_oscCompare_found hu h0 hsp (hpos _), oscJudged_spare hsp3 hbit rfl⟩,
      ⟨_, exec_oscCompare_found hu h0 (show oscFound true true = 3 from rfl) (by decide), oscJudged_both s⟩, by
        rw [exec_oscCompare, h0]
        exact congrArg Host.Outcome.next (if_pos (by simp [oscFound]))⟩

end Sys2Proof.Laws
end

