-- ==== Sys2Proof/Proofs/Admission.lean ====
section
/-!
PROOF. O21: a workgroup that a tile admits is placed there with its groups (R22, R55, R58, R348), and a finished group ends (R98).
-/
namespace Sys2Proof.Laws
open Sys2Proof.Machine Sys2Proof.Safety

section
variable {α : Type}

theorem mem_of_tget? {t : Tab α} {x : Nat} {a : α} (h : tget? t x = some a) : (x, a) ∈ t := by
  induction t with
  | nil => cases h
  | cons p t ih =>
    obtain ⟨k, v⟩ := p
    unfold tget? at h
    split at h
    · subst_vars
      cases h
      exact List.mem_cons_self
    · exact List.mem_cons_of_mem _ (ih h)

theorem tget?_foldl_tput_notMem {xs : List (Nat × α)} {x : Nat} (h : x ∉ xs.map (·.1)) (t : Tab α) :
    tget? (xs.foldl (fun m p => tput m p.1 p.2) t) x = tget? t x := by
  induction xs generalizing t with
  | nil => rfl
  | cons p xs ih =>
    obtain ⟨hp, hxs⟩ := not_or.1 (List.mem_cons.not.1 h)
    exact (ih hxs _).trans (tget?_tput_ne t _ hp)

/-- Entries under keys that differ are all found after they have been put into a table. -/
theorem tget?_foldl_tput_mem {xs : List (Nat × α)} (hd : (xs.map (·.1)).Nodup) {x : Nat} {a : α} (h : (x, a) ∈ xs) (t : Tab α) :
    tget? (xs.foldl (fun m p => tput m p.1 p.2) t) x = some a := by
  induction xs generalizing t with
  | nil => cases h
  | cons p xs ih =>
    obtain ⟨hp, hxs⟩ := List.nodup_cons.1 hd
    rcases List.mem_cons.1 h with rfl | h
    · exact (tget?_foldl_tput_notMem hp _).trans (tget?_tput_same t _ _)
    · exact ih hxs h _

end

/-! Launches. -/

section
variable {s t : State} {q n : Nat}

theorem launch?_named {l : Launch} (h : launch? s q n = some l) : l.q = q ∧ l.serial = n := by
  simpa using List.find?_some h

/-- The launch that a change names takes it, when the change leaves its name. -/
theorem launch?_modLaunch_same (s : State) (q n : Nat) (f : Launch → Launch) (hq : ∀ l, (f l).q = l.q := by exact fun _ => rfl)
    (hn : ∀ l, (f l).serial = l.serial := by exact fun _ => rfl) :
    launch? (modLaunch s q n f) q n = (launch? s q n).map f := by
  unfold launch? modLaunch
  rw [List.find?_map]
  have hp : ((fun l : Launch => l.q == q && l.serial == n) ∘ fun l => if l.q = q && l.serial = n then f l else l) =
      fun l => l.q == q && l.serial == n := by
    funext l
    dsimp only [Function.comp]
    split
    · rw [hq, hn]
    · rfl
  rw [hp]
  cases h : s.launches.find? fun l => l.q == q && l.serial == n with
  | none => rfl
  | some l =>
    obtain ⟨h1, h2⟩ := launch?_named h
    simp [h1, h2]

end

/-! The uniform registers of R348. -/

/-- The nonzero values of a list, under the keys from `j` on. -/
def nonzeros (j : Nat) (vals : List Nat) : Tab DWord :=
  (vals.mapIdx (fun k v => (k + j, BitVec.ofNat 64 v))).filter (fun p => p.2 ≠ 0)

theorem nonzeros_cons (j v : Nat) (vals : List Nat) : nonzeros j (v :: vals) =
    if BitVec.ofNat 64 v = 0 then nonzeros (j + 1) vals else (j, BitVec.ofNat 64 v) :: nonzeros (j + 1) vals := by
  simp only [nonzeros, List.mapIdx_cons, List.filter_cons, Nat.zero_add, Nat.add_assoc, Nat.add_comm 1 j, decide_not, Bool.not_eq_true',
    decide_eq_false_iff_not, ite_not]

theorem tgetD_nonzeros (j : Nat) (vals : List Nat) (x : Nat) :
    tgetD (nonzeros j vals) x 0 = if j ≤ x then BitVec.ofNat 64 (vals.getD (x - j) 0) else 0 := by
  induction vals generalizing j with
  | nil => simp [nonzeros, tgetD]
  | cons v vals ih =>
    have hhead : tgetD (nonzeros j (v :: vals)) x 0 = if j = x then BitVec.ofNat 64 v else tgetD (nonzeros (j + 1) vals) x 0 := by
      rw [nonzeros_cons]
      by_cases hv : BitVec.ofNat 64 v = 0
      · rw [if_pos hv, hv]
        split
        · rw [ih, if_neg (by omega)]
        · rfl
      · rw [if_neg hv]
        by_cases hx : j = x <;> simp [tgetD, tget?, hx]
    rw [hhead, ih]
    by_cases hx : j = x
    · simp [hx]
    · by_cases hj : j + 1 ≤ x
      · rw [if_neg hx, if_pos hj, if_pos (by omega), show x - j = (x - (j + 1)) + 1 by omega]
        rfl
      · rw [if_neg hx, if_neg hj, if_neg (by omega)]

/-- A group starts with s0 to s3 of R348. -/
theorem tgetD_launchRegs (l : Launch) (x y z i : Nat) :
    (tgetD (launchRegs l x y z i) 0 0).toNat = (x + 2 ^ 32 * y) % 2 ^ 64 ∧ (tgetD (launchRegs l x y z i) 1 0).toNat = (z + 2 ^ 32 * i) % 2 ^ 64 ∧
      (tgetD (launchRegs l x y z i) 2 0).toNat = (l.wx + 2 ^ 32 * l.wy) % 2 ^ 64 ∧
      (tgetD (launchRegs l x y z i) 3 0).toNat = (l.wz + 2 ^ 32 * l.serial) % 2 ^ 64 := by
  have h : launchRegs l x y z i = nonzeros 0 _ := rfl
  rw [h]
  simp only [tgetD_nonzeros, Nat.zero_le, if_true]
  exact ⟨rfl, rfl, rfl, rfl⟩

/-! Placing a workgroup. -/

section
variable {s t : State} {m : Nat}

theorem takeUnits_state (s : State) (t m : Nat) : (takeUnits s t m).2.tiles = s.tiles ∧ (takeUnits s t m).2.launches = s.launches := by
  unfold takeUnits
  split <;> exact ⟨rfl, rfl⟩

/-- The groups of a workgroup of number `id`, at their slots and lane sets. -/
def seated (slots : List Nat) (gs : List Group) (ls : List Nat) (id b : Nat) : List (Nat × Group) :=
  (slots.zip (gs.zip ls)).mapIdx (fun i p => (p.1, { p.2.1 with wg := id, lset := p.2.2, born := b + i }))

theorem freeSlots_nodup (x : Tile) (n : Nat) : (freeSlots x n).Nodup :=
  (List.nodup_range.filter _).sublist (List.take_sublist _ _)

theorem seated_keys {slots : List Nat} {gs : List Group} {ls : List Nat} (h1 : slots.length = gs.length) (h2 : gs.length = ls.length)
    (id b : Nat) : (seated slots gs ls id b).map (·.1) = slots := by
  have h : (seated slots gs ls id b).map (·.1) = (slots.zip (gs.zip ls)).map Prod.fst := by
    unfold seated
    apply List.ext_getElem?
    intro i
    cases h : (slots.zip (gs.zip ls))[i]? <;> simp [h]
  rw [h, List.map_fst_zip]
  simp [h1, h2]

/-- A group is at its slot, but for what the tile gives it. -/
theorem seated_mem {slots : List Nat} {gs : List Group} {ls : List Nat} (h2 : gs.length = ls.length) (id b : Nat) {i k : Nat} {g : Group}
    (hk : slots[i]? = some k) (hg : gs[i]? = some g) : ∃ c d, (k, { g with wg := id, lset := c, born := d }) ∈ seated slots gs ls id b := by
  obtain ⟨hi, -⟩ := List.getElem?_eq_some_iff.1 hg
  have hl : ls[i]? = some ls[i] := List.getElem?_eq_getElem (h2 ▸ hi)
  refine ⟨ls[i], b + i, List.mem_of_getElem? (i := i) ?_⟩
  have hz : (slots.zip (gs.zip ls))[i]? = some (k, (g, ls[i])) :=
    List.getElem?_zip_eq_some.2 ⟨hk, List.getElem?_zip_eq_some.2 ⟨hg, hl⟩⟩
  simp [seated, hz]

theorem laneSets_length (x : Tile) (w n : Nat) : (laneSets x w n).length = n := by simp [laneSets]

theorem tile_l1Inval_same (s : State) (m : Nat) :
    (tile (l1Inval s m) m).groups = (tile s m).groups ∧ (tile (l1Inval s m) m).wgs = (tile s m).wgs := by
  unfold l1Inval
  rw [tile_bumpF, tile_modTile_same]
  exact ⟨rfl, rfl⟩

theorem tile_l1Inval_ne (s : State) {m k : Nat} (h : k ≠ m) : tile (l1Inval s m) k = tile s k := by
  unfold l1Inval
  rw [tile_bumpF, tile_modTile_ne s _ h]

/-- What placing a workgroup makes of the tiles and of the launch. -/
theorem place_shape (s : State) (m : Nat) (l : Launch) (w : Wg) (gs : List Group) {t : State} (ht : place s m l w gs = t) :
    (∃ us, (tile t m).wgs = tput (tile s m).wgs ((tfree (tile s m).wgs 32).getD 0) { w with units := us }) ∧
      (∃ ls b, ls.length = gs.length ∧ (tile t m).groups = (seated (freeSlots (tile s m) gs.length) gs ls ((tfree (tile s m).wgs 32).getD 0) b).foldl
        (fun g p => tput g p.1 p.2) (tile s m).groups) ∧
      (∀ k, k ≠ m → tile t k = tile s k) ∧ (launch? t l.q l.serial).map (·.next) = (launch? s l.q l.serial).map (·.next) := by
  unfold place at ht
  split at ht
  next us u hu =>
  obtain ⟨htiles, hlaunches⟩ := takeUnits_state s m w.m
  rw [hu] at htiles hlaunches
  extract_lets w1 first s1 x row x1 x2 id slots ls new groups room s2 eng s3 at ht
  have hs1 : (tile s1 m).groups = (tile s m).groups ∧ (tile s1 m).wgs = (tile s m).wgs ∧ (∀ k, k ≠ m → tile s1 k = tile s k) ∧
      (launch? s1 l.q l.serial).map (·.next) = (launch? s l.q l.serial).map (·.next) := by
    have hu1 : ∀ k, tile u k = tile s k := tile_congr htiles
    have hlu : launch? u l.q l.serial = launch? s l.q l.serial := by rw [launch?, hlaunches, launch?]
    unfold s1
    split
    · have hadd := launch?_modLaunch_same (l1Inval u m) l.q l.serial (fun l => { l with tiles := l.tiles ++ [m] })
      obtain ⟨hg, hw⟩ := tile_l1Inval_same u m
      refine ⟨hg.trans (by rw [hu1]), hw.trans (by rw [hu1]), fun k hk => (tile_l1Inval_ne u hk).trans (hu1 k), ?_⟩
      rw [hadd, Option.map_map, ← hlu]
      rfl
    · exact ⟨by rw [hu1], by rw [hu1], fun k _ => hu1 k, by rw [hlu]⟩
  obtain ⟨hg1, hw1, hne1, hnext1⟩ := hs1
  have hx1 : x1.groups = (tile s m).groups ∧ x1.wgs = (tile s m).wgs := by
    unfold x1
    split <;> exact ⟨hg1, hw1⟩
  have hx2 : x2.groups = (tile s m).groups ∧ x2.wgs = (tile s m).wgs := by
    unfold x2
    split <;> exact hx1
  obtain ⟨hg2, hw2⟩ := hx2
  have hslots : slots = freeSlots (tile s m) gs.length := by
    unfold slots freeSlots
    rw [hg2]
  have hid : id = (tfree (tile s m).wgs 32).getD 0 := by
    unfold id
    rw [hw2]
  have hhere : tile t m = { x2 with
      wgs := tput x2.wgs id w1, groups := groups, age := x2.age ++ slots, room := room, nborn := x2.nborn + gs.length } := by
    subst ht
    exact tile_setTile_same s1 m _
  have hgroups : groups = (seated slots gs ls id x2.nborn).foldl (fun g p => tput g p.1 p.2) x2.groups := rfl
  refine ⟨⟨us, ?_⟩, ⟨ls, x2.nborn, laneSets_length _ _ _, ?_⟩, fun k hk => ?_, ?_⟩
  · rw [hhere, ← hid, ← hw2]
  · rw [hhere, ← hid, ← hg2, ← hslots, hgroups]
  · subst ht
    exact (tile_setTile_ne s1 _ hk).trans (hne1 k hk)
  · subst ht
    exact hnext1

/-- An admitted workgroup is on the tile with its groups, at the lowest free slots; the other tiles stand as they were. -/
theorem place_spec (m : Nat) (l : Launch) (w : Wg) (gs : List Group) {id : Nat} (hid : tfree (tile s m).wgs 32 = some id)
    (hn : (freeSlots (tile s m) gs.length).length = gs.length) (ht : place s m l w gs = t) :
    (∃ us, wg? t m id = some { w with units := us }) ∧ (∀ k, k ≠ m → tile t k = tile s k) ∧
      (launch? t l.q l.serial).map (·.next) = (launch? s l.q l.serial).map (·.next) ∧
      ∀ (i k : Nat) (g : Group), gs[i]? = some g → (freeSlots (tile s m) gs.length)[i]? = some k →
        ∃ c d, group? t m k = some { g with wg := id, lset := c, born := d } := by
  obtain ⟨⟨us, hwgs⟩, ⟨ls, b, hls, hgroups⟩, hne, hnext⟩ := place_shape s m l w gs ht
  rw [hid, Option.getD_some] at hwgs hgroups
  refine ⟨⟨us, ?_⟩, hne, hnext, fun i k g hg hk => ?_⟩
  · rw [wg?, hwgs, tget?_tput_same]
  · obtain ⟨c, d, hmem⟩ := seated_mem hls.symm id b hk hg
    refine ⟨c, d, ?_⟩
    rw [group?, hgroups]
    exact tget?_foldl_tput_mem (by rw [seated_keys hn hls.symm]; exact freeSlots_nodup _ _) hmem _

end

/-! The offer of R22. -/

section
variable {s t : State} {q n m : Nat} {l : Launch}

/-- The launch goes on to its next index. -/
def Launch.placed (l : Launch) : Launch := { l with next := l.next + 1, tried := [] }

/-- The launch notes that a tile has refused it. -/
def Launch.refusedBy (m : Nat) (l : Launch) : Launch := { l with tried := l.tried ++ [m] }

theorem exec_wgOffer (hl : launch? s q n = some l) (hk : l.killed = false) (hn : l.next < l.total) (hs : inService s (pgEng l.eng) = true)
    (hr : replayFirst s l = false) (hm : (candidates s l.eng l.dies).find? (fun x => !l.tried.contains x) = some m) :
    exec (.wgOffer q n) s = .next (if admits (bumpSteps s (pgEng l.eng) 2) m l then
      modLaunch (place (bumpSteps s (pgEng l.eng) 2) m l (newWg l l.next).1 (newWg l l.next).2) q n Launch.placed
      else modLaunch (bumpSteps s (pgEng l.eng) 2) q n (Launch.refusedBy m)) := by
  have hgo : (l.killed || decide (l.next ≥ l.total) || !inService s (pgEng l.eng) || replayFirst s l) = false := by
    simp [hk, hs, hr, hn]
  change execWgOffer q n s = _
  unfold execWgOffer
  rw [hl]
  simp only [hgo, hm]
  rfl

/-- The groups of a new workgroup, as they start. -/
theorem newWg_groups (l : Launch) (k : Nat) : ∃ f : Nat → Group, (newWg l k).2 = (List.range l.g).map f ∧ ∀ i, (f i).idx = i ∧
    (f i).pc = l.code ∧ (f i).width = l.width ∧ (f i).active = 2 ^ l.width - 1 ∧ (f i).live = 2 ^ l.width - 1 ∧ (f i).stack = [] ∧
    (f i).v = [] ∧ (f i).stat = .run ∧ (f i).u = launchRegs l (k % l.wx) (k / l.wx % l.wy) (k / (l.wx * l.wy)) i :=
  ⟨_, rfl, fun _ => ⟨rfl, rfl, rfl, rfl, rfl, rfl, rfl, rfl, rfl⟩⟩

theorem newWg_length (l : Launch) (k : Nat) : (newWg l k).2.length = l.g := by simp [newWg]

/-- Placed by the offer, the workgroup and every group of it stand on the tile as R348 and R55 say. -/
theorem offerPlaced_spec (hl : launch? s q n = some l) {id : Nat} (hid : tfree (tile s m).wgs 32 = some id)
    (hn : (freeSlots (tile s m) l.g).length = l.g)
    (ht : modLaunch (place (bumpSteps s (pgEng l.eng) 2) m l (newWg l l.next).1 (newWg l l.next).2) q n Launch.placed = t) :
    (∃ us, wg? t m id = some ({ (newWg l l.next).1 with units := us } : Wg)) ∧ SameBytes s t ∧ (∀ k, k ≠ m → tile t k = tile s k) ∧
      (launch? t q n).map (fun l' => (l'.next, l'.tried)) = some (l.next + 1, []) ∧
      ∀ i k, i < l.g → (freeSlots (tile s m) l.g)[i]? = some k → ∃ g, group? t m k = some g ∧ g.idx = i ∧ g.wg = id ∧ g.pc = l.code ∧
        g.width = l.width ∧ g.active = 2 ^ l.width - 1 ∧ g.live = g.active ∧ g.stack = [] ∧ g.v = [] ∧ g.stat = .run ∧
        g.u = launchRegs l (l.next % l.wx) (l.next / l.wx % l.wy) (l.next / (l.wx * l.wy)) i := by
  have hram : t.ram = s.ram := ht ▸ (((MemFrom.refl s).bumpSteps.place.modLaunch).same rfl).1
  generalize hp : place (bumpSteps s (pgEng l.eng) 2) m l (newWg l l.next).1 (newWg l l.next).2 = p at ht
  obtain ⟨⟨us, hwg⟩, hne, hnext, hgroups⟩ := place_spec m l _ _ (s := bumpSteps s (pgEng l.eng) 2) hid (by rw [newWg_length]; exact hn) hp
  obtain ⟨hq, hserial⟩ := launch?_named hl
  have hlp : (launch? p q n).map (·.next) = some l.next := by
    rw [← hq, ← hserial, hnext, hq, hserial]
    exact congrArg _ hl
  subst ht
  refine ⟨⟨us, hwg⟩, fun k a => by rw [hram], hne, ?_, fun i k hi hk => ?_⟩
  · rw [launch?_modLaunch_same p q n Launch.placed, Option.map_map]
    obtain ⟨l', h1, h2⟩ := Option.map_eq_some_iff.1 hlp
    simp [h1, Launch.placed, h2]
  · obtain ⟨f, hf, hstart⟩ := newWg_groups l l.next
    obtain ⟨hidx, hpc, hwidth, hact, hlive, hstack, hv, hstat, hregs⟩ := hstart i
    obtain ⟨c, d, hat⟩ := hgroups i k (f i) (by rw [hf, List.getElem?_map, List.getElem?_range hi]; rfl) (by rw [newWg_length]; exact hk)
    exact ⟨_, hat, hidx, rfl, hpc, hwidth, hact, hlive.trans hact.symm, hstack, hv, hstat, hregs⟩

end

/-! The end of a group (R98). -/

section
variable {s t u : State} {n w : Nat}

/-- What the groups of a tile keep of their ends, whatever their workgroup `w` does but for parks that commands ask for: which
workgroup a group is of, whether it has ended, that it has no binding; no park waits, and no reservation is new. -/
structure KeepsEnds (n w : Nat) (s t : State) : Prop where
  groups : ∀ k g, group? s n k = some g →
    ∃ g', group? t n k = some g' ∧ g'.wg = g.wg ∧ g'.ended = g.ended ∧ (g.txg = none → g'.txg = none)
  asked  : (∀ x, wg? s n w = some x → x.asked = 0) → ∀ x, wg? t n w = some x → x.asked = 0
  resvs  : ∀ x ∈ t.resvs, x ∈ s.resvs

theorem KeepsEnds.refl (s : State) : KeepsEnds n w s s := ⟨fun _ g h => ⟨g, h, rfl, rfl, id⟩, id, fun _ => id⟩

theorem KeepsEnds.trans (h : KeepsEnds n w s t) (k : KeepsEnds n w t u) : KeepsEnds n w s u := by
  refine ⟨fun m g hg => ?_, fun hs => k.asked (h.asked hs), fun x hx => h.resvs x (k.resvs x hx)⟩
  obtain ⟨g1, h1, hw1, he1, ht1⟩ := h.groups m g hg
  obtain ⟨g2, h2, hw2, he2, ht2⟩ := k.groups m g1 h1
  exact ⟨g2, h2, hw2.trans hw1, he2.trans he1, fun hn => ht2 (ht1 hn)⟩

/-- A change of the tile's other parts, and of reservations that end. -/
theorem KeepsEnds.upd (h : KeepsEnds n w s t) (hg : (tile u n).groups = (tile t n).groups) (hw : (tile u n).wgs = (tile t n).wgs)
    (hr : ∀ x ∈ u.resvs, x ∈ t.resvs) : KeepsEnds n w s u := by
  refine h.trans ⟨fun k g hk => ⟨g, ?_, rfl, rfl, id⟩, fun hs x hx => hs x ?_, hr⟩
  · rwa [group?, hg]
  · rwa [wg?, ← hw]

theorem KeepsEnds.modGroup (h : KeepsEnds n w s t) (k : Nat) (f : Group → Group) (hw : ∀ g, (f g).wg = g.wg := by exact fun _ => rfl)
    (he : ∀ g, (f g).ended = g.ended := by exact fun _ => rfl) (hx : ∀ g, g.txg = none → (f g).txg = none := by exact fun _ h => h) :
    KeepsEnds n w s (modGroup t n k f) := by
  refine h.trans ⟨fun m g hg => ?_, fun hs x hx => hs x ?_, fun _ => id⟩
  · rw [group?_modGroup]
    by_cases hm : m = k
    · exact ⟨f g, by rw [if_pos ⟨rfl, hm⟩, hg]; rfl, hw g, he g, hx g⟩
    · exact ⟨g, by simp [hm, hg], rfl, rfl, id⟩
  · rwa [wg?, Machine.modGroup, tile_modTile_same] at hx

theorem KeepsEnds.modWg (h : KeepsEnds n w s t) (k : Nat) (f : Wg → Wg) (hf : ∀ x, x.asked = 0 → (f x).asked = 0) :
    KeepsEnds n w s (modWg t n k f) := by
  refine h.trans ⟨fun m g hg => ⟨g, ?_, rfl, rfl, id⟩, fun hs x hx => ?_, fun _ => id⟩
  · rwa [group?, Machine.modWg, tile_modTile_same]
  · rw [wg?, Machine.modWg, tile_modTile_same, tget?_tmod] at hx
    split at hx
    · obtain ⟨y, hy, rfl⟩ := Option.map_eq_some_iff.1 hx
      exact hf y (hs y hy)
    · exact hs x hx

theorem KeepsEnds.foldl {α : Type} (h : KeepsEnds n w s t) (f : State → α → State)
    (hf : ∀ u x, KeepsEnds n w s u → KeepsEnds n w s (f u x)) (xs : List α) : KeepsEnds n w s (xs.foldl f t) :=
  foldl_keeps (KeepsEnds n w s) f hf xs t h

theorem txgAbort_resvs (s : State) (i c : Nat) : (txgAbort s i c).resvs = s.resvs := by
  unfold txgAbort
  dsimp only
  split
  · split <;> rfl
  · rfl

theorem KeepsEnds.txgAbort (h : KeepsEnds n w s t) (i c : Nat) : KeepsEnds n w s (txgAbort t i c) := by
  have ht := tile_congr (txgAbort_tiles t i c) n
  exact h.upd (by rw [ht]) (by rw [ht]) (by rw [txgAbort_resvs]; exact fun _ => id)

theorem KeepsEnds.unbindForPark (h : KeepsEnds n w s t) (gs : List (Nat × Group)) : KeepsEnds n w s (unbindForPark t gs) := by
  refine h.foldl _ (fun u p hu => ?_) gs
  split
  · split
    · exact hu.txgAbort _ _
    · exact hu
  · exact hu

theorem KeepsEnds.stopGroups (h : KeepsEnds n w s t) (gs : List (Nat × Group)) (reason : Nat) : KeepsEnds n w s (stopGroups t n gs reason) := by
  refine h.foldl _ (fun u p hu => hu.modGroup _ _ (hx := fun g hg => ?_)) gs
  dsimp only
  split
  · exact hg
  · rfl

theorem KeepsEnds.dropOffers (h : KeepsEnds n w s t) (ns : List Nat) : KeepsEnds n w s (dropOffers t n ns) := by
  refine h.upd ?_ ?_ fun _ => id <;> rw [Machine.dropOffers, tile_modTile_same]

theorem KeepsEnds.endResvs (h : KeepsEnds n w s t) (ns : List Nat) : KeepsEnds n w s (endResvs t n ns) :=
  h.upd rfl rfl fun _ hx => (List.mem_filter.1 hx).1

theorem KeepsEnds.regroup (h : KeepsEnds n w s t) (gs : List (Nat × Group)) : KeepsEnds n w s (regroup t n gs) := by
  refine h.foldl _ (fun u p hu => ?_) gs
  split
  · exact hu.modGroup _ _
  · exact hu

/-- A stop that no command asks for. -/
theorem KeepsEnds.stopWg (h : KeepsEnds n w s t) (k : Nat) {reason : Nat} (hr : askedReason reason = false) :
    KeepsEnds n w s (stopWg t n k reason) := by
  have hp : (decide (reason = rPreempt) || decide (reason = rMigrate)) = false := (Bool.or_eq_false_iff.1 hr).1
  unfold Machine.stopWg
  split
  · exact h
  · dsimp only
    rw [hr, hp]
    split
    · exact h.regroup _
    · split
      · exact h
      · exact (((h.unbindForPark _).stopGroups _ _).dropOffers _ |>.endResvs _).modWg _ _ fun _ _ => rfl

theorem KeepsEnds.evalBarrier (h : KeepsEnds n w s t) (k : Nat) : KeepsEnds n w s (evalBarrier t n k) := by
  unfold Machine.evalBarrier
  dsimp only
  split
  · exact h
  · split
    · exact h
    · split
      · split
        · exact h
        · exact (h.foldl _ (fun u p hu => hu.modGroup _ _) _).modWg _ _ fun _ hx => hx
      · split
        · exact (h.upd (u := bumpF t (pgTile n) 0x094 15 0 1) rfl rfl fun _ => id).stopWg k rfl
        · exact h

/-- The group's record as ended, its binding and its reservations gone. -/
def groupOver (s : State) (r : GRef) (g : Group) : State :=
  let s1 := setGroup s r.tile r.slot { g with ended := true, txg := none }
  { s1 with resvs := s1.resvs.filter (fun x => !(x.2.1 == r.tile && x.2.2 == r.slot)) }

theorem exec_groupEnd_unfinished {r : GRef} {g : Group} (hg : group? s r.tile r.slot = some g) (hs : g.stat ≠ .finished) :
    exec (.groupEnd r) s = .next s := by
  change execGroupEnd r s = _
  unfold execGroupEnd
  simp [hg, hs]

theorem exec_groupEnd {r : GRef} {g : Group} {x : Wg} (hg : group? s r.tile r.slot = some g) (hx : wg? s r.tile g.wg = some x)
    (hrun : g.stopped = false) (hs : g.stat = .finished) (hp : g.pend = []) :
    exec (.groupEnd r) s = .next (if ((tile (evalBarrier (groupOver s r g) r.tile g.wg) r.tile).groupsOf g.wg).all (fun p => p.2.ended)
      then wgEnded (releaseWg (evalBarrier (groupOver s r g) r.tile g.wg) r.tile g.wg) x.launch false
      else parkAsked (evalBarrier (groupOver s r g) r.tile g.wg) r.tile g.wg) := by
  have hgo : (decide (g.stat ≠ .finished) || !g.idle || g.stopped) = false := by simp [hs, Group.idle, hp, hrun]
  change execGroupEnd r s = _
  unfold execGroupEnd
  simp only [hg, hx, hgo]
  rfl

/-- A group that has not ended keeps its workgroup from ending. -/
theorem groupsOf_not_ended {x : Tile} {k w : Nat} {g : Group} (hg : tget? x.groups k = some g) (hw : g.wg = w) (he : g.ended = false) :
    (x.groupsOf w).all (fun p => p.2.ended) = false :=
  List.all_eq_false.2 ⟨(k, g), List.mem_filter.2 ⟨mem_of_tget? hg, by simp [hw]⟩, by simp [he]⟩

/-- While another group of the workgroup has not ended, the group alone ends. -/
theorem groupOver_spec {r : GRef} {g : Group} {x : Wg} (hx : wg? s r.tile g.wg = some x) (ha : x.asked = 0)
    {k : Nat} {g2 : Group} (hk : k ≠ r.slot) (h2 : group? s r.tile k = some g2) (hw2 : g2.wg = g.wg) (he2 : g2.ended = false)
    (ht : evalBarrier (groupOver s r g) r.tile g.wg = t) :
    ((tile t r.tile).groupsOf g.wg).all (fun p => p.2.ended) = false ∧ parkAsked t r.tile g.wg = t ∧
      (∃ g', group? t r.tile r.slot = some g' ∧ g'.ended = true ∧ g'.txg = none) ∧ t.ram = s.ram ∧
      ∀ y ∈ t.resvs, ¬(y.2.1 = r.tile ∧ y.2.2 = r.slot) := by
  have hkeep : KeepsEnds r.tile g.wg (groupOver s r g) t := ht ▸ (KeepsEnds.refl _).evalBarrier g.wg
  have hram : t.ram = s.ram := ht ▸ (((MemFrom.refl s).upd (t := groupOver s r g) rfl rfl).evalBarrier.same rfl).1
  have hover : group? (groupOver s r g) r.tile r.slot = some { g with ended := true, txg := none } := group?_setGroup_same s _ _ _
  have hother : group? (groupOver s r g) r.tile k = some g2 := (group?_setGroup_ne s _ (.inr hk)).trans h2
  have hwg : wg? (groupOver s r g) r.tile g.wg = some x := by
    refine Eq.trans ?_ hx
    change wg? (setGroup s _ _ _) _ _ = _
    rw [wg?, setGroup, tile_modTile_same, wg?]
  obtain ⟨g', hg', -, hend, htxg⟩ := hkeep.groups _ _ hover
  obtain ⟨g3, h3, hw3, he3, -⟩ := hkeep.groups _ _ hother
  refine ⟨groupsOf_not_ended h3 (hw3.trans hw2) (he3.trans he2), parkAsked_none (hkeep.asked ?_), ⟨g', hg', hend, htxg rfl⟩, hram, ?_⟩
  · rintro y hy
    cases hwg.symm.trans hy
    exact ha
  · rintro y hy ⟨h1, h2⟩
    have := (List.mem_filter.1 (hkeep.resvs y hy)).2
    simp [h1, h2] at this

end

/-- Settles O21. -/
theorem workgroupsAreAdmitted : Obligations.WorkgroupsAreAdmitted := by
  unfold Obligations.WorkgroupsAreAdmitted
  refine ⟨?offer, ?groupEnd, fun s r g hg hs => exec_groupEnd_unfinished hg hs⟩
  case offer =>
    intro s q n l m hl hk hn hs hr hm
    have hexec := exec_wgOffer hl hk hn hs hr hm
    refine ⟨fun ha id hid hslots => ?_, fun ha => ?_⟩
    · obtain ⟨⟨us, hwg⟩, hbytes, hne, hnext, hgroups⟩ := offerPlaced_spec hl hid hslots rfl
      refine ⟨_, _, hexec.trans (congrArg _ (if_pos ha)), hwg, rfl, rfl, rfl, rfl, rfl, rfl, rfl, hbytes, hne, hnext, fun i k hi hki => ?_⟩
      obtain ⟨g, hg, hidx, hid, hpc, hwidth, hact, hlive, hstack, hv, hstat, hregs⟩ := hgroups i k hi hki
      refine ⟨g, hg, hidx, hid, hpc, hwidth, hact, hlive, hstack, hv, hstat, ?_⟩
      unfold Group.uget
      rw [hregs]
      exact tgetD_launchRegs l _ _ _ i
    · refine ⟨_, hexec.trans (congrArg _ (if_neg (by simp [ha]))), rfl, rfl, ?_⟩
      rw [launch?_modLaunch_same _ q n (Launch.refusedBy m), show launch? (bumpSteps s (pgEng l.eng) 2) q n = some l from hl]
      rfl
  case groupEnd =>
    rintro s r g w hg hw hrun hs hp ha ⟨k, g2, hk, h2, hw2, he2⟩
    obtain ⟨hall, hpark, ⟨g', hg', hend, htxg⟩, hram, hresvs⟩ := groupOver_spec hw ha hk h2 hw2 he2 rfl
    exact ⟨_, g', (exec_groupEnd hg hw hrun hs hp).trans (congrArg _ ((if_neg (by simp [hall])).trans hpark)), hg', hend, htxg, hram, hresvs⟩

end Sys2Proof.Laws
end

