-- ==== Sys2Proof/Proofs/LinkFrames.lean ====
section
/-!
SUPPORT. What a link that goes DOWN touches (R391, R400), and what it leaves of a block's state and of its stop.
-/
namespace Sys2Proof.Laws
open Sys2Proof.Machine Sys2Proof.Safety

variable {s t u : State}

/-! Packets handed back. -/

/-- Packets have gone to ports and to the router: nothing but ports and requests differs. -/
def Routed (s t : State) : Prop := ∃ q n p, t = { s with reqs := q, nextReq := n, ports := p }

theorem Routed.refl (s : State) : Routed s s := ⟨_, _, _, rfl⟩

theorem Routed.trans (h : Routed s t) (k : Routed t u) : Routed s u := by
  obtain ⟨q, n, p, rfl⟩ := h
  obtain ⟨q', n', p', rfl⟩ := k
  exact ⟨q', n', p', rfl⟩

theorem Routed.foldl {α : Type} {f : State → α → State} (h : Routed s t) (hf : ∀ u x, Routed u (f u x)) (xs : List α) :
    Routed s (xs.foldl f t) := foldl_keeps (Routed s) f (fun u x hu => hu.trans (hf u x)) xs t h

theorem routed_setPort (s : State) (p : Nat) (x : Port) : Routed s (setPort s p x) := ⟨_, _, _, rfl⟩

theorem routed_sendOn (s : State) (p : Nat) (k : Packet) (r : Option Nat) : Routed s (sendOn s p k r) := by
  unfold sendOn
  split <;> exact routed_setPort s p _

theorem routed_holdAnswer (s : State) (a : Packet) : Routed s (holdAnswer s a) := ⟨_, _, _, rfl⟩

theorem routed_answer (s : State) (k : Packet) (status operand : Nat) (data : List Nat) (mark isData : Bool) :
    Routed s (answer s k status operand data mark isData) := by
  unfold answer
  dsimp only
  split
  · exact Routed.refl s
  · split
    · exact routed_holdAnswer s _
    · exact routed_sendOn s _ _ _

theorem routed_handBack (s : State) (k : Packet) (r : Option Nat) : Routed s (handBack s k r) := by
  unfold handBack
  split
  · exact ⟨_, _, _, rfl⟩
  · split
    · exact routed_holdAnswer s _
    · split
      · exact Routed.refl s
      · exact routed_answer s k _ _ _ _ _

theorem routed_handAll (s : State) (p : Nat) : Routed s (handAll s p) := by
  unfold handAll
  dsimp only
  refine ((routed_setPort s p _).foldl (fun u f => ?_) _).foldl (fun u w => routed_handBack u _ _) _
  split
  · exact routed_handBack u _ _
  · exact Routed.refl u

/-! The frame of a link that goes DOWN. -/

/-- Only pages, ports, requests, reports, events and the wavefront differ. -/
def LinkFrame (s t : State) : Prop := ∃ b q n p r w k e,
  t = { s with blks := b, reqs := q, nextReq := n, ports := p, reports := r, wave := w, trigOut := k, evq := e }

theorem LinkFrame.refl (s : State) : LinkFrame s s := ⟨_, _, _, _, _, _, _, _, rfl⟩

theorem LinkFrame.trans (h : LinkFrame s t) (k : LinkFrame t u) : LinkFrame s u := by
  obtain ⟨b, q, n, p, r, w, j, e, rfl⟩ := h
  obtain ⟨b', q', n', p', r', w', j', e', rfl⟩ := k
  exact ⟨b', q', n', p', r', w', j', e', rfl⟩

theorem LinkFrame.setRegF (h : LinkFrame s t) (pg off hi lo v : Nat) : LinkFrame s (setRegF t pg off hi lo v) :=
  h.trans ⟨_, _, _, _, _, _, _, _, rfl⟩

theorem LinkFrame.errSet (h : LinkFrame s t) (pg bit addr : Nat) : LinkFrame s (errSet t pg bit addr) := by
  obtain ⟨b, r, w, k, e, he⟩ := errSet_frame t pg bit addr
  rw [he]
  exact h.trans ⟨_, _, _, _, _, _, _, _, rfl⟩

theorem LinkFrame.routed (h : LinkFrame s t) (k : Routed t u) : LinkFrame s u := by
  obtain ⟨q, n, p, rfl⟩ := k
  exact h.trans ⟨_, _, _, _, _, _, _, _, rfl⟩

theorem LinkFrame.portErr (h : LinkFrame s t) (p bit addr : Nat) : LinkFrame s (portErr t p bit addr) := by
  unfold Machine.portErr
  split
  · split
    · exact h.errSet _ _ _
    · exact h
  · exact h.errSet _ _ _

theorem LinkFrame.setQuar (h : LinkFrame s t) (p reason : Nat) : LinkFrame s (setQuar t p reason) := (h.setRegF _ _ _ _ _).setRegF _ _ _ _ _

theorem LinkFrame.ite {a b : State} {c : Prop} {_ : Decidable c} (ha : LinkFrame s a) (hb : LinkFrame s b) :
    LinkFrame s (if c then a else b) := by
  split <;> assumption

/-- The registers of a link that is DOWN, before its error and its packets (R384, R391). -/
def linkOff (s : State) (p reason : Nat) : State :=
  modPort (setRegF (setRegF (setRegF (setLink s p lkDown) (pgPort p) 0x080 15 8 reason) (pgPort p) 0x080 18 16 0) (pgPort p) 0x084 26 18 0) p
    (fun x => { x with keyx := none, rekey := false, txKey := none, rxKey := none, oldRx := none, nextTx := none, refail := false })

/-- A link that was trained reports that it is DOWN, and its quarantine ends. -/
theorem linkDown_eq (s : State) (p reason : Nat) : ∃ c d : Bool, linkDown s p reason =
    handAll (if d then setQuar (if c then portErr (linkOff s p reason) p 10 reason else linkOff s p reason) p 0
      else if c then portErr (linkOff s p reason) p 10 reason else linkOff s p reason) p :=
  ⟨_, _, rfl⟩

theorem linkFrame_linkOff (s : State) (p reason : Nat) : LinkFrame s (linkOff s p reason) :=
  ((((LinkFrame.refl s).setRegF _ _ _ _ _).setRegF _ _ _ _ _).setRegF _ _ _ _ _ |>.setRegF _ _ _ _ _).routed (routed_setPort _ _ _)

theorem linkFrame_linkDown (s : State) (p reason : Nat) : LinkFrame s (linkDown s p reason) := by
  obtain ⟨c, d, h⟩ := linkDown_eq s p reason
  have hc : LinkFrame s (if c then portErr (linkOff s p reason) p 10 reason else linkOff s p reason) :=
    .ite ((linkFrame_linkOff s p reason).portErr _ _ _) (linkFrame_linkOff s p reason)
  rw [h]
  exact (LinkFrame.ite (hc.setQuar _ _) hc).routed (routed_handAll _ _)

/-! The pages. -/

/-- Every block keeps its state, its stop and the errors that it shows. -/
structure StopStands (s t : State) : Prop where
  st     : ∀ x, (blk t x).st = (blk s x).st
  owner  : ∀ x, (blk t x).owner = (blk s x).owner
  staged : ∀ x, (blk t x).staged = (blk s x).staged
  bits   : ∀ x b, (blk s x).errStat.getLsbD b = true → (blk t x).errStat.getLsbD b = true

theorem StopStands.refl (s : State) : StopStands s s := ⟨fun _ => rfl, fun _ => rfl, fun _ => rfl, fun _ _ => id⟩

theorem StopStands.trans (h : StopStands s t) (k : StopStands t u) : StopStands s u :=
  ⟨fun x => (k.st x).trans (h.st x), fun x => (k.owner x).trans (h.owner x), fun x => (k.staged x).trans (h.staged x),
    fun x b hb => k.bits x b (h.bits x b hb)⟩

theorem stopStands_of_blk (h : ∀ x, blk t x = blk s x) : StopStands s t :=
  ⟨fun x => by rw [h], fun x => by rw [h], fun x => by rw [h], fun x b hb => by rwa [h]⟩

theorem stopStands_setRegF (s : State) (pg off hi lo v : Nat) : StopStands s (setRegF s pg off hi lo v) :=
  ⟨fun x => st_setReg s pg off _ x, fun x => setReg_proj (·.owner) s pg off _ x, fun x => setReg_proj (·.staged) s pg off _ x,
    fun x b hb => by rwa [setRegF, errStat_setReg]⟩

theorem stopStands_errSet (s : State) (pg bit addr : Nat) : StopStands s (errSet s pg bit addr) :=
  ⟨fun x => st_errSet s pg bit addr x, fun x => errSet_proj (·.owner) s pg bit addr x, fun x => errSet_proj (·.staged) s pg bit addr x,
    ((Stands.refl s).errSet pg bit addr).bits⟩

theorem stopStands_portErr (s : State) (p bit addr : Nat) : StopStands s (portErr s p bit addr) := by
  unfold portErr
  split
  · split
    · exact stopStands_errSet s _ _ _
    · exact .refl s
  · exact stopStands_errSet s _ _ _

theorem blk_routed (h : Routed s t) (x : Nat) : blk t x = blk s x := by
  obtain ⟨q, n, p, rfl⟩ := h
  rfl

theorem stopStands_linkOff (s : State) (p reason : Nat) : StopStands s (linkOff s p reason) :=
  ((((stopStands_setRegF s _ _ _ _ _).trans (stopStands_setRegF _ _ _ _ _ _)).trans (stopStands_setRegF _ _ _ _ _ _)).trans
    (stopStands_setRegF _ _ _ _ _ _)).trans (stopStands_of_blk (blk_routed (routed_setPort _ _ _)))

theorem stopStands_linkDown (s : State) (p reason : Nat) : StopStands s (linkDown s p reason) := by
  obtain ⟨c, d, h⟩ := linkDown_eq s p reason
  have hc : StopStands s (if c then portErr (linkOff s p reason) p 10 reason else linkOff s p reason) := by
    split
    · exact (stopStands_linkOff s p reason).trans (stopStands_portErr _ _ _ _)
    · exact stopStands_linkOff s p reason
  rw [h]
  refine StopStands.trans ?_ (stopStands_of_blk (blk_routed (routed_handAll _ _)))
  split
  · exact hc.trans ((stopStands_setRegF _ _ _ _ _ _).trans (stopStands_setRegF _ _ _ _ _ _))
  · exact hc

end Sys2Proof.Laws
end

