-- ==== Sys2Proof/Proofs/StopRestart.lean ====
section
/-!
PROOF. O36: the requests of BLK_CTRL, the end of STOPPING, faults and the ends of long operations (R40, R42, R44 to R51).
-/
namespace Sys2Proof.Laws
open Sys2Proof.Machine Sys2Proof.Safety

variable {s t u : State} {p : Path} {tag pg : Nat} {i : PageId}

/-! Where the page of a link stands (R534). -/

theorem pgPort_of_pageAt_fport {n d : Nat} (h : pageAt pg = some ⟨.fport, n, d⟩) : pgPort (firstPort d + n) = pg := by
  unfold pageAt at h
  obtain ⟨h1, h⟩ := ite_eq_of_ne h (by split <;> simp)
  by_cases h2 : pg < 0x5000
  · rw [if_pos h2] at h
    dsimp only at h
    obtain ⟨-, h⟩ := ite_eq_of_ne h (by split <;> simp)
    iterate 4 obtain ⟨-, h⟩ := ite_eq_of_ne h (by simp)
    obtain ⟨h3, h⟩ := ite_eq_of_ne h (by simp)
    by_cases h4 : pg % 0x1000 < 0x20 + numPorts (pg / 0x1000 - 1)
    · rw [if_pos h4] at h
      injection h with h
      injection h with h5 h6 h7
      have hd : d = 0 ∨ d = 1 ∨ d = 2 ∨ d = 3 := by omega
      rw [h7] at h4
      unfold pgPort portDie dieBase
      rcases hd with rfl | rfl | rfl | rfl <;> simp only [firstPort, numPorts] at * <;> grind
    · obtain ⟨-, h⟩ := ite_eq_of_ne ((if_neg h4).symm.trans h) (by simp)
      iterate 4 obtain ⟨-, h⟩ := ite_eq_of_ne h (by simp)
      obtain ⟨-, h⟩ := ite_eq_of_ne h (by split <;> simp)
      cases h
  · rw [if_neg h2] at h
    cases h

theorem pgPort_of_pageAt_nhl {n d : Nat} (h : pageAt pg = some ⟨.nhl, n, d⟩) : pgPort 18 = pg := by
  unfold pageAt at h
  by_cases h1 : pg < 0x1000
  · rw [if_pos h1] at h
    split at h <;> simp_all
    decide
  · rw [if_neg h1] at h
    by_cases h2 : pg < 0x5000
    · rw [if_pos h2] at h
      dsimp only at h
      obtain ⟨-, h⟩ := ite_eq_of_ne h (by split <;> simp)
      iterate 11 obtain ⟨-, h⟩ := ite_eq_of_ne h (by simp)
      obtain ⟨-, h⟩ := ite_eq_of_ne h (by split <;> simp)
      cases h
    · rw [if_neg h2] at h
      cases h

/-- The port of a link's page has that page. -/
theorem pgPort_port (hp : pageAt pg = some i) (hl : i.ty = .fport ∨ i.ty = .nhl) : pgPort i.port = pg := by
  obtain ⟨ty, n, d⟩ := i
  rcases hl with rfl | rfl
  · exact pgPort_of_pageAt_fport hp
  · exact pgPort_of_pageAt_nhl hp

/-! The staged values (R46). -/

/-- What takes effect of a staged set in order: the staged value where there is one. -/
theorem tget?_foldl_tput {α : Type} {g : Tab α} (h : tabOk g = true) (m : Tab α) (o : Nat) :
    tget? (g.foldl (fun m w => tput m w.1 w.2) m) o = (tget? g o).or (tget? m o) := by
  induction g generalizing m with
  | nil => rfl
  | cons w g ih =>
    obtain ⟨k, v⟩ := w
    obtain ⟨habove, hg⟩ := (tabOk_cons k v g).1 h
    rw [List.foldl_cons, ih hg, tget?_tput]
    by_cases ho : k = o
    · subst ho
      have hn : tget? g k = none := by
        rw [Option.eq_none_iff_forall_ne_some]
        exact fun a ha => lt_irrefl k (habove _ (mem_of_tget? ha))
      simp [tget?, hn]
    · simp [tget?, ho, Ne.symm ho]

/-! Answers of a request (R44, R45). -/

theorem blk_setResp (s : State) (p : Path) (pg r : Nat) :
    blk (setResp s p pg r) pg = { blk s pg with resp := tput (blk s pg).resp (pathIx p) r } := blk_modBlk_same s pg _

theorem onlyPage_setResp (s : State) (p : Path) (pg r : Nat) : OnlyPage s (setResp s p pg r) pg := onlyPage_modBlk s pg _

/-- A request that is not accepted leaves the block as it is, but for its answer and its error. -/
theorem ctlReject_spec (s : State) (p : Path) (pg r off : Nat) :
    Rejects s (ctlReject s p pg r off) p pg r ∧ OnlyPage s (ctlReject s p pg r off) pg := by
  have hb := blk_setResp s p pg r
  have herr := errs_errSet (setResp s p pg r) pg (4096 * pg + off) (show errReject < 32 by decide)
  refine ⟨⟨?_, herr.set, ?_, ?_, ?_, fun h => (herr.regs h).trans (by rw [hb])⟩, onlyPage_trans (onlyPage_setResp s p pg r) herr.only⟩
  · refine (congrArg (tget? · (pathIx p)) (errSet_proj (·.resp) _ _ _ _ pg)).trans ?_
    rw [hb]
    exact tget?_tput_same _ _ _
  · exact herr.st.trans (by rw [hb])
  · exact (errSet_proj (·.owner) _ _ _ _ pg).trans (by rw [hb])
  · exact herr.staged.trans (by rw [hb])

/-! The end of a stop. -/

/-- Where the stop of a link ends, the link starts over: of its page a register (R385, R400); elsewhere nothing. -/
theorem onResume_spec (s : State) (hp : pageAt pg = some i) : (∃ r, blk (onResume s pg) pg = { blk s pg with regs := r }) ∧
    OnlyPage s (onResume s pg) pg ∧ (i.ty ≠ .fport → i.ty ≠ .nhl → onResume s pg = s) := by
  unfold onResume
  rw [hp]
  dsimp only
  by_cases hl : i.ty = .fport ∨ i.ty = .nhl
  · rw [if_pos (by simpa using hl)]
    unfold setLink setRegF setReg
    rw [pgPort_port hp hl]
    refine ⟨⟨_, blk_modBlk_same s pg _⟩, onlyPage_modBlk s pg _, fun h1 h2 => ?_⟩
    rcases hl with h | h <;> contradiction
  · rw [if_neg (by simpa using hl)]
    exact ⟨⟨_, rfl⟩, onlyPage_refl s pg, fun _ _ => rfl⟩

/-- A block whose stop ends in IDLE, with the registers it then has. -/
def resumed (s : State) (p : Path) (pg : Nat) (g : Blk → Blk) : State :=
  onResume (setResp (modBlk s pg (fun b => (g b).endStop.enter .idle)) p pg rsAccepted) pg

theorem resumed_spec (s : State) (p : Path) (hp : pageAt pg = some i) {g : Blk → Blk} (hst : ∀ b, (g b).st = b.st := by exact fun _ => rfl)
    (hq : ∀ b, (g b).seq = b.seq := by exact fun _ => rfl) :
    Accepts s (resumed s p pg g) p pg .idle none ∧ (blk (resumed s p pg g) pg).staged = [] ∧ OnlyPage s (resumed s p pg g) pg ∧
      (i.ty ≠ .fport → i.ty ≠ .nhl → (blk (resumed s p pg g) pg).regs = (g (blk s pg)).regs ∧ (resumed s p pg g).partE = s.partE) := by
  obtain ⟨⟨r, hb⟩, honly, hsame⟩ := onResume_spec (setResp (modBlk s pg (fun b => (g b).endStop.enter .idle)) p pg rsAccepted) hp
  change blk (resumed s p pg g) pg = _ at hb
  change OnlyPage _ (resumed s p pg g) pg at honly
  rw [blk_setResp, blk_modBlk_same] at hb
  refine ⟨?_, by rw [hb]; rfl, onlyPage_trans (onlyPage_trans (onlyPage_modBlk s pg _) (onlyPage_setResp _ p pg _)) honly, fun h1 h2 => ?_⟩
  · unfold Accepts
    rw [hb]
    exact ⟨tget?_tput_same _ _ _, rfl, hst _, congrArg (fun n => (n + 1) % 65536) (hq _), rfl⟩
  · have he : resumed s p pg g = _ := hsame h1 h2
    rw [he, blk_setResp, blk_modBlk_same]
    exact ⟨rfl, rfl⟩

theorem ctlStopped_owner (h : (blk s pg).st = .stopped) (ho : (blk s pg).owner = some p) : ctlStopped s p pg = none := by
  unfold ctlStopped
  simp [h, ho]

theorem ctlStopped_state (h : (blk s pg).st ≠ .stopped) : ctlStopped s p pg = some rsWrongState := by
  unfold ctlStopped
  simp [h]

theorem ctlStopped_other (h : (blk s pg).st = .stopped) (ho : (blk s pg).owner ≠ some p) : ctlStopped s p pg = some rsOwned := by
  unfold ctlStopped
  simp [h, ho]

theorem ctlRestart_refused {r : Nat} (h : ctlStopped s p pg = some r) : ctlRestart s p pg = ctlReject s p pg r 0x00C := by
  unfold ctlRestart
  rw [h]

theorem ctlDiscard_refused {r : Nat} (h : ctlStopped s p pg = some r) : ctlDiscard s p pg = ctlReject s p pg r 0x00C := by
  unfold ctlDiscard
  rw [h]

theorem ctlRestart_inconsistent {o : Nat} (h : ctlStopped s p pg = none) (hb : stagedBad s pg = some o) :
    ctlRestart s p pg = ctlReject s p pg rsInvalid o := by
  unfold ctlRestart
  rw [h, hb]

theorem ctlRestart_consistent (h : ctlStopped s p pg = none) (hb : stagedBad s pg = none) : ctlRestart s p pg = resumed s p pg Blk.apply := by
  unfold ctlRestart
  rw [h, hb]
  rfl

theorem ctlDiscard_taken (h : ctlStopped s p pg = none) : ctlDiscard s p pg = resumed s p pg id := by
  unfold ctlDiscard
  rw [h]
  rfl

/-- After RESTART a register holds its staged value where it has one. -/
theorem regW_applied {o : Nat} (hok : tabOk (blk s pg).staged = true) (hr : (blk t pg).regs = (blk s pg).apply.regs) (hE : t.partE = s.partE) :
    regW t pg o = (tget? (blk s pg).staged o).getD (regW s pg o) := by
  unfold regW
  rw [hr, hE]
  unfold Blk.apply
  rw [tget?_foldl_tput hok]
  cases tget? (blk s pg).staged o <;> rfl

/-! STOP (R44, R84). -/

/-- A park that PREEMPT or MIGRATE asks for touches the tiles and the reservations alone. -/
def ParkFrame (s t : State) : Prop := ∃ x r, t = { s with tiles := x, resvs := r }

theorem ParkFrame.refl (s : State) : ParkFrame s s := ⟨_, _, rfl⟩

theorem ParkFrame.trans (h : ParkFrame s t) (k : ParkFrame t u) : ParkFrame s u := by
  obtain ⟨x, r, rfl⟩ := h
  obtain ⟨x', r', rfl⟩ := k
  exact ⟨x', r', rfl⟩

theorem ParkFrame.modTile (h : ParkFrame s t) (n : Nat) (f : Tile → Tile) : ParkFrame s (modTile t n f) := h.trans ⟨_, _, rfl⟩

theorem ParkFrame.foldl {α : Type} {f : State → α → State} (h : ParkFrame s t) (hf : ∀ u x, ParkFrame s u → ParkFrame s (f u x)) (xs : List α) :
    ParkFrame s (xs.foldl f t) := foldl_keeps (ParkFrame s) f hf xs t h

theorem ParkFrame.regroup (h : ParkFrame s t) (n : Nat) (gs : List (Nat × Group)) : ParkFrame s (regroup t n gs) := by
  refine h.foldl (fun u p hu => ?_) gs
  split
  · exact hu.modTile _ _
  · exact hu

theorem ParkFrame.stopGroups (h : ParkFrame s t) (n : Nat) (gs : List (Nat × Group)) (reason : Nat) : ParkFrame s (stopGroups t n gs reason) :=
  h.foldl (fun _ _ hu => hu.modTile _ _) gs

theorem ParkFrame.endResvs (h : ParkFrame s t) (n : Nat) (ns : List Nat) : ParkFrame s (endResvs t n ns) := h.trans ⟨_, _, rfl⟩

theorem parkFrame_stopWg (s : State) (n w : Nat) {reason : Nat} (hr : reason = rPreempt ∨ reason = rMigrate) :
    ParkFrame s (stopWg s n w reason) := by
  have h := ParkFrame.refl s
  have hd : (decide (reason = rPreempt) || decide (reason = rMigrate)) = true := by simpa using hr
  unfold stopWg
  split
  · exact h
  · dsimp only
    rw [hd]
    split
    · exact h.regroup _ _
    · split
      · exact h
      · split
        · exact (h.modTile _ _).modTile _ _
        · split
          · split
            · exact h.modTile _ _
            · exact h
          · exact (((h.stopGroups _ _ _).modTile _ _).endResvs _ _).modTile _ _

/-- The stop of a tile reads its mode and parks its workgroups; of its page it sets the mode alone. -/
theorem onStop_spec (s : State) (pg : Nat) : ∃ m, blk (onStop s pg) pg = { blk s pg with stopMode := m } ∧ (onStop s pg).ram = s.ram := by
  unfold onStop
  split
  · next n d hp =>
    dsimp only
    generalize regF s pg 0x08C 1 0 = m
    have hb : blk (modBlk s pg (fun b => { b with stopMode := m })) pg = { blk s pg with stopMode := m } := blk_modBlk_same s pg _
    split
    · have hf : ParkFrame (modBlk s pg (fun b => { b with stopMode := m })) ((tile (modBlk s pg (fun b => { b with stopMode := m })) (44 * d + n)).wgs.foldl
          (fun s w => stopWg s (44 * d + n) w.1 (if m = 1 then rMigrate else rPreempt)) (modBlk s pg (fun b => { b with stopMode := m }))) :=
        (ParkFrame.refl _).foldl (fun u w hu => hu.trans (parkFrame_stopWg u _ _ (by split <;> simp))) _
      obtain ⟨x, r, hf⟩ := hf
      rw [hf]
      exact ⟨m, hb, rfl⟩
    · exact ⟨m, hb, rfl⟩
  · exact ⟨_, rfl, rfl⟩

theorem ctlStop_taken (ho : (blk s pg).owner = none) (hs : (blk s pg).st.inService = true) :
    Accepts s (ctlStop s p pg) p pg .stopping (some p) ∧ (ctlStop s p pg).ram = s.ram := by
  obtain ⟨m, hb, hram⟩ := onStop_spec (setResp (setBlk s pg { (blk s pg).enter .stopping with owner := some p }) p pg rsAccepted) pg
  rw [blk_setResp, blk_setBlk_same] at hb
  have hstop : ctlStop s p pg =
      onStop (setResp (setBlk s pg { (blk s pg).enter .stopping with owner := some p }) p pg rsAccepted) pg := by
    simp [ctlStop, ho, hs]
  rw [hstop]
  refine ⟨?_, hram⟩
  unfold Accepts
  rw [hb]
  exact ⟨tget?_tput_same _ _ _, rfl, rfl, rfl, rfl⟩

theorem ctlStop_owned {o : Path} (ho : (blk s pg).owner = some o) :
    ctlStop s p pg = ctlReject s p pg (if o = p then 2 else 1) 0x00C := by
  simp only [ctlStop, ho]
  rfl

/-! TAKE and WITHDRAW. -/

theorem ctlTake_taken (hg : isGc p = true) (ho : (blk s pg).owner ≠ none) (ht : ctlTake s p pg = t) :
    (blk t pg).owner = some p ∧ (blk t pg).st = (blk s pg).st ∧ (blk t pg).staged = (blk s pg).staged ∧
      tget? (blk t pg).resp (pathIx p) = some 0 ∧ OnlyPage s t pg := by
  subst ht
  unfold ctlTake
  rw [if_neg (by simp [hg]), if_neg (by simpa using ho), blk_setResp, blk_modBlk_same]
  exact ⟨rfl, rfl, rfl, tget?_tput_same _ _ _, onlyPage_trans (onlyPage_modBlk s pg _) (onlyPage_setResp _ p pg _)⟩

theorem ctlTake_host (hg : isGc p = false) : ctlTake s p pg = ctlReject s p pg rsNotPermitted 0x00C := if_pos (by simp [hg])

theorem ctlWithdraw_taken (hs : (blk s pg).st = .stopping) (ho : (blk s pg).owner = some p) (ht : ctlWithdraw s p pg = t) :
    Accepts s t p pg (if busyWork s pg then .busy else .idle) none ∧ (blk t pg).staged = [] ∧ OnlyPage s t pg := by
  subst ht
  unfold ctlWithdraw
  rw [if_neg (by simp [hs]), if_neg (by simp [ho])]
  unfold Accepts
  rw [blk_setResp, blk_setBlk_same]
  exact ⟨⟨tget?_tput_same _ _ _, rfl, rfl, rfl, rfl⟩, rfl, onlyPage_trans (onlyPage_modBlk s pg fun _ => _) (onlyPage_setResp _ p pg _)⟩

theorem ctlWithdraw_refused (hs : (blk s pg).st ≠ .stopping) : ctlWithdraw s p pg = ctlReject s p pg rsWrongState 0x00C := if_pos hs

/-! Long operations (R51). -/

theorem onlyPage_opOver (s : State) (pg res : Nat) : OnlyPage s (opOver s pg res) pg := by
  unfold opOver opEnd settle
  dsimp only
  split
  · exact onlyPage_refl s pg
  · refine onlyPage_trans ?_ (onlyPage_modBlk _ pg _)
    split
    · exact onlyPage_trans (onlyPage_modBlk s pg _) (onlyPage_errSet _ pg _ _)
    · exact onlyPage_modBlk s pg _

theorem opOver_failed {res : Nat} (h : (blk s pg).opRun = true) (hr : res = 2 ∨ res = 4) :
    (blk (opOver s pg res) pg).errStat.getLsbD 4 = true := by
  unfold opOver opEnd settle
  dsimp only
  rw [if_neg (by simp [h]), if_pos (by simpa using hr), blk_modBlk_same, settle_errStat]
  exact errSet_bit _ pg 0 (by decide)

/-- On the pages whose operations only end. -/
theorem longOpEnds_plain (hp : pageAt pg = some i) (hr : (blk s pg).opRun = true) (ht : plainOp i.ty) (res : Nat) :
    longOpEnds s pg res = opOver s pg res := by
  obtain ⟨hme, hsec, hgde, hl2s, -⟩ := ht
  unfold longOpEnds
  rw [if_neg (by simp [hr]), hp]
  dsimp only
  split <;> simp_all

theorem opOver_resp (s : State) (pg res : Nat) : (blk (opOver s pg res) pg).resp = (blk s pg).resp := by
  have hset : ∀ (b : Blk) (w : Bool), (b.settle w).resp = b.resp := by
    intro b w
    unfold Blk.settle
    split <;> rfl
  unfold opOver opEnd settle
  dsimp only
  split
  · rfl
  · rw [blk_modBlk_same, hset]
    split
    · refine (errSet_proj (·.resp) _ _ _ _ pg).trans ?_
      rw [blk_modBlk_same]
      rfl
    · rw [blk_modBlk_same]
      rfl

theorem ctlCancel_idle (h : (blk s pg).opRun = false) : ctlCancel s p pg = ctlReject s p pg rsWrongState 0x00C := if_pos (by simp [h])

theorem ctlCancel_plain (hp : pageAt pg = some i) (hr : (blk s pg).opRun = true) (hby : isGc p = true ∨ (blk s pg).opBy = some p)
    (ht : plainOp i.ty) : ctlCancel s p pg = opOver (setResp s p pg rsAccepted) pg 3 := by
  have hr' : (blk (setResp s p pg rsAccepted) pg).opRun = true := by rw [blk_setResp]; exact hr
  rw [← longOpEnds_plain hp hr' ht]
  unfold ctlCancel
  rw [if_neg (by simp [hr]), if_neg (by rcases hby with h | h <;> simp [h])]
  obtain ⟨hme, -⟩ := ht
  rw [hp]
  dsimp only
  split
  · simp_all
  · rfl

/-! The events of a block (R40, R42, R48). -/

theorem stopEnds_eq (hs : (blk s pg).st = .stopping) (hr : (blk s pg).opRun = false) (hw : stopWork s pg = false) :
    stopEnds s pg = onStopped (setBlk s pg ((blk s pg).enter .stopped)) pg := if_pos (by simp [hs, hr, hw])

/-- A stopped link goes DOWN (R400); each block keeps its state and its stop. -/
theorem stopStands_onStopped (s : State) (pg : Nat) : StopStands s (onStopped s pg) := by
  unfold onStopped
  split
  · split
    · exact stopStands_linkDown s _ _
    · exact .refl s
  · exact .refl s

theorem onStopped_noLink (hp : pageAt pg = some i) (h1 : i.ty ≠ .fport) (h2 : i.ty ≠ .nhl) : onStopped s pg = s := by
  unfold onStopped
  rw [hp]
  simp [h1, h2]

theorem exec_blockStopped (hp : pageAt pg = some i) (hr : i.ty = .tile → tgRepl (stopEnds s pg) (44 * i.die + i.inst) = none) :
    exec (.blockStopped pg) s = .next (stopEnds s pg) := by
  refine congrArg Host.Outcome.next ?_
  dsimp only
  rw [hp]
  split
  · next n d he =>
    cases he
    unfold replStopped
    rw [hr rfl]
  · rfl

/-- A fault leaves a block FAILED, its stop ended, its error told (R40, R42). -/
theorem failBlock_spec (s : State) (pg : Nat) : (blk (failBlock s pg) pg).st = .failed ∧ (blk (failBlock s pg) pg).owner = none ∧
    (blk (failBlock s pg) pg).staged = [] ∧ (blk (failBlock s pg) pg).errStat.getLsbD 5 = true := by
  refine ⟨failBlock_st s pg, ?_, ?_, errSet_bit _ pg 0 (by decide)⟩
  · refine (errSet_proj (·.owner) _ _ _ _ pg).trans ?_
    rw [blk_modBlk_same]
    rfl
  · refine (errSet_proj (·.staged) _ _ _ _ pg).trans ?_
    rw [blk_modBlk_same]
    rfl

theorem exec_blockFault (hp : pageAt pg = some i) (hg : i.ty ≠ .gde) (hs : (blk s pg).st.silent = false) :
    ∃ t, exec (.blockFault pg) s = .next t ∧ StopStands (failBlock s pg) t := by
  refine ⟨_, rfl, ?_⟩
  rw [hp]
  dsimp only
  rw [if_neg (by simp [hs])]
  split
  · contradiction
  · exact stopStands_linkDown _ _ _
  · exact stopStands_linkDown _ _ _
  · exact .refl _

theorem exec_longOpEnd_plain {r : Nat} (hp : pageAt pg = some i) (h1 : 1 ≤ r) (h4 : r ≤ 4) (hr : (blk s pg).opRun = true) (ht : plainOp i.ty) :
    exec (.longOpEnd pg r) s = .next (opOver s pg r) := by
  refine congrArg Host.Outcome.next ?_
  rw [if_neg (by simp; omega), hp, ← longOpEnds_plain hp hr ht]
  obtain ⟨-, -, -, -, htile⟩ := ht
  split
  · simp_all
  · rfl

/-! The commands. -/

/-- A request is a write of BLK_CTRL. -/
theorem pageWrite_ctl (hp : PageIs pg i) (ha : Access s p tag) {r : Nat} (hr : r < 16) :
    pageWrite s p tag pg 0x00C r = ctlReq s p pg r := by
  have hb : bits (r % 2 ^ 32) 3 0 = r := by simp [bits]; omega
  refine (regWrite_header hp ha (show 0x00C < 0x080 by decide) rfl r).trans ?_
  change ctlReq s p pg (bits (r % 2 ^ 32) 3 0) = _
  rw [hb]

/-- Settles O36: each request is a rejection or one update of its page. -/
theorem stopChangeRestart : Obligations.StopChangeRestart := by
  unfold Obligations.StopChangeRestart
  intro s p tag pg i hp
  refine ⟨fun ha => ?requests, fun ht hs hr hw => ?stopped, fun ht hn hs hr hw => ?tileStopped, fun hg hs => ?fault,
    fun r h1 h4 hr ht => ?opEnd⟩
  case requests =>
    have rej : ∀ {c : Instr} {u : State} {r off : Nat}, exec c s = .next u → u = ctlReject s p pg r off →
        ∃ t, exec c s = .next t ∧ Rejects s t p pg r ∧ OnlyPage s t pg :=
      fun he hu => ⟨_, he, hu ▸ ctlReject_spec s p pg _ _⟩
    have run : ∀ {u v : State}, u = v → Host.Outcome.next (φ := Fault) (ρ := Refusal) u = .next v := fun h => congrArg Host.Outcome.next h
    have stop : exec (.stop p tag pg) s = .next (ctlStop s p pg) := run (pageWrite_ctl hp ha (r := 1) (by decide))
    have restart : exec (.restart p tag pg) s = .next (ctlRestart s p pg) := run (pageWrite_ctl hp ha (r := 2) (by decide))
    have discard : exec (.discard p tag pg) s = .next (ctlDiscard s p pg) := run (pageWrite_ctl hp ha (r := 3) (by decide))
    have cancel : exec (.cancelOp p tag pg) s = .next (ctlCancel s p pg) := run (pageWrite_ctl hp ha (r := 4) (by decide))
    have take : exec (.take p tag pg) s = .next (ctlTake s p pg) := run (pageWrite_ctl hp ha (r := 5) (by decide))
    have withdraw : exec (.withdraw p tag pg) s = .next (ctlWithdraw s p pg) := run (pageWrite_ctl hp ha (r := 6) (by decide))
    refine ⟨fun ho hs => ⟨_, stop, ?_⟩, fun o ho => rej stop (ctlStop_owned ho), fun hs => rej restart (ctlRestart_refused (ctlStopped_state hs)),
      fun hs => rej discard (ctlDiscard_refused (ctlStopped_state hs)), fun hs ho => rej restart (ctlRestart_refused (ctlStopped_other hs ho)),
      fun hs ho => rej discard (ctlDiscard_refused (ctlStopped_other hs ho)),
      fun o hs ho hb => rej restart (ctlRestart_inconsistent (ctlStopped_owner hs ho) hb), fun hs ho hb hok => ?_, fun hs ho => ?_,
      fun hg ho => ⟨_, take, ctlTake_taken hg ho rfl⟩, fun hg => rej take (ctlTake_host hg),
      fun hs ho => ⟨_, withdraw, ctlWithdraw_taken hs ho rfl⟩, fun hs => rej withdraw (ctlWithdraw_refused hs),
      fun hr => rej cancel (ctlCancel_idle hr), fun hr hby ht => ?_⟩
    · exact ctlStop_taken ho hs
    · obtain ⟨hacc, hstaged, honly, hregs⟩ := resumed_spec s p hp.2 (g := Blk.apply)
      refine ⟨_, restart.trans (run (ctlRestart_consistent (ctlStopped_owner hs ho) hb)), hacc, hstaged, honly, fun h1 h2 o => ?_⟩
      exact regW_applied hok (hregs h1 h2).1 (hregs h1 h2).2
    · obtain ⟨hacc, hstaged, honly, hregs⟩ := resumed_spec s p hp.2 (g := id)
      exact ⟨_, discard.trans (run (ctlDiscard_taken (ctlStopped_owner hs ho))), hacc, hstaged, honly, fun h1 h2 => (hregs h1 h2).1⟩
    · have hr' : (blk (setResp s p pg rsAccepted) pg).opRun = true := by rw [blk_setResp]; exact hr
      obtain ⟨hover, hres⟩ := opOver_op hr' 3
      refine ⟨_, cancel.trans (run (ctlCancel_plain hp.2 hr hby ht)), hover, hres, ?_,
        onlyPage_trans (onlyPage_setResp s p pg _) (onlyPage_opOver _ pg 3)⟩
      rw [opOver_resp, blk_setResp]
      exact tget?_tput_same _ _ _
  case stopped =>
    have hb := blk_setBlk_same s pg ((blk s pg).enter .stopped)
    obtain ⟨hst, howner, hstaged, -⟩ := stopStands_onStopped (setBlk s pg ((blk s pg).enter .stopped)) pg
    refine ⟨_, exec_blockStopped hp.2 fun h => absurd h ht, ?_⟩
    rw [stopEnds_eq hs hr hw, hst, howner, hstaged, hb]
    exact ⟨rfl, rfl, rfl⟩
  case tileStopped =>
    have he : stopEnds s pg = setBlk s pg ((blk s pg).enter .stopped) :=
      (stopEnds_eq hs hr hw).trans (onStopped_noLink hp.2 (by simp [ht]) (by simp [ht]))
    refine ⟨_, exec_blockStopped hp.2 fun _ => by rw [he]; exact hn, ?_⟩
    rw [he, blk_setBlk_same]
    exact ⟨rfl, onlyPage_modBlk s pg fun _ => _⟩
  case fault =>
    obtain ⟨t, ht, hstands⟩ := exec_blockFault hp.2 hg hs
    obtain ⟨hst, howner, hstaged, hbit⟩ := failBlock_spec s pg
    exact ⟨t, ht, (hstands.st pg).trans hst, (hstands.owner pg).trans howner, (hstands.staged pg).trans hstaged, hstands.bits pg 5 hbit⟩
  case opEnd =>
    obtain ⟨hover, hres⟩ := opOver_op hr r
    exact ⟨_, exec_longOpEnd_plain hp.2 h1 h4 hr ht, hover, hres, opOver_failed hr, onlyPage_opOver s pg r⟩

end Sys2Proof.Laws
end

