-- ==== Sys2Proof/Proofs/ErrorLog.lean ====
section
/-!
PROOF. O54 fails in its last clause. The record of an error is written into memory like any other line (R523), and each write of
a line evaluates the watches armed on the counters in it (R292). Where a record lands on a counter and makes it smaller, BEL sets
COUNTER_FELL, itself an error and a new report: the reports left are then more than those behind the oldest.
-/
namespace Sys2Proof.Laws
open Sys2Proof.Machine Sys2Proof.Safety

/-- A watch on the counter at 168, which it has seen at 5. -/
def loggedOverWatch : Watch := { id := 0, pa := 168, target := 1, slot := 0, space := 0, last := 5, kind := .host 0 0 0 }

/-- A module that runs, with AS0 active (its descriptor at 0) and one report waiting. The third record of its log goes to 128, and
a watch stands on the counter at 168, among the record's bytes that are always 0. -/
def loggedOver : State :=
  { booted := true, pwrGood := true, ram := { cells := [(0, 1), (168, 5)], keys := [(0, 1)] }, keys := [(255, 0)]
    xcache := [(agDie 0, [{ space := 0, vbase := 0, frames := 8, attr := 0x7F, target := 0, mirror := 0, lim := 2 ^ 64 }])]
    bels := [(0, { armed := [loggedOverWatch] })], reports := [⟨pgTile 0, 12, 0, 0, 0, 0, false, false⟩], records := 2 }

/-- Where the record of `loggedOver` goes: one line, translated by AS0's cached entry. -/
def loggedOverOut : XOut := { ok := [(128, .loc 128, false)], top := 191 }

theorem loggedOver_out :
    (translateRuns loggedOver (agDie 0) 0 0 .write false [(regPair loggedOver pgDbg 0x090 + 64 * (loggedOver.records % 4096), 64)]).1 =
      loggedOverOut := by
  decide +kernel

theorem loggedOver_plain : Plain loggedOver loggedOverOut := by
  refine ⟨rfl, fun x hx => ?_, by decide, by decide⟩
  rw [List.mem_singleton.1 hx]
  exact ⟨128, rfl, rfl, by decide +kernel, by decide +kernel⟩

theorem loggedOver_apart : Safety.Apart loggedOver 0 0 loggedOverOut := by
  intro x hx p hp i hi
  obtain rfl : x = (128, .loc 128, false) := List.mem_singleton.1 hx
  cases hp
  have hsd : sdAddr loggedOver 0 0 = 0 := by decide +kernel
  rw [hsd]
  omega

theorem defBlk_injArm (b : Bool) (pg : Nat) : (defBlk b pg).injArm = false := by
  unfold defBlk
  split
  · split
    · split <;> rfl
    · rfl
  · rfl

theorem loggedOver_sound : Sound loggedOver :=
  ⟨fun pg => defBlk_injArm true pg, fun _ _ _ h => by cases h⟩

/-- BEL's report of COUNTER_FELL on the counter at 168. -/
def fellReport : Report := ⟨pgBel 0, 8, 0x100, 168, 0, 0, false, false⟩

/-- The record is written over the counter, and BEL's report stands in the queue that was to be empty. -/
theorem loggedOver_reports : (match execErrorLogWrite loggedOver with | .next t => t.reports | _ => []) = [fellReport] := by
  decide +kernel

/-- Refutes O54: writing the record of the only report over a watched counter leaves another report. -/
theorem not_errorsTriggersAndHaltsAreRecorded : ¬ Obligations.ErrorsTriggersAndHaltsAreRecorded := by
  unfold Obligations.ErrorsTriggersAndHaltsAreRecorded
  intro h
  obtain ⟨-, -, -, -, hlog⟩ := h loggedOver
  obtain ⟨t, ht, hreports, -⟩ := hlog _ [] _ _ _ rfl (by decide +kernel : pageAt (pgTile 0) = some ⟨.tile, 0, 0⟩) (by decide +kernel)
    (Prod.ext loggedOver_out rfl) loggedOver_plain loggedOver_apart loggedOver_sound
  have hfell := loggedOver_reports
  rw [show execErrorLogWrite loggedOver = .next t from ht] at hfell
  cases hfell.symm.trans hreports

end Sys2Proof.Laws
end

