-- ==== Sys2Proof/Proofs/Steady.lean ====
section
/-!
SUPPORT. What the work of a warm reset leaves alone (R43, R285, R501): `Steady s t` says that `t` has the keys, the card and the
flash of `s`, is held in reset and drains as `s` does, and has no command and no launch where `s` has none. Like `MemFrom` it passes
along every composition of the model's functions, so each function gets one lemma: from `Steady s0 s` to its result on `s`.
-/
namespace Sys2Proof.Laws
open Sys2Proof.Machine Sys2Proof.Safety

/-- The fields that the work of a warm reset neither reads back nor writes. -/
@[reducible] def resetHeld (s : State) : Tab Nat × Tab Nat × Flash × Bool × Bool := (s.keys, s.card, s.flash, s.draining, s.resetLow)

structure Steady (s t : State) : Prop where
  held     : resetHeld t = resetHeld s
  cmds     : s.cmds = [] → t.cmds = []
  launches : s.launches = [] → t.launches = []

variable {s0 s t a b : State} {α β γ : Type}

theorem Steady.refl (s : State) : Steady s s := ⟨rfl, id, id⟩

theorem Steady.keys_card_flash (h : Steady s t) : t.keys = s.keys ∧ t.card = s.card ∧ t.flash = s.flash := by
  have hh := h.held
  simp only [resetHeld, Prod.mk.injEq] at hh
  exact ⟨hh.1, hh.2.1, hh.2.2.1⟩

theorem Steady.draining_resetLow (h : Steady s t) : t.draining = s.draining ∧ t.resetLow = s.resetLow := by
  have hh := h.held
  simp only [resetHeld, Prod.mk.injEq] at hh
  exact hh.2.2.2

/-- A change to other fields. -/
theorem Steady.upd (h : Steady s0 s) (hf : (resetHeld t, t.cmds, t.launches) = (resetHeld s, s.cmds, s.launches) := by with_reducible rfl) :
    Steady s0 t := by
  obtain ⟨hk, hf⟩ := Prod.ext_iff.1 hf
  obtain ⟨hc, hl⟩ := Prod.ext_iff.1 hf
  exact ⟨hk.trans h.held, fun k => hc.trans (h.cmds k), fun k => hl.trans (h.launches k)⟩

/-- A change to commands that are there. -/
theorem Steady.mapCmds {f} (h : Steady s0 s) : Steady s0 { s with cmds := s.cmds.map f } :=
  ⟨h.held, fun k => congrArg (List.map f) (h.cmds k), h.launches⟩

/-- A change to launches that are there. -/
theorem Steady.mapLaunches {f} (h : Steady s0 s) : Steady s0 { s with launches := s.launches.map f } :=
  ⟨h.held, h.cmds, fun k => congrArg (List.map f) (h.launches k)⟩

/-- The draining ends. -/
theorem Steady.drained (h : Steady s0 s) : Steady { s0 with draining := false } { s with draining := false } := by
  obtain ⟨hh, hc, hl⟩ := h
  simp only [resetHeld, Prod.mk.injEq] at hh
  obtain ⟨hk, hcard, hflash, -, hlow⟩ := hh
  exact ⟨by simp [hk, hcard, hflash, hlow], hc, hl⟩

/-! The state among the results of a function: taken out of a tuple, put into one. -/

theorem Steady.of_pair {p : α × State} {x : α} (h : Steady s0 p.2) (e : p = (x, t)) : Steady s0 t := by
  subst e
  exact h

theorem Steady.pair {x : α} (h : Steady s0 s) : Steady s0 (x, s).2 := h
theorem Steady.pair22 {x : α} {y : β} (h : Steady s0 s) : Steady s0 (x, y, s).2.2 := h

/-! Branches: both ends given, or both as steps from the state before (`ifs`, with `opt` and `optElse` where one of them is
that state). The suffixes name the component of a tuple. -/

section
variable {c : Prop} {_ : Decidable c}

theorem Steady.ite (ha : Steady s0 a) (hb : Steady s0 b) : Steady s0 (if c then a else b) := by
  split <;> assumption

theorem Steady.ifs (h : Steady s0 s) (ha : Steady s0 s → Steady s0 a) (hb : Steady s0 s → Steady s0 b) :
    Steady s0 (if c then a else b) := .ite (ha h) (hb h)

theorem Steady.opt (h : Steady s0 s) (ha : Steady s0 s → Steady s0 a) : Steady s0 (if c then a else s) :=
  .ite (ha h) h

theorem Steady.optElse (h : Steady s0 s) (hb : Steady s0 s → Steady s0 b) : Steady s0 (if c then s else b) :=
  .ite h (hb h)

theorem Steady.ite_2 {a b : α × State} (ha : Steady s0 a.2) (hb : Steady s0 b.2) : Steady s0 (if c then a else b).2 := by
  split <;> assumption

theorem Steady.ite_22 {a b : α × β × State} (ha : Steady s0 a.2.2) (hb : Steady s0 b.2.2) :
    Steady s0 (if c then a else b).2.2 := by
  split <;> assumption

theorem Steady.ifs_22 {a b : α × β × State} (h : Steady s0 s) (ha : Steady s0 s → Steady s0 a.2.2)
    (hb : Steady s0 s → Steady s0 b.2.2) : Steady s0 (if c then a else b).2.2 := .ite_22 (ha h) (hb h)

end

/-! Loops: `g` picks the state out of what the loop carries. -/

theorem Steady.foldlOf {f : β → α → β} {p : β} {xs : List α} (g : β → State) (h : Steady s0 (g p))
    (hf : ∀ p x, Steady s0 (g p) → Steady s0 (g (f p x))) : Steady s0 (g (xs.foldl f p)) := by
  induction xs generalizing p with
  | nil => exact h
  | cons x xs ih => exact ih (hf p x h)

theorem Steady.foldl {f : State → α → State} {xs : List α} (h : Steady s0 s)
    (hf : ∀ s x, Steady s0 s → Steady s0 (f s x)) : Steady s0 (xs.foldl f s) := .foldlOf id h hf

theorem Steady.foldl_2 {p : α × State} {f : α × State → γ → α × State} {xs : List γ} (h : Steady s0 p.2)
    (hf : ∀ p x, Steady s0 p.2 → Steady s0 (f p x).2) : Steady s0 (xs.foldl f p).2 := .foldlOf Prod.snd h hf

end Sys2Proof.Laws
end

