-- ==== Sys2Proof/Proofs/SteadyTiles.lean ====
section
/-!
SUPPORT. `Steady` along the functions of tiles: state updates, fabric requests, memory, translation, groups, threads and stores.
-/
namespace Sys2Proof.Laws
open Sys2Proof.Machine Sys2Proof.Safety

variable {s0 s t : State}

/-! Pages, registers and ports. -/

theorem Steady.takeFree (h : Steady s0 s) : Steady s0 (takeFree s).2 := h.upd rfl

theorem Steady.setBlk {pg b} (h : Steady s0 s) : Steady s0 (setBlk s pg b) := h.upd rfl

theorem Steady.modBlk {pg f} (h : Steady s0 s) : Steady s0 (modBlk s pg f) := h.setBlk

theorem Steady.setReg {pg off w'} (h : Steady s0 s) : Steady s0 (setReg s pg off w') := h.modBlk

theorem Steady.setRegF {pg off hi lo v} (h : Steady s0 s) : Steady s0 (setRegF s pg off hi lo v) := h.setReg

theorem Steady.bumpF {pg off hi lo k} (h : Steady s0 s) : Steady s0 (bumpF s pg off hi lo k) := h.setRegF

theorem Steady.raise {e} (h : Steady s0 s) : Steady s0 (raise s e) := h.upd rfl

theorem Steady.cardPut {kind unit v} (h : Steady s0 s) : Steady s0 (cardPut s kind unit v) := h.upd rfl

theorem Steady.cairnTrigger {src btype} (h : Steady s0 s) : Steady s0 (cairnTrigger s src btype) := by
  unfold Machine.cairnTrigger
  split
  · exact h
  · exact h.setReg.upd.raise

theorem Steady.setTile {t x} (h : Steady s0 s) : Steady s0 (setTile s t x) := h.upd rfl

theorem Steady.modTile {t f} (h : Steady s0 s) : Steady s0 (modTile s t f) := h.setTile

theorem Steady.perfCount {t ev k} (h : Steady s0 s) : Steady s0 (perfCount s t ev k) :=
  h.opt fun h => h.foldl fun _ _ h => h.opt (·.modTile)

theorem Steady.errSet {pg bit addr} (h : Steady s0 s) : Steady s0 (errSet s pg bit addr) :=
  h.setBlk.optElse fun h => (h.opt (·.cairnTrigger)).upd

theorem Steady.injFire {pg due} (h : Steady s0 s) : Steady s0 (injFire s pg due) := h.modBlk

theorem Steady.setPort {p x} (h : Steady s0 s) : Steady s0 (setPort s p x) := h.upd rfl

theorem Steady.modPort {p f} (h : Steady s0 s) : Steady s0 (modPort s p f) := h.setPort

theorem Steady.setLink {p st} (h : Steady s0 s) : Steady s0 (setLink s p st) := h.setRegF

theorem Steady.sendOn {p k req} (h : Steady s0 s) : Steady s0 (sendOn s p k req) := h.ifs (·.modPort) (·.modPort)

theorem Steady.emit {p c} (h : Steady s0 s) : Steady s0 (emit s p c) := h.modPort

/-! Requests to other devices. -/

theorem Steady.runTake {stream dst} (h : Steady s0 s) : Steady s0 (runTake s stream dst).2.2 := by
  unfold Machine.runTake
  split
  · exact h.upd.pair22
  · exact h.takeFree.upd

theorem Steady.runAnswered {stream dst} (h : Steady s0 s) : Steady s0 (runAnswered s stream dst) := by
  unfold Machine.runAnswered
  split
  · exact h.ifs (·.upd) (·.upd)
  · exact h

theorem Steady.modReq {id f} (h : Steady s0 s) : Steady s0 (modReq s id f) := h.upd rfl

theorem Steady.delReq {id} (h : Steady s0 s) : Steady s0 (delReq s id) := h.upd rfl

theorem Steady.holdAnswer {a} (h : Steady s0 s) : Steady s0 (holdAnswer s a) := h.upd rfl

theorem Steady.answer {k status operand data mark isData} (h : Steady s0 s) :
    Steady s0 (answer s k status operand data mark isData) := by
  unfold Machine.answer
  dsimp only
  split
  · exact h
  · split
    · exact h.holdAnswer
    · exact h.sendOn

theorem Steady.mirrorGone {m} (h : Steady s0 s) : Steady s0 (mirrorGone s m) := h.optElse (·.upd.raise)

theorem Steady.relayEnd {o res cause data mark} (h : Steady s0 s) : Steady s0 (relayEnd s o res cause data mark) := by
  unfold Machine.relayEnd
  split
  · exact h.answer
  · exact h

theorem Steady.endReq {id res0 cause} (h : Steady s0 s) : Steady s0 (endReq s id res0 cause) := by
  unfold Machine.endReq
  split
  · exact h
  · split
    · exact h
    · extract_lets gone res s1 s2 s3 bit s4 s5 s6
      have h1 : Steady s0 s1 := by
        unfold s1
        split
        · exact h.opt (·.mirrorGone)
        · exact h
      have h2 : Steady s0 s2 := h1.modReq
      have h3 : Steady s0 s3 := h2.opt (·.runAnswered)
      have h4 : Steady s0 s4 := h3.opt (·.upd)
      have h5 : Steady s0 s5 := h4.opt (·.raise.errSet)
      have h6 : Steady s0 s6 := h5.relayEnd
      clear_value gone res s1 s2 s3 bit s4 s5 s6
      exact h6.opt (·.delReq)

theorem Steady.trySend {id} (h : Steady s0 s) : Steady s0 (trySend s id) := by
  unfold Machine.trySend
  split
  · exact h
  next r _ =>
    refine h.ifs (fun h => h) fun h => h.ifs (·.endReq) fun h => h.ifs (fun h => h) fun h => h.ifs (·.endReq) fun h => h.optElse fun h => ?_
    split
    · exact h
    · refine h.ifs (·.delReq.sendOn) fun h => ?_
      split
      next e =>
      have numbered := e ▸ h.ifs_22 (fun h => h) fun h => .ifs_22 h (fun h => h) (·.runTake)
      exact (((Steady.modReq numbered).opt (·.upd)).opt (·.bumpF)).sendOn

theorem Steady.sendMir {k owner mir} (h : Steady s0 s) : Steady s0 (sendMir s k owner mir) := h.upd.trySend

theorem Steady.sendReq {k owner} (h : Steady s0 s) : Steady s0 (sendReq s k owner) := h.sendMir

theorem Steady.delReqs {ids} (h : Steady s0 s) : Steady s0 (delReqs s ids) := h.upd rfl

/-! Lines, L2 and watches. -/

theorem Steady.setMark {pa} (h : Steady s0 s) : Steady s0 (setMark s pa) := h.upd rfl

theorem Steady.clrMark {pa} (h : Steady s0 s) : Steady s0 (clrMark s pa) := by
  unfold Machine.clrMark
  extract_lets k st g x s1 r s2
  have h1 : Steady s0 s1 := h.opt (·.upd)
  have h2 : Steady s0 s2 := h1.upd
  exact h2.opt (·.upd)

theorem Steady.setSlice {g x} (h : Steady s0 s) : Steady s0 (setSlice s g x) := h.upd rfl

theorem Steady.dropMark {line} (h : Steady s0 s) :
    Steady s0 { s with ram := { s.ram with marks := tdel s.ram.marks line } } := h.upd

theorem Steady.dropClean {x key} (h : Steady s0 s) : Steady s0 (dropClean s x key) := by
  unfold Machine.dropClean
  split
  · split
    · exact h.setMark
    · exact h.dropMark
    · exact h
  · exact h

theorem Steady.displace {g key} (h : Steady s0 s) : Steady s0 (displace s g key) := h.optElse (·.takeFree.dropClean.setSlice)

theorem Steady.hbmRead {pa} (h : Steady s0 s) : Steady s0 (hbmRead s pa) :=
  h.ifs (·.injFire.bumpF.errSet) (·.opt (·.injFire.bumpF.setMark.errSet))

theorem Steady.l2Mark {pa} (h : Steady s0 s) : Steady s0 (l2Mark s pa) := by
  unfold Machine.l2Mark
  refine Steady.setMark ?_
  split
  · exact h.setSlice
  · exact h

theorem Steady.l2Inject {pa read} (h : Steady s0 s) : Steady s0 (l2Inject s pa read) :=
  h.ifs (·.injFire.bumpF.errSet) (·.ifs (·.injFire.bumpF.errSet) (·.opt (·.injFire.l2Mark.errSet)))

theorem Steady.l2Alloc {g set l} (h : Steady s0 s) : Steady s0 (l2Alloc s g set l) := by
  unfold Machine.l2Alloc
  dsimp only
  split
  · exact h
  · split
    · exact h.setSlice
    · exact h.takeFree.displace.setSlice

theorem Steady.l2Hit {g set w' slot write} (h : Steady s0 s) : Steady s0 (l2Hit s g set w' slot write) := by
  unfold Machine.l2Hit
  extract_lets key s1
  have h1 : Steady s0 s1 := h.dropClean
  clear_value key s1
  split
  · exact h
  · exact .ite (h.setSlice) (h1.setSlice)

theorem Steady.l2Touch {pa write slot fill} (h : Steady s0 s) : Steady s0 (l2Touch s pa write slot fill) := by
  unfold Machine.l2Touch
  dsimp only
  split
  · exact h.setSlice.opt (·.hbmRead)
  · split
    · exact (h.setSlice.l2Inject.opt (·.hbmRead)).l2Hit
    · exact ((h.setSlice.l2Inject.opt (·.hbmRead)).opt (·.bumpF)).l2Alloc

theorem Steady.touchRead {slot pa} (h : Steady s0 s) : Steady s0 (touchRead s slot pa) := h.l2Touch

theorem Steady.touchDests {slot ds} (h : Steady s0 s) : Steady s0 (touchDests s slot ds) := by
  unfold Machine.touchDests
  refine Steady.foldl ?_ fun s x h => ?_
  · exact h
  · split
    · exact h.touchRead
    · exact h.touchRead
    · exact h

theorem Steady.setBel {d b} (h : Steady s0 s) : Steady s0 (setBel s d b) := h.upd rfl

theorem Steady.sendNotice {d e} (h : Steady s0 s) : Steady s0 (sendNotice s d e) := by
  unfold Machine.sendNotice
  split
  · exact h.raise
  · exact h.ifs (·.errSet) (·.sendReq)
  · exact h.setBel

theorem Steady.notifyWatch {d w' status value} (h : Steady s0 s) : Steady s0 (notifyWatch s d w' status value) :=
  (h.ifs (·.bumpF) (·.bumpF)).ifs (·.sendNotice) (·.setBel)

theorem Steady.endWatch {d w' status} (h : Steady s0 s) : Steady s0 (endWatch s d w' status) := h.setBel.notifyWatch

theorem Steady.entryError {d w'} (h : Steady s0 s) : Steady s0 (entryError s d w') :=
  h.takeFree.takeFree.setBel.errSet.cardPut.opt (·.notifyWatch)

theorem Steady.belInject {d ws} (h : Steady s0 s) : Steady s0 (belInject s d ws) := by
  unfold Machine.belInject
  split
  · exact h
  · exact h.ifs (·.injFire) (·.opt (·.injFire.entryError))

theorem Steady.evalWatches {d sel} (h : Steady s0 s) : Steady s0 (evalWatches s d sel) :=
  h.belInject.optElse fun h => (h.foldl fun _ _ h => h.errSet).setBel.foldl fun _ _ h => h.endWatch

theorem Steady.evalLine {pa} (h : Steady s0 s) : Steady s0 (evalLine s pa) := h.opt (·.evalWatches)

theorem Steady.endResv {pa own} (h : Steady s0 s) : Steady s0 (endResv s pa own) := h.upd rfl

theorem Steady.ramWrite {k line bytes} (h : Steady s0 s) : Steady s0 { s with ram := s.ram.write k line bytes } :=
  h.upd

theorem Steady.lineStore {slot pa bytes mark own whole} (h : Steady s0 s) :
    Steady s0 (lineStore s slot pa bytes mark own whole) :=
  h.ifs (·.bumpF) fun h => ((h.ramWrite.opt (·.clrMark)).opt (·.setMark)).l2Touch.endResv.evalLine

theorem Steady.lineWrite {slot pa bytes mark own} (h : Steady s0 s) : Steady s0 (lineWrite s slot pa bytes mark own) :=
  h.lineStore

theorem Steady.lineWriteN {slot a n v} (h : Steady s0 s) : Steady s0 (lineWriteN s slot a n v) := h.lineWrite

theorem Steady.lineAtomic {slot a kind x y} (h : Steady s0 s) : Steady s0 (lineAtomic s slot a kind x y).2 := h.lineWriteN

theorem Steady.lineSignal {slot a amount} (h : Steady s0 s) : Steady s0 (lineSignal s slot a amount) :=
  (h.opt (·.errSet)).lineWriteN

theorem Steady.lineReduce {slot pa addends mark} (h : Steady s0 s) : Steady s0 (lineReduce s slot pa addends mark) :=
  h.lineStore

/-! Transaction groups and registrations. -/

theorem Steady.setTxg {i t} (h : Steady s0 s) : Steady s0 (setTxg s i t) := h.upd rfl

theorem Steady.txgAbort {i cause} (h : Steady s0 s) : Steady s0 (txgAbort s i cause) := by
  unfold Machine.txgAbort
  extract_lets t s1 s2
  have h1 : Steady s0 s1 := h.setTxg
  have h2 : Steady s0 s2 := h1.bumpF
  clear_value t s1 s2
  split
  · split
    · exact h2.mapCmds
    · exact h2
  · exact h

theorem Steady.stageWrite {h' space slot pa bytes mark kindOk} (h : Steady s0 s) :
    Steady s0 (stageWrite s h' space slot pa bytes mark kindOk) :=
  h.ifs (·.bumpF.errSet) fun h => h.ifs (·.txgAbort) fun h => h.ifs (·.txgAbort) fun h => h.ifs (·.txgAbort.errSet) fun h => h.ifs
    (·.injFire.txgAbort.errSet) fun h => (h.optElse (·.displace)).setTxg

theorem Steady.installLine {line l} (h : Steady s0 s) : Steady s0 (installLine s line l) := h.lineWrite

theorem Steady.watchFull {d} (h : Steady s0 s) : Steady s0 (watchFull s d) := h.optElse (·.setBel.errSet)

theorem Steady.decideWatch {d w'} (h : Steady s0 s) : Steady s0 (decideWatch s d w') :=
  h.ifs (·.notifyWatch) (·.ifs (·.notifyWatch) (·.setBel))

theorem Steady.registerWatch {d w'} (h : Steady s0 s) : Steady s0 (registerWatch s d w') :=
  h.setBel.ifs (·.setBel) (·.ifs (·.decideWatch) (·.ifs (·.setBel.watchFull) (·.ifs (·.setBel) (·.decideWatch))))

/-! Translation, and accesses by virtual address. -/

theorem Steady.walk {die space va} (h : Steady s0 s) : Steady s0 (walk s die space va).2 := by
  unfold Machine.walk
  extract_lets slot act base count s1 seen next
  have h1 : Steady s0 s1 := h.bumpF
  clear_value slot act base count s1 seen next
  split
  · exact h1.errSet.pair
  · split
    · exact h1.pair
    · split
      · exact h1.errSet.pair
      · split
        · exact h1.pair
        · split
          · exact h1.pair
          · split
            · exact h1.errSet.pair
            · exact h1.pair

theorem Steady.cachePut {ag e} (h : Steady s0 s) : Steady s0 (cachePut s ag e) := h.upd rfl

theorem Steady.cacheParity {die space va} (h : Steady s0 s) : Steady s0 (cacheParity s die space va) := h.opt (·.upd.injFire.errSet)

theorem Steady.ownMiss {ag} (h : Steady s0 s) : Steady s0 (ownMiss s ag) := h.opt (·.perfCount)

theorem Steady.lookup {ag die space va} (h : Steady s0 s) : Steady s0 (lookup s ag die space va).2 := by
  unfold Machine.lookup
  dsimp only
  split
  · exact (h.opt (·.cacheParity)).cachePut.pair
  · split
    · exact ((h.opt (·.cacheParity)).optElse (·.ownMiss.cacheParity)).cachePut.cachePut.pair
    · split
      · rename_i s1 e1
        have h1 := ((h.opt (·.cacheParity)).optElse (·.ownMiss.cacheParity)).bumpF.walk.of_pair e1
        exact h1.cachePut.cachePut.pair
      · exact ((h.opt (·.cacheParity)).optElse (·.ownMiss.cacheParity)).bumpF.walk

theorem Steady.translate {ag die space va a host} (h : Steady s0 s) : Steady s0 (translate s ag die space va a host).2 := by
  unfold Machine.translate
  split
  · exact h.pair
  · split
    · exact h.pair
    · split
      · rename_i s1 e1
        have h1 := h.lookup.of_pair e1
        exact h1.pair
      · split
        · rename_i s1 e1 _ _ _
          have h1 := h.lookup.of_pair e1
          exact h1.pair
        · rename_i s1 e1 _ _
          have h1 := h.lookup.of_pair e1
          exact h1.pair

theorem Steady.translateEach {ag die space a host vas} (h : Steady s0 s) :
    Steady s0 (translateEach s ag die space a host vas).2 := by
  induction vas generalizing s with
  | nil => exact h
  | cons va t ih =>
    unfold Machine.translateEach
    split
    · next e => exact ih (h.translate.of_pair e)
    · next e => exact ih (h.translate.of_pair e)

theorem Steady.mergeWalks {s' ag die space vas} (h : Steady s0 s) : Steady s0 (mergeWalks s' s ag die space vas) :=
  h.optElse (·.takeFree.bumpF)

theorem Steady.translateAll {ag die space a host vas} (h : Steady s0 s) : Steady s0 (translateAll s ag die space a host vas).2 :=
  h.translateEach.mergeWalks

theorem Steady.countXltFault {die o} (h : Steady s0 s) : Steady s0 (countXltFault s die o) := h.optElse (·.bumpF)

theorem Steady.translateRuns {ag die space a host runs} (h : Steady s0 s) : Steady s0 (translateRuns s ag die space a host runs).2 :=
  h.translateAll

theorem Steady.askVirt {ag space va k} (h : Steady s0 s) : Steady s0 (askVirt s ag space va k).2 := h.optElse (·.sendReq)

theorem Steady.askLines {ag space xs} (h : Steady s0 s) : Steady s0 (askLines s ag space xs).2 := by
  fun_induction Machine.askLines s ag space xs with
  | case1 => exact h
  | case2 s l g ord t r s1 e rs s2 e' ih => exact (e' ▸ ih (h.askVirt.of_pair e)).pair
  | case3 s x t hx ih => exact ih h

theorem Steady.readVirt {ag die space va n a} (h : Steady s0 s) : Steady s0 (readVirt s ag die space va n a).2 := by
  unfold Machine.readVirt
  split
  · dsimp only
    split
    · rename_i s1 e1 _
      have h1 := h.translateRuns.of_pair e1
      exact h1.countXltFault.pair
    · split
      · rename_i s1 e1 _ _
        have h1 := h.translateRuns.of_pair e1
        exact h1.askLines.pair
      · rename_i s1 e1 _ _
        have h1 := h.translateRuns.of_pair e1
        exact h1.askLines.touchDests.delReqs.pair

theorem Steady.writeVirt {ag die space va bs mark txg stream owner} (h : Steady s0 s) :
    Steady s0 (writeVirt s ag die space va bs mark txg stream owner).2 := by
  unfold Machine.writeVirt
  split
  · split
    · rename_i s1 e1 _
      have h1 := h.translateRuns.of_pair e1
      exact h1.countXltFault
    · rename_i s1 e1 _
      have h1 := h.translateRuns.of_pair e1
      refine Steady.foldl ?_ fun s x h => ?_
      · exact h1
      · split
        · exact h.stageWrite
        · exact h.stageWrite
        · exact h.stageWrite
        · exact h.lineWrite
        · exact h.lineWrite.sendMir
        · exact h.sendMir

theorem Steady.atomVirt {ag die space va kind x stream} (h : Steady s0 s) :
    Steady s0 (atomVirt s ag die space va kind x stream).2 := by
  unfold Machine.atomVirt
  dsimp only
  split
  · split
    · rename_i s1 e1
      have h1 := h.translateAll.askVirt.of_pair e1
      exact h1.delReqs.pair
    · rename_i s1 e1
      have h1 := h.translateAll.askVirt.of_pair e1
      exact h1.pair
  · split
    · exact h.translateAll.pair
    · exact h.translateAll.lineAtomic.pair
  · exact h.translateAll.countXltFault.pair

/-! Groups and workgroups. -/

theorem Steady.setGroup {t n g} (h : Steady s0 s) : Steady s0 (setGroup s t n g) := h.modTile

theorem Steady.modGroup {t n f} (h : Steady s0 s) : Steady s0 (modGroup s t n f) := h.modTile

theorem Steady.modWg {t w' f} (h : Steady s0 s) : Steady s0 (modWg s t w' f) := h.modTile

theorem Steady.unbindForPark {gs} (h : Steady s0 s) : Steady s0 (unbindForPark s gs) := by
  unfold Machine.unbindForPark
  refine Steady.foldl ?_ fun s x h => ?_
  · exact h
  · split
    · exact h.opt (·.txgAbort)
    · exact h

theorem Steady.regroup {t gs} (h : Steady s0 s) : Steady s0 (regroup s t gs) := h.foldl fun _ _ h => h.opt (·.modGroup)

theorem Steady.dropOffers {t ns} (h : Steady s0 s) : Steady s0 (dropOffers s t ns) := h.modTile

theorem Steady.endResvs {t ns} (h : Steady s0 s) : Steady s0 (endResvs s t ns) := h.upd rfl

theorem Steady.stopGroups {t gs reason} (h : Steady s0 s) : Steady s0 (stopGroups s t gs reason) := h.foldl fun _ _ h => h.modGroup

theorem Steady.stopWg {t w' reason} (h : Steady s0 s) : Steady s0 (stopWg s t w' reason) := by
  unfold Machine.stopWg
  split
  · exact h
  · exact h.ifs (·.regroup) fun h => h.optElse fun h => h.ifs (·.modTile.modWg) fun h => h.ifs (·.opt (·.modWg)) fun h => (h.optElse
      (·.unbindForPark)).stopGroups.dropOffers.endResvs.modWg

theorem Steady.takeEnded {d id} (h : Steady s0 s) : Steady s0 (takeEnded s d id) := h.setBel

theorem Steady.pwaitDecide {t n} (h : Steady s0 s) : Steady s0 (pwaitDecide s t n) := by
  unfold Machine.pwaitDecide
  split
  · exact h
  · split
    · exact h
    · split
      · exact h
      · dsimp only
        split
        · exact h.ifs (·.takeEnded.setGroup) (·.setGroup.stopWg)
        · exact h.setGroup.stopWg

theorem Steady.settleWaits (h : Steady s0 s) : Steady s0 (settleWaits s) := by
  unfold Machine.settleWaits
  refine Steady.foldl ?_ fun s x h => ?_
  · exact h
  · refine Steady.foldl ?_ fun s x h => ?_
    · exact h
    · exact h.opt (·.pwaitDecide)

/-! Queues, commands and store buffers. -/

theorem Steady.setQd {q off n v} (h : Steady s0 s) : Steady s0 (setQd s q off n v) := h.lineWriteN

theorem Steady.setQWaiting {q w'} (h : Steady s0 s) : Steady s0 (setQWaiting s q w') := h.setQd

theorem Steady.setQlive {q x} (h : Steady s0 s) : Steady s0 (setQlive s q x) := h.upd rfl

theorem Steady.modCmd {q n f} (h : Steady s0 s) : Steady s0 (modCmd s q n f) := h.mapCmds

theorem Steady.modLaunch {q n f} (h : Steady s0 s) : Steady s0 (modLaunch s q n f) := h.mapLaunches

theorem Steady.stcDecide {t e} (h : Steady s0 s) : Steady s0 (stcDecide s t e).2 := by
  unfold Machine.stcDecide
  exact (h.ifs (·.lineWrite) (·.optElse (·.bumpF.optElse (·.bumpF)))).upd

theorem Steady.performLocal {t e} (h : Steady s0 s) : Steady s0 (performLocal s t e).2.2 := by
  unfold Machine.performLocal
  dsimp only
  split
  · exact h.stcDecide
  · split
    · exact h.stageWrite
    · exact h
  · split
    · exact h.stageWrite
    · exact h.lineWrite
  · exact Steady.foldl_2 (p := ([], s)) h fun _ _ h => h.lineAtomic
  · exact h.lineSignal

theorem Steady.noteErr {t e bits} (h : Steady s0 s) : Steady s0 (noteErr s t e bits) :=
  (h.opt (·.bumpF)).ifs (·.modGroup) (·.modTile)

theorem Steady.rmEntry {t e} (h : Steady s0 s) : Steady s0 (rmEntry s t e) := h.delReqs.modTile

theorem Steady.finishLocal {t e} (h : Steady s0 s) : Steady s0 (finishLocal s t e) := h.optElse (·.performLocal)

theorem Steady.dropEntry {t e} (h : Steady s0 s) : Steady s0 (dropEntry s t e) :=
  (h.finishLocal.ifs (·.bumpF) (·.noteErr)).rmEntry

theorem Steady.drainEnd {t e} (h : Steady s0 s) : Steady s0 (drainEnd s t e) :=
  h.ifs (·.finishLocal.rmEntry) (·.ifs (·.finishLocal.noteErr.rmEntry) (·.dropEntry))

theorem Steady.noteFence {t l space fsw bits stream} (h : Steady s0 s) :
    Steady s0 (noteFence s t l space fsw bits stream).2 := by
  unfold Machine.noteFence
  split
  · exact h
  · split
    · exact h.modLaunch
    · split
      · rename_i s1 e1
        have h1 := h.atomVirt.of_pair e1
        exact h1
      · rename_i s1 e1
        have h1 := h.atomVirt.of_pair e1
        exact h1
      · rename_i s1 e1
        have h1 := h.atomVirt.of_pair e1
        exact h1.modLaunch

end Sys2Proof.Laws
end

