-- ==== Sys2Proof/Proofs/SteadyLinks.lean ====
section
/-!
SUPPORT. `Steady` along the functions of links, of the memory window and of arriving packets, and along the work of a warm reset.
-/
namespace Sys2Proof.Laws
open Sys2Proof.Machine Sys2Proof.Safety

variable {s0 s t : State}

/-! Links and the memory window. -/

theorem Steady.doorbell {q tag v} (h : Steady s0 s) : Steady s0 (doorbell s q tag v) := h.ifs (·.bumpF.errSet) (·.setQlive)

theorem Steady.doorbellRead {q off size} (h : Steady s0 s) : Steady s0 (doorbellRead s q off size) := by
  unfold Machine.doorbellRead
  split
  next e =>
    refine Steady.upd (Steady.of_pair ?_ e)
    exact .ite_2 h.pair h.takeFree

theorem Steady.doorbellAcc {q tag off size v} (h : Steady s0 s) : Steady s0 (doorbellAcc s q tag off size v) := by
  unfold Machine.doorbellAcc
  split
  · exact h.doorbellRead
  · exact h.optElse (·.doorbell)

theorem Steady.portErr {p bit addr} (h : Steady s0 s) : Steady s0 (portErr s p bit addr) := h.ifs (·.opt (·.errSet)) (·.errSet)

theorem Steady.handBack {k req} (h : Steady s0 s) : Steady s0 (handBack s k req) := by
  unfold Machine.handBack
  split
  · exact h.modReq
  · exact h.ifs (·.holdAnswer) (·.optElse (·.answer))

theorem Steady.handAll {p} (h : Steady s0 s) : Steady s0 (handAll s p) := by
  unfold Machine.handAll
  extract_lets x s1 s2
  have h1 : Steady s0 s1 := h.setPort
  have h2 : Steady s0 s2 := by
    unfold s2
    refine Steady.foldl ?_ fun s x h => ?_
    · exact h1
    · split
      · exact h.handBack
      · exact h
  clear_value x s1 s2
  exact h2.foldl fun _ _ h => h.handBack

theorem Steady.setQuar {p reason} (h : Steady s0 s) : Steady s0 (setQuar s p reason) := h.setRegF.setRegF

theorem Steady.linkDown {p reason} (h : Steady s0 s) : Steady s0 (linkDown s p reason) :=
  ((h.setLink.setRegF.setRegF.setRegF.modPort.opt (·.portErr)).opt (·.setQuar)).handAll

theorem Steady.windowGives {bs mark} (h : Steady s0 s) : Steady s0 (windowGives s bs mark) := h.upd rfl

theorem Steady.windowRefused {off n bit write} (h : Steady s0 s) : Steady s0 (windowRefused s off n bit write) :=
  h.bumpF.errSet.optElse (·.windowGives)

theorem Steady.winDo {a} (h : Steady s0 s) : Steady s0 (winDo s a).2 := by
  unfold Machine.winDo
  dsimp only
  split
  · split
    · split
      · exact h.translateRuns.countXltFault.windowRefused.raise.pair
      · exact h.translateRuns.countXltFault.windowRefused.pair
    · split
      · exact h.pair
      · exact h.writeVirt.pair
  · split
    · split
      · exact h.translateRuns.countXltFault.windowRefused.raise.pair
      · exact h.translateRuns.countXltFault.windowRefused.pair
    · split
      · rename_i s1 e1
        have h1 := h.readVirt.of_pair e1
        exact h1.windowGives.pair
      · rename_i s1 e1
        have h1 := h.readVirt.of_pair e1
        exact h1.pair
      · rename_i s1 e1
        have h1 := h.readVirt.of_pair e1
        exact h1.pair

theorem Steady.winBegin {tag off write data} (h : Steady s0 s) : Steady s0 (winBegin s tag off write data).2 := by
  unfold Machine.winBegin
  split
  · exact h.windowRefused.pair
  · split
    · exact h.windowRefused.pair
    · dsimp only
      split
      · rename_i s1 e1
        have h1 := h.winDo.of_pair e1
        exact h1.pair
      · rename_i s1 e1
        have h1 := h.winDo.of_pair e1
        exact h1.pair

theorem Steady.winGo {n} (h : Steady s0 s) : Steady s0 (winGo n s) := by
  induction n generalizing s with
  | zero => exact h
  | succ n ih =>
    unfold Machine.winGo
    refine h.ifs (fun h => h) fun h => ?_
    have pop (t : List HostAcc) : Steady s0 { s with hostQ := t } := h.upd
    split
    · split
      next e => exact ih ((pop _).winDo.of_pair e)
      next e => exact ((pop _).winDo.of_pair e).upd
    · split
      next e => exact ih ((pop _).winBegin.of_pair e)
      next e => exact ((pop _).winBegin.of_pair e).upd
    · exact ih (pop _).doorbellAcc
    · exact h

theorem Steady.winResume (h : Steady s0 s) : Steady s0 (winResume s) := h.winGo

/-! Packets that arrive. -/

theorem Steady.countRefused (h : Steady s0 s) : Steady s0 (countRefused s) := h.bumpF

theorem Steady.refuse {k} (h : Steady s0 s) : Steady s0 (refuse s k) := h.countRefused.errSet.answer

theorem Steady.holdPkt {p k} (h : Steady s0 s) : Steady s0 (holdPkt s p k) := h.upd rfl

theorem Steady.imported {p k va a f} (h : Steady s0 s) (hf : ∀ d s, Steady s0 s → Steady s0 (f d s)) :
    Steady s0 (imported p k va a s f) := by
  refine h.ifs (·.refuse) fun h => ?_
  split
  next e => exact (h.translate.of_pair e).refuse
  next e => exact hf _ _ (h.translate.of_pair e)

theorem Steady.land {k} (h : Steady s0 s) : Steady s0 (land s k) := by
  unfold Machine.land
  split
  · exact h.upd
  · exact h.upd

theorem Steady.landed {k f} (h : Steady s0 s) (hf : ∀ s, Steady s0 s → Steady s0 (f s)) : Steady s0 (landed s k f) := by
  unfold Machine.landed
  split
  · exact h.answer
  · exact h.errSet.answer
  · exact h.answer
  · exact hf s h

theorem Steady.landDone {k} (h : Steady s0 s) : Steady s0 (landDone s k) := h.land.answer

theorem Steady.relayOn {k g mir} (h : Steady s0 s) : Steady s0 (relayOn s k g mir) := h.sendMir

theorem Steady.doWrite {p k} (h : Steady s0 s) : Steady s0 (doWrite p k s) := by
  refine h.landed fun s h => h.imported fun d s1 h1 => .ite (Steady.landDone ?_) ?_
  · split
    · exact h1.stageWrite
    · exact h1.stageWrite
    · exact h1.stageWrite
  · split
    · exact .ite h.holdPkt h1.lineWrite.landDone
    · exact .ite h.holdPkt h1.lineWrite.land.relayOn
    · exact h1.land.relayOn

theorem Steady.doRead {p k} (h : Steady s0 s) : Steady s0 (doRead p k s) := by
  refine h.imported fun d s1 h1 => ?_
  extract_lets slot give
  have hg : ∀ pa, Steady s0 (give pa) := fun _ => .ite h.holdPkt h1.touchRead.answer
  split
  · exact hg _
  · exact hg _
  · exact h1.relayOn

theorem Steady.atomLanesAt {slot pa kind} {ls : List (Nat × Nat × Nat)} (h : Steady s0 s) :
    Steady s0 (ls.foldl (fun (acc : List Nat × State) l =>
      let (o, t) := Machine.lineAtomic acc.2 slot (lineBase pa + l.1) kind l.2.1 l.2.2
      (acc.1 ++ [o], t)) ([], s)).2 :=
  h.pair.foldl_2 fun _ _ h => h.lineAtomic

theorem Steady.doAtomic {p k} (h : Steady s0 s) : Steady s0 (doAtomic p k s) := by
  refine h.landed fun s h => h.imported fun d s1 h1 => ?_
  extract_lets slot give
  have hg : ∀ pa, Steady s0 (give pa) := fun pa => by
    refine .ite h.holdPkt ?_
    have ha := (h1.atomLanesAt (slot := slot) (pa := pa) (kind := bits k.sub 3 0) (ls := atomLanes k.data)).land (k := k)
    exact .ite ha.answer ha.answer
  split
  · exact hg _
  · exact hg _
  · exact h1.land.relayOn

theorem Steady.doSignal {p k} (h : Steady s0 s) : Steady s0 (doSignal p k s) := by
  refine h.landed fun s h => h.imported fun d s1 h1 => ?_
  extract_lets slot
  split
  · exact .ite h.holdPkt h1.lineSignal.landDone
  · exact .ite h.holdPkt h1.lineSignal.landDone
  · exact h1.land.relayOn

theorem Steady.collArrive {p k ctr f} (h : Steady s0 s) (hf : ∀ slot pa s, Steady s0 s → Steady s0 (f slot pa s)) :
    Steady s0 (collArrive p k ctr s f) := by
  refine h.landed fun s h => ?_
  refine h.ifs (·.refuse) fun h => ?_
  split
  · exact h.ifs (·.refuse) (·.answer)
  · refine h.ifs (·.refuse.modCmd) fun h => ?_
    split
    next e => exact h.ifs (·.holdPkt) fun _ => (hf _ _ _ (h.translate.of_pair e)).modCmd.landDone
    next e => exact (h.translate.of_pair e).refuse.modCmd

theorem Steady.doReduce {p k} (h : Steady s0 s) : Steady s0 (doReduce p k s) := h.collArrive fun _ _ _ h => h.lineReduce

theorem Steady.doGather {p k} (h : Steady s0 s) : Steady s0 (doGather p k s) := h.collArrive fun _ _ _ h => h.lineWrite

theorem Steady.watchHere {d w' k} (h : Steady s0 s) : Steady s0 (watchHere s d w' k) :=
  h.registerWatch.land.ifs (·.setBel) (·.answer)

theorem Steady.doWatch {p k} (h : Steady s0 s) : Steady s0 (doWatch p k s) := by
  refine .ite h.upd (h.landed fun s h => h.imported fun d s1 h1 => .ite h1.landDone ?_)
  split
  · exact .ite h.holdPkt h1.watchHere
  · exact .ite h.holdPkt h1.watchHere
  · exact h1.setBel.land.sendReq

theorem Steady.performPkt {p k} (h : Steady s0 s) : Steady s0 (performPkt p k s) :=
  h.ifs (·.doWrite) (·.ifs (·.doRead) (·.ifs (·.doAtomic) (·.ifs (·.doSignal) (·.ifs (·.doReduce) (·.ifs (·.doGather) (·.opt
    (·.doWatch)))))))

theorem Steady.releasePkts (h : Steady s0 s) : Steady s0 (releasePkts s) := h.upd.foldl fun _ _ h => h.performPkt

/-! What waited for a held line goes on. -/

theorem Steady.setAlert {b} (h : Steady s0 s) : Steady s0 (setAlert s b) := h.setRegF

theorem Steady.lineGives {bs mark} (h : Steady s0 s) : Steady s0 (lineGives s bs mark) := h.upd rfl

theorem Steady.lineDo {o} (h : Steady s0 s) : Steady s0 (lineDo s o) := by
  unfold Machine.lineDo
  dsimp only
  split
  · exact h.touchRead.lineGives
  · split
    · exact h.stageWrite
    · exact h.lineWrite
  · split
    · exact h.stageWrite
    · exact h.lineWrite
  · exact h.optElse (·.lineAtomic.lineGives)

theorem Steady.lineArrives {w'} (h : Steady s0 s) : Steady s0 (lineArrives s w') := by
  unfold Machine.lineArrives
  extract_lets pa g x filling wait
  have hWait : Steady s0 wait := h.setSlice
  clear_value pa g x filling wait
  split
  · exact hWait
  · split
    · exact .ite (h.setSlice) (.ite (hWait) (h.lineDo))
    · exact .ite (hWait) (h.lineReduce)
    · exact .ite (hWait) (h.lineWrite)

theorem Steady.resumeWaits {g} (h : Steady s0 s) : Steady s0 (resumeWaits s g) := h.setSlice.foldl fun _ _ h => h.lineArrives

theorem Steady.dbgLine (h : Steady s0 s) : Steady s0 (dbgLine s) := by
  unfold Machine.dbgLine
  dsimp only
  split
  · rename_i s1 e1
    have h1 := h.lookup.of_pair e1
    exact h1.setReg
  · split
    · rename_i s1 e1 _ _ _
      have h1 := h.lookup.of_pair e1
      exact h1.ifs (·.setReg) fun h => (h.touchRead.foldl fun _ _ h => h.setReg).setReg
    · rename_i s1 e1 _ _ _ _
      have h1 := h.lookup.of_pair e1
      exact h1.ifs (·.setReg) fun h => (h.touchRead.foldl fun _ _ h => h.setReg).setReg
    · rename_i s1 e1 _ _ _
      have h1 := h.lookup.of_pair e1
      exact h1.setReg

theorem Steady.releaseHeld (h : Steady s0 s) : Steady s0 (releaseHeld s) :=
  ((h.foldl fun _ _ h => h.resumeWaits).optElse (·.releasePkts)).settleWaits.winResume.opt (·.dbgLine)

/-! The warm reset. -/

theorem Steady.toState {pg st} (h : Steady s0 s) : Steady s0 (toState s pg st) := h.modBlk

theorem Steady.departAll (h : Steady s0 s) : Steady s0 (departAll s) := h.foldl fun _ _ h => h.opt (·.emit)

theorem Steady.clearInjection (h : Steady s0 s) : Steady s0 (clearInjection s) := h.upd rfl

theorem Steady.endRights (h : Steady s0 s) : Steady s0 (endRights s) := h.setReg.upd.clearInjection

theorem Steady.debugEnd {cause} (h : Steady s0 s) : Steady s0 (debugEnd s cause) := h.optElse (·.endRights.raise)

theorem Steady.setGuide {g} (h : Steady s0 s) : Steady s0 (setGuide s g) := h.upd rfl

theorem Steady.tileSpare {t} (h : Steady s0 s) : Steady s0 (tileSpare s t) := h.foldl fun _ _ h => h.opt (·.toState)

theorem Steady.dropLost {t} (h : Steady s0 s) : Steady s0 (dropLost s t) := h.foldl fun _ _ h => h.opt (·.dropEntry)

theorem Steady.dropLoads (h : Steady s0 s) : Steady s0 (dropLoads s) := h.upd rfl

theorem Steady.installAll {i} (h : Steady s0 s) : Steady s0 (installAll s i) :=
  h.optElse fun h => h.setTxg.foldl fun _ _ h => h.installLine

theorem Steady.endTxgs (h : Steady s0 s) : Steady s0 (endTxgs s) := h.foldl fun _ _ h => h.ifs (·.installAll) (·.txgAbort)

theorem Steady.dropWatches (h : Steady s0 s) : Steady s0 (dropWatches s) := h.upd rfl

theorem Steady.endWaits (h : Steady s0 s) : Steady s0 (endWaits s) := h.foldl fun _ _ h => h.setQWaiting

theorem Steady.endRepls (h : Steady s0 s) : Steady s0 (endRepls s) := by
  unfold Machine.endRepls
  extract_lets on off x s1
  have h1 : Steady s0 s1 := h.setGuide
  clear_value on off x s1
  refine Steady.foldl ?_ fun s x h => ?_
  · exact h1
  · split
    · exact h.opt (·.tileSpare)
    · exact h

theorem Steady.tellFences (h : Steady s0 s) : Steady s0 (tellFences s) := by
  unfold Machine.tellFences
  refine Steady.foldl ?_ fun s x h => ?_
  · exact h
  · extract_lets s1
    have h1 : Steady s0 s1 := by
      unfold s1
      refine Steady.foldl ?_ fun s x h => ?_
      · exact h
      · split
        · exact h.noteFence
        · exact h
    clear_value s1
    exact h1.foldl fun _ _ h => h.noteFence

theorem Steady.resetRights (h : Steady s0 s) : Steady s0 (resetRights s) := by
  unfold Machine.resetRights
  split
  next e => exact (Steady.of_pair (.ite_2 h.pair h.takeFree) e).debugEnd.endRights

theorem Steady.cancelOps (h : Steady s0 s) : Steady s0 (cancelOps s) := h.upd rfl

/-- The end of a warm reset keeps them all, and drains no more. -/
theorem Steady.finishReset (h : Steady s0 s) : Steady { s0 with draining := false } (finishReset s) := by
  unfold Machine.finishReset
  extract_lets s1 s2 s3 s4
  have h2 : Steady s0 s2 := h.dropWatches.tellFences.departAll.setRegF.foldl fun _ _ h => h.linkDown.setRegF.setPort
  clear_value s1 s2
  have h3 : Steady { s0 with draining := false } s3 := Steady.resetRights h2.drained.upd
  clear_value s3
  have h4 : Steady { s0 with draining := false } s4 := h3.upd
  exact h4.opt (·.setAlert)

end Sys2Proof.Laws
end

