-- ==== Sys2Proof/Proofs/WarmReset.lean ====
section
/-!
PROOF. O45, its parts on the warm reset (R43, R285, R501), on writes of the route card (R502, R507) and on cables (R547 to R549).
-/
namespace Sys2Proof.Laws
open Sys2Proof.Machine Sys2Proof.Safety

variable {s t : State}

/-! The warm reset. -/

/-- The tiles after the reset hold no store. -/
theorem sbEmpty_of_afterReset {ts : Tab Tile} (h : t.tiles = ts.map (fun x => (x.1, x.2.afterReset))) : sbEmpty t = true := by
  simp [sbEmpty, h, Tile.afterReset]

theorem debugEnd_tiles (s : State) (c : Nat) : (debugEnd s c).tiles = s.tiles := by
  unfold debugEnd
  split <;> rfl

theorem resetRights_tiles (s : State) : (resetRights s).tiles = s.tiles := by
  unfold resetRights
  split
  next f s1 e =>
  have h1 : (if s.tokenSlot = 0 then (0, s) else takeFree s).2.tiles = s.tiles := by split <;> rfl
  rw [e] at h1
  exact (debugEnd_tiles s1 (f % 4)).trans h1

theorem sbEmpty_finishReset (s : State) : sbEmpty (finishReset s) = true := by
  unfold finishReset
  extract_lets s1 s2 s3 s4
  clear_value s1 s2
  have h3 : s3.tiles = s2.tiles.map (fun x => (x.1, x.2.afterReset)) := resetRights_tiles _
  clear_value s3
  have h4 : s4.tiles = s2.tiles.map (fun x => (x.1, x.2.afterReset)) := h3
  split
  · exact sbEmpty_of_afterReset (t := setAlert s4 0) h4
  · exact sbEmpty_of_afterReset h4

/-- What a warm reset ends before it is held. -/
def resetEnds (s : State) : State := endRepls (cancelOps (endWaits (dropWatches (releaseHeld (endTxgs s)))))

theorem steady_resetEnds (s : State) : Steady s (resetEnds s) :=
  (Steady.refl s).endTxgs.releaseHeld.dropWatches.endWaits.cancelOps.endRepls

/-- The module is held in reset and its commands and launches are gone. -/
def resetHolds (s : State) : State :=
  { s with
    resetLow := true, draining := true, cmds := [], launches := [], resvs := [], served := [], ldrs := [], hostQ := []
    rings := s.rings.map (fun r => (r.1, { r.2 with on := false })) }

/-- READY falls and the resets are counted; stores that cannot be delivered are dropped. -/
def resetDrops (s : State) : State :=
  let s1 := setRegF (bumpF (setRegF s pgNhl 0x0E0 0 0 0) pgNhl 0x0E0 31 16 1) pgNhl 0x0C4 31 31 0
  (s1.tiles.map (·.1)).foldl dropLost (dropLoads s1)

theorem steady_resetDrops (s : State) : Steady s (resetDrops s) :=
  (Steady.refl s).setRegF.bumpF.setRegF.dropLoads.foldl fun _ _ h => h.dropLost

theorem exec_warmReset (hp : s.pwrGood = true) (ht : s.pwr.tripped = false) (hl : s.resetLow = false) (hb : s.booted = true) :
    exec .warmReset s = .next (if sbEmpty (resetDrops (resetHolds (resetEnds s))) then finishReset (resetDrops (resetHolds (resetEnds s)))
      else resetDrops (resetHolds (resetEnds s))) := by
  change execWarmReset s = _
  unfold execWarmReset
  rw [if_neg (by simp [hp, ht, hl]), if_neg (by simp [hb])]
  rfl

/-- A warm reset of a started module holds it, with no command and no launch, and keeps keys, card and flash. -/
def ResetHeldFrom (s t : State) : Prop :=
  t.resetLow = true ∧ t.cmds = [] ∧ t.launches = [] ∧ t.keys = s.keys ∧ t.card = s.card ∧ t.flash = s.flash

theorem resetHeldFrom_steady {d : Bool} (h : Steady { resetHolds (resetEnds s) with draining := d } t) : ResetHeldFrom s t := by
  obtain ⟨hk, hc, hf⟩ := h.keys_card_flash
  obtain ⟨ek, ec, ef⟩ := (steady_resetEnds s).keys_card_flash
  exact ⟨h.draining_resetLow.2, h.cmds rfl, h.launches rfl, hk.trans ek, hc.trans ec, hf.trans ef⟩

theorem warmReset_booted (hp : s.pwrGood = true) (ht : s.pwr.tripped = false) (hl : s.resetLow = false) (hb : s.booted = true) :
    ∃ t, exec .warmReset s = .next t ∧ ResetHeldFrom s t ∧ (t.draining = false → sbEmpty t = true) := by
  have hd := steady_resetDrops (resetHolds (resetEnds s))
  refine ⟨_, exec_warmReset hp ht hl hb, ?_⟩
  split
  · exact ⟨resetHeldFrom_steady hd.finishReset, fun _ => sbEmpty_finishReset _⟩
  · exact ⟨resetHeldFrom_steady hd, fun h => by rw [hd.draining_resetLow.1] at h; cases h⟩

theorem warmReset_unbooted (hp : s.pwrGood = true) (ht : s.pwr.tripped = false) (hl : s.resetLow = false) (hb : s.booted = false) :
    exec .warmReset s = .next { s with resetLow := true, startHeld := true } := by
  change execWarmReset s = _
  unfold execWarmReset
  rw [if_neg (by simp [hp, ht, hl]), if_pos (by simp [hb])]

theorem sbDrainExpire_draining (hd : s.draining = true) :
    ∃ t, exec .sbDrainExpire s = .next t ∧ t.draining = false ∧ sbEmpty t = true ∧ t.keys = s.keys ∧ t.card = s.card := by
  have h : Steady s ((s.tiles.map (·.1)).foldl (fun s t => ((tile s t).posted ++ (tile s t).sb).foldl (fun s e => drainEnd s t e) s) s) :=
    (Steady.refl s).foldl fun _ _ h => h.foldl fun _ _ h => h.drainEnd
  obtain ⟨hk, hc, -⟩ := h.finishReset.keys_card_flash
  exact ⟨_, congrArg Host.Outcome.next (if_neg (by simp [hd])), h.finishReset.draining_resetLow.1, sbEmpty_finishReset _, hk, hc⟩

/-! The route card. -/

theorem flashWrite_none (h : cardBank s = none) : flashWrite s = s := by
  unfold flashWrite
  rw [h]

theorem flashWrite_some {n : Nat} (h : cardBank s = some n) : flashWrite s =
    setReg { s with flash := { s.flash with copies := tput s.flash.copies n (cardSeq s + 1, s.card) } } pgBoot 0x084
      (BitVec.ofNat 32 (cardSeq s + 1)) := by
  unfold flashWrite
  rw [h]

/-- A bank that fails goes out of use, with its copy. -/
theorem bankFail_flash {n : Nat} (h : s.flash.badBank.testBit n = false) : (bankFail s n).flash =
    { s.flash with badBank := Nat.lor s.flash.badBank (2 ^ n), copies := tdel s.flash.copies n } := by
  unfold bankFail
  rw [if_neg (by simp [h])]
  exact errSet_flash.trans rfl

/-- A record that waited is in the card, before the card is written. -/
def recordKept (s : State) (key v : Nat) : State := { s with card := tput s.card key v, cardDue := tdel s.cardDue key }

theorem cardWrite_record {k u v : Nat} (hf : fwUp s = true) (hk : k ≠ 0) (hv : tget? s.cardDue (cardKey k u) = some v) :
    ∃ t, exec (.cardWrite k u) s = .next t ∧ cardGet t k u = some v ∧ thas t.cardDue (cardKey k u) = false ∧
      (∀ i, i ≠ cardKey k u → tget? t.card i = tget? s.card i) ∧
      (∀ n, cardBank s = some n → tget? t.flash.copies n = some (cardSeq s + 1, t.card)) ∧ t.ram = s.ram := by
  have he : exec (.cardWrite k u) s =
      .next (flashWrite (recordKept s (cardKey k u) v)) := by
    change execCardWrite k u s = _
    unfold execCardWrite
    rw [if_neg (by simp [hf]), if_neg hk, hv]
    rfl
  refine ⟨_, he, ?_⟩
  have hget : tget? (tput s.card (cardKey k u) v) (cardKey k u) = some v := tget?_tput_same _ _ _
  have hdue : thas (tdel s.cardDue (cardKey k u)) (cardKey k u) = false := by simp [thas]
  have hother : ∀ i, i ≠ cardKey k u → tget? (tput s.card (cardKey k u) v) i = tget? s.card i := fun i hi => tget?_tput_ne _ _ hi
  cases hb : cardBank s with
  | none =>
    rw [flashWrite_none (s := recordKept s (cardKey k u) v) hb]
    exact ⟨hget, hdue, hother, nofun, rfl⟩
  | some n =>
    rw [flashWrite_some (s := recordKept s (cardKey k u) v) hb]
    exact ⟨hget, hdue, hother, fun m h => by cases h; exact tget?_tput_same _ _ _, rfl⟩

theorem cardWrite_fails {n : Nat} (hf : fwUp s = true) (hn : n < 2) (hb : s.flash.badBank.testBit n = false) :
    ∃ t, exec (.cardWrite 0 n) s = .next t ∧ t.flash.badBank.testBit n = true ∧ thas t.flash.copies n = false ∧
      (blk t pgBoot).errStat.getLsbD 9 = true ∧ { ring := 0, kind := 0xA0, value := cardSeq s, info := n } ∈ t.evq ∧ t.ram = s.ram := by
  have he : exec (.cardWrite 0 n) s = .next (bankFail s n) := by
    change execCardWrite 0 n s = _
    unfold execCardWrite
    rw [if_neg (by simp [hf]), if_pos rfl, if_pos hn]
  obtain ⟨hram, -⟩ := (MemFrom.bankFail (w := false) (b := n) (.refl s)).same rfl
  refine ⟨_, he, ?_, ?_, ?_, ?_, hram⟩
  · rw [bankFail_flash hb]
    exact (Nat.testBit_or _ _ n).trans (by simp)
  · rw [bankFail_flash hb]
    simp [thas]
  all_goals
    unfold bankFail
    rw [if_neg (by simp [hb])]
  · exact errSet_bit _ _ _ (by decide)
  · exact mem_raise _ _

/-! Cables. -/

theorem cable_setCable_same (s : State) (p : Nat) (c : Cable) : cable (setCable s p c) p = c := by
  simp [cable, setCable, tgetD]

theorem cable_setCable_ne (s : State) {p x : Nat} (c : Cable) (h : x ≠ p) : cable (setCable s p c) x = cable s x := by
  simp [cable, setCable, tgetD, tget?_tput_ne _ _ h]

theorem cable_of_linkFrame (h : LinkFrame s t) (p : Nat) : cable t p = cable s p := by
  obtain ⟨b, q, n, ps, r, w, k, e, rfl⟩ := h
  rfl

/-- A port's page is neither the page that shows the wavefronts nor the one that shows the quarantines. -/
theorem pgPort_ne_pgDbg_pgDev : ∀ p, p < 18 → pgPort p ≠ pgDbg ∧ pgPort p ≠ pgDev := by decide

theorem linkState_portErr (s : State) {p : Nat} (hp : p < 18) (bit addr : Nat) : linkState (portErr s p bit addr) p = linkState s p := by
  unfold portErr
  rw [if_neg (by omega)]
  exact regF_errSet s _ _ _ (pgPort_ne_pgDbg_pgDev p hp).1 _ _ _

theorem linkState_setQuar (s : State) {p : Nat} (hp : p < 18) (reason : Nat) : linkState (setQuar s p reason) p = linkState s p :=
  (regF_setRegF_ne _ _ _ _ _ _ (.inl (pgPort_ne_pgDbg_pgDev p hp).2)).trans (regF_setRegF_ne _ _ _ _ _ _ (.inl (pgPort_ne_pgDbg_pgDev p hp).2))

theorem linkState_routed (h : Routed s t) (p : Nat) : linkState t p = linkState s p := by
  obtain ⟨q, n, ps, rfl⟩ := h
  rfl

theorem linkState_linkOff (s : State) (p reason : Nat) : linkState (linkOff s p reason) p = lkDown :=
  (linkState_routed (routed_setPort _ _ _) p).trans <|
    (regF_setRegF_ne _ _ _ _ _ _ (.inr (by decide))).trans <|
      (regF_setRegF_field _ _ _ _ _ _ _ _ (by decide) (by decide) (by decide)).trans <|
        (regF_setRegF_field _ _ _ _ _ _ _ _ (by decide) (by decide) (by decide)).trans (linkState_setLink s p lkDown (by decide))

theorem linkState_linkDown (s : State) {p : Nat} (hp : p < 18) (reason : Nat) : linkState (linkDown s p reason) p = lkDown := by
  obtain ⟨c, d, h⟩ := linkDown_eq s p reason
  have hc : linkState (if c then portErr (linkOff s p reason) p 10 reason else linkOff s p reason) p = lkDown := by
    split
    · exact (linkState_portErr _ hp _ _).trans (linkState_linkOff s p reason)
    · exact linkState_linkOff s p reason
  rw [h, linkState_routed (routed_handAll _ _) p]
  split
  · exact (linkState_setQuar _ hp _).trans hc
  · exact hc

theorem cableLos_spec (s : State) {p : Nat} (hp : p < 18) :
    linkState (cableLos s p) p = lkDown ∧ cable (cableLos s p) p = cable s p ∧ (cableLos s p).ram = s.ram := by
  unfold cableLos
  split
  next h => exact ⟨h, rfl, rfl⟩
  · exact ⟨linkState_linkDown s hp _, cable_of_linkFrame (linkFrame_linkDown s p _) p, (MemFrom.linkDown (w := false) (.refl s)).same rfl |>.1⟩

theorem cableConnect_new {p : Nat} (hp : p < 18) (hc : (cable s p).present = false) :
    ∃ t, exec (.cableConnect p) s = .next t ∧ (cable t p).present = true ∧ (cable t p).power = powered s ∧ (cable t p).read = false ∧
      (∀ x, x ≠ p → cable t x = cable s x) ∧ t.ports = s.ports ∧ t.blks = s.blks := by
  refine ⟨_, congrArg Host.Outcome.next (if_neg (by simp [hc]; omega)), ?_⟩
  rw [cable_setCable_same]
  exact ⟨rfl, rfl, rfl, fun x hx => cable_setCable_ne s _ hx, rfl, rfl⟩

theorem cableRemove_present {p : Nat} (hp : p < 18) (hc : (cable s p).present = true) :
    ∃ t, exec (.cableRemove p) s = .next t ∧ (cable t p).present = false ∧ (cable t p).power = false ∧ linkState t p = lkDown ∧
      t.ram = s.ram := by
  obtain ⟨hdown, hcable, hram⟩ := cableLos_spec { s with cables := tdel s.cables p } hp
  have hnone : cable { s with cables := tdel s.cables p } p = {} := by simp [cable, tgetD]
  rw [hnone] at hcable
  exact ⟨_, congrArg Host.Outcome.next (if_pos (by simp [hp, hc])), by rw [hcable], by rw [hcable], hdown, hram⟩

theorem cableOverpower_powered {p : Nat} (hp : p < 18) (hc : (cable s p).present = true) (hw : (cable s p).power = true) :
    ∃ t, exec (.cableOverpower p) s = .next t ∧ (cable t p).power = false ∧ (cable t p).overI = true ∧ linkState t p = lkDown ∧
      t.ram = s.ram := by
  obtain ⟨hdown, hcable, hram⟩ := cableLos_spec (setCable s p { cable s p with power := false, overI := true }) hp
  rw [cable_setCable_same] at hcable
  exact ⟨_, congrArg Host.Outcome.next (if_pos (by simp [hp, hc, hw])), by rw [hcable], by rw [hcable], hdown, hram⟩

theorem cableIdRead_once {p w : Nat} {ok : Bool} (hp : p < 18) (hf : fwUp s = true) (hc : (cable s p).present = true)
    (hw : (cable s p).power = true) (hr : (cable s p).read = false) :
    ∃ t, exec (.cableIdRead p ok w) s = .next t ∧ (cable t p).read = true ∧ (cable t p).ident = (if ok then some w else none) ∧
      t.ram = s.ram := by
  let s1 := setCable s p { cable s p with read := true, ident := if ok then some w else none }
  obtain ⟨c, he⟩ : ∃ c : Bool, exec (.cableIdRead p ok w) s = .next (if c then setLink s1 p lkDetect else s1) :=
    ⟨_, congrArg Host.Outcome.next (if_neg (by simp [hf, hc, hw, hr]; omega))⟩
  have hcable : cable s1 p = { cable s p with read := true, ident := if ok then some w else none } := cable_setCable_same s p _
  refine ⟨_, he, ?_⟩
  cases c
  all_goals exact ⟨congrArg (·.read) hcable, congrArg (·.ident) hcable, rfl⟩

end Sys2Proof.Laws
end

