-- ==== Sys2Proof/Proofs/Starts.lean ====
section
/-!
PROOF. O45, its part on starts (R499, R504 to R506, R545). A start on an empty card in which no step fails finishes the first time:
every step passes, and the only one that could fail without a fault, EDGES by its alternative method around marked edges (R506),
runs by its primary method, since its STEP record does not exist yet.
-/
namespace Sys2Proof.Laws
open Sys2Proof.Machine Sys2Proof.Safety

variable {s u : State} {b : BootFacts} {k key : Nat}

/-! A step of the start, cut into the work and what it leaves. -/

/-- The record of a step as this start finds it. -/
def stepPrev (s : State) (k : Nat) : Nat := recRead ((cardNow s ctStep k).getD 0)

/-- A step is recorded as STARTED once the card can be written. -/
def stepStarted (s : State) (k : Nat) : State :=
  if k ≤ 3 then s
  else noteStep s k (stepRec k ocStarted (if useAlt k (stepPrev s k) then 1 else 0) (recFails (stepPrev s k)) (recAlt (stepPrev s k)) 0)

/-- The records of steps 1 and 2 that step 3 makes up. -/
def earlyNotes (s : State) (k : Nat) (t : State) : State :=
  let t1 := if k = 3 then cardPut t ctStep 1 (stepEnd 1 (recRead ((cardGet t ctStep 1).getD 0)) false true 0) else t
  match k, tget? s.cardDue (cardKey ctStep 2) with
  | 3, some v => cardPut t1 ctStep 2 (stepEnd 2 (recRead ((cardGet t1 ctStep 2).getD 0)) (recMethod v = 1) true (recDetail v))
  | _, _ => t1

/-- What a step leaves of its work `w`, and whether the start goes on. -/
def stepLeaves (b : BootFacts) (s : State) (k : Nat) (w : StepOut) : State × Bool :=
  let r := stepPrev s k
  let alt := useAlt k r
  let fails := if k = 2 then b.failed.contains 2 && b.failed.contains 18 else b.failed.contains (if alt then 16 + k else k)
  let good := w.2.1 && !fails
  let used := alt || (k = 2 && b.failed.contains 2 : Bool)
  let s3 := if good then w.1 else { stepStarted s k with card := w.1.card, cardDue := w.1.cardDue, fresh := w.1.fresh }
  let r3 := if k = 3 then recRead ((cardGet s3 ctStep 3).getD 0) else r
  let s6 := noteStep (earlyNotes s k s3) k (stepEnd k r3 used good (if fails then tgetD b.detail k 0 else w.2.2))
  let s7 := showStep s6 k (if !good then ocFail else if used then ocPassAlt else ocPass) used
  if good then (s7, true) else (errSet s7 pgBoot 8 k, skippable k)

theorem runStep_worked (h : skipStep k (stepPrev s k) = false) : runStep b (s, true) k =
    stepLeaves b s k (stepWork (stepStarted s k) b k (useAlt k (stepPrev s k)) (recDetail (stepPrev s k))) := by
  unfold runStep
  rw [if_neg (by simp)]
  exact if_neg (by rw [show skipStep k (recRead ((cardNow s ctStep k).getD 0)) = false from h]; decide)

theorem runStep_skipped (h : skipStep k (stepPrev s k) = true) : (runStep b (s, true) k).2 = true := by
  unfold runStep
  rw [if_neg (by simp)]
  exact congrArg Prod.snd (if_pos h)

theorem stepLeaves_passes {w : StepOut} (hf : b.failed = []) (hok : w.2.1 = true) : (stepLeaves b s k w).2 = true := by
  simp [stepLeaves, hf, hok]

theorem runStep_passes (hf : b.failed = [])
    (hok : (stepWork (stepStarted s k) b k (useAlt k (stepPrev s k)) (recDetail (stepPrev s k))).2.1 = true) :
    (runStep b (s, true) k).2 = true := by
  cases h : skipStep k (stepPrev s k) with
  | true => exact runStep_skipped h
  | false =>
    rw [runStep_worked h]
    exact stepLeaves_passes hf hok

/-! Which steps pass. -/

/-- No step but EDGES fails without a fault, where a cluster passes its check. -/
theorem stepWork_passes {alt : Bool} {prev : Nat} (hc : b.clusters = []) (hk : k ≠ 6) : (stepWork u b k alt prev).2.1 = true := by
  unfold stepWork
  split
  case h_1 => rw [hc]; rfl
  case h_5 => contradiction
  all_goals rfl

/-- No die is cut off while every edge works. -/
theorem cutOff_none (h : u.guide.edges = []) : (List.range 4).any (cutOff u) = false := by
  have hd : cutOff u = fun d => (List.range 4).all (fun e => (edgeDies e).1 ≠ d && (edgeDies e).2 ≠ d || ([] : List Nat).contains e) := by
    unfold cutOff
    rw [h]
  rw [hd]
  decide

theorem stepEdges_passes : (stepEdges u [] false).2.1 = true := by
  unfold stepEdges
  extract_lets old now all m g s1 s2
  have hall : all = [] := by simp [all]
  have hnow : now = [] := by simp [now]
  have h1 : s1.guide.edges = [] := by
    unfold s1
    rw [hnow]
    exact hall
  have h2 : s2.guide.edges = [] := by
    unfold s2
    split
    · exact h1
    · exact h1
  simp [cutOff_none h2]

/-! The card during a start. -/

/-- No record of a key is in the card, and none waits. -/
def CardFree (s : State) (key : Nat) : Prop := (∀ x ∈ s.cardDue, x.1 ≠ key) ∧ ∀ x ∈ s.card, x.1 ≠ key

theorem tput_free {t : Tab Nat} {x v : Nat} (h : ∀ y ∈ t, y.1 ≠ key) (hx : x ≠ key) : ∀ y ∈ tput t x v, y.1 ≠ key := by
  intro y hy
  rcases mem_tput hy with rfl | hy
  · exact hx
  · exact h y hy

theorem foldl_tput_free {g t : Tab Nat} (hg : ∀ y ∈ g, y.1 ≠ key) (ht : ∀ y ∈ t, y.1 ≠ key) :
    ∀ y ∈ g.foldl (fun c r => tput c r.1 r.2) t, y.1 ≠ key := by
  induction g generalizing t with
  | nil => exact ht
  | cons x g ih =>
    obtain ⟨hx, hg⟩ := List.forall_mem_cons.1 hg
    exact ih hg (tput_free ht hx)

theorem CardFree.cardPut (h : CardFree s key) {kind unit v : Nat} (hk : cardKey kind unit ≠ key) : CardFree (cardPut s kind unit v) key :=
  ⟨tput_free h.1 hk, h.2⟩

/-- Another state with the same card. -/
theorem CardFree.same (h : CardFree s key) (hd : u.cardDue = s.cardDue) (hc : u.card = s.card) : CardFree u key := by
  obtain ⟨h1, h2⟩ := h
  exact ⟨by rwa [hd], by rwa [hc]⟩

theorem CardFree.cardFlush (h : CardFree s key) : CardFree (cardFlush s) key := by
  have hf : CardFree { s with card := s.cardDue.foldl (fun c r => tput c r.1 r.2) s.card, cardDue := [] } key :=
    ⟨nofun, foldl_tput_free h.1 h.2⟩
  unfold Machine.cardFlush flashWrite
  split
  · exact hf
  · exact hf.same rfl rfl

theorem CardFree.noteStep (h : CardFree s key) {r : Nat} (hk : cardKey ctStep k ≠ key) : CardFree (noteStep s k r) key := by
  unfold Machine.noteStep
  dsimp only
  split
  · exact h.cardPut hk
  · exact (h.cardPut hk).cardFlush

theorem CardFree.errSet (h : CardFree s key) {pg bit addr : Nat} : CardFree (errSet s pg bit addr) key := by
  obtain ⟨x, r, w, n, e, he⟩ := errSet_frame s pg bit addr
  rw [he]
  exact h.same rfl rfl

theorem CardFree.earlyNotes (h : CardFree u key) (h1 : cardKey ctStep 1 ≠ key) (h2 : cardKey ctStep 2 ≠ key) :
    CardFree (earlyNotes s k u) key := by
  have hk : ∀ v, CardFree (if k = 3 then Machine.cardPut u ctStep 1 v else u) key := by
    intro v
    split
    · exact h.cardPut h1
    · exact h
  unfold Laws.earlyNotes
  dsimp only
  split
  · exact (hk _).cardPut h2
  · exact hk _

theorem CardFree.stepLeaves {w : StepOut} (h : CardFree w.1 key) (h1 : cardKey ctStep 1 ≠ key) (h2 : cardKey ctStep 2 ≠ key)
    (hk : cardKey ctStep k ≠ key) : CardFree (stepLeaves b s k w).1 key := by
  unfold Laws.stepLeaves
  extract_lets r alt fails good used t0 t3 r3 t6 t7
  have h3 : CardFree t3 key := by
    unfold t3
    split
    · exact h
    · exact h.same rfl rfl
  have h6 : CardFree t6 key := (h3.earlyNotes h1 h2).noteStep hk
  have h7 : CardFree t7 key := h6.same rfl rfl
  split
  · exact h7
  · exact h7.errSet

theorem CardFree.stepStarted (h : CardFree s key) (hk : cardKey ctStep k ≠ key) : CardFree (stepStarted s k) key := by
  unfold Laws.stepStarted
  split
  · exact h
  · exact h.noteStep hk

theorem CardFree.cardNow {kind unit : Nat} (h : CardFree s (cardKey kind unit)) : cardNow s kind unit = none := by
  have hno : ∀ {t : Tab Nat}, (∀ x ∈ t, x.1 ≠ cardKey kind unit) → tget? t (cardKey kind unit) = none := by
    intro t ht
    rw [Option.eq_none_iff_forall_ne_some]
    exact fun v hv => ht _ (mem_of_tget? hv) rfl
  unfold Machine.cardNow cardGet
  rw [hno h.1, hno h.2]

/-- Step 3 finds an empty card where the flash holds no copy. -/
theorem cardFree_cardRead (h : s.flash.copies = []) : CardFree (cardRead s) key := by
  unfold cardRead
  rw [h]
  exact ⟨nofun, nofun⟩

theorem CardFree.stepVerify {alt : Bool} (h : CardFree s key) : CardFree (stepVerify s alt) key := by
  unfold Machine.stepVerify
  extract_lets n rel f s1 s2
  have h2 : CardFree s2 key :=
    foldl_keeps (CardFree · key) showFw (fun _ _ h => h.same rfl rfl) _ (showFuses s1) (h.same rfl rfl)
  exact h2.same rfl rfl

/-! The first steps of a start whose flash holds no copy. -/

theorem stepLeaves_flash {w : StepOut} (h : w.1.flash = s.flash) : (stepLeaves b s 2 w).1.flash = s.flash := by
  unfold stepLeaves
  extract_lets r alt fails good used t0 t3 r3 t6 t7
  have h3 : t3.flash = s.flash := by
    unfold t3
    split
    · exact h
    · rfl
  have h7 : t7.flash = s.flash := h3
  split
  · exact h7
  · exact errSet_flash.trans h7

theorem stepRom_flash {spare : Bool} : (stepRom s [] spare).flash = s.flash := by
  unfold stepRom
  dsimp only
  split <;> rfl

theorem runStep_two (hc : b.clusters = []) : (runStep b (s, true) 2).1.flash = s.flash := by
  rw [runStep_worked (by simp [skipStep, skippable])]
  refine stepLeaves_flash ?_
  change (stepRom s b.clusters _).flash = s.flash
  rw [hc]
  exact stepRom_flash

/-- The keys of STEP records differ by the step. -/
theorem cardKey_step_ne {i j : Nat} (h : i ≠ j) : cardKey ctStep i ≠ cardKey ctStep j := by
  unfold cardKey
  omega

theorem runStep_three (h : s.flash.copies = []) : CardFree (runStep b (s, true) 3).1 (cardKey ctStep 6) := by
  rw [runStep_worked (by simp [skipStep, skippable])]
  exact CardFree.stepLeaves (cardFree_cardRead h) (cardKey_step_ne (by decide)) (cardKey_step_ne (by decide)) (cardKey_step_ne (by decide))

/-- A step after the third that cannot be skipped and whose work leaves a record away leaves it away. -/
theorem CardFree.runStep (h : CardFree s (cardKey ctStep 6)) (hs : skippable k = false) (h6 : k ≠ 6)
    (hw : ∀ u alt prev, CardFree u (cardKey ctStep 6) → CardFree (stepWork u b k alt prev).1 (cardKey ctStep 6)) :
    CardFree (runStep b (s, true) k).1 (cardKey ctStep 6) := by
  rw [runStep_worked (by simp [skipStep, hs])]
  exact (hw _ _ _ (h.stepStarted (cardKey_step_ne h6))).stepLeaves (cardKey_step_ne (by decide)) (cardKey_step_ne (by decide)) (cardKey_step_ne h6)

theorem runStep_six (h : CardFree s (cardKey ctStep 6)) (hf : b.failed = []) (he : b.edges = []) : (runStep b (s, true) 6).2 = true := by
  have halt : useAlt 6 (stepPrev s 6) = false := by
    unfold stepPrev
    rw [h.cardNow]
    decide
  refine runStep_passes hf ?_
  rw [halt]
  change (stepEdges _ b.edges false).2.1 = true
  rw [he]
  exact stepEdges_passes

/-! The whole start. -/

theorem eq_of_passes {x : State × Bool} (h : x.2 = true) : x = (x.1, true) := Prod.ext rfl h

theorem runSteps_pass {ks : List Nat} (hf : b.failed = []) (hc : b.clusters = []) (h6 : 6 ∉ ks) :
    (ks.foldl (runStep b) (s, true)).2 = true := by
  induction ks generalizing s with
  | nil => rfl
  | cons k ks ih =>
    obtain ⟨hk, hks⟩ := not_or.1 (mt List.mem_cons.2 h6)
    rw [List.foldl_cons, eq_of_passes (runStep_passes hf (stepWork_passes hc (Ne.symm hk)))]
    exact ih hks

/-- No step fails, and the flash holds no copy of the card. -/
structure CleanStart (b : BootFacts) (s : State) : Prop where
  failed   : b.failed = []
  clusters : b.clusters = []
  edges    : b.edges = []
  copies   : s.flash.copies = []

theorem start_passes (h : CleanStart b s) : ((rangeFrom 2 13).foldl (runStep b) (s, true)).2 = true := by
  obtain ⟨hf, hc, he, hcopies⟩ := h
  have pass : ∀ {u k}, k ≠ 6 → runStep b (u, true) k = ((runStep b (u, true) k).1, true) :=
    fun hk => eq_of_passes (runStep_passes hf (stepWork_passes hc hk))
  have h3 := runStep_three (b := b) (s := (runStep b (s, true) 2).1) (by rw [runStep_two hc, hcopies])
  have h4 := h3.runStep (b := b) (k := 4) rfl (by decide) fun u alt prev hu => hu.same rfl rfl
  have h5 := h4.runStep (b := b) (k := 5) rfl (by decide) fun u alt prev hu => hu.stepVerify
  rw [show rangeFrom 2 13 = 2 :: 3 :: 4 :: 5 :: 6 :: rangeFrom 7 8 from by decide]
  simp only [List.foldl_cons]
  rw [pass (k := 2) (by decide), pass (k := 3) (by decide), pass (k := 4) (by decide), pass (k := 5) (by decide)]
  rw [eq_of_passes (runStep_six h5 hf he)]
  exact runSteps_pass hf hc (by decide)

end Sys2Proof.Laws
end

