-- ==== Sys2Proof/Proofs/PowerUp.lean ====
section
/-!
PROOF. O45: a start that finishes, the release of MOD_RESET_N, and the obligation.
-/
namespace Sys2Proof.Laws
open Sys2Proof.Machine Sys2Proof.Safety

variable {s s0 u : State} {b : BootFacts}

/-! The links train again (R501). -/

theorem Steady.noiseFail {pg} (h : Steady s0 s) : Steady s0 (noiseFail s pg) := (h.optElse (·.upd.modBlk)).bumpF.setRegF

theorem Steady.noiseRetest {pg pass} (h : Steady s0 s) : Steady s0 (noiseRetest s pg pass) := h.ifs (·.setRegF.modBlk) (·.noiseFail)

theorem Steady.noiseRetests {bad} (h : Steady s0 s) : Steady s0 (noiseRetests s bad) :=
  (h.foldl fun _ _ h => h.noiseRetest).foldl fun _ _ h => h.noiseFail

theorem Steady.portTrain {p} (h : Steady s0 s) : Steady s0 (portTrain s p) := h.opt (·.setLink)

theorem Steady.stepNhl {alt lanes} (h : Steady s0 s) : Steady s0 (stepNhl s alt lanes) := (h.opt (·.setRegF)).portTrain.setRegF

theorem Steady.loadDomain (h : Steady s0 s) : Steady s0 (loadDomain s) := by
  unfold Machine.loadDomain
  exact (h.upd.setReg.setReg.setReg).foldl fun _ _ h => h.setReg

theorem Steady.stepFabric {alt lanes} (h : Steady s0 s) : Steady s0 (stepFabric s alt lanes) :=
  (h.loadDomain.opt fun h => h.foldl fun _ _ h => h.setRegF).foldl fun _ _ h => h.portTrain

theorem Steady.showStep {k outcome alt} (h : Steady s0 s) : Steady s0 (showStep s k outcome alt) := h.setReg

theorem stepWork_nhl (s : State) (b : BootFacts) (alt : Bool) (prev : Nat) :
    (stepWork s b 13 alt prev).1 = stepNhl s alt prev := by
  simp only [stepWork]

theorem stepWork_fabric (s : State) (b : BootFacts) (alt : Bool) (prev : Nat) :
    (stepWork s b 14 alt prev).1 = stepFabric (cablesOn s) alt prev := by
  simp only [stepWork]

theorem Steady.stepWork_links {k alt prev} (hk : k ∈ [13, 14]) (h : Steady s0 s) : Steady s0 (Machine.stepWork s b k alt prev).1 := by
  rcases List.mem_pair.1 hk with rfl | rfl
  · rw [stepWork_nhl]
    exact h.stepNhl
  · rw [stepWork_fabric]
    exact Steady.stepFabric (h.upd rfl)

theorem MemFrom.stepWork_links {k alt prev} (hk : k ∈ [13, 14]) (h : MemFrom false s0 s) :
    MemFrom false s0 (Machine.stepWork s b k alt prev).1 := by
  rcases List.mem_pair.1 hk with rfl | rfl
  · rw [stepWork_nhl]
    exact h.stepNhl
  · rw [stepWork_fabric]
    exact h.cablesOn.stepFabric

theorem steady_restartLinks (s : State) (b : BootFacts) : Steady s (restartLinks s b) :=
  List.foldlRecOn _ _ (.refl s) fun _ h _ hk => h.ifs (fun h => (h.ifs (·.setRegF) (·.loadDomain)).showStep)
    fun h => (h.stepWork_links hk).showStep.optElse (·.errSet)

theorem memFrom_restartLinks (s : State) (b : BootFacts) : MemFrom false s (restartLinks s b) :=
  List.foldlRecOn _ _ (.refl s) fun _ h _ hk => h.ifs (fun h => (h.ifs (·.setRegF) (·.loadDomain)).showStep)
    fun h => (h.stepWork_links hk).showStep.optElse (·.errSet)

theorem modResetRelease_reset (hp : s.pwrGood = true) (ht : s.pwr.tripped = false) (hs : s.startHeld = false) (hl : s.resetLow = true)
    (hd : s.draining = false) : ∃ t, exec (.modResetRelease b) s = .next t ∧ t.resetLow = false ∧ t.card = s.card ∧ t.flash = s.flash ∧
      t.ram = s.ram := by
  have he : exec (.modResetRelease b) s = .next (restartLinks (noiseRetests { s with resetLow := false } b.noise) b) := by
    change execModResetRelease b s = _
    unfold execModResetRelease
    rw [if_neg (by simp [hp, ht]), if_neg (by simp [hs]), if_neg (by simp [hl, hd]), if_neg (by simp [hd])]
  have hlinks := steady_restartLinks (noiseRetests { s with resetLow := false } b.noise) b
  have hn : Steady { s with resetLow := false } (noiseRetests { s with resetLow := false } b.noise) := (Steady.refl _).noiseRetests
  obtain ⟨-, hcard, hflash⟩ := hlinks.keys_card_flash
  obtain ⟨-, hcard', hflash'⟩ := hn.keys_card_flash
  obtain ⟨hram, -⟩ := (memFrom_restartLinks (noiseRetests { s with resetLow := false } b.noise) b).same rfl
  obtain ⟨hram', -⟩ := (MemFrom.noiseRetests (w := false) (bad := b.noise) (.refl { s with resetLow := false })).same rfl
  exact ⟨_, he, hlinks.draining_resetLow.2.trans hn.draining_resetLow.2, hcard.trans hcard', hflash.trans hflash', hram.trans hram'⟩

/-! Starts. -/

/-- A start is over and counts no more. -/
def StartDone (t : State) : Prop := t.startHeld = false ∧ regF t pgBoot 0x080 15 8 = 0

theorem cleanStart_start (h : CleanStart b s) : CleanStart b (countStart (noiseRetests (startBase s) b.noise)) := by
  obtain ⟨hf, hc, he, hcopies⟩ := h
  have hn : Steady (startBase s) (countStart (noiseRetests (startBase s) b.noise)) := (Steady.refl _).noiseRetests.bumpF
  obtain ⟨-, -, hflash⟩ := hn.keys_card_flash
  exact ⟨hf, hc, he, (congrArg Flash.copies hflash).trans hcopies⟩

theorem startUp_done (h : CleanStart b s) : StartDone (startUp s b) := by
  have hs : CleanStart b (setRegF s pgBoot 0x080 15 8 0) := ⟨h.failed, h.clusters, h.edges, h.copies⟩
  have hpass := start_passes (cleanStart_start hs)
  unfold startUp runStarts
  rw [eq_of_passes hpass]
  exact ⟨rfl, regF_setRegF_same _ _ _ _ _ _ (by decide) (by decide)⟩

theorem powerUp_held (hp : s.pwrGood = false) (h1 : 1 ∉ b.failed) (hr : b.resetHeld = true) :
    exec (.powerUp b) s = .next { unpowered s with pwrGood := true, resetLow := true, startHeld := true } := by
  change execPowerUp b s = _
  unfold execPowerUp
  rw [if_neg (by simp [hp, h1])]
  simp [hr]

theorem powerUp_clean (hp : s.pwrGood = false) (hr : b.resetHeld = false) (h : CleanStart b s) :
    ∃ t, exec (.powerUp b) s = .next t ∧ StartDone t := by
  have he : exec (.powerUp b) s = .next (startUp { unpowered s with pwrGood := true, resetLow := false } b) := by
    change execPowerUp b s = _
    unfold execPowerUp
    rw [if_neg (by simp [hp, h.failed])]
    simp [hr]
  exact ⟨_, he, startUp_done ⟨h.failed, h.clusters, h.edges, h.copies⟩⟩

theorem modResetRelease_held (hp : s.pwrGood = true) (ht : s.pwr.tripped = false) (hs : s.startHeld = true) (h : CleanStart b s) :
    ∃ t, exec (.modResetRelease b) s = .next t ∧ StartDone t := by
  have he : exec (.modResetRelease b) s = .next (startUp { s with resetLow := false } b) := by
    change execModResetRelease b s = _
    unfold execModResetRelease
    rw [if_neg (by simp [hp, ht]), if_pos hs]
  exact ⟨_, he, startUp_done ⟨h.failed, h.clusters, h.edges, h.copies⟩⟩

/-- Settles O45: power-up, warm reset, card writes and cables, each by its own lemma. -/
theorem startsResetsTheCardAndCables : Obligations.StartsResetsTheCardAndCables := by
  unfold Obligations.StartsResetsTheCardAndCables
  intro s b
  have clean : ∀ {x1 x2 x3 x4 x5 : Prop}, b.failed = [] ∧ b.clusters = [] ∧ b.edges = [] ∧ x1 ∧ x2 ∧ x3 ∧ x4 ∧ x5 ∧ s.flash.copies = [] →
      CleanStart b s := fun ⟨hf, hc, he, _, _, _, _, _, hcopies⟩ => ⟨hf, hc, he, hcopies⟩
  refine ⟨fun hp => ⟨fun h1 hr => ?_, fun h hr => powerUp_clean hp hr (clean h)⟩, fun hp ht => ⟨fun hs h => modResetRelease_held hp ht hs (clean h),
    fun hs hl hd => modResetRelease_reset hp ht hs hl hd, fun hl hb => ?_, fun hl hb => ?_⟩, sbDrainExpire_draining,
    fun hf => ⟨fun k u v => cardWrite_record hf, fun n => cardWrite_fails hf⟩,
    fun p hp => ⟨cableConnect_new hp, fun hc => ⟨cableRemove_present hp hc, cableOverpower_powered hp hc, fun ok w hf => cableIdRead_once hp hf hc⟩⟩⟩
  · exact ⟨_, powerUp_held hp h1 hr, rfl, rfl, rfl, rfl, rfl, rfl⟩
  · exact ⟨_, warmReset_unbooted hp ht hl hb, rfl, rfl, rfl⟩
  · obtain ⟨t, he, ⟨hlow, hcmds, hlaunches, hk, hc, hf⟩, hsb⟩ := warmReset_booted hp ht hl hb
    exact ⟨t, he, hlow, hcmds, hlaunches, hk, hc, hf, hsb⟩

end Sys2Proof.Laws
end

