-- ==== Sys2Proof/Proofs/GroupFaults.lean ====
section
/-!
PROOF. O6: what a stop makes of a workgroup and its groups (R72, R73, R77), what a fault leaves of its group (R74, R79), and the
faults of the control slot (R65, R80, R89).
-/
namespace Sys2Proof.Laws
open Sys2Proof.Machine Sys2Proof.Safety

-- Elaborated side by side, so many small lemmas ask for more threads than the memory limit allows.
set_option Elab.async false

variable {s : State} {t n w : Nat}

/-! Groups and workgroups of a tile under updates. -/

@[simp] theorem wg?_setGroup (s : State) (t n : Nat) (g : Group) (w : Nat) : wg? (setGroup s t n g) t w = wg? s t w := by
  rw [wg?, setGroup, tile_modTile_same, wg?]

@[simp] theorem wg?_modGroup (s : State) (t n : Nat) (f : Group → Group) (w : Nat) : wg? (modGroup s t n f) t w = wg? s t w := by
  rw [wg?, modGroup, tile_modTile_same, wg?]

theorem wg?_modWg_same (s : State) (t w : Nat) (f : Wg → Wg) : wg? (modWg s t w f) t w = (wg? s t w).map f := by
  rw [wg?, modWg, tile_modTile_same, tget?_tmod, if_pos rfl, wg?]

theorem wg?_modWg_ne (s : State) (t : Nat) {w v : Nat} (f : Wg → Wg) (h : v ≠ w) : wg? (modWg s t w f) t v = wg? s t v := by
  rw [wg?, modWg, tile_modTile_same, tget?_tmod, if_neg h, wg?]

@[simp] theorem group?_modWg (s : State) (t w : Nat) (f : Wg → Wg) (n : Nat) : group? (modWg s t w f) t n = group? s t n := by
  rw [group?, modWg, tile_modTile_same, group?]

theorem group?_congr {u : State} (h : u.tiles = s.tiles) (t n : Nat) : group? u t n = group? s t n := by
  rw [group?, tile_congr h, group?]

theorem wg?_congr {u : State} (h : u.tiles = s.tiles) (t w : Nat) : wg? u t w = wg? s t w := by
  rw [wg?, tile_congr h, wg?]

@[simp] theorem group?_endResvs (s : State) (t : Nat) (ns : List Nat) (m n : Nat) : group? (endResvs s t ns) m n = group? s m n := rfl
@[simp] theorem wg?_endResvs (s : State) (t : Nat) (ns : List Nat) (m w : Nat) : wg? (endResvs s t ns) m w = wg? s m w := rfl

@[simp] theorem group?_dropOffers (s : State) (t : Nat) (ns : List Nat) (n : Nat) : group? (dropOffers s t ns) t n = group? s t n := by
  rw [group?, dropOffers, tile_modTile_same, group?]

@[simp] theorem wg?_dropOffers (s : State) (t : Nat) (ns : List Nat) (w : Nat) : wg? (dropOffers s t ns) t w = wg? s t w := by
  rw [wg?, dropOffers, tile_modTile_same, wg?]

theorem mem_groupsOf {g : Group} (hg : group? s t n = some g) (hw : g.wg = w) : (n, g) ∈ (tile s t).groupsOf w :=
  List.mem_filter.2 ⟨mem_of_tget? hg, by simp [hw]⟩

/-! A stop that takes effect at once. -/

/-- A group as a stop for a reason leaves it. -/
def stoppedFor (reason : Nat) (g : Group) : Group :=
  { g with stopped := true, reason := groupReason reason g, offer := none,
           txg := if reason = rPreempt || reason = rMigrate then g.txg else none }

theorem stoppedFor_twice (reason : Nat) (g : Group) : stoppedFor reason (stoppedFor reason g) = stoppedFor reason g := by
  unfold stoppedFor
  split <;> rfl

/-- A change that is the same made once or twice, of some groups: those named take it. -/
theorem group?_foldl_modGroup (f : Group → Group) (hf : ∀ g, f (f g) = f g) (gs : List (Nat × Group)) (s : State) :
    group? (gs.foldl (fun s p => modGroup s t p.1 f) s) t n = if n ∈ gs.map (·.1) then (group? s t n).map f else group? s t n := by
  induction gs generalizing s with
  | nil => rfl
  | cons p gs ih =>
    rw [List.foldl_cons, ih, group?_modGroup]
    have htwice : f ∘ f = f := funext hf
    by_cases hn : n = p.1
    · subst hn
      by_cases hgs : p.1 ∈ gs.map (·.1) <;> simp [hgs, htwice]
    · simp only [hn, and_false, if_false, List.map_cons, List.mem_cons, false_or]

theorem wg?_foldl_modGroup (f : Nat × Group → Group → Group) (gs : List (Nat × Group)) (s : State) :
    wg? (gs.foldl (fun s p => modGroup s t p.1 (f p)) s) t w = wg? s t w :=
  foldl_keeps (fun u => wg? u t w = wg? s t w) _ (fun _ _ h => (wg?_modGroup _ _ _ _ _).trans h) gs s rfl

theorem group?_stopGroups (gs : List (Nat × Group)) (reason : Nat) (s : State) : group? (stopGroups s t gs reason) t n =
    if n ∈ gs.map (·.1) then (group? s t n).map (stoppedFor reason) else group? s t n :=
  group?_foldl_modGroup (stoppedFor reason) (stoppedFor_twice reason) gs s

theorem wg?_stopGroups (gs : List (Nat × Group)) (reason : Nat) (s : State) : wg? (stopGroups s t gs reason) t w = wg? s t w :=
  wg?_foldl_modGroup (fun _ => stoppedFor reason) gs s

/-- The stop of a workgroup that waits for nothing. -/
def stopNow (s : State) (t w reason : Nat) : State :=
  let gs := (tile s t).groupsOf w
  let s1 := if reason = rPreempt || reason = rMigrate then s else unbindForPark s gs
  let ns := gs.map (·.1)
  modWg (endResvs (dropOffers (stopGroups s1 t gs reason) t ns) t ns) t w
    (fun x => { x with park := .draining, parkReason := reason, asked := 0 })

theorem stopWg_now {x : Wg} {reason : Nat} (hw : wg? s t w = some x) (hp : x.park = .none)
    (hf : (askedReason reason && (tile s t).wgFinished w) = false)
    (hb : ((decide (reason = rPreempt) || decide (reason = rMigrate)) && ((tile s t).groupsOf w).any (fun p => p.2.txg.isSome)) = false) :
    stopWg s t w reason = stopNow s t w reason := by
  unfold stopWg
  rw [hw]
  dsimp only
  rw [hp, hf, hb]
  rfl

theorem stopNow_tile (s : State) (t w reason : Nat) : ∃ u, u.tiles = s.tiles ∧ stopNow s t w reason =
    modWg (endResvs (dropOffers (stopGroups u t ((tile s t).groupsOf w) reason) t (((tile s t).groupsOf w).map (·.1))) t
      (((tile s t).groupsOf w).map (·.1))) t w (fun x => { x with park := .draining, parkReason := reason, asked := 0 }) := by
  refine ⟨if reason = rPreempt || reason = rMigrate then s else unbindForPark s ((tile s t).groupsOf w), ?_, rfl⟩
  split
  · rfl
  · exact unbindForPark_tiles _ s

theorem group?_stopNow (s : State) (t w reason n : Nat) : group? (stopNow s t w reason) t n =
    if n ∈ ((tile s t).groupsOf w).map (·.1) then (group? s t n).map (stoppedFor reason) else group? s t n := by
  obtain ⟨u, htiles, hstop⟩ := stopNow_tile s t w reason
  rw [hstop, group?_modWg, group?_endResvs, group?_dropOffers, group?_stopGroups, group?_congr htiles]

/-- The workgroup parks for the reason, and each of its groups is as the stop leaves it. -/
theorem stopNow_spec {x : Wg} {reason : Nat} (hw : wg? s t w = some x) :
    wg? (stopNow s t w reason) t w = some { x with park := .draining, parkReason := reason, asked := 0 } ∧
      ∀ n g, group? s t n = some g → g.wg = w → group? (stopNow s t w reason) t n = some (stoppedFor reason g) := by
  refine ⟨?_, fun n g hg hgw => ?_⟩
  · obtain ⟨u, htiles, hstop⟩ := stopNow_tile s t w reason
    rw [hstop, wg?_modWg_same, wg?_endResvs, wg?_dropOffers, wg?_stopGroups, wg?_congr htiles, hw]
    rfl
  · rw [group?_stopNow, hg, if_pos (List.mem_map.2 ⟨_, mem_groupsOf hg hgw, rfl⟩)]
    rfl

/-! Faults of a group (R74). -/

/-- A group that has not faulted keeps the record and stands as it did; its workgroup, unless it is parking, stops with reason
FAULT. -/
theorem groupFault_spec {g : Group} (hg : group? s t n = some g) (hf : g.fault = none) (f : FaultRec) :
    ∃ g', group? (groupFault s t n f) t n = some g' ∧ g'.fault = some f ∧ SameCore { g with fault := some f } g' ∧
      (groupFault s t n f).ram = s.ram ∧ ∀ w, wg? s t g.wg = some w → w.park = .none →
        g'.stopped = true ∧ g'.reason = rFault ∧ (wg? (groupFault s t n f) t g.wg).map (·.park) = some .draining := by
  have hfault : groupFault s t n f = stopWg (bumpF (setGroup s t n { g with fault := some f }) (pgTile t) 0x094 15 0 1) t g.wg rFault := by
    unfold groupFault
    rw [hg]
    simp [hf]
  rw [hfault]
  generalize hu : bumpF (setGroup s t n { g with fault := some f }) (pgTile t) 0x094 15 0 1 = u
  have hgu : group? u t n = some { g with fault := some f } := hu ▸ group?_setGroup_same s t n _
  have hwu : wg? u t g.wg = wg? s t g.wg := hu ▸ wg?_setGroup s t n _ _
  obtain ⟨g', hg', hcore⟩ := stopWg_keeps u t g.wg rFault n _ hgu
  have hrec : g'.fault = some f := by
    obtain ⟨-, -, -, -, -, -, -, h, -⟩ := hcore
    exact h
  refine ⟨g', hg', hrec, hcore, (stopWg_ram u t g.wg rFault).trans (hu ▸ rfl), fun w hw hp => ?_⟩
  have hnow : stopWg u t g.wg rFault = stopNow u t g.wg rFault := stopWg_now (hwu.trans hw) hp rfl rfl
  obtain ⟨hpark, hgroups⟩ := stopNow_spec (reason := rFault) (hwu.trans hw)
  rw [hnow] at hg' ⊢
  cases hg'.symm.trans (hgroups n _ hgu rfl)
  exact ⟨rfl, rfl, by rw [hpark]; rfl⟩

/-- The trigger of a TRAP touches no tile and no memory (R519). -/
theorem trapTrigger_frame (s : State) (b : Bundle) : (trapTrigger s b).tiles = s.tiles ∧ (trapTrigger s b).ram = s.ram := by
  unfold trapTrigger
  split
  · split
    · unfold cairnTrigger
      split <;> exact ⟨rfl, rfl⟩
    · exact ⟨rfl, rfl⟩
  · exact ⟨rfl, rfl⟩

theorem ram_of_elsewhere {u : State} (h : elsewhere u = elsewhere s) : u.ram = s.ram := by
  have := congrArg State.ram h
  exact this

/-- A bundle that is ready and that a check refuses faults its group with the check's code. -/
theorem faultsWith_of_check {r : GRef} {g : Group} {i : Instr} {b : Bundle} {code : Nat} (h : MayIssue s r g)
    (hi : exec i s = .next (issueOne s r b)) (hr : bundleReady (roundOne s r.tile r.slot) r.tile r.slot (noWait g) b = true)
    (hb : bundleFault (noWait g) b = some code) : FaultsWith s r g i code := by
  have hg : group? (roundOne s r.tile r.slot) r.tile r.slot = some (noWait g) := by rw [roundOne_here, h.here]; rfl
  have hone : issueOne s r b = groupFault (trapTrigger (roundOne s r.tile r.slot) b) r.tile r.slot (faultOf code b) := by
    unfold issueOne issueBundle
    simp only [hg, hr, hb, if_true]
  obtain ⟨htiles, hram⟩ := trapTrigger_frame (roundOne s r.tile r.slot) b
  obtain ⟨g', hg', hrec, hcore, hmem, hstop⟩ := groupFault_spec ((group?_congr htiles _ _).trans hg) h.sound (faultOf code b)
  refine ⟨_, g', faultOf code b, hi.trans (congrArg _ hone), hg', hrec, rfl, rfl, hcore, ?_, fun w hw hp => hstop w ?_ hp⟩
  · have helse : (roundOne s r.tile r.slot).ram = s.ram := ram_of_elsewhere (roundOne_rest s r.tile r.slot)
    rw [hmem, hram, helse]
  · rw [wg?_congr htiles, wg?, roundOne_wgs]
    exact hw

/-! The checks of a bundle of one control operation (R65, R89). -/

theorem cBundle_legal (c : COp) : (cBundle c 0 0).legal = c.legal := by
  cases c <;> simp [mkBundle, Bundle.legal, disjoint, Bundle.usesLitV]

theorem cBundle_regRange (c : COp) (r : Nat) : (cBundle c 0 0).regRange r = false := rfl

theorem bundleFault_illegal (g : Group) {c : COp} (h : c.legal = false) : bundleFault g (cBundle c 0 0) = some fIllegal := by
  unfold bundleFault
  rw [cBundle_legal, h]
  rfl

theorem bundleFault_control (g : Group) {c : COp} (h : c.legal = true) : bundleFault g (cBundle c 0 0) = cFault g c := by
  unfold bundleFault
  rw [cBundle_legal, h, cBundle_regRange]
  rfl

section
variable {r : GRef} {g : Group} {i : Instr} {c : COp}

/-- An operation with a reserved field faults with BUNDLE_ILLEGAL. -/
theorem faultsWith_illegal (h : MayIssue s r g) (hi : exec i s = issueC s r c 0 0) (hc : c.legal = false)
    (hw : ∀ k m, c = .waitle k m → g.count k ≤ m := by simp) : FaultsWith s r g i fIllegal :=
  faultsWith_of_check h hi (ready_c h c 0 0 hw) (bundleFault_illegal _ hc)

/-- An operation that its group cannot perform faults with the code of R65 or R99. -/
theorem faultsWith_control {code : Nat} (h : MayIssue s r g) (hi : exec i s = issueC s r c 0 0) (hc : c.legal = true)
    (hf : cFault (noWait g) c = some code) (hw : ∀ k m, c = .waitle k m → g.count k ≤ m := by simp) : FaultsWith s r g i code :=
  faultsWith_of_check h hi (ready_c h c 0 0 hw) ((bundleFault_control _ hc).trans hf)

end

theorem toNat_pos {k : Nat} {x : BitVec k} (h : x ≠ 0) : 1 ≤ x.toNat :=
  Nat.pos_of_ne_zero fun h0 => h (BitVec.eq_of_toNat_eq h0)

/-- Settles O6: each check faults its group, with the record and the stop of `faultsWith_of_check`. -/
theorem controlFaultsAreRecorded : Obligations.ControlFaultsAreRecorded := by
  unfold Obligations.ControlFaultsAreRecorded
  intro s r g p sr h
  refine ⟨fun code => ?trap, fun els fin he hf hs => ?split, fun out ho hs => ?loop, fun hs => ?join, fun hs => ?brk,
    fun cond off hc => ?cond, fun off => ?mode, fun fin => ?els, fun els => ?fin, ?out, fun k n hk hn => ?counter⟩
  case trap => exact faultsWith_control (c := .trap code.toNat) h rfl rfl rfl
  case split =>
    exact faultsWith_control (c := .split p.toNat els.toNat fin.toNat) h rfl (by simp [COp.legal, toNat_pos he, toNat_pos hf])
      (if_pos hs)
  case loop => exact faultsWith_control (c := .loop out.toNat) h rfl (by simp [COp.legal, toNat_pos ho]) (if_pos hs)
  case join => exact faultsWith_control (c := .join) h rfl rfl (if_pos (by simp [noWait, hs]))
  case brk =>
    refine faultsWith_control (c := .brk p.toNat) h rfl rfl ?_
    change (match g.stack with
      | e :: _ => if e.phase = 2 then none else some fNesting
      | [] => some fNesting) = some fNesting
    split
    · next e rest he => exact if_neg (hs e rest he)
    · rfl
  case cond => exact faultsWith_illegal (c := .brCond sr.toNat cond.toNat off.toInt) h rfl (decide_eq_false (by omega))
  case mode => exact faultsWith_illegal (c := .brp p.toNat 3 off.toInt) h rfl rfl
  case els => exact faultsWith_illegal (c := .split p.toNat 0 fin.toNat) h rfl rfl
  case fin => exact faultsWith_illegal (c := .split p.toNat els.toNat 0) h rfl (by simp [COp.legal])
  case out => exact faultsWith_illegal (c := .loop 0) h rfl rfl
  case counter =>
    refine faultsWith_illegal (c := .waitle k.toNat n.toNat) h rfl (decide_eq_false (by omega)) fun k' m hkm => ?_
    cases hkm
    omega

end Sys2Proof.Laws
end

