-- ==== Sys2Proof/Proofs/MaskStack.lean ====
section
/-!
PROOF. O4: the operations on the mask stack (R63, R64).
-/
namespace Sys2Proof.Laws
open Sys2Proof.Machine Sys2Proof.Safety

-- Elaborated side by side, so many small lemmas ask for more threads than the memory limit allows.
set_option Elab.async false

/-! JOIN, and the JOINs that follow while no lane is active. -/

section
variable {g : Group} {e : MEntry} {rest : List MEntry}

/-- JOIN on a THEN entry with deferred lanes turns to them. -/
theorem joinTop_turns (hs : g.stack = e :: rest) (hp : e.phase = 0) (hd : e.deferred ≠ 0) :
    g.joinTop = { g with stack := { e with phase := 1 } :: rest, active := e.deferred, pc := e.t1 } := by
  unfold Group.joinTop
  rw [hs]
  exact if_pos (by simp [hp, hd])

/-- JOIN on any other entry pops it. -/
theorem joinTop_pops (hs : g.stack = e :: rest) (he : e.phase ≠ 0 ∨ e.deferred = 0) :
    g.joinTop = { g with stack := rest, active := e.saved &&& g.live, pc := e.t2 } := by
  unfold Group.joinTop
  rw [hs]
  exact if_neg (by rcases he with h | h <;> simp [h])

theorem autoJoin_active (k : Nat) (ha : g.active ≠ 0) : Group.autoJoin k g = g := by
  cases k with
  | zero => rfl
  | succ k => exact if_neg (by simp [ha])

/-- A group with active lanes is settled. -/
theorem settle_active (hl : g.live ≠ 0) (ha : g.active ≠ 0) : g.settle = g := by
  unfold Group.settle
  rw [autoJoin_active 80 ha]
  exact if_neg hl

/-- A group without active lanes joins once, when that gives it some. -/
theorem settle_joins (hl : g.joinTop.live ≠ 0) (h0 : g.active = 0) (hs : g.stack ≠ []) (ha : g.joinTop.active ≠ 0) : g.settle = g.joinTop := by
  have hjoin : Group.autoJoin 80 g = Group.autoJoin 79 g.joinTop := if_pos (by simp [h0, hs])
  unfold Group.settle
  rw [hjoin, autoJoin_active 79 ha]
  exact if_neg hl

end

theorem joinTop_live (g : Group) : g.joinTop.live = g.live := by
  unfold Group.joinTop
  split
  · rfl
  · split <;> rfl

/-- An offset counted from an address, as an entry keeps it. -/
theorem addr48_jumpTo (g : Group) (off : Nat) : addr48 (jumpTo g.pc off) = target g off := by
  unfold addr48 jumpTo target wrap
  norm_cast

section
variable {s : State} {r : GRef} {g : Group} {i : Instr} {c : COp}

/-- An operation on the masks that no check refuses, from the group that it makes of the one that issues. -/
theorem mask_result (h : MayIssue s r g) (hi : exec i s = issueC s r c 0 0) (hl : c.legal = true) (hf : cFault (noWait g) c = none)
    {pc active : Nat} {stack : List MEntry}
    (hc : ∀ lic, cAfter s r g c 0 0 lic = { noWait g with pc := pc, active := active, stack := stack })
    (hw : ∀ k m, c = .waitle k m → g.count k ≤ m := by simp) (hb : c ≠ .bar := by simp) (he : c ≠ .exit := by simp) :
    MaskResult s r g i pc active stack := by
  obtain ⟨t, lic, ht, hg, honly⟩ := issueC_next h c 0 0 ((cBundle_legal c).trans hl) hf hw hb he
    (fun lic => by rw [hc]; simpa [noWait] using (by simp [h.runs] : g.stat ≠ .finished))
  rw [hc] at hg
  exact ⟨t, _, hi.trans ht, hg, rfl, rfl, rfl, rfl, rfl, rfl, rfl, rfl, rfl, honly⟩

/-- The entry that SPLIT pushes. -/
def splitEntry (g : Group) (p els fin : Nat) : MEntry :=
  { saved := g.active, deferred := without g.active (g.pget p), t1 := target g els, t2 := target g fin, phase := 0 }

/-- The group that SPLIT makes, before it is settled. -/
theorem cAfter_split (p els fin lic : Nat) : cAfter s r g (.split p els fin) 0 0 lic = Group.settle { noWait g with
    pc := (g.pc + 16) % 2 ^ 64, active := g.active &&& g.pget p, stack := splitEntry g p els fin :: g.stack } := by
  have hentry : (⟨g.active, andNot g.active (g.pget p), addr48 (jumpTo g.pc els), addr48 (jumpTo g.pc fin), 0⟩ : MEntry) = splitEntry g p els fin := by
    rw [addr48_jumpTo, addr48_jumpTo]
    rfl
  rw [← hentry]
  rfl

theorem cFault_brk {p : Nat} {e : MEntry} {rest : List MEntry} (hs : g.stack = e :: rest) (hp : e.phase = 2) :
    cFault (noWait g) (.brk p) = none := by
  have hs' : (noWait g).stack = e :: rest := hs
  unfold cFault
  dsimp only
  rw [hs']
  exact if_pos hp

variable (h : MayIssue s r g) (hlive : g.live ≠ 0)
include h hlive

/-- SPLIT goes on with the lanes of the predicate. -/
theorem split_taken {p els fin : Nat} (hl : (COp.split p els fin).legal = true) (hs : g.stack.length < 32)
    (hi : exec i s = issueC s r (.split p els fin) 0 0) (ht : g.active &&& g.pget p ≠ 0) :
    MaskResult s r g i ((g.pc + 16) % 2 ^ 64) (g.active &&& g.pget p) (splitEntry g p els fin :: g.stack) := by
  refine mask_result h hi hl (if_neg (not_le.2 hs)) fun lic => ?_
  rw [cAfter_split]
  exact settle_active hlive ht

/-- Where the predicate has no active lane, SPLIT goes on at once with the others. -/
theorem split_other {p els fin : Nat} (hl : (COp.split p els fin).legal = true) (hs : g.stack.length < 32)
    (hi : exec i s = issueC s r (.split p els fin) 0 0) (ht : g.active &&& g.pget p = 0) :
    MaskResult s r g i (target g els) (without g.active (g.pget p)) ({ splitEntry g p els fin with phase := 1 } :: g.stack) := by
  have hother : without g.active (g.pget p) ≠ 0 := by
    unfold without
    rw [ht]
    exact h.active
  refine mask_result h hi hl (if_neg (not_le.2 hs)) fun lic => ?_
  rw [cAfter_split, ht]
  generalize hx : ({ noWait g with pc := _, active := 0, stack := _ } : Group) = x
  have hturn := joinTop_turns (g := x) (e := splitEntry g p els fin) (rest := g.stack) (by rw [← hx]) rfl hother
  rw [settle_joins (by rw [joinTop_live, ← hx]; exact hlive) (by rw [← hx]) (by rw [← hx]; simp) (by rw [hturn]; exact hother), hturn, ← hx]
  rfl

/-- JOIN turns to the deferred lanes. -/
theorem join_turns {e : MEntry} {rest : List MEntry} (hi : exec i s = issueC s r .join 0 0) (hs : g.stack = e :: rest) (hp : e.phase = 0)
    (hd : e.deferred ≠ 0) : MaskResult s r g i e.t1 e.deferred ({ e with phase := 1 } :: rest) := by
  refine mask_result h hi rfl (if_neg (by simp [noWait, hs])) fun lic => ?_
  change Group.settle (Group.joinTop { noWait g with pc := (g.pc + 16) % 2 ^ 64 }) = _
  rw [joinTop_turns (g := { noWait g with pc := (g.pc + 16) % 2 ^ 64 }) hs hp hd]
  exact settle_active hlive hd

/-- JOIN goes on with the saved lanes that live. -/
theorem join_pops {e : MEntry} {rest : List MEntry} (hi : exec i s = issueC s r .join 0 0) (hs : g.stack = e :: rest)
    (he : e.phase ≠ 0 ∨ e.deferred = 0) (ha : e.saved &&& g.live ≠ 0) : MaskResult s r g i e.t2 (e.saved &&& g.live) rest := by
  refine mask_result h hi rfl (if_neg (by simp [noWait, hs])) fun lic => ?_
  change Group.settle (Group.joinTop { noWait g with pc := (g.pc + 16) % 2 ^ 64 }) = _
  rw [joinTop_pops (g := { noWait g with pc := (g.pc + 16) % 2 ^ 64 }) hs he]
  exact settle_active hlive ha

omit hlive in
/-- LOOP pushes its entry and goes on. -/
theorem loop_pushes {out : Nat} (hl : (COp.loop out).legal = true) (hs : g.stack.length < 32) (hi : exec i s = issueC s r (.loop out) 0 0) :
    MaskResult s r g i ((g.pc + 16) % 2 ^ 64) g.active
      ({ saved := g.active, deferred := 0, t1 := target g out, t2 := target g out, phase := 2 } :: g.stack) := by
  refine mask_result h hi hl (if_neg (not_le.2 hs)) fun lic => ?_
  rw [← addr48_jumpTo]
  rfl

/-- BREAK goes on with the lanes left in the loop. -/
theorem break_left {p : Nat} {e : MEntry} {rest : List MEntry} (hi : exec i s = issueC s r (.brk p) 0 0) (hs : g.stack = e :: rest)
    (hp : e.phase = 2) (ha : without g.active (g.pget p) ≠ 0) :
    MaskResult s r g i ((g.pc + 16) % 2 ^ 64) (without g.active (g.pget p)) g.stack :=
  mask_result h hi rfl (cFault_brk hs hp) fun _ => settle_active (g := { noWait g with
    pc := (g.pc + 16) % 2 ^ 64, active := without g.active (g.pget p) }) hlive ha

/-- BREAK leaves the loop with the saved lanes that live when no lane is left in it. -/
theorem break_leaves {p : Nat} {e : MEntry} {rest : List MEntry} (hi : exec i s = issueC s r (.brk p) 0 0) (hs : g.stack = e :: rest)
    (hp : e.phase = 2) (h0 : without g.active (g.pget p) = 0) (ha : e.saved &&& g.live ≠ 0) :
    MaskResult s r g i e.t2 (e.saved &&& g.live) rest := by
  refine mask_result h hi rfl (cFault_brk hs hp) fun lic => ?_
  change Group.settle { noWait g with pc := (g.pc + 16) % 2 ^ 64, active := without g.active (g.pget p) } = _
  rw [h0]
  generalize hx : ({ noWait g with pc := _, active := 0 } : Group) = x
  have hstack : x.stack = e :: rest := by rw [← hx]; exact hs
  have hxlive : x.live = g.live := by rw [← hx]; rfl
  have hpop := joinTop_pops hstack (.inl (by rw [hp]; decide))
  rw [hxlive] at hpop
  rw [settle_joins (by rw [joinTop_live, hxlive]; exact hlive) (by rw [← hx]) (by rw [hstack]; simp) (by rw [hpop]; exact ha), hpop, ← hx]
  rfl

end

/-- Settles O4: SPLIT, JOIN, LOOP and BREAK, each by its own lemmas. -/
theorem maskStackOperations : Obligations.MaskStackOperations := by
  unfold Obligations.MaskStackOperations
  intro s r g p h hlive
  refine ⟨fun els fin he hf hs => ?split, fun e rest hs => ?join, fun out ho hs => ?loop, fun e rest hs hp => ?brk⟩
  case split =>
    have hl : (COp.split p.toNat els.toNat fin.toNat).legal = true := by simp [COp.legal, toNat_pos he, toNat_pos hf]
    exact ⟨fun ht => split_taken h hlive hl hs rfl ht, fun ht => split_other h hlive hl hs rfl ht⟩
  case join => exact ⟨fun hp hd => join_turns h hlive rfl hs hp hd, fun he ha => join_pops h hlive rfl hs he ha⟩
  case loop => exact loop_pushes h (by simp [COp.legal, toNat_pos ho]) hs rfl
  case brk => exact ⟨fun ha => break_left h hlive rfl hs hp ha, fun h0 ha => break_leaves h hlive rfl hs hp h0 ha⟩

end Sys2Proof.Laws
end

