-- ==== Sys2Proof/Proofs/Barriers.lean ====
section
/-!
PROOF. O5: EXIT and BAR (R63, R64, R67).
-/
namespace Sys2Proof.Laws
open Sys2Proof.Machine Sys2Proof.Safety

-- Elaborated side by side, so many small lemmas ask for more threads than the memory limit allows.
set_option Elab.async false

/-! Entries of a table. -/

section
variable {α : Type} {t : Tab α}

theorem mem_tput_of_ne {x : Nat} {p : Nat × α} (a : α) (hp : p ∈ t) (hx : p.1 ≠ x) : p ∈ tput t x a := by
  induction t with
  | nil => cases hp
  | cons q t ih =>
    unfold tput
    split
    · exact List.mem_cons_of_mem _ hp
    · rcases List.mem_cons.1 hp with rfl | hp
      · rw [if_neg hx]
        exact List.mem_cons_self
      · split
        · exact List.mem_cons_of_mem _ hp
        · exact List.mem_cons_of_mem _ (ih hp)

/-- A table in order lists each key once. -/
theorem tget?_of_mem {p : Nat × α} (ht : tabOk t = true) (hp : p ∈ t) : tget? t p.1 = some p.2 := by
  induction t with
  | nil => cases hp
  | cons q t ih =>
    obtain ⟨habove, hok⟩ := (tabOk_cons q.1 q.2 t).1 ht
    rcases List.mem_cons.1 hp with rfl | hp
    · exact if_pos rfl
    · exact (if_neg (habove p hp).ne).trans (ih hok hp)

theorem tabOk_mapKey {β : Type} (f : Nat → α → β) (ht : tabOk t = true) : tabOk (t.map (fun p => (p.1, f p.1 p.2))) = true := by
  induction t with
  | nil => rfl
  | cons q t ih =>
    obtain ⟨habove, hok⟩ := (tabOk_cons q.1 q.2 t).1 ht
    refine (tabOk_cons _ _ _).2 ⟨fun p hp => ?_, ih hok⟩
    obtain ⟨q', hq, rfl⟩ := List.mem_map.1 hp
    exact habove q' hq

end

/-! The tile once a group has issued EXIT or BAR, before its barrier is evaluated. -/

/-- A group with the steps that it has waited. -/
def waited (f : Nat → Group → Nat) (n : Nat) (g : Group) : Group := { g with ready := f n g }

/-- The state in which the record of group `r` has gone back into its tile. -/
structure Placed (s u : State) (r : GRef) (g' : Group) : Prop where
  ram    : u.ram = s.ram
  wgs    : (tile u r.tile).wgs = (tile s r.tile).wgs
  sb     : (tile u r.tile).sb = (tile s r.tile).sb
  posted : (tile u r.tile).posted = (tile s r.tile).posted
  groups : ∃ f, (tile u r.tile).groups = tput ((tile s r.tile).groups.map (fun p => (p.1, waited f p.1 p.2))) r.slot g'

theorem roundOne_placed (s : State) (r : GRef) : ∃ f, tile (roundOne s r.tile r.slot) r.tile = { tile s r.tile with
    groups := (tile s r.tile).groups.map (fun p => (p.1, waited f p.1 p.2))
    txBusy := (tile s r.tile).txBusy - 1
    perf := (tile (roundOne s r.tile r.slot) r.tile).perf } := by
  unfold roundOne
  extract_lets s1
  generalize ((readyGroups s1 r.tile).map (·.1)).filter (· ≠ r.slot) = ws
  have htick : tile s1 r.tile = { tile s r.tile with txBusy := (tile s r.tile).txBusy - 1, perf := (tile s1 r.tile).perf } := by
    unfold s1 roundTick
    refine (perfCount_same _ r.tile 1 1).here.trans ?_
    rw [tile_modTile_same]
    rfl
  refine ⟨fun n g => if ws.contains n then g.ready + 1 else 0, ?_⟩
  unfold roundWaits
  rw [tile_modTile_same, htick]
  rfl

theorem placeGroup_placed (s : State) (t n : Nat) (g g' : Group) (b : Bundle) : ∃ age busy, tile (placeGroup s t n g g' b) t =
    { tile s t with groups := tput (tile s t).groups n g', age := age, txBusy := busy, perf := (tile (placeGroup s t n g g' b) t).perf } := by
  unfold placeGroup
  extract_lets s1 busy
  refine ⟨ageAfter (tile s1 t).age n b.yield, busy, ?_⟩
  refine (perfCount_same _ t 2 1).here.trans ?_
  rw [tile_modTile_same]
  unfold s1 setGroup
  rw [tile_modTile_same]

section
variable {s u : State} {r : GRef} {g g' : Group} {c : COp}

/-- EXIT and BAR place what `cExec` makes of their group, and evaluate the barrier. -/
theorem issueC_barrier (h : MayIssue s r g) (hc : c = .exit ∨ c = .bar) : ∃ u lic, issueC s r c 0 0 = .next (evalBarrier u r.tile g.wg) ∧
    Placed s u r ((cAfter s r g c 0 0 lic).issued g.nextId (cBundle c 0 0).raw) := by
  have hg : group? (roundOne s r.tile r.slot) r.tile r.slot = some (noWait g) := by rw [roundOne_here, h.here]; rfl
  have hready := ready_c h c 0 0 (fun k m e => by rcases hc with rfl | rfl <;> cases e)
  have hsound : bundleFault (noWait g) (cBundle c 0 0) = none := by rcases hc with rfl | rfl <;> rfl
  have hrd : regfileRead (roundOne s r.tile r.slot) r.tile r.slot (cBundle c 0 0) = (false, roundOne s r.tile r.slot) := by
    simp [regfileRead, mkBundle]
  obtain ⟨hrest, -, hsteps⟩ := ticked s r
  have hctl : ctlPart (roundOne s r.tile r.slot) (roundOne s r.tile r.slot) r.tile (cBundle c 0 0) (noWait g) (noWait g) = cAfter s r g c 0 0
      (licStep (Config.free (roundOne s r.tile r.slot).fresh) (blk (roundOne s r.tile r.slot) (pgTile r.tile)).lic) := by
    have hst : (blk (roundOne s r.tile r.slot) (pgTile r.tile)).steps = ((blk s (pgTile r.tile)).steps + 1) % 2 ^ 64 := by rw [hsteps]
    unfold ctlPart cAfter
    rw [hst]
    rfl
  have hat : ∀ x, atBarrier (cBundle c 0 0) x = true := by intro x; rcases hc with rfl | rfl <;> rfl
  unfold issueC issueOne
  simp only [hg, hready, if_true]
  unfold issueBundle
  rw [hsound]
  simp only
  rw [hrd]
  simp only [show (cBundle c 0 0).a = none from rfl]
  unfold applyBundle
  rw [early_none h]
  simp only [show (cBundle c 0 0).m = none from rfl, show (cBundle c 0 0).v = none from rfl, show (cBundle c 0 0).a = none from rfl, hg]
  rw [hctl, hat, if_pos rfl]
  generalize licStep (Config.free (roundOne s r.tile r.slot).fresh) (blk (roundOne s r.tile r.slot) (pgTile r.tile)).lic = lic
  have hv : ((((cAfter s r g c 0 0 lic).takeV {}).takeA none 0).issued (noWait g).nextId (cBundle c 0 0).raw) =
    (cAfter s r g c 0 0 lic).issued g.nextId (cBundle c 0 0).raw := rfl
  rw [hv]
  refine Exists.imp (fun u hu => ⟨lic, hu⟩) ?_
  generalize (cAfter s r g c 0 0 lic).issued g.nextId (cBundle c 0 0).raw = g' at *
  obtain ⟨ctlRest, ctlTiles, -⟩ := ctlTick_spec (roundOne s r.tile r.slot) r.tile (cBundle c 0 0).c
  generalize ctlTick (roundOne s r.tile r.slot) r.tile (cBundle c 0 0).c = u1 at *
  obtain ⟨-, placeRest, -⟩ := placeGroup_spec u1 r.tile r.slot (noWait g) g' (cBundle c 0 0)
  obtain ⟨age, busy, hput⟩ := placeGroup_placed u1 r.tile r.slot (noWait g) g' (cBundle c 0 0)
  obtain ⟨f, hround⟩ := roundOne_placed s r
  rw [ctlTiles, hround] at hput
  generalize placeGroup u1 r.tile r.slot (noWait g) g' (cBundle c 0 0) = u at *
  have hplaced : Placed s u r g' := ⟨ram_of_elsewhere (placeRest.trans (ctlRest.trans hrest)), by rw [hput], by rw [hput],
    by rw [hput], f, by rw [hput]⟩
  have hasked : ∀ x, wg? (evalBarrier u r.tile g.wg) r.tile g.wg = some x → x.asked = 0 :=
    ((KeepsEnds.refl u).evalBarrier g.wg).asked fun x hx => h.unasked x (by rwa [wg?, ← hplaced.wgs])
  exact ⟨u, congrArg _ (parkAsked_none hasked), hplaced⟩

section
variable (h : Placed s u r g')
include h

theorem Placed.here : group? u r.tile r.slot = some g' := by
  obtain ⟨f, hf⟩ := h.groups
  rw [group?, hf, tget?_tput_same]

theorem Placed.others {n : Nat} (hn : n ≠ r.slot) : ∃ f, group? u r.tile n = (group? s r.tile n).map (waited f n) := by
  obtain ⟨f, hf⟩ := h.groups
  exact ⟨f, by rw [group?, hf, tget?_tput_ne _ _ hn, tget?_mapKey (waited f)]; rfl⟩

/-- Of the other groups the wait alone changes. -/
theorem Placed.mem_others {n : Nat} {q : Group} (hq : (n, q) ∈ (tile s r.tile).groups) (hn : n ≠ r.slot) :
    ∃ f, (n, waited f n q) ∈ (tile u r.tile).groups := by
  obtain ⟨f, hf⟩ := h.groups
  refine ⟨f, ?_⟩
  rw [hf]
  exact mem_tput_of_ne g' (List.mem_map.2 ⟨(n, q), hq, rfl⟩) hn

theorem Placed.mem_cases {p : Nat × Group} (hp : p ∈ (tile u r.tile).groups) :
    p = (r.slot, g') ∨ ∃ f q, (p.1, q) ∈ (tile s r.tile).groups ∧ p.2 = waited f p.1 q := by
  obtain ⟨f, hf⟩ := h.groups
  rw [hf] at hp
  refine (mem_tput hp).imp_right fun hp => ?_
  obtain ⟨q, hq, rfl⟩ := List.mem_map.1 hp
  exact ⟨f, q.2, hq, rfl⟩

/-- In a table in order, the entry of the group's slot is the group. -/
theorem Placed.mem_here (hok : tabOk (tile s r.tile).groups = true) {p : Nat × Group} (hp : p ∈ (tile u r.tile).groups)
    (hn : p.1 = r.slot) : p.2 = g' := by
  obtain ⟨f, hf⟩ := h.groups
  have hok' : tabOk (tile u r.tile).groups = true := by
    rw [hf]
    exact tabOk_tput _ _ (tabOk_mapKey (waited f) hok)
  exact Option.some.inj ((tget?_of_mem hok' hp).symm.trans (hn ▸ h.here))

/-- A part of the group that neither its bundle nor waiting changes. -/
theorem Placed.part {β : Type} (hg : group? s r.tile r.slot = some g) (k : Group → β) (hk : ∀ f n q, k (waited f n q) = k q)
    (hg' : k g' = k g) (n : Nat) : (tget? (tile u r.tile).groups n).map k = (tget? (tile s r.tile).groups n).map k := by
  change (group? u r.tile n).map k = (group? s r.tile n).map k
  by_cases hn : n = r.slot
  · rw [hn, h.here, hg]
    exact congrArg some hg'
  · obtain ⟨f, hf⟩ := h.others hn
    rw [hf, Option.map_map]
    exact congrArg (fun k' => (group? s r.tile n).map k') (funext fun q => hk f n q)

theorem Placed.openStores (hg : group? s r.tile r.slot = some g) (hw : g'.wg = g.wg) (hb : g'.born = g.born) (w : Nat) :
    (tile u r.tile).openStores w = (tile s r.tile).openStores w := by
  have hwg := h.part hg (·.wg) (fun _ _ _ => rfl) hw
  have hborn := h.part hg (·.born) (fun _ _ _ => rfl) hb
  unfold Tile.openStores Tile.owns
  simp only [h.sb, h.posted, hwg, hborn]

theorem Placed.openLoads (hg : group? s r.tile r.slot = some g) (hw : g'.wg = g.wg)
    (hp : g'.pend.any (fun q => q.cls == 0 && !q.done) = g.pend.any (fun q => q.cls == 0 && !q.done)) {w : Nat}
    (hs : (tile s r.tile).openLoads w = false) : (tile u r.tile).openLoads w = false := by
  have hnone := List.any_eq_false.1 hs
  refine List.any_eq_false.2 fun p hmem => ?_
  obtain ⟨hin, hpw⟩ := List.mem_filter.1 hmem
  rcases h.mem_cases hin with rfl | ⟨f, q, hq, he⟩
  · rw [hp]
    exact hnone (r.slot, g) (List.mem_filter.2 ⟨mem_of_tget? hg, by rwa [← hw]⟩)
  · rw [he] at hpw ⊢
    exact hnone (p.1, q) (List.mem_filter.2 ⟨hq, hpw⟩)

/-- Every other group of the tile keeps its registers, address and masks while a barrier is evaluated. -/
theorem Placed.keeps_others (w : Nat) {n : Nat} {q : Group} (hn : n ≠ r.slot) (hq : group? s r.tile n = some q) :
    ∃ q', group? (evalBarrier u r.tile w) r.tile n = some q' ∧ SameCore q q' := by
  obtain ⟨f, hf⟩ := h.others hn
  rw [hq] at hf
  exact evalBarrier_keeps u r.tile w n (waited f n q) hf

end

end

theorem evalBarrier_ram (s : State) (t w : Nat) : (evalBarrier s t w).ram = s.ram :=
  ((MemFrom.refl s).evalBarrier.same rfl).1

/-! The barrier. -/

section
variable {s : State} {t w : Nat} {x : Wg}

/-- A running group whose live lanes have not all arrived holds the barrier closed. -/
theorem evalBarrier_waits {q : Nat × Group} (hq : q ∈ (tile s t).groupsOf w) (hrun : q.2.stat = .run) (hl : andNot q.2.live q.2.arrived ≠ 0) :
    evalBarrier s t w = s := by
  have hfull : (tile s t).barFull w = false :=
    Bool.and_eq_false_iff.2 (Or.inr (List.all_eq_false.2 ⟨q, hq, by simpa using hl⟩))
  have hall : ((tile s t).groupsOf w).all (fun p => p.2.stat == .barrier || p.2.stat == .finished) = false :=
    List.all_eq_false.2 ⟨q, hq, by simp [hrun]⟩
  unfold evalBarrier
  dsimp only
  rw [hfull, hall, Bool.and_false, Bool.false_and]
  split
  · rfl
  · exact ite_self _

/-- A group of a workgroup whose barrier opens. -/
def released (g : Group) : Group := { g with arrived := 0, stat := if g.stat = .barrier then .run else g.stat }

theorem released_twice (g : Group) : released (released g) = released g := by
  unfold released
  cases g.stat <;> rfl

/-- The barrier of a workgroup opens (R67). -/
def openBarrier (s : State) (t w : Nat) : State :=
  modWg (((tile s t).groupsOf w).foldl (fun s p => modGroup s t p.1 released) s) t w (fun x => { x with barGen := (x.barGen + 1) % 2 ^ 32 })

theorem evalBarrier_opens (hw : wg? s t w = some x) (hp : x.park = .none) (hfull : (tile s t).barFull w = true)
    (hs : (tile s t).openStores w = false) (hl : (tile s t).openLoads w = false) : evalBarrier s t w = openBarrier s t w := by
  unfold evalBarrier
  dsimp only
  rw [hw]
  dsimp only
  rw [hp, hfull, hs, hl]
  rfl

theorem group?_openBarrier {n : Nat} {g : Group} (hg : group? s t n = some g) :
    group? (openBarrier s t w) t n = some (if n ∈ ((tile s t).groupsOf w).map (·.1) then released g else g) := by
  unfold openBarrier
  rw [group?_modWg, group?_foldl_modGroup released released_twice, hg]
  split <;> rfl

theorem wg?_openBarrier (hw : wg? s t w = some x) : wg? (openBarrier s t w) t w = some { x with barGen := (x.barGen + 1) % 2 ^ 32 } := by
  unfold openBarrier
  rw [wg?_modWg_same, wg?_foldl_modGroup (fun _ => released), hw]
  rfl

theorem stopNow_stat {reason n : Nat} {g : Group} (hg : group? s t n = some g) :
    ∃ g', group? (stopNow s t w reason) t n = some g' ∧ g'.stat = g.stat := by
  rw [group?_stopNow, hg]
  split
  · exact ⟨_, rfl, rfl⟩
  · exact ⟨_, rfl, rfl⟩

/-- A group that has finished stays so while a barrier is evaluated. -/
theorem evalBarrier_finished {n : Nat} {g : Group} (hg : group? s t n = some g) (hf : g.stat = .finished) :
    ∃ g', group? (evalBarrier s t w) t n = some g' ∧ g'.stat = .finished := by
  unfold evalBarrier
  dsimp only
  split
  · exact ⟨g, hg, hf⟩
  next x hw =>
  split
  · exact ⟨g, hg, hf⟩
  next hpark =>
  have hpark : x.park = .none := not_not.1 hpark
  split
  · split
    · exact ⟨g, hg, hf⟩
    · refine ⟨_, group?_openBarrier hg, ?_⟩
      split
      · unfold released
        rw [hf]
        rfl
      · exact hf
  · split
    · rw [stopWg_now (s := bumpF s (pgTile t) 0x094 15 0 1) (reason := rStranded) hw hpark rfl rfl]
      obtain ⟨g', hg', hstat⟩ := stopNow_stat (s := bumpF s (pgTile t) 0x094 15 0 1) (w := w) (reason := rStranded) hg
      exact ⟨g', hg', hstat.trans hf⟩
    · exact ⟨g, hg, hf⟩

end

/-! EXIT (R63). -/

theorem autoJoin_rest (k : Nat) (g : Group) : (Group.autoJoin k g).live = g.live ∧ (Group.autoJoin k g).u = g.u ∧
    (Group.autoJoin k g).v = g.v ∧ (Group.autoJoin k g).p = g.p := by
  induction k generalizing g with
  | zero => exact ⟨rfl, rfl, rfl, rfl⟩
  | succ k ih =>
    unfold Group.autoJoin
    split
    · have hjoin : g.joinTop.live = g.live ∧ g.joinTop.u = g.u ∧ g.joinTop.v = g.v ∧ g.joinTop.p = g.p := by
        unfold Group.joinTop
        split
        · exact ⟨rfl, rfl, rfl, rfl⟩
        · split <;> exact ⟨rfl, rfl, rfl, rfl⟩
      obtain ⟨hl, hu, hv, hp⟩ := hjoin
      simpa only [hl, hu, hv, hp] using ih g.joinTop
    · exact ⟨rfl, rfl, rfl, rfl⟩

/-- A group is settled: its live mask and its registers stay, and without live lanes it has finished. -/
theorem settle_rest (g : Group) : g.settle.live = g.live ∧ g.settle.u = g.u ∧ g.settle.v = g.v ∧ g.settle.p = g.p ∧
    (g.live = 0 → g.settle.stat = .finished) := by
  obtain ⟨hl, hu, hv, hp⟩ := autoJoin_rest 80 g
  unfold Group.settle
  dsimp only
  split
  · exact ⟨hl, hu, hv, hp, fun _ => rfl⟩
  next hlive => exact ⟨hl, hu, hv, hp, fun h0 => absurd (hl.trans h0) hlive⟩

section
variable {s : State} {r : GRef} {g : Group}

theorem exit_ends_lanes (h : MayIssue s r g) : ∃ t g', exec (.exitM r) s = .next t ∧ group? t r.tile r.slot = some g' ∧
    g'.live = without g.live g.active ∧ (g'.live = 0 → g'.stat = .finished) ∧ g'.u = g.u ∧ g'.v = g.v ∧ g'.p = g.p ∧ t.ram = s.ram ∧
    (∀ n g2, n ≠ r.slot → group? s r.tile n = some g2 → ∃ g2', group? t r.tile n = some g2' ∧ SameCore g2 g2') := by
  obtain ⟨u, lic, hexec, hplaced⟩ := issueC_barrier h (.inl rfl)
  obtain ⟨hl, hu, hv, hp, hfin⟩ := settle_rest { noWait g with
    pc := (g.pc + (cBundle .exit 0 0).bytes) % 2 ^ 64, live := andNot g.live g.active, active := 0
    stack := g.stack.map (fun e => { e with saved := andNot e.saved g.active, deferred := andNot e.deferred g.active }) }
  obtain ⟨g', hg', hu', hv', hp', -, hl', -⟩ := evalBarrier_keeps u r.tile g.wg _ _ hplaced.here
  refine ⟨_, g', hexec, hg', hl'.trans hl, fun h0 => ?_, hu'.trans hu, hv'.trans hv, hp'.trans hp,
    (evalBarrier_ram u r.tile g.wg).trans hplaced.ram, fun n g2 hn hg2 => hplaced.keeps_others g.wg hn hg2⟩
  obtain ⟨g'', hg'', hstat⟩ := evalBarrier_finished (w := g.wg) hplaced.here (hfin ((hl'.trans hl).symm.trans h0))
  rwa [← Option.some.inj (hg''.symm.trans hg')]

/-! BAR (R67). -/

/-- The group that BAR makes. -/
def atBar (g : Group) : Group :=
  { Group.issued { g with pc := (g.pc + 16) % 2 ^ 64, arrived := g.arrived ||| g.active, stat := .barrier } g.nextId (cBundle .bar 0 0).raw
    with ready := 0 }

theorem atBar_core (g : Group) : SameCore { g with pc := (g.pc + 16) % 2 ^ 64 } (atBar g) :=
  ⟨rfl, rfl, rfl, rfl, rfl, rfl, rfl, rfl, rfl, rfl, rfl, rfl⟩

theorem bar_places (h : MayIssue s r g) : ∃ u, exec (.bar r) s = .next (evalBarrier u r.tile g.wg) ∧ Placed s u r (atBar g) := by
  obtain ⟨u, lic, hexec, hplaced⟩ := issueC_barrier h (.inr rfl)
  exact ⟨u, hexec, hplaced⟩

theorem atBar_openLoads (g : Group) :
    (atBar g).pend.any (fun q => q.cls == 0 && !q.done) = g.pend.any (fun q => q.cls == 0 && !q.done) := by
  unfold atBar Group.issued
  rw [List.any_map]
  congr 1
  funext q
  dsimp only [Function.comp]
  split <;> rfl

/-- The group waits while another holds the barrier closed. -/
theorem bar_waits {u : State} (hplaced : Placed s u r (atBar g))
    (hq : ∃ q ∈ (tile s r.tile).groupsOf g.wg, q.1 ≠ r.slot ∧ q.2.stat = .run ∧ without q.2.live q.2.arrived ≠ 0) :
    group? (evalBarrier u r.tile g.wg) r.tile r.slot = some (atBar g) := by
  obtain ⟨q, hq, hn, hrun, hl⟩ := hq
  obtain ⟨hin, hw⟩ := List.mem_filter.1 hq
  obtain ⟨f, hmem⟩ := hplaced.mem_others hin hn
  rw [evalBarrier_waits (q := (q.1, waited f q.1 q.2)) (List.mem_filter.2 ⟨hmem, hw⟩) hrun hl]
  exact hplaced.here

/-- The last live lanes of the workgroup open the barrier. -/
theorem bar_opens {u : State} {w : Wg} (h : MayIssue s r g) (hplaced : Placed s u r (atBar g)) (hw : wg? s r.tile g.wg = some w)
    (hp : w.park = .none) (hs : (tile s r.tile).openStores g.wg = false) (hl : (tile s r.tile).openLoads g.wg = false)
    (hok : tabOk (tile s r.tile).groups = true) (hlast : without g.live (g.arrived ||| g.active) = 0)
    (hothers : ∀ q ∈ (tile s r.tile).groupsOf g.wg, q.1 ≠ r.slot → without q.2.live q.2.arrived = 0) :
    group? (evalBarrier u r.tile g.wg) r.tile r.slot = some (released (atBar g)) ∧
      wg? (evalBarrier u r.tile g.wg) r.tile g.wg = some { w with barGen := (w.barGen + 1) % 2 ^ 32 } := by
  have hin : (r.slot, atBar g) ∈ (tile u r.tile).groupsOf g.wg := mem_groupsOf hplaced.here rfl
  have hfull : (tile u r.tile).barFull g.wg = true := by
    refine Bool.and_eq_true_iff.2 ⟨List.any_eq_true.2 ⟨_, hin, rfl⟩, List.all_eq_true.2 fun p hp => ?_⟩
    obtain ⟨hmem, hpw⟩ := List.mem_filter.1 hp
    rw [beq_iff_eq]
    by_cases hn : p.1 = r.slot
    · rw [hplaced.mem_here hok hmem hn]
      exact hlast
    · rcases hplaced.mem_cases hmem with rfl | ⟨f, q, hq, he⟩
      · exact absurd rfl hn
      · rw [he] at hpw ⊢
        exact hothers (p.1, q) (List.mem_filter.2 ⟨hq, hpw⟩) hn
  have hwu : wg? u r.tile g.wg = some w := by rw [wg?, hplaced.wgs]; exact hw
  rw [evalBarrier_opens hwu hp hfull ((hplaced.openStores h.here rfl rfl g.wg).trans hs)
    (hplaced.openLoads h.here rfl (atBar_openLoads g) hl)]
  refine ⟨?_, wg?_openBarrier hwu⟩
  rw [group?_openBarrier hplaced.here, if_pos (List.mem_map.2 ⟨_, hin, rfl⟩)]

end

/-- Settles O5: both place their group and evaluate the barrier, which is closed, opens, or strands the workgroup. -/
theorem exitAndBarrier : Obligations.ExitAndBarrier := by
  unfold Obligations.ExitAndBarrier
  intro s r g h
  refine ⟨exit_ends_lanes h, ?_⟩
  obtain ⟨u, hexec, hplaced⟩ := bar_places h
  obtain ⟨g', hg', hcore⟩ := evalBarrier_keeps u r.tile g.wg _ _ hplaced.here
  refine ⟨_, g', hexec, hg', sameCore_trans (atBar_core g) hcore, (evalBarrier_ram u r.tile g.wg).trans hplaced.ram,
    fun n g2 hn hg2 => hplaced.keeps_others g.wg hn hg2, fun hq => ?_, fun w hw hp hs hl hok hlast hothers => ?_⟩
  · cases (bar_waits hplaced hq).symm.trans hg'
    exact ⟨rfl, rfl⟩
  · obtain ⟨hgroup, hgen⟩ := bar_opens h hplaced hw hp hs hl hok hlast hothers
    cases hgroup.symm.trans hg'
    exact ⟨rfl, rfl, by rw [hgen]; rfl⟩

end Sys2Proof.Laws
end

