-- ==== Sys2Proof/Proofs/IssueRounds.lean ====
section
/-!
SUPPORT. O19 but for the fetch: issue rounds (R60), commands offered to the array and row engines (R123, R182), imprecise faults
(R75).
-/
namespace Sys2Proof.Laws
open Sys2Proof.Machine Sys2Proof.Safety

-- Elaborated side by side, so many small lemmas ask for more threads than the memory limit allows.
set_option Elab.async false

/-! A round with one group (R60). -/

theorem SameButPerf.trans {s t u : State} {n : Nat} (h : SameButPerf s t n) (k : SameButPerf t u n) : SameButPerf s u n :=
  ⟨k.rest.trans h.rest, fun m hm => (k.tiles m hm).trans (h.tiles m hm), by rw [k.here, h.here]⟩

theorem pickCounts_same (s : State) (n : Nat) (p : Pick) (st : Bool) : SameButPerf s (pickCounts s n p st) n := by
  have count : ∀ (s : State) (ev k : Nat), SameButPerf s (if k = 0 then s else perfCount s n ev k) n := by
    intro s ev k
    split
    · exact SameButPerf.refl s n
    · exact perfCount_same s n ev k
  exact (((count _ _ _).trans (count _ _ _)).trans (count _ _ _)).trans (count _ _ _)

section
variable {s : State} {n k : Nat} {g : Group} {b : Bundle} {ok : Bool}

theorem candsWith_one {f : Nat → Group → Bundle → Bool} (ha : (tile s n).age = [k]) (hg : group? s n k = some g)
    (hb : nextBundle g = some (b, ok)) (hf : f k g b = true) : candsWith s n f = [(k, g, b, ok)] := by
  unfold candsWith
  rw [ha]
  simp [hg, hb, hf]

/-- The oldest of the candidates issues when the transcendental unit and the store buffer have room for it. -/
theorem pick_first {c : Cand} (hready : bundleReady s n c.1 c.2.1 c.2.2.1 = true) :
    ∃ free, Pick.add s n { free := 64 - (tile s n).sb.length } c = { chosen := [c], free := free } := by
  obtain ⟨hbase, hroom⟩ := Bool.and_eq_true_iff.1 hready
  obtain ⟨-, htx⟩ := Bool.and_eq_true_iff.1 hbase
  have hneed : (c.2.2.1.m.map (storeNeed s n c.1 c.2.1)).getD 0 ≤ 64 - (tile s n).sb.length := by
    unfold bundleRoom at hroom
    cases hm : c.2.2.1.m with
    | none => exact Nat.zero_le _
    | some m =>
      rw [hm] at hroom
      simp only [Bool.or_eq_true, beq_iff_eq, decide_eq_true_eq] at hroom
      simp only [Option.map_some, Option.getD_some]
      omega
  refine ⟨64 - (tile s n).sb.length - (c.2.2.1.m.map (storeNeed s n c.1 c.2.1)).getD 0, ?_⟩
  unfold Pick.add
  dsimp only
  rw [htx, if_neg (not_lt.2 hneed)]
  rfl

/-- One ready group is the choice of its round. -/
theorem chooseIssue_one (ha : (tile s n).age = [k]) (hg : group? s n k = some g) (hb : nextBundle g = some (b, ok))
    (hready : bundleReady s n k g b = true) : ∃ free, chooseIssue s n = { chosen := [(k, g, b, ok)], free := free } := by
  have hbase : bundleBase s n g b = true := (Bool.and_eq_true_iff.1 (Bool.and_eq_true_iff.1 hready).1).1
  have hcands : candsWith s n (fun _ g b => bundleBase s n g b) = [(k, g, b, ok)] := candsWith_one ha hg hb hbase
  have hall : readyGroups s n = [(k, g, b, ok)] := candsWith_one ha hg hb hready
  have hstarved : ∀ c ∈ starved s n, c = (k, g, b, ok) := by
    intro c hc
    have hmem := List.mem_of_find?_eq_some hc
    rw [hall] at hmem
    exact List.mem_singleton.1 hmem
  obtain ⟨free, hadd⟩ := pick_first (s := s) (n := n) (c := (k, g, b, ok)) hready
  refine ⟨free, ?_⟩
  unfold chooseIssue
  rw [hcands]
  cases hst : starved s n with
  | none => exact hadd
  | some c =>
    rw [hstarved c hst]
    simpa using hadd

theorem roundTick_tile (s : State) (n : Nat) :
    tile (roundTick s n) n = { tile s n with txBusy := (tile s n).txBusy - 1, perf := (tile (roundTick s n) n).perf } := by
  unfold roundTick
  refine (perfCount_same _ n 1 1).here.trans ?_
  rw [tile_modTile_same]
  rfl

/-- The state in which a lone group's bundle issues. -/
def roundAlone (s : State) (n : Nat) : State :=
  pickCounts (roundWaits (roundTick s n) n []) n (chooseIssue (roundTick s n) n) (starved (roundTick s n) n).isSome

theorem group?_roundAlone (hg : group? s n k = some g) : group? (roundAlone s n) n k = some (noWait g) := by
  unfold roundAlone
  rw [(pickCounts_same _ n _ _).group?, roundWaits_group?, roundTick_group?, hg]
  rfl

theorem wg?_roundAlone (s : State) (n w : Nat) : wg? (roundAlone s n) n w = wg? s n w := by
  have hw : (tile (roundAlone s n) n).wgs = (tile s n).wgs := by
    unfold roundAlone
    rw [(pickCounts_same _ n _ _).wgs, roundWaits, tile_modTile_same, roundTick_tile]
  rw [wg?, hw]
  rfl

/-- A round in which one group is ready acts on that group alone. -/
theorem exec_issueRound_one (ha : (tile s n).age = [k]) (hg : group? s n k = some g) (hb : nextBundle g = some (b, ok))
    (hready : bundleReady (roundTick s n) n k g b = true) : exec (.issueRound n) s = .next
      (if ok then issueBundle (roundAlone s n) n k (noWait g) b else groupFault (roundAlone s n) n k (faultOf fIllegal b)) := by
  have ha1 : (tile (roundTick s n) n).age = [k] := by rw [roundTick_tile]; exact ha
  have hg1 : group? (roundTick s n) n k = some g := (roundTick_group? s n n k).trans hg
  obtain ⟨free, hchoice⟩ := chooseIssue_one ha1 hg1 hb hready
  have hall : readyGroups (roundTick s n) n = [(k, g, b, ok)] := candsWith_one ha1 hg1 hb hready
  have hwait : ((readyGroups (roundTick s n) n).map (·.1)).filter
      (fun m => !(chooseIssue (roundTick s n) n).chosen.any (fun c => c.1 == m)) = [] := by
    rw [hall, hchoice]
    simp
  change execIssueRound n s = _
  unfold execIssueRound
  dsimp only
  rw [hwait]
  refine congrArg _ ?_
  change (if (chooseIssue (roundTick s n) n).chosen.isEmpty && _ then s else List.foldl _ (roundAlone s n) _) = _
  rw [hchoice]
  simp only [List.isEmpty_cons, Bool.false_and, Bool.false_eq_true, if_false, List.foldl_cons, List.foldl_nil,
    group?_roundAlone hg]

end
/-- ISSUE_ROUND, as O19 states it. -/
theorem issueRound_spec (s : State) (n k : Nat) (g : Group) (b : Bundle) (ok : Bool) :
    ((chooseIssue (roundTick s n) n).chosen = [] → (tile s n).txBusy = 0 → exec (.issueRound n) s = .next s) ∧
    ((tile s n).age = [k] → group? s n k = some g → nextBundle g = some (b, ok) → bundleReady (roundTick s n) n k g b = true →
      (let p := chooseIssue (roundTick s n) n
       p.chosen = [(k, g, b, ok)] ∧ p.skipA = 0 ∧ p.skipTx = 0 ∧ p.skipSb = 0 ∧
       (ok = true → exec (.issueRound n) s = .next (issueBundle
         (pickCounts (roundWaits (roundTick s n) n []) n p (starved (roundTick s n) n).isSome) n k (noWait g) b))) ∧
      (ok = false → g.fault = none → ∀ w, wg? s n g.wg = some w → w.park = .none → ∃ t g' f, exec (.issueRound n) s = .next t ∧
        group? t n k = some g' ∧ g'.fault = some f ∧ f.code = fIllegal ∧ SameCore { g with fault := some f } g' ∧ g'.stopped = true)) := by
  refine ⟨fun hnone htx => ?_, fun ha hg hb hready => ⟨?_, fun hok hf w hw hp => ?_⟩⟩
  · change execIssueRound n s = _
    unfold execIssueRound
    dsimp only
    rw [hnone, htx]
    rfl
  · have ha1 : (tile (roundTick s n) n).age = [k] := by rw [roundTick_tile]; exact ha
    obtain ⟨free, hchoice⟩ := chooseIssue_one ha1 ((roundTick_group? s n n k).trans hg) hb hready
    have hexec := exec_issueRound_one ha hg hb hready
    unfold roundAlone at hexec
    dsimp only
    rw [hchoice] at hexec ⊢
    exact ⟨rfl, rfl, rfl, rfl, fun hok => by rw [hexec, hok]; rfl⟩
  · obtain ⟨g', hg', hrec, hcore, -, hstop⟩ := groupFault_spec (group?_roundAlone hg) hf (faultOf fIllegal b)
    refine ⟨_, g', faultOf fIllegal b, ?_, hg', hrec, rfl, hcore, (hstop w ((wg?_roundAlone s n _).trans hw) hp).1⟩
    rw [exec_issueRound_one ha hg hb hready, hok]
    rfl

/-! Commands that a bundle offers (R111, R123, R182). -/

/-- The bundle of one array or row operation. -/
abbrev aBundle (a : AOp) : Bundle := mkBundle none none none (some a) 0 0

section
variable {s : State} {r : GRef} {g : Group} {a : AOp}

/-- A step of the thread core changes the state of no page. -/
theorem roundOne_inService (s : State) (t n pg : Nat) : inService (roundOne s t n) pg = inService s pg := by
  have hst : (blk (roundOne s t n) pg).st = (blk s pg).st := by
    rw [roundOne_blk]
    split <;> rfl
  unfold inService
  rw [hst, running_congr (roundOne_rest s t n), stalled_congr (roundOne_rest s t n)]

theorem roundOne_aReady (s : State) (r : GRef) (g : Group) (a : AOp) :
    aReady (roundOne s r.tile r.slot) r.tile (noWait g) a = aReady s r.tile g a := by
  obtain ⟨f, hround⟩ := roundOne_placed s r
  unfold aReady
  simp only [roundOne_inService]
  rw [hround]
  rfl

theorem aBundle_counts (a : AOp) : (aBundle a).counts = [if a.op = 1 then 2 else 3] := by
  change [] ++ [] ++ (if a.op = 1 then [2] else [3]) = _
  split <;> rfl

theorem ready_a (h : MayIssue s r g) (ha : a.legal = true → aReady s r.tile g a = true) :
    bundleReady (roundOne s r.tile r.slot) r.tile r.slot (noWait g) (aBundle a) = true := by
  have hs : (blk (roundOne s r.tile r.slot) (pgTile r.tile)).st.inService = true := by
    rw [roundOne_blk, if_pos rfl]; exact h.service
  have hR : running (roundOne s r.tile r.slot) = true := (running_congr (roundOne_rest s _ _)).trans h.works
  have hS : stalled (roundOne s r.tile r.slot) (pgTile r.tile) = false := (stalled_congr (roundOne_rest s _ _) _).trans h.supply
  have hoffer : (!a.legal || aReady (roundOne s r.tile r.slot) r.tile (noWait g) a) = true := by
    rw [roundOne_aReady]
    cases hl : a.legal with
    | false => rfl
    | true => exact ha hl
  have hroom : (List.range 6).all (fun k => decide ((noWait g).count k + ((aBundle a).counts.filter (· == k)).length ≤ 63)) = true := by
    refine List.all_eq_true.2 fun k hk => decide_eq_true ?_
    have hcount : (noWait g).count k ≤ 62 := h.room k (List.mem_range.1 hk)
    have hone : ((aBundle a).counts.filter (· == k)).length ≤ 1 :=
      (List.length_filter_le _ _).trans (by rw [aBundle_counts]; rfl)
    omega
  have e1 : (noWait g).stat = .run := h.runs
  have e2 : (noWait g).stopped = false := h.goes
  have e3 : decide ((noWait g).active ≠ 0) = true := decide_eq_true h.active
  have e4 : (noWait g).offer = none := h.offer
  have hwait : (aBundle a).wait = 0 := rfl
  unfold bundleReady bundleBase txFree bundleRoom usesTxB
  simp only [hs, hR, hS, e1, e2, e3, e4, hroom, hwait, show (aBundle a).c = none from rfl, show (aBundle a).m = none from rfl,
    show (aBundle a).v = none from rfl, show (aBundle a).a = some a from rfl, hoffer]
  simp

theorem faultsWith_offer {i : Instr} (h : MayIssue s r g) (hi : exec i s = issueA s r a) (ha : a.legal = false) :
    FaultsWith s r g i fIllegal := by
  refine faultsWith_of_check h hi (ready_a h fun hl => absurd (hl.symm.trans ha) (by simp)) ?_
  unfold bundleFault
  have hl : (aBundle a).legal = false := by simp [Bundle.legal, mkBundle, ha]
  rw [hl]
  rfl

/-- A bundle that no check refuses is offered to its engine. -/
theorem issueA_offers (h : MayIssue s r g) (ha : a.legal = true) (hready : aReady s r.tile g a = true) :
    issueA s r a = .next (aOffer (roundOne s r.tile r.slot) r.tile r.slot (noWait g) (aBundle a) a) := by
  have hg : group? (roundOne s r.tile r.slot) r.tile r.slot = some (noWait g) := by rw [roundOne_here, h.here]; rfl
  have hsound : bundleFault (noWait g) (aBundle a) = none := by
    have hl : (aBundle a).legal = true := by simp [Bundle.legal, mkBundle, ha, Bundle.isMovl64, Bundle.usesLit, Bundle.usesLitC, Bundle.usesLitV, disjoint]
    unfold bundleFault
    rw [hl]
    rfl
  have hrd : regfileRead (roundOne s r.tile r.slot) r.tile r.slot (aBundle a) = (false, roundOne s r.tile r.slot) := by
    simp [regfileRead, mkBundle]
  unfold issueA issueOne
  simp only [hg, ready_a h fun _ => hready, if_true]
  unfold issueBundle
  rw [hsound]
  dsimp only
  rw [hrd]
  rfl

/-- The state in which a group's command stands in the queue of an engine. -/
def offered (u : State) (t n : Nat) (x : Tile) (g : Group) (pg : Nat) : State := settle (setGroup (setTile u t x) t n g) pg true

section
variable (u : State) (t n : Nat) (x : Tile) (g' : Group) (pg : Nat)

theorem tile_offered : tile (offered u t n x g' pg) t = { x with groups := tput x.groups n g' } := by
  unfold offered settle setGroup
  rw [tile_modBlk, tile_modTile_same, tile_setTile_same]

theorem tile_offered_ne {m : Nat} (hm : m ≠ t) : tile (offered u t n x g' pg) m = tile u m := by
  unfold offered settle setGroup
  rw [tile_modBlk, tile_modTile_ne _ _ hm, tile_setTile_ne u x hm]

theorem ram_offered : (offered u t n x g' pg).ram = u.ram := rfl

end

/-- What an offer leaves alone. -/
theorem offered_frame {x : Tile} (hgroups : x.groups = (tile (roundOne s r.tile r.slot) r.tile).groups)
    (hwgs : x.wgs = (tile (roundOne s r.tile r.slot) r.tile).wgs) (g' : Group) (pg : Nat) :
    group? (offered (roundOne s r.tile r.slot) r.tile r.slot x g' pg) r.tile r.slot = some g' ∧
      (offered (roundOne s r.tile r.slot) r.tile r.slot x g' pg).ram = s.ram ∧
      OtherGroups s (offered (roundOne s r.tile r.slot) r.tile r.slot x g' pg) r := by
  refine ⟨?_, ?_, fun m hm => ?_, fun k hk => ?_, ?_⟩
  · rw [group?, tile_offered, tget?_tput_same]
  · rw [ram_offered, ram_of_elsewhere (roundOne_rest s r.tile r.slot)]
  · rw [tile_offered_ne _ _ _ _ _ _ hm, roundOne_tile_ne _ _ hm]
  · have hgroup : group? (offered (roundOne s r.tile r.slot) r.tile r.slot x g' pg) r.tile k =
        group? (roundOne s r.tile r.slot) r.tile k := by
      rw [group?, tile_offered, tget?_tput_ne _ _ hk, hgroups, group?]
    unfold SameGroup
    rw [hgroup]
    exact roundOne_same s r.tile r.slot k
  · rw [tile_offered, hwgs]
    exact roundOne_wgs s r.tile r.slot

/-! The two engines' commands. -/

def arrCmd (u : State) (t n : Nat) (g : Group) (sr : Nat) : ArrCmd :=
  { serial := (tile u t).arr.nserial, slot := n, wg := g.wg, space := ((wg? u t g.wg).map (·.space)).getD 0, words := aWords g ⟨1, sr⟩
    stage := .offered, aseq := (tile u t).aNext, out := [], acc := [], recomp := 0, poison := false, marked := false, mapUsed := 0 }

def rowCmd (u : State) (t n : Nat) (g : Group) (sr : Nat) : RowCmd :=
  { serial := (tile u t).row.nserial, slot := n, wg := g.wg, space := ((wg? u t g.wg).map (·.space)).getD 0, words := aWords g ⟨2, sr⟩
    stage := .offered, aseq := (tile u t).aNext }

def arrOffered (u : State) (t n : Nat) (g : Group) (sr : Nat) : Tile :=
  { tile u t with
    arr := { (tile u t).arr with cmds := (tile u t).arr.cmds ++ [arrCmd u t n g sr], nserial := (tile u t).arr.nserial + 1 }
    aNext := (tile u t).aNext + 1 }

def rowOffered (u : State) (t n : Nat) (g : Group) (sr : Nat) : Tile :=
  { tile u t with
    row := { (tile u t).row with cmds := (tile u t).row.cmds ++ [rowCmd u t n g sr], nserial := (tile u t).row.nserial + 1 }
    aNext := (tile u t).aNext + 1 }

theorem aWords_arr (g : Group) (sr : Nat) : aWords g ⟨1, sr⟩ = [g.uget sr, g.uget (sr + 1), g.uget (sr + 2), g.uget (sr + 3)] := by
  simp [aWords, rangeFrom, List.range_succ, Nat.add_comm]

theorem aWords_row (g : Group) (sr : Nat) : aWords g ⟨2, sr⟩ = [g.uget sr, g.uget (sr + 1)] := by
  simp [aWords, rangeFrom, List.range_succ, Nat.add_comm]

theorem aOffer_arr {u : State} {t n : Nat} {g : Group} {b : Bundle} {sr : Nat} (hready : aReady u t g ⟨1, sr⟩ = true) :
    aOffer u t n g b ⟨1, sr⟩ = offered u t n (arrOffered u t n g sr)
      { g with offer := some (tile u t).arr.nserial, fetched := some (g.pc, b.raw, b.lit) } (pgArr t) := by
  unfold aOffer
  rw [hready]
  rfl

theorem aOffer_row {u : State} {t n : Nat} {g : Group} {b : Bundle} {sr : Nat} (hready : aReady u t g ⟨2, sr⟩ = true) :
    aOffer u t n g b ⟨2, sr⟩ = offered u t n (rowOffered u t n g sr)
      { g with offer := some (tile u t).row.nserial, fetched := some (g.pc, b.raw, b.lit) } (pgRow t) := by
  unfold aOffer
  rw [hready]
  rfl

theorem arr_offers (h : MayIssue s r g) {sr : BitVec 5} (hl : sr.toNat + 3 ≤ 31) (hready : aReady s r.tile g ⟨1, sr.toNat⟩ = true) :
    ∃ t g' c, exec (.arr r sr) s = .next t ∧ group? t r.tile r.slot = some g' ∧
      SameCore g g' ∧ g'.offer = some (tile s r.tile).arr.nserial ∧ (tile t r.tile).arr.cmds = (tile s r.tile).arr.cmds ++ [c] ∧
      c.serial = (tile s r.tile).arr.nserial ∧ c.slot = r.slot ∧ c.stage = .offered ∧
      c.words = [g.uget sr.toNat, g.uget (sr.toNat + 1), g.uget (sr.toNat + 2), g.uget (sr.toNat + 3)] ∧ t.ram = s.ram ∧ OtherGroups s t r := by
  have hlegal : (⟨1, sr.toNat⟩ : AOp).legal = true := by simp [AOp.legal, hl]
  obtain ⟨f, hround⟩ := roundOne_placed s r
  have harr : (tile (roundOne s r.tile r.slot) r.tile).arr = (tile s r.tile).arr := by rw [hround]
  have hexec : exec (.arr r sr) s = _ := issueA_offers h hlegal hready
  rw [aOffer_arr ((roundOne_aReady s r g _).trans hready)] at hexec
  obtain ⟨hg, hram, hothers⟩ := offered_frame (s := s) (r := r)
    (x := arrOffered (roundOne s r.tile r.slot) r.tile r.slot (noWait g) sr.toNat) rfl rfl
    { noWait g with
      offer := some (tile (roundOne s r.tile r.slot) r.tile).arr.nserial
      fetched := some (g.pc, (aBundle ⟨1, sr.toNat⟩).raw, (aBundle ⟨1, sr.toNat⟩).lit) } (pgArr r.tile)
  refine ⟨_, _, arrCmd (roundOne s r.tile r.slot) r.tile r.slot (noWait g) sr.toNat, hexec, hg,
    ⟨rfl, rfl, rfl, rfl, rfl, rfl, rfl, rfl, rfl, rfl, rfl, rfl⟩, congrArg (fun x => some x.nserial) harr, ?_,
    congrArg (·.nserial) harr, rfl, rfl, aWords_arr _ _, hram, hothers⟩
  rw [tile_offered]
  exact congrArg (fun x => x.cmds ++ [_]) harr

theorem row_offers (h : MayIssue s r g) {sr : BitVec 5} (hl : sr.toNat + 1 ≤ 31) (hready : aReady s r.tile g ⟨2, sr.toNat⟩ = true) :
    ∃ t g' c, exec (.row r sr) s = .next t ∧ group? t r.tile r.slot = some g' ∧
      SameCore g g' ∧ g'.offer = some (tile s r.tile).row.nserial ∧ (tile t r.tile).row.cmds = (tile s r.tile).row.cmds ++ [c] ∧
      c.serial = (tile s r.tile).row.nserial ∧ c.slot = r.slot ∧ c.stage = .offered ∧
      c.words = [g.uget sr.toNat, g.uget (sr.toNat + 1)] ∧ t.ram = s.ram ∧ OtherGroups s t r := by
  have hlegal : (⟨2, sr.toNat⟩ : AOp).legal = true := by simp [AOp.legal, hl]
  obtain ⟨f, hround⟩ := roundOne_placed s r
  have hrow : (tile (roundOne s r.tile r.slot) r.tile).row = (tile s r.tile).row := by rw [hround]
  have hexec : exec (.row r sr) s = _ := issueA_offers h hlegal hready
  rw [aOffer_row ((roundOne_aReady s r g _).trans hready)] at hexec
  obtain ⟨hg, hram, hothers⟩ := offered_frame (s := s) (r := r)
    (x := rowOffered (roundOne s r.tile r.slot) r.tile r.slot (noWait g) sr.toNat) rfl rfl
    { noWait g with
      offer := some (tile (roundOne s r.tile r.slot) r.tile).row.nserial
      fetched := some (g.pc, (aBundle ⟨2, sr.toNat⟩).raw, (aBundle ⟨2, sr.toNat⟩).lit) } (pgRow r.tile)
  refine ⟨_, _, rowCmd (roundOne s r.tile r.slot) r.tile r.slot (noWait g) sr.toNat, hexec, hg,
    ⟨rfl, rfl, rfl, rfl, rfl, rfl, rfl, rfl, rfl, rfl, rfl, rfl⟩, congrArg (fun x => some x.nserial) hrow, ?_,
    congrArg (·.nserial) hrow, rfl, rfl, aWords_row _ _, hram, hothers⟩
  rw [tile_offered]
  exact congrArg (fun x => x.cmds ++ [_]) hrow

end

/-! Imprecise faults (R75). -/

/-- A poisoned load faults its group. -/
theorem poison_faults {s : State} {r : GRef} {g : Group} {w : Wg} (hg : group? s r.tile r.slot = some g) (hw : wg? s r.tile g.wg = some w)
    (hp : w.park = .none) (hf : g.fault = none) (hload : ∃ p ∈ g.pend, p.openLoad = true) :
    ∃ t g' f, exec (.impreciseFault r fPoison) s = .next t ∧ group? t r.tile r.slot = some g' ∧ g'.fault = some f ∧ f.code = fPoison ∧
      f.imprecise = true ∧ SameCore { g with fault := some f } g' ∧ g'.stopped = true ∧ g'.reason = rFault ∧
      (wg? t r.tile g.wg).map (·.park) = some .draining ∧ t.ram = s.ram := by
  obtain ⟨p, hfind⟩ : ∃ p, g.pend.find? Pend.openLoad = some p :=
    Option.isSome_iff_exists.1 (List.find?_isSome.2 hload)
  have hopen := List.find?_some hfind
  obtain ⟨f, himp, hcode, hexec⟩ : ∃ f : FaultRec, f.imprecise = true ∧ f.code = fPoison ∧
      exec (.impreciseFault r fPoison) s = .next (groupFault (takeFree s).2 r.tile r.slot f) := by
    obtain ⟨id, cls, done, kind, raw⟩ := p
    cases kind with
    | load =>
      have hexec : exec (.impreciseFault r fPoison) s = execImpreciseFault r fPoison s := rfl
      unfold execImpreciseFault at hexec
      rw [hg] at hexec
      dsimp only at hexec
      rw [if_neg (by decide), if_pos rfl, hfind] at hexec
      dsimp only at hexec
      unfold impreciseFault at hexec
      exact ⟨_, rfl, rfl, hexec⟩
    | _ => simp [Pend.openLoad] at hopen
  obtain ⟨g', hg', hrec, hcore, hmem, hstop⟩ := groupFault_spec (s := (takeFree s).2) hg hf f
  obtain ⟨hstopped, hreason, hpark⟩ := hstop w hw hp
  exact ⟨_, g', f, hexec, hg', hrec, hcode, himp, hcore, hstopped, hreason, hpark, hmem⟩


end Sys2Proof.Laws
end

