-- ==== Sys2Proof/Proofs/CodeFetch.lean ====
section
/-!
PROOF. O19: a bundle comes through the L1 (R112, R228). `Looked` is what a translation leaves alone, `Touched` what a read at the
home slice leaves alone, both while no detector is armed.
-/
namespace Sys2Proof.Laws
open Sys2Proof.Machine Sys2Proof.Safety

-- Elaborated side by side, so many small lemmas ask for more threads than the memory limit allows.
set_option Elab.async false

/-! Translation. -/

/-- A translation by a tile's agent counts, and fills range caches. -/
structure Looked (s t : State) (n : Nat) : Prop where
  rest  : { t with blks := [], tiles := [], xcache := [] } = { s with blks := [], tiles := [], xcache := [] }
  tiles : ∀ m, m ≠ n → tile t m = tile s m
  here  : tile t n = { tile s n with perf := (tile t n).perf }
  arm   : ∀ pg, (blk t pg).injArm = (blk s pg).injArm
  regs  : ∀ pg off, off ≠ 0x08C → off ≠ 0x090 → regW t pg off = regW s pg off

section
variable {s t u : State} {n : Nat}

theorem Looked.refl (s : State) (n : Nat) : Looked s s n := ⟨rfl, fun _ _ => rfl, rfl, fun _ => rfl, fun _ _ _ _ => rfl⟩

theorem Looked.trans (h : Looked s t n) (k : Looked t u n) : Looked s u n :=
  ⟨k.rest.trans h.rest, fun m hm => (k.tiles m hm).trans (h.tiles m hm), by rw [k.here, h.here],
    fun pg => (k.arm pg).trans (h.arm pg), fun pg off h1 h2 => (k.regs pg off h1 h2).trans (h.regs pg off h1 h2)⟩

theorem Looked.unarmed (h : Looked s t n) (hs : ∀ pg, (blk s pg).injArm = false) (pg : Nat) : (blk t pg).injArm = false :=
  (h.arm pg).trans (hs pg)

theorem Looked.ram (h : Looked s t n) : t.ram = s.ram := by
  have := congrArg State.ram h.rest
  exact this

theorem Looked.keys (h : Looked s t n) : t.keys = s.keys := by
  have := congrArg State.keys h.rest
  exact this

theorem Looked.l2 (h : Looked s t n) : t.l2 = s.l2 := by
  have := congrArg State.l2 h.rest
  exact this

theorem Looked.stackTab (h : Looked s t n) : t.stackTab = s.stackTab := by
  have := congrArg State.stackTab h.rest
  exact this

theorem Looked.txgs (h : Looked s t n) : t.txgs = s.txgs := by
  have := congrArg State.txgs h.rest
  exact this

theorem Looked.bumpF (pg : Nat) {off : Nat} (hi lo k : Nat) (ho : off = 0x08C ∨ off = 0x090) : Looked s (bumpF s pg off hi lo k) n := by
  refine ⟨rfl, fun _ _ => rfl, rfl, fun x => ?_, fun x o h1 h2 => regW_setReg_ne s _ (Or.inr ?_)⟩
  · unfold Machine.bumpF Machine.setRegF Machine.setReg
    by_cases hx : x = pg
    · rw [hx, blk_modBlk_same]
    · rw [blk_modBlk_ne _ _ hx]
  · rcases ho with rfl | rfl
    · exact h1
    · exact h2

theorem Looked.cachePut (ag : Nat) (e : XEntry) : Looked s (cachePut s ag e) n :=
  ⟨rfl, fun _ _ => rfl, rfl, fun _ => rfl, fun _ _ _ _ => rfl⟩

theorem Looked.ownMiss : Looked s (ownMiss s n) n := by
  unfold Machine.ownMiss
  split
  · have h := perfCount_same s n 0x0E 1
    have hrest := congrArg (fun u : State => { u with blks := [], xcache := [] }) h.rest
    have hpart : (perfCount s n 0x0E 1).partE = s.partE := by
      have := congrArg State.partE h.rest
      exact this
    exact ⟨hrest, h.tiles, h.here, fun pg => by rw [h.blk], fun pg off _ _ => regW_congr (by rw [h.blk]) hpart off⟩
  · exact Looked.refl s n

theorem injects_unarmed (hs : ∀ pg, (blk s pg).injArm = false) (pg det : Nat) : injects s pg det = false := by
  unfold injects
  rw [hs]
  rfl

theorem cacheParity_unarmed (hs : ∀ pg, (blk s pg).injArm = false) (die space va : Nat) : cacheParity s die space va = s := by
  unfold cacheParity
  dsimp only
  rw [injects_unarmed hs]
  rfl

theorem Looked.walk {die space va : Nat} {e : XEntry} (hw : walk s die space va = (.inr e, t)) : Looked s t n := by
  unfold Machine.walk at hw
  dsimp only at hw
  split at hw
  · cases hw
  · split at hw
    · cases hw
    · iterate 4
        split at hw
        · cases hw
      cases hw
      exact Looked.bumpF _ _ _ _ (.inl rfl)

theorem Looked.lookup {die space va : Nat} {e : XEntry} (hs : ∀ pg, (blk s pg).injArm = false)
    (hl : lookup s (agTile n) die space va = (.inr e, t)) : Looked s t n := by
  unfold Machine.lookup at hl
  have h0 : (if agTile n = agDie die then cacheParity s die space va else s) = s := by
    rw [cacheParity_unarmed hs]
    exact ite_self _
  rw [h0] at hl
  dsimp only at hl
  split at hl
  · cases hl
    exact Looked.cachePut _ _
  · have h1 : Looked s (if agTile n = agDie die then s else cacheParity (Machine.ownMiss s (agTile n)) die space va) n := by
      have hm : Looked s (Machine.ownMiss s (agTile n)) n := Looked.ownMiss
      rw [cacheParity_unarmed (hm.unarmed hs)]
      split
      · exact Looked.refl s n
      · exact hm
    generalize (if agTile n = agDie die then s else cacheParity (Machine.ownMiss s (agTile n)) die space va) = s1 at h1 hl
    split at hl
    · cases hl
      exact h1.trans ((Looked.cachePut _ _).trans (Looked.cachePut _ _))
    · split at hl
      next hw =>
        cases hl
        exact (h1.trans (Looked.bumpF _ _ _ _ (.inr rfl))).trans ((Looked.walk hw).trans ((Looked.cachePut _ _).trans (Looked.cachePut _ _)))
      next hno => exact absurd hl (hno e t)

theorem Looked.translate {die space va : Nat} {a : Acc4} {host : Bool} {d : Dest × Bool} (hs : ∀ pg, (blk s pg).injArm = false)
    (ht : translate s (agTile n) die space va a host = (.inr d, t)) : Looked s t n := by
  unfold Machine.translate at ht
  split at ht
  · cases ht
  · split at ht
    · cases ht
    · split at ht
      · cases ht
      next hl =>
        split at ht
        · cases ht
        · cases ht
          exact Looked.lookup hs hl

end
/-! A read at the home slice. -/

/-- A read moves lines between the ways of a slice. -/
structure Touched (s t : State) : Prop where
  rest : { t with blks := [], fresh := 0, l2 := [] } = { s with blks := [], fresh := 0, l2 := [] }
  lost : ∀ g, (slice t g).lostSet = (slice s g).lostSet ∧ (slice t g).cleared = (slice s g).cleared

section
variable {s t u : State}

theorem Touched.refl (s : State) : Touched s s := ⟨rfl, fun _ => ⟨rfl, rfl⟩⟩

theorem Touched.trans (h : Touched s t) (k : Touched t u) : Touched s u :=
  ⟨k.rest.trans h.rest, fun g => ⟨(k.lost g).1.trans (h.lost g).1, (k.lost g).2.trans (h.lost g).2⟩⟩

theorem Touched.ram (h : Touched s t) : t.ram = s.ram := by
  have := congrArg State.ram h.rest
  exact this

theorem Touched.keys (h : Touched s t) : t.keys = s.keys := by
  have := congrArg State.keys h.rest
  exact this

theorem Touched.stackTab (h : Touched s t) : t.stackTab = s.stackTab := by
  have := congrArg State.stackTab h.rest
  exact this

theorem Touched.tiles (h : Touched s t) : t.tiles = s.tiles := by
  have := congrArg State.tiles h.rest
  exact this

theorem Touched.setSlice {g : Nat} {x : L2Slice} (hl : x.lostSet = (slice s g).lostSet) (hc : x.cleared = (slice s g).cleared) :
    Touched s (setSlice s g x) := by
  refine ⟨rfl, fun g' => ?_⟩
  unfold Machine.slice Machine.setSlice
  by_cases hg : g' = g
  · rw [hg, tgetD_tput_same]
    exact ⟨hl, hc⟩
  · rw [tgetD_tput_ne _ _ _ hg]
    exact ⟨rfl, rfl⟩

/-- No line of a slice has lost its mark's copy under it (R236). -/
def Plain (s : State) : Prop := ∀ n i x, tget? (slice s n).lines i = some x → x.below = none

theorem dropClean_plain (hp : Plain s) (g key : Nat) : dropClean s (slice s g) key = s := by
  unfold dropClean
  split
  next l hl =>
    rw [hp g key l hl]
    split
    next h => cases h
    next h => cases h
    · rfl
  · rfl

theorem Touched.displace (hp : Plain s) (g key : Nat) : Touched s (displace s g key) := by
  unfold Machine.displace
  split
  · exact Touched.refl s
  · have hdrop : dropClean (takeFree s).2 (slice (takeFree s).2 g) key = (takeFree s).2 := dropClean_plain (s := (takeFree s).2) hp g key
    have hfree : Touched s (takeFree s).2 := ⟨rfl, fun _ => ⟨rfl, rfl⟩⟩
    dsimp only
    rw [hdrop]
    refine hfree.trans (Touched.setSlice ?_ ?_) <;> unfold evict <;> split <;> rfl

theorem Touched.take (g set w : Nat) (l : L2Line) : Touched s (Machine.setSlice s g ((slice s g).take set w l)) := Touched.setSlice rfl rfl

theorem Touched.l2Alloc (hp : Plain s) (g set : Nat) (l : L2Line) : Touched s (l2Alloc s g set l) := by
  unfold Machine.l2Alloc
  dsimp only
  split
  · exact Touched.refl s
  · split
    · exact Touched.take g set _ l
    · have hfree : Touched s (takeFree s).2 := ⟨rfl, fun _ => ⟨rfl, rfl⟩⟩
      exact hfree.trans ((Touched.displace (s := (takeFree s).2) hp _ _).trans (Touched.take g set _ l))

theorem Touched.l2Hit (hp : Plain s) (g set w slot : Nat) (write : Bool) : Touched s (l2Hit s g set w slot write) := by
  unfold Machine.l2Hit
  dsimp only
  split
  · exact Touched.refl s
  · split
    · exact Touched.take g set w _
    · rw [dropClean_plain hp]
      exact Touched.take g set w _

theorem Touched.bumpF (pg off hi lo k : Nat) : Touched s (bumpF s pg off hi lo k) := ⟨rfl, fun _ => ⟨rfl, rfl⟩⟩

theorem plain_used (hp : Plain s) (g : Nat) : Plain (setSlice s g { slice s g with used := true }) := by
  intro n i x hx
  unfold slice setSlice at hx
  by_cases hn : n = g
  · rw [hn, tgetD_tput_same] at hx
    exact hp g i x hx
  · rw [tgetD_tput_ne _ _ _ hn] at hx
    exact hp n i x hx

theorem l2Inject_unarmed (hs : ∀ pg, (blk s pg).injArm = false) (pa : Nat) (read : Bool) : l2Inject s pa read = s := by
  unfold l2Inject
  simp [injects_unarmed hs]

theorem hbmRead_unarmed (hs : ∀ pg, (blk s pg).injArm = false) (pa : Nat) : hbmRead s pa = s := by
  unfold hbmRead
  simp [injects_unarmed hs]

/-- A read moves lines alone while no detector is armed. -/
theorem Touched.touchRead (hs : ∀ pg, (blk s pg).injArm = false) (hp : Plain s) (slot pa : Nat) : Touched s (touchRead s slot pa) := by
  unfold Machine.touchRead Machine.l2Touch
  extract_lets g line set x0 way evb mine s1 s2 s3
  have h1 : Touched s s1 := Touched.setSlice rfl rfl
  have hplain : Plain s1 := plain_used hp g
  have hs1 : ∀ pg, (blk s1 pg).injArm = false := hs
  have e2 : s2 = s1 := by
    unfold s2
    rw [l2Inject_unarmed hs1]
    exact ite_self _
  have e3 : s3 = s1 := by
    unfold s3
    rw [e2, hbmRead_unarmed hs1]
    exact ite_self _
  rw [e3]
  clear_value s3 s2 s1 mine evb way
  split
  · exact h1
  · cases way with
    | some w => exact h1.trans (Touched.l2Hit hplain _ _ _ _ _)
    | none =>
      dsimp only
      split
      · exact h1.trans ((Touched.bumpF _ _ _ _ _).trans (Touched.l2Alloc (s := Machine.bumpF s1 _ _ _ _ _) hplain _ _ _))
      · exact h1.trans (Touched.l2Alloc hplain _ _ _)

end
/-! The fetch (R112). -/

section
variable {s s1 : State} {r : GRef} {g : Group} {w : Wg} {pa raw : Nat} {o : Bool}

/-- What a translation and a read leave. -/
theorem held_looked {n : Nat} (h : Looked s s1 n) (pa : Nat) : lineHeld s1 pa = lineHeld s pa := by
  unfold lineHeld isPchHeld stack
  rw [h.stackTab, h.txgs]

theorem readPhys_congr {u : State} (hram : u.ram = s.ram) (hkeys : u.keys = s.keys) (slot a n : Nat) :
    readPhys u slot a n = readPhys s slot a n := by
  unfold readPhys keyId
  rw [hram, hkeys]

theorem spaceSlot_looked {n : Nat} (h : Looked s s1 n) (die space : Nat) : spaceSlot s1 die space = spaceSlot s die space := by
  have hpair : regPair s1 (pgXlt die) 0x080 = regPair s (pgXlt die) 0x080 := by
    unfold regPair
    rw [h.regs _ 0x080 (by decide) (by decide), h.regs _ (0x080 + 4) (by decide) (by decide)]
  unfold spaceSlot sdWord sdAddr rdN
  rw [readPhys_congr h.ram h.keys, hpair]

theorem isMarked_looked {n : Nat} (h : Looked s s1 n) (pa : Nat) : isMarked s1 pa = isMarked s pa := by
  unfold isMarked isFenced stack
  rw [h.ram, h.stackTab, h.l2]

theorem isMarked_touched (h : Touched s s1) (pa : Nat) : isMarked s1 pa = isMarked s pa := by
  obtain ⟨hlost, hcleared⟩ := h.lost (gslice pa)
  unfold slice at hlost hcleared
  unfold isMarked isFenced stack
  dsimp only
  rw [h.ram, h.stackTab, hlost, hcleared]

theorem l1Parity_unarmed (hs : ∀ pg, (blk s pg).injArm = false) (t space vline : Nat) : l1Parity s t space vline = s := by
  unfold l1Parity
  dsimp only
  rw [injects_unarmed hs]
  rfl

/-- The bundle's bytes in the line that holds them. -/
theorem bundle_in_line (u : State) (slot : Nat) {va pa : Nat} (hline : pa % 128 = va % 128) (hal : va % 16 = 0) :
    ((readPhys u slot (lineBase pa) 128).drop (va % 128)).take 16 = readPhys u slot pa 16 := by
  have hsub : va % 128 + 16 ≤ 128 := by omega
  unfold readPhys readUnder
  rw [← List.map_drop, ← List.map_take]
  congr 1
  refine List.ext_getElem ?_ fun i h1 h2 => ?_
  · simp [rangeFrom]
    omega
  · simp [rangeFrom, lineBase]
    omega

/-- A fetch from a line of this device that is not in the L1 brings the line, and leaves it there. -/
theorem fetch16_home {t n space va : Nat} (hs : ∀ pg, (blk s pg).injArm = false) (hp : Plain s)
    (ht : translate s (agTile t) (tileDie t) space va .fetch false = (.inr (.loc pa, o), s1)) (hline : pa % 128 = va % 128)
    (hal : va % 16 = 0) (hheld : lineHeld s pa = false) (hl1 : (tile s t).l1Find space (va / 128 * 128) = none)
    (hmark : isMarked s pa = false) (hraw : ofBytes (readPhys s (spaceSlot s (tileDie t) space) pa 16) = raw) :
    ∃ u l, Looked s s1 t ∧ Touched s1 u ∧ fetch16 s t n space va = (.inl (some (raw, false)), modTile u t (fun x => x.l1Put l)) := by
  have hlook : Looked s s1 t := Looked.translate hs ht
  have hplain : Plain s1 := by
    intro n i x hx
    unfold slice at hx
    rw [hlook.l2] at hx
    exact hp n i x hx
  have htouch := Touched.touchRead (hlook.unarmed hs) hplain (spaceSlot s1 (tileDie t) space) pa
  have hfind : (tile s1 t).l1Find space (va / 128 * 128) = none := by
    rw [hlook.here]
    exact hl1
  obtain ⟨u, hu⟩ : ∃ u, touchRead s1 (spaceSlot s1 (tileDie t) space) pa = u := ⟨_, rfl⟩
  rw [hu] at htouch
  have hmark1 : isMarked u pa = false := (isMarked_touched htouch pa).trans ((isMarked_looked hlook pa).trans hmark)
  have hbytes : readPhys u (spaceSlot s1 (tileDie t) space) pa 16 = readPhys s (spaceSlot s (tileDie t) space) pa 16 := by
    rw [readPhys_congr (htouch.ram.trans hlook.ram) (htouch.keys.trans hlook.keys), spaceSlot_looked hlook]
  refine ⟨u, ⟨space, va / 128 * 128, readPhys u (spaceSlot s1 (tileDie t) space) (lineBase pa) 128, false⟩, hlook, htouch, ?_⟩
  unfold fetch16
  dsimp only
  rw [ht]
  dsimp only
  rw [l1Parity_unarmed (hlook.unarmed hs), held_looked hlook, hheld, Bool.false_and, if_neg (by simp)]
  unfold l1Read
  dsimp only
  rw [hfind]
  dsimp only
  rw [hu, bundle_in_line _ _ hline hal, hbytes, hraw, hmark1]

theorem codeFetch_home (hpref : (tile s r.tile).prefs = []) (hg : group? s r.tile r.slot = some g) (hw : wg? s r.tile g.wg = some w)
    (hgo : g.stopped = false) (hrun : g.stat ≠ .finished) (hoffer : g.offer = none) (hs : ∀ pg, (blk s pg).injArm = false)
    (ht : translate s (agTile r.tile) (tileDie r.tile) w.space g.pc .fetch false = (.inr (.loc pa, o), s1)) (hline : pa % 128 = g.pc % 128)
    (hal : g.pc % 16 = 0) (hheld : lineHeld s pa = false) (hl1 : (tile s r.tile).l1Find w.space (g.pc / 128 * 128) = none)
    (hmark : isMarked s pa = false) (hp : Plain s) (hraw : ofBytes (readPhys s (spaceSlot s (tileDie r.tile) w.space) pa 16) = raw)
    (hlit : ((decBundle raw 0).map (·.usesLit)).getD false = false) :
    ∃ t, exec (.codeFetch r) s = .next t ∧ group? t r.tile r.slot = some { g with fetched := some (g.pc, raw, 0) } ∧ SameBytes s t ∧
      OtherGroups s t r := by
  obtain ⟨u, l, hlook, htouch, hfetch⟩ := fetch16_home (n := r.slot) hs hp ht hline hal hheld hl1 hmark hraw
  have hsweep : prefSweep s r.tile = s := by
    unfold prefSweep
    rw [hpref]
    rfl
  have hexec : exec (.codeFetch r) s = .next (modGroup (modTile u r.tile (fun x => x.l1Put l)) r.tile r.slot
      (fun g' => { g' with fetched := some (g.pc, raw, 0) })) := by
    change execCodeFetch r s = _
    unfold execCodeFetch
    dsimp only
    rw [hsweep, hg]
    dsimp only
    rw [hgo, hoffer, if_neg (by simp [hrun]), hw]
    dsimp only
    rw [hfetch]
    dsimp only
    cases hb : decBundle raw 0 with
    | none => rfl
    | some b =>
      rw [hb] at hlit
      have hno : b.usesLit = false := hlit
      dsimp only
      rw [hno]
      rfl
  have hhere : tile u r.tile = { tile s r.tile with perf := (tile s1 r.tile).perf } := by rw [tile_congr htouch.tiles, hlook.here]
  refine ⟨_, hexec, ?_, ?_, fun m hm => ?_, fun k hk => ?_, ?_⟩
  · rw [group?_modGroup, if_pos ⟨rfl, rfl⟩, group?, tile_modTile_same, hhere]
    exact congrArg (Option.map _) hg
  · exact fun key a => congrArg (fun m => byteUnder m key a) (htouch.ram.trans hlook.ram)
  · unfold modGroup
    rw [tile_modTile_ne _ _ hm, tile_modTile_ne _ _ hm, tile_congr htouch.tiles, hlook.tiles m hm]
  · unfold SameGroup
    rw [group?_modGroup, if_neg (by simp [hk]), group?, tile_modTile_same, hhere]
    rfl
  · unfold modGroup
    rw [tile_modTile_same, tile_modTile_same, hhere]
    rfl

end

/-- Settles O19: a round acts on the groups that it chooses, and a fetch, an offer and an imprecise fault on their own group. -/
theorem issueRoundsAndFetch : Obligations.IssueRoundsAndFetch := by
  unfold Obligations.IssueRoundsAndFetch
  refine ⟨issueRound_spec, ?_, fun s r g sr h => ⟨arr_offers h, row_offers h, fun hsr => ?_, fun hsr => ?_⟩, ?_⟩
  · intro s s1 r g w pa raw o hpref hg hw hgo hrun hoffer hs ht hline hal hheld hl1 hmark hp hraw hlit
    exact codeFetch_home hpref hg hw hgo hrun hoffer hs ht hline hal hheld hl1 hmark hp hraw hlit
  · exact faultsWith_offer h rfl (by simp [AOp.legal]; omega)
  · exact faultsWith_offer h rfl (by simp [AOp.legal]; omega)
  · intro s r g w hg hw hp hf hload
    exact poison_faults hg hw hp hf hload

end Sys2Proof.Laws
end

