-- ==== Sys2Proof/Proofs/WorkFrame.lean ====
section
/-!
SUPPORT. What an access to memory leaves alone: `WorkFrom w s t` says that `t` differs from `s` in the parts that accesses work on
(`besides`) and in the performance counters of tiles, and, where `w` is false, that no byte of memory has changed, nor where the queue
descriptors lie. It passes along the model's functions as `MemFrom` does, from `WorkFrom w s0 s` to the result of each on `s`.
-/
namespace Sys2Proof.Laws
open Sys2Proof.Machine Sys2Proof.Safety

-- Elaborated side by side, so many small lemmas ask for more threads than the memory limit allows.
set_option Elab.async false

/-- The machine without what accesses to memory work on: pages, reports and events, memory and its directory, range caches, watches,
reservations, requests and ports. -/
def besides (s : State) : State :=
  { s with blks := [], fresh := 0, reports := [], evq := [], wave := none, trigOut := 0, ram := {}, l2 := [], stackTab := [], xcache := [],
           tiles := [], bels := [], resvs := [], reqs := [], nextReq := 0, ports := [], runs := [], strErr := [], lastOrd := []
           mirLost := [], cardDue := [] }

/-- What a read of a queue descriptor depends on, apart from `besides`. -/
def readable (s : State) : List Host.Cell × Tab Nat × Nat := (s.ram.cells, s.ram.keys, regPair s (pgEng 40) 0x0A0)

structure WorkFrom (w : Bool) (s t : State) : Prop where
  rest  : besides t = besides s
  tiles : ∀ n, { tile t n with perf := [] } = { tile s n with perf := [] }
  reads : w = false → readable t = readable s

variable {w : Bool} {s0 s t a b : State} {α β γ : Type}

theorem WorkFrom.refl (s : State) : WorkFrom w s s := ⟨rfl, fun _ => rfl, fun _ => rfl⟩

theorem WorkFrom.trans (h : WorkFrom w s0 s) (k : WorkFrom w s t) : WorkFrom w s0 t :=
  ⟨k.rest.trans h.rest, fun n => (k.tiles n).trans (h.tiles n), fun e => (k.reads e).trans (h.reads e)⟩

theorem partE_of_besides (h : besides t = besides s) : t.partE = s.partE := by
  have := congrArg State.partE h
  exact this

theorem booted_of_besides (h : besides t = besides s) : t.booted = s.booted := by
  have := congrArg State.booted h
  exact this

/-- A change to other parts than pages, tiles and memory. -/
theorem WorkFrom.upd (h : WorkFrom w s0 s) (hr : besides t = besides s := by rfl)
    (hf : (t.tiles, t.blks, t.ram) = (s.tiles, s.blks, s.ram) := by rfl) : WorkFrom w s0 t := by
  obtain ⟨ht, hf⟩ := Prod.ext_iff.1 hf
  obtain ⟨hb, hm⟩ := Prod.ext_iff.1 hf
  refine h.trans ⟨hr, fun n => by rw [tile_congr ht], fun _ => ?_⟩
  have hpart : t.partE = s.partE := partE_of_besides hr
  have hbooted : t.booted = s.booted := booted_of_besides hr
  have hregs : ∀ pg, (blk t pg).regs = (blk s pg).regs := by
    intro pg
    unfold blk
    rw [show t.blks = s.blks from hb, hbooted]
  unfold readable regPair
  rw [regW_congr (hregs _) hpart, regW_congr (hregs _) hpart, show t.ram = s.ram from hm]

/-! The state among the results of a function, branches and loops. -/

theorem WorkFrom.of_pair {p : α × State} {x : α} (h : WorkFrom w s0 p.2) (e : p = (x, t)) : WorkFrom w s0 t := by
  subst e
  exact h

theorem WorkFrom.pair {x : α} (h : WorkFrom w s0 s) : WorkFrom w s0 (x, s).2 := h
theorem WorkFrom.pair22 {x : α} {y : β} (h : WorkFrom w s0 s) : WorkFrom w s0 (x, y, s).2.2 := h

section
variable {c : Prop} {_ : Decidable c}

theorem WorkFrom.ite (ha : WorkFrom w s0 a) (hb : WorkFrom w s0 b) : WorkFrom w s0 (if c then a else b) := by
  split <;> assumption

theorem WorkFrom.ifs (h : WorkFrom w s0 s) (ha : WorkFrom w s0 s → WorkFrom w s0 a) (hb : WorkFrom w s0 s → WorkFrom w s0 b) :
    WorkFrom w s0 (if c then a else b) := .ite (ha h) (hb h)

theorem WorkFrom.opt (h : WorkFrom w s0 s) (ha : WorkFrom w s0 s → WorkFrom w s0 a) : WorkFrom w s0 (if c then a else s) :=
  .ite (ha h) h

theorem WorkFrom.optElse (h : WorkFrom w s0 s) (hb : WorkFrom w s0 s → WorkFrom w s0 b) : WorkFrom w s0 (if c then s else b) :=
  .ite h (hb h)

theorem WorkFrom.ite_2 {a b : α × State} (ha : WorkFrom w s0 a.2) (hb : WorkFrom w s0 b.2) : WorkFrom w s0 (if c then a else b).2 := by
  split <;> assumption

theorem WorkFrom.ite_22 {a b : α × β × State} (ha : WorkFrom w s0 a.2.2) (hb : WorkFrom w s0 b.2.2) :
    WorkFrom w s0 (if c then a else b).2.2 := by
  split <;> assumption

theorem WorkFrom.ifs_22 {a b : α × β × State} (h : WorkFrom w s0 s) (ha : WorkFrom w s0 s → WorkFrom w s0 a.2.2)
    (hb : WorkFrom w s0 s → WorkFrom w s0 b.2.2) : WorkFrom w s0 (if c then a else b).2.2 := .ite_22 (ha h) (hb h)

end

theorem WorkFrom.foldl {f : State → α → State} {xs : List α} (h : WorkFrom w s0 s)
    (hf : ∀ s x, WorkFrom w s0 s → WorkFrom w s0 (f s x)) : WorkFrom w s0 (xs.foldl f s) :=
  foldl_keeps (WorkFrom w s0) f hf xs s h

/-! Pages, registers and ports. -/

theorem WorkFrom.takeFree (h : WorkFrom w s0 s) : WorkFrom w s0 (takeFree s).2 := h.upd

/-- A page's other parts than its registers. -/
theorem WorkFrom.setBlk {pg b} (h : WorkFrom w s0 s) (hb : b.regs = (blk s pg).regs) : WorkFrom w s0 (setBlk s pg b) := by
  refine h.trans ⟨rfl, fun _ => rfl, fun _ => ?_⟩
  have hreg : ∀ off, regW (Machine.setBlk s pg b) (pgEng 40) off = regW s (pgEng 40) off := by
    intro off
    refine regW_congr (s := s) (t := Machine.setBlk s pg b) ?_ rfl off
    by_cases hpg : pgEng 40 = pg
    · rw [hpg, blk_setBlk_same, hb]
    · rw [blk_setBlk_ne s _ hpg]
  unfold readable regPair
  rw [hreg, hreg]
  rfl

/-- Registers other than the place of the queue descriptors. -/
theorem WorkFrom.setReg {pg off v} (h : WorkFrom w s0 s) (ho : off ≠ 0x0A0 ∧ off ≠ 0x0A4 := by decide) : WorkFrom w s0 (setReg s pg off v) := by
  refine h.trans ⟨rfl, fun _ => rfl, fun _ => ?_⟩
  unfold readable regPair
  rw [regW_setReg_ne s _ (Or.inr ho.1.symm), regW_setReg_ne s _ (Or.inr ho.2.symm)]
  rfl

theorem WorkFrom.bumpF {pg off hi lo k} (h : WorkFrom w s0 s) (ho : off ≠ 0x0A0 ∧ off ≠ 0x0A4 := by decide) :
    WorkFrom w s0 (bumpF s pg off hi lo k) := h.setReg ho

theorem WorkFrom.raise {e} (h : WorkFrom w s0 s) : WorkFrom w s0 (raise s e) := h.upd

theorem WorkFrom.cardPut {kind unit v} (h : WorkFrom w s0 s) : WorkFrom w s0 (cardPut s kind unit v) := h.upd

theorem WorkFrom.cairnTrigger {src btype} (h : WorkFrom w s0 s) : WorkFrom w s0 (cairnTrigger s src btype) := by
  unfold Machine.cairnTrigger
  split
  · exact h
  · exact ((h.setReg (off := 0x08C)).upd).raise

/-- A tile's performance counters. -/
theorem WorkFrom.perfCount {n ev k} (h : WorkFrom w s0 s) : WorkFrom w s0 (perfCount s n ev k) := by
  have hp := perfCount_same s n ev k
  have hrest : besides (Machine.perfCount s n ev k) = besides s := by
    have := congrArg besides hp.rest
    exact this
  have hram : (Machine.perfCount s n ev k).ram = s.ram := by
    have := congrArg State.ram hp.rest
    exact this
  refine h.trans ⟨hrest, fun m => ?_, fun _ => ?_⟩
  · by_cases hm : m = n
    · rw [hm, hp.here]
    · rw [hp.tiles m hm]
  · have hreg : ∀ off, regW (Machine.perfCount s n ev k) (pgEng 40) off = regW s (pgEng 40) off :=
      fun off => regW_congr (by rw [hp.blk]) (partE_of_besides hrest) off
    unfold readable regPair
    rw [hreg, hreg, hram]

theorem WorkFrom.errSet {pg bit addr} (h : WorkFrom w s0 s) : WorkFrom w s0 (errSet s pg bit addr) := by
  have hb := h.setBlk (pg := pg) (b := { (blk s pg).err bit addr with injDue := (blk s pg).injDue.filter (fun x => x.1 != bit) }) rfl
  exact hb.optElse fun h => (h.opt (·.cairnTrigger)).upd

theorem WorkFrom.injFire {pg due} (h : WorkFrom w s0 s) : WorkFrom w s0 (injFire s pg due) := h.setBlk rfl

theorem WorkFrom.modPort {p f} (h : WorkFrom w s0 s) : WorkFrom w s0 (modPort s p f) := h.upd

theorem WorkFrom.sendOn {p k req} (h : WorkFrom w s0 s) : WorkFrom w s0 (sendOn s p k req) := h.ifs (·.modPort) (·.modPort)

/-! Requests to other devices. -/

theorem WorkFrom.runTake {stream dst} (h : WorkFrom w s0 s) : WorkFrom w s0 (runTake s stream dst).2.2 := by
  unfold Machine.runTake
  split
  · exact h.upd.pair22
  · exact h.takeFree.upd

theorem WorkFrom.runAnswered {stream dst} (h : WorkFrom w s0 s) : WorkFrom w s0 (runAnswered s stream dst) := by
  unfold Machine.runAnswered
  split
  · exact h.ifs (·.upd) (·.upd)
  · exact h

theorem WorkFrom.modReq {id f} (h : WorkFrom w s0 s) : WorkFrom w s0 (modReq s id f) := h.upd

theorem WorkFrom.delReq {id} (h : WorkFrom w s0 s) : WorkFrom w s0 (delReq s id) := h.upd

theorem WorkFrom.holdAnswer {a} (h : WorkFrom w s0 s) : WorkFrom w s0 (holdAnswer s a) := h.upd

theorem WorkFrom.answer {k status operand data mark isData} (h : WorkFrom w s0 s) :
    WorkFrom w s0 (answer s k status operand data mark isData) := by
  unfold Machine.answer
  dsimp only
  split
  · exact h
  · split
    · exact h.holdAnswer
    · exact h.sendOn

theorem WorkFrom.mirrorGone {m} (h : WorkFrom w s0 s) : WorkFrom w s0 (mirrorGone s m) := h.optElse (·.upd.raise)

theorem WorkFrom.relayEnd {o res cause data mark} (h : WorkFrom w s0 s) : WorkFrom w s0 (relayEnd s o res cause data mark) := by
  unfold Machine.relayEnd
  split
  · exact h.answer
  · exact h

theorem WorkFrom.endReq {id res0 cause} (h : WorkFrom w s0 s) : WorkFrom w s0 (endReq s id res0 cause) := by
  unfold Machine.endReq
  split
  · exact h
  · split
    · exact h
    · extract_lets gone res s1 s2 s3 bit s4 s5 s6
      have h1 : WorkFrom w s0 s1 := by
        unfold s1
        split
        · exact h.opt (·.mirrorGone)
        · exact h
      have h2 : WorkFrom w s0 s2 := h1.modReq
      have h3 : WorkFrom w s0 s3 := h2.opt (·.runAnswered)
      have h4 : WorkFrom w s0 s4 := h3.opt (·.upd)
      have h5 : WorkFrom w s0 s5 := h4.opt (·.raise.errSet)
      have h6 : WorkFrom w s0 s6 := h5.relayEnd
      clear_value gone res s1 s2 s3 bit s4 s5 s6
      exact h6.opt (·.delReq)

theorem WorkFrom.trySend {id} (h : WorkFrom w s0 s) : WorkFrom w s0 (trySend s id) := by
  unfold Machine.trySend
  split
  · exact h
  next r _ =>
    refine h.ifs (fun h => h) fun h => h.ifs (·.endReq) fun h => h.ifs (fun h => h) fun h => h.ifs (·.endReq) fun h => h.optElse fun h => ?_
    split
    · exact h
    · refine h.ifs (·.delReq.sendOn) fun h => ?_
      split
      next e =>
      have numbered := e ▸ h.ifs_22 (fun h => h) fun h => .ifs_22 h (fun h => h) (·.runTake)
      exact (((WorkFrom.modReq numbered).opt (·.upd)).opt (·.bumpF)).sendOn

theorem WorkFrom.sendMir {k owner mir} (h : WorkFrom w s0 s) : WorkFrom w s0 (sendMir s k owner mir) := h.upd.trySend

theorem WorkFrom.sendReq {k owner} (h : WorkFrom w s0 s) : WorkFrom w s0 (sendReq s k owner) := h.sendMir

theorem WorkFrom.delReqs {ids} (h : WorkFrom w s0 s) : WorkFrom w s0 (delReqs s ids) := h.upd

end Sys2Proof.Laws
end

