-- ==== Sys2Proof/Proofs/WorkAccess.lean ====
section
/-!
SUPPORT. `WorkFrom` along the accesses to memory: lines and their watches, translation, reads and writes by virtual address.
-/
namespace Sys2Proof.Laws
open Sys2Proof.Machine Sys2Proof.Safety

-- Elaborated side by side, so many small lemmas ask for more threads than the memory limit allows.
set_option Elab.async false

variable {w : Bool} {s0 s t : State}

/-! Lines of memory. -/

/-- A mark comes or goes. -/
theorem WorkFrom.marks {s' : State} {ms} (h : WorkFrom w s0 s) (hs : s' = { s with ram := { s.ram with marks := ms } }) : WorkFrom w s0 s' := by
  subst hs
  exact h.trans ⟨rfl, fun _ => rfl, fun _ => rfl⟩

theorem WorkFrom.setMark {pa} (h : WorkFrom w s0 s) : WorkFrom w s0 (setMark s pa) := h.marks rfl

theorem WorkFrom.setSlice {g x} (h : WorkFrom w s0 s) : WorkFrom w s0 (setSlice s g x) := h.upd

theorem WorkFrom.dropClean {x key} (h : WorkFrom w s0 s) : WorkFrom w s0 (dropClean s x key) := by
  unfold Machine.dropClean
  split
  · split
    · exact h.setMark
    · exact h.marks rfl
    · exact h
  · exact h

theorem WorkFrom.displace {g key} (h : WorkFrom w s0 s) : WorkFrom w s0 (displace s g key) := h.optElse (·.takeFree.dropClean.setSlice)

theorem WorkFrom.hbmRead {pa} (h : WorkFrom w s0 s) : WorkFrom w s0 (hbmRead s pa) :=
  h.ifs (·.injFire.bumpF.errSet) (·.opt (·.injFire.bumpF.setMark.errSet))

theorem WorkFrom.l2Mark {pa} (h : WorkFrom w s0 s) : WorkFrom w s0 (l2Mark s pa) := by
  unfold Machine.l2Mark
  refine WorkFrom.setMark ?_
  split
  · exact h.setSlice
  · exact h

theorem WorkFrom.l2Inject {pa read} (h : WorkFrom w s0 s) : WorkFrom w s0 (l2Inject s pa read) :=
  h.ifs (·.injFire.bumpF.errSet) (·.ifs (·.injFire.bumpF.errSet) (·.opt (·.injFire.l2Mark.errSet)))

theorem WorkFrom.l2Alloc {g set l} (h : WorkFrom w s0 s) : WorkFrom w s0 (l2Alloc s g set l) := by
  unfold Machine.l2Alloc
  dsimp only
  split
  · exact h
  · split
    · exact h.setSlice
    · exact h.takeFree.displace.setSlice

theorem WorkFrom.l2Hit {g set v slot write} (h : WorkFrom w s0 s) : WorkFrom w s0 (l2Hit s g set v slot write) := by
  unfold Machine.l2Hit
  extract_lets key s1
  have h1 : WorkFrom w s0 s1 := h.dropClean
  clear_value key s1
  split
  · exact h
  · exact .ite (h.setSlice) (h1.setSlice)

theorem WorkFrom.l2Touch {pa write slot fill} (h : WorkFrom w s0 s) : WorkFrom w s0 (l2Touch s pa write slot fill) := by
  unfold Machine.l2Touch
  dsimp only
  split
  · exact h.setSlice.opt (·.hbmRead)
  · split
    · exact (h.setSlice.l2Inject.opt (·.hbmRead)).l2Hit
    · exact ((h.setSlice.l2Inject.opt (·.hbmRead)).opt (·.bumpF)).l2Alloc

theorem WorkFrom.touchRead {slot pa} (h : WorkFrom w s0 s) : WorkFrom w s0 (touchRead s slot pa) := h.l2Touch

theorem WorkFrom.touchDests {slot ds} (h : WorkFrom w s0 s) : WorkFrom w s0 (touchDests s slot ds) := by
  unfold Machine.touchDests
  refine WorkFrom.foldl ?_ fun s x h => ?_
  · exact h
  · split
    · exact h.touchRead
    · exact h.touchRead
    · exact h

theorem WorkFrom.setBel {d b} (h : WorkFrom w s0 s) : WorkFrom w s0 (setBel s d b) := h.upd

theorem WorkFrom.sendNotice {d e} (h : WorkFrom w s0 s) : WorkFrom w s0 (sendNotice s d e) := by
  unfold Machine.sendNotice
  split
  · exact h.raise
  · exact h.ifs (·.errSet) (·.sendReq)
  · exact h.setBel

theorem WorkFrom.notifyWatch {d v status value} (h : WorkFrom w s0 s) : WorkFrom w s0 (notifyWatch s d v status value) :=
  (h.ifs (·.bumpF) (·.bumpF)).ifs (·.sendNotice) (·.setBel)

theorem WorkFrom.endWatch {d v status} (h : WorkFrom w s0 s) : WorkFrom w s0 (endWatch s d v status) := h.setBel.notifyWatch

theorem WorkFrom.entryError {d v} (h : WorkFrom w s0 s) : WorkFrom w s0 (entryError s d v) :=
  h.takeFree.takeFree.setBel.errSet.cardPut.opt (·.notifyWatch)

theorem WorkFrom.belInject {d ws} (h : WorkFrom w s0 s) : WorkFrom w s0 (belInject s d ws) := by
  unfold Machine.belInject
  split
  · exact h
  · exact h.ifs (·.injFire) (·.opt (·.injFire.entryError))

theorem WorkFrom.evalWatches {d sel} (h : WorkFrom w s0 s) : WorkFrom w s0 (evalWatches s d sel) :=
  h.belInject.optElse fun h => (h.foldl fun _ _ h => h.errSet).setBel.foldl fun _ _ h => h.endWatch

theorem WorkFrom.evalLine {pa} (h : WorkFrom w s0 s) : WorkFrom w s0 (evalLine s pa) := h.opt (·.evalWatches)

theorem WorkFrom.endResv {pa own} (h : WorkFrom w s0 s) : WorkFrom w s0 (endResv s pa own) := h.upd

/-- A write to memory. -/
theorem WorkFrom.writes {r : Ram} (h : WorkFrom true s0 s) : WorkFrom true s0 { s with ram := r } :=
  h.trans ⟨rfl, fun _ => rfl, nofun⟩

theorem WorkFrom.clrMark {pa} (h : WorkFrom w s0 s) : WorkFrom w s0 (clrMark s pa) := by
  unfold Machine.clrMark
  extract_lets k st g x s1 r s2
  have h1 : WorkFrom w s0 s1 := h.opt (·.upd)
  have h2 : WorkFrom w s0 s2 := h1.marks rfl
  exact h2.opt (·.upd)

theorem WorkFrom.lineStore {slot pa bytes mark own whole} (h : WorkFrom true s0 s) :
    WorkFrom true s0 (lineStore s slot pa bytes mark own whole) :=
  h.ifs (·.bumpF) fun h => ((h.writes.opt (·.clrMark)).opt (·.setMark)).l2Touch.endResv.evalLine

theorem WorkFrom.lineWrite {slot pa bytes mark own} (h : WorkFrom true s0 s) : WorkFrom true s0 (lineWrite s slot pa bytes mark own) :=
  h.lineStore

theorem WorkFrom.lineWriteN {slot a n v} (h : WorkFrom true s0 s) : WorkFrom true s0 (lineWriteN s slot a n v) := h.lineWrite

theorem WorkFrom.lineAtomic {slot a kind x y} (h : WorkFrom true s0 s) : WorkFrom true s0 (lineAtomic s slot a kind x y).2 := h.lineWriteN

/-! Translation, and accesses by virtual address. -/

theorem WorkFrom.walk {die space va} (h : WorkFrom w s0 s) : WorkFrom w s0 (walk s die space va).2 := by
  unfold Machine.walk
  extract_lets slot act base count s1 seen next
  have h1 : WorkFrom w s0 s1 := h.bumpF
  clear_value slot act base count s1 seen next
  split
  · exact h1.errSet
  · split
    · exact h1
    · exact .ite_2 h1.errSet (.ite_2 h1 (.ite_2 h1 (.ite_2 h1.errSet h1)))

theorem WorkFrom.cachePut {ag e} (h : WorkFrom w s0 s) : WorkFrom w s0 (cachePut s ag e) := h.upd

theorem WorkFrom.cacheParity {die space va} (h : WorkFrom w s0 s) : WorkFrom w s0 (cacheParity s die space va) := h.opt (·.upd.injFire.errSet)

theorem WorkFrom.ownMiss {ag} (h : WorkFrom w s0 s) : WorkFrom w s0 (ownMiss s ag) := h.opt (·.perfCount)

theorem WorkFrom.lookup {ag die space va} (h : WorkFrom w s0 s) : WorkFrom w s0 (lookup s ag die space va).2 := by
  unfold Machine.lookup
  dsimp only
  have h0 : WorkFrom w s0 (if ag = agDie die then Machine.cacheParity s die space va else s) := h.opt (·.cacheParity)
  generalize (if ag = agDie die then Machine.cacheParity s die space va else s) = s1 at h0 ⊢
  split
  · exact h0.cachePut
  · have h1 : WorkFrom w s0 (if ag = agDie die then s1 else Machine.cacheParity (Machine.ownMiss s1 ag) die space va) :=
      h0.optElse (·.ownMiss.cacheParity)
    generalize (if ag = agDie die then s1 else Machine.cacheParity (Machine.ownMiss s1 ag) die space va) = s2 at h1 ⊢
    split
    · exact h1.cachePut.cachePut
    · split
      next e => exact (h1.bumpF.walk.of_pair e).cachePut.cachePut
      · exact h1.bumpF.walk

theorem WorkFrom.translate {ag die space va a host} (h : WorkFrom w s0 s) : WorkFrom w s0 (translate s ag die space va a host).2 := by
  unfold Machine.translate
  refine .ite_2 h (.ite_2 h ?_)
  split
  next e => exact h.lookup.of_pair e
  next e =>
    have hl := h.lookup.of_pair e
    split
    · exact hl
    · exact hl

theorem WorkFrom.translateEach {ag die space a host vas} (h : WorkFrom w s0 s) :
    WorkFrom w s0 (translateEach s ag die space a host vas).2 := by
  induction vas generalizing s with
  | nil => exact h
  | cons va t ih =>
    unfold Machine.translateEach
    split
    next e => exact ih (h.translate.of_pair e)
    next e => exact ih (h.translate.of_pair e)

theorem WorkFrom.mergeWalks {s' ag die space vas} (h : WorkFrom w s0 s) : WorkFrom w s0 (mergeWalks s' s ag die space vas) :=
  h.optElse (·.takeFree.bumpF)

theorem WorkFrom.translateAll {ag die space a host vas} (h : WorkFrom w s0 s) : WorkFrom w s0 (translateAll s ag die space a host vas).2 :=
  h.translateEach.mergeWalks

theorem WorkFrom.countXltFault {die o} (h : WorkFrom w s0 s) : WorkFrom w s0 (countXltFault s die o) := h.optElse (·.bumpF)

theorem WorkFrom.translateRuns {ag die space a host runs} (h : WorkFrom w s0 s) : WorkFrom w s0 (translateRuns s ag die space a host runs).2 :=
  h.translateAll

theorem WorkFrom.askVirt {ag space va k} (h : WorkFrom w s0 s) : WorkFrom w s0 (askVirt s ag space va k).2 := h.optElse (·.sendReq)

theorem WorkFrom.askLines {ag space xs} (h : WorkFrom w s0 s) : WorkFrom w s0 (askLines s ag space xs).2 := by
  fun_induction Machine.askLines s ag space xs with
  | case1 => exact h
  | case2 s l g ord t r s1 e rs s2 e' ih => exact (e' ▸ ih (h.askVirt.of_pair e)).pair
  | case3 s x t hx ih => exact ih h

theorem WorkFrom.readVirt {ag die space va n a} (h : WorkFrom w s0 s) : WorkFrom w s0 (readVirt s ag die space va n a).2 := by
  unfold Machine.readVirt
  have ho := h.translateRuns (ag := ag) (die := die) (space := space) (a := a) (host := false) (runs := [(va, n)])
  generalize Machine.translateRuns s ag die space a false [(va, n)] = o at ho
  dsimp only
  split
  · exact ho.countXltFault
  · split
    · exact ho.askLines
    · exact ho.askLines.touchDests.delReqs

theorem WorkFrom.atomVirt {ag die space va kind x stream} (h : WorkFrom true s0 s) :
    WorkFrom true s0 (atomVirt s ag die space va kind x stream).2 := by
  unfold Machine.atomVirt
  have ho := h.translateAll (ag := ag) (die := die) (space := space) (a := .rmw) (host := false) (vas := [va])
  generalize Machine.translateAll s ag die space .rmw false [va] = o at ho
  dsimp only
  split
  · split
    next e => exact (ho.askVirt.of_pair e).delReqs
    next e => exact ho.askVirt.of_pair e
  · split
    · exact ho
    · exact ho.lineAtomic
  · exact ho.countXltFault

/-- A write outside of transaction groups. -/
theorem WorkFrom.writeVirt {ag die space va bs mark stream owner} (h : WorkFrom true s0 s) :
    WorkFrom true s0 (writeVirt s ag die space va bs mark none stream owner).2 := by
  unfold Machine.writeVirt
  have ho := h.translateRuns (ag := ag) (die := die) (space := space) (a := .write) (host := false) (runs := [(va, bs.length)])
  generalize Machine.translateRuns s ag die space .write false [(va, bs.length)] = o at ho
  dsimp only
  split
  · exact ho.countXltFault
  · refine ho.foldl fun s x h => ?_
    obtain ⟨l, d, ord⟩ := x
    cases d with
    | loc p => exact h.lineWrite
    | mir p g => exact h.lineWrite.sendMir
    | rem g => exact h.sendMir

end Sys2Proof.Laws
end

