-- ==== Sys2Proof/Proofs/Parking.lean ====
section
/-!
PROOF. O22: park requests, park images, abandoned workgroups and holds (R72, R73, R76, R77, R350).
-/
namespace Sys2Proof.Laws
open Sys2Proof.Machine Sys2Proof.Safety

-- Elaborated side by side, so many small lemmas ask for more threads than the memory limit allows.
set_option Elab.async false

/-! Park requests (R72, R77). -/

section
variable {s : State} {n k reason : Nat} {w : Wg}

theorem asked_not_stranded (hr : reason = rPreempt ∨ reason = rMigrate ∨ reason = rDebug) : askedReason reason = true ∧ reason ≠ rStranded := by
  rcases hr with rfl | rfl | rfl <;> exact ⟨rfl, by decide⟩

theorem groupReason_asked (hr : reason = rPreempt ∨ reason = rMigrate ∨ reason = rDebug) {g : Group} (hf : g.fault = none)
    (hp : g.pwaitS = none) : groupReason reason g = reason := by
  unfold groupReason
  rw [hf, hp]
  rcases hr with rfl | rfl | rfl <;> rfl

theorem exec_wgPark (hr : askedReason reason = true) : exec (.wgPark n k reason) s = .next (stopWg s n k reason) := by
  change execWgPark n k reason s = _
  unfold execWgPark
  rw [hr]
  rfl

/-- A park that an agent asks for stops every group with its reason. -/
theorem wgPark_stops (hr : reason = rPreempt ∨ reason = rMigrate ∨ reason = rDebug) (hw : wg? s n k = some w) (hp : w.park = .none)
    (hruns : ∃ p ∈ (tile s n).groupsOf k, p.2.stat ≠ .finished)
    (hfree : ∀ p ∈ (tile s n).groupsOf k, p.2.txg = none ∧ p.2.fault = none ∧ p.2.pwaitS = none) :
    ∃ t, exec (.wgPark n k reason) s = .next t ∧ t.ram = s.ram ∧
      (wg? t n k).map (fun x => (x.park, x.parkReason)) = some (.draining, reason) ∧
      ∀ i g, group? s n i = some g → g.wg = k → ∃ g', group? t n i = some g' ∧ g'.stopped = true ∧ g'.reason = reason ∧ SameCore g g' := by
  have hrest : (tile s n).wgFinished k = false := by
    obtain ⟨p, hmem, hstat⟩ := hruns
    exact List.all_eq_false.2 ⟨p, hmem, by simpa using hstat⟩
  have hunbound : ((tile s n).groupsOf k).any (fun p => p.2.txg.isSome) = false :=
    List.any_eq_false.2 fun p hmem => by simp [(hfree p hmem).1]
  have hstop : stopWg s n k reason = stopNow s n k reason :=
    stopWg_now hw hp (by rw [hrest, Bool.and_false]) (by rw [hunbound, Bool.and_false])
  obtain ⟨hpark, hgroups⟩ := stopNow_spec (reason := reason) hw
  refine ⟨_, exec_wgPark (asked_not_stranded hr).1, stopWg_ram s n k reason, ?_, fun i g hg hgw => ?_⟩
  · rw [hstop, hpark]
    rfl
  · obtain ⟨-, hfault, hwait⟩ := hfree _ (mem_groupsOf hg hgw)
    rw [hstop]
    exact ⟨_, hgroups i g hg hgw, rfl, groupReason_asked hr hfault hwait, rfl, rfl, rfl, rfl, rfl, rfl, rfl, rfl, rfl, rfl, rfl, rfl⟩

/-- After the last group has finished there is nothing to park. -/
theorem wgPark_nothing (hr : reason = rPreempt ∨ reason = rMigrate ∨ reason = rDebug) (hw : wg? s n k = some w) (hp : w.park = .none)
    (hfin : ∀ p ∈ (tile s n).groupsOf k, p.2.stat = .finished) : ∃ t, exec (.wgPark n k reason) s = .next t ∧ t.ram = s.ram ∧
      (tile t n).noPark = (tile s n).noPark ++ [(k, reason)] ∧ (tile t n).groups = (tile s n).groups ∧ wg? t n k = some { w with asked := 0 } := by
  have hall : (tile s n).wgFinished k = true := List.all_eq_true.2 fun p hmem => by simpa using hfin p hmem
  obtain ⟨hasked, -⟩ := asked_not_stranded hr
  have hstop : stopWg s n k reason =
      modWg (modTile s n (fun x => { x with noPark := x.noPark ++ [(k, reason)] })) n k (fun x => { x with asked := 0 }) := by
    unfold stopWg
    rw [hw]
    dsimp only
    rw [hp, hasked, hall]
    rfl
  refine ⟨_, exec_wgPark hasked, stopWg_ram s n k reason, ?_, ?_, ?_⟩
  · rw [hstop, modWg, tile_modTile_same, tile_modTile_same]
  · rw [hstop, modWg, tile_modTile_same, tile_modTile_same]
  · rw [hstop, wg?_modWg_same, wg?, tile_modTile_same]
    exact congrArg (Option.map _) hw

theorem preemptHoldExpire_resident (hw : wg? s n k = some w) : ∃ t, exec (.preemptHoldExpire (.resident n k)) s = .next t ∧
    wg? t n k = some { w with hold := false } ∧ t.ram = s.ram ∧ (tile t n).groups = (tile s n).groups ∧
    ∀ j, j ≠ k → wg? t n j = wg? s n j := by
  refine ⟨modWg s n k (fun x => { x with hold := false }), rfl, ?_, rfl, ?_, fun j hj => wg?_modWg_ne s n _ hj⟩
  · rw [wg?_modWg_same, hw]
    rfl
  · rw [modWg, tile_modTile_same]

end

/-! What accesses to memory leave of the tiles and launches. -/

section
variable {s t u : State} {v : Bool}

theorem WorkFrom.groups (h : WorkFrom v s t) (n : Nat) : (tile t n).groups = (tile s n).groups := by
  have := congrArg Tile.groups (h.tiles n)
  exact this

theorem WorkFrom.wgs (h : WorkFrom v s t) (n : Nat) : (tile t n).wgs = (tile s n).wgs := by
  have := congrArg Tile.wgs (h.tiles n)
  exact this

theorem WorkFrom.group? (h : WorkFrom v s t) (n j : Nat) : group? t n j = group? s n j := congrArg (tget? · j) (h.groups n)
theorem WorkFrom.wg? (h : WorkFrom v s t) (n k : Nat) : wg? t n k = wg? s n k := congrArg (tget? · k) (h.wgs n)

theorem WorkFrom.launch? (h : WorkFrom v s t) (q m : Nat) : launch? t q m = launch? s q m := by
  have hl : t.launches = s.launches := by
    have := congrArg State.launches h.rest
    exact this
  unfold Machine.launch?
  rw [hl]

theorem WorkFrom.sameBytes (h : WorkFrom false s t) : SameBytes s t := by
  have hr := h.reads rfl
  simp only [readable, Prod.mk.injEq] at hr
  obtain ⟨hc, hk, -⟩ := hr
  intro key a
  unfold byteUnder block16 cellAt
  rw [hc, hk]

theorem WorkFrom.qPark (h : WorkFrom false s t) (q : Nat) : qPark t q = qPark s q := by
  have hkeys : t.keys = s.keys := by
    have := congrArg State.keys h.rest
    exact this
  have hr := h.reads rfl
  simp only [readable, Prod.mk.injEq] at hr
  obtain ⟨-, -, hq⟩ := hr
  have hbytes : ∀ kr, byteUnder t.ram kr = byteUnder s.ram kr := fun kr => funext fun a => h.sameBytes kr a
  unfold Machine.qPark qdN rdN readPhys readUnder qdAddr keyId
  rw [hkeys, hq]
  simp only [hbytes]

theorem WorkFrom.parkHeader {ag die space park} (h : WorkFrom v s t) : WorkFrom v s (parkHeader t ag die space park).2.2 := by
  unfold Machine.parkHeader
  split
  next e => exact h.readVirt.of_pair e
  next e => exact h.readVirt.of_pair e

theorem WorkFrom.setSlotBit {ag die space park i stream v} (h : WorkFrom true s t) :
    WorkFrom true s (setSlotBit t ag die space park i stream v).2 := by
  unfold Machine.setSlotBit
  dsimp only
  split
  next e => exact h.atomVirt.of_pair e
  next e => exact h.atomVirt.of_pair e
  next e => exact h.atomVirt.of_pair e

end

/-! PARK_DONE and PARK_SLOT_FREE (R73, R76). -/

section
variable {s s1 s2 : State} {n k : Nat} {w : Wg}

theorem parkDone_writes (hw : wg? s n k = some w) (hp : w.park = .draining) (hd : drained (tile s n) k = true) :
    exec (.parkDone n k) s = .next (writePark s n k) := by
  change execParkDone n k s = _
  unfold execParkDone
  rw [hw]
  dsimp only
  rw [hp, hd]
  rfl

theorem parkDone_waits (hw : wg? s n k = some w) (hp : w.park = .draining) (hd : drained (tile s n) k = false) :
    exec (.parkDone n k) s = .next s := by
  change execParkDone n k s = _
  unfold execParkDone
  rw [hw]
  dsimp only
  rw [hp, hd]
  rfl

theorem parkSlotFree_writes (hw : wg? s n k = some w) (hp : w.park = .noSlot) : exec (.parkSlotFree n k) s = .next (writePark s n k) := by
  change execParkSlotFree n k s = _
  unfold execParkSlotFree
  rw [hw]
  exact congrArg _ (if_pos hp)

variable (hw : wg? s n k = some w) (hslot : w.parkSlot = none) {bs ms : List Nat} {cnt sz : Nat}
include hw hslot

/-- Without a free slot the workgroup waits for one. -/
theorem writePark_noSlot
    (hh : parkHeader s (agTile n) (tileDie n) w.space (qPark s w.launch.queue) = (.got bs ms, some (cnt, sz, none), s1)) :
    (wg? (writePark s n k) n k).map (·.park) = some .noSlot ∧ SameBytes s (writePark s n k) ∧
      (w.park = .draining → (blk (writePark s n k) (pgTile n)).errStat.getLsbD 10 = true) := by
  have hwork : WorkFrom false s s1 := by
    have h := (WorkFrom.refl (w := false) s).parkHeader (ag := agTile n) (die := tileDie n) (space := w.space) (park := qPark s w.launch.queue)
    rwa [hh] at h
  have hwrite : writePark s n k = if w.park = .noSlot then modWg s1 n k (fun x => { x with park := .noSlot })
      else errSet (modWg s1 n k (fun x => { x with park := .noSlot })) (pgTile n) 10 0 := by
    unfold writePark
    rw [hw]
    dsimp only
    rw [hh]
    dsimp only
    rw [hslot]
    rfl
  have hpark : (wg? (modWg s1 n k (fun x => { x with park := .noSlot })) n k).map (·.park) = some .noSlot := by
    rw [wg?_modWg_same, hwork.wg?, hw]
    rfl
  have hbytes : SameBytes s (modWg s1 n k (fun x => { x with park := .noSlot })) := hwork.sameBytes
  rw [hwrite]
  split
  next hno => exact ⟨hpark, hbytes, fun hd => absurd (hno.symm.trans hd) (by decide)⟩
  next =>
    have herr := (WorkFrom.refl (w := false) (modWg s1 n k (fun x => { x with park := .noSlot }))).errSet (pg := pgTile n) (bit := 10) (addr := 0)
    refine ⟨by rw [herr.wg?, hpark], fun key a => (herr.sameBytes key a).trans (hbytes key a), fun _ => errSet_bit _ _ _ (by decide)⟩

end

/-! A workgroup leaves its tile (R73 step 5). -/

/-- Workgroup `k` is not resident on tile `n`, nor is a group of it. -/
def Left (s : State) (n k : Nat) : Prop := wg? s n k = none ∧ ∀ j g, group? s n j = some g → g.wg ≠ k

section
variable {s t : State} {n k : Nat} {w x : Wg}

theorem Left.congr (h : Left s n k) (hw : wg? t n k = wg? s n k) (hg : ∀ j, group? t n j = group? s n j) : Left t n k :=
  ⟨hw.trans h.1, fun j g hj => h.2 j g ((hg j).symm.trans hj)⟩

theorem WorkFrom.left {v : Bool} (h : WorkFrom v s t) (hl : Left s n k) : Left t n k := hl.congr (h.wg? n k) (h.group? n)

theorem releaseWg_left (hx : wg? s n k = some x) : Left (releaseWg s n k) n k := by
  have hx' : tget? (tile s n).wgs k = some x := hx
  unfold releaseWg
  dsimp only
  rw [hx']
  dsimp only
  refine ⟨?_, fun j g hg => ?_⟩
  · rw [wg?, settle, tile_modBlk]
    change tget? (tile (setTile s n _) n).wgs k = none
    rw [tile_setTile_same]
    exact tget?_tdel_same _ _
  · rw [group?, settle, tile_modBlk] at hg
    change tget? (tile (setTile s n _) n).groups j = some g at hg
    rw [tile_setTile_same] at hg
    simpa using (List.mem_filter.1 (mem_of_tget? hg)).2

theorem releaseWg_launches (s : State) (n k : Nat) : (releaseWg s n k).launches = s.launches := by
  unfold releaseWg
  dsimp only
  split <;> rfl

theorem launch?_congr (h : t.launches = s.launches) (q m : Nat) : launch? t q m = launch? s q m := by
  unfold launch?
  rw [h]

theorem WorkFrom.faultEvent {v : Bool} {m : Nat} {wg : Wg} {gs : List Group} {image : Nat} (h : WorkFrom v s t) :
    WorkFrom v s (faultEvent t m wg gs image) := by
  unfold Machine.faultEvent
  split
  · exact h
  · exact h.raise

/-- The launch of a workgroup whose image is written has it parked. -/
theorem parkImage_spec (hx : wg? s n k = some x) (i image : Nat) : Left (parkImage s n k w i image) n k ∧
    ∀ l, launch? s w.launch.queue w.launch.serial = some l →
      ∃ l' p, launch? (parkImage s n k w i image) w.launch.queue w.launch.serial = some l' ∧
        l'.parked = l.parked ++ [p] ∧ p.x = w.x ∧ p.y = w.y ∧ p.z = w.z ∧ p.slot = i ∧ p.image = image := by
  unfold parkImage
  extract_lets gs s1 s2 s3 auto p s4
  have h1 : WorkFrom false s s1 := ((WorkFrom.refl s).bumpF (by decide)).perfCount
  have h3 : WorkFrom false s s3 := (h1.opt (·.errSet)).opt (·.errSet)
  have hx4 : wg? s4 n k = some x := (h3.wg? n k).trans hx
  have hevent := (WorkFrom.refl (w := false) (releaseWg s4 n k)).faultEvent (m := n) (wg := w) (gs := gs) (image := image)
  refine ⟨hevent.left (releaseWg_left hx4), fun l hl => ⟨{ l with parked := l.parked ++ [p] }, p, ?_, rfl, rfl, rfl, rfl, rfl, rfl⟩⟩
  rw [hevent.launch?, launch?_congr (releaseWg_launches s4 n k)]
  unfold s4
  rw [launch?_modLaunch_same s3 _ _ (fun l => { l with parked := l.parked ++ [p] }), h3.launch?, hl]
  rfl

theorem parkSettle_answered {i image : Nat} (hr : parkReqs s n k = []) : parkSettle s n k w i image = parkImage (delReqs s []) n k w i image := by
  unfold parkSettle
  rw [hr]
  rfl

end

/-! The image of a workgroup (R76, R350). -/

section
variable {s s1 s2 : State} {n k : Nat} {w : Wg}

theorem WorkFrom.putImage {t : State} {image : Nat} {bytes : List Nat} (h : WorkFrom true s t) :
    WorkFrom true s (putImage t n k w image bytes) := by
  unfold Machine.putImage
  exact h.writeVirt.foldl fun _ _ h => h.writeVirt

theorem writeImage_fits {sz i : Nat}
    (hlen : (imageBytes w (((tile s n).byIdx k w.g).map (·.2))).length ≤ sz)
    (hfault : (translateRuns s (agTile n) (tileDie n) w.space .write false [(slotAddr (qPark s w.launch.queue) sz i,
      (imageBytes w (((tile s n).byIdx k w.g).map (·.2))).length)]).1.fault = none) :
    writeImage s n k w sz i = parkSettle (putImage (translateRuns s (agTile n) (tileDie n) w.space .write false
        [(slotAddr (qPark s w.launch.queue) sz i, (imageBytes w (((tile s n).byIdx k w.g).map (·.2))).length)]).2 n k w
      (slotAddr (qPark s w.launch.queue) sz i) (imageBytes w (((tile s n).byIdx k w.g).map (·.2)))) n k w i
      (slotAddr (qPark s w.launch.queue) sz i) := by
  unfold writeImage
  dsimp only
  rw [if_neg (not_lt.2 hlen), hfault]

/-- The workgroup once it holds a slot. -/
def slotTaken (s : State) (n k f : Nat) : State := modWg s n k (fun x => { x with parkSlot := some f, park := .draining })

theorem takeSlot_free {sz f : Nat}
    (hv : virtHeld s1 (agTile n) (tileDie n) w.space (slotAddr (qPark s1 w.launch.queue) sz f) (imageSize w.g w.width w.r w.m) .write = false)
    (hset : setSlotBit s1 (agTile n) (tileDie n) w.space (qPark s1 w.launch.queue) f (parkStream s1 n k) true = (.was false, s2)) :
    takeSlot s1 n k w sz f = writeImage (slotTaken s2 n k f) n k w sz f := by
  unfold takeSlot
  dsimp only
  rw [hv, if_neg Bool.false_ne_true, hset, slotTaken]

theorem writePark_takes (hw : wg? s n k = some w) (hslot : w.parkSlot = none) {bs ms : List Nat} {cnt sz f : Nat}
    (hh : parkHeader s (agTile n) (tileDie n) w.space (qPark s w.launch.queue) = (.got bs ms, some (cnt, sz, some f), s1)) :
    writePark s n k = takeSlot s1 n k w sz f := by
  unfold writePark
  rw [hw]
  dsimp only
  rw [hh]
  dsimp only
  rw [hslot]
  rfl

/-- With a free slot that the image fits the workgroup leaves its tile, parked. -/
theorem writePark_parks (hw : wg? s n k = some w) (hslot : w.parkSlot = none) {bs ms : List Nat} {cnt sz f : Nat}
    (hh : parkHeader s (agTile n) (tileDie n) w.space (qPark s w.launch.queue) = (.got bs ms, some (cnt, sz, some f), s1))
    (hv : virtHeld s1 (agTile n) (tileDie n) w.space (slotAddr (qPark s w.launch.queue) sz f) (imageSize w.g w.width w.r w.m) .write = false)
    (hset : setSlotBit s1 (agTile n) (tileDie n) w.space (qPark s w.launch.queue) f (parkStream s1 n k) true = (.was false, s2))
    {bytes : List Nat} {im : Nat} {x : XOut × State} (hb : imageBytes w (((tile (slotTaken s2 n k f) n).byIdx k w.g).map (·.2)) = bytes)
    (hi : slotAddr (qPark (slotTaken s2 n k f) w.launch.queue) sz f = im)
    (hx : translateRuns (slotTaken s2 n k f) (agTile n) (tileDie n) w.space .write false [(im, bytes.length)] = x)
    (hlen : bytes.length ≤ sz) (hfault : x.1.fault = none) (hreqs : parkReqs (putImage x.2 n k w im bytes) n k = []) :
    Left (writePark s n k) n k ∧ ∀ l, launch? s w.launch.queue w.launch.serial = some l →
      ∃ l' p, launch? (writePark s n k) w.launch.queue w.launch.serial = some l' ∧
        l'.parked = l.parked ++ [p] ∧ p.x = w.x ∧ p.y = w.y ∧ p.z = w.z ∧ p.slot = f ∧ p.image = im := by
  have hread : WorkFrom false s s1 := by
    have h := (WorkFrom.refl (w := false) s).parkHeader (ag := agTile n) (die := tileDie n) (space := w.space) (park := qPark s w.launch.queue)
    rwa [hh] at h
  have hbit : WorkFrom true s1 s2 := by
    have h := (WorkFrom.refl s1).setSlotBit (ag := agTile n) (die := tileDie n) (space := w.space) (park := qPark s w.launch.queue) (i := f)
      (stream := parkStream s1 n k) (v := true)
    rwa [hset] at h
  have hput : WorkFrom true (slotTaken s2 n k f) (delReqs (putImage x.2 n k w im bytes) []) :=
    (hx ▸ (WorkFrom.refl (slotTaken s2 n k f)).translateRuns).putImage.delReqs
  have hpark : writePark s n k = parkImage (delReqs (putImage x.2 n k w im bytes) []) n k w f im := by
    rw [← hread.qPark] at hv hset
    subst hb hi hx
    rw [writePark_takes hw hslot hh, takeSlot_free hv hset, writeImage_fits hlen hfault, parkSettle_answered hreqs]
  have hres : wg? (delReqs (putImage x.2 n k w im bytes) []) n k = some { w with parkSlot := some f, park := .draining } := by
    rw [hput.wg?, slotTaken, wg?_modWg_same, hbit.wg?, hread.wg?, hw]
    rfl
  have hlaunch : ∀ q m, launch? (delReqs (putImage x.2 n k w im bytes) []) q m = launch? s q m := fun q m =>
    (hput.launch? q m).trans ((hbit.launch? q m).trans (hread.launch? q m))
  obtain ⟨hleft, hparked⟩ := parkImage_spec (w := w) hres f im
  rw [hpark]
  exact ⟨hleft, fun l hl => hparked l ((hlaunch _ _).trans hl)⟩

end
/-! WG_ABANDON (R76): the workgroup does not come back while the watches of its launch end. -/

section
variable {s t : State} {n k : Nat}

theorem Left.tiles (h : Left s n k) (ht : t.tiles = s.tiles) : Left t n k := h.congr (wg?_congr ht n k) (group?_congr ht n)

theorem Left.modTile {m : Nat} {f : Tile → Tile} (h : Left s n k) (hg : ∀ x, (f x).groups = x.groups := by exact fun _ => rfl)
    (hw : ∀ x, (f x).wgs = x.wgs := by exact fun _ => rfl) : Left (modTile s m f) n k := by
  by_cases hm : n = m
  · subst hm
    exact h.congr (by rw [wg?, tile_modTile_same, hw]; rfl) (fun j => by rw [group?, tile_modTile_same, hg]; rfl)
  · exact h.congr (by rw [wg?, tile_modTile_ne _ _ hm]; rfl) (fun j => by rw [group?, tile_modTile_ne _ _ hm]; rfl)

/-- A group of a workgroup that is there changes. -/
theorem Left.setGroup {m j : Nat} {g g' : Group} (h : Left s n k) (hg : group? s m j = some g) (hw : g'.wg = g.wg) :
    Left (setGroup s m j g') n k := by
  by_cases hm : n = m
  · subst hm
    refine ⟨(wg?_setGroup s n j g' k).trans h.1, fun i x hx => ?_⟩
    by_cases hi : i = j
    · rw [hi, group?_setGroup_same] at hx
      cases hx
      exact hw ▸ h.2 j g hg
    · exact h.2 i x ((group?_setGroup_ne s g' (Or.inr hi)).symm.trans hx)
  · exact h.congr (by rw [wg?, Machine.setGroup, tile_modTile_ne _ _ hm]; rfl) (fun i => by rw [group?, Machine.setGroup, tile_modTile_ne _ _ hm]; rfl)

theorem Left.modGroup {m j : Nat} {f : Group → Group} (h : Left s n k) (hf : ∀ g, (f g).wg = g.wg := by exact fun _ => rfl) :
    Left (modGroup s m j f) n k := by
  refine ⟨?_, fun i x hx => ?_⟩
  · by_cases hm : n = m
    · subst hm
      exact (wg?_modGroup s n j f k).trans h.1
    · rw [wg?, Machine.modGroup, tile_modTile_ne _ _ hm]
      exact h.1
  · rw [group?_modGroup] at hx
    split at hx
    · obtain ⟨g, hg, rfl⟩ := Option.map_eq_some_iff.1 hx
      exact hf g ▸ h.2 i g hg
    · exact h.2 i x hx

theorem Left.modWg {m v : Nat} {f : Wg → Wg} (h : Left s n k) : Left (modWg s m v f) n k := by
  by_cases hm : n = m
  · subst hm
    refine h.congr ?_ (group?_modWg s n v f)
    by_cases hv : k = v
    · subst hv
      rw [wg?_modWg_same, h.1]
      rfl
    · exact wg?_modWg_ne s n f hv
  · exact h.congr (by rw [wg?, Machine.modWg, tile_modTile_ne _ _ hm]; rfl) (fun i => by rw [group?, Machine.modWg, tile_modTile_ne _ _ hm]; rfl)

theorem Left.foldl {α : Type} {f : State → α → State} (h : Left s n k) (hf : ∀ u x, Left u n k → Left (f u x) n k) (xs : List α) :
    Left (xs.foldl f s) n k := foldl_keeps (Left · n k) f hf xs s h

theorem Left.endResvs {m : Nat} {ns : List Nat} (h : Left s n k) : Left (endResvs s m ns) n k := h.tiles rfl

theorem Left.dropOffers {m : Nat} {ns : List Nat} (h : Left s n k) : Left (dropOffers s m ns) n k := h.modTile

theorem Left.stopGroups {m reason : Nat} {gs : List (Nat × Group)} (h : Left s n k) : Left (stopGroups s m gs reason) n k :=
  h.foldl (fun _ _ hu => hu.modGroup) gs

theorem Left.stopWg {m v reason : Nat} (h : Left s n k) : Left (stopWg s m v reason) n k := by
  unfold Machine.stopWg
  split
  · exact h
  · dsimp only
    split
    · refine h.foldl (fun u p hu => ?_) _
      split
      · exact hu.modGroup
      · exact hu
    · split
      · exact h
      · split
        · exact h.modTile.modWg
        · split
          · split
            · exact h.modWg
            · exact h
          · refine Left.modWg (Left.endResvs (Left.dropOffers (Left.stopGroups ?_)))
            split
            · exact h
            · exact h.tiles (unbindForPark_tiles _ s)

theorem Left.pwaitDecide {m j : Nat} (h : Left s n k) : Left (pwaitDecide s m j) n k := by
  unfold Machine.pwaitDecide
  split
  · exact h
  next g hg =>
    split
    · exact h
    · split
      · exact h
      · dsimp only
        split
        next d e _ =>
          split
          · exact (h.tiles (t := takeEnded s d e.w.id) rfl).setGroup hg (by rfl)
          · exact Left.stopWg (h.setGroup hg (by rfl))
        · exact Left.stopWg (h.setGroup hg (by rfl))

theorem Left.settleWaits (h : Left s n k) : Left (settleWaits s) n k := by
  refine h.foldl (fun u x hu => hu.foldl (fun u p hu => ?_) _) _
  split
  · exact hu.pwaitDecide
  · exact hu

theorem WorkFrom.endWatchesOn {d status : Nat} {sel : Watch → Bool} (h : WorkFrom true s t) : WorkFrom true s (endWatchesOn t d sel status).2 :=
  (h.foldl fun _ _ h => h.endWatch).setBel.foldl fun _ _ h => h.notifyWatch

theorem Left.endWatches {status : Nat} {sel : Watch → Bool} (h : Left s n k) : Left (endWatches s sel status).2 n k := by
  unfold Machine.endWatches
  dsimp only
  refine Left.settleWaits (List.foldlRecOn (motive := fun a : Nat × State => Left a.2 n k) _ _ h fun a ha d _ => ?_)
  exact (WorkFrom.refl a.2).endWatchesOn.left ha

theorem Left.dropEnded {sel : Watch → Bool} (h : Left s n k) : Left (dropEnded s sel) n k := by
  unfold Machine.dropEnded
  refine h.foldl (fun u d hu => ?_) _
  exact hu.tiles rfl

theorem Left.launchCheck {q m : Nat} (h : Left s n k) : Left (launchCheck s q m) n k := by
  unfold Machine.launchCheck
  split
  · exact h
  next l _ =>
    split
    · exact h
    · have hends := h.endWatches (sel := fun w => w.ofLaunch l.key) (status := 3)
      generalize Machine.endWatches s (fun w => w.ofLaunch l.key) 3 = ends at hends ⊢
      have hdrop := hends.dropEnded (sel := fun w => w.ofLaunch l.key)
      dsimp only
      generalize Machine.dropEnded ends.2 (fun w => w.ofLaunch l.key) = u at hdrop ⊢
      exact hdrop.tiles rfl

theorem Left.wgEnded {key : LaunchKey} {abandoned : Bool} (h : Left s n k) : Left (wgEnded s key abandoned) n k := by
  unfold Machine.wgEnded
  exact Left.launchCheck (h.tiles rfl)

theorem WorkFrom.freeSlot {ag die space park i stream} (h : WorkFrom true s t) : WorkFrom true s (freeSlot t ag die space park i stream) := by
  have hbit := h.setSlotBit (ag := ag) (die := die) (space := space) (park := park) (i := i) (stream := stream) (v := false)
  unfold Machine.freeSlot
  generalize (Machine.setSlotBit t ag die space park i stream false).2 = u at hbit ⊢
  exact hbit.upd

/-- Giving a park slot back leaves the workgroup resident. -/
theorem dropSlot_resident {w : Wg} (hw : wg? s n k = some w)
    (hheld : ∀ i, w.parkSlot = some i → slotHeld s (agTile n) (tileDie n) w.space (qPark s w.launch.queue) i = false) :
    ∃ u x, dropSlot s n k = (true, u) ∧ wg? u n k = some x := by
  unfold dropSlot
  rw [hw]
  dsimp only
  split
  · exact ⟨s, w, rfl, hw⟩
  next i hi =>
    rw [hheld i hi, if_neg Bool.false_ne_true]
    refine ⟨_, { w with parkSlot := none }, rfl, ?_⟩
    rw [wg?_modWg_same, (WorkFrom.refl _).freeSlot.wg?]
    exact congrArg (Option.map _) hw

theorem wgAbandon_left {w : Wg} (hw : wg? s n k = some w) (hp : w.park = .writeFault)
    (hheld : ∀ i, w.parkSlot = some i → slotHeld s (agTile n) (tileDie n) w.space (qPark s w.launch.queue) i = false) :
    ∃ t, exec (.wgAbandon n k) s = .next t ∧ Left t n k := by
  obtain ⟨u, x, hdrop, hx⟩ := dropSlot_resident hw hheld
  refine ⟨wgEnded (releaseWg u n k) w.launch true, ?_, (releaseWg_left hx).wgEnded⟩
  change execWgAbandon n k s = _
  unfold execWgAbandon
  rw [hw]
  dsimp only
  rw [hp, hdrop]
  rfl

end

/-- Settles O22: a park stops the groups at once, and an image that a slot takes lets the workgroup leave its tile. -/
theorem parkingStopsDrainsAndWrites : Obligations.ParkingStopsDrainsAndWrites := by
  unfold Obligations.ParkingStopsDrainsAndWrites
  refine ⟨fun s n k reason w hr hw hp hruns hfree => wgPark_stops hr hw hp hruns hfree,
    fun s n k reason w hr hw hp hfin => wgPark_nothing hr hw hp hfin, fun s n k w hw => ⟨fun hp hd => parkDone_waits hw hp hd, ?_,
      fun hp hheld => wgAbandon_left hw hp hheld, preemptHoldExpire_resident hw⟩⟩
  extract_lets park ag die does
  have hdoes : ∀ i, exec i s = .next (writePark s n k) → does i := by
    intro i hi hslot
    refine ⟨fun bs ms cnt sz s1 hh => ⟨_, hi, writePark_noSlot hw hslot hh⟩, fun bs ms cnt sz f s1 s2 hh _ hv hset => ?_⟩
    intro s3 bytes im x hlen hfault hreqs
    obtain ⟨⟨hgone, hgroups⟩, hparked⟩ := writePark_parks hw hslot hh hv hset rfl rfl rfl hlen hfault hreqs
    exact ⟨_, hi, hgone, hgroups, hparked⟩
  exact ⟨fun hp hd => hdoes _ (parkDone_writes hw hp hd), fun hp => hdoes _ (parkSlotFree_writes hw hp)⟩

end Sys2Proof.Laws
end

