-- ==== Sys2Proof/Proofs/BundleCode.lean ====
section
/-!
PROOF. O57: a bundle's slots and header fields lie apart in its 128 bits, and each decodes as encoded (R86, R99, R100, R106, R111).
-/
namespace Sys2Proof.Laws
open Sys2Proof.Machine Sys2Proof.Safety

/-! Fields and signed offsets. -/

theorem bits_eq_div (n hi lo : Nat) : bits n hi lo = n / 2 ^ lo % 2 ^ (hi + 1 - lo) := by
  rw [bits, Nat.shiftRight_eq_div_pow]

theorem encI_lt (w : Nat) (i : Int) : encI w i < 2 ^ w := by
  have h : 0 < ((2 ^ w : Nat) : Int) := by exact_mod_cast Nat.two_pow_pos w
  have := Int.emod_lt_of_pos i h
  have := Int.emod_nonneg i h.ne'
  unfold encI wrap
  omega

/-- A signed field that fits reads back as written, whatever stands above it. -/
theorem sext_encI {w : Nat} (k : Nat) {i : Int} (hw : 0 < w) (h : fitsI w i = true) : sext w (k * 2 ^ w + encI w i) = i := by
  have hlt := encI_lt w i
  obtain ⟨m, rfl⟩ := Nat.exists_eq_succ_of_ne_zero hw.ne'
  have hpow : (2 ^ (m + 1) : Nat) = 2 * 2 ^ m := by rw [pow_succ]; omega
  simp only [fitsI, Bool.and_eq_true, decide_eq_true_eq, Nat.succ_eq_add_one, Nat.add_sub_cancel] at h
  obtain ⟨hlo, hhi⟩ := h
  have hmod : (k * 2 ^ (m + 1) + encI (m + 1) i) % 2 ^ (m + 1) = encI (m + 1) i := by
    rw [Nat.mul_add_mod_self_right, Nat.mod_eq_of_lt hlt]
  simp only [Nat.succ_eq_add_one, sext, hmod, Nat.add_sub_cancel]
  unfold encI wrap
  rw [hpow]
  generalize (2 ^ m : Nat) = p at *
  rcases lt_or_ge i 0 with hi | hi
  · have : i % ((2 * p : Nat) : Int) = i + (2 * p : Nat) := by
      rw [← Int.add_emod_right]
      exact Int.emod_eq_of_lt (by omega) (by omega)
    rw [this]
    split <;> omega
  · have : i % ((2 * p : Nat) : Int) = i := Int.emod_eq_of_lt hi (by omega)
    rw [this]
    split <;> omega

/-- The operation code of a control operation (R99). -/
def copCode : COp → Nat
  | .bra _ => 0x01
  | .brCond _ _ _ => 0x02
  | .brp _ _ _ => 0x03
  | .call _ _ => 0x04
  | .jmpr _ => 0x05
  | .split _ _ _ => 0x06
  | .join => 0x07
  | .loop _ => 0x08
  | .brk _ => 0x09
  | .exit => 0x0A
  | .bar => 0x0B
  | .trap _ => 0x0C
  | .waitle _ _ => 0x0D
  | .rdlic _ => 0x0E
  | .rdstep _ => 0x0F
  | .ualu op _ _ _ => op
  | .ualui op _ _ _ => op
  | .umovi _ _ => 0x27
  | .movl _ => 0x28
  | .movl64 _ => 0x29
  | .pmov _ _ => 0x2A
  | .smovp _ _ => 0x2B
  | .plog op _ _ _ => op
  | .pnot _ _ => 0x2F

/-- The operation code of a C slot stands above 22 bits of fields. -/
theorem encC_code {c : COp} (h : copFits c = true) : encC c / 2 ^ 22 = copCode c ∧ copCode c < 2 ^ 6 := by
  cases c with
  | bra o => have := encI_lt 22 o; simp only [encC, copCode]; omega
  | brCond s c o => have := encI_lt 14 o; simp [copFits] at h; simp only [encC, copCode]; omega
  | brp p m o => have := encI_lt 17 o; simp [copFits] at h; simp only [encC, copCode]; omega
  | call d o => have := encI_lt 17 o; simp [copFits] at h; simp only [encC, copCode]; omega
  | join | exit | bar => decide
  | _ => simp [copFits] at h; simp only [encC, copCode]; omega

theorem encC_lt {c : COp} (h : copFits c = true) : encC c < 2 ^ 28 := by
  have := encC_code h
  omega

theorem encC_bits_code {c : COp} (h : copFits c = true) : bits (encC c) 27 22 = copCode c := by
  have := encC_code h
  rw [bits_eq_div]
  omega

/-- The codes of an interval stand for one operation each (R99): the C slot decodes by its fields. -/
theorem decC_ualu {w : Nat} (hlo : 0x10 ≤ bits w 27 22) (hhi : bits w 27 22 ≤ 0x1B) :
    decC w = zeroed (bits w 6 0) (.ualu (bits w 27 22) (bits w 21 17) (bits w 16 12) (bits w 11 7)) := by
  unfold decC
  iterate 15 rw [if_neg (by omega)]
  rw [if_pos (by simp [hlo, hhi])]

theorem decC_ualui {w : Nat} (hlo : 0x20 ≤ bits w 27 22) (hhi : bits w 27 22 ≤ 0x26) :
    decC w = some (.ualui (bits w 27 22) (bits w 21 17) (bits w 16 12) (bits w 11 0)) := by
  unfold decC
  iterate 15 rw [if_neg (by omega)]
  rw [if_neg (by simp; omega), if_pos (by simp [hlo, hhi])]

theorem decC_plog {w : Nat} (hlo : 0x2C ≤ bits w 27 22) (hhi : bits w 27 22 ≤ 0x2E) :
    decC w = zeroed (bits w 12 0) (.plog (bits w 27 22) (bits w 21 19) (bits w 18 16) (bits w 15 13)) := by
  unfold decC
  iterate 15 rw [if_neg (by omega)]
  rw [if_neg (by simp; omega), if_neg (by simp; omega)]
  iterate 5 rw [if_neg (by omega)]
  rw [if_pos (by simp [hlo, hhi])]

theorem decC_encC {c : COp} (h : copFits c = true) : decC (encC c) = some c := by
  have hop := encC_bits_code h
  cases c with
  | bra o =>
    have hw : encC (.bra o) = 0x01 * 2 ^ 22 + encI 22 o := rfl
    have hoff : sext 22 (encC (.bra o)) = o := by rw [hw, sext_encI _ (by decide) h]
    simp [decC, hop, copCode, hoff]
  | brCond s c o =>
    have := encI_lt 14 o
    simp only [copFits, Bool.and_eq_true, decide_eq_true_eq] at h
    obtain ⟨⟨hs, hc⟩, ho⟩ := h
    have hw : encC (.brCond s c o) = (0x02 * 2 ^ 8 + s * 2 ^ 3 + c) * 2 ^ 14 + encI 14 o := by simp only [encC]; omega
    have hoff : sext 14 (encC (.brCond s c o)) = o := by rw [hw, sext_encI _ (by decide) ho]
    simp [decC, hop, copCode, hoff]
    simp only [hw, bits_eq_div]
    omega
  | brp p m o =>
    have := encI_lt 17 o
    simp only [copFits, Bool.and_eq_true, decide_eq_true_eq] at h
    obtain ⟨⟨hp, hm⟩, ho⟩ := h
    have hw : encC (.brp p m o) = (0x03 * 2 ^ 5 + p * 2 ^ 2 + m) * 2 ^ 17 + encI 17 o := by simp only [encC]; omega
    have hoff : sext 17 (encC (.brp p m o)) = o := by rw [hw, sext_encI _ (by decide) ho]
    simp [decC, hop, copCode, hoff]
    simp only [hw, bits_eq_div]
    omega
  | call d o =>
    have := encI_lt 17 o
    simp only [copFits, Bool.and_eq_true, decide_eq_true_eq] at h
    obtain ⟨hd, ho⟩ := h
    have hw : encC (.call d o) = (0x04 * 2 ^ 5 + d) * 2 ^ 17 + encI 17 o := by simp only [encC]; omega
    have hoff : sext 17 (encC (.call d o)) = o := by rw [hw, sext_encI _ (by decide) ho]
    simp [decC, hop, copCode, hoff]
    simp only [hw, bits_eq_div]
    omega
  | join | exit | bar => decide
  | ualu op d a b =>
    simp only [copFits, Bool.and_eq_true, decide_eq_true_eq] at h
    obtain ⟨⟨⟨⟨hlo, hhi⟩, hd⟩, ha⟩, hb⟩ := h
    rw [decC_ualu (by rw [hop]; exact hlo) (by rw [hop]; exact hhi), hop]
    simp [zeroed, copCode]
    simp only [encC, bits_eq_div]
    omega
  | ualui op d a i =>
    simp only [copFits, Bool.and_eq_true, decide_eq_true_eq] at h
    obtain ⟨⟨⟨⟨hlo, hhi⟩, hd⟩, ha⟩, hi⟩ := h
    rw [decC_ualui (by rw [hop]; exact hlo) (by rw [hop]; exact hhi), hop]
    simp [copCode]
    simp only [encC, bits_eq_div]
    omega
  | plog op d a b =>
    simp only [copFits, Bool.and_eq_true, decide_eq_true_eq] at h
    obtain ⟨⟨⟨⟨hlo, hhi⟩, hd⟩, ha⟩, hb⟩ := h
    rw [decC_plog (by rw [hop]; exact hlo) (by rw [hop]; exact hhi), hop]
    simp [zeroed, copCode]
    simp only [encC, bits_eq_div]
    omega
  | _ =>
    simp only [copFits, Bool.and_eq_true, decide_eq_true_eq] at h
    simp [decC, hop, copCode, zeroed]
    simp only [encC, bits_eq_div]
    omega

theorem encV_lt {v : VOp} (h : vopFits v = true) : encV v < 2 ^ 28 := by
  cases v <;> (simp [vopFits] at h; simp only [encV]; omega)

theorem decV_encV {v : VOp} (h : vopFits v = true) : decV (encV v) = some v := by
  cases v with
  | vr op d a b =>
    simp only [vopFits, Bool.and_eq_true, decide_eq_true_eq] at h
    have hform : bits (encV (.vr op d a b)) 27 27 = 0 := by simp only [encV, bits_eq_div]; omega
    simp [decV, hform]
    simp only [encV, bits_eq_div]
    omega
  | vx op x d a =>
    simp only [vopFits, Bool.and_eq_true, decide_eq_true_eq] at h
    have hform : bits (encV (.vx op x d a)) 27 27 = 1 := by simp only [encV, bits_eq_div]; omega
    simp [decV, hform]
    simp only [encV, bits_eq_div]
    omega

theorem encM_lt {m : MOp} (h : mopFits m = true) : encM m < 2 ^ 28 := by
  simp [mopFits] at h
  unfold encM
  omega

theorem decM_encM {m : MOp} (h : mopFits m = true) : decM (encM m) = m := by
  simp [mopFits] at h
  cases m
  simp only [decM, encM, bits_eq_div, MOp.mk.injEq] at h ⊢
  omega

theorem encA_lt {a : AOp} (h : aopFits a = true) : encA a < 2 ^ 28 := by
  simp [aopFits] at h
  unfold encA
  omega

theorem decA_encA {a : AOp} (h : aopFits a = true) : decA (encA a) = some a := by
  simp [aopFits] at h
  cases a
  simp only [decA, encA, zeroed, bits_eq_div] at h ⊢
  rw [if_pos (by omega), Option.some_inj, AOp.mk.injEq]
  omega

/-- The word of a slot, 0 when it is absent (R86). -/
def slotWord {α : Type} (enc : α → Nat) (x : Option α) : Nat := (x.map enc).getD 0

theorem slotWord_lt {α : Type} {enc : α → Nat} {fits : α → Bool} {x : Option α} (henc : ∀ {a}, fits a = true → enc a < 2 ^ 28)
    (h : x.all fits = true) : slotWord enc x < 2 ^ 28 := by
  cases x with
  | none => exact Nat.two_pow_pos 28
  | some a => exact henc h

/-- A slot decodes as encoded: present with its operation, or absent. -/
theorem slotOf_slotWord {α : Type} {enc : α → Nat} {dec : Nat → Option α} {fits : α → Bool} {x : Option α}
    (hdec : ∀ {a}, fits a = true → dec (enc a) = some a) (h : x.all fits = true) : slotOf x.isSome (dec (slotWord enc x)) = some x := by
  cases x with
  | none => rfl
  | some a => exact congrArg (Option.map some) (hdec h)

/-- The bits of a bundle, field by field (R86): the header's wait field, the presence of the slots and the yield bit, then the four
slots. -/
structure Layout (raw wait : Nat) (pc pv pm pa yield : Bool) (c v m a : Nat) : Prop where
  wait_eq  : bits raw 127 122 = wait
  has_c    : raw.testBit 121 = pc
  has_v    : raw.testBit 120 = pv
  has_m    : raw.testBit 119 = pm
  has_a    : raw.testBit 118 = pa
  yield_eq : raw.testBit 117 = yield
  unused   : bits raw 116 112 = 0
  c_word   : bits raw 111 84 = c
  v_word   : bits raw 83 56 = v
  m_word   : bits raw 55 28 = m
  a_word   : bits raw 27 0 = a
  lt       : raw < 2 ^ 128

theorem testBit_eq_of_div {n i : Nat} {b : Bool} (h : n / 2 ^ i % 2 = b.toNat) : n.testBit i = b := by
  rw [Nat.testBit_eq_decide_div_mod_eq, h]
  cases b <;> rfl

theorem layout_of_sum {wait c v m a : Nat} (pc pv pm pa yield : Bool) (hw : wait < 64) (hc : c < 2 ^ 28) (hv : v < 2 ^ 28) (hm : m < 2 ^ 28)
    (ha : a < 2 ^ 28) : Layout (wait * 2 ^ 122 + pc.toNat * 2 ^ 121 + pv.toNat * 2 ^ 120 + pm.toNat * 2 ^ 119 + pa.toNat * 2 ^ 118 +
      yield.toNat * 2 ^ 117 + c * 2 ^ 84 + v * 2 ^ 56 + m * 2 ^ 28 + a) wait pc pv pm pa yield c v m a := by
  have := pc.toNat_le
  have := pv.toNat_le
  have := pm.toNat_le
  have := pa.toNat_le
  have := yield.toNat_le
  constructor
  case has_c | has_v | has_m | has_a | yield_eq => apply testBit_eq_of_div; omega
  case lt => omega
  all_goals rw [bits_eq_div]; omega

theorem encBundle_layout {b : Bundle} (h : bundleFits b = true) : Layout (encBundle b) b.wait b.c.isSome b.v.isSome b.m.isSome b.a.isSome
    b.yield (slotWord encC b.c) (slotWord encV b.v) (slotWord encM b.m) (slotWord encA b.a) := by
  simp only [bundleFits, Bool.and_eq_true, decide_eq_true_eq] at h
  obtain ⟨⟨⟨⟨hw, hc⟩, hv⟩, hm⟩, ha⟩ := h
  have hflag : ∀ (p : Bool) (k : Nat), (if p then 2 ^ k else 0) = p.toNat * 2 ^ k := by intro p k; cases p <;> simp
  have := layout_of_sum b.c.isSome b.v.isSome b.m.isSome b.a.isSome b.yield hw (slotWord_lt encC_lt hc) (slotWord_lt encV_lt hv)
    (slotWord_lt encM_lt hm) (slotWord_lt encA_lt ha)
  unfold encBundle
  simp only [hflag]
  exact this

/-- Settles O57: the fields of the layout are the bundle's, and each slot decodes as encoded. -/
theorem bundlesDecodeAsEncoded : Obligations.BundlesDecodeAsEncoded := by
  unfold Obligations.BundlesDecodeAsEncoded
  intro b lit h
  obtain ⟨hwait, hpc, hpv, hpm, hpa, hy, hz, hc, hv, hm, ha, hlt⟩ := encBundle_layout h
  simp only [bundleFits, Bool.and_eq_true, decide_eq_true_eq] at h
  obtain ⟨⟨⟨⟨-, fc⟩, fv⟩, fm⟩, fa⟩ := h
  refine ⟨hlt, ?_⟩
  unfold decBundle
  rw [hz, hpc, hpv, hpm, hpa, hc, hv, hm, ha, hy, hwait, slotOf_slotWord decC_encC fc, slotOf_slotWord decV_encV fv,
    slotOf_slotWord (dec := fun w => some (decM w)) (fun h => congrArg some (decM_encM h)) fm, slotOf_slotWord decA_encA fa]
  rfl

end Sys2Proof.Laws
end

