-- ==== Sys2Proof/Proofs/ControlSlot.lean ====
section
/-!
PROOF. O1, O2, O3: the control slot's operations on uniform and predicate registers, and its branches (R65, R92, R99).
-/
namespace Sys2Proof.Laws
open Sys2Proof.Machine Sys2Proof.Safety

/-! Signed values. -/

theorem toInt_ofNat_eq_sext (w n : Nat) (hw : 0 < w) : (BitVec.ofNat w n).toInt = sext w n := by
  obtain ⟨m, rfl⟩ := Nat.exists_eq_succ_of_ne_zero hw.ne'
  have hpow : (2 ^ (m + 1) : Nat) = 2 * 2 ^ m := by rw [pow_succ]; omega
  simp only [Nat.succ_eq_add_one, BitVec.toInt_eq_toNat_cond, BitVec.toNat_ofNat, sext, Nat.add_sub_cancel]
  rw [hpow]
  split <;> split <;> first | rfl | omega

theorem toNat_ofInt_eq_wrap (w : Nat) (i : Int) : (BitVec.ofInt w i).toNat = wrap w i := by
  simp [wrap, BitVec.toNat_ofInt]

theorem wrap_toInt_eq_signExtend {v : Nat} (w : Nat) (x : BitVec v) : wrap w x.toInt = (x.signExtend w).toNat := by
  rw [BitVec.signExtend, toNat_ofInt_eq_wrap]

theorem toInt_eq_sext {w : Nat} (x : BitVec w) (hw : 0 < w) : x.toInt = sext w x.toNat := by
  rw [← toInt_ofNat_eq_sext _ _ hw, BitVec.ofNat_toNat, BitVec.setWidth_eq]

/-! What the operations of two registers give (R99). -/

theorem aluOp_sub {a b : Nat} (hb : b < 2 ^ 64) : aluOp 0x11 a b = (a + (2 ^ 64 - b)) % 2 ^ 64 := by
  simp only [aluOp, wrap]
  omega

theorem aluOp_shl (a b : Nat) : aluOp 0x16 a b = a * 2 ^ (b % 64) % 2 ^ 64 := by
  simp only [aluOp, Nat.shiftLeft_eq]

theorem aluOp_shr (a b : Nat) : aluOp 0x17 a b = a / 2 ^ (b % 64) := by
  simp only [aluOp, Nat.shiftRight_eq_div_pow]

theorem aluOp_sar (a b : Nat) : aluOp 0x18 a b = ((BitVec.ofNat 64 a).sshiftRight (b % 64)).toNat := by
  simp only [aluOp, BitVec.sshiftRight, toInt_ofNat_eq_sext 64 a (by decide), toNat_ofInt_eq_wrap]

theorem slt_ofNat_iff (a b : Nat) : (BitVec.ofNat 64 a).slt (BitVec.ofNat 64 b) = true ↔ sext 64 a < sext 64 b := by
  rw [BitVec.slt_iff_toInt_lt, toInt_ofNat_eq_sext 64 a (by decide), toInt_ofNat_eq_sext 64 b (by decide)]

theorem aluOp_minS (a b : Nat) : aluOp 0x19 a b = if (BitVec.ofNat 64 a).slt (BitVec.ofNat 64 b) then a else b := by
  simp only [aluOp, slt_ofNat_iff]

theorem aluOp_maxS (a b : Nat) : aluOp 0x1A a b = if (BitVec.ofNat 64 a).slt (BitVec.ofNat 64 b) then b else a := by
  simp only [aluOp, slt_ofNat_iff]

section
variable {s : State} {r : GRef} {g : Group} {i : Instr} {sd sa sb : BitVec 5} {imm : BitVec 12} {op n v v' : Nat}

theorem uniformResult_congr (h : UniformResult s r g i n sd v) (hv : v % 2 ^ 64 = v' % 2 ^ 64) : UniformResult s r g i n sd v' := by
  unfold UniformResult at h ⊢
  rwa [← hv]

theorem ualu_result (h : MayIssue s r g) (hi : exec i s = issueC s r (.ualu op sd.toNat sa.toNat sb.toNat) 0 0)
    (hv : aluOp op (g.uget sa.toNat) (g.uget sb.toNat) % 2 ^ 64 = v % 2 ^ 64) : UniformResult s r g i 16 sd v := by
  obtain ⟨_, hres⟩ := uniform_result h (.ualu op sd.toNat sa.toNat sb.toNat) 0 0 hi
    (fun _ => aluOp op (g.uget sa.toNat) (g.uget sb.toNat)) (cBundle_legal _) rfl rfl (fun _ _ => rfl)
  exact uniformResult_congr hres hv

theorem ualui_result (h : MayIssue s r g) (hi : exec i s = issueC s r (.ualui op sd.toNat sa.toNat imm.toNat) 0 0)
    (hv : aluImm op (g.uget sa.toNat) imm.toNat % 2 ^ 64 = v % 2 ^ 64) : UniformResult s r g i 16 sd v := by
  obtain ⟨_, hres⟩ := uniform_result h (.ualui op sd.toNat sa.toNat imm.toNat) 0 0 hi
    (fun _ => aluImm op (g.uget sa.toNat) imm.toNat) (cBundle_legal _) rfl rfl (fun _ _ => rfl)
  exact uniformResult_congr hres hv

end

/-- The literal words of a bundle that holds them (R90). -/
theorem cBundle_lits (c : COp) (l0 l1 : BitVec 32) :
    (cBundle c l0.toNat l1.toNat).l0 = l0.toNat ∧ (cBundle c l0.toNat l1.toNat).l1 = l1.toNat := by
  have := l0.isLt
  have := l1.isLt
  simp only [mkBundle, Bundle.l0, Bundle.l1, bits_eq_div]
  omega

theorem cBundle_legal_lit {c : COp} (l0 l1 : BitVec 32) (h : c.legal = true) : (cBundle c l0.toNat l1.toNat).legal = true := by
  have := l0.isLt
  have := l1.isLt
  have hlit : (l0.toNat + 2 ^ 32 * l1.toNat) / 2 ^ 64 = 0 := by omega
  simp only [mkBundle, Bundle.legal, hlit]
  cases c <;> simpa [disjoint, Bundle.usesLitV] using h

/-- Settles O1: each operation by the value that `cExec` gives it. -/
theorem uniformArithmetic : Obligations.UniformArithmetic := by
  unfold Obligations.UniformArithmetic
  intro s r g sd sa sb imm imm17 l0 l1 h a b i k
  have hb : b < 2 ^ 64 := uget_lt g sb.toNat
  have hi : wrap 64 (sext 12 imm.toNat) = i := by rw [← toInt_eq_sext imm (by decide), wrap_toInt_eq_signExtend]
  refine ⟨?add, ?sub, ?mul, ?and, ?or, ?xor, ?shl, ?shr, ?sar, ?minS, ?maxS, ?minU, ?addi, ?andi, ?ori, ?xori, ?shli, ?shri, ?sari,
    ?movi, ?movl, ?movl64, ?step⟩
  case add | mul => exact ualu_result h rfl (Nat.mod_mod _ _)
  case sub => exact ualu_result h rfl (by rw [aluOp_sub hb, Nat.mod_mod])
  case and | or | xor | minU => exact ualu_result h rfl rfl
  case shl => exact ualu_result h rfl (by rw [aluOp_shl, Nat.mod_mod])
  case shr => exact ualu_result h rfl (by rw [aluOp_shr])
  case sar => exact ualu_result h rfl (by rw [aluOp_sar])
  case minS => exact ualu_result h rfl (by rw [aluOp_minS])
  case maxS => exact ualu_result h rfl (by rw [aluOp_maxS])
  case addi => exact ualui_result h rfl (by simp only [aluImm, hi]; exact Nat.mod_mod _ _)
  case andi | ori | xori => exact ualui_result h rfl (by simp only [aluImm, hi]; rfl)
  case shli => exact ualui_result h rfl (by simp only [aluImm, aluOp_shl]; exact Nat.mod_mod _ _)
  case shri => exact ualui_result h rfl (by simp only [aluImm, aluOp_shr]; rfl)
  case sari => exact ualui_result h rfl (by simp only [aluImm, aluOp_sar]; rfl)
  case movi =>
    obtain ⟨_, hres⟩ := uniform_result h (i := .umovi r sd imm17) (.umovi sd.toNat imm17.toNat) 0 0 rfl (fun _ => wrap 64 (sext 17 imm17.toNat))
      (cBundle_legal _) rfl rfl (fun _ _ => rfl)
    rwa [← toInt_eq_sext imm17 (by decide), wrap_toInt_eq_signExtend] at hres
  case movl =>
    obtain ⟨h0, -⟩ := cBundle_lits (.movl sd.toNat) l0 0
    obtain ⟨_, hres⟩ := uniform_result h (i := .movl r sd l0) (sd := sd) (.movl sd.toNat) l0.toNat 0 rfl (fun _ => l0.toNat)
      (cBundle_legal_lit (c := .movl sd.toNat) l0 0 rfl) rfl rfl (fun _ _ => congrArg (Group.uput _ _) h0)
    exact hres
  case movl64 =>
    obtain ⟨h0, h1⟩ := cBundle_lits (.movl64 sd.toNat) l0 l1
    obtain ⟨_, hres⟩ := uniform_result h (i := .movl64 r sd l0 l1) (sd := sd) (.movl64 sd.toNat) l0.toNat l1.toNat rfl (fun _ => l0.toNat + 2 ^ 32 * l1.toNat)
      (cBundle_legal_lit (c := .movl64 sd.toNat) l0 l1 rfl) rfl rfl (fun _ _ => by simp only [cExec, h0, h1])
    exact hres
  case step =>
    obtain ⟨_, hres⟩ := uniform_result h (i := .rdstep r sd) (.rdstep sd.toNat) 0 0 rfl
      (fun _ => ((blk s (pgTile r.tile)).steps + 1) % 2 ^ 64) (cBundle_legal _) rfl rfl (fun _ _ => rfl)
    exact hres

/-! Predicates (R92). -/

theorem and_add_ldiff (a b : Nat) : (a &&& b) + Nat.ldiff a b = a := by
  induction a using Nat.binaryRec generalizing b with
  | zero => rw [Nat.zero_and]; exact Nat.eq_of_testBit_eq fun i => by simp [Nat.testBit_ldiff]
  | bit x m ih =>
    obtain ⟨y, n, rfl⟩ : ∃ y n, b = Nat.bit y n := ⟨b.bodd, b.div2, (Nat.bit_bodd_div2 b).symm⟩
    have hn := ih n
    rw [Nat.land_bit, Nat.ldiff_bit]
    cases x <;> cases y <;> simp [Nat.bit_val] <;> omega

theorem andNot_eq_ldiff (a b : Nat) : andNot a b = Nat.ldiff a b := Nat.sub_eq_of_eq_add' (and_add_ldiff a b).symm

theorem andNot_testBit (a b i : Nat) : (andNot a b).testBit i = (a.testBit i && !b.testBit i) := by
  rw [andNot_eq_ldiff, Nat.testBit_ldiff]

/-- A mask of 64 bits without the lanes of another. -/
theorem andNot_eq_and_compl {a b : Nat} (ha : a < 2 ^ 64) (hb : b < 2 ^ 64) : andNot a b = a &&& (2 ^ 64 - 1 - b) := by
  have hcompl : 2 ^ 64 - 1 - b = 2 ^ 64 - (b + 1) := by omega
  apply Nat.eq_of_testBit_eq
  intro i
  rw [andNot_testBit, hcompl, Nat.testBit_and, Nat.testBit_two_pow_sub_succ hb]
  by_cases hi : i < 64
  · simp [hi]
  · have := Nat.testBit_lt_two_pow (lt_of_lt_of_le ha (Nat.pow_le_pow_right (by decide) (Nat.le_of_not_lt hi)))
    simp [this]

theorem andNot_all {b : Nat} (hb : b < 2 ^ 64) : andNot (maskAll 64) b = 2 ^ 64 - 1 - b := by
  rw [andNot_eq_and_compl (by decide) hb, maskAll, Nat.and_comm, Nat.and_two_pow_sub_one_eq_mod]
  omega

/-- Settles O2: each operation by the value that `cExec` gives it. -/
theorem predicateOperations : Obligations.PredicateOperations := by
  unfold Obligations.PredicateOperations
  intro s r g sd sa pd pa pb k n h a b
  have ha : a < 2 ^ 64 := pget_lt g pa.toNat
  have hb : b < 2 ^ 64 := pget_lt g pb.toNat
  refine ⟨?mov, ?and, ?or, ?andn, ?not, ?smov, ?lic, fun hk hn => ?wait⟩
  case mov => exact predicate_result h (.pmov pd.toNat sa.toNat) rfl _ (cBundle_legal _) rfl rfl (fun _ _ => rfl)
  case and => exact predicate_result h (.plog 0x2C pd.toNat pa.toNat pb.toNat) rfl _ (cBundle_legal _) rfl rfl (fun _ _ => rfl)
  case or => exact predicate_result h (.plog 0x2D pd.toNat pa.toNat pb.toNat) rfl _ (cBundle_legal _) rfl rfl (fun _ _ => rfl)
  case andn =>
    rw [← andNot_eq_and_compl ha hb]
    exact predicate_result h (.plog 0x2E pd.toNat pa.toNat pb.toNat) rfl _ (cBundle_legal _) rfl rfl (fun _ _ => rfl)
  case not =>
    rw [← andNot_all ha]
    exact predicate_result h (.pnot pd.toNat pa.toNat) rfl _ (cBundle_legal _) rfl rfl (fun _ _ => rfl)
  case smov =>
    obtain ⟨_, hres⟩ := uniform_result h (i := .smovp r sd pa) (sd := sd) (.smovp sd.toNat pa.toNat) 0 0 rfl (fun _ => a)
      (cBundle_legal _) rfl rfl (fun _ _ => rfl)
    exact hres
  case lic =>
    exact uniform_result h (i := .rdlic r sd) (.rdlic sd.toNat) 0 0 rfl (fun lic => lic) (cBundle_legal _) rfl rfl (fun _ _ => rfl)
  case wait =>
    refine goes_to h (.waitle k.toNat n.toNat) rfl _ ((cBundle_legal _).trans (decide_eq_true hk)) rfl (fun k' m hkm => ?_) (fun _ => rfl)
    cases hkm
    exact hn

/-! Branches (R99). -/

theorem jumpTo_eq (pc : Nat) (off : Int) : jumpTo pc off = (((pc : Int) + 16 * off) % 2 ^ 64).toNat := rfl

section
variable {s : State} {r : GRef} {g : Group} {i : Instr} {c : COp}

/-- A branch goes to its target when it is taken, and else on to the next bundle. -/
theorem branch_goes (h : MayIssue s r g) (hi : exec i s = issueC s r c 0 0) (hl : c.legal = true) (hf : cFault (noWait g) c = none)
    (taken : Bool) (off : Int)
    (hc : ∀ lic steps b next, cExec lic steps b (noWait g) (noWait g) next c =
      if taken then { noWait g with pc := jumpTo g.pc off } else { noWait g with pc := next })
    (hb16 : (cBundle c 0 0).bytes = 16 := by rfl) (hw : ∀ k m, c ≠ .waitle k m := by simp) (hb : c ≠ .bar := by simp) (he : c ≠ .exit := by simp) :
    GoesTo s r g i (if taken then (((g.pc : Int) + 16 * off) % 2 ^ 64).toNat else (g.pc + 16) % 2 ^ 64) := by
  refine goes_to h c hi _ ((cBundle_legal c).trans hl) hf (fun k m e => absurd e (hw k m)) (fun lic => ?_) hb he
  rw [cAfter, hc, hb16, jumpTo_eq]
  split <;> rfl

end

/-- Settles O3: each branch by the address that `cExec` gives it; the misaligned JMPR faults by its check. -/
theorem branchesMoveTheGroup : Obligations.BranchesMoveTheGroup := by
  unfold Obligations.BranchesMoveTheGroup
  intro s r g sr sd p h
  refine ⟨fun off => ?bra, fun cond off hc => ?cond, fun mode off hm => ?mode, fun off => ?call, fun ha => ?jmpr, fun ha => ?align⟩
  case bra => exact branch_goes (c := .bra off.toInt) h rfl rfl rfl true off.toInt (fun _ _ _ _ => rfl)
  case cond =>
    intro x meets
    have hx : x = sext 64 (g.uget sr.toNat) := toInt_ofNat_eq_sext 64 _ (by decide)
    have hmeets : brCond cond.toNat (g.uget sr.toNat) = meets := by
      simp only [meets, hx, brCond]
      generalize cond.toNat = k at hc
      rw [Bool.eq_iff_iff]
      interval_cases k <;> simp
    exact branch_goes (c := .brCond sr.toNat cond.toNat off.toInt) h rfl (decide_eq_true hc) rfl meets off.toInt
      (fun _ _ _ _ => by rw [← hmeets]; rfl)
  case mode =>
    intro set meets
    have hset : Nat.land g.active (g.pget p.toNat) = set := rfl
    have hmeets : brpCond mode.toNat g.active (g.pget p.toNat) = meets := by
      simp only [meets, brpCond, hset]
      generalize mode.toNat = k at hm
      rw [Bool.eq_iff_iff]
      interval_cases k <;> simp
    exact branch_goes (c := .brp p.toNat mode.toNat off.toInt) h rfl (decide_eq_true hm) rfl meets off.toInt
      (fun _ _ _ _ => by rw [← hmeets]; rfl)
  case call =>
    obtain ⟨t, lic, hx, hg, honly⟩ := issueC_next h (.call sd.toNat off.toInt) 0 0 (cBundle_legal _) rfl (by simp) (by simp) (by simp)
      (fun _ => by change g.stat ≠ .finished; simp [h.runs])
    refine ⟨t, _, hx, hg, rfl, ?_, ?_, rfl, rfl, ⟨rfl, rfl, rfl, rfl, rfl, rfl⟩, honly⟩
    · exact (uget_uput _ _ _ _).trans ((if_pos rfl).trans (Nat.mod_mod _ _))
    · exact fun k hk => (uget_uput _ _ _ _).trans (if_neg hk)
  case jmpr =>
    refine goes_to h (.jmpr sr.toNat) rfl _ (cBundle_legal _) ?_ (by simp) (fun _ => rfl)
    exact if_neg (not_not.2 ha)
  case align =>
    obtain ⟨t, g', f, hx, hg, hf, hcode, -, hcore, -⟩ := faultsWith_control (i := .jmpr r sr) (c := .jmpr sr.toNat) h rfl rfl (if_pos ha)
    obtain ⟨hu, hv, hp, hpc, -⟩ := hcore
    exact ⟨t, g', hx, hg, by rw [hf, ← hcode]; rfl, hpc, hu, hv, hp⟩

end Sys2Proof.Laws
end

