-- ==== Sys2Proof/Proofs/VectorInteger.lean ====
section
/-!
PROOF. O7: the integer and bitwise operations of the vector slot; what the fields of a vector operation come to (R89 to R93).
-/
namespace Sys2Proof.Laws
open Sys2Proof.Machine Sys2Proof.Safety

/-! The fields of a vector operation. -/

theorem vsrc_eq_source (g : Group) (a : BitVec 8) (lit : BitVec 32) (l : Nat) : (noWait g).vsrc lit.toNat a.toNat l = source g a lit l := by
  rw [Group.vsrc, source, BitVec.ofNat_toNat, BitVec.setWidth_eq]
  rfl

theorem regs_inFile {g : Group} {rs : List Nat} (h : ∀ x ∈ rs, x = 0xFF ∨ x < g.r) :
    (rs.any fun x => decide (x ≠ 0xFF) && decide (x ≥ g.r)) = false := by
  refine List.any_eq_false.2 fun x hx => ?_
  have := h x hx
  simp only [Bool.and_eq_true, decide_eq_true_eq]
  omega

/-- A bundle of one vector operation takes 32 bytes exactly when one of its sources is the literal (R91). -/
theorem vBundle_bytes {v : VOp} {as : List (BitVec 8)} (lit : Nat) (h : v.srcs = as.map BitVec.toNat) : (vBundle v lit).bytes = bundleBytes as := by
  have hlit : (vBundle v lit).usesLit = as.any (fun a => a.toNat == 0xFF) := by
    change (false || v.usesLit) = _
    rw [Bool.false_or, VOp.usesLit, h, List.any_map]
    rfl
  rw [Bundle.bytes, hlit]
  rfl

section
variable {s : State} {r : GRef} {g : Group} {i : Instr} {v : VOp} {as : List (BitVec 8)} {d a b : BitVec 8} {lit : BitVec 32} {f : Nat → Word}
  {op x : Nat}

/-- A destination that names a register or discards, and the sources: the registers of the operation lie in the file. -/
theorem vop_inFile (hsrc : v.srcs = as.map BitVec.toNat) (hdst : v.dField = d.toNat) (hd : inFile g d) (has : ∀ a ∈ as, inFile g a) :
    ((v.regs).any fun x => decide (x ≠ 0xFF) && decide (x ≥ g.r)) = false := by
  refine regs_inFile fun x hx => ?_
  rcases List.mem_append.1 hx with hx | hx
  · split at hx
    · rw [List.mem_singleton.1 hx, hdst]
      exact hd
    · exact absurd hx (List.not_mem_nil)
  · rw [hsrc] at hx
    obtain ⟨a, ha, rfl⟩ := List.mem_map.1 hx
    exact has a ha

/-- A vector operation by its fields: sources `as`, destination `d`, and what a lane of it computes. -/
theorem vector_result_of_fields (h : MayIssue s r g) (hi : exec i s = issueV s r v lit.toNat) (hsrc : v.srcs = as.map BitVec.toNat)
    (hdst : v.dField = d.toNat) (hd : inFile g d) (has : ∀ a ∈ as, inFile g a) (hl : v.legal = true) (hu : v.usesTx = false)
    (hv : ∀ S, vExec S r.tile (noWait g) lit.toNat v =
      ((if d.toNat = 0xFF then ({} : VRes) else { v := g.lanes.map (fun l => (d.toNat, l, (f l).toNat)) }), S)) :
    VectorResult s r g i (bundleBytes as) d f :=
  vector_result h v lit hi f hl (vop_inFile hsrc hdst hd has) (vBundle_bytes lit.toNat hsrc) hu hv

/-- The literal as the destination is no source: with the destination a register, reading it takes no literal bundle. -/
theorem bundleBytes_reg (hd : d.toNat ≠ 0xFF) (as : List (BitVec 8)) : bundleBytes (d :: as) = bundleBytes as := by
  simp [bundleBytes, hd]

/-- An operation of form VR (R101). -/
theorem vr_result (h : MayIssue s r g) (hi : exec i s = issueV s r (.vr op d.toNat a.toNat b.toNat) lit.toNat) (hd : inFile g d) (ha : inFile g a)
    (hb : inFile g b) (hread : op = 0 ∨ op = 1 → d.toNat ≠ 0xFF)
    (hf : ∀ l, vrLane op (g.vget d.toNat l) (source g a lit l) (source g b lit l) = f l) : VectorResult s r g i (bundleBytes [a, b]) d f := by
  have hv : ∀ S, vExec S r.tile (noWait g) lit.toNat (.vr op d.toNat a.toNat b.toNat) =
      ((if d.toNat = 0xFF then ({} : VRes) else { v := g.lanes.map (fun l => (d.toNat, l, (f l).toNat)) }), S) := by
    intro S
    simp only [vExec, vsrc_eq_source, ← hf]
    split <;> rfl
  have hl : (VOp.vr op d.toNat a.toNat b.toNat).legal = true := by
    simp only [VOp.legal, Bool.not_eq_true', Bool.and_eq_false_iff, Bool.or_eq_false_iff, decide_eq_false_iff_not]
    tauto
  by_cases hop : op = 0 ∨ op = 1
  · rw [← bundleBytes_reg (hread hop)]
    exact vector_result_of_fields h hi (by simp only [VOp.srcs]; rcases hop with rfl | rfl <;> rfl) rfl hd (by simp [hd, ha, hb]) hl rfl hv
  · exact vector_result_of_fields h hi (by simp [VOp.srcs, hop]) rfl hd (by simp [ha, hb]) hl rfl hv

/-- What a lane-wise operation of form VX writes, where `f` is what it computes of a lane. -/
def laneWrites (g : Group) (d : Nat) (f : Nat → Word) : VRes := if d = 0xFF then {} else { v := g.lanes.map (fun l => (d, l, (f l).toNat)) }

/-- An operation of form VX that reads its destination (R102). -/
theorem vx_result_reading (h : MayIssue s r g) (hi : exec i s = issueV s r (.vx op x d.toNat a.toNat) lit.toNat) (hd : inFile g d) (ha : inFile g a)
    (hr : d.toNat ≠ 0xFF) (hsrc : (VOp.vx op x d.toNat a.toNat).srcs = [d.toNat, a.toNat]) (hl : (VOp.vx op x d.toNat a.toNat).legal = true)
    (hu : isTrans op = false)
    (hv : ∀ S, vExec S r.tile (noWait g) lit.toNat (.vx op x d.toNat a.toNat) = (laneWrites g d.toNat f, S)) :
    VectorResult s r g i (bundleBytes [a]) d f := by
  rw [← bundleBytes_reg hr]
  exact vector_result_of_fields h hi hsrc rfl hd (by simp [hd, ha]) hl hu hv

/-- An operation of form VX that reads A alone (R102). -/
theorem vx_result (h : MayIssue s r g) (hi : exec i s = issueV s r (.vx op x d.toNat a.toNat) lit.toNat) (hd : inFile g d) (ha : inFile g a)
    (hsrc : (VOp.vx op x d.toNat a.toNat).srcs = [a.toNat]) (hl : (VOp.vx op x d.toNat a.toNat).legal = true) (hu : isTrans op = false)
    (hv : ∀ S, vExec S r.tile (noWait g) lit.toNat (.vx op x d.toNat a.toNat) = (laneWrites g d.toNat f, S)) :
    VectorResult s r g i (bundleBytes [a]) d f :=
  vector_result_of_fields h hi hsrc rfl hd (by simp [ha]) hl hu hv

/-- The lane-wise operations that compute from D and A (R102), codes 0x00 to 0x0B. -/
theorem vx_lane_result (h : MayIssue s r g) (hi : exec i s = issueV s r (.vx op 0 d.toNat a.toNat) lit.toNat) (hd : inFile g d) (ha : inFile g a)
    (hr : d.toNat ≠ 0xFF) (hop : op ≤ 0x0B) (hf : ∀ l, vxLane op (g.vget d.toNat l) (source g a lit l) = f l) :
    VectorResult s r g i (bundleBytes [a]) d f := by
  refine vx_result_reading h hi hd ha hr ?_ ?_ ?_ fun S => ?_
  · interval_cases op <;> rfl
  · simp [VOp.legal, hop, hr]
  · interval_cases op <;> rfl
  · have hv : vExec S r.tile (noWait g) lit.toNat (.vx op 0 d.toNat a.toNat) =
        (laneWrites g d.toNat (fun l => vxLane op (if d.toNat = 0xFF then 0 else g.vget d.toNat l) ((noWait g).vsrc lit.toNat a.toNat l)), S) := by
      interval_cases op <;> rfl
    rw [hv]
    simp only [if_neg hr, vsrc_eq_source, hf]

end

/-- Settles O7: each operation by what `vExec` computes of a lane. -/
theorem vectorIntegerOperations : Obligations.VectorIntegerOperations := by
  unfold Obligations.VectorIntegerOperations
  intro s r g d a b lit h hd ha hb x y o n
  have hx : x = (noWait g).vsrc lit.toNat a.toNat := funext fun l => (vsrc_eq_source g a lit l).symm
  refine ⟨?add, ?sub, ?mul, ?mov, ?abs, ?neg, fun hr => ⟨?minS, ?maxS, ?minU, ?maxU, ?and, ?or, ?xor, ?shl, ?shr, ?sar⟩⟩
  case add | sub | mul => exact vr_result h rfl hd ha hb (by simp) fun _ => rfl
  case mov | abs | neg => exact vx_result h rfl hd ha rfl rfl rfl fun S => by rw [hx]; rfl
  case minS | maxS =>
    refine vx_lane_result h rfl hd ha hr (by decide) fun l => ?_
    simp only [vxLane, BitVec.slt_iff_toInt_lt]
    rfl
  case minU | maxU =>
    refine vx_lane_result h rfl hd ha hr (by decide) fun l => ?_
    simp only [vxLane, BitVec.ult_iff_toNat_lt]
    rfl
  case and | or | xor | shl | shr | sar => exact vx_lane_result h rfl hd ha hr (by decide) fun _ => rfl

end Sys2Proof.Laws
end

