-- ==== Sys2Proof/Proofs/BundleApply.lean ====
section
/-!
SUPPORT. A bundle without a control and an array operation that no check refuses: the state that applying it leaves (R88, R89).
-/
namespace Sys2Proof.Laws
open Sys2Proof.Machine Sys2Proof.Safety

section
variable {s u : State} {r : GRef} {g g1 : Group} {b : Bundle} {vr : VRes}

theorem group?_roundOne (h : MayIssue s r g) : group? (roundOne s r.tile r.slot) r.tile r.slot = some (noWait g) := by
  rw [roundOne_here, h.here]
  rfl

/-- No detector of the register file is armed in the step in which the group issues (R525). -/
theorem regfileRead_unarmed (h : MayIssue s r g) (b : Bundle) :
    regfileRead (roundOne s r.tile r.slot) r.tile r.slot b = (false, roundOne s r.tile r.slot) := by
  obtain ⟨-, -, hpage⟩ := ticked s r
  have hinj : ∀ d, injects (roundOne s r.tile r.slot) (pgTile r.tile) d = false := by
    intro d
    rw [injects, hpage]
    simp [h.unarmed]
  unfold regfileRead
  simp only [hinj]
  split <;> rfl

/-- A ready bundle that no check refuses is applied, and a park that waits for its group may then start. -/
theorem issueOne_applies (h : MayIssue s r g) (hr : bundleReady (roundOne s r.tile r.slot) r.tile r.slot (noWait g) b = true)
    (hn : bundleFault (noWait g) b = none) (ha : b.a = none) :
    issueOne s r b = parkAsked (applyBundle (roundOne s r.tile r.slot) r.tile r.slot (noWait g) b 0) r.tile g.wg := by
  unfold issueOne issueBundle
  simp only [group?_roundOne h, hr, hn, regfileRead_unarmed h, ha, if_true]
  rfl

/-- The group that a bundle without a control operation leaves, from the group as its memory slot has left it and what its vector slot
writes. -/
def bundleAfter (g g1 : Group) (b : Bundle) (vr : VRes) : Group :=
  (Group.takeV { g1 with pc := (g.pc + b.bytes) % 2 ^ 64 } vr).issued g.nextId b.raw

theorem vputs_keep {β : Type} (k : Group → β) (hk : ∀ g i l w, k (Group.vput g i l w) = k g) (ws : List (Nat × Nat × Nat)) :
    ∀ g : Group, k (g.vputs ws) = k g := by
  induction ws with
  | nil => exact fun _ => rfl
  | cons w ws ih => exact fun g => (ih _).trans (hk _ _ _ _)

theorem foldl_keep {α β γ : Type} (k : β → γ) (f : β → α → β) (hk : ∀ b a, k (f b a) = k b) (as : List α) : ∀ b, k (as.foldl f b) = k b := by
  induction as with
  | nil => exact fun _ => rfl
  | cons a as ih => exact fun b => (ih _).trans (hk _ _)

/-- The vector slot leaves the status of its group. -/
theorem takeV_stat (g : Group) (vr : VRes) : (g.takeV vr).stat = g.stat := by
  have hp := foldl_keep Group.stat (fun g (p : Nat × Nat) => g.pput p.1 p.2) (fun _ _ => rfl)
  have hu := foldl_keep Group.stat (fun g (p : Nat × Nat) => g.uput p.1 p.2) (fun _ _ => rfl)
  have hv := vputs_keep Group.stat (fun _ _ _ _ => rfl)
  unfold Group.takeV
  split
  · exact (hp _ _).trans ((hu _ _).trans (hv _ _))
  · exact (hp _ _).trans ((hu _ _).trans (hv _ _))

theorem wg?_placeGroup (g g' : Group) (b : Bundle) (w : Nat) : wg? (placeGroup u r.tile r.slot g g' b) r.tile w = wg? u r.tile w := by
  obtain ⟨-, -, -, -, -, hwgs, -⟩ := placeGroup_spec u r.tile r.slot g g' b
  rw [wg?, hwgs, wg?]

/-- A group that runs evaluates no barrier. -/
theorem atBarrier_running (hc : b.c = none) (hstat : g1.stat = .run) : atBarrier b (bundleAfter g g1 b vr) = false := by
  have hs : (bundleAfter g g1 b vr).stat = .run := (takeV_stat _ _).trans hstat
  rw [atBarrier, hs, hc]
  rfl

/-- The record that a bundle without control and array operation places is `bundleAfter`. -/
theorem issued_eq_bundleAfter (S u : State) (t : Nat) (hc : b.c = none) (ha : b.a = none) :
    (((ctlPart S u t b (noWait g) g1).takeV vr).takeA b.a 0).issued (noWait g).nextId b.raw = bundleAfter g g1 b vr := by
  rw [ctlPart, hc, ha]
  rfl

/-- The vector slot acts, and the group's record goes back into its tile. -/
theorem applyBundle_vector (h : MayIssue s r g) {v : VOp} {lit : Nat}
    (hv : vExec (roundOne s r.tile r.slot) r.tile (noWait g) (vBundle v lit).l1 v = (vr, u)) :
    applyBundle (roundOne s r.tile r.slot) r.tile r.slot (noWait g) (vBundle v lit) 0 =
      placeGroup u r.tile r.slot (noWait g) (bundleAfter g (noWait g) (vBundle v lit) vr) (vBundle v lit) := by
  unfold applyBundle
  rw [early_none h]
  simp only [show (vBundle v lit).m = none from rfl, show (vBundle v lit).v = some v from rfl, group?_roundOne h, hv]
  rw [issued_eq_bundleAfter _ _ _ rfl rfl, atBarrier_running (g1 := noWait g) rfl h.runs]
  rfl

/-- The bundle of one memory operation. -/
abbrev mBundle (m : MOp) : Bundle := mkBundle none none (some m) none 0 0

/-- The memory slot acts, and the group's record, as it stands then, goes back into its tile. -/
theorem applyBundle_memory (h : MayIssue s r g) {m : MOp} (hm : mExec (roundOne s r.tile r.slot) r.tile r.slot (noWait g) m = .ok u)
    (hg1 : group? u r.tile r.slot = some g1) (hstat : g1.stat = .run) :
    applyBundle (roundOne s r.tile r.slot) r.tile r.slot (noWait g) (mBundle m) 0 =
      placeGroup u r.tile r.slot (noWait g) (bundleAfter g g1 (mBundle m) {}) (mBundle m) := by
  unfold applyBundle
  rw [early_none h]
  simp only [show (mBundle m).m = some m from rfl, show (mBundle m).v = none from rfl, hm, hg1]
  rw [issued_eq_bundleAfter _ _ _ rfl rfl, atBarrier_running rfl hstat]
  rfl

/-- No park of the group's workgroup waits in a state whose workgroups are those at issue. -/
theorem parkAsked_placeGroup {g' : Group} (hw : ∀ w, wg? u r.tile g.wg = some w → w.asked = 0) :
    parkAsked (placeGroup u r.tile r.slot (noWait g) g' b) r.tile g.wg = placeGroup u r.tile r.slot (noWait g) g' b := by
  refine parkAsked_none fun w hw' => hw w ?_
  rwa [wg?_placeGroup] at hw'

/-! The vector slot with draws of a noise source. -/

/-- A state that differs from another in the free values taken and in the fallback generator of one page's noise source (R162). -/
structure Drawn (s u : State) (pg : Nat) : Prop where
  rest  : elsewhere u = elsewhere s
  pages : ∀ p, p ≠ pg → blk u p = blk s p
  page  : ∃ x, blk u pg = { blk s pg with noiseGen := x }
  tiles : u.tiles = s.tiles

theorem Drawn.refl (s : State) (pg : Nat) : Drawn s s pg := ⟨rfl, fun _ _ => rfl, ⟨(blk s pg).noiseGen, rfl⟩, rfl⟩

theorem Drawn.trans {s u v : State} {pg : Nat} (h : Drawn s u pg) (k : Drawn u v pg) : Drawn s v pg := by
  obtain ⟨x, hx⟩ := h.page
  obtain ⟨y, hy⟩ := k.page
  exact ⟨k.rest.trans h.rest, fun p hp => (k.pages p hp).trans (h.pages p hp), ⟨y, by rw [hy, hx]⟩, k.tiles.trans h.tiles⟩

/-- Placing the record in a state of the step in which the group issues alone leaves all but the group alone. -/
theorem onlyGroup_placeGroup (h : Drawn (roundOne s r.tile r.slot) u (pgTile r.tile)) (g' : Group) (b : Bundle) :
    OnlyGroup s (placeGroup u r.tile r.slot (noWait g) g' b) r := by
  obtain ⟨-, prest, ppages, ptiles, pgroups, pwgs, -⟩ := placeGroup_spec u r.tile r.slot (noWait g) g' b
  obtain ⟨krest, kpages, kpage⟩ := ticked s r
  obtain ⟨x, hx⟩ := h.page
  have hpage := (ppages (pgTile r.tile)).trans (hx.trans (by rw [kpage]))
  refine ⟨prest.trans (h.rest.trans krest), fun pg hp => (ppages pg).trans ((h.pages pg hp).trans (kpages pg hp)), ?_, ?_, fun n hn => ?_,
    fun n hn => ?_, ?_⟩
  · rw [hpage]; exact ⟨rfl, rfl, rfl⟩
  · rw [hpage]
  · rw [ptiles n hn, tile_congr h.tiles, roundOne_tile_ne s _ hn]
  · rw [SameGroup, pgroups n hn, group?_congr h.tiles]
    exact roundOne_same s r.tile r.slot n
  · rw [pwgs, tile_congr h.tiles, roundOne_wgs]

/-- A vector operation that no check refuses and that draws from the tile's noise source. -/
theorem issueV_drawn (h : MayIssue s r g) (v : VOp) (lit : BitVec 32) (hl : v.legal = true)
    (hr : ((v.regs).any fun x => decide (x ≠ 0xFF) && decide (x ≥ g.r)) = false) (hu : v.usesTx = true → (tile s r.tile).txBusy ≤ 1)
    (hv : vExec (roundOne s r.tile r.slot) r.tile (noWait g) lit.toNat v = (vr, u)) (hd : Drawn (roundOne s r.tile r.slot) u (pgTile r.tile)) :
    ∃ t, issueV s r v lit.toNat = .next t ∧ group? t r.tile r.slot = some (bundleAfter g (noWait g) (vBundle v lit.toNat) vr) ∧ OnlyGroup s t r := by
  have hn : bundleFault (noWait g) (vBundle v lit.toNat) = none := by
    have hrange : (vBundle v lit.toNat).regRange (noWait g).r = false := (Bool.or_false _).trans hr
    rw [bundleFault, vBundle_legal v lit hl, hrange]
    rfl
  have hask : ∀ w, wg? u r.tile g.wg = some w → w.asked = 0 := by
    intro w hw
    refine h.unasked w ?_
    rwa [wg?_congr hd.tiles, wg?, roundOne_wgs] at hw
  refine ⟨_, congrArg Host.Outcome.next ((issueOne_applies h (ready_v h v lit.toNat hu) hn rfl).trans ?_), ?_,
    onlyGroup_placeGroup (g := g) hd (bundleAfter g (noWait g) (vBundle v lit.toNat) vr) (vBundle v lit.toNat)⟩
  · rw [applyBundle_vector h ((congrArg (fun l => vExec _ _ _ l v) (vBundle_l1 v lit)).trans hv), parkAsked_placeGroup hask]
  · exact (placeGroup_spec u r.tile r.slot (noWait g) _ _).1

end

end Sys2Proof.Laws
end

