-- ==== Sys2Proof/Proofs/VectorFloat.lean ====
section
/-!
PROOF. O8: FP32 and BF16 arithmetic of the vector slot, conversions, and the draws of a stochastic rounding (R101 to R105, R161).
-/
namespace Sys2Proof.Laws
open Sys2Proof.Machine Sys2Proof.Safety

/-! Draws of a noise source (R161 to R163). -/

section
variable {s : State} {pg : Nat}

theorem Drawn.injArm {u : State} (h : Drawn s u pg) : (blk u pg).injArm = (blk s pg).injArm := by
  obtain ⟨x, hx⟩ := h.page
  rw [hx]

theorem noiseWindow_unarmed (h : (blk s pg).injArm = false) : noiseWindow s pg = s := by
  simp [noiseWindow, injects, h]

theorem drawNoise_drawn (h : (blk s pg).injArm = false) : Drawn s (drawNoise s pg).2 pg := by
  unfold drawNoise
  rw [noiseWindow_unarmed h]
  dsimp only
  split
  · exact Drawn.refl s pg
  · split
    · exact ⟨rfl, fun p hp => blk_modBlk_ne s _ hp, ⟨_, blk_modBlk_same s pg _⟩, rfl⟩
    · exact ⟨rfl, fun _ _ => rfl, ⟨(blk s pg).noiseGen, rfl⟩, rfl⟩

theorem drawMany_drawn (n : Nat) : ∀ {s : State}, (blk s pg).injArm = false → Drawn s (drawMany s pg n).2 pg := by
  induction n with
  | zero => exact fun _ => Drawn.refl _ pg
  | succ n ih =>
    intro s h
    have hone := drawNoise_drawn h
    exact hone.trans (ih (hone.injArm.trans h))

theorem drawMany_length (n : Nat) : ∀ s : State, (drawMany s pg n).1.length = n := by
  induction n with
  | zero => exact fun _ => rfl
  | succ n ih => exact fun s => congrArg (· + 1) (ih _)

/-- A fixed source gives VALUE at every draw. -/
theorem drawMany_fixed (h : (blk s pg).injArm = false) (hf : regF s pg 0x0F0 16 16 = 1) (n : Nat) :
    drawMany s pg n = (List.replicate n (regF s pg 0x0F0 15 0), s) := by
  have hone : drawNoise s pg = (regF s pg 0x0F0 15 0, s) := by
    unfold drawNoise
    rw [noiseWindow_unarmed h]
    exact if_pos hf
  induction n with
  | zero => rfl
  | succ n ih =>
    rw [drawMany, hone]
    simp only [ih, List.replicate_succ]

end

/-- The draw of a lane, where the draws stand in the order of the lanes. -/
def drawOf (ls rs : List Nat) (l : Nat) : Nat := rs.getD (ls.idxOf l) 0

/-- Each lane with its draw, in order. -/
theorem zip_draws {ls rs : List Nat} (hn : ls.Nodup) (hlen : ls.length ≤ rs.length) : ls.zip rs = ls.map (fun l => (l, drawOf ls rs l)) := by
  refine List.ext_getElem (by simp [hlen]) fun i h1 h2 => ?_
  have hi : i < ls.length := by simpa using h2
  rw [List.getElem_zip, List.getElem_map, drawOf, hn.idxOf_getElem i hi, List.getD_eq_getElem _ _ (hi.trans_le hlen)]

theorem zip_replicate_append (ls rest : List Nat) (c : Nat) : ls.zip (List.replicate ls.length c ++ rest) = ls.map (fun l => (l, c)) := by
  refine List.ext_getElem (by simp) fun i h1 h2 => ?_
  have hi : i < ls.length := by simpa using h2
  rw [List.getElem_zip, List.getElem_map, List.getElem_append_left (by simpa using hi), List.getElem_replicate]

theorem lanes_nodup (g : Group) : g.lanes.Nodup := List.nodup_range.filter _

section
variable {s t : State} {r : GRef} {g : Group} {i : Instr} {b : Bundle} {d : BitVec 8} {f : Nat → Word} {ls : List Nat}

/-- What the vector writes of one register leave of a group. -/
theorem bundleAfter_writes (g : Group) (b : Bundle) (d : Nat) (f : Nat → Word) (hls : ∀ l ∈ ls, l < 64) :
    let g' := bundleAfter g (noWait g) b { v := ls.map (fun l => (d, l, (f l).toNat)) }
    (∀ k l, l < 64 → g'.vget k l = if k = d ∧ l ∈ ls then f l else g.vget k l) ∧ g'.u = g.u ∧ g'.p = g.p ∧ SameMasks g g' ∧ Advances g g' b.bytes := by
  obtain ⟨hu, hp, hpc, hlive, hactive, hstack, harr, hstat, hfault⟩ :=
    vputs_same (ls.map (fun l => (d, l, (f l).toNat))) { noWait g with pc := (g.pc + b.bytes) % 2 ^ 64 }
  exact ⟨fun k l hl => vget_vputs d f ls hls _ k l hl, hu, hp, ⟨hlive, hactive, hstack, harr, hstat, hfault⟩, hpc⟩

theorem vectorResult_of_writes (hw : g.width ≤ 64) (hi : exec i s = .next t)
    (hg : group? t r.tile r.slot = some (bundleAfter g (noWait g) b (laneWrites g d.toNat f))) (ht : OnlyGroup s t r) :
    VectorResult s r g i b.bytes d f := by
  by_cases hd : d.toNat = 0xFF
  · rw [laneWrites, if_pos hd] at hg
    exact ⟨t, _, hi, hg, fun k l _ => by simp [hd]; rfl, rfl, rfl, ⟨rfl, rfl, rfl, rfl, rfl, rfl⟩, rfl, ht⟩
  · rw [laneWrites, if_neg hd] at hg
    obtain ⟨hv, hu, hp, hmasks, hadv⟩ := bundleAfter_writes g b d.toNat f (lanes_lt hw)
    exact ⟨t, _, hi, hg, fun k l hl => by simpa [hd] using hv k l hl, hu, hp, hmasks, hadv, ht⟩

end

section
variable {s : State} {r : GRef} {g : Group} {i : Instr} {d a : BitVec 8} {lit : BitVec 32} {x op : Nat}

/-- What a conversion computes of its lanes from the list of their draws. -/
theorem vExec_cvt (S : State) (hop : isCvt op = true) {rs : List Nat} {u : State}
    (hr : (if op = 0x22 then drawMany S (pgTile r.tile) g.lanes.length else ([], S)) = (rs, u)) {draw : Nat → Nat}
    (hz : g.lanes.zip (rs ++ List.replicate g.lanes.length 0) = g.lanes.map (fun l => (l, draw l))) :
    vExec S r.tile (noWait g) lit.toNat (.vx op x d.toNat a.toNat) = (laneWrites g d.toNat (fun l => cvtLane op x (source g a lit l) (draw l)), u) := by
  have hlanes : (noWait g).lanes = g.lanes := rfl
  have hcodes : isCmp op = false ∧ op ≠ 0x16 ∧ op ≠ 0x18 ∧ op ≠ 0x19 ∧ op ≠ 0x1A ∧ op ≠ 0x1B ∧ op ≠ 0x1C ∧ op ≠ 0x1D := by
    simp only [isCvt, Bool.and_eq_true, decide_eq_true_eq] at hop
    simp only [isCmp, Bool.and_eq_false_iff, decide_eq_false_iff_not]
    omega
  obtain ⟨h1, h2, h3, h4, h5, h6, h7, h8⟩ := hcodes
  simp only [vExec, h1, h2, h3, h4, h5, h6, h7, h8, hop, hlanes, hr, hz, vsrc_eq_source, List.map_map, laneWrites, if_true, if_false,
    Bool.false_eq_true]
  rfl

section
variable (h : MayIssue s r g) (hi : exec i s = issueV s r (.vx op x d.toNat a.toNat) lit.toNat) (hop : isCvt op = true) (hd : inFile g d)
  (ha : inFile g a) (hx1 : 1 ≤ x) (hx : x ≤ 10)
include h hi hop hd ha hx1 hx

/-- A conversion with its lanes' draws (R102, R105). -/
theorem cvt_result {rs : List Nat} {u : State}
    (hr : (if op = 0x22 then drawMany (roundOne s r.tile r.slot) (pgTile r.tile) g.lanes.length else ([], roundOne s r.tile r.slot)) = (rs, u))
    (hu : Drawn (roundOne s r.tile r.slot) u (pgTile r.tile)) {draw : Nat → Nat}
    (hz : g.lanes.zip (rs ++ List.replicate g.lanes.length 0) = g.lanes.map (fun l => (l, draw l))) :
    VectorResult s r g i (bundleBytes [a]) d (fun l => cvtLane op x (source g a lit l) (draw l)) := by
  have hcode : 0x20 ≤ op ∧ op ≤ 0x23 := by simpa [isCvt] using hop
  obtain ⟨hlo, hhi⟩ := hcode
  have hsrc : (VOp.vx op x d.toNat a.toNat).srcs = [a].map BitVec.toNat := by interval_cases op <;> rfl
  have hl : (VOp.vx op x d.toNat a.toNat).legal = true := by
    have : (VOp.vx op x d.toNat a.toNat).legal = (decide (1 ≤ x) && decide (x ≤ 10)) := by interval_cases op <;> rfl
    simp [this, hx1, hx]
  have htx : (VOp.vx op x d.toNat a.toNat).usesTx = true → (tile s r.tile).txBusy ≤ 1 := by
    have : (VOp.vx op x d.toNat a.toNat).usesTx = false := by interval_cases op <;> rfl
    simp [this]
  obtain ⟨t, ht, hg, honly⟩ := issueV_drawn h (.vx op x d.toNat a.toNat) lit hl (vop_inFile hsrc rfl hd (by simp [ha])) htx
    (vExec_cvt _ hop hr hz) hu
  rw [← vBundle_bytes lit.toNat hsrc]
  exact vectorResult_of_writes h.width (hi.trans ht) hg honly

/-- A conversion that takes no draw. -/
theorem cvt_result_exact (hst : op ≠ 0x22) : VectorResult s r g i (bundleBytes [a]) d (fun l => cvtLane op x (source g a lit l) 0) :=
  cvt_result h hi hop hd ha hx1 hx (if_neg hst) (Drawn.refl _ _)
    (by simpa using zip_replicate_append g.lanes [] 0)

end

theorem roundOne_unarmed (h : MayIssue s r g) : (blk (roundOne s r.tile r.slot) (pgTile r.tile)).injArm = false := by
  obtain ⟨-, -, hpage⟩ := ticked s r
  rw [hpage]
  exact h.unarmed

end

theorem regF_roundOne (s : State) (r : GRef) (off hi lo : Nat) :
    regF (roundOne s r.tile r.slot) (pgTile r.tile) off hi lo = regF s (pgTile r.tile) off hi lo := by
  obtain ⟨hrest, -, hpage⟩ := ticked s r
  have hpart : (roundOne s r.tile r.slot).partE = s.partE := by have := congrArg State.partE hrest; exact this
  rw [regF, regW, hpage, hpart, regF, regW]

/-- Settles O8: the lane's result of each operation; a conversion's with its draws. -/
theorem vectorFloatOperations : Obligations.VectorFloatOperations := by
  unfold Obligations.VectorFloatOperations
  intro s r g d a b lit x h hd ha hb A B o n
  refine ⟨?mul, ?add, ?sub, fun hr => ⟨?fma, ?bf2, ?min, ?max⟩, fun hx1 hx => ⟨?cvtn, ?cvtz, ?cvtf, fun hf => ?fixed, ?cvts⟩⟩
  case mul | add | sub => exact vr_result h rfl hd ha hb (by simp) fun _ => rfl
  case fma | bf2 => exact vr_result h rfl hd ha hb (fun _ => hr) fun _ => rfl
  case min | max => exact vx_lane_result h rfl hd ha hr (by decide) fun _ => rfl
  case cvtn => exact cvt_result_exact (op := 0x20) h rfl rfl hd ha hx1 hx (by decide)
  case cvtz => exact cvt_result_exact (op := 0x21) h rfl rfl hd ha hx1 hx (by decide)
  case cvtf => exact cvt_result_exact (op := 0x23) h rfl rfl hd ha hx1 hx (by decide)
  case fixed =>
    have hfix : regF (roundOne s r.tile r.slot) (pgTile r.tile) 0x0F0 16 16 = 1 := (regF_roundOne s r 0x0F0 16 16).trans hf
    refine cvt_result (op := 0x22) h rfl rfl hd ha hx1 hx ((if_pos rfl).trans (drawMany_fixed (roundOne_unarmed h) hfix _)) (Drawn.refl _ _) ?_
    rw [regF_roundOne]
    exact zip_replicate_append _ _ _
  case cvts =>
    have hlen := drawMany_length (pg := pgTile r.tile) g.lanes.length (roundOne s r.tile r.slot)
    exact ⟨_, cvt_result (op := 0x22) h rfl rfl hd ha hx1 hx (if_pos rfl) (drawMany_drawn _ (roundOne_unarmed h))
      (zip_draws (lanes_nodup g) (by simp [hlen]))⟩

end Sys2Proof.Laws
end

