-- ==== Sys2Proof/Proofs/VectorMoves.lean ====
section
/-!
PROOF. O9: compares, selection, moves between register files and shuffles of the vector slot (R102).
-/
namespace Sys2Proof.Laws
open Sys2Proof.Machine Sys2Proof.Safety

/-! Masks of lanes. -/

theorem add_eq_or_of_and_eq_zero {a b : Nat} (h : a &&& b = 0) : a + b = a ||| b := by
  have hleft : Nat.ldiff (a ||| b) b = a := by
    apply Nat.eq_of_testBit_eq
    intro i
    have hi : (a &&& b).testBit i = false := by simp [h]
    rw [Nat.testBit_and] at hi
    rw [Nat.testBit_ldiff, Nat.testBit_or]
    cases ha : a.testBit i <;> cases hb : b.testBit i <;> simp_all
  have hboth : (a ||| b) &&& b = b := by
    apply Nat.eq_of_testBit_eq
    intro i
    rw [Nat.testBit_and, Nat.testBit_or]
    cases a.testBit i <;> cases b.testBit i <;> rfl
  have := and_add_ldiff (a ||| b) b
  rw [hleft, hboth] at this
  omega

/-- A bit that a mask lacks is added as its power of two. -/
theorem testBit_add_two_pow {m k : Nat} (h : m.testBit k = false) (l : Nat) : (m + 2 ^ k).testBit l = (m.testBit l || decide (l = k)) := by
  have hand : m &&& 2 ^ k = 0 := by
    apply Nat.eq_of_testBit_eq
    intro i
    rw [Nat.testBit_and, Nat.testBit_two_pow, Nat.zero_testBit]
    by_cases hi : k = i
    · rw [← hi, h]; rfl
    · simp [hi]
  rw [add_eq_or_of_and_eq_zero hand, Nat.testBit_or, Nat.testBit_two_pow]
  simp only [eq_comm]

theorem testBit_maskFold (f : Nat → Bool) (ls : List Nat) : ∀ m : Nat, ls.Nodup → (∀ l ∈ ls, m.testBit l = false) → ∀ l,
    (ls.foldl (fun m l => if f l then m + 2 ^ l else m) m).testBit l = (m.testBit l || (decide (l ∈ ls) && f l)) := by
  induction ls with
  | nil => simp
  | cons k ls ih =>
    intro m hn hm l
    obtain ⟨hk, hls⟩ := List.nodup_cons.1 hn
    have hmk : m.testBit k = false := hm k List.mem_cons_self
    have hrest : ∀ j ∈ ls, (if f k then m + 2 ^ k else m).testBit j = false := by
      intro j hj
      have hjk : j ≠ k := fun e => hk (e ▸ hj)
      split
      · rw [testBit_add_two_pow hmk, hm j (List.mem_cons_of_mem _ hj)]; simp [hjk]
      · exact hm j (List.mem_cons_of_mem _ hj)
    rw [List.foldl_cons, ih _ hls hrest]
    by_cases hlk : l = k
    · subst hlk
      cases hf : f l
      · simp [hk, hmk]
      · simp [testBit_add_two_pow hmk, hk]
    · split
      · rw [testBit_add_two_pow hmk]; simp [hlk]
      · simp [hlk]

/-- The mask of the lanes for which a condition holds. -/
theorem testBit_maskOf {ls : List Nat} (f : Nat → Bool) (hn : ls.Nodup) (l : Nat) : (maskOf ls f).testBit l = (decide (l ∈ ls) && f l) := by
  rw [maskOf, testBit_maskFold f ls 0 hn (by simp)]
  simp

theorem mem_lanes {g : Group} {l : Nat} : l ∈ g.lanes ↔ l < g.width ∧ g.active.testBit l = true := by
  simp [Group.lanes]

/-- A predicate takes the new bits of the active lanes and keeps the others. -/
theorem testBit_predWrite (old active new l : Nat) : (predWrite old active new).testBit l = if active.testBit l then new.testBit l else old.testBit l := by
  have h : predWrite old active new = andNot old active ||| (new &&& active) := rfl
  rw [h, Nat.testBit_or, andNot_testBit, Nat.testBit_and]
  cases active.testBit l <;> simp

section
variable {s : State} {r : GRef} {g : Group} {i : Instr} {v : VOp} {d a : BitVec 8} {lit : BitVec 32} {x : BitVec 5} {op : Nat} {f : Nat → Bool}

/-- The registers of an operation that writes no vector register are its sources. -/
theorem vop_inFile_srcs {as : List (BitVec 8)} (hw : v.writesD = false) (hsrc : v.srcs = as.map BitVec.toNat) (has : ∀ a ∈ as, inFile g a) :
    ((v.regs).any fun x => decide (x ≠ 0xFF) && decide (x ≥ g.r)) = false := by
  refine regs_inFile fun x hx => ?_
  have hregs : v.regs = v.srcs := by rw [VOp.regs, hw]; rfl
  rw [hregs, hsrc] at hx
  obtain ⟨a, ha, rfl⟩ := List.mem_map.1 hx
  exact has a ha

/-- A vector operation that changes nothing but its group: the group takes what the slot writes. -/
theorem issueV_writes (h : MayIssue s r g) {vr : VRes} (hi : exec i s = issueV s r v lit.toNat)
    (hr : ((v.regs).any fun x => decide (x ≠ 0xFF) && decide (x ≥ g.r)) = false) (hl : v.legal = true)
    (hu : v.usesTx = true → (tile s r.tile).txBusy ≤ 1) (hv : ∀ S, vExec S r.tile (noWait g) lit.toNat v = (vr, S)) :
    ∃ t, exec i s = .next t ∧ group? t r.tile r.slot = some (bundleAfter g (noWait g) (vBundle v lit.toNat) vr) ∧ OnlyGroup s t r := by
  obtain ⟨t, ht, hg, honly⟩ := issueV_drawn h v lit hl hr hu (hv _) (Drawn.refl _ _)
  exact ⟨t, hi.trans ht, hg, honly⟩

/-- A compare writes the bits of the active lanes. -/
theorem cmp_result (h : MayIssue s r g) (hd : inFile g d) (ha : inFile g a) (hx : x.toNat < 8) (hop : isCmp op = true)
    (hi : exec i s = issueV s r (.vx op x.toNat d.toNat a.toNat) lit.toNat)
    (hf : ∀ l, cmpBit op (source g d lit l) (source g a lit l) = f l) :
    ∃ t g', exec i s = .next t ∧ group? t r.tile r.slot = some g' ∧
       (∀ l, l < g.width → (g'.pget (x.toNat % 8)).testBit l = if g.active.testBit l then f l else (g.pget (x.toNat % 8)).testBit l) ∧
       (∀ k, k ≠ x.toNat % 8 → g'.pget k = g.pget k) ∧ g'.u = g.u ∧ g'.v = g.v ∧ SameMasks g g' ∧ Advances g g' (bundleBytes [d, a]) ∧
       OnlyGroup s t r := by
  have hcode : 0x0C ≤ op ∧ op ≤ 0x15 := by simpa [isCmp] using hop
  have hsrc : (VOp.vx op x.toNat d.toNat a.toNat).srcs = [d, a].map BitVec.toNat := by simp [VOp.srcs, hop]
  have hl : (VOp.vx op x.toNat d.toNat a.toNat).legal = true := by
    have h1 : ¬ op ≤ 0x0B := by omega
    have h2 : op ≠ 0x16 := by omega
    simp [VOp.legal, h1, h2, hop, hx]
  have hu : (VOp.vx op x.toNat d.toNat a.toNat).usesTx = true → (tile s r.tile).txBusy ≤ 1 := by
    simp only [VOp.usesTx, isTrans, Bool.and_eq_true, decide_eq_true_eq]
    omega
  have hv : ∀ S, vExec S r.tile (noWait g) lit.toNat (.vx op x.toNat d.toNat a.toNat) =
      ({ p := [(x.toNat % 8, predWrite (g.pget (x.toNat % 8)) g.active (maskOf g.lanes f))] }, S) := by
    intro S
    simp only [vExec, hop, if_true, vsrc_eq_source, hf]
    rfl
  obtain ⟨t, ht, hg, honly⟩ := issueV_writes h hi (vop_inFile hsrc rfl hd (by simp [hd, ha])) hl hu hv
  rw [← vBundle_bytes lit.toNat hsrc]
  refine ⟨t, _, ht, hg, fun l hl => ?_, fun k hk => ?_, rfl, rfl, ⟨rfl, rfl, rfl, rfl, rfl, rfl⟩, rfl, honly⟩
  · have hl64 : l < 64 := lt_of_lt_of_le hl h.width
    refine (congrArg (Nat.testBit · l) ((pget_pput _ _ _ _).trans (if_pos rfl))).trans ?_
    change (predWrite (g.pget (x.toNat % 8)) g.active (maskOf g.lanes f) % 2 ^ g.width % 2 ^ 64).testBit l = _
    rw [Nat.testBit_mod_two_pow, Nat.testBit_mod_two_pow, testBit_predWrite, testBit_maskOf f (lanes_nodup g)]
    by_cases hact : g.active.testBit l
    · simp [hl, hl64, hact, mem_lanes]
    · simp [hl, hl64, hact]
  · exact (pget_pput _ _ _ _).trans (if_neg hk)

end

section
variable {s : State} {r : GRef} {g : Group} {d a : BitVec 8} {lit : BitVec 32} {x : BitVec 5}

/-- The active lanes whose bit of a predicate is set. -/
def selLanes (g : Group) (p : Nat) : List Nat := g.lanes.filter (fun l => (g.pget p).testBit l)

/-- SEL writes the active lanes whose predicate bit is set. -/
theorem sel_result (h : MayIssue s r g) (hd : inFile g d) (ha : inFile g a) (hx : x.toNat < 8) (hr : d.toNat ≠ 0xFF) :
    VectorResult s r g (.sel r x d a lit) (bundleBytes [a]) d
      (fun l => if (g.pget x.toNat).testBit l then source g a lit l else g.vget d.toNat l) := by
  have hl : (VOp.vx 0x16 x.toNat d.toNat a.toNat).legal = true := by simp [VOp.legal, hx, hr]
  have hv : ∀ S, vExec S r.tile (noWait g) lit.toNat (.vx 0x16 x.toNat d.toNat a.toNat) = 
      ({ v := (selLanes g x.toNat).map (fun l => (d.toNat, l, (source g a lit l).toNat)) }, S) := by
    intro S
    have hmod : x.toNat % 8 = x.toNat := Nat.mod_eq_of_lt hx
    simp only [vExec, vsrc_eq_source, hmod, if_neg hr]
    rfl
  obtain ⟨t, ht, hg, honly⟩ := issueV_writes (i := .sel r x d a lit) h rfl (vop_inFile (as := [a]) rfl rfl hd (by simp [ha])) hl
    (by simp [VOp.usesTx, isTrans]) hv
  obtain ⟨hvget, hu, hp, hmasks, hadv⟩ := bundleAfter_writes g (vBundle (.vx 0x16 x.toNat d.toNat a.toNat) lit.toNat) d.toNat (source g a lit)
    (ls := selLanes g x.toNat) (fun l hl => lanes_lt h.width l (List.mem_of_mem_filter hl))
  refine ⟨t, _, ht, hg, fun k l hl => ?_, hu, hp, hmasks, hadv, honly⟩
  rw [hvget k l hl]
  by_cases hk : k = d.toNat
  · by_cases hm : l ∈ g.lanes <;> cases hb : (g.pget x.toNat).testBit l <;> simp [selLanes, hk, hr, hm, hb]
  · simp [hk]

/-- READLANE takes the lowest active lane. -/
theorem readlane_result (h : MayIssue s r g) (ha : inFile g a) {l : Nat} {rest : List Nat} (hl : g.lanes = l :: rest) :
    UniformResult s r g (.readlane r x a lit) (bundleBytes [a]) x (source g a lit l).toNat := by
  have hv : ∀ S, vExec S r.tile (noWait g) lit.toNat (.vx 0x19 x.toNat 0 a.toNat) = ({ u := [(x.toNat, (source g a lit l).toNat)] }, S) := by
    intro S
    have hlanes : (noWait g).lanes = l :: rest := hl
    rw [← vsrc_eq_source]
    change (match (noWait g).lanes with
      | l :: _ => ({ u := [(x.toNat, ((noWait g).vsrc lit.toNat a.toNat l).toNat)] } : VRes)
      | [] => {}, S) = _
    rw [hlanes]
  obtain ⟨t, ht, hg, honly⟩ := issueV_writes (i := .readlane r x a lit) h rfl (vop_inFile_srcs (as := [a]) rfl rfl (by simp [ha])) rfl
    (by simp [VOp.usesTx, isTrans]) hv
  refine ⟨t, _, ht, hg, ?_, fun k hk => ?_, rfl, rfl, ⟨rfl, rfl, rfl, rfl, rfl, rfl⟩, rfl, honly⟩
  · exact (uget_uput _ _ _ _).trans (if_pos rfl)
  · exact (uget_uput _ _ _ _).trans (if_neg hk)

end

/-- Settles O9: each operation by what `vExec` writes. -/
theorem vectorComparesAndMoves : Obligations.VectorComparesAndMoves := by
  unfold Obligations.VectorComparesAndMoves
  intro s r g d a lit x h hd ha A D n cmp
  have hA : A = (noWait g).vsrc lit.toNat a.toNat := funext fun l => (vsrc_eq_source g a lit l).symm
  refine ⟨fun hx => ⟨?eqF, ?ltF, ?leF, ?neF, ?eqI, ?ltS, ?leS, ?neI, ?ltU, ?leU, fun hr => sel_result h hd ha hx hr⟩, ?bcast, ?lane, ?wglane,
    fun hr => ?idx, ?xor, fun l rest hl => readlane_result h ha hl⟩
  case eqF | ltF | leF | neF | eqI | ltS | leS | neI | ltU | leU => exact cmp_result h hd ha hx rfl rfl fun _ => rfl
  case bcast => exact vector_result_of_fields (as := []) (lit := 0) (v := .vx 0x18 x.toNat d.toNat 0) h rfl rfl rfl hd (by simp) rfl rfl fun _ => rfl
  case lane => exact vector_result_of_fields (as := []) (lit := 0) (v := .vx 0x1A 0 d.toNat 0) h rfl rfl rfl hd (by simp) rfl rfl fun _ => rfl
  case wglane => exact vector_result_of_fields (as := []) (lit := 0) (v := .vx 0x1B 0 d.toNat 0) h rfl rfl rfl hd (by simp) rfl rfl fun _ => rfl
  case idx =>
    exact vx_result_reading (op := 0x1C) h rfl hd ha hr rfl (by simp [VOp.legal, hr, isCmp]) rfl fun S => by rw [hA]; rfl
  case xor => exact vx_result (op := 0x1D) h rfl hd ha rfl rfl rfl fun S => by rw [hA]; rfl

end Sys2Proof.Laws
end

