-- ==== Sys2Proof/Proofs/FarLanes.lean ====
section
/-!
PROOF. O10 and O12 fail: what is in flight may name a lane from 64 on, whose key is that of another register's lane (R59, R94).
-/
namespace Sys2Proof.Laws
open Sys2Proof.Machine Sys2Proof.Safety

/-! A result that names lane 64: its register file key is that of lane 0 of the next register. -/

/-- A group with one counted instruction in flight. -/
def inFlight (k : PKind) : Group :=
  { wg := 0, idx := 0, width := 64, lset := 0, r := 8, pc := 0, live := 1, active := 1, pend := [{ id := 0, cls := 5, done := false, kind := k }] }

/-- The device at reset but for that group, in slot 0 of tile 0. -/
def oneInFlight (k : PKind) : State := setGroup State.reset 0 0 (inFlight k)

theorem group?_oneInFlight (k : PKind) : group? (oneInFlight k) 0 0 = some (inFlight k) := group?_setGroup_same _ _ _ _

/-- The result of a write to lane 64 of register 0. -/
def farWrites : List (Nat × Nat × Nat) := [(0, 64, 5)]

/-- It changes lane 0 of register 1, of which no write of the list speaks. -/
theorem not_wrote_farWrites (k : PKind) : ¬ Wrote (inFlight k) (((inFlight k).vputs farWrites).complete 0) farWrites := by
  intro h
  have h10 := h 1 0 (by decide)
  change (5#32 : Word) = 0#32 at h10
  exact absurd h10 (by decide)

theorem exec_longResult (r : GRef) (id : Nat) (s : State) : exec (.longResult r id) s = execLongResult r id s := rfl

theorem exec_longResult_far : exec (.longResult ⟨0, 0⟩ 0) (oneInFlight (.longV farWrites)) =
    .next (setGroup (oneInFlight (.longV farWrites)) 0 0 (((inFlight (.longV farWrites)).vputs farWrites).complete 0)) := by
  rw [exec_longResult, execLongResult]
  rw [group?_oneInFlight]
  rfl

/-- Refutes O10: its second half speaks of every instruction in flight, also of one whose result names a lane from 64 on. LONG_RESULT
writes such a lane at the key of another register, as `Group.vput` places it, where the statement has every register that the result
does not name stand. -/
theorem not_longOperationsCountUnderW5 : ¬ Obligations.LongOperationsCountUnderW5 := by
  unfold Obligations.LongOperationsCountUnderW5
  rintro ⟨-, h⟩
  obtain ⟨hv, -⟩ := h (oneInFlight (.longV farWrites)) ⟨0, 0⟩ (inFlight (.longV farWrites))
    { id := 0, cls := 5, done := false, kind := .longV farWrites } (group?_oneInFlight _) rfl
  obtain ⟨t, g', ht, hg, hwrote, -⟩ := hv farWrites rfl
  obtain rfl : _ = t := Host.Outcome.next.inj (exec_longResult_far.symm.trans ht)
  rw [group?_setGroup_same] at hg
  cases hg
  exact not_wrote_farWrites _ hwrote

theorem exec_loadReturn (r : GRef) (id : Nat) (s : State) : exec (.loadReturn r id) s = execLoadReturn r id s := rfl

/-- The tile holds no workgroup, so no barrier is evaluated. -/
theorem exec_loadReturn_far : exec (.loadReturn ⟨0, 0⟩ 0) (oneInFlight (.loadW farWrites 0 0)) =
    .next (setGroup (oneInFlight (.loadW farWrites 0 0)) 0 0 (((inFlight (.loadW farWrites 0 0)).vputs farWrites).complete 0)) := by
  rw [exec_loadReturn, execLoadReturn]
  dsimp only
  rw [group?_oneInFlight]
  rfl

theorem noneWaits_oneInFlight (k : PKind) : NoneWaits (oneInFlight k) 0 0 := by
  intro q hq
  have hmem : q ∈ (tile (oneInFlight k) 0).groups := (List.mem_filter.1 hq).1
  have hgroups : (tile (oneInFlight k) 0).groups = [(0, inFlight k)] := rfl
  rw [hgroups, List.mem_singleton] at hmem
  subst hmem
  exact fun e => nomatch e

/-- Refutes O12: its second half speaks of every load of workgroup memory in flight, also of one that holds a word of a lane from 64 on,
which LOAD_RETURN writes at the key of another register. -/
theorem not_workgroupMemoryAccesses : ¬ Obligations.WorkgroupMemoryAccesses := by
  unfold Obligations.WorkgroupMemoryAccesses
  rintro ⟨-, h⟩
  obtain ⟨t, g', ht, hg, hwrote, -⟩ := h (oneInFlight (.loadW farWrites 0 0)) ⟨0, 0⟩ (inFlight (.loadW farWrites 0 0))
    { id := 0, cls := 5, done := false, kind := .loadW farWrites 0 0 } farWrites 0 (group?_oneInFlight _) rfl rfl (noneWaits_oneInFlight _)
  obtain rfl : _ = t := Host.Outcome.next.inj (exec_loadReturn_far.symm.trans ht)
  rw [group?_setGroup_same] at hg
  cases hg
  exact not_wrote_farWrites _ hwrote

end Sys2Proof.Laws
end

