-- ==== Sys2Proof/Proofs/VectorChecks.lean ====
section
/-!
PROOF. O11: the checks of a vector operation (R89, R93).
-/
namespace Sys2Proof.Laws
open Sys2Proof.Machine Sys2Proof.Safety

/-! The checks of a vector operation (R89, R93). -/

section
variable {s : State} {r : GRef} {g : Group} {i : Instr} {v : VOp} {lit : BitVec 32}

theorem bundleFault_vector (g : Group) (hl : v.legal = true) :
    bundleFault (noWait g) (vBundle v lit.toNat) = if (v.regs).any fun x => decide (x ≠ 0xFF) && decide (x ≥ g.r) then some fRange else none := by
  have hrange : (vBundle v lit.toNat).regRange (noWait g).r = (v.regs).any fun x => decide (x ≠ 0xFF) && decide (x ≥ g.r) := Bool.or_false _
  rw [bundleFault, vBundle_legal v lit hl, hrange]
  rfl

/-- A register at or above the group's count faults the group (R89). -/
theorem faultsWith_range (h : MayIssue s r g) (hi : exec i s = issueV s r v lit.toNat) (hl : v.legal = true)
    (hu : v.usesTx = true → (tile s r.tile).txBusy ≤ 1) {x : Nat} (hx : x ∈ v.regs) (hlit : x ≠ 0xFF) (hr : g.r ≤ x) : FaultsWith s r g i fRange := by
  refine faultsWith_of_check h hi (ready_v h v lit.toNat hu) ((bundleFault_vector g hl).trans (if_pos ?_))
  exact List.any_eq_true.2 ⟨x, hx, by simp [hlit, hr]⟩

/-- A reserved field of a vector operation faults the group (R89, R93). -/
theorem faultsWith_reserved (h : MayIssue s r g) (hi : exec i s = issueV s r v lit.toNat) (hl : v.legal = false)
    (hu : v.usesTx = true → (tile s r.tile).txBusy ≤ 1) : FaultsWith s r g i fIllegal := by
  refine faultsWith_of_check h hi (ready_v h v lit.toNat hu) ?_
  have hbl : (vBundle v lit.toNat).legal = false := by
    simp [mkBundle, Bundle.legal, hl]
  rw [bundleFault, hbl]
  rfl

end

/-- Settles O11: a field out of range or reserved meets the checks of the bundle. -/
theorem vectorChecksFault : Obligations.VectorChecksFault := by
  unfold Obligations.VectorChecksFault
  intro s r g d a b lit x h
  have hnotx : ∀ {op x d a : Nat}, isTrans op = false → (VOp.vx op x d a).usesTx = true → (tile s r.tile).txBusy ≤ 1 :=
    fun h0 h1 => absurd h1 (by simp [VOp.usesTx, h0])
  refine ⟨fun ha hr => ⟨?addA, ?movA, fun hu => ?expA⟩, fun hd hr => ⟨?addD, ?laneD⟩, ?fma, ?min, fun hx => ?sel, ?idx, fun hx => ⟨?cvtn, ?cvtf⟩⟩
  case addA => exact faultsWith_range (v := .vr 5 d.toNat a.toNat b.toNat) h rfl rfl (by simp [VOp.usesTx]) (by simp [VOp.regs, VOp.srcs]) ha hr
  case movA => exact faultsWith_range (v := .vx 0x17 0 d.toNat a.toNat) h rfl rfl (hnotx rfl) (x := a.toNat) (by simp [VOp.regs, VOp.srcs, isCmp]) ha hr
  case expA => exact faultsWith_range (v := .vx 0x28 0 d.toNat a.toNat) h rfl rfl (fun _ => hu) (x := a.toNat) (by simp [VOp.regs, VOp.srcs, isCmp]) ha hr
  case addD => exact faultsWith_range (v := .vr 5 d.toNat a.toNat b.toNat) h rfl rfl (by simp [VOp.usesTx]) (by simp [VOp.regs, VOp.writesD, VOp.dField]) hd hr
  case laneD => exact faultsWith_range (v := .vx 0x1A 0 d.toNat 0) (lit := 0) h rfl rfl (hnotx rfl) (x := d.toNat) (by simp [VOp.regs, VOp.writesD, VOp.dField, isCmp, isRedu]) hd hr
  case fma => exact faultsWith_reserved (v := .vr 0 0xFF a.toNat b.toNat) h rfl rfl (by simp [VOp.usesTx])
  case min => exact faultsWith_reserved (v := .vx 0x02 0 0xFF a.toNat) h rfl rfl (hnotx rfl)
  case sel => exact faultsWith_reserved (v := .vx 0x16 x.toNat 0xFF a.toNat) h rfl (by simp [VOp.legal]) (hnotx rfl)
  case idx => exact faultsWith_reserved (v := .vx 0x1C 0 0xFF a.toNat) h rfl rfl (hnotx rfl)
  case cvtn =>
    exact faultsWith_reserved (v := .vx 0x20 x.toNat d.toNat a.toNat) h rfl (by simp [VOp.legal, isCmp, isCvt]; omega) (hnotx rfl)
  case cvtf =>
    exact faultsWith_reserved (v := .vx 0x23 x.toNat d.toNat a.toNat) h rfl (by simp [VOp.legal, isCmp, isCvt]; omega) (hnotx rfl)

end Sys2Proof.Laws
end

