-- ==== Sys2Proof/Proofs/MemorySlot.lean ====
section
/-!
SUPPORT. A bundle of one memory operation: when its group is ready for it, what its checks look at, and its fault (R60, R74, R89).
-/
namespace Sys2Proof.Laws
open Sys2Proof.Machine Sys2Proof.Safety

section
variable {s u : State} {r : GRef} {g : Group} {m : MOp} {i : Instr}

/-- A memory operation counts at most once under each counter (R94). -/
theorem mBundle_counts_le (m : MOp) (k : Nat) : ((mBundle m).counts.filter (· == k)).length ≤ 1 := by
  have hnodup : (mBundle m).counts.Nodup := by
    unfold Bundle.counts
    simp only [show (mBundle m).m = some m from rfl, show (mBundle m).v = none from rfl, show (mBundle m).a = none from rfl,
      List.append_nil]
    repeat' split
    all_goals decide
  have hcount := List.nodup_iff_count_le_one.1 hnodup k
  rwa [List.count_eq_length_filter] at hcount

/-- A group that may issue is ready for a memory operation for which the store buffer has room (R60, R96, R273). -/
theorem ready_m (h : MayIssue s r g) (hroom : Room s r g m) (hheld : pwaitHeld (roundOne s r.tile r.slot) r.tile (noWait g) m = false) :
    bundleReady (roundOne s r.tile r.slot) r.tile r.slot (noWait g) (mBundle m) = true := by
  have hs : (blk (roundOne s r.tile r.slot) (pgTile r.tile)).st.inService = true := by
    rw [roundOne_blk, if_pos rfl]; exact h.service
  have hR : running (roundOne s r.tile r.slot) = true := (running_congr (roundOne_rest s _ _)).trans h.works
  have hS : stalled (roundOne s r.tile r.slot) (pgTile r.tile) = false := (stalled_congr (roundOne_rest s _ _) _).trans h.supply
  have hc : (List.range 6).all (fun k => decide ((noWait g).count k + ((mBundle m).counts.filter (· == k)).length ≤ 63)) = true := by
    refine List.all_eq_true.2 fun k hk => decide_eq_true ?_
    have hcount : (noWait g).count k ≤ 62 := h.room k (List.mem_range.1 hk)
    have hone := mBundle_counts_le m k
    omega
  have e1 : (noWait g).stat = .run := h.runs
  have e2 : (noWait g).stopped = false := h.goes
  have e3 : decide ((noWait g).active ≠ 0) = true := decide_eq_true h.active
  have e4 : (noWait g).offer = none := h.offer
  have hwait : (mBundle m).wait = 0 := rfl
  unfold bundleReady bundleBase txFree usesTxB
  rw [hroom]
  simp only [hs, hR, hS, e1, e2, e3, e4, hc, hwait, hheld, show (mBundle m).c = none from rfl, show (mBundle m).m = some m from rfl,
    show (mBundle m).v = none from rfl, show (mBundle m).a = none from rfl]
  simp

/-- An operation that takes no store buffer entry always has room (R273). -/
theorem room_of_unbuffered (hm : mBuffered m.op = false) : Room s r g m := by
  have hneed : storeNeed (roundOne s r.tile r.slot) r.tile r.slot (noWait g) m = 0 := by simp [storeNeed, hm]
  unfold Room bundleRoom
  simp only [show (mBundle m).m = some m from rfl, hneed]
  rfl

/-- Only a park-wait on an aligned counter waits for a held line (R242). -/
theorem pwaitHeld_none (hm : m.op ≠ 0x69 ∨ g.uget m.b % 8 ≠ 0) : pwaitHeld u r.tile (noWait g) m = false := by
  have hu : (noWait g).uget m.b = g.uget m.b := rfl
  unfold pwaitHeld
  rcases hm with hm | hm <;> simp [hm, hu]

theorem mBundle_legal (m : MOp) : (mBundle m).legal = m.legal := by
  simp [mkBundle, Bundle.legal, disjoint, Bundle.usesLit, Bundle.usesLitC, Bundle.usesLitV, Bundle.isMovl64]

/-- A memory operation of reserved code or field faults its group (R89). -/
theorem bundleFault_reserved (hl : m.legal = false) : bundleFault g (mBundle m) = some fIllegal := by
  rw [bundleFault, mBundle_legal, hl]
  rfl

/-- Vector registers that a memory operation names are the group's when its operand and its offset register are. -/
theorem memory_inFile (hd : m.dRegs = 0 ∨ m.d = 0xFF ∨ m.d + m.dRegs ≤ g.r) (ha : m.laneWise = false ∨ m.a = 0xFF ∨ m.a < g.r) :
    m.regs.any (fun x => decide (x ≥ g.r)) = false := by
  rw [List.any_eq_false]
  intro x hx
  rw [decide_eq_true_iff, not_le]
  rcases List.mem_append.1 hx with hx | hx
  · split at hx
    next hc =>
      obtain ⟨k, hk, rfl⟩ := List.mem_map.1 hx
      have hk := List.mem_range.1 hk
      simp only [MOp.usesVD, ne_eq, decide_not, Bool.and_eq_true, Bool.not_eq_eq_eq_not, Bool.not_true, decide_eq_false_iff_not] at hc
      omega
    next => cases hx
  · split at hx
    next hc =>
      cases List.mem_singleton.1 hx
      simp only [ne_eq, decide_not, Bool.and_eq_true, Bool.not_eq_eq_eq_not, Bool.not_true, decide_eq_false_iff_not] at hc
      rcases ha with ha | ha | ha
      · rw [ha] at hc
        exact absurd hc.1 (by simp)
      · exact absurd ha hc.2
      · exact ha
    next => cases hx

/-- A legal memory operation whose registers are the group's meets no check. -/
theorem bundleFault_memory (hl : m.legal = true) (hr : m.regs.any (fun x => decide (x ≥ g.r)) = false) :
    bundleFault (noWait g) (mBundle m) = none := by
  have hrange : (mBundle m).regRange (noWait g).r = false := hr
  rw [bundleFault, mBundle_legal, hl, hrange]
  rfl

/-! A fault of the memory slot (R74). -/

theorem wg?_regroup (t w : Nat) (gs : List (Nat × Group)) (s : State) : wg? (regroup s t gs) t w = wg? s t w := by
  refine foldl_keeps (fun u => wg? u t w = wg? s t w) _ (fun u p hu => ?_) gs s rfl
  split
  · exact (wg?_modGroup _ _ _ _ _).trans hu
  · exact hu

/-- A fault leaves no request to park its workgroup that it did not find. -/
theorem stopWg_fault_unasked {t w : Nat} (h : ∀ x, wg? u t w = some x → x.asked = 0) (x : Wg)
    (hx : wg? (stopWg u t w rFault) t w = some x) : x.asked = 0 := by
  cases hw : wg? u t w with
  | none =>
    have hstay : stopWg u t w rFault = u := by rw [stopWg, hw]
    exact h x (hstay ▸ hx)
  | some wg =>
    by_cases hp : wg.park = .none
    · rw [stopWg_now hw hp rfl rfl, (stopNow_spec hw).1] at hx
      cases hx
      rfl
    · have hstay : wg? (stopWg u t w rFault) t w = wg? u t w := by
        unfold stopWg
        simp only [hw]
        split
        · exact (wg?_regroup _ _ _ _).trans hw
        · exact hw
      exact h x (hstay ▸ hx)

theorem groupFault_unasked {t n : Nat} (hg : group? u t n = some (noWait g)) (h : ∀ x, wg? u t g.wg = some x → x.asked = 0) (f : FaultRec)
    (x : Wg) (hx : wg? (groupFault u t n f) t g.wg = some x) : x.asked = 0 := by
  unfold groupFault at hx
  rw [hg] at hx
  refine stopWg_fault_unasked (fun y hy => h y ?_) x hx
  exact (wg?_setGroup u t n _ _).symm.trans hy

/-- A memory operation that faults as it acts, before it has changed its group, its workgroup or memory. -/
theorem faultsWith_of_memory {code lanes addr cause acc last : Nat} (h : MayIssue s r g) (hi : exec i s = issueM s r m)
    (hr : bundleReady (roundOne s r.tile r.slot) r.tile r.slot (noWait g) (mBundle m) = true) (hb : bundleFault (noWait g) (mBundle m) = none)
    (hm : mExec (roundOne s r.tile r.slot) r.tile r.slot (noWait g) m = .fault code lanes addr cause acc last u)
    (hg : group? u r.tile r.slot = some (noWait g)) (hw : ∀ w, wg? u r.tile w = wg? s r.tile w) (hram : u.ram = s.ram) :
    FaultsWith s r g i code := by
  have happly : ∀ f, f = mkFault code lanes addr (mBundle m).raw cause acc last →
      applyBundle (roundOne s r.tile r.slot) r.tile r.slot (noWait g) (mBundle m) 0 = groupFault u r.tile r.slot f := by
    rintro f rfl
    unfold applyBundle
    rw [early_none h]
    simp only [show (mBundle m).m = some m from rfl, hm]
  generalize hf : mkFault code lanes addr (mBundle m).raw cause acc last = f at happly
  have hone : issueOne s r (mBundle m) = groupFault u r.tile r.slot f := by
    rw [issueOne_applies h hr hb rfl, happly f rfl]
    exact parkAsked_none fun x hx => groupFault_unasked hg (fun y hy => h.unasked y (by rwa [hw] at hy)) f x hx
  obtain ⟨g', hg', hrec, hcore, hmem, hstop⟩ := groupFault_spec hg h.sound f
  exact ⟨_, g', f, hi.trans (congrArg Host.Outcome.next hone), hg', hrec, by rw [← hf]; rfl, by rw [← hf]; rfl, hcore, hmem.trans hram,
    fun w hw' hp => hstop w ((hw _).trans hw') hp⟩

end

end Sys2Proof.Laws
end

