-- ==== Sys2Proof/Proofs/MemoryFaults.lean ====
section
/-!
PROOF. O13: the faults of the memory slot (R66, R80, R107, R263).
-/
namespace Sys2Proof.Laws
open Sys2Proof.Machine Sys2Proof.Safety

/-! What the memory slot comes to when it does not act. -/

/-- Global accesses lane by lane (R107 to R109). -/
def perLane (op : Nat) : Bool := mLoad op || mStore op || mAtom op || mAtomN op || mLdr op || mStc op || op = 0x67

theorem perLane_range {op : Nat} (h : perLane op = true) : op ≤ 0x06 ∨ 0x10 ≤ op ∧ op ≤ 0x14 ∨ 0x20 ≤ op ∧ op ≤ 0x3F ∨ 0x60 ≤ op ∧ op ≤ 0x63 ∨ op = 0x67 := by
  simp only [perLane, mLoad, mStore, mAtom, mAtomN, mLdr, mStc, Bool.or_eq_true, Bool.and_eq_true, decide_eq_true_eq] at h
  omega

theorem perLane_global {op : Nat} (h : perLane op = true) : (mLoadW op || mStoreW op || mAtomW op || mAtomWN op) = false := by
  have hrange := perLane_range h
  simp only [mLoadW, mStoreW, mAtomW, mAtomWN, Bool.or_eq_false_iff, Bool.and_eq_false_iff, decide_eq_false_iff_not]
  omega

theorem perLane_ne {op : Nat} (h : perLane op = true) :
    op ≠ 0x64 ∧ op ≠ 0x65 ∧ op ≠ 0x66 ∧ op ≠ 0x68 ∧ op ≠ 0x69 ∧ op ≠ 0x6A ∧ op ≠ 0x6B := by
  have hrange := perLane_range h
  omega

theorem mVas_perLane {g : Group} {m : MOp} (h : perLane m.op = true) : mVas g m = g.lanes.map (laneVa g m) := by
  obtain ⟨-, -, -, h68, h69, -, -⟩ := perLane_ne h
  simp [mVas, h68, h69]

/-- The memory slot faults with a code in a state. -/
def MFault (x : MRes) (code : Nat) (u : State) : Prop := ∃ lanes addr cause acc last, x = .fault code lanes addr cause acc last u

section
variable {S : State} {t n : Nat} {g : Group} {w : Wg} {m : MOp}

/-- A misaligned lane of a global access (R80). -/
theorem mExec_misaligned (hw : wg? S t g.wg = some w) (hop : perLane m.op = true) (hbad : ∃ l ∈ g.lanes, laneVa g m l % mSize m.op ≠ 0) :
    MFault (mExec S t n g m) fAlign S := by
  obtain ⟨h64, h65, h66, h68, h69, h6A, h6B⟩ := perLane_ne hop
  have hne : (g.lanes.filter (fun l => laneVa g m l % mSize m.op ≠ 0)).isEmpty = false := by
    obtain ⟨l, hl, hb⟩ := hbad
    rw [List.isEmpty_eq_false_iff_exists_mem]
    exact ⟨l, List.mem_filter.2 ⟨hl, decide_eq_true hb⟩⟩
  unfold mExec
  simp only [hw, perLane_global hop, h64, h65, h66, h68, h69, h6A, h6B, hne]
  exact ⟨_, _, _, _, _, rfl⟩

/-- The state after a translation of the lanes of which some fails (R263, R266). -/
def translationFault (S : State) (t : Nat) (g : Group) (w : Wg) (m : MOp) : State :=
  let x := translateAll S (agTile t) (tileDie t) w.space (mAcc m.op) false (g.lanes.map (laneVa g m)).eraseDups
  countXltFault x.2 (tileDie t) x.1

/-- A global access with aligned lanes of which a translation fails (R263). -/
theorem mExec_untranslated {a c : Nat} (hw : wg? S t g.wg = some w) (hop : perLane m.op = true)
    (hal : ∀ l ∈ g.lanes, laneVa g m l % mSize m.op = 0)
    (hx : (translateAll S (agTile t) (tileDie t) w.space (mAcc m.op) false (g.lanes.map (laneVa g m)).eraseDups).1.fault = some (a, c)) :
    MFault (mExec S t n g m) (causeCode c) (translationFault S t g w m) := by
  obtain ⟨h64, h65, h66, h68, h69, h6A, h6B⟩ := perLane_ne hop
  have hnil : g.lanes.filter (fun l => laneVa g m l % mSize m.op ≠ 0) = [] :=
    List.filter_eq_nil_iff.2 fun l hl => by simp [hal l hl]
  unfold mExec
  simp only [hw, perLane_global hop, h64, h65, h66, h68, h69, h6A, h6B, hnil, mVas_perLane hop, hx]
  exact ⟨_, _, _, _, _, rfl⟩

/-- A counter that is not 8 B aligned (R80). -/
theorem mExec_counter_misaligned (hw : wg? S t g.wg = some w) (hop : m.op = 0x68 ∨ m.op = 0x69) (hbad : g.uget m.b % 8 ≠ 0) :
    MFault (mExec S t n g m) fAlign S := by
  have hclass : (mLoadW m.op || mStoreW m.op || mAtomW m.op || mAtomWN m.op) = false := by rcases hop with h | h <;> rw [h] <;> rfl
  unfold mExec
  have honce : (decide (m.op = 0x68) || decide (m.op = 0x69)) = true := by simpa using hop
  have hrest : m.op ≠ 0x64 ∧ m.op ≠ 0x65 ∧ m.op ≠ 0x66 ∧ m.op ≠ 0x6A ∧ m.op ≠ 0x6B := by omega
  obtain ⟨h64, h65, h66, h6A, h6B⟩ := hrest
  simp only [hw, hclass, h64, h65, h66, h6A, h6B, honce, decide_eq_true hbad, Bool.false_eq_true, if_false]
  exact ⟨_, _, _, _, _, rfl⟩

/-- A misaligned lane of an access to workgroup memory (R80). -/
theorem mExec_workgroup_misaligned (hw : wg? S t g.wg = some w) (hop : mLoadW m.op = true ∨ mStoreW m.op = true)
    (hbad : ∃ l ∈ g.lanes, laneOff g m l % mSize m.op ≠ 0) :
    MFault (mExec S t n g m) fAlign S := by
  have hne : (g.lanes.filter (fun l => laneOff g m l % mSize m.op ≠ 0)).isEmpty = false := by
    obtain ⟨l, hl, hb⟩ := hbad
    rw [List.isEmpty_eq_false_iff_exists_mem]
    exact ⟨l, List.mem_filter.2 ⟨hl, decide_eq_true hb⟩⟩
  have hwork : mExec S t n g m = mWork S t n g w m := by
    unfold mExec
    rcases hop with h | h <;> simp [hw, h]
  rw [hwork, mWork]
  simp only [hne]
  exact ⟨_, _, _, _, _, rfl⟩

/-- An aligned lane that ends above workgroup memory (R66). -/
theorem mExec_workgroup_outside (hw : wg? S t g.wg = some w) (hop : mLoadW m.op = true ∨ mStoreW m.op = true)
    (hal : ∀ l ∈ g.lanes, laneOff g m l % mSize m.op = 0) (hout : ∃ l ∈ g.lanes, laneOff g m l + mSize m.op > w.m) :
    MFault (mExec S t n g m) fBounds S := by
  have hnil : g.lanes.filter (fun l => laneOff g m l % mSize m.op ≠ 0) = [] :=
    List.filter_eq_nil_iff.2 fun l hl => by simp [hal l hl]
  have hne : (g.lanes.filter (fun l => laneOff g m l + mSize m.op > w.m)).isEmpty = false := by
    obtain ⟨l, hl, hb⟩ := hout
    rw [List.isEmpty_eq_false_iff_exists_mem]
    exact ⟨l, List.mem_filter.2 ⟨hl, decide_eq_true hb⟩⟩
  have hwork : mExec S t n g m = mWork S t n g w m := by
    unfold mExec
    rcases hop with h | h <;> simp [hw, h]
  rw [hwork, mWork]
  simp only [hnil, hne]
  exact ⟨_, _, _, _, _, rfl⟩

end

/-! What a translation leaves of a tile (R263). -/

theorem group?_workFrom {b : Bool} {s u : State} (h : WorkFrom b s u) (t n : Nat) : group? u t n = group? s t n := by
  have hgroups := congrArg (fun x : Tile => tget? x.groups n) (h.tiles t)
  exact hgroups

theorem wg?_workFrom {b : Bool} {s u : State} (h : WorkFrom b s u) (t n : Nat) : wg? u t n = wg? s t n := by
  have hwgs := congrArg (fun x : Tile => tget? x.wgs n) (h.tiles t)
  exact hwgs

section
variable {s : State} {r : GRef} {g : Group} {w : Wg} {m : MOp} {i : Instr}

theorem wg?_roundOne (s : State) (r : GRef) (w : Nat) : wg? (roundOne s r.tile r.slot) r.tile w = wg? s r.tile w := by
  rw [wg?, roundOne_wgs, wg?]

theorem ram_roundOne (s : State) (r : GRef) : (roundOne s r.tile r.slot).ram = s.ram := ram_of_elsewhere (roundOne_rest s r.tile r.slot)

/-- A memory operation that its group may issue and that no check refuses. -/
structure Issuable (s : State) (r : GRef) (g : Group) (m : MOp) : Prop where
  may   : MayIssue s r g
  room  : Room s r g m
  held  : m.op ≠ 0x69 ∨ g.uget m.b % 8 ≠ 0
  legal : m.legal = true
  data  : m.dRegs = 0 ∨ m.d = 0xFF ∨ m.d + m.dRegs ≤ g.r
  off   : m.laneWise = false ∨ m.a = 0xFF ∨ m.a < g.r

/-- The widest access moves 16 bytes of a lane (R107). -/
theorem regsOf_mSize_le (op : Nat) : regsOf (mSize op) ≤ 4 := by
  have hsize : mSize op ≤ 16 := by
    unfold mSize
    repeat' split
    all_goals omega
  unfold regsOf
  split <;> omega

theorem issuable_data {d a : BitVec 8} {b : BitVec 5} {op : Nat} (h : MayIssue s r g) (ha : inFile g a) (hd : d.toNat ≠ 0xFF) (hr : d.toNat + 4 ≤ g.r)
    (hop : (mLoad op || mLoadW op || mStore op || mStoreW op) = true) (hroom : Room s r g ⟨op, d.toNat, a.toNat, b.toNat⟩) :
    Issuable s r g ⟨op, d.toNat, a.toNat, b.toNat⟩ := by
  have hne : op ≠ 0x69 := by
    rintro rfl
    cases hop
  have hregs : MOp.dRegs ⟨op, d.toNat, a.toNat, b.toNat⟩ = regsOf (mSize op) := by simp only [MOp.dRegs, hop, Bool.true_or, if_true]
  have hlegal : MOp.legal ⟨op, d.toNat, a.toNat, b.toNat⟩ = true := by
    simp only [Bool.or_eq_true] at hop
    rcases hop with ((hop | hop) | hop) | hop <;> simp [MOp.legal, hop, hd]
  refine ⟨h, hroom, Or.inl hne, hlegal, Or.inr (Or.inr ?_), Or.inr ha⟩
  have := regsOf_mSize_le op
  rw [hregs]
  change d.toNat + regsOf (mSize op) ≤ g.r
  omega

section
variable {d a : BitVec 8} {b : BitVec 5} {op : Nat} (h : MayIssue s r g) (ha : inFile g a) (hd : d.toNat ≠ 0xFF) (hr : d.toNat + 4 ≤ g.r)
include h ha hd hr

theorem issuable_store (hop : mStore op = true) (hroom : Room s r g ⟨op, d.toNat, a.toNat, b.toNat⟩) :
    Issuable s r g ⟨op, d.toNat, a.toNat, b.toNat⟩ :=
  issuable_data h ha hd hr (by simp [hop]) hroom

theorem issuable_load (hop : mLoad op = true) : Issuable s r g ⟨op, d.toNat, a.toNat, b.toNat⟩ := by
  refine issuable_data h ha hd hr (by simp [hop]) (room_of_unbuffered ?_)
  rw [mLoad, decide_eq_true_eq] at hop
  simp [mBuffered, mStore, mAtom, mAtomN, mStc]
  omega

theorem issuable_loadW (hop : mLoadW op = true) : Issuable s r g ⟨op, d.toNat, a.toNat, b.toNat⟩ := by
  refine issuable_data h ha hd hr (by simp [hop]) (room_of_unbuffered ?_)
  simp only [mLoadW, Bool.and_eq_true, decide_eq_true_eq] at hop
  simp [mBuffered, mStore, mAtom, mAtomN, mStc]
  omega

theorem issuable_storeW (hop : mStoreW op = true) : Issuable s r g ⟨op, d.toNat, a.toNat, b.toNat⟩ := by
  refine issuable_data h ha hd hr (by simp [hop]) (room_of_unbuffered ?_)
  simp only [mStoreW, Bool.and_eq_true, decide_eq_true_eq] at hop
  simp [mBuffered, mStore, mAtom, mAtomN, mStc]
  omega

end

/-- SIGNAL and PWAIT name uniform registers alone (R110). -/
theorem issuable_counter {op : Nat} {d b : BitVec 5} (h : MayIssue s r g) (hop : op = 0x68 ∨ op = 0x69)
    (hroom : Room s r g ⟨op, d.toNat, 0, b.toNat⟩) (hheld : op ≠ 0x69 ∨ g.uget b.toNat % 8 ≠ 0) : Issuable s r g ⟨op, d.toNat, 0, b.toNat⟩ := by
  have hd : d.toNat < 32 := d.isLt
  rcases hop with rfl | rfl
  · exact ⟨h, hroom, hheld, by simpa [MOp.legal, mLoad, mLoadW, mLdr, mStore, mStoreW, mAnyAtom, mStc] using hd, Or.inl rfl, Or.inl rfl⟩
  · exact ⟨h, hroom, hheld, by simpa [MOp.legal, mLoad, mLoadW, mLdr, mStore, mStoreW, mAnyAtom, mStc] using hd, Or.inl rfl, Or.inl rfl⟩

/-- A reserved code or field of the memory slot faults the group (R89). -/
theorem faultsWith_reserved_memory (h : MayIssue s r g) (hi : exec i s = issueM s r m) (hroom : Room s r g m)
    (hheld : m.op ≠ 0x69 ∨ g.uget m.b % 8 ≠ 0) (hl : m.legal = false) : FaultsWith s r g i fIllegal :=
  faultsWith_of_check h hi (ready_m h hroom (pwaitHeld_none hheld)) (bundleFault_reserved hl)

/-! The codes of the loads and stores (R106, R108). -/

theorem mLoad_code {k : Nat} (h : k ≤ 6) : mLoad (0x00 + k) = true := by
  simp only [mLoad, decide_eq_true_eq]
  omega

theorem mLoadW_code {k : Nat} (h : k ≤ 6) : mLoadW (0x08 + k) = true := by
  simp only [mLoadW, Bool.and_eq_true, decide_eq_true_eq]
  omega

theorem mStore_code {k : Nat} (h : k ≤ 4) : mStore (0x10 + k) = true := by
  simp only [mStore, Bool.and_eq_true, decide_eq_true_eq]
  omega

theorem mStoreW_code {k : Nat} (h : k ≤ 4) : mStoreW (0x18 + k) = true := by
  simp only [mStoreW, Bool.and_eq_true, decide_eq_true_eq]
  omega

theorem perLane_load {op : Nat} (h : mLoad op = true) : perLane op = true := by simp [perLane, h]
theorem perLane_store {op : Nat} (h : mStore op = true) : perLane op = true := by simp [perLane, h]

/-- An operation whose memory slot faults in the state in which it issues. -/
theorem Issuable.faults {code : Nat} (h : Issuable s r g m) (hi : exec i s = issueM s r m)
    (hm : MFault (mExec (roundOne s r.tile r.slot) r.tile r.slot (noWait g) m) code (roundOne s r.tile r.slot)) : FaultsWith s r g i code := by
  obtain ⟨_, _, _, _, _, hm⟩ := hm
  exact faultsWith_of_memory h.may hi (ready_m h.may h.room (pwaitHeld_none h.held)) (bundleFault_memory h.legal (memory_inFile h.data h.off)) hm
    (group?_roundOne h.may) (wg?_roundOne s r) (ram_roundOne s r)

/-- An operation of which a translation fails. -/
theorem Issuable.faults_translated {a c : Nat} (h : Issuable s r g m) (hi : exec i s = issueM s r m) (hop : perLane m.op = true)
    (hw : wg? s r.tile g.wg = some w) (hal : ∀ l ∈ g.lanes, laneVa g m l % mSize m.op = 0)
    (hx : (translateAll (roundOne s r.tile r.slot) (agTile r.tile) (tileDie r.tile) w.space (mAcc m.op) false
      (g.lanes.map (laneVa g m)).eraseDups).1.fault = some (a, c)) : FaultsWith s r g i (causeCode c) := by
  obtain ⟨_, _, _, _, _, hm⟩ := mExec_untranslated (n := r.slot) (g := noWait g) ((wg?_roundOne s r g.wg).trans hw) hop hal hx
  have hwork : WorkFrom false (roundOne s r.tile r.slot) (translationFault (roundOne s r.tile r.slot) r.tile (noWait g) w m) :=
    (WorkFrom.refl _).translateAll.countXltFault
  have hmem : MemFrom false (roundOne s r.tile r.slot) (translationFault (roundOne s r.tile r.slot) r.tile (noWait g) w m) :=
    (MemFrom.refl _).translateAll.countXltFault
  exact faultsWith_of_memory h.may hi (ready_m h.may h.room (pwaitHeld_none h.held)) (bundleFault_memory h.legal (memory_inFile h.data h.off)) hm
    ((group?_workFrom hwork _ _).trans (group?_roundOne h.may)) (fun k => (wg?_workFrom hwork _ _).trans (wg?_roundOne s r k))
    ((hmem.same rfl).1.trans (ram_roundOne s r))

/-- Settles O13: each access faults before it has changed its group or memory. -/
theorem memoryOperationsFault : Obligations.MemoryOperationsFault := by
  unfold Obligations.MemoryOperationsFault
  intro s r g w sz d a dc b h hw _ ha hd hr
  have hw1 : wg? (roundOne s r.tile r.slot) r.tile g.wg = some w := (wg?_roundOne s r g.wg).trans hw
  refine ⟨fun hs hl => ?ld, fun hs hroom hl => ?st, fun hs hl => ?ldw, fun hs hl => ?stw, fun hs hal hl => ?ldwOut, fun hs hal hl => ?stwOut,
    fun hb => ⟨?pwait, fun hroom => ?signal⟩, fun x c hs hal hx => ?ldXlt, fun x c hs hroom hal hx => ?stXlt, fun hs => ?ldIllegal, fun hs => ?stIllegal⟩
  case ld => exact (issuable_load h ha hd hr (mLoad_code hs)).faults rfl (mExec_misaligned hw1 (perLane_load (mLoad_code hs)) hl)
  case ldXlt => exact (issuable_load h ha hd hr (mLoad_code hs)).faults_translated rfl (perLane_load (mLoad_code hs)) hw hal hx
  case ldw => exact (issuable_loadW h ha hd hr (mLoadW_code hs)).faults rfl (mExec_workgroup_misaligned hw1 (Or.inl (mLoadW_code hs)) hl)
  case ldwOut => exact (issuable_loadW h ha hd hr (mLoadW_code hs)).faults rfl (mExec_workgroup_outside hw1 (Or.inl (mLoadW_code hs)) hal hl)
  case st => exact (issuable_store h ha hd hr (mStore_code hs) hroom).faults rfl (mExec_misaligned hw1 (perLane_store (mStore_code hs)) hl)
  case stXlt => exact (issuable_store h ha hd hr (mStore_code hs) hroom).faults_translated rfl (perLane_store (mStore_code hs)) hw hal hx
  case stw => exact (issuable_storeW h ha hd hr (mStoreW_code hs)).faults rfl (mExec_workgroup_misaligned hw1 (Or.inr (mStoreW_code hs)) hl)
  case stwOut => exact (issuable_storeW h ha hd hr (mStoreW_code hs)).faults rfl (mExec_workgroup_outside hw1 (Or.inr (mStoreW_code hs)) hal hl)
  case pwait => exact (issuable_counter h (Or.inr rfl) (room_of_unbuffered rfl) (Or.inr hb)).faults rfl (mExec_counter_misaligned hw1 (Or.inr rfl) hb)
  case signal => exact (issuable_counter h (Or.inl rfl) hroom (Or.inr hb)).faults rfl (mExec_counter_misaligned hw1 (Or.inl rfl) hb)
  case ldIllegal =>
    exact faultsWith_reserved_memory (m := ⟨0x00 + sz.toNat, d.toNat, a.toNat, b.toNat⟩) h rfl (room_of_unbuffered (by rw [hs]; rfl))
      (Or.inl (show 0x00 + sz.toNat ≠ 0x69 by omega)) (by rw [hs]; rfl)
  case stIllegal =>
    have hcode : sz.toNat = 5 ∨ sz.toNat = 6 ∨ sz.toNat = 7 := by omega
    exact faultsWith_reserved_memory (m := ⟨0x10 + sz.toNat, d.toNat, a.toNat, b.toNat⟩) h rfl
      (room_of_unbuffered (by rcases hcode with h | h | h <;> rw [h] <;> rfl))
      (Or.inl (show 0x10 + sz.toNat ≠ 0x69 by omega)) (by rcases hcode with h | h | h <;> rw [h] <;> rfl)

end

end Sys2Proof.Laws
end

