-- ==== Sys2Proof/Proofs/AccessReach.lean ====
section
/-!
SUPPORT. How far an access reaches: `Reach w n s t` says that the work of tile `n`'s agent, or of a home slice, on the way from `s` to
`t` leaves every other tile, the groups and workgroups of tile `n`, and the lists of what waits at each slice, for a fill or else; with `w` false
no byte of memory changes. One lemma per function, as for `WorkFrom`.
-/
namespace Sys2Proof.Laws
open Sys2Proof.Machine Sys2Proof.Safety

-- Elaborated side by side, so many small lemmas ask for more threads than the memory limit allows.
set_option Elab.async false

structure Reach (w : Bool) (n : Nat) (s t : State) : Prop where
  others : ∀ m, m ≠ n → tile t m = tile s m
  groups : (tile t n).groups = (tile s n).groups
  wgs    : (tile t n).wgs = (tile s n).wgs
  queues : ∀ k, ((slice t k).fills, (slice t k).waits) = ((slice s k).fills, (slice s k).waits)
  bytes  : w = false → t.ram.cells = s.ram.cells ∧ t.ram.keys = s.ram.keys

variable {w : Bool} {n : Nat} {s0 s t a b : State} {α β : Type}

theorem Reach.refl (s : State) : Reach w n s s := ⟨fun _ _ => rfl, rfl, rfl, fun _ => rfl, fun _ => ⟨rfl, rfl⟩⟩

theorem Reach.trans (h : Reach w n s0 s) (k : Reach w n s t) : Reach w n s0 t := by
  refine ⟨fun m hm => (k.others m hm).trans (h.others m hm), k.groups.trans h.groups, k.wgs.trans h.wgs,
    fun i => (k.queues i).trans (h.queues i), fun e => ?_⟩
  obtain ⟨hc, hk⟩ := h.bytes e
  obtain ⟨kc, kk⟩ := k.bytes e
  exact ⟨kc.trans hc, kk.trans hk⟩

/-- A change to other parts than tiles, slices and memory. -/
theorem Reach.upd (h : Reach w n s0 s) (hf : (t.tiles, t.l2, t.ram) = (s.tiles, s.l2, s.ram) := by rfl) : Reach w n s0 t := by
  obtain ⟨ht, hf⟩ := Prod.ext_iff.1 hf
  obtain ⟨hl, hr⟩ := Prod.ext_iff.1 hf
  refine h.trans ⟨fun m _ => tile_congr ht m, congrArg Tile.groups (tile_congr ht n), congrArg Tile.wgs (tile_congr ht n), fun k => ?_, fun _ => ?_⟩
  · unfold slice
    rw [show t.l2 = s.l2 from hl]
  · rw [show t.ram = s.ram from hr]
    exact ⟨rfl, rfl⟩

/-! The state among the results of a function, branches and loops. -/

theorem Reach.of_pair {p : α × State} {x : α} (h : Reach w n s0 p.2) (e : p = (x, t)) : Reach w n s0 t := by
  subst e
  exact h

theorem Reach.pair {x : α} (h : Reach w n s0 s) : Reach w n s0 (x, s).2 := h
theorem Reach.pair22 {x : α} {y : β} (h : Reach w n s0 s) : Reach w n s0 (x, y, s).2.2 := h

section
variable {c : Prop} {_ : Decidable c}

theorem Reach.ite (ha : Reach w n s0 a) (hb : Reach w n s0 b) : Reach w n s0 (if c then a else b) := by
  split <;> assumption

theorem Reach.ifs (h : Reach w n s0 s) (ha : Reach w n s0 s → Reach w n s0 a) (hb : Reach w n s0 s → Reach w n s0 b) :
    Reach w n s0 (if c then a else b) := .ite (ha h) (hb h)

theorem Reach.opt (h : Reach w n s0 s) (ha : Reach w n s0 s → Reach w n s0 a) : Reach w n s0 (if c then a else s) := .ite (ha h) h

theorem Reach.optElse (h : Reach w n s0 s) (hb : Reach w n s0 s → Reach w n s0 b) : Reach w n s0 (if c then s else b) := .ite h (hb h)

theorem Reach.ite_2 {a b : α × State} (ha : Reach w n s0 a.2) (hb : Reach w n s0 b.2) : Reach w n s0 (if c then a else b).2 := by
  split <;> assumption

theorem Reach.ite_22 {a b : α × β × State} (ha : Reach w n s0 a.2.2) (hb : Reach w n s0 b.2.2) : Reach w n s0 (if c then a else b).2.2 := by
  split <;> assumption

theorem Reach.ifs_22 {a b : α × β × State} (h : Reach w n s0 s) (ha : Reach w n s0 s → Reach w n s0 a.2.2)
    (hb : Reach w n s0 s → Reach w n s0 b.2.2) : Reach w n s0 (if c then a else b).2.2 := .ite_22 (ha h) (hb h)

end

theorem Reach.foldl {f : State → α → State} {xs : List α} (h : Reach w n s0 s) (hf : ∀ s x, Reach w n s0 s → Reach w n s0 (f s x)) :
    Reach w n s0 (xs.foldl f s) :=
  foldl_keeps (Reach w n s0) f hf xs s h

/-! Pages, registers and ports. -/

theorem Reach.takeFree (h : Reach w n s0 s) : Reach w n s0 (takeFree s).2 := h.upd
theorem Reach.setBlk {pg b} (h : Reach w n s0 s) : Reach w n s0 (setBlk s pg b) := h.upd
theorem Reach.bumpF {pg off hi lo k} (h : Reach w n s0 s) : Reach w n s0 (bumpF s pg off hi lo k) := h.upd
theorem Reach.raise {e} (h : Reach w n s0 s) : Reach w n s0 (raise s e) := h.upd
theorem Reach.cardPut {kind unit v} (h : Reach w n s0 s) : Reach w n s0 (cardPut s kind unit v) := h.upd
theorem Reach.injFire {pg due} (h : Reach w n s0 s) : Reach w n s0 (injFire s pg due) := h.upd
theorem Reach.modPort {p f} (h : Reach w n s0 s) : Reach w n s0 (modPort s p f) := h.upd

theorem Reach.cairnTrigger {src btype} (h : Reach w n s0 s) : Reach w n s0 (cairnTrigger s src btype) := by
  unfold Machine.cairnTrigger
  split
  · exact h
  · exact h.upd

theorem Reach.errSet {pg bit addr} (h : Reach w n s0 s) : Reach w n s0 (errSet s pg bit addr) :=
  (h.setBlk (pg := pg) (b := { (blk s pg).err bit addr with injDue := (blk s pg).injDue.filter (fun x => x.1 != bit) })).optElse
    fun h => (h.opt (·.cairnTrigger)).upd

theorem Reach.sendOn {p k req} (h : Reach w n s0 s) : Reach w n s0 (sendOn s p k req) := h.ifs (·.modPort) (·.modPort)

/-! Requests to other devices. -/

theorem Reach.runTake {stream dst} (h : Reach w n s0 s) : Reach w n s0 (runTake s stream dst).2.2 := by
  unfold Machine.runTake
  split
  · exact h.upd.pair22
  · exact h.takeFree.upd

theorem Reach.runAnswered {stream dst} (h : Reach w n s0 s) : Reach w n s0 (runAnswered s stream dst) := by
  unfold Machine.runAnswered
  split
  · exact h.ifs (·.upd) (·.upd)
  · exact h

theorem Reach.modReq {id f} (h : Reach w n s0 s) : Reach w n s0 (modReq s id f) := h.upd
theorem Reach.delReq {id} (h : Reach w n s0 s) : Reach w n s0 (delReq s id) := h.upd
theorem Reach.holdAnswer {x} (h : Reach w n s0 s) : Reach w n s0 (holdAnswer s x) := h.upd

theorem Reach.answer {k status operand data mark isData} (h : Reach w n s0 s) : Reach w n s0 (answer s k status operand data mark isData) := by
  unfold Machine.answer
  dsimp only
  split
  · exact h
  · split
    · exact h.holdAnswer
    · exact h.sendOn

theorem Reach.mirrorGone {m} (h : Reach w n s0 s) : Reach w n s0 (mirrorGone s m) := h.optElse (·.upd.raise)

theorem Reach.relayEnd {o res cause data mark} (h : Reach w n s0 s) : Reach w n s0 (relayEnd s o res cause data mark) := by
  unfold Machine.relayEnd
  split
  · exact h.answer
  · exact h

theorem Reach.endReq {id res0 cause} (h : Reach w n s0 s) : Reach w n s0 (endReq s id res0 cause) := by
  unfold Machine.endReq
  split
  · exact h
  · split
    · exact h
    · extract_lets gone res s1 s2 s3 bit s4 s5 s6
      have h1 : Reach w n s0 s1 := by
        unfold s1
        split
        · exact h.opt (·.mirrorGone)
        · exact h
      have h2 : Reach w n s0 s2 := h1.modReq
      have h3 : Reach w n s0 s3 := h2.opt (·.runAnswered)
      have h4 : Reach w n s0 s4 := h3.opt (·.upd)
      have h5 : Reach w n s0 s5 := h4.opt (·.raise.errSet)
      have h6 : Reach w n s0 s6 := h5.relayEnd
      clear_value gone res s1 s2 s3 bit s4 s5 s6
      exact h6.opt (·.delReq)

theorem Reach.trySend {id} (h : Reach w n s0 s) : Reach w n s0 (trySend s id) := by
  unfold Machine.trySend
  split
  · exact h
  next r _ =>
    refine h.ifs (fun h => h) fun h => h.ifs (·.endReq) fun h => h.ifs (fun h => h) fun h => h.ifs (·.endReq) fun h => h.optElse fun h => ?_
    split
    · exact h
    · refine h.ifs (·.delReq.sendOn) fun h => ?_
      split
      next e =>
      have numbered := e ▸ h.ifs_22 (fun h => h) fun h => .ifs_22 h (fun h => h) (·.runTake)
      exact (((Reach.modReq numbered).opt (·.upd)).opt (·.bumpF)).sendOn

theorem Reach.sendReq {k owner} (h : Reach w n s0 s) : Reach w n s0 (sendReq s k owner) := h.upd.trySend

/-! Lines at their home slices. -/

/-- A mark comes or goes. -/
theorem Reach.marks {s' : State} {ms} (h : Reach w n s0 s) (hs : s' = { s with ram := { s.ram with marks := ms } }) : Reach w n s0 s' := by
  subst hs
  exact h.trans ⟨fun _ _ => rfl, rfl, rfl, fun _ => rfl, fun _ => ⟨rfl, rfl⟩⟩

theorem Reach.setMark {pa} (h : Reach w n s0 s) : Reach w n s0 (setMark s pa) := h.marks rfl

/-- A slice changes in other parts than the lists of what waits there. -/
theorem Reach.setSlice {g x} (h : Reach w n s0 s) (hx : (x.fills, x.waits) = ((slice s g).fills, (slice s g).waits) := by rfl) :
    Reach w n s0 (setSlice s g x) := by
  refine h.trans ⟨fun _ _ => rfl, rfl, rfl, fun k => ?_, fun _ => ⟨rfl, rfl⟩⟩
  unfold slice Machine.setSlice
  by_cases hk : k = g
  · rw [hk, tgetD_tput_same]
    exact hx
  · rw [tgetD_tput_ne _ _ _ hk]

theorem Reach.dropClean {x key} (h : Reach w n s0 s) : Reach w n s0 (dropClean s x key) := by
  unfold Machine.dropClean
  split
  · split
    · exact h.setMark
    · exact h.marks rfl
    · exact h
  · exact h

theorem evict_queues (x : L2Slice) (key free : Nat) : ((evict x key free).fills, (evict x key free).waits) = (x.fills, x.waits) := by
  unfold evict
  split <;> rfl

theorem Reach.displace {g key} (h : Reach w n s0 s) : Reach w n s0 (displace s g key) :=
  h.optElse fun h => h.takeFree.dropClean.setSlice (evict_queues _ _ _)

theorem Reach.hbmRead {pa} (h : Reach w n s0 s) : Reach w n s0 (hbmRead s pa) :=
  h.ifs (·.injFire.bumpF.errSet) (·.opt (·.injFire.bumpF.setMark.errSet))

theorem Reach.l2Mark {pa} (h : Reach w n s0 s) : Reach w n s0 (l2Mark s pa) := by
  unfold Machine.l2Mark
  refine Reach.setMark ?_
  split
  · exact h.setSlice
  · exact h

theorem Reach.l2Inject {pa read} (h : Reach w n s0 s) : Reach w n s0 (l2Inject s pa read) :=
  h.ifs (·.injFire.bumpF.errSet) (·.ifs (·.injFire.bumpF.errSet) (·.opt (·.injFire.l2Mark.errSet)))

theorem Reach.l2Alloc {g set l} (h : Reach w n s0 s) : Reach w n s0 (l2Alloc s g set l) := by
  unfold Machine.l2Alloc
  dsimp only
  split
  · exact h
  · split
    · exact h.setSlice
    · exact h.takeFree.displace.setSlice

theorem Reach.l2Hit {g set v slot write} (h : Reach w n s0 s) : Reach w n s0 (l2Hit s g set v slot write) := by
  unfold Machine.l2Hit
  extract_lets key s1
  have h1 : Reach w n s0 s1 := h.dropClean
  clear_value key s1
  split
  · exact h
  · exact .ite h.setSlice h1.setSlice

theorem Reach.l2Touch {pa write slot fill} (h : Reach w n s0 s) : Reach w n s0 (l2Touch s pa write slot fill) := by
  unfold Machine.l2Touch
  dsimp only
  split
  · exact h.setSlice.opt (·.hbmRead)
  · split
    · exact (h.setSlice.l2Inject.opt (·.hbmRead)).l2Hit
    · exact ((h.setSlice.l2Inject.opt (·.hbmRead)).opt (·.bumpF)).l2Alloc

theorem Reach.touchRead {slot pa} (h : Reach w n s0 s) : Reach w n s0 (touchRead s slot pa) := h.l2Touch

/-! Watches (R292, R293). -/

theorem Reach.setBel {d b} (h : Reach w n s0 s) : Reach w n s0 (setBel s d b) := h.upd

theorem Reach.sendNotice {d e} (h : Reach w n s0 s) : Reach w n s0 (sendNotice s d e) := by
  unfold Machine.sendNotice
  split
  · exact h.raise
  · exact h.ifs (·.errSet) (·.sendReq)
  · exact h.setBel

theorem Reach.notifyWatch {d v status value} (h : Reach w n s0 s) : Reach w n s0 (notifyWatch s d v status value) :=
  (h.ifs (·.bumpF) (·.bumpF)).ifs (·.sendNotice) (·.setBel)

theorem Reach.endWatch {d v status} (h : Reach w n s0 s) : Reach w n s0 (endWatch s d v status) := h.setBel.notifyWatch

theorem Reach.entryError {d v} (h : Reach w n s0 s) : Reach w n s0 (entryError s d v) :=
  h.takeFree.takeFree.setBel.errSet.cardPut.opt (·.notifyWatch)

theorem Reach.belInject {d ws} (h : Reach w n s0 s) : Reach w n s0 (belInject s d ws) := by
  unfold Machine.belInject
  split
  · exact h
  · exact h.ifs (·.injFire) (·.opt (·.injFire.entryError))

theorem Reach.evalWatches {d sel} (h : Reach w n s0 s) : Reach w n s0 (evalWatches s d sel) :=
  h.belInject.optElse fun h => (h.foldl fun _ _ h => h.errSet).setBel.foldl fun _ _ h => h.endWatch

theorem Reach.evalLine {pa} (h : Reach w n s0 s) : Reach w n s0 (evalLine s pa) := h.opt (·.evalWatches)

theorem Reach.endResv {pa own} (h : Reach w n s0 s) : Reach w n s0 (endResv s pa own) := h.upd

/-! Writes of lines, and staged writes (R220, R313). -/

/-- A write to memory. -/
theorem Reach.writes {r : Ram} (h : Reach true n s0 s) : Reach true n s0 { s with ram := r } :=
  h.trans ⟨fun _ _ => rfl, rfl, rfl, fun _ => rfl, nofun⟩

theorem Reach.clrMark {pa} (h : Reach w n s0 s) : Reach w n s0 (clrMark s pa) := by
  unfold Machine.clrMark
  extract_lets k st g x s1 r s2
  have h1 : Reach w n s0 s1 := h.opt fun h => h.setSlice (x := { x with cleared := tput x.cleared (pa / 128) () }) (g := g) rfl
  have h2 : Reach w n s0 s2 := h1.marks rfl
  exact h2.opt (·.upd)

/-- What a write of a line does once its bytes stand in memory. -/
theorem Reach.stored {pa slot : Nat} {mark whole : Bool} {own} (h : Reach w n s0 s) :
    Reach w n s0 (Machine.evalLine (Machine.endResv (Machine.l2Touch
      (if mark then Machine.setMark (if whole then Machine.clrMark s pa else s) pa else (if whole then Machine.clrMark s pa else s))
      pa true slot (!whole)) pa own) pa) :=
  ((h.opt (·.clrMark)).opt (·.setMark)).l2Touch.endResv.evalLine

theorem Reach.lineStore {slot pa bytes mark own whole} (h : Reach true n s0 s) : Reach true n s0 (lineStore s slot pa bytes mark own whole) :=
  h.ifs (·.bumpF) (·.writes.stored)

theorem Reach.lineWrite {slot pa bytes mark own} (h : Reach true n s0 s) : Reach true n s0 (lineWrite s slot pa bytes mark own) := h.lineStore
theorem Reach.lineAtomic {slot x kind y z} (h : Reach true n s0 s) : Reach true n s0 (lineAtomic s slot x kind y z).2 := h.lineWrite
theorem Reach.lineReduce {slot pa addends mark} (h : Reach true n s0 s) : Reach true n s0 (lineReduce s slot pa addends mark) := h.lineStore

theorem Reach.setTxg {i t} (h : Reach w n s0 s) : Reach w n s0 (setTxg s i t) := h.upd

theorem Reach.txgAbort {i cause} (h : Reach w n s0 s) : Reach w n s0 (txgAbort s i cause) := by
  unfold Machine.txgAbort
  extract_lets t s1 s2
  have h2 : Reach w n s0 s2 := h.setTxg.bumpF
  clear_value t s1 s2
  split
  · split
    · exact h2.upd
    · exact h2
  · exact h

theorem Reach.stageWrite {h' space slot pa bytes mark kindOk} (h : Reach w n s0 s) :
    Reach w n s0 (stageWrite s h' space slot pa bytes mark kindOk) :=
  h.ifs (·.bumpF.errSet) fun h => h.ifs (·.txgAbort) fun h => h.ifs (·.txgAbort) fun h => h.ifs (·.txgAbort.errSet) fun h => h.ifs
    (·.injFire.txgAbort.errSet) fun h => (h.optElse (·.displace)).setTxg

/-! The tile's own part, and translation by its agent. -/

/-- A change to other parts of the tile than its groups and workgroups. -/
theorem Reach.modTile {f : Tile → Tile} (h : Reach w n s0 s) (hg : ∀ x, ((f x).groups, (f x).wgs) = (x.groups, x.wgs) := by intro _; rfl) :
    Reach w n s0 (modTile s n f) := by
  refine h.trans ⟨fun m hm => tile_modTile_ne _ _ hm, ?_, ?_, fun _ => rfl, fun _ => ⟨rfl, rfl⟩⟩
  · rw [tile_modTile_same]
    exact congrArg Prod.fst (hg _)
  · rw [tile_modTile_same]
    exact congrArg Prod.snd (hg _)

theorem Reach.perfCount {ev k} (h : Reach w n s0 s) : Reach w n s0 (perfCount s n ev k) := by
  have hp := perfCount_same s n ev k
  have hl : (Machine.perfCount s n ev k).l2 = s.l2 := by
    have := congrArg State.l2 hp.rest
    exact this
  have hram : (Machine.perfCount s n ev k).ram = s.ram := by
    have := congrArg State.ram hp.rest
    exact this
  refine h.trans ⟨hp.tiles, ?_, ?_, fun k => by rw [slice, hl, slice], fun _ => by rw [hram]; exact ⟨rfl, rfl⟩⟩
  · rw [hp.here]
  · rw [hp.here]

theorem Reach.countStrict {strict} (h : Reach w n s0 s) : Reach w n s0 (countStrict s n strict) := h.opt (·.bumpF)

theorem Reach.walk {die space va} (h : Reach w n s0 s) : Reach w n s0 (walk s die space va).2 := by
  unfold Machine.walk
  extract_lets slot act base count s1 seen next
  have h1 : Reach w n s0 s1 := h.bumpF
  clear_value slot act base count s1 seen next
  split
  · exact h1.errSet
  · split
    · exact h1
    · exact .ite_2 h1.errSet (.ite_2 h1 (.ite_2 h1 (.ite_2 h1.errSet h1)))

theorem Reach.cachePut {ag e} (h : Reach w n s0 s) : Reach w n s0 (cachePut s ag e) := h.upd
theorem Reach.cacheParity {die space va} (h : Reach w n s0 s) : Reach w n s0 (cacheParity s die space va) := h.opt (·.upd.injFire.errSet)
theorem Reach.ownMiss (h : Reach w n s0 s) : Reach w n s0 (ownMiss s (agTile n)) := h.opt (·.perfCount)

theorem Reach.lookup {die space va} (h : Reach w n s0 s) : Reach w n s0 (lookup s (agTile n) die space va).2 := by
  unfold Machine.lookup
  dsimp only
  have h0 : Reach w n s0 (if agTile n = agDie die then Machine.cacheParity s die space va else s) := h.opt (·.cacheParity)
  generalize (if agTile n = agDie die then Machine.cacheParity s die space va else s) = s1 at h0 ⊢
  split
  · exact h0.cachePut
  · have h1 : Reach w n s0 (if agTile n = agDie die then s1 else Machine.cacheParity (Machine.ownMiss s1 (agTile n)) die space va) :=
      h0.optElse (·.ownMiss.cacheParity)
    generalize (if agTile n = agDie die then s1 else Machine.cacheParity (Machine.ownMiss s1 (agTile n)) die space va) = s2 at h1 ⊢
    split
    · exact h1.cachePut.cachePut
    · split
      next e => exact (h1.bumpF.walk.of_pair e).cachePut.cachePut
      · exact h1.bumpF.walk

theorem Reach.translate {die space va a host} (h : Reach w n s0 s) : Reach w n s0 (translate s (agTile n) die space va a host).2 := by
  unfold Machine.translate
  refine .ite_2 h (.ite_2 h ?_)
  split
  next e => exact h.lookup.of_pair e
  next e =>
    have hl := h.lookup.of_pair e
    split
    · exact hl
    · exact hl

theorem Reach.translateEach {die space a host vas} (h : Reach w n s0 s) : Reach w n s0 (translateEach s (agTile n) die space a host vas).2 := by
  induction vas generalizing s with
  | nil => exact h
  | cons va t ih =>
    unfold Machine.translateEach
    split
    next e => exact ih (h.translate.of_pair e)
    next e => exact ih (h.translate.of_pair e)

theorem Reach.translateAll {die space a host vas} (h : Reach w n s0 s) : Reach w n s0 (translateAll s (agTile n) die space a host vas).2 :=
  Reach.optElse h.translateEach (·.takeFree.bumpF)

/-! Reads through the L1 (R228, R230). -/

theorem Reach.l1Parity {space vline} (h : Reach w n s0 s) : Reach w n s0 (l1Parity s n space vline) := h.opt (·.injFire.modTile.bumpF.errSet)

theorem Reach.l1Read {space slot vline pa} (h : Reach w n s0 s) : Reach w n s0 (l1Read s n space slot vline pa).2 := by
  unfold Machine.l1Read
  dsimp only
  split
  · exact h.modTile.pair
  · exact h.touchRead.modTile.pair

theorem Reach.prefLines {wg vas} (h : Reach w n s0 s) : Reach w n s0 (prefLines s n wg vas) := by
  unfold Machine.prefLines
  refine Reach.foldl h fun s x h => ?_
  split
  next e =>
    extract_lets s1 home
    have h1 : Reach w n s0 s1 := (h.translate.of_pair e).l1Parity
    clear_value s1
    split
    · exact h1
    · exact h1.ifs (·.modTile) (·.l1Read)
    · exact h1.ifs (·.modTile) (·.l1Read)
    · split
      · exact h1.modTile
      · exact h1.optElse (·.sendReq)

/-! Bytes of memory. -/

/-- A read does not look at the marks. -/
theorem byteUnder_congr {q r : Ram} (hc : q.cells = r.cells) (hk : q.keys = r.keys) (k x : Nat) : byteUnder q k x = byteUnder r k x := by
  unfold byteUnder block16 cellAt
  rw [hc, hk]

theorem Reach.sameBytes (h : Reach false n s t) : SameBytes s t := by
  obtain ⟨hcells, hkeys⟩ := h.bytes rfl
  exact fun k a => byteUnder_congr hcells hkeys k a

end Sys2Proof.Laws
end

