-- ==== Sys2Proof/Proofs/MemoryIssue.lean ====
section
/-!
SUPPORT. A memory operation that acts: what its issue leaves of the machine (R88), and the count of what it has issued (R94, R95).
-/
namespace Sys2Proof.Laws
open Sys2Proof.Machine Sys2Proof.Safety

/-! Completed instructions leave their counter (R95). -/

theorem retireCls_sublist (c : Nat) (ps : List Pend) : (retireCls c ps).Sublist ps := by
  induction ps with
  | nil => exact List.Sublist.refl _
  | cons p ps ih =>
    unfold retireCls
    split
    · split
      · exact ih.cons p
      · exact List.Sublist.refl _
    · exact ih.cons_cons p

theorem mem_retireCls {c : Nat} {p : Pend} {ps : List Pend} (h : p ∈ ps) (ho : p.done = false) : p ∈ retireCls c ps := by
  induction ps with
  | nil => cases h
  | cons q ps ih =>
    unfold retireCls
    rcases List.mem_cons.1 h with rfl | h
    · rw [ho]
      split <;> exact List.mem_cons_self
    · split
      · split
        · exact ih h
        · exact List.mem_cons_of_mem _ h
      · exact List.mem_cons_of_mem _ (ih h)

theorem foldl_retireCls_sublist (cs : List Nat) : ∀ ps : List Pend, (cs.foldl (fun l c => retireCls c l) ps).Sublist ps := by
  induction cs with
  | nil => exact fun ps => List.Sublist.refl ps
  | cons c cs ih => exact fun ps => (ih _).trans (retireCls_sublist c ps)

theorem mem_foldl_retireCls {p : Pend} (ho : p.done = false) (cs : List Nat) :
    ∀ ps : List Pend, p ∈ ps → p ∈ cs.foldl (fun l c => retireCls c l) ps := by
  induction cs with
  | nil => exact fun ps h => h
  | cons c cs ih => exact fun ps h => ih _ (mem_retireCls h ho)

theorem retireAll_sublist (ps : List Pend) : (retireAll ps).Sublist ps := foldl_retireCls_sublist _ ps

/-- What has not completed stays. -/
theorem mem_retireAll {p : Pend} {ps : List Pend} (h : p ∈ ps) (ho : p.done = false) : p ∈ retireAll ps := mem_foldl_retireCls ho _ ps h

/-- An instruction that completes is open no more. -/
theorem complete_spec (g : Group) (id : Nat) : Completed (g.complete id) id := by
  intro p hp hid
  have hmem : p ∈ g.pend.map (fun p => if p.id = id then { p with done := true } else p) := (retireAll_sublist _).subset hp
  obtain ⟨q, -, hq⟩ := List.mem_map.1 hmem
  by_cases hqid : q.id = id
  · rw [if_pos hqid] at hq
    rw [← hq]
  · rw [if_neg hqid] at hq
    exact absurd (hq ▸ hid) hqid

/-! What has been issued (R94). -/

section
variable {s u v : State} {r : GRef} {g g1 : Group} {m : MOp} {i : Instr}

/-- The group that a memory operation leaves, from the group as its memory slot has left it. -/
abbrev memoryAfter (g g1 : Group) (m : MOp) : Group := bundleAfter g g1 (mBundle m) {}

/-- An instruction as its group issues it. -/
def openPend (g : Group) (c : Nat) (k : PKind) : Pend := { id := g.nextId, cls := c, done := false, kind := k }

/-- What a bundle has issued carries its bits (R79). -/
def withRaw (first raw : Nat) (p : Pend) : Pend := if p.id ≥ first then { p with raw := raw } else p

theorem withRaw_keeps (first raw : Nat) (p : Pend) :
    (withRaw first raw p).id = p.id ∧ (withRaw first raw p).cls = p.cls ∧ (withRaw first raw p).done = p.done ∧ (withRaw first raw p).kind = p.kind := by
  unfold withRaw
  split <;> exact ⟨rfl, rfl, rfl, rfl⟩

theorem length_filter_withRaw (first raw c : Nat) (ps : List Pend) :
    ((ps.map (withRaw first raw)).filter (fun p => p.cls == c)).length = (ps.filter (fun p => p.cls == c)).length := by
  rw [List.filter_map, List.length_map]
  congr 2
  funext p
  obtain ⟨-, hcls, -⟩ := withRaw_keeps first raw p
  exact congrArg (· == c) hcls

/-- An instruction that a group counts as it issues. -/
theorem counted_addPend (g : Group) (x : Option Nat) (c : Nat) (k : PKind) (m : MOp) :
    Counted g (memoryAfter g (Group.addPend { noWait g with txg := x } c false k) m) c 16 (fun k' => k' = k) := by
  have hpend : (memoryAfter g (Group.addPend { noWait g with txg := x } c false k) m).pend =
      (retireAll (g.pend ++ [openPend g c k])).map (withRaw g.nextId (mBundle m).raw) := rfl
  have hnew : openPend g c k ∈ retireAll (g.pend ++ [openPend g c k]) := mem_retireAll (List.mem_append_right _ (List.mem_singleton.2 rfl)) rfl
  have hone : 0 < ((retireAll (g.pend ++ [openPend g c k])).filter (fun p => p.cls == c)).length :=
    List.length_pos_of_mem (List.mem_filter.2 ⟨hnew, by simp [openPend]⟩)
  refine ⟨⟨withRaw g.nextId (mBundle m).raw (openPend g c k), ?_, withRaw_keeps _ _ _⟩, ?_, fun h0 => ?_, Nat.succ_ne_self _, rfl, rfl, rfl,
    ⟨rfl, rfl, rfl, rfl, rfl, rfl⟩, rfl⟩
  · rw [hpend]
    exact List.mem_map_of_mem hnew
  · rw [Group.count, hpend, length_filter_withRaw]
    omega
  · have hsub := ((retireAll_sublist (g.pend ++ [openPend g c k])).filter (fun p => p.cls == c)).length_le
    have hold : (g.pend.filter (fun p => p.cls == c)).length = 0 := h0
    rw [List.filter_append, List.length_append, hold] at hsub
    have hlast : ([openPend g c k].filter (fun p => p.cls == c)).length ≤ 1 := List.length_filter_le _ _
    rw [Group.count, hpend, length_filter_withRaw]
    omega

/-! What the memory slot leaves. -/

/-- The memory slot has left the other tiles, the other groups, the workgroups and the bytes of memory as at issue. -/
structure Acted (s u : State) (r : GRef) : Prop where
  others : ∀ n, n ≠ r.tile → tile u n = tile s n
  groups : ∀ n, n ≠ r.slot → SameGroup s u r.tile n
  wgs    : (tile u r.tile).wgs = (tile s r.tile).wgs
  bytes  : u.ram.cells = s.ram.cells ∧ u.ram.keys = s.ram.keys

/-- Accesses of the tile's agent from the state at issue. -/
theorem acted_of_reach (h : Reach false r.tile (roundOne s r.tile r.slot) u) : Acted s u r := by
  obtain ⟨hcells, hkeys⟩ := h.bytes rfl
  refine ⟨fun n hn => (h.others n hn).trans (roundOne_tile_ne s _ hn), fun n _ => ?_, h.wgs.trans (roundOne_wgs s _ _), ?_⟩
  · rw [SameGroup, group?, h.groups]
    exact roundOne_same s r.tile r.slot n
  · rw [hcells, hkeys, ram_roundOne]
    exact ⟨rfl, rfl⟩

/-- The group's own record changes. -/
theorem Acted.setGroup (h : Acted s u r) (g1 : Group) : Acted s (setGroup u r.tile r.slot g1) r := by
  refine ⟨fun n hn => ?_, fun n hn => ?_, ?_, h.bytes⟩
  · rw [Machine.setGroup, tile_modTile_ne _ _ hn]
    exact h.others n hn
  · rw [SameGroup, group?_setGroup_ne u g1 (Or.inr hn)]
    exact h.groups n hn
  · rw [Machine.setGroup, tile_modTile_same]
    exact h.wgs

theorem Acted.sameBytes (h : Acted s u r) : SameBytes s u := by
  obtain ⟨hcells, hkeys⟩ := h.bytes
  exact fun k a => byteUnder_congr hcells hkeys k a

theorem placeGroup_sb (u : State) (t n : Nat) (g g' : Group) (b : Bundle) : (tile (placeGroup u t n g g' b) t).sb = (tile u t).sb := by
  unfold placeGroup
  dsimp only
  rw [(perfCount_same _ t 2 1).here, tile_modTile_same, setGroup, tile_modTile_same]

/-- A memory operation that acts: its group goes on from what the memory slot has left. -/
theorem Issuable.goes (h : Issuable s r g m) (hi : exec i s = issueM s r m)
    (hm : mExec (roundOne s r.tile r.slot) r.tile r.slot (noWait g) m = .ok u) (ha : Acted s u r)
    (hg : group? u r.tile r.slot = some g1) (hrun : g1.stat = .run) :
    ∃ t, exec i s = .next t ∧ group? t r.tile r.slot = some (memoryAfter g g1 m) ∧ SameBytes s t ∧ OtherGroups s t r ∧
      (tile t r.tile).sb = (tile u r.tile).sb := by
  have hask : ∀ w, wg? u r.tile g.wg = some w → w.asked = 0 := fun w hw => h.may.unasked w (by rwa [wg?, ha.wgs] at hw)
  have hone : issueOne s r (mBundle m) = placeGroup u r.tile r.slot (noWait g) (memoryAfter g g1 m) (mBundle m) := by
    rw [issueOne_applies h.may (ready_m h.may h.room (pwaitHeld_none h.held)) (bundleFault_memory h.legal (memory_inFile h.data h.off)) rfl,
      applyBundle_memory h.may hm hg hrun, parkAsked_placeGroup hask]
  obtain ⟨phere, prest, -, ptiles, pgroups, pwgs, -⟩ := placeGroup_spec u r.tile r.slot (noWait g) (memoryAfter g g1 m) (mBundle m)
  refine ⟨_, hi.trans (congrArg Host.Outcome.next hone), phere, fun k a => ?_, ⟨fun n hn => (ptiles n hn).trans (ha.others n hn), fun n hn => ?_,
    pwgs.trans ha.wgs⟩, placeGroup_sb _ _ _ _ _ _⟩
  · rw [ram_of_elsewhere prest]
    exact ha.sameBytes k a
  · rw [SameGroup, pgroups n hn]
    exact ha.groups n hn

/-- A memory operation that counts under one counter. -/
theorem Issuable.counts {x : Option Nat} {c : Nat} {k : PKind} (h : Issuable s r g m) (hi : exec i s = issueM s r m)
    (hm : mExec (roundOne s r.tile r.slot) r.tile r.slot (noWait g) m = .ok (setGroup v r.tile r.slot (Group.addPend { noWait g with txg := x } c false k)))
    (hv : Reach false r.tile (roundOne s r.tile r.slot) v) :
    ∃ t g', exec i s = .next t ∧ group? t r.tile r.slot = some g' ∧ Counted g g' c 16 (fun k' => k' = k) ∧ SameBytes s t ∧ OtherGroups s t r ∧
      g'.txg = x ∧ (tile t r.tile).sb = (tile v r.tile).sb := by
  obtain ⟨t, ht, hg, hbytes, hothers, hsb⟩ := h.goes hi hm ((acted_of_reach hv).setGroup _) (group?_setGroup_same _ _ _ _) h.may.runs
  refine ⟨t, _, ht, hg, counted_addPend g x c k m, hbytes, hothers, rfl, hsb.trans ?_⟩
  rw [setGroup, tile_modTile_same]

theorem Issuable.countsUnder {x : Option Nat} {c : Nat} {k : PKind} (h : Issuable s r g m) (hi : exec i s = issueM s r m)
    (hm : mExec (roundOne s r.tile r.slot) r.tile r.slot (noWait g) m = .ok (setGroup v r.tile r.slot (Group.addPend { noWait g with txg := x } c false k)))
    (hv : Reach false r.tile (roundOne s r.tile r.slot) v) : CountsUnder s r g i c (fun k' => k' = k) := by
  obtain ⟨t, g', ht, hg, hcount, hbytes, hothers, -⟩ := h.counts hi hm hv
  exact ⟨t, g', ht, hg, hcount, hbytes, hothers⟩

end

end Sys2Proof.Laws
end

