-- ==== Sys2Proof/Proofs/Synchronisation.lean ====
section
/-!
PROOF. O18: fences, INVL1, SIGNAL, the bindings and PREF (R108, R110, R278, R290, R311).
-/
namespace Sys2Proof.Laws
open Sys2Proof.Machine Sys2Proof.Safety

/-! What the memory slot comes to (R110). -/

section
variable {S : State} {t n : Nat} {g : Group} {w : Wg}

theorem mExec_fence (hw : wg? S t g.wg = some w) (sc : Nat) :
    mExec S t n g ⟨0x64, sc, 0, 0⟩ = .ok (setGroup S t n (g.addPend 4 false (.sync (.fence sc)))) := by
  unfold mExec
  rw [hw]
  rfl

theorem mExec_invl1 (hw : wg? S t g.wg = some w) : mExec S t n g ⟨0x65, 0, 0, 0⟩ = .ok (setGroup S t n (g.addPend 4 false (.sync .invl1))) := by
  unfold mExec
  rw [hw]
  rfl

theorem mExec_txbind (hw : wg? S t g.wg = some w) (d : Nat) : mExec S t n g ⟨0x6A, d, 0, 0⟩ =
    .ok (setGroup S t n (Group.addPend { g with txg := some (g.uget d) } 4 false (.sync (.txbind (g.uget d))))) := by
  unfold mExec
  rw [hw]
  rfl

theorem mExec_txunbind (hw : wg? S t g.wg = some w) :
    mExec S t n g ⟨0x6B, 0, 0, 0⟩ = .ok (setGroup S t n (Group.addPend { g with txg := none } 4 false (.sync .txunbind))) := by
  unfold mExec
  rw [hw]
  rfl

/-- PREF reaches the L1 of its tile and the slices alone. -/
theorem mExec_pref (hw : wg? S t g.wg = some w) (a b : Nat) : ∃ u, mExec S t n g ⟨0x66, 0, a, b⟩ = .ok u ∧ Reach false t S u := by
  refine ⟨_, by unfold mExec; rw [hw]; rfl, ?_⟩
  exact ((Reach.refl S).countStrict).optElse (·.prefLines)

/-- The store buffer entry of a SIGNAL (R290). -/
def signalEntry (x : Tile) (n : Nat) (g : Group) (w : Wg) (m : MOp) (ty : Nat) (o : XOut) : SbEntry :=
  { storeEntry n g w.space m ty with id := x.nextSb, vline := 128 * (g.uget m.b / 128), lanes := storeLanes g m ty o.dstOf }

/-- An entry that is no store merges into none (R274). -/
theorem pushEntries_signal {m : MOp} (hop : m.op = 0x68) (x : Tile) (n : Nat) (g : Group) (w : Wg) (ty : Nat) (o : XOut) :
    pushEntries x g (storeEntry n g w.space m ty) (storeLanes g m ty o.dstOf) =
      ({ x with sb := x.sb ++ [signalEntry x n g w m ty o], nextSb := x.nextSb + 1 }, 1) := by
  have hkind : (storeEntry n g w.space m ty).kind = .signal := by simp [storeEntry, hop, mStore, mStc]
  have hlane : storeLanes g m ty o.dstOf = [⟨g.nextId, 0, g.uget m.b, o.dstOf (g.uget m.b), toBytes 8 (g.uget m.d)⟩] := if_pos hop
  have hlines : ((storeLanes g m ty o.dstOf).map (fun l => l.va / 128)).eraseDups = [g.uget m.b / 128] := by
    rw [hlane]
    rfl
  have hall : (storeLanes g m ty o.dstOf).filter (fun l => l.va / 128 == g.uget m.b / 128) = storeLanes g m ty o.dstOf :=
    List.filter_eq_self.2 fun l hl => by
      rw [hlane] at hl
      cases List.mem_singleton.1 hl
      exact beq_self_eq_true _
  have hmerge : ∀ y v, mergesInto x g (storeEntry n g w.space m ty) y v = false := fun y v => by simp [mergesInto, hkind]
  unfold pushEntries
  rw [hlines, List.foldl_cons, List.foldl_nil]
  dsimp only
  rw [hall]
  cases x.youngest (storeEntry n g w.space m ty).slot with
  | none => rfl
  | some y =>
    dsimp only
    rw [hmerge]
    rfl

theorem Reach.setTile {b : Bool} {s0 s : State} {x : Tile} (h : Reach b n s0 s) (hg : x.groups = (tile s n).groups) (hw : x.wgs = (tile s n).wgs) :
    Reach b n s0 (setTile s n x) := by
  refine h.trans ⟨fun m hm => tile_setTile_ne s x hm, ?_, ?_, fun _ => rfl, fun _ => ⟨rfl, rfl⟩⟩
  · rw [tile_setTile_same, hg]
  · rw [tile_setTile_same, hw]

/-- The state in which a SIGNAL's entry has been made. -/
def signalled (S : State) (t n : Nat) (g : Group) (w : Wg) (m : MOp) : State :=
  let x := translateAll S (agTile t) (tileDie t) w.space .rmw false [g.uget m.b]
  let ty := accType (tile x.2 t) w.launch [g.uget m.b]
  let s2 := countStrict x.2 t ty.2
  setTile s2 t { tile s2 t with sb := (tile s2 t).sb ++ [signalEntry (tile s2 t) n g w m ty.1 x.1], nextSb := (tile s2 t).nextSb + 1 }

theorem tile_countStrict (s : State) (t : Nat) (strict : Bool) (m : Nat) : tile (countStrict s t strict) m = tile s m := by
  unfold countStrict
  split <;> rfl

theorem nextSb_translated {u : State} (h : WorkFrom false S u) (t : Nat) : (tile u t).nextSb = (tile S t).nextSb := by
  have := congrArg Tile.nextSb (h.tiles t)
  exact this

theorem mExec_signal {m : MOp} (hw : wg? S t g.wg = some w) (hop : m.op = 0x68) (hal : g.uget m.b % 8 = 0)
    (hx : (translateAll S (agTile t) (tileDie t) w.space .rmw false [g.uget m.b]).1.fault = none) :
    mExec S t n g m = .ok (setGroup (signalled S t n g w m) t n (g.addPend 4 false (.sync (.signal (tile S t).nextSb)))) := by
  have hnext := nextSb_translated ((WorkFrom.refl S).translateAll (ag := agTile t) (die := tileDie t) (space := w.space) (a := .rmw)
    (host := false) (vas := [g.uget m.b])) t
  have hvas : mVas g m = [g.uget m.b] := by simp [mVas, hop]
  have hdups : [g.uget m.b].eraseDups = [g.uget m.b] := rfl
  have hacc : mAcc m.op = .rmw := by rw [hop]; rfl
  have hclass : (mLoadW m.op || mStoreW m.op || mAtomW m.op || mAtomWN m.op) = false := by rw [hop]; rfl
  have hload : (mLoad m.op || mLdr m.op) = false := by rw [hop]; rfl
  have hrest : m.op ≠ 0x64 ∧ m.op ≠ 0x65 ∧ m.op ≠ 0x66 ∧ m.op ≠ 0x69 ∧ m.op ≠ 0x6A ∧ m.op ≠ 0x6B := by omega
  obtain ⟨h64, h65, h66, h69, h6A, h6B⟩ := hrest
  have h68 : (m.op = 0x68) = True := eq_true hop
  have hgood : decide (g.uget m.b % 8 ≠ 0) = false := by simp [hal]
  unfold mExec
  simp only [hw, hclass, h64, h65, h66, h69, h6A, h6B, hload, hvas, hdups, hacc, hx, h68, hgood, pushEntries_signal hop, signalled,
    tile_countStrict, hnext, Bool.false_eq_true, if_false, if_true, decide_true, Bool.true_or, Bool.and_false, Bool.not_true, Bool.false_and]

theorem reach_signalled (w : Wg) (m : MOp) : Reach false t S (signalled S t n g w m) := by
  unfold signalled
  extract_lets x ty s2
  have h2 : Reach false t S s2 := ((Reach.refl S).translateAll).countStrict
  clear_value x ty s2
  exact h2.setTile rfl rfl

end

/-! Completion (R94, R278, R280). -/

section
variable {s : State} {r : GRef} {g : Group} {w : Wg} {p : Pend} {k : SyncKind}

/-- The state after SYNC_COMPLETE of an open instruction that synchronises. -/
def syncNext (s : State) (r : GRef) (g : Group) (w : Wg) (id : Nat) : SyncKind → State
  | .fence scope =>
    if !fenceMay (tile s r.tile) g r.slot id scope then s
    else match noteFence s r.tile w.launch w.space w.fsw (if scope = 3 then g.remErr else 0) (strGroup r.tile r.slot) with
      | (true, s1) => modGroup s1 r.tile r.slot (·.complete id)
      | (false, s1) => s1
  | .invl1 => modGroup (l1Inval s r.tile) r.tile r.slot (·.complete id)
  | .signal e => if (tile s r.tile).sb.any (fun y => y.id == e) then s else modGroup s r.tile r.slot (·.complete id)
  | .txbind _ => modGroup s r.tile r.slot (·.complete id)
  | .txunbind => modGroup s r.tile r.slot (·.complete id)

theorem syncComplete_eq (hg : group? s r.tile r.slot = some g) (hw : wg? s r.tile g.wg = some w)
    (hp : g.pend.find? (fun q => q.id == p.id && !q.done) = some p) (hk : p.kind = .sync k) :
    exec (.syncComplete r p.id) s = .next (syncNext s r g w p.id k) := by
  obtain ⟨id, cls, fin, kind, raw⟩ := p
  cases hk
  change execSyncComplete r id s = _
  unfold execSyncComplete
  dsimp only at hp ⊢
  rw [hg]
  dsimp only
  rw [hp, hw]
  cases k <;> rfl

/-- A fence with nothing to record completes once the older accesses have reached its scope (R278, R280). -/
theorem syncNext_fence {sc id : Nat} (hmay : fenceMay (tile s r.tile) g r.slot id sc = true) (herr : sc ≠ 3 ∨ g.remErr = 0) :
    syncNext s r g w id (.fence sc) = modGroup s r.tile r.slot (·.complete id) := by
  have hbits : (if sc = 3 then g.remErr else 0) = 0 := by
    rcases herr with h | h
    · exact if_neg h
    · rw [h]
      exact ite_self _
  simp only [syncNext, hmay, hbits]
  rfl

/-- An instruction of a group completes, and nothing else of the group changes. -/
theorem completes {u : State} (hg : group? u r.tile r.slot = some g) (id : Nat) :
    ∃ g', group? (modGroup u r.tile r.slot (·.complete id)) r.tile r.slot = some g' ∧ Completed g' id ∧ g'.u = g.u ∧ g'.v = g.v ∧ g'.p = g.p ∧
      SameMasks g g' ∧ g'.pc = g.pc := by
  refine ⟨g.complete id, ?_, complete_spec g id, rfl, rfl, rfl, ⟨rfl, rfl, rfl, rfl, rfl, rfl⟩, rfl⟩
  rw [group?_modGroup, if_pos ⟨rfl, rfl⟩, hg]
  rfl

theorem l1Inval_tile (s : State) (t : Nat) : tile (l1Inval s t) t = { tile s t with l1 := [], prefs := [], l1Req := s.nextReq } := by
  have hbump : tile (l1Inval s t) t = tile (modTile s t (fun x => { x with l1 := [], prefs := [], l1Req := s.nextReq })) t := rfl
  rw [hbump, tile_modTile_same]

theorem sameBytes_modGroup (s : State) (t n : Nat) (f : Group → Group) : SameBytes s (modGroup s t n f) := fun _ _ => rfl

end

/-- A legal operation that names no register of the group's (R110). -/
theorem issuable_plain {s : State} {r : GRef} {g : Group} {m : MOp} (h : MayIssue s r g) (hb : mBuffered m.op = false) (hne : m.op ≠ 0x69)
    (hl : m.legal = true) (hd : m.dRegs = 0) (ha : m.laneWise = false) : Issuable s r g m :=
  ⟨h, room_of_unbuffered hb, Or.inl hne, hl, Or.inl hd, Or.inl ha⟩

section
variable {s t : State} {r : GRef} {g : Group} {w : Wg} {m : MOp} {i : Instr} {k : PKind}

/-- An operation that counts and leaves its group's binding. -/
theorem Issuable.countsUnder_same {v : State} {c : Nat} (h : Issuable s r g m) (hi : exec i s = issueM s r m)
    (hm : mExec (roundOne s r.tile r.slot) r.tile r.slot (noWait g) m = .ok (setGroup v r.tile r.slot ((noWait g).addPend c false k)))
    (hv : Reach false r.tile (roundOne s r.tile r.slot) v) : CountsUnder s r g i c (fun k' => k' = k) :=
  h.countsUnder (x := g.txg) hi hm hv

/-- A change of the group's binding counts, and the group has its new binding. -/
theorem Issuable.binds {x : Option Nat} (h : Issuable s r g m) (hi : exec i s = issueM s r m)
    (hm : mExec (roundOne s r.tile r.slot) r.tile r.slot (noWait g) m =
      .ok (setGroup (roundOne s r.tile r.slot) r.tile r.slot (Group.addPend { noWait g with txg := x } 4 false k))) :
    CountsUnder s r g i 4 (fun k' => k' = k) ∧ ∀ t, exec i s = .next t → (group? t r.tile r.slot).map (·.txg) = some x := by
  refine ⟨h.countsUnder hi hm (Reach.refl _), fun t ht => ?_⟩
  obtain ⟨t', g', ht', hg, -, -, -, htxg, -⟩ := h.counts hi hm (Reach.refl _)
  cases ht.symm.trans ht'
  rw [hg]
  exact congrArg some htxg

theorem pref_moves_on {a : BitVec 8} {b : BitVec 5} (h : MayIssue s r g) (hw : wg? (roundOne s r.tile r.slot) r.tile g.wg = some w) (ha : inFile g a) :
    ∃ t g', exec (.pref r a b) s = .next t ∧ group? t r.tile r.slot = some g' ∧ g'.u = g.u ∧ g'.v = g.v ∧ g'.p = g.p ∧ SameMasks g g' ∧
      Advances g g' 16 ∧ SameBytes s t ∧ OtherGroups s t r := by
  obtain ⟨u, hu, hreach⟩ := mExec_pref (n := r.slot) (g := noWait g) hw a.toNat b.toNat
  have hgu : group? u r.tile r.slot = some (noWait g) := by
    rw [group?, hreach.groups]
    exact group?_roundOne h
  have hiss : Issuable s r g ⟨0x66, 0, a.toNat, b.toNat⟩ := ⟨h, room_of_unbuffered rfl, Or.inl (by simp), rfl, Or.inl rfl, Or.inr ha⟩
  obtain ⟨t, ht, hg, hbytes, hothers, -⟩ := hiss.goes (i := .pref r a b) rfl hu (acted_of_reach hreach) hgu h.runs
  exact ⟨t, _, ht, hg, rfl, rfl, rfl, ⟨rfl, rfl, rfl, rfl, rfl, rfl⟩, rfl, hbytes, hothers⟩

/-- The store buffer in which a SIGNAL's entry has been made. -/
theorem signalled_sb (S : State) (t n : Nat) (g : Group) (w : Wg) (m : MOp) (hop : m.op = 0x68) :
    ∃ e ∈ (tile (signalled S t n g w m) t).sb, e.id = (tile S t).nextSb ∧ e.kind = .signal ∧ e.released = false ∧ e.slot = n ∧
      e.lanes.map (fun x => (x.va, x.data)) = [(g.uget m.b, toBytes 8 (g.uget m.d))] := by
  have hnext := nextSb_translated ((WorkFrom.refl S).translateAll (ag := agTile t) (die := tileDie t) (space := w.space) (a := .rmw)
    (host := false) (vas := [g.uget m.b])) t
  unfold signalled
  extract_lets x ty s2
  have hnext2 : (tile s2 t).nextSb = (tile S t).nextSb := by
    unfold s2
    rw [tile_countStrict]
    exact hnext
  clear_value s2
  rw [tile_setTile_same]
  refine ⟨signalEntry (tile s2 t) n g w m ty.1 x.1, List.mem_append_right _ (List.mem_singleton.2 rfl), hnext2, ?_, rfl, rfl, ?_⟩
  · simp [signalEntry, storeEntry, hop, mStore, mStc]
  · simp [signalEntry, storeLanes, hop]

theorem signal_counts {d b : BitVec 5} (h : MayIssue s r g) (hw : wg? (roundOne s r.tile r.slot) r.tile g.wg = some w)
    (hal : g.uget b.toNat % 8 = 0) (hroom : Room s r g ⟨0x68, d.toNat, 0, b.toNat⟩)
    (hx : (translateAll (roundOne s r.tile r.slot) (agTile r.tile) (tileDie r.tile) w.space .rmw false [g.uget b.toNat]).1.fault = none) :
    CountsUnder s r g (.signal r d b) 4 (fun k => k = .sync (.signal (tile s r.tile).nextSb)) ∧
      ∀ t, exec (.signal r d b) s = .next t → ∃ e ∈ (tile t r.tile).sb, e.id = (tile s r.tile).nextSb ∧ e.kind = .signal ∧ e.released = false ∧
        e.slot = r.slot ∧ e.lanes.map (fun x => (x.va, x.data)) = [(g.uget b.toNat, toBytes 8 (g.uget d.toNat))] := by
  have hiss := issuable_counter h (Or.inl rfl) hroom (Or.inl (by simp))
  have hround : (tile (roundOne s r.tile r.slot) r.tile).nextSb = (tile s r.tile).nextSb := by
    obtain ⟨f, hround⟩ := roundOne_placed s r
    rw [hround]
  have hm := mExec_signal (n := r.slot) (g := noWait g) (m := ⟨0x68, d.toNat, 0, b.toNat⟩) hw rfl hal hx
  rw [hround] at hm
  refine ⟨hiss.countsUnder_same rfl hm (reach_signalled w _), fun t ht => ?_⟩
  obtain ⟨t', g', ht', -, -, -, -, -, hsb⟩ := hiss.counts (x := g.txg) (i := .signal r d b) rfl hm (reach_signalled w _)
  cases ht.symm.trans ht'
  rw [hsb, ← hround]
  exact signalled_sb (roundOne s r.tile r.slot) r.tile r.slot (noWait g) w ⟨0x68, d.toNat, 0, b.toNat⟩ rfl

end

/-- Settles O18: each counts as it issues, and completes on its condition. -/
theorem synchronisationCountsUnderW4 : Obligations.SynchronisationCountsUnderW4 := by
  unfold Obligations.SynchronisationCountsUnderW4
  constructor
  · intro s r g w sc a d b h hw ha
    have hw1 : wg? (roundOne s r.tile r.slot) r.tile g.wg = some w := (wg?_roundOne s r g.wg).trans hw
    have hd : d.toNat < 32 := d.isLt
    have hbind := (issuable_plain (m := ⟨0x6A, d.toNat, 0, 0⟩) h rfl (by simp)
      (by simpa [MOp.legal, mLoad, mLoadW, mLdr, mStore, mStoreW, mAnyAtom, mStc] using hd) rfl rfl).binds (i := .txbind r d) rfl (mExec_txbind (n := r.slot) (g := noWait g) hw1 d.toNat)
    have hunbind := (issuable_plain (m := ⟨0x6B, 0, 0, 0⟩) h rfl (by simp) rfl rfl rfl).binds (i := .txunbind r) rfl (mExec_txunbind (n := r.slot) (g := noWait g) hw1)
    refine ⟨fun hsc => ?fence, ?invl1, hbind.1, hbind.2, hunbind.1, hunbind.2, pref_moves_on h hw1 ha,
      fun hal hroom hx => signal_counts h hw1 hal hroom hx⟩
    case fence =>
      exact (issuable_plain (m := ⟨0x64, sc.toNat, 0, 0⟩) h rfl (by simp)
        (by simpa [MOp.legal, mLoad, mLoadW, mLdr, mStore, mStoreW, mAnyAtom, mStc] using hsc) rfl rfl).countsUnder_same rfl (mExec_fence (n := r.slot) (g := noWait g) hw1 sc.toNat) (Reach.refl _)
    case invl1 =>
      exact (issuable_plain (m := ⟨0x65, 0, 0, 0⟩) h rfl (by simp) rfl rfl rfl).countsUnder_same rfl (mExec_invl1 (n := r.slot) (g := noWait g) hw1) (Reach.refl _)
  · intro s r g w p k hg hw hp hk
    have hexec := syncComplete_eq hg hw hp hk
    have hinval := l1Inval_tile s r.tile
    have hginval : group? (l1Inval s r.tile) r.tile r.slot = some g := by
      rw [group?, hinval]
      exact hg
    refine ⟨fun sc hsc => ⟨fun hno => ?early, fun hmay herr => ?fence⟩, fun h1 => ?invl1, fun e he => ⟨fun hin => ?waits, fun hout => ?signal⟩, fun h1 => ?bind⟩
    case early =>
      rw [hexec, hsc]
      simp only [syncNext, hno]
      rfl
    case fence =>
      rw [hsc, syncNext_fence hmay herr] at hexec
      exact ⟨_, ⟨hexec, completes hg p.id⟩, sameBytes_modGroup _ _ _ _⟩
    case invl1 =>
      rw [h1] at hexec
      refine ⟨_, ⟨hexec, completes hginval p.id⟩, ?_, sameBytes_modGroup _ _ _ _⟩
      rw [syncNext, modGroup, tile_modTile_same, hinval]
    case waits =>
      rw [hexec, he, syncNext, if_pos hin]
    case signal =>
      rw [he, syncNext, if_neg (by simp [hout])] at hexec
      exact ⟨_, ⟨hexec, completes hg p.id⟩, sameBytes_modGroup _ _ _ _⟩
    case bind =>
      have hnext : syncNext s r g w p.id k = modGroup s r.tile r.slot (·.complete p.id) := by
        rcases h1 with h1 | ⟨h, h1⟩ <;> rw [h1] <;> rfl
      rw [hnext] at hexec
      exact ⟨_, ⟨hexec, completes hg p.id⟩, sameBytes_modGroup _ _ _ _⟩

end Sys2Proof.Laws
end

