-- ==== Sys2Proof/Proofs/NumberClash.lean ====
section
/-!
PROOF. O14 fails: an instruction in flight may carry the number that its group gives next, and a load then takes its place (R94).
-/
namespace Sys2Proof.Laws
open Sys2Proof.Machine Sys2Proof.Safety

/-! A load that acts. -/

section
variable {S : State} {t n : Nat} {g : Group} {w : Wg} {m : MOp}

/-- The load that a group without active lanes below its width issues (R106). -/
theorem mExec_load_nowhere (hw : wg? S t g.wg = some w) (hop : mLoad m.op = true) (hl : g.lanes = []) :
    mExec S t n g m = .ok (loadAsk (setGroup S t n (g.addPend 0 false (.load m.d (regsOf (mSize m.op)) (mSize m.op) (mSigned m.op) [] 0 [] false [])))
      t n g.nextId) := by
  have hlane := perLane_load hop
  obtain ⟨h64, h65, h66, h68, h69, h6A, h6B⟩ := perLane_ne hlane
  have hldr : mLdr m.op = false := by
    have hrange := hop
    rw [mLoad, decide_eq_true_eq] at hrange
    simp [mLdr]
    omega
  have hvas : mVas g m = [] := by rw [mVas_perLane hlane, hl]; rfl
  have hx : translateAll S (agTile t) (tileDie t) w.space (mAcc m.op) false ([] : List Nat).eraseDups = ({}, S) := rfl
  have hty : accType (tile S t) w.launch [] = (0, false) := rfl
  unfold mExec
  simp only [hw, perLane_global hlane, h64, h65, h66, h68, h69, h6A, h6B, hl, hvas, hx, hop, hldr, hty, Bool.true_and, Bool.true_or]
  rfl

end

/-! The group whose next number is taken. -/

/-- A lane of the load in flight: it leads to another device. -/
def farLane : LaneAcc := ⟨0, 0, 0, .rem ⟨0, false⟩, []⟩

/-- The load in flight under number 0, as it stands with its requests. -/
def farLoad (rq : List Nat) : PKind := .load 0xFF 1 4 false [farLane] 2 rq false []

/-- A group whose next number is 0 as well, with no active lane below its width. -/
def clashing : Group :=
  { wg := 0, idx := 0, width := 0, lset := 0, r := 0, pc := 0, live := 1, active := 1, pend := [{ id := 0, cls := 0, done := false, kind := farLoad [] }] }

def clashWg : Wg := { launch := ⟨0, 0, 0⟩, space := 0, kdesc := 0, x := 0, y := 0, z := 0, g := 1, width := 0, r := 0, m := 0 }

/-- The device at reset but for that group, and its workgroup, on tile 0, whose thread core is in service. -/
def clashState : State :=
  setGroup (setWg (modBlk State.reset (pgTile 0) (fun b => { b with st := .idle })) 0 0 clashWg) 0 0 clashing

theorem group?_clash : group? clashState 0 0 = some clashing := group?_setGroup_same _ _ _ _

theorem mayIssue_clash : MayIssue clashState ⟨0, 0⟩ clashing where
  here := group?_clash
  service := rfl
  works := rfl
  supply := rfl
  runs := rfl
  goes := rfl
  active := by decide
  width := by decide
  offer := rfl
  room := by decide
  settled := fun b => ⟨rfl, rfl⟩
  sound := rfl
  unarmed := rfl
  unasked := fun w hw => by
    cases hw
    rfl

/-- Every instruction under number 0 takes a kind. -/
def withKind (k : PKind) (p : Pend) : Pend := if p.id = 0 then { p with kind := k } else p

/-- A group in which a load under number 0 leads the instructions in flight: LOAD_RETURN and the issue of a load take it for theirs. -/
theorem loadAsk_clash {S : State} {g : Group} {w : Wg} (hg : group? S 0 0 = some g) (hw : wg? S 0 g.wg = some w) (hsb : (tile S 0).sb = [])
    (hp : g.pend.find? (fun p => p.id == 0) = some { id := 0, cls := 0, done := false, kind := farLoad [] }) :
    ∃ u rq, Reach false 0 S u ∧
      loadAsk S 0 0 0 = modGroup u 0 0 (fun g => { g with pend := g.pend.map (withKind (farLoad rq)) }) := by
  have hmay : loadMay S 0 0 g w.space 0 4 2 (nextLanes 2 [farLane] []) false = true := by
    have holder : (tile S 0).older 0 0 = [] := by simp [Tile.older, hsb]
    have hloads : g.pend.filter (fun p => decide (p.id < 0) && p.openLoad) = [] := by simp
    have hnext : nextLanes 2 [farLane] [] = [farLane] := rfl
    unfold loadMay
    simp only [holder, hloads, hnext]
    simp [farLane]
  have hreqs : ∃ u, Reach false 0 S u ∧ loadReqs S 0 0 0 w.space 2 4 false [] (nextLanes 2 [farLane] []) = ([S.nextReq], u) := by
    have hlines : ((nextLanes 2 [farLane] []).filterMap (laneRemote (tile S 0) 0 0 w.space 2 4 false)).eraseDups = [(⟨0, false⟩ : Glob).line] := rfl
    have hasked : lineAsked S [] (⟨0, false⟩ : Glob).line = false := by simp [lineAsked]
    refine ⟨sendReq S (pktTo (packet0 pkRead 0 w.space 0) (⟨0, false⟩ : Glob).line) (.load 0 0 0), (Reach.refl S).sendReq, ?_⟩
    simp only [loadReqs, hlines, List.filter_cons, hasked]
    rfl
  obtain ⟨u, hu, hreqs⟩ := hreqs
  refine ⟨u, [S.nextReq], hu, ?_⟩
  unfold loadAsk
  rw [hg]
  dsimp only
  rw [hp, hw]
  dsimp only [farLoad]
  rw [hmay, hreqs]
  rfl

/-- The group's own record changes in place. -/
theorem Acted.modGroup {s u : State} {r : GRef} (h : Acted s u r) (f : Group → Group) : Acted s (modGroup u r.tile r.slot f) r := by
  refine ⟨fun n hn => ?_, fun n hn => ?_, ?_, h.bytes⟩
  · rw [Machine.modGroup, tile_modTile_ne _ _ hn]
    exact h.others n hn
  · rw [SameGroup, group?_modGroup, if_neg (by simp [hn])]
    exact h.groups n hn
  · rw [Machine.modGroup, tile_modTile_same]
    exact h.wgs

/-- Further accesses of the tile's agent. -/
theorem Acted.reach {s a u : State} {r : GRef} (h : Acted s a r) (k : Reach false r.tile a u) : Acted s u r := by
  obtain ⟨hcells, hkeys⟩ := h.bytes
  obtain ⟨kcells, kkeys⟩ := k.bytes rfl
  refine ⟨fun n hn => (k.others n hn).trans (h.others n hn), fun n hn => ?_, k.wgs.trans h.wgs, kcells.trans hcells, kkeys.trans hkeys⟩
  have hgroup := h.groups n hn
  rwa [SameGroup, group?, ← k.groups, ← group?] at hgroup

/-- The load that the group issues. -/
def clashOp : MOp := ⟨0x04, 0xFF, 0xFF, 0⟩

/-- The group as it counts that load. -/
def clashed : Group := (noWait clashing).addPend 0 false (.load 0xFF 1 4 (mSigned 0x04) [] 0 [] false [])

theorem issuable_clash : Issuable clashState ⟨0, 0⟩ clashing clashOp :=
  ⟨mayIssue_clash, room_of_unbuffered rfl, Or.inl (by decide), rfl, Or.inr (Or.inl rfl), Or.inr (Or.inl rfl)⟩

theorem mExec_clash : ∃ u rq, Reach false 0 (setGroup (roundOne clashState 0 0) 0 0 clashed) u ∧
    mExec (roundOne clashState 0 0) 0 0 (noWait clashing) clashOp =
      .ok (modGroup u 0 0 (fun g => { g with pend := g.pend.map (withKind (farLoad rq)) })) := by
  have hw : wg? (roundOne clashState 0 0) 0 0 = some clashWg := (wg?_roundOne clashState ⟨0, 0⟩ 0).trans rfl
  have hsb : (tile (setGroup (roundOne clashState 0 0) 0 0 clashed) 0).sb = [] := by
    obtain ⟨f, hround⟩ := roundOne_placed clashState ⟨0, 0⟩
    rw [setGroup, tile_modTile_same, hround]
    rfl
  obtain ⟨u, rq, hu, hask⟩ := loadAsk_clash (group?_setGroup_same (roundOne clashState 0 0) 0 0 clashed) ((wg?_setGroup _ _ _ _ _).trans hw) hsb rfl
  exact ⟨u, rq, hu, (mExec_load_nowhere hw rfl rfl).trans (congrArg MRes.ok hask)⟩

/-- Both instructions under number 0 are now the load that was in flight. -/
theorem exec_load_clash : ∃ t rq, exec (.ld ⟨0, 0⟩ 4 0xFF 0xFF 0) clashState = .next t ∧
    (group? t 0 0).map (·.pend.map (·.kind)) = some [farLoad rq, farLoad rq] := by
  obtain ⟨u, rq, hu, hm⟩ := mExec_clash
  have hgu : group? u 0 0 = some clashed := by
    rw [group?, hu.groups]
    exact group?_setGroup_same _ _ _ _
  have hacted : Acted clashState u ⟨0, 0⟩ := ((acted_of_reach (Reach.refl _)).setGroup clashed).reach hu
  have hmod : group? (modGroup u 0 0 (fun g => { g with pend := g.pend.map (withKind (farLoad rq)) })) 0 0 =
      some { clashed with pend := clashed.pend.map (withKind (farLoad rq)) } := by
    rw [group?_modGroup, if_pos ⟨rfl, rfl⟩, hgu]
    rfl
  obtain ⟨t, ht, hg, -⟩ := issuable_clash.goes (i := .ld ⟨0, 0⟩ 4 0xFF 0xFF 0) rfl hm (hacted.modGroup _) hmod rfl
  refine ⟨t, rq, ht, ?_⟩
  rw [hg]
  rfl

/-- Refutes O14: it speaks of every group, also of one whose next number an instruction in flight carries already. A load that asks other
devices for its lines is found by its number: `loadAsk` takes the older load for it, and gives the new one that load's lanes. -/
theorem not_globalMemoryAccessesIssue : ¬ Obligations.GlobalMemoryAccessesIssue := by
  unfold Obligations.GlobalMemoryAccessesIssue
  intro h
  obtain ⟨hload, -⟩ := h clashState ⟨0, 0⟩ clashing clashWg 4 0 false 0xFF 0xFF 0 mayIssue_clash rfl (Or.inl rfl)
  have hgood : ∀ l ∈ clashing.lanes, laneVa clashing clashOp l % mSize clashOp.op = 0 := by decide
  obtain ⟨t, g', ht, hg, ⟨⟨p, hp, -, -, -, la, ty, rq, hk, hla⟩, -⟩, -⟩ := hload (by decide) (Or.inl rfl) ⟨hgood, rfl, room_of_unbuffered rfl⟩
  obtain ⟨t', rq', ht', hkinds⟩ := exec_load_clash
  obtain rfl : t = t' := Host.Outcome.next.inj (ht.symm.trans ht')
  rw [hg, Option.map_some, Option.some_inj] at hkinds
  have hmem : p.kind ∈ g'.pend.map (·.kind) := List.mem_map_of_mem hp
  have hkind : p.kind = farLoad rq' := by
    rw [hkinds] at hmem
    simpa using hmem
  have hnil : la = [] := List.map_eq_nil_iff.1 hla
  rw [hk, hnil] at hkind
  cases hkind

end Sys2Proof.Laws
end

