-- ==== Sys2Proof/Proofs/HomeMoves.lean ====
section
/-!
SUPPORT. Accesses at the home slices while no detector is armed and no clean copy lies over a marked line: `Moved s t` adds to `Touched`
that both still hold at the end, so that accesses follow one another (R231, R236, R525).
-/
namespace Sys2Proof.Laws
open Sys2Proof.Machine Sys2Proof.Safety

/-- Lines have moved between the ways of a slice. -/
structure Moved (s t : State) : Prop where
  touched : Touched s t
  arm     : ∀ pg, (blk t pg).injArm = (blk s pg).injArm
  plain   : Plain t

variable {s t u : State}

theorem Moved.refl (hp : Plain s) : Moved s s := ⟨Touched.refl s, fun _ => rfl, hp⟩

theorem Moved.trans (h : Moved s t) (k : Moved t u) : Moved s u :=
  ⟨h.touched.trans k.touched, fun pg => (k.arm pg).trans (h.arm pg), k.plain⟩

theorem Moved.unarmed (h : Moved s t) (hs : ∀ pg, (blk s pg).injArm = false) (pg : Nat) : (blk t pg).injArm = false := (h.arm pg).trans (hs pg)

theorem Moved.setSlice {g : Nat} {x : L2Slice} (hp : Plain s) (hl : x.lostSet = (slice s g).lostSet) (hc : x.cleared = (slice s g).cleared)
    (hx : ∀ i l, tget? x.lines i = some l → l.below = none) : Moved s (setSlice s g x) := by
  refine ⟨Touched.setSlice hl hc, fun _ => rfl, fun n i l hi => ?_⟩
  unfold slice Machine.setSlice at hi
  by_cases hn : n = g
  · rw [hn, tgetD_tput_same] at hi
    exact hx i l hi
  · rw [tgetD_tput_ne _ _ _ hn] at hi
    exact hp n i l hi

theorem Moved.takeFree (hp : Plain s) : Moved s (takeFree s).2 := ⟨⟨rfl, fun _ => ⟨rfl, rfl⟩⟩, fun _ => rfl, hp⟩

theorem Moved.bumpF (hp : Plain s) (pg off hi lo k : Nat) : Moved s (bumpF s pg off hi lo k) := by
  refine ⟨Touched.bumpF _ _ _ _ _, fun x => ?_, hp⟩
  unfold Machine.bumpF Machine.setRegF Machine.setReg
  by_cases hx : x = pg
  · rw [hx, blk_modBlk_same]
  · rw [blk_modBlk_ne _ _ hx]

/-- A line enters a way. -/
theorem Moved.take (hp : Plain s) (g set w : Nat) {l : L2Line} (hl : l.below = none) :
    Moved s (Machine.setSlice s g ((slice s g).take set w l)) := by
  refine Moved.setSlice hp rfl rfl fun i x hi => ?_
  rw [L2Slice.take, tget?_tput] at hi
  split at hi
  · cases hi
    exact hl
  · exact hp g i x hi

/-- The line in a way makes room. -/
theorem Moved.displace (hp : Plain s) (g key : Nat) : Moved s (displace s g key) := by
  unfold Machine.displace
  split
  · exact Moved.refl hp
  · have hdrop : dropClean (Machine.takeFree s).2 (slice (Machine.takeFree s).2 g) key = (Machine.takeFree s).2 :=
      dropClean_plain (s := (Machine.takeFree s).2) hp g key
    dsimp only
    rw [hdrop]
    refine (Moved.takeFree hp).trans (Moved.setSlice hp ?_ ?_ fun i l hi => ?_)
    · unfold evict
      split <;> rfl
    · unfold evict
      split <;> rfl
    · unfold evict at hi
      split at hi
      · exact hp g i l hi
      · by_cases hk : i = key
        · rw [hk, tget?_tdel_same] at hi
          cases hi
        · rw [tget?_tdel_ne _ hk] at hi
          exact hp g i l hi

/-- A line takes the place of another. -/
theorem Moved.replace (hp : Plain s) (g key set w : Nat) {l : L2Line} (hl : l.below = none) :
    Moved s (Machine.setSlice (Machine.displace s g key) g ((slice (Machine.displace s g key) g).take set w l)) :=
  (Moved.displace hp g key).trans (Moved.take (Moved.displace hp g key).plain g set w hl)

theorem Moved.l2Alloc (hp : Plain s) (g set : Nat) {l : L2Line} (hl : l.below = none) : Moved s (l2Alloc s g set l) := by
  unfold Machine.l2Alloc
  dsimp only
  split
  · exact Moved.refl hp
  · split
    · exact Moved.take hp g set _ hl
    · have hfree := Moved.takeFree hp
      exact hfree.trans (Moved.replace hfree.plain g _ set _ hl)

theorem Moved.l2Hit (hp : Plain s) (g set w slot : Nat) (write : Bool) : Moved s (l2Hit s g set w slot write) := by
  unfold Machine.l2Hit
  dsimp only
  split
  · exact Moved.refl hp
  next l hl =>
    split
    · refine Moved.take hp g set w ?_
      rw [hp g _ l hl]
      exact ite_self _
    · rw [dropClean_plain hp]
      exact Moved.take hp g set w rfl

/-- An access moves lines alone while no detector is armed. -/
theorem Moved.l2Touch (hs : ∀ pg, (blk s pg).injArm = false) (hp : Plain s) (pa : Nat) (write : Bool) (slot : Nat) (fill : Bool) :
    Moved s (l2Touch s pa write slot fill) := by
  unfold Machine.l2Touch
  extract_lets g line set x0 way evb mine s1 s2 s3
  have h1 : Moved s s1 := Moved.setSlice hp rfl rfl (hp g)
  have e2 : s2 = s1 := by
    unfold s2
    rw [l2Inject_unarmed (h1.unarmed hs)]
    exact ite_self _
  have e3 : s3 = s1 := by
    unfold s3
    rw [e2, hbmRead_unarmed (h1.unarmed hs)]
    exact ite_self _
  rw [e3]
  clear_value s3 s2 s1 mine evb way
  split
  · exact h1
  · cases way with
    | some w => exact h1.trans (Moved.l2Hit h1.plain _ _ _ _ _)
    | none =>
      dsimp only
      split
      · have hb := h1.trans (Moved.bumpF h1.plain (pgL2s g) 0x08C 15 0 1)
        exact hb.trans (Moved.l2Alloc hb.plain _ _ rfl)
      · exact h1.trans (Moved.l2Alloc h1.plain _ _ rfl)

theorem Moved.touchRead (hs : ∀ pg, (blk s pg).injArm = false) (hp : Plain s) (slot pa : Nat) : Moved s (touchRead s slot pa) :=
  Moved.l2Touch hs hp pa false slot true

theorem readPhys_moved (h : Moved s t) (slot a n : Nat) : readPhys t slot a n = readPhys s slot a n :=
  readPhys_congr h.touched.ram h.touched.keys slot a n

/-- Lines that have moved leave every byte. -/
theorem sameBytes_moved (h : Moved s t) : SameBytes s t := fun k a => by rw [h.touched.ram]

end Sys2Proof.Laws
end

