-- ==== Sys2Proof/Proofs/LoadReturn.lean ====
section
/-!
PROOF. O15: LOAD_RETURN of a load whose lanes lead to this device (R94, R275, R276, R281).
-/
namespace Sys2Proof.Laws
open Sys2Proof.Machine Sys2Proof.Safety

/-! Words written to registers (R94). -/

/-- Writes of lanes below 64 hold: register by register, the last of each lane. -/
theorem wrote_vputs (g : Group) (ws : List (Nat × Nat × Nat)) (h : ∀ w ∈ ws, w.2.1 < 64) : Wrote g (g.vputs ws) ws := by
  induction ws using List.reverseRecOn with
  | nil => exact fun k l _ => rfl
  | append_singleton ws w ih =>
    intro k l hl
    have hlast : g.vputs (ws ++ [w]) = (g.vputs ws).vput w.1 w.2.1 (BitVec.ofNat 32 w.2.2) := by simp [Group.vputs]
    have hw : w.2.1 < 64 := h w (List.mem_append_right _ (List.mem_singleton.2 rfl))
    rw [hlast, vget_vput _ _ _ _ _ _ hw hl, ih (fun x hx => h x (List.mem_append_left _ hx)) k l hl, List.filter_append]
    by_cases hk : k = w.1 ∧ l = w.2.1
    · obtain ⟨rfl, rfl⟩ := hk
      simp
    · have hno : [w].filter (fun x => x.1 == k && x.2.1 == l) = [] := by
        refine List.filter_eq_nil_iff.2 fun x hx => ?_
        cases List.mem_singleton.1 hx
        simp only [Bool.and_eq_true, beq_iff_eq, not_and]
        exact fun h1 h2 => hk ⟨h1.symm, h2.symm⟩
      rw [if_neg hk, hno, List.append_nil]

theorem wordWrites_lane {d l : Nat} {ws : List Nat} {x : Nat × Nat × Nat} (h : x ∈ wordWrites d l ws) : x.2.1 = l := by
  obtain ⟨i, hi, rfl⟩ := List.mem_mapIdx.1 h
  rfl

/-! The barrier of a workgroup of which no group waits (R67). -/

theorem evalBarrier_noneWaits {s : State} {t w : Nat} (h : NoneWaits s t w) : evalBarrier s t w = s := by
  have hany : ((tile s t).groupsOf w).any (fun p => p.2.stat == .barrier) = false :=
    List.any_eq_false.2 fun q hq => by simp [h q hq]
  have hfull : (tile s t).barFull w = false := by
    unfold Tile.barFull
    dsimp only
    rw [hany]
    rfl
  unfold evalBarrier
  dsimp only
  split
  · rfl
  · rw [hfull, hany]
    simp

theorem mem_tmod {α : Type} {t : Tab α} {x : Nat} {f : α → α} {q : Nat × α} (h : q ∈ tmod t x f) : ∃ p ∈ t, q = p ∨ q = (p.1, f p.2) := by
  induction t with
  | nil => cases h
  | cons p t ih =>
    obtain ⟨k, v⟩ := p
    unfold tmod at h
    split at h
    · rcases List.mem_cons.1 h with rfl | h
      · exact ⟨_, List.mem_cons_self, Or.inr rfl⟩
      · exact ⟨q, List.mem_cons_of_mem _ h, Or.inl rfl⟩
    · rcases List.mem_cons.1 h with rfl | h
      · exact ⟨_, List.mem_cons_self, Or.inl rfl⟩
      · obtain ⟨p, hp, hq⟩ := ih h
        exact ⟨p, List.mem_cons_of_mem _ hp, hq⟩

theorem noneWaits_reach {b : Bool} {s u : State} {t w : Nat} (h : NoneWaits s t w) (hu : Reach b t s u) : NoneWaits u t w := by
  intro q hq
  rw [Tile.groupsOf, hu.groups] at hq
  exact h q hq

/-- A change that leaves the workgroup and the status of its group. -/
theorem noneWaits_modGroup {s : State} {t n w : Nat} {f : Group → Group} (h : NoneWaits s t w) (hwg : ∀ g, (f g).wg = g.wg)
    (hstat : ∀ g, (f g).stat = g.stat) : NoneWaits (modGroup s t n f) t w := by
  intro q hq
  rw [modGroup, tile_modTile_same] at hq
  obtain ⟨hmem, hw⟩ := List.mem_filter.1 hq
  obtain ⟨p, hp, hqp | hqp⟩ := mem_tmod hmem
  · exact hqp ▸ h p (List.mem_filter.2 ⟨hp, by rwa [hqp] at hw⟩)
  · rw [hqp]
    refine (hstat p.2).symm ▸ h p (List.mem_filter.2 ⟨hp, ?_⟩)
    rw [hqp, hwg] at hw
    exact hw

/-! The bytes of the lanes (R275). -/

/-- The bytes of a lane at its home slice. -/
def homeBytes (s : State) (slot size : Nat) (x : LaneAcc) : List Nat :=
  match x.dst with
  | .loc pa => readPhys s slot pa size
  | _ => []

/-- Every lane leads to this device. -/
def AllHere (la : List LaneAcc) : Prop := ∀ x ∈ la, ∃ pa, x.dst = .loc pa

/-- No lane's line carries the mark. -/
def AllClear (s : State) (la : List LaneAcc) : Prop := ∀ x ∈ la, ∀ pa, x.dst = .loc pa → isMarked s pa = false

/-- One lane of a load is read. -/
def laneStep (t n space slot id size rtype : Nat) (resv : Bool) (rq : List Nat) (acc : List (Nat × List Nat × Bool) × State) (l : LaneAcc) :
    List (Nat × List Nat × Bool) × State :=
  let b := laneRead acc.2 t n space slot id size rtype resv rq l
  (acc.1 ++ [(l.lane, b.1.1, b.1.2)], b.2)

theorem readLanes_eq (s : State) (t n space slot id size rtype : Nat) (resv : Bool) (rq : List Nat) (la : List LaneAcc) :
    readLanes s t n space slot id size rtype resv rq la = la.foldl (laneStep t n space slot id size rtype resv rq) ([], s) := rfl

section
variable {s u : State} {t n space slot id size rtype : Nat} {resv : Bool} {rq : List Nat}

theorem homeBytes_moved (h : Moved s u) (slot size : Nat) : homeBytes u slot size = homeBytes s slot size := by
  funext x
  unfold homeBytes
  split
  · exact readPhys_moved h _ _ _
  · rfl

theorem laneRead_home {x : LaneAcc} {pa : Nat} (hs : ∀ pg, (blk s pg).injArm = false) (hp : Plain s) (hc : (decide (rtype = 0) && !resv) = false)
    (hx : x.dst = .loc pa) (hm : isMarked s pa = false) :
    laneRead s t n space slot id size rtype resv rq x = ((homeBytes s slot size x, false), touchRead s slot pa) := by
  have hmove := Moved.touchRead hs hp slot pa
  have hmark : isMarked (touchRead s slot pa) pa = false := (isMarked_touched hmove.touched pa).trans hm
  unfold laneRead homeBytes
  simp only [hc, hx, Bool.false_eq_true, if_false, readPhys_moved hmove, hmark]

/-- Lanes that lead to this device and take the values of their home slices are read in order. -/
theorem foldl_laneRead_home (hc : (decide (rtype = 0) && !resv) = false) (la : List LaneAcc) :
    ∀ (s : State) (got : List (Nat × List Nat × Bool)), (∀ pg, (blk s pg).injArm = false) → Plain s → AllHere la → AllClear s la →
      ∃ u, Moved s u ∧ Reach false t s u ∧ la.foldl (laneStep t n space slot id size rtype resv rq) (got, s) =
        (got ++ la.map (fun x => (x.lane, homeBytes s slot size x, false)), u) := by
  induction la with
  | nil => exact fun s got hs hp _ _ => ⟨s, Moved.refl hp, Reach.refl s, by simp⟩
  | cons x la ih =>
    intro s got hs hp hhere hclear
    obtain ⟨pa, hx⟩ := hhere x List.mem_cons_self
    have hmove := Moved.touchRead hs hp slot pa
    have hread := laneRead_home (t := t) (n := n) (space := space) (slot := slot) (id := id) (size := size) (rq := rq) hs hp hc hx
      (hclear x List.mem_cons_self pa hx)
    obtain ⟨u, hu, hreach, hfold⟩ := ih (touchRead s slot pa) (got ++ [(x.lane, homeBytes s slot size x, false)]) (hmove.unarmed hs) hmove.plain
      (fun y hy => hhere y (List.mem_cons_of_mem _ hy))
      (fun y hy q hq => (isMarked_touched hmove.touched q).trans (hclear y (List.mem_cons_of_mem _ hy) q hq))
    refine ⟨u, hmove.trans hu, (Reach.refl s).touchRead.trans hreach, ?_⟩
    rw [List.foldl_cons, laneStep, hread]
    dsimp only
    rw [hfold, homeBytes_moved hmove, List.append_assoc]
    rfl

end

/-! LOAD_RETURN of a load whose lanes lead to this device. -/

/-- A load in flight whose lanes lead to this device, in a tile that no PREF and no barrier waits in. -/
structure LoadHere (s : State) (r : GRef) (g : Group) (w : Wg) (p : Pend) (d k size ty : Nat) (sg rsv : Bool) (la : List LaneAcc) : Prop where
  here   : group? s r.tile r.slot = some g
  wg     : wg? s r.tile g.wg = some w
  open_  : g.pend.find? (fun q => q.id == p.id && !q.done) = some p
  load   : p.kind = .load d k size sg la ty [] rsv []
  ids    : (g.pend.map (·.id)).Nodup
  prefs  : (tile s r.tile).prefs = []
  waits  : NoneWaits s r.tile g.wg
  lanes  : ∀ x ∈ la, x.lane < 64 ∧ ∃ pa, x.dst = .loc pa

section
variable {s u : State} {r : GRef} {g : Group} {w : Wg} {p : Pend} {d k size ty pa0 : Nat} {sg rsv : Bool} {la : List LaneAcc} {l0 : LaneAcc}

theorem LoadHere.found (h : LoadHere s r g w p d k size ty sg rsv la) : g.pend.find? (fun q => q.id == p.id) = some p := by
  have hmem : p ∈ g.pend := List.mem_of_find?_eq_some h.open_
  cases hf : g.pend.find? (fun q => q.id == p.id) with
  | none => exact absurd (List.find?_eq_none.1 hf p hmem) (by simp)
  | some q =>
    have hid : q.id = p.id := by simpa using List.find?_some hf
    exact congrArg some (List.inj_on_of_nodup_map h.ids (List.mem_of_find?_eq_some hf) hmem hid)

theorem mem_nextLanes {got : List (Nat × List Nat × Bool)} {x : LaneAcc} (hx : x ∈ nextLanes ty la got) : x ∈ la := by
  unfold nextLanes at hx
  split at hx
  · exact (List.mem_filter.1 (List.mem_of_mem_take hx)).1
  · exact hx

theorem LoadHere.remote (h : LoadHere s r g w p d k size ty sg rsv la) {x : LaneAcc} (hx : x ∈ nextLanes ty la []) (t : Tile) :
    laneRemote t r.slot p.id w.space ty size rsv x = none := by
  obtain ⟨-, pa, hpa⟩ := h.lanes x (mem_nextLanes hx)
  unfold laneRemote
  rw [hpa]

/-- It asks no other device. -/
theorem LoadHere.asks (h : LoadHere s r g w p d k size ty sg rsv la) : loadAsk s r.tile r.slot p.id = s := by
  have hreqs : loadReqs s r.tile r.slot p.id w.space ty size rsv [] (nextLanes ty la []) = ([], s) := by
    have hnil : (nextLanes ty la []).filterMap (laneRemote (tile s r.tile) r.slot p.id w.space ty size rsv) = [] :=
      List.filterMap_eq_nil_iff.2 fun x hx => h.remote hx _
    unfold loadReqs
    rw [hnil]
    rfl
  have hfound := h.found
  have hkind := h.load
  obtain ⟨id, cls, fin, kind, raw⟩ := p
  cases hkind
  unfold loadAsk
  rw [h.here]
  dsimp only at hfound hreqs ⊢
  rw [hfound, h.wg]
  dsimp only
  rw [hreqs]
  simp

/-- An LDR drops the L1's copy of a line. -/
def dropLine (w : Wg) (x : Tile) (l : LaneAcc) : Tile := x.l1Drop w.space (l.va / 128 * 128)

/-- The state in which the lanes are read: an LDR drops the L1's copies of its lines. -/
def readState (s : State) (r : GRef) (w : Wg) (rsv : Bool) (la : List LaneAcc) : State :=
  if rsv then modTile s r.tile (fun x => la.foldl (dropLine w) x) else s

/-- The lines that a load looks up in the L1 are counted, and meet its parity detector (R230, R529). -/
def lookedUp (s : State) (r : GRef) (w : Wg) (id size ty : Nat) (rsv : Bool) (la : List LaneAcc) : State :=
  let lines := l1Lines (tile s r.tile) r.slot id size ty rsv (nextLanes ty la [])
  loadParity (l1Counts s r.tile w.space lines) r.tile w.space lines

/-- LOAD_RETURN, decision by decision. -/
theorem LoadHere.returns (h : LoadHere s r g w p d k size ty sg rsv la) (hfirst : firstHome la = some pa0) :
    exec (.loadReturn r p.id) s = .next (
      if !loadMay s r.tile r.slot g w.space p.id size ty (nextLanes ty la []) rsv then s
      else if rsv && !ldrMay s r.tile r.slot p.id pa0 then ldrHold s r.tile r.slot p.id pa0
      else
        let q := readLanes (readState (lookedUp s r w p.id size ty rsv la) r w rsv la) r.tile r.slot w.space (spaceSlot s (tileDie r.tile) w.space)
          p.id size ty rsv [] (nextLanes ty la [])
        let s3 := delReqs q.2 []
        if ty = 3 && q.1.length < la.length then
          modGroup s3 r.tile r.slot (fun g => { g with pend := g.pend.map (fun x =>
            if x.id = p.id then { x with kind := .load d k size sg la ty [] rsv q.1 } else x) })
        else loadDone (if rsv then ldrSet s3 r.tile r.slot p.id (some pa0) else s3) r.tile r.slot g.wg p.id d size p.raw sg la q.1) := by
  have hsweep : prefSweep s r.tile = s := by
    unfold prefSweep
    rw [h.prefs]
    rfl
  have hremote : ∀ x ∈ nextLanes ty la [], laneRemote (tile s r.tile) r.slot p.id w.space ty size rsv x = none := fun x hx => h.remote hx _
  have hask := h.asks
  have hopen := h.open_
  have hfound := h.found
  have hkind := h.load
  obtain ⟨id, cls, fin, kind, raw⟩ := p
  cases hkind
  rw [exec_loadReturn, execLoadReturn]
  dsimp only at hask hopen hfound hremote ⊢
  rw [h.here]
  dsimp only
  rw [hopen, h.wg]
  dsimp only
  rw [hsweep, hask, h.here]
  dsimp only
  rw [hfound]
  dsimp only
  rw [hfirst]
  dsimp only
  rw [(List.any_eq_false (l := nextLanes ty la [])).2 fun x hx => by rw [hremote x hx]; simp]
  simp only [Bool.or_false, List.nil_append, readState, lookedUp]
  rfl

/-- The words that a load writes, from the bytes of its lanes (R108). -/
def loadedWords (d size : Nat) (sg : Bool) (got : List (Nat × List Nat × Bool)) : List (Nat × Nat × Nat) :=
  if d = 0xFF then [] else (got.map (fun x => wordWrites d x.1 (loadWords size sg x.2.1))).flatten

theorem loadedWords_map (d size : Nat) (sg : Bool) (la : List LaneAcc) (f : LaneAcc → List Nat) :
    loadedWords d size sg (la.map (fun x => (x.lane, f x, false))) =
      (la.map (fun x => if d = 0xFF then [] else wordWrites d x.lane (loadWords size sg (f x)))).flatten := by
  unfold loadedWords
  split
  · simp
  · rw [List.map_map]
    rfl

theorem loadedWords_lane {got : List (Nat × List Nat × Bool)} (h : ∀ x ∈ got, x.1 < 64) : ∀ x ∈ loadedWords d size sg got, x.2.1 < 64 := by
  intro x hx
  unfold loadedWords at hx
  split at hx
  · cases hx
  · obtain ⟨ws, hws, hmem⟩ := List.mem_flatten.1 hx
    obtain ⟨y, hy, rfl⟩ := List.mem_map.1 hws
    rw [wordWrites_lane hmem]
    exact h y hy

/-- The group of a load that has all its lanes, none of them marked. -/
def loaded (ws : List (Nat × Nat × Nat)) (id : Nat) (g : Group) : Group := (g.vputs ws).complete id

theorem loadDone_clear {raw : Nat} {got : List (Nat × List Nat × Bool)} (hwaits : NoneWaits u r.tile g.wg) (hgot : ∀ x ∈ got, x.2.2 = false) (id : Nat) :
    loadDone u r.tile r.slot g.wg id d size raw sg la got = modGroup u r.tile r.slot (loaded (loadedWords d size sg got) id) := by
  have hbad : la.filter (fun l => got.any (fun x => x.1 == l.lane && x.2.2)) = [] :=
    List.filter_eq_nil_iff.2 fun l _ => by
      rw [Bool.not_eq_true]
      exact List.any_eq_false.2 fun x hx => by simp [hgot x hx]
  unfold loadDone
  dsimp only
  rw [hbad]
  refine evalBarrier_noneWaits (noneWaits_modGroup hwaits (fun g => ?_) (fun g => ?_))
  · exact vputs_keep (fun g => g.wg) (fun _ _ _ _ => rfl) _ g
  · exact vputs_keep (fun g => g.stat) (fun _ _ _ _ => rfl) _ g

/-- What a load that completes leaves. -/
theorem loaded_spec {ws : List (Nat × Nat × Nat)} {id : Nat} (hg : group? s r.tile r.slot = some g) (hu : Reach false r.tile s u)
    (hws : ∀ x ∈ ws, x.2.1 < 64) :
    ∃ g', group? (modGroup u r.tile r.slot (loaded ws id)) r.tile r.slot = some g' ∧ Wrote g g' ws ∧ Completed g' id ∧ g'.u = g.u ∧ g'.p = g.p ∧
      SameMasks g g' ∧ g'.pc = g.pc ∧ SameBytes s (modGroup u r.tile r.slot (loaded ws id)) ∧
      OtherGroups s (modGroup u r.tile r.slot (loaded ws id)) r := by
  have hgu : group? u r.tile r.slot = some g := by rw [group?, hu.groups]; exact hg
  obtain ⟨fu, fp, fpc, flive, factive, fstack, farrived, fstat, ffault⟩ := vputs_same ws g
  refine ⟨loaded ws id g, ?_, fun k l hl => wrote_vputs g ws hws k l hl, complete_spec _ id, fu, fp,
    ⟨flive, factive, fstack, farrived, fstat, ffault⟩, fpc, fun k a => ?_, fun n hn => ?_, fun n hn => ?_, ?_⟩
  · rw [group?_modGroup, if_pos ⟨rfl, rfl⟩, hgu]
    rfl
  · exact hu.sameBytes k a
  · rw [modGroup, tile_modTile_ne _ _ hn]
    exact hu.others n hn
  · rw [SameGroup, group?_modGroup, if_neg (by simp [hn]), group?, hu.groups, group?]
  · rw [modGroup, tile_modTile_same]
    exact hu.wgs

theorem nextLanes_all (hone : ty = 3 → la = [l0]) : nextLanes ty la [] = la := by
  unfold nextLanes
  split
  next h =>
    rw [hone h]
    rfl
  · rfl

theorem delReqs_nil (s : State) : delReqs s [] = s := by
  unfold delReqs
  simp

/-- LOAD_RETURN writes these words and completes the load; nothing else of the group, no byte and no other group changes. -/
def LoadLeaves (s : State) (r : GRef) (g : Group) (id : Nat) (ws : List (Nat × Nat × Nat)) (t : State) (g' : Group) : Prop :=
  exec (.loadReturn r id) s = .next t ∧ group? t r.tile r.slot = some g' ∧ Wrote g g' ws ∧ Completed g' id ∧ g'.u = g.u ∧ g'.p = g.p ∧
    SameMasks g g' ∧ g'.pc = g.pc ∧ SameBytes s t ∧ OtherGroups s t r

/-- The reservation that an LDR leaves, if the load is one. -/
def reserved (v : State) (r : GRef) (id pa0 : Nat) (rsv : Bool) : State := if rsv then ldrSet v r.tile r.slot id (some pa0) else v

/-- A load that may read, and whose lanes give their bytes without a mark, completes with its words. -/
theorem LoadHere.completes {v : State} {f : LaneAcc → List Nat} (h : LoadHere s r g w p d k size ty sg rsv la) (hfirst : firstHome la = some pa0)
    (hmay : loadMay s r.tile r.slot g w.space p.id size ty (nextLanes ty la []) rsv = true) (hone : ty = 3 → la = [l0])
    (hldr : rsv = true → ldrMay s r.tile r.slot p.id pa0 = true) (hv : Reach false r.tile s v)
    (hread : readLanes (readState (lookedUp s r w p.id size ty rsv la) r w rsv la) r.tile r.slot w.space (spaceSlot s (tileDie r.tile) w.space) p.id
      size ty rsv [] la = (la.map (fun x => (x.lane, f x, false)), v)) :
    exec (.loadReturn r p.id) s = .next (modGroup (reserved v r p.id pa0 rsv) r.tile r.slot
      (loaded (loadedWords d size sg (la.map (fun x => (x.lane, f x, false)))) p.id)) ∧ Reach false r.tile s (reserved v r p.id pa0 rsv) := by
  have hreach : Reach false r.tile s (reserved v r p.id pa0 rsv) := hv.opt (·.upd)
  refine ⟨?_, hreach⟩
  have hgo : (rsv && !ldrMay s r.tile r.slot p.id pa0) = false := by
    cases rsv with
    | false => rfl
    | true => simp [hldr rfl]
  have hwhole : (decide (ty = 3) && decide ((la.map (fun x => (x.lane, f x, false))).length < la.length)) = false := by simp
  have hclear : ∀ x ∈ la.map (fun x => (x.lane, f x, false)), x.2.2 = false := by simp
  rw [h.returns hfirst, hmay, hgo, nextLanes_all hone, hread]
  dsimp only
  rw [hwhole, delReqs_nil]
  exact congrArg Host.Outcome.next (loadDone_clear (noneWaits_reach h.waits hreach) hclear p.id)

theorem laneBytes_lane {la : List LaneAcc} (h : ∀ x ∈ la, x.lane < 64) (f : LaneAcc → List Nat) :
    ∀ x ∈ la.map (fun x => (x.lane, f x, false)), x.1 < 64 := by
  intro x hx
  obtain ⟨y, hy, rfl⟩ := List.mem_map.1 hx
  exact h y hy

/-- `completes`, with what the load leaves. -/
theorem LoadHere.leaves {v : State} {f : LaneAcc → List Nat} (h : LoadHere s r g w p d k size ty sg rsv la) (hfirst : firstHome la = some pa0)
    (hmay : loadMay s r.tile r.slot g w.space p.id size ty (nextLanes ty la []) rsv = true) (hone : ty = 3 → la = [l0])
    (hldr : rsv = true → ldrMay s r.tile r.slot p.id pa0 = true) (hv : Reach false r.tile s v)
    (hread : readLanes (readState (lookedUp s r w p.id size ty rsv la) r w rsv la) r.tile r.slot w.space (spaceSlot s (tileDie r.tile) w.space) p.id
      size ty rsv [] la = (la.map (fun x => (x.lane, f x, false)), v)) :
    ∃ t g', LoadLeaves s r g p.id (loadedWords d size sg (la.map (fun x => (x.lane, f x, false)))) t g' ∧ t.resvs = (reserved v r p.id pa0 rsv).resvs := by
  obtain ⟨hexec, hreach⟩ := h.completes hfirst hmay hone hldr hv hread
  obtain ⟨g', hspec⟩ := loaded_spec (id := p.id) h.here hreach (loadedWords_lane (laneBytes_lane (fun x hx => (h.lanes x hx).1) f))
  exact ⟨_, g', ⟨hexec, hspec⟩, rfl⟩

/-- A load of which each lane takes the value of its home slice. -/
theorem LoadHere.reads_home (h : LoadHere s r g w p d k size ty sg rsv la) (hs : ∀ pg, (blk s pg).injArm = false) (hp : Plain s)
    (hc : (decide (ty = 0) && !rsv) = false) (hclear : AllClear s la) : ∃ v, Reach false r.tile s v ∧
      readLanes (readState (lookedUp s r w p.id size ty rsv la) r w rsv la) r.tile r.slot w.space (spaceSlot s (tileDie r.tile) w.space) p.id size ty
        rsv [] la = (la.map (fun x => (x.lane, homeBytes s (spaceSlot s (tileDie r.tile) w.space) size x, false)), v) := by
  have hlines : l1Lines (tile s r.tile) r.slot p.id size ty rsv (nextLanes ty la []) = [] := by
    refine if_pos ?_
    cases rsv with
    | true => simp
    | false => simpa using hc
  have hlooked : lookedUp s r w p.id size ty rsv la = s := by
    unfold lookedUp
    rw [hlines]
    rfl
  have hstate : Reach false r.tile s (readState s r w rsv la) := by
    refine (Reach.refl s).opt fun h => h.modTile fun x => ?_
    exact Prod.ext (foldl_keep Tile.groups (dropLine w) (fun _ _ => rfl) la x) (foldl_keep Tile.wgs (dropLine w) (fun _ _ => rfl) la x)
  have hsame : (∀ pg, (blk (readState s r w rsv la) pg).injArm = false) ∧ Plain (readState s r w rsv la) ∧ AllClear (readState s r w rsv la) la ∧
      homeBytes (readState s r w rsv la) = homeBytes s := by
    unfold readState
    split
    · exact ⟨hs, hp, hclear, rfl⟩
    · exact ⟨hs, hp, hclear, rfl⟩
  obtain ⟨hs1, hp1, hclear1, hbytes⟩ := hsame
  obtain ⟨v, -, hv, hfold⟩ := foldl_laneRead_home (t := r.tile) (n := r.slot) (space := w.space) (slot := spaceSlot s (tileDie r.tile) w.space)
    (id := p.id) (size := size) (rq := []) hc la _ [] hs1 hp1 (fun x hx => (h.lanes x hx).2) hclear1
  refine ⟨v, hstate.trans hv, ?_⟩
  rw [hlooked, readLanes_eq, hfold, hbytes]
  rfl

/-- A load of one lane whose bytes an entry of its group holds. -/
theorem reads_entry {e : SbEntry} (hty : ty = 0) (hf : (tile s r.tile).forward r.slot p.id l0.va size = some (e, true)) :
    readLanes (readState (lookedUp s r w p.id size ty false [l0]) r w false [l0]) r.tile r.slot w.space (spaceSlot s (tileDie r.tile) w.space) p.id size
      ty false [] [l0] = ([l0].map (fun x => (x.lane, (rangeFrom x.va size).map (fun a => (e.byteAt p.id a).getD 0), false)), s) := by
  subst hty
  have hlooked : lookedUp s r w p.id size 0 false [l0] = s := by
    have hlines : l1Lines (tile s r.tile) r.slot p.id size 0 false (nextLanes 0 [l0] []) = [] := by
      simp [l1Lines, nextLanes, hf]
    unfold lookedUp
    rw [hlines]
    rfl
  rw [hlooked, readLanes_eq, List.foldl_cons, List.foldl_nil, laneStep]
  unfold laneRead
  dsimp only [readState]
  simp [hf]

end

/-- The words of lanes that take the values of their home slices, as the statement gives them. -/
theorem homeWords_eq (s : State) (slot d size : Nat) (sg : Bool) (la : List LaneAcc) :
    loadedWords d size sg (la.map (fun x => (x.lane, homeBytes s slot size x, false))) =
      (la.map (fun x => if d = 0xFF then [] else wordWrites d x.lane (loadWords size sg (homeBytes s slot size x)))).flatten :=
  loadedWords_map d size sg la _

/-- The words of one lane. -/
theorem loadedWords_single (d size : Nat) (sg : Bool) (x : LaneAcc) (bs : List Nat) :
    loadedWords d size sg [(x.lane, bs, false)] = if d = 0xFF then [] else wordWrites d x.lane (loadWords size sg bs) := by
  simp [loadedWords]

/-- An LDR leaves the reservation of its granule as the only one of its group (R281). -/
theorem resvs_ldrSet (v : State) (t n id pa : Nat) :
    (pa / 256, t, n) ∈ (ldrSet v t n id (some pa)).resvs ∧
      ∀ x ∈ (ldrSet v t n id (some pa)).resvs, x.2.1 = t → x.2.2 = n → x = (pa / 256, t, n) := by
  refine ⟨List.mem_append_right _ (List.mem_singleton.2 rfl), fun x hx h1 h2 => ?_⟩
  rcases List.mem_append.1 hx with h | h
  · have := (List.mem_filter.1 h).2
    simp [h1, h2] at this
  · exact List.mem_singleton.1 h

/-- Settles O15: a load that may return completes with the words of its lanes. -/
theorem loadsReturnMemory : Obligations.LoadsReturnMemory := by
  unfold Obligations.LoadsReturnMemory
  intro s r g w p d k size ty sg rsv la l0 pa0 hg hw hopen hk hids hpref hwaits hs hhead hl0 hla hp may slot word home clear does
  have h : LoadHere s r g w p d k size ty sg rsv la := ⟨hg, hw, hopen, hk, hids, hpref, hwaits, hla⟩
  have hfirst : firstHome la = some pa0 := by
    unfold firstHome
    rw [hhead]
    obtain ⟨seq, lane, va, dst, data⟩ := l0
    cases hl0
    rfl
  have hhome : home = homeBytes s slot size := by
    funext x
    obtain ⟨seq, lane, va, dst, data⟩ := x
    cases dst <;> rfl
  refine ⟨fun hno => ?_, fun hmay hr hty hone hclear => ?_, fun hmay hr hty hone e he => ?_, fun hmay hr hone hldr hclear => ?_,
    fun hmay hr hldr => ?_⟩
  · have hno' : loadMay s r.tile r.slot g w.space p.id size ty (nextLanes ty la []) rsv = false := hno
    rw [h.returns hfirst, hno']
    rfl
  · subst hr
    obtain ⟨v, hv, hread⟩ := h.reads_home hs hp (by simp [hty]) hclear
    obtain ⟨u, g', hdoes, -⟩ := h.leaves hfirst hmay hone (fun h => nomatch h) hv hread
    rw [homeWords_eq] at hdoes
    rw [hhome]
    exact ⟨u, g', hdoes⟩
  · subst hr hone
    obtain ⟨u, g', hdoes, -⟩ := h.leaves hfirst hmay (fun _ => rfl) (fun h => nomatch h) (Reach.refl s) (reads_entry hty he)
    rw [List.map_singleton, loadedWords_single] at hdoes
    exact ⟨u, g', hdoes⟩
  · subst hr hone
    obtain ⟨v, hv, hread⟩ := h.reads_home hs hp (by simp) (fun x hx => List.mem_singleton.1 hx ▸ hclear)
    obtain ⟨u, g', hdoes, hresvs⟩ := h.leaves hfirst hmay (fun _ => rfl) (fun _ => hldr) hv hread
    rw [List.map_singleton, loadedWords_single] at hdoes
    rw [hhome]
    exact ⟨u, g', hdoes, hresvs.symm ▸ resvs_ldrSet v r.tile r.slot p.id pa0⟩
  · have hmay' : loadMay s r.tile r.slot g w.space p.id size ty (nextLanes ty la []) rsv = true := hmay
    rw [h.returns hfirst, hmay', hr, hldr]
    rfl

end Sys2Proof.Laws
end

