-- ==== Sys2Proof/Proofs/HomeLines.lean ====
section
/-!
SUPPORT. Writes of a line at its home slice: the bytes that a write leaves, and the elements that a reduce-write adds to (R220, R234).
-/
namespace Sys2Proof.Laws
open Sys2Proof.Machine Sys2Proof.Safety

/-! An address and the base of its line (R222, R223). -/

theorem lineBase_div (pa : Nat) : lineBase pa / 128 = pa / 128 := Nat.mul_div_left _ (by decide)

/-- Fields above the offset in the line are those of the line. -/
theorem bits_lineBase {lo : Nat} (h : 7 ≤ lo) (pa hi : Nat) : bits (lineBase pa) hi lo = bits pa hi lo := by
  obtain ⟨m, rfl⟩ := Nat.exists_eq_add_of_le h
  have hshift : ∀ n : Nat, n >>> (7 + m) = n / 128 / 2 ^ m := fun n => by
    rw [Nat.shiftRight_eq_div_pow, pow_add, Nat.div_div_eq_div_mul]
    norm_num
  unfold bits
  rw [hshift, hshift, lineBase_div]

@[simp] theorem homeDie_lineBase (pa : Nat) : homeDie (lineBase pa) = homeDie pa := bits_lineBase (by decide) pa 39
@[simp] theorem frameOf_lineBase (pa : Nat) : frameOf (lineBase pa) = frameOf pa := bits_lineBase (by decide) pa 37
@[simp] theorem lineInFrame_lineBase (pa : Nat) : lineInFrame (lineBase pa) = lineInFrame pa := bits_lineBase (by decide) pa 20
@[simp] theorem chunkOf_lineBase (pa : Nat) : chunkOf (lineBase pa) = chunkOf pa := by simp [chunkOf]
@[simp] theorem sliceOf_lineBase (pa : Nat) : sliceOf (lineBase pa) = sliceOf pa := by simp [sliceOf]
@[simp] theorem gslice_lineBase (pa : Nat) : gslice (lineBase pa) = gslice pa := by simp [gslice]
@[simp] theorem stackOf_lineBase (pa : Nat) : stackOf (lineBase pa) = stackOf pa := by simp [stackOf]
@[simp] theorem pchOf_lineBase (pa : Nat) : pchOf (lineBase pa) = pchOf pa := by simp [pchOf]
@[simp] theorem setOf_lineBase (pa : Nat) : Machine.setOf (lineBase pa) = Machine.setOf pa := by simp [Machine.setOf]

@[simp] theorem isFenced_lineBase (s : State) (pa : Nat) : isFenced s (lineBase pa) = isFenced s pa := by simp [isFenced]

@[simp] theorem isMarked_lineBase (s : State) (pa : Nat) : isMarked s (lineBase pa) = isMarked s pa := by
  simp [isMarked, Stack.renewed, sameRow, lineBase_div]

/-! Numbers as bytes (R5). -/

@[simp] theorem length_toBytes (k n : Nat) : (toBytes k n).length = k := by
  induction k generalizing n with
  | zero => rfl
  | succ k ih => simp [toBytes, ih]

theorem ofBytes_toBytes (k n : Nat) : ofBytes (toBytes k n) = n % 256 ^ k := by
  induction k generalizing n with
  | zero => simp [toBytes, ofBytes, Nat.mod_one]
  | succ k ih => rw [toBytes, ofBytes, ih, pow_succ', Nat.mod_mul, Nat.mod_mod]

theorem toBytes_lt {k n : Nat} {b : Nat} (h : b ∈ toBytes k n) : b < 256 := by
  induction k generalizing n with
  | zero => cases h
  | succ k ih =>
    rcases List.mem_cons.1 h with rfl | h
    · exact Nat.mod_lt _ (by decide)
    · exact ih h

/-! The byte that a list of writes leaves at an offset. -/

theorem lastAt_append (xs ys : List (Nat × Nat)) (o : Nat) : lastAt (xs ++ ys) o = (lastAt ys o).or (lastAt xs o) := by
  unfold lastAt
  rw [List.foldl_append]
  exact foldl_lastAt ys o _

theorem lastAt_singleton (b : Nat × Nat) (o : Nat) : lastAt [b] o = if b.1 = o then some (b.2 % 256) else none := rfl

/-- The last write that names the offset. -/
theorem lastAt_eq (bs : List (Nat × Nat)) (o : Nat) : lastAt bs o = ((bs.filter (fun b => b.1 == o)).getLast?).map (fun b => b.2 % 256) := by
  induction bs using List.reverseRecOn with
  | nil => rfl
  | append_singleton bs b ih =>
    rw [lastAt_append, lastAt_singleton, ih, List.filter_append, List.getLast?_append]
    by_cases hb : b.1 = o
    · simp [hb]
    · simp [hb]

theorem lastAt_none {bs : List (Nat × Nat)} {o : Nat} (h : ∀ b ∈ bs, b.1 ≠ o) : lastAt bs o = none := by
  rw [lastAt_eq, List.filter_eq_nil_iff.2 fun b hb => by simpa using h b hb]
  rfl

/-- Consecutive bytes written from an offset. -/
def bytesAt (o : Nat) (bs : List Nat) : List (Nat × Nat) := bs.mapIdx (fun i b => (o + i, b))

theorem mem_bytesAt {o : Nat} {bs : List Nat} {x : Nat × Nat} (h : x ∈ bytesAt o bs) : o ≤ x.1 ∧ x.1 < o + bs.length := by
  obtain ⟨i, hi, rfl⟩ := List.mem_mapIdx.1 h
  exact ⟨Nat.le_add_right _ _, Nat.add_lt_add_left hi o⟩

theorem lastAt_bytesAt (o : Nat) (bs : List Nat) (j : Nat) : lastAt (bytesAt o bs) (o + j) = bs[j]?.map (· % 256) := by
  induction bs using List.reverseRecOn with
  | nil => rfl
  | append_singleton bs b ih =>
    have hsplit : bytesAt o (bs ++ [b]) = bytesAt o bs ++ [(o + bs.length, b)] := List.mapIdx_append_one
    rw [hsplit, lastAt_append, lastAt_singleton, ih]
    rcases Nat.lt_trichotomy j bs.length with hj | rfl | hj
    · rw [if_neg (by simp; omega), List.getElem?_append_left hj]
      rfl
    · simp
    · rw [if_neg (by simp; omega), List.getElem?_eq_none (by omega), List.getElem?_eq_none (by simp; omega)]
      rfl

/-! A write at the home slice (R220). -/

/-- Memory after a write of bytes of the line of an address. -/
def written (s : State) (slot pa : Nat) (bytes : List (Nat × Nat)) : State := { s with ram := s.ram.write (keyId s slot) (pa / 128) bytes }

section
variable {s t : State} {slot pa : Nat} {bytes : List (Nat × Nat)}

theorem byteUnder_written (h : Reach false 0 (written s slot pa bytes) t) {o : Nat} (ho : o < 128) :
    byteUnder t.ram (keyId s slot) (lineBase pa + o) = (lastAt bytes o).getD (byteUnder s.ram (keyId s slot) (lineBase pa + o)) := by
  have hbase : lineBase pa + o = 128 * (pa / 128) + o := by rw [lineBase, Nat.mul_comm]
  rw [h.sameBytes, hbase]
  exact byteUnder_write s.ram _ (pa / 128) o bytes ho

theorem byteUnder_written_ne (h : Reach false 0 (written s slot pa bytes) t) (hb : ∀ b ∈ bytes, b.1 < 128) (k : Nat) {x : Nat}
    (hx : x / 128 ≠ pa / 128) : byteUnder t.ram k x = byteUnder s.ram k x :=
  (h.sameBytes k x).trans (byteUnder_write_ne s.ram _ k (pa / 128) x bytes hb hx)

theorem lineHolds_written (h : Reach false 0 (written s slot pa bytes) t) (hb : ∀ b ∈ bytes, b.1 < 128) : LineHolds s t slot pa bytes := by
  refine ⟨fun o ho => ?_, fun k x hx => byteUnder_written_ne h hb k hx⟩
  rw [byteUnder_written h ho, lastAt_eq]
  split
  next hl => rw [hl]; rfl
  next hl => rw [hl]; rfl

variable {mark whole : Bool} {own : Option (Nat × Nat)}

/-- A write of a line that is not fenced leaves its bytes. -/
theorem lineStore_written (hf : isFenced s pa = false) : Reach false 0 (written s slot pa bytes) (lineStore s slot (lineBase pa) bytes mark own whole) := by
  unfold lineStore
  rw [isFenced_lineBase, hf, if_neg (by decide), lineBase_div]
  exact (Reach.refl (written s slot pa bytes)).stored

theorem lineWrite_holds (hf : isFenced s pa = false) (hb : ∀ b ∈ bytes, b.1 < 128) :
    LineHolds s (lineWrite s slot (lineBase pa) bytes mark own) slot pa bytes := lineHolds_written (lineStore_written hf) hb

/-- A number written inside the line. -/
theorem lineWriteN_holds {off n v : Nat} (hf : isFenced s pa = false) (hoff : off + n ≤ 128) (hn : 0 < n) :
    LineHolds s (lineWriteN s slot (lineBase pa + off) n v) slot pa (bytesAt ((lineBase pa + off) % 128) (toBytes n v)) := by
  have hline : lineBase (lineBase pa + off) = lineBase pa := by
    unfold lineBase
    omega
  have hmod : (lineBase pa + off) % 128 = off := by
    unfold lineBase
    omega
  unfold lineWriteN
  rw [hline]
  refine lineWrite_holds hf fun b hb => ?_
  have := (mem_bytesAt hb).2
  rw [hmod, length_toBytes] at this
  omega

/-! A reduce-write (R234). -/

/-- The bytes of elements of a line with their values. -/
def elementBytes (es : List (Nat × Nat)) : List (Nat × Nat) := (es.map (fun e => bytesAt (4 * e.1) (toBytes 4 e.2))).flatten

theorem elementBytes_lt {es : List (Nat × Nat)} (h : ∀ e ∈ es, e.1 < 32) : ∀ b ∈ elementBytes es, b.1 < 128 := by
  intro b hb
  obtain ⟨l, hl, hmem⟩ := List.mem_flatten.1 hb
  obtain ⟨e, he, rfl⟩ := List.mem_map.1 hl
  have hpos := (mem_bytesAt hmem).2
  have := h e he
  rw [length_toBytes] at hpos
  omega

/-- The bytes of one element, where each element named has the value that `f` gives it. -/
theorem lastAt_elementBytes (f : Nat → Nat) (is : List Nat) (i : Nat) {j : Nat} (hj : j < 4) :
    lastAt (elementBytes (is.map (fun e => (e, f e)))) (4 * i + j) = if i ∈ is then (toBytes 4 (f i))[j]?.map (· % 256) else none := by
  induction is with
  | nil => rfl
  | cons e is ih =>
    have hsplit : elementBytes ((e :: is).map (fun e => (e, f e))) = bytesAt (4 * e) (toBytes 4 (f e)) ++ elementBytes (is.map (fun e => (e, f e))) := rfl
    rw [hsplit, lastAt_append, ih]
    by_cases he : e = i
    · subst he
      rw [lastAt_bytesAt, if_pos List.mem_cons_self]
      split
      · exact Option.or_self
      · rfl
    · have hnone : lastAt (bytesAt (4 * e) (toBytes 4 (f e))) (4 * i + j) = none := by
        refine lastAt_none fun b hb => ?_
        obtain ⟨hlo, hhi⟩ := mem_bytesAt hb
        rw [length_toBytes] at hhi
        omega
      rw [hnone, Option.or_none]
      simp [Ne.symm he]

/-- The addends of a reduce-write: element i takes addend i, unless that is no FP32 code. -/
def masked (l : List Nat) : List (Nat × Nat) := ((l.take 32).mapIdx (fun i a => (i, a))).filter (fun e => e.2 < 2 ^ 32)

theorem mapIdx_pair_filter (l : List Nat) (i : Nat) : (l.mapIdx (fun i a => (i, a))).filter (fun e => e.1 == i) = (l[i]?.map (fun a => (i, a))).toList := by
  induction l using List.reverseRecOn with
  | nil => rfl
  | append_singleton l a ih =>
    rw [List.mapIdx_append_one, List.filter_append, ih]
    rcases Nat.lt_trichotomy i l.length with hi | rfl | hi
    · rw [List.getElem?_append_left hi]
      simp [Nat.ne_of_gt hi]
    · simp
    · rw [List.getElem?_eq_none (by omega), List.getElem?_eq_none (by simp; omega)]
      simp [Nat.ne_of_lt hi]

/-- The addend of one element. -/
theorem masked_filter {l : List Nat} (hl : l.length ≤ 32) (i : Nat) :
    (masked l).filter (fun e => e.1 == i) = ((l[i]?.map (fun a => (i, a))).toList).filter (fun e => e.2 < 2 ^ 32) := by
  rw [masked, List.take_of_length_le hl, List.filter_comm, mapIdx_pair_filter]

theorem mem_masked_iff {l : List Nat} (hl : l.length ≤ 32) (i : Nat) : i ∈ (masked l).map (·.1) ↔ ∃ a, l[i]? = some a ∧ a < 2 ^ 32 := by
  have hmem : i ∈ (masked l).map (·.1) ↔ (masked l).filter (fun e => e.1 == i) ≠ [] := by
    simp [List.filter_eq_nil_iff]
  rw [hmem, masked_filter hl]
  cases l[i]? with
  | none => simp
  | some a => simp

/-- The new value of an element, if it takes an addend. -/
def sumAt (s : State) (slot pa : Nat) (adds : List (Nat × Nat)) (e : Nat) : Nat :=
  ((adds.filter (fun a => a.1 == e)).foldl (fun v a => f32Add v (BitVec.ofNat 32 a.2)) (BitVec.ofNat 32 (rdN s slot (lineBase pa + 4 * e) 4))).toNat

theorem reduced_eq (s : State) (slot pa : Nat) (adds : List (Nat × Nat)) :
    reduced s slot pa adds = ((adds.map (·.1)).eraseDups).map (fun e => (e, sumAt s slot pa adds e)) := rfl

theorem sumAt_lt (s : State) (slot pa : Nat) (adds : List (Nat × Nat)) (e : Nat) : sumAt s slot pa adds e < 2 ^ 32 := BitVec.isLt _

theorem sumAt_masked {l : List Nat} (hl : l.length ≤ 32) {i a : Nat} (hi : l[i]? = some a) (ha : a < 2 ^ 32) :
    sumAt s slot pa (masked l) i = (f32Add (BitVec.ofNat 32 (rdN s slot (lineBase pa + 4 * i) 4)) (BitVec.ofNat 32 a)).toNat := by
  unfold sumAt
  have hone : [(i, a)].filter (fun e => e.2 < 2 ^ 32) = [(i, a)] := by simpa using ha
  rw [masked_filter hl, hi, Option.map_some, Option.toList_some, hone]
  rfl

theorem keyId_lineStore (slot' : Nat) : keyId (lineStore s slot pa bytes mark own whole) slot' = keyId s slot' := by
  have h : WorkFrom true s (lineStore s slot pa bytes mark own whole) := (WorkFrom.refl s).lineStore
  have hkeys : (lineStore s slot pa bytes mark own whole).keys = s.keys := by
    have := congrArg State.keys h.rest
    exact this
  unfold keyId
  rw [hkeys]

/-- A number read from a line whose bytes at its place are known. -/
theorem rdN_of_bytes {a n : Nat} {bs : List Nat} (hlen : bs.length = n) (h : ∀ j (hj : j < bs.length), byteUnder s.ram (keyId s slot) (a + j) = bs[j]) :
    rdN s slot a n = ofBytes bs := by
  unfold rdN readPhys readUnder
  congr 1
  refine List.ext_getElem (by simp [rangeFrom, hlen]) fun j h1 h2 => ?_
  rw [← h j h2]
  simp [rangeFrom, Nat.add_comm]

/-- What a reduce-write leaves of each element, and that it leaves the other lines. -/
theorem lineReduce_spec {l : List Nat} (hf : isFenced s pa = false) (hl : l.length ≤ 32) :
    (∀ k x, x / 128 ≠ pa / 128 → byteUnder (lineReduce s slot (lineBase pa) (masked l) false).ram k x = byteUnder s.ram k x) ∧
      ∀ i, i < 32 → rdN (lineReduce s slot (lineBase pa) (masked l) false) slot (lineBase pa + 4 * i) 4 =
        if i ∈ (masked l).map (·.1) then sumAt s slot pa (masked l) i else rdN s slot (lineBase pa + 4 * i) 4 := by
  have hbase : lineBase (lineBase pa) = lineBase pa := congrArg (· * 128) (lineBase_div pa)
  have hadd : reduced s slot (lineBase pa) (masked l) = (((masked l).map (·.1)).eraseDups).map (fun e => (e, sumAt s slot pa (masked l) e)) := by
    rw [reduced_eq]
    unfold sumAt
    rw [hbase]
  have hstore : lineReduce s slot (lineBase pa) (masked l) false =
      lineStore s slot (lineBase pa) (elementBytes (reduced s slot (lineBase pa) (masked l))) false none false := by
    unfold lineReduce
    rw [hbase]
    rfl
  have hin : ∀ e ∈ reduced s slot (lineBase pa) (masked l), e.1 < 32 := by
    intro e he
    rw [hadd] at he
    obtain ⟨i, hi, rfl⟩ := List.mem_map.1 he
    obtain ⟨a, ha, -⟩ := (mem_masked_iff hl i).1 (List.mem_eraseDups.1 hi)
    exact lt_of_lt_of_le (List.getElem?_eq_some_iff.1 ha).1 hl
  have hreach := lineStore_written (slot := slot) (bytes := elementBytes (reduced s slot (lineBase pa) (masked l))) (mark := false) (own := none)
    (whole := false) hf
  have hkey := keyId_lineStore (s := s) (slot := slot) (pa := lineBase pa) (bytes := elementBytes (reduced s slot (lineBase pa) (masked l)))
    (mark := false) (own := none) (whole := false) slot
  rw [hstore]
  refine ⟨fun k x hx => byteUnder_written_ne hreach (elementBytes_lt hin) k hx, fun i hi => ?_⟩
  have hbyte : ∀ j, j < 4 → byteUnder (lineStore s slot (lineBase pa) (elementBytes (reduced s slot (lineBase pa) (masked l))) false none false).ram
      (keyId s slot) (lineBase pa + 4 * i + j) =
        (if i ∈ (masked l).map (·.1) then (toBytes 4 (sumAt s slot pa (masked l) i))[j]?.map (· % 256) else none).getD
          (byteUnder s.ram (keyId s slot) (lineBase pa + 4 * i + j)) := by
    intro j hj
    rw [Nat.add_assoc, byteUnder_written hreach (by omega), hadd, lastAt_elementBytes _ _ i hj]
    simp only [List.mem_eraseDups]
  split
  next hmem =>
    have hval : ofBytes (toBytes 4 (sumAt s slot pa (masked l) i)) = sumAt s slot pa (masked l) i := by
      rw [ofBytes_toBytes]
      exact Nat.mod_eq_of_lt (sumAt_lt _ _ _ _ _)
    refine (rdN_of_bytes (length_toBytes _ _) fun j hj => ?_).trans hval
    rw [hkey, hbyte j (by simpa using hj), if_pos hmem, List.getElem?_eq_getElem hj]
    exact Nat.mod_eq_of_lt (toBytes_lt (List.getElem_mem hj))
  next hmem =>
    refine rdN_of_bytes (readUnder_length _ _ _ _) fun j hj => ?_
    have hj4 : j < 4 := by rwa [readPhys, readUnder_length] at hj
    rw [hkey, hbyte j hj4, if_neg hmem]
    simp [readPhys, readUnder, rangeFrom, Nat.add_comm]

end
end Sys2Proof.Laws
end

