-- ==== Sys2Proof/Proofs/LineAccess.lean ====
section
/-!
PROOF. O41: line operations at the home slice, reduce-writes, fills and write-backs (R109, R220, R222, R231, R232, R234).
-/
namespace Sys2Proof.Laws
open Sys2Proof.Machine Sys2Proof.Safety

/-- No access to the line of an address waits for its fill at the slice. -/
def NoFill (s : State) (pa : Nat) : Prop := ∀ f ∈ (slice s (gslice pa)).fills, f.pa / 128 ≠ pa / 128

/-- An access to a line meets nothing that it would wait for, a fill apart. -/
structure LineFree (s : State) (pa : Nat) : Prop where
  line  : lineExists pa = true
  held  : lineHeld s pa = false
  room  : noRoom s pa = false
  waits : ∀ w ∈ (slice s (gslice pa)).waits, w.pa / 128 ≠ pa / 128

section
variable {s t : State} {o : LineOp} {pa slot : Nat}

theorem NoFill.none_filling (h : NoFill s pa) : ¬(slice s (gslice pa)).fills.any (fun f => f.pa / 128 == pa / 128) = true := by
  rw [Bool.not_eq_true]
  exact List.any_eq_false.2 fun f hf => by simpa using h f hf

theorem LineFree.first (h : LineFree s pa) : ¬(lineHeld s pa || (slice s (gslice pa)).waits.any (fun y => y.pa / 128 == pa / 128)) = true := by
  rw [h.held, Bool.false_or, Bool.not_eq_true]
  exact List.any_eq_false.2 fun w hw => by simpa using h.waits w hw

/-! What an access does on its arrival (R231, R232). -/

theorem exec_l2LineAccess (h : lineExists o.pa = true) : exec (.l2LineAccess o) s = .next (lineArrives s (.op o)) :=
  if_neg (by rw [h]; decide)

theorem LineFree.performs (h : LineFree s o.pa) (hfill : NoFill s o.pa) (hneed : (needsLine o && !sliceHas s o.pa) = false) :
    exec (.l2LineAccess o) s = .next (lineDo s o) := by
  have hnow : ¬((needsLine o && !sliceHas s o.pa) || (slice s (gslice o.pa)).fills.any (fun f => f.pa / 128 == o.pa / 128)) = true := by
    rw [hneed, Bool.false_or]
    exact hfill.none_filling
  have hroom : ¬noRoom s o.pa = true := by
    rw [h.room]
    decide
  have hdo : lineArrives s (.op o) = lineDo s o := (if_neg h.first).trans ((if_neg hnow).trans (if_neg hroom))
  rw [exec_l2LineAccess h.line, hdo]

theorem LineFree.awaits (h : LineFree s o.pa) (hneed : needsLine o = true) (hhas : sliceHas s o.pa = false) : exec (.l2LineAccess o) s =
    .next (setSlice s (gslice o.pa) { slice s (gslice o.pa) with fills := (slice s (gslice o.pa)).fills ++ [o] }) := by
  have hwait : ((needsLine o && !sliceHas s o.pa) || (slice s (gslice o.pa)).fills.any (fun f => f.pa / 128 == o.pa / 128)) = true := by
    rw [hneed, hhas]
    rfl
  rw [exec_l2LineAccess h.line]
  exact congrArg Host.Outcome.next ((if_neg h.first).trans (if_pos hwait))

theorem LineFree.reduces (h : LineFree s pa) (hfill : NoFill s pa) (l : List Nat) :
    exec (.reduceWrite slot pa l) s = .next (lineReduce s slot (lineBase pa) (masked l) false) := by
  have hexec : exec (.reduceWrite slot pa l) s = .next (lineArrives s (.red slot pa (masked l))) := if_neg (by rw [h.line]; decide)
  have hnow : ¬((slice s (gslice pa)).fills.any (fun f => f.pa / 128 == pa / 128) || noRoom s pa) = true := by
    rw [h.room, Bool.or_false]
    exact hfill.none_filling
  rw [hexec]
  exact congrArg Host.Outcome.next ((if_neg h.first).trans (if_neg hnow))

/-! What is performed (R220). -/

/-- The agent has the bytes and the mark of the line. -/
def LineGiven (s t : State) (slot pa : Nat) : Prop :=
  tget? t.bus 18 = some (ofBytes (readPhys s slot (lineBase pa) 128)) ∧ tget? t.bus 19 = some (if isMarked s pa then 1 else 0)

theorem bus18_lineGives (u : State) (bs : List Nat) (mark : Bool) : tget? (lineGives u bs mark).bus 18 = some (ofBytes bs) :=
  (tget?_tput_ne _ _ (by decide)).trans (tget?_tput_same _ _ _)

theorem bus19_lineGives (u : State) (bs : List Nat) (mark : Bool) : tget? (lineGives u bs mark).bus 19 = some (if mark then 1 else 0) :=
  tget?_tput_same _ _ _

theorem lineDo_read (hs : Sound s) (pa slot : Nat) :
    LineGiven s (lineDo s ⟨pa, slot, .read, none⟩) slot pa ∧ SameBytes s (lineDo s ⟨pa, slot, .read, none⟩) := by
  obtain ⟨harm, hplain⟩ := hs
  have hmove := Moved.touchRead harm hplain slot (lineBase pa)
  have hdo : lineDo s ⟨pa, slot, .read, none⟩ = lineGives (touchRead s slot (lineBase pa)) (readPhys s slot (lineBase pa) 128) (isMarked s pa) := by
    rw [← readPhys_moved hmove, ← isMarked_lineBase s, ← isMarked_touched hmove.touched]
    rfl
  rw [hdo]
  exact ⟨⟨bus18_lineGives _ _ _, bus19_lineGives _ _ _⟩, (sameBytes_moved hmove : SameBytes s (touchRead s slot (lineBase pa)))⟩

theorem lineDo_write (hf : isFenced s pa = false) (slot : Nat) (bs : List (Nat × Nat)) :
    LineHolds s (lineDo s ⟨pa, slot, .write bs, none⟩) slot pa (bs.filter (fun b => b.1 < 128)) :=
  lineWrite_holds hf fun b hb => by simpa using (List.mem_filter.1 hb).2

theorem lineDo_zero (hf : isFenced s pa = false) (slot : Nat) : LineHolds s (lineDo s ⟨pa, slot, .zero, none⟩) slot pa zeroBytes := by
  refine lineWrite_holds hf fun b hb => ?_
  obtain ⟨i, hi, rfl⟩ := List.mem_map.1 hb
  exact List.mem_range.1 hi

theorem atomSize_pos (k : Nat) : 0 < atomSize k := by
  unfold atomSize
  split <;> decide

theorem lineDo_atomic (hf : isFenced s pa = false) (slot : Nat) {k off : Nat} (a b : Nat) (hoff : off + atomSize k ≤ 128) :
    tget? (lineDo s ⟨pa, slot, .atomic k off a b, none⟩).bus 18 =
        some (ofBytes (toBytes (atomSize k) (rdN s slot (lineBase pa + off) (atomSize k)))) ∧
      LineHolds s (lineDo s ⟨pa, slot, .atomic k off a b, none⟩) slot pa (bytesAt ((lineBase pa + off) % 128) (toBytes (atomSize k)
        (atomApply k (rdN s slot (lineBase pa + off) (atomSize k)) (a % 2 ^ (8 * atomSize k)) (b % 2 ^ (8 * atomSize k))))) := by
  have hdo : lineDo s ⟨pa, slot, .atomic k off a b, none⟩ = lineGives (lineAtomic s slot (lineBase pa + off) k a b).2
      (toBytes (atomSize k) (rdN s slot (lineBase pa + off) (atomSize k))) (isMarked s (lineBase pa)) := if_neg (Nat.not_lt.2 hoff)
  rw [hdo]
  exact ⟨bus18_lineGives _ _ _, lineWriteN_holds hf hoff (atomSize_pos k)⟩

theorem Reach.lineDo {n : Nat} {s0 : State} (h : Reach true n s0 s) (o : LineOp) : Reach true n s0 (lineDo s o) := by
  obtain ⟨pa, slot, kind, txg⟩ := o
  cases kind with
  | read => exact h.touchRead.upd
  | write bytes =>
    cases txg with
    | none => exact h.lineWrite
    | some t => exact h.stageWrite
  | zero =>
    cases txg with
    | none => exact h.lineWrite
    | some t => exact h.stageWrite
  | atomic k off a b => exact h.optElse (·.lineAtomic.upd)

/-! Fills (R231). -/

theorem slice_setSlice_same (s : State) (g : Nat) (x : L2Slice) : slice (setSlice s g x) g = x := tgetD_tput_same _ _ _ _

theorem slice_setSlice_ne (s : State) {g k : Nat} (x : L2Slice) (h : k ≠ g) : slice (setSlice s g x) k = slice s k := tgetD_tput_ne _ _ _ h

theorem Reach.fills {w : Bool} {n : Nat} (h : Reach w n s t) (k : Nat) : (slice t k).fills = (slice s k).fills := congrArg Prod.fst (h.queues k)

theorem Reach.waits {w : Bool} {n : Nat} (h : Reach w n s t) (k : Nat) : (slice t k).waits = (slice s k).waits := congrArg Prod.snd (h.queues k)

/-- An arrival leaves the lists of what waits for fills, or puts its own operation at the end of one. -/
theorem fills_lineArrives (s : State) (w : L2Wait) (g : Nat) :
    (slice (lineArrives s w) g).fills = (slice s g).fills ∨ ∃ o, w = .op o ∧ (slice (lineArrives s w) g).fills = (slice s g).fills ++ [o] := by
  have hqueue : (slice (setSlice s (gslice w.pa) { slice s (gslice w.pa) with waits := (slice s (gslice w.pa)).waits ++ [w] }) g).fills =
      (slice s g).fills := by
    by_cases hg : g = gslice w.pa
    · rw [hg, slice_setSlice_same]
    · rw [slice_setSlice_ne _ _ hg]
  unfold lineArrives
  dsimp only
  split
  · exact Or.inl hqueue
  · cases w with
    | op o =>
      dsimp only
      split
      · by_cases hg : g = gslice o.pa
        · subst hg
          exact Or.inr ⟨o, rfl, congrArg L2Slice.fills (slice_setSlice_same _ _ _)⟩
        · exact Or.inl (congrArg L2Slice.fills (slice_setSlice_ne _ _ hg))
      · split
        · exact Or.inl hqueue
        · exact Or.inl (((Reach.refl s).lineDo (n := 0) o).fills g)
    | red slot pa adds =>
      dsimp only
      split
      · exact Or.inl hqueue
      · exact Or.inl ((Reach.refl s).lineReduce (n := 0).fills g)
    | bytes slot pa bs =>
      dsimp only
      split
      · exact Or.inl hqueue
      · exact Or.inl ((Reach.refl s).lineWrite (n := 0).fills g)

/-- Accesses to other lines arrive. -/
theorem NoFill.arrivals (ws : List L2Wait) : ∀ {s : State}, NoFill s pa → (∀ w ∈ ws, w.pa / 128 ≠ pa / 128) →
    NoFill (ws.foldl lineArrives s) pa := by
  induction ws with
  | nil => exact fun h _ => h
  | cons w ws ih =>
    intro s h hws
    refine ih (fun f hf => ?_) fun x hx => hws x (List.mem_cons_of_mem _ hx)
    rcases fills_lineArrives s w (gslice pa) with hkeep | ⟨o, rfl, hadd⟩
    · exact h f (hkeep ▸ hf)
    · rw [hadd] at hf
      rcases List.mem_append.1 hf with hf | hf
      · exact h f hf
      · rw [List.mem_singleton.1 hf]
        exact hws (.op o) List.mem_cons_self

theorem NoFill.resumes (h : NoFill s pa) (hws : ∀ w ∈ (slice s (gslice pa)).waits, w.pa / 128 ≠ pa / 128) : NoFill (resumeWaits s (gslice pa)) pa := by
  refine NoFill.arrivals _ (fun f hf => ?_) hws
  rw [slice_setSlice_same] at hf
  exact h f hf

theorem resumeWaits_nil {g : Nat} (h : (slice s g).waits = []) : resumeWaits s g = setSlice s g { slice s g with waits := [] } := by
  unfold resumeWaits
  rw [h]
  rfl

/-- The operations that wait for the line's fill. -/
def filling (s : State) (pa : Nat) : List LineOp := (slice s (gslice pa)).fills.filter (fun f => f.pa / 128 == pa / 128)

/-- The line has come: nothing waits for it. -/
def lineCame (s : State) (pa : Nat) : State :=
  setSlice s (gslice pa) { slice s (gslice pa) with fills := (slice s (gslice pa)).fills.filter (fun f => f.pa / 128 != pa / 128) }

theorem noFill_lineCame (s : State) (pa : Nat) : NoFill (lineCame s pa) pa := by
  intro f hf
  rw [lineCame, slice_setSlice_same] at hf
  simpa using (List.mem_filter.1 hf).2

theorem LineFree.fillReturns (h : LineFree s pa) (hfill : ∃ f ∈ (slice s (gslice pa)).fills, f.pa / 128 = pa / 128) :
    exec (.hbmFillReturn pa) s = .next (resumeWaits ((filling s pa).foldl lineDo (lineCame s pa)) (gslice pa)) := by
  have hmine : (filling s pa).isEmpty = false := by
    obtain ⟨f, hf, hpa⟩ := hfill
    exact List.isEmpty_eq_false_iff_exists_mem.2 ⟨f, List.mem_filter.2 ⟨hf, by simpa using hpa⟩⟩
  have hgo : ((filling s pa).isEmpty || lineHeld s pa || noRoom s pa) = false := by rw [hmine, h.held, h.room]; rfl
  change execHbmFillReturn pa s = _
  unfold execHbmFillReturn
  rw [h.line, if_neg (by decide)]
  exact congrArg Host.Outcome.next (if_neg (Bool.not_eq_true _ ▸ hgo))

theorem filled_queues (s : State) (pa : Nat) :
    Reach true 0 (lineCame s pa) ((filling s pa).foldl lineDo (lineCame s pa)) := (Reach.refl _).foldl fun _ o h => h.lineDo o

/-- A fill performs what waits for the line. -/
theorem LineFree.noFill_fillReturn (h : LineFree s pa) : NoFill (resumeWaits ((filling s pa).foldl lineDo (lineCame s pa)) (gslice pa)) pa := by
  have hdone := filled_queues s pa
  refine NoFill.resumes (fun f hf => noFill_lineCame s pa f (hdone.fills _ ▸ hf)) fun w hw => h.waits w ?_
  rw [hdone.waits, lineCame, slice_setSlice_same] at hw
  exact hw

/-- A lone read that waits for the fill gets the line. -/
theorem fill_loneRead (hs : Sound s) (hmine : filling s pa = [⟨pa, slot, .read, none⟩]) (hwaits : (slice s (gslice pa)).waits = []) :
    LineGiven s (resumeWaits ((filling s pa).foldl lineDo (lineCame s pa)) (gslice pa)) slot pa ∧
      SameBytes s (resumeWaits ((filling s pa).foldl lineDo (lineCame s pa)) (gslice pa)) := by
  obtain ⟨harm, hplain⟩ := hs
  have hcame : Moved s (lineCame s pa) := Moved.setSlice hplain rfl rfl (hplain (gslice pa))
  have hnone : (slice ((filling s pa).foldl lineDo (lineCame s pa)) (gslice pa)).waits = [] := by
    rw [(filled_queues s pa).waits, lineCame, slice_setSlice_same]
    exact hwaits
  obtain ⟨hgiven, hbytes⟩ := lineDo_read ⟨hcame.unarmed harm, hcame.plain⟩ pa slot
  unfold LineGiven at hgiven ⊢
  rw [readPhys_moved hcame, isMarked_touched hcame.touched] at hgiven
  rw [resumeWaits_nil hnone, hmine]
  exact ⟨hgiven, hbytes⟩

/-! Write-backs (R232). -/

/-- The line leaves the eviction buffer. -/
theorem evictionWriteback_spec (h : lineExists pa = true) : ∃ t, exec (.evictionWriteback pa) s = .next t ∧
    ((slice s (gslice pa)).waits = [] → (slice t (gslice pa)).evb = (slice s (gslice pa)).evb.filter (· ≠ pa / 128)) ∧
    ((slice s (gslice pa)).waits = [] → (slice t (gslice pa)).lines = (slice s (gslice pa)).lines ∧ t.ram = s.ram) := by
  have hexec : exec (.evictionWriteback pa) s = .next (if (slice s (gslice pa)).evb.contains (pa / 128) then
      resumeWaits (setSlice s (gslice pa) { slice s (gslice pa) with evb := (slice s (gslice pa)).evb.filter (· ≠ pa / 128) }) (gslice pa) else s) := by
    change execEvictionWriteback pa s = _
    unfold execEvictionWriteback
    rw [h]
    rfl
  refine ⟨_, hexec, ?_⟩
  split
  next hin =>
    have hresume : (slice s (gslice pa)).waits = [] → resumeWaits (setSlice s (gslice pa)
        { slice s (gslice pa) with evb := (slice s (gslice pa)).evb.filter (· ≠ pa / 128) }) (gslice pa) = _ := fun hw =>
      resumeWaits_nil (by rw [slice_setSlice_same]; exact hw)
    refine ⟨fun hw => ?_, fun hw => ⟨?_, ?_⟩⟩
    · rw [hresume hw, slice_setSlice_same, slice_setSlice_same]
    · rw [hresume hw, slice_setSlice_same, slice_setSlice_same]
    · rw [hresume hw]
      rfl
  next hout =>
    refine ⟨fun _ => (List.filter_eq_self.2 fun x hx => ?_).symm, fun _ => ⟨rfl, rfl⟩⟩
    simp only [decide_not, Bool.not_eq_true', decide_eq_false_iff_not]
    rintro rfl
    exact hout (List.contains_iff_mem.2 hx)

end

/-- A line that does not exist stops the command by name. -/
theorem lines_absent {s : State} {pa : Nat} (h : lineExists pa = false) (slot : Nat) (o : LineOp) (l : List Nat) (ho : o.pa = pa) :
    exec (.l2LineAccess o) s = .fault (.noSuchLine pa) ∧ exec (.reduceWrite slot pa l) s = .fault (.noSuchLine pa) ∧
      exec (.hbmFillReturn pa) s = .fault (.noSuchLine pa) ∧ exec (.evictionWriteback pa) s = .fault (.noSuchLine pa) := by
  subst ho
  have hno : (!lineExists o.pa) = true := by rw [h]; rfl
  exact ⟨if_pos hno, if_pos hno, if_pos hno, if_pos hno⟩

/-- Settles O41: each line operation is performed with its exact bytes, or waits for the fill, which performs it. -/
theorem linesAreReadWrittenAndReduced : Obligations.LinesAreReadWrittenAndReduced := by
  unfold Obligations.LinesAreReadWrittenAndReduced
  intro s pa slot
  refine ⟨fun hno o l ho => lines_absent hno slot o l ho, fun hline hheld hf hs hroom hwaits => ?_⟩
  have h : LineFree s pa := ⟨hline, hheld, hroom, hwaits⟩
  refine ⟨fun hfill => ⟨fun hhas => ?_, fun bs hwhole => ?_, ?_, fun o ho hneed hhas => ?_, fun l hl => ?_⟩, fun hsome => ?_,
    evictionWriteback_spec hline⟩
  · have hdone : ∀ kind, exec (.l2LineAccess ⟨pa, slot, kind, none⟩) s = .next (lineDo s ⟨pa, slot, kind, none⟩) := fun kind =>
      LineFree.performs h hfill (by rw [hhas]; exact Bool.and_false _)
    exact ⟨⟨_, hdone .read, lineDo_read hs pa slot⟩, fun bs => ⟨_, hdone (.write bs), lineDo_write hf slot bs⟩,
      fun k off a b hoff => ⟨_, hdone (.atomic k off a b), lineDo_atomic hf slot a b hoff⟩⟩
  · have hneed : needsLine ⟨pa, slot, .write bs, none⟩ = false := by simp [needsLine, hwhole]
    exact ⟨_, LineFree.performs h hfill (by rw [hneed]; rfl), lineDo_write hf slot bs⟩
  · exact ⟨_, LineFree.performs h hfill rfl, lineDo_zero hf slot⟩
  · subst ho
    refine ⟨_, h.awaits hneed hhas, ?_, ?_, rfl⟩
    · rw [slice_setSlice_same]
    · rw [slice_setSlice_same]
  · obtain ⟨hother, helems⟩ := lineReduce_spec (slot := slot) hf hl
    refine ⟨_, h.reduces hfill l, hother, fun i hi => (helems i hi).trans ?_⟩
    cases ha : l[i]? with
    | none => exact if_neg fun hmem => by simp [ha, mem_masked_iff hl] at hmem
    | some a =>
      dsimp only
      by_cases hlt : a < 2 ^ 32
      · rw [if_pos ((mem_masked_iff hl i).2 ⟨a, ha, hlt⟩), if_pos hlt, sumAt_masked hl ha hlt]
      · rw [if_neg hlt]
        exact if_neg fun hmem => by
          obtain ⟨b, hb, hblt⟩ := (mem_masked_iff hl i).1 hmem
          rw [ha] at hb
          cases hb
          exact hlt hblt
  · exact ⟨_, h.fillReturns hsome, h.noFill_fillReturn, fun hmine hnone => fill_loneRead hs hmine hnone⟩

end Sys2Proof.Laws
end
